-- ==== Sys2Proof/Word.lean ====
section
/-! DEFINITION. The word types of the Zanjhol 3108: bytes and 32-bit words of the shared region, 16-bit audio
samples, and the sets the manual writes as masks. -/

namespace Sys2Proof

/-- A byte of the shared region. -/
abbrev Byte := BitVec 8

/-- A register, or a 4-byte number of the shared region. -/
abbrev Word := BitVec 32

/-- An audio sample, 16 bits, signed (section 11.6). -/
abbrev Sample := BitVec 16

/-- A set drawn from F0 to F7 (day flags), from buildings 0 to 7, or from the status flags. -/
abbrev Set8 := BitVec 8

/-- A set drawn from Z0 to Z63. -/
abbrev ZoneSet := BitVec 64

end Sys2Proof
end

