-- ==== Sys2Proof/Syntax.lean ====
section
/-! DEFINITION. The commands of the part: one constructor of `Instr` per row of spec/opcode_table.json, with the
row's operands, and the types of those operands. A command that ends a read of the shared region carries the bytes
read, since the region is the host's memory (log entry 8). -/

namespace Sys2Proof

/-- The slot a request was read from: its index, its notify flag and its tag (R192, section 11.6). -/
structure ReqHdr where
  slot : Nat
  notify : Bool
  tag : Word
deriving DecidableEq, Repr, Inhabited

/-- Parameters of SET DST RULE (R21), as the bytes of the slot give them; `none` is 0 for a rule (log entry 12). -/
structure DstParams where
  none : Nat
  startMonth : Nat
  startWeek : Nat
  startHour : Nat
  endMonth : Nat
  endWeek : Nat
  endHour : Nat
  offset : Nat
deriving DecidableEq, Repr, Inhabited

/-- Parameters of RING (R89). -/
structure RingParams where
  targetKind : Nat
  group : Nat
  zones : ZoneSet
  pattern : Nat
  level : Nat
  defer : Nat
  duration : Nat
deriving DecidableEq, Repr, Inhabited

/-- Parameters of ANNOUNCE (R106). -/
structure AnnounceParams where
  targetKind : Nat
  group : Nat
  zones : ZoneSet
  level : Nat
  source : Nat
  blockOffset : Nat
  chime : Nat
  duration : Nat
  onPreempt : Nat
  resume : Nat
  lateJoin : Nat
  wait : Nat
deriving DecidableEq, Repr, Inhabited

/-- A contact input's reading (R178). -/
inductive Reading where
  | closed
  | opened
  | highZ
deriving DecidableEq, Repr, Inhabited

/-- The condition of one path of a field line (R155). -/
inductive PathCond where
  | normal
  | opened
  | short
deriving DecidableEq, Repr, Inhabited

/-- What the two paths of one line read. -/
structure PathPair where
  a : PathCond
  b : PathCond
deriving DecidableEq, Repr, Inhabited

/-- A field node's kind (R166). -/
inductive NodeKind where
  | clock
  | sounder
  | speaker
  | marshal
deriving DecidableEq, Repr, Inhabited

/-- A notice of a QUERY reply (R169). -/
inductive Notice where
  | keyClear
  | call
  | node (code : Nat)
deriving DecidableEq, Repr, Inhabited

/-- The frame kind a reply answers, with its kind-specific payload (R157, R158). A clock node's displayed time is
`none` for UNSET; a node of another kind displays nothing, and the field is not read. -/
inductive ReplyBody where
  | poll (kind : NodeKind) (shown : Option Nat)
  | query (notice : Notice)
  | assign (kind : NodeKind) (unit : Nat)
  | clearAddress
  | configure
  | loadPattern
  | setTime
  | route
deriving DecidableEq, Repr, Inhabited

/-- A reply frame (R157): whether its check is correct, its address, the five status flags, whether its payload
says the node refused the order, and its body. -/
structure Reply where
  checkOk : Bool
  addr : Nat
  localFault : Bool
  onBackup : Bool
  busy : Bool
  service : Bool
  key : Bool
  refused : Bool
  body : ReplyBody
deriving DecidableEq, Repr, Inhabited

/-- A claimant of a zone (R64). -/
inductive Claimant where
  | bell (num : Nat)
  | ann (num : Nat)
  | drill (num : Nat)
  | fire
deriving DecidableEq, Repr, Inhabited

/-- A cadence that the Pattern Unit times (R84, R95). -/
inductive CadenceRef where
  | bell (num zone : Nat)
  | chime (num : Nat)
  | drillZone (zone : Nat)
  | drillTone
deriving DecidableEq, Repr, Inhabited

/-- The commands: one constructor per row of spec/opcode_table.json, in the table's order. -/
inductive Instr where
  -- register writes (section 11.2)
  | run (v : Bool)
  | intEnable (v : Bool)
  | restart (paths : List PathPair)
  | factoryClear
  | regionBase (w : Word)
  | attention (w : Word)
  | cause (w : Word)
  | causeEnable (w : Word)
  | registerWriteOther (offset : Nat) (w : Word)
  -- requests (section 11.4)
  | setTime (q : ReqHdr) (day ms : Nat)
  | setTrim (q : ReqHdr) (trim : Int)
  | setReference (q : ReqHdr) (mode loss slew : Nat)
  | setDstRule (q : ReqHdr) (p : DstParams)
  | loadTableProfiles (q : ReqHdr) (count offset : Nat)
  | loadTableCalendar (q : ReqHdr) (count offset : Nat)
  | loadTableZones (q : ReqHdr) (count offset : Nat)
  | loadTableGroups (q : ReqHdr) (count offset : Nat)
  | loadTablePatterns (q : ReqHdr) (count offset : Nat)
  | loadTableChannels (q : ReqHdr) (count offset : Nat)
  | loadTableDrills (q : ReqHdr) (count offset : Nat)
  | loadTableCircuits (q : ReqHdr) (count offset tolerance : Nat)
  | loadTableLines (q : ReqHdr) (count offset : Nat)
  | loadTableMembers (q : ReqHdr) (count offset : Nat)
  | loadTableIo (q : ReqHdr) (offset : Nat)
  | switchSchedule (q : ReqHdr) (offset count window choice day : Nat)
  | setFlags (q : ReqHdr) (m1 m2 : Set8)
  | setTodayProfile (q : ReqHdr) (profile : Nat)
  | ring (q : ReqHdr) (p : RingParams)
  | announce (q : ReqHdr) (p : AnnounceParams)
  | endAnnouncement (q : ReqHdr) (number : Nat)
  | startDrill (q : ReqHdr) (drill : Nat)
  | stopSounding (q : ReqHdr)
  | allClear (q : ReqHdr)
  | endDrill (q : ReqHdr)
  | resumeAfterAlarm (q : ReqHdr)
  | setDial (q : ReqHdr) (circuit position polarity : Nat)
  | enumerateLine (q : ReqHdr) (line : Nat)
  | renumberLine (q : ReqHdr) (line : Nat)
  | setNode (q : ReqHdr) (line addr action : Nat)
  | clearFaultsLine (q : ReqHdr) (line : Nat)
  | clearFaultsCircuit (q : ReqHdr) (circuit : Nat)
  | driveOutput (q : ReqHdr) (output action duration : Nat)
  | readStatusTime (q : ReqHdr) (offset : Nat)
  | readStatusZones (q : ReqHdr) (offset : Nat)
  | readStatusLine (q : ReqHdr) (line offset : Nat)
  | readStatusCircuits (q : ReqHdr) (offset : Nat)
  | readStatusChannels (q : ReqHdr) (offset : Nat)
  | readStatusDrill (q : ReqHdr) (offset : Nat)
  -- completions of region accesses
  | hostFieldsRead (layout mark notify : Nat)
  | slotRead (data : List Byte)
  | readMarkRead (mark notify : Nat)
  | snapshotWriteDone
  | regionAccessBusError (offset : Nat)
  | profileRecordRead (data : List Byte)
  | calendarSpanRead (data : List Byte)
  | zoneRecordRead (data : List Byte)
  | groupRecordRead (data : List Byte)
  | patternRecordRead (data : List Byte)
  | channelRecordRead (data : List Byte)
  | drillRecordRead (data : List Byte)
  | circuitRecordRead (data : List Byte)
  | lineRecordRead (data : List Byte) (paths : List PathPair)
  | memberEntryRead (data : List Byte)
  | ioRecordRead (data : List Byte)
  | scheduleEntryRead (data : List Byte)
  | headerRead (data : List Byte)
  | headerReread (data : List Byte)
  | fetchComplete (samples : List Sample)
  | consumedWriteDone
  -- timed events of the link
  | slotScanSecond
  | readMarkPoll
  | controlBlockSecond
  -- the time base
  | timeAdvance
  | slewStep
  | referencePulse
  | referenceLost
  | lastValidPulseExpiry
  -- zones, cadences, announcements, drills
  | waitLimitExpiry (zone : Nat) (who : Claimant)
  | cadenceStep (c : CadenceRef)
  | bellCadenceEnd (bell zone : Nat)
  | chimeEnd (ann : Nat)
  | drillZoneCadenceEnd (zone : Nat)
  | allClearCadenceEnd (zone : Nat)
  | routingTimer (ann : Nat)
  | maxDurationReached (ann : Nat)
  | waitingMaxDuration (ann : Nat)
  | resumeDeadline (ann : Nat)
  | awaitingRereadTimer (ann : Nat)
  | samplesPlayed (channel : Nat) (live : List Sample)
  | starveLimit (channel : Nat)
  | noTalk (ann : Nat)
  | liveTailEnd (ann : Nat)
  | soundingTimeReached
  | evacuationTargetReached
  -- impulse circuits
  | pulseStart (circuit : Nat)
  | pulseComplete (circuit : Nat) (current : Bool)
  -- field lines
  | frameSent (line : Nat)
  | replyReceived (line : Nat) (reply : Reply)
  | attemptTimeout (line : Nat) (reading : PathCond)
  | busyHoldEnd (line addr : Nat)
  | supervisionCycleStart (line : Nat) (readings : PathPair)
  -- wiring and supply
  | plainDriveRelease (output : Nat)
  | inputReadingChange (input : Nat) (reading : Reading)
  | debouncedValueChange (input : Nat)
  | mainSupplyLoss
  | backupSupplyDrop
  | mainSupplyReturn (paths : List PathPair)
  | settlingEnd
  | settlingTimeout
deriving DecidableEq, Repr

end Sys2Proof
end

