-- ==== Sys2Proof/Decode.lean ====
section
/-! DEFINITION. What the bytes of the shared region spell: little-endian fields (section 11.2), and the request a
slot of 64 bytes holds (sections 11.4 and 11.6). The rows of spec/opcode_table.json give no bits, so
`decodeTableWord` answers none. -/

namespace Sys2Proof

/-- Byte `i` of what was read. -/
def byteAt (d : List Byte) (i : Nat) : Nat := (d.getD i 0).toNat

/-- The `n`-byte field at byte `i`, least significant byte first (section 11.2). -/
def leAt (d : List Byte) (i : Nat) : Nat → Nat
  | 0 => 0
  | n + 1 => byteAt d i + 256 * leAt d (i + 1) n

/-- A 4-byte field read as a signed number (SET TRIM's trim, section 11.4). -/
def signed32 (v : Nat) : Int := if v < 0x80000000 then v else (v : Int) - 0x100000000

/-- A slot's request: a command, or the reason RI refuses it before any block sees it (R192, R193, R194). -/
inductive SlotRequest where
  | request (i : Instr)
  | badKind
  | badParameter
deriving DecidableEq, Repr

/-- The header of a slot (section 11.6): state 1; kind 1; notify 1; outcome 1; tag 4. A notify byte other than 0 is
taken as set (log entry 12). -/
def slotHdr (slot : Nat) (d : List Byte) : ReqHdr :=
  ⟨slot, byteAt d 2 != 0, BitVec.ofNat 32 (leAt d 4 4)⟩

/-- Parameter byte `i` of a slot. -/
def parm (d : List Byte) (i : Nat) : Nat := byteAt d (8 + i)
/-- The `n`-byte parameter at parameter byte `i`. -/
def parmLe (d : List Byte) (i n : Nat) : Nat := leAt d (8 + i) n

/-- LOAD TABLE by its table code (section 11.6): table 1, count 2, offset 4, clock tolerance 1. -/
def decodeLoad (q : ReqHdr) (d : List Byte) : SlotRequest :=
  let count := parmLe d 1 2
  let offset := parmLe d 3 4
  match parm d 0 with
  | 0 => .request (.loadTableProfiles q count offset)
  | 1 => .request (.loadTableCalendar q count offset)
  | 2 => .request (.loadTableZones q count offset)
  | 3 => .request (.loadTableGroups q count offset)
  | 4 => .request (.loadTablePatterns q count offset)
  | 5 => .request (.loadTableChannels q count offset)
  | 6 => .request (.loadTableDrills q count offset)
  | 7 => .request (.loadTableCircuits q count offset (parm d 7))
  | 8 => .request (.loadTableLines q count offset)
  | 9 => .request (.loadTableMembers q count offset)
  | 10 => .request (.loadTableIo q offset)
  | _ => .badParameter

/-- READ STATUS: which 1, line 1, offset 4 (R194). -/
def decodeRead (q : ReqHdr) (d : List Byte) : SlotRequest :=
  let offset := parmLe d 2 4
  match parm d 0 with
  | 0 => .request (.readStatusTime q offset)
  | 1 => .request (.readStatusZones q offset)
  | 2 => .request (.readStatusLine q (parm d 1) offset)
  | 3 => .request (.readStatusCircuits q offset)
  | 4 => .request (.readStatusChannels q offset)
  | 5 => .request (.readStatusDrill q offset)
  | _ => .badParameter

/-- CLEAR FAULTS: target 1 (LINE, CIRCUIT), number 1. -/
def decodeClear (q : ReqHdr) (d : List Byte) : SlotRequest :=
  match parm d 0 with
  | 0 => .request (.clearFaultsLine q (parm d 1))
  | 1 => .request (.clearFaultsCircuit q (parm d 1))
  | _ => .badParameter

/-- SET DST RULE: none 1, start month, week, hour 1 each, end month, week, hour 1 each, offset 1. -/
def decodeDst (d : List Byte) : DstParams :=
  ⟨parm d 0, parm d 1, parm d 2, parm d 3, parm d 4, parm d 5, parm d 6, parm d 7⟩

/-- RING: target kind 1, group 1, zone set 8, pattern 1, level 1, defer 1, duration 2. -/
def decodeRing (d : List Byte) : RingParams :=
  ⟨parm d 0, parm d 1, BitVec.ofNat 64 (parmLe d 2 8), parm d 10, parm d 11, parm d 12, parmLe d 13 2⟩

/-- ANNOUNCE: target kind 1, group 1, zone set 8, level 1, source 1, block offset 4, chime 1, duration 2, on-preempt 1,
resume 2, late join 1, wait 1. -/
def decodeAnnounce (d : List Byte) : AnnounceParams :=
  ⟨parm d 0, parm d 1, BitVec.ofNat 64 (parmLe d 2 8), parm d 10, parm d 11, parmLe d 12 4, parm d 16, parmLe d 17 2,
    parm d 19, parmLe d 20 2, parm d 22, parm d 23⟩

/-- The request in a slot's bytes: the kinds are numbered from 1 in the order of the request kinds table. -/
def decodeSlot (slot : Nat) (d : List Byte) : SlotRequest :=
  let q := slotHdr slot d
  match byteAt d 1 with
  | 1 => .request (.setTime q (parmLe d 0 2) (parmLe d 2 4))
  | 2 => .request (.setTrim q (signed32 (parmLe d 0 4)))
  | 3 => .request (.setReference q (parm d 0) (parmLe d 1 2) (parmLe d 3 4))
  | 4 => .request (.setDstRule q (decodeDst d))
  | 5 => decodeLoad q d
  | 6 => .request (.switchSchedule q (parmLe d 0 4) (parmLe d 4 2) (parmLe d 6 2) (parm d 8) (parmLe d 9 2))
  | 7 => .request (.setFlags q (BitVec.ofNat 8 (parm d 0)) (BitVec.ofNat 8 (parm d 1)))
  | 8 => .request (.setTodayProfile q (parm d 0))
  | 9 => .request (.ring q (decodeRing d))
  | 10 => .request (.announce q (decodeAnnounce d))
  | 11 => .request (.endAnnouncement q (parm d 0))
  | 12 => .request (.startDrill q (parm d 0))
  | 13 => .request (.stopSounding q)
  | 14 => .request (.allClear q)
  | 15 => .request (.endDrill q)
  | 16 => .request (.resumeAfterAlarm q)
  | 17 => .request (.setDial q (parm d 0) (parmLe d 1 2) (parm d 3))
  | 18 => .request (.enumerateLine q (parm d 0))
  | 19 => .request (.renumberLine q (parm d 0))
  | 20 => .request (.setNode q (parm d 0) (parm d 1) (parm d 2))
  | 21 => decodeClear q d
  | 22 => .request (.driveOutput q (parm d 0) (parm d 1) (parmLe d 2 4))
  | 23 => decodeRead q d
  | _ => .badKind

/-- The command a table word spells. No row of spec/opcode_table.json gives bits, so no word spells a command. -/
def decodeTableWord (_nbits _w : Nat) : Option Instr := none

end Sys2Proof
end

