-- ==== Sys2Proof/Config.lean ====
section
/-! DEFINITION. The constants the manual fixes for the part (section "Capacities" and the register window), and the free values: constants WITHOUT A BODY, so that no proof can
see what they are. -/

namespace Sys2Proof.Config

/-- Part code read in IDENT, bits 31 to 16 (section 11.2). -/
def partCode : Nat := 0x3108
/-- Revision read in IDENT, bits 7 to 0. -/
def revision : Nat := 1
/-- The layout version the host writes before it sets RUN (R188). -/
def layoutVersion : Nat := 3

/-- First offset of the free area (R187's region table). -/
def freeFirst : Nat := 0x3000
/-- One past the last offset of the region of 1 MiB. -/
def regionEnd : Nat := 0x100000
/-- Offset of slot 0 (section 11.3). -/
def slotBase : Nat := 0x100
/-- Offset of log position 0 (section 11.3). -/
def logBase : Nat := 0x1000

def slotCount : Nat := 32
def holdCapacity : Nat := 32
def logFull : Nat := 255
def zoneCount : Nat := 64
def waitCapacity : Nat := 4
def bellCapacity : Nat := 64
def annCapacity : Nat := 12
def annWaitCapacity : Nat := 8
def fifoCapacity : Nat := 2048
def queueCapacity : Nat := 32
/-- Service traffic is enqueued while the queue holds fewer than this (R160). -/
def serviceRoom : Nat := 24
def nodeCapacity : Nat := 40

/-- FREE VALUE (log entry 10). How a detail word that carries SEVERAL values, or one value that is "none", holds
them: the manual names the values of each word in order and says nowhere how they share its 32 bits. A value that
is "none" stands as `Option.none`. -/
opaque packedWord : List (Option Int) → Word

/-- FREE VALUE (log entry 11). The number that stands for "none", "no value" or "unset" in a snapshot, where the
item is a number and the manual gives no code. -/
opaque noneWord : Word

/-- FREE VALUE (log entry 15). The millisecond field of the control block's time mirror while the time state is UNSET;
the manual gives the day (65535) alone. It may depend on the elapsed millisecond at which it is written. -/
opaque unsetMirrorMs : Nat → Word

/-- FREE VALUE (log entry 49). The word of a 32-bit field that is given a number no 32-bit word can hold. -/
opaque wideWord : Int → Word

end Sys2Proof.Config
end

