-- ==== Sys2Proof/Machine/State.lean ====
section
/-! DEFINITION. The state of the part: one structure per block, with every item of that block's holding table (sections
1.1, 2.1, 3.1, 4.1, 5.1, 6.1, 7.1, 8.1, 9.1, 10.1 and 11.1), the elapsed time, the supply, and the queue of
commands that wait. `State.reset` is the part at the beginning of a cold start (log entry 7). Items the manual calls derived (time
state, zone state, line state, relay demand, energized, interrupt line) are functions of State in Ops.lean. -/

namespace Sys2Proof.Machine
open Sys2Proof

/-! ### Time Base (section 1.1) -/

/-- A campus or civil time: a day number and a millisecond of day (R3). -/
structure CampusTime where
  day : Nat
  ms : Nat
deriving DecidableEq, Repr, Inhabited

inductive RefMode where
  | off
  | pulse
deriving DecidableEq, Repr, Inhabited

/-- The five time states of R1, in the order of section 1.1. -/
inductive TimeState where
  | unset
  | free
  | tracking
  | slewing
  | holdover
deriving DecidableEq, Repr, Inhabited

/-- A DST rule (R21); week 5 is LAST. -/
structure DstRule where
  startMonth : Nat
  startWeek : Nat
  startHour : Nat
  endMonth : Nat
  endWeek : Nat
  endHour : Nat
  offset : Nat
deriving DecidableEq, Repr, Inhabited

/-- This year's start instant S and end instant E, in campus standard time (R22). -/
structure Transitions where
  s : CampusTime
  e : CampusTime
deriving DecidableEq, Repr, Inhabited

structure TimeBase where
  campus : Option CampusTime
  trim : Int
  acc : Int
  pc : Int
  slewCount : Nat
  /-- MODEL: a slew step of −1 that R6 moved to the next nominal millisecond. -/
  slewLate : Bool
  /-- The elapsed time at which Pc last reached 0 (R6). -/
  slewEnd : Option Nat
  refMode : RefMode
  lossLimit : Nat
  slewLimit : Nat
  refLost : Bool
  /-- The elapsed time at which the reference was lost (R14). -/
  lostAt : Nat
  /-- The elapsed time of the entry into PULSE mode (R13). -/
  pulseEntry : Nat
  /-- The loss timer of R13, in milliseconds; it is held while saturated (R8). -/
  lossTimer : Nat
  lastPulse : Option Nat
  baseline : Option Nat
  baselineAwaited : Bool
  invalidPulses : Nat
  lastError : Int
  dst : Option DstRule
  trans : Option Transitions
  offset : Nat
  saturated : Bool
deriving DecidableEq, Repr, Inhabited

/-! ### Day Plan (section 2.1) -/

/-- A profile record (R27). -/
structure Profile where
  nameCode : Nat
  mask : Set8
  value : Set8
deriving DecidableEq, Repr, Inhabited

/-- A calendar span (R29); `weekdays` has Sunday at bit 0. -/
structure Span where
  first : Nat
  last : Nat
  weekdays : Set8
  profile : Nat
deriving DecidableEq, Repr, Inhabited

/-- Today's override: the profile and the day begun on which it was set. -/
structure DayOverride where
  profile : Nat
  day : Nat
deriving DecidableEq, Repr, Inhabited

/-- A table load in progress: the request it answers, the offset of its next record, the count, the
records read so far and whether one was clamped. -/
structure Load (α : Type) where
  q : ReqHdr
  nextOff : Nat
  count : Nat
  staged : List α
  clamped : Bool
deriving DecidableEq, Repr

structure DayPlan where
  profiles : List Profile
  calendar : List Span
  flags : Set8
  override : Option DayOverride
  dayBegun : Option Nat
  profileLoad : Option (Load Profile)
  calendarLoad : Option (Load Span)
deriving DecidableEq, Repr

/-! ### Schedule Engine (section 3.1) -/

/-- What an entry does, with the fields its kind uses (R40). -/
inductive EntryKind where
  | bell (group pattern level defer duration : Nat)
  | chime (group pattern level defer duration : Nat)
  | drill (number : Nat)
  | flags (m1 m2 : Set8)
  | mark (code : Nat)
deriving DecidableEq, Repr, Inhabited

/-- A condition on a day flag with its sense (R40). -/
structure Condition where
  flag : Nat
  sense : Bool
deriving DecidableEq, Repr, Inhabited

structure Entry where
  time : Nat
  profiles : BitVec 16
  cond : Option Condition
  kind : EntryKind
deriving DecidableEq, Repr, Inhabited

/-- A schedule with its catch-up window (R41). -/
structure Bank where
  entries : List Entry
  window : Nat
deriving DecidableEq, Repr, Inhabited

/-- The PENDING bank with its effective day. -/
structure PendingBank where
  bank : Bank
  effective : Nat
deriving DecidableEq, Repr, Inhabited

/-- The high-water mark (R47); the millisecond −1 is the instant before the day begins. -/
structure HighWater where
  day : Nat
  ms : Int
deriving DecidableEq, Repr, Inhabited

inductive SwitchChoice where
  | now
  | nextDay
  | atDay (n : Nat)
deriving DecidableEq, Repr, Inhabited

/-- A switch being validated (R42 to R46). -/
structure Switch where
  load : Load Entry
  window : Nat
  choice : SwitchChoice
deriving DecidableEq, Repr

structure Schedule where
  active : Bank
  waiting : Option PendingBank
  mark : Option HighWater
  profile : Nat
  switch : Option Switch
deriving DecidableEq, Repr

/-! ### Zone Arbiter (section 4.1) -/

/-- A zone record (R60). -/
structure ZoneRec where
  enabled : Bool
  building : Nat
  relays : BitVec 12
  sounds : Bool
  speaks : Bool
  evac : Bool
deriving DecidableEq, Repr, Inhabited

inductive OnPreempt where
  | leave
  | waitUntil (t : Nat)
  | waitFor (d : Nat)
deriving DecidableEq, Repr, Inhabited

/-- A sound order: a pattern and a length in milliseconds (R64). -/
structure SoundOrder where
  pattern : Nat
  length : Nat
deriving DecidableEq, Repr, Inhabited

/-- A claim (R64). `arrival` is its number from the arrival counter. `grantEv` is the MODEL's: the number of the
event in which it was granted (R78 asks for the ROUTEs of that event). -/
structure Claim where
  who : Claimant
  level : Nat
  speaking : Bool
  mayWait : Bool
  waitLimit : Option Nat
  onPreempt : OnPreempt
  sound : Option SoundOrder
  arrival : Nat
  grantEv : Nat
deriving DecidableEq, Repr, Inhabited

inductive Cadence where
  | on
  | off
  | quiet
deriving DecidableEq, Repr, Inhabited

/-- The zone states of R63, in the order of section 4.1. -/
inductive ZoneState where
  | out
  | idle
  | bell
  | page
  | evac
  | silenced
deriving DecidableEq, Repr, Inhabited

structure ZoneDyn where
  holder : Option Claim
  waiters : List Claim
  reserved : Option Claimant
  cadence : Cadence
deriving DecidableEq, Repr, Inhabited

structure FeedHolder where
  who : Claimant
  level : Nat
deriving DecidableEq, Repr, Inhabited

structure ZoneArbiter where
  table : List ZoneRec
  groups : List ZoneSet
  zones : List ZoneDyn
  feeds : List (Option FeedHolder)
  fireReported : Bool
  arrival : Nat
  zoneLoad : Option (Load ZoneRec)
  groupLoad : Option (Load ZoneSet)
deriving DecidableEq, Repr

/-! ### Pattern Unit (section 5.1) -/

structure PatStep where
  on : Nat
  off : Nat
deriving DecidableEq, Repr, Inhabited

/-- A pattern (R83); one with no steps is empty. -/
structure Pattern where
  steps : List PatStep
  repeats : Nat
  freq : Nat
  level : Nat
deriving DecidableEq, Repr, Inhabited

inductive BellSource where
  | entry (index lateness : Nat)
  | ring (tag : Word)
  | push (input : Nat)
deriving DecidableEq, Repr, Inhabited

inductive BellZoneState where
  | sounding
  | waiting
  | finished
  | truncated
  | missed
deriving DecidableEq, Repr, Inhabited

structure BellZone where
  zone : Nat
  st : BellZoneState
  sounded : Bool
  start : Nat
deriving DecidableEq, Repr, Inhabited

/-- A bell occurrence (R87). -/
structure Bell where
  num : Nat
  source : BellSource
  pattern : Nat
  level : Nat
  length : Nat
  deadline : Nat
  zones : List BellZone
  staleReported : Bool
deriving DecidableEq, Repr, Inhabited

structure PatternUnit where
  table : List Pattern
  version : Nat
  load : Option (Load Pattern)
  bells : List Bell
  /-- Last bell started by each bell push input K0 to K11. -/
  lastPush : List (Option Nat)
deriving DecidableEq, Repr

/-! ### Announcement Unit (section 6.1) -/

/-- Why an announcement ended (R114), in that rule's order, and RESTART (R124). -/
inductive EndReason where
  | complete
  | maxTime
  | preempted
  | starved
  | cancelled
  | fire
  | linkLost
  | noZones
  | badBlock
  | noTalk
  | restart
deriving DecidableEq, Repr, Inhabited

inductive Owner where
  | ann (num : Nat)
  | drill
deriving DecidableEq, Repr, Inhabited

/-- A tone generator's output: a frequency and a level. -/
structure Tone where
  freq : Nat
  level : Nat
deriving DecidableEq, Repr, Inhabited

structure LastEnding where
  num : Nat
  reason : EndReason
deriving DecidableEq, Repr, Inhabited

/-- The settings of a channel (R101). -/
structure ChannelSet where
  trigger : Nat
  starveLimit : Nat
  liveTail : Nat
deriving DecidableEq, Repr, Inhabited

/-- A cadence run: its pattern, its start instant g and its length L (R84). -/
structure CadRun where
  pattern : Nat
  start : Nat
  length : Nat
deriving DecidableEq, Repr, Inhabited

structure Channel where
  cfg : ChannelSet
  owner : Option Owner
  fifo : List Sample
  tone : Option Tone
  starveFrom : Option Nat
  lastEnding : Option LastEnding
  /-- MODEL: the elapsed millisecond up to which the FIFO has been played. -/
  playedTo : Nat
  /-- The drill tone's cadence, while the drill owns the channel and it sounds (R104). -/
  drillCad : Option CadRun
  /-- The samples put out in the last played millisecond; empty is mid-scale silence (R120). -/
  output : List Sample
deriving DecidableEq, Repr, Inhabited

inductive AnnOrigin where
  | request (tag : Word)
  | entry (index : Nat)
deriving DecidableEq, Repr, Inhabited

inductive AnnSource where
  | blocks (first : Nat)
  | live (n : Nat)
  | toneOnly
deriving DecidableEq, Repr, Inhabited

/-- The states of R109, in that table's order. -/
inductive AnnState where
  | waiting
  | routing
  | chime
  | playing
  | held
  | ending
deriving DecidableEq, Repr, Inhabited

/-- A target zone's standing; `unclaimed` only within the event in which the zones are claimed. -/
inductive AnnZoneState where
  | unclaimed
  | held
  | waiting
  | lost
deriving DecidableEq, Repr, Inhabited

structure AnnZone where
  zone : Nat
  st : AnnZoneState
  /-- The claim waits because it rejoined after a preemption under HOLD (R112). -/
  rejoined : Bool
  routed : Bool
deriving DecidableEq, Repr, Inhabited

/-- The current block of a BLOCKS source (R105, R116). -/
structure Block where
  offset : Nat
  count : Nat
  fetched : Nat
  next : Nat
  last : Bool
deriving DecidableEq, Repr, Inhabited

inductive TalkState where
  | beforeTalk
  | talking
  | tail
  | ended
deriving DecidableEq, Repr, Inhabited

/-- The region access of an announcement that has been asked for and has not completed. -/
inductive AnnAccess where
  | header (offset : Nat)
  | reread
  | fetch (n : Nat)
  | consumed (next : Option Nat)
deriving DecidableEq, Repr, Inhabited

/-- An announcement record (R105), with the instants its timers run from. -/
structure Ann where
  num : Nat
  origin : AnnOrigin
  level : Nat
  source : AnnSource
  chime : Option Nat
  maxDur : Nat
  hold : Bool
  resume : Nat
  lateJoin : Bool
  mayWait : Bool
  arrival : Nat
  st : AnnState
  channel : Option Nat
  zones : List AnnZone
  /-- Each failed ROUTE transaction reported so far (R78), by the zones it was reported for (R110). -/
  failed : List (List Nat)
  prior : AnnState
  timePlayed : Nat
  fetched : Nat
  played : Nat
  discarded : Nat
  block : Option Block
  /-- Awaiting a successor: the instant of its next 100 ms re-read. -/
  awaiting : Option Nat
  /-- A re-read called for while another access was in flight (R119). -/
  rereadDue : Bool
  /-- The source has ended (R118 case 1, or talk state ended). -/
  sourceEnded : Bool
  /-- CONSUMED has been begun for the current block (R118). -/
  consumedBegun : Bool
  talk : Option TalkState
  noTalkAt : Option Nat
  tailEnd : Option Nat
  access : Option AnnAccess
  takenAt : Nat
  routingAt : Nat
  chimeAt : Nat
  heldAt : Nat
  endReason : Option EndReason
deriving DecidableEq, Repr, Inhabited

structure AnnUnit where
  channels : List Channel
  anns : List Ann
  /-- The wait list: announcement numbers, best first. -/
  waitList : List Nat
  counter : Nat
  arrival : Nat
  load : Option (Load ChannelSet)
deriving DecidableEq, Repr

/-! ### Drill Controller (section 7.1) -/

structure DrillRec where
  defined : Bool
  buildings : Set8
  sounding : Nat
  target : Nat
  tone : Bool
  allClear : Option Nat
  group : Nat
deriving DecidableEq, Repr, Inhabited

inductive DrillOrigin where
  | request (tag : Word)
  | entry (index : Nat)
  | key (input : Nat)
deriving DecidableEq, Repr, Inhabited

inductive DrillPhase where
  | sounding
  | evacuating
  | allClear
deriving DecidableEq, Repr, Inhabited

inductive ClearSource where
  | node (line addr : Nat)
  | input (k : Nat)
deriving DecidableEq, Repr, Inhabited

structure DrillBuilding where
  building : Nat
  clear : Option Nat
  source : Option ClearSource
  late : Bool
deriving DecidableEq, Repr, Inhabited

/-- A zone the drill holds: its running cadence, whether it takes part in the all-clear and whether that has ended. -/
structure DrillZone where
  zone : Nat
  cad : Option CadRun
  inAllClear : Bool
  ended : Bool
deriving DecidableEq, Repr, Inhabited

structure ActiveDrill where
  num : Nat
  record : DrillRec
  origin : DrillOrigin
  phase : DrillPhase
  start : Nat
  channel : Option Nat
  tone : Bool
  zones : List DrillZone
  buildings : List DrillBuilding
  /-- The evacuation target has been reached (R133). -/
  targetReached : Bool
deriving DecidableEq, Repr, Inhabited

inductive DrillEnd where
  | complete
  | aborted
  | fire
  | restart
deriving DecidableEq, Repr, Inhabited

structure DrillSummary where
  num : Nat
  reason : DrillEnd
  buildings : List DrillBuilding
deriving DecidableEq, Repr, Inhabited

structure DrillControl where
  records : List DrillRec
  load : Option (Load DrillRec)
  active : Option ActiveDrill
  last : Option DrillSummary
  fireActive : Bool
  /-- The elapsed time at which the fire input became active (FIRE ALARM OFF reports the time it was). -/
  fireSince : Nat
  silenceHeld : Bool
deriving DecidableEq, Repr

/-! ### Clock Unit (section 8.1) -/

inductive Polarity where
  | positive
  | negative
deriving DecidableEq, Repr, Inhabited

/-- The circuit states of R142, in that table's order. -/
inductive CircuitState where
  | off
  | unset
  | inStep
  | catchingUp
  | holding
  | fault
deriving DecidableEq, Repr, Inhabited

/-- The pulse being sent. `void`: SET DIAL came while it was on, so its completion counts for nothing (R148). -/
structure Pulse where
  polarity : Polarity
  start : Nat
  width : Nat
  void : Bool
deriving DecidableEq, Repr, Inhabited

/-- The settings of a circuit as a staged record gives them (R143). -/
structure CircuitSet where
  enabled : Bool
  dial : Nat
  width : Nat
  catchUp : Nat
  holdLimit : Nat
deriving DecidableEq, Repr, Inhabited

structure Circuit where
  cfg : CircuitSet
  pos : Nat
  polarity : Polarity
  st : CircuitState
  openCount : Nat
  pulse : Option Pulse
  prevStart : Option Nat
  nextAt : Option Nat
deriving DecidableEq, Repr, Inhabited

/-- A circuit load also carries the clock tolerance. -/
structure CircuitLoad where
  load : Load CircuitSet
  tolerance : Nat
deriving DecidableEq, Repr

structure ClockUnit where
  circuits : List Circuit
  tolerance : Nat
  load : Option CircuitLoad
deriving DecidableEq, Repr

/-! ### Line Controllers (section 9.1) -/

/-- A line's configuration (R154); the bypass set has NO REPLY, BAD REPLY, NODE FAULT, POWER at bits 0 to 3. -/
structure LineCfg where
  enabled : Bool
  timeout : Nat
  retries : Nat
  alternate : Bool
  threshold : Nat
  bypass : BitVec 4
  period : Nat
deriving DecidableEq, Repr, Inhabited

inductive Path where
  | a
  | b
deriving DecidableEq, Repr, Inhabited

/-- The condition of a path with its last reading (R155). -/
structure PathState where
  cond : PathCond
  reading : Option PathCond
deriving DecidableEq, Repr, Inhabited

/-- The line states of R156, in the order of section 9.1. -/
inductive LineState where
  | off
  | up
  | degraded
  | failed
deriving DecidableEq, Repr, Inhabited

inductive NodeState where
  | absent
  | unknown
  | present
  | suspect
  | faulted
deriving DecidableEq, Repr, Inhabited

/-- A running pattern refresh: its target version and the next pattern to send (R96). -/
structure Refresh where
  target : Nat
  next : Nat
  /-- MODEL: the event the refresh began in, so that a LOAD PATTERN left in flight by an earlier one is not taken for its own (R97). -/
  began : Nat
deriving DecidableEq, Repr, Inhabited

/-- A node record (R166). `shown` is a clock's last displayed time: `some none` is UNSET. -/
structure Node where
  addr : Nat
  kind : NodeKind
  unit : Nat
  chain : Nat
  pref : Path
  st : NodeState
  fails : Nat
  zones : List Nat
  role : Nat
  configured : Bool
  queryNeeded : Bool
  answering : Bool
  busyUntil : Option Nat
  version : Option Nat
  refresh : Option Refresh
  shown : Option (Option Nat)
deriving DecidableEq, Repr, Inhabited

/-- The transaction kinds of R158 with their payloads. A CONFIGURE and a SET TIME take their payload as the frame is
sent (`Frame`); a SET TIME carries the difference that called for it, for CLOCK CORRECTED. -/
inductive TxKind where
  | poll
  | query
  | assign (addr : Nat)
  | clearAddress
  | configure
  | loadPattern (n version : Nat) (pat : Pattern)
  | setTime (diff : Option Int)
  | timeAll (day minute : Nat) (dst : Bool)
  | sound (pattern length : Nat)
  | soundStop
  | soundStopAll
  | route (mask : BitVec 4)
  | routeOffAll
deriving DecidableEq, Repr, Inhabited

inductive Dest where
  | node (addr : Nat)
  | unaddressed
  | zone (z : Nat)
  | all
deriving DecidableEq, Repr, Inhabited

/-- An announcement's zone that waits for a ROUTE to complete (R78). -/
structure Watch where
  ann : Nat
  zone : Nat
deriving DecidableEq, Repr, Inhabited

/-- A transaction (R158). `event` and `watch` are the MODEL's account of R78's routing notices. -/
structure Tx where
  kind : TxKind
  cls : Nat
  dest : Dest
  event : Nat
  watch : List Watch
  /-- Its node was set aside or removed while it was in flight: its outcome changes no node record (R165). -/
  stale : Bool
  /-- The kind of its node at the moment that was set aside or removed (R169 asks for it at a QUERY's completion). -/
  nodeKind : Option NodeKind
deriving DecidableEq, Repr, Inhabited

/-- A payload that is taken when the frame is sent. -/
inductive Frame where
  | fixed
  | time (day ms : Nat) (dst : Bool)
  | members (zones : List Nat) (role : Nat)
deriving DecidableEq, Repr, Inhabited

/-- The transaction in flight: its attempt number and path, the frame sent, the end of its response timeout (none
while the frame is being sent), and whether it has one attempt only. -/
structure InFlight where
  tx : Tx
  attempt : Nat
  path : Path
  both : Bool
  frame : Frame
  timeoutAt : Option Nat
  single : Bool
  /-- The response timeout of the attempt, as it was when the attempt began (R154). -/
  timeout : Nat
deriving DecidableEq, Repr, Inhabited

/-- Deferred service traffic (R160). -/
inductive Deferred where
  | query (addr : Nat)
  | configure (addr : Nat)
  | enumeration
  | loadPattern (addr : Nat)
  | poll (addr : Nat)
deriving DecidableEq, Repr, Inhabited

/-- The supervision cycle (R173): running with the next address to poll; its last start, and the supervision period from that start
(a new one applies from the next start, R154). -/
structure Cycle where
  running : Bool
  next : Nat
  lastStart : Option Nat
  period : Nat
deriving DecidableEq, Repr, Inhabited

inductive EnumPhase where
  | clearing
  | assigning
deriving DecidableEq, Repr, Inhabited

/-- An enumeration or renumbering (R174, R175). -/
structure Enumeration where
  phase : EnumPhase
  offered : Option Nat
  found : Nat
  cleared : Nat
  tag : Word
  /-- MODEL: the number of the event in which it began; a CLEAR ADDRESS offered before belongs to one that has ended (R175). -/
  began : Nat
deriving DecidableEq, Repr, Inhabited

structure Line where
  cfg : LineCfg
  pathA : PathState
  pathB : PathState
  queue : List Tx
  inFlight : Option InFlight
  deferred : List Deferred
  nodes : List Node
  /-- The fault summary: NO REPLY, BAD REPLY, REJECT, NODE FAULT, POWER at bits 0 to 4. -/
  summary : BitVec 5
  cycle : Cycle
  enumeration : Option Enumeration
deriving DecidableEq, Repr, Inhabited

/-- A member table entry (R171). -/
structure Member where
  unit : Nat
  building : Nat
  zones : List Nat
  role : Nat
deriving DecidableEq, Repr, Inhabited

structure LineControl where
  lines : List Line
  members : List Member
  lineLoad : Option (Load LineCfg)
  memberLoad : Option (Load Member)
  /-- MODEL: what the lines will read first as the settling of a retained start ends, line by line; the command that begins the start
  gives it (R177). -/
  startReads : List PathPair
deriving DecidableEq, Repr

/-! ### I/O Unit (section 10.1) -/

inductive InFunc where
  | plain
  | fireAlarm
  | marshalClear (building : Nat)
  | bellPush (group pattern : Nat)
  | drillKey (drill : Nat)
  | ptt (live : Nat)
  | reference
deriving DecidableEq, Repr, Inhabited

inductive OutFunc where
  | plain
  | zone
  | drillLamp
  | trouble
deriving DecidableEq, Repr, Inhabited

/-- A debounced value. -/
inductive Contact where
  | closed
  | opened
deriving DecidableEq, Repr, Inhabited

/-- What an input holds at present: the instant it began, which may lie before the end of settling (R185) and so is an integer, and the
debounce time it is held to, which is the one in force when it began (R180). -/
structure Hold where
  since : Int
  time : Nat
deriving DecidableEq, Repr, Inhabited

/-- An input. `exact` is the hold of its reading; `counted` is that of the value its reading counts as, HIGH IMPEDANCE being OPEN (R178). -/
structure Input where
  func : InFunc
  debounce : Nat
  reading : Reading
  exact : Hold
  counted : Hold
  value : Option Contact
deriving DecidableEq, Repr, Inhabited

structure Output where
  func : OutFunc
  driven : Bool
  releaseAt : Option Nat
deriving DecidableEq, Repr, Inhabited

/-- The part of a staged IO table read so far (R180): the header, then inputs, then outputs. -/
structure IoLoad where
  q : ReqHdr
  nextOff : Nat
  clamped : Bool
  header : Option (Bool × BitVec 6)
  ins : List (InFunc × Nat)
  outs : List OutFunc
deriving DecidableEq, Repr

structure IoUnit where
  inputs : List Input
  outputs : List Output
  /-- The safety pair setting is ENABLED. -/
  safetyPair : Bool
  /-- LINE, NODE, REFERENCE, CIRCUIT, LINK, FIRE INPUT at bits 0 to 5. -/
  troubleMask : BitVec 6
  trouble : BitVec 6
  /-- The fire input supervision is OPEN CIRCUIT. -/
  fireOpen : Bool
  load : Option IoLoad
deriving DecidableEq, Repr

/-! ### Supply (section 10.5) -/

inductive StartKind where
  | cold
  | retained
deriving DecidableEq, Repr, Inhabited

/-- The supply monitor and the start (R184, R185). -/
structure Supply where
  main : Bool
  backupHeld : Bool
  settling : Bool
  kind : StartKind
deriving DecidableEq, Repr, Inhabited

/-! ### Region Interface (section 11.1) -/

inductive LinkState where
  | detached
  | attaching
  | attached
  | fault
deriving DecidableEq, Repr, Inhabited

/-- The outcomes of R193, in that table's order. -/
inductive Outcome where
  | done
  | doneClamped
  | badKind
  | badParameter
  | outOfRange
  | busy
  | notReady
  | state
  | fireActive
  | noChannel
  | tableInvalid
  | regionOffset
deriving DecidableEq, Repr, Inhabited

/-- An outcome with the result words the owning rule gives. -/
structure Answered where
  outcome : Outcome
  words : List Word
deriving DecidableEq, Repr, Inhabited

structure TakenSlot where
  q : ReqHdr
  held : Option Answered
deriving DecidableEq, Repr, Inhabited

inductive Scan where
  | idle
  | scanning
  | scanningDue
deriving DecidableEq, Repr, Inhabited

/-- The tables of LOAD TABLE, in the order of their codes (section 11.6). -/
inductive TableCode where
  | profiles
  | calendar
  | zones
  | groups
  | patterns
  | channels
  | drills
  | circuits
  | lines
  | members
  | io
deriving DecidableEq, Repr, Inhabited

/-- A region access that a completion row of the table ends (R191). An announcement is named by its arrival number,
which no later announcement shares. -/
inductive Access where
  | hostFields
  | readMark (scan : Bool)
  | slot (n : Nat)
  | record (t : TableCode)
  | scheduleEntry
  | header (id : Nat)
  | reread (id : Nat)
  | fetch (id n : Nat)
  | consumed (id offset : Nat)
  | snapshot (q : ReqHdr) (offset seq : Nat) (words : List Word)
  /-- The one in flight as its link went down: it completes with its result discarded (R189). -/
  | discarded (a : Access)
deriving DecidableEq, Repr, Inhabited

/-- The record kinds, in the order of first naming (section 11.6). -/
inductive RecKind where
  | timeStepped | dstChanged | referenceLost | referenceRestored | phaseCorrected | trimChanged | timeLimit
  | flagsChanged | profileChanged | tableLoaded
  | dayBegun | daysSkipped | scheduleSwitched | schedulePending | scheduleSkipped | entryLate | entryNotFired
  | drillNotStarted | mark
  | zonePreempted
  | bellFired | bellLate | bellMissed | bellTruncated | bellEnded | stalePattern
  | annRouted | annHeld | annResumed | annEnded
  | drillStarted | drillPhase | buildingClear | buildingLate | buildingResult | drillEnded
  | fireAlarmOn | fireAlarmOff | silenceReleased
  | circuitState | dialSet | clockCorrected
  | lineState | pathState | nodeFaulted | nodeRestored | nodeFound | nodeNotice | transactionFailed | enumerationDone
  | faultsCleared
  | inputChanged | troubleChanged
  | started | overflow | linkFault
deriving DecidableEq, Repr, Inhabited

inductive Category where
  | routine
  | attention
  | alarm
deriving DecidableEq, Repr, Inhabited

/-- The blocks, in the order of the block overview (00_scope.md). -/
inductive BlockId where
  | tb | dp | se | za | pu | au | dc | cu | lc | io | ri
deriving DecidableEq, Repr, Inhabited

/-- The values one detail word carries, in the order the record table names them; `none` is "none". -/
abbrev Detail := List (Option Int)

/-- A record as its block makes it. -/
structure Note where
  kind : RecKind
  cat : Category
  src : BlockId
  index : Nat
  tag : Word
  d0 : Detail
  d1 : Detail
  d2 : Detail
deriving DecidableEq, Repr, Inhabited

/-- A record with its stamp (R195). -/
structure LogRecord where
  note : Note
  day : Nat
  ms : Nat
  offset : Nat
deriving DecidableEq, Repr, Inhabited

/-- Bytes of the region by offset, in canonical form: offsets strictly rising. An offset that is not listed holds
no byte of the part's (log entry 8). -/
abbrev Memory := List Host.Cell

structure RegionIf where
  run : Bool
  intEnable : Bool
  /-- Bits 31 to 20 of REGION BASE. -/
  base : BitVec 12
  /-- LOG, LOG HALF, SLOTS, LINK at bits 0 to 3. -/
  cause : BitVec 4
  causeEnable : BitVec 4
  link : LinkState
  taken : List TakenSlot
  scan : Scan
  writeIndex : Nat
  readMark : Nat
  nextSeq : Nat
  hold : List LogRecord
  lost : Nat
  totalLost : Nat
  /-- The notify categories last read: ROUTINE, ATTENTION, ALARM at bits 0 to 2 (R196). -/
  notify : Word
  /-- No attach has been made since the last start (R197). -/
  firstAttach : Bool
  scanAt : Nat
  pollAt : Nat
  blockAt : Nat
  accesses : List Access
  /-- The bytes the part has written into the region. -/
  region : Memory
deriving DecidableEq, Repr

/-- The whole part. -/
structure State where
  /-- Elapsed time in milliseconds; during settling, the time since settling began (R185). -/
  elapsed : Nat
  supply : Supply
  tb : TimeBase
  dp : DayPlan
  se : Schedule
  za : ZoneArbiter
  pu : PatternUnit
  au : AnnUnit
  dc : DrillControl
  cu : ClockUnit
  lc : LineControl
  io : IoUnit
  ri : RegionIf
  /-- MODEL: the number of the present event (see `Claim.grantEv`). -/
  eventNo : Nat
  /-- The commands that wait, first in, first out. -/
  pending : List Instr
deriving DecidableEq, Repr

/-- No command stops the part: the manual gives every row of the table an effect, or none (log entry 5). -/
inductive Fault where
deriving DecidableEq, Repr

/-- Why a command has no meaning. -/
inductive Refusal where
  /-- Raised by `exec` alone, for a row whose meaning is not written. Safe: nothing is claimed of it. -/
  | notModelled (mnemonic : String)
deriving DecidableEq, Repr

/-! ### Values at a cold start -/

/-- R25. -/
def TimeBase.cold : TimeBase where
  campus := none
  trim := 0
  acc := 0
  pc := 0
  slewCount := 0
  slewLate := false
  slewEnd := none
  refMode := .off
  lossLimit := 30
  slewLimit := 2000
  refLost := false
  lostAt := 0
  pulseEntry := 0
  lossTimer := 0
  lastPulse := none
  baseline := none
  baselineAwaited := false
  invalidPulses := 0
  lastError := 0
  dst := none
  trans := none
  offset := 0
  saturated := false

def Profile.blank : Profile := ⟨0, 0, 0⟩

/-- R38. -/
def DayPlan.cold : DayPlan where
  profiles := List.replicate 16 Profile.blank
  calendar := []
  flags := 0
  override := none
  dayBegun := none
  profileLoad := none
  calendarLoad := none

/-- R58. -/
def Schedule.cold : Schedule where
  active := ⟨[], 120⟩
  waiting := none
  mark := none
  profile := 0
  switch := none

def ZoneRec.blank : ZoneRec := ⟨false, 0, 0, false, false, false⟩
def ZoneDyn.clear : ZoneDyn := ⟨none, [], none, .quiet⟩

/-- R81. -/
def ZoneArbiter.cold : ZoneArbiter where
  table := List.replicate 64 ZoneRec.blank
  groups := List.replicate 64 0
  zones := List.replicate 64 ZoneDyn.clear
  feeds := List.replicate 8 none
  fireReported := false
  arrival := 0
  zoneLoad := none
  groupLoad := none

/-- The fixed pattern 31 (R83). -/
def Pattern.evacuation : Pattern := ⟨[⟨500, 500⟩, ⟨500, 500⟩, ⟨500, 1500⟩], 0, 900, 15⟩

/-- An empty pattern. Its other fields are never used; a staged empty pattern keeps none of them (R85). -/
def Pattern.empty : Pattern := ⟨[], 0, 200, 0⟩

/-- R99. -/
def PatternUnit.cold : PatternUnit where
  table := List.replicate 31 Pattern.empty
  version := 0
  load := none
  bells := []
  lastPush := List.replicate 12 none

/-- The channel defaults of R101. -/
def ChannelSet.default : ChannelSet := ⟨1024, 2000, 500⟩
/-- A channel that is free (R123), with its settings and its last ending. -/
def Channel.free (cfg : ChannelSet) (last : Option LastEnding) : Channel :=
  ⟨cfg, none, [], none, none, last, 0, none, []⟩

/-- R123. -/
def AnnUnit.cold : AnnUnit where
  channels := List.replicate 4 (Channel.free .default none)
  anns := []
  waitList := []
  counter := 0
  arrival := 0
  load := none

/-- An undefined drill record (R140; its all-clear group, which the rule does not give, is G0: log entry 47). -/
def DrillRec.undefined : DrillRec := ⟨false, 0, 30, 60, false, none, 0⟩

/-- R140. -/
def DrillControl.cold : DrillControl where
  records := List.replicate 8 DrillRec.undefined
  load := none
  active := none
  last := none
  fireActive := false
  fireSince := 0
  silenceHeld := false

/-- R152. -/
def Circuit.cold : Circuit :=
  ⟨⟨false, 720, 500, 2000, 60⟩, 0, .negative, .off, 0, none, none, none⟩

/-- R152. -/
def ClockUnit.cold : ClockUnit where
  circuits := List.replicate 4 Circuit.cold
  tolerance := 2
  load := none

/-- R176. -/
def Line.cold : Line where
  cfg := ⟨false, 20, 2, true, 3, 0, 30⟩
  pathA := ⟨.opened, none⟩
  pathB := ⟨.opened, none⟩
  queue := []
  inFlight := none
  deferred := []
  nodes := []
  summary := 0
  cycle := ⟨false, 0, none, 30⟩
  enumeration := none

/-- R176. -/
def LineControl.cold : LineControl where
  lines := List.replicate 8 Line.cold
  members := []
  lineLoad := none
  memberLoad := none
  startReads := []

/-- R186; the reading is the wiring's own (log entry 7). -/
def Input.cold (r : Reading) : Input := ⟨.plain, 50, r, ⟨0, 50⟩, ⟨0, 50⟩, none⟩
def Output.cold : Output := ⟨.plain, false, none⟩

/-- R186, with the readings the twelve inputs give. -/
def IoUnit.cold (readings : List Reading) : IoUnit where
  inputs := readings.map Input.cold
  outputs := List.replicate 12 Output.cold
  safetyPair := true
  troubleMask := 0x3F
  trouble := 0
  fireOpen := false
  load := none

/-- R187 and R198: the Region Interface after any start. The region's bytes are the host's and stay. -/
def RegionIf.start (region : Memory) : RegionIf where
  run := false
  intEnable := false
  base := 0
  cause := 0
  causeEnable := 0
  link := .detached
  taken := []
  scan := .idle
  writeIndex := 0
  readMark := 0
  nextSeq := 1
  hold := []
  lost := 0
  totalLost := 0
  notify := 0
  firstAttach := true
  scanAt := 0
  pollAt := 0
  blockAt := 0
  accesses := []
  region := region

/-- The part at the beginning of a cold start, with the readings its inputs give (R184, R185). -/
def State.coldStart (readings : List Reading) (region : Memory) (pending : List Instr) : State where
  elapsed := 0
  supply := ⟨true, true, true, .cold⟩
  tb := .cold
  dp := .cold
  se := .cold
  za := .cold
  pu := .cold
  au := .cold
  dc := .cold
  cu := .cold
  lc := .cold
  io := .cold readings
  ri := .start region
  eventNo := 0
  pending := pending

/-- The machine right after reset: a cold start has begun and is settling (R184, R185). Every input reads OPEN, the
region holds no byte of the part's and no command waits (log entry 7, DESIGN CHOICE, unsafe). -/
def State.reset : State := State.coldStart (List.replicate 12 .opened) [] []

end Sys2Proof.Machine
end

