-- ==== Sys2Proof/Machine/Flags.lean ====
section
/-! DEFINITION. The flag and mask computations: the day flags (R33, R36), the causes and the interrupt line (R187), sets and clamps. -/

namespace Sys2Proof.Machine
open Sys2Proof

/-- R33: each flag is left, set, cleared or toggled by its bits in M1 and M2, all eight at once. -/
def flagChange (m1 m2 flags : Set8) : Set8 :=
  (flags &&& ~~~(m1 ||| m2)) ||| (m1 &&& ~~~m2) ||| (m1 &&& m2 &&& ~~~flags)

/-- R36: a profile's presets as one flag change: M1 the mask with value 1, M2 the mask with value 0. -/
def presetMasks (p : Profile) : Set8 × Set8 := (p.mask &&& p.value, p.mask &&& ~~~p.value)

/-- R35: a condition passes when there is none, or when the flag's value equals the sense. -/
def conditionPasses (flags : Set8) : Option Condition → Bool
  | none => true
  | some c => flags.getLsbD c.flag == c.sense

/-- Causes, at their bits of CAUSE (section 11.2). -/
def causeLog : BitVec 4 := 1
def causeLogHalf : BitVec 4 := 2
def causeSlots : BitVec 4 := 4
def causeLink : BitVec 4 := 8

/-- R187: a 1 written to a bit of CAUSE clears that cause, and a 0 leaves it. -/
def clearCauses (cause written : BitVec 4) : BitVec 4 := cause &&& ~~~written

/-- R187: the interrupt line is asserted while INT ENABLE is 1 and some bit is 1 in both CAUSE and CAUSE ENABLE. -/
def interruptLine (ri : RegionIf) : Bool := ri.intEnable && (ri.cause &&& ri.causeEnable != 0)

/-- The members of a zone set, ascending. -/
def zonesOf (m : ZoneSet) : List Nat := (List.range 64).filter m.getLsbD

/-- The members of a set of up to eight, ascending. -/
def membersOf (m : Set8) : List Nat := (List.range 8).filter m.getLsbD

/-- The set of the zone numbers of a list. -/
def zoneSetOf (l : List Nat) : ZoneSet := l.foldl (fun m z => m ||| BitVec.twoPow 64 z) 0

/-- A value moved to the nearest end of its range. -/
def clampNat (lo hi v : Nat) : Nat := if v < lo then lo else if hi < v then hi else v
def clampInt (lo hi v : Int) : Int := if v < lo then lo else if hi < v then hi else v

/-- A set with member `n` put in or taken out. -/
def withBit {w : Nat} (m : BitVec w) (n : Nat) (b : Bool) : BitVec w :=
  if b then m ||| BitVec.twoPow w n else m &&& ~~~BitVec.twoPow w n

end Sys2Proof.Machine
end

