-- ==== Sys2Proof/Machine/Operands.lean ====
section
/-! DEFINITION. The operand forms: region offsets, staged records (layouts of section 11.6, checks and clamps of the loading rules), audio block
headers, and the bytes the part writes: log records, numbers, outcomes. A staged record's decoder answers none for a record at fault, and
else the record with whether a value was clamped. -/

namespace Sys2Proof

/-! ### Codes of the operand types' named values (section 11.6; log entry 13) -/

def Claimant.kindCode : Claimant → Nat
  | .bell _ => 0 | .ann _ => 1 | .drill _ => 2 | .fire => 3
def Claimant.number : Claimant → Nat
  | .bell n => n | .ann n => n | .drill n => n | .fire => 0
def PathCond.code : PathCond → Nat
  | .normal => 0 | .opened => 1 | .short => 2
def NodeKind.code : NodeKind → Nat
  | .clock => 0 | .sounder => 1 | .speaker => 2 | .marshal => 3
def Reading.code : Reading → Nat
  | .closed => 0 | .opened => 1 | .highZ => 2

end Sys2Proof

namespace Sys2Proof.Machine
open Sys2Proof

/-! ### Offsets -/

/-- An item of `size` bytes at `off` lies wholly in the free area (R188's region table). One of no bytes does so up to the area's end, 0x100000
itself included (log entry 24). -/
def inFree (off size : Nat) : Bool := Config.freeFirst ≤ off && off + size ≤ Config.regionEnd

/-- The offset check of R28: a multiple of 4, and the staged table wholly in the free area. -/
def offsetOk (off size : Nat) : Bool := off % 4 == 0 && inFree off size

/-! ### Bytes written -/

/-- A number in `n` bytes, least significant byte first. -/
def leBytes : Nat → Nat → List Byte
  | 0, _ => []
  | n + 1, v => BitVec.ofNat 8 v :: leBytes n (v / 256)

/-- A 4-byte number. -/
def wordBytes (w : Word) : List Byte := leBytes 4 w.toNat

/-- A number of a snapshot or a detail word; a negative one in two's complement. A number that 32 bits cannot hold stands as the free
value of log entry 49. -/
def numWord (v : Int) : Word :=
  if -0x80000000 ≤ v ∧ v ≤ 0xFFFFFFFF then BitVec.ofInt 32 v else Config.wideWord v

/-- A number of a snapshot; "none" is the free value of log entry 11. -/
def snapWord : Option Int → Word
  | some v => numWord v
  | none => Config.noneWord

/-- A detail word: one number stands as itself; anything else as the free packing of log entry 10. -/
def detailWord : Detail → Word
  | [some v] => numWord v
  | d => Config.packedWord d

/-! ### Codes of named values (section 11.6; log entry 13) -/

def TimeState.code : TimeState → Nat
  | .unset => 0 | .free => 1 | .tracking => 2 | .slewing => 3 | .holdover => 4
def RefMode.code : RefMode → Nat
  | .off => 0 | .pulse => 1
def ZoneState.code : ZoneState → Nat
  | .out => 0 | .idle => 1 | .bell => 2 | .page => 3 | .evac => 4 | .silenced => 5
def Cadence.code : Cadence → Nat
  | .on => 0 | .off => 1 | .quiet => 2
def EndReason.code : EndReason → Nat
  | .complete => 0 | .maxTime => 1 | .preempted => 2 | .starved => 3 | .cancelled => 4 | .fire => 5 | .linkLost => 6
  | .noZones => 7 | .badBlock => 8 | .noTalk => 9 | .restart => 10
def AnnState.code : AnnState → Nat
  | .waiting => 0 | .routing => 1 | .chime => 2 | .playing => 3 | .held => 4 | .ending => 5
def DrillPhase.code : DrillPhase → Nat
  | .sounding => 0 | .evacuating => 1 | .allClear => 2
def DrillEnd.code : DrillEnd → Nat
  | .complete => 0 | .aborted => 1 | .fire => 2 | .restart => 3
def Polarity.code : Polarity → Nat
  | .positive => 0 | .negative => 1
def CircuitState.code : CircuitState → Nat
  | .off => 0 | .unset => 1 | .inStep => 2 | .catchingUp => 3 | .holding => 4 | .fault => 5
def Path.code : Path → Nat
  | .a => 0 | .b => 1
def LineState.code : LineState → Nat
  | .off => 0 | .up => 1 | .degraded => 2 | .failed => 3
def NodeState.code : NodeState → Nat
  | .absent => 0 | .unknown => 1 | .present => 2 | .suspect => 3 | .faulted => 4
def Contact.code : Contact → Nat
  | .closed => 0 | .opened => 1
def LinkState.code : LinkState → Nat
  | .detached => 0 | .attaching => 1 | .attached => 2 | .fault => 3
def StartKind.code : StartKind → Nat
  | .cold => 0 | .retained => 1
def TalkState.code : TalkState → Nat
  | .beforeTalk => 0 | .talking => 1 | .tail => 2 | .ended => 3
def TableCode.code : TableCode → Nat
  | .profiles => 0 | .calendar => 1 | .zones => 2 | .groups => 3 | .patterns => 4 | .channels => 5 | .drills => 6
  | .circuits => 7 | .lines => 8 | .members => 9 | .io => 10
def BlockId.code : BlockId → Nat
  | .tb => 0 | .dp => 1 | .se => 2 | .za => 3 | .pu => 4 | .au => 5 | .dc => 6 | .cu => 7 | .lc => 8 | .io => 9 | .ri => 10
def Category.code : Category → Nat
  | .routine => 0 | .attention => 1 | .alarm => 2
/-- The outcome values of R193. -/
def Outcome.code : Outcome → Nat
  | .done => 0 | .doneClamped => 1 | .badKind => 2 | .badParameter => 3 | .outOfRange => 4 | .busy => 5 | .notReady => 6
  | .state => 7 | .fireActive => 8 | .noChannel => 9 | .tableInvalid => 10 | .regionOffset => 11
/-- The slot state an outcome gives: DONE (2) for DONE and DONE CLAMPED, REFUSED (3) for every other (R193). -/
def Outcome.slotState : Outcome → Nat
  | .done => 2 | .doneClamped => 2 | _ => 3
/-- The outcome of a request decided as asked, with or without a clamped value. -/
def Outcome.ofClamped (clamped : Bool) : Outcome := if clamped then .doneClamped else .done

/-- The record kinds, numbered from 1 (section 11.6). -/
def RecKind.code : RecKind → Nat
  | .timeStepped => 1 | .dstChanged => 2 | .referenceLost => 3 | .referenceRestored => 4 | .phaseCorrected => 5
  | .trimChanged => 6 | .timeLimit => 7 | .flagsChanged => 8 | .profileChanged => 9 | .tableLoaded => 10
  | .dayBegun => 11 | .daysSkipped => 12 | .scheduleSwitched => 13 | .schedulePending => 14 | .scheduleSkipped => 15
  | .entryLate => 16 | .entryNotFired => 17 | .drillNotStarted => 18 | .mark => 19 | .zonePreempted => 20
  | .bellFired => 21 | .bellLate => 22 | .bellMissed => 23 | .bellTruncated => 24 | .bellEnded => 25
  | .stalePattern => 26 | .annRouted => 27 | .annHeld => 28 | .annResumed => 29 | .annEnded => 30
  | .drillStarted => 31 | .drillPhase => 32 | .buildingClear => 33 | .buildingLate => 34 | .buildingResult => 35
  | .drillEnded => 36 | .fireAlarmOn => 37 | .fireAlarmOff => 38 | .silenceReleased => 39 | .circuitState => 40
  | .dialSet => 41 | .clockCorrected => 42 | .lineState => 43 | .pathState => 44 | .nodeFaulted => 45
  | .nodeRestored => 46 | .nodeFound => 47 | .nodeNotice => 48 | .transactionFailed => 49 | .enumerationDone => 50
  | .faultsCleared => 51 | .inputChanged => 52 | .troubleChanged => 53 | .started => 54 | .overflow => 55
  | .linkFault => 56

/-- Yes is 1 and no is 0 (log entry 12). -/
def yesNo (b : Bool) : Nat := if b then 1 else 0

/-- A yes-or-no byte of a staged record: any byte but 0 is yes (log entry 12). -/
def yesByte (d : List Byte) (i : Nat) : Bool := byteAt d i != 0

/-- One value of a detail word. -/
def dv (n : Nat) : Detail := [some (n : Int)]
def dvi (n : Int) : Detail := [some n]
/-- A number or "none". -/
def dvo (n : Option Nat) : Option Int := n.map Int.ofNat

/-- A claimant with its level, as kind, number and level (section 4.8). -/
def claimantValues (who : Claimant) (level : Nat) : List (Option Int) :=
  [some who.kindCode, some who.number, some level]

/-! ### The log record's bytes (section 11.6) -/

/-- sequence 4; kind 2; category 1; source kind 1; source index 1; DST offset 1; day 2; ms 4; tag 4; detail words 3 × 4. -/
def logBytes (seq : Nat) (r : LogRecord) : List Byte :=
  leBytes 4 seq ++ leBytes 2 r.note.kind.code ++ leBytes 1 r.note.cat.code ++ leBytes 1 r.note.src.code
    ++ leBytes 1 r.note.index ++ leBytes 1 r.offset ++ leBytes 2 r.day ++ leBytes 4 r.ms ++ wordBytes r.note.tag
    ++ wordBytes (detailWord r.note.d0) ++ wordBytes (detailWord r.note.d1) ++ wordBytes (detailWord r.note.d2)

/-! ### Staged records -/

/-- Size of one staged record; a group's least size, its length byte (log entry 24). -/
def TableCode.size : TableCode → Nat
  | .profiles => 4 | .calendar => 6 | .zones => 4 | .groups => 1 | .patterns => 70 | .channels => 6 | .drills => 8
  | .circuits => 8 | .lines => 8 | .members => 12 | .io => 88
def scheduleEntrySize : Nat := 20

/-- R28: at fault when the preset value gives 1 to a flag outside the mask. -/
def decodeProfile (d : List Byte) : Option Profile :=
  let p : Profile := ⟨leAt d 0 2, BitVec.ofNat 8 (byteAt d 2), BitVec.ofNat 8 (byteAt d 3)⟩
  if p.value &&& ~~~p.mask = 0 then some p else none

/-- R30. Bit 7 of the weekday set names no day and is dropped (section 11.6). -/
def decodeSpan (d : List Byte) : Option Span :=
  let p : Span := ⟨leAt d 0 2, leAt d 2 2, BitVec.ofNat 8 (byteAt d 4) &&& 0x7F, byteAt d 5⟩
  if p.first > 36525 || p.last > 36525 || p.first > p.last || p.profile > 15 then none else some p

/-- R61: at fault when the building is above 7 or the relay set includes Q11. Flags: enabled, sounds, speaks, in
evacuation at bits 0 to 3. -/
def decodeZone (d : List Byte) : Option ZoneRec :=
  let f := BitVec.ofNat 8 (byteAt d 0)
  let relays := BitVec.ofNat 12 (leAt d 2 2)
  if byteAt d 1 > 7 || relays.getLsbD 11 then none
  else some ⟨f.getLsbD 0, byteAt d 1, relays, f.getLsbD 1, f.getLsbD 2, f.getLsbD 3⟩

/-- The zone numbers a staged list names: `n` bytes from byte `i`. -/
def zoneBytes (d : List Byte) (i n : Nat) : List Nat := (List.range n).map fun k => byteAt d (i + k)

/-- R62: at fault when a number is above 63, a zone is named twice or the list is longer than 64. -/
def decodeGroup (d : List Byte) : Option ZoneSet :=
  let n := byteAt d 0
  let zs := zoneBytes d 1 n
  if n > 64 || zs.any (· > 63) || !zs.Nodup then none else some (zoneSetOf zs)

/-- R85: at fault when the step count is above 16, the repeat count above 250, the tone level above 15, or every ON and
OFF time is 0; ON and OFF clamped to 10,000 ms, the frequency to 200 to 4000 Hz. No steps: empty, unchecked. -/
def decodePattern (d : List Byte) : Option (Pattern × Bool) :=
  let n := byteAt d 0
  if n = 0 then some (Pattern.empty, false)
  else
    let raw := (List.range n).map fun k => (leAt d (6 + 4 * k) 2, leAt d (8 + 4 * k) 2)
    if n > 16 || byteAt d 1 > 250 || byteAt d 4 > 15 || raw.all (fun s => s.1 == 0 && s.2 == 0) then none
    else
      let freq := leAt d 2 2
      some (⟨raw.map fun s => ⟨min s.1 10000, min s.2 10000⟩, byteAt d 1, clampNat 200 4000 freq, byteAt d 4⟩,
        raw.any (fun s => s.1 > 10000 || s.2 > 10000) || freq < 200 || freq > 4000)

/-- R101: at fault when the trigger is not 512, 1024 or 1536; starve limit and live tail clamped. -/
def decodeChannel (d : List Byte) : Option (ChannelSet × Bool) :=
  let t := leAt d 0 2
  let s := leAt d 2 2
  let l := leAt d 4 2
  if t = 512 || t = 1024 || t = 1536 then
    some (⟨t, clampNat 500 5000 s, min l 2000⟩, s < 500 || s > 5000 || l > 2000)
  else none

/-- R126, with the pattern table in force. With no all-clear pattern the group byte is not checked, and stands as it is read (log entry 58,
DESIGN CHOICE). -/
def decodeDrill (patterns : List Pattern) (d : List Byte) : Option DrillRec :=
  let buildings : Set8 := BitVec.ofNat 8 (byteAt d 0)
  let sounding := leAt d 1 2
  let target := leAt d 3 2
  let pat := byteAt d 6
  let grp := byteAt d 7
  if buildings = 0 || sounding < 30 || sounding > 900 || target < 60 || target > 1800 then none
  else if pat = 0xFF then some ⟨true, buildings, sounding, target, yesByte d 5, none, grp⟩
  else if pat > 30 || (patterns.getD pat Pattern.empty).steps.isEmpty || grp > 63 then none
  else some ⟨true, buildings, sounding, target, yesByte d 5, some pat, grp⟩

/-- R143; `pos` is the circuit's present D. The catch-up period's lower end is taken from the pulse width as clamped (log entry 59, DESIGN
CHOICE). -/
def decodeCircuit (pos : Nat) (d : List Byte) : Option (CircuitSet × Bool) :=
  let dial := leAt d 1 2
  let w := leAt d 3 2
  let c := leAt d 5 2
  let h := byteAt d 7
  let w' := clampNat 200 1000 w
  if (dial ≠ 720 && dial ≠ 1440) || (dial = 720 && pos ≥ 720) then none
  else some (⟨yesByte d 0, dial, w', clampNat (w' + 200) 10000 c, min h 120⟩,
    w < 200 || w > 1000 || c < w' + 200 || c > 10000 || h > 120)

/-- R154. -/
def decodeLine (d : List Byte) : Option (LineCfg × Bool) :=
  let t := byteAt d 1
  let r := byteAt d 2
  let n := byteAt d 4
  let p := leAt d 6 2
  if !(t = 10 || t = 20 || t = 40 || t = 80) || r > 3 || n < 1 || n > 7 then none
  else some (⟨yesByte d 0, t, r, yesByte d 3, n, BitVec.ofNat 4 (byteAt d 5), clampNat 5 600 p⟩, p < 5 || p > 600)

/-- R171, with the entries read before. -/
def decodeMember (earlier : List Member) (d : List Byte) : Option Member :=
  let n := byteAt d 5
  let zs := zoneBytes d 6 n
  let m : Member := ⟨leAt d 0 4, byteAt d 4, zs, byteAt d 10⟩
  if m.building > 7 || n > 4 || zs.any (· > 63) || !zs.Nodup || m.role > 15 || earlier.any (·.unit == m.unit) then none
  else some m

/-- An input record of the IO table (R180): function 1, parameter 1, parameter 1, not used 1, debounce 2. -/
def decodeInput (k : Nat) (d : List Byte) : Option ((InFunc × Nat) × Bool) :=
  let p := byteAt d 1
  let p2 := byteAt d 2
  let t := leAt d 4 2
  let func : Option InFunc :=
    match byteAt d 0 with
    | 0 => some .plain
    | 1 => if k = 11 then some .fireAlarm else none
    | 2 => if p ≤ 7 then some (.marshalClear p) else none
    | 3 => if p ≤ 63 && p2 ≤ 31 then some (.bellPush p p2) else none
    | 4 => if p ≤ 7 then some (.drillKey p) else none
    | 5 => if p ≤ 1 then some (.ptt p) else none
    | 6 => if k = 0 then some .reference else none
    | _ => none
  func.map fun f => ((f, clampNat 10 2000 t), t < 10 || t > 2000)

/-- An output record of the IO table (R180): function 1. -/
def decodeOutput (k : Nat) (d : List Byte) : Option OutFunc :=
  match byteAt d 0 with
  | 0 => some .plain
  | 1 => if k = 11 then none else some .zone
  | 2 => some .drillLamp
  | 3 => some .trouble
  | _ => none

/-- The IO table's header (R180): safety pair 1 (ENABLED 0, DISABLED 1), trouble mask 1, not used 2. -/
def decodeIoHeader (d : List Byte) : Option (Bool × BitVec 6) :=
  match byteAt d 0 with
  | 0 => some (true, BitVec.ofNat 6 (byteAt d 1))
  | 1 => some (false, BitVec.ofNat 6 (byteAt d 1))
  | _ => none

/-- A pattern as R83 and R85 name it: 31 is the fixed pattern, and a number above 31 names none. -/
def patternOf (table : List Pattern) (n : Nat) : Pattern :=
  if n = 31 then Pattern.evacuation else table.getD n Pattern.empty

def Pattern.isEmpty (p : Pattern) : Bool := p.steps.isEmpty

/-- The fields a BELL or CHIME entry uses, in their ranges (R40, R43). A BELL entry's duration is used, and checked,
with a continuous pattern only. -/
def soundFieldsOk (table : List Pattern) (groups : List ZoneSet) (isBell : Bool)
    (group pattern level defer duration : Nat) : Bool :=
  group ≤ 63 && pattern ≤ 31 && 2 ≤ level && level ≤ 9 && defer ≤ 120
    && ((isBell && (patternOf table pattern).repeats != 0) || (1 ≤ duration && duration ≤ 600))
    && !(patternOf table pattern).isEmpty && groups.getD group 0 != 0

/-- A staged schedule entry (R43), checked against the tables in force: time of day 4; profile set 2; condition 2
(flag, sense); kind 1; group 1; pattern 1; level 1; defer 1; duration 2; drill 1; M1 1; M2 1; mark code 2. `floor` is the time
of the entry before it. -/
def decodeEntry (table : List Pattern) (groups : List ZoneSet) (drills : List DrillRec) (floor : Nat) (d : List Byte) :
    Option Entry :=
  let time := leAt d 0 4
  let flag := byteAt d 6
  let sense := byteAt d 7
  let group := byteAt d 9
  let pattern := byteAt d 10
  let level := byteAt d 11
  let defer := byteAt d 12
  let duration := leAt d 13 2
  let drill := byteAt d 15
  let cond : Option (Option Condition) :=
    if flag = 0xFF then some none
    else if flag ≤ 7 && sense ≤ 1 then some (some ⟨flag, sense == 1⟩) else none
  let kind : Option EntryKind :=
    match byteAt d 8 with
    | 0 => if soundFieldsOk table groups true group pattern level defer duration
        then some (.bell group pattern level defer duration) else none
    | 1 => if soundFieldsOk table groups false group pattern level defer duration
        then some (.chime group pattern level defer duration) else none
    | 2 => if (drills.getD drill DrillRec.undefined).defined then some (.drill drill) else none
    | 3 => some (.flags (BitVec.ofNat 8 (byteAt d 16)) (BitVec.ofNat 8 (byteAt d 17)))
    | 4 => some (.mark (leAt d 18 2))
    | _ => none
  if time > 86399 || time < floor then none
  else
    match cond, kind with
    | some c, some k => some ⟨time, BitVec.ofNat 16 (leAt d 4 2), c, k⟩
    | _, _ => none

/-! ### Audio block headers (section 6.4) -/

/-- A header: sample count 2; LAST 1; state 1 (READY 1, CONSUMED 2); next offset 4; not read 8. -/
structure BlockHeader where
  count : Nat
  last : Bool
  state : Nat
  next : Nat
deriving DecidableEq, Repr

def decodeHeader (d : List Byte) : BlockHeader := ⟨leAt d 0 2, yesByte d 2, byteAt d 3, leAt d 4 4⟩

/-- A block offset that may be followed: a multiple of 4 whose 16-byte header lies in the free area. -/
def blockOffsetOk (off : Nat) : Bool := off % 4 == 0 && inFree off 16

/-- R116: the header is valid. -/
def headerValid (off : Nat) (h : BlockHeader) : Bool :=
  1 ≤ h.count && h.count ≤ 4096 && h.state == 1 && inFree off (16 + 2 * h.count)
    && (h.next == 0 || blockOffsetOk h.next)

end Sys2Proof.Machine
end

