-- ==== Sys2Proof/Machine/Dates.lean ====
section
/-! DEFINITION. The reckoning of dates and of daylight saving time: R3, R4, R5, R22, R23. -/

namespace Sys2Proof.Machine
open Sys2Proof

/-- Milliseconds in a day. -/
def dayMs : Nat := 86400000

/-- The millisecond count of a time from day 0. -/
def CampusTime.lin (t : CampusTime) : Nat := t.day * dayMs + t.ms

/-- The time at a millisecond count. -/
def ofLin (n : Nat) : CampusTime := ⟨n / dayMs, n % dayMs⟩

/-- The last millisecond of day 36524, at which campus time saturates (R8). -/
def lastLin : Nat := 36524 * dayMs + 86399999

/-- The day number of January 1 of year y (R4). -/
def jan1 (y : Nat) : Nat := 365 * (y - 2000) + (y - 2000 + 3) / 4

/-- R4: a year is a leap year when its number is divisible by 4. -/
def leapYear (y : Nat) : Bool := y % 4 == 0

/-- The length of a month (R4). -/
def monthLength (y m : Nat) : Nat :=
  match m with
  | 2 => if leapYear y then 29 else 28
  | 4 | 6 | 9 | 11 => 30
  | _ => 31

/-- The day number of the 1st of month m (R4): January 1 and the lengths of the months before it. -/
def monthFirst (y m : Nat) : Nat := jan1 y + ((List.range (m - 1)).map fun k => monthLength y (k + 1)).sum

/-- The weekday of a day number, Sunday 0 (R4). -/
def weekday (d : Nat) : Nat := (d + 6) % 7

/-- The year of a day number: the largest y whose January 1 is at or before it (R4; `yearOf_spec` in Laws). -/
def yearOf (d : Nat) : Nat :=
  let r := d % 1461
  2000 + 4 * (d / 1461) + (if r < 366 then 0 else 1 + (r - 366) / 365)

/-- The first Sunday of a month; month 13 is January of the next year (R22). -/
def firstSunday (y m : Nat) : Nat :=
  let f := if m = 13 then jan1 (y + 1) else monthFirst y m
  f + (7 - weekday f) % 7

/-- The day a rule's month and week name: week n of 1 to 4, or LAST, coded 5 (R22). -/
def ruleDay (y m week : Nat) : Nat :=
  if week = 5 then firstSunday y (m + 1) - 7 else firstSunday y m + 7 * (week - 1)

/-- The start instant S and the end instant E of a year (R22). -/
def transitionsOf (r : DstRule) (y : Nat) : Transitions :=
  ⟨ofLin (ruleDay y r.startMonth r.startWeek * dayMs + 3600000 * r.startHour),
   ofLin (ruleDay y r.endMonth r.endWeek * dayMs + 3600000 * r.endHour - 60000 * r.offset)⟩

/-- The offset in force at a campus time, from the instants of its year (R23). -/
def offsetAt (dst : Option DstRule) (trans : Option Transitions) (now : Nat) : Nat :=
  match dst, trans with
  | some r, some t =>
    let s := t.s.lin
    let e := t.e.lin
    if s < e then (if s ≤ now && now < e then r.offset else 0)
    else if e < s then (if now < e || s ≤ now then r.offset else 0)
    else 0
  | _, _ => 0

/-- The instants of the year in which a campus time lies, by the stored rule. -/
def instantsFor (dst : Option DstRule) (t : CampusTime) : Option Transitions :=
  dst.map fun r => transitionsOf r (yearOf t.day)

/-- The trim term of a nominal millisecond with the accumulator after it (R5). -/
def trimTerm (acc trim : Int) : Int × Int :=
  let a := acc + trim
  if a ≥ 10000000 then (1, a - 10000000)
  else if a ≤ -10000000 then (-1, a + 10000000)
  else (0, a)

/-- R11: the change of trim for phase error e found Δs seconds after the baseline. -/
def trimChange (e ds : Int) : Int := clampInt (-500) 500 (-(Int.tdiv (e * 10000) (8 * ds)))

/-- R11: elapsed milliseconds in whole seconds, rounded half away from zero and clamped to 1 to 86,400. -/
def learnSeconds (ms : Nat) : Int := clampNat 1 86400 ((ms + 500) / 1000)

/-- R10: the phase error of a campus millisecond of day. -/
def phaseError (ms : Nat) : Int :=
  let m := ms % 1000
  if m < 500 then m else (m : Int) - 1000

/-- R9: an interval within 50 ms of 1000 k for a whole k from 1 to 3600. -/
def validInterval (ms : Nat) : Bool :=
  let k := (ms + 50) / 1000
  1 ≤ k && k ≤ 3600 && (ms + 50) % 1000 ≤ 100

/-- R17: a difference rounded to the nearest whole multiple of 1000 ms, halves away from zero. -/
def roundToSecond (d : Int) : Int :=
  if d < 0 then -(((d.natAbs + 500) / 1000 * 1000 : Nat) : Int) else ((d.natAbs + 500) / 1000 * 1000 : Nat)

/-- R17: a rounded difference moved 1000 ms toward zero while the stepped time lies outside day 0 to day 36524. -/
def limitStep (now : Nat) : Nat → Int → Int
  | 0, d => d
  | n + 1, d =>
    let t := (now : Int) + d
    if t < 0 then limitStep now n (d + 1000)
    else if t > lastLin then limitStep now n (d - 1000)
    else d

/-! ### Cadences (R84) -/

/-- The cycle C: the sum of the ON and OFF times of all steps. -/
def Pattern.cycle (p : Pattern) : Nat := (p.steps.map fun s => s.on + s.off).sum

/-- The length L: C times the repeat count, or the duration in seconds times 1000 for a continuous pattern. -/
def Pattern.length (p : Pattern) (seconds : Nat) : Nat :=
  if p.repeats = 0 then seconds * 1000 else p.cycle * p.repeats

/-- The cadence at `t` milliseconds into a list of steps. -/
def stepsAt : List PatStep → Nat → Cadence
  | [], _ => .off
  | s :: rest, t =>
    if t < s.on then .on
    else if t < s.on + s.off then .off
    else stepsAt rest (t - (s.on + s.off))

/-- The cadence `t` milliseconds after the start instant. -/
def Pattern.cadenceAt (p : Pattern) (t : Nat) : Cadence :=
  if p.cycle = 0 then .off else stepsAt p.steps (t % p.cycle)

end Sys2Proof.Machine
end

