-- ==== Sys2Proof/Machine/Ops.lean ====
section
/-! DEFINITION. The named operations every block uses: reading and changing one item of State, the items the
manual derives, the region's bytes, the report log (R195, R196), the control block (R190), the outcomes of
requests (R193) and the trouble classes (R183). -/

namespace Sys2Proof.Machine
open Sys2Proof

/-! ### The region's bytes -/

/-- The byte the part has written at an offset, if any. -/
def regionRead (m : Memory) (a : Nat) : Option Byte := (m.find? fun c => c.1 == a).map (·.2)

/-- Bytes at consecutive offsets. -/
def cells : Nat → List Byte → Memory
  | _, [] => []
  | a, b :: bs => (a, b) :: cells (a + 1) bs

/-- Writing bytes at an offset; the list stays in canonical form. -/
def regionWrite (m : Memory) (off : Nat) (bs : List Byte) : Memory :=
  m.filter (fun c => c.1 < off) ++ cells off bs ++ m.filter (fun c => off + bs.length ≤ c.1)

/-- The canonical form: offsets strictly rising. -/
abbrev regionWf (m : Memory) : Prop := m.Pairwise fun a b => a.1 < b.1

/-! ### Items of State -/

/-- The part is in operation: main supply present and no start under way (R184, R185). -/
def State.running (s : State) : Bool := s.supply.main && !s.supply.settling

/-- The link is ATTACHED. -/
def State.attached (s : State) : Bool := s.ri.link == .attached

/-- R1. -/
def timeState (tb : TimeBase) : TimeState :=
  match tb.campus with
  | none => .unset
  | some _ =>
    if tb.refMode = .pulse && tb.refLost then .holdover
    else if tb.pc ≠ 0 then .slewing
    else if tb.refMode = .pulse then .tracking else .free

/-- Civil time: campus time with the offset in force added (R3). -/
def civilOf (tb : TimeBase) : Option CampusTime := tb.campus.map fun t => ofLin (t.lin + 60000 * tb.offset)
def State.civil (s : State) : Option CampusTime := civilOf s.tb

def State.zoneRec (s : State) (z : Nat) : ZoneRec := s.za.table.getD z ZoneRec.blank
def State.zone (s : State) (z : Nat) : ZoneDyn := s.za.zones.getD z ZoneDyn.clear

/-- R63: a zone's state follows from its holder, and a disabled zone is OUT. -/
def State.zoneState (s : State) (z : Nat) : ZoneState :=
  if (s.zoneRec z).enabled then
    match (s.zone z).holder with
    | none => .idle
    | some c =>
      match c.who with
      | .bell _ => .bell
      | .ann _ => .page
      | .drill _ => .evac
      | .fire => .silenced
  else .out

/-- The zones of a building, ascending. -/
def State.zonesOfBuilding (s : State) (b : Nat) : List Nat :=
  (List.range 64).filter fun z => (s.zoneRec z).building == b

/-- Every zone is IDLE or OUT and every wait list is empty (R61). -/
def State.zonesQuiet (s : State) : Bool :=
  (List.range 64).all fun z => (s.zone z).holder.isNone && (s.zone z).waiters.isEmpty
/-- Every zone is IDLE or OUT (R171). -/
def State.zonesUnheld (s : State) : Bool := (List.range 64).all fun z => (s.zone z).holder.isNone

def State.pattern (s : State) (n : Nat) : Pattern := patternOf s.pu.table n
def State.group (s : State) (g : Nat) : ZoneSet := s.za.groups.getD g 0
def State.bell? (s : State) (n : Nat) : Option Bell := s.pu.bells.find? (·.num == n)
def State.ann? (s : State) (n : Nat) : Option Ann := s.au.anns.find? (·.num == n)
/-- The announcement with an arrival number; region accesses name announcements so. -/
def State.annById? (s : State) (id : Nat) : Option Ann := s.au.anns.find? (·.arrival == id)
def State.channel (s : State) (c : Nat) : Channel := s.au.channels.getD c (Channel.free .default none)
def State.circuit (s : State) (c : Nat) : Circuit := s.cu.circuits.getD c Circuit.cold
def State.line (s : State) (l : Nat) : Line := s.lc.lines.getD l Line.cold
def Line.node? (l : Line) (a : Nat) : Option Node := l.nodes.find? (·.addr == a)
def State.input (s : State) (k : Nat) : Input := s.io.inputs.getD k (Input.cold .opened)
def State.output (s : State) (q : Nat) : Output := s.io.outputs.getD q Output.cold

/-- R73: the channel whose audio a building's feed carries: the one its holder owns. -/
def State.feedChannel? (s : State) (b : Nat) : Option Nat :=
  (s.za.feeds.getD b none).bind fun h =>
    match h.who with
    | .ann n => (s.ann? n).bind (·.channel)
    | .drill _ => s.dc.active.bind (·.channel)
    | _ => none

/-- What a channel puts out: the samples of its last millisecond played and its tone generator's output (section 6.1). -/
structure Audio where
  samples : List Sample
  tone : Option Tone
deriving DecidableEq, Repr

/-- R73: what a building's feed carries at this moment; nothing while nobody holds it, or its holder owns no channel. -/
def State.feedAudio (s : State) (b : Nat) : Option Audio :=
  (s.feedChannel? b).map fun ch => ⟨(s.channel ch).output, (s.channel ch).tone⟩

/-- R156. -/
def Line.state (l : Line) : LineState :=
  if l.cfg.enabled then
    match l.pathA.cond, l.pathB.cond with
    | .normal, .normal => .up
    | .normal, _ => .degraded
    | _, .normal => .degraded
    | _, _ => .failed
  else .off

/-- The effective function of an input: while the safety pair is ENABLED, K11 is FIRE ALARM (R181). -/
def IoUnit.inFunc (io : IoUnit) (k : Nat) : InFunc :=
  if k = 11 && io.safetyPair then .fireAlarm else (io.inputs.getD k (Input.cold .opened)).func
/-- The effective function of an output: while the safety pair is ENABLED, Q11 is TROUBLE (R181). -/
def IoUnit.outFunc (io : IoUnit) (q : Nat) : OutFunc :=
  if q = 11 && io.safetyPair then .trouble else (io.outputs.getD q Output.cold).func

/-- R76: the relays of enabled zones that are BELL or EVAC with cadence step ON. -/
def State.relayDemand (s : State) : BitVec 12 :=
  (List.range 64).foldl (fun m z =>
    if (s.zoneState z = .bell || s.zoneState z = .evac) && (s.zone z).cadence = .on
    then m ||| (s.zoneRec z).relays else m) 0

/-- R181: whether an output is energized. Every relay is released while the part is without main supply and during a
start (R184, R185). -/
def State.energized (s : State) (q : Nat) : Bool :=
  s.running &&
    match s.io.outFunc q with
    | .plain => (s.output q).driven
    | .zone => s.relayDemand.getLsbD q
    | .drillLamp => s.dc.active.isSome
    | .trouble => s.io.trouble &&& s.io.troubleMask == 0

/-- R183: the trouble classes whose condition holds. -/
def State.troubleNow (s : State) : BitVec 6 :=
  let line := s.lc.lines.any fun l => l.state = .degraded || l.state = .failed
  let node := s.lc.lines.any fun l => l.nodes.any fun n => n.st = .faulted
  let fire := s.io.inFunc 11 = .fireAlarm && s.io.fireOpen
  withBit (withBit (withBit (withBit (withBit (withBit 0 0 line) 1 node) 2 (timeState s.tb = .holdover)) 3
    (s.cu.circuits.any fun c => c.st = .fault)) 4 (s.ri.link = .fault)) 5 fire

/-- R179: a live source is talking while some PTT input of it is closed. -/
def State.pttClosed (s : State) (live : Nat) : Bool :=
  (List.range 12).any fun k => s.io.inFunc k = .ptt live && (s.input k).value = some .closed

/-- The six registers as the host reads them (section 11.2). -/
def State.readRegister (s : State) (offset : Nat) : Word :=
  match offset with
  | 0x00 => BitVec.ofNat 32 (Config.partCode * 0x10000 + Config.revision)
  | 0x04 => BitVec.ofNat 32 (yesNo s.ri.run + 2 * yesNo s.ri.intEnable + 0x100 * s.ri.link.code + 0x1000 * s.supply.kind.code)
  | 0x08 => s.ri.base.setWidth 32 <<< 20
  | 0x0C => 0
  | 0x10 => s.ri.cause.setWidth 32
  | 0x14 => s.ri.causeEnable.setWidth 32
  | _ => 0

/-! ### Changing one item -/

def State.setZone (z : Nat) (f : ZoneDyn → ZoneDyn) (s : State) : State :=
  { s with za := { s.za with zones := s.za.zones.modify z f } }
def State.setFeed (b : Nat) (h : Option FeedHolder) (s : State) : State :=
  { s with za := { s.za with feeds := s.za.feeds.set b h } }
def State.setBell (n : Nat) (f : Bell → Bell) (s : State) : State :=
  { s with pu := { s.pu with bells := s.pu.bells.map fun b => if b.num = n then f b else b } }
def State.setAnn (n : Nat) (f : Ann → Ann) (s : State) : State :=
  { s with au := { s.au with anns := s.au.anns.map fun a => if a.num = n then f a else a } }
def State.setChannel (c : Nat) (f : Channel → Channel) (s : State) : State :=
  { s with au := { s.au with channels := s.au.channels.modify c f } }
def State.setCircuit (c : Nat) (f : Circuit → Circuit) (s : State) : State :=
  { s with cu := { s.cu with circuits := s.cu.circuits.modify c f } }
def State.setLine (l : Nat) (f : Line → Line) (s : State) : State :=
  { s with lc := { s.lc with lines := s.lc.lines.modify l f } }
def Line.setNode (a : Nat) (f : Node → Node) (l : Line) : Line :=
  { l with nodes := l.nodes.map fun n => if n.addr = a then f n else n }
def State.setNode (l a : Nat) (f : Node → Node) (s : State) : State := s.setLine l (Line.setNode a f)
def State.setInput (k : Nat) (f : Input → Input) (s : State) : State :=
  { s with io := { s.io with inputs := s.io.inputs.modify k f } }
def State.setOutput (q : Nat) (f : Output → Output) (s : State) : State :=
  { s with io := { s.io with outputs := s.io.outputs.modify q f } }
def State.setDrill (f : ActiveDrill → ActiveDrill) (s : State) : State :=
  { s with dc := { s.dc with active := s.dc.active.map f } }
def State.setRi (f : RegionIf → RegionIf) (s : State) : State := { s with ri := f s.ri }
def State.setTb (f : TimeBase → TimeBase) (s : State) : State := { s with tb := f s.tb }

/-! ### The report log -/

/-- The unread count: the write index less the read mark in use, modulo 256 (R195). -/
def RegionIf.unread (ri : RegionIf) : Nat := (ri.writeIndex + 256 - ri.readMark) % 256

/-- The stamp of a record made now (R2, R195). -/
def stamped (s : State) (n : Note) : LogRecord :=
  match s.tb.campus with
  | some t => ⟨n, t.day, t.ms, s.tb.offset⟩
  | none => ⟨n, 65535, min s.elapsed 0xFFFFFFFF, 0⟩

/-- Sets a cause (R187). -/
def RegionIf.raise (c : BitVec 4) (ri : RegionIf) : RegionIf := { ri with cause := ri.cause ||| c }

/-- Offset of the write index in the control block (section 11.6). -/
def cbWriteIndex : Nat := 28

/-- R195: a record placed at the write index with the next sequence; the write index follows it into the region (R190). -/
def RegionIf.place (r : LogRecord) (ri : RegionIf) : RegionIf :=
  let wi := (ri.writeIndex + 1) % 256
  let ri1 := { ri with
    region := regionWrite (regionWrite ri.region (Config.logBase + 32 * ri.writeIndex) (logBytes ri.nextSeq r))
      cbWriteIndex (leBytes 4 wi)
    writeIndex := wi
    nextSeq := (ri.nextSeq + 1) % 0x100000000 }
  let ri2 := if ri.notify.getLsbD r.note.cat.code then ri1.raise causeLog else ri1
  if ri1.unread = 128 then ri2.raise causeLogHalf else ri2

/-- R195: a record is written into the log, joins the hold buffer, or is lost. -/
def RegionIf.take (r : LogRecord) (ri : RegionIf) : RegionIf :=
  if ri.link = .attached && ri.hold.isEmpty && ri.unread < Config.logFull then ri.place r
  else if ri.hold.length < Config.holdCapacity then { ri with hold := ri.hold ++ [r] }
  else { ri with lost := min (ri.lost + 1) 65535, totalLost := min (ri.totalLost + 1) 0xFFFFFFFF }

/-- A block writes a record. -/
def State.record (n : Note) (s : State) : State := s.setRi (RegionIf.take (stamped s n))

/-- OVERFLOW (R196). -/
def overflowNote (ri : RegionIf) : Note :=
  ⟨.overflow, .attention, .ri, 0, 0, dv ri.lost, dv ri.totalLost, dv 0⟩

/-- R196: the hold buffer drains while the link is ATTACHED and the log is not full; OVERFLOW joins its end when a record
leaves it while the lost count is above 0. -/
def State.drain : Nat → State → State
  | 0, s => s
  | n + 1, s =>
    match s.ri.hold with
    | [] => s
    | r :: rest =>
      if s.ri.link = .attached && s.ri.unread < Config.logFull then
        let ri := { s.ri with hold := rest }.place r
        let ri' := if ri.lost > 0 then { ri with hold := ri.hold ++ [stamped s (overflowNote ri)], lost := 0 } else ri
        State.drain n { s with ri := ri' }
      else s

/-- A log has room for 255 records, so a drain has at most that many steps. -/
def drainSteps : Nat := 256

/-! ### The control block (R190) -/

/-- RI writes a 4-byte field while the link is ATTACHED. -/
def State.writeField (off : Nat) (w : Word) (s : State) : State :=
  if s.attached then s.setRi fun ri => { ri with region := regionWrite ri.region off (wordBytes w) } else s

/-- The civil time mirror and the time state, bytes 12 to 27. -/
def State.mirrorTime (s : State) : State :=
  let st := numWord (timeState s.tb).code
  match s.tb.campus with
  | some t => ((s.writeField 12 (numWord t.day)).writeField 16 (numWord t.ms)).writeField 20 (numWord s.tb.offset)
      |>.writeField 24 st
  | none => ((s.writeField 12 (numWord 65535)).writeField 16 (Config.unsetMirrorMs s.elapsed)).writeField 20
      (numWord s.tb.offset) |>.writeField 24 st

def State.mirrorTrouble (s : State) : State := s.writeField 36 (s.io.trouble.setWidth 32)

/-- Fire input active and silence held, at bits 0 and 1 (log entry 13). -/
def State.mirrorFire (s : State) : State :=
  s.writeField 40 (numWord (yesNo s.dc.fireActive + 2 * yesNo s.dc.silenceHeld))

/-- The active drill's number and phase, or none (log entry 10). -/
def State.mirrorDrill (s : State) : State :=
  s.writeField 44 (Config.packedWord
    (match s.dc.active with
    | none => [none]
    | some d => [some d.num, some d.phase.code]))

/-- The fields written each elapsed second (R190). -/
def State.mirrorAll (s : State) : State :=
  (s.mirrorTime.writeField 32 (numWord s.ri.totalLost)).mirrorTrouble.mirrorFire.mirrorDrill

/-! ### Outcomes (R193) -/

/-- The outcome, the result words the owning rule gives, and then the state, into a slot of the region. -/
def writeOutcome (q : ReqHdr) (a : Answered) (ri : RegionIf) : RegionIf :=
  let at0 := Config.slotBase + 64 * q.slot
  let m1 := regionWrite ri.region (at0 + 3) (leBytes 1 a.outcome.code)
  let m2 := regionWrite m1 (at0 + 52) (a.words.flatMap wordBytes)
  let ri1 := { ri with
    region := regionWrite m2 at0 (leBytes 1 a.outcome.slotState)
    taken := ri.taken.filter fun t => t.q.slot != q.slot }
  if q.notify then ri1.raise causeSlots else ri1

/-- A request's outcome is known: written into its slot, or held with the taken slot while the link is not ATTACHED. -/
def State.answer (q : ReqHdr) (o : Outcome) (words : List Word) (s : State) : State :=
  if s.attached then s.setRi (writeOutcome q ⟨o, words⟩)
  else s.setRi fun ri => { ri with
    taken := ri.taken.map fun t => if t.q.slot = q.slot then { t with held := some ⟨o, words⟩ } else t }

/-- A refusal: an outcome with no result words. -/
def State.refuse (q : ReqHdr) (o : Outcome) (s : State) : State := s.answer q o []

/-- A request can reach the part: it is in operation, the link is ATTACHED, and the slot is one of the 32 and not among
the taken slots (R192; log entry 1). -/
def State.reaches (q : ReqHdr) (s : State) : Bool :=
  s.running && s.attached && q.slot < Config.slotCount && !s.ri.taken.any (fun t => t.q.slot == q.slot)

/-- A slot joins the taken slots (R192). -/
def State.takeSlot (q : ReqHdr) (s : State) : State :=
  s.setRi fun ri => { ri with taken := ri.taken ++ [⟨q, none⟩] }

/-! ### Region accesses (R191) -/

/-- A block asks for a region access; it is made after those asked for before it. -/
def State.ask (a : Access) (s : State) : State := s.setRi fun ri => { ri with accesses := ri.accesses ++ [a] }

/-- The access in flight has completed. -/
def State.completed (s : State) : State := s.setRi fun ri => { ri with accesses := ri.accesses.tail }

/-- The access in flight, while the part is in operation. -/
def State.inFlight? (s : State) : Option Access := if s.running then s.ri.accesses.head? else none

/-! ### Trouble (R183) -/

/-- Names of the classes in the set, as a number. -/
def setNum {w : Nat} (m : BitVec w) : Detail := dv m.toNat

/-- TROUBLE CHANGED; `on` is whether the TROUBLE outputs are energized. -/
def troubleNote (old new : BitVec 6) (on : Bool) : Note :=
  ⟨.troubleChanged, .attention, .io, 0, 0, setNum old, setNum new, dv (yesNo on)⟩

/-- One class of the set present follows its condition; the change is recorded and mirrored. -/
def State.troubleClass (s : State) (n : Nat) : State :=
  let b := s.troubleNow.getLsbD n
  if s.io.trouble.getLsbD n = b then s
  else
    let new := withBit s.io.trouble n b
    ({ s with io := { s.io with trouble := new } }.record
      (troubleNote s.io.trouble new (new &&& s.io.troubleMask == 0))).mirrorTrouble

/-- The trouble classes present are brought up to date, one class after another. -/
def State.updateTrouble (s : State) : State := (List.range 6).foldl State.troubleClass s

end Sys2Proof.Machine
end

