-- ==== Sys2Proof/Machine/Work.lean ====
section
/-! DEFINITION. What one block hands to another inside a single event. The manual's event is whole and indivisible, yet it runs
through several blocks: ZA answers a claimant, a claimant ends and releases its zones, a line answers a requester. `Ans` are the answers,
taken first in, first out; `Work` are the calls, taken in order, a call's own calls before the ones behind it (log entry 19). -/

namespace Sys2Proof.Machine
open Sys2Proof

/-- The reasons of LOST (R64). -/
inductive LostReason where
  | zoneOut
  | fire
  | drill
  | held
  | feed
  | waitFull
  | waitExpired
deriving DecidableEq, Repr

/-- ZA's answers to a claimant (R64). -/
inductive Answer where
  | granted
  | waiting
  | preempted (new : Claimant) (rejoined : Bool)
  | lost (r : LostReason)
deriving DecidableEq, Repr

/-- How a transaction is answered (R157, R159, R161, R156). -/
inductive TxOutcome where
  | done
  | nodeReject
  | badReply
  | noReply
  | evicted
  | queueFull
  | purged
  | lineFailed
deriving DecidableEq, Repr

def TxOutcome.code : TxOutcome → Nat
  | .done => 0 | .nodeReject => 1 | .badReply => 2 | .noReply => 3 | .evicted => 4 | .queueFull => 5 | .purged => 6
  | .lineFailed => 7

/-- An answer of ZA to a claimant about a zone, or of a line to a requester about a transaction, with the reply's body where
one came. -/
inductive Ans where
  | zone (who : Claimant) (zone : Nat) (a : Answer)
  | tx (line : Nat) (tx : Tx) (o : TxOutcome) (body : Option ReplyBody)
deriving DecidableEq, Repr

/-- How a drill start that is refused is reported (R127). -/
inductive DrillAsker where
  | entry (index : Nat)
  | key (input : Nat)
deriving DecidableEq, Repr

/-- The causes of DRILL PHASE (section 7.6). -/
inductive PhaseCause where
  | time
  | stop
  | allCleared
  | host
deriving DecidableEq, Repr

/-- The calls of one block to another. -/
inductive Work where
  -- Pattern Unit
  | bellStart (src : BellSource) (zones : ZoneSet) (pattern level defer duration : Nat)
  | bellClaim (bell zone : Nat)
  -- Announcement Unit
  | chime (index group pattern level defer duration : Nat)
  | annClaim (ann zone : Nat)
  | annCheck (ann : Nat)
  | annEnd (ann : Nat) (reason : EndReason) (pass : Bool)
  | annGive (ann channel : Nat)
  | channelOffer (channel : Nat)
  -- Drill Controller
  | drillStart (origin : DrillOrigin) (num : Nat)
  | drillAsk (asker : DrillAsker) (num : Nat)
  | drillGive (channel : Nat)
  | drillClaim (zone : Nat)
  | drillToneOn
  | drillStarted
  | startAnswer (q : ReqHdr) (num : Nat)
  | soundingEnd (cause : PhaseCause)
  | drillToneOff
  | drillChannelBack
  | phaseNote (phase : DrillPhase) (cause : PhaseCause)
  | allClearBegin
  | allClearClaim (zone pattern length : Nat)
  | allClearCheck
  | drillEnd (reason : DrillEnd)
  | drillRelease
  | drillClose (reason : DrillEnd)
  | clearReport (building : Nat) (src : ClearSource)
  | fireOn
  -- Schedule Engine
  | due (index : Nat) (e : Entry) (now : CampusTime)
  | dueStep (index : Nat) (e : Entry) (now : CampusTime)
  | passOver (e : Entry)
  | dayRoll (day : Nat)
  | restOfStep (now : CampusTime)
  | setMark (now : CampusTime)
  | skipReport (before : HighWater) (now : CampusTime)
  | secondEvent (now : CampusTime)
  -- Clock Unit
  | minuteEvent (now : CampusTime)
  | clockStep
  | stepEvent (new : CampusTime)
  -- Lines
  | assignFlags (line addr : Nat) (r : Reply)
  | txClose (line : Nat) (tx : Tx) (o : TxOutcome) (attempts : Nat)
deriving DecidableEq, Repr

/-- A state in the middle of an event: the answers and the calls not yet taken, and SE's count of entries passed over
(R54). -/
structure Ctx where
  st : State
  ans : List Ans
  todo : List Work
  skipped : Nat
  /-- The tag of the request this event decides or ends, else 0: a record it causes carries it. -/
  tag : Word
  /-- The line whose transaction is completing in this event: its next transaction is selected in the event's part 4 (R165). -/
  closing : Option Nat
deriving DecidableEq, Repr

def Ctx.upd (f : State → State) (c : Ctx) : Ctx := { c with st := f c.st }
def Ctx.say (a : Ans) (c : Ctx) : Ctx := { c with ans := c.ans ++ [a] }
def Ctx.call (ws : List Work) (c : Ctx) : Ctx := { c with todo := c.todo ++ ws }
def Ctx.record (n : Note) (c : Ctx) : Ctx := c.upd (State.record n)

/-- A completion begins on a line, or (`none`) is over (R165). -/
def Ctx.closes (l : Option Nat) (c : Ctx) : Ctx := { c with closing := l }

/-- Applies `f` for each element in turn. -/
def Ctx.each {α : Type} (f : α → Ctx → Ctx) : List α → Ctx → Ctx
  | [], c => c
  | x :: xs, c => Ctx.each f xs (f x c)

/-- The event's beginning: nothing outstanding. -/
def State.begin (s : State) : Ctx := ⟨{ s with eventNo := s.eventNo + 1 }, [], [], 0, 0, none⟩

end Sys2Proof.Machine
end

