-- ==== Sys2Proof/Machine/Lines.lean ====
section
/-! DEFINITION. The Line Controllers' operations: the queue (R159 to R162), the transaction in flight (R163 to R165), path readings and line
states (R155, R156), node records (R167, R168), service traffic, supervision, refreshes and enumeration. -/

namespace Sys2Proof.Machine
open Sys2Proof

def Line.active (l : Line) : Bool := l.state = .up || l.state = .degraded

/-- The address of an addressed transaction (R158). -/
def Tx.addr? (t : Tx) : Option Nat :=
  match t.dest with
  | .node a => some a
  | _ => none

/-- R158: a SOUND, SOUND STOP, SOUND STOP ALL, TIME ALL or ROUTE OFF ALL is a broadcast. -/
def TxKind.broadcast : TxKind → Bool
  | .sound _ _ | .soundStop | .soundStopAll | .timeAll _ _ _ | .routeOffAll => true
  | _ => false

/-- R158: service traffic. -/
def TxKind.service : TxKind → Bool
  | .poll | .query | .assign _ | .clearAddress | .configure | .loadPattern _ _ _ => true
  | _ => false

def TxKind.isQuery : TxKind → Bool
  | .query => true
  | _ => false
def TxKind.isConfigure : TxKind → Bool
  | .configure => true
  | _ => false
def TxKind.isSetTime : TxKind → Bool
  | .setTime _ => true
  | _ => false
def TxKind.isTimeAll : TxKind → Bool
  | .timeAll _ _ _ => true
  | _ => false
def TxKind.isRoute : TxKind → Bool
  | .route _ => true
  | _ => false
def TxKind.isLoad : TxKind → Bool
  | .loadPattern _ _ _ => true
  | _ => false
def TxKind.isClear : TxKind → Bool
  | .clearAddress => true
  | _ => false
/-- SOUND or SOUND STOP for a zone. -/
def TxKind.isSound : TxKind → Bool
  | .sound _ _ | .soundStop => true
  | _ => false

/-- A transaction kind's place in R158's table, for TRANSACTION FAILED. -/
def TxKind.code : TxKind → Nat
  | .poll => 0 | .query => 1 | .assign _ => 2 | .clearAddress => 3 | .configure => 4 | .loadPattern _ _ _ => 5
  | .setTime _ => 6 | .timeAll _ _ _ => 7 | .sound _ _ => 8 | .soundStop => 9 | .soundStopAll => 10 | .route _ => 11
  | .routeOffAll => 12

def Path.other : Path → Path
  | .a => .b
  | .b => .a

/-- The path of R156: the preferred path on an UP line, the NORMAL path on a DEGRADED one. -/
def Line.pathFor (l : Line) (pref : Path) : Path :=
  if l.state = .degraded then (if l.pathA.cond = .normal then .a else .b) else pref

/-- The node's preferred path; path A for an ASSIGN, which has no node. -/
def Line.prefOf (l : Line) (t : Tx) : Path :=
  match t.addr? with
  | some a => ((l.node? a).map (·.pref)).getD .a
  | none => .a

/-- The payload a frame takes as it is sent (R151, R170). -/
def frameOf (s : State) (l : Line) (t : Tx) : Frame :=
  match t.kind, t.addr? with
  | .setTime _, _ =>
    match s.civil with
    | some c => .time c.day c.ms (s.tb.offset != 0)
    | none => .fixed
  | .configure, some a =>
    match l.node? a with
    | some n => .members n.zones n.role
    | none => .fixed
  | _, _ => .fixed

/-- A selected transaction's first attempt (R162, R163, R164). -/
def startFlight (s : State) (l : Line) (t : Tx) : InFlight :=
  let faulted := match t.addr? with
    | some a => ((l.node? a).map (·.st)) = some .faulted
    | none => false
  { tx := t
    attempt := 1
    path := if t.kind.broadcast then l.pathFor .a else l.pathFor (l.prefOf t)
    both := t.kind.broadcast && l.state = .degraded
    frame := frameOf s l t
    timeoutAt := none
    single := faulted && !t.kind.isClear
    timeout := l.cfg.timeout }

/-- R162: an addressed transaction whose node is in a BUSY hold is passed over; a broadcast never is. -/
def Line.eligible (l : Line) (t : Tx) : Bool :=
  match t.addr? with
  | some a => ((l.node? a).bind (·.busyUntil)).isNone
  | none => true

/-- The lowest class among transactions. -/
def bestClass : List Tx → Option Nat
  | [] => none
  | t :: ts =>
    match bestClass ts with
    | none => some t.cls
    | some c => some (min t.cls c)

/-- R162: the oldest eligible transaction of the lowest class, and the queue without it. -/
def Line.pick (l : Line) : Option (Tx × List Tx) :=
  match bestClass (l.queue.filter l.eligible) with
  | none => none
  | some k =>
    match l.queue.find? (fun t => l.eligible t && t.cls == k) with
    | some t => some (t, l.queue.eraseP fun t => l.eligible t && t.cls == k)
    | none => none

/-- R162: with nothing in flight, the next transaction goes into flight. -/
def selectTx (ln : Nat) (s : State) : State :=
  let l := s.line ln
  match l.inFlight, l.pick with
  | none, some (t, rest) => s.setLine ln fun l => { l with queue := rest, inFlight := some (startFlight s l t) }
  | _, _ => s

/-- The newest transaction of a class removed from a queue (R159 case 3). -/
def removeNewest (k : Nat) (q : List Tx) : Option (Tx × List Tx) :=
  match q.reverse.find? (fun t => t.cls == k) with
  | some t => some (t, (q.reverse.eraseP fun t => t.cls == k).reverse)
  | none => none

def worstClass (q : List Tx) : Nat := q.foldl (fun m t => max m t.cls) 0

/-- R159 case 1: addressed to an address with no node record, or to an ABSENT node other than by a renumbering's CLEAR
ADDRESS. -/
def Line.unreachable (l : Line) (t : Tx) : Bool :=
  match t.addr? with
  | some a =>
    match l.node? a with
    | none => true
    | some n => n.st = .absent && !t.kind.isClear
  | none => false

/-- R159: a transaction offered to a line joins the queue or is answered; R156: a line that is FAILED or OFF answers LINE
FAILED at once. No selection is made here. -/
def joinTx (ln : Nat) (t : Tx) (c : Ctx) : Ctx :=
  let l := c.st.line ln
  if !l.active then c.say (.tx ln t .lineFailed none)
  else if l.unreachable t then c.say (.tx ln t .noReply none)
  else if l.queue.length < Config.queueCapacity then
    c.upd (State.setLine ln fun l => { l with queue := l.queue ++ [t] })
  else
    let k := worstClass l.queue
    if k > t.cls then
      match removeNewest k l.queue with
      | some (old, rest) =>
        (c.upd (State.setLine ln fun l => { l with queue := rest ++ [t] })).say (.tx ln old .evicted none)
      | none => c.say (.tx ln t .queueFull none)
    else c.say (.tx ln t .queueFull none)

/-- Priority of deferred traffic (R160): QUERYs, CONFIGUREs, the enumeration's, LOAD PATTERNs, the POLL; then ascending
address. -/
def Deferred.rank : Deferred → Nat × Nat
  | .query a => (0, a)
  | .configure a => (1, a)
  | .enumeration => (2, 0)
  | .loadPattern a => (3, a)
  | .poll a => (4, a)

def Deferred.before (a b : Deferred) : Bool :=
  a.rank.1 < b.rank.1 || (a.rank.1 == b.rank.1 && a.rank.2 < b.rank.2)

/-- The deferred traffic to be offered first. -/
def firstDeferred : List Deferred → Option Deferred
  | [] => none
  | d :: ds =>
    match firstDeferred ds with
    | none => some d
    | some e => some (if e.before d then e else d)

def Deferred.addr? : Deferred → Option Nat
  | .query a | .configure a | .loadPattern a | .poll a => some a
  | .enumeration => none

/-- A plain transaction. -/
def mkTx (s : State) (k : TxKind) (cls : Nat) (d : Dest) : Tx := ⟨k, cls, d, s.eventNo, [], false, none⟩

/-- The transaction that deferred traffic stands for; none when what it served has gone (R160). -/
def txOfDeferred (s : State) (l : Line) : Deferred → Option Tx
  | .query a => some (mkTx s .query 4 (.node a))
  | .configure a => some (mkTx s .configure 4 (.node a))
  | .poll a => some (mkTx s .poll 4 (.node a))
  | .loadPattern a =>
    ((l.node? a).bind (·.refresh)).map fun r =>
      mkTx s (.loadPattern r.next r.target (s.pattern r.next)) 4 (.node a)
  | .enumeration =>
    l.enumeration.bind fun e => e.offered.map fun a =>
      match e.phase with
      | .assigning => mkTx s (.assign a) 4 .unaddressed
      | .clearing => mkTx s .clearAddress 4 (.node a)

/-- A deferred transaction whose node has become ABSENT or been removed is dropped (R160). A renumbering's CLEAR ADDRESS is not, since R175
clears ABSENT nodes too (log entry 64, DESIGN CHOICE). -/
def Line.drops (l : Line) (d : Deferred) : Bool :=
  match d.addr? with
  | some a =>
    match l.node? a with
    | some n => n.st = .absent
    | none => true
  | none => false

/-- R160, R162: selection, and deferred service traffic one at a time while the queue stays below 24. While the line's transaction is
completing, no selection is made: that is the completion's part 4 (R165). -/
def settleLine (ln : Nat) : Nat → Ctx → Ctx
  | 0, c => c
  | n + 1, c =>
    let c := if c.closing = some ln then c else c.upd (selectTx ln)
    let l := c.st.line ln
    if l.queue.length < Config.serviceRoom then
      match firstDeferred l.deferred with
      | none => c
      | some d =>
        let c1 := c.upd (State.setLine ln fun l => { l with deferred := l.deferred.erase d })
        if l.drops d then settleLine ln n c1
        else
          match txOfDeferred c.st l d with
          | some t => settleLine ln n (joinTx ln t c1)
          | none => settleLine ln n c1
    else c

/-- More than a line can defer: three for each node, the enumeration's and the POLL (R160). -/
def settleSteps : Nat := 200

/-- R159 with the selection that a joining transaction calls for (R162). -/
def offerTx (ln : Nat) (t : Tx) (c : Ctx) : Ctx := settleLine ln settleSteps (joinTx ln t c)

/-- Service traffic: offered while the queue holds fewer than 24, else deferred, at most one of each (R160). -/
def offerService (ln : Nat) (d : Deferred) (c : Ctx) : Ctx :=
  let l := c.st.line ln
  if l.active && l.queue.length ≥ Config.serviceRoom then
    c.upd (State.setLine ln fun l => { l with deferred := if l.deferred.contains d then l.deferred else l.deferred ++ [d] })
  else
    match txOfDeferred c.st l d with
    | some t => offerTx ln t c
    | none => c

/-- A transaction of a kind for a node is queued, in flight or deferred. -/
def Line.outstanding (l : Line) (k : TxKind → Bool) (d : Deferred) (a : Nat) : Bool :=
  l.queue.any (fun t => k t.kind && t.addr? == some a)
    || (l.inFlight.any fun f => k f.tx.kind && f.tx.addr? == some a)
    || l.deferred.contains d

/-- A CONFIGURE, unless one for the node is queued, in flight or deferred (R170). -/
def offerConfigure (ln a : Nat) (c : Ctx) : Ctx :=
  if (c.st.line ln).outstanding TxKind.isConfigure (.configure a) a then c else offerService ln (.configure a) c

/-- A QUERY, unless one is queued, in flight or deferred; with KEY it is offered at once (R168, R160). -/
def offerQuery (ln a : Nat) (key : Bool) (c : Ctx) : Ctx :=
  if (c.st.line ln).outstanding TxKind.isQuery (.query a) a then c
  else if key then offerTx ln (mkTx c.st .query 4 (.node a)) c
  else offerService ln (.query a) c

/-- Queued transactions are removed and each is answered; the queue may have fallen below 24, and then deferred traffic is offered before
anything that comes after (R160). -/
def takeOut (ln : Nat) (p : Tx → Bool) (answer : Tx → Ans) (c : Ctx) : Ctx :=
  let gone := (c.st.line ln).queue.filter p
  let c1 := c.upd (State.setLine ln fun l => { l with queue := l.queue.filter fun t => !p t })
  settleLine ln settleSteps (Ctx.each (fun t c => c.say (answer t)) gone c1)

/-- Queued transactions taken back, each answered PURGED (R161). -/
def withdraw (ln : Nat) (p : Tx → Bool) (c : Ctx) : Ctx := takeOut ln p (fun t => .tx ln t .purged none) c

/-! ### Nodes -/

/-- A sounder whose version differs from the pattern table version, or is none, is stale (section 5.5). -/
def staleNode (s : State) (n : Node) : Bool := n.kind = .sounder && n.version != some s.pu.version

/-- A refresh begins: R96. -/
def beginRefresh (ln a : Nat) (c : Ctx) : Ctx :=
  let l := c.st.line ln
  match l.node? a with
  | some n =>
    if l.active && staleNode c.st n && n.refresh.isNone && n.st ≠ .absent then
      offerService ln (.loadPattern a)
        (c.upd (State.setNode ln a fun n => { n with refresh := some ⟨c.st.pu.version, 0, c.st.eventNo⟩ }))
    else c
  | none => c

/-- R166: a node entering UNKNOWN. -/
def Node.toUnknown (n : Node) : Node := { n with st := .unknown, fails := 0, configured := false, answering := false }

/-- Fault classes, at their bits of the fault summary: NO REPLY, BAD REPLY, REJECT, NODE FAULT, POWER (R167). -/
def classNoReply : BitVec 5 := 1
def classBadReply : BitVec 5 := 2
def classReject : BitVec 5 := 4
def classNodeFault : BitVec 5 := 8
def classPower : BitVec 5 := 16

/-- The bypass set as fault classes: REJECT cannot be in it (R154). -/
def bypassClasses (b : BitVec 4) : BitVec 5 :=
  withBit (withBit (withBit (withBit 0 0 (b.getLsbD 0)) 1 (b.getLsbD 1)) 3 (b.getLsbD 2)) 4 (b.getLsbD 3)

/-- The classes of a failure, as numbers. -/
def classNumbers (k : BitVec 5) : Detail := ((List.range 5).filter k.getLsbD).map fun n => some (n : Int)

def lcNote (k : RecKind) (cat : Category) (ln : Nat) (tag : Word) (d0 d1 d2 : Detail) : Note :=
  ⟨k, cat, .lc, ln, tag, d0, d1, d2⟩

/-- NODE FAULTED. -/
def faultedNote (ln a : Nat) (tag : Word) (k : BitVec 5) (fails : Nat) : Note :=
  lcNote .nodeFaulted .attention ln tag (dv a) (classNumbers k) (dv fails)

/-- A node enters FAULTED (R167). -/
def enterFaulted (ln a : Nat) (k : BitVec 5) (fails : Nat) (c : Ctx) : Ctx :=
  (((c.upd (State.setNode ln a fun n => { n with st := .faulted, fails := fails, answering := false })).upd
    (State.setLine ln fun l => { l with summary := l.summary ||| k })).record (faultedNote ln a c.tag k fails)).upd
    State.updateTrouble

/-- R167: a failure of the given classes counted against a node. -/
def nodeFail (ln a : Nat) (k : BitVec 5) (c : Ctx) : Ctx :=
  let l := c.st.line ln
  match l.node? a with
  | none => c
  | some n =>
    let top := l.cfg.threshold
    let fails := min (n.fails + 1) top
    match n.st with
    | .absent => c
    | .faulted =>
      let c1 := c.upd (State.setNode ln a fun n => { n with fails := fails, answering := false })
      if n.answering then c1.record (faultedNote ln a c.tag k fails) else c1
    | _ =>
      if k &&& bypassClasses l.cfg.bypass != 0 then enterFaulted ln a k top c
      else if fails = top then enterFaulted ln a k top c
      else c.upd (State.setNode ln a fun n => { n with st := .suspect, fails := fails })

/-- R168: a good reply from a node. -/
def nodeGood (ln a : Nat) (c : Ctx) : Ctx :=
  match (c.st.line ln).node? a with
  | none => c
  | some n =>
    let c1 := c.upd (State.setNode ln a fun n => { n with fails := 0 })
    match n.st with
    | .absent => c
    | .present => c1
    | .suspect => c1.upd (State.setNode ln a fun n => { n with st := .present })
    | .unknown =>
      beginRefresh ln a (offerConfigure ln a (c1.upd (State.setNode ln a fun n => { n with st := .present })))
    | .faulted =>
      if n.answering then c1
      else (c1.upd (State.setNode ln a fun n => { n with answering := true })).record
        (lcNote .nodeRestored .routine ln c.tag (dv a) (dv n.kind.code) (dv 0))

/-- The flags LOCAL FAULT and ON BACKUP as the classes of one failure (R167, R168). -/
def flagClasses (r : Reply) : BitVec 5 :=
  (if r.localFault then classNodeFault else 0) ||| (if r.onBackup then classPower else 0)

/-- R168: BUSY, SERVICE and KEY of a valid reply. -/
def replyCalls (ln a : Nat) (r : Reply) (c : Ctx) : Ctx :=
  let c1 := if r.busy then c.upd (State.setNode ln a fun n => { n with busyUntil := some (c.st.elapsed + 250) }) else c
  if r.service || r.key then
    offerQuery ln a r.key (c1.upd (State.setNode ln a fun n => { n with queryNeeded := true }))
  else c1

/-- R168: the flags of a valid reply. -/
def replyFlags (ln a : Nat) (r : Reply) (c : Ctx) : Ctx :=
  let k := flagClasses r
  replyCalls ln a r (if k = 0 then nodeGood ln a c else nodeFail ln a k c)

/-- The failure class of an outcome (R167). -/
def TxOutcome.cls : TxOutcome → BitVec 5
  | .noReply => classNoReply
  | .badReply => classBadReply
  | .nodeReject => classReject
  | _ => 0

/-- A CLEAR ADDRESS's failures are not counted (R175), and an ASSIGN has no node. -/
def TxKind.counted (k : TxKind) : Bool := !k.isClear

/-- The flags of the valid reply to a CLEAR ADDRESS: as R168 gives, but its failures are not counted (R175). -/
def clearFlags (ln a : Nat) (r : Reply) (c : Ctx) : Ctx :=
  if flagClasses r = 0 then replyFlags ln a r c else replyCalls ln a r c

/-- R165: the transaction in flight completes with an outcome; `reply` is the valid reply that ended it. -/
def completeTx (ln : Nat) (f : InFlight) (o : TxOutcome) (reply : Option Reply) (c : Ctx) : Ctx :=
  let c1 := (c.upd (State.setLine ln fun l => { l with inFlight := none })).closes (some ln)
  let c2 :=
    match f.tx.addr? with
    | some a =>
      if f.tx.stale then c1
      else
        let c0 := if f.tx.kind.isQuery && decide (o = TxOutcome.done) then
            c1.upd (State.setNode ln a fun n => { n with queryNeeded := false }) else c1
        let c' := if o.cls != 0 && f.tx.kind.counted then nodeFail ln a o.cls c0 else c0
        match reply with
        | some r => if f.tx.kind.counted then replyFlags ln a r c' else clearFlags ln a r c'
        | none => c'
    | none => c1
  (c2.say (.tx ln f.tx o (reply.map (·.body)))).call [.txClose ln f.tx o f.attempt]

/-- R165 parts 3 and 4: TRANSACTION FAILED for a kind other than POLL or ASSIGN, then the next selection. The
record of a renumbering's CLEAR ADDRESS carries the tag of the event that ends it, 0, and not the request's (log entry 64, DESIGN CHOICE). -/
def closeTx (ln : Nat) (t : Tx) (o : TxOutcome) (attempts : Nat) (c : Ctx) : Ctx :=
  let fails := o = .noReply || o = .badReply || o = .nodeReject
  let other := match t.kind with
    | .poll | .assign _ => false
    | _ => true
  let c1 := if fails && other then
      c.record (lcNote .transactionFailed .routine ln c.tag [some t.kind.code, some t.cls] (dv (t.addr?.getD 0))
        [some o.code, some attempts])
    else c
  settleLine ln settleSteps (c1.closes none)

/-- R168 for the node an ASSIGN has found: the flags of its reply, once R174 has counted the reply good (log entry 38). -/
def assignFlags (ln a : Nat) (r : Reply) (c : Ctx) : Ctx :=
  if ((c.st.line ln).node? a).isSome then
    let k := flagClasses r
    replyCalls ln a r (if k = 0 then c else nodeFail ln a k c)
  else c

/-! ### Paths and line states -/

def Line.path (l : Line) : Path → PathState
  | .a => l.pathA
  | .b => l.pathB
def Line.setPath (p : Path) (v : PathState) (l : Line) : Line :=
  match p with
  | .a => { l with pathA := v }
  | .b => { l with pathB := v }

/-- ENUMERATION DONE, and the enumeration is none (R174). -/
def endEnumeration (ln cause : Nat) (c : Ctx) : Ctx :=
  match (c.st.line ln).enumeration with
  | none => c
  | some e =>
    (c.upd (State.setLine ln fun l => { l with
        enumeration := none
        deferred := l.deferred.filter fun d => d != .enumeration })).record
      (lcNote .enumerationDone .routine ln e.tag (dv e.found) (dv cause) (dv e.cleared))

/-- The causes of ENUMERATION DONE: NO MORE, BAD REPLY, TABLE FULL, LINE FAILED. -/
def enumNoMore : Nat := 0
def enumBadReply : Nat := 1
def enumTableFull : Nat := 2
def enumLineFailed : Nat := 3

/-- R156: what a line does on entering FAILED or OFF. -/
def lineDown (ln : Nat) (off : Bool) (c : Ctx) : Ctx :=
  let l := c.st.line ln
  let cut := if off then l.inFlight.toList.map (·.tx) else []
  let c1 := c.upd (State.setLine ln fun l => { l with
    queue := []
    inFlight := if off then none else l.inFlight
    deferred := []
    nodes := l.nodes.map fun n => { n with refresh := none, busyUntil := none }
    cycle := { l.cycle with running := false } })
  endEnumeration ln enumLineFailed
    (Ctx.each (fun t c => c.say (.tx ln t .lineFailed none)) (cut ++ l.queue) c1)

/-- R156: a change of line state from `old` is recorded and has its effects. -/
def lineChanged (ln : Nat) (old : LineState) (c : Ctx) : Ctx :=
  let l := c.st.line ln
  let new := l.state
  if old = new then c
  else
    let cat := if new = .degraded || new = .failed then Category.attention else .routine
    let c1 := (c.record (lcNote .lineState cat ln c.tag (dv old.code) (dv new.code)
      [some l.pathA.cond.code, some l.pathB.cond.code])).upd State.updateTrouble
    match new with
    | .off => lineDown ln true c1
    | .failed => lineDown ln false c1
    | _ => c1

/-- R155: a reading of a path. -/
def readPath (ln : Nat) (p : Path) (r : PathCond) (c : Ctx) : Ctx :=
  let l := c.st.line ln
  let v := l.path p
  let new := if v.reading.isNone || v.reading = some r then r else v.cond
  let c1 := c.upd (State.setLine ln (Line.setPath p ⟨new, some r⟩))
  if new = v.cond then c1
  else lineChanged ln l.state (c1.record (lcNote .pathState .routine ln c.tag (dv p.code) (dv v.cond.code) (dv new.code)))

/-- A reading of both paths (R155): path A is read first, and the line state follows each (log entry 50). -/
def readPaths (ln : Nat) (r : PathPair) (c : Ctx) : Ctx := readPath ln .b r.b (readPath ln .a r.a c)

/-! ### Attempts -/

/-- R164: another attempt while attempts remain and the line is not FAILED; else the transaction completes. -/
def nextAttempt (ln : Nat) (f : InFlight) (o : TxOutcome) (c : Ctx) : Ctx :=
  let l := c.st.line ln
  if f.attempt < 1 + l.cfg.retries && !f.single && l.active then
    let path := if l.state = .up && l.cfg.alternate then f.path.other else l.pathFor (l.prefOf f.tx)
    c.upd (State.setLine ln fun l => { l with
      inFlight := some { f with
        attempt := f.attempt + 1, path := path, timeoutAt := none, frame := frameOf c.st l f.tx, timeout := l.cfg.timeout } })
  else completeTx ln f o none c

/-- The reply answers the frame's kind (R157). -/
def kindAnswers : TxKind → ReplyBody → Bool
  | .poll, .poll _ _ => true
  | .query, .query _ => true
  | .assign _, .assign _ _ => true
  | .clearAddress, .clearAddress => true
  | .configure, .configure => true
  | .loadPattern _ _ _, .loadPattern => true
  | .setTime _, .setTime => true
  | .route _, .route => true
  | _, _ => false

/-- The address a valid reply bears: the one the frame was sent to, or for an ASSIGN the one offered (R157). -/
def Tx.replyAddr (t : Tx) : Option Nat :=
  match t.kind, t.dest with
  | .assign a, _ => some a
  | _, .node a => some a
  | _, _ => none

/-- R157: a reply is valid. -/
def validReply (t : Tx) (r : Reply) : Bool := r.checkOk && t.replyAddr == some r.addr && kindAnswers t.kind r.body

/-! ### Supervision, enumeration, removal -/

/-- The least address at or above `a` of a node that is not ABSENT. -/
def Line.nextPoll (l : Line) (a : Nat) : Option Nat :=
  (List.range' a (41 - a)).find? fun k =>
    match l.node? k with
    | some n => n.st ≠ .absent
    | none => false

/-- R173: the cycle's next POLL, or its end. -/
def pollNext (ln : Nat) (c : Ctx) : Ctx :=
  let l := c.st.line ln
  if !l.cycle.running then c
  else
    match l.nextPoll l.cycle.next with
    | none => c.upd (State.setLine ln fun l => { l with cycle := { l.cycle with running := false } })
    | some a =>
      offerService ln (.poll a) (c.upd (State.setLine ln fun l => { l with cycle := { l.cycle with next := a + 1 } }))

/-- The lowest address from 1 to 40 with no record (R174). -/
def Line.freeAddr (l : Line) : Option Nat := (List.range' 1 40).find? fun a => (l.node? a).isNone

/-- One step of an enumeration in ASSIGNING (R174). -/
def assignStep (ln : Nat) (c : Ctx) : Ctx :=
  match (c.st.line ln).enumeration with
  | none => c
  | some e =>
    match (c.st.line ln).freeAddr with
    | none => endEnumeration ln enumTableFull c
    | some a =>
      offerService ln .enumeration
        (c.upd (State.setLine ln fun l => { l with enumeration := some { e with phase := .assigning, offered := some a } }))

/-- The recorded node of the highest chain position. -/
def Line.lastInChain (l : Line) : Option Node :=
  l.nodes.foldl (fun m n =>
    match m with
    | none => some n
    | some k => if n.chain > k.chain then some n else some k) none

/-- R175: the next CLEAR ADDRESS, in descending chain position; with an empty table, ASSIGNING. -/
def clearStep (ln : Nat) (c : Ctx) : Ctx :=
  match (c.st.line ln).enumeration with
  | none => c
  | some e =>
    match (c.st.line ln).lastInChain with
    | none => assignStep ln c
    | some n =>
      offerService ln .enumeration
        (c.upd (State.setLine ln fun l => { l with enumeration := some { e with offered := some n.addr } }))

/-- R165: a transaction in flight to a node, of a kind, that is set aside or removed. -/
def Tx.detached (kind : Option NodeKind) (t : Tx) : Tx := { t with stale := true, nodeKind := kind }

/-- A node, of a kind, is set aside or removed: its queued addressed transactions are answered NO REPLY, its deferred traffic is dropped,
what is in flight changes no node record (R165, R172, R175), and a cycle that waited to poll it goes on with the next (R173). -/
def detachNode (ln a : Nat) (kind : Option NodeKind) (c : Ctx) : Ctx :=
  let polled := (c.st.line ln).deferred.contains (.poll a)
  let c1 := c.upd (State.setLine ln fun l => { l with
    deferred := l.deferred.filter fun d => d.addr? != some a
    inFlight := l.inFlight.map fun f => if f.tx.addr? = some a then { f with tx := f.tx.detached kind } else f })
  let c2 := takeOut ln (fun t => t.addr? == some a) (fun t => .tx ln t .noReply none) c1
  if polled then pollNext ln c2 else c2

/-- R175: a node is removed from the table. -/
def removeNode (ln a : Nat) (c : Ctx) : Ctx :=
  let kind := ((c.st.line ln).node? a).map (·.kind)
  let c1 := c.upd (State.setLine ln fun l => { l with nodes := l.nodes.filter fun n => n.addr != a })
  settleLine ln settleSteps ((detachNode ln a kind c1).upd State.updateTrouble)

/-- The memberships and role of a unit on a line: the member table's entry whose building is the line's number (R170). -/
def membersFor (s : State) (ln unit : Nat) : List Nat × Nat :=
  match s.lc.members.find? fun m => m.unit == unit && m.building == ln with
  | some m => (m.zones, m.role)
  | none => ([], 0)

/-- The record of a node found by an ASSIGN (R174): its preferred path is A, on whichever path the reply came (R166; log entry 50). Its
chain position is one above the highest also where that is 40 already (log entry 64, DESIGN CHOICE). -/
def newNode (s : State) (ln a : Nat) (kind : NodeKind) (unit : Nat) : Node :=
  let m := membersFor s ln unit
  { addr := a
    kind := kind
    unit := unit
    chain := ((s.line ln).nodes.foldl (fun k n => max k n.chain) 0) + 1
    pref := .a
    st := .unknown
    fails := 0
    zones := m.1
    role := m.2
    configured := false
    queryNeeded := false
    answering := false
    busyUntil := none
    version := none
    refresh := none
    shown := none }

/-- R174: an ASSIGN answered DONE by a node of a kind and unit code. -/
def nodeFound (ln a : Nat) (kind : NodeKind) (unit : Nat) (c : Ctx) : Ctx :=
  match (c.st.line ln).enumeration with
  | none => c
  | some e =>
    let c1 :=
      match (c.st.line ln).nodes.find? fun n => n.unit == unit with
      | some old => removeNode ln old.addr c
      | none => c
    let n := newNode c1.st ln a kind unit
    let c2 := (c1.upd (State.setLine ln fun l => { l with
        nodes := l.nodes ++ [n]
        enumeration := some { e with found := e.found + 1 } }))
    let c3 := nodeGood ln a c2
    assignStep ln (c3.record
      (lcNote .nodeFound .routine ln e.tag [some a, some n.chain] (dv kind.code) (dv unit)))

end Sys2Proof.Machine
end

