-- ==== Sys2Proof/Machine/Zones.lean ====
section
/-! DEFINITION. The Zone Arbiter's operations: claims (R64 to R66, R71, R74), preemption (R67), wait lists (R68, R69), release and
settlement (R70), feeds (R73, R75), the zone drive (R76 to R78) and fire silence (R79, R80). -/

namespace Sys2Proof.Machine
open Sys2Proof

/-- The building of a zone, and so its line (R60). -/
def State.buildingOf (s : State) (z : Nat) : Nat := (s.zoneRec z).building

/-- R78: a zone is routed while it is enabled, speaks on line, and its holder is speaking (PAGE, or EVAC with the tone on). -/
def State.routed (s : State) (z : Nat) : Bool :=
  (s.zoneRec z).enabled && (s.zoneRec z).speaks && (s.zone z).holder.any (·.speaking)

/-- The circuit mask of a speaker switch node: one circuit for each zone of its membership, in membership order. -/
def circuitMask (s : State) (ln : Nat) (zones : List Nat) : BitVec 4 :=
  (List.range 4).foldl (fun m i =>
    match zones[i]? with
    | some z => withBit m i (s.routed z && s.buildingOf z == ln)
    | none => m) 0

/-- The zones whose circuits a mask turns on. -/
def circuitsOn (zones : List Nat) (mask : BitVec 4) : List Nat :=
  (List.range 4).filterMap fun i => if mask.getLsbD i then zones[i]? else none

/-- The grants of this event that a ROUTE with these circuits on reports to (R78). -/
def watchesFor (s : State) (zones : List Nat) (mask : BitVec 4) : List Watch :=
  (circuitsOn zones mask).filterMap fun z =>
    match (s.zone z).holder with
    | some c =>
      match c.who with
      | .ann n => if c.grantEv = s.eventNo then some ⟨n, z⟩ else none
      | _ => none
    | none => none

/-- R78: a ROUTE to a node; one queued for the node is withdrawn, and this one takes the better class and its watchers. -/
def routeNode (ln : Nat) (cls : Nat) (n : Node) (c : Ctx) : Ctx :=
  let s := c.st
  let mask := circuitMask s ln n.zones
  let p : Tx → Bool := fun t => t.kind.isRoute && t.addr? == some n.addr
  let gone := (s.line ln).queue.filter p
  let c2 := takeOut ln p (fun t => .tx ln { t with watch := [] } .purged none) c
  let t : Tx := { mkTx s (.route mask) (gone.foldl (fun k t => min k t.cls) cls) (.node n.addr) with
    watch := (watchesFor s n.zones mask ++ gone.flatMap (·.watch)).eraseDups }
  offerTx ln t c2

/-- The speaker switch nodes that are members of a zone and not ABSENT. -/
def speakersOf (s : State) (z : Nat) : List Node :=
  (s.line (s.buildingOf z)).nodes.filter fun n => n.kind = .speaker && n.st ≠ .absent && n.zones.contains z

/-- R78: the ROUTEs of a zone that becomes or stops being routed. -/
def routeZone (z cls : Nat) (c : Ctx) : Ctx :=
  Ctx.each (routeNode (c.st.buildingOf z) cls) (speakersOf c.st z) c

/-- R77: a sounder transaction for a zone; one queued for the zone is withdrawn. -/
def soundZone (z : Nat) (k : TxKind) (cls : Nat) (c : Ctx) : Ctx :=
  let r := c.st.zoneRec z
  if r.enabled && r.sounds then
    offerTx r.building (mkTx c.st k cls (.zone z))
      (withdraw r.building (fun t => t.kind.isSound && t.dest == .zone z) c)
  else c

/-- R77: the class of a holder's sounder transactions. -/
def soundClass : Claimant → Nat
  | .drill _ => 0
  | _ => 2

/-- R77: what a change from one holder to another places on the line. -/
def driveSound (z : Nat) (old new : Option Claim) (c : Ctx) : Ctx :=
  match new.bind (fun h => h.sound.map fun o => (h, o)), old.bind (fun h => h.sound.map fun _ => h) with
  | some (h, o), _ => soundZone z (.sound o.pattern o.length) (soundClass h.who) c
  | none, some h => soundZone z .soundStop (soundClass h.who) c
  | none, none => c

/-- A zone state in which a ROUTE is of class 0 (R78). -/
def isEvac (h : Option Claim) : Bool :=
  match h with
  | some c =>
    match c.who with
    | .drill _ => true
    | _ => false
  | none => false

/-- The holder changes: the cadence step becomes QUIET and the zone drive is evaluated (R67, R70, R76 to R78). At a release the new
holder is none: the holder that settlement then grants the zone is a change of its own, after the SOUND STOP (log entry 56, DESIGN CHOICE). -/
def changeHolder (z : Nat) (new : Option Claim) (c : Ctx) : Ctx :=
  let old := (c.st.zone z).holder
  let was := c.st.routed z
  let c1 := c.upd (State.setZone z fun d => { d with holder := new, cadence := .quiet })
  let c2 := driveSound z old new c1
  if was = c2.st.routed z then c2
  else routeZone z (if isEvac old || isEvac new then 0 else 1) c2

/-- R73: a feed whose holder holds no speaking zone of the building is released. -/
def feedLapse (b : Nat) (c : Ctx) : Ctx :=
  match c.st.za.feeds.getD b none with
  | none => c
  | some f =>
    if (c.st.zonesOfBuilding b).any fun z => (c.st.zone z).holder.any fun h => h.speaking && h.who == f.who then c
    else c.upd (State.setFeed b none)

/-! ### Wait lists -/

/-- R68: a claim goes before another by level, and among equal levels by arrival order. -/
def Claim.before (a b : Claim) : Bool := a.level < b.level || (a.level == b.level && a.arrival < b.arrival)

def insertClaim (x : Claim) : List Claim → List Claim
  | [] => [x]
  | y :: ys => if x.before y then x :: y :: ys else y :: insertClaim x ys

/-- A claimant's claim leaves a zone's wait list; a reservation of it ends (R69). -/
def dropWaiter (z : Nat) (who : Claimant) (c : Ctx) : Ctx :=
  c.upd (State.setZone z fun d => { d with
    waiters := d.waiters.filter fun w => w.who != who
    reserved := if d.reserved = some who then none else d.reserved })

/-- R68: a claim joins, perhaps in the place of the worst waiter; `ok` is its answer when it joins. -/
def joinList (z : Nat) (x : Claim) (ok : Answer) (c : Ctx) : Ctx :=
  let ws := (c.st.zone z).waiters
  let put : Ctx → Ctx := fun c =>
    (c.upd (State.setZone z fun d => { d with waiters := insertClaim x d.waiters })).say (.zone x.who z ok)
  if ws.length < Config.waitCapacity then put c
  else
    match ws.getLast? with
    | some w =>
      if x.level < w.level then put ((dropWaiter z w.who c).say (.zone w.who z (.lost .waitFull)))
      else c.say (.zone x.who z (.lost .waitFull))
    | none => put c

/-! ### Preemption and grants -/

def zaNote (z : Nat) (tag : Word) (d0 d1 d2 : Detail) : Note := ⟨.zonePreempted, .routine, .za, z, tag, d0, d1, d2⟩

/-- The causes of ZONE PREEMPTED. -/
def causeZone : Nat := 0
def causeFeed : Nat := 1

/-- R67: the holder's claim rejoins or ends, ZONE PREEMPTED is written. The zone's change of holder is the caller's. `by`
is the claimant the zone goes to, or the one whose claim empties it (log entry 20). -/
def preempted (z cause : Nat) (new : Claim) (h : Claim) (c : Ctx) : Ctx :=
  let c1 := c.record (zaNote z c.tag (dv z) (claimantValues h.who h.level)
    (claimantValues new.who new.level ++ [some (cause : Int)]))
  let now := c.st.elapsed
  let limit : Option Nat :=
    match h.onPreempt with
    | .leave => none
    | .waitUntil t => if now < t then some t else none
    | .waitFor d => if 0 < d then some (now + d) else none
  match limit with
  | some t => joinList z { h with waitLimit := some t } (.preempted new.who true) c1
  | none => c1.say (.zone h.who z (.preempted new.who false))

/-- A zone is taken from its holder and left without one (R67). -/
def preemptOut (z cause : Nat) (new : Claim) (c : Ctx) : Ctx :=
  match (c.st.zone z).holder with
  | some h => changeHolder z none (preempted z cause new h c)
  | none => c

/-- R78: a ROUTE enqueued earlier in this event that carries the granted zone's circuit on reports to the grant too. -/
def watchTx (s : State) (ln : Nat) (w : Watch) (t : Tx) : Tx :=
  match t.kind, t.addr? with
  | .route mask, some a =>
    match (s.line ln).node? a with
    | some n => if t.event = s.eventNo && (circuitsOn n.zones mask).contains w.zone then { t with watch := t.watch ++ [w] } else t
    | none => t
  | _, _ => t

def watchEarlier (z : Nat) (who : Claimant) (c : Ctx) : Ctx :=
  match who with
  | .ann n =>
    let ln := c.st.buildingOf z
    c.upd (State.setLine ln fun l => { l with
      queue := l.queue.map (watchTx c.st ln ⟨n, z⟩)
      inFlight := l.inFlight.map fun f => { f with tx := watchTx c.st ln ⟨n, z⟩ f.tx } })
  | _ => c

/-- A claim is granted a zone, straight from its present holder if it has one. -/
def grantZone (z : Nat) (x : Claim) (c : Ctx) : Ctx :=
  let c1 := dropWaiter z x.who c
  let c2 :=
    match (c1.st.zone z).holder with
    | some h => preempted z causeZone x h c1
    | none => c1
  let x' := { x with grantEv := c2.st.eventNo }
  let b := c2.st.buildingOf z
  let c3 := if x.speaking then c2.upd (State.setFeed b (some ⟨x.who, x.level⟩)) else c2
  changeHolder z (some x')
    (watchEarlier z x.who <| (c3.upd (State.setZone z fun d => { d with reserved := none })).say (.zone x.who z .granted))

/-- Whether the feed can go with a grant (R74). -/
inductive FeedTest where
  | free
  | worse (loser : Claimant)
  | blocked
deriving DecidableEq, Repr

def feedTest (s : State) (b : Nat) (x : Claim) : FeedTest :=
  if x.speaking then
    match s.za.feeds.getD b none with
    | none => .free
    | some f => if f.who = x.who then .free else if x.level < f.level then .worse f.who else .blocked
  else .free

/-- R74: a feed's holder is preempted in every zone of the building that it holds, but `keep`. -/
def feedPreempt (b : Nat) (loser : Claimant) (keep : Option Nat) (x : Claim) (c : Ctx) : Ctx :=
  Ctx.each (fun z c =>
    if (c.st.zone z).holder.any (fun h => h.who == loser) && keep != some z then preemptOut z causeFeed x c else c)
    (c.st.zonesOfBuilding b) c

/-! ### Settlement (R70) -/

/-- R70: the reserved waiter, or the best waiter. -/
def ZoneDyn.candidate (d : ZoneDyn) : Option Claim :=
  match d.reserved with
  | some who =>
    match d.waiters.find? (·.who == who) with
    | some w => some w
    | none => d.waiters.head?
  | none => d.waiters.head?

/-- The candidates of a building's unheld zones, ascending. -/
def candidates (s : State) (b : Nat) : List (Nat × Claim) :=
  (s.zonesOfBuilding b).filterMap fun z =>
    if (s.zoneRec z).enabled && (s.zone z).holder.isNone then (s.zone z).candidate.map fun w => (z, w) else none

/-- The best of a list of claims (R70). -/
def bestClaim : List (Nat × Claim) → Option Claim
  | [] => none
  | p :: ps =>
    match bestClaim ps with
    | none => some p.2
    | some w => some (if w.before p.2 then w else p.2)

/-- R70, steps 2 and 3: the speaking candidates, best first. The first number bounds their count. -/
def settleSpeaking (b : Nat) : Nat → List (Nat × Claim) → Ctx → Ctx
  | 0, _, c => c
  | n + 1, ps, c =>
    match bestClaim ps with
    | none => c
    | some w =>
      let mine := ps.filter fun p => p.2.who == w.who
      let rest := ps.filter fun p => p.2.who != w.who
      let give : Ctx → Ctx := Ctx.each (fun p c => grantZone p.1 p.2 c) mine
      match feedTest c.st b w with
      | .free => settleSpeaking b n rest (give c)
      | .worse loser => settleSpeaking b n rest (give (feedPreempt b loser none w c))
      | .blocked =>
        settleSpeaking b n rest
          (Ctx.each (fun p c => c.upd (State.setZone p.1 fun d => { d with reserved := some p.2.who })) mine c)

/-- One round of R70's steps. -/
def settleRound (b : Nat) (c : Ctx) : Ctx :=
  let quiet := (candidates c.st b).filter fun p => !p.2.speaking
  let c1 := Ctx.each (fun p c => grantZone p.1 p.2 c) quiet c
  let loud := (candidates c1.st b).filter fun p => p.2.speaking
  settleSpeaking b loud.length loud c1

/-- R70: the rounds are repeated until no zone changes. -/
def settleLoop (b : Nat) : Nat → Ctx → Ctx
  | 0, c => c
  | n + 1, c =>
    let c1 := settleRound b c
    if c1.st.za.zones = c.st.za.zones then c1 else settleLoop b n c1

/-- More rounds than a building can take: every round but the last grants or reserves. -/
def settleRounds : Nat := 1000

/-- R70: a building is settled before the event ends. -/
def settle (b : Nat) (c : Ctx) : Ctx := settleLoop b settleRounds (feedLapse b c)

/-! ### Claims -/

/-- A claim is decided as on a zone it would be granted (R66, R74). -/
def takeOrBlock (z : Nat) (x : Claim) (c : Ctx) : Ctx :=
  let b := c.st.buildingOf z
  match feedTest c.st b x with
  | .free => grantZone z x c
  | .worse loser => grantZone z x (feedPreempt b loser (some z) x c)
  | .blocked =>
    if x.mayWait then preemptOut z causeZone x (joinList z x .waiting c)
    else c.say (.zone x.who z (.lost .feed))

/-- A claim that is not granted waits or is lost (R66, R71). -/
def waitOrLose (z : Nat) (x : Claim) (r : LostReason) (c : Ctx) : Ctx :=
  if x.mayWait then joinList z x .waiting c else c.say (.zone x.who z (.lost r))

/-- A claim on a zone that is neither OUT nor SILENCED (R66, R71, R74). -/
def decideClaim (z : Nat) (x : Claim) (c : Ctx) : Ctx :=
  let d := c.st.zone z
  match d.holder with
  | some h =>
    if x.level < h.level then takeOrBlock z x c
    else waitOrLose z x (if isEvac (some h) then .drill else .held) c
  | none =>
    match d.candidate with
    | none => takeOrBlock z x c
    | some w =>
      if x.level < w.level then takeOrBlock z x (c.upd (State.setZone z fun d => { d with reserved := none }))
      else waitOrLose z x .held c

/-- R64, R65: a claim on a zone. Its arrival number is given here. On an OUT zone while fire is reported the reason is ZONE OUT (log entry 51,
DESIGN CHOICE). -/
def claim (z : Nat) (x : Claim) (c : Ctx) : Ctx :=
  let d := c.st.zone z
  if d.holder.any (fun h => h.who == x.who) then c.say (.zone x.who z .granted)
  else if d.waiters.any (fun w => w.who == x.who) then c.say (.zone x.who z .waiting)
  else
    let n := c.st.za.arrival
    let c1 := c.upd fun s => { s with za := { s.za with arrival := n + 1 } }
    if z ≥ 64 || c.st.zoneState z = .out then c1.say (.zone x.who z (.lost .zoneOut))
    else if c.st.za.fireReported || c.st.zoneState z = .silenced then c1.say (.zone x.who z (.lost .fire))
    else settle (c.st.buildingOf z) (decideClaim z { x with arrival := n } c1)

/-! ### Release, withdrawal, expiry -/

/-- R70: a claimant releases one zone it holds. -/
def releaseZone (z : Nat) (who : Claimant) (c : Ctx) : Ctx :=
  if (c.st.zone z).holder.any (fun h => h.who == who) then settle (c.st.buildingOf z) (changeHolder z none c) else c

/-- R69: a claimant takes back a claim that waits. -/
def withdrawClaim (z : Nat) (who : Claimant) (c : Ctx) : Ctx :=
  if (c.st.zone z).waiters.any (fun w => w.who == who) then settle (c.st.buildingOf z) (dropWaiter z who c) else c

/-- R70: a claimant that ends releases all its zones in one event, and its waiting claims are withdrawn. -/
def releaseAll (who : Claimant) (c : Ctx) : Ctx :=
  let c1 := Ctx.each (fun z c => dropWaiter z who c) (List.range 64) c
  let c2 := Ctx.each (fun z c =>
    if (c.st.zone z).holder.any (fun h => h.who == who) then changeHolder z none c else c) (List.range 64) c1
  Ctx.each settle (List.range 8) c2

/-- R69: a wait limit is reached. -/
def expireClaim (z : Nat) (who : Claimant) (c : Ctx) : Ctx :=
  if (c.st.zone z).waiters.any fun w => w.who == who && w.waitLimit.any (· ≤ c.st.elapsed) then
    settle (c.st.buildingOf z) ((dropWaiter z who c).say (.zone who z (.lost .waitExpired)))
  else c

/-! ### Reports of the holder (R76, R77) -/

/-- R76: the holder of a zone reports its cadence step. -/
def setCadence (z : Nat) (who : Claimant) (k : Cadence) (c : Ctx) : Ctx :=
  c.upd (State.setZone z fun d => if d.holder.any (fun h => h.who == who) then { d with cadence := k } else d)

/-- R77: the holder's sound order is set, changed or taken away. -/
def setSound (z : Nat) (who : Claimant) (o : Option SoundOrder) (c : Ctx) : Ctx :=
  match (c.st.zone z).holder with
  | some h =>
    if h.who = who && h.sound ≠ o then
      let h' := { h with sound := o }
      driveSound z (some h) (some h') (c.upd (State.setZone z fun d => { d with holder := some h' }))
    else c
  | none => c

/-! ### The drill's tone (R75) -/

/-- The zones a claimant holds, ascending. -/
def State.heldBy (s : State) (who : Claimant) : List Nat :=
  (List.range 64).filter fun z => (s.zone z).holder.any fun h => h.who == who

/-- A zone of the drill becomes speaking or stops, with the ROUTEs of class 0 (R78). -/
def setSpeaking (z : Nat) (b : Bool) (c : Ctx) : Ctx :=
  let was := c.st.routed z
  let c1 := c.upd (State.setZone z fun d => { d with holder := d.holder.map fun h => { h with speaking := b } })
  if was = c1.st.routed z then c1 else routeZone z 0 c1

/-- R75: tone on. The feed test takes each building's feed before the zones there become speaking. -/
def toneOn (num : Nat) (c : Ctx) : Ctx :=
  let who := Claimant.drill num
  let x : Claim := ⟨who, 1, true, false, none, .leave, none, 0, 0⟩
  let bs := (List.range 8).filter fun b => (c.st.heldBy who).any fun z => c.st.buildingOf z == b
  let c1 := Ctx.each (fun b c =>
    let c' := match feedTest c.st b x with
      | .worse loser => feedPreempt b loser none x c
      | _ => c
    c'.upd (State.setFeed b (some ⟨who, 1⟩))) bs c
  let c2 := Ctx.each (fun z c => setSpeaking z true c) (c1.st.heldBy who) c1
  Ctx.each settle bs c2

/-- R75: tone off. -/
def toneOff (num : Nat) (c : Ctx) : Ctx :=
  let who := Claimant.drill num
  let c1 := Ctx.each (fun z c => setSpeaking z false c) (c.st.heldBy who) c
  Ctx.each settle (List.range 8) c1

/-! ### Fire silence -/

/-- Fire silence's hold of a zone (R64, R79). -/
def fireClaim : Claim := ⟨.fire, 0, false, false, none, .leave, none, 0, 0⟩

/-- R79, step 2, for one zone. A zone that stops being routed so gets no ROUTE of its own: the ROUTE OFF ALL of step 5 stands for it (log entry
39, DEDUCED). -/
def silenceZone (z : Nat) (c : Ctx) : Ctx :=
  if (c.st.zoneRec z).enabled then
    let d := c.st.zone z
    let lost := (d.holder.toList ++ d.waiters).filter fun x => x.who != .fire
    Ctx.each (fun x c => c.say (.zone x.who z (.lost .fire))) lost
      (c.upd (State.setZone z fun _ => ⟨some fireClaim, [], none, .quiet⟩))
  else c

/-- R79, step 5, for one line. -/
def silenceLine (ln : Nat) (c : Ctx) : Ctx :=
  if (c.st.line ln).state = .off then c
  else
    let c1 := withdraw ln (fun t => t.cls == 1 || t.cls == 2) c
    offerTx ln (mkTx c.st .routeOffAll 0 .all) (offerTx ln (mkTx c.st .soundStopAll 0 .all) c1)

/-- R79: fire silence takes every enabled zone. -/
def fireSilence (c : Ctx) : Ctx :=
  let c1 := c.upd fun s => { s with za := { s.za with fireReported := true } }
  let c2 := Ctx.each silenceZone (List.range 64) c1
  let c3 := c2.upd fun s => { s with za := { s.za with feeds := List.replicate 8 none } }
  Ctx.each silenceLine (List.range 8) c3

/-- R80: FIRE OFF. -/
def fireOff (c : Ctx) : Ctx := c.upd fun s => { s with za := { s.za with fireReported := false } }

/-- The SILENCED zones. -/
def State.silenced (s : State) : List Nat := (List.range 64).filter fun z => s.zoneState z = .silenced

/-- R80: every SILENCED zone becomes IDLE with an empty wait list. -/
def releaseSilence (c : Ctx) : Ctx :=
  Ctx.each (fun z c => c.upd (State.setZone z fun _ => ZoneDyn.clear)) c.st.silenced c

end Sys2Proof.Machine
end

