-- ==== Sys2Proof/Machine/Bells.lean ====
section
/-! DEFINITION. The Pattern Unit's bell instances: their start (R88), claims (R90), answers (R92 to R94) and pushes (R91); the stale
report (R98); cadence steps (R84, R90). -/

namespace Sys2Proof.Machine
open Sys2Proof

/-- The reasons of BELL MISSED and BELL TRUNCATED (section 5.6), by place. -/
inductive BellReason where
  | deferExpired
  | waitFull
  | fire
  | drill
  | zoneOut
  | noInstance
  | emptyPattern
  | emptyGroup
  | preempted
deriving DecidableEq, Repr

/-- The place in BELL MISSED's list; PREEMPTED, which BELL TRUNCATED alone names, has its place there (log entry 13). -/
def BellReason.code : BellReason → Nat
  | .deferExpired => 0 | .waitFull => 1 | .fire => 2 | .drill => 3 | .zoneOut => 4 | .noInstance => 5 | .emptyPattern => 6
  | .emptyGroup => 7 | .preempted => 4

/-- The tag of records about an instance: its RING request's, else 0. -/
def BellSource.tag : BellSource → Word
  | .ring t => t
  | _ => 0

/-- ENTRY with index, RING, PUSH with input. -/
def BellSource.values : BellSource → Detail
  | .entry i _ => [some 0, some i]
  | .ring _ => [some 1]
  | .push k => [some 2, some k]

def puNote (k : RecKind) (cat : Category) (index : Nat) (tag : Word) (d0 d1 d2 : Detail) : Note :=
  ⟨k, cat, .pu, index, tag, d0, d1, d2⟩

/-- BELL MISSED with no instance. -/
def missedNote (src : BellSource) (r : BellReason) : Note :=
  puNote .bellMissed .attention 0 src.tag [none] [none] (dv r.code)

/-- The lowest number from 0 to 63 of no instance. -/
def freeBell (bells : List Bell) : Option Nat :=
  (List.range Config.bellCapacity).find? fun n => !bells.any (·.num == n)

/-- R88: the records of a start. -/
def firedNotes (b : Bell) : List Note :=
  let fired := puNote .bellFired .routine b.num b.source.tag (dv b.num) b.source.values
    [some b.pattern, some b.level, some b.zones.length]
  match b.source with
  | .entry i late =>
    if late > 0 then [fired, puNote .bellLate .routine b.num 0 (dv b.num) (dv i) (dv late)] else [fired]
  | _ => [fired]

/-- The instance of a start (R88, step 1). A zone's state is WAITING until its claim is answered, in the same event. -/
def newBell (s : State) (n : Nat) (src : BellSource) (zones : ZoneSet) (pattern level defer duration : Nat) : Bell where
  num := n
  source := src
  pattern := pattern
  level := level
  length := (s.pattern pattern).length duration
  deadline := s.elapsed + 1000 * defer
  zones := (zonesOf zones).map fun z => ⟨z, .waiting, false, 0⟩
  staleReported := false

/-- R88: a bell instance is started; the pattern and the zone set are not empty. -/
def bellStart (src : BellSource) (zones : ZoneSet) (pattern level defer duration : Nat) (c : Ctx) : Ctx :=
  match freeBell c.st.pu.bells with
  | none => c.record (missedNote src .noInstance)
  | some n =>
    let b := newBell c.st n src zones pattern level defer duration
    let c1 := c.upd fun s => { s with pu := { s.pu with bells := s.pu.bells ++ [b] } }
    let c2 :=
      match src with
      | .push k => c1.upd fun s => { s with pu := { s.pu with lastPush := s.pu.lastPush.set k (some n) } }
      | _ => c1
    (Ctx.each Ctx.record (firedNotes b) c2).call ((zonesOf zones).map (.bellClaim n))

/-- R90: one claim of an instance. -/
def bellClaim (n z : Nat) (c : Ctx) : Ctx :=
  match c.st.bell? n with
  | none => c
  | some b =>
    claim z ⟨.bell n, b.level, false, c.st.elapsed < b.deadline, some b.deadline, .waitUntil b.deadline,
      some ⟨b.pattern, b.length⟩, 0, 0⟩ c

def Bell.setZone (z : Nat) (f : BellZone → BellZone) (b : Bell) : Bell :=
  { b with zones := b.zones.map fun e => if e.zone = z then f e else e }

def Bell.zone? (b : Bell) (z : Nat) : Option BellZone := b.zones.find? (·.zone == z)

def Bell.count (b : Bell) (k : BellZoneState) : Nat := (b.zones.filter fun e => e.st = k).length

/-- R94: an instance whose zones all have an outcome ends. -/
def bellCheck (n : Nat) (c : Ctx) : Ctx :=
  match c.st.bell? n with
  | none => c
  | some b =>
    if b.count .sounding + b.count .waiting > 0 then c
    else
      (c.record (puNote .bellEnded .routine n b.source.tag (dv n) (dv (b.count .finished))
        [some (b.count .truncated), some (b.count .missed)])).upd fun s => { s with pu := { s.pu with
          bells := s.pu.bells.filter fun e => e.num != n
          lastPush := s.pu.lastPush.map fun p => if p = some n then none else p } }

/-- R94: a zone of an instance is lost: TRUNCATED when it has sounded, MISSED when it has not. -/
def bellLose (n z : Nat) (r : BellReason) (c : Ctx) : Ctx :=
  match c.st.bell? n with
  | none => c
  | some b =>
    match b.zone? z with
    | none => c
    | some e =>
      let k := if e.sounded then BellZoneState.truncated else .missed
      let kind := if e.sounded then RecKind.bellTruncated else .bellMissed
      bellCheck n ((c.upd (State.setBell n (Bell.setZone z fun e => { e with st := k }))).record
        (puNote kind .attention n b.source.tag (dv n) (dv z) (dv r.code)))

/-- R98: the sounders that are members of a zone, not ABSENT and stale. -/
def staleCount (s : State) (z : Nat) : Nat :=
  ((s.line (s.buildingOf z)).nodes.filter fun n => n.st ≠ .absent && n.zones.contains z && staleNode s n).length

/-- R98: STALE PATTERN, once an instance. -/
def staleReport (b : Bell) (z : Nat) (c : Ctx) : Ctx :=
  let n := staleCount c.st z
  if (c.st.zoneRec z).sounds && b.pattern ≤ 30 && n > 0 && !b.staleReported then
    (c.upd (State.setBell b.num fun b => { b with staleReported := true })).record
      (puNote .stalePattern .attention b.num b.source.tag (dv b.num) (dv z) (dv n))
  else c

/-- R90: a grant starts the zone's cadence from its first step. -/
def bellGranted (b : Bell) (z : Nat) (c : Ctx) : Ctx :=
  let now := c.st.elapsed
  let c1 := c.upd (State.setBell b.num (Bell.setZone z fun e => { e with st := .sounding, sounded := true, start := now }))
  staleReport b z (setCadence z (.bell b.num) ((c1.st.pattern b.pattern).cadenceAt 0) c1)

/-- R94's table for the answer LOST. -/
def lostReason : LostReason → BellReason
  | .zoneOut => .zoneOut
  | .fire => .fire
  | .drill => .drill
  | .held => .deferExpired
  | .feed => .deferExpired
  | .waitFull => .waitFull
  | .waitExpired => .deferExpired

/-- R90, R92 to R94: an answer to an instance. -/
def bellAnswer (n z : Nat) (a : Answer) (c : Ctx) : Ctx :=
  match c.st.bell? n with
  | none => c
  | some b =>
    match a with
    | .granted => bellGranted b z c
    | .waiting => c.upd (State.setBell n (Bell.setZone z fun e => { e with st := .waiting }))
    | .preempted _ true => c.upd (State.setBell n (Bell.setZone z fun e => { e with st := .waiting }))
    | .preempted new false =>
      bellLose n z (match new with
        | .drill _ => .drill
        | _ => .preempted) c
    | .lost r => bellLose n z (lostReason r) c

/-- R90: a zone's cadence reaches its length. -/
def bellFinish (n z : Nat) (c : Ctx) : Ctx :=
  match c.st.bell? n with
  | none => c
  | some b =>
    match b.zone? z with
    | none => c
    | some e =>
      if e.st = .sounding && e.start + b.length ≤ c.st.elapsed then
        bellCheck n (releaseZone z (.bell n)
          (c.upd (State.setBell n (Bell.setZone z fun e => { e with st := .finished }))))
      else c

/-- R91: a bell push closes. Where both the pattern and the group are empty the reason is EMPTY PATTERN (log entry 51, DESIGN CHOICE). -/
def bellPush (k group pattern : Nat) (c : Ctx) : Ctx :=
  let s := c.st
  if (s.pu.lastPush.getD k none).isSome then c
  else if (s.pattern pattern).isEmpty then c.record (missedNote (.push k) .emptyPattern)
  else if s.group group = 0 then c.record (missedNote (.push k) .emptyGroup)
  else bellStart (.push k) (s.group group) pattern 6 0 30 c

/-! ### Cadence steps (R84) -/

/-- The cadence of a run at this moment; none when its end has come. -/
def CadRun.now (s : State) (r : CadRun) : Option Cadence :=
  if s.elapsed < r.start + r.length then some ((s.pattern r.pattern).cadenceAt (s.elapsed - r.start)) else none

/-- R90: a bell zone's cadence step. -/
def bellStep (n z : Nat) (c : Ctx) : Ctx :=
  match c.st.bell? n with
  | none => c
  | some b =>
    match b.zone? z with
    | none => c
    | some e =>
      if e.st = .sounding then
        match CadRun.now c.st ⟨b.pattern, e.start, b.length⟩ with
        | some k => setCadence z (.bell n) k c
        | none => c
      else c

end Sys2Proof.Machine
end

