-- ==== Sys2Proof/Machine/Announce.lean ====
section
/-! DEFINITION. The Announcement Unit: channels (R102 to R104), announcement states (R109 to R115), audio from blocks (R116 to
R121) and live sources (R122). -/

namespace Sys2Proof.Machine
open Sys2Proof

def Ann.tag (a : Ann) : Word :=
  match a.origin with
  | .request t => t
  | .entry _ => 0

/-- REQUEST, ENTRY with index. -/
def Ann.originValues (a : Ann) : List (Option Int) :=
  match a.origin with
  | .request _ => [some 0]
  | .entry i => [some 1, some i]

def Ann.isBlocks (a : Ann) : Bool :=
  match a.source with
  | .blocks _ => true
  | _ => false

def Ann.liveOf (a : Ann) : Option Nat :=
  match a.source with
  | .live n => some n
  | _ => none

/-- The chime's cadence (R111): the maximum duration is the length of a continuous pattern. -/
def chimeRun (s : State) (a : Ann) : Option CadRun :=
  a.chime.map fun p => ⟨p, a.chimeAt, (s.pattern p).length a.maxDur⟩

def auNote (k : RecKind) (cat : Category) (a : Ann) (d0 d1 d2 : Detail) : Note := ⟨k, cat, .au, a.num, a.tag, d0, d1, d2⟩

def EndReason.category : EndReason → Category
  | .complete | .maxTime | .cancelled => .routine
  | _ => .attention

/-- ANNOUNCEMENT ENDED (section 6.6). -/
def endedNote (a : Ann) (r : EndReason) : Note :=
  auNote .annEnded r.category a [some r.code, dvo a.channel, some a.discarded] (dv a.fetched) (dv a.played)

def Ann.count (a : Ann) (k : AnnZoneState) : Nat := (a.zones.filter fun z => z.st = k).length
def Ann.holds (a : Ann) : Bool := a.zones.any fun z => z.st = .held
def Ann.waits (a : Ann) : Bool := a.zones.any fun z => z.st = .waiting

def Ann.setZone (z : Nat) (f : AnnZone → AnnZone) (a : Ann) : Ann :=
  { a with zones := a.zones.map fun e => if e.zone = z then f e else e }

/-! ### Region accesses -/

/-- An announcement's region access begins (R116 to R119). -/
def annAccess (n : Nat) (x : AnnAccess) (c : Ctx) : Ctx :=
  match c.st.ann? n with
  | none => c
  | some a =>
    if c.st.attached then
      let acc : Access := match x with
        | .header _ => .header a.arrival
        | .reread => .reread a.arrival
        | .fetch k => .fetch a.arrival k
        | .consumed _ => .consumed a.arrival ((a.block.map (·.offset)).getD 0)
      (c.upd (State.setAnn n fun a => { a with access := some x })).upd (State.ask acc)
    else c

/-- The FIFO level of an announcement's channel. -/
def fifoLevel (s : State) (a : Ann) : Nat :=
  match a.channel with
  | some ch => (s.channel ch).fifo.length
  | none => 0

/-- R117: a fetch starts whenever its conditions hold. -/
def tryFetch (n : Nat) (c : Ctx) : Ctx :=
  match c.st.ann? n with
  | none => c
  | some a =>
    match a.block, a.channel with
    | some b, some ch =>
      let level := fifoLevel c.st a
      if a.st = .playing && a.access.isNone && b.fetched < b.count && level < (c.st.channel ch).cfg.trigger then
        annAccess n (.fetch (min (Config.fifoCapacity - level) (b.count - b.fetched))) c
      else c
    | _, _ => c

/-- R119: a re-read that is called for is made when no other access is in flight. -/
def tryReread (n : Nat) (c : Ctx) : Ctx :=
  match c.st.ann? n with
  | none => c
  | some a =>
    if a.st = .playing && a.awaiting.isSome && a.rereadDue && a.access.isNone then
      annAccess n .reread (c.upd (State.setAnn n fun a => { a with rereadDue := false }))
    else c

/-! ### Ending (R114) -/

/-- The record is removed and ANNOUNCEMENT ENDED written. -/
def annRemove (n : Nat) (c : Ctx) : Ctx :=
  match c.st.ann? n with
  | none => c
  | some a =>
    (c.upd fun s => { s with au := { s.au with anns := s.au.anns.filter fun e => e.num != n } }).record
      (endedNote a (a.endReason.getD .complete))

/-- R114: what ENDING still waits for: an access in flight, then the CONSUMED write of a block entered. -/
def annClose (n : Nat) (c : Ctx) : Ctx :=
  match c.st.ann? n with
  | none => c
  | some a =>
    if a.st ≠ .ending then c
    else if a.isBlocks && a.block.isSome && c.st.attached then
      if a.access.isSome then c
      else if a.consumedBegun then annRemove n c
      else annAccess n (.consumed none) (c.upd (State.setAnn n fun a => { a with consumedBegun := true }))
    else annRemove n c

/-- The channel is given up, with its last ending (R114, step 3). -/
def freeChannel (ch n : Nat) (r : EndReason) (s : State) : State :=
  s.setChannel ch fun k => Channel.free k.cfg (some ⟨n, r⟩)

/-- R114: an announcement ends. With `pass`, its channel passes to the requester that chose it (R102 case 2). -/
def annEnd (n : Nat) (r : EndReason) (pass : Bool) (c : Ctx) : Ctx :=
  match c.st.ann? n with
  | none => c
  | some a =>
    match a.st with
    | .ending => c
    | .waiting =>
      annRemove n ((c.upd (State.setAnn n fun a => { a with endReason := some r })).upd fun s =>
        { s with au := { s.au with waitList := s.au.waitList.filter (· != n) } })
    | _ =>
      let level := fifoLevel c.st a
      let c1 := releaseAll (.ann n) (c.upd (State.setAnn n fun a => { a with
        st := .ending
        endReason := some r
        zones := a.zones.map fun z => { z with st := .lost }
        awaiting := none
        discarded := a.discarded + level }))
      let c2 :=
        match a.channel with
        | some ch =>
          let c' := c1.upd (freeChannel ch n r)
          if pass then c' else c'.call [.channelOffer ch]
        | none => c1
      annClose n c2

/-- R120: the source has ended and the FIFO is empty. -/
def completeCheck (n : Nat) (c : Ctx) : Ctx :=
  match c.st.ann? n with
  | none => c
  | some a =>
    if a.st = .playing && a.sourceEnded && fifoLevel c.st a = 0 then annEnd n .complete false c else c

/-! ### CHIME and PLAYING -/

/-- The tone generator follows a cadence step (R95, R111). -/
def toneFor (s : State) (p : Nat) (k : Cadence) : Option Tone :=
  if k = .on then some ⟨(s.pattern p).freq, (s.pattern p).level⟩ else none

/-- R111: CHIME is entered, or entered again at a resumption; the cadence starts at this moment. -/
def enterChime (n : Nat) (c : Ctx) : Ctx :=
  match c.st.ann? n with
  | none => c
  | some a =>
    match a.chime, a.channel with
    | some p, some ch =>
      (c.upd (State.setAnn n fun a => { a with st := .chime, chimeAt := c.st.elapsed })).upd
        (State.setChannel ch fun k => { k with tone := toneFor c.st p ((c.st.pattern p).cadenceAt 0) })
    | _, _ => c

/-- R122: the talk state on the first entry into PLAYING. -/
def startTalk (n : Nat) (live : Nat) (c : Ctx) : Ctx :=
  if c.st.pttClosed live then c.upd (State.setAnn n fun a => { a with talk := some .talking })
  else c.upd (State.setAnn n fun a => { a with talk := some .beforeTalk, noTalkAt := some (c.st.elapsed + 10000) })

/-- R120: the starve timer runs while a BLOCKS source plays an empty FIFO. -/
def startStarve (n : Nat) (c : Ctx) : Ctx :=
  match c.st.ann? n with
  | none => c
  | some a =>
    match a.channel with
    | some ch =>
      if a.isBlocks && a.st = .playing && !a.sourceEnded && fifoLevel c.st a = 0 then
        c.upd (State.setChannel ch fun k => { k with starveFrom := some (k.starveFrom.getD c.st.elapsed) })
      else c
    | none => c

/-- PLAYING is entered: the channel plays from this moment (R120). -/
def beginPlaying (n : Nat) (c : Ctx) : Ctx :=
  match c.st.ann? n with
  | none => c
  | some a =>
    match a.channel with
    | some ch =>
      startStarve n ((c.upd (State.setAnn n fun a => { a with st := .playing })).upd
        (State.setChannel ch fun k => { k with tone := none, playedTo := c.st.elapsed, output := [] }))
    | none => c

/-- The first entry into PLAYING (R116, R122). -/
def enterPlaying (n : Nat) (c : Ctx) : Ctx :=
  match c.st.ann? n with
  | none => c
  | some a =>
    let c1 := beginPlaying n c
    match a.source with
    | .blocks first => annAccess n (.header first) c1
    | .live k => startTalk n k c1
    | .toneOnly => c1

/-- R119: the instants of an awaiting announcement's re-reads that fell within HELD are passed by; the 100 ms go on counting. -/
def passHeldRereads (now : Nat) (a : Ann) : Ann :=
  { a with awaiting := a.awaiting.map fun t => if now ≤ t then t else t + (now - t + 99) / 100 * 100 }

/-- R113: the return to PLAYING takes up the source where it stopped. -/
def resumePlaying (n : Nat) (c : Ctx) : Ctx :=
  completeCheck n (tryReread n (tryFetch n (beginPlaying n (c.upd (State.setAnn n (passHeldRereads c.st.elapsed))))))

/-! ### Channels (R102, R103) -/

/-- The lowest free channel. -/
def freeChannel? (s : State) : Option Nat := (List.range 4).find? fun ch => (s.channel ch).owner.isNone

/-- The owners that are announcements at a level strictly worse than a level. -/
def worseOwners (s : State) (level : Nat) : List Ann :=
  (List.range 4).filterMap fun ch =>
    match (s.channel ch).owner with
    | some (.ann n) => (s.ann? n).filter fun a => a.level > level
    | _ => none

/-- R102 case 2: the worst, and among equals the latest arrival. -/
def worstAnn : List Ann → Option Ann
  | [] => none
  | a :: rest =>
    match worstAnn rest with
    | none => some a
    | some b => some (if a.level > b.level || (a.level == b.level && a.arrival > b.arrival) then a else b)

/-- What a channel request comes to (R102). -/
inductive ChannelAnswer where
  | free (ch : Nat)
  | take (loser : Nat) (ch : Nat)
  | wait
  | waitFor (evicted : Nat)
  | refused
deriving DecidableEq, Repr

/-- Announcement waiters, best first: level, then arrival order (R103). -/
def annBefore (a b : Ann) : Bool := a.level < b.level || (a.level == b.level && a.arrival < b.arrival)

/-- R102, R103: a channel request at a level. -/
def channelRequest (s : State) (level : Nat) (mayWait : Bool) : ChannelAnswer :=
  match freeChannel? s, worstAnn (worseOwners s level) with
  | some ch, _ => .free ch
  | none, some a => .take a.num (a.channel.getD 0)
  | none, none =>
    if mayWait then
      if s.au.waitList.length < Config.annWaitCapacity then .wait
      else
        match s.au.waitList.getLast?.bind s.ann? with
        | some w => if level < w.level then .waitFor w.num else .refused
        | none => .refused
    else .refused

/-- A new announcement takes its place in the wait list (R103). -/
def insertAnn (s : State) (a : Ann) : List Nat → List Nat
  | [] => [a.num]
  | n :: rest =>
    match s.ann? n with
    | some b => if annBefore a b then a.num :: n :: rest else n :: insertAnn s a rest
    | none => n :: insertAnn s a rest

/-- R106: the counter's value, or the first after it, wrapping at 255, that no record has. -/
def nextAnnNumber (s : State) : Nat :=
  ((List.range 256).map fun k => (s.au.counter + k) % 256).find? (fun n => (s.ann? n).isNone) |>.getD 0

/-- R106, R107: an announcement is taken; false when its channel is refused, and then no record is kept, though the counters
have moved (log entry 40). The record's number and arrival are given here. -/
def takeAnn (proto : Ann) (c : Ctx) : Ctx × Bool :=
  let s := c.st
  let n := nextAnnNumber s
  let a : Ann := { proto with num := n, arrival := s.au.arrival, takenAt := s.elapsed }
  let c0 := c.upd fun s => { s with au := { s.au with counter := (n + 1) % 256, arrival := s.au.arrival + 1 } }
  let c1 := c0.upd fun s => { s with au := { s.au with anns := s.au.anns ++ [a] } }
  let join : Ctx → Ctx := fun c => c.upd fun s => { s with au := { s.au with waitList := insertAnn s a s.au.waitList } }
  match channelRequest s a.level a.mayWait with
  | .free ch => (c1.call [.annGive n ch], true)
  | .take loser ch => (c1.call [.annEnd loser .preempted true, .annGive n ch], true)
  | .wait => (join c1, true)
  | .waitFor w => (join (annEnd w .preempted false c1), true)
  | .refused => (c0, false)

/-- R110: an announcement is given a channel and claims its zones. -/
def annGive (n ch : Nat) (c : Ctx) : Ctx :=
  match c.st.ann? n with
  | none => c
  | some a =>
    let c1 := (c.upd (State.setChannel ch fun k => { Channel.free k.cfg k.lastEnding with owner := some (.ann n) })).upd
      (State.setAnn n fun a => { a with st := .routing, routingAt := c.st.elapsed, channel := some ch })
    c1.call (a.zones.map (fun z => .annClaim n z.zone) ++ [.annCheck n])

/-- R102: a freed channel is offered to the best announcement in the wait list. -/
def channelOffer (ch : Nat) (c : Ctx) : Ctx :=
  if (c.st.channel ch).owner.isSome then c
  else
    match c.st.au.waitList with
    | [] => c
    | n :: rest => (c.upd fun s => { s with au := { s.au with waitList := rest } }).call [.annGive n ch]

/-- R105: one claim of an announcement. -/
def annClaim (n z : Nat) (c : Ctx) : Ctx :=
  match c.st.ann? n with
  | none => c
  | some a =>
    if a.st = .routing then
      claim z ⟨.ann n, a.level, true, true, none, if a.hold then .waitFor (1000 * a.resume) else .leave, none, 0, 0⟩ c
    else c

/-! ### ROUTING (R110) -/

/-- R110: the number of failed ROUTE transactions reported for the held zones; one that was reported for several counts once. -/
def Ann.failedRoutes (a : Ann) : Nat :=
  (a.failed.filter fun zs => a.zones.any fun e => e.st = .held && zs.contains e.zone).length

/-- R110: ROUTING is left by (a) or (b). -/
def leaveRouting (n : Nat) (c : Ctx) : Ctx :=
  match c.st.ann? n with
  | none => c
  | some a =>
    let gone := if a.lateJoin then [] else (a.zones.filter fun z => z.st = .waiting).map (·.zone)
    let c1 := Ctx.each (fun z c =>
      withdrawClaim z (.ann n) (c.upd (State.setAnn n (Ann.setZone z fun e => { e with st := .lost })))) gone c
    match c1.st.ann? n with
    | none => c1
    | some a =>
      if !a.holds && !a.waits then annEnd n .noZones false c1
      else
        let c2 := c1.record (auNote .annRouted .routine a (dvo a.channel :: a.originValues)
          [some (a.count .held), some (a.count .waiting)] (dv a.failedRoutes))
        if a.chime.isSome then enterChime n c2 else enterPlaying n c2

/-- R110: ROUTING is looked at after each answer, once every zone has been claimed. -/
def annCheck (n : Nat) (c : Ctx) : Ctx :=
  match c.st.ann? n with
  | none => c
  | some a =>
    if a.st ≠ .routing || a.zones.any (fun z => z.st = .unclaimed) then c
    else if a.holds then
      if a.zones.all fun z => z.st ≠ .held || z.routed then leaveRouting n c else c
    else if a.waits then c
    else annEnd n .noZones false c

/-- A ROUTE that reports to an announcement's zone is queued or in flight (R78). -/
def watched (s : State) (n z : Nat) : Bool :=
  let l := s.line (s.buildingOf z)
  l.queue.any (fun t => t.watch.contains ⟨n, z⟩) || l.inFlight.any fun f => f.tx.watch.contains ⟨n, z⟩

/-! ### HELD (R112, R113) -/

/-- R112: HELD is entered. -/
def enterHeld (n z : Nat) (c : Ctx) : Ctx :=
  match c.st.ann? n with
  | none => c
  | some a =>
    let c1 := c.upd (State.setAnn n fun a => { a with prior := a.st, st := .held, heldAt := c.st.elapsed })
    let c2 :=
      match a.channel with
      | some ch => c1.upd (State.setChannel ch fun k => { k with starveFrom := none, tone := none, output := [] })
      | none => c1
    c2.record (auNote .annHeld .routine a (dv z) (dv (1000 * a.resume)) (dv a.st.code))

/-- R112's table, after an answer that took a zone or a claim. -/
def annLook (n z : Nat) (wasPreempted : Bool) (c : Ctx) : Ctx :=
  match c.st.ann? n with
  | none => c
  | some a =>
    if a.holds then c
    else if a.zones.any fun e => e.st = .waiting && e.rejoined then enterHeld n z c
    else if a.waits then c
    else annEnd n (if wasPreempted then .preempted else .noZones) false c

/-- R113: a HELD announcement is granted a zone. -/
def annResume (n z : Nat) (c : Ctx) : Ctx :=
  match c.st.ann? n with
  | none => c
  | some a =>
    let c1 := c.record (auNote .annResumed .routine a (dv z) (dv (c.st.elapsed - a.heldAt)) (dv a.prior.code))
    if a.prior = .chime then enterChime n c1 else resumePlaying n c1

/-- The zone's standing after an answer. -/
def annStanding (s : State) (n z : Nat) : Answer → AnnZone → AnnZone
  | .granted, e => { e with st := .held, rejoined := false, routed := !watched s n z }
  | .waiting, e => { e with st := .waiting, rejoined := false }
  | .preempted _ true, e => { e with st := .waiting, rejoined := true }
  | .preempted _ false, e => { e with st := .lost }
  | .lost _, e => { e with st := .lost }

def Answer.wasPreempted : Answer → Bool
  | .preempted _ _ => true
  | _ => false
def Answer.wasGranted : Answer → Bool
  | .granted => true
  | _ => false

/-- R78: a grant's notices count from the grant: a failure reported for the zone before is not of it. -/
def Ann.answered (s : State) (z : Nat) (x : Answer) (a : Ann) : Ann :=
  let a1 := Ann.setZone z (annStanding s a.num z x) a
  if x.wasGranted then { a1 with failed := a.failed.map fun zs => zs.filter (· != z) } else a1

/-- R110, R112, R113, R115: an answer to an announcement. -/
def annAnswer (n z : Nat) (x : Answer) (c : Ctx) : Ctx :=
  match c.st.ann? n with
  | none => c
  | some a =>
    if a.st = .ending || a.st = .waiting then c
    else if x = .lost .fire then c.call [.annEnd n .fire false]
    else
      let c1 := c.upd (State.setAnn n (Ann.answered c.st z x))
      match a.st with
      | .routing => c1.call [.annCheck n]
      | .held =>
        if x.wasGranted then annResume n z c1
        else if (c1.st.ann? n).any (·.waits) then c1
        else annEnd n .preempted false c1
      | _ => if x.wasGranted || x = .waiting then c1 else annLook n z x.wasPreempted c1

/-- R78, R110: a ROUTE that reports to a zone of an announcement is answered. -/
def routeReport (w : Watch) (c : Ctx) : Ctx :=
  let done := !watched c.st w.ann w.zone
  (c.upd (State.setAnn w.ann (Ann.setZone w.zone fun e => { e with routed := done }))).call [.annCheck w.ann]

/-- R110: a ROUTE has failed; each announcement it reports to keeps the one failure, with the zones of it that are reported. -/
def State.routeFailed (ws : List Watch) (s : State) : State :=
  { s with au := { s.au with anns := s.au.anns.map fun a =>
    match (ws.filter fun w => w.ann == a.num).map (·.zone) with
    | [] => a
    | zs => { a with failed := a.failed ++ [zs] } } }

/-! ### Blocks (R116 to R119) -/

/-- R118 cases 1 and 2: CONSUMED is written into the current block's header, and the next header is read after it. -/
def moveOn (n : Nat) (next : Option Nat) (c : Ctx) : Ctx :=
  annAccess n (.consumed next) (c.upd (State.setAnn n fun a => { a with
    consumedBegun := true
    awaiting := none
    rereadDue := false
    sourceEnded := next.isNone }))

/-- R118: the exhausted block's successor, as the header recorded it or a re-read gives it. -/
def exhausted (n : Nat) (c : Ctx) : Ctx :=
  match c.st.ann? n with
  | none => c
  | some a =>
    match a.block with
    | none => c
    | some b =>
      if b.last then moveOn n none c
      else if b.next ≠ 0 then moveOn n (some b.next) c
      else if a.st = .playing then annAccess n .reread c
      else c.upd (State.setAnn n fun a => { a with awaiting := some c.st.elapsed, rereadDue := true })

/-- R116: a header read completes. -/
def headerDone (n : Nat) (d : List Byte) (c : Ctx) : Ctx :=
  match c.st.ann? n with
  | none => c
  | some a =>
    match a.access with
    | some (.header off) =>
      let c1 := c.upd (State.setAnn n fun a => { a with access := none })
      if a.st = .ending then annClose n c1
      else
        let h := decodeHeader d
        if headerValid off h then
          tryFetch n (c1.upd (State.setAnn n fun a => { a with
            block := some ⟨off, h.count, 0, h.next, h.last⟩, consumedBegun := false }))
        else annEnd n .badBlock false c1
    | _ => c

/-- R118 case 3, R119: a re-read completes. A next offset that cannot be followed ends the announcement BAD BLOCK at once, and the CONSUMED
write of the block left behind is then that of its ending (R114; log entry 62, DESIGN CHOICE). -/
def rereadDone (n : Nat) (d : List Byte) (c : Ctx) : Ctx :=
  match c.st.ann? n with
  | none => c
  | some a =>
    match a.access with
    | some .reread =>
      let c1 := c.upd (State.setAnn n fun a => { a with access := none })
      if a.st = .ending then annClose n c1
      else
        let h := decodeHeader d
        if h.last then completeCheck n (moveOn n none c1)
        else if h.next ≠ 0 then
          if blockOffsetOk h.next then moveOn n (some h.next) c1 else annEnd n .badBlock false c1
        else
          tryReread n (c1.upd (State.setAnn n fun a => { a with
            awaiting := some (a.awaiting.getD (c.st.elapsed + 100)) }))
    | _ => c

/-- R117, R118: a fetch completes with its samples. -/
def fetchDone (n : Nat) (samples : List Sample) (c : Ctx) : Ctx :=
  match c.st.ann? n with
  | none => c
  | some a =>
    match a.access with
    | some (.fetch k) =>
      let got := (samples ++ List.replicate k 0).take k
      let c1 := c.upd (State.setAnn n fun a => { a with
        access := none
        fetched := a.fetched + k
        discarded := if a.st = .ending then a.discarded + k else a.discarded
        block := a.block.map fun b => { b with fetched := b.fetched + k } })
      if a.st = .ending then annClose n c1
      else
        let c2 :=
          match a.channel with
          | some ch => c1.upd (State.setChannel ch fun q => { q with fifo := q.fifo ++ got, starveFrom := none })
          | none => c1
        if a.block.any fun b => b.fetched + k ≥ b.count then exhausted n c2 else tryFetch n c2
    | _ => c

/-- The state byte of the header at an offset is CONSUMED (R118). -/
def markConsumed (off : Nat) (s : State) : State :=
  s.setRi fun ri => { ri with region := regionWrite ri.region (off + 3) (leBytes 1 2) }

/-- R118: the CONSUMED write has completed. -/
def consumedDone (n : Nat) (c : Ctx) : Ctx :=
  match c.st.ann? n with
  | none => c
  | some a =>
    match a.access with
    | some (.consumed next) =>
      let c1 := c.upd (State.setAnn n fun a => { a with access := none })
      if a.st = .ending then annClose n c1
      else
        match next with
        | some o => annAccess n (.header o) c1
        | none => completeCheck n c1
    | _ => c

/-- R119: the 100 ms of an awaiting announcement have passed. -/
def awaitTimer (n : Nat) (c : Ctx) : Ctx :=
  match c.st.ann? n with
  | none => c
  | some a =>
    match a.awaiting with
    | some t =>
      if a.st = .playing && t ≤ c.st.elapsed then
        tryReread n (c.upd (State.setAnn n fun a => { a with awaiting := some (t + 100), rereadDue := true }))
      else c
    | none => c

/-! ### Playing (R120, R122) -/

/-- A live source's samples of one millisecond are taken while talking and in tail (R122). -/
def Ann.takesLive (a : Ann) : Bool := a.talk = some .talking || a.talk = some .tail

/-- How many samples one millisecond plays: 16 at most; a live source that still takes samples keeps 512 back (R120, R122). -/
def playCount (a : Ann) (level : Nat) : Nat :=
  match a.source with
  | .live _ => if a.takesLive then min 16 (level - 512) else min 16 level
  | _ => min 16 level

/-- R119, R120: a channel plays `m` samples of its FIFO. -/
def playSamples (ch n m : Nat) (c : Ctx) : Ctx :=
  let k := c.st.channel ch
  let c1 := (c.upd (State.setChannel ch fun k => { k with fifo := k.fifo.drop m, output := k.output ++ k.fifo.take m })).upd
    (State.setAnn n fun a => { a with
      played := a.played + m
      rereadDue := a.rereadDue
        || (a.awaiting.isSome && k.cfg.trigger ≤ k.fifo.length && (k.fifo.drop m).length < k.cfg.trigger) })
  completeCheck n (startStarve n (tryReread n (tryFetch n c1)))

/-- Of the `m` samples of a millisecond, those after which a BLOCKS source's level has just fallen below the refill trigger; all of them
when it does not fall below it (R117, R119). -/
def firstPart (a : Ann) (level trigger m : Nat) : Nat :=
  if a.block.isSome && trigger ≤ level && level < trigger + m then level + 1 - trigger else m

/-- R117, R119, R120, R122: a channel plays one millisecond; a fetch or a re-read begins at the sample at which the level calls for it. -/
def playChannel (ch : Nat) (live : List Sample) (c : Ctx) : Ctx :=
  let k := c.st.channel ch
  match k.owner with
  | some (.ann n) =>
    match c.st.ann? n with
    | none => c
    | some a =>
      if a.st = .playing && k.playedTo < c.st.elapsed then
        let input := if a.takesLive then (live ++ List.replicate 16 0).take 16 else []
        let m := playCount a (k.fifo ++ input).length
        let m1 := firstPart a (k.fifo ++ input).length k.cfg.trigger m
        let c1 := playSamples ch n m1 ((c.upd (State.setChannel ch fun k => { k with
            fifo := k.fifo ++ input, playedTo := k.playedTo + 1, output := [] })).upd
          (State.setAnn n fun a => { a with fetched := a.fetched + input.length }))
        if m1 < m then playSamples ch n (m - m1) c1 else c1
      else c
  | _ => c

/-- R122: the talk state ends the source. -/
def endTalk (n : Nat) (c : Ctx) : Ctx :=
  completeCheck n (c.upd (State.setAnn n fun a => { a with talk := some .ended, sourceEnded := true, tailEnd := none }))

/-- R122: the PTT inputs of a live source have changed, for one announcement. -/
def pttFor (n live : Nat) (c : Ctx) : Ctx :=
  match c.st.ann? n with
  | none => c
  | some a =>
    if a.source ≠ .live live || a.st = .ending then c
    else
      match a.talk, c.st.pttClosed live with
      | some .beforeTalk, true => c.upd (State.setAnn n fun a => { a with talk := some .talking, noTalkAt := none })
      | some .tail, true => c.upd (State.setAnn n fun a => { a with talk := some .talking, tailEnd := none })
      | some .talking, false =>
        let tail := match a.channel with
          | some ch => (c.st.channel ch).cfg.liveTail
          | none => 0
        if tail = 0 then endTalk n c
        else c.upd (State.setAnn n fun a => { a with talk := some .tail, tailEnd := some (c.st.elapsed + tail) })
      | _, _ => c

/-- R122, R179: a live source's talking is recomputed. -/
def pttChanged (live : Nat) (c : Ctx) : Ctx := Ctx.each (fun a c => pttFor a.num live c) c.st.au.anns c

/-- R121: the link has left ATTACHED. Those in WAITING end first, so that none of them is given a channel in this event. -/
def annLinkLost (c : Ctx) : Ctx :=
  Ctx.each (fun a c =>
    if a.isBlocks then
      let c1 := c.upd (State.setAnn a.num fun e => { e with access := none })
      if a.st = .ending then annRemove a.num c1 else c1.call [.annEnd a.num .linkLost false]
    else c) ((c.st.au.anns.filter (·.st = .waiting)) ++ c.st.au.anns.filter (·.st ≠ .waiting)) c

/-! ### Chimes of the schedule (R107) -/

/-- An announcement before its number, arrival and channel are given. -/
def protoAnn (origin : AnnOrigin) (zones : ZoneSet) (level : Nat) (source : AnnSource) (chime : Option Nat) (maxDur : Nat)
    (hold : Bool) (resume : Nat) (lateJoin mayWait : Bool) : Ann where
  num := 0
  origin := origin
  level := level
  source := source
  chime := chime
  maxDur := maxDur
  hold := hold
  resume := resume
  lateJoin := lateJoin
  mayWait := mayWait
  arrival := 0
  st := .waiting
  channel := none
  zones := (zonesOf zones).map fun z => ⟨z, .unclaimed, false, false⟩
  failed := []
  prior := .playing
  timePlayed := 0
  fetched := 0
  played := 0
  discarded := 0
  block := none
  awaiting := none
  rereadDue := false
  sourceEnded := false
  consumedBegun := false
  talk := none
  noTalkAt := none
  tailEnd := none
  access := none
  takenAt := 0
  routingAt := 0
  chimeAt := 0
  heldAt := 0
  endReason := none

/-- A condition on elapsed time: the instant of one of an announcement's timers has been reached while it is in some state. -/
def annTimer (n : Nat) (due : State → Ann → Bool) (act : Ann → Ctx → Ctx) (c : Ctx) : Ctx :=
  match c.st.ann? n with
  | none => c
  | some a => if due c.st a then act a c else c

end Sys2Proof.Machine
end

