-- ==== Sys2Proof/Machine/Drill.lean ====
section
/-! DEFINITION. The Drill Controller: the start of a drill (R127, R128), its phases (R129 to R134), its end (R135) and the fire alarm
input (R138, R139). -/

namespace Sys2Proof.Machine
open Sys2Proof

/-- R127: the outcome that refuses a drill start; none when it may start. -/
def drillRefusal (s : State) (num : Nat) : Option Outcome :=
  if !(s.dc.records.getD num DrillRec.undefined).defined then some .badParameter
  else if s.tb.campus.isNone then some .notReady
  else if s.dc.fireActive || s.dc.silenceHeld then some .fireActive
  else if s.dc.active.isSome then some .busy
  else none

/-- The tag of a record about a drill: its START DRILL's, else that of the request that causes the record. -/
def DrillOrigin.tag (cause : Word) : DrillOrigin → Word
  | .request t => t
  | _ => cause

/-- REQUEST, ENTRY with index, KEY with input. -/
def DrillOrigin.values : DrillOrigin → Detail
  | .request _ => [some 0]
  | .entry i => [some 1, some i]
  | .key k => [some 2, some k]

/-- A record about a drill. -/
def drillNote (d : ActiveDrill) (tag : Word) (k : RecKind) (cat : Category) (d0 d1 d2 : Detail) : Note :=
  ⟨k, cat, .dc, d.num, d.origin.tag tag, d0, d1, d2⟩

/-- A record of DC about no drill. -/
def dcNote (k : RecKind) (cat : Category) (tag : Word) (d0 d1 d2 : Detail) : Note := ⟨k, cat, .dc, 0, tag, d0, d1, d2⟩

/-- The zones of a drill: enabled, in one of its buildings and in evacuation (R128, step 3). -/
def drillZones (s : State) (r : DrillRec) : List Nat :=
  (List.range 64).filter fun z =>
    let t := s.zoneRec z
    t.enabled && t.evac && r.buildings.getLsbD t.building

/-- R128: a drill starts; R127 has passed. -/
def drillStart (origin : DrillOrigin) (num : Nat) (c : Ctx) : Ctx :=
  let s := c.st
  let r := s.dc.records.getD num DrillRec.undefined
  let d : ActiveDrill :=
    { num := num
      record := r
      origin := origin
      phase := .sounding
      start := s.elapsed
      channel := none
      tone := false
      zones := []
      buildings := (membersOf r.buildings).map fun b => ⟨b, none, none, false⟩
      targetReached := false }
  let chan : List Work :=
    if r.tone then
      match channelRequest s 1 false with
      | .free ch => [.drillGive ch]
      | .take loser ch => [.annEnd loser .preempted true, .drillGive ch]
      | _ => []
    else []
  (c.upd fun s => { s with dc := { s.dc with active := some d } }).call
    (chan ++ (drillZones s r).map .drillClaim ++ (if r.tone then [.drillToneOn] else []) ++ [.drillStarted])

/-- R127: a start asked for by an entry or a key; a refusal is recorded. -/
def drillAsk (asker : DrillAsker) (num : Nat) (c : Ctx) : Ctx :=
  match drillRefusal c.st num, asker with
  | none, .entry i => drillStart (.entry i) num c
  | none, .key k => drillStart (.key k) num c
  | some o, .entry i => c.record ⟨.drillNotStarted, .attention, .se, 0, 0, dv i, dv num, dv o.code⟩
  | some o, .key k => c.record (dcNote .drillNotStarted .attention 0 (dv k) (dv num) (dv o.code))

/-- R104: the drill is given a channel, and its tone generator starts on the cadence of pattern 31. -/
def drillGive (ch : Nat) (c : Ctx) : Ctx :=
  match c.st.dc.active with
  | none => c
  | some d =>
    let run : CadRun := ⟨31, c.st.elapsed, 1000 * d.record.sounding⟩
    (c.upd (State.setChannel ch fun k => { Channel.free k.cfg k.lastEnding with
      owner := some .drill
      drillCad := some run
      tone := toneFor c.st 31 (Pattern.evacuation.cadenceAt 0) })).upd
      (State.setDrill fun d => { d with channel := some ch })

/-- A claim of the drill (R128, R134). -/
def drillClaimOf (num : Nat) (o : SoundOrder) : Claim := ⟨.drill num, 1, false, false, none, .leave, some o, 0, 0⟩

def drillClaim (z : Nat) (c : Ctx) : Ctx :=
  match c.st.dc.active with
  | none => c
  | some d => claim z (drillClaimOf d.num ⟨31, 1000 * d.record.sounding⟩) c

/-- R128, R134: an answer to the drill. A zone granted is held, and its cadence starts at the grant. -/
def drillAnswer (num z : Nat) (a : Answer) (c : Ctx) : Ctx :=
  match c.st.dc.active, a with
  | some d, .granted =>
    match (c.st.zone z).holder.bind (·.sound) with
    | some o =>
      if d.num = num && !d.zones.any (fun e => e.zone == z) then
        setCadence z (.drill num) ((c.st.pattern o.pattern).cadenceAt 0) (c.upd (State.setDrill fun d => { d with
          zones := d.zones ++ [⟨z, some ⟨o.pattern, c.st.elapsed, o.length⟩, d.phase = .allClear, false⟩] }))
      else c
    | none => c
  | _, _ => c

/-- R128, step 4. -/
def drillToneOn (c : Ctx) : Ctx :=
  match c.st.dc.active with
  | none => c
  | some d => toneOn d.num (c.upd (State.setDrill fun d => { d with tone := true }))

/-- R128, steps 5 and 6. -/
def drillStarted (c : Ctx) : Ctx :=
  match c.st.dc.active with
  | none => c
  | some d =>
    (c.upd State.mirrorDrill).record
      (drillNote d c.tag .drillStarted .attention d.origin.values (dv d.buildings.length) (dv d.zones.length))

/-- DC stops the cadences it is timing and reports QUIET for them (R130, R135). -/
def stopCadences (c : Ctx) : Ctx :=
  match c.st.dc.active with
  | none => c
  | some d =>
    let running := d.zones.filter fun e => e.cad.isSome
    (Ctx.each (fun e c => setCadence e.zone (.drill d.num) .quiet c) running c).upd
      (State.setDrill fun d => { d with zones := d.zones.map fun e => { e with cad := none } })

/-- R130: SOUNDING ends. -/
def soundingEnd (cause : PhaseCause) (c : Ctx) : Ctx :=
  match c.st.dc.active with
  | none => c
  | some d =>
    (Ctx.each (fun e c => setSound e.zone (.drill d.num) none c) d.zones (stopCadences c)).call
      [.drillToneOff, .drillChannelBack, .phaseNote .evacuating cause]

/-- R130 step 3, R135 step 2: the tone is turned off if it is on. -/
def drillToneOff (c : Ctx) : Ctx :=
  match c.st.dc.active with
  | none => c
  | some d => if d.tone then toneOff d.num (c.upd (State.setDrill fun d => { d with tone := false })) else c

/-- R104: the drill gives its channel back. -/
def drillChannelBack (c : Ctx) : Ctx :=
  match c.st.dc.active.bind (·.channel) with
  | none => c
  | some ch =>
    ((c.upd (State.setChannel ch fun k => Channel.free k.cfg k.lastEnding)).upd
      (State.setDrill fun d => { d with channel := none })).call [.channelOffer ch]

/-- DRILL PHASE. -/
def phaseNote (p : DrillPhase) (cause : PhaseCause) (c : Ctx) : Ctx :=
  let c1 := (c.upd (State.setDrill fun d => { d with phase := p })).upd State.mirrorDrill
  match c1.st.dc.active with
  | none => c
  | some d =>
    let code := match cause with
      | .time => 0
      | .stop => 1
      | .allCleared => 2
      | .host => 3
    c1.record (drillNote d c.tag .drillPhase .routine (dv p.code) (dv code) (dv (c.st.elapsed - d.start)))

/-- R134: the all-clear length: the pattern's length, or one cycle of a continuous pattern. -/
def allClearLength (p : Pattern) : Nat := if p.repeats = 0 then p.cycle else p.length 0

/-- R134, steps 1 to 4, after the phase has become ALL CLEAR. -/
def allClearBegin (c : Ctx) : Ctx :=
  match c.st.dc.active with
  | none => c
  | some d =>
    match d.record.allClear with
    | none => c.call [.drillEnd .complete]
    | some p =>
      let zs := zonesOf (c.st.group d.record.group)
      let pat := c.st.pattern p
      if pat.isEmpty || zs.isEmpty then c.call [.drillEnd .complete]
      else c.call (zs.map (fun z => .allClearClaim z p (allClearLength pat)) ++ [.allClearCheck])

/-- R134, step 3, for one zone. -/
def allClearClaim (z p len : Nat) (c : Ctx) : Ctx :=
  match c.st.dc.active with
  | none => c
  | some d =>
    if d.zones.any fun e => e.zone == z then
      setCadence z (.drill d.num) ((c.st.pattern p).cadenceAt 0)
        (setSound z (.drill d.num) (some ⟨p, len⟩) (c.upd (State.setDrill fun d => { d with
          zones := d.zones.map fun e =>
            if e.zone = z then { e with cad := some ⟨p, c.st.elapsed, len⟩, inAllClear := true, ended := false } else e })))
    else claim z (drillClaimOf d.num ⟨p, len⟩) c

/-- R134: the drill ends COMPLETE when no all-clear cadence runs any more. -/
def allClearCheck (c : Ctx) : Ctx :=
  match c.st.dc.active with
  | none => c
  | some d =>
    if d.phase = .allClear && !d.zones.any (fun e => e.inAllClear && !e.ended) then c.call [.drillEnd .complete] else c

/-- R135, steps 1 and 2; the rest follows. -/
def drillEnd (r : DrillEnd) (c : Ctx) : Ctx :=
  if c.st.dc.active.isSome then (stopCadences c).call [.drillToneOff, .drillChannelBack, .drillRelease, .drillClose r] else c

/-- R135, step 3. -/
def drillRelease (c : Ctx) : Ctx :=
  match c.st.dc.active with
  | none => c
  | some d => releaseAll (.drill d.num) (c.upd (State.setDrill fun d => { d with zones := [] }))

/-- R135, steps 4 and 5: BUILDING RESULT for each building, then DRILL ENDED. -/
def resultNotes (d : ActiveDrill) (tag : Word) (r : DrillEnd) : List Note :=
  let within := (d.buildings.filter fun b => b.clear.isSome && !b.late).length
  let late := (d.buildings.filter fun b => b.clear.isSome && b.late).length
  let never := (d.buildings.filter fun b => b.clear.isNone).length
  let longest := d.buildings.foldl (fun m b => max m (b.clear.getD 0)) 0
  (d.buildings.map fun b =>
    drillNote d tag .buildingResult .routine (dv b.building) [dvo b.clear] (dv (yesNo b.late)))
    ++ [drillNote d tag .drillEnded .attention (dv r.code) [some within, some late, some never] (dv longest)]

/-- R135, steps 4 to 6. -/
def drillClose (r : DrillEnd) (c : Ctx) : Ctx :=
  match c.st.dc.active with
  | none => c
  | some d =>
    ((Ctx.each Ctx.record (resultNotes d c.tag r) c).upd fun s => { s with dc := { s.dc with
      active := none, last := some ⟨d.num, r, d.buildings⟩ } }).upd State.mirrorDrill

/-- The source of a clear, for BUILDING CLEAR: a node's line and address, or an input. -/
def ClearSource.values : ClearSource → List (Option Int)
  | .node l a => [some 0, some l, some a]
  | .input k => [some 1, some k]

/-- R132: a clear report names a building. -/
def clearReport (b : Nat) (src : ClearSource) (c : Ctx) : Ctx :=
  match c.st.dc.active with
  | none => c
  | some d =>
    match d.buildings.find? (·.building == b) with
    | none => c
    | some e =>
      if e.clear.isSome then c
      else
        let t := c.st.elapsed - d.start
        let c1 := (c.upd (State.setDrill fun d => { d with
            buildings := d.buildings.map fun e =>
              if e.building = b then { e with clear := some t, source := some src } else e })).record
          (drillNote d c.tag .buildingClear .routine (dv b) (dv t) (src.values ++ [some (yesNo e.late : Int)]))
        if d.phase = .sounding && (d.buildings.all fun x => x.clear.isSome || x.building = b) then
          c1.call [.soundingEnd .allCleared]
        else c1

/-- R133: the evacuation target is reached. -/
def targetReached (c : Ctx) : Ctx :=
  match c.st.dc.active with
  | none => c
  | some d =>
    let late := d.buildings.filter fun b => b.clear.isNone
    (Ctx.each (fun b c => c.record
      (drillNote d c.tag .buildingLate .attention (dv b.building) (dv d.record.target) (dv 0))) late c).upd
      (State.setDrill fun d => { d with
        targetReached := true
        buildings := d.buildings.map fun b => if b.clear.isNone then { b with late := true } else b })

/-- R129, R134: the cadence of a zone of the drill reaches its length. -/
def drillZoneEnd (z : Nat) (p : DrillPhase) (c : Ctx) : Ctx :=
  match c.st.dc.active with
  | none => c
  | some d =>
    match d.zones.find? (·.zone == z) with
    | some e =>
      match e.cad with
      | some r =>
        if d.phase = p && r.start + r.length ≤ c.st.elapsed then
          allClearCheck (setCadence z (.drill d.num) .quiet (c.upd (State.setDrill fun d => { d with
            zones := d.zones.map fun e => if e.zone = z then { e with cad := none, ended := true } else e })))
        else c
      | none => c
    | none => c

/-- A cadence step of a zone of the drill (R129, R134). -/
def drillZoneStep (z : Nat) (c : Ctx) : Ctx :=
  match c.st.dc.active with
  | none => c
  | some d =>
    match (d.zones.find? (·.zone == z)).bind (·.cad) with
    | some r =>
      match CadRun.now c.st r with
      | some k => setCadence z (.drill d.num) k c
      | none => c
    | none => c

/-- A cadence step of the drill's tone (R104); past its length the tone is silent. -/
def drillToneStep (c : Ctx) : Ctx :=
  match c.st.dc.active.bind (·.channel) with
  | none => c
  | some ch =>
    match (c.st.channel ch).drillCad with
    | some r =>
      let t := match CadRun.now c.st r with
        | some k => toneFor c.st r.pattern k
        | none => none
      c.upd (State.setChannel ch fun k => { k with tone := t })
    | none => c

/-! ### The fire alarm input -/

/-- R138: the fire input becomes active. -/
def fireAlarmOn (c : Ctx) : Ctx :=
  let c1 := (c.upd fun s => { s with dc := { s.dc with
    fireActive := true, fireSince := s.elapsed, silenceHeld := true } }).upd State.mirrorFire
  (c1.record (dcNote .fireAlarmOn .alarm c.tag [dvo (c.st.dc.active.map (·.num))] (dv 0) (dv 0))).call
    [.drillEnd .fire, .fireOn]

/-- R139: the fire input becomes inactive. -/
def fireAlarmOff (c : Ctx) : Ctx :=
  let c1 := (c.upd fun s => { s with dc := { s.dc with fireActive := false } }).upd State.mirrorFire
  fireOff (c1.record (dcNote .fireAlarmOff .alarm c.tag (dv (c.st.elapsed - c.st.dc.fireSince)) (dv 0) (dv 0)))

end Sys2Proof.Machine
end

