-- ==== Sys2Proof/Machine/Clocks.lean ====
section
/-! DEFINITION. The Clock Unit: decisions (R144, R145), pulses (R146, R147), the time broadcasts and corrections of addressed clocks
(R150, R151). -/

namespace Sys2Proof.Machine
open Sys2Proof

/-- The circuit is running (R142). -/
def CircuitState.running : CircuitState → Bool
  | .inStep | .catchingUp | .holding => true
  | _ => false

/-- The civil minute of day, while campus time has a value. -/
def State.minute? (s : State) : Option Nat := s.civil.map fun t => t.ms / 60000

/-- The target of a circuit, on its own dial (section 8.1). -/
def Circuit.target (k : Circuit) (minute : Nat) : Nat := minute % k.cfg.dial
/-- The behind distance b. -/
def Circuit.behind (k : Circuit) (t : Nat) : Nat := (t + k.cfg.dial - k.pos) % k.cfg.dial
/-- The ahead distance a. -/
def Circuit.ahead (k : Circuit) (t : Nat) : Nat := (k.pos + k.cfg.dial - t) % k.cfg.dial

/-- R144: the state and the next pulse instant that a decision gives. -/
def Circuit.decide (k : Circuit) (minute now : Nat) : CircuitState × Option Nat :=
  let t := k.target minute
  let due := max now ((k.prevStart.map (· + k.cfg.catchUp)).getD now)
  if k.pos = t then (.inStep, none)
  else if k.ahead t ≤ k.cfg.holdLimit then (.holding, none)
  else if k.behind t = 1 then (.inStep, some due)
  else (.catchingUp, some due)

def cuNote (k : RecKind) (cat : Category) (i : Nat) (tag : Word) (d0 d1 d2 : Detail) : Note := ⟨k, cat, .cu, i, tag, d0, d1, d2⟩

/-- R142: a circuit's state changes from `old` (the state it left) to `new`, with CIRCUIT STATE. -/
def circuitBecomes (i : Nat) (old new : CircuitState) (c : Ctx) : Ctx :=
  let c1 := c.upd (State.setCircuit i fun k => { k with st := new })
  if old = new then c1
  else
    let k := c1.st.circuit i
    let cat := if old = .fault || new = .fault then Category.attention else .routine
    (c1.record (cuNote .circuitState cat i c.tag [some old.code, some new.code] (dv k.pos)
      [dvo (c1.st.minute?.map k.target)])).upd State.updateTrouble

/-- R144: a decision point of a circuit that is running, or comes from the state `old`. Without civil time nothing is
decided, and a circuit that left UNSET or FAULT is IN STEP. -/
def circuitDecide (i : Nat) (old : CircuitState) (c : Ctx) : Ctx :=
  match c.st.minute? with
  | none => circuitBecomes i old (if old.running then old else .inStep) c
  | some m =>
    let d := (c.st.circuit i).decide m c.st.elapsed
    circuitBecomes i old d.1 (c.upd (State.setCircuit i fun k => { k with nextAt := d.2 }))

/-- R145: a running circuit with no pulse on decides. -/
def circuitPoint (i : Nat) (c : Ctx) : Ctx :=
  let k := c.st.circuit i
  if k.st.running && k.pulse.isNone then circuitDecide i k.st c else c

def Polarity.other : Polarity → Polarity
  | .positive => .negative
  | .negative => .positive

/-- R146: a pulse begins at its instant. -/
def pulseStart (i : Nat) (c : Ctx) : Ctx :=
  let k := c.st.circuit i
  if k.st.running && k.pulse.isNone && k.nextAt.any (· ≤ c.st.elapsed) then
    c.upd (State.setCircuit i fun k => { k with
      pulse := some ⟨k.polarity.other, c.st.elapsed, k.cfg.width, false⟩
      prevStart := some c.st.elapsed
      nextAt := none })
  else c

/-- R147: FAULT is entered. -/
def circuitFault (i : Nat) (old : CircuitState) (c : Ctx) : Ctx :=
  circuitBecomes i old .fault (c.upd (State.setCircuit i fun k => { k with nextAt := none }))

/-- R146, R148: a pulse completes, with load current or without. -/
def pulseComplete (i : Nat) (current : Bool) (c : Ctx) : Ctx :=
  let k := c.st.circuit i
  match k.pulse with
  | none => c
  | some p =>
    if p.start + p.width ≤ c.st.elapsed then
      let c1 := c.upd (State.setCircuit i fun k => { k with pulse := none })
      if p.void then circuitPoint i c1
      else if current then
        circuitPoint i (c1.upd (State.setCircuit i fun k => { k with
          pos := (k.pos + 1) % k.cfg.dial, polarity := p.polarity, openCount := 0 }))
      else
        let c2 := c1.upd (State.setCircuit i fun k => { k with openCount := k.openCount + 1 })
        if k.openCount + 1 ≥ 3 then circuitFault i k.st c2 else circuitPoint i c2
    else c

/-! ### Broadcasts and corrections -/

/-- R150: TIME ALL on one line. -/
def timeAll (now : CampusTime) (ln : Nat) (c : Ctx) : Ctx :=
  let l := c.st.line ln
  if l.active && l.nodes.any (fun n => n.kind = .clock && n.st ≠ .absent) then
    offerTx ln (mkTx c.st (.timeAll now.day (now.ms / 60000) (c.st.tb.offset != 0)) 3 .all)
      (withdraw ln (fun t => t.kind.isTimeAll) c)
  else c

/-- A civil minute event reaches CU (R145, R150). -/
def minuteEvent (now : CampusTime) (c : Ctx) : Ctx :=
  Ctx.each (timeAll now) (List.range 8) (Ctx.each circuitPoint (List.range 4) c)

/-- A step event reaches CU (R149). -/
def circuitsStep (c : Ctx) : Ctx := Ctx.each circuitPoint (List.range 4) c

/-- R151: the difference of a displayed second, brought into −43,200 to +43,199. -/
def clockDiff (shown civil : Nat) : Int :=
  let d := (shown : Int) - civil
  if d < -43200 then d + 86400 else if d > 43199 then d - 86400 else d

/-- R151: a clock node's displayed time is compared with civil time. -/
def clockShown (ln a : Nat) (shown : Option Nat) (c : Ctx) : Ctx :=
  match c.st.civil with
  | none => c
  | some t =>
    let diff : Option Int := shown.map fun v => clockDiff v (t.ms / 1000)
    let needs := match diff with
      | none => true
      | some d => d.natAbs > c.st.cu.tolerance
    let l := c.st.line ln
    let pending := l.queue.any (fun x => x.kind.isSetTime && x.addr? == some a)
      || l.inFlight.any fun f => f.tx.kind.isSetTime && f.tx.addr? == some a
    if needs && !pending then offerTx ln (mkTx c.st (.setTime diff) 3 (.node a)) c else c

/-- CLOCK CORRECTED (R151). -/
def clockCorrected (ln a : Nat) (diff : Option Int) (c : Ctx) : Ctx :=
  c.record (cuNote .clockCorrected .routine ln c.tag (dv ln) (dv a) [diff])

end Sys2Proof.Machine
end

