-- ==== Sys2Proof/Machine/Replies.lean ====
section
/-! DEFINITION. What the requester of a transaction does with its outcome (R165): supervision (R173), notices (R169), configuration
(R170), refreshes (R96, R97), enumeration (R174, R175), clock corrections (R151) and routing reports (R78). -/

namespace Sys2Proof.Machine
open Sys2Proof

/-- A service transaction answered EVICTED or QUEUE FULL returns to the deferred traffic (R159). -/
def TxOutcome.returns : TxOutcome → Bool
  | .evicted | .queueFull => true
  | _ => false

def deferAgain (ln : Nat) (d : Deferred) (c : Ctx) : Ctx :=
  c.upd (State.setLine ln fun l => { l with deferred := if l.deferred.contains d then l.deferred else l.deferred ++ [d] })

/-- A displayed time is stored with a clock node's record (R151, R166). -/
def storeShown (ln a : Nat) (shown : Option Nat) (c : Ctx) : Ctx :=
  c.upd (State.setNode ln a fun n => { n with shown := some shown })

/-- R173: what a POLL that completes DONE does. -/
def pollDone (ln a : Nat) (shown : Option Nat) (c : Ctx) : Ctx :=
  match (c.st.line ln).node? a with
  | none => c
  | some n =>
    if n.st = .absent then c
    else
      let c1 := if n.kind = .clock then clockShown ln a shown (storeShown ln a shown c) else c
      let c2 := beginRefresh ln a c1
      if n.configured then c2 else offerConfigure ln a c2

/-- R173: the POLL of a cycle is answered. One whose node was set aside while it was in flight changes no node record (R165); here it also hands
CU no displayed time, begins no refresh and offers no CONFIGURE, though the node be enabled again (log entry 63, DESIGN CHOICE). -/
def pollAnswered (ln a : Nat) (stale : Bool) (o : TxOutcome) (body : Option ReplyBody) (c : Ctx) : Ctx :=
  if o.returns then deferAgain ln (.poll a) c
  else
    match o, body with
    | .done, some (.poll _ shown) => pollNext ln (if stale then c else pollDone ln a shown c)
    | _, _ => pollNext ln c

/-- The notices of R169, by place. -/
def noticeCode : Notice → Nat
  | .keyClear => 0 | .call => 1 | .node _ => 2

/-- The kind of the node a transaction was sent to: as its record has it, or had it when it was removed (R165). -/
def kindOf (s : State) (ln a : Nat) (t : Tx) : Option NodeKind :=
  match (s.line ln).node? a with
  | some n => some n.kind
  | none => t.nodeKind

/-- The code of NODE NOTICE: a NODE notice's own (R169), and 0 for KEY CLEAR and CALL, which carry none (log entry 60, DESIGN CHOICE). -/
def noticeOwn : Notice → Nat
  | .node k => k
  | _ => 0

/-- R169: a QUERY that completes DONE carries one notice; it is taken though the node's record has gone (R165). -/
def noticeTaken (ln a : Nat) (kind : Option NodeKind) (x : Notice) (c : Ctx) : Ctx :=
  let cat := if x = .call then Category.attention else .routine
  let c1 := c.record (lcNote .nodeNotice cat ln c.tag (dv a) (dv (noticeCode x)) (dv (noticeOwn x)))
  if x = .keyClear && kind = some .marshal then c1.call [.clearReport ln (.node ln a)] else c1

def queryAnswered (ln a : Nat) (kind : Option NodeKind) (o : TxOutcome) (body : Option ReplyBody) (c : Ctx) : Ctx :=
  if o.returns then deferAgain ln (.query a) c
  else
    match o, body with
    | .done, some (.query x) => noticeTaken ln a kind x c
    | _, _ => c

/-- R170: a CONFIGURE is answered. -/
def configureAnswered (ln a : Nat) (stale : Bool) (o : TxOutcome) (c : Ctx) : Ctx :=
  if o.returns then deferAgain ln (.configure a) c
  else if o = .done && !stale then c.upd (State.setNode ln a fun n => { n with configured := true }) else c

/-- R97: a LOAD PATTERN belongs to the refresh, and not to one that ended while it was in flight. -/
def Refresh.owns (r : Refresh) (t : Tx) : Bool := !t.stale && decide (r.began ≤ t.event)

/-- R96, R97: a LOAD PATTERN of a refresh is answered. Any outcome but DONE ends the refresh, also where the table version has changed
meanwhile (log entry 57, DESIGN CHOICE). -/
def loadAnswered (ln a n version : Nat) (t : Tx) (o : TxOutcome) (c : Ctx) : Ctx :=
  match ((c.st.line ln).node? a).bind (·.refresh) with
  | none => c
  | some r =>
    if o = .purged || !r.owns t then c
    else if o = .done then
      if version ≠ r.target || r.target ≠ c.st.pu.version then
        offerService ln (.loadPattern a) (c.upd (State.setNode ln a fun n => { n with
          refresh := some ⟨c.st.pu.version, 0, c.st.eventNo⟩ }))
      else if n = 30 then
        c.upd (State.setNode ln a fun n => { n with refresh := none, version := some r.target })
      else
        offerService ln (.loadPattern a) (c.upd (State.setNode ln a fun x => { x with refresh := some { r with next := n + 1 } }))
    else c.upd (State.setNode ln a fun n => { n with refresh := none })

/-- The phase in which an enumeration offers a transaction (R174, R175). -/
def TxKind.phase : TxKind → EnumPhase
  | .clearAddress => .clearing
  | _ => .assigning

/-- R174, R175: the enumeration under way is the one that offered a transaction, an ASSIGN or a CLEAR ADDRESS, and is still in the phase that
offers such. -/
def Enumeration.owns (e : Enumeration) (t : Tx) : Bool := e.phase = t.kind.phase && decide (e.began ≤ t.event)

/-- The line's enumeration offered the transaction. -/
def Line.owns (l : Line) (t : Tx) : Bool := l.enumeration.any (·.owns t)

/-- R174: an ASSIGN is answered. One whose enumeration the line's failure has ended drives no later enumeration, and the node that took its
address is not recorded (log entry 50, DESIGN CHOICE). -/
def assignAnswered (ln a : Nat) (t : Tx) (o : TxOutcome) (body : Option ReplyBody) (c : Ctx) : Ctx :=
  if !(c.st.line ln).owns t then c
  else
    match o, body with
    | .done, some (.assign kind unit) => nodeFound ln a kind unit c
    | .noReply, _ => endEnumeration ln enumNoMore c
    | .badReply, _ => endEnumeration ln enumBadReply c
    | .nodeReject, _ => endEnumeration ln enumBadReply c
    | .evicted, _ => deferAgain ln .enumeration c
    | .queueFull, _ => deferAgain ln .enumeration c
    | _, _ => c

/-- R175: a CLEAR ADDRESS is answered: the node is removed, with any outcome but the two that offer it again, and the renumbering goes on. One
in flight when the renumbering ended (LINE FAILED) removes its node too; one answered LINE FAILED removes none (log entry 50). -/
def clearAnswered (ln a : Nat) (t : Tx) (o : TxOutcome) (c : Ctx) : Ctx :=
  if o.returns then deferAgain ln .enumeration c
  else if o = .lineFailed then c
  else if (c.st.line ln).owns t then
    clearStep ln (removeNode ln a (c.upd (State.setLine ln fun l => { l with
      enumeration := l.enumeration.map fun e => { e with cleared := e.cleared + 1 } })))
  else removeNode ln a c

/-- The outcome of a transaction is handed to its requester (R165). -/
def txAnswer (ln : Nat) (t : Tx) (o : TxOutcome) (body : Option ReplyBody) (c : Ctx) : Ctx :=
  let a := t.addr?.getD 0
  match t.kind with
  | .poll => pollAnswered ln a t.stale o body c
  | .query => queryAnswered ln a (kindOf c.st ln a t) o body c
  | .assign k => assignAnswered ln k t o body c
  | .clearAddress => clearAnswered ln a t o c
  | .configure => configureAnswered ln a t.stale o c
  | .loadPattern n v _ => loadAnswered ln a n v t o c
  | .setTime diff => if o = .done then clockCorrected ln a diff c else c
  | .route _ => Ctx.each routeReport t.watch (if o = .done then c else c.upd (State.routeFailed t.watch))
  | .timeAll _ _ _ | .sound _ _ | .soundStop | .soundStopAll | .routeOffAll => c

/-! ### Removal of refreshes and the new version (R97) -/

/-- R86, R96, R97: the Line Controllers are told of a new pattern table version. A refresh under way starts again: at once when
its LOAD PATTERN was only queued or deferred, else when the one in flight completes. -/
def newVersion (ln : Nat) (n : Node) (c : Ctx) : Ctx :=
  if n.kind ≠ .sounder || n.st = .absent || !(c.st.line ln).active then c
  else
    let l := c.st.line ln
    let flying := l.inFlight.any fun f => f.tx.kind.isLoad && f.tx.addr? == some n.addr && n.refresh.any (·.owns f.tx)
    if flying then c
    else
      let c1 := withdraw ln (fun t => t.kind.isLoad && t.addr? == some n.addr) c
      let c2 := c1.upd (State.setNode ln n.addr fun n => { n with refresh := some ⟨c1.st.pu.version, 0, c1.st.eventNo⟩ })
      offerService ln (.loadPattern n.addr) c2

/-- The new version reaches every node of every line. -/
def versionChanged (c : Ctx) : Ctx :=
  Ctx.each (fun ln c => settleLine ln settleSteps (Ctx.each (newVersion ln) (c.st.line ln).nodes c)) (List.range 8) c

end Sys2Proof.Machine
end

