-- ==== Sys2Proof/Machine/Plan.lean ====
section
/-! DEFINITION. The Day Plan (R29, R32 to R37) and the Schedule Engine (R41, R47 to R57, R59). -/

namespace Sys2Proof.Machine
open Sys2Proof

def dpNote (k : RecKind) (tag : Word) (d0 d1 d2 : Detail) : Note := ⟨k, .routine, .dp, 0, tag, d0, d1, d2⟩
def seNote (k : RecKind) (cat : Category) (tag : Word) (d0 d1 d2 : Detail) : Note := ⟨k, cat, .se, 0, tag, d0, d1, d2⟩

/-- The causes of FLAGS CHANGED. -/
def flagsHost : Nat := 0
def flagsSchedule : Nat := 1
def flagsCatchUp : Nat := 2
def flagsDayRoll : Nat := 3

/-- R33: a flag change with its cause. -/
def changeFlags (m1 m2 : Set8) (cause : Nat) (tag : Word) (c : Ctx) : Ctx :=
  let old := c.st.dp.flags
  let new := flagChange m1 m2 old
  if new = old then c
  else (c.upd fun s => { s with dp := { s.dp with flags := new } }).record
    (dpNote .flagsChanged tag (setNum old) (setNum new) (dv cause))

/-- R29: a span matches a civil day. -/
def Span.matches (p : Span) (d : Nat) : Bool := p.first ≤ d && d ≤ p.last && p.weekdays.getLsbD (weekday d)

/-- R29: the profile of a civil day: that of the last matching span, or P0. -/
def profileOf (calendar : List Span) (d : Nat) : Nat :=
  match calendar.reverse.find? (·.matches d) with
  | some p => p.profile
  | none => 0

def State.profileRec (s : State) (p : Nat) : Profile := s.dp.profiles.getD p Profile.blank

/-- R36: DP's parts of a day roll. -/
def dayRollPlan (d : Nat) (c : Ctx) : Ctx :=
  let p := profileOf c.st.dp.calendar d
  let c1 := c.upd fun s => { s with
    dp := { s.dp with override := none, dayBegun := some d }
    se := { s.se with profile := p } }
  let m := presetMasks (c1.st.profileRec p)
  changeFlags m.1 m.2 flagsDayRoll 0 c1

/-! ### The high-water mark and due sets -/

/-- The high-water mark as a millisecond count; the instant before a day begins is −1 of that day. -/
def HighWater.lin (h : HighWater) : Int := (h.day * dayMs : Nat) + h.ms

/-- A civil time as a high-water mark. -/
def markOf (t : CampusTime) : HighWater := ⟨t.day, t.ms⟩

/-- The instant of an entry on a civil day (R40). -/
def Entry.instant (e : Entry) (d : Nat) : Int := (d * dayMs + 1000 * e.time : Nat)

/-- The entries of ACTIVE with their indices. -/
def indexed (es : List Entry) : List (Nat × Entry) := es.zipIdx.map fun p => (p.2, p.1)

/-- The entries of ACTIVE after H and at or before a limit, on the day of H (R48). -/
def dueAfter (s : State) (limit : Int) : List (Nat × Entry) :=
  match s.se.mark with
  | none => []
  | some h => (indexed s.se.active.entries).filter fun p =>
      h.lin < p.2.instant h.day && p.2.instant h.day ≤ limit

/-- R41: an entry is selected. -/
def selected (s : State) (e : Entry) : Bool := e.profiles.getLsbD s.se.profile && conditionPasses s.dp.flags e.cond

/-! ### Firing (R49, R50) -/

def EntryKind.code : EntryKind → Nat
  | .bell .. => 0 | .chime .. => 1 | .drill .. => 2 | .flags .. => 3 | .mark .. => 4

/-- Reasons of ENTRY NOT FIRED that no outcome names (log entry 14). -/
def emptyPatternCode : Nat := 0
def emptyGroupCode : Nat := 1

def notFired (i : Nat) (k : EntryKind) (reason : Nat) (c : Ctx) : Ctx :=
  c.record (seNote .entryNotFired .attention 0 (dv i) (dv k.code) (dv reason))

/-- ENTRY LATE, for a CHIME or DRILL entry. -/
def entryLate (i : Nat) (k : EntryKind) (late : Nat) (c : Ctx) : Ctx :=
  if late > 0 then c.record (seNote .entryLate .routine 0 (dv i) (dv k.code) (dv late)) else c

/-- R50: a pattern or a group that is empty at the moment of firing; none when the work can be handed on. Where both are empty the reason is
EMPTY PATTERN (log entry 51, DESIGN CHOICE). -/
def emptyReason (s : State) (group pattern : Nat) : Option Nat :=
  if (s.pattern pattern).isEmpty then some emptyPatternCode
  else if s.group group = 0 then some emptyGroupCode
  else none

/-- R49, R50: a selected entry fires with its lateness. A late CHIME whose pattern or group is empty writes ENTRY NOT FIRED and no ENTRY LATE
(log entry 61, DESIGN CHOICE). -/
def fire (i : Nat) (e : Entry) (late : Nat) (c : Ctx) : Ctx :=
  match e.kind with
  | .bell g p l df du =>
    match emptyReason c.st g p with
    | some r => notFired i e.kind r c
    | none => c.call [.bellStart (.entry i late) (c.st.group g) p l df du]
  | .chime g p l df du =>
    match emptyReason c.st g p with
    | some r => notFired i e.kind r c
    | none => (entryLate i e.kind late c).call [.chime i g p l df du]
  | .drill n => (entryLate i e.kind late c).call [.drillAsk (.entry i) n]
  | .flags m1 m2 => changeFlags m1 m2 (if late = 0 then flagsSchedule else flagsCatchUp) 0 c
  | .mark k => c.record (seNote .mark .routine 0 (dv k) (dv i) (dv late))

/-- R107: a CHIME entry is taken as a tone-only announcement; SE records a refusal. -/
def chimeEntry (i group pattern level defer duration : Nat) (c : Ctx) : Ctx :=
  let kind : EntryKind := .chime group pattern level defer duration
  if c.st.au.anns.length ≥ Config.annCapacity then notFired i kind Outcome.busy.code c
  else
    let r := takeAnn (protoAnn (.entry i) (c.st.group group) level .toneOnly (some pattern) duration false 0 true (defer > 0)) c
    if r.2 then r.1 else notFired i kind Outcome.noChannel.code r.1

/-- R48: a due entry of a civil second event. -/
def dueEntry (i : Nat) (e : Entry) (c : Ctx) : Ctx := if selected c.st e then fire i e 0 c else c

/-- R54's table: a due entry of a step event. -/
def dueEntryStep (i : Nat) (e : Entry) (now : CampusTime) (c : Ctx) : Ctx :=
  let sec := now.ms / 1000
  let late := sec - e.time
  if !selected c.st e then c
  else
    match e.kind with
    | .flags _ _ => fire i e late c
    | _ =>
      if e.time = sec then fire i e 0 c
      else if e.time + c.st.se.active.window ≥ sec then fire i e late c
      else { c with skipped := c.skipped + 1 }

/-- R55, first part: an entry of the day left behind. -/
def passOver (e : Entry) (c : Ctx) : Ctx := if selected c.st e then { c with skipped := c.skipped + 1 } else c

/-! ### The day roll (R51, R52) -/

/-- R52: the bank swap of a day roll. -/
def bankSwap (d : Nat) (c : Ctx) : Ctx :=
  match c.st.se.waiting with
  | none => c
  | some p =>
    if p.effective ≤ d then
      (c.upd fun s => { s with se := { s.se with active := p.bank, waiting := none } }).record
        (seNote .scheduleSwitched .routine 0 (dv p.bank.entries.length) (dv 1) (dv p.effective))
    else c

/-- R51: the day roll for a civil day. -/
def dayRoll (d : Nat) (c : Ctx) : Ctx :=
  let c1 :=
    match c.st.se.mark with
    | some h =>
      if d > h.day + 1 then
        c.record (seNote .daysSkipped .attention 0 (dv (d - h.day - 1)) (dv (h.day + 1)) (dv (d - 1)))
      else c
    | none => c
  let c2 := dayRollPlan d (bankSwap d c1)
  let p := c2.st.se.profile
  (c2.record (seNote .dayBegun .routine 0 (dv d) [some p, some (c2.st.profileRec p).nameCode] (setNum c2.st.dp.flags))).upd
    fun s => { s with se := { s.se with mark := some ⟨d, -1⟩ } }

/-- H becomes a civil time that is later than it (R48, R54 to R56). -/
def setMark (now : CampusTime) (c : Ctx) : Ctx :=
  let later : Bool := match c.st.se.mark with
    | some h => h.lin < (now.lin : Int)
    | none => true
  if later then c.upd fun s => { s with se := { s.se with mark := some (markOf now) } } else c

/-! ### Civil events -/

/-- R48: a civil second event reaches SE. -/
def secondEvent (now : CampusTime) (c : Ctx) : Ctx :=
  match c.st.se.mark with
  | none => c
  | some h =>
    if now.day > h.day then c.call [.dayRoll now.day, .secondEvent now]
    else c.call ((dueAfter c.st now.lin).map (fun p => .due p.1 p.2 now) ++ [.setMark now])

/-- A moment for SCHEDULE SKIPPED: day × 86,400 + trunc(ms / 1000). -/
def HighWater.seconds (h : HighWater) : Int := (h.day * 86400 : Nat) + Int.tdiv h.ms 1000

def skippedNote (before : HighWater) (now : CampusTime) (n : Nat) : Note :=
  seNote .scheduleSkipped .attention 0 (dvi before.seconds) (dvi (markOf now).seconds) (dv n)

/-- R54, R55: SCHEDULE SKIPPED when entries were passed over. -/
def skipReport (before : HighWater) (now : CampusTime) (c : Ctx) : Ctx :=
  if c.skipped > 0 then c.record (skippedNote before now c.skipped) else c

/-- The due entries of a step, on the day of H. -/
def restOfStep (now : CampusTime) (c : Ctx) : Ctx :=
  c.call ((dueAfter c.st now.lin).map fun p => .dueStep p.1 p.2 now)

/-- R53 to R56, R149: a step event reaches SE and then CU; DC changes nothing (R137). -/
def stepEvent (now : CampusTime) (c : Ctx) : Ctx :=
  match c.st.se.mark with
  | none => c.call [.dayRoll now.day, .setMark now, .clockStep]
  | some h =>
    if (now.lin : Int) ≤ h.lin then c.call [.clockStep]
    else if now.day ≤ h.day then c.call [.restOfStep now, .setMark now, .skipReport h now, .clockStep]
    else
      c.call ((dueAfter c.st ((h.day + 1) * dayMs : Nat)).map (fun p => .passOver p.2)
        ++ [.dayRoll now.day, .restOfStep now, .setMark now, .skipReport h now, .clockStep])

/-! ### A retained start (R59) -/

def countSelected (s : State) (es : List (Nat × Entry)) : Nat := (es.filter fun p => selected s p.2).length

/-- R59: SE deals with the outage; `now` is the civil time at the start. A day roll is run when now lies on a later day than H, also where
the day begun, which R39 compares, is that of now already (log entry 53, DESIGN CHOICE). -/
def scheduleRestart (now : CampusTime) (c : Ctx) : Ctx :=
  match c.st.se.mark with
  | none => setMark now (dayRoll now.day c)
  | some h =>
    let roll : Bool := now.day > h.day
    let n1 := if roll then countSelected c.st (dueAfter c.st ((h.day + 1) * dayMs : Nat)) else 0
    let c1 := if roll then dayRoll now.day c else c
    let n2 := countSelected c1.st (dueAfter c1.st now.lin)
    (c1.upd fun s => { s with se := { s.se with mark := some (markOf now) } }).record (skippedNote h now (n1 + n2))

end Sys2Proof.Machine
end

