-- ==== Sys2Proof/Machine/TimeBase.lean ====
section
/-! DEFINITION. The Time Base: the advance of campus time (R5 to R8, R23, R24), reference pulses (R9 to R14), steps and settings (R15
to R21). -/

namespace Sys2Proof.Machine
open Sys2Proof

def tbNote (k : RecKind) (cat : Category) (tag : Word) (d0 d1 d2 : Detail) : Note := ⟨k, cat, .tb, 0, tag, d0, d1, d2⟩

/-! ### One nominal millisecond -/

/-- What one nominal millisecond gives: the advance 1 + t + s, and the Time Base after its own counts (R5, R6). -/
structure Nominal where
  advance : Int
  tb : TimeBase
deriving DecidableEq, Repr

/-- R6: a slew step is due in the next nominal millisecond. -/
def TimeBase.stepDue (tb : TimeBase) : Bool := tb.slewLate || (tb.pc ≠ 0 && tb.slewCount + 1 ≥ 100)

/-- R6: the sign of the pending correction. -/
def pcSign (pc : Int) : Int := if pc > 0 then 1 else if pc < 0 then -1 else 0

/-- R6: Pc has reached 0 by a slew step; `now` is this millisecond. -/
def TimeBase.slewDone (tb : TimeBase) (now : Nat) : TimeBase :=
  if tb.pc ≠ 0 then tb
  else if tb.baselineAwaited && tb.refMode = .pulse && !tb.refLost then
    { tb with slewEnd := some now, baseline := some now, baselineAwaited := false }
  else { tb with slewEnd := some now }

/-- R5, R6: one nominal millisecond, at whose end the elapsed time is `now`. While no slew is pending the slew count stands at 0 (log entry 55,
DESIGN CHOICE). -/
def TimeBase.nominal (tb : TimeBase) (now : Nat) : Nominal :=
  let tt := trimTerm tb.acc tb.trim
  let sign := pcSign tb.pc
  let late := tb.stepDue && sign = -1 && tt.1 = -1
  let stepped := tb.stepDue && !late
  let s := if stepped then sign else 0
  let count := if tb.pc = 0 then 0 else if tb.slewCount + 1 ≥ 100 then 0 else tb.slewCount + 1
  let tb1 := { tb with acc := tt.2, slewCount := count, slewLate := late, pc := tb.pc - s }
  ⟨1 + tt.1 + s, if stepped && sign ≠ 0 then tb1.slewDone now else tb1⟩

/-- R13: the loss timer runs. -/
def TimeBase.lossRuns (tb : TimeBase) : Bool :=
  tb.refMode = .pulse && tb.campus.isSome && !tb.refLost && !tb.saturated

/-- R7: the events of an advance that moved civil time by no jump. -/
def civilEvents (old new : CampusTime) (c : Ctx) : Ctx :=
  let c1 := if old.lin / 1000 = new.lin / 1000 then c else c.call [.secondEvent new]
  if old.lin / 60000 = new.lin / 60000 then c1 else c1.call [.minuteEvent new]

/-- DST CHANGED; the causes are TRANSITION, RULE and SET TIME. -/
def dstNote (tag : Word) (old new cause : Nat) : Note := tbNote .dstChanged .routine tag (dv old) (dv new) (dv cause)
def dstTransition : Nat := 0
def dstRule : Nat := 1
def dstSetTime : Nat := 2

def timeLimitNote (tag : Word) : Note := tbNote .timeLimit .attention tag (dv 0) (dv 0) (dv 0)

/-- R23: an advance from one campus millisecond carries campus time to or past one of the instants. -/
def Transitions.crossed (old new : Nat) (tr : Transitions) : Bool :=
  (old < tr.s.lin && tr.s.lin ≤ new) || (old < tr.e.lin && tr.e.lin ≤ new)

/-- R8, R23, R24: campus time advances. A change of offset is a transition, but for one that the year roll's new instants bring with none of them
reached by this advance: the year roll writes no record (log entry 35). -/
def advanceCampus (n : Nat) (c : Ctx) : Ctx :=
  match c.st.tb.campus with
  | none => c
  | some t =>
    if c.st.tb.saturated then c
    else
      let new := min (t.lin + n) lastLin
      let nt := ofLin new
      let oldOff := c.st.tb.offset
      let oldCivil := ofLin (t.lin + 60000 * oldOff)
      let c1 := c.upd (State.setTb fun tb => { tb with campus := some nt })
      let c2 := if new = lastLin then
          (c1.upd (State.setTb fun tb => { tb with saturated := true })).record (timeLimitNote 0)
        else c1
      let c3 := if yearOf t.day = yearOf nt.day then c2
        else c2.upd (State.setTb fun tb => { tb with trans := instantsFor tb.dst nt })
      let off := offsetAt c3.st.tb.dst c3.st.tb.trans new
      let newCivil := ofLin (new + 60000 * off)
      if off = oldOff || (yearOf t.day ≠ yearOf nt.day && !c3.st.tb.trans.any (·.crossed t.lin new)) then
        let c4 := c3.upd (State.setTb fun tb => { tb with offset := off })
        if c4.st.tb.saturated then c4 else civilEvents oldCivil newCivil c4
      else
        ((c3.upd (State.setTb fun tb => { tb with offset := off })).record (dstNote 0 oldOff off dstTransition)).call
          [.stepEvent newCivil]

/-- Announcements in CHIME and PLAYING gain time played (R109). -/
def Ann.tick (a : Ann) : Ann := if a.st = .chime || a.st = .playing then { a with timePlayed := a.timePlayed + 1 } else a

/-- R5 to R8: one nominal millisecond of the whole part. -/
def tick (c : Ctx) : Ctx :=
  let now := c.st.elapsed + 1
  let n := c.st.tb.nominal now
  let tb := { n.tb with lossTimer := if n.tb.lossRuns then n.tb.lossTimer + 1 else n.tb.lossTimer }
  advanceCampus n.advance.toNat (c.upd fun s => { s with
    elapsed := now, tb := tb, au := { s.au with anns := s.au.anns.map Ann.tick } })

/-- Campus time counting with the trim alone, on the backup oscillator or during settling (R26, R185): no event is issued. -/
def countCampus (tb : TimeBase) : TimeBase :=
  let tt := trimTerm tb.acc tb.trim
  { tb with acc := tt.2, campus := tb.campus.map fun t => ofLin (min (t.lin + (1 + tt.1).toNat) lastLin) }

/-! ### Reference pulses -/

/-- REFERENCE LOST (R13): the moment measured from is the last valid pulse, or the entry into PULSE mode. -/
def referenceLost (c : Ctx) : Ctx :=
  let tb := c.st.tb
  let since := c.st.elapsed - (tb.lastPulse.getD tb.pulseEntry)
  ((c.upd (State.setTb fun tb => { tb with refLost := true, lostAt := c.st.elapsed, baseline := none })).record
    (tbNote .referenceLost .attention c.tag (dv since) (dv tb.invalidPulses) (dv 0))).upd State.updateTrouble

/-- R13: the loss timer has reached the loss limit. -/
def TimeBase.lossDue (tb : TimeBase) : Bool := tb.lossRuns && 1000 * tb.lossLimit ≤ tb.lossTimer

/-- A slew begins with a new pending correction (R6). -/
def TimeBase.slewBy (d : Int) (tb : TimeBase) : TimeBase := { tb with pc := d, slewCount := 0, slewLate := false }

/-- R11: the trim after learning. -/
def learnedTrim (tb : TimeBase) (e : Int) (now : Nat) : Int :=
  match tb.baseline with
  | some b => if tb.pc = 0 then clampInt (-5000) 5000 (tb.trim + trimChange e (learnSeconds (now - b))) else tb.trim
  | none => tb.trim

/-- R11: a valid pulse outside the deadband. -/
def correctPhase (e : Int) (c : Ctx) : Ctx :=
  let tb := c.st.tb
  let trim := learnedTrim tb e c.st.elapsed
  (c.upd (State.setTb fun tb => ({ tb with trim := trim, baseline := none, baselineAwaited := true }).slewBy (-e))).record
    (tbNote .phaseCorrected .routine 0 (dvi e) (dvi tb.trim) (dvi trim))

/-- R10, R14: a valid pulse. -/
def validPulse (t : CampusTime) (c : Ctx) : Ctx :=
  let e := phaseError t.ms
  let now := c.st.elapsed
  let old := c.st.tb
  let c1 := c.upd (State.setTb fun tb => { tb with lastError := e, lastPulse := some now, lossTimer := 0 })
  let c2 := if old.refLost then
      ((c1.upd (State.setTb fun tb => { tb with refLost := false })).record
        (tbNote .referenceRestored .routine 0 (dv (now - old.lostAt)) (dvi e) (dv 0))).upd State.updateTrouble
    else c1
  if -2 ≤ e && e ≤ 2 then
    if old.pc = 0 && old.baseline.isNone then c2.upd (State.setTb fun tb => { tb with baseline := some now }) else c2
  else correctPhase e c2

/-- R9: the interval from which the last valid pulse counts as none. -/
def pulseExpiry : Nat := 3600050

/-- R9: a reference pulse reaches TB. -/
def referencePulse (c : Ctx) : Ctx :=
  let tb := c.st.tb
  match tb.campus with
  | none => c
  | some t =>
    if tb.refMode = .off || tb.saturated then c
    else
      let valid := match tb.lastPulse with
        | none => true
        | some p => c.st.elapsed - p > pulseExpiry || validInterval (c.st.elapsed - p)
      if valid then validPulse t c
      else c.upd (State.setTb fun tb => { tb with invalidPulses := min (tb.invalidPulses + 1) 65535 })

/-! ### Steps (R18) -/

/-- R18, third part: the instants and the offset for a new time; DST CHANGED when the offset differs. -/
def reevaluate (newYear : Bool) (t : CampusTime) (cause : Nat) (c : Ctx) : Ctx :=
  let c1 := if newYear then c.upd (State.setTb fun tb => { tb with trans := instantsFor tb.dst t }) else c
  let old := c1.st.tb.offset
  let off := offsetAt c1.st.tb.dst c1.st.tb.trans t.lin
  if off = old then c1
  else (c1.upd (State.setTb fun tb => { tb with offset := off })).record (dstNote c.tag old off cause)

/-- R18, second part: saturation. -/
def stepSaturation (t : CampusTime) (c : Ctx) : Ctx :=
  if t.lin < lastLin then c.upd (State.setTb fun tb => { tb with saturated := false })
  else if c.st.tb.saturated then c
  else (c.upd (State.setTb fun tb => { tb with saturated := true })).record (timeLimitNote c.tag)

/-- R18: campus time steps to a value. -/
def stepTime (t : CampusTime) (c : Ctx) : Ctx :=
  let old := c.st.tb.campus
  let d := match old with
    | some o => (dv o.day, dv o.ms)
    | none => (dv 65535, [none])
  let newYear := match old with
    | some o => yearOf o.day != yearOf t.day
    | none => true
  let c1 := (c.upd (State.setTb fun tb => { tb with campus := some t })).record
    (tbNote .timeStepped .attention c.tag d.1 d.2 (dv 0))
  let c2 := reevaluate newYear t dstSetTime (stepSaturation t c1)
  c2.call [.stepEvent (ofLin (t.lin + 60000 * c2.st.tb.offset))]

/-! ### Requests of the host, decided (R15 to R21); `q` is the request -/

/-- Actions of SET TIME's result words (log entry 14). -/
def actionStep : Word := 0
def actionSlew : Word := 1
def actionNone : Word := 0xFF

/-- R15: campus time is given its first value. -/
def firstTime (q : ReqHdr) (t : CampusTime) (c : Ctx) : Ctx :=
  let c1 := c.upd (State.setTb fun tb => { tb with
    lastPulse := none, baseline := none, lossTimer := 0 })
  (stepTime t c1).upd (State.answer q .done [actionStep, 0])

/-- R16: SET TIME in mode OFF. -/
def setTimeOff (q : ReqHdr) (t old : CampusTime) (c : Ctx) : Ctx :=
  let d := (t.lin : Int) - old.lin
  if d.natAbs ≤ c.st.tb.slewLimit then
    (c.upd (State.setTb (TimeBase.slewBy d))).upd (State.answer q .done [actionSlew, numWord d])
  else
    (stepTime t (c.upd (State.setTb (TimeBase.slewBy 0)))).upd (State.answer q .done [actionStep, numWord d])

/-- R17: SET TIME in mode PULSE. -/
def setTimePulse (q : ReqHdr) (t old : CampusTime) (c : Ctx) : Ctx :=
  let d := limitStep old.lin 100 (roundToSecond ((t.lin : Int) - old.lin))
  if d = 0 then c.upd (State.answer q .done [actionNone, 0])
  else
    (stepTime (ofLin ((old.lin : Int) + d).toNat) c).upd (State.answer q .done [actionStep, numWord d])

/-- R15 to R17. -/
def decideSetTime (q : ReqHdr) (day ms : Nat) (c : Ctx) : Ctx :=
  if day > 36524 || ms > 86399999 then c.upd (State.refuse q .outOfRange)
  else
    match c.st.tb.campus with
    | none => firstTime q ⟨day, ms⟩ c
    | some old => if c.st.tb.refMode = .off then setTimeOff q ⟨day, ms⟩ old c else setTimePulse q ⟨day, ms⟩ old c

/-- R19. -/
def decideSetTrim (q : ReqHdr) (v : Int) (c : Ctx) : Ctx :=
  let trim := clampInt (-5000) 5000 v
  let old := c.st.tb.trim
  let now := c.st.elapsed
  let c1 := c.upd (State.setTb fun tb =>
    if tb.refMode = .pulse && !tb.refLost && tb.pc = 0 then { tb with trim := trim, baseline := some now }
    else { tb with trim := trim, baseline := none, baselineAwaited := tb.baselineAwaited || tb.refMode = .pulse })
  (c1.record (tbNote .trimChanged .routine c.tag (dvi old) (dvi trim) (dv 0))).upd
    (State.answer q (.ofClamped (trim != v)) [numWord trim])

/-- R20: the mode change. -/
def changeMode (pulse : Bool) (now : Nat) (tb : TimeBase) : TimeBase :=
  match tb.refMode, pulse with
  | .off, true => { tb with
      refMode := .pulse, lastPulse := none, baseline := none, baselineAwaited := false, invalidPulses := 0
      refLost := false, lossTimer := 0, pulseEntry := now }
  | .pulse, false => { tb with
      refMode := .off, refLost := false, lossTimer := 0, lastPulse := none, baseline := none, baselineAwaited := false }
  | _, _ => tb

/-- R20. -/
def decideSetReference (q : ReqHdr) (mode loss slew : Nat) (c : Ctx) : Ctx :=
  if mode > 1 then c.upd (State.refuse q .badParameter)
  else
    let l := clampNat 10 600 loss
    let w := clampNat 100 60000 slew
    let c1 := (c.upd (State.setTb fun tb => changeMode (mode == 1) c.st.elapsed { tb with lossLimit := l, slewLimit := w })).upd
      State.updateTrouble
    let c2 := if c1.st.tb.lossDue then referenceLost c1 else c1
    c2.upd (State.answer q (.ofClamped (l != loss || w != slew)) [])

/-- R21: a rule's fields lie in their ranges. -/
def dstInRange (p : DstParams) : Bool :=
  let month := fun m => 1 ≤ m && m ≤ 12
  let week := fun w => 1 ≤ w && w ≤ 5
  month p.startMonth && month p.endMonth && week p.startWeek && week p.endWeek && p.startHour ≤ 23 && p.endHour ≤ 23
    && 15 ≤ p.offset && p.offset ≤ 120 && p.offset % 15 == 0

/-- R21: an accepted rule, or none, replaces the stored one. -/
def setRule (rule : Option DstRule) (c : Ctx) : Ctx :=
  let c1 := c.upd (State.setTb fun tb => { tb with dst := rule })
  match c1.st.tb.campus with
  | none => c1
  | some t =>
    let oldOff := c1.st.tb.offset
    let c2 := reevaluate true t dstRule c1
    if c2.st.tb.offset = oldOff then c2 else c2.call [.stepEvent (ofLin (t.lin + 60000 * c2.st.tb.offset))]

/-- R21; the none byte is 0 for a rule and any other byte, 0xFF (section 11.6) among them, for NONE (log entry 12). A rule at
fault in both ways is refused OUT OF RANGE (log entry 51, DESIGN CHOICE). -/
def decideSetDst (q : ReqHdr) (p : DstParams) (c : Ctx) : Ctx :=
  if p.none ≠ 0 then (setRule none c).upd (State.answer q .done [])
  else if !dstInRange p then c.upd (State.refuse q .outOfRange)
  else if p.startMonth = p.endMonth then c.upd (State.refuse q .badParameter)
  else
    (setRule (some ⟨p.startMonth, p.startWeek, p.startHour, p.endMonth, p.endWeek, p.endHour, p.offset⟩) c).upd
      (State.answer q .done [])

end Sys2Proof.Machine
end

