-- ==== Sys2Proof/Machine/Tables.lean ====
section
/-! DEFINITION. Table loads and the schedule switch: their checks, their staged records one at a time, and the event that ends each (R28,
R30, R31, R42 to R46, R61, R62, R85, R86, R101, R126, R143, R154, R171, R180). -/

namespace Sys2Proof.Machine
open Sys2Proof

/-! ### What every load shares -/

/-- The checks every load shares: its count (R28), its offset, its load in progress. The first that applies gives the outcome, as R61, R85,
R101, R126, R143, R154 and R171 say; R28, R30 and R180 give no order, and take the same one (log entry 51, DESIGN CHOICE). -/
def loadRefusal (limit count offset size : Nat) (busy : Bool) : Option Outcome :=
  if count > limit then some .outOfRange
  else if !offsetOk offset (count * size) then some .regionOffset
  else if busy then some .busy
  else none

/-- A load that begins. -/
def Load.start {α : Type} (q : ReqHdr) (offset count : Nat) : Load α := ⟨q, offset, count, [], false⟩

/-- What a staged record makes of a load. -/
inductive LoadStep (α : Type) where
  | fault (index : Nat)
  | more (l : Load α)
  | done (l : Load α)

/-- A staged record of a size is read: at fault, or one more. -/
def Load.step {α : Type} (l : Load α) (size : Nat) (r : Option (α × Bool)) : LoadStep α :=
  match r with
  | none => .fault l.staged.length
  | some (x, k) =>
    let l' := { l with nextOff := l.nextOff + size, staged := l.staged ++ [x], clamped := l.clamped || k }
    if l'.staged.length ≥ l.count then .done l' else .more l'

/-- A record without clamping. -/
def unclamped {α : Type} (r : Option α) : Option (α × Bool) := r.map fun x => (x, false)

/-- The first `n` places take the records read, the others a default. -/
def filled {α : Type} (n : Nat) (staged : List α) (d : α) : List α := staged ++ List.replicate (n - staged.length) d

/-- TABLE LOADED. -/
def loadedNote (b : BlockId) (t : TableCode) (q : ReqHdr) (count : Nat) (extra : Nat) : Note :=
  ⟨.tableLoaded, .routine, b, 0, q.tag, dv t.code, dv count, dv extra⟩

/-- A load begins by asking for its first record; a count of 0 reads nothing. -/
def beginLoad (t : TableCode) (count : Nat) (finish : Ctx → Ctx) (c : Ctx) : Ctx :=
  if count = 0 then finish c else c.upd (State.ask (.record t))

/-- A load's record has been read: `put` stores the load still in progress, `clear` ends it. -/
def loadRecord {α : Type} (t : TableCode) (l : Load α) (size : Nat) (r : Option (α × Bool))
    (put : Option (Load α) → State → State) (finish : Load α → Ctx → Ctx) (c : Ctx) : Ctx :=
  match l.step size r with
  | .fault i => (c.upd (put none)).upd (State.answer l.q .tableInvalid [numWord i])
  | .more l' => (c.upd (put (some l'))).upd (State.ask (.record t))
  | .done l' => finish l' c

/-! ### Profiles and calendar (R28, R30) -/

def putProfileLoad (l : Option (Load Profile)) (s : State) : State := { s with dp := { s.dp with profileLoad := l } }
def putCalendarLoad (l : Option (Load Span)) (s : State) : State := { s with dp := { s.dp with calendarLoad := l } }

def finishProfiles (l : Load Profile) (c : Ctx) : Ctx :=
  (((c.upd (putProfileLoad none)).upd fun s => { s with dp := { s.dp with profiles := filled 16 l.staged Profile.blank } }).record
    (loadedNote .dp .profiles l.q l.count 0)).upd (State.answer l.q .done [])

def decideLoadProfiles (q : ReqHdr) (count offset : Nat) (c : Ctx) : Ctx :=
  match loadRefusal 16 count offset TableCode.profiles.size c.st.dp.profileLoad.isSome with
  | some o => c.upd (State.refuse q o)
  | none =>
    let l : Load Profile := Load.start q offset count
    beginLoad .profiles count (finishProfiles l) (c.upd (putProfileLoad (some l)))

def profileRead (d : List Byte) (c : Ctx) : Ctx :=
  match c.st.dp.profileLoad with
  | none => c
  | some l => loadRecord .profiles l TableCode.profiles.size (unclamped (decodeProfile d)) putProfileLoad finishProfiles c

def finishCalendar (l : Load Span) (c : Ctx) : Ctx :=
  (((c.upd (putCalendarLoad none)).upd fun s => { s with dp := { s.dp with calendar := l.staged } }).record
    (loadedNote .dp .calendar l.q l.count 0)).upd (State.answer l.q .done [])

def decideLoadCalendar (q : ReqHdr) (count offset : Nat) (c : Ctx) : Ctx :=
  match loadRefusal 96 count offset TableCode.calendar.size c.st.dp.calendarLoad.isSome with
  | some o => c.upd (State.refuse q o)
  | none =>
    let l : Load Span := Load.start q offset count
    beginLoad .calendar count (finishCalendar l) (c.upd (putCalendarLoad (some l)))

def calendarRead (d : List Byte) (c : Ctx) : Ctx :=
  match c.st.dp.calendarLoad with
  | none => c
  | some l => loadRecord .calendar l TableCode.calendar.size (unclamped (decodeSpan d)) putCalendarLoad finishCalendar c

/-! ### Zones and groups (R61, R62) -/

def putZoneLoad (l : Option (Load ZoneRec)) (s : State) : State := { s with za := { s.za with zoneLoad := l } }
def putGroupLoad (l : Option (Load ZoneSet)) (s : State) : State := { s with za := { s.za with groupLoad := l } }

/-- R61: the load ends BUSY when a zone is in use in the event that ends it. The zones it enables become IDLE, while fire is reported too
(log entry 52, DESIGN CHOICE). -/
def finishZones (l : Load ZoneRec) (c : Ctx) : Ctx :=
  let c1 := c.upd (putZoneLoad none)
  if c.st.zonesQuiet then
    ((c1.upd fun s => { s with za := { s.za with
        table := filled 64 l.staged ZoneRec.blank, zones := List.replicate 64 ZoneDyn.clear } }).record
      (loadedNote .za .zones l.q l.count 0)).upd (State.answer l.q .done [])
  else c1.upd (State.refuse l.q .busy)

def decideLoadZones (q : ReqHdr) (count offset : Nat) (c : Ctx) : Ctx :=
  match loadRefusal 64 count offset TableCode.zones.size (c.st.za.zoneLoad.isSome || !c.st.zonesQuiet) with
  | some o => c.upd (State.refuse q o)
  | none =>
    let l : Load ZoneRec := Load.start q offset count
    beginLoad .zones count (finishZones l) (c.upd (putZoneLoad (some l)))

def zoneRead (d : List Byte) (c : Ctx) : Ctx :=
  match c.st.za.zoneLoad with
  | none => c
  | some l => loadRecord .zones l TableCode.zones.size (unclamped (decodeZone d)) putZoneLoad finishZones c

def finishGroups (l : Load ZoneSet) (c : Ctx) : Ctx :=
  let c1 := c.upd (putGroupLoad none)
  if c.st.zonesQuiet then
    ((c1.upd fun s => { s with za := { s.za with groups := filled 64 l.staged 0 } }).record
      (loadedNote .za .groups l.q l.count 0)).upd (State.answer l.q .done [])
  else c1.upd (State.refuse l.q .busy)

def decideLoadGroups (q : ReqHdr) (count offset : Nat) (c : Ctx) : Ctx :=
  match loadRefusal 64 count offset TableCode.groups.size (c.st.za.groupLoad.isSome || !c.st.zonesQuiet) with
  | some o => c.upd (State.refuse q o)
  | none =>
    let l : Load ZoneSet := Load.start q offset count
    beginLoad .groups count (finishGroups l) (c.upd (putGroupLoad (some l)))

/-- A staged group has 1 + n bytes. One that leaves the region, or that leaves no room for the groups after it, ends the load
REGION OFFSET (log entry 24). -/
def groupRead (d : List Byte) (c : Ctx) : Ctx :=
  match c.st.za.groupLoad with
  | none => c
  | some l =>
    let size := 1 + byteAt d 0
    let left := l.count - l.staged.length - 1
    if l.nextOff + size + left > Config.regionEnd then
      (c.upd (putGroupLoad none)).upd (State.refuse l.q .regionOffset)
    else loadRecord .groups l size (unclamped (decodeGroup d)) putGroupLoad finishGroups c

/-! ### Patterns (R85, R86) -/

def putPatternLoad (l : Option (Load Pattern)) (s : State) : State := { s with pu := { s.pu with load := l } }

/-- R85: the pattern table is in use. -/
def patternsInUse (s : State) : Bool :=
  !s.pu.bells.isEmpty
    || (s.au.anns.any fun a => a.chime.any (· ≤ 30)
        && (a.st = .waiting || a.st = .routing || a.st = .chime || (a.st = .held && a.prior = .chime)))
    || s.dc.active.any fun d => d.phase = .allClear && d.zones.any fun e => e.inAllClear && !e.ended

def finishPatterns (l : Load Pattern) (c : Ctx) : Ctx :=
  let c1 := c.upd (putPatternLoad none)
  if patternsInUse c.st then c1.upd (State.refuse l.q .busy)
  else
    let c2 := c1.upd fun s => { s with pu := { s.pu with
      table := filled 31 l.staged Pattern.empty, version := (s.pu.version + 1) % 256 } }
    (versionChanged (c2.record (loadedNote .pu .patterns l.q l.count c2.st.pu.version))).upd
      (State.answer l.q (.ofClamped l.clamped) [])

def decideLoadPatterns (q : ReqHdr) (count offset : Nat) (c : Ctx) : Ctx :=
  match loadRefusal 31 count offset TableCode.patterns.size (c.st.pu.load.isSome || patternsInUse c.st) with
  | some o => c.upd (State.refuse q o)
  | none =>
    let l : Load Pattern := Load.start q offset count
    beginLoad .patterns count (finishPatterns l) (c.upd (putPatternLoad (some l)))

def patternRead (d : List Byte) (c : Ctx) : Ctx :=
  match c.st.pu.load with
  | none => c
  | some l => loadRecord .patterns l TableCode.patterns.size (decodePattern d) putPatternLoad finishPatterns c

/-! ### Channels (R101) -/

def putChannelLoad (l : Option (Load ChannelSet)) (s : State) : State := { s with au := { s.au with load := l } }

def channelsInUse (s : State) : Bool := !s.au.anns.isEmpty || s.au.channels.any fun k => k.owner.isSome

def finishChannels (l : Load ChannelSet) (c : Ctx) : Ctx :=
  let c1 := c.upd (putChannelLoad none)
  if channelsInUse c.st then c1.upd (State.refuse l.q .busy)
  else
    let cfgs := filled 4 l.staged ChannelSet.default
    ((c1.upd fun s => { s with au := { s.au with
        channels := s.au.channels.zipWith (fun k g => { k with cfg := g }) cfgs } }).record
      (loadedNote .au .channels l.q l.count 0)).upd (State.answer l.q (.ofClamped l.clamped) [])

def decideLoadChannels (q : ReqHdr) (count offset : Nat) (c : Ctx) : Ctx :=
  match loadRefusal 4 count offset TableCode.channels.size (c.st.au.load.isSome || channelsInUse c.st) with
  | some o => c.upd (State.refuse q o)
  | none =>
    let l : Load ChannelSet := Load.start q offset count
    beginLoad .channels count (finishChannels l) (c.upd (putChannelLoad (some l)))

def channelRead (d : List Byte) (c : Ctx) : Ctx :=
  match c.st.au.load with
  | none => c
  | some l => loadRecord .channels l TableCode.channels.size (decodeChannel d) putChannelLoad finishChannels c

/-! ### Drills (R126) -/

def putDrillLoad (l : Option (Load DrillRec)) (s : State) : State := { s with dc := { s.dc with load := l } }

/-- R126. The records that become undefined keep their other fields (log entry 54, DESIGN CHOICE). -/
def finishDrills (l : Load DrillRec) (c : Ctx) : Ctx :=
  let c1 := c.upd (putDrillLoad none)
  if c.st.dc.active.isSome then c1.upd (State.refuse l.q .busy)
  else
    let old := c.st.dc.records
    let rest := (old.drop l.staged.length).map fun r => { r with defined := false }
    ((c1.upd fun s => { s with dc := { s.dc with records := l.staged ++ rest } }).record
      (loadedNote .dc .drills l.q l.count 0)).upd (State.answer l.q .done [])

def decideLoadDrills (q : ReqHdr) (count offset : Nat) (c : Ctx) : Ctx :=
  match loadRefusal 8 count offset TableCode.drills.size (c.st.dc.load.isSome || c.st.dc.active.isSome) with
  | some o => c.upd (State.refuse q o)
  | none =>
    let l : Load DrillRec := Load.start q offset count
    beginLoad .drills count (finishDrills l) (c.upd (putDrillLoad (some l)))

def drillRead (d : List Byte) (c : Ctx) : Ctx :=
  match c.st.dc.load with
  | none => c
  | some l => loadRecord .drills l TableCode.drills.size (unclamped (decodeDrill c.st.pu.table d)) putDrillLoad finishDrills c

/-! ### Circuits (R143) -/

def putCircuitLoad (l : Option CircuitLoad) (s : State) : State := { s with cu := { s.cu with load := l } }

/-- R143: the settings take effect in one circuit. D is kept, though a 720 dial found it below 720 when its record was read and it has passed
that since; a circuit that becomes OFF or UNSET has no next pulse instant and keeps its previous pulse start (log entry 59, DESIGN CHOICE). -/
def applyCircuit (i : Nat) (new : CircuitSet) (c : Ctx) : Ctx :=
  let k := c.st.circuit i
  let c1 := c.upd (State.setCircuit i fun k => { k with cfg := new })
  let cut : Ctx → Ctx := fun c => c.upd (State.setCircuit i fun k => { k with openCount := 0, pulse := none, nextAt := none })
  if !new.enabled then circuitBecomes i k.st .off (cut c1)
  else if k.st = .off || k.cfg.dial ≠ new.dial then circuitBecomes i k.st .unset (cut c1)
  else circuitPoint i c1

def finishCircuits (l : Load CircuitSet) (tolerance : Nat) (c : Ctx) : Ctx :=
  let t := clampNat 1 10 tolerance
  let c1 := (c.upd (putCircuitLoad none)).upd fun s => { s with cu := { s.cu with tolerance := t } }
  let c2 := Ctx.each (fun i c =>
    match l.staged[i]? with
    | some g => applyCircuit i g c
    | none => applyCircuit i { (c.st.circuit i).cfg with enabled := false } c) (List.range 4) c1
  (c2.record (loadedNote .cu .circuits l.q l.count t)).upd (State.answer l.q (.ofClamped (l.clamped || t != tolerance)) [])

def decideLoadCircuits (q : ReqHdr) (count offset tolerance : Nat) (c : Ctx) : Ctx :=
  match loadRefusal 4 count offset TableCode.circuits.size c.st.cu.load.isSome with
  | some o => c.upd (State.refuse q o)
  | none =>
    let l : Load CircuitSet := Load.start q offset count
    beginLoad .circuits count (finishCircuits l tolerance) (c.upd (putCircuitLoad (some ⟨l, tolerance⟩)))

def circuitRead (d : List Byte) (c : Ctx) : Ctx :=
  match c.st.cu.load with
  | none => c
  | some l =>
    loadRecord .circuits l.load TableCode.circuits.size (decodeCircuit (c.st.circuit l.load.staged.length).pos d)
      (fun x => putCircuitLoad (x.map fun y => ⟨y, l.tolerance⟩)) (fun x => finishCircuits x l.tolerance) c

/-! ### Lines and members (R154, R171) -/

def putLineLoad (l : Option (Load LineCfg)) (s : State) : State := { s with lc := { s.lc with lineLoad := l } }
def putMemberLoad (l : Option (Load Member)) (s : State) : State := { s with lc := { s.lc with memberLoad := l } }

/-- R173: a cycle starts; the readings it takes are the caller's. -/
def cycleBegins (ln : Nat) (c : Ctx) : Ctx :=
  let c1 := c.upd (State.setLine ln fun l => { l with cycle := ⟨l.active, 1, some c.st.elapsed, l.cfg.period⟩ })
  settleLine ln settleSteps (pollNext ln c1)

/-- R155: a first reading sets a path's condition directly; the change is recorded. -/
def firstPath (ln : Nat) (p : Path) (r : PathCond) (c : Ctx) : Ctx :=
  let old := ((c.st.line ln).path p).cond
  let c1 := c.upd (State.setLine ln (Line.setPath p ⟨r, some r⟩))
  if old = r then c1 else c1.record (lcNote .pathState .routine ln c.tag (dv p.code) (dv old.code) (dv r.code))

/-- R156, R177: a line leaves OFF, or is enabled at a retained start: first readings, nodes to UNKNOWN, the first cycle. `old`
is the line state it leaves. -/
def lineStarts (ln : Nat) (old : LineState) (r : PathPair) (c : Ctx) : Ctx :=
  let c1 := firstPath ln .b r.b (firstPath ln .a r.a c)
  let c2 := lineChanged ln old c1
  cycleBegins ln (c2.upd (State.setLine ln fun l => { l with
    nodes := l.nodes.map fun n => if n.st = .absent || n.st = .faulted then n else n.toUnknown }))

/-- R154: a new threshold applies at once to the nodes of a line that stays enabled: a SUSPECT node at or above it becomes FAULTED. -/
def applyThreshold (ln : Nat) (c : Ctx) : Ctx :=
  let l := c.st.line ln
  let top := l.cfg.threshold
  Ctx.each (fun n c => if n.st = .suspect && top ≤ n.fails then enterFaulted ln n.addr 0 top c else c) l.nodes c

/-- R154, R167: a line takes a configuration; a FAULTED node's fail count stays within the threshold, on an OFF line too. -/
def Line.configured (new : LineCfg) (l : Line) : Line :=
  { l with
    cfg := new
    nodes := l.nodes.map fun n => if n.st = .faulted || !(l.cfg.enabled && new.enabled) then { n with fails := min n.fails new.threshold } else n }

/-- R154: a line takes its configuration. -/
def applyLine (ln : Nat) (new : LineCfg) (r : PathPair) (c : Ctx) : Ctx :=
  let l := c.st.line ln
  let old := l.state
  let c1 := c.upd (State.setLine ln (Line.configured new))
  match l.cfg.enabled, new.enabled with
  | true, true => applyThreshold ln c1
  | true, false => lineChanged ln old c1
  | false, true => lineStarts ln old r c1
  | false, false => c1

def openPair : PathPair := ⟨.opened, .opened⟩

def finishLines (paths : List PathPair) (l : Load LineCfg) (c : Ctx) : Ctx :=
  let c1 := Ctx.each (fun ln c =>
    let new := match l.staged[ln]? with
      | some g => g
      | none => { (c.st.line ln).cfg with enabled := false }
    applyLine ln new (paths.getD ln openPair) c) (List.range 8) (c.upd (putLineLoad none))
  (c1.record (loadedNote .lc .lines l.q l.count 0)).upd (State.answer l.q (.ofClamped l.clamped) [])

def decideLoadLines (q : ReqHdr) (count offset : Nat) (c : Ctx) : Ctx :=
  match loadRefusal 8 count offset TableCode.lines.size c.st.lc.lineLoad.isSome with
  | some o => c.upd (State.refuse q o)
  | none =>
    let l : Load LineCfg := Load.start q offset count
    beginLoad .lines count (finishLines [] l) (c.upd (putLineLoad (some l)))

def lineRead (paths : List PathPair) (d : List Byte) (c : Ctx) : Ctx :=
  match c.st.lc.lineLoad with
  | none => c
  | some l => loadRecord .lines l TableCode.lines.size (decodeLine d) putLineLoad (finishLines paths) c

/-- R171, parts 2 and 3, for one node. -/
def applyMember (ln : Nat) (n : Node) (c : Ctx) : Ctx :=
  let m := membersFor c.st ln n.unit
  if m.1 = n.zones && m.2 = n.role then c
  else
    let c1 := c.upd (State.setNode ln n.addr fun n => { n with zones := m.1, role := m.2, configured := false })
    if n.st = .present || n.st = .suspect || n.st = .faulted then offerConfigure ln n.addr c1 else c1

def finishMembers (l : Load Member) (c : Ctx) : Ctx :=
  let c1 := c.upd (putMemberLoad none)
  if c.st.zonesUnheld then
    let c2 := c1.upd fun s => { s with lc := { s.lc with members := l.staged } }
    let c3 := Ctx.each (fun ln c => Ctx.each (applyMember ln) (c.st.line ln).nodes c) (List.range 8) c2
    (c3.record (loadedNote .lc .members l.q l.count 0)).upd (State.answer l.q .done [])
  else c1.upd (State.refuse l.q .busy)

def decideLoadMembers (q : ReqHdr) (count offset : Nat) (c : Ctx) : Ctx :=
  match loadRefusal 320 count offset TableCode.members.size (c.st.lc.memberLoad.isSome || !c.st.zonesUnheld) with
  | some o => c.upd (State.refuse q o)
  | none =>
    let l : Load Member := Load.start q offset count
    beginLoad .members count (finishMembers l) (c.upd (putMemberLoad (some l)))

def memberRead (d : List Byte) (c : Ctx) : Ctx :=
  match c.st.lc.memberLoad with
  | none => c
  | some l => loadRecord .members l TableCode.members.size (unclamped (decodeMember l.staged d)) putMemberLoad finishMembers c

/-! ### The IO table (R180) -/

def putIoLoad (l : Option IoLoad) (s : State) : State := { s with io := { s.io with load := l } }

/-- R180; a bad offset is refused before a load in progress (log entry 51, DESIGN CHOICE). -/
def decideLoadIo (q : ReqHdr) (offset : Nat) (c : Ctx) : Ctx :=
  if !offsetOk offset TableCode.io.size then c.upd (State.refuse q .regionOffset)
  else if c.st.io.load.isSome then c.upd (State.refuse q .busy)
  else (c.upd (putIoLoad (some ⟨q, offset, false, none, [], []⟩))).upd (State.ask (.record .io))

/-- R180: an input whose effective function has changed from `old`. -/
def inputRefunction (k : Nat) (old : InFunc) (c : Ctx) : Ctx :=
  let new := c.st.io.inFunc k
  if old = new then c
  else
    let closed := (c.st.input k).value = some .closed
    let c1 := if closed then
        match old with
        | .ptt n => pttChanged n c
        | .fireAlarm => fireAlarmOff c
        | _ => c
      else c
    let c2 := if closed then
        match new with
        | .ptt n => pttChanged n c1
        | .fireAlarm => fireAlarmOn c1
        | _ => c1
      else c1
    if new = .reference then c2.upd (State.setInput k fun i => { i with value := none }) else c2

/-- R180: the event that ends an IO load. An output loses its plain drive when its effective function leaves PLAIN, so also Q11 when the pair
becomes ENABLED (log entry 65, DESIGN CHOICE). -/
def finishIo (l : IoLoad) (pair : Bool) (mask : BitVec 6) (c : Ctx) : Ctx :=
  let oldIn := (List.range 12).map c.st.io.inFunc
  let oldOut := (List.range 12).map c.st.io.outFunc
  let c1 := c.upd fun s => { s with io := { s.io with
    load := none
    safetyPair := pair
    troubleMask := mask
    inputs := s.io.inputs.zipWith (fun i g => { i with func := g.1, debounce := g.2 }) l.ins
    outputs := s.io.outputs.zipWith (fun o g => { o with func := g }) l.outs } }
  let c2 := c1.upd fun s => { s with io := { s.io with
    outputs := s.io.outputs.zipIdx.map fun p =>
      if oldOut.getD p.2 .plain = .plain && s.io.outFunc p.2 ≠ .plain then { p.1 with driven := false, releaseAt := none } else p.1 } }
  let c3 := c2.record (loadedNote .io .io l.q 24 (if pair then 0 else 1))
  let c4 := Ctx.each (fun k c => inputRefunction k (oldIn.getD k .plain) c) (List.range 12) c3
  (c4.upd State.updateTrouble).upd (State.answer l.q (.ofClamped l.clamped) [])

/-- The IO load goes on with its next record. -/
def nextIo (l : IoLoad) (size : Nat) (c : Ctx) : Ctx :=
  (c.upd (putIoLoad (some { l with nextOff := l.nextOff + size }))).upd (State.ask (.record .io))

/-- R180: a fault of the IO table, with its index. -/
def ioFault (l : IoLoad) (index : Nat) (c : Ctx) : Ctx :=
  (c.upd (putIoLoad none)).upd (State.answer l.q .tableInvalid [numWord index])

/-- R180: the header, then the input records, then the output records (log entry 25). -/
def ioRead (d : List Byte) (c : Ctx) : Ctx :=
  match c.st.io.load with
  | none => c
  | some l =>
    match l.header with
    | none =>
      match decodeIoHeader d with
      | none => ioFault l 0 c
      | some h => nextIo { l with header := some h } 4 c
    | some h =>
      if l.ins.length < 12 then
        match decodeInput l.ins.length d with
        | none => ioFault l l.ins.length c
        | some (g, k) => nextIo { l with ins := l.ins ++ [g], clamped := l.clamped || k } 6 c
      else
        match decodeOutput l.outs.length d with
        | none => ioFault l (12 + l.outs.length) c
        | some g =>
          let l' := { l with outs := l.outs ++ [g] }
          if l'.outs.length ≥ 12 then finishIo l' h.1 h.2 c else nextIo l' 1 c

/-! ### The schedule switch (R42 to R46) -/

def putSwitch (w : Option Switch) (s : State) : State := { s with se := { s.se with switch := w } }

/-- The choice of SWITCH SCHEDULE: NOW, NEXT DAY, AT DAY by place. -/
def switchChoice (choice day : Nat) : Option SwitchChoice :=
  match choice with
  | 0 => some .now
  | 1 => some .nextDay
  | 2 => if day > 36525 then none else some (.atDay day)
  | _ => none

/-- The effective day of a pending switch (R45); none when it has passed. -/
def effectiveDay (s : State) : SwitchChoice → Option Nat
  | .now => none
  | .nextDay => s.se.mark.map fun h => h.day + 1
  | .atDay n =>
    match s.se.mark with
    | some h => if n ≤ h.day then none else some n
    | none => some n

/-- R44, R45: every entry has passed. -/
def finishSwitch (w : Switch) (c : Ctx) : Ctx :=
  let l := w.load
  let bank : Bank := ⟨l.staged, w.window⟩
  let o := Outcome.ofClamped l.clamped
  let had := c.st.se.waiting.isSome
  let c1 := c.upd (putSwitch none)
  match w.choice with
  | .now =>
    ((c1.upd fun s => { s with se := { s.se with active := bank, waiting := none } }).record
      (seNote .scheduleSwitched .routine l.q.tag (dv l.count) (dv 0) (dv (yesNo had)))).upd (State.answer l.q o [])
  | ch =>
    match effectiveDay c.st ch with
    | none => c1.upd (State.refuse l.q .outOfRange)
    | some n =>
      ((c1.upd fun s => { s with se := { s.se with waiting := some ⟨bank, n⟩ } }).record
        (seNote .schedulePending .routine l.q.tag (dv l.count) (dv n) (dv (yesNo had)))).upd (State.answer l.q o [])

/-- R42: AT DAY n with n at or before the day of H. -/
def atDayPassed (s : State) : SwitchChoice → Bool
  | .atDay n => s.se.mark.any fun h => n ≤ h.day
  | _ => false

/-- R42. -/
def decideSwitch (q : ReqHdr) (offset count window choice day : Nat) (c : Ctx) : Ctx :=
  match switchChoice choice day with
  | none => c.upd (State.refuse q .outOfRange)
  | some ch =>
    match loadRefusal 1024 count offset scheduleEntrySize c.st.se.switch.isSome with
    | some o => c.upd (State.refuse q o)
    | none =>
      if c.st.tb.campus.isNone && ch ≠ .now then c.upd (State.refuse q .notReady)
      else if atDayPassed c.st ch then c.upd (State.refuse q .outOfRange)
      else
        let w : Switch := ⟨⟨q, offset, count, [], window > 900⟩, min window 900, ch⟩
        let c1 := c.upd (putSwitch (some w))
        if count = 0 then finishSwitch w c1 else c1.upd (State.ask .scheduleEntry)

/-- R43: a staged entry has been read. -/
def entryRead (d : List Byte) (c : Ctx) : Ctx :=
  match c.st.se.switch with
  | none => c
  | some w =>
    let floor := (w.load.staged.getLast?.map (·.time)).getD 0
    match w.load.step scheduleEntrySize (unclamped (decodeEntry c.st.pu.table c.st.za.groups c.st.dc.records floor d)) with
    | .fault i => (c.upd (putSwitch none)).upd (State.answer w.load.q .tableInvalid [numWord i])
    | .more l => (c.upd (putSwitch (some { w with load := l }))).upd (State.ask .scheduleEntry)
    | .done l => finishSwitch { w with load := l } c

/-! ### The link leaves ATTACHED (R31, R46) -/

/-- A load in progress ends REGION OFFSET with its table unchanged. -/
def dropLoad {α : Type} (l : Option (Load α)) (s : State) : State :=
  match l with
  | some l => s.refuse l.q .regionOffset
  | none => s

/-- The IO load's request ends the same way. -/
def dropIoLoad (l : Option IoLoad) (s : State) : State :=
  match l with
  | some l => s.refuse l.q .regionOffset
  | none => s

/-- R31, R46: the requests of the loads and of the switch in progress end REGION OFFSET. -/
def endLoads (s : State) : State :=
  let s1 := dropLoad s.dp.calendarLoad (dropLoad s.dp.profileLoad s)
  let s2 := dropLoad s.za.groupLoad (dropLoad s.za.zoneLoad s1)
  let s3 := dropLoad s.dc.load (dropLoad s.au.load (dropLoad s.pu.load s2))
  let s4 := dropLoad s.lc.memberLoad (dropLoad s.lc.lineLoad (dropLoad (s.cu.load.map (·.load)) s3))
  dropLoad (s.se.switch.map (·.load)) (dropIoLoad s.io.load s4)

/-- No load is in progress. -/
def clearLoads (s : State) : State :=
  putSwitch none <| putIoLoad none <| putMemberLoad none <| putLineLoad none <| putCircuitLoad none <| putDrillLoad none <|
    putChannelLoad none <| putPatternLoad none <| putGroupLoad none <| putZoneLoad none <| putCalendarLoad none <|
    putProfileLoad none s

/-- R31: every load and the switch in progress end REGION OFFSET. -/
def dropLoads (s : State) : State := clearLoads (endLoads s)

end Sys2Proof.Machine
end

