-- ==== Sys2Proof/Machine/Snapshots.lean ====
section
/-! DEFINITION. The six snapshots of READ STATUS (R194, sections 1.1, 4.1, 6.1, 7.1, 8.1, 9.1 and 11.6): each is a list of numbers in the
order of the chapter's holding table (log entry 17); `none` is "none". -/

namespace Sys2Proof.Machine
open Sys2Proof

/-- One number of a snapshot, or "none". -/
abbrev Item := Option Int

def num (n : Nat) : List Item := [some n]
def int (n : Int) : List Item := [some n]
def opt (n : Option Nat) : List Item := [dvo n]
def yes (b : Bool) : List Item := [some (yesNo b : Int)]
def set {w : Nat} (m : BitVec w) : List Item := [some (m.toNat : Int)]
/-- A set of zones takes two numbers, Z0 to Z31 in the first. -/
def zoneSet (m : ZoneSet) : List Item :=
  [some ((m.setWidth 32).toNat : Int), some (((m >>> 32).setWidth 32).toNat : Int)]
/-- A value made of `k` numbers, or "none" in each. -/
def some? (k : Nat) : Option (List Item) → List Item
  | some l => l
  | none => List.replicate k none
/-- A list: its count, its entries of `k` numbers each, and 0 for the unused ones up to the capacity. -/
def listItems (capacity k : Nat) (entries : List (List Item)) : List Item :=
  num entries.length ++ entries.flatten ++ List.replicate ((capacity - entries.length) * k) (some 0)
/-- One item for each thing of a table, item after item. -/
def each {α : Type} (l : List α) (f : α → List Item) : List Item := l.flatMap f

/-! ### TIME -/

def dstItems (r : DstRule) : List Item :=
  num r.startMonth ++ num r.startWeek ++ num r.startHour ++ num r.endMonth ++ num r.endWeek ++ num r.endHour ++ num r.offset
def timeItems (t : CampusTime) : List Item := num t.day ++ num t.ms

/-- Section 1.1's items, with the elapsed milliseconds since the last valid pulse, and the end of the slew (log entry 18). -/
def tbItems (s : State) : List Item :=
  let t := s.tb
  some? 2 (t.campus.map timeItems) ++ int t.trim ++ int t.acc ++ int t.pc ++ num t.slewCount ++ num t.refMode.code
    ++ num t.lossLimit ++ num t.slewLimit ++ yes t.refLost ++ opt (t.lastPulse.map (s.elapsed - ·)) ++ opt t.baseline
    ++ yes t.baselineAwaited ++ num t.invalidPulses ++ int t.lastError ++ some? 7 (t.dst.map dstItems)
    ++ some? 2 (t.trans.map fun x => timeItems x.s) ++ some? 2 (t.trans.map fun x => timeItems x.e)
    ++ num t.offset ++ yes t.saturated ++ num (timeState t).code ++ opt t.slewEnd

/-- R27. -/
def dpItems (s : State) : List Item :=
  set s.dp.flags ++ num s.se.profile ++ some? 2 (s.dp.override.map fun o => num o.profile ++ num o.day) ++ opt s.dp.dayBegun

def SwitchChoice.code : SwitchChoice → Nat
  | .now => 0 | .nextDay => 1 | .atDay _ => 2

/-- AT DAY's day. -/
def SwitchChoice.day? : SwitchChoice → Option Nat
  | .atDay n => some n
  | _ => none

/-- The switch in progress: its choice, AT DAY's day, and the request being validated, by its tag. -/
def switchItems (w : Switch) : List Item := num w.choice.code ++ opt w.choice.day? ++ set w.load.q.tag

/-- R47's items in the order of section 3.1's holding table, not in R47's own order of naming: each bank's count and window, the effective day,
H, the switch (log entry 17, DESIGN CHOICE). -/
def seItems (s : State) : List Item :=
  num s.se.active.entries.length ++ num s.se.active.window
    ++ some? 2 (s.se.waiting.map fun p => num p.bank.entries.length ++ num p.bank.window)
    ++ opt (s.se.waiting.map (·.effective)) ++ some? 2 (s.se.mark.map fun h => num h.day ++ int h.ms)
    ++ some? 3 (s.se.switch.map switchItems)

def snapTime (s : State) : List Item := tbItems s ++ dpItems s ++ seItems s

/-! ### ZONES -/

def waiterItems (s : State) (w : Claim) : List Item :=
  claimantValues w.who w.level ++ opt (w.waitLimit.map (· - s.elapsed))

/-- Section 4.1's items. -/
def zaItems (s : State) : List Item :=
  let zs := List.range 64
  each zs (fun z => num (s.zoneState z).code)
    ++ each zs (fun z => some? 3 ((s.zone z).holder.map fun h => claimantValues h.who h.level))
    ++ each zs (fun z => listItems 4 4 ((s.zone z).waiters.map (waiterItems s)))
    ++ each zs (fun z => some? 2 ((s.zone z).reserved.map fun w => num w.kindCode ++ num w.number))
    ++ each zs (fun z => num (s.zone z).cadence.code)
    ++ each s.za.feeds (fun f => some? 3 (f.map fun h => claimantValues h.who h.level))
    ++ yes s.za.fireReported ++ set s.relayDemand

/-- An input's effective function with its parameters, at the places of section 10.1. -/
def InFunc.items : InFunc → List Item
  | .plain => num 0 ++ num 0 ++ num 0
  | .fireAlarm => num 1 ++ num 0 ++ num 0
  | .marshalClear b => num 2 ++ num b ++ num 0
  | .bellPush g p => num 3 ++ num g ++ num p
  | .drillKey d => num 4 ++ num d ++ num 0
  | .ptt l => num 5 ++ num l ++ num 0
  | .reference => num 6 ++ num 0 ++ num 0
def OutFunc.code : OutFunc → Nat
  | .plain => 0 | .zone => 1 | .drillLamp => 2 | .trouble => 3

/-- Section 10.1's items in the order of its holding table, an effective function in the place of the function (log entry 17). -/
def ioItems (s : State) : List Item :=
  let ks := List.range 12
  each ks (fun k => (s.io.inFunc k).items) ++ each ks (fun k => num (s.input k).reading.code)
    ++ each ks (fun k => opt ((s.input k).value.map (·.code))) ++ each ks (fun q => num (s.io.outFunc q).code)
    ++ each ks (fun q => yes (s.energized q)) ++ num (if s.io.safetyPair then 0 else 1) ++ set s.io.troubleMask
    ++ set s.io.trouble

def snapZones (s : State) : List Item := zaItems s ++ num s.pu.version ++ num s.pu.bells.length ++ ioItems s

/-! ### LINE -/

def Dest.items : Dest → List Item
  | .node a => num 0 ++ num a
  | .unaddressed => num 0 ++ num 0
  | .zone z => num 1 ++ num z
  | .all => num 2 ++ num 0

/-- The block an outcome is handed to (R158). -/
def TxKind.requester : TxKind → BlockId
  | .setTime _ | .timeAll _ _ _ => .cu
  | .sound _ _ | .soundStop | .soundStopAll | .route _ | .routeOffAll => .za
  | _ => .lc

def txItems (t : Tx) : List Item := num t.kind.code ++ num t.cls ++ t.dest.items ++ num t.kind.requester.code

def deferredItems (d : Deferred) : List Item := num d.rank.1 ++ num d.rank.2

/-- A clock's last displayed time; none yet, or UNSET, is "none". -/
def shownItem : Option (Option Nat) → List Item
  | some (some v) => num v
  | _ => [none]

/-- R166's items; the BUSY hold's end is the elapsed millisecond itself. -/
def nodeItems (n : Node) : List Item :=
  num n.addr ++ num n.kind.code ++ num n.unit ++ num n.chain ++ num n.pref.code ++ num n.st.code ++ num n.fails
    ++ listItems 4 1 (n.zones.map num) ++ num n.role ++ yes n.configured ++ yes n.queryNeeded ++ yes n.answering
    ++ opt n.busyUntil ++ opt n.version
    ++ some? 2 (n.refresh.map fun r => num r.target ++ num r.next) ++ shownItem n.shown

def EnumPhase.code : EnumPhase → Nat
  | .clearing => 1 | .assigning => 2

/-- Section 9.1's items. -/
def snapLine (s : State) (ln : Nat) : List Item :=
  let l := s.line ln
  yes l.cfg.enabled ++ num l.cfg.timeout ++ num l.cfg.retries ++ yes l.cfg.alternate ++ num l.cfg.threshold
    ++ set l.cfg.bypass ++ num l.cfg.period ++ num l.pathA.cond.code ++ num l.pathB.cond.code ++ num l.state.code
    ++ listItems 32 5 (l.queue.map txItems)
    ++ some? 7 (l.inFlight.map fun f => txItems f.tx ++ num f.attempt ++ num f.path.code)
    ++ listItems 122 2 (l.deferred.map deferredItems) ++ listItems 40 21 (l.nodes.map nodeItems) ++ set l.summary
    ++ yes l.cycle.running ++ num l.cycle.next ++ opt l.cycle.lastStart
    ++ some? 4 (l.enumeration.map fun e => num e.phase.code ++ opt e.offered ++ num e.found ++ set e.tag)

/-! ### CIRCUITS -/

/-- Section 8.1's items, then T, b and a, and the tolerance. -/
def snapCircuits (s : State) : List Item :=
  let ks := s.cu.circuits
  each ks (fun k => yes k.cfg.enabled) ++ each ks (fun k => num k.cfg.dial) ++ each ks (fun k => num k.cfg.width)
    ++ each ks (fun k => num k.cfg.catchUp) ++ each ks (fun k => num k.cfg.holdLimit) ++ each ks (fun k => num k.pos)
    ++ each ks (fun k => num k.polarity.code) ++ each ks (fun k => num k.st.code) ++ each ks (fun k => num k.openCount)
    ++ each ks (fun k => some? 2 (k.pulse.map fun p => num p.polarity.code ++ num p.start))
    ++ each ks (fun k => opt k.prevStart) ++ each ks (fun k => opt k.nextAt)
    ++ each ks (fun k => some? 3 (s.minute?.map fun m =>
        let t := k.target m
        num t ++ num (k.behind t) ++ num (k.ahead t))) ++ num s.cu.tolerance

/-! ### CHANNELS -/

def Owner.items : Owner → List Item
  | .ann n => num 0 ++ num n
  | .drill => num 1 ++ num 0

def AnnSource.items : AnnSource → List Item
  | .blocks o => num 0 ++ num o
  | .live n => num (1 + n) ++ num 0
  | .toneOnly => num 3 ++ num 0

def annZoneSet (a : Ann) (k : AnnZoneState) : ZoneSet := zoneSetOf ((a.zones.filter fun z => z.st = k).map (·.zone))

def annItems (a : Ann) : List Item :=
  num a.num ++ set a.tag ++ a.source.items ++ num a.level ++ num a.st.code
    ++ opt (if a.st = .ending then none else a.channel) ++ zoneSet (annZoneSet a .held) ++ zoneSet (annZoneSet a .waiting)
    ++ num a.fetched ++ num a.played ++ num a.discarded ++ opt (a.block.map (·.offset)) ++ yes a.awaiting.isSome

/-- Section 6.1's items. -/
def snapChannels (s : State) : List Item :=
  let ks := s.au.channels
  each ks (fun k => num k.cfg.trigger ++ num k.cfg.starveLimit ++ num k.cfg.liveTail)
    ++ each ks (fun k => some? 2 (k.owner.map Owner.items)) ++ each ks (fun k => num k.fifo.length)
    ++ each ks (fun k => yes k.starveFrom.isSome ++ num ((k.starveFrom.map (s.elapsed - ·)).getD 0))
    ++ each ks (fun k => some? 2 (k.lastEnding.map fun e => num e.num ++ num e.reason.code))
    ++ listItems 12 16 (s.au.anns.map annItems) ++ listItems 8 1 (s.au.waitList.map num)

/-! ### DRILL -/

def drillRecItems (r : DrillRec) : List Item :=
  yes r.defined ++ set r.buildings ++ num r.sounding ++ num r.target ++ yes r.tone ++ opt r.allClear ++ num r.group

def resultItems (b : DrillBuilding) : List Item := num b.building ++ opt b.clear ++ yes b.late

def DrillOrigin.items : DrillOrigin → List Item
  | .request t => num 0 ++ set t
  | .entry i => num 1 ++ num i
  | .key k => num 2 ++ num k

def activeItems (s : State) (d : ActiveDrill) : List Item :=
  num d.num ++ d.origin.items ++ num d.phase.code ++ num (s.elapsed - d.start)
    ++ listItems 8 4 (d.buildings.map fun b => num b.building ++ yes b.clear.isSome ++ opt b.clear ++ yes b.late)
    ++ opt d.channel ++ zoneSet (zoneSetOf (d.zones.map (·.zone)))

/-- Section 7.1's items. -/
def snapDrill (s : State) : List Item :=
  each s.dc.records drillRecItems ++ some? 41 (s.dc.active.map (activeItems s))
    ++ some? 27 (s.dc.last.map fun x => num x.num ++ num x.reason.code ++ listItems 8 3 (x.buildings.map resultItems))
    ++ yes s.dc.fireActive ++ yes s.dc.silenceHeld

/-! ### The request (R194) -/

/-- The words of a snapshot padded to its size. -/
def snapWords (size : Nat) (items : List Item) : List Word :=
  (items.map snapWord ++ List.replicate (size / 4 - items.length) 0).take (size / 4)

/-- R194: the items are copied at once and their write asked for; the sequence number is that of this moment (log entry 43). -/
def readStatus (q : ReqHdr) (size offset : Nat) (items : State → List Item) (c : Ctx) : Ctx :=
  if !offsetOk offset size then c.upd (State.refuse q .regionOffset)
  else c.upd (State.ask (.snapshot q offset c.st.ri.nextSeq (snapWords size (items c.st))))

end Sys2Proof.Machine
end

