-- ==== Sys2Proof/Machine/Requests.lean ====
section
/-! DEFINITION. The decisions of the requests that the other files do not hold: day plan, bells, announcements, drills, dials, lines, outputs (R32,
R34, R89, R106, R108, R127, R131, R134, R136, R139, R147, R148, R172, R174, R175, R182). -/

namespace Sys2Proof.Machine
open Sys2Proof

/-! ### Day plan -/

/-- R34. -/
def decideSetFlags (q : ReqHdr) (m1 m2 : Set8) (c : Ctx) : Ctx :=
  let old := c.st.dp.flags
  let c1 := changeFlags m1 m2 flagsHost c.tag c
  c1.upd (State.answer q .done [old.setWidth 32, c1.st.dp.flags.setWidth 32])

/-- PROFILE CHANGED, when the current day profile changes its number; the causes are SET and CLEAR. -/
def profileChange (new cause : Nat) (c : Ctx) : Ctx :=
  let old := c.st.se.profile
  let c1 := c.upd fun s => { s with se := { s.se with profile := new } }
  if old = new then c1 else c1.record (dpNote .profileChanged c.tag (dv old) (dv new) (dv cause))

/-- The byte of NONE (section 11.6). -/
def noneByte : Nat := 0xFF

/-- R32. A profile above 15 while the time is UNSET is refused OUT OF RANGE (log entry 51, DESIGN CHOICE). -/
def decideTodayProfile (q : ReqHdr) (p : Nat) (c : Ctx) : Ctx :=
  if p > 15 && p != noneByte then c.upd (State.refuse q .outOfRange)
  else if c.st.tb.campus.isNone then c.upd (State.refuse q .notReady)
  else
    let day := c.st.dp.dayBegun.getD 0
    let old := c.st.se.profile
    let c1 :=
      if p ≠ noneByte then
        profileChange p 0 (c.upd fun s => { s with dp := { s.dp with override := some ⟨p, day⟩ } })
      else if c.st.dp.override.isSome then
        profileChange (profileOf c.st.dp.calendar day) 1 (c.upd fun s => { s with dp := { s.dp with override := none } })
      else c
    c1.upd (State.answer q .done [numWord old, numWord c1.st.se.profile])

/-! ### Bells -/

/-- The zone set a target names: a group's members at this moment, or the zone set given; the kinds are GROUP and ZONE SET. -/
def targetZones (s : State) (kind group : Nat) (zones : ZoneSet) : ZoneSet := if kind = 0 then s.group group else zones

/-- R89. A request at fault in both ways is refused OUT OF RANGE (log entry 51, DESIGN CHOICE). -/
def decideRing (q : ReqHdr) (p : RingParams) (c : Ctx) : Ctx :=
  if (p.targetKind = 0 && p.group > 63) || p.pattern > 31 || p.level < 2 || p.level > 9 then c.upd (State.refuse q .outOfRange)
  else
    let zs := targetZones c.st p.targetKind p.group p.zones
    if p.targetKind > 1 || (c.st.pattern p.pattern).isEmpty || zs = 0 then c.upd (State.refuse q .badParameter)
    else
      let df := min p.defer 120
      let du := clampNat 1 600 p.duration
      let c1 := bellStart (.ring c.tag) zs p.pattern p.level df du c
      match freeBell c.st.pu.bells with
      | none => c1.upd (State.refuse q .busy)
      | some n =>
        c1.upd (State.answer q (.ofClamped (df != p.defer || du != p.duration)) [numWord n, numWord (zonesOf zs).length])

/-! ### Announcements -/

/-- The source of ANNOUNCE: BLOCKS, LIVE 0, LIVE 1, TONE ONLY by place. -/
def sourceOf (code block : Nat) : Option AnnSource :=
  match code with
  | 0 => some (.blocks block)
  | 1 => some (.live 0)
  | 2 => some (.live 1)
  | 3 => some .toneOnly
  | _ => none

/-- R106: the live source is in use. -/
def liveInUse (s : State) (src : AnnSource) : Bool :=
  match src with
  | .live _ => s.au.anns.any fun a => a.source = src
  | _ => false

/-- R106: the first case of the table that applies. -/
def announceRefusal (s : State) (p : AnnounceParams) (src : Option AnnSource) (zs : ZoneSet) : Option Outcome :=
  let chime := p.chime ≠ noneByte
  if (p.targetKind = 0 && p.group > 63) || (chime && p.chime > 31) || p.level < 2 || p.level > 9 then some .outOfRange
  else
    match src with
    | none => some .badParameter
    | some x =>
      if p.targetKind > 1 || p.onPreempt > 1 || p.lateJoin > 1 || p.wait > 1 || zs = 0
          || (chime && (s.pattern p.chime).isEmpty) || (x = .toneOnly && !chime) then some .badParameter
      else if p.source = 0 && !blockOffsetOk p.blockOffset then some .regionOffset
      else if s.au.anns.length ≥ Config.annCapacity then some .busy
      else if liveInUse s x then some .busy
      else none

/-- The state a channel request leads to, for the result words. -/
def ChannelAnswer.entered : ChannelAnswer → AnnState
  | .free _ | .take _ _ => .routing
  | _ => .waiting

/-- R106. -/
def decideAnnounce (q : ReqHdr) (p : AnnounceParams) (c : Ctx) : Ctx :=
  let zs := targetZones c.st p.targetKind p.group p.zones
  let src := sourceOf p.source p.blockOffset
  match announceRefusal c.st p src zs, src with
  | some o, _ => c.upd (State.refuse q o)
  | none, none => c.upd (State.refuse q .badParameter)
  | none, some x =>
    let du := clampNat 1 600 p.duration
    let re := min p.resume 300
    let proto := protoAnn (.request c.tag) zs p.level x (if p.chime = noneByte then none else some p.chime) du (p.onPreempt == 1)
      re (p.lateJoin == 1) (p.wait == 1)
    let n := nextAnnNumber c.st
    let st := (channelRequest c.st p.level (p.wait == 1)).entered
    let r := takeAnn proto c
    if r.2 then
      r.1.upd (State.answer q (.ofClamped (du != p.duration || re != p.resume)) [numWord n, numWord st.code])
    else r.1.upd (State.refuse q .noChannel)

/-- R108. -/
def decideEndAnnouncement (q : ReqHdr) (n : Nat) (c : Ctx) : Ctx :=
  match c.st.ann? n with
  | none => c.upd (State.refuse q .badParameter)
  | some a =>
    if a.st = .ending then c.upd (State.refuse q .state)
    else (annEnd n .cancelled false c).upd (State.answer q .done [numWord a.fetched, numWord a.played])

/-! ### Drills -/

/-- R127. -/
def decideStartDrill (q : ReqHdr) (n : Nat) (c : Ctx) : Ctx :=
  if n > 7 then c.upd (State.refuse q .outOfRange)
  else
    match drillRefusal c.st n with
    | some o => c.upd (State.refuse q o)
    | none => (drillStart (.request c.tag) n c).call [.startAnswer q n]

/-- R127: the answer at the end of the start event. -/
def startAnswer (q : ReqHdr) (n : Nat) (c : Ctx) : Ctx :=
  c.upd (State.answer q .done [numWord n, numWord ((c.st.dc.active.map fun d => d.zones.length).getD 0)])

/-- The phase of the active drill. -/
def State.phase? (s : State) : Option DrillPhase := s.dc.active.map (·.phase)

/-- R131. -/
def decideStopSounding (q : ReqHdr) (c : Ctx) : Ctx :=
  if c.st.phase? = some .sounding then (soundingEnd .stop c).upd (State.answer q .done [])
  else c.upd (State.refuse q .state)

/-- R134. -/
def decideAllClear (q : ReqHdr) (c : Ctx) : Ctx :=
  let go : List Work := [.phaseNote .allClear .host, .allClearBegin]
  match c.st.phase? with
  | some .sounding => (c.call (.soundingEnd .stop :: go)).upd (State.answer q .done [])
  | some .evacuating => (c.call go).upd (State.answer q .done [])
  | _ => c.upd (State.refuse q .state)

/-- R136. -/
def decideEndDrill (q : ReqHdr) (c : Ctx) : Ctx :=
  match c.st.dc.active with
  | none => c.upd (State.refuse q .state)
  | some d =>
    let cleared := (d.buildings.filter fun b => b.clear.isSome).length
    (drillEnd .aborted c).upd
      (State.answer q .done [numWord d.num, numWord cleared, numWord (d.buildings.length - cleared)])

/-- R139. -/
def decideResume (q : ReqHdr) (c : Ctx) : Ctx :=
  if c.st.dc.fireActive then c.upd (State.refuse q .fireActive)
  else
    let n := c.st.silenced.length
    let c1 := releaseSilence ((c.upd fun s => { s with dc := { s.dc with silenceHeld := false } }).upd State.mirrorFire)
    (c1.record (dcNote .silenceReleased .attention c.tag (dv n) (dv 0) (dv 0))).upd (State.answer q .done [numWord n])

/-! ### Circuits -/

/-- R148. -/
def decideSetDial (q : ReqHdr) (i pos pol : Nat) (c : Ctx) : Ctx :=
  let k := c.st.circuit i
  if i > 3 || pos ≥ k.cfg.dial then c.upd (State.refuse q .outOfRange)
  else if pol > 1 then c.upd (State.refuse q .badParameter)
  else if k.st = .off || c.st.tb.campus.isNone then c.upd (State.refuse q .state)
  else
    let p : Polarity := if pol = 0 then .positive else .negative
    let c1 := (c.upd (State.setCircuit i fun k => { k with
        pos := pos, polarity := p, openCount := 0, pulse := k.pulse.map fun u => { u with void := true } })).record
      (cuNote .dialSet .routine i c.tag (dv i) [some k.pos, some k.polarity.code] [some pos, some p.code])
    let c2 := if k.pulse.isSome then c1 else circuitDecide i k.st c1
    c2.upd (State.answer q .done [numWord pos, numWord (c2.st.circuit i).st.code])

/-- R147: CLEAR FAULTS for a circuit. -/
def decideClearCircuit (q : ReqHdr) (i : Nat) (c : Ctx) : Ctx :=
  let k := c.st.circuit i
  if i > 3 then c.upd (State.refuse q .outOfRange)
  else if k.st = .off then c.upd (State.refuse q .state)
  else
    let c1 := c.upd (State.setCircuit i fun k => { k with openCount := 0 })
    let c2 := if k.st = .fault then circuitDecide i .fault c1 else c1
    c2.upd (State.answer q .done [numWord (c2.st.circuit i).st.code])

/-! ### Lines -/

/-- R174: the refusals of ENUMERATE LINE, which RENUMBER LINE shares. -/
def enumRefusal (s : State) (ln : Nat) : Option Outcome :=
  if ln > 7 then some .outOfRange
  else if !(s.line ln).active then some .state
  else if (s.line ln).enumeration.isSome then some .busy
  else none

/-- R174. -/
def decideEnumerate (q : ReqHdr) (ln : Nat) (c : Ctx) : Ctx :=
  match enumRefusal c.st ln with
  | some o => c.upd (State.refuse q o)
  | none =>
    assignStep ln ((c.upd (State.setLine ln fun l => { l with enumeration := some ⟨.assigning, none, 0, 0, c.tag, c.st.eventNo⟩ })).upd
      (State.answer q .done []))

/-- R175. -/
def decideRenumber (q : ReqHdr) (ln : Nat) (c : Ctx) : Ctx :=
  match enumRefusal c.st ln with
  | some o => c.upd (State.refuse q o)
  | none =>
    if (c.st.zonesOfBuilding ln).any fun z => (c.st.zone z).holder.isSome then c.upd (State.refuse q .busy)
    else
      clearStep ln ((c.upd (State.setLine ln fun l => { l with enumeration := some ⟨.clearing, none, 0, 0, c.tag, c.st.eventNo⟩ })).upd
        (State.answer q .done []))

/-- R172: a node is set aside. -/
def setAbsent (ln a : Nat) (c : Ctx) : Ctx :=
  let kind := ((c.st.line ln).node? a).map (·.kind)
  let c1 := c.upd (State.setNode ln a fun n => { n with
    st := .absent, fails := 0, queryNeeded := false, busyUntil := none, refresh := none })
  settleLine ln settleSteps ((detachNode ln a kind c1).upd State.updateTrouble)

/-- R172: SET NODE; the actions are ABSENT and ENABLE. The refusals are taken in the order R172 names them (log entry 51, DESIGN CHOICE). -/
def decideSetNode (q : ReqHdr) (ln a action : Nat) (c : Ctx) : Ctx :=
  if ln > 7 || a < 1 || a > 40 then c.upd (State.refuse q .outOfRange)
  else
    match (c.st.line ln).node? a with
    | none => c.upd (State.refuse q .badParameter)
    | some n =>
      match action with
      | 0 => (if n.st = .absent then c else setAbsent ln a c).upd (State.answer q .done [])
      | 1 =>
        if n.st = .absent then (c.upd (State.setNode ln a Node.toUnknown)).upd (State.answer q .done [])
        else c.upd (State.refuse q .state)
      | _ => c.upd (State.refuse q .badParameter)

/-- R172: CLEAR FAULTS for a line. -/
def decideClearLine (q : ReqHdr) (ln : Nat) (c : Ctx) : Ctx :=
  if ln > 7 then c.upd (State.refuse q .outOfRange)
  else if (c.st.line ln).state = .off then c.upd (State.refuse q .state)
  else
    let n := ((c.st.line ln).nodes.filter fun n => n.st = .faulted).length
    let c1 := c.upd (State.setLine ln fun l => { l with
      summary := 0, nodes := l.nodes.map fun n => if n.st = .faulted then n.toUnknown else n })
    ((c1.record (lcNote .faultsCleared .routine ln c.tag (dv n) (dv 0) (dv 0))).upd State.updateTrouble).upd
      (State.answer q .done [numWord n])

/-! ### Outputs -/

/-- R182; the actions are ENERGIZE and RELEASE. The refusals are taken in the order R182 names them (log entry 51, DESIGN CHOICE). -/
def decideDrive (q : ReqHdr) (out action duration : Nat) (c : Ctx) : Ctx :=
  if out > 11 then c.upd (State.refuse q .outOfRange)
  else if action > 1 then c.upd (State.refuse q .badParameter)
  else if c.st.io.outFunc out ≠ .plain then c.upd (State.refuse q .state)
  else
    let d := min duration 600000
    let c1 := c.upd (State.setOutput out fun o =>
      if action = 1 then { o with driven := false, releaseAt := none }
      else { o with driven := true, releaseAt := if d = 0 then none else some (c.st.elapsed + d) })
    c1.upd (State.answer q (.ofClamped (d != duration)) [numWord (yesNo (c1.st.energized out))])

/-! ### READ STATUS (R194) -/

/-- READ STATUS LINE: a line above 7 is refused before a bad offset (log entry 51, DESIGN CHOICE). -/
def decideReadLine (q : ReqHdr) (ln offset : Nat) (c : Ctx) : Ctx :=
  if ln > 7 then c.upd (State.refuse q .outOfRange) else readStatus q 8192 offset (fun s => snapLine s ln) c

end Sys2Proof.Machine
end

