-- ==== Sys2Proof/Machine/Inputs.lean ====
section
/-! DEFINITION. The I/O Unit's inputs (R178, R179), and the starts of the part: cold, retained, their settling and first evaluation (R26, R39, R59, R82, R100, R124, R141, R153,
R177, R184 to R186, R198). -/

namespace Sys2Proof.Machine
open Sys2Proof

/-! ### Readings and debounced values -/

/-- R178: the value a reading counts as; a HIGH IMPEDANCE reading counts as OPEN. -/
def Reading.counted : Reading → Contact
  | .closed => .closed
  | _ => .opened

/-- The input is K11 as FIRE ALARM. -/
def isFireInput (s : State) (k : Nat) : Bool := k == 11 && s.io.inFunc k = .fireAlarm

/-- R178, R180: an input's reading changes: it begins a hold with the debounce time in force, and so does the value it counts as, when that
changes too (log entry 31). -/
def Input.take (r : Reading) (now : Nat) (i : Input) : Input :=
  { i with
    reading := r
    exact := ⟨now, i.debounce⟩
    counted := if Reading.counted i.reading = Reading.counted r then i.counted else ⟨now, i.debounce⟩ }

/-- R178: an input's reading changes. An edge of a REFERENCE input from open to closed is a pulse, but during a start. -/
def takeReading (k : Nat) (r : Reading) (c : Ctx) : Ctx :=
  let old := (c.st.input k).reading
  let c1 := c.upd (State.setInput k (Input.take r c.st.elapsed))
  if c.st.running && c.st.io.inFunc k = .reference && Reading.counted old = .opened && r = .closed then referencePulse c1 else c1

/-- R179: a change of a debounced value is handed on. -/
def handOn (k : Nat) (v : Contact) (c : Ctx) : Ctx :=
  match c.st.io.inFunc k, v with
  | .plain, _ => c.record ⟨.inputChanged, .routine, .io, k, 0, dv k, dv v.code, dv 0⟩
  | .fireAlarm, .closed => fireAlarmOn c
  | .fireAlarm, .opened => fireAlarmOff c
  | .marshalClear b, .closed => clearReport b (.input k) c
  | .bellPush g p, .closed => bellPush k g p c
  | .drillKey d, .closed => drillAsk (.key k) d c
  | .ptt n, _ => pttChanged n c
  | _, _ => c

/-- R178, R185: an input's debounced value; a first value is not handed on, but counts toward talking. -/
def setValue (k : Nat) (v : Contact) (c : Ctx) : Ctx :=
  let old := (c.st.input k).value
  if old = some v then c
  else
    let c1 := c.upd (State.setInput k fun i => { i with value := some v })
    match old, c.st.io.inFunc k with
    | some _, _ => handOn k v c1
    | none, .ptt n => pttChanged n c1
    | none, _ => c1

/-- R178: the fire input supervision. -/
def superviseFire (opened : Bool) (c : Ctx) : Ctx :=
  if c.st.io.fireOpen = opened then c
  else (c.upd fun s => { s with io := { s.io with fireOpen := opened } }).upd State.updateTrouble

/-- R178: what an input's debounce is measured by: the fire input's own reading, any other input's counted value. -/
def State.holdOf (s : State) (k : Nat) : Hold := if isFireInput s k then (s.input k).exact else (s.input k).counted

/-- A hold has lasted its time. -/
def Hold.over (h : Hold) (now : Nat) : Bool := h.since + (h.time : Int) ≤ (now : Int)

/-- R178: a reading has held for the input's debounce time. -/
def debounced (k : Nat) (c : Ctx) : Ctx :=
  let i := c.st.input k
  if k > 11 || !(c.st.holdOf k).over c.st.elapsed || c.st.io.inFunc k = .reference then c
  else if isFireInput c.st k then
    match i.reading with
    | .highZ => superviseFire true c
    | r => setValue k (Reading.counted r) (superviseFire false c)
  else setValue k (Reading.counted i.reading) c

/-! ### A retained start, block by block -/

/-- R26. -/
def TimeBase.retained (tb : TimeBase) : TimeBase :=
  { TimeBase.cold with
    campus := tb.campus
    trim := tb.trim
    acc := tb.acc
    refMode := tb.refMode
    lossLimit := tb.lossLimit
    slewLimit := tb.slewLimit
    dst := tb.dst
    saturated := tb.saturated
    refLost := tb.refMode = .pulse && tb.campus.isSome }

/-- R26: the instants and the offset of the campus time, without a record or an event. -/
def TimeBase.recomputed (tb : TimeBase) : TimeBase :=
  match tb.campus with
  | none => { tb with trans := none, offset := 0 }
  | some t =>
    let tr := instantsFor tb.dst t
    { tb with trans := tr, offset := offsetAt tb.dst tr t.lin }

/-- R39. -/
def DayPlan.retained (p : DayPlan) : DayPlan := { p with profileLoad := none, calendarLoad := none }

/-- R59: H is unset while the time is. -/
def Schedule.retained (e : Schedule) (unset : Bool) : Schedule :=
  { e with switch := none, mark := if unset then none else e.mark }

/-- R82. -/
def ZoneArbiter.retained (z : ZoneArbiter) : ZoneArbiter := { ZoneArbiter.cold with table := z.table, groups := z.groups }

/-- R100. -/
def PatternUnit.retained (p : PatternUnit) : PatternUnit := { PatternUnit.cold with table := p.table, version := p.version }

/-- R124: an announcement that owned the channel is its last ending, RESTART. -/
def Channel.retained (k : Channel) : Channel :=
  Channel.free k.cfg (match k.owner with
    | some (.ann n) => some ⟨n, .restart⟩
    | _ => k.lastEnding)
def AnnUnit.retained (a : AnnUnit) : AnnUnit := { AnnUnit.cold with channels := a.channels.map Channel.retained }

/-- R141: the records are written by `closeDrill`. -/
def DrillControl.retained (d : DrillControl) : DrillControl := { DrillControl.cold with
  records := d.records
  last := match d.active with
    | some a => some ⟨a.num, .restart, a.buildings⟩
    | none => d.last }

/-- R153. -/
def Circuit.retained (k : Circuit) : Circuit :=
  { k with openCount := if k.st = .fault then 3 else 0, pulse := none, prevStart := none, nextAt := none }
def ClockUnit.retained (u : ClockUnit) : ClockUnit := { u with circuits := u.circuits.map Circuit.retained, load := none }

/-- R177. -/
def Node.retained (n : Node) : Node :=
  { n with
    st := if n.st = .absent || n.st = .faulted then n.st else .unknown
    fails := 0
    queryNeeded := false
    configured := false
    answering := false
    busyUntil := none
    refresh := none }
def Line.retained (l : Line) : Line := { Line.cold with
  cfg := l.cfg
  pathA := ⟨l.pathA.cond, none⟩
  pathB := ⟨l.pathB.cond, none⟩
  nodes := l.nodes.map Node.retained
  summary := l.summary }
def LineControl.retained (c : LineControl) : LineControl :=
  { LineControl.cold with lines := c.lines.map Line.retained, members := c.members }

/-- R186. -/
def Input.retained (i : Input) : Input := { i with exact := ⟨0, i.debounce⟩, counted := ⟨0, i.debounce⟩, value := none }
def Output.retained (o : Output) : Output := { o with driven := false, releaseAt := none }
def IoUnit.retained (u : IoUnit) : IoUnit :=
  { u with
    inputs := u.inputs.map Input.retained
    outputs := u.outputs.map Output.retained
    trouble := 0
    fireOpen := false
    load := none }

/-- R141: an active drill is closed among the first records of the start. -/
def closeDrill (active : Option ActiveDrill) (c : Ctx) : Ctx :=
  match active with
  | some d => Ctx.each Ctx.record (resultNotes d 0 .restart) c
  | none => c

/-- R177: the first readings of an enabled line set its path conditions; the line state follows. -/
def firstReadings (ln : Nat) (c : Ctx) : Ctx :=
  let l := c.st.line ln
  if l.cfg.enabled then
    let r := c.st.lc.startReads.getD ln openPair
    let c1 := firstPath ln .b r.b (firstPath ln .a r.a c)
    let new := (c1.st.line ln).state
    if l.state = new then c1
    else
      let cat := if new = .degraded || new = .failed then Category.attention else .routine
      c1.record (lcNote .lineState cat ln 0 (dv l.state.code) (dv new.code) [some r.a.code, some r.b.code])
  else c

/-- R184, R185: a retained start begins: every block takes its values. -/
def State.retainedStart (s : State) : State :=
  { elapsed := 0
    supply := ⟨true, true, true, .retained⟩
    tb := s.tb.retained.recomputed
    dp := s.dp.retained
    se := s.se.retained s.tb.campus.isNone
    za := s.za.retained
    pu := s.pu.retained
    au := s.au.retained
    dc := s.dc.retained
    cu := s.cu.retained
    lc := s.lc.retained
    io := s.io.retained
    ri := .start s.ri.region
    eventNo := s.eventNo
    pending := s.pending }

/-- The readings with which the lines will begin operation (R177). -/
def State.withStartReads (paths : List PathPair) (s : State) : State := { s with lc := { s.lc with startReads := paths } }

/-- A retained start with the records of its beginning. -/
def beginRetained (paths : List PathPair) (c : Ctx) : Ctx :=
  closeDrill c.st.dc.active ((c.upd State.retainedStart).upd (State.withStartReads paths))

/-- A cold start, with the readings the inputs give (R184). -/
def State.coldAgain (s : State) : State :=
  { State.coldStart (s.io.inputs.map (·.reading)) s.ri.region s.pending with eventNo := s.eventNo }

/-! ### Settling (R185) -/

/-- TB at the end of settling (R26, R185). -/
def settleTime (c : Ctx) : Ctx :=
  let tb := c.st.tb
  let c1 := c.upd (State.setTb TimeBase.recomputed)
  match tb.campus with
  | some t =>
    if t.lin = lastLin && !tb.saturated then
      (c1.upd (State.setTb fun tb => { tb with saturated := true })).record (timeLimitNote 0)
    else c1
  | none => c1

/-- A hold that began so long before elapsed time 0. -/
def Hold.aged (n : Nat) (h : Hold) : Hold := { h with since := h.since - (n : Int) }
def Input.aged (n : Nat) (i : Input) : Input := { i with exact := i.exact.aged n, counted := i.counted.aged n }

/-- The settling clock becomes elapsed time 0; readings that began before keep their age. -/
def State.settled (s : State) : State :=
  { s with
    elapsed := 0
    supply := { s.supply with settling := false }
    io := { s.io with inputs := s.io.inputs.map (Input.aged s.elapsed) } }

/-- R59, R185: SE deals with the outage at the end of a retained start's settling. -/
def planRestart (retained : Bool) (c : Ctx) : Ctx :=
  match c.st.civil with
  | some now => if retained then scheduleRestart now c else c
  | none => c

/-- R185: K11's value and the fire input's supervision, with the reading K11 is taken as; the trouble classes are set without a record; a
closed fire input becomes active. -/
def evaluateFire (k11 : Reading) (c : Ctx) : Ctx :=
  let fireInput := isFireInput c.st 11
  let c1 := c.upd (State.setInput 11 fun i => { i with value := some (Reading.counted k11) })
  let c2 := if fireInput && k11 = .highZ then c1.upd fun s => { s with io := { s.io with fireOpen := true } } else c1
  let c3 := c2.upd fun s => { s with io := { s.io with trouble := s.troubleNow } }
  if fireInput && k11 = .closed then fireAlarmOn c3 else c3

/-- R173, R185: the first supervision cycle of a line that is enabled. -/
def firstCycle (ln : Nat) (c : Ctx) : Ctx := if (c.st.line ln).cfg.enabled then cycleBegins ln c else c

/-- R185: the first evaluation, with the reading K11 is taken as, and the first supervision cycles, each with the first readings at its
start (R155, R173, R177; log entry 26). They come before what a closed fire input sends to the lines (log entry 66, DESIGN CHOICE). -/
def firstEvaluation (k11 : Reading) (c : Ctx) : Ctx :=
  let c1 := planRestart (c.st.supply.kind = .retained) (settleTime (c.upd State.settled))
  let c2 := Ctx.each firstReadings (List.range 8) c1
  Ctx.each firstCycle (List.range 8) (evaluateFire k11 c2)

/-- R185: how long K11's reading must hold. -/
def settleHold (s : State) : Nat := if isFireInput s 11 then (s.input 11).debounce else 50

/-- R185: settling under FIRE ALARM lasts 10 s at most. -/
def settleLimit : Nat := 10000

/-- R185: K11's reading, one of the three whatever its function, has held for its time, under FIRE ALARM before settling has lasted 10 s. -/
def settleHeld (s : State) : Bool :=
  (settleHold s : Int) ≤ (s.elapsed : Int) - (s.input 11).exact.since
    && (!isFireInput s 11 || (s.input 11).exact.since + (settleHold s : Int) ≤ settleLimit)

/-- R185: K11 under FIRE ALARM has not held one reading after 10 s. -/
def settleExpired (s : State) : Bool := isFireInput s 11 && settleLimit ≤ s.elapsed && !settleHeld s

end Sys2Proof.Machine
end

