-- ==== Sys2Proof/Machine/Link.lean ====
section
/-! DEFINITION. The Region Interface: attaching (R188), leaving ATTACHED (R189), scans (R192), the read mark (R196), snapshots (R194). -/

namespace Sys2Proof.Machine
open Sys2Proof

def riNote (k : RecKind) (d0 d1 d2 : Detail) : Note := ⟨k, .attention, .ri, 0, 0, d0, d1, d2⟩

/-! ### Scans (R192) -/

/-- R192: a slot scan is called for. -/
def callScan (s : State) : State :=
  match s.ri.scan with
  | .idle => (s.setRi fun ri => { ri with scan := .scanning }).ask (.readMark true)
  | _ => s.setRi fun ri => { ri with scan := .scanningDue }

/-- The present scan ends; one that is due begins. -/
def endScan (s : State) : State :=
  match s.ri.scan with
  | .scanningDue => callScan (s.setRi fun ri => { ri with scan := .idle })
  | _ => s.setRi fun ri => { ri with scan := .idle }

/-- The slot after slot `n` is read, or the scan ends. -/
def nextSlot (n : Nat) (s : State) : State := if n + 1 < Config.slotCount then s.ask (.slot (n + 1)) else endScan s

/-- R196: a read mark within the unread records becomes the read mark in use; the notify categories are those read. -/
def acceptMark (mark notify : Nat) (s : State) : State :=
  s.setRi fun ri =>
    let ok := mark < 256 && (mark + 256 - ri.readMark) % 256 ≤ ri.unread
    { ri with readMark := if ok then mark else ri.readMark, notify := BitVec.ofNat 32 notify }

/-! ### The link leaves ATTACHED (R189) -/

/-- A READ STATUS in progress ends REGION OFFSET. -/
def dropSnapshot (a : Access) (s : State) : State :=
  match a with
  | .snapshot q _ _ _ => s.refuse q .regionOffset
  | _ => s

/-- R189: the accesses that are left when the link goes down: the one in flight completes with its result discarded, and those not yet begun are
not made. -/
def leftInFlight : List Access → List Access
  | [] => []
  | .discarded a :: _ => [.discarded a]
  | a :: _ => [.discarded a]

/-- R189: every use of the region ends; the link state has changed already. `left` are the accesses that are left. -/
def leaveAttached (left : List Access) (c : Ctx) : Ctx :=
  let as := c.st.ri.accesses
  let c1 := c.upd fun s => as.foldl (fun s a => dropSnapshot a s) (dropLoads s)
  annLinkLost (c1.upd (State.setRi fun ri => { ri with accesses := left, scan := .idle }))

/-- The causes of LINK FAULT. -/
def faultBus : Nat := 0
def faultLayout : Nat := 1

/-- R188, R189: the link enters LINK FAULT; the access that was in flight has ended. -/
def enterLinkFault (cause offset : Nat) (version : Option Nat) (c : Ctx) : Ctx :=
  let was := c.st.attached
  let c1 := c.upd (State.setRi fun ri => { ri with link := .fault })
  let c2 := (c1.record (riNote .linkFault (dv cause) (dv offset) [dvo version])).upd (State.setRi (RegionIf.raise causeLink))
  let c3 := if was then leaveAttached [] c2 else c2.upd (State.setRi fun ri => { ri with accesses := [] })
  if c.st.running then c3.upd State.updateTrouble else c3

/-! ### Attaching (R188) -/

/-- The channels whose last ending is RESTART, on the first attach after a retained start (R197). -/
def restartCount (s : State) : Nat :=
  if s.ri.firstAttach && s.supply.kind = .retained then
    (s.au.channels.filter fun k => k.lastEnding.any fun e => e.reason = .restart).length
  else 0

/-- STARTED (R197). -/
def startedNote (s : State) : Note :=
  riNote .started [some s.supply.kind.code, some (yesNo s.ri.firstAttach)] [some s.ri.hold.length, some s.ri.lost]
    (dv (restartCount s))

/-- R188, step 4: the outcomes held while the link was down, in ascending slot index. -/
def writeHeld (s : State) : State :=
  (List.range Config.slotCount).foldl (fun s n =>
    match s.ri.taken.find? fun t => t.q.slot == n && t.held.isSome with
    | some t =>
      match t.held with
      | some a => s.setRi (writeOutcome t.q a)
      | none => s
    | none => s) s

/-- R188: the link becomes ATTACHED. -/
def attach (notify : Nat) (s : State) : State :=
  let s1 := s.setRi fun ri => { ri with
    link := .attached
    writeIndex := 0
    readMark := 0
    nextSeq := 1
    notify := BitVec.ofNat 32 notify
    region := regionWrite ri.region cbWriteIndex (leBytes 4 0)
    scanAt := s.elapsed
    pollAt := s.elapsed
    blockAt := s.elapsed }
  let s2 := s1.setRi fun ri => ri.place (stamped s1 (startedNote s1))
  let s3 := writeHeld (State.drain drainSteps s2)
  callScan ((s3.mirrorAll).setRi fun ri => { ri with firstAttach := false })

/-- R188: the host fields have been read. -/
def hostFields (layout mark notify : Nat) (c : Ctx) : Ctx :=
  if layout = Config.layoutVersion && mark = 0 then c.upd (attach notify)
  else enterLinkFault faultLayout 0 (some layout) c

/-! ### RUN (R187 to R189) -/

/-- A write of RUN. -/
def writeRun (v : Bool) (c : Ctx) : Ctx :=
  let ri := c.st.ri
  let c1 := c.upd (State.setRi fun ri => { ri with run := v })
  match v, ri.link with
  | true, .detached =>
    (c1.upd (State.setRi fun ri => { ri with link := .attaching })).upd (State.ask .hostFields)
  | true, _ => c1
  | false, .detached => c1
  | false, .attaching => c1.upd (State.setRi fun ri => { ri with link := .detached, accesses := leftInFlight ri.accesses })
  | false, .attached => leaveAttached (leftInFlight ri.accesses) (c1.upd (State.setRi fun ri => { ri with link := .detached }))
  | false, .fault =>
    let c2 := c1.upd (State.setRi fun ri => { ri with link := .detached })
    if c.st.running then c2.upd State.updateTrouble else c2

/-! ### Snapshots (R194) -/

/-- A snapshot's words stand in the region. -/
def snapshotWritten (offset : Nat) (words : List Word) (s : State) : State :=
  s.setRi fun ri => { ri with region := regionWrite ri.region offset (words.flatMap wordBytes) }

/-- The write of a snapshot has ended. -/
def snapshotDone (q : ReqHdr) (offset seq : Nat) (words : List Word) (s : State) : State :=
  (snapshotWritten offset words s).answer q .done [numWord seq]

/-! ### What is left in flight by a link that went down (R189) -/

/-- The access completes: a write's bytes are in the region, and its result is discarded. -/
def landed (a : Access) (s : State) : State :=
  match a with
  | .consumed _ off => markConsumed off s
  | .snapshot _ off _ words => snapshotWritten off words s
  | _ => s

end Sys2Proof.Machine
end

