-- ==== Sys2Proof/Machine/Run.lean ====
section
/-! DEFINITION. An event, whole and indivisible: the answers and calls it gives rise to are taken until none is left, the answers first
(log entry 19); and the three shapes of a command's effect: an event of the part in operation, a request, and the completion of a region
access. -/

namespace Sys2Proof.Machine
open Sys2Proof

/-- What a command comes to. -/
abbrev Result := Host.Outcome State Fault Refusal

/-- An answer reaches the block it is for. -/
def handleAns (a : Ans) (c : Ctx) : Ctx :=
  match a with
  | .zone (.bell n) z x => bellAnswer n z x c
  | .zone (.ann n) z x => annAnswer n z x c
  | .zone (.drill n) z x => drillAnswer n z x c
  | .zone .fire _ _ => c
  | .tx ln t o body => txAnswer ln t o body c

/-- A call of one block to another. -/
def doWork (w : Work) (c : Ctx) : Ctx :=
  match w with
  | .bellStart src zones p l df du => bellStart src zones p l df du c
  | .bellClaim n z => bellClaim n z c
  | .chime i g p l df du => chimeEntry i g p l df du c
  | .annClaim n z => annClaim n z c
  | .annCheck n => annCheck n c
  | .annEnd n r pass => annEnd n r pass c
  | .annGive n ch => annGive n ch c
  | .channelOffer ch => channelOffer ch c
  | .drillStart o n => drillStart o n c
  | .drillAsk a n => drillAsk a n c
  | .drillGive ch => drillGive ch c
  | .drillClaim z => drillClaim z c
  | .drillToneOn => drillToneOn c
  | .drillStarted => drillStarted c
  | .startAnswer q n => startAnswer q n c
  | .soundingEnd k => soundingEnd k c
  | .drillToneOff => drillToneOff c
  | .drillChannelBack => drillChannelBack c
  | .phaseNote p k => phaseNote p k c
  | .allClearBegin => allClearBegin c
  | .allClearClaim z p l => allClearClaim z p l c
  | .allClearCheck => allClearCheck c
  | .drillEnd r => drillEnd r c
  | .drillRelease => drillRelease c
  | .drillClose r => drillClose r c
  | .clearReport b src => clearReport b src c
  | .fireOn => fireSilence c
  | .due i e _ => dueEntry i e c
  | .dueStep i e now => dueEntryStep i e now c
  | .passOver e => passOver e c
  | .dayRoll d => dayRoll d c
  | .restOfStep now => restOfStep now c
  | .setMark now => setMark now c
  | .skipReport h now => skipReport h now c
  | .secondEvent now => secondEvent now c
  | .minuteEvent now => minuteEvent now c
  | .clockStep => circuitsStep c
  | .stepEvent now => stepEvent now c
  | .assignFlags ln a r => assignFlags ln a r c
  | .txClose ln t o n => closeTx ln t o n c

/-- One turn of an event: the oldest answer, or else the first call, whose own calls go before those behind it. -/
def turn (c : Ctx) : Option Ctx :=
  match c.ans, c.todo with
  | a :: rest, todo =>
    let c1 := handleAns a { c with ans := rest, todo := [] }
    some { c1 with todo := c1.todo ++ todo }
  | [], w :: rest =>
    let c1 := doWork w { c with todo := [] }
    some { c1 with todo := c1.todo ++ rest }
  | [], [] => none

/-- The turns of an event, until nothing is left. -/
def turns : Nat → Ctx → Ctx
  | 0, c => c
  | n + 1, c =>
    match turn c with
    | some c1 => turns n c1
    | none => c

/-- More turns than an event can take: 64 zones, 64 bells, 12 announcements and eight lines of 32 transactions answer a few times each. -/
def eventTurns : Nat := 1000000

/-- The state an event leaves. -/
def Ctx.close (c : Ctx) : State := (turns eventTurns c).st

/-- The event in which a request's outcome is known, or in which it acts, carries its tag. -/
def State.beginFor (tag : Word) (s : State) : Ctx := { s.begin with tag := tag }

/-- An event of a part in operation; at any other time it cannot come about and changes nothing (log entry 5). -/
def event (f : Ctx → Ctx) (s : State) : State := if s.running then (f s.begin).close else s

/-- An event that comes about only while a condition holds. -/
def eventWhen (p : Bool) (f : Ctx → Ctx) (s : State) : State := if p then event f s else s

/-- A request that reaches the part is taken and decided in one event (R192, R193; log entries 1 and 2). -/
def request (q : ReqHdr) (decision : Ctx → Ctx) (s : State) : State :=
  if s.reaches q then (decision ((s.takeSlot q).beginFor q.tag)).close else s

/-- The completion of the region access in flight, when it is the one named (R191; log entry 9); the result of one left behind by a link that
went down is discarded (R189). -/
def completion (p : Access → Bool) (f : Access → Ctx → Ctx) (s : State) : State :=
  match s.inFlight? with
  | some (.discarded a) => if p a then landed a s.completed else s
  | some a => if p a then (f a s.completed.begin).close else s
  | none => s

/-- The completion of a staged record's read. The event that ends a load carries its request's tag. -/
def recordDone (t : TableCode) (q : State → Option ReqHdr) (f : Ctx → Ctx) (s : State) : State :=
  completion (· == .record t) (fun _ c => f { c with tag := ((q s).map (·.tag)).getD 0 }) s

/-- R193: the block that owns a request's kind decides it. `decodeSlot` gives requests alone. -/
def decideRequest (i : Instr) (c : Ctx) : Ctx :=
  match i with
  | .setTime q day ms => decideSetTime q day ms c
  | .setTrim q v => decideSetTrim q v c
  | .setReference q m l w => decideSetReference q m l w c
  | .setDstRule q p => decideSetDst q p c
  | .loadTableProfiles q n o => decideLoadProfiles q n o c
  | .loadTableCalendar q n o => decideLoadCalendar q n o c
  | .loadTableZones q n o => decideLoadZones q n o c
  | .loadTableGroups q n o => decideLoadGroups q n o c
  | .loadTablePatterns q n o => decideLoadPatterns q n o c
  | .loadTableChannels q n o => decideLoadChannels q n o c
  | .loadTableDrills q n o => decideLoadDrills q n o c
  | .loadTableCircuits q n o t => decideLoadCircuits q n o t c
  | .loadTableLines q n o => decideLoadLines q n o c
  | .loadTableMembers q n o => decideLoadMembers q n o c
  | .loadTableIo q o => decideLoadIo q o c
  | .switchSchedule q o n w ch d => decideSwitch q o n w ch d c
  | .setFlags q m1 m2 => decideSetFlags q m1 m2 c
  | .setTodayProfile q p => decideTodayProfile q p c
  | .ring q p => decideRing q p c
  | .announce q p => decideAnnounce q p c
  | .endAnnouncement q n => decideEndAnnouncement q n c
  | .startDrill q n => decideStartDrill q n c
  | .stopSounding q => decideStopSounding q c
  | .allClear q => decideAllClear q c
  | .endDrill q => decideEndDrill q c
  | .resumeAfterAlarm q => decideResume q c
  | .setDial q i pos pol => decideSetDial q i pos pol c
  | .enumerateLine q ln => decideEnumerate q ln c
  | .renumberLine q ln => decideRenumber q ln c
  | .setNode q ln a act => decideSetNode q ln a act c
  | .clearFaultsLine q ln => decideClearLine q ln c
  | .clearFaultsCircuit q i => decideClearCircuit q i c
  | .driveOutput q o act d => decideDrive q o act d c
  | .readStatusTime q o => readStatus q 256 o snapTime c
  | .readStatusZones q o => readStatus q 8192 o snapZones c
  | .readStatusLine q ln o => decideReadLine q ln o c
  | .readStatusCircuits q o => readStatus q 512 o snapCircuits c
  | .readStatusChannels q o => readStatus q 1024 o snapChannels c
  | .readStatusDrill q o => readStatus q 512 o snapDrill c
  | _ => c

/-- R193: the slot's request is decided, or refused before any block sees it. -/
def decideSlot (q : ReqHdr) (r : SlotRequest) (c : Ctx) : Ctx :=
  match r with
  | .request i => decideRequest i c
  | .badKind => c.upd (State.refuse q .badKind)
  | .badParameter => c.upd (State.refuse q .badParameter)

/-- The slot state POSTED (section 11.6). -/
def postedCode : Nat := 1

/-- R192: slot `n` of a scan has been read. -/
def slotDone (n : Nat) (d : List Byte) (c : Ctx) : Ctx :=
  let q := slotHdr n d
  let c1 :=
    if byteAt d 0 = postedCode && !c.st.ri.taken.any (fun t => t.q.slot == n) then
      decideSlot q (decodeSlot n d) { c.upd (State.takeSlot q) with tag := q.tag }
    else c
  c1.upd (nextSlot n)

end Sys2Proof.Machine
end

