-- ==== Sys2Proof/Machine/Accesses.lean ====
section
/-! DEFINITION. The meanings of the completions of region accesses: host fields, slots, read mark, snapshots and bus errors (chapter 11), staged
records (R28 to R180), audio blocks (R116 to R118). Each takes effect when it ends the access in flight (R191; log entry 9). -/

namespace Sys2Proof.Machine
open Sys2Proof

/-- The read of the control block's host fields completes (R188). -/
def execHostFieldsRead (layout mark notify : Nat) (s : State) : Result :=
  .next (completion (· == .hostFields) (fun _ => hostFields layout mark notify) s)

def isSlot : Access → Bool
  | .slot _ => true
  | _ => false

/-- A slot's read completes during a scan (R192, R193). -/
def execSlotRead (data : List Byte) (s : State) : Result :=
  .next (completion isSlot (fun a c =>
    match a with
    | .slot n => slotDone n data c
    | _ => c) s)

def isReadMark : Access → Bool
  | .readMark _ => true
  | _ => false

/-- The read of the host read mark and the notify categories completes (R196); a scan then reads slot 0 (R192). -/
def execReadMarkRead (mark notify : Nat) (s : State) : Result :=
  .next (completion isReadMark (fun a c =>
    let c1 := (c.upd (acceptMark mark notify)).upd (State.drain drainSteps)
    if a = .readMark true then c1.upd (State.ask (.slot 0)) else c1) s)

def isSnapshot : Access → Bool
  | .snapshot _ _ _ _ => true
  | _ => false

/-- The last write of a snapshot completes (R194). -/
def execSnapshotWriteDone (s : State) : Result :=
  .next (completion isSnapshot (fun a c =>
    match a with
    | .snapshot q offset seq words => c.upd (snapshotDone q offset seq words)
    | _ => c) s)

/-- A region access ends in a bus error (R188, R189); the layout version read is 3 while ATTACHED (log entry 44). The error of an access left
behind by a link that went down is discarded with its result. -/
def execRegionAccessBusError (offset : Nat) (s : State) : Result :=
  .next (match s.inFlight? with
    | some (.discarded _) => s.completed
    | _ => eventWhen (s.ri.link = .attached || s.ri.link = .attaching)
      (enterLinkFault faultBus offset (if s.attached then some Config.layoutVersion else none)) s)

/-! ### Staged records -/

/-- A staged profile (R28). -/
def execProfileRecordRead (data : List Byte) (s : State) : Result :=
  .next (recordDone .profiles (fun s => s.dp.profileLoad.map (·.q)) (profileRead data) s)

/-- A staged calendar span (R30). -/
def execCalendarSpanRead (data : List Byte) (s : State) : Result :=
  .next (recordDone .calendar (fun s => s.dp.calendarLoad.map (·.q)) (calendarRead data) s)

/-- A staged zone record (R61). -/
def execZoneRecordRead (data : List Byte) (s : State) : Result :=
  .next (recordDone .zones (fun s => s.za.zoneLoad.map (·.q)) (zoneRead data) s)

/-- A staged group (R62). -/
def execGroupRecordRead (data : List Byte) (s : State) : Result :=
  .next (recordDone .groups (fun s => s.za.groupLoad.map (·.q)) (groupRead data) s)

/-- A staged pattern (R85, R86). -/
def execPatternRecordRead (data : List Byte) (s : State) : Result :=
  .next (recordDone .patterns (fun s => s.pu.load.map (·.q)) (patternRead data) s)

/-- A staged channel record (R101). -/
def execChannelRecordRead (data : List Byte) (s : State) : Result :=
  .next (recordDone .channels (fun s => s.au.load.map (·.q)) (channelRead data) s)

/-- A staged drill record (R126). -/
def execDrillRecordRead (data : List Byte) (s : State) : Result :=
  .next (recordDone .drills (fun s => s.dc.load.map (·.q)) (drillRead data) s)

/-- A staged circuit record (R143). -/
def execCircuitRecordRead (data : List Byte) (s : State) : Result :=
  .next (recordDone .circuits (fun s => s.cu.load.map (·.load.q)) (circuitRead data) s)

/-- A staged line record (R154). `paths` are the first readings of the lines the load enables (R155). -/
def execLineRecordRead (data : List Byte) (paths : List PathPair) (s : State) : Result :=
  .next (recordDone .lines (fun s => s.lc.lineLoad.map (·.q)) (lineRead paths data) s)

/-- A staged member entry (R171). -/
def execMemberEntryRead (data : List Byte) (s : State) : Result :=
  .next (recordDone .members (fun s => s.lc.memberLoad.map (·.q)) (memberRead data) s)

/-- The header or a record of a staged IO table (R180). -/
def execIoRecordRead (data : List Byte) (s : State) : Result :=
  .next (recordDone .io (fun s => s.io.load.map (·.q)) (ioRead data) s)

/-- A staged schedule entry (R43 to R45). -/
def execScheduleEntryRead (data : List Byte) (s : State) : Result :=
  .next (completion (· == .scheduleEntry) (fun _ c =>
    entryRead data { c with tag := (s.se.switch.map (·.load.q.tag)).getD 0 }) s)

/-! ### Audio blocks -/

/-- What the completion of an announcement's access does, while its record is there. -/
def forAnn (id : Nat) (f : Nat → Ctx → Ctx) (c : Ctx) : Ctx :=
  match c.st.annById? id with
  | some a => f a.num c
  | none => c

def isHeader : Access → Bool
  | .header _ => true
  | _ => false

/-- An audio block header's read (R116). -/
def execHeaderRead (data : List Byte) (s : State) : Result :=
  .next (completion isHeader (fun a c =>
    match a with
    | .header id => forAnn id (fun n => headerDone n data) c
    | _ => c) s)

def isReread : Access → Bool
  | .reread _ => true
  | _ => false

/-- A re-read of an exhausted block's header (R118, R119). -/
def execHeaderReread (data : List Byte) (s : State) : Result :=
  .next (completion isReread (fun a c =>
    match a with
    | .reread id => forAnn id (fun n => rereadDone n data) c
    | _ => c) s)

def isFetch : Access → Bool
  | .fetch _ _ => true
  | _ => false

/-- A sample fetch (R117, R118). -/
def execFetchComplete (samples : List Sample) (s : State) : Result :=
  .next (completion isFetch (fun a c =>
    match a with
    | .fetch id _ => forAnn id (fun n => fetchDone n samples) c
    | _ => c) s)

def isConsumed : Access → Bool
  | .consumed _ _ => true
  | _ => false

/-- The CONSUMED write into a block's header (R118, R114). -/
def execConsumedWriteDone (s : State) : Result :=
  .next (completion isConsumed (fun a c =>
    match a with
    | .consumed id off => forAnn id (fun n => consumedDone n) (c.upd (markConsumed off))
    | _ => c) s)

end Sys2Proof.Machine
end

