-- ==== Sys2Proof/Machine/LineEvents.lean ====
section
/-! DEFINITION. The meanings of the events of the field lines (R155 to R168, R173). -/

namespace Sys2Proof.Machine
open Sys2Proof

/-- R163, R164: the sending of the frame in flight ends. -/
def frameSent (ln : Nat) (c : Ctx) : Ctx :=
  let l := c.st.line ln
  match l.inFlight with
  | some f =>
    if f.timeoutAt.isSome then c
    else if f.tx.kind.broadcast then completeTx ln f .done none c
    else c.upd (State.setLine ln fun l => { l with
      inFlight := some { f with timeoutAt := some (c.st.elapsed + f.timeout) } })
  | none => c

/-- A frame's sending ends (R163, R164). -/
def execFrameSent (line : Nat) (s : State) : Result := .next (event (frameSent line) s)

/-- R164: the path on which a valid reply came is its node's preferred path. -/
def preferPath (ln : Nat) (f : InFlight) (c : Ctx) : Ctx :=
  match f.tx.addr? with
  | some a => if f.tx.stale then c else c.upd (State.setNode ln a fun n => { n with pref := f.path })
  | none => c

/-- The calls for the flags of an ASSIGN's reply (log entry 38). -/
def assignCalls (ln : Nat) (f : InFlight) (r : Reply) : List Work :=
  match f.tx.kind with
  | .assign a => if r.refused then [] else [.assignFlags ln a r]
  | _ => []

/-- R157, R164, R165: a reply ends the attempt in flight. -/
def replyReceived (ln : Nat) (r : Reply) (c : Ctx) : Ctx :=
  match (c.st.line ln).inFlight with
  | some f =>
    if f.timeoutAt.isSome then
      if validReply f.tx r then
        completeTx ln f (if r.refused then .nodeReject else .done) (some r) ((preferPath ln f c).call (assignCalls ln f r))
      else nextAttempt ln f .badReply c
    else c
  | none => c

/-- A reply frame arrives for the attempt in flight (R157). -/
def execReplyReceived (line : Nat) (reply : Reply) (s : State) : Result := .next (event (replyReceived line reply) s)

/-- R164, R155: the response timeout expires; the attempt's path is read. -/
def attemptTimeout (ln : Nat) (r : PathCond) (c : Ctx) : Ctx :=
  match (c.st.line ln).inFlight with
  | some f =>
    if f.timeoutAt.any (· ≤ c.st.elapsed) then nextAttempt ln f .noReply (readPath ln f.path r c) else c
  | none => c

/-- The response timeout expires without a reply (R164). -/
def execAttemptTimeout (line : Nat) (reading : PathCond) (s : State) : Result :=
  .next (event (attemptTimeout line reading) s)

/-- R168, R162: a node's BUSY hold ends and selection is made again. -/
def busyHoldEnd (ln a : Nat) (c : Ctx) : Ctx :=
  match ((c.st.line ln).node? a).bind (·.busyUntil) with
  | some t =>
    if t ≤ c.st.elapsed then
      settleLine ln settleSteps (c.upd (State.setNode ln a fun n => { n with busyUntil := none }))
    else c
  | none => c

/-- A node's BUSY hold ends (R168). -/
def execBusyHoldEnd (line addr : Nat) (s : State) : Result := .next (event (busyHoldEnd line addr) s)

/-- R173: a cycle is due: the line is enabled, no cycle runs, and the last start's period has passed since it (R154). -/
def cycleDue (s : State) (ln : Nat) : Bool :=
  let l := s.line ln
  l.cfg.enabled && !l.cycle.running && l.cycle.lastStart.all fun t => t + 1000 * l.cycle.period ≤ s.elapsed

/-- A supervision cycle starts: both paths are read, then the nodes are polled (R155, R173). -/
def execSupervisionCycleStart (line : Nat) (readings : PathPair) (s : State) : Result :=
  .next (eventWhen (cycleDue s line) (fun c => cycleBegins line (readPaths line readings c)) s)

end Sys2Proof.Machine
end

