-- ==== Sys2Proof/Machine/Registers.lean ====
section
/-! DEFINITION. The meanings of the writes to the part's registers (section 11.2, R187 to R189, R184). A register is written while the main
supply is present (log entry 27). -/

namespace Sys2Proof.Machine
open Sys2Proof

/-- A register write reaches RI while the main supply is present. -/
def registerWrite (f : RegionIf → RegionIf) (s : State) : State := if s.supply.main then s.setRi f else s

/-- A write of CONTROL's RUN (R187 to R189). -/
def execRun (v : Bool) (s : State) : Result := .next (if s.supply.main then (writeRun v s.begin).close else s)

/-- A write of CONTROL's INT ENABLE (R187). -/
def execIntEnable (v : Bool) (s : State) : Result := .next (registerWrite (fun ri => { ri with intEnable := v }) s)

/-- RESTART: a retained start, unless a start is under way (R184). `paths` are what the lines will read first, as settling ends (R177). -/
def execRestart (paths : List PathPair) (s : State) : Result := .next (event (beginRetained paths) s)

/-- FACTORY CLEAR: a cold start, accepted while the link is DETACHED (R184). -/
def execFactoryClear (s : State) : Result :=
  .next (eventWhen (s.ri.link = .detached) (fun c => c.upd State.coldAgain) s)

/-- A write to REGION BASE, taken while the link is DETACHED (R187). -/
def execRegionBase (w : Word) (s : State) : Result :=
  .next (registerWrite (fun ri => if ri.link = .detached then { ri with base := (w >>> 20).setWidth 12 } else ri) s)

/-- A write to ATTENTION: any value calls for a slot scan while the link is ATTACHED (R187, R192). -/
def execAttention (_w : Word) (s : State) : Result :=
  .next (eventWhen s.attached (fun c => c.upd callScan) s)

/-- A write to CAUSE (R187). -/
def execCause (w : Word) (s : State) : Result :=
  .next (registerWrite (fun ri => { ri with cause := clearCauses ri.cause (w.setWidth 4) }) s)

/-- A write to CAUSE ENABLE (R187). -/
def execCauseEnable (w : Word) (s : State) : Result :=
  .next (registerWrite (fun ri => { ri with causeEnable := w.setWidth 4 }) s)

/-- A write to a register with no behaviour of its own changes nothing (R187). -/
def execRegisterWriteOther (_offset : Nat) (_w : Word) (s : State) : Result := .next s

end Sys2Proof.Machine
end

