-- ==== Sys2Proof/Machine/RequestCommands.lean ====
section
/-! DEFINITION. The meanings of the requests (section 11.4): each is taken and decided by the rule its chapter gives. -/

namespace Sys2Proof.Machine
open Sys2Proof

/-- SET TIME (R15 to R18). -/
def execSetTime (q : ReqHdr) (day ms : Nat) (s : State) : Result := .next (request q (decideSetTime q day ms) s)

/-- SET TRIM (R19). -/
def execSetTrim (q : ReqHdr) (trim : Int) (s : State) : Result := .next (request q (decideSetTrim q trim) s)

/-- SET REFERENCE (R20). -/
def execSetReference (q : ReqHdr) (mode loss slew : Nat) (s : State) : Result := .next (request q (decideSetReference q mode loss slew) s)

/-- SET DST RULE (R21). -/
def execSetDstRule (q : ReqHdr) (p : DstParams) (s : State) : Result := .next (request q (decideSetDst q p) s)

/-- LOAD TABLE PROFILES (R28). -/
def execLoadTableProfiles (q : ReqHdr) (count offset : Nat) (s : State) : Result := .next (request q (decideLoadProfiles q count offset) s)

/-- LOAD TABLE CALENDAR (R30). -/
def execLoadTableCalendar (q : ReqHdr) (count offset : Nat) (s : State) : Result := .next (request q (decideLoadCalendar q count offset) s)

/-- LOAD TABLE ZONES (R61). -/
def execLoadTableZones (q : ReqHdr) (count offset : Nat) (s : State) : Result := .next (request q (decideLoadZones q count offset) s)

/-- LOAD TABLE GROUPS (R62). -/
def execLoadTableGroups (q : ReqHdr) (count offset : Nat) (s : State) : Result := .next (request q (decideLoadGroups q count offset) s)

/-- LOAD TABLE PATTERNS (R85). -/
def execLoadTablePatterns (q : ReqHdr) (count offset : Nat) (s : State) : Result := .next (request q (decideLoadPatterns q count offset) s)

/-- LOAD TABLE CHANNELS (R101). -/
def execLoadTableChannels (q : ReqHdr) (count offset : Nat) (s : State) : Result := .next (request q (decideLoadChannels q count offset) s)

/-- LOAD TABLE DRILLS (R126). -/
def execLoadTableDrills (q : ReqHdr) (count offset : Nat) (s : State) : Result := .next (request q (decideLoadDrills q count offset) s)

/-- LOAD TABLE CIRCUITS (R143). -/
def execLoadTableCircuits (q : ReqHdr) (count offset tolerance : Nat) (s : State) : Result := .next (request q (decideLoadCircuits q count offset tolerance) s)

/-- LOAD TABLE LINES (R154). -/
def execLoadTableLines (q : ReqHdr) (count offset : Nat) (s : State) : Result := .next (request q (decideLoadLines q count offset) s)

/-- LOAD TABLE MEMBERS (R171). -/
def execLoadTableMembers (q : ReqHdr) (count offset : Nat) (s : State) : Result := .next (request q (decideLoadMembers q count offset) s)

/-- LOAD TABLE IO (R180). -/
def execLoadTableIo (q : ReqHdr) (offset : Nat) (s : State) : Result := .next (request q (decideLoadIo q offset) s)

/-- SWITCH SCHEDULE (R42). -/
def execSwitchSchedule (q : ReqHdr) (offset count window choice day : Nat) (s : State) : Result := .next (request q (decideSwitch q offset count window choice day) s)

/-- SET FLAGS (R34). -/
def execSetFlags (q : ReqHdr) (m1 m2 : Set8) (s : State) : Result := .next (request q (decideSetFlags q m1 m2) s)

/-- SET TODAY PROFILE (R32). -/
def execSetTodayProfile (q : ReqHdr) (profile : Nat) (s : State) : Result := .next (request q (decideTodayProfile q profile) s)

/-- RING (R89). -/
def execRing (q : ReqHdr) (p : RingParams) (s : State) : Result := .next (request q (decideRing q p) s)

/-- ANNOUNCE (R106). -/
def execAnnounce (q : ReqHdr) (p : AnnounceParams) (s : State) : Result := .next (request q (decideAnnounce q p) s)

/-- END ANNOUNCEMENT (R108). -/
def execEndAnnouncement (q : ReqHdr) (number : Nat) (s : State) : Result := .next (request q (decideEndAnnouncement q number) s)

/-- START DRILL (R127, R128). -/
def execStartDrill (q : ReqHdr) (drill : Nat) (s : State) : Result := .next (request q (decideStartDrill q drill) s)

/-- STOP SOUNDING (R131). -/
def execStopSounding (q : ReqHdr) (s : State) : Result := .next (request q (decideStopSounding q) s)

/-- ALL CLEAR (R134). -/
def execAllClear (q : ReqHdr) (s : State) : Result := .next (request q (decideAllClear q) s)

/-- END DRILL (R136). -/
def execEndDrill (q : ReqHdr) (s : State) : Result := .next (request q (decideEndDrill q) s)

/-- RESUME AFTER ALARM (R139, R80). -/
def execResumeAfterAlarm (q : ReqHdr) (s : State) : Result := .next (request q (decideResume q) s)

/-- SET DIAL (R148). -/
def execSetDial (q : ReqHdr) (circuit position polarity : Nat) (s : State) : Result := .next (request q (decideSetDial q circuit position polarity) s)

/-- ENUMERATE LINE (R174). -/
def execEnumerateLine (q : ReqHdr) (line : Nat) (s : State) : Result := .next (request q (decideEnumerate q line) s)

/-- RENUMBER LINE (R175). -/
def execRenumberLine (q : ReqHdr) (line : Nat) (s : State) : Result := .next (request q (decideRenumber q line) s)

/-- SET NODE (R172). -/
def execSetNode (q : ReqHdr) (line addr action : Nat) (s : State) : Result := .next (request q (decideSetNode q line addr action) s)

/-- CLEAR FAULTS for a line (R172). -/
def execClearFaultsLine (q : ReqHdr) (line : Nat) (s : State) : Result := .next (request q (decideClearLine q line) s)

/-- CLEAR FAULTS for a circuit (R147). -/
def execClearFaultsCircuit (q : ReqHdr) (circuit : Nat) (s : State) : Result := .next (request q (decideClearCircuit q circuit) s)

/-- DRIVE OUTPUT (R182). -/
def execDriveOutput (q : ReqHdr) (output action duration : Nat) (s : State) : Result := .next (request q (decideDrive q output action duration) s)

/-- READ STATUS TIME (R194). -/
def execReadStatusTime (q : ReqHdr) (offset : Nat) (s : State) : Result := .next (request q (readStatus q 256 offset snapTime) s)

/-- READ STATUS ZONES (R194). -/
def execReadStatusZones (q : ReqHdr) (offset : Nat) (s : State) : Result := .next (request q (readStatus q 8192 offset snapZones) s)

/-- READ STATUS LINE (R194). -/
def execReadStatusLine (q : ReqHdr) (line offset : Nat) (s : State) : Result := .next (request q (decideReadLine q line offset) s)

/-- READ STATUS CIRCUITS (R194). -/
def execReadStatusCircuits (q : ReqHdr) (offset : Nat) (s : State) : Result := .next (request q (readStatus q 512 offset snapCircuits) s)

/-- READ STATUS CHANNELS (R194). -/
def execReadStatusChannels (q : ReqHdr) (offset : Nat) (s : State) : Result := .next (request q (readStatus q 1024 offset snapChannels) s)

/-- READ STATUS DRILL (R194). -/
def execReadStatusDrill (q : ReqHdr) (offset : Nat) (s : State) : Result := .next (request q (readStatus q 512 offset snapDrill) s)

end Sys2Proof.Machine
end

