-- ==== Sys2Proof/Machine/Timers.lean ====
section
/-! DEFINITION. The meanings of the events of elapsed time: the link's (R190, R192, R196), the Time Base's (R5, R6, R9, R10, R13), those of
zones, cadences, announcements and drills, and the pulses of the impulse circuits. An event takes effect once its instant has been reached (log
entry 4). -/

namespace Sys2Proof.Machine
open Sys2Proof

/-! ### The link -/

/-- A second of the link has passed since a moment. -/
def secondPassed (s : State) (t : Nat) : Bool := s.attached && t + 1000 ≤ s.elapsed

/-- Each elapsed second calls for a slot scan (R192). -/
def execSlotScanSecond (s : State) : Result :=
  .next (eventWhen (secondPassed s s.ri.scanAt) (fun c =>
    c.upd fun s => callScan (s.setRi fun ri => { ri with scanAt := ri.scanAt + 1000 })) s)

/-- Every 100 ms from the attach, with the hold buffer not empty, the read mark is read (R196; log entry 28). -/
def execReadMarkPoll (s : State) : Result :=
  .next (eventWhen (s.attached && s.ri.pollAt + 100 ≤ s.elapsed && !s.ri.hold.isEmpty) (fun c =>
    c.upd fun s => (s.setRi fun ri => { ri with
      pollAt := ri.pollAt + (s.elapsed - ri.pollAt) / 100 * 100 }).ask (.readMark false)) s)

/-- Each elapsed second the control block's fields are written (R190). -/
def execControlBlockSecond (s : State) : Result :=
  .next (eventWhen (secondPassed s s.ri.blockAt) (fun c =>
    c.upd fun s => (s.setRi fun ri => { ri with blockAt := ri.blockAt + 1000 }).mirrorAll) s)

/-! ### The Time Base -/

/-- A nominal millisecond of a part that is not in operation: campus time counts with the trim through settling (R185) and,
while the backup supply holds, through an outage (R26, R184); elapsed time counts from the beginning of settling. -/
def idleTick (s : State) : State :=
  if s.supply.main then { s.setTb countCampus with elapsed := s.elapsed + 1 }
  else if s.supply.backupHeld then s.setTb countCampus else s

/-- One nominal millisecond (R5 to R8, R23, R24, R48, R53; log entry 6). -/
def execTimeAdvance (s : State) : Result := .next (if s.running then event tick s else idleTick s)

/-- The nominal millisecond in which a slew step is due (R6; log entry 6). -/
def execSlewStep (s : State) : Result := .next (eventWhen s.tb.stepDue tick s)

/-- An edge of K0 from open to closed under REFERENCE (R9, R10; log entry 32). -/
def execReferencePulse (s : State) : Result :=
  .next (eventWhen (s.io.inFunc 0 = .reference && Reading.counted (s.input 0).reading = .opened) (takeReading 0 .closed) s)

/-- The loss timer reaches the loss limit (R13). -/
def execReferenceLost (s : State) : Result := .next (eventWhen s.tb.lossDue referenceLost s)

/-- 3,600,050 ms have passed since the last valid pulse (R9). -/
def execLastValidPulseExpiry (s : State) : Result :=
  .next (eventWhen (s.tb.lastPulse.any fun p => p + pulseExpiry ≤ s.elapsed)
    (fun c => c.upd (State.setTb fun tb => { tb with lastPulse := none })) s)

/-! ### Zones and cadences -/

/-- A waiting claim's wait limit is reached (R69). -/
def execWaitLimitExpiry (zone : Nat) (who : Claimant) (s : State) : Result := .next (event (expireClaim zone who) s)

/-- A chime's cadence step on its channel's tone generator (R95, R111). -/
def chimeStep (n : Nat) (c : Ctx) : Ctx :=
  annTimer n (fun _ a => a.st = .chime) (fun a c =>
    match (chimeRun c.st a).bind (fun r => (CadRun.now c.st r).map fun k => (r, k)), a.channel with
    | some (r, k), some ch => c.upd (State.setChannel ch fun x => { x with tone := toneFor c.st r.pattern k })
    | _, _ => c) c

/-- A cadence reaches the start of an ON or OFF time (R84, R90, R95, R104, R129, R134). -/
def execCadenceStep (r : CadenceRef) (s : State) : Result :=
  .next (event (match r with
    | .bell n z => bellStep n z
    | .chime n => chimeStep n
    | .drillZone z => drillZoneStep z
    | .drillTone => drillToneStep) s)

/-- A bell zone's cadence reaches its length (R90). -/
def execBellCadenceEnd (bell zone : Nat) (s : State) : Result := .next (event (bellFinish bell zone) s)

/-- A chime's cadence reaches its length (R111). -/
def execChimeEnd (n : Nat) (s : State) : Result :=
  .next (event (annTimer n
    (fun s a => a.st = .chime && (chimeRun s a).any fun r => r.start + r.length ≤ s.elapsed)
    (fun a c => if a.source = .toneOnly then annEnd n .complete false c else enterPlaying n c)) s)

/-- A drill zone's cadence of pattern 31 reaches its length (R129). -/
def execDrillZoneCadenceEnd (zone : Nat) (s : State) : Result := .next (event (drillZoneEnd zone .sounding) s)

/-- An all-clear cadence reaches its length (R134). -/
def execAllClearCadenceEnd (zone : Nat) (s : State) : Result := .next (event (drillZoneEnd zone .allClear) s)

/-! ### Announcements -/

/-- The 2 s routing timer expires (R110). -/
def execRoutingTimer (n : Nat) (s : State) : Result :=
  .next (event (annTimer n (fun s a => a.st = .routing && a.routingAt + 2000 ≤ s.elapsed) (fun _ => leaveRouting n)) s)

/-- The time played reaches the maximum duration (R109). -/
def execMaxDurationReached (n : Nat) (s : State) : Result :=
  .next (event (annTimer n (fun _ a => (a.st = .chime || a.st = .playing) && 1000 * a.maxDur ≤ a.timePlayed)
    (fun _ => annEnd n .maxTime false)) s)

/-- A waiting announcement reaches its maximum duration (R103). -/
def execWaitingMaxDuration (n : Nat) (s : State) : Result :=
  .next (event (annTimer n (fun s a => a.st = .waiting && a.takenAt + 1000 * a.maxDur ≤ s.elapsed)
    (fun _ => annEnd n .maxTime false)) s)

/-- A HELD announcement reaches its resume deadline (R112, R113). -/
def execResumeDeadline (n : Nat) (s : State) : Result :=
  .next (event (annTimer n (fun s a => a.st = .held && a.heldAt + 1000 * a.resume ≤ s.elapsed)
    (fun _ => annEnd n .preempted false)) s)

/-- The next 100 ms of an awaiting announcement have passed (R119). -/
def execAwaitingRereadTimer (n : Nat) (s : State) : Result := .next (event (awaitTimer n) s)

/-- A channel plays one millisecond of its FIFO; `live` is what its live input gives (R120, R122; log entry 30). -/
def execSamplesPlayed (channel : Nat) (live : List Sample) (s : State) : Result :=
  .next (event (playChannel channel live) s)

/-- The starve timer reaches the starve limit (R120). -/
def execStarveLimit (channel : Nat) (s : State) : Result :=
  .next (event (fun c =>
    let k := c.st.channel channel
    match k.owner with
    | some (.ann n) =>
      annTimer n (fun s a => a.st = .playing && k.starveFrom.any fun t => t + k.cfg.starveLimit ≤ s.elapsed)
        (fun _ => annEnd n .starved false) c
    | _ => c) s)

/-- The 10 s no-talk timer expires (R122). -/
def execNoTalk (n : Nat) (s : State) : Result :=
  .next (event (annTimer n
    (fun s a => a.st ≠ .ending && a.talk = some .beforeTalk && a.noTalkAt.any fun t => t ≤ s.elapsed)
    (fun _ => annEnd n .noTalk false)) s)

/-- The live tail runs out (R122). -/
def execLiveTailEnd (n : Nat) (s : State) : Result :=
  .next (event (annTimer n
    (fun s a => a.st ≠ .ending && a.talk = some .tail && a.tailEnd.any fun t => t ≤ s.elapsed) (fun _ => endTalk n)) s)

/-! ### Drills -/

/-- The sounding time is reached (R130). -/
def execSoundingTimeReached (s : State) : Result :=
  .next (eventWhen (s.dc.active.any fun d => d.phase = .sounding && d.start + 1000 * d.record.sounding ≤ s.elapsed)
    (soundingEnd .time) s)

/-- The evacuation target is reached (R133). -/
def execEvacuationTargetReached (s : State) : Result :=
  .next (eventWhen (s.dc.active.any fun d => !d.targetReached && d.start + 1000 * d.record.target ≤ s.elapsed) targetReached s)

/-! ### Impulse circuits -/

/-- A circuit's next pulse instant is reached (R146). -/
def execPulseStart (circuit : Nat) (s : State) : Result := .next (event (pulseStart circuit) s)

/-- A pulse's width ends; `current` is whether load current was detected (R146 to R148). -/
def execPulseComplete (circuit : Nat) (current : Bool) (s : State) : Result :=
  .next (event (pulseComplete circuit current) s)

end Sys2Proof.Machine
end

