-- ==== Sys2Proof/Machine/Wiring.lean ====
section
/-! DEFINITION. The meanings of the events of the campus wiring and of the supply (R178 to R186). -/

namespace Sys2Proof.Machine
open Sys2Proof

/-- A PLAIN output's release instant is reached (R182). -/
def execPlainDriveRelease (output : Nat) (s : State) : Result :=
  .next (eventWhen ((s.output output).releaseAt.any fun t => t ≤ s.elapsed)
    (fun c => c.upd (State.setOutput output fun o => { o with driven := false, releaseAt := none })) s)

/-- An input's reading changes (R178). The wiring may change at any time, an outage and a start among them. -/
def execInputReadingChange (input : Nat) (reading : Reading) (s : State) : Result :=
  .next (if input < 12 && (s.input input).reading ≠ reading then (takeReading input reading s.begin).close else s)

/-- The part is settling with its main supply present (R185). -/
def State.settlingNow (s : State) : Bool := s.supply.main && s.supply.settling

/-- R185: an input other than K11 takes its first value while the part settles (log entry 26). -/
def State.takesFirstValue (s : State) (k : Nat) : Bool := s.settlingNow && k != 11 && (s.input k).value.isNone

/-- A reading has held for the input's debounce time (R178, R179, R185). -/
def execDebouncedValueChange (input : Nat) (s : State) : Result :=
  .next (if s.takesFirstValue input then (debounced input s.begin).close else event (debounced input) s)

/-- The main supply is lost (R184). -/
def execMainSupplyLoss (s : State) : Result :=
  .next (if s.supply.main then { s with supply := { s.supply with main := false, backupHeld := true, settling := false } } else s)

/-- The backup supply falls below its holding level during an outage (R184). -/
def execBackupSupplyDrop (s : State) : Result :=
  .next (if s.supply.main then s else { s with supply := { s.supply with backupHeld := false } })

/-- The main supply returns and a start is made (R184). `paths` are what the lines will read first, as settling ends (R177). -/
def execMainSupplyReturn (paths : List PathPair) (s : State) : Result :=
  .next (if s.supply.main then s
    else if s.supply.backupHeld then (beginRetained paths s.begin).close
    else s.coldAgain)

/-- K11's reading has held: settling ends (R185). -/
def execSettlingEnd (s : State) : Result :=
  .next (if s.settlingNow && settleHeld s then (firstEvaluation (s.input 11).reading s.begin).close else s)

/-- Settling ends after 10 s with K11 taken as CLOSED (R185). -/
def execSettlingTimeout (s : State) : Result :=
  .next (if s.settlingNow && settleExpired s then (firstEvaluation .closed s.begin).close else s)

end Sys2Proof.Machine
end

