-- ==== Sys2Proof/Machine/Dispatch.lean ====
section
/-! DEFINITION. What each command does: one arm for each row of spec/opcode_table.json. -/

namespace Sys2Proof.Machine
open Sys2Proof

def exec (i : Instr) (s : State) : Host.Outcome State Fault Refusal :=
  match i with
  | .run v => Sys2Proof.Machine.execRun v s
  | .intEnable v => Sys2Proof.Machine.execIntEnable v s
  | .restart paths => Sys2Proof.Machine.execRestart paths s
  | .factoryClear => Sys2Proof.Machine.execFactoryClear s
  | .regionBase w => Sys2Proof.Machine.execRegionBase w s
  | .attention w => Sys2Proof.Machine.execAttention w s
  | .cause w => Sys2Proof.Machine.execCause w s
  | .causeEnable w => Sys2Proof.Machine.execCauseEnable w s
  | .registerWriteOther offset w => Sys2Proof.Machine.execRegisterWriteOther offset w s
  | .setTime q day ms => Sys2Proof.Machine.execSetTime q day ms s
  | .setTrim q trim => Sys2Proof.Machine.execSetTrim q trim s
  | .setReference q mode loss slew => Sys2Proof.Machine.execSetReference q mode loss slew s
  | .setDstRule q p => Sys2Proof.Machine.execSetDstRule q p s
  | .loadTableProfiles q count offset => Sys2Proof.Machine.execLoadTableProfiles q count offset s
  | .loadTableCalendar q count offset => Sys2Proof.Machine.execLoadTableCalendar q count offset s
  | .loadTableZones q count offset => Sys2Proof.Machine.execLoadTableZones q count offset s
  | .loadTableGroups q count offset => Sys2Proof.Machine.execLoadTableGroups q count offset s
  | .loadTablePatterns q count offset => Sys2Proof.Machine.execLoadTablePatterns q count offset s
  | .loadTableChannels q count offset => Sys2Proof.Machine.execLoadTableChannels q count offset s
  | .loadTableDrills q count offset => Sys2Proof.Machine.execLoadTableDrills q count offset s
  | .loadTableCircuits q count offset tolerance => Sys2Proof.Machine.execLoadTableCircuits q count offset tolerance s
  | .loadTableLines q count offset => Sys2Proof.Machine.execLoadTableLines q count offset s
  | .loadTableMembers q count offset => Sys2Proof.Machine.execLoadTableMembers q count offset s
  | .loadTableIo q offset => Sys2Proof.Machine.execLoadTableIo q offset s
  | .switchSchedule q offset count window choice day => Sys2Proof.Machine.execSwitchSchedule q offset count window choice day s
  | .setFlags q m1 m2 => Sys2Proof.Machine.execSetFlags q m1 m2 s
  | .setTodayProfile q profile => Sys2Proof.Machine.execSetTodayProfile q profile s
  | .ring q p => Sys2Proof.Machine.execRing q p s
  | .announce q p => Sys2Proof.Machine.execAnnounce q p s
  | .endAnnouncement q number => Sys2Proof.Machine.execEndAnnouncement q number s
  | .startDrill q drill => Sys2Proof.Machine.execStartDrill q drill s
  | .stopSounding q => Sys2Proof.Machine.execStopSounding q s
  | .allClear q => Sys2Proof.Machine.execAllClear q s
  | .endDrill q => Sys2Proof.Machine.execEndDrill q s
  | .resumeAfterAlarm q => Sys2Proof.Machine.execResumeAfterAlarm q s
  | .setDial q circuit position polarity => Sys2Proof.Machine.execSetDial q circuit position polarity s
  | .enumerateLine q line => Sys2Proof.Machine.execEnumerateLine q line s
  | .renumberLine q line => Sys2Proof.Machine.execRenumberLine q line s
  | .setNode q line addr action => Sys2Proof.Machine.execSetNode q line addr action s
  | .clearFaultsLine q line => Sys2Proof.Machine.execClearFaultsLine q line s
  | .clearFaultsCircuit q circuit => Sys2Proof.Machine.execClearFaultsCircuit q circuit s
  | .driveOutput q output action duration => Sys2Proof.Machine.execDriveOutput q output action duration s
  | .readStatusTime q offset => Sys2Proof.Machine.execReadStatusTime q offset s
  | .readStatusZones q offset => Sys2Proof.Machine.execReadStatusZones q offset s
  | .readStatusLine q line offset => Sys2Proof.Machine.execReadStatusLine q line offset s
  | .readStatusCircuits q offset => Sys2Proof.Machine.execReadStatusCircuits q offset s
  | .readStatusChannels q offset => Sys2Proof.Machine.execReadStatusChannels q offset s
  | .readStatusDrill q offset => Sys2Proof.Machine.execReadStatusDrill q offset s
  | .hostFieldsRead layout mark notify => Sys2Proof.Machine.execHostFieldsRead layout mark notify s
  | .slotRead data => Sys2Proof.Machine.execSlotRead data s
  | .readMarkRead mark notify => Sys2Proof.Machine.execReadMarkRead mark notify s
  | .snapshotWriteDone => Sys2Proof.Machine.execSnapshotWriteDone s
  | .regionAccessBusError offset => Sys2Proof.Machine.execRegionAccessBusError offset s
  | .profileRecordRead data => Sys2Proof.Machine.execProfileRecordRead data s
  | .calendarSpanRead data => Sys2Proof.Machine.execCalendarSpanRead data s
  | .zoneRecordRead data => Sys2Proof.Machine.execZoneRecordRead data s
  | .groupRecordRead data => Sys2Proof.Machine.execGroupRecordRead data s
  | .patternRecordRead data => Sys2Proof.Machine.execPatternRecordRead data s
  | .channelRecordRead data => Sys2Proof.Machine.execChannelRecordRead data s
  | .drillRecordRead data => Sys2Proof.Machine.execDrillRecordRead data s
  | .circuitRecordRead data => Sys2Proof.Machine.execCircuitRecordRead data s
  | .lineRecordRead data paths => Sys2Proof.Machine.execLineRecordRead data paths s
  | .memberEntryRead data => Sys2Proof.Machine.execMemberEntryRead data s
  | .ioRecordRead data => Sys2Proof.Machine.execIoRecordRead data s
  | .scheduleEntryRead data => Sys2Proof.Machine.execScheduleEntryRead data s
  | .headerRead data => Sys2Proof.Machine.execHeaderRead data s
  | .headerReread data => Sys2Proof.Machine.execHeaderReread data s
  | .fetchComplete samples => Sys2Proof.Machine.execFetchComplete samples s
  | .consumedWriteDone => Sys2Proof.Machine.execConsumedWriteDone s
  | .slotScanSecond => Sys2Proof.Machine.execSlotScanSecond s
  | .readMarkPoll => Sys2Proof.Machine.execReadMarkPoll s
  | .controlBlockSecond => Sys2Proof.Machine.execControlBlockSecond s
  | .timeAdvance => Sys2Proof.Machine.execTimeAdvance s
  | .slewStep => Sys2Proof.Machine.execSlewStep s
  | .referencePulse => Sys2Proof.Machine.execReferencePulse s
  | .referenceLost => Sys2Proof.Machine.execReferenceLost s
  | .lastValidPulseExpiry => Sys2Proof.Machine.execLastValidPulseExpiry s
  | .waitLimitExpiry zone who => Sys2Proof.Machine.execWaitLimitExpiry zone who s
  | .cadenceStep c => Sys2Proof.Machine.execCadenceStep c s
  | .bellCadenceEnd bell zone => Sys2Proof.Machine.execBellCadenceEnd bell zone s
  | .chimeEnd ann => Sys2Proof.Machine.execChimeEnd ann s
  | .drillZoneCadenceEnd zone => Sys2Proof.Machine.execDrillZoneCadenceEnd zone s
  | .allClearCadenceEnd zone => Sys2Proof.Machine.execAllClearCadenceEnd zone s
  | .routingTimer ann => Sys2Proof.Machine.execRoutingTimer ann s
  | .maxDurationReached ann => Sys2Proof.Machine.execMaxDurationReached ann s
  | .waitingMaxDuration ann => Sys2Proof.Machine.execWaitingMaxDuration ann s
  | .resumeDeadline ann => Sys2Proof.Machine.execResumeDeadline ann s
  | .awaitingRereadTimer ann => Sys2Proof.Machine.execAwaitingRereadTimer ann s
  | .samplesPlayed channel live => Sys2Proof.Machine.execSamplesPlayed channel live s
  | .starveLimit channel => Sys2Proof.Machine.execStarveLimit channel s
  | .noTalk ann => Sys2Proof.Machine.execNoTalk ann s
  | .liveTailEnd ann => Sys2Proof.Machine.execLiveTailEnd ann s
  | .soundingTimeReached => Sys2Proof.Machine.execSoundingTimeReached s
  | .evacuationTargetReached => Sys2Proof.Machine.execEvacuationTargetReached s
  | .pulseStart circuit => Sys2Proof.Machine.execPulseStart circuit s
  | .pulseComplete circuit current => Sys2Proof.Machine.execPulseComplete circuit current s
  | .frameSent line => Sys2Proof.Machine.execFrameSent line s
  | .replyReceived line reply => Sys2Proof.Machine.execReplyReceived line reply s
  | .attemptTimeout line reading => Sys2Proof.Machine.execAttemptTimeout line reading s
  | .busyHoldEnd line addr => Sys2Proof.Machine.execBusyHoldEnd line addr s
  | .supervisionCycleStart line readings => Sys2Proof.Machine.execSupervisionCycleStart line readings s
  | .plainDriveRelease output => Sys2Proof.Machine.execPlainDriveRelease output s
  | .inputReadingChange input reading => Sys2Proof.Machine.execInputReadingChange input reading s
  | .debouncedValueChange input => Sys2Proof.Machine.execDebouncedValueChange input s
  | .mainSupplyLoss => Sys2Proof.Machine.execMainSupplyLoss s
  | .backupSupplyDrop => Sys2Proof.Machine.execBackupSupplyDrop s
  | .mainSupplyReturn paths => Sys2Proof.Machine.execMainSupplyReturn paths s
  | .settlingEnd => Sys2Proof.Machine.execSettlingEnd s
  | .settlingTimeout => Sys2Proof.Machine.execSettlingTimeout s

end Sys2Proof.Machine
end

