-- ==== Sys2Proof/Safety.lean ====
section
/-! DEFINITION. What the claims call safe: a part whose step answers a next state, and the standing conditions the manual states of the whole
part: the region's canonical form, the numbers of the log (R195, R196), the counts of the fixed things, and fire silence (R79, R80). -/

namespace Sys2Proof.Machine
open Sys2Proof

/-- A step answers a next state: no command of the manual stops the part. -/
def SafeStep (s : State) : Prop := ∃ t, step s = .next t

/-- The log's numbers lie in their ranges (section 11.1). -/
structure LogSound (ri : RegionIf) : Prop where
  writeIndex : ri.writeIndex < 256
  readMark : ri.readMark < 256
  nextSeq : ri.nextSeq < 0x100000000
  hold : ri.hold.length ≤ Config.holdCapacity
  lost : ri.lost ≤ 65535
  totalLost : ri.totalLost ≤ 0xFFFFFFFF

/-- The part has its 64 zones, 8 building feeds, 4 channels, 4 circuits, 8 lines, 12 inputs and 12 outputs (00_scope.md). -/
structure Counts (s : State) : Prop where
  zones : s.za.zones.length = 64
  feeds : s.za.feeds.length = 8
  channels : s.au.channels.length = 4
  circuits : s.cu.circuits.length = 4
  lines : s.lc.lines.length = 8
  inputs : s.io.inputs.length = 12
  outputs : s.io.outputs.length = 12

/-- A zone's standing under fire silence: fire silence holds it or nothing does, and nothing waits for it. -/
def ZoneDyn.silent (d : ZoneDyn) : Prop := (∀ h, d.holder = some h → h.who = .fire) ∧ d.waiters = []

/-- A zone that is OUT has no holder and no waiter (R63); while fire is reported to ZA, every zone is silent and no feed is held (R79). -/
structure FireSilence (s : State) : Prop where
  out : ∀ z, z < 64 → (s.zoneRec z).enabled = false → (s.zone z).holder = none ∧ (s.zone z).waiters = []
  silent : s.za.fireReported = true → ∀ z, z < 64 → (s.zone z).silent
  feeds : s.za.fireReported = true → ∀ b, s.za.feeds.getD b none = none

/-- The bytes of the region that records and mirrors may change: the part's fields of the control block, and the log (R190, R195). -/
def partArea (a : Nat) : Prop := (12 ≤ a ∧ a < 48) ∨ (0x1000 ≤ a ∧ a < 0x3000)

/-- A relay held released: the part has no main supply, or is settling (R184, R185). -/
def RelaysReleased (s : State) : Prop := ∀ q, s.energized q = false

/-- R56, R58, R59: H is set in every part in operation that has a campus time; a cold start's settling has none, since it began UNSET (R25). -/
structure HighWaterSet (s : State) : Prop where
  running : s.running = true → s.tb.campus ≠ none → s.se.mark ≠ none
  settling : s.supply.main = true → s.supply.settling = true → s.supply.kind = .cold → s.tb.campus = none

/-! ### What a decided request leaves -/

/-- The first byte of a request's slot (section 11.3). -/
def slotAt (q : ReqHdr) : Nat := Config.slotBase + 64 * q.slot

/-- The bytes of a slot that an outcome with so many result words writes: the state, the outcome, the words (section 11.6). -/
def answerBytes (q : ReqHdr) (words : Nat) (a : Nat) : Prop :=
  a = slotAt q ∨ a = slotAt q + 3 ∨ (slotAt q + 52 ≤ a ∧ a < slotAt q + 52 + 4 * words)

/-- The registers, the link and the clock stay as they are. -/
structure LinkKept (s t : State) : Prop where
  elapsed : t.elapsed = s.elapsed
  supply : t.supply = s.supply
  run : t.ri.run = s.ri.run
  intEnable : t.ri.intEnable = s.ri.intEnable
  base : t.ri.base = s.ri.base
  causeEnable : t.ri.causeEnable = s.ri.causeEnable
  link : t.ri.link = s.ri.link
  readMark : t.ri.readMark = s.ri.readMark
  notify : t.ri.notify = s.ri.notify
  scan : t.ri.scan = s.ri.scan

/-- A request is decided: its outcome and result words stand in its slot, the slot is not taken any more, SLOTS is set when the request
asks for it, and the region's other bytes stay, but for records and mirrors (R193, R195, R190). -/
structure Decided (q : ReqHdr) (o : Outcome) (ws : List Word) (s t : State) : Prop where
  slotState : regionRead t.ri.region (slotAt q) = some (BitVec.ofNat 8 o.slotState)
  outcome : regionRead t.ri.region (slotAt q + 3) = some (BitVec.ofNat 8 o.code)
  words : ∀ i, i < 4 * ws.length → regionRead t.ri.region (slotAt q + 52 + i) = (ws.flatMap wordBytes)[i]?
  outside : ∀ a, ¬ partArea a → ¬ answerBytes q ws.length a → regionRead t.ri.region a = regionRead s.ri.region a
  taken : t.ri.taken = s.ri.taken
  notice : q.notify = true → t.ri.cause.getLsbD 2 = true
  kept : LinkKept s t

/-- A load that may begin: a count of records that is not 0 and not above its limit, at an offset that is a multiple of 4, wholly in the free
area (R28). -/
def loadable (limit count offset size : Nat) : Prop :=
  1 ≤ count ∧ count ≤ limit ∧ offset % 4 = 0 ∧ 0x3000 ≤ offset ∧ offset + count * size ≤ 0x100000

/-- A staged table of a size at an offset that is a multiple of 4, wholly in the free area (R28). -/
def StagedAt (offset size : Nat) : Prop := offset % 4 = 0 ∧ 0x3000 ≤ offset ∧ offset + size ≤ 0x100000

/-- The pattern table is in use (R85). -/
def PatternsUsed (s : State) : Prop :=
  s.pu.bells ≠ []
  ∨ (∃ a p, a ∈ s.au.anns ∧ a.chime = some p ∧ p ≤ 30
      ∧ (a.st = .waiting ∨ a.st = .routing ∨ a.st = .chime ∨ (a.st = .held ∧ a.prior = .chime)))
  ∨ ∃ d e, s.dc.active = some d ∧ d.phase = .allClear ∧ e ∈ d.zones ∧ e.inAllClear = true ∧ e.ended = false

/-- The channels are in use (R101). -/
def ChannelsUsed (s : State) : Prop := s.au.anns ≠ [] ∨ ∃ k, k ∈ s.au.channels ∧ k.owner ≠ none

/-- A load with one more record, read from so many bytes. -/
def Load.grown {α : Type} (l : Load α) (size : Nat) (x : α) (clamped : Bool) : Load α :=
  { l with nextOff := l.nextOff + size, staged := l.staged ++ [x], clamped := l.clamped || clamped }

/-- A staged record as a load checks it: at fault, or one that is read as a value. -/
def Checked {α : Type} (fault : Prop) (x : α) (r : Option α) : Prop := (fault → r = none) ∧ (¬ fault → r = some x)

/-- A load whose next record is not its last. -/
def Load.midway {α : Type} (l : Load α) : Prop := l.staged.length + 1 < l.count

/-- A load whose next record is its last. -/
def Load.atLast {α : Type} (l : Load α) : Prop := l.staged.length + 1 = l.count

/-- A request that was taken earlier has its outcome: it stands in its slot with its words, the slot is not taken any more, and the region's
other bytes stay, but for records and mirrors (R193, R195, R190). -/
structure Ended (q : ReqHdr) (o : Outcome) (ws : List Word) (s t : State) : Prop where
  slotState : regionRead t.ri.region (slotAt q) = some (BitVec.ofNat 8 o.slotState)
  outcome : regionRead t.ri.region (slotAt q + 3) = some (BitVec.ofNat 8 o.code)
  words : ∀ i, i < 4 * ws.length → regionRead t.ri.region (slotAt q + 52 + i) = (ws.flatMap wordBytes)[i]?
  outside : ∀ a, ¬ partArea a → ¬ answerBytes q ws.length a → regionRead t.ri.region a = regionRead s.ri.region a
  taken : t.ri.taken = s.ri.taken.filter fun k => k.q.slot != q.slot
  notice : q.notify = true → t.ri.cause.getLsbD 2 = true
  accesses : t.ri.accesses = s.ri.accesses.tail
  kept : LinkKept s t

/-- No load and no switch is in progress (R31, R46). -/
structure NoLoads (t : State) : Prop where
  dayPlan : t.dp.profileLoad = none ∧ t.dp.calendarLoad = none
  schedule : t.se.switch = none
  zones : t.za.zoneLoad = none ∧ t.za.groupLoad = none
  patterns : t.pu.load = none
  channels : t.au.load = none
  drills : t.dc.load = none
  circuits : t.cu.load = none
  lines : t.lc.lineLoad = none ∧ t.lc.memberLoad = none
  wiring : t.io.load = none

/-- The region access in flight is the one named, and the part can take its completion (R191). -/
structure Completing (a : Access) (s : State) : Prop where
  running : s.running = true
  attached : s.ri.link = .attached
  head : s.ri.accesses.head? = some a

/-- The state in which the access in flight has completed, the event has begun, and another access is asked for, or none. -/
def State.wentOn (more : List Access) (s : State) : State :=
  { s with ri := { s.ri with accesses := s.ri.accesses.tail ++ more }, eventNo := s.eventNo + 1 }

/-- The state in which a request has been taken and its event begun: what its decision starts from (R192). -/
def State.taking (q : ReqHdr) (s : State) : State := { s.takeSlot q with eventNo := s.eventNo + 1 }

/-- The state in which an event begins. -/
def State.started (s : State) : State := { s with eventNo := s.eventNo + 1 }

/-- The header of the request a command posts; none for a command that is no request. -/
def reqHdr? (i : Instr) : Option ReqHdr :=
  match i with
  | .setTime q _ _ | .setTrim q _ | .setReference q _ _ _ | .setDstRule q _ | .loadTableProfiles q _ _
  | .loadTableCalendar q _ _ | .loadTableZones q _ _ | .loadTableGroups q _ _ | .loadTablePatterns q _ _
  | .loadTableChannels q _ _ | .loadTableDrills q _ _ | .loadTableCircuits q _ _ _ | .loadTableLines q _ _
  | .loadTableMembers q _ _ | .loadTableIo q _ | .switchSchedule q _ _ _ _ _ | .setFlags q _ _ | .setTodayProfile q _
  | .ring q _ | .announce q _ | .endAnnouncement q _ | .startDrill q _ | .stopSounding q | .allClear q | .endDrill q
  | .resumeAfterAlarm q | .setDial q _ _ _ | .enumerateLine q _ | .renumberLine q _ | .setNode q _ _ _
  | .clearFaultsLine q _ | .clearFaultsCircuit q _ | .driveOutput q _ _ _ | .readStatusTime q _ | .readStatusZones q _
  | .readStatusLine q _ _ | .readStatusCircuits q _ | .readStatusChannels q _ | .readStatusDrill q _ => some q
  | _ => none

/-- Every block but those named is the same; the Region Interface is spoken of apart. -/
structure SameBut (bs : List BlockId) (s t : State) : Prop where
  tb : .tb ∉ bs → t.tb = s.tb
  dp : .dp ∉ bs → t.dp = s.dp
  se : .se ∉ bs → t.se = s.se
  za : .za ∉ bs → t.za = s.za
  pu : .pu ∉ bs → t.pu = s.pu
  au : .au ∉ bs → t.au = s.au
  dc : .dc ∉ bs → t.dc = s.dc
  cu : .cu ∉ bs → t.cu = s.cu
  lc : .lc ∉ bs → t.lc = s.lc
  io : .io ∉ bs → t.io = s.io

/-- No claim waits for any zone. -/
def NoWaiters (s : State) : Prop := ∀ z, (s.zone z).waiters = []

/-- R67: what a holder that loses its zone leaves in the zone's wait list at a moment: its claim, where that still may wait, with the wait limit that it then
has. -/
def Claim.rejoining (now : Nat) (h : Claim) : List Claim :=
  match h.onPreempt with
  | .leave => []
  | .waitUntil d => if now < d then [{ h with waitLimit := some d }] else []
  | .waitFor d => if 0 < d then [{ h with waitLimit := some (now + d) }] else []

/-- R144: a circuit after a decision in a civil minute of day: IN STEP on the target, HOLDING while the target lies at most the hold limit behind the dial,
IN STEP one behind and CATCHING UP further behind, the last two with the next pulse at once or the catch-up interval after the previous pulse began. -/
def Circuit.decided (minute now : Nat) (k : Circuit) : Circuit :=
  let target := minute % k.cfg.dial
  let behind := (target + k.cfg.dial - k.pos) % k.cfg.dial
  let ahead := (k.pos + k.cfg.dial - target) % k.cfg.dial
  let due := max now ((k.prevStart.map (· + k.cfg.catchUp)).getD now)
  { k with
    st := if k.pos = target then .inStep else if ahead ≤ k.cfg.holdLimit then .holding else if behind = 1 then .inStep else .catchingUp
    nextAt := if k.pos = target ∨ ahead ≤ k.cfg.holdLimit then none else some due }

/-! ### Starts -/

/-- What a retained start leaves of every block at its beginning (R26, R39, R59, R82, R100, R124, R141, R153, R177, R184 to R186, R198). -/
structure RetainedStart (s t : State) : Prop where
  supply : t.supply = ⟨true, true, true, .retained⟩ ∧ t.elapsed = 0
  time : t.tb.campus = s.tb.campus ∧ t.tb.trim = s.tb.trim ∧ t.tb.acc = s.tb.acc ∧ t.tb.refMode = s.tb.refMode
    ∧ t.tb.lossLimit = s.tb.lossLimit ∧ t.tb.slewLimit = s.tb.slewLimit ∧ t.tb.dst = s.tb.dst ∧ t.tb.saturated = s.tb.saturated
  correction : t.tb.pc = 0 ∧ t.tb.slewCount = 0 ∧ t.tb.lastPulse = none ∧ t.tb.baseline = none ∧ t.tb.baselineAwaited = false
    ∧ t.tb.invalidPulses = 0 ∧ t.tb.lastError = 0 ∧ t.tb.lossTimer = 0 ∧ t.tb.slewLate = false ∧ t.tb.slewEnd = none
    ∧ t.tb.lostAt = 0 ∧ t.tb.pulseEntry = 0
  instants : (s.tb.campus = none → t.tb.trans = none ∧ t.tb.offset = 0) ∧ ∀ now, s.tb.campus = some now →
    t.tb.trans = instantsFor s.tb.dst now ∧ t.tb.offset = offsetAt s.tb.dst (instantsFor s.tb.dst now) now.lin
  reference : t.tb.refLost = true ↔ s.tb.refMode = .pulse ∧ s.tb.campus ≠ none
  plan : t.dp = { s.dp with profileLoad := none, calendarLoad := none }
  schedule : t.se = { s.se with switch := none, mark := if s.tb.campus = none then none else s.se.mark }
  zones : t.za.table = s.za.table ∧ t.za.groups = s.za.groups ∧ (∀ z, t.zone z = ZoneDyn.clear) ∧ t.za.fireReported = false
    ∧ (∀ b, t.za.feeds.getD b none = none) ∧ t.za.arrival = 0 ∧ t.za.zoneLoad = none ∧ t.za.groupLoad = none
  patterns : t.pu.table = s.pu.table ∧ t.pu.version = s.pu.version ∧ t.pu.bells = []
    ∧ t.pu.lastPush = List.replicate 12 none ∧ t.pu.load = none
  announcements : t.au.anns = [] ∧ t.au.waitList = [] ∧ t.au.counter = 0 ∧ t.au.arrival = 0 ∧ t.au.load = none
    ∧ ∀ k, (t.channel k).cfg = (s.channel k).cfg ∧ (t.channel k).owner = none ∧ (t.channel k).fifo = [] ∧ (t.channel k).output = []
    ∧ (t.channel k).tone = none ∧ (t.channel k).starveFrom = none ∧ (t.channel k).drillCad = none ∧ (t.channel k).playedTo = 0
    ∧ (t.channel k).lastEnding = match (s.channel k).owner with
      | some (.ann n) => some ⟨n, .restart⟩
      | _ => (s.channel k).lastEnding
  drills : t.dc.records = s.dc.records ∧ t.dc.active = none ∧ t.dc.load = none ∧ t.dc.fireActive = false ∧ t.dc.fireSince = 0
    ∧ t.dc.silenceHeld = false ∧ t.dc.last = match s.dc.active with
      | some d => some ⟨d.num, .restart, d.buildings⟩
      | none => s.dc.last
  circuits : t.cu.tolerance = s.cu.tolerance ∧ t.cu.load = none ∧ ∀ i, (t.circuit i).cfg = (s.circuit i).cfg
    ∧ (t.circuit i).pos = (s.circuit i).pos ∧ (t.circuit i).polarity = (s.circuit i).polarity ∧ (t.circuit i).st = (s.circuit i).st
    ∧ (t.circuit i).openCount = (if (s.circuit i).st = .fault then 3 else 0) ∧ (t.circuit i).pulse = none
    ∧ (t.circuit i).prevStart = none ∧ (t.circuit i).nextAt = none
  members : t.lc.members = s.lc.members ∧ t.lc.lineLoad = none ∧ t.lc.memberLoad = none
  lines : ∀ l, l < 8 → (t.line l).cfg = (s.line l).cfg ∧ (t.line l).queue = [] ∧ (t.line l).inFlight = none ∧ (t.line l).deferred = []
    ∧ (t.line l).summary = (s.line l).summary ∧ (t.line l).enumeration = none ∧ (t.line l).nodes = (s.line l).nodes.map Node.retained
    ∧ (t.line l).cycle = Line.cold.cycle
    ∧ (t.line l).pathA = ⟨(s.line l).pathA.cond, none⟩ ∧ (t.line l).pathB = ⟨(s.line l).pathB.cond, none⟩
  wiring : t.io.safetyPair = s.io.safetyPair ∧ t.io.troubleMask = s.io.troubleMask ∧ t.io.trouble = 0 ∧ t.io.fireOpen = false
    ∧ t.io.load = none ∧ (∀ k, k < 12 → (t.input k).func = (s.input k).func ∧ (t.input k).debounce = (s.input k).debounce
      ∧ (t.input k).reading = (s.input k).reading ∧ (t.input k).value = none
      ∧ (t.input k).exact = ⟨0, (s.input k).debounce⟩ ∧ (t.input k).counted = ⟨0, (s.input k).debounce⟩)
    ∧ ∀ o, (t.output o).func = (s.output o).func ∧ (t.output o).driven = false ∧ (t.output o).releaseAt = none
  link : t.ri.link = .detached ∧ t.ri.run = false ∧ t.ri.intEnable = false ∧ t.ri.base = 0 ∧ t.ri.cause = 0 ∧ t.ri.causeEnable = 0
    ∧ t.ri.taken = [] ∧ t.ri.accesses = [] ∧ t.ri.scan = .idle ∧ t.ri.firstAttach = true ∧ t.ri.region = s.ri.region
    ∧ t.ri.notify = 0 ∧ (t.ri.scanAt, t.ri.pollAt, t.ri.blockAt) = (0, 0, 0)
  log : t.ri.writeIndex = 0 ∧ t.ri.readMark = 0 ∧ t.ri.nextSeq = 1
    ∧ (s.dc.active = none → t.ri.hold = [] ∧ t.ri.lost = 0 ∧ t.ri.totalLost = 0)
    ∧ ∀ d, s.dc.active = some d → d.buildings.length < Config.holdCapacity →
      t.ri.hold.map (·.note) = resultNotes d 0 .restart ∧ t.ri.lost = 0 ∧ t.ri.totalLost = 0
  queue : t.pending = s.pending

/-- A part that settles with the time UNSET, no zone held and no drill: K11 alone decides what the end of settling sets off. -/
structure QuietStart (s : State) : Prop where
  settling : s.supply.main = true ∧ s.supply.settling = true
  unset : s.tb.campus = none
  counts : Counts s
  noHolder : ∀ z, (s.zone z).holder = none
  noWaiters : NoWaiters s
  noDrill : s.dc.active = none

/-! ### Quiet surroundings -/

/-- The zone is enabled and held by nobody, no fire is reported, and a change of it puts nothing on a line. -/
structure FreeZone (z : Nat) (s : State) : Prop where
  range : z < 64
  counted : s.za.zones.length = 64
  enabled : (s.zoneRec z).enabled = true
  silentLine : (s.zoneRec z).sounds = false ∧ (s.zoneRec z).speaks = false
  noHolder : (s.zone z).holder = none
  noFire : s.za.fireReported = false

/-- Nothing is queued, in flight or deferred on a line, and no node is recorded on it. -/
structure BareLine (l : Line) : Prop where
  queue : l.queue = []
  inFlight : l.inFlight = none
  deferred : l.deferred = []
  nodes : l.nodes = []

/-- Nothing is queued, in flight or deferred on any line, and no node is recorded. -/
def BareLines (s : State) : Prop := ∀ l, BareLine (s.line l)

/-- Nothing is queued, in flight or deferred on a line; its nodes are any. -/
structure IdleLine (l : Line) : Prop where
  queue : l.queue = []
  inFlight : l.inFlight = none
  deferred : l.deferred = []

/-- A zone over which claims may contest: it is enabled, fire does not hold it, no claim waits for another zone, and no zone puts a sounder's or a switch's
transaction on a line. -/
structure Contest (z : Nat) (s : State) : Prop where
  counts : Counts s
  range : z < 64
  enabled : (s.zoneRec z).enabled = true
  noFire : s.za.fireReported = false ∧ ∀ h, (s.zone z).holder = some h → h.who ≠ .fire
  alone : ∀ y, y ≠ z → (s.zone y).waiters = []
  silentLine : ∀ y, (s.zoneRec y).sounds = false
  bare : BareLines s

/-- R74: the feed of a building is held, and every zone of the building that its holder holds is enabled, reserved for nobody and speaks at its
level; there is one. -/
structure FeedHeld (b : Nat) (f : FeedHolder) (s : State) : Prop where
  range : b < 8
  feed : s.za.feeds.getD b none = some f
  zones : ∀ y h, (s.zone y).holder = some h → h.who = f.who → (s.zoneRec y).building = b →
    h.speaking = true ∧ h.level = f.level ∧ (s.zoneRec y).enabled = true ∧ (s.zone y).reserved = none
  some : ∃ y h, y < 64 ∧ (s.zone y).holder = some h ∧ h.who = f.who ∧ (s.zoneRec y).building = b

/-- A bell of one zone, which it holds and has sounded in, and where it rejoins the wait list until a deadline if it is preempted. -/
structure BellHolds (n z deadline : Nat) (b : Bell) (e : BellZone) (h : Claim) (s : State) : Prop where
  bell : s.bell? n = some b
  zones : b.zones = [e]
  zone : e.zone = z
  sounded : e.sounded = true
  holder : (s.zone z).holder = some h
  who : h.who = .bell n
  quiet : h.speaking = false
  onPreempt : h.onPreempt = .waitUntil deadline
  unreserved : (s.zone z).reserved = none

/-! ### Campus time and the schedule -/

/-- R18, R22, R23: the Time Base after campus time has stepped to a value: saturated at the last millisecond alone, the instants of the year it lies in, and
the offset they give. -/
def TimeBase.steppedTo (new : CampusTime) (tb : TimeBase) : TimeBase :=
  let trans := match tb.campus with
    | some old => if yearOf old.day = yearOf new.day then tb.trans else instantsFor tb.dst new
    | none => instantsFor tb.dst new
  { tb with campus := some new, saturated := decide (lastLin ≤ new.lin), trans := trans, offset := offsetAt tb.dst trans new.lin }

/-- The civil time of a campus time under an offset in minutes (R3). -/
def civilAt (now : CampusTime) (offset : Nat) : CampusTime := ofLin (now.lin + 60000 * offset)

/-- R36: the Day Plan after the day roll for a civil day: each flag in the mask of the day's profile takes its preset value. -/
def DayPlan.rolled (d : Nat) (p : DayPlan) : DayPlan :=
  let r := p.profiles.getD (profileOf p.calendar d) Profile.blank
  { p with override := none, dayBegun := some d, flags := (p.flags &&& ~~~r.mask) ||| (r.mask &&& r.value) }

/-- R51, R52, R48: the Schedule Engine after the day roll for the civil day of a moment, with no entry due up to that moment: a pending bank whose
effective day has come is ACTIVE, the profile is that of the day, and H is the moment. -/
def Schedule.rolled (now : CampusTime) (calendar : List Span) (e : Schedule) : Schedule :=
  let banks := match e.waiting with
    | some p => if p.effective ≤ now.day then { e with active := p.bank, waiting := none } else e
    | none => e
  { banks with profile := profileOf calendar now.day, mark := some ⟨now.day, now.ms⟩ }

/-- R40, R48: an entry's instant on the day of H lies after H and at or before a moment. -/
abbrev Entry.dueBy (h : HighWater) (now : CampusTime) (e : Entry) : Prop :=
  h.lin < (h.day * dayMs + 1000 * e.time : Nat) ∧ h.day * dayMs + 1000 * e.time ≤ now.lin

/-- R41: an entry is selected by the current day profile and by its condition on the flags. -/
def Entry.selectedBy (profile : Nat) (flags : Set8) (e : Entry) : Prop :=
  e.profiles.getLsbD profile = true ∧ ∀ c, e.cond = some c → flags.getLsbD c.flag = c.sense

/-- R48, R33: FLAGS entries in their order, each tested on the flags as those before it left them. -/
def runFlags (profile : Nat) : List Entry → Set8 → Set8
  | [], f => f
  | e :: es, f =>
    runFlags profile es (match e.kind with
      | .flags m1 m2 =>
        if e.profiles.getLsbD profile = true ∧ conditionPasses f e.cond = true then flagChange m1 m2 f else f
      | _ => f)

/-- The only entry of ACTIVE due by a moment is the one at this place. -/
structure OnlyDue (i : Nat) (e : Entry) (h : HighWater) (now : CampusTime) (s : State) : Prop where
  mark : s.se.mark = some h
  bound : s.se.active.entries.length ≤ 1024
  found : s.se.active.entries[i]? = some e
  due : e.dueBy h now
  only : ∀ j x, s.se.active.entries[j]? = some x → x.dueBy h now → j = i

/-- A bell of an entry on one zone that nobody holds: its fields name a pattern and a group of that zone alone, and a number is free (R49, R88). -/
structure BellReady (group pattern z n : Nat) (s : State) : Prop where
  pattern : (s.pattern pattern).steps ≠ []
  group : s.group group = BitVec.twoPow 64 z
  zone : FreeZone z s
  noWaiters : NoWaiters s
  number : freeBell s.pu.bells = some n

/-- R88, R90: a bell has started on a zone: its number, source, pattern and level, its zone sounding from this moment; the zone is BELL, held by it, its
cadence at the pattern's first step, and no other zone has changed. -/
structure BellStarted (n z pattern level : Nat) (src : BellSource) (s t : State) : Prop where
  bells : ∃ b, t.pu.bells = s.pu.bells ++ [b] ∧ b.num = n ∧ b.source = src ∧ b.pattern = pattern ∧ b.level = level
    ∧ b.zones = [⟨z, .sounding, true, t.elapsed⟩]
  holder : ∃ h, (t.zone z).holder = some h ∧ h.who = .bell n ∧ h.level = level
  state : t.zoneState z = .bell
  cadence : (t.zone z).cadence = (s.pattern pattern).cadenceAt 0
  others : ∀ y, y ≠ z → t.zone y = s.zone y
  table : t.pu.table = s.pu.table

/-- No circuit is running, so that a civil minute or a step decides none (R145, R149). -/
def CircuitsAtRest (s : State) : Prop := ∀ i, i < 4 → (s.circuit i).st.running = false

/-- R53 to R56: what a step of civil time to a moment makes of the schedule. H unset: the day roll for the day it lands on, and H is the moment. At or
before H: nothing. Later on the day of H: the FLAGS entries due are applied in order; a BELL entry due within the catch-up window starts its bell with its
lateness; another entry that is not selected, or that lies further back than the window, starts nothing. On a later day: the day roll, with no entry due on
the landing day. H is then the moment. -/
structure ScheduleStepped (now : CampusTime) (s t : State) : Prop where
  first : s.se.mark = none → t.dp = s.dp.rolled now.day ∧ t.se = s.se.rolled now s.dp.calendar ∧ SameBut [.tb, .dp, .se] s t
  back : ∀ h, s.se.mark = some h → (now.lin : Int) ≤ h.lin → SameBut [.tb] s t
  flags : ∀ h, s.se.mark = some h → s.se.active.entries.length ≤ 1024 → h.lin < (now.lin : Int) → now.day ≤ h.day →
    (∀ e, e ∈ s.se.active.entries → e.dueBy h now → ∃ m1 m2, e.kind = .flags m1 m2) →
    t.dp.flags = runFlags s.se.profile (s.se.active.entries.filter fun e => decide (e.dueBy h now)) s.dp.flags
    ∧ t.dp = { s.dp with flags := t.dp.flags } ∧ t.se = { s.se with mark := some ⟨now.day, now.ms⟩ } ∧ SameBut [.tb, .dp, .se] s t
  bell : ∀ i e h g p level df du z n, OnlyDue i e h now s → now.day = h.day → e.kind = .bell g p level df du →
    e.selectedBy s.se.profile s.dp.flags → now.ms / 1000 ≤ e.time + s.se.active.window → BellReady g p z n s →
    BellStarted n z p level (.entry i (now.ms / 1000 - e.time)) s t ∧ t.se = { s.se with mark := some ⟨now.day, now.ms⟩ }
    ∧ SameBut [.tb, .se, .za, .pu] s t
  passed : ∀ i e h, OnlyDue i e h now s → now.day = h.day → (∀ m1 m2, e.kind ≠ .flags m1 m2) →
    (¬ e.selectedBy s.se.profile s.dp.flags ∨ e.time + s.se.active.window < now.ms / 1000) →
    t.se = { s.se with mark := some ⟨now.day, now.ms⟩ } ∧ SameBut [.tb, .se] s t
  roll : ∀ h, s.se.mark = some h → s.se.active.entries.length ≤ 1024 → h.day < now.day → h.lin < (now.lin : Int) →
    (∀ e, e ∈ (s.se.rolled now s.dp.calendar).active.entries → now.ms < 1000 * e.time) →
    t.dp = s.dp.rolled now.day ∧ t.se = s.se.rolled now s.dp.calendar ∧ SameBut [.tb, .dp, .se] s t

/-- R5: the next nominal millisecond of a part in operation carries campus time from one millisecond to the next, with no trim, no slew and no
saturation in it. -/
structure Advances (old now : CampusTime) (s : State) : Prop where
  running : s.running = true
  campus : s.tb.campus = some old
  unsaturated : s.tb.saturated = false
  next : now = ofLin (old.lin + 1)
  short : now.lin < lastLin
  noTrim : s.tb.trim = 0 ∧ s.tb.acc.natAbs < 10000000
  noSlew : s.tb.pc = 0 ∧ s.tb.slewLate = false

/-- The announcements after a millisecond (R109). -/
def State.annsTicked (s : State) : State := { s with au := { s.au with anns := s.au.anns.map Ann.tick } }

/-! ### The end of an announcement -/

/-- An announcement with a channel that can end in one event, moving nobody else: no zone and no channel is waited for, the lines are bare,
and no audio block of it is still to be marked CONSUMED: it has none, the link is down, or the block was marked and nothing of it is in flight. -/
structure EndsAlone (n ch : Nat) (a : Ann) (s : State) : Prop where
  counts : Counts s
  found : s.ann? n = some a
  active : a.st ≠ .waiting ∧ a.st ≠ .ending
  channel : a.channel = some ch ∧ ch < 4
  noBlock : ¬ (a.isBlocks = true ∧ a.block.isSome = true ∧ s.ri.link = .attached) ∨ (a.consumedBegun = true ∧ a.access = none)
  noWaiters : NoWaiters s
  noChannelWaiters : s.au.waitList = []
  bare : BareLines s
  noSound : ∀ z h, (s.zone z).holder = some h → h.who = .ann n → h.sound = none

/-- An announcement has ended: its record is gone and no other, its zones have no holder and the others keep theirs, and its channel is free,
with the announcement and the reason as its last ending (R114). -/
structure AnnGone (n ch : Nat) (r : EndReason) (s t : State) : Prop where
  anns : t.au.anns = s.au.anns.filter fun a => a.num != n
  released : ∀ z h, z < 64 → (s.zone z).holder = some h → h.who = .ann n → (t.zone z).holder = none
  others : ∀ z h, (s.zone z).holder = some h → h.who ≠ .ann n → (t.zone z).holder = some h
  channel : (t.channel ch).owner = none ∧ (t.channel ch).fifo = [] ∧ (t.channel ch).lastEnding = some ⟨n, r⟩
  otherChannels : ∀ k, k ≠ ch → t.channel k = s.channel k
  same : SameBut [.za, .au] s t

/-! ### The end of a drill -/

/-- A drill that can end moving nobody else: no zone and no channel is waited for, the lines are bare and no zone it holds sounds on line. -/
structure DrillAlone (d : ActiveDrill) (s : State) : Prop where
  counts : Counts s
  noWaiters : NoWaiters s
  noChannelWaiters : s.au.waitList = []
  bare : BareLines s
  silentLine : ∀ z h, (s.zone z).holder = some h → h.who = .drill d.num → (s.zoneRec z).sounds = false
  channel : ∀ ch, d.channel = some ch → ch < 4

/-- A drill has ended: none is active, it is the last one with its reason and its buildings, the zones it held have no holder and the others keep
theirs, and its channel is free (R135). -/
structure DrillGone (d : ActiveDrill) (r : DrillEnd) (s t : State) : Prop where
  drill : t.dc = { s.dc with active := none, last := some ⟨d.num, r, d.buildings⟩ }
  released : ∀ z h, z < 64 → (s.zone z).holder = some h → h.who = .drill d.num → (t.zone z).holder = none
  others : ∀ z h, (s.zone z).holder = some h → h.who ≠ .drill d.num → (t.zone z).holder = some h
  channel : ∀ ch, d.channel = some ch → (t.channel ch).owner = none
  otherChannels : ∀ k, d.channel ≠ some k → t.channel k = s.channel k
  same : SameBut [.dc, .za, .au] s t

end Sys2Proof.Machine
end

