-- ==== Sys2Proof/Certificates/Slice0/Obligations.lean ====
section
/-! DEFINITION. The statements for the provers. Each names what it states; its docstring cites the rules of spec/ it comes from. -/

open Sys2Proof Sys2Proof.Machine

/-! ### The whole part -/

/-- A step takes the command at the front of the queue and runs it on the part with the rest of the queue. -/
def Obligations.StepRunsFrontCommand : Prop :=
  ∀ (c : Instr) (rest : List Instr) (s : State), step { s with pending := c :: rest } = exec c { s with pending := rest }

/-- Every command answers a next state, and leaves the queue of waiting commands as it is (log entry 5: no row of the manual's table
stops the part). -/
def Obligations.EveryCommandCompletes : Prop :=
  ∀ (c : Instr) (s : State), ∃ t, exec c s = .next t ∧ t.pending = s.pending

/-- The region stays in canonical form at every step, whatever the state. -/
def Obligations.StepKeepsRegionForm : Prop :=
  ∀ s t : State, regionWf s.ri.region → step s = .next t → regionWf t.ri.region

/-- Fire silence: while fire is reported to ZA every zone is held by fire silence or by nobody with an empty wait list and no feed is
held, and a zone that is OUT has no holder and no waiter; every step of every state keeps it (R63, R79). -/
def Obligations.StepKeepsFireSilence : Prop :=
  ∀ s t : State, FireSilence s → step s = .next t → FireSilence t

/-- The numbers of the report log stay in their ranges at every step (section 11.1). -/
def Obligations.StepKeepsLogNumbers : Prop :=
  ∀ s t : State, LogSound s.ri → step s = .next t → LogSound t.ri

/-- The part keeps its 64 zones, 8 building feeds, 4 channels, 4 circuits, 8 lines, 12 inputs and 12 outputs at every step. -/
def Obligations.StepKeepsCounts : Prop :=
  ∀ s t : State, Counts s → step s = .next t → Counts t

/-- A part in operation that has a campus time has its high-water mark H set, and a cold start settles with the time UNSET: every step keeps both (R25,
R56, R58, R59). -/
def Obligations.StepKeepsHighWaterMark : Prop :=
  ∀ s t : State, HighWaterSet s → step s = .next t → HighWaterSet t

/-- The standing conditions hold right after reset. -/
def Obligations.ResetMeetsInvariants : Prop :=
  regionWf State.reset.ri.region ∧ FireSilence State.reset ∧ LogSound State.reset.ri ∧ Counts State.reset ∧ HighWaterSet State.reset

/-- What a cold start leaves: of the Time Base (R25) and of the lines (R176), and of the other blocks (R38, R58, R81, R99 with R83's pattern 31, R123,
R140, R152, R186, R198). That the machine right after reset is the beginning of a cold start, every input reading OPEN, the region empty and no command
waiting, is the model's choice (log entry 7). -/
def Obligations.ResetLeavesColdValues : Prop :=
  let s := State.reset
  (timeState s.tb = .unset ∧ s.tb.campus = none ∧ s.tb.saturated = false ∧ s.tb.trim = 0 ∧ s.tb.acc = 0 ∧ s.tb.pc = 0
    ∧ s.tb.slewCount = 0 ∧ s.tb.refMode = .off ∧ s.tb.lossLimit = 30 ∧ s.tb.slewLimit = 2000 ∧ s.tb.refLost = false
    ∧ s.tb.lastPulse = none ∧ s.tb.baseline = none ∧ s.tb.baselineAwaited = false ∧ s.tb.invalidPulses = 0 ∧ s.tb.lastError = 0
    ∧ s.tb.dst = none ∧ s.tb.offset = 0 ∧ s.elapsed = 0 ∧ s.ri.hold = [] ∧ s.ri.region = [])
  ∧ (s.lc.lines.length = 8 ∧ s.lc.members = [] ∧ s.lc.lineLoad = none ∧ s.lc.memberLoad = none
    ∧ ∀ l, l < 8 → (s.line l).state = .off ∧ (s.line l).cfg = ⟨false, 20, 2, true, 3, 0, 30⟩
      ∧ (s.line l).pathA = ⟨.opened, none⟩ ∧ (s.line l).pathB = ⟨.opened, none⟩ ∧ (s.line l).queue = []
      ∧ (s.line l).inFlight = none ∧ (s.line l).deferred = [] ∧ (s.line l).nodes = [] ∧ (s.line l).summary = 0
      ∧ (s.line l).cycle.running = false ∧ (s.line l).enumeration = none)
  ∧ (s.dp.profiles = List.replicate 16 ⟨0, 0, 0⟩ ∧ s.dp.calendar = [] ∧ s.dp.flags = 0 ∧ s.dp.override = none ∧ s.dp.dayBegun = none
    ∧ s.dp.profileLoad = none ∧ s.dp.calendarLoad = none)
  ∧ (s.se.active = ⟨[], 120⟩ ∧ s.se.waiting = none ∧ s.se.mark = none ∧ s.se.profile = 0 ∧ s.se.switch = none)
  ∧ (∀ z, z < 64 → s.zoneRec z = ⟨false, 0, 0, false, false, false⟩ ∧ s.zoneState z = .out ∧ s.group z = 0 ∧ s.zone z = ⟨none, [], none, .quiet⟩)
  ∧ ((∀ b, s.za.feeds.getD b none = none) ∧ s.za.fireReported = false ∧ s.za.arrival = 0 ∧ s.za.zoneLoad = none ∧ s.za.groupLoad = none
    ∧ s.relayDemand = 0)
  ∧ ((∀ p, p ≤ 30 → (s.pattern p).steps = []) ∧ s.pattern 31 = ⟨[⟨500, 500⟩, ⟨500, 500⟩, ⟨500, 1500⟩], 0, 900, 15⟩ ∧ s.pu.version = 0
    ∧ s.pu.load = none ∧ s.pu.bells = [] ∧ ∀ k, k < 12 → s.pu.lastPush[k]? = some none)
  ∧ (s.au.channels.length = 4 ∧ (∀ c, c < 4 → (s.channel c).cfg = ⟨1024, 2000, 500⟩ ∧ (s.channel c).owner = none ∧ (s.channel c).fifo = []
      ∧ (s.channel c).tone = none ∧ (s.channel c).starveFrom = none ∧ (s.channel c).lastEnding = none)
    ∧ s.au.anns = [] ∧ s.au.waitList = [] ∧ s.au.counter = 0 ∧ s.au.arrival = 0 ∧ s.au.load = none)
  ∧ ((∀ n r, s.dc.records[n]? = some r → n < 8 ∧ r.defined = false ∧ r.buildings = 0 ∧ r.sounding = 30 ∧ r.target = 60 ∧ r.tone = false
      ∧ r.allClear = none) ∧ s.dc.records.length = 8 ∧ s.dc.load = none ∧ s.dc.active = none ∧ s.dc.last = none
    ∧ s.dc.fireActive = false ∧ s.dc.silenceHeld = false)
  ∧ (s.cu.circuits.length = 4 ∧ (∀ i, i < 4 → (s.circuit i).cfg = ⟨false, 720, 500, 2000, 60⟩ ∧ (s.circuit i).pos = 0
      ∧ (s.circuit i).polarity = .negative ∧ (s.circuit i).st = .off ∧ (s.circuit i).openCount = 0 ∧ (s.circuit i).pulse = none
      ∧ (s.circuit i).prevStart = none ∧ (s.circuit i).nextAt = none) ∧ s.cu.tolerance = 2 ∧ s.cu.load = none)
  ∧ ((∀ k, k < 12 → (s.input k).func = .plain ∧ (s.input k).debounce = 50 ∧ (s.output k).func = .plain ∧ (s.output k).driven = false
      ∧ (s.output k).releaseAt = none) ∧ s.io.safetyPair = true ∧ s.io.inFunc 11 = .fireAlarm ∧ s.io.outFunc 11 = .trouble
    ∧ s.io.troubleMask = 0x3F ∧ s.io.load = none)
  ∧ (s.ri.link = .detached ∧ s.ri.taken = [] ∧ s.ri.scan = .idle ∧ s.ri.writeIndex = 0 ∧ s.ri.readMark = 0 ∧ s.ri.lost = 0
    ∧ s.ri.totalLost = 0 ∧ s.ri.nextSeq = 1)

/-! ### What the part derives -/

/-- R63, R1, R76, R79, R181, R184, R185, R73: what the part derives. A zone's state follows from its holder and its record, and the time state
from the first row of R1's table whose condition holds. A relay is in the relay demand exactly while some enabled zone whose relay set includes it is
BELL or EVAC with cadence step ON, and while fire is reported to ZA no relay is in it. An output follows its effective function while the part is in
operation, and every relay is released while the part is without main supply or settling; under the safety pair Q11 is TROUBLE and K11 is FIRE ALARM. A
building's feed carries what the channel of its holder puts out, and nothing while nobody holds it. -/
def Obligations.DerivedItemsFollowState : Prop :=
  (∀ (s : State) (z : Nat),
    ((s.zoneRec z).enabled = false → s.zoneState z = .out)
    ∧ ((s.zoneRec z).enabled = true → (s.zone z).holder = none → s.zoneState z = .idle)
    ∧ ∀ h, (s.zoneRec z).enabled = true → (s.zone z).holder = some h →
      s.zoneState z = match h.who with
        | .bell _ => .bell
        | .ann _ => .page
        | .drill _ => .evac
        | .fire => .silenced)
  ∧ (∀ tb : TimeBase,
    (tb.campus = none ↔ timeState tb = .unset)
    ∧ (tb.campus ≠ none → tb.refMode = .pulse → tb.refLost = true → timeState tb = .holdover)
    ∧ (tb.campus ≠ none → ¬ (tb.refMode = .pulse ∧ tb.refLost = true) → tb.pc ≠ 0 → timeState tb = .slewing)
    ∧ (tb.campus ≠ none → tb.refLost = false → tb.pc = 0 → tb.refMode = .pulse → timeState tb = .tracking)
    ∧ (tb.campus ≠ none → tb.pc = 0 → tb.refMode = .off → timeState tb = .free))
  ∧ (∀ (s : State) (r : Nat), s.relayDemand.getLsbD r = true ↔
    ∃ z, z < 64 ∧ (s.zoneState z = .bell ∨ s.zoneState z = .evac) ∧ (s.zone z).cadence = .on ∧ (s.zoneRec z).relays.getLsbD r = true)
  ∧ (∀ s : State, FireSilence s → s.za.fireReported = true → s.relayDemand = 0)
  ∧ (∀ (s : State) (o : Nat),
    (s.running = false → s.energized o = false)
    ∧ (s.running = true → s.io.outFunc o = .plain → s.energized o = (s.output o).driven)
    ∧ (s.running = true → s.io.outFunc o = .zone → s.energized o = s.relayDemand.getLsbD o)
    ∧ (s.running = true → s.io.outFunc o = .drillLamp → s.energized o = s.dc.active.isSome)
    ∧ (s.running = true → s.io.outFunc o = .trouble → (s.energized o = true ↔ s.io.trouble &&& s.io.troubleMask = 0))
    ∧ (s.io.safetyPair = true → s.io.outFunc 11 = .trouble ∧ s.io.inFunc 11 = .fireAlarm))
  ∧ ∀ (s : State) (b ch : Nat),
    (s.za.feeds.getD b none = none → s.feedAudio b = none)
    ∧ (∀ f n a, s.za.feeds.getD b none = some f → f.who = .ann n → s.ann? n = some a → a.channel = some ch →
      s.feedAudio b = some ⟨(s.channel ch).output, (s.channel ch).tone⟩)
    ∧ ∀ f n d, s.za.feeds.getD b none = some f → f.who = .drill n → s.dc.active = some d → d.channel = some ch →
      s.feedAudio b = some ⟨(s.channel ch).output, (s.channel ch).tone⟩

/-! ### Register writes (R187 to R189) -/

/-- R187: INT ENABLE, REGION BASE, CAUSE and CAUSE ENABLE as written while the main supply is present; REGION BASE is ignored at any link
state but DETACHED, a 1 written to CAUSE clears that cause, and a register with no behaviour of its own changes nothing. The interrupt
line follows CAUSE and CAUSE ENABLE. That writes are taken through settling too, and that the bits of CONTROL are written one by one, is the model's
choice (log entry 27). -/
def Obligations.RegisterWritesTakeEffect : Prop :=
  ∀ (s : State) (w : Word) (v : Bool) (offset : Nat), s.supply.main = true →
    exec (.intEnable v) s = .next { s with ri := { s.ri with intEnable := v } }
    ∧ (s.ri.link = .detached → exec (.regionBase w) s = .next { s with ri := { s.ri with base := w.extractLsb 31 20 } })
    ∧ (s.ri.link ≠ .detached → exec (.regionBase w) s = .next s)
    ∧ (∃ t, exec (.cause w) s = .next t ∧ t = { s with ri := { s.ri with cause := t.ri.cause } }
      ∧ ∀ i, i < 4 → (t.ri.cause.getLsbD i = (s.ri.cause.getLsbD i && !w.getLsbD i)))
    ∧ (∃ t, exec (.causeEnable w) s = .next t ∧ t = { s with ri := { s.ri with causeEnable := t.ri.causeEnable } }
      ∧ ∀ i, i < 4 → t.ri.causeEnable.getLsbD i = w.getLsbD i)
    ∧ exec (.registerWriteOther offset w) s = .next s
    ∧ (interruptLine s.ri = true ↔ s.ri.intEnable = true ∧ ∃ i, i < 4 ∧ s.ri.cause.getLsbD i = true ∧ s.ri.causeEnable.getLsbD i = true)

/-- R188, R189: RUN set on a DETACHED link makes it ATTACHING and asks for the host fields, and in the other link states it is kept and no more. RUN
cleared takes ATTACHING to DETACHED; it takes an ATTACHED link with no BLOCKS announcement to DETACHED with no scan left and every load and the switch
ended, while zones, bells, announcements, the drill and the Time Base stay; a BLOCKS announcement that can end alone ends LINK LOST; and from LINK FAULT it leads
to DETACHED, with the trouble classes following while the part is in operation. Of the region accesses the one in flight is left, its result to be discarded
(log entry 9). That RUN is taken through settling too is the model's choice (log entry 27). -/
def Obligations.RunAttachesAndDetaches : Prop :=
  ∀ s : State, s.supply.main = true →
    (s.ri.link = .detached → exec (.run true) s = .next { s.started with ri := { s.ri with
      run := true, link := .attaching, accesses := s.ri.accesses ++ [.hostFields] } })
    ∧ (s.ri.link ≠ .detached → exec (.run true) s = .next { s.started with ri := { s.ri with run := true } })
    ∧ (s.ri.link = .detached → exec (.run false) s = .next { s.started with ri := { s.ri with run := false } })
    ∧ (s.ri.link = .attaching → exec (.run false) s = .next { s.started with ri := { s.ri with
      run := false, link := .detached, accesses := leftInFlight s.ri.accesses } })
    ∧ (s.ri.link = .attached → (∀ a, a ∈ s.au.anns → a.isBlocks = false) → ∃ t, exec (.run false) s = .next t ∧ t.ri.link = .detached
      ∧ t.ri.run = false ∧ t.ri.accesses = leftInFlight s.ri.accesses ∧ t.ri.scan = .idle ∧ t.ri.region = s.ri.region ∧ NoLoads t
      ∧ t.za.zones = s.za.zones ∧ t.pu.bells = s.pu.bells ∧ t.au.anns = s.au.anns ∧ t.au.channels = s.au.channels ∧ t.dc.active = s.dc.active
      ∧ t.tb = s.tb)
    ∧ (∀ n ch a, s.ri.link = .attached → s.au.anns = [a] → a.isBlocks = true →
      EndsAlone n ch a { s with ri := { s.ri with link := .detached } } → ∃ t, exec (.run false) s = .next t ∧ t.ri.link = .detached
      ∧ t.ri.run = false ∧ t.ri.accesses = leftInFlight s.ri.accesses ∧ t.ri.scan = .idle ∧ t.ri.region = s.ri.region ∧ NoLoads t
      ∧ AnnGone n ch .linkLost (clearLoads s) t)
    ∧ (s.ri.link = .fault → ∃ t, exec (.run false) s = .next t ∧ t.ri.link = .detached ∧ t.ri.run = false ∧ t.ri.region = s.ri.region
      ∧ (s.running = true → t.io.trouble = t.troubleNow) ∧ (s.running = false → t.io = s.io) ∧ SameBut [.io] s t)

/-- R187, R192: an ATTENTION write and each elapsed second call for a slot scan while the link is ATTACHED; a scan that is called for with
none present begins by asking for the read mark, and one called for during a scan is made due. R196, R190: the read mark is read every 100 ms while the
hold buffer is not empty (the grid runs from the attach: log entry 28), and the control block's fields are written each elapsed second: its trouble field
and its total lost field hold those items, and the bytes outside the part's fields stay. -/
def Obligations.ScansAndLinkTimersTakeEffect : Prop :=
  ∀ s : State, s.running = true → s.ri.link = .attached →
    (∀ w : Word, (s.ri.scan = .idle → exec (.attention w) s = .next { s.started with ri := { s.ri with
        scan := .scanning, accesses := s.ri.accesses ++ [.readMark true] } })
      ∧ (s.ri.scan ≠ .idle → exec (.attention w) s = .next { s.started with ri := { s.ri with scan := .scanningDue } }))
    ∧ (s.ri.scanAt + 1000 ≤ s.elapsed → s.ri.scan = .idle → exec .slotScanSecond s = .next { s.started with ri := { s.ri with
      scanAt := s.ri.scanAt + 1000, scan := .scanning, accesses := s.ri.accesses ++ [.readMark true] } })
    ∧ (s.ri.scanAt + 1000 ≤ s.elapsed → s.ri.scan ≠ .idle → exec .slotScanSecond s = .next { s.started with ri := { s.ri with
      scanAt := s.ri.scanAt + 1000, scan := .scanningDue } })
    ∧ (s.ri.pollAt + 100 ≤ s.elapsed → s.ri.hold ≠ [] → ∃ t, exec .readMarkPoll s = .next t
      ∧ t = { s.started with ri := { s.ri with pollAt := t.ri.pollAt, accesses := s.ri.accesses ++ [.readMark false] } }
      ∧ t.ri.pollAt ≤ s.elapsed ∧ s.elapsed < t.ri.pollAt + 100 ∧ (t.ri.pollAt - s.ri.pollAt) % 100 = 0)
    ∧ (s.ri.blockAt + 1000 ≤ s.elapsed → ∃ t, exec .controlBlockSecond s = .next t
      ∧ t = { s.started with ri := { s.ri with blockAt := s.ri.blockAt + 1000, region := t.ri.region } }
      ∧ (∀ i, i < 4 → regionRead t.ri.region (32 + i) = (wordBytes (numWord s.ri.totalLost))[i]?)
      ∧ (∀ i, i < 4 → regionRead t.ri.region (36 + i) = (wordBytes (s.io.trouble.setWidth 32))[i]?)
      ∧ ∀ a, ¬ (12 ≤ a ∧ a < 48) → regionRead t.ri.region a = regionRead s.ri.region a)

/-! ### Requests (section 11.4) -/

/-- R192, R193, R195, R190: whatever a request comes to, its event changes no byte of the region but those of its own slot, of the log and of
the part's fields of the control block; the registers, the link and the clock stay; and no other slot becomes taken or is given up. The model's
choice (log entry 1): a request that cannot reach the part, by the link, the supply, the slot's index or a slot already taken, changes
nothing. -/
def Obligations.RequestsTouchOnlyTheirSlot : Prop :=
  ∀ (c : Instr) (q : ReqHdr) (s : State), reqHdr? c = some q →
    (s.reaches q = false → exec c s = .next s)
    ∧ ∀ t, LogSound s.ri → s.ri.link = .attached → exec c s = .next t → LinkKept s t
      ∧ (t.ri.taken = s.ri.taken ∨ t.ri.taken = s.ri.taken ++ [⟨q, none⟩])
      ∧ ∀ a, ¬ partArea a → ¬ (slotAt q ≤ a ∧ a < slotAt q + 64) → regionRead t.ri.region a = regionRead s.ri.region a

/-- R33, R34: SET FLAGS applies its masks to all eight flags at once, answers DONE with the flags before and after, and writes FLAGS CHANGED with
the old and the new values, the cause HOST and the request's tag exactly when they differ; in every time state. Any flag change
writes its record exactly when the flags differ, and two changes give the sequential result of their order. -/
def Obligations.SetFlagsChangesEachFlag : Prop :=
  (∀ (q : ReqHdr) (m1 m2 : Set8) (s : State), s.reaches q = true →
    ∃ new : Set8,
      (∀ i, i < 8 → new.getLsbD i = match m2.getLsbD i, m1.getLsbD i with
        | false, false => s.dp.flags.getLsbD i
        | false, true => true
        | true, false => false
        | true, true => !s.dp.flags.getLsbD i)
      ∧ exec (.setFlags q m1 m2) s = .next
        ((if new = s.dp.flags then s.taking q
          else State.record ⟨.flagsChanged, .routine, .dp, 0, q.tag, dv s.dp.flags.toNat, dv new.toNat, dv 0⟩
            { s.taking q with dp := { s.dp with flags := new } }).answer q .done
          [s.dp.flags.setWidth 32, new.setWidth 32]))
  ∧ (∀ (m1 m2 : Set8) (cause : Nat) (tag : Word) (c : Ctx),
      (flagChange m1 m2 c.st.dp.flags = c.st.dp.flags → changeFlags m1 m2 cause tag c = c)
      ∧ (flagChange m1 m2 c.st.dp.flags ≠ c.st.dp.flags → (changeFlags m1 m2 cause tag c).st =
        State.record ⟨.flagsChanged, .routine, .dp, 0, tag, dv c.st.dp.flags.toNat, dv (flagChange m1 m2 c.st.dp.flags).toNat, dv cause⟩
          { c.st with dp := { c.st.dp with flags := flagChange m1 m2 c.st.dp.flags } }))
  ∧ ∀ m f : Set8, flagChange m m (flagChange m 0 f) &&& m = 0 ∧ flagChange m 0 (flagChange m m f) &&& m = m

/-- R19: SET TRIM. A value from −5000 to +5000 becomes the trim with DONE, another is clamped to the nearer end with DONE CLAMPED; the result
word is the trim now in effect, the accumulator keeps its value, the learning baseline and baseline awaited follow, and TRIM CHANGED is
written with the old trim, the new trim and the cause HOST; in every time state. -/
def Obligations.SetTrimClampsAndAnswers : Prop :=
  ∀ (q : ReqHdr) (v : Int) (s : State), s.reaches q = true →
    ∃ trim : Int, (-5000 ≤ v → v ≤ 5000 → trim = v) ∧ (v < -5000 → trim = -5000) ∧ (5000 < v → trim = 5000)
      ∧ exec (.setTrim q v) s = .next (State.answer q (if trim = v then .done else .doneClamped) [numWord trim]
        (State.record ⟨.trimChanged, .routine, .tb, 0, q.tag, dvi s.tb.trim, dvi trim, dv 0⟩
          { s.taking q with tb := { s.tb with
            trim := trim
            baseline := if s.tb.refMode = .pulse ∧ s.tb.refLost = false ∧ s.tb.pc = 0 then some s.elapsed else none
            baselineAwaited :=
              if s.tb.refMode = .pulse ∧ ¬ (s.tb.refLost = false ∧ s.tb.pc = 0) then true else s.tb.baselineAwaited } }))

/-- R20: SET REFERENCE. A mode other than OFF or PULSE is refused BAD PARAMETER and nothing else changes; else the limits, clamped to
their ranges, take effect at once, DONE CLAMPED saying that one was, and the mode is the one given; entering PULSE begins without a
last pulse, a baseline or an invalid pulse, and leaving it without loss. -/
def Obligations.SetReferenceTakesEffect : Prop :=
  ∀ (q : ReqHdr) (mode loss slew : Nat) (s : State), s.reaches q = true → LogSound s.ri →
    (1 < mode → exec (.setReference q mode loss slew) s = .next ((s.taking q).answer q .badParameter []))
    ∧ (mode ≤ 1 → ∃ t, exec (.setReference q mode loss slew) s = .next t
      ∧ t.tb.lossLimit = max 10 (min 600 loss) ∧ t.tb.slewLimit = max 100 (min 60000 slew)
      ∧ t.tb.refMode = (if mode = 1 then .pulse else .off)
      ∧ Decided q (if t.tb.lossLimit = loss ∧ t.tb.slewLimit = slew then .done else .doneClamped) [] s t
      ∧ t.tb.campus = s.tb.campus ∧ t.tb.trim = s.tb.trim ∧ t.tb.pc = s.tb.pc ∧ t.tb.offset = s.tb.offset
      ∧ (mode = 1 → s.tb.refMode = .off → t.tb.lastPulse = none ∧ t.tb.baseline = none ∧ t.tb.invalidPulses = 0
        ∧ t.tb.refLost = false ∧ t.tb.lossTimer = 0)
      ∧ (mode = 0 → s.tb.refMode = .pulse → t.tb.refLost = false ∧ t.tb.baseline = none)
      ∧ SameBut [.tb, .io] s t)

/-- R15 to R18, R53 to R56: SET TIME. A time out of range is refused OUT OF RANGE. From UNSET campus time takes the value; in mode OFF a difference
within the slew limit becomes the pending correction, and a larger one steps campus time to the value; in mode PULSE the difference is rounded to the
nearest whole multiple of 1000 ms, halves away from zero, and moved 1000 ms toward zero where the stepped time would fall outside day 0 to day 36524;
a rounded difference of 0 changes nothing, and another steps campus time by it, with the result words STEP and that difference. A step gives campus
time, saturated, the year's instants and the offset in force as R18 says and keeps the rest of the Time Base, and the schedule follows it, while no
circuit is running. Where a step in mode OFF, or a difference of 0, leaves the pending correction 0, the slew count is 0 by the model's choice (log
entry 55); the action codes are the model's too (log entry 14). -/
def Obligations.SetTimeTakesEffect : Prop :=
  ∀ (q : ReqHdr) (day ms : Nat) (s : State), s.reaches q = true → LogSound s.ri →
    let stepsBy (tb : TimeBase) (new : CampusTime) (d : Int) : Prop := ∃ t, exec (.setTime q day ms) s = .next t
      ∧ t.tb = tb.steppedTo new ∧ Decided q .done [actionStep, numWord d] s t
      ∧ (CircuitsAtRest s → ScheduleStepped (civilAt new (tb.steppedTo new).offset) s t)
    (36524 < day ∨ 86399999 < ms → exec (.setTime q day ms) s = .next ((s.taking q).answer q .outOfRange []))
    ∧ (day ≤ 36524 → ms ≤ 86399999 →
      (s.tb.campus = none → stepsBy { s.tb with lastPulse := none, baseline := none, lossTimer := 0 } ⟨day, ms⟩ 0)
      ∧ ∀ old : CampusTime, s.tb.campus = some old →
        let d : Int := (CampusTime.lin ⟨day, ms⟩ : Int) - old.lin
        (s.tb.refMode = .off → d.natAbs ≤ s.tb.slewLimit → exec (.setTime q day ms) s = .next
          (State.answer q .done [actionSlew, numWord d] { s.taking q with tb := { s.tb with pc := d, slewCount := 0, slewLate := false } }))
        ∧ (s.tb.refMode = .off → s.tb.slewLimit < d.natAbs →
          stepsBy { s.tb with pc := 0, slewCount := 0, slewLate := false } ⟨day, ms⟩ d)
        ∧ (s.tb.refMode = .pulse → d.natAbs < 500 → exec (.setTime q day ms) s = .next
          (State.answer q .done [actionNone, 0] (s.taking q)))
        ∧ ∀ r : Int, s.tb.refMode = .pulse → old.lin ≤ lastLin → 500 ≤ d.natAbs → r % 1000 = 0 → 2 * (d - r).natAbs ≤ 1000 →
          (2 * (d - r).natAbs = 1000 → d.natAbs < r.natAbs) →
          let inRange (x : Int) : Prop := 0 ≤ (old.lin : Int) + x ∧ (old.lin : Int) + x ≤ lastLin
          let nearer : Int := if 0 < r then r - 1000 else r + 1000
          (inRange r → stepsBy s.tb (ofLin ((old.lin : Int) + r).toNat) r)
          ∧ (¬ inRange r → nearer ≠ 0 → stepsBy s.tb (ofLin ((old.lin : Int) + nearer).toNat) nearer)
          ∧ (¬ inRange r → nearer = 0 → exec (.setTime q day ms) s = .next (State.answer q .done [actionNone, 0] (s.taking q))))

/-- R21: SET DST RULE. NONE takes the rule away, a rule in its ranges replaces it; a field out of its range is refused OUT OF RANGE and equal months
BAD PARAMETER, and then nothing else changes; that a rule at fault in both ways is OUT OF RANGE is the model's choice (log entry 51). With a campus
time the instants of its year and the offset in force follow at once, with no rule the offset 0, and an offset that changes steps civil time, which
the schedule follows while no circuit is running (R53 to R56). That the none byte is 0 for a rule, and any other byte, 0xFF among them, for NONE, is
the model's (log entry 12). -/
def Obligations.SetDstRuleTakesEffect : Prop :=
  ∀ (q : ReqHdr) (p : DstParams) (s : State), s.reaches q = true → LogSound s.ri →
    let put (rule : Option DstRule) : Prop := ∃ t, exec (.setDstRule q p) s = .next t ∧ Decided q .done [] s t
      ∧ (s.tb.campus = none → t.tb = { s.tb with dst := rule } ∧ SameBut [.tb] s t)
      ∧ ∀ now, s.tb.campus = some now →
        let off := offsetAt rule (rule.map fun r => transitionsOf r (yearOf now.day)) now.lin
        t.tb = { s.tb with dst := rule, trans := rule.map (fun r => transitionsOf r (yearOf now.day)), offset := off }
        ∧ (off = s.tb.offset → SameBut [.tb] s t)
        ∧ (off ≠ s.tb.offset → CircuitsAtRest s → ScheduleStepped (civilAt now off) s t)
    (p.none ≠ 0 → put none)
    ∧ (∀ now, s.tb.campus = some now → offsetAt none none now.lin = 0)
    ∧ (p.none = 0 → dstInRange p = false → exec (.setDstRule q p) s = .next ((s.taking q).answer q .outOfRange []))
    ∧ (p.none = 0 → dstInRange p = true → p.startMonth = p.endMonth →
      exec (.setDstRule q p) s = .next ((s.taking q).answer q .badParameter []))
    ∧ (p.none = 0 → dstInRange p = true → p.startMonth ≠ p.endMonth →
      put (some ⟨p.startMonth, p.startWeek, p.startHour, p.endMonth, p.endWeek, p.endHour, p.offset⟩))
    ∧ (dstInRange p = true ↔ (1 ≤ p.startMonth ∧ p.startMonth ≤ 12) ∧ (1 ≤ p.endMonth ∧ p.endMonth ≤ 12)
      ∧ (1 ≤ p.startWeek ∧ p.startWeek ≤ 5) ∧ (1 ≤ p.endWeek ∧ p.endWeek ≤ 5) ∧ p.startHour ≤ 23 ∧ p.endHour ≤ 23
      ∧ 15 ≤ p.offset ∧ p.offset ≤ 120 ∧ p.offset % 15 = 0)

/-- R28, R30, R61, R62, R85, R101, R126, R143, R154, R171, R180, R42, R44, R45: a load, and a schedule switch NOW, NEXT DAY or AT DAY, that passes its
checks is in progress with its request taken, and asks for its first record; nothing else changes. One of no records reads nothing and ends at once:
its table takes its defaults, a switch NOW makes ACTIVE empty, and NEXT DAY and AT DAY make PENDING empty with their effective day. The drill records
become undefined, and that they keep their other fields is the model's choice (log entry 54). That a groups load is checked with one byte a group,
that a table of no records may stand at the end of the free area, and that its load ends in its request's event, is the model's reading (log entry
24). NOW takes any day byte. The patterns, channels, drills and lines are at rest for it. -/
def Obligations.LoadsBegin : Prop :=
  ∀ (q : ReqHdr) (count offset tolerance window : Nat) (s : State), s.reaches q = true →
    let began (a : Access) : State := { s.taking q with ri := { (s.taking q).ri with accesses := s.ri.accesses ++ [a] } }
    (loadable 16 count offset 4 → s.dp.profileLoad = none → exec (.loadTableProfiles q count offset) s =
      .next { began (.record .profiles) with dp := { s.dp with profileLoad := some ⟨q, offset, count, [], false⟩ } })
    ∧ (loadable 96 count offset 6 → s.dp.calendarLoad = none → exec (.loadTableCalendar q count offset) s =
      .next { began (.record .calendar) with dp := { s.dp with calendarLoad := some ⟨q, offset, count, [], false⟩ } })
    ∧ (loadable 64 count offset 4 → s.za.zoneLoad = none → s.zonesQuiet = true → exec (.loadTableZones q count offset) s =
      .next { began (.record .zones) with za := { s.za with zoneLoad := some ⟨q, offset, count, [], false⟩ } })
    ∧ (loadable 64 count offset 1 → s.za.groupLoad = none → s.zonesQuiet = true → exec (.loadTableGroups q count offset) s =
      .next { began (.record .groups) with za := { s.za with groupLoad := some ⟨q, offset, count, [], false⟩ } })
    ∧ (loadable 31 count offset 70 → s.pu.load = none → patternsInUse s = false → exec (.loadTablePatterns q count offset) s =
      .next { began (.record .patterns) with pu := { s.pu with load := some ⟨q, offset, count, [], false⟩ } })
    ∧ (loadable 4 count offset 6 → s.au.load = none → channelsInUse s = false → exec (.loadTableChannels q count offset) s =
      .next { began (.record .channels) with au := { s.au with load := some ⟨q, offset, count, [], false⟩ } })
    ∧ (loadable 8 count offset 8 → s.dc.load = none → s.dc.active = none → exec (.loadTableDrills q count offset) s =
      .next { began (.record .drills) with dc := { s.dc with load := some ⟨q, offset, count, [], false⟩ } })
    ∧ (loadable 4 count offset 8 → s.cu.load = none → exec (.loadTableCircuits q count offset tolerance) s =
      .next { began (.record .circuits) with cu := { s.cu with load := some ⟨⟨q, offset, count, [], false⟩, tolerance⟩ } })
    ∧ (loadable 8 count offset 8 → s.lc.lineLoad = none → exec (.loadTableLines q count offset) s =
      .next { began (.record .lines) with lc := { s.lc with lineLoad := some ⟨q, offset, count, [], false⟩ } })
    ∧ (loadable 320 count offset 12 → s.lc.memberLoad = none → s.zonesUnheld = true → exec (.loadTableMembers q count offset) s =
      .next { began (.record .members) with lc := { s.lc with memberLoad := some ⟨q, offset, count, [], false⟩ } })
    ∧ (loadable 1 1 offset 88 → s.io.load = none → exec (.loadTableIo q offset) s =
      .next { began (.record .io) with io := { s.io with load := some ⟨q, offset, false, none, [], []⟩ } })
    ∧ (loadable 1024 count offset 20 → s.se.switch = none → ∀ day, exec (.switchSchedule q offset count window 0 day) s =
      .next { began .scheduleEntry with se := { s.se with
        switch := some ⟨⟨q, offset, count, [], decide (900 < window)⟩, min window 900, .now⟩ } })
    ∧ (∀ day, loadable 1024 count offset 20 → s.se.switch = none → s.tb.campus ≠ none →
      exec (.switchSchedule q offset count window 1 day) s = .next { began .scheduleEntry with se := { s.se with
        switch := some ⟨⟨q, offset, count, [], decide (900 < window)⟩, min window 900, .nextDay⟩ } }
      ∧ (day ≤ 36525 → (∀ h, s.se.mark = some h → h.day < day) →
        exec (.switchSchedule q offset count window 2 day) s = .next { began .scheduleEntry with se := { s.se with
          switch := some ⟨⟨q, offset, count, [], decide (900 < window)⟩, min window 900, .atDay day⟩ } }))
    ∧ (LogSound s.ri → Counts s → BareLines s → StagedAt offset 0 →
      let ends (i : Instr) (o : Outcome) (bs : List BlockId) (P : State → Prop) : Prop :=
        ∃ t, exec i s = .next t ∧ Decided q o [] s t ∧ SameBut bs s t ∧ P t
      (s.dp.profileLoad = none → ends (.loadTableProfiles q 0 offset) .done [.dp] fun t =>
        t.dp = { s.dp with profiles := List.replicate 16 ⟨0, 0, 0⟩ })
      ∧ (s.dp.calendarLoad = none → ends (.loadTableCalendar q 0 offset) .done [.dp] fun t => t.dp = { s.dp with calendar := [] })
      ∧ (s.za.zoneLoad = none → s.zonesQuiet = true → ends (.loadTableZones q 0 offset) .done [.za] fun t =>
        t.za = { s.za with table := List.replicate 64 ZoneRec.blank, zones := List.replicate 64 ZoneDyn.clear })
      ∧ (s.za.groupLoad = none → s.zonesQuiet = true → ends (.loadTableGroups q 0 offset) .done [.za] fun t =>
        t.za = { s.za with groups := List.replicate 64 0 })
      ∧ (s.pu.load = none → patternsInUse s = false → ends (.loadTablePatterns q 0 offset) .done [.pu] fun t =>
        t.pu = { s.pu with table := List.replicate 31 Pattern.empty, version := (s.pu.version + 1) % 256 })
      ∧ (s.au.load = none → channelsInUse s = false → ends (.loadTableChannels q 0 offset) .done [.au] fun t =>
        ∀ c, c < 4 → t.channel c = { s.channel c with cfg := ⟨1024, 2000, 500⟩ })
      ∧ (s.dc.load = none → s.dc.active = none → ends (.loadTableDrills q 0 offset) .done [.dc] fun t =>
        t.dc = { s.dc with records := s.dc.records.map fun r => { r with defined := false } })
      ∧ (s.cu.load = none → ends (.loadTableCircuits q 0 offset tolerance) (if 1 ≤ tolerance ∧ tolerance ≤ 10 then .done else .doneClamped)
        [.cu, .io] fun t => t.cu.tolerance = max 1 (min 10 tolerance) ∧ t.cu.load = none
          ∧ ∀ i, i < 4 → (t.circuit i).cfg = { (s.circuit i).cfg with enabled := false } ∧ (t.circuit i).st = .off)
      ∧ (s.lc.lineLoad = none → ends (.loadTableLines q 0 offset) .done [.lc, .io] fun t => t.lc.lineLoad = none
        ∧ ∀ i, i < 8 → (t.line i).cfg = { (s.line i).cfg with enabled := false } ∧ (t.line i).state = .off)
      ∧ (s.lc.memberLoad = none → s.zonesUnheld = true → ends (.loadTableMembers q 0 offset) .done [.lc] fun t =>
        t.lc = { s.lc with members := [] })
      ∧ (s.se.switch = none →
        let o : Outcome := if window ≤ 900 then .done else .doneClamped
        (∀ day, ends (.switchSchedule q offset 0 window 0 day) o [.se] fun t =>
          t.se = { s.se with active := ⟨[], min window 900⟩, waiting := none })
        ∧ ∀ h, s.tb.campus ≠ none → s.se.mark = some h →
          (∀ day, ends (.switchSchedule q offset 0 window 1 day) o [.se] fun t =>
            t.se = { s.se with waiting := some ⟨⟨[], min window 900⟩, h.day + 1⟩ })
          ∧ ∀ day, h.day < day → day ≤ 36525 → ends (.switchSchedule q offset 0 window 2 day) o [.se] fun t =>
            t.se = { s.se with waiting := some ⟨⟨[], min window 900⟩, day⟩ }))

/-- R28, R30, R61, R62, R85, R101, R126, R143, R154, R171, R180, R42: a load of any table, and a schedule switch, that fails a check is refused, the first case that
applies giving the outcome, with nothing else changed: a count above the table's limit OUT OF RANGE, an offset that fails the checks REGION OFFSET, and a load in
progress, or a table in use, BUSY; for SWITCH SCHEDULE the choice and AT DAY's day are checked with the count, and after BUSY come NOT READY for NEXT DAY and
AT DAY without a time and OUT OF RANGE for an AT DAY at or before the day of H. That a groups load is checked with one byte a group is the model's reading (log entry
24), and the order of the refusals of PROFILES, CALENDAR and IO is the model's choice (log entry 51). -/
def Obligations.LoadsAreRefused : Prop :=
  ∀ (q : ReqHdr) (s : State), s.reaches q = true →
    let refused (i : Instr) (o : Outcome) : Prop := exec i s = .next ((s.taking q).answer q o [])
    let checks (limit size : Nat) (busy : Prop) (i : Nat → Nat → Instr) : Prop := ∀ count offset,
      (limit < count → refused (i count offset) .outOfRange)
      ∧ (count ≤ limit → ¬ StagedAt offset (count * size) → refused (i count offset) .regionOffset)
      ∧ (count ≤ limit → StagedAt offset (count * size) → busy → refused (i count offset) .busy)
    checks 16 4 (s.dp.profileLoad ≠ none) (.loadTableProfiles q)
    ∧ checks 96 6 (s.dp.calendarLoad ≠ none) (.loadTableCalendar q)
    ∧ checks 64 4 (s.za.zoneLoad ≠ none ∨ ∃ z, z < 64 ∧ ((s.zone z).holder ≠ none ∨ (s.zone z).waiters ≠ [])) (.loadTableZones q)
    ∧ checks 64 1 (s.za.groupLoad ≠ none ∨ ∃ z, z < 64 ∧ ((s.zone z).holder ≠ none ∨ (s.zone z).waiters ≠ [])) (.loadTableGroups q)
    ∧ checks 31 70 (s.pu.load ≠ none ∨ PatternsUsed s) (.loadTablePatterns q)
    ∧ checks 4 6 (s.au.load ≠ none ∨ ChannelsUsed s) (.loadTableChannels q)
    ∧ checks 8 8 (s.dc.load ≠ none ∨ s.dc.active ≠ none) (.loadTableDrills q)
    ∧ (∀ tolerance, checks 4 8 (s.cu.load ≠ none) (fun count offset => .loadTableCircuits q count offset tolerance))
    ∧ checks 8 8 (s.lc.lineLoad ≠ none) (.loadTableLines q)
    ∧ checks 320 12 (s.lc.memberLoad ≠ none ∨ ∃ z, z < 64 ∧ (s.zone z).holder ≠ none) (.loadTableMembers q)
    ∧ (∀ offset, (¬ StagedAt offset 88 → refused (.loadTableIo q offset) .regionOffset)
      ∧ (StagedAt offset 88 → s.io.load ≠ none → refused (.loadTableIo q offset) .busy))
    ∧ ∀ window choice day : Nat,
      let badChoice : Prop := 2 < choice ∨ (choice = 2 ∧ 36525 < day)
      (∀ count offset, badChoice → refused (.switchSchedule q offset count window choice day) .outOfRange)
      ∧ (¬ badChoice → checks 1024 20 (s.se.switch ≠ none) fun count offset => .switchSchedule q offset count window choice day)
      ∧ ∀ count offset, ¬ badChoice → count ≤ 1024 → StagedAt offset (count * 20) → s.se.switch = none →
        (s.tb.campus = none → choice ≠ 0 → refused (.switchSchedule q offset count window choice day) .notReady)
        ∧ ∀ h, s.tb.campus ≠ none → s.se.mark = some h → choice = 2 → day ≤ h.day →
          refused (.switchSchedule q offset count window choice day) .outOfRange

/-- R32: SET TODAY PROFILE gives today a profile, or with NONE takes the override away, and the result words give the current day profile before and
after. Out of range, or without a time, it is refused, and OUT OF RANGE comes first by the model's choice (log entry 51). NONE with no override changes nothing. No other
block changes. -/
def Obligations.SetTodayProfileTakesEffect : Prop :=
  ∀ (q : ReqHdr) (p : Nat) (s : State), s.reaches q = true → LogSound s.ri →
    (15 < p → p ≠ 0xFF → exec (.setTodayProfile q p) s = .next ((s.taking q).answer q .outOfRange []))
    ∧ (p ≤ 15 ∨ p = 0xFF → s.tb.campus = none → exec (.setTodayProfile q p) s = .next ((s.taking q).answer q .notReady []))
    ∧ (s.tb.campus ≠ none → s.dp.override = none → exec (.setTodayProfile q 0xFF) s = .next
      ((s.taking q).answer q .done [numWord s.se.profile, numWord s.se.profile]))
    ∧ (p ≤ 15 → s.tb.campus ≠ none → ∃ t, exec (.setTodayProfile q p) s = .next t
      ∧ Decided q .done [numWord s.se.profile, numWord p] s t
      ∧ t.dp = { s.dp with override := some ⟨p, s.dp.dayBegun.getD 0⟩ } ∧ t.se = { s.se with profile := p }
      ∧ SameBut [.dp, .se] s t)
    ∧ (s.tb.campus ≠ none → s.dp.override ≠ none → ∃ t, exec (.setTodayProfile q 0xFF) s = .next t
      ∧ Decided q .done [numWord s.se.profile, numWord t.se.profile] s t
      ∧ t.dp = { s.dp with override := none } ∧ t.se = { s.se with profile := profileOf s.dp.calendar (s.dp.dayBegun.getD 0) }
      ∧ SameBut [.dp, .se] s t)

/-- R88 to R90, R76: RING on one zone that nobody holds and that puts nothing on a line, with no claim waiting for any zone: a bell instance takes the
lowest free number, the zone is BELL, held by it at its level, its cadence begins at this moment with the pattern's first step, the request is
answered with the number and one zone, and no other zone changes. A group above 63, a pattern above 31 or a level outside 2 to 9 is refused OUT OF RANGE;
another target kind, an empty pattern or an empty target BAD PARAMETER; and with all 64 numbers taken the outcome is BUSY. A request at fault in both of
the first two ways is OUT OF RANGE by the model's choice (log entry 51). -/
def Obligations.RingSoundsAFreeZone : Prop :=
  ∀ (q : ReqHdr) (p : RingParams) (s : State), s.reaches q = true → LogSound s.ri →
    let outOfRange : Prop := (p.targetKind = 0 ∧ 63 < p.group) ∨ 31 < p.pattern ∨ p.level < 2 ∨ 9 < p.level
    let target : ZoneSet := if p.targetKind = 0 then s.group p.group else p.zones
    let bad : Prop := 1 < p.targetKind ∨ (s.pattern p.pattern).steps = [] ∨ target = 0
    (outOfRange → exec (.ring q p) s = .next ((s.taking q).answer q .outOfRange []))
    ∧ (¬ outOfRange → bad → exec (.ring q p) s = .next ((s.taking q).answer q .badParameter []))
    ∧ (¬ outOfRange → ¬ bad → (∀ n, n < 64 → ∃ b, b ∈ s.pu.bells ∧ b.num = n) → ∃ t, exec (.ring q p) s = .next t
      ∧ Decided q .busy [] s t ∧ SameBut [] s t)
    ∧ ∀ z n : Nat, NoWaiters s → FreeZone z s → ¬ outOfRange → ¬ bad → target = BitVec.twoPow 64 z → freeBell s.pu.bells = some n →
    ∃ t h b, exec (.ring q p) s = .next t
      ∧ Decided q (if p.defer ≤ 120 ∧ 1 ≤ p.duration ∧ p.duration ≤ 600 then .done else .doneClamped) [numWord n, numWord 1] s t
      ∧ (t.zone z).holder = some h ∧ h.who = .bell n ∧ h.level = p.level ∧ t.zoneState z = .bell
      ∧ (t.zone z).cadence = (s.pattern p.pattern).cadenceAt 0 ∧ (∀ y, y ≠ z → t.zone y = s.zone y)
      ∧ t.pu = { s.pu with bells := s.pu.bells ++ [b] } ∧ b.num = n ∧ b.source = .ring q.tag ∧ b.pattern = p.pattern ∧ b.level = p.level
      ∧ b.zones = [⟨z, .sounding, true, s.elapsed⟩]
      ∧ SameBut [.za, .pu] s t

/-- R66 to R68, R70, R71, R74: contested claims. A claim on a held zone at a strictly better level takes it, and the holder's claim rejoins the empty
wait list or ends; another joins the wait list, behind those of its level and better and before the worse, in the place of the last where four wait
and it is better, or is turned away. On a zone reserved for a speaking waiter only a better claim is granted. A speaking claim whose building's feed
another holds leaves its zone IDLE, reserved for it if it waits, unless it is better: then it takes the zone and the feed, whose holder loses all its
zones of the building. At a release the best waiter, not speaking, is granted the zone. So RING and START DRILL take a zone from a bell at a worse
level, which waits until its deadline or has ended; a RING at no better level waits for its defer time or is missed; and the bell that waits sounds
when the one before it has finished. -/
def Obligations.ContestedZonesGoByLevel : Prop :=
  (∀ (z : Nat) (x : Claim) (c : Ctx), Contest z c.st → (∀ h, (c.st.zone z).holder = some h → h.who ≠ x.who) →
    (∀ w, w ∈ (c.st.zone z).waiters → w.who ≠ x.who) →
    let s := c.st
    let t := (claim z x c).st
    let new : Claim := { x with arrival := s.za.arrival }
    let granted : Option Claim := some { new with grantEv := s.eventNo }
    let becomes (d : ZoneDyn) : Prop := t.zone z = d ∧ ∀ y, y ≠ z → t.zone y = s.zone y
    let between (us vs : List Claim) : Prop := (∀ u, u ∈ us → u.level < x.level ∨ (u.level = x.level ∧ u.arrival ≤ s.za.arrival))
      ∧ ∀ v, v ∈ vs → x.level < v.level
    (∀ h, (s.zone z).holder = some h → (s.zone z).reserved = none →
      (x.level < h.level → x.speaking = false → (s.zone z).waiters = [] → becomes ⟨granted, h.rejoining s.elapsed, none, .quiet⟩)
      ∧ (h.level ≤ x.level → x.mayWait = false → becomes (s.zone z))
      ∧ (h.level ≤ x.level → x.mayWait = true → ∀ us vs,
        ((s.zone z).waiters = us ++ vs → us.length + vs.length < 4 → between us vs → becomes { s.zone z with waiters := us ++ new :: vs })
        ∧ ∀ w, (s.zone z).waiters = us ++ vs ++ [w] → us.length + vs.length = 3 →
          (w.level ≤ x.level → becomes (s.zone z))
          ∧ (x.level < w.level → between us vs → (∀ u, u ∈ us ++ vs → u.who ≠ w.who) → becomes { s.zone z with waiters := us ++ new :: vs })))
    ∧ (∀ v f, (s.zone z).holder = none → (s.zone z).waiters = [v] → (s.zone z).reserved = some v.who → v.speaking = true →
      FeedHeld (s.zoneRec z).building f s → f.who ≠ v.who → f.level ≤ v.level → v.arrival ≤ s.za.arrival →
      (x.level < v.level → x.speaking = false → becomes ⟨granted, [v], none, .quiet⟩)
      ∧ (v.level ≤ x.level → x.mayWait = true → becomes { s.zone z with waiters := [v, new] })
      ∧ (v.level ≤ x.level → x.mayWait = false → becomes (s.zone z)))
    ∧ ∀ f, (s.zone z).holder = none → (s.zone z).waiters = [] → (s.zone z).reserved = none → x.speaking = true →
      FeedHeld (s.zoneRec z).building f s → f.who ≠ x.who →
      (f.level ≤ x.level → t.za.feeds = s.za.feeds
        ∧ becomes (if x.mayWait = true then { s.zone z with waiters := [new], reserved := some x.who } else s.zone z))
      ∧ (x.level < f.level → t.za.feeds = s.za.feeds.set (s.zoneRec z).building (some ⟨x.who, x.level⟩)
        ∧ t.zone z = ⟨granted, [], none, .quiet⟩
        ∧ ∀ y, y ≠ z → ((∃ h, y < 64 ∧ (s.zoneRec y).building = (s.zoneRec z).building ∧ (s.zone y).holder = some h ∧ h.who = f.who
            ∧ t.zone y = ⟨none, h.rejoining s.elapsed, (h.rejoining s.elapsed).head?.map (·.who), .quiet⟩)
          ∨ (¬ (∃ h, y < 64 ∧ (s.zoneRec y).building = (s.zoneRec z).building ∧ (s.zone y).holder = some h ∧ h.who = f.who)
            ∧ t.zone y = s.zone y))))
  ∧ (∀ (z : Nat) (h w : Claim) (ws : List Claim) (c : Ctx), Contest z c.st → (c.st.zone z).holder = some h → (c.st.zone z).waiters = w :: ws →
    (c.st.zone z).reserved = none → w.speaking = false → (∀ u, u ∈ ws → u.who ≠ w.who) →
    (releaseZone z h.who c).st.zone z = ⟨some { w with grantEv := c.st.eventNo }, ws, none, .quiet⟩
    ∧ ∀ y, y ≠ z → (releaseZone z h.who c).st.zone y = c.st.zone y)
  ∧ ∀ (z n0 deadline : Nat) (b0 : Bell) (e : BellZone) (h : Claim) (s : State), Contest z s → LogSound s.ri → BellHolds n0 z deadline b0 e h s →
    let taken (t : State) : Prop := (s.elapsed < deadline → (t.zone z).waiters = [{ h with waitLimit := some deadline }]
        ∧ t.bell? n0 = some { b0 with zones := [{ e with st := .waiting }] })
      ∧ (deadline ≤ s.elapsed → (t.zone z).waiters = [] ∧ t.bell? n0 = none) ∧ ∀ y, y ≠ z → t.zone y = s.zone y
    (∀ (q : ReqHdr) (p : RingParams) (n : Nat), s.reaches q = true → (s.zone z).waiters = [] → p.targetKind ≤ 1 →
      (if p.targetKind = 0 then s.group p.group else p.zones) = BitVec.twoPow 64 z → (p.targetKind = 0 → p.group ≤ 63) → p.pattern ≤ 31 →
      (s.pattern p.pattern).steps ≠ [] → 2 ≤ p.level → p.level ≤ 9 → freeBell s.pu.bells = some n →
      ∃ t, exec (.ring q p) s = .next t ∧ SameBut [.za, .pu] s t
        ∧ Decided q (if p.defer ≤ 120 ∧ 1 ≤ p.duration ∧ p.duration ≤ 600 then .done else .doneClamped) [numWord n, numWord 1] s t
        ∧ (p.level < h.level → taken t ∧ ∃ g b, (t.zone z).holder = some g ∧ g.who = .bell n ∧ g.level = p.level ∧ t.bell? n = some b
          ∧ b.zones = [⟨z, .sounding, true, s.elapsed⟩] ∧ (t.zone z).cadence = (s.pattern p.pattern).cadenceAt 0)
        ∧ (h.level ≤ p.level → 0 < p.defer → ∃ w b, t.zone z = { s.zone z with waiters := [w] } ∧ w.who = .bell n ∧ w.level = p.level
          ∧ w.waitLimit = some (s.elapsed + 1000 * min p.defer 120) ∧ t.pu.bells = s.pu.bells ++ [b] ∧ b.num = n
          ∧ b.zones = [⟨z, .waiting, false, 0⟩] ∧ ∀ y, y ≠ z → t.zone y = s.zone y)
        ∧ (h.level ≤ p.level → p.defer = 0 → t.pu.bells = s.pu.bells ∧ ∀ y, t.zone y = s.zone y))
    ∧ (∀ (q : ReqHdr) (n : Nat), s.reaches q = true → (s.zone z).waiters = [] → 1 < h.level → n ≤ 7 → drillRefusal s n = none →
      (s.dc.records.getD n DrillRec.undefined).tone = false → drillZones s (s.dc.records.getD n DrillRec.undefined) = [z] →
      ∃ t g, exec (.startDrill q n) s = .next t ∧ SameBut [.za, .pu, .dc] s t ∧ Decided q .done [numWord n, numWord 1] s t ∧ taken t
        ∧ (t.zone z).holder = some g ∧ g.who = .drill n ∧ g.level = 1 ∧ t.zoneState z = .evac)
    ∧ ∀ (w : Claim) (m : Nat) (b : Bell) (x : BellZone), s.running = true → e.st = .sounding → e.start + b0.length ≤ s.elapsed →
      (s.zone z).waiters = [w] → w.who = .bell m → m ≠ n0 → w.speaking = false → s.bell? m = some b → b.zones = [x] → x.zone = z →
      ∃ t, exec (.bellCadenceEnd n0 z) s = .next t ∧ t.bell? n0 = none ∧ SameBut [.za, .pu] s t
        ∧ t.zone z = ⟨some { w with grantEv := s.eventNo + 1 }, [], none, (s.pattern b.pattern).cadenceAt 0⟩ ∧ (∀ y, y ≠ z → t.zone y = s.zone y)
        ∧ t.bell? m = some { b with zones := [{ x with st := .sounding, sounded := true, start := s.elapsed }] }

/-- R106, R110, R111: ANNOUNCE of a chime alone on one zone that nobody holds, with no claim waiting, no feed held, bare lines and a free channel: the
announcement takes the channel and the zone, which is PAGE, is routed at once, and enters CHIME; the result words are its number and the state ROUTING
in which it was taken. No other zone changes. The refusals come in the order of R106 and change nothing else; without a channel the outcome is NO CHANNEL
where it may not wait, and no record is kept, and else it waits, with the result word WAITING. That the states are numbered by R109's table, in which ROUTING is 1
and WAITING 0, is the model's reading (log entry 13), as is yes 1 and no 0 (log entry 12). -/
def Obligations.AnnounceChimesOnAFreeZone : Prop :=
  ∀ (q : ReqHdr) (p : AnnounceParams) (s : State), s.reaches q = true → LogSound s.ri →
    let outOfRange : Prop := (p.targetKind = 0 ∧ 63 < p.group) ∨ (p.chime ≠ 0xFF ∧ 31 < p.chime) ∨ p.level < 2 ∨ 9 < p.level
    let target : ZoneSet := if p.targetKind = 0 then s.group p.group else p.zones
    let bad : Prop := 3 < p.source ∨ 1 < p.targetKind ∨ 1 < p.onPreempt ∨ 1 < p.lateJoin ∨ 1 < p.wait ∨ target = 0
      ∨ (p.chime ≠ 0xFF ∧ (s.pattern p.chime).steps = []) ∨ (p.source = 3 ∧ p.chime = 0xFF)
    let badOffset : Prop := p.source = 0 ∧ ¬ (p.blockOffset % 4 = 0 ∧ 0x3000 ≤ p.blockOffset ∧ p.blockOffset + 16 ≤ 0x100000)
    let busy : Prop := 12 ≤ s.au.anns.length ∨ ∃ a live, a ∈ s.au.anns ∧ live ≤ 1 ∧ a.source = .live live ∧ p.source = live + 1
    let refused (o : Outcome) : Prop := exec (.announce q p) s = .next ((s.taking q).answer q o [])
    let outcome : Outcome := if 1 ≤ p.duration ∧ p.duration ≤ 600 ∧ p.resume ≤ 300 then .done else .doneClamped
    let noChannel : Prop := ∀ ch, ch < 4 → ∃ o, (s.channel ch).owner = some o
      ∧ ∀ n a, o = .ann n → s.ann? n = some a → a.level ≤ p.level
    (outOfRange → refused .outOfRange)
    ∧ (¬ outOfRange → bad → refused .badParameter)
    ∧ (¬ outOfRange → ¬ bad → badOffset → refused .regionOffset)
    ∧ (¬ outOfRange → ¬ bad → ¬ badOffset → busy → refused .busy)
    ∧ (¬ outOfRange → ¬ bad → ¬ badOffset → ¬ busy → noChannel →
      (p.wait = 0 → ∃ t, exec (.announce q p) s = .next t ∧ Decided q .noChannel [] s t ∧ t.au.anns = s.au.anns
        ∧ t.au.waitList = s.au.waitList ∧ t.au.channels = s.au.channels ∧ SameBut [.au] s t)
      ∧ (p.wait = 1 → s.au.waitList.length < 8 → ∃ t a, exec (.announce q p) s = .next t
        ∧ Decided q outcome [numWord (nextAnnNumber s), numWord 0] s t ∧ t.au.anns = s.au.anns ++ [a] ∧ a.num = nextAnnNumber s
        ∧ a.st = .waiting ∧ a.level = p.level ∧ a.num ∈ t.au.waitList ∧ t.au.channels = s.au.channels ∧ SameBut [.au] s t))
    ∧ ∀ z ch : Nat, Counts s → NoWaiters s → FreeZone z s → BareLines s → (∀ b, s.za.feeds.getD b none = none) → freeChannel? s = some ch →
    ¬ outOfRange → ¬ bad → ¬ busy → target = BitVec.twoPow 64 z → p.source = 3 →
    ∃ t h a, exec (.announce q p) s = .next t
      ∧ Decided q outcome [numWord (nextAnnNumber s), numWord 1] s t
      ∧ s.ann? (nextAnnNumber s) = none ∧ t.ann? (nextAnnNumber s) = some a ∧ a.st = .chime ∧ a.level = p.level ∧ a.channel = some ch
      ∧ (t.channel ch).owner = some (.ann (nextAnnNumber s))
      ∧ (t.zone z).holder = some h ∧ h.who = .ann (nextAnnNumber s) ∧ t.zoneState z = .page ∧ (∀ y, y ≠ z → t.zone y = s.zone y)
      ∧ SameBut [.za, .au] s t

/-- R108, R114: END ANNOUNCEMENT answers with the samples fetched and played; a waiting announcement's record is gone from the announcements and from
the wait list, and one that is under way and can end alone (no claim or announcement waits, the lines are bare, no block is to be marked) ends
CANCELLED. Of no announcement it is refused BAD PARAMETER, and of one that is ENDING, STATE. -/
def Obligations.EndAnnouncementEndsIt : Prop :=
  ∀ (q : ReqHdr) (n : Nat) (s : State), s.reaches q = true → LogSound s.ri →
    (s.ann? n = none → exec (.endAnnouncement q n) s = .next ((s.taking q).answer q .badParameter []))
    ∧ ∀ a, s.ann? n = some a →
      (a.st = .ending → exec (.endAnnouncement q n) s = .next ((s.taking q).answer q .state []))
      ∧ (a.st ≠ .ending → ∃ t, exec (.endAnnouncement q n) s = .next t ∧ Decided q .done [numWord a.fetched, numWord a.played] s t
        ∧ (a.st = .waiting → t.au.anns = s.au.anns.filter (fun e => e.num != n)
          ∧ t.au.waitList = s.au.waitList.filter (· != n) ∧ SameBut [.au] s t)
        ∧ ∀ ch, EndsAlone n ch a s → AnnGone n ch .cancelled s t)

/-- R127, R128: START DRILL of a drill without tone and with one zone, which nobody holds and which puts nothing on a line: the drill is active in
SOUNDING from this moment, the zone is EVAC, held by it at level 1, with pattern 31 sounding, and the answer gives the drill number and one zone. The
refusals come in the order of R127, and change nothing else. -/
def Obligations.StartDrillEvacuatesAFreeZone : Prop :=
  ∀ (q : ReqHdr) (n z : Nat) (s : State), s.reaches q = true → LogSound s.ri →
    let r := s.dc.records.getD n DrillRec.undefined
    (7 < n → exec (.startDrill q n) s = .next ((s.taking q).answer q .outOfRange []))
    ∧ (n ≤ 7 → r.defined = false → exec (.startDrill q n) s = .next ((s.taking q).answer q .badParameter []))
    ∧ (n ≤ 7 → r.defined = true → s.tb.campus = none → exec (.startDrill q n) s = .next ((s.taking q).answer q .notReady []))
    ∧ (n ≤ 7 → r.defined = true → s.tb.campus ≠ none → s.dc.fireActive = true ∨ s.dc.silenceHeld = true →
      exec (.startDrill q n) s = .next ((s.taking q).answer q .fireActive []))
    ∧ (n ≤ 7 → r.defined = true → s.tb.campus ≠ none → s.dc.fireActive = false → s.dc.silenceHeld = false → s.dc.active ≠ none →
      exec (.startDrill q n) s = .next ((s.taking q).answer q .busy []))
    ∧ (n ≤ 7 → drillRefusal s n = none → r.tone = false → drillZones s r = [z] → FreeZone z s → NoWaiters s →
      ∃ t h d, exec (.startDrill q n) s = .next t ∧ Decided q .done [numWord n, numWord 1] s t
        ∧ t.dc = { s.dc with active := some d } ∧ d.num = n ∧ d.phase = .sounding ∧ d.start = s.elapsed ∧ d.origin = .request q.tag
        ∧ d.zones = [⟨z, some ⟨31, s.elapsed, 1000 * r.sounding⟩, false, false⟩]
        ∧ d.buildings = (membersOf r.buildings).map (fun b => ⟨b, none, none, false⟩)
        ∧ (t.zone z).holder = some h ∧ h.who = .drill n ∧ h.level = 1 ∧ h.sound = some ⟨31, 1000 * r.sounding⟩ ∧ t.zoneState z = .evac
        ∧ (t.zone z).cadence = .on ∧ (∀ y, y ≠ z → t.zone y = s.zone y) ∧ SameBut [.za, .dc] s t)

/-- R130, R131, R134 to R136: STOP SOUNDING while a drill sounds answers DONE, and a drill without tone whose zones sound on no line then stands in
EVACUATING with no cadence running, its zones QUIET and every zone still held by its holder; while none sounds it is refused STATE. END DRILL ends a
drill, in any phase, and answers with its number and the counts of buildings cleared and not reported, and ALL CLEAR in SOUNDING and EVACUATING
answers DONE. In quiet surroundings (no claim or announcement waits, the lines are bare, no zone of the drill sounds on line) END DRILL leaves no
drill active, the drill ABORTED: every zone it held has no holder, its channel is free, and every other zone keeps its holder. So does ALL CLEAR of a
drill without an all-clear pattern, the drill COMPLETE. With a pattern and a group of one zone, which the drill holds or nobody does, ALL CLEAR of a
drill without tone begins ALL CLEAR: the zone is EVAC, its cadence is at the pattern's first step, for the pattern's length or one cycle of a
continuous one. Without a drill, and for ALL CLEAR in ALL CLEAR, they are refused STATE. -/
def Obligations.DrillRequestsTakeEffect : Prop :=
  ∀ (q : ReqHdr) (s : State), s.reaches q = true → LogSound s.ri →
    (s.phase? ≠ some .sounding → exec (.stopSounding q) s = .next ((s.taking q).answer q .state []))
    ∧ (s.dc.active = none → exec (.endDrill q) s = .next ((s.taking q).answer q .state []))
    ∧ (s.dc.active = none ∨ s.phase? = some .allClear → exec (.allClear q) s = .next ((s.taking q).answer q .state []))
    ∧ ∀ d, s.dc.active = some d →
      (d.phase = .sounding → ∃ t, exec (.stopSounding q) s = .next t ∧ Decided q .done [] s t
        ∧ (d.tone = false → d.channel = none → (∀ e, e ∈ d.zones → (s.zoneRec e.zone).sounds = false) →
          t.dc = { s.dc with active := some { d with phase := .evacuating, zones := d.zones.map fun e => { e with cad := none } } }
          ∧ (∀ z h, (s.zone z).holder = some h → ∃ g, (t.zone z).holder = some g ∧ g.who = h.who)
          ∧ (∀ e h, e ∈ d.zones → e.cad ≠ none → (s.zone e.zone).holder = some h → h.who = .drill d.num → (t.zone e.zone).cadence = .quiet)
          ∧ SameBut [.dc, .za] s t))
      ∧ (∃ t, exec (.endDrill q) s = .next t
        ∧ Decided q .done [numWord d.num, numWord (d.buildings.filter fun b => b.clear.isSome).length,
          numWord ((d.buildings.length : Int) - (d.buildings.filter fun b => b.clear.isSome).length)] s t
        ∧ (DrillAlone d s → DrillGone d .aborted s t))
      ∧ (d.phase = .sounding ∨ d.phase = .evacuating → ∃ t, exec (.allClear q) s = .next t ∧ Decided q .done [] s t
        ∧ (DrillAlone d s → d.record.allClear = none → DrillGone d .complete s t)
        ∧ ∀ p z, d.record.allClear = some p → (s.pattern p).steps ≠ [] → s.group d.record.group = BitVec.twoPow 64 z → z < 64 → Counts s →
          d.tone = false → d.channel = none → (s.zoneRec z).sounds = false → (s.zoneRec z).speaks = false →
          let run : CadRun := ⟨p, s.elapsed, (s.pattern p).cycle * max 1 (s.pattern p).repeats⟩
          let begun (e : DrillZone) : Prop := ∃ h, t.dc = { s.dc with active := some { d with phase := .allClear, zones := [e] } }
            ∧ (t.zone z).holder = some h ∧ h.who = .drill d.num ∧ h.sound = some ⟨p, run.length⟩
            ∧ (t.zone z).cadence = (s.pattern p).cadenceAt 0 ∧ (∀ y, y ≠ z → t.zone y = s.zone y) ∧ SameBut [.dc, .za] s t
          (∀ e h, d.zones = [e] → e.zone = z → (s.zone z).holder = some h → h.who = .drill d.num →
            begun { e with cad := some run, inAllClear := true, ended := false })
          ∧ (d.zones = [] → FreeZone z s → NoWaiters s → begun ⟨z, some run, true, false⟩ ∧ t.zoneState z = .evac))

/-- R139, R80: RESUME AFTER ALARM is refused FIRE ACTIVE while the fire input is active; else silence is no longer held, every SILENCED zone becomes
IDLE with an empty wait list, every other zone stays, and the answer counts the zones released. -/
def Obligations.ResumeReleasesSilence : Prop :=
  ∀ (q : ReqHdr) (s : State), s.reaches q = true → LogSound s.ri →
    (s.dc.fireActive = true → exec (.resumeAfterAlarm q) s = .next ((s.taking q).answer q .fireActive []))
    ∧ (s.dc.fireActive = false → ∃ t, exec (.resumeAfterAlarm q) s = .next t ∧ Decided q .done [numWord s.silenced.length] s t
      ∧ t.dc = { s.dc with silenceHeld := false }
      ∧ (∀ z, z < 64 → s.zoneState z = .silenced → t.zoneState z = .idle ∧ (t.zone z).waiters = [])
      ∧ (∀ z, s.zoneState z ≠ .silenced → t.zone z = s.zone z) ∧ t.za.fireReported = s.za.fireReported
      ∧ SameBut [.za, .dc] s t)

/-- R148, R147: SET DIAL gives a circuit its position and polarity and voids a pulse that is on; CLEAR FAULTS empties a circuit's open count and takes
it out of FAULT. Each answers with the circuit's state, and no other circuit changes. With no pulse on, SET DIAL decides at once by R144 with the
dial's new position, from any state, and so does CLEAR FAULTS in FAULT; with a pulse on, the state and the next pulse instant stay. A circuit above 3,
and for SET DIAL a position outside the dial, is refused OUT OF RANGE, another polarity BAD PARAMETER, and an OFF circuit, or for SET DIAL a time that
is UNSET, STATE, and nothing else changes. -/
def Obligations.CircuitRequestsTakeEffect : Prop :=
  ∀ (q : ReqHdr) (i pos pol : Nat) (s : State), s.reaches q = true → LogSound s.ri → Counts s →
    (3 < i → exec (.setDial q i pos pol) s = .next ((s.taking q).answer q .outOfRange [])
      ∧ exec (.clearFaultsCircuit q i) s = .next ((s.taking q).answer q .outOfRange []))
    ∧ (i ≤ 3 → (s.circuit i).cfg.dial ≤ pos → exec (.setDial q i pos pol) s = .next ((s.taking q).answer q .outOfRange []))
    ∧ (i ≤ 3 → pos < (s.circuit i).cfg.dial → 1 < pol → exec (.setDial q i pos pol) s = .next ((s.taking q).answer q .badParameter []))
    ∧ (i ≤ 3 → pos < (s.circuit i).cfg.dial → pol ≤ 1 → (s.circuit i).st = .off ∨ s.tb.campus = none →
      exec (.setDial q i pos pol) s = .next ((s.taking q).answer q .state []))
    ∧ (i ≤ 3 → pos < (s.circuit i).cfg.dial → pol ≤ 1 → (s.circuit i).st ≠ .off → s.tb.campus ≠ none →
      ∃ t, exec (.setDial q i pos pol) s = .next t ∧ Decided q .done [numWord pos, numWord (t.circuit i).st.code] s t
        ∧ (t.circuit i).pos = pos ∧ (t.circuit i).polarity = (if pol = 0 then .positive else .negative)
        ∧ (t.circuit i).openCount = 0 ∧ (t.circuit i).cfg = (s.circuit i).cfg
        ∧ (t.circuit i).pulse = (s.circuit i).pulse.map (fun u => { u with void := true })
        ∧ ((s.circuit i).pulse ≠ none → (t.circuit i).st = (s.circuit i).st ∧ (t.circuit i).nextAt = (s.circuit i).nextAt)
        ∧ (∀ civ, s.civil = some civ → (s.circuit i).pulse = none → t.circuit i = Circuit.decided (civ.ms / 60000) s.elapsed
          { s.circuit i with pos := pos, polarity := if pol = 0 then .positive else .negative, openCount := 0 })
        ∧ (∀ j, j ≠ i → t.circuit j = s.circuit j) ∧ SameBut [.cu, .io] s t)
    ∧ (i ≤ 3 → (s.circuit i).st = .off → exec (.clearFaultsCircuit q i) s = .next ((s.taking q).answer q .state []))
    ∧ (i ≤ 3 → (s.circuit i).st ≠ .off → ∃ t, exec (.clearFaultsCircuit q i) s = .next t
      ∧ Decided q .done [numWord (t.circuit i).st.code] s t ∧ (t.circuit i).st ≠ .fault ∧ (t.circuit i).openCount = 0
      ∧ ((s.circuit i).st ≠ .fault → t.circuit i = { s.circuit i with openCount := 0 }) ∧ (t.circuit i).pos = (s.circuit i).pos
      ∧ (∀ civ, s.civil = some civ → (s.circuit i).st = .fault →
        t.circuit i = Circuit.decided (civ.ms / 60000) s.elapsed { s.circuit i with openCount := 0 })
      ∧ (∀ j, j ≠ i → t.circuit j = s.circuit j) ∧ SameBut [.cu, .io] s t)

/-- R174, R175: ENUMERATE LINE on an idle line begins in ASSIGNING and offers the lowest address with no record to the unaddressed node; where every address
has a record it ends at once, TABLE FULL, with its record and no other change. RENUMBER LINE on an idle line offers a CLEAR ADDRESS to the recorded node of the
highest chain position first, and with no node recorded goes on to ASSIGNING, from address 1. They answer DONE at once; they are refused OUT OF RANGE, STATE and
BUSY in that order, RENUMBER LINE BUSY also while an enabled zone of the line's building is held. The cause's code is the model's (log entry 14). -/
def Obligations.EnumerationsBegin : Prop :=
  ∀ (q : ReqHdr) (ln : Nat) (s : State), s.reaches q = true → LogSound s.ri → Counts s →
    let free : Prop := ln ≤ 7 ∧ (s.line ln).active = true ∧ (s.line ln).enumeration = none
    let begun (e : Enumeration) (k : TxKind) (d : Dest) (t : State) : Prop := Decided q .done [] s t ∧ ∃ f,
      t.line ln = { s.line ln with enumeration := some e, inFlight := some f } ∧ f.tx.kind = k ∧ f.tx.dest = d ∧ f.attempt = 1
      ∧ f.timeoutAt = none ∧ (∀ k, k ≠ ln → t.line k = s.line k) ∧ SameBut [.lc] s t
    (7 < ln → exec (.enumerateLine q ln) s = .next ((s.taking q).answer q .outOfRange [])
      ∧ exec (.renumberLine q ln) s = .next ((s.taking q).answer q .outOfRange []))
    ∧ (ln ≤ 7 → (s.line ln).active = false → exec (.enumerateLine q ln) s = .next ((s.taking q).answer q .state [])
      ∧ exec (.renumberLine q ln) s = .next ((s.taking q).answer q .state []))
    ∧ (ln ≤ 7 → (s.line ln).active = true → (s.line ln).enumeration ≠ none →
      exec (.enumerateLine q ln) s = .next ((s.taking q).answer q .busy [])
      ∧ exec (.renumberLine q ln) s = .next ((s.taking q).answer q .busy []))
    ∧ (∀ a, free → IdleLine (s.line ln) → 1 ≤ a → a ≤ 40 → (s.line ln).node? a = none → (∀ b, 1 ≤ b → b < a → (s.line ln).node? b ≠ none) →
      ∃ t, exec (.enumerateLine q ln) s = .next t ∧ begun ⟨.assigning, some a, 0, 0, q.tag, s.eventNo + 1⟩ (.assign a) .unaddressed t)
    ∧ (free → (∀ b, 1 ≤ b → b ≤ 40 → (s.line ln).node? b ≠ none) → (s.line ln).deferred = [] → ∃ t,
      exec (.enumerateLine q ln) s = .next t ∧ Decided q .done [] s t
      ∧ t.ri = ((s.taking q).answer q .done []).ri.take (stamped s ⟨.enumerationDone, .routine, .lc, ln, q.tag, dv 0, dv 2, dv 0⟩)
      ∧ (∀ k, t.line k = s.line k) ∧ SameBut [.lc] s t)
    ∧ (free → (∃ z, z < 64 ∧ (s.zoneRec z).building = ln ∧ (s.zoneRec z).enabled = true ∧ (s.zone z).holder ≠ none) →
      exec (.renumberLine q ln) s = .next ((s.taking q).answer q .busy []))
    ∧ (free → (∀ z, z < 64 → (s.zoneRec z).building = ln → (s.zone z).holder = none) →
      (∀ n, IdleLine (s.line ln) → (s.line ln).lastInChain = some n → (s.line ln).node? n.addr = some n → n.busyUntil = none →
        ∃ t, exec (.renumberLine q ln) s = .next t
        ∧ begun ⟨.clearing, some n.addr, 0, 0, q.tag, s.eventNo + 1⟩ .clearAddress (.node n.addr) t)
      ∧ (BareLine (s.line ln) → ∃ t, exec (.renumberLine q ln) s = .next t
        ∧ begun ⟨.assigning, some 1, 0, 0, q.tag, s.eventNo + 1⟩ (.assign 1) .unaddressed t))

/-- R172: SET NODE sets a node of an idle line aside, or enables an ABSENT one, which becomes UNKNOWN; CLEAR FAULTS for a line makes every FAULTED
node UNKNOWN, empties the fault summary and answers with the count of nodes returned. A line above 7 or an address outside 1 to 40 is refused OUT OF
RANGE, another action or an address with no record BAD PARAMETER, ENABLE of a node that is not ABSENT and CLEAR FAULTS of an OFF line STATE, and
nothing else changes; ABSENT of an ABSENT node changes nothing and is DONE. That OUT OF RANGE comes before BAD PARAMETER is the model's choice (log
entry 51). -/
def Obligations.NodeRequestsTakeEffect : Prop :=
  ∀ (q : ReqHdr) (ln a action : Nat) (s : State), s.reaches q = true → LogSound s.ri → Counts s →
    (7 < ln → exec (.setNode q ln a action) s = .next ((s.taking q).answer q .outOfRange [])
      ∧ exec (.clearFaultsLine q ln) s = .next ((s.taking q).answer q .outOfRange []))
    ∧ (ln ≤ 7 → a < 1 ∨ 40 < a → exec (.setNode q ln a action) s = .next ((s.taking q).answer q .outOfRange []))
    ∧ (ln ≤ 7 → 1 ≤ a → a ≤ 40 → (s.line ln).node? a = none →
      exec (.setNode q ln a action) s = .next ((s.taking q).answer q .badParameter []))
    ∧ (∀ n, ln ≤ 7 → 1 ≤ a → a ≤ 40 → (s.line ln).node? a = some n →
      (n.st = .absent → ∃ t, exec (.setNode q ln a 1) s = .next t ∧ Decided q .done [] s t
        ∧ t.line ln = { s.line ln with nodes := (s.line ln).nodes.map fun x => if x.addr = a then
            { x with st := .unknown, fails := 0, configured := false, answering := false } else x }
        ∧ (∀ k, k ≠ ln → t.line k = s.line k) ∧ SameBut [.lc] s t)
      ∧ (1 < action → exec (.setNode q ln a action) s = .next ((s.taking q).answer q .badParameter []))
      ∧ (n.st = .absent → exec (.setNode q ln a 0) s = .next ((s.taking q).answer q .done []))
      ∧ (n.st ≠ .absent → exec (.setNode q ln a 1) s = .next ((s.taking q).answer q .state []))
      ∧ (n.st ≠ .absent → IdleLine (s.line ln) → ∃ t, exec (.setNode q ln a 0) s = .next t ∧ Decided q .done [] s t
        ∧ t.line ln = { s.line ln with nodes := (s.line ln).nodes.map fun x => if x.addr = a then
            { x with st := .absent, fails := 0, queryNeeded := false, busyUntil := none, refresh := none } else x }
        ∧ (∀ k, k ≠ ln → t.line k = s.line k) ∧ SameBut [.lc, .io] s t))
    ∧ (ln ≤ 7 → (s.line ln).state = .off → exec (.clearFaultsLine q ln) s = .next ((s.taking q).answer q .state []))
    ∧ (ln ≤ 7 → (s.line ln).state ≠ .off → ∃ t, exec (.clearFaultsLine q ln) s = .next t
      ∧ Decided q .done [numWord ((s.line ln).nodes.filter fun n => n.st = .faulted).length] s t
      ∧ t.line ln = { s.line ln with summary := 0, nodes := (s.line ln).nodes.map fun x => if x.st = .faulted then
          { x with st := .unknown, fails := 0, configured := false, answering := false } else x }
      ∧ (∀ k, k ≠ ln → t.line k = s.line k) ∧ SameBut [.lc, .io] s t)

/-- R182: DRIVE OUTPUT energizes a PLAIN output, until it is released or for a duration of at most 600,000 ms, or releases it; the result word says
whether it is energized, 1 for yes and 0 for no by the model's reading (log entry 12). The refusals OUT OF RANGE, BAD PARAMETER and STATE change nothing else, and are
taken in that order by the model's choice (log entry 51). -/
def Obligations.DriveOutputDrivesIt : Prop :=
  ∀ (q : ReqHdr) (o action duration : Nat) (s : State), s.reaches q = true → LogSound s.ri → Counts s →
    (11 < o → exec (.driveOutput q o action duration) s = .next ((s.taking q).answer q .outOfRange []))
    ∧ (o ≤ 11 → 1 < action → exec (.driveOutput q o action duration) s = .next ((s.taking q).answer q .badParameter []))
    ∧ (o ≤ 11 → action ≤ 1 → s.io.outFunc o ≠ .plain → exec (.driveOutput q o action duration) s = .next ((s.taking q).answer q .state []))
    ∧ (o ≤ 11 → action ≤ 1 → s.io.outFunc o = .plain → ∃ t, exec (.driveOutput q o action duration) s = .next t
      ∧ Decided q (if duration ≤ 600000 then .done else .doneClamped) [numWord (if action = 0 then 1 else 0)] s t
      ∧ (t.output o).driven = decide (action = 0) ∧ t.energized o = decide (action = 0)
      ∧ (t.output o).releaseAt = (if action = 1 ∨ duration = 0 then none else some (s.elapsed + min duration 600000))
      ∧ (t.output o).func = (s.output o).func ∧ (∀ k, k ≠ o → t.output k = s.output k) ∧ t.io.inputs = s.io.inputs
      ∧ SameBut [.io] s t)

/-- R194: READ STATUS copies its snapshot at this moment, as many words as its size holds, and asks for its write at the offset; nothing else changes
but that the slot is taken. A line above 7 is refused OUT OF RANGE, whatever the offset (the model's choice, log entry 51), and an offset that fails
the checks REGION OFFSET. A snapshot's words are its items in their order, each a number, with 0 behind them; TIME begins with the Time Base's items,
ZONES with the zone states, LINE with the line's configuration, paths and state, CIRCUITS with enabled and dial size of each circuit, CHANNELS with
the settings of each channel, DRILL with the drill records. That the sequence is taken at the moment of copying is the model's reading (log entry 43),
and so are the layouts, which follow the holding tables (log entries 17 and 18), with yes 1 and no 0 (log entry 12) and none the free value of log
entry 11. -/
def Obligations.ReadStatusCopiesASnapshot : Prop :=
  (∀ (q : ReqHdr) (ln offset : Nat) (s : State), s.reaches q = true →
    let copied (size : Nat) (items : List (Option Int)) : State := { s.taking q with ri := { (s.taking q).ri with
      accesses := s.ri.accesses ++ [.snapshot q offset s.ri.nextSeq (snapWords size items)] } }
    let reads (size : Nat) (items : List (Option Int)) (i : Instr) : Prop :=
      (StagedAt offset size → exec i s = .next (copied size items))
      ∧ (¬ StagedAt offset size → exec i s = .next ((s.taking q).answer q .regionOffset []))
    reads 256 (snapTime (s.taking q)) (.readStatusTime q offset)
    ∧ reads 8192 (snapZones (s.taking q)) (.readStatusZones q offset)
    ∧ (ln ≤ 7 → reads 8192 (snapLine (s.taking q) ln) (.readStatusLine q ln offset))
    ∧ reads 512 (snapCircuits (s.taking q)) (.readStatusCircuits q offset)
    ∧ reads 1024 (snapChannels (s.taking q)) (.readStatusChannels q offset)
    ∧ reads 512 (snapDrill (s.taking q)) (.readStatusDrill q offset)
    ∧ (7 < ln → exec (.readStatusLine q ln offset) s = .next ((s.taking q).answer q .outOfRange [])))
  ∧ (∀ (size i : Nat) (items : List (Option Int)), i < size / 4 → (snapWords size items)[i]? = some (match items[i]? with
    | some (some v) => numWord v
    | some none => Config.noneWord
    | none => 0))
  ∧ ∀ (s : State) (k : Nat), Counts s → s.dc.records.length = 8 →
    let number (l : List (Option Int)) (i n : Nat) : Prop := l[i]? = some (some (n : Int))
    (∀ now, s.tb.campus = some now → (snapTime s).take 9 = [some (now.day : Int), some (now.ms : Int), some s.tb.trim, some s.tb.acc,
      some s.tb.pc, some (s.tb.slewCount : Int), some (s.tb.refMode.code : Int), some (s.tb.lossLimit : Int), some (s.tb.slewLimit : Int)])
    ∧ (s.tb.campus = none → (snapTime s).take 3 = [none, none, some s.tb.trim])
    ∧ (k < 64 → number (snapZones s) k (s.zoneState k).code)
    ∧ (let l := s.line k
      (snapLine s k).take 10 = [some (yesNo l.cfg.enabled : Int), some (l.cfg.timeout : Int), some (l.cfg.retries : Int),
        some (yesNo l.cfg.alternate : Int), some (l.cfg.threshold : Int), some (l.cfg.bypass.toNat : Int), some (l.cfg.period : Int),
        some (l.pathA.cond.code : Int), some (l.pathB.cond.code : Int), some (l.state.code : Int)])
    ∧ (k < 4 → number (snapCircuits s) k (yesNo (s.circuit k).cfg.enabled) ∧ number (snapCircuits s) (4 + k) (s.circuit k).cfg.dial)
    ∧ (k < 4 → number (snapChannels s) (3 * k) (s.channel k).cfg.trigger ∧ number (snapChannels s) (3 * k + 1) (s.channel k).cfg.starveLimit
      ∧ number (snapChannels s) (3 * k + 2) (s.channel k).cfg.liveTail)
    ∧ ∀ r, s.dc.records[k]? = some r → number (snapDrill s) (7 * k) (yesNo r.defined) ∧ number (snapDrill s) (7 * k + 1) r.buildings.toNat
      ∧ number (snapDrill s) (7 * k + 2) r.sounding ∧ number (snapDrill s) (7 * k + 3) r.target
      ∧ number (snapDrill s) (7 * k + 4) (yesNo r.tone) ∧ (snapDrill s)[7 * k + 5]? = some (r.allClear.map Int.ofNat)
      ∧ number (snapDrill s) (7 * k + 6) r.group

/-! ### Starts and the supply -/

/-- R184, R26, R39, R59, R82, R100, R124, R141, R153, R177, R186, R198: RESTART, and the return of the main supply while the backup held, begin a
retained start: what each block's rule retains stays, and the rest takes its value at a start. RESTART is taken by a part in operation. The model's
choices: the work under way closes, and the path conditions keep their values without a reading, at the beginning of the start, whose command gives what the
lines will read first (log entry 26), and the loss timer begins at 0 (log entry 36). FACTORY CLEAR on a DETACHED link, and the return of the main supply after
the backup's drop, begin a cold start; in the other link states FACTORY CLEAR is ignored. The loss of the main supply leaves a part on its backup, with every
relay released. -/
def Obligations.StartsAndOutagesTakeEffect : Prop :=
  ∀ (paths : List PathPair) (s : State),
    let cold (n : Nat) : State := { State.coldStart (s.io.inputs.map (·.reading)) s.ri.region s.pending with eventNo := n }
    (s.running = true → ∃ t, exec (.restart paths) s = .next t ∧ RetainedStart s t ∧ t.lc.startReads = paths)
    ∧ (s.supply.main = false → s.supply.backupHeld = true → ∃ t, exec (.mainSupplyReturn paths) s = .next t ∧ RetainedStart s t
      ∧ t.lc.startReads = paths)
    ∧ (s.running = false → exec (.restart paths) s = .next s)
    ∧ (s.running = true → s.ri.link = .detached → exec .factoryClear s = .next (cold (s.eventNo + 1)))
    ∧ (s.running = true → s.ri.link ≠ .detached → exec .factoryClear s = .next s)
    ∧ (s.supply.main = true → ∃ t, exec .mainSupplyLoss s = .next t ∧ RelaysReleased t ∧ t = { s with supply :=
      { s.supply with main := false, backupHeld := true, settling := false } })
    ∧ (s.supply.main = false → exec .mainSupplyLoss s = .next s)
    ∧ (s.supply.main = false → exec .backupSupplyDrop s = .next { s with supply := { s.supply with backupHeld := false } })
    ∧ (s.supply.main = false → s.supply.backupHeld = false → exec (.mainSupplyReturn paths) s = .next (cold s.eventNo))
    ∧ (s.supply.main = true → exec (.mainSupplyReturn paths) s = .next s)

/-- R185, R178: with the time UNSET, no zone held and no drill, settling ends when K11's reading, one of the three, has held for its debounce time, or
for 50 ms when it is not the fire input; a fire input that has not by 10 s ends it as CLOSED. The part is then in operation with elapsed time 0. K11
takes its value: OPEN with the supervision NORMAL, OPEN for HIGH IMPEDANCE, under FIRE ALARM with the supervision OPEN CIRCUIT, or CLOSED; the trouble
classes are those present; a fire input that is CLOSED is active at once, with silence held and, with no line enabled, every enabled zone SILENCED
(R138, R79); any other K11 sets nothing off. The enabled lines, while bare, take their first readings, as the command that began the start gave them,
and begin a cycle at 0 (R155, R173, R177; the model's order, log entry 26). Before that time nothing changes. -/
def Obligations.SettlingEndsWithTheFireInput : Prop :=
  ∀ s : State, QuietStart s →
    let fireInput : Prop := s.io.inFunc 11 = .fireAlarm
    let hold : Nat := if s.io.inFunc 11 = .fireAlarm then (s.input 11).debounce else 50
    let since : Int := (s.input 11).exact.since
    let held : Prop := since + hold ≤ s.elapsed ∧ (fireInput → since + hold ≤ 10000)
    let began (v : Contact) (t : State) : Prop := t.running = true ∧ t.elapsed = 0 ∧ (t.input 11).value = some v
      ∧ (∀ k, k < 11 → (t.input k).value = (s.input k).value) ∧ t.io.trouble = t.troubleNow ∧ t.tb.campus = none
    let active (t : State) : Prop := began .closed t ∧ t.dc.fireActive = true ∧ t.dc.silenceHeld = true ∧ t.za.fireReported = true
      ∧ (∀ z, z < 64 → (s.zoneRec z).enabled = true → t.zoneState z = .silenced) ∧ SameBut [.tb, .io, .dc, .za] s t
    (¬ held → exec .settlingEnd s = .next s)
    ∧ (¬ fireInput ∨ s.elapsed < 10000 ∨ held → exec .settlingTimeout s = .next s)
    ∧ (held → BareLines s → ¬ ((s.input 11).reading = .closed ∧ fireInput) → ∃ t, exec .settlingEnd s = .next t
      ∧ began (if (s.input 11).reading = .closed then .closed else .opened) t
      ∧ ((s.input 11).reading = .highZ → fireInput → t.io.fireOpen = true)
      ∧ ((s.input 11).reading ≠ .highZ ∨ ¬ fireInput → t.io.fireOpen = s.io.fireOpen)
      ∧ (∀ l, l < 8 → (s.line l).cfg.enabled = false → t.line l = s.line l)
      ∧ (∀ l, l < 8 → (s.line l).cfg.enabled = true → t.line l = { s.line l with
        pathA := ⟨(s.lc.startReads.getD l openPair).a, some (s.lc.startReads.getD l openPair).a⟩
        pathB := ⟨(s.lc.startReads.getD l openPair).b, some (s.lc.startReads.getD l openPair).b⟩
        cycle := ⟨false, 1, some 0, (s.line l).cfg.period⟩ })
      ∧ SameBut [.tb, .io, .lc] s t)
    ∧ ((∀ l, l < 8 → (s.line l).cfg.enabled = false) →
      (held → (s.input 11).reading = .closed → fireInput → ∃ t, exec .settlingEnd s = .next t ∧ active t)
      ∧ (fireInput → 10000 ≤ s.elapsed → ¬ held → ∃ t, exec .settlingTimeout s = .next t ∧ active t))

/-! ### The link's region accesses -/

/-- Section 11.3: the part makes its region accesses one at a time, in the order they are asked for: an access that is asked for goes behind those
asked for before it. By the model's choice (log entries 5 and 9) only the completion of the first takes effect, and any other changes nothing. Of an
access left in flight by a link that went down, the completion puts a write's bytes into the region and does nothing else; what a link leaves is the
first of its accesses, so marked. -/
def Obligations.RegionAccessesAreInOrder : Prop :=
  (∀ (a : Access) (s : State), (s.ask a).ri.accesses = s.ri.accesses ++ [a])
  ∧ (∀ (a : Access) (rest : List Access), leftInFlight [] = [] ∧ leftInFlight (.discarded a :: rest) = [.discarded a]
    ∧ ((∀ b, a ≠ .discarded b) → leftInFlight (a :: rest) = [.discarded a]))
  ∧ ∀ (s : State) (data : List Byte) (samples : List Sample) (paths : List PathPair) (x y z : Nat),
    let idle (i : Instr) (p : Access → Prop) : Prop :=
      ((∀ a, s.inFlight? = some a → ¬ p a ∧ ∀ b, a = .discarded b → ¬ p b) → exec i s = .next s)
      ∧ ∀ a, s.inFlight? = some (.discarded a) → p a → ∃ t, exec i s = .next t
        ∧ t = { s with ri := { s.ri with accesses := s.ri.accesses.tail, region := t.ri.region } }
        ∧ ((∀ id off, a ≠ .consumed id off) → (∀ q off n ws, a ≠ .snapshot q off n ws) → t.ri.region = s.ri.region)
        ∧ (∀ id off, a = .consumed id off → regionRead t.ri.region (off + 3) = some 2
          ∧ ∀ k, k ≠ off + 3 → regionRead t.ri.region k = regionRead s.ri.region k)
        ∧ ∀ q off n ws, a = .snapshot q off n ws →
          (∀ i, i < 4 * ws.length → regionRead t.ri.region (off + i) = (ws.flatMap wordBytes)[i]?)
          ∧ ∀ k, ¬ (off ≤ k ∧ k < off + 4 * ws.length) → regionRead t.ri.region k = regionRead s.ri.region k
    idle (.hostFieldsRead x y z) (fun a => a = .hostFields)
    ∧ idle (.slotRead data) (fun a => ∃ n, a = .slot n)
    ∧ idle (.readMarkRead x y) (fun a => ∃ b, a = .readMark b)
    ∧ idle .snapshotWriteDone (fun a => ∃ q o n w, a = .snapshot q o n w)
    ∧ idle (.profileRecordRead data) (fun a => a = .record .profiles)
    ∧ idle (.calendarSpanRead data) (fun a => a = .record .calendar)
    ∧ idle (.zoneRecordRead data) (fun a => a = .record .zones)
    ∧ idle (.groupRecordRead data) (fun a => a = .record .groups)
    ∧ idle (.patternRecordRead data) (fun a => a = .record .patterns)
    ∧ idle (.channelRecordRead data) (fun a => a = .record .channels)
    ∧ idle (.drillRecordRead data) (fun a => a = .record .drills)
    ∧ idle (.circuitRecordRead data) (fun a => a = .record .circuits)
    ∧ idle (.lineRecordRead data paths) (fun a => a = .record .lines)
    ∧ idle (.memberEntryRead data) (fun a => a = .record .members)
    ∧ idle (.ioRecordRead data) (fun a => a = .record .io)
    ∧ idle (.scheduleEntryRead data) (fun a => a = .scheduleEntry)
    ∧ idle (.headerRead data) (fun a => ∃ n, a = .header n)
    ∧ idle (.headerReread data) (fun a => ∃ n, a = .reread n)
    ∧ idle (.fetchComplete samples) (fun a => ∃ n k, a = .fetch n k)
    ∧ idle .consumedWriteDone (fun a => ∃ n o, a = .consumed n o)

/-- R188, R195, R197: with nothing held or taken, host fields of layout version 3 with a read mark of 0 attach the link: the write index is 1 after
STARTED, which has sequence 1 and stands in log position 0, and a slot scan begins. Other fields take the link to LINK FAULT, with the cause LINK and
the trouble class LINK. -/
def Obligations.HostFieldsAttachTheLink : Prop :=
  ∀ (layout mark notify : Nat) (s : State), s.running = true → s.ri.link = .attaching → s.ri.accesses = [.hostFields] →
    (layout = 3 → mark = 0 → s.ri.hold = [] → s.ri.taken = [] → s.ri.scan = .idle → ∃ t, exec (.hostFieldsRead layout mark notify) s = .next t
      ∧ t.ri.link = .attached ∧ t.ri.writeIndex = 1 ∧ t.ri.readMark = 0 ∧ t.ri.nextSeq = 2 ∧ t.ri.firstAttach = false
      ∧ t.ri.notify = BitVec.ofNat 32 notify ∧ t.ri.scan = .scanning ∧ t.ri.accesses = [.readMark true]
      ∧ (∀ i, i < 4 → regionRead t.ri.region (0x1000 + i) = (wordBytes 1)[i]?)
      ∧ (∀ i, i < 2 → regionRead t.ri.region (0x1004 + i) = (leBytes 2 54)[i]?)
      ∧ (∀ i, i < 4 → regionRead t.ri.region (28 + i) = (wordBytes 1)[i]?)
      ∧ (∀ a, ¬ partArea a → regionRead t.ri.region a = regionRead s.ri.region a) ∧ SameBut [] s t)
    ∧ (layout ≠ 3 ∨ mark ≠ 0 → ∃ t, exec (.hostFieldsRead layout mark notify) s = .next t
      ∧ t.ri.link = .fault ∧ t.ri.cause.getLsbD 3 = true ∧ t.ri.accesses = [] ∧ t.io.trouble.getLsbD 4 = true
      ∧ t.ri.region = s.ri.region ∧ SameBut [.io] s t)

/-- R192, R195, R196: a slot that is not POSTED is passed over and the next slot is read, or the scan ends after slot 31, and one that was made due begins
with the read mark; a POSTED slot with the kind 0 is refused BAD KIND; one that posts SET FLAGS is decided as that request, and then the next slot is read. A read
mark within the unread records becomes the read mark in use, another is left alone, and a scan goes on to slot 0. The held records then go into the log in their order
while it has room, of 255 unread records, and OVERFLOW, with the lost count and the total lost, has joined their end when a record left the hold buffer with records
lost: the lost count is then 0. -/
def Obligations.SlotsAndMarksAreRead : Prop :=
  ∀ (data : List Byte) (n mark notify : Nat) (scan : Bool) (s : State),
    (Completing (.slot n) s → byteAt data 0 ≠ 1 → n < 31 → exec (.slotRead data) s = .next (s.wentOn [.slot (n + 1)]))
    ∧ (Completing (.slot 31) s → byteAt data 0 ≠ 1 → s.ri.scan = .scanning → ∃ t, exec (.slotRead data) s = .next t
      ∧ t = { s.wentOn [] with ri := { (s.wentOn []).ri with scan := .idle } })
    ∧ (Completing (.slot 31) s → byteAt data 0 ≠ 1 → s.ri.scan = .scanningDue → exec (.slotRead data) s =
      .next { s.wentOn [.readMark true] with ri := { (s.wentOn [.readMark true]).ri with scan := .scanning } })
    ∧ (Completing (.slot n) s → byteAt data 0 = 1 → n < 31 → s.reaches (slotHdr n data) = true → byteAt data 1 = 0 →
      exec (.slotRead data) s = .next (((s.completed.taking (slotHdr n data)).answer (slotHdr n data) .badKind []).ask (.slot (n + 1))))
    ∧ (Completing (.slot n) s → byteAt data 0 = 1 → n < 31 → s.reaches (slotHdr n data) = true → byteAt data 1 = 7 → ∃ t,
      exec (.setFlags (slotHdr n data) (BitVec.ofNat 8 (byteAt data 8)) (BitVec.ofNat 8 (byteAt data 9))) s.completed = .next t
      ∧ exec (.slotRead data) s = .next (t.ask (.slot (n + 1))))
    ∧ (Completing (.readMark scan) s →
      let inUse : Nat := if mark < 256 ∧ (mark + 256 - s.ri.readMark) % 256 ≤ (s.ri.writeIndex + 256 - s.ri.readMark) % 256 then mark
        else s.ri.readMark
      let read : State := s.wentOn (if scan then [.slot 0] else [])
      let marked : RegionIf := { read.ri with readMark := inUse, notify := BitVec.ofNat 32 notify }
      (s.ri.hold = [] → exec (.readMarkRead mark notify) s = .next { read with ri := marked })
      ∧ (s.ri.hold ≠ [] → LogSound s.ri →
        let room : Nat := 255 - (s.ri.writeIndex + 256 - inUse) % 256
        let overflow : Note := ⟨.overflow, .attention, .ri, 0, 0, dv s.ri.lost, dv s.ri.totalLost, dv 0⟩
        let queue : List LogRecord := if 0 < s.ri.lost ∧ 0 < room then s.ri.hold ++ [stamped s overflow] else s.ri.hold
        exec (.readMarkRead mark notify) s = .next { read with ri :=
          { (queue.take room).foldl (fun ri r => ri.place r) marked with
            hold := queue.drop room
            lost := if 0 < room then 0 else s.ri.lost } }))

/-- R194: the end of a snapshot's write leaves its words in the region, and answers its request DONE with the sequence of the copying moment (the
model's reading, log entry 43). R188, R189: a bus error of an access takes an attached or attaching link, with no announcement taken, to LINK FAULT:
no region access is left, of an attached link no scan and no load, the cause LINK is set, and the trouble class LINK is present; in the other link
states nothing changes. The error of an access left in flight by a link that went down is discarded with its result, and only that access is gone (the
model's choice, log entry 9). -/
def Obligations.SnapshotsAndBusErrors : Prop :=
  ∀ (q : ReqHdr) (offset seq place : Nat) (words : List Word) (s : State),
    (Completing (.snapshot q offset seq words) s → q.slot < 32 → 0x3000 ≤ offset → ∃ t, exec .snapshotWriteDone s = .next t
      ∧ regionRead t.ri.region (slotAt q) = some 2 ∧ regionRead t.ri.region (slotAt q + 3) = some 0
      ∧ (∀ i, i < 4 → regionRead t.ri.region (slotAt q + 52 + i) = (wordBytes (numWord seq))[i]?)
      ∧ (∀ i, i < 4 * words.length → regionRead t.ri.region (offset + i) = (words.flatMap wordBytes)[i]?)
      ∧ (∀ a, ¬ answerBytes q 1 a → ¬ (offset ≤ a ∧ a < offset + 4 * words.length) → regionRead t.ri.region a = regionRead s.ri.region a)
      ∧ t.ri.taken = (s.ri.taken.filter fun k => k.q.slot != q.slot) ∧ t.ri.accesses = s.ri.accesses.tail ∧ LinkKept s t ∧ SameBut [] s t)
    ∧ (∀ a, s.running = true → s.ri.accesses.head? = some (.discarded a) → exec (.regionAccessBusError place) s =
      .next { s with ri := { s.ri with accesses := s.ri.accesses.tail } })
    ∧ ((∀ a, s.ri.accesses.head? ≠ some (.discarded a)) →
      (s.running = true → s.ri.link = .attached ∨ s.ri.link = .attaching → s.au.anns = [] → ∃ t, exec (.regionAccessBusError place) s = .next t
        ∧ t.ri.link = .fault ∧ t.ri.cause.getLsbD 3 = true ∧ t.ri.accesses = [] ∧ t.io.trouble.getLsbD 4 = true
        ∧ (s.ri.link = .attached → t.ri.scan = .idle ∧ NoLoads t)
        ∧ t.ri.region = s.ri.region ∧ t.tb = s.tb ∧ t.za.zones = s.za.zones ∧ t.pu.bells = s.pu.bells ∧ t.dc.active = s.dc.active)
      ∧ (s.ri.link = .detached ∨ s.ri.link = .fault → exec (.regionAccessBusError place) s = .next s))

/-! ### Loads (R28, R30, R61, R62, R85, R101, R126, R143, R154, R171, R180, R43) -/

/-- R28, R30, R61, R62, R85, R101, R126, R143, R154, R171, R180, R43: each staged record by the layout of section 11.6: what makes it one at fault,
the values read else, and the clamps of a value out of its range to the nearer end; the lower end of a catch-up period goes by the pulse width as
clamped (the model's choice, log entry 59). A pattern with no steps is empty and not checked further. That a yes-or-no byte is yes unless it is 0 is
the model's reading (log entry 12), as is that bit 7 of a weekday set is dropped and that the IO table's records follow its header, inputs first (log
entry 25). A pattern's times that are not whole multiples of 10 ms stand as they are read (the model's reading, log entry 39), and so does the group
byte of a drill record with no all-clear pattern (the model's choice, log entry 58). -/
def Obligations.StagedRecordsAreChecked : Prop :=
  ∀ d : List Byte,
    let b (i : Nat) : Nat := byteAt d i
    let w (i : Nat) : Nat := leAt d i 2
    let yes (i : Nat) : Bool := decide (b i ≠ 0)
    let bits (i : Nat) : Set8 := BitVec.ofNat 8 (b i)
    let clamp (lo hi x : Nat) : Nat := max lo (min hi x)
    let outside (lo hi x : Nat) : Prop := x < lo ∨ hi < x
    let twice (i n : Nat) : Prop := ∃ j k, j < k ∧ k < n ∧ b (i + j) = b (i + k)
    let far (i n : Nat) : Prop := ∃ k, k < n ∧ 63 < b (i + k)
    Checked (∃ i, i < 8 ∧ (bits 3).getLsbD i = true ∧ (bits 2).getLsbD i = false) ⟨w 0, bits 2, bits 3⟩ (decodeProfile d)
    ∧ Checked (36525 < w 0 ∨ 36525 < w 2 ∨ w 2 < w 0 ∨ 15 < b 5) ⟨w 0, w 2, bits 4 &&& 0x7F, b 5⟩ (decodeSpan d)
    ∧ Checked (7 < b 1 ∨ (BitVec.ofNat 16 (w 2)).getLsbD 11 = true)
      ⟨(bits 0).getLsbD 0, b 1, BitVec.ofNat 12 (w 2), (bits 0).getLsbD 1, (bits 0).getLsbD 2, (bits 0).getLsbD 3⟩ (decodeZone d)
    ∧ (64 < b 0 ∨ far 1 (b 0) ∨ twice 1 (b 0) → decodeGroup d = none)
    ∧ (¬ (64 < b 0 ∨ far 1 (b 0) ∨ twice 1 (b 0)) → ∃ g, decodeGroup d = some g
      ∧ ∀ z, z < 64 → (g.getLsbD z = true ↔ ∃ k, k < b 0 ∧ b (1 + k) = z))
    ∧ (b 0 = 0 → decodePattern d = some (Pattern.empty, false))
    ∧ (b 0 ≠ 0 → Checked (16 < b 0 ∨ 250 < b 1 ∨ 15 < b 4 ∨ ∀ k, k < b 0 → w (6 + 4 * k) = 0 ∧ w (8 + 4 * k) = 0)
      (⟨(List.range (b 0)).map fun k => ⟨min (w (6 + 4 * k)) 10000, min (w (8 + 4 * k)) 10000⟩, b 1, clamp 200 4000 (w 2), b 4⟩,
        decide ((∃ k, k < b 0 ∧ (10000 < w (6 + 4 * k) ∨ 10000 < w (8 + 4 * k))) ∨ outside 200 4000 (w 2))) (decodePattern d))
    ∧ Checked (w 0 ≠ 512 ∧ w 0 ≠ 1024 ∧ w 0 ≠ 1536)
      (⟨w 0, clamp 500 5000 (w 2), min (w 4) 2000⟩, decide (outside 500 5000 (w 2) ∨ 2000 < w 4)) (decodeChannel d)
    ∧ (∀ table : List Pattern, Checked (bits 0 = 0 ∨ outside 30 900 (w 1) ∨ outside 60 1800 (w 3)
        ∨ b 6 ≠ 0xFF ∧ (30 < b 6 ∨ (table.getD (b 6) Pattern.empty).steps = [] ∨ 63 < b 7))
      ⟨true, bits 0, w 1, w 3, yes 5, if b 6 = 0xFF then none else some (b 6), b 7⟩ (decodeDrill table d))
    ∧ (∀ pos : Nat, Checked ((w 1 ≠ 720 ∧ w 1 ≠ 1440) ∨ (w 1 = 720 ∧ 720 ≤ pos))
      (⟨yes 0, w 1, clamp 200 1000 (w 3), clamp (clamp 200 1000 (w 3) + 200) 10000 (w 5), min (b 7) 120⟩,
        decide (outside 200 1000 (w 3) ∨ outside (clamp 200 1000 (w 3) + 200) 10000 (w 5) ∨ 120 < b 7)) (decodeCircuit pos d))
    ∧ Checked ((b 1 ≠ 10 ∧ b 1 ≠ 20 ∧ b 1 ≠ 40 ∧ b 1 ≠ 80) ∨ 3 < b 2 ∨ outside 1 7 (b 4))
      (⟨yes 0, b 1, b 2, yes 3, b 4, BitVec.ofNat 4 (b 5), clamp 5 600 (w 6)⟩, decide (outside 5 600 (w 6))) (decodeLine d)
    ∧ (∀ earlier : List Member,
      Checked (7 < b 4 ∨ 4 < b 5 ∨ far 6 (b 5) ∨ twice 6 (b 5) ∨ 15 < b 10 ∨ ∃ m, m ∈ earlier ∧ m.unit = leAt d 0 4)
        ⟨leAt d 0 4, b 4, (List.range (b 5)).map fun k => b (6 + k), b 10⟩ (decodeMember earlier d))
    ∧ Checked (1 < b 0) (decide (b 0 = 0), BitVec.ofNat 6 (b 1)) (decodeIoHeader d)
    ∧ (∀ k : Nat,
      let func : InFunc := match b 0 with
        | 1 => .fireAlarm | 2 => .marshalClear (b 1) | 3 => .bellPush (b 1) (b 2) | 4 => .drillKey (b 1) | 5 => .ptt (b 1) | 6 => .reference
        | _ => .plain
      Checked (6 < b 0 ∨ (b 0 = 1 ∧ k ≠ 11) ∨ (b 0 = 2 ∧ 7 < b 1) ∨ (b 0 = 3 ∧ (63 < b 1 ∨ 31 < b 2)) ∨ (b 0 = 4 ∧ 7 < b 1) ∨ (b 0 = 5 ∧ 1 < b 1)
          ∨ (b 0 = 6 ∧ k ≠ 0))
        ((func, clamp 10 2000 (w 4)), decide (outside 10 2000 (w 4))) (decodeInput k d)
      ∧ Checked (3 < b 0 ∨ (b 0 = 1 ∧ k = 11))
        (match b 0 with | 1 => .zone | 2 => .drillLamp | 3 => .trouble | _ => .plain) (decodeOutput k d))
    ∧ ∀ (table : List Pattern) (groups : List ZoneSet) (drills : List DrillRec) (floor : Nat),
      let sound (bell : Bool) : Prop := 63 < b 9 ∨ 31 < b 10 ∨ outside 2 9 (b 11) ∨ 120 < b 12
        ∨ (¬ (bell = true ∧ (patternOf table (b 10)).repeats ≠ 0) ∧ outside 1 600 (w 13))
        ∨ (patternOf table (b 10)).steps = [] ∨ groups.getD (b 9) 0 = 0
      let kind : EntryKind := match b 8 with
        | 0 => .bell (b 9) (b 10) (b 11) (b 12) (w 13) | 1 => .chime (b 9) (b 10) (b 11) (b 12) (w 13) | 2 => .drill (b 15)
        | 3 => .flags (bits 16) (bits 17) | _ => .mark (w 18)
      Checked (leAt d 0 4 < floor ∨ 86399 < leAt d 0 4 ∨ (b 6 ≠ 0xFF ∧ (7 < b 6 ∨ 1 < b 7)) ∨ 4 < b 8 ∨ (b 8 = 0 ∧ sound true)
          ∨ (b 8 = 1 ∧ sound false) ∨ (b 8 = 2 ∧ (drills.getD (b 15) DrillRec.undefined).defined = false))
        ⟨leAt d 0 4, BitVec.ofNat 16 (w 4), if b 6 = 0xFF then none else some ⟨b 6, decide (b 7 = 1)⟩, kind⟩
        (decodeEntry table groups drills floor d)

/-- R28, R30, R61, R62, R85, R101, R126, R143, R154, R171, R180, R43: a staged record without a fault joins its load, and the next record is read; the
load keeps whether a value was clamped. Which records are at fault and what each reads as is StagedRecordsAreChecked. How far a staged group may reach, and the order of
the IO table's records, are the model's readings (log entries 24 and 25). -/
def Obligations.LoadsGoOn : Prop :=
  ∀ (data : List Byte) (paths : List PathPair) (k : Bool) (s : State),
    (∀ l x, Completing (.record .profiles) s → s.dp.profileLoad = some l → l.midway → decodeProfile data = some x → exec (.profileRecordRead data) s =
      .next { s.wentOn [.record .profiles] with dp := { s.dp with profileLoad := some (l.grown 4 x false) } })
    ∧ (∀ l x, Completing (.record .calendar) s → s.dp.calendarLoad = some l → l.midway → decodeSpan data = some x → exec (.calendarSpanRead data) s =
      .next { s.wentOn [.record .calendar] with dp := { s.dp with calendarLoad := some (l.grown 6 x false) } })
    ∧ (∀ l x, Completing (.record .zones) s → s.za.zoneLoad = some l → l.midway → decodeZone data = some x → exec (.zoneRecordRead data) s =
      .next { s.wentOn [.record .zones] with za := { s.za with zoneLoad := some (l.grown 4 x false) } })
    ∧ (∀ l x, Completing (.record .groups) s → s.za.groupLoad = some l → l.midway → l.nextOff + 1 + byteAt data 0 + (l.count - l.staged.length - 1) ≤ 0x100000 → decodeGroup data = some x → exec (.groupRecordRead data) s =
      .next { s.wentOn [.record .groups] with za := { s.za with groupLoad := some (l.grown (1 + byteAt data 0) x false) } })
    ∧ (∀ l x, Completing (.record .patterns) s → s.pu.load = some l → l.midway → decodePattern data = some (x, k) → exec (.patternRecordRead data) s =
      .next { s.wentOn [.record .patterns] with pu := { s.pu with load := some (l.grown 70 x k) } })
    ∧ (∀ l x, Completing (.record .channels) s → s.au.load = some l → l.midway → decodeChannel data = some (x, k) → exec (.channelRecordRead data) s =
      .next { s.wentOn [.record .channels] with au := { s.au with load := some (l.grown 6 x k) } })
    ∧ (∀ l x, Completing (.record .drills) s → s.dc.load = some l → l.midway → decodeDrill s.pu.table data = some x → exec (.drillRecordRead data) s =
      .next { s.wentOn [.record .drills] with dc := { s.dc with load := some (l.grown 8 x false) } })
    ∧ (∀ l x, Completing (.record .circuits) s → s.cu.load = some l → l.load.midway → decodeCircuit (s.circuit l.load.staged.length).pos data = some (x, k) → exec (.circuitRecordRead data) s =
      .next { s.wentOn [.record .circuits] with cu := { s.cu with load := some ⟨l.load.grown 8 x k, l.tolerance⟩ } })
    ∧ (∀ l x, Completing (.record .lines) s → s.lc.lineLoad = some l → l.midway → decodeLine data = some (x, k) → exec (.lineRecordRead data paths) s =
      .next { s.wentOn [.record .lines] with lc := { s.lc with lineLoad := some (l.grown 8 x k) } })
    ∧ (∀ l x, Completing (.record .members) s → s.lc.memberLoad = some l → l.midway → decodeMember l.staged data = some x → exec (.memberEntryRead data) s =
      .next { s.wentOn [.record .members] with lc := { s.lc with memberLoad := some (l.grown 12 x false) } })
    ∧ (∀ l h, Completing (.record .io) s → s.io.load = some l → l.header = none → decodeIoHeader data = some h → exec (.ioRecordRead data) s =
      .next { s.wentOn [.record .io] with io := { s.io with load := some { l with header := some h, nextOff := l.nextOff + 4 } } })
    ∧ (∀ l h x, Completing (.record .io) s → s.io.load = some l → l.header = some h → l.ins.length < 12 →
      decodeInput l.ins.length data = some (x, k) → exec (.ioRecordRead data) s = .next { s.wentOn [.record .io] with io := { s.io with
        load := some { l with ins := l.ins ++ [x], clamped := l.clamped || k, nextOff := l.nextOff + 6 } } })
    ∧ (∀ l h x, Completing (.record .io) s → s.io.load = some l → l.header = some h → l.ins.length = 12 → l.outs.length < 11 →
      decodeOutput l.outs.length data = some x → exec (.ioRecordRead data) s = .next { s.wentOn [.record .io] with io := { s.io with
        load := some { l with outs := l.outs ++ [x], nextOff := l.nextOff + 1 } } })
    ∧ ∀ w x, Completing .scheduleEntry s → s.se.switch = some w → w.load.midway →
      decodeEntry s.pu.table s.za.groups s.dc.records ((w.load.staged.getLast?.map (·.time)).getD 0) data = some x →
      exec (.scheduleEntryRead data) s = .next { s.wentOn [.scheduleEntry] with se := { s.se with
        switch := some { w with load := w.load.grown 20 x false } } }

/-- R28, R30, R61, R62, R85, R101, R126, R143, R154, R171, R180, R43: a staged record at fault (StagedRecordsAreChecked says which) ends its load
TABLE INVALID with the record's index, and its table stays as it is; so does a group that leaves no room for the groups after it, REGION OFFSET. That
case, and the order of the IO table's records, are the model's readings (log entries 24 and 25). -/
def Obligations.LoadFaultsLeaveTables : Prop :=
  ∀ (data : List Byte) (paths : List PathPair) (s : State), LogSound s.ri →
    (∀ l, Completing (.record .profiles) s → s.dp.profileLoad = some l → l.q.slot < 32 → decodeProfile data = none → ∃ t, exec (.profileRecordRead data) s = .next t
      ∧ Ended l.q .tableInvalid [numWord l.staged.length] s t ∧ t.dp = { s.dp with profileLoad := none } ∧ SameBut [.dp] s t)
    ∧ (∀ l, Completing (.record .calendar) s → s.dp.calendarLoad = some l → l.q.slot < 32 → decodeSpan data = none → ∃ t, exec (.calendarSpanRead data) s = .next t
      ∧ Ended l.q .tableInvalid [numWord l.staged.length] s t ∧ t.dp = { s.dp with calendarLoad := none } ∧ SameBut [.dp] s t)
    ∧ (∀ l, Completing (.record .zones) s → s.za.zoneLoad = some l → l.q.slot < 32 → decodeZone data = none → ∃ t, exec (.zoneRecordRead data) s = .next t
      ∧ Ended l.q .tableInvalid [numWord l.staged.length] s t ∧ t.za = { s.za with zoneLoad := none } ∧ SameBut [.za] s t)
    ∧ (∀ l, Completing (.record .groups) s → s.za.groupLoad = some l → l.q.slot < 32 → l.nextOff + 1 + byteAt data 0 + (l.count - l.staged.length - 1) ≤ 0x100000 → decodeGroup data = none → ∃ t, exec (.groupRecordRead data) s = .next t
      ∧ Ended l.q .tableInvalid [numWord l.staged.length] s t ∧ t.za = { s.za with groupLoad := none } ∧ SameBut [.za] s t)
    ∧ (∀ l, Completing (.record .groups) s → s.za.groupLoad = some l → l.q.slot < 32 → 0x100000 < l.nextOff + 1 + byteAt data 0 + (l.count - l.staged.length - 1) →
      ∃ t, exec (.groupRecordRead data) s = .next t ∧ Ended l.q .regionOffset [] s t ∧ t.za = { s.za with groupLoad := none } ∧ SameBut [.za] s t)
    ∧ (∀ l, Completing (.record .patterns) s → s.pu.load = some l → l.q.slot < 32 → decodePattern data = none → ∃ t, exec (.patternRecordRead data) s = .next t
      ∧ Ended l.q .tableInvalid [numWord l.staged.length] s t ∧ t.pu = { s.pu with load := none } ∧ SameBut [.pu] s t)
    ∧ (∀ l, Completing (.record .channels) s → s.au.load = some l → l.q.slot < 32 → decodeChannel data = none → ∃ t, exec (.channelRecordRead data) s = .next t
      ∧ Ended l.q .tableInvalid [numWord l.staged.length] s t ∧ t.au = { s.au with load := none } ∧ SameBut [.au] s t)
    ∧ (∀ l, Completing (.record .drills) s → s.dc.load = some l → l.q.slot < 32 → decodeDrill s.pu.table data = none → ∃ t, exec (.drillRecordRead data) s = .next t
      ∧ Ended l.q .tableInvalid [numWord l.staged.length] s t ∧ t.dc = { s.dc with load := none } ∧ SameBut [.dc] s t)
    ∧ (∀ l, Completing (.record .circuits) s → s.cu.load = some l → l.load.q.slot < 32 → decodeCircuit (s.circuit l.load.staged.length).pos data = none → ∃ t, exec (.circuitRecordRead data) s = .next t
      ∧ Ended l.load.q .tableInvalid [numWord l.load.staged.length] s t ∧ t.cu = { s.cu with load := none } ∧ SameBut [.cu] s t)
    ∧ (∀ l, Completing (.record .lines) s → s.lc.lineLoad = some l → l.q.slot < 32 → decodeLine data = none → ∃ t, exec (.lineRecordRead data paths) s = .next t
      ∧ Ended l.q .tableInvalid [numWord l.staged.length] s t ∧ t.lc = { s.lc with lineLoad := none } ∧ SameBut [.lc] s t)
    ∧ (∀ l, Completing (.record .members) s → s.lc.memberLoad = some l → l.q.slot < 32 → decodeMember l.staged data = none → ∃ t, exec (.memberEntryRead data) s = .next t
      ∧ Ended l.q .tableInvalid [numWord l.staged.length] s t ∧ t.lc = { s.lc with memberLoad := none } ∧ SameBut [.lc] s t)
    ∧ (∀ l h, Completing (.record .io) s → s.io.load = some l → l.q.slot < 32 → l.header = some h → l.ins.length < 12 →
      decodeInput l.ins.length data = none → ∃ t, exec (.ioRecordRead data) s = .next t
      ∧ Ended l.q .tableInvalid [numWord l.ins.length] s t ∧ t.io = { s.io with load := none } ∧ SameBut [.io] s t)
    ∧ (∀ l, Completing (.record .io) s → s.io.load = some l → l.q.slot < 32 → l.header = none → decodeIoHeader data = none →
      ∃ t, exec (.ioRecordRead data) s = .next t ∧ Ended l.q .tableInvalid [numWord 0] s t ∧ t.io = { s.io with load := none } ∧ SameBut [.io] s t)
    ∧ (∀ l h, Completing (.record .io) s → s.io.load = some l → l.q.slot < 32 → l.header = some h → 12 ≤ l.ins.length →
      decodeOutput l.outs.length data = none → ∃ t, exec (.ioRecordRead data) s = .next t
      ∧ Ended l.q .tableInvalid [numWord (12 + l.outs.length : Nat)] s t ∧ t.io = { s.io with load := none } ∧ SameBut [.io] s t)
    ∧ ∀ w, Completing .scheduleEntry s → s.se.switch = some w → w.load.q.slot < 32 →
      decodeEntry s.pu.table s.za.groups s.dc.records ((w.load.staged.getLast?.map (·.time)).getD 0) data = none →
      ∃ t, exec (.scheduleEntryRead data) s = .next t ∧ Ended w.load.q .tableInvalid [numWord w.load.staged.length] s t
      ∧ t.se = { s.se with switch := none } ∧ SameBut [.se] s t

/-- R28, R30, R61, R62, R85, R86, R101, R126: the last staged record of a load ends it: the table takes the records read, the places after them their
defaults, and the request is answered DONE, or DONE CLAMPED when a value was clamped; the lines are bare for patterns. A load of zones, groups, patterns, channels
or drills whose table is in use by then ends BUSY, with its table as it was. By the model's choice the zones of a load are IDLE or OUT
though fire be reported (log entry 52), and the drill records past the count become undefined and keep their other fields (log entry 54). -/
def Obligations.LoadsFillTables : Prop :=
  ∀ (data : List Byte) (k : Bool) (s : State), LogSound s.ri →
    (∀ l x, Completing (.record .profiles) s → s.dp.profileLoad = some l → l.q.slot < 32 → l.atLast → decodeProfile data = some x →
      ∃ t, exec (.profileRecordRead data) s = .next t ∧ Ended l.q .done [] s t ∧ SameBut [.dp] s t
      ∧ t.dp = { s.dp with profileLoad := none, profiles := filled 16 (l.staged ++ [x]) ⟨0, 0, 0⟩ })
    ∧ (∀ l x, Completing (.record .calendar) s → s.dp.calendarLoad = some l → l.q.slot < 32 → l.atLast → decodeSpan data = some x →
      ∃ t, exec (.calendarSpanRead data) s = .next t ∧ Ended l.q .done [] s t ∧ SameBut [.dp] s t
      ∧ t.dp = { s.dp with calendarLoad := none, calendar := l.staged ++ [x] })
    ∧ (∀ l x, Completing (.record .zones) s → s.za.zoneLoad = some l → l.q.slot < 32 → l.atLast → decodeZone data = some x →
      ∃ t, exec (.zoneRecordRead data) s = .next t ∧ SameBut [.za] s t
      ∧ (s.zonesQuiet = true → Ended l.q .done [] s t ∧ t.za.table = filled 64 (l.staged ++ [x]) ZoneRec.blank
        ∧ t.za.zoneLoad = none ∧ t.za.groups = s.za.groups ∧ t.za.feeds = s.za.feeds ∧ ∀ z, t.zone z = ZoneDyn.clear)
      ∧ (s.zonesQuiet = false → Ended l.q .busy [] s t ∧ t.za = { s.za with zoneLoad := none }))
    ∧ (∀ l x, Completing (.record .groups) s → s.za.groupLoad = some l → l.q.slot < 32 → l.atLast →
      l.nextOff + 1 + byteAt data 0 ≤ 0x100000 → decodeGroup data = some x →
      ∃ t, exec (.groupRecordRead data) s = .next t ∧ SameBut [.za] s t
      ∧ (s.zonesQuiet = true → Ended l.q .done [] s t ∧ t.za = { s.za with groupLoad := none, groups := filled 64 (l.staged ++ [x]) 0 })
      ∧ (s.zonesQuiet = false → Ended l.q .busy [] s t ∧ t.za = { s.za with groupLoad := none }))
    ∧ (∀ l x, Completing (.record .patterns) s → s.pu.load = some l → l.q.slot < 32 → l.atLast → decodePattern data = some (x, k) →
      (patternsInUse s = false → BareLines s → ∃ t, exec (.patternRecordRead data) s = .next t
        ∧ Ended l.q (if l.clamped = true ∨ k = true then .doneClamped else .done) [] s t ∧ SameBut [.pu] s t
        ∧ t.pu = { s.pu with load := none, table := filled 31 (l.staged ++ [x]) Pattern.empty, version := (s.pu.version + 1) % 256 })
      ∧ (PatternsUsed s → ∃ t, exec (.patternRecordRead data) s = .next t ∧ Ended l.q .busy [] s t ∧ SameBut [.pu] s t
        ∧ t.pu = { s.pu with load := none }))
    ∧ (∀ l x, Completing (.record .channels) s → s.au.load = some l → l.q.slot < 32 → l.atLast → decodeChannel data = some (x, k) →
      (channelsInUse s = false → Counts s → ∃ t, exec (.channelRecordRead data) s = .next t
        ∧ Ended l.q (if l.clamped = true ∨ k = true then .doneClamped else .done) [] s t ∧ SameBut [.au] s t ∧ t.au.load = none
        ∧ ∀ c, c < 4 → t.channel c = { s.channel c with cfg := ((l.staged ++ [x])[c]?).getD ⟨1024, 2000, 500⟩ })
      ∧ (ChannelsUsed s → ∃ t, exec (.channelRecordRead data) s = .next t ∧ Ended l.q .busy [] s t ∧ SameBut [.au] s t
        ∧ t.au = { s.au with load := none }))
    ∧ ∀ l x, Completing (.record .drills) s → s.dc.load = some l → l.q.slot < 32 → l.atLast → decodeDrill s.pu.table data = some x →
      (s.dc.active = none → ∃ t, exec (.drillRecordRead data) s = .next t ∧ Ended l.q .done [] s t ∧ SameBut [.dc] s t
        ∧ t.dc.load = none ∧ t.dc.active = none ∧ (∀ i, i < l.count → t.dc.records[i]? = (l.staged ++ [x])[i]?)
        ∧ ∀ i r, l.count ≤ i → s.dc.records[i]? = some r → t.dc.records[i]? = some { r with defined := false })
      ∧ (s.dc.active ≠ none → ∃ t, exec (.drillRecordRead data) s = .next t ∧ Ended l.q .busy [] s t ∧ SameBut [.dc] s t
        ∧ t.dc = { s.dc with load := none })

/-- R143, R154, R171, R180, R44, R45: the last staged record of a load of circuits, lines, members or the IO table, and the last entry of a switch
NOW, puts what was read in force; a circuit or a line without a record is not enabled, a circuit keeps its D, by the model's choice also one past its
new dial (log entry 59), an input keeps its reading and the time it is held to, and an output whose effective function leaves PLAIN loses its drive
(the model's choice, log entry 65). The last entry of a switch NEXT DAY makes the entries PENDING for the day after that of H, and of a switch AT DAY
for its day, or OUT OF RANGE once the day of H has come to it. A load of members that finds a zone held ends BUSY. The lines are bare before it, and
for the IO table no input's value is CLOSED. -/
def Obligations.LoadsPutSettingsInForce : Prop :=
  ∀ (data : List Byte) (paths : List PathPair) (k : Bool) (s : State), LogSound s.ri → Counts s → BareLines s →
    (∀ l x, Completing (.record .circuits) s → s.cu.load = some l → l.load.q.slot < 32 → l.load.atLast →
      decodeCircuit (s.circuit l.load.staged.length).pos data = some (x, k) →
      ∃ t, exec (.circuitRecordRead data) s = .next t ∧ SameBut [.cu, .io] s t
      ∧ Ended l.load.q (if l.load.clamped = true ∨ k = true ∨ ¬ (1 ≤ l.tolerance ∧ l.tolerance ≤ 10) then .doneClamped else .done) [] s t
      ∧ t.cu.load = none ∧ t.cu.tolerance = max 1 (min 10 l.tolerance)
      ∧ ∀ i, i < 4 → (t.circuit i).cfg = ((l.load.staged ++ [x])[i]?).getD { (s.circuit i).cfg with enabled := false }
        ∧ (t.circuit i).pos = (s.circuit i).pos ∧ (t.circuit i).polarity = (s.circuit i).polarity
        ∧ ((t.circuit i).cfg.enabled = false → (t.circuit i).st = .off)
        ∧ ((t.circuit i).cfg.enabled = true → (s.circuit i).st = .off → (t.circuit i).st = .unset))
    ∧ (∀ l x, Completing (.record .lines) s → s.lc.lineLoad = some l → l.q.slot < 32 → l.atLast → decodeLine data = some (x, k) →
      ∃ t, exec (.lineRecordRead data paths) s = .next t ∧ SameBut [.lc, .io] s t
      ∧ Ended l.q (if l.clamped = true ∨ k = true then .doneClamped else .done) [] s t ∧ t.lc.lineLoad = none
      ∧ ∀ i, i < 8 → (t.line i).cfg = ((l.staged ++ [x])[i]?).getD { (s.line i).cfg with enabled := false }
        ∧ ((s.line i).cfg.enabled = false → (t.line i).cfg.enabled = true →
          (t.line i).pathA = ⟨(paths.getD i openPair).a, some (paths.getD i openPair).a⟩
          ∧ (t.line i).pathB = ⟨(paths.getD i openPair).b, some (paths.getD i openPair).b⟩ ∧ (t.line i).cycle.lastStart = some s.elapsed))
    ∧ (∀ l x, Completing (.record .members) s → s.lc.memberLoad = some l → l.q.slot < 32 → l.atLast → decodeMember l.staged data = some x →
      ∃ t, exec (.memberEntryRead data) s = .next t ∧ SameBut [.lc] s t
      ∧ ((∀ z, z < 64 → (s.zone z).holder = none) → Ended l.q .done [] s t ∧ t.lc = { s.lc with memberLoad := none, members := l.staged ++ [x] })
      ∧ ((∃ z, z < 64 ∧ (s.zone z).holder ≠ none) → Ended l.q .busy [] s t ∧ t.lc = { s.lc with memberLoad := none }))
    ∧ (∀ l h x, Completing (.record .io) s → s.io.load = some l → l.q.slot < 32 → l.header = some h → l.ins.length = 12 → l.outs.length = 11 →
      (∀ i, (s.input i).value ≠ some .closed) → decodeOutput 11 data = some x → ∃ t, exec (.ioRecordRead data) s = .next t
      ∧ Ended l.q (if l.clamped = true then .doneClamped else .done) [] s t ∧ SameBut [.io] s t
      ∧ t.io.load = none ∧ t.io.safetyPair = h.1 ∧ t.io.troubleMask = h.2 ∧ t.io.trouble = t.troubleNow
      ∧ (∀ i g, l.ins[i]? = some g → (t.input i).func = g.1 ∧ (t.input i).debounce = g.2 ∧ (t.input i).reading = (s.input i).reading
        ∧ (t.input i).exact = (s.input i).exact ∧ (t.input i).counted = (s.input i).counted)
      ∧ (∀ i g, (l.outs ++ [x])[i]? = some g → (t.output i).func = g)
      ∧ ∀ i, i < 12 → s.io.outFunc i = .plain → t.io.outFunc i ≠ .plain → (t.output i).driven = false ∧ (t.output i).releaseAt = none)
    ∧ ∀ w x, Completing .scheduleEntry s → s.se.switch = some w → w.load.q.slot < 32 → w.load.atLast →
      decodeEntry s.pu.table s.za.groups s.dc.records ((w.load.staged.getLast?.map (·.time)).getD 0) data = some x →
      ∃ t, exec (.scheduleEntryRead data) s = .next t ∧ SameBut [.se] s t
      ∧ let ends (o : Outcome) (se : Schedule) : Prop := Ended w.load.q o [] s t ∧ t.se = se
        let passed : Outcome := if w.load.clamped = true then .doneClamped else .done
        let bank : Bank := ⟨w.load.staged ++ [x], w.window⟩
        (w.choice = .now → ends passed { s.se with switch := none, active := bank, waiting := none })
        ∧ ∀ h, s.se.mark = some h →
          (w.choice = .nextDay → ends passed { s.se with switch := none, waiting := some ⟨bank, h.day + 1⟩ })
          ∧ ∀ n, w.choice = .atDay n →
            (h.day < n → ends passed { s.se with switch := none, waiting := some ⟨bank, n⟩ })
            ∧ (n ≤ h.day → ends .outOfRange { s.se with switch := none })

/-! ### The time base (chapter 1) -/

/-- R5, R6: one nominal millisecond of a part in operation adds 1 to the elapsed time, the trim to the accumulator, which gives up a whole trim term,
and 1 with that term and the slew term to campus time, which ends at the last millisecond of day 36524 (R8); a slew step comes after 100 counted
milliseconds and brings Pc one nearer to 0, and one of −1 that falls in a millisecond whose trim term is −1 waits for the next whose trim term is not.
SLEW_STEP is that millisecond (the model's choice, log entry 6), and the count stands at 0 while no slew is pending (the model's choice, log entry
55). A part that is not in operation counts campus time with the trim alone while it settles or its backup holds (R26, R185). -/
def Obligations.NominalMillisecondsCount : Prop :=
  ∀ s : State,
    let a : Int := s.tb.acc + s.tb.trim
    let term : Int := if a ≥ 10000000 then 1 else if a ≤ -10000000 then -1 else 0
    let due : Prop := s.tb.pc ≠ 0 ∧ 99 ≤ s.tb.slewCount
    let ticked (slew : Int) (t : State) : Prop := t.elapsed = s.elapsed + 1 ∧ t.tb.acc = a - 10000000 * term ∧ t.tb.pc = s.tb.pc - slew
      ∧ t.tb.trim = s.tb.trim ∧ t.tb.refMode = s.tb.refMode ∧ t.tb.dst = s.tb.dst
      ∧ (s.tb.campus = none ∨ s.tb.saturated = true → t.tb.campus = s.tb.campus)
      ∧ ∀ old, s.tb.campus = some old → s.tb.saturated = false →
        t.tb.campus = some (ofLin (min (old.lin + (1 + term + slew).toNat) (36524 * 86400000 + 86399999)))
    (s.running = true → s.tb.slewLate = false → ¬ due → ∃ t, exec .timeAdvance s = .next t ∧ ticked 0 t
      ∧ t.tb.slewCount = if s.tb.pc = 0 then 0 else s.tb.slewCount + 1)
    ∧ (s.running = true → s.tb.slewLate = false → due → 0 < s.tb.pc → ∃ t, exec .slewStep s = .next t ∧ exec .timeAdvance s = .next t
      ∧ ticked 1 t ∧ t.tb.slewCount = 0)
    ∧ (s.running = true → s.tb.slewLate = false → due → s.tb.pc < 0 → term ≠ -1 → ∃ t, exec .slewStep s = .next t
      ∧ exec .timeAdvance s = .next t ∧ ticked (-1) t ∧ t.tb.slewLate = false ∧ t.tb.slewCount = 0)
    ∧ (s.running = true → s.tb.slewLate = true ∨ due → s.tb.pc < 0 → term = -1 → ∃ t, exec .slewStep s = .next t
      ∧ exec .timeAdvance s = .next t ∧ ticked 0 t ∧ t.tb.slewLate = true ∧ t.tb.slewCount = if 99 ≤ s.tb.slewCount then 0 else s.tb.slewCount + 1)
    ∧ (s.running = true → s.tb.slewLate = true → s.tb.pc < 0 → term ≠ -1 → ∃ t, exec .slewStep s = .next t
      ∧ exec .timeAdvance s = .next t ∧ ticked (-1) t ∧ t.tb.slewLate = false ∧ t.tb.slewCount = if 99 ≤ s.tb.slewCount then 0 else s.tb.slewCount + 1)
    ∧ (s.tb.slewLate = false → ¬ due → exec .slewStep s = .next s)
    ∧ (s.running = false → s.supply.main = true ∨ s.supply.backupHeld = true → ∃ t, exec .timeAdvance s = .next t
      ∧ t.elapsed = (if s.supply.main = true then s.elapsed + 1 else s.elapsed) ∧ t.tb.acc = a - 10000000 * term ∧ t.tb.pc = s.tb.pc
      ∧ (∀ old, s.tb.campus = some old →
        t.tb.campus = some (ofLin (min (old.lin + (1 + term).toNat) (36524 * 86400000 + 86399999))))
      ∧ SameBut [.tb] s t ∧ t.ri = s.ri)
    ∧ (s.supply.main = false → s.supply.backupHeld = false → exec .timeAdvance s = .next s)

/-- R22, R23, R18, R24, R144, R145, R150: civil time. A rule's week names a Sunday of its month, the n-th or the last, and S and E lie on those days,
E taken back by the offset. Between S and E the rule's offset is in force; with E before S, before E and from S on. A millisecond carries campus time
on; entering a year it takes that year's instants, and it always takes the offset in force. One that changes the offset steps civil time
(ScheduleStepped), while no circuit is running. One that enters a year and reaches none of its instants is silent: it writes no record and steps
nothing, though its new instants change the offset (the model's reading, log entry 35); the civil time it leaves is at or before H. At a new civil
minute with no change of offset and no entry due, H, which stands on that civil day, becomes the moment; each running circuit without a pulse decides
by R144, the others stay; and an UP line that is idle, with a clock that is not ABSENT, begins a TIME ALL of that minute, while a line without such a
clock stays. That the slew count is 0 while no correction is pending is the model's choice (log entry 55). -/
def Obligations.CivilTimeTakesEffect : Prop :=
  (∀ y m week : Nat, 2000 ≤ y → 1 ≤ m → m ≤ 12 → 1 ≤ week → week ≤ 5 →
    let day := ruleDay y m week
    weekday day = 0 ∧ monthFirst y m ≤ day ∧ day < monthFirst y m + monthLength y m
    ∧ (week ≤ 4 → monthFirst y m + 7 * (week - 1) ≤ day ∧ day < monthFirst y m + 7 * week)
    ∧ (week = 5 → monthFirst y m + monthLength y m ≤ day + 7))
  ∧ (∀ (r : DstRule) (y now : Nat),
    let tr := transitionsOf r y
    tr.s.lin = ruleDay y r.startMonth r.startWeek * 86400000 + 3600000 * r.startHour
    ∧ tr.e.lin = ruleDay y r.endMonth r.endWeek * 86400000 + 3600000 * r.endHour - 60000 * r.offset
    ∧ (tr.s.lin < tr.e.lin → offsetAt (some r) (some tr) now = if tr.s.lin ≤ now ∧ now < tr.e.lin then r.offset else 0)
    ∧ (tr.e.lin < tr.s.lin → offsetAt (some r) (some tr) now = if now < tr.e.lin ∨ tr.s.lin ≤ now then r.offset else 0))
  ∧ ∀ (old now : CampusTime) (s : State), Advances old now s → ∃ t, exec .timeAdvance s = .next t ∧ t.elapsed = s.elapsed + 1
    ∧ t.tb = { s.tb.steppedTo now with slewCount := 0, lossTimer := t.tb.lossTimer }
    ∧ (yearOf old.day ≠ yearOf now.day → t.tb.trans = s.tb.dst.map fun r => transitionsOf r (yearOf now.day))
    ∧ (let reached : Prop := ∃ tr, t.tb.trans = some tr ∧ (tr.s.lin = now.lin ∨ tr.e.lin = now.lin)
      (t.tb.offset ≠ s.tb.offset → yearOf old.day = yearOf now.day ∨ reached → CircuitsAtRest s →
        ScheduleStepped (civilAt now t.tb.offset) s.annsTicked t)
      ∧ ∀ h, t.tb.offset ≠ s.tb.offset → yearOf old.day ≠ yearOf now.day → ¬ reached → CircuitsAtRest s → BareLines s → s.se.mark = some h →
        (civilAt now t.tb.offset).day ≤ h.day → ((civilAt now t.tb.offset).lin : Int) ≤ h.lin →
        t.ri = s.ri ∧ t.au = s.annsTicked.au ∧ SameBut [.tb, .au] s t)
    ∧ (t.tb.offset = s.tb.offset → now.lin % 60000 = 0 → Counts s → (∀ l, IdleLine (s.line l)) →
      let civ := civilAt now s.tb.offset
      (∀ h, s.se.mark = some h → civ.day ≤ h.day ∧ ∀ e, e ∈ s.se.active.entries → ¬ e.dueBy h civ) →
      (∀ i, i < 4 →
        ((s.circuit i).st.running = false ∨ (s.circuit i).pulse ≠ none → t.circuit i = s.circuit i)
        ∧ ((s.circuit i).st.running = true → (s.circuit i).pulse = none →
          t.circuit i = Circuit.decided (civ.ms / 60000) t.elapsed (s.circuit i)))
      ∧ (∀ l, l < 8 → (s.line l).state = .up → (∃ n, n ∈ (s.line l).nodes ∧ n.kind = .clock ∧ n.st ≠ .absent) → ∃ f,
        t.line l = { s.line l with inFlight := some f } ∧ f.tx.kind = .timeAll civ.day (civ.ms / 60000) (decide (s.tb.offset ≠ 0))
        ∧ f.tx.dest = .all ∧ f.attempt = 1 ∧ f.timeoutAt = none)
      ∧ (∀ l, l < 8 → (∀ n, n ∈ (s.line l).nodes → n.kind = .clock → n.st = .absent) → t.line l = s.line l)
      ∧ t.se = { s.se with mark := s.se.mark.map fun h => if h.lin < (civ.lin : Int) then ⟨civ.day, civ.ms⟩ else h }
      ∧ SameBut [.tb, .au, .se, .cu, .lc, .io] s t ∧ t.au = s.annsTicked.au)

/-- R47 to R52, R40, R41, R33: a new civil second, with no change of offset, while the lines are bare and no circuit is running. On the day of H the
FLAGS entries due are applied in order, each if it is selected by the profile and its condition as the flags then stand. The one entry due, selected:
a BELL rings its bell; a CHIME begins its announcement of a tone on a free channel, or finds 12 announcements and writes ENTRY NOT FIRED; a DRILL
starts its drill, without tone and in one zone, or writes DRILL NOT STARTED with why; a MARK writes its record; a BELL or CHIME with an empty pattern
or group writes ENTRY NOT FIRED. Not selected it does nothing; and H becomes the second. At or before H, and with H unset, nothing is done. On a later
day the day roll comes first: the bank whose day has come becomes ACTIVE, the profile is that of the day and its presets are applied. The reasons'
codes, and that an empty pattern is named before an empty group, are the model's (log entries 14 and 51). -/
def Obligations.ScheduleFiresDueEntries : Prop :=
  ∀ (old now : CampusTime) (s : State), Advances old now s → (s.tb.steppedTo now).offset = s.tb.offset → now.lin % 1000 = 0 → CircuitsAtRest s →
    BareLines s → ∃ t, exec .timeAdvance s = .next t ∧ t.elapsed = s.elapsed + 1 ∧ t.tb.campus = some now
    ∧ let civ := civilAt now s.tb.offset
      let moved : Prop := t.se = { s.se with mark := some ⟨civ.day, civ.ms⟩ }
      let ticked : Prop := t.au = s.annsTicked.au
      let wrote (n : Note) : Prop := moved ∧ ticked ∧ t.ri = s.ri.take (stamped t n) ∧ SameBut [.tb, .au, .se] s t
      (s.se.mark = none → t.se = s.se ∧ t.ri = s.ri ∧ ticked ∧ SameBut [.tb, .au] s t)
      ∧ (∀ h, s.se.mark = some h → (civ.lin : Int) ≤ h.lin → civ.day ≤ h.day → t.se = s.se ∧ t.ri = s.ri ∧ ticked ∧ SameBut [.tb, .au] s t)
      ∧ (∀ h, s.se.mark = some h → h.lin < (civ.lin : Int) → civ.day = h.day → s.se.active.entries.length ≤ 1024 →
        (∀ e, e ∈ s.se.active.entries → e.dueBy h civ → ∃ m1 m2, e.kind = .flags m1 m2) → moved ∧ ticked ∧ SameBut [.tb, .au, .dp, .se] s t
        ∧ t.dp = { s.dp with
          flags := runFlags s.se.profile (s.se.active.entries.filter fun e => decide (e.dueBy h civ)) s.dp.flags })
      ∧ (∀ i e h, OnlyDue i e h civ s → civ.day = h.day →
        (¬ e.selectedBy s.se.profile s.dp.flags → moved ∧ t.ri = s.ri ∧ ticked ∧ SameBut [.tb, .au, .se] s t)
        ∧ (e.selectedBy s.se.profile s.dp.flags →
          let notFired (reason : Nat) : Prop := wrote ⟨.entryNotFired, .attention, .se, 0, 0, dv i, dv e.kind.code, dv reason⟩
          (∀ g p level df du z n, e.kind = .bell g p level df du → BellReady g p z n s →
            moved ∧ ticked ∧ BellStarted n z p level (.entry i 0) s t ∧ SameBut [.tb, .au, .se, .za, .pu] s t)
          ∧ (∀ g p level df du, e.kind = .chime g p level df du → (s.pattern p).steps ≠ [] → s.group g ≠ 0 →
            (12 ≤ s.au.anns.length → notFired Outcome.busy.code)
            ∧ ∀ z ch, s.au.anns.length < 12 → s.group g = BitVec.twoPow 64 z → Counts s → FreeZone z s → NoWaiters s →
              (∀ b, s.za.feeds.getD b none = none) → freeChannel? s = some ch → moved ∧ SameBut [.tb, .au, .se, .za] s t
              ∧ ∃ a c, t.au.anns = s.annsTicked.au.anns ++ [a] ∧ s.ann? (nextAnnNumber s) = none ∧ a.num = nextAnnNumber s ∧ a.st = .chime
                ∧ a.source = .toneOnly ∧ a.chime = some p ∧ a.level = level ∧ a.origin = .entry i ∧ a.maxDur = du ∧ a.channel = some ch
                ∧ (t.channel ch).owner = some (.ann a.num) ∧ (t.zone z).holder = some c ∧ c.who = .ann a.num ∧ t.zoneState z = .page
                ∧ ∀ y, y ≠ z → t.zone y = s.zone y)
          ∧ (∀ n, e.kind = .drill n →
            let r := s.dc.records.getD n DrillRec.undefined
            let refusal : Option Outcome := if r.defined = false then some .badParameter
              else if s.dc.fireActive = true ∨ s.dc.silenceHeld = true then some .fireActive else if s.dc.active ≠ none then some .busy else none
            (∀ o, refusal = some o → wrote ⟨.drillNotStarted, .attention, .se, 0, 0, dv i, dv n, dv o.code⟩)
            ∧ ∀ z, refusal = none → r.tone = false → drillZones s r = [z] → FreeZone z s → NoWaiters s →
              moved ∧ ticked ∧ SameBut [.tb, .au, .se, .za, .dc] s t ∧ t.zoneState z = .evac ∧ (∀ y, y ≠ z → t.zone y = s.zone y)
              ∧ ∃ d c, t.dc = { s.dc with active := some d } ∧ d.num = n ∧ d.phase = .sounding ∧ d.origin = .entry i ∧ d.start = t.elapsed
                ∧ (t.zone z).holder = some c ∧ c.who = .drill n)
          ∧ (∀ g p level df du, e.kind = .bell g p level df du ∨ e.kind = .chime g p level df du → (s.pattern p).steps = [] ∨ s.group g = 0 →
            notFired (if (s.pattern p).steps = [] then 0 else 1))
          ∧ ∀ code, e.kind = .mark code → wrote ⟨.mark, .routine, .se, 0, 0, dv code, dv i, dv 0⟩))
      ∧ (∀ h, s.se.mark = some h → h.day < civ.day → (∀ e, e ∈ (s.se.rolled civ s.dp.calendar).active.entries → civ.ms < 1000 * e.time) →
        t.dp = s.dp.rolled civ.day ∧ t.se = s.se.rolled civ s.dp.calendar ∧ ticked ∧ SameBut [.tb, .au, .dp, .se] s t)

/-- R9 to R14: a reference pulse in mode PULSE is valid with no last valid pulse, or at an interval from it within 50 ms of a whole number of seconds
up to 3600, or past 3,600,050 ms; an invalid one is counted. A valid one becomes the last valid pulse, with its phase error, restarts the loss timer
and ends a loss of the reference; inside the deadband it begins a baseline when Pc is 0 and there is none; outside it the trim learns from the
baseline when Pc is 0, Pc becomes the error's negative and the baseline awaited. A pulse in mode OFF changes the Time Base in nothing. When the loss
timer reaches the loss limit the reference is lost, and the trouble class REFERENCE is present. After 3,600,050 ms the last valid pulse is none. -/
def Obligations.ReferenceEventsTakeEffect : Prop :=
  ∀ s : State, s.running = true →
    (s.io.inFunc 0 = .reference → (s.input 0).reading ≠ .closed → Counts s → ∃ t, exec .referencePulse s = .next t
      ∧ (t.input 0).reading = .closed ∧ (t.input 0).func = (s.input 0).func ∧ (∀ k, k ≠ 0 → t.input k = s.input k) ∧ SameBut [.tb, .io] s t
      ∧ (s.tb.refMode = .off ∨ s.tb.campus = none ∨ s.tb.saturated = true → t.tb = s.tb)
      ∧ ∀ now, s.tb.refMode = .pulse → s.tb.campus = some now → s.tb.saturated = false →
        let m : Int := (now.ms % 1000 : Nat)
        let e : Int := if m < 500 then m else m - 1000
        let valid : Prop := ∀ p, s.tb.lastPulse = some p → 3600050 < s.elapsed - p
          ∨ ∃ k, 1 ≤ k ∧ k ≤ 3600 ∧ 1000 * k ≤ s.elapsed - p + 50 ∧ s.elapsed - p ≤ 1000 * k + 50
        let learned (b : Nat) : Int :=
          let seconds : Int := (max 1 (min 86400 ((s.elapsed - b + 500) / 1000)) : Nat)
          max (-5000) (min 5000 (s.tb.trim + max (-500) (min 500 (-(Int.tdiv (e * 10000) (8 * seconds))))))
        let corrected (trim : Int) : TimeBase := { s.tb with
          lastPulse := some s.elapsed, lastError := e, lossTimer := 0, refLost := false, trim := trim
          baseline := none, baselineAwaited := true, pc := -e, slewCount := 0, slewLate := false }
        (¬ valid → t.tb = { s.tb with invalidPulses := min (s.tb.invalidPulses + 1) 65535 })
        ∧ (valid → -2 ≤ e → e ≤ 2 → t.tb = { s.tb with
          lastPulse := some s.elapsed, lastError := e, lossTimer := 0, refLost := false
          baseline := if s.tb.pc = 0 ∧ s.tb.baseline = none then some s.elapsed else s.tb.baseline })
        ∧ (valid → e < -2 ∨ 2 < e → s.tb.pc ≠ 0 ∨ s.tb.baseline = none → t.tb = corrected s.tb.trim)
        ∧ (∀ b, valid → e < -2 ∨ 2 < e → s.tb.pc = 0 → s.tb.baseline = some b → t.tb = corrected (learned b)))
    ∧ (s.io.inFunc 0 ≠ .reference → exec .referencePulse s = .next s)
    ∧ (s.tb.refMode = .pulse → s.tb.campus ≠ none → s.tb.refLost = false → s.tb.saturated = false →
      (s.tb.lossTimer < 1000 * s.tb.lossLimit → exec .referenceLost s = .next s)
      ∧ (1000 * s.tb.lossLimit ≤ s.tb.lossTimer → ∃ t, exec .referenceLost s = .next t ∧ timeState t.tb = .holdover
        ∧ t.tb = { s.tb with refLost := true, lostAt := s.elapsed, baseline := none } ∧ t.io.trouble.getLsbD 2 = true ∧ SameBut [.tb, .io] s t))
    ∧ (∀ p, s.tb.lastPulse = some p →
      (p + 3600050 ≤ s.elapsed → exec .lastValidPulseExpiry s = .next { s.started with tb := { s.tb with lastPulse := none } })
      ∧ (s.elapsed < p + 3600050 → exec .lastValidPulseExpiry s = .next s))

/-! ### Bells (chapters 4 and 5) -/

/-- R84, R90, R94, R69: of a bell with one zone, while no feed is held: the zone's cadence step is that of its pattern at this moment; at the length
of its cadence the zone, which puts nothing on a line and which nobody waits for, is released and the bell has ended; its claim that reaches its wait
limit leaves the wait list, the holder stays, and the bell has ended. Before the end of a cadence and before a wait limit nothing changes but the
event's number. -/
def Obligations.BellsStepFinishAndExpire : Prop :=
  ∀ (n z : Nat) (b : Bell) (e : BellZone) (h : Claim) (s : State), s.running = true → Counts s → z < 64 → s.bell? n = some b → b.zones = [e] →
    e.zone = z → (s.zone z).holder = some h → (∀ y, s.za.feeds.getD y none = none) →
    (e.st = .sounding → h.who = .bell n → s.elapsed < e.start + b.length → ∃ t, exec (.cadenceStep (.bell n z)) s = .next t
      ∧ t.zone z = { s.zone z with cadence := (s.pattern b.pattern).cadenceAt (s.elapsed - e.start) }
      ∧ (∀ y, y ≠ z → t.zone y = s.zone y) ∧ SameBut [.za] s t)
    ∧ (e.st = .sounding → h.who = .bell n → e.start + b.length ≤ s.elapsed → NoWaiters s →
      (s.zoneRec z).sounds = false → (s.zoneRec z).speaks = false → ∃ t, exec (.bellCadenceEnd n z) s = .next t
      ∧ (t.zone z).holder = none ∧ (t.zone z).cadence = .quiet ∧ (∀ y, y ≠ z → t.zone y = s.zone y)
      ∧ t.pu.bells = (s.pu.bells.filter fun x => x.num != n) ∧ t.pu.table = s.pu.table ∧ SameBut [.za, .pu] s t)
    ∧ (e.st = .sounding → s.elapsed < e.start + b.length → exec (.bellCadenceEnd n z) s = .next s.started)
    ∧ (∀ w limit, e.st = .waiting → e.sounded = false → h.who ≠ .bell n → (s.zone z).waiters = [w] → w.who = .bell n →
      w.waitLimit = some limit → (∀ y, y ≠ z → (s.zone y).waiters = []) →
      (s.elapsed < limit → exec (.waitLimitExpiry z (.bell n)) s = .next s.started)
      ∧ (limit ≤ s.elapsed → ∃ t, exec (.waitLimitExpiry z (.bell n)) s = .next t
        ∧ (t.zone z).waiters = [] ∧ (t.zone z).holder = some h ∧ (t.zone z).cadence = (s.zone z).cadence ∧ (∀ y, y ≠ z → t.zone y = s.zone y)
        ∧ t.pu.bells = (s.pu.bells.filter fun x => x.num != n) ∧ t.pu.table = s.pu.table ∧ SameBut [.za, .pu] s t))

/-! ### Announcements (chapter 6) -/

/-- R110, R111: the routing timer of an announcement that holds a zone and lets others join late ends ROUTING, into CHIME; a chime's cadence step drives
the tone generator of its channel; at the chime's length a TONE ONLY announcement ends COMPLETE, a BLOCKS one begins PLAYING with the read
of its first header, and a LIVE one with its talk state (R116, R122). -/
def Obligations.ChimesStepAndEnd : Prop :=
  ∀ (n ch p : Nat) (a : Ann) (s : State), s.running = true → Counts s → s.ann? n = some a → a.channel = some ch → ch < 4 → a.chime = some p →
    (a.st = .routing → a.routingAt + 2000 ≤ s.elapsed → a.lateJoin = true → a.holds = true → ∃ t b, exec (.routingTimer n) s = .next t
      ∧ t.ann? n = some b ∧ b = { a with st := .chime, chimeAt := s.elapsed } ∧ t.au.waitList = s.au.waitList
      ∧ (t.channel ch).tone = toneFor s p ((s.pattern p).cadenceAt 0) ∧ (t.channel ch).owner = (s.channel ch).owner
      ∧ (∀ k, k ≠ ch → t.channel k = s.channel k) ∧ SameBut [.au] s t)
    ∧ (a.st = .routing → s.elapsed < a.routingAt + 2000 → exec (.routingTimer n) s = .next s.started)
    ∧ (a.st = .chime → s.elapsed < a.chimeAt + (s.pattern p).length a.maxDur → ∃ t, exec (.cadenceStep (.chime n)) s = .next t
      ∧ t = s.started.setChannel ch fun k => { k with tone := toneFor s p ((s.pattern p).cadenceAt (s.elapsed - a.chimeAt)) })
    ∧ (a.st = .chime → s.elapsed < a.chimeAt + (s.pattern p).length a.maxDur → exec (.chimeEnd n) s = .next s.started)
    ∧ (a.st = .chime → a.chimeAt + (s.pattern p).length a.maxDur ≤ s.elapsed →
      (a.source = .toneOnly → EndsAlone n ch a s → ∃ t, exec (.chimeEnd n) s = .next t ∧ AnnGone n ch .complete s t)
      ∧ (∀ first, a.source = .blocks first → s.ri.link = .attached → ∃ t b, exec (.chimeEnd n) s = .next t
        ∧ t.ann? n = some b ∧ b = { a with st := .playing, access := some (.header first) }
        ∧ t.ri.accesses = s.ri.accesses ++ [.header a.arrival] ∧ (t.channel ch).tone = none ∧ (t.channel ch).playedTo = s.elapsed
        ∧ (t.channel ch).fifo = (s.channel ch).fifo ∧ (∀ k, k ≠ ch → t.channel k = s.channel k) ∧ SameBut [.au] s t)
      ∧ (∀ live, a.source = .live live → ∃ t b, exec (.chimeEnd n) s = .next t ∧ t.ann? n = some b ∧ b.st = .playing
        ∧ (s.pttClosed live = true → b = { a with st := .playing, talk := some .talking })
        ∧ (s.pttClosed live = false → b = { a with st := .playing, talk := some .beforeTalk, noTalkAt := some (s.elapsed + 10000) })
        ∧ (t.channel ch).tone = none ∧ (∀ k, k ≠ ch → t.channel k = s.channel k) ∧ t.ri = s.ri ∧ SameBut [.au] s t))

/-- R103, R109, R112 to R114, R120, R122: an announcement that can end alone (no claim or announcement waits, the lines are bare, no block is to be
marked) ends at its maximum duration, at the resume deadline of HELD, at its channel's starve limit, at the no-talk timer, and, with nothing left to
play, when its live tail runs out; a waiting one at its maximum duration leaves the wait list. Before their instants nothing changes but the event's
number. -/
def Obligations.AnnouncementTimersEndThem : Prop :=
  ∀ (n ch t0 : Nat) (a : Ann) (s : State), s.running = true → s.ann? n = some a →
    (a.st = .chime ∨ a.st = .playing →
      (1000 * a.maxDur ≤ a.timePlayed → EndsAlone n ch a s → ∃ t, exec (.maxDurationReached n) s = .next t ∧ AnnGone n ch .maxTime s t)
      ∧ (a.timePlayed < 1000 * a.maxDur → exec (.maxDurationReached n) s = .next s.started))
    ∧ (a.st = .held →
      (a.heldAt + 1000 * a.resume ≤ s.elapsed → EndsAlone n ch a s → ∃ t, exec (.resumeDeadline n) s = .next t ∧ AnnGone n ch .preempted s t)
      ∧ (s.elapsed < a.heldAt + 1000 * a.resume → exec (.resumeDeadline n) s = .next s.started))
    ∧ (a.st = .playing → (s.channel ch).owner = some (.ann n) → (s.channel ch).starveFrom = some t0 →
      (t0 + (s.channel ch).cfg.starveLimit ≤ s.elapsed → EndsAlone n ch a s →
        ∃ t, exec (.starveLimit ch) s = .next t ∧ AnnGone n ch .starved s t)
      ∧ (s.elapsed < t0 + (s.channel ch).cfg.starveLimit → exec (.starveLimit ch) s = .next s.started))
    ∧ (a.talk = some .beforeTalk → a.noTalkAt = some t0 →
      (t0 ≤ s.elapsed → EndsAlone n ch a s → ∃ t, exec (.noTalk n) s = .next t ∧ AnnGone n ch .noTalk s t)
      ∧ (s.elapsed < t0 → exec (.noTalk n) s = .next s.started))
    ∧ (a.st = .playing → a.talk = some .tail → a.tailEnd = some t0 →
      (t0 ≤ s.elapsed → EndsAlone n ch a s → (s.channel ch).fifo = [] →
        ∃ t, exec (.liveTailEnd n) s = .next t ∧ AnnGone n ch .complete s t)
      ∧ (t0 ≤ s.elapsed → a.channel = some ch → (s.channel ch).fifo ≠ [] → exec (.liveTailEnd n) s = .next
        (s.started.setAnn n fun a => { a with talk := some .ended, sourceEnded := true, tailEnd := none }))
      ∧ (s.elapsed < t0 → exec (.liveTailEnd n) s = .next s.started))
    ∧ (a.st = .waiting →
      (a.takenAt + 1000 * a.maxDur ≤ s.elapsed → ∃ t, exec (.waitingMaxDuration n) s = .next t
        ∧ t.au = { s.au with anns := s.au.anns.filter (fun e => e.num != n), waitList := s.au.waitList.filter (· != n) } ∧ SameBut [.au] s t)
      ∧ (s.elapsed < a.takenAt + 1000 * a.maxDur → exec (.waitingMaxDuration n) s = .next s.started))

/-- R120, R122: while its source has not ended, a channel plays a millisecond of 16 samples from its FIFO, which are its output, and counts them; a
live source that talks brings in 16 samples and keeps 512 back. A BLOCKS source's FIFO runs empty only with its starve timer running. With the source
ended, an announcement that can end alone plays its last samples and ends COMPLETE. R117: with a current block not yet fetched whole and no access of
its own in flight, it fetches at the sample at which the level falls below the trigger, as many as the FIFO has room for. That SAMPLES PLAYED is one
millisecond of 16 samples, taken once for each, is the model's choice (log entry 30). R119: each 100 ms an announcement that awaits its successor
reads the header again, or notes that it must while another access is in flight. -/
def Obligations.ChannelsPlay : Prop :=
  ∀ (n ch t0 : Nat) (live : List Sample) (a : Ann) (s : State), s.running = true → Counts s → ch < 4 → s.ann? n = some a → a.st = .playing →
    a.channel = some ch → (s.channel ch).owner = some (.ann n) →
    (∀ b, (s.channel ch).playedTo < s.elapsed → a.sourceEnded = false → a.awaiting = none → a.isBlocks = true → a.talk = none → a.block = some b →
      a.access = none → s.ri.link = .attached → 16 < (s.channel ch).cfg.trigger →
      let level := (s.channel ch).fifo.length
      let m := min 16 level
      let lowest := if level < (s.channel ch).cfg.trigger then level - m else (s.channel ch).cfg.trigger - 1
      let size := min (2048 - lowest) (b.count - b.fetched)
      let fetches : Prop := b.fetched < b.count ∧ level < (s.channel ch).cfg.trigger + m
      ∃ t, exec (.samplesPlayed ch live) s = .next t
      ∧ (fetches → t.ann? n = some { a with played := a.played + m, access := some (.fetch size) }
        ∧ t.ri = { s.ri with accesses := s.ri.accesses ++ [.fetch a.arrival size] })
      ∧ (¬ fetches → t.ann? n = some { a with played := a.played + m } ∧ t.ri = s.ri)
      ∧ (t.channel ch).fifo = (s.channel ch).fifo.drop m ∧ (t.channel ch).output = (s.channel ch).fifo.take m
      ∧ (t.channel ch).playedTo = (s.channel ch).playedTo + 1 ∧ (∀ k, k ≠ ch → t.channel k = s.channel k) ∧ SameBut [.au] s t)
    ∧ ((s.channel ch).playedTo < s.elapsed → a.sourceEnded = false → a.awaiting = none → a.block = none →
      (a.liveOf = none → a.talk = none → ∃ t b, exec (.samplesPlayed ch live) s = .next t ∧ t.ann? n = some b
        ∧ b = { a with played := a.played + min 16 (s.channel ch).fifo.length }
        ∧ (t.channel ch).fifo = (s.channel ch).fifo.drop 16 ∧ (t.channel ch).output = (s.channel ch).fifo.take 16
        ∧ (t.channel ch).playedTo = (s.channel ch).playedTo + 1
        ∧ (16 < (s.channel ch).fifo.length → (t.channel ch).starveFrom = (s.channel ch).starveFrom)
        ∧ (a.isBlocks = true → (s.channel ch).fifo.length ≤ 16 → (t.channel ch).starveFrom ≠ none)
        ∧ (∀ k, k ≠ ch → t.channel k = s.channel k) ∧ t.ri = s.ri ∧ SameBut [.au] s t)
      ∧ (a.liveOf ≠ none → a.talk = some .talking → live.length = 16 → ∃ t b, exec (.samplesPlayed ch live) s = .next t ∧ t.ann? n = some b
        ∧ b = { a with fetched := a.fetched + 16, played := a.played + min 16 ((s.channel ch).fifo.length + 16 - 512) }
        ∧ (t.channel ch).fifo = ((s.channel ch).fifo ++ live).drop (min 16 ((s.channel ch).fifo.length + 16 - 512))
        ∧ (t.channel ch).output = ((s.channel ch).fifo ++ live).take (min 16 ((s.channel ch).fifo.length + 16 - 512))
        ∧ (∀ k, k ≠ ch → t.channel k = s.channel k) ∧ t.ri = s.ri ∧ SameBut [.au] s t))
    ∧ ((s.channel ch).playedTo < s.elapsed → a.sourceEnded = true → a.talk ≠ some .talking → a.talk ≠ some .tail → a.awaiting = none →
      (∀ b, a.block = some b → b.count ≤ b.fetched) → (s.channel ch).fifo.length ≤ 16 → 16 < (s.channel ch).cfg.trigger → EndsAlone n ch a s →
      ∃ t, exec (.samplesPlayed ch live) s = .next t ∧ AnnGone n ch .complete s t)
    ∧ (s.elapsed ≤ (s.channel ch).playedTo → exec (.samplesPlayed ch live) s = .next s.started)
    ∧ (a.awaiting = some t0 → s.ri.link = .attached →
      (t0 ≤ s.elapsed → a.access = none → ∃ t, exec (.awaitingRereadTimer n) s = .next t
        ∧ t = (s.started.setAnn n fun a => { a with awaiting := some (t0 + 100), rereadDue := false, access := some .reread }).ask (.reread a.arrival))
      ∧ (t0 ≤ s.elapsed → a.access ≠ none → exec (.awaitingRereadTimer n) s = .next
        (s.started.setAnn n fun a => { a with awaiting := some (t0 + 100), rereadDue := true }))
      ∧ (s.elapsed < t0 → exec (.awaitingRereadTimer n) s = .next s.started))

/-- R116 to R119, R114: a valid header becomes the current block and its first samples are fetched; one that is not valid ends an announcement that
can end alone BAD BLOCK; a fetch's samples join the FIFO, and no more are asked for while the FIFO is at its trigger level; a block read to its end,
with its successor known, is marked CONSUMED, with its successor's header read after that; an exhausted block that a re-read finds still without a
successor is read again at the next 100 ms. The CONSUMED write puts 2 into the state byte of the block's header. A LAST block read to its end, or
found to be LAST by a re-read while samples are left, ends the source with its CONSUMED write; at the end of that write the announcement plays on what
is left, and with nothing left it ends COMPLETE. -/
def Obligations.AudioAccessesComplete : Prop :=
  ∀ (data : List Byte) (samples : List Sample) (n ch off k next : Nat) (a : Ann) (b : Block) (s : State), Counts s → ch < 4 →
    s.ann? n = some a → s.annById? a.arrival = some a → a.st = .playing → a.channel = some ch → a.isBlocks = true →
    let h := decodeHeader data
    let level := (s.channel ch).fifo.length
    (Completing (.header a.arrival) s → a.access = some (.header off) → headerValid off h = true → level < (s.channel ch).cfg.trigger →
      exec (.headerRead data) s = .next ((s.wentOn [.fetch a.arrival (min (2048 - level) h.count)]).setAnn n fun a => { a with
        access := some (.fetch (min (2048 - level) h.count)), block := some ⟨off, h.count, 0, h.next, h.last⟩, consumedBegun := false }))
    ∧ (Completing (.header a.arrival) s → a.access = some (.header off) → headerValid off h = false → a.block = none → EndsAlone n ch a s →
      ∃ t, exec (.headerRead data) s = .next t ∧ AnnGone n ch .badBlock s t)
    ∧ (Completing (.fetch a.arrival k) s → a.access = some (.fetch k) → a.block = some b → samples.length = k → b.fetched + k < b.count →
      (s.channel ch).cfg.trigger ≤ level + k → exec (.fetchComplete samples) s = .next
        (((s.wentOn []).setAnn n fun a => { a with
          access := none, fetched := a.fetched + k, discarded := if a.st = .ending then a.discarded + k else a.discarded
          block := a.block.map fun b => { b with fetched := b.fetched + k } }).setChannel ch fun q =>
          { q with fifo := q.fifo ++ samples, starveFrom := none }))
    ∧ (Completing (.fetch a.arrival k) s → a.access = some (.fetch k) → a.block = some b → samples.length = k → b.count ≤ b.fetched + k →
      b.last = false → b.next ≠ 0 → exec (.fetchComplete samples) s = .next
        (((s.wentOn [.consumed a.arrival b.offset]).setAnn n fun a => { a with
          access := some (.consumed (some b.next)), consumedBegun := true, awaiting := none, rereadDue := false, sourceEnded := false
          fetched := a.fetched + k, discarded := if a.st = .ending then a.discarded + k else a.discarded
          block := a.block.map fun b => { b with fetched := b.fetched + k } }).setChannel ch fun q =>
          { q with fifo := q.fifo ++ samples, starveFrom := none }))
    ∧ (Completing (.consumed a.arrival off) s → a.access = some (.consumed (some next)) → exec .consumedWriteDone s = .next
        (((s.wentOn [.header a.arrival]).setRi fun ri => { ri with region := regionWrite ri.region (off + 3) [2] }).setAnn n fun a => { a with
          access := some (.header next) }))
    ∧ (Completing (.fetch a.arrival k) s → a.access = some (.fetch k) → a.block = some b → samples.length = k → b.count ≤ b.fetched + k →
      b.last = true → exec (.fetchComplete samples) s = .next
        (((s.wentOn [.consumed a.arrival b.offset]).setAnn n fun a => { a with
          access := some (.consumed none), consumedBegun := true, awaiting := none, rereadDue := false, sourceEnded := true
          fetched := a.fetched + k, discarded := if a.st = .ending then a.discarded + k else a.discarded
          block := a.block.map fun b => { b with fetched := b.fetched + k } }).setChannel ch fun q =>
          { q with fifo := q.fifo ++ samples, starveFrom := none }))
    ∧ (Completing (.consumed a.arrival off) s → a.access = some (.consumed none) → a.sourceEnded = true →
      (level ≠ 0 → exec .consumedWriteDone s = .next
        (((s.wentOn []).setRi fun ri => { ri with region := regionWrite ri.region (off + 3) [2] }).setAnn n fun a => { a with access := none }))
      ∧ (level = 0 → EndsAlone n ch { a with access := none } (s.setAnn n fun a => { a with access := none }) →
        ∃ t, exec .consumedWriteDone s = .next t ∧ AnnGone n ch .complete s t ∧ (0x3000 ≤ off → regionRead t.ri.region (off + 3) = some 2)))
    ∧ (Completing (.reread a.arrival) s → a.access = some .reread → a.block = some b → h.last = true → level ≠ 0 →
      exec (.headerReread data) s = .next ((s.wentOn [.consumed a.arrival b.offset]).setAnn n fun a => { a with
        access := some (.consumed none), consumedBegun := true, awaiting := none, rereadDue := false, sourceEnded := true }))
    ∧ (Completing (.reread a.arrival) s → a.access = some .reread → a.block = some b → h.last = false → h.next ≠ 0 → blockOffsetOk h.next = true →
      exec (.headerReread data) s = .next ((s.wentOn [.consumed a.arrival b.offset]).setAnn n fun a => { a with
        access := some (.consumed (some h.next)), consumedBegun := true, awaiting := none, rereadDue := false, sourceEnded := false }))
    ∧ (Completing (.reread a.arrival) s → a.access = some .reread → h.last = false → h.next = 0 → a.rereadDue = false →
      exec (.headerReread data) s = .next ((s.wentOn []).setAnn n fun a => { a with
        access := none, awaiting := some (a.awaiting.getD (s.elapsed + 100)) }))

/-! ### Drills (chapter 7) -/

/-- R129, R130, R133, R134: in a drill without tone, with one zone, which puts nothing on a line: the zone's cadence steps with its pattern and is
QUIET from its length; at the sounding time SOUNDING ends and EVACUATING begins; at the evacuation target every building that has not reported is
late. The end of the last all-clear cadence ends the drill COMPLETE and releases its zone. Before their instants nothing changes, or the event's
number alone. R104, R95: a cadence step of a drill's tone drives the tone generator of its channel by the cadence it runs, and past its length it is
silent. -/
def Obligations.DrillTimersTakeEffect : Prop :=
  (∀ (d : ActiveDrill) (e : DrillZone) (r : CadRun) (s : State), s.running = true → Counts s → s.dc.active = some d → d.tone = false →
    d.channel = none → d.zones = [e] → e.zone < 64 → (s.zoneRec e.zone).sounds = false → (s.zoneRec e.zone).speaks = false →
    (s.zone e.zone).holder.map (·.who) = some (.drill d.num) →
    (e.cad = some r → s.elapsed < r.start + r.length → ∃ t, exec (.cadenceStep (.drillZone e.zone)) s = .next t
      ∧ t.zone e.zone = { s.zone e.zone with cadence := (s.pattern r.pattern).cadenceAt (s.elapsed - r.start) }
      ∧ (∀ y, y ≠ e.zone → t.zone y = s.zone y) ∧ SameBut [.za] s t)
    ∧ (e.cad = some r → d.phase = .sounding → r.start + r.length ≤ s.elapsed → ∃ t, exec (.drillZoneCadenceEnd e.zone) s = .next t
      ∧ t.dc = { s.dc with active := some { d with zones := [{ e with cad := none, ended := true }] } }
      ∧ t.zone e.zone = { s.zone e.zone with cadence := .quiet } ∧ (∀ y, y ≠ e.zone → t.zone y = s.zone y) ∧ SameBut [.za, .dc] s t)
    ∧ (e.cad = some r → s.elapsed < r.start + r.length → exec (.drillZoneCadenceEnd e.zone) s = .next s.started
      ∧ exec (.allClearCadenceEnd e.zone) s = .next s.started)
    ∧ (d.phase = .sounding → d.start + 1000 * d.record.sounding ≤ s.elapsed → ∃ t h, exec .soundingTimeReached s = .next t
      ∧ t.dc = { s.dc with active := some { d with phase := .evacuating, zones := [{ e with cad := none }] } }
      ∧ (t.zone e.zone).holder = some h ∧ h.who = .drill d.num ∧ h.sound = none ∧ (e.cad ≠ none → (t.zone e.zone).cadence = .quiet)
      ∧ (∀ y, y ≠ e.zone → t.zone y = s.zone y) ∧ SameBut [.za, .dc] s t)
    ∧ (d.phase ≠ .sounding ∨ s.elapsed < d.start + 1000 * d.record.sounding → exec .soundingTimeReached s = .next s)
    ∧ (d.targetReached = false → d.start + 1000 * d.record.target ≤ s.elapsed → ∃ t, exec .evacuationTargetReached s = .next t
      ∧ t.dc = { s.dc with active := some { d with
          targetReached := true
          buildings := d.buildings.map fun b => if b.clear.isNone then { b with late := true } else b } } ∧ SameBut [.dc] s t)
    ∧ (d.targetReached = true ∨ s.elapsed < d.start + 1000 * d.record.target → exec .evacuationTargetReached s = .next s)
    ∧ (e.cad = some r → d.phase = .allClear → r.start + r.length ≤ s.elapsed → NoWaiters s → (∀ b, s.za.feeds.getD b none = none) →
      (∀ y h, (s.zone y).holder = some h → h.who = .drill d.num → y = e.zone) → ∃ t, exec (.allClearCadenceEnd e.zone) s = .next t
      ∧ t.dc = { s.dc with active := none, last := some ⟨d.num, .complete, d.buildings⟩ } ∧ (t.zone e.zone).holder = none
      ∧ (∀ y, y ≠ e.zone → (t.zone y).holder = (s.zone y).holder) ∧ SameBut [.za, .dc] s t))
  ∧ ∀ (d : ActiveDrill) (ch : Nat) (r : CadRun) (s : State), s.running = true → s.dc.active = some d → d.channel = some ch →
    (s.channel ch).drillCad = some r → ∃ t, exec (.cadenceStep .drillTone) s = .next t
      ∧ t = s.started.setChannel ch fun k => { k with tone :=
        if s.elapsed < r.start + r.length then toneFor s r.pattern ((s.pattern r.pattern).cadenceAt (s.elapsed - r.start)) else none }

/-! ### Impulse circuits (chapter 8) -/

/-- R146 to R148: at its next pulse instant a running circuit sends a pulse of the opposite polarity; one that completes with load current moves the position
on and takes its polarity; one without current adds to the open count, and the third in a row puts the circuit in FAULT; a pulse made void
counts for nothing. The settings stay, and no other circuit changes. -/
def Obligations.CircuitPulsesTakeEffect : Prop :=
  ∀ (i t0 : Nat) (p : Pulse) (current : Bool) (s : State), s.running = true → Counts s → i < 4 → (s.circuit i).st.running = true →
    ((s.circuit i).pulse = none → (s.circuit i).nextAt = some t0 → t0 ≤ s.elapsed → ∃ t, exec (.pulseStart i) s = .next t
      ∧ t.circuit i = { s.circuit i with
        pulse := some ⟨match (s.circuit i).polarity with | .positive => .negative | .negative => .positive, s.elapsed, (s.circuit i).cfg.width, false⟩
        prevStart := some s.elapsed, nextAt := none }
      ∧ (∀ j, j ≠ i → t.circuit j = s.circuit j) ∧ t.ri = s.ri ∧ SameBut [.cu] s t)
    ∧ ((s.circuit i).nextAt = some t0 → s.elapsed < t0 → exec (.pulseStart i) s = .next s.started)
    ∧ ((s.circuit i).pulse = some p → s.elapsed < p.start + p.width → exec (.pulseComplete i current) s = .next s.started)
    ∧ ((s.circuit i).pulse = some p → p.start + p.width ≤ s.elapsed → ∃ t, exec (.pulseComplete i current) s = .next t
      ∧ (t.circuit i).pulse = none ∧ (t.circuit i).cfg = (s.circuit i).cfg ∧ (t.circuit i).prevStart = (s.circuit i).prevStart
      ∧ (p.void = false → current = true → (t.circuit i).pos = ((s.circuit i).pos + 1) % (s.circuit i).cfg.dial
        ∧ (t.circuit i).polarity = p.polarity ∧ (t.circuit i).openCount = 0 ∧ (t.circuit i).st ≠ .fault)
      ∧ (p.void = false → current = false → (t.circuit i).pos = (s.circuit i).pos ∧ (t.circuit i).polarity = (s.circuit i).polarity
        ∧ (t.circuit i).openCount = (s.circuit i).openCount + 1
        ∧ (2 ≤ (s.circuit i).openCount → (t.circuit i).st = .fault ∧ (t.circuit i).nextAt = none ∧ t.io.trouble.getLsbD 3 = true)
        ∧ ((s.circuit i).openCount < 2 → (t.circuit i).st ≠ .fault))
      ∧ (p.void = true → (t.circuit i).pos = (s.circuit i).pos ∧ (t.circuit i).polarity = (s.circuit i).polarity
        ∧ (t.circuit i).openCount = (s.circuit i).openCount)
      ∧ (∀ j, j ≠ i → t.circuit j = s.circuit j) ∧ t.tb = s.tb ∧ SameBut [.cu, .io] s t)

/-! ### Field lines (chapter 9) -/

/-- R157, R163 to R165, R167, R168, R173: on a line with nothing queued or deferred and no cycle running, the end of an addressed frame's sending starts its
response timeout, and that of a broadcast completes it; a valid reply with no flag to a POLL completes it and makes its SUSPECT node PRESENT; a bad reply, and
the timeout, begin another attempt while attempts remain, on the other path of an UP line with alternate-path retry; after the last a POLL fails,
which counts against its node. -/
def Obligations.FramesAreAnswered : Prop :=
  ∀ (ln : Nat) (f : InFlight) (r : Reply) (c : PathCond) (s : State), s.running = true → Counts s → ln < 8 → (s.line ln).inFlight = some f →
    (s.line ln).queue = [] → (s.line ln).deferred = [] → (s.line ln).cycle.running = false → (s.line ln).state = .up →
    let change (g : Line → Line) (t : State) : Prop := t.line ln = g (s.line ln) ∧ (∀ k, k ≠ ln → t.line k = s.line k)
    let again : InFlight := { f with
      attempt := f.attempt + 1
      path := if (s.line ln).cfg.alternate then f.path.other else (s.line ln).prefOf f.tx
      timeoutAt := none
      timeout := (s.line ln).cfg.timeout
      frame := frameOf s (s.line ln) f.tx }
    (f.timeoutAt = none → f.tx.kind.broadcast = false → ∃ t, exec (.frameSent ln) s = .next t ∧ SameBut [.lc] s t ∧ t.ri = s.ri
      ∧ change (fun l => { l with inFlight := some { f with timeoutAt := some (s.elapsed + f.timeout) } }) t)
    ∧ (f.timeoutAt = none → f.tx.kind.broadcast = true → f.tx.addr? = none → ∃ t, exec (.frameSent ln) s = .next t ∧ SameBut [.lc] s t
      ∧ t.ri = s.ri ∧ change (fun l => { l with inFlight := none }) t)
    ∧ (∀ t0, f.timeoutAt = some t0 →
      (∀ a n k shown, f.tx.kind = .poll → f.tx.dest = .node a → f.tx.stale = false → r = ⟨true, a, false, false, false, false, false, false, .poll k shown⟩ →
        (s.line ln).node? a = some n → n.st = .suspect → n.kind = .marshal → n.configured = true → ∃ t, exec (.replyReceived ln r) s = .next t
        ∧ SameBut [.lc] s t ∧ t.ri = s.ri ∧ change (fun l => { l with inFlight := none, nodes := l.nodes.map fun x =>
          if x.addr = a then { x with pref := f.path, fails := 0, st := .present } else x }) t)
      ∧ (validReply f.tx r = false → f.attempt < 1 + (s.line ln).cfg.retries → f.single = false → ∃ t, exec (.replyReceived ln r) s = .next t
        ∧ SameBut [.lc] s t ∧ t.ri = s.ri ∧ change (fun l => { l with inFlight := some again }) t)
      ∧ (s.elapsed < t0 → exec (.attemptTimeout ln c) s = .next s.started)
      ∧ (t0 ≤ s.elapsed → c = ((s.line ln).path f.path).cond → f.attempt < 1 + (s.line ln).cfg.retries → f.single = false →
        ∃ t, exec (.attemptTimeout ln c) s = .next t ∧ SameBut [.lc] s t ∧ t.ri = s.ri
        ∧ change (fun l => { l.setPath f.path ⟨c, some c⟩ with inFlight := some again }) t)
      ∧ (∀ a n, t0 ≤ s.elapsed → c = ((s.line ln).path f.path).cond → 1 + (s.line ln).cfg.retries ≤ f.attempt → f.tx.kind = .poll →
        f.tx.dest = .node a → f.tx.stale = false → (s.line ln).node? a = some n → n.st = .present → n.fails + 1 < (s.line ln).cfg.threshold →
        (s.line ln).cfg.bypass = 0 → ∃ t, exec (.attemptTimeout ln c) s = .next t ∧ SameBut [.lc] s t ∧ t.ri = s.ri
        ∧ change (fun l => { l.setPath f.path ⟨c, some c⟩ with inFlight := none, nodes := l.nodes.map fun x =>
          if x.addr = a then { x with st := .suspect, fails := n.fails + 1 } else x }) t))

/-- R168, R162, R155, R173: on a line with nothing in flight or deferred: at the end of a BUSY hold the node may be sent to again, and a transaction
queued for it goes into flight; a supervision cycle that is due reads both paths, which are as they were, and on an UP line polls the node of the
lowest address, or has ended on a line without nodes. Before the end of a hold nothing changes but the event's number, and before a cycle is due
nothing. -/
def Obligations.LineTimersTakeEffect : Prop :=
  ∀ (ln a t0 : Nat) (n : Node) (r : PathPair) (s : State), s.running = true → Counts s → ln < 8 → (s.line ln).deferred = [] →
    (s.line ln).inFlight = none →
    let change (g : Line → Line) (t : State) : Prop := t.line ln = g (s.line ln) ∧ (∀ k, k ≠ ln → t.line k = s.line k)
    ((s.line ln).node? a = some n → n.busyUntil = some t0 →
      (s.elapsed < t0 → exec (.busyHoldEnd ln a) s = .next s.started)
      ∧ (t0 ≤ s.elapsed → (s.line ln).queue = [] → ∃ t, exec (.busyHoldEnd ln a) s = .next t ∧ SameBut [.lc] s t ∧ t.ri = s.ri
        ∧ change (Line.setNode a fun x => { x with busyUntil := none }) t)
      ∧ (∀ x, t0 ≤ s.elapsed → (s.line ln).queue = [x] → x.addr? = some a → ∃ t f, exec (.busyHoldEnd ln a) s = .next t ∧ SameBut [.lc] s t
        ∧ t.ri = s.ri ∧ f.tx = x ∧ f.attempt = 1 ∧ f.timeoutAt = none
        ∧ change (fun l => { l.setNode a (fun x => { x with busyUntil := none }) with queue := [], inFlight := some f }) t))
    ∧ (cycleDue s ln = false → exec (.supervisionCycleStart ln r) s = .next s)
    ∧ (cycleDue s ln = true → (s.line ln).queue = [] → r = ⟨(s.line ln).pathA.cond, (s.line ln).pathB.cond⟩ →
      ((s.line ln).nodes = [] → ∃ t, exec (.supervisionCycleStart ln r) s = .next t ∧ SameBut [.lc] s t ∧ t.ri = s.ri
        ∧ (t.line ln).cycle.running = false ∧ (t.line ln).cycle.lastStart = some s.elapsed ∧ (t.line ln).inFlight = none
        ∧ (t.line ln).pathA = ⟨r.a, some r.a⟩ ∧ (t.line ln).pathB = ⟨r.b, some r.b⟩ ∧ ∀ k, k ≠ ln → t.line k = s.line k)
      ∧ ((s.line ln).state = .up → (s.line ln).nextPoll 1 = some a → (s.line ln).node? a = some n → n.busyUntil = none →
        ∃ t f, exec (.supervisionCycleStart ln r) s = .next t ∧ SameBut [.lc] s t ∧ t.ri = s.ri ∧ f.tx.kind = .poll ∧ f.tx.dest = .node a
        ∧ f.attempt = 1 ∧ f.path = n.pref ∧ change (fun l => { l with
          inFlight := some f
          cycle := ⟨true, a + 1, some s.elapsed, l.cfg.period⟩
          pathA := ⟨r.a, some r.a⟩
          pathB := ⟨r.b, some r.b⟩ }) t))

/-! ### Contact inputs and relay outputs (chapter 10) -/

/-- R182, R178, R180, R179, R138, R79: a PLAIN output's duration ends its drive. A change of reading begins a hold with the debounce time in force, and the value
it counts as begins one too when that changes, an OPEN and a HIGH IMPEDANCE reading being one value to an input that is not the fire input (log entry 31). A PLAIN
input's counted value that has held for its time becomes its value; and so does a CLOSED fire input's reading, which, with no drill active, no zone held and no line
enabled, then silences every enabled zone with fire active and silence held. -/
def Obligations.WiringEventsTakeEffect : Prop :=
  ∀ (k o t0 : Nat) (r : Reading) (s : State), Counts s →
    let hold : Hold := if k = 11 ∧ s.io.inFunc 11 = .fireAlarm then (s.input k).exact else (s.input k).counted
    (s.running = true → (s.output o).releaseAt = some t0 → t0 ≤ s.elapsed → exec (.plainDriveRelease o) s =
      .next (s.started.setOutput o fun x => { x with driven := false, releaseAt := none }))
    ∧ ((s.output o).releaseAt = none → exec (.plainDriveRelease o) s = .next s)
    ∧ ((s.output o).releaseAt = some t0 → s.elapsed < t0 → exec (.plainDriveRelease o) s = .next s)
    ∧ ((s.input k).reading = r → exec (.inputReadingChange k r) s = .next s)
    ∧ (k < 12 → (s.input k).reading ≠ r → s.io.inFunc k ≠ .reference → exec (.inputReadingChange k r) s =
      .next (s.started.setInput k fun i => { i with
        reading := r
        exact := ⟨s.elapsed, i.debounce⟩
        counted := if i.reading ≠ .closed ∧ r ≠ .closed then i.counted else ⟨s.elapsed, i.debounce⟩ }))
    ∧ (s.running = true → (s.elapsed : Int) < hold.since + hold.time → exec (.debouncedValueChange k) s = .next s.started)
    ∧ (s.running = true → k < 12 → hold.since + hold.time ≤ (s.elapsed : Int) → s.io.inFunc k = .plain →
      ∃ t, exec (.debouncedValueChange k) s = .next t
      ∧ t.input k = { s.input k with value := some (if (s.input k).reading = .closed then .closed else .opened) }
      ∧ (∀ j, j ≠ k → t.input j = s.input j) ∧ t.io.outputs = s.io.outputs ∧ SameBut [.io] s t)
    ∧ (s.running = true → k = 11 → hold.since + hold.time ≤ (s.elapsed : Int) → s.io.inFunc 11 = .fireAlarm →
      (s.input 11).reading = .closed → (s.input 11).value = some .opened → s.dc.active = none → (∀ z, (s.zone z).holder = none) → NoWaiters s →
      (∀ l, l < 8 → (s.line l).cfg.enabled = false) → ∃ t, exec (.debouncedValueChange 11) s = .next t
      ∧ (t.input 11).value = some .closed ∧ t.dc = { s.dc with fireActive := true, fireSince := s.elapsed, silenceHeld := true }
      ∧ t.za.fireReported = true ∧ (∀ z, z < 64 → (s.zoneRec z).enabled = true → t.zoneState z = .silenced)
      ∧ (∀ b, t.za.feeds.getD b none = none) ∧ SameBut [.io, .dc, .za] s t)

/-- R178, R179, R185, R91, R122, R127, R132, R139: what a change of a debounced value, its reading having held, sets off. A BELL PUSH starts its bell
at level 6 unless the input's last one still exists or its pattern or group is empty; a MARSHAL CLEAR clears its building, once, and the last one ends
SOUNDING; a DRILL KEY starts its drill, or writes why not; a PTT input's closing has its live source talking, and its last opening begins the tail;
FIRE ALARM's opening ends the report of fire and leaves silence held; the fire input's HIGH IMPEDANCE is its supervision, not a value. Other openings
set nothing off, nor does a first value but a PTT input's, which an input other than K11 takes while the part settles too (log entry 26); a REFERENCE
input takes no value. Which reason BELL MISSED gives is the model's (log entry 51); so are the index 0 and the reason's code of DRILL NOT STARTED (log
entries 39 and 14), and that an input other than the fire input is timed from its last change of counted value (log entry 31). -/
def Obligations.InputsAreHandedOn : Prop :=
  ∀ (k : Nat) (s : State), k < 12 → Counts s →
    let fireInput : Prop := k = 11 ∧ s.io.inFunc 11 = .fireAlarm
    let hold : Hold := if k = 11 ∧ s.io.inFunc 11 = .fireAlarm then (s.input k).exact else (s.input k).counted
    let settles : Prop := s.supply.main = true ∧ s.supply.settling = true ∧ k ≠ 11
    let i := s.input k
    let turned (v : Contact) (bs : List BlockId) (t : State) : Prop := t.input k = { i with value := some v }
      ∧ (∀ j, j ≠ k → t.input j = s.input j) ∧ SameBut (.io :: bs) s t
    let quiet (v : Contact) (t : State) : Prop := turned v [] t ∧ t.ri = s.ri
    hold.since + hold.time ≤ (s.elapsed : Int) →
    (s.running = true → s.io.inFunc k = .reference → exec (.debouncedValueChange k) s = .next s.started)
    ∧ (settles → i.value ≠ none → exec (.debouncedValueChange k) s = .next s)
    ∧ (s.running = true ∨ settles → i.value = none → s.io.inFunc k ≠ .reference → ¬ fireInput → (∀ n, s.io.inFunc k ≠ .ptt n) →
      ∃ t, exec (.debouncedValueChange k) s = .next t ∧ quiet (if i.reading = .closed then .closed else .opened) t)
    ∧ (s.running = true → ∃ t, exec (.debouncedValueChange k) s = .next t
      ∧ (fireInput → i.reading = .highZ → t.input k = i ∧ t.io.fireOpen = true ∧ SameBut [.io] s t
        ∧ (s.io.fireOpen = false → t.io.trouble.getLsbD 5 = true))
      ∧ (fireInput → i.reading ≠ .highZ → i.value = some (if i.reading = .closed then .closed else .opened) → t.input k = i ∧ t.io.fireOpen = false
        ∧ SameBut [.io] s t ∧ (s.io.fireOpen = true → t.io.trouble.getLsbD 5 = false))
      ∧ (fireInput → i.reading = .opened → i.value = some .closed → turned .opened [.dc, .za] t ∧ t.io.fireOpen = false
        ∧ t.dc = { s.dc with fireActive := false } ∧ t.za = { s.za with fireReported := false })
      ∧ (i.reading ≠ .closed → i.value = some .closed → (∃ g p, s.io.inFunc k = .bellPush g p) ∨ (∃ b, s.io.inFunc k = .marshalClear b)
        ∨ (∃ n, s.io.inFunc k = .drillKey n) → quiet .opened t)
      ∧ (i.reading = .closed → i.value = some .opened →
        (∀ g p, s.io.inFunc k = .bellPush g p →
          (∀ n, s.pu.lastPush.getD k none = some n → quiet .closed t)
          ∧ (s.pu.lastPush.getD k none = none → (s.pattern p).steps = [] ∨ s.group g = 0 → turned .closed [] t
            ∧ t.ri = s.ri.take (stamped t (missedNote (.push k) (if (s.pattern p).steps = [] then .emptyPattern else .emptyGroup))))
          ∧ ∀ z n, s.pu.lastPush.getD k none = none → BellReady g p z n s → turned .closed [.za, .pu] t ∧ BellStarted n z p 6 (.push k) s t
            ∧ t.pu.lastPush = s.pu.lastPush.set k (some n))
        ∧ (∀ b, s.io.inFunc k = .marshalClear b →
          (s.dc.active = none → quiet .closed t)
          ∧ ∀ d, s.dc.active = some d →
            ((∀ e, d.buildings.find? (·.building == b) = some e → e.clear ≠ none) → quiet .closed t)
            ∧ ∀ e, d.buildings.find? (·.building == b) = some e → e.clear = none →
              let cleared := d.buildings.map fun e =>
                if e.building = b then { e with clear := some (s.elapsed - d.start), source := some (.input k) } else e
              let last : Prop := d.phase = .sounding ∧ ∀ x, x ∈ d.buildings → x.building ≠ b → x.clear ≠ none
              (¬ last → turned .closed [.dc] t ∧ t.dc = { s.dc with active := some { d with buildings := cleared } })
              ∧ (last → d.tone = false → d.channel = none → (∀ e, e ∈ d.zones → (s.zoneRec e.zone).sounds = false) →
                turned .closed [.dc, .za] t ∧ t.dc = { s.dc with active := some { d with
                  buildings := cleared, phase := .evacuating, zones := d.zones.map fun e => { e with cad := none } } }))
        ∧ (∀ n, s.io.inFunc k = .drillKey n →
          let r := s.dc.records.getD n DrillRec.undefined
          let refusal : Option Outcome := if r.defined = false then some .badParameter else if s.tb.campus = none then some .notReady
            else if s.dc.fireActive = true ∨ s.dc.silenceHeld = true then some .fireActive else if s.dc.active ≠ none then some .busy else none
          (∀ o, refusal = some o → turned .closed [] t
            ∧ t.ri = s.ri.take (stamped t ⟨.drillNotStarted, .attention, .dc, 0, 0, dv k, dv n, dv o.code⟩))
          ∧ ∀ z, refusal = none → r.tone = false → drillZones s r = [z] → FreeZone z s → NoWaiters s → turned .closed [.za, .dc] t
            ∧ t.zoneState z = .evac ∧ (∀ y, y ≠ z → t.zone y = s.zone y) ∧ ∃ d h, t.dc = { s.dc with active := some d } ∧ d.num = n
              ∧ d.phase = .sounding ∧ d.origin = .key k ∧ d.start = s.elapsed ∧ (t.zone z).holder = some h ∧ h.who = .drill n))
      ∧ ∀ a n, s.io.inFunc k = .ptt n → s.au.anns = [a] → a.source = .live n → a.st ≠ .ending →
        let talks (t : State) (b : Ann) : Prop := t.au = { s.au with anns := [b] } ∧ t.ri = s.ri
        (i.reading = .closed → i.value ≠ some .closed → turned .closed [.au] t
          ∧ (a.talk = some .beforeTalk → talks t { a with talk := some .talking, noTalkAt := none })
          ∧ (a.talk = some .tail → talks t { a with talk := some .talking, tailEnd := none })
          ∧ (a.talk = some .talking → talks t a))
        ∧ ∀ ch, i.reading ≠ .closed → i.value = some .closed → a.talk = some .talking → a.channel = some ch →
          (∀ j, j ≠ k → s.io.inFunc j = .ptt n → (s.input j).value ≠ some .closed) → (s.channel ch).cfg.liveTail ≠ 0 →
          turned .opened [.au] t ∧ talks t { a with talk := some .tail, tailEnd := some (s.elapsed + (s.channel ch).cfg.liveTail) })
end

