-- ==== Sys2Proof/Laws/Close.lean ====
section
/-! SUPPORT. How an event closes: its turns are taken until no answer and no call is left. -/

namespace Sys2Proof.Machine
open Sys2Proof

/-- However many turns are allowed from `k` on, the event leaves `t`. -/
def Closes (k : Nat) (c : Ctx) (t : State) : Prop := ∀ m, k ≤ m → (turns m c).st = t

theorem turns_of_none {c : Ctx} (h : turn c = none) (n : Nat) : turns n c = c := by
  cases n with
  | zero => rfl
  | succ n => simp only [turns, h]

theorem closes_done {c : Ctx} (ha : c.ans = []) (ht : c.todo = []) : Closes 0 c c.st := by
  intro m _
  rw [turns_of_none (by simp [turn, ha, ht])]

theorem closes_turn {c d : Ctx} {k : Nat} {t : State} (h : turn c = some d) (hd : Closes k d t) : Closes (k + 1) c t := by
  intro m hm
  cases m with
  | zero => omega
  | succ m =>
    simp only [turns, h]
    exact hd m (by omega)

/-- An answer is taken before the calls. -/
theorem closes_ans {c : Ctx} {a : Ans} {rest : List Ans} {k : Nat} {t : State} (ha : c.ans = a :: rest)
    (hd : Closes k { handleAns a { c with ans := rest, todo := [] } with
      todo := (handleAns a { c with ans := rest, todo := [] }).todo ++ c.todo } t) : Closes (k + 1) c t :=
  closes_turn (by simp [turn, ha]) hd

/-- With no answer left the first call is taken; its own calls go before those behind it. -/
theorem closes_call {c : Ctx} {w : Work} {rest : List Work} {k : Nat} {t : State} (ha : c.ans = []) (ht : c.todo = w :: rest)
    (hd : Closes k { doWork w { c with todo := [] } with todo := (doWork w { c with todo := [] }).todo ++ rest } t) :
    Closes (k + 1) c t :=
  closes_turn (by simp [turn, ha, ht]) hd

theorem close_of_closes {c : Ctx} {k : Nat} {t : State} (h : Closes k c t) (hk : k ≤ 1000000) : c.close = t := h _ hk

/-- An event that leaves no answer and no call is over. -/
theorem close_done {c : Ctx} (ha : c.ans = []) (ht : c.todo = []) : c.close = c.st :=
  close_of_closes (closes_done ha ht) (by decide)

end Sys2Proof.Machine
end

