-- ==== Sys2Proof/Laws/Dates.lean ====
section
/-! SUPPORT. The reckoning of years (R4). -/

namespace Sys2Proof.Machine
open Sys2Proof

/-- R4: the year of a day number is the one whose January 1 is at or before the day, and whose successor's is after it. -/
theorem yearOf_spec (d : Nat) : jan1 (yearOf d) ≤ d ∧ d < jan1 (yearOf d + 1) := by
  simp only [jan1, yearOf]
  split <;> constructor <;> omega

/-- A time and its millisecond count say the same, for a millisecond of day below a day's. -/
theorem ofLin_lin (t : CampusTime) (h : t.ms < dayMs) : ofLin t.lin = t := by
  obtain ⟨d, m⟩ := t
  unfold dayMs at h
  dsimp only at h
  simp only [ofLin, CampusTime.lin, dayMs]
  simp only [CampusTime.mk.injEq]
  constructor <;> omega

end Sys2Proof.Machine
end

