-- ==== Sys2Proof/Laws/State.lean ====
section
/-! SUPPORT. One lemma per field per update of State and of an event's context, each true by unfolding once. -/

namespace Sys2Proof.Machine
open Sys2Proof

/-! ### setZone changes the block `za` alone -/

@[simp] theorem State.setZone_elapsed (s : State) (z : Nat) (f : ZoneDyn → ZoneDyn) : (s.setZone z f).elapsed = s.elapsed := rfl
@[simp] theorem State.setZone_supply (s : State) (z : Nat) (f : ZoneDyn → ZoneDyn) : (s.setZone z f).supply = s.supply := rfl
@[simp] theorem State.setZone_tb (s : State) (z : Nat) (f : ZoneDyn → ZoneDyn) : (s.setZone z f).tb = s.tb := rfl
@[simp] theorem State.setZone_dp (s : State) (z : Nat) (f : ZoneDyn → ZoneDyn) : (s.setZone z f).dp = s.dp := rfl
@[simp] theorem State.setZone_se (s : State) (z : Nat) (f : ZoneDyn → ZoneDyn) : (s.setZone z f).se = s.se := rfl
@[simp] theorem State.setZone_pu (s : State) (z : Nat) (f : ZoneDyn → ZoneDyn) : (s.setZone z f).pu = s.pu := rfl
@[simp] theorem State.setZone_au (s : State) (z : Nat) (f : ZoneDyn → ZoneDyn) : (s.setZone z f).au = s.au := rfl
@[simp] theorem State.setZone_dc (s : State) (z : Nat) (f : ZoneDyn → ZoneDyn) : (s.setZone z f).dc = s.dc := rfl
@[simp] theorem State.setZone_cu (s : State) (z : Nat) (f : ZoneDyn → ZoneDyn) : (s.setZone z f).cu = s.cu := rfl
@[simp] theorem State.setZone_lc (s : State) (z : Nat) (f : ZoneDyn → ZoneDyn) : (s.setZone z f).lc = s.lc := rfl
@[simp] theorem State.setZone_io (s : State) (z : Nat) (f : ZoneDyn → ZoneDyn) : (s.setZone z f).io = s.io := rfl
@[simp] theorem State.setZone_ri (s : State) (z : Nat) (f : ZoneDyn → ZoneDyn) : (s.setZone z f).ri = s.ri := rfl
@[simp] theorem State.setZone_eventNo (s : State) (z : Nat) (f : ZoneDyn → ZoneDyn) : (s.setZone z f).eventNo = s.eventNo := rfl
@[simp] theorem State.setZone_pending (s : State) (z : Nat) (f : ZoneDyn → ZoneDyn) : (s.setZone z f).pending = s.pending := rfl

/-! ### setFeed changes the block `za` alone -/

@[simp] theorem State.setFeed_elapsed (s : State) (b : Nat) (h : Option FeedHolder) : (s.setFeed b h).elapsed = s.elapsed := rfl
@[simp] theorem State.setFeed_supply (s : State) (b : Nat) (h : Option FeedHolder) : (s.setFeed b h).supply = s.supply := rfl
@[simp] theorem State.setFeed_tb (s : State) (b : Nat) (h : Option FeedHolder) : (s.setFeed b h).tb = s.tb := rfl
@[simp] theorem State.setFeed_dp (s : State) (b : Nat) (h : Option FeedHolder) : (s.setFeed b h).dp = s.dp := rfl
@[simp] theorem State.setFeed_se (s : State) (b : Nat) (h : Option FeedHolder) : (s.setFeed b h).se = s.se := rfl
@[simp] theorem State.setFeed_pu (s : State) (b : Nat) (h : Option FeedHolder) : (s.setFeed b h).pu = s.pu := rfl
@[simp] theorem State.setFeed_au (s : State) (b : Nat) (h : Option FeedHolder) : (s.setFeed b h).au = s.au := rfl
@[simp] theorem State.setFeed_dc (s : State) (b : Nat) (h : Option FeedHolder) : (s.setFeed b h).dc = s.dc := rfl
@[simp] theorem State.setFeed_cu (s : State) (b : Nat) (h : Option FeedHolder) : (s.setFeed b h).cu = s.cu := rfl
@[simp] theorem State.setFeed_lc (s : State) (b : Nat) (h : Option FeedHolder) : (s.setFeed b h).lc = s.lc := rfl
@[simp] theorem State.setFeed_io (s : State) (b : Nat) (h : Option FeedHolder) : (s.setFeed b h).io = s.io := rfl
@[simp] theorem State.setFeed_ri (s : State) (b : Nat) (h : Option FeedHolder) : (s.setFeed b h).ri = s.ri := rfl
@[simp] theorem State.setFeed_eventNo (s : State) (b : Nat) (h : Option FeedHolder) : (s.setFeed b h).eventNo = s.eventNo := rfl
@[simp] theorem State.setFeed_pending (s : State) (b : Nat) (h : Option FeedHolder) : (s.setFeed b h).pending = s.pending := rfl

/-! ### setBell changes the block `pu` alone -/

@[simp] theorem State.setBell_elapsed (s : State) (n : Nat) (f : Bell → Bell) : (s.setBell n f).elapsed = s.elapsed := rfl
@[simp] theorem State.setBell_supply (s : State) (n : Nat) (f : Bell → Bell) : (s.setBell n f).supply = s.supply := rfl
@[simp] theorem State.setBell_tb (s : State) (n : Nat) (f : Bell → Bell) : (s.setBell n f).tb = s.tb := rfl
@[simp] theorem State.setBell_dp (s : State) (n : Nat) (f : Bell → Bell) : (s.setBell n f).dp = s.dp := rfl
@[simp] theorem State.setBell_se (s : State) (n : Nat) (f : Bell → Bell) : (s.setBell n f).se = s.se := rfl
@[simp] theorem State.setBell_za (s : State) (n : Nat) (f : Bell → Bell) : (s.setBell n f).za = s.za := rfl
@[simp] theorem State.setBell_au (s : State) (n : Nat) (f : Bell → Bell) : (s.setBell n f).au = s.au := rfl
@[simp] theorem State.setBell_dc (s : State) (n : Nat) (f : Bell → Bell) : (s.setBell n f).dc = s.dc := rfl
@[simp] theorem State.setBell_cu (s : State) (n : Nat) (f : Bell → Bell) : (s.setBell n f).cu = s.cu := rfl
@[simp] theorem State.setBell_lc (s : State) (n : Nat) (f : Bell → Bell) : (s.setBell n f).lc = s.lc := rfl
@[simp] theorem State.setBell_io (s : State) (n : Nat) (f : Bell → Bell) : (s.setBell n f).io = s.io := rfl
@[simp] theorem State.setBell_ri (s : State) (n : Nat) (f : Bell → Bell) : (s.setBell n f).ri = s.ri := rfl
@[simp] theorem State.setBell_eventNo (s : State) (n : Nat) (f : Bell → Bell) : (s.setBell n f).eventNo = s.eventNo := rfl
@[simp] theorem State.setBell_pending (s : State) (n : Nat) (f : Bell → Bell) : (s.setBell n f).pending = s.pending := rfl

/-! ### setAnn changes the block `au` alone -/

@[simp] theorem State.setAnn_elapsed (s : State) (n : Nat) (f : Ann → Ann) : (s.setAnn n f).elapsed = s.elapsed := rfl
@[simp] theorem State.setAnn_supply (s : State) (n : Nat) (f : Ann → Ann) : (s.setAnn n f).supply = s.supply := rfl
@[simp] theorem State.setAnn_tb (s : State) (n : Nat) (f : Ann → Ann) : (s.setAnn n f).tb = s.tb := rfl
@[simp] theorem State.setAnn_dp (s : State) (n : Nat) (f : Ann → Ann) : (s.setAnn n f).dp = s.dp := rfl
@[simp] theorem State.setAnn_se (s : State) (n : Nat) (f : Ann → Ann) : (s.setAnn n f).se = s.se := rfl
@[simp] theorem State.setAnn_za (s : State) (n : Nat) (f : Ann → Ann) : (s.setAnn n f).za = s.za := rfl
@[simp] theorem State.setAnn_pu (s : State) (n : Nat) (f : Ann → Ann) : (s.setAnn n f).pu = s.pu := rfl
@[simp] theorem State.setAnn_dc (s : State) (n : Nat) (f : Ann → Ann) : (s.setAnn n f).dc = s.dc := rfl
@[simp] theorem State.setAnn_cu (s : State) (n : Nat) (f : Ann → Ann) : (s.setAnn n f).cu = s.cu := rfl
@[simp] theorem State.setAnn_lc (s : State) (n : Nat) (f : Ann → Ann) : (s.setAnn n f).lc = s.lc := rfl
@[simp] theorem State.setAnn_io (s : State) (n : Nat) (f : Ann → Ann) : (s.setAnn n f).io = s.io := rfl
@[simp] theorem State.setAnn_ri (s : State) (n : Nat) (f : Ann → Ann) : (s.setAnn n f).ri = s.ri := rfl
@[simp] theorem State.setAnn_eventNo (s : State) (n : Nat) (f : Ann → Ann) : (s.setAnn n f).eventNo = s.eventNo := rfl
@[simp] theorem State.setAnn_pending (s : State) (n : Nat) (f : Ann → Ann) : (s.setAnn n f).pending = s.pending := rfl

/-! ### setChannel changes the block `au` alone -/

@[simp] theorem State.setChannel_elapsed (s : State) (c : Nat) (f : Channel → Channel) : (s.setChannel c f).elapsed = s.elapsed := rfl
@[simp] theorem State.setChannel_supply (s : State) (c : Nat) (f : Channel → Channel) : (s.setChannel c f).supply = s.supply := rfl
@[simp] theorem State.setChannel_tb (s : State) (c : Nat) (f : Channel → Channel) : (s.setChannel c f).tb = s.tb := rfl
@[simp] theorem State.setChannel_dp (s : State) (c : Nat) (f : Channel → Channel) : (s.setChannel c f).dp = s.dp := rfl
@[simp] theorem State.setChannel_se (s : State) (c : Nat) (f : Channel → Channel) : (s.setChannel c f).se = s.se := rfl
@[simp] theorem State.setChannel_za (s : State) (c : Nat) (f : Channel → Channel) : (s.setChannel c f).za = s.za := rfl
@[simp] theorem State.setChannel_pu (s : State) (c : Nat) (f : Channel → Channel) : (s.setChannel c f).pu = s.pu := rfl
@[simp] theorem State.setChannel_dc (s : State) (c : Nat) (f : Channel → Channel) : (s.setChannel c f).dc = s.dc := rfl
@[simp] theorem State.setChannel_cu (s : State) (c : Nat) (f : Channel → Channel) : (s.setChannel c f).cu = s.cu := rfl
@[simp] theorem State.setChannel_lc (s : State) (c : Nat) (f : Channel → Channel) : (s.setChannel c f).lc = s.lc := rfl
@[simp] theorem State.setChannel_io (s : State) (c : Nat) (f : Channel → Channel) : (s.setChannel c f).io = s.io := rfl
@[simp] theorem State.setChannel_ri (s : State) (c : Nat) (f : Channel → Channel) : (s.setChannel c f).ri = s.ri := rfl
@[simp] theorem State.setChannel_eventNo (s : State) (c : Nat) (f : Channel → Channel) : (s.setChannel c f).eventNo = s.eventNo := rfl
@[simp] theorem State.setChannel_pending (s : State) (c : Nat) (f : Channel → Channel) : (s.setChannel c f).pending = s.pending := rfl

/-! ### setCircuit changes the block `cu` alone -/

@[simp] theorem State.setCircuit_elapsed (s : State) (c : Nat) (f : Circuit → Circuit) : (s.setCircuit c f).elapsed = s.elapsed := rfl
@[simp] theorem State.setCircuit_supply (s : State) (c : Nat) (f : Circuit → Circuit) : (s.setCircuit c f).supply = s.supply := rfl
@[simp] theorem State.setCircuit_tb (s : State) (c : Nat) (f : Circuit → Circuit) : (s.setCircuit c f).tb = s.tb := rfl
@[simp] theorem State.setCircuit_dp (s : State) (c : Nat) (f : Circuit → Circuit) : (s.setCircuit c f).dp = s.dp := rfl
@[simp] theorem State.setCircuit_se (s : State) (c : Nat) (f : Circuit → Circuit) : (s.setCircuit c f).se = s.se := rfl
@[simp] theorem State.setCircuit_za (s : State) (c : Nat) (f : Circuit → Circuit) : (s.setCircuit c f).za = s.za := rfl
@[simp] theorem State.setCircuit_pu (s : State) (c : Nat) (f : Circuit → Circuit) : (s.setCircuit c f).pu = s.pu := rfl
@[simp] theorem State.setCircuit_au (s : State) (c : Nat) (f : Circuit → Circuit) : (s.setCircuit c f).au = s.au := rfl
@[simp] theorem State.setCircuit_dc (s : State) (c : Nat) (f : Circuit → Circuit) : (s.setCircuit c f).dc = s.dc := rfl
@[simp] theorem State.setCircuit_lc (s : State) (c : Nat) (f : Circuit → Circuit) : (s.setCircuit c f).lc = s.lc := rfl
@[simp] theorem State.setCircuit_io (s : State) (c : Nat) (f : Circuit → Circuit) : (s.setCircuit c f).io = s.io := rfl
@[simp] theorem State.setCircuit_ri (s : State) (c : Nat) (f : Circuit → Circuit) : (s.setCircuit c f).ri = s.ri := rfl
@[simp] theorem State.setCircuit_eventNo (s : State) (c : Nat) (f : Circuit → Circuit) : (s.setCircuit c f).eventNo = s.eventNo := rfl
@[simp] theorem State.setCircuit_pending (s : State) (c : Nat) (f : Circuit → Circuit) : (s.setCircuit c f).pending = s.pending := rfl

/-! ### setLine changes the block `lc` alone -/

@[simp] theorem State.setLine_elapsed (s : State) (l : Nat) (f : Line → Line) : (s.setLine l f).elapsed = s.elapsed := rfl
@[simp] theorem State.setLine_supply (s : State) (l : Nat) (f : Line → Line) : (s.setLine l f).supply = s.supply := rfl
@[simp] theorem State.setLine_tb (s : State) (l : Nat) (f : Line → Line) : (s.setLine l f).tb = s.tb := rfl
@[simp] theorem State.setLine_dp (s : State) (l : Nat) (f : Line → Line) : (s.setLine l f).dp = s.dp := rfl
@[simp] theorem State.setLine_se (s : State) (l : Nat) (f : Line → Line) : (s.setLine l f).se = s.se := rfl
@[simp] theorem State.setLine_za (s : State) (l : Nat) (f : Line → Line) : (s.setLine l f).za = s.za := rfl
@[simp] theorem State.setLine_pu (s : State) (l : Nat) (f : Line → Line) : (s.setLine l f).pu = s.pu := rfl
@[simp] theorem State.setLine_au (s : State) (l : Nat) (f : Line → Line) : (s.setLine l f).au = s.au := rfl
@[simp] theorem State.setLine_dc (s : State) (l : Nat) (f : Line → Line) : (s.setLine l f).dc = s.dc := rfl
@[simp] theorem State.setLine_cu (s : State) (l : Nat) (f : Line → Line) : (s.setLine l f).cu = s.cu := rfl
@[simp] theorem State.setLine_io (s : State) (l : Nat) (f : Line → Line) : (s.setLine l f).io = s.io := rfl
@[simp] theorem State.setLine_ri (s : State) (l : Nat) (f : Line → Line) : (s.setLine l f).ri = s.ri := rfl
@[simp] theorem State.setLine_eventNo (s : State) (l : Nat) (f : Line → Line) : (s.setLine l f).eventNo = s.eventNo := rfl
@[simp] theorem State.setLine_pending (s : State) (l : Nat) (f : Line → Line) : (s.setLine l f).pending = s.pending := rfl

/-! ### setNode changes the block `lc` alone -/

@[simp] theorem State.setNode_elapsed (s : State) (l a : Nat) (f : Node → Node) : (s.setNode l a f).elapsed = s.elapsed := rfl
@[simp] theorem State.setNode_supply (s : State) (l a : Nat) (f : Node → Node) : (s.setNode l a f).supply = s.supply := rfl
@[simp] theorem State.setNode_tb (s : State) (l a : Nat) (f : Node → Node) : (s.setNode l a f).tb = s.tb := rfl
@[simp] theorem State.setNode_dp (s : State) (l a : Nat) (f : Node → Node) : (s.setNode l a f).dp = s.dp := rfl
@[simp] theorem State.setNode_se (s : State) (l a : Nat) (f : Node → Node) : (s.setNode l a f).se = s.se := rfl
@[simp] theorem State.setNode_za (s : State) (l a : Nat) (f : Node → Node) : (s.setNode l a f).za = s.za := rfl
@[simp] theorem State.setNode_pu (s : State) (l a : Nat) (f : Node → Node) : (s.setNode l a f).pu = s.pu := rfl
@[simp] theorem State.setNode_au (s : State) (l a : Nat) (f : Node → Node) : (s.setNode l a f).au = s.au := rfl
@[simp] theorem State.setNode_dc (s : State) (l a : Nat) (f : Node → Node) : (s.setNode l a f).dc = s.dc := rfl
@[simp] theorem State.setNode_cu (s : State) (l a : Nat) (f : Node → Node) : (s.setNode l a f).cu = s.cu := rfl
@[simp] theorem State.setNode_io (s : State) (l a : Nat) (f : Node → Node) : (s.setNode l a f).io = s.io := rfl
@[simp] theorem State.setNode_ri (s : State) (l a : Nat) (f : Node → Node) : (s.setNode l a f).ri = s.ri := rfl
@[simp] theorem State.setNode_eventNo (s : State) (l a : Nat) (f : Node → Node) : (s.setNode l a f).eventNo = s.eventNo := rfl
@[simp] theorem State.setNode_pending (s : State) (l a : Nat) (f : Node → Node) : (s.setNode l a f).pending = s.pending := rfl

/-! ### setInput changes the block `io` alone -/

@[simp] theorem State.setInput_elapsed (s : State) (k : Nat) (f : Input → Input) : (s.setInput k f).elapsed = s.elapsed := rfl
@[simp] theorem State.setInput_supply (s : State) (k : Nat) (f : Input → Input) : (s.setInput k f).supply = s.supply := rfl
@[simp] theorem State.setInput_tb (s : State) (k : Nat) (f : Input → Input) : (s.setInput k f).tb = s.tb := rfl
@[simp] theorem State.setInput_dp (s : State) (k : Nat) (f : Input → Input) : (s.setInput k f).dp = s.dp := rfl
@[simp] theorem State.setInput_se (s : State) (k : Nat) (f : Input → Input) : (s.setInput k f).se = s.se := rfl
@[simp] theorem State.setInput_za (s : State) (k : Nat) (f : Input → Input) : (s.setInput k f).za = s.za := rfl
@[simp] theorem State.setInput_pu (s : State) (k : Nat) (f : Input → Input) : (s.setInput k f).pu = s.pu := rfl
@[simp] theorem State.setInput_au (s : State) (k : Nat) (f : Input → Input) : (s.setInput k f).au = s.au := rfl
@[simp] theorem State.setInput_dc (s : State) (k : Nat) (f : Input → Input) : (s.setInput k f).dc = s.dc := rfl
@[simp] theorem State.setInput_cu (s : State) (k : Nat) (f : Input → Input) : (s.setInput k f).cu = s.cu := rfl
@[simp] theorem State.setInput_lc (s : State) (k : Nat) (f : Input → Input) : (s.setInput k f).lc = s.lc := rfl
@[simp] theorem State.setInput_ri (s : State) (k : Nat) (f : Input → Input) : (s.setInput k f).ri = s.ri := rfl
@[simp] theorem State.setInput_eventNo (s : State) (k : Nat) (f : Input → Input) : (s.setInput k f).eventNo = s.eventNo := rfl
@[simp] theorem State.setInput_pending (s : State) (k : Nat) (f : Input → Input) : (s.setInput k f).pending = s.pending := rfl

/-! ### setOutput changes the block `io` alone -/

@[simp] theorem State.setOutput_elapsed (s : State) (q : Nat) (f : Output → Output) : (s.setOutput q f).elapsed = s.elapsed := rfl
@[simp] theorem State.setOutput_supply (s : State) (q : Nat) (f : Output → Output) : (s.setOutput q f).supply = s.supply := rfl
@[simp] theorem State.setOutput_tb (s : State) (q : Nat) (f : Output → Output) : (s.setOutput q f).tb = s.tb := rfl
@[simp] theorem State.setOutput_dp (s : State) (q : Nat) (f : Output → Output) : (s.setOutput q f).dp = s.dp := rfl
@[simp] theorem State.setOutput_se (s : State) (q : Nat) (f : Output → Output) : (s.setOutput q f).se = s.se := rfl
@[simp] theorem State.setOutput_za (s : State) (q : Nat) (f : Output → Output) : (s.setOutput q f).za = s.za := rfl
@[simp] theorem State.setOutput_pu (s : State) (q : Nat) (f : Output → Output) : (s.setOutput q f).pu = s.pu := rfl
@[simp] theorem State.setOutput_au (s : State) (q : Nat) (f : Output → Output) : (s.setOutput q f).au = s.au := rfl
@[simp] theorem State.setOutput_dc (s : State) (q : Nat) (f : Output → Output) : (s.setOutput q f).dc = s.dc := rfl
@[simp] theorem State.setOutput_cu (s : State) (q : Nat) (f : Output → Output) : (s.setOutput q f).cu = s.cu := rfl
@[simp] theorem State.setOutput_lc (s : State) (q : Nat) (f : Output → Output) : (s.setOutput q f).lc = s.lc := rfl
@[simp] theorem State.setOutput_ri (s : State) (q : Nat) (f : Output → Output) : (s.setOutput q f).ri = s.ri := rfl
@[simp] theorem State.setOutput_eventNo (s : State) (q : Nat) (f : Output → Output) : (s.setOutput q f).eventNo = s.eventNo := rfl
@[simp] theorem State.setOutput_pending (s : State) (q : Nat) (f : Output → Output) : (s.setOutput q f).pending = s.pending := rfl

/-! ### setDrill changes the block `dc` alone -/

@[simp] theorem State.setDrill_elapsed (s : State) (f : ActiveDrill → ActiveDrill) : (s.setDrill f).elapsed = s.elapsed := rfl
@[simp] theorem State.setDrill_supply (s : State) (f : ActiveDrill → ActiveDrill) : (s.setDrill f).supply = s.supply := rfl
@[simp] theorem State.setDrill_tb (s : State) (f : ActiveDrill → ActiveDrill) : (s.setDrill f).tb = s.tb := rfl
@[simp] theorem State.setDrill_dp (s : State) (f : ActiveDrill → ActiveDrill) : (s.setDrill f).dp = s.dp := rfl
@[simp] theorem State.setDrill_se (s : State) (f : ActiveDrill → ActiveDrill) : (s.setDrill f).se = s.se := rfl
@[simp] theorem State.setDrill_za (s : State) (f : ActiveDrill → ActiveDrill) : (s.setDrill f).za = s.za := rfl
@[simp] theorem State.setDrill_pu (s : State) (f : ActiveDrill → ActiveDrill) : (s.setDrill f).pu = s.pu := rfl
@[simp] theorem State.setDrill_au (s : State) (f : ActiveDrill → ActiveDrill) : (s.setDrill f).au = s.au := rfl
@[simp] theorem State.setDrill_cu (s : State) (f : ActiveDrill → ActiveDrill) : (s.setDrill f).cu = s.cu := rfl
@[simp] theorem State.setDrill_lc (s : State) (f : ActiveDrill → ActiveDrill) : (s.setDrill f).lc = s.lc := rfl
@[simp] theorem State.setDrill_io (s : State) (f : ActiveDrill → ActiveDrill) : (s.setDrill f).io = s.io := rfl
@[simp] theorem State.setDrill_ri (s : State) (f : ActiveDrill → ActiveDrill) : (s.setDrill f).ri = s.ri := rfl
@[simp] theorem State.setDrill_eventNo (s : State) (f : ActiveDrill → ActiveDrill) : (s.setDrill f).eventNo = s.eventNo := rfl
@[simp] theorem State.setDrill_pending (s : State) (f : ActiveDrill → ActiveDrill) : (s.setDrill f).pending = s.pending := rfl

/-! ### setRi changes the block `ri` alone -/

@[simp] theorem State.setRi_elapsed (s : State) (f : RegionIf → RegionIf) : (s.setRi f).elapsed = s.elapsed := rfl
@[simp] theorem State.setRi_supply (s : State) (f : RegionIf → RegionIf) : (s.setRi f).supply = s.supply := rfl
@[simp] theorem State.setRi_tb (s : State) (f : RegionIf → RegionIf) : (s.setRi f).tb = s.tb := rfl
@[simp] theorem State.setRi_dp (s : State) (f : RegionIf → RegionIf) : (s.setRi f).dp = s.dp := rfl
@[simp] theorem State.setRi_se (s : State) (f : RegionIf → RegionIf) : (s.setRi f).se = s.se := rfl
@[simp] theorem State.setRi_za (s : State) (f : RegionIf → RegionIf) : (s.setRi f).za = s.za := rfl
@[simp] theorem State.setRi_pu (s : State) (f : RegionIf → RegionIf) : (s.setRi f).pu = s.pu := rfl
@[simp] theorem State.setRi_au (s : State) (f : RegionIf → RegionIf) : (s.setRi f).au = s.au := rfl
@[simp] theorem State.setRi_dc (s : State) (f : RegionIf → RegionIf) : (s.setRi f).dc = s.dc := rfl
@[simp] theorem State.setRi_cu (s : State) (f : RegionIf → RegionIf) : (s.setRi f).cu = s.cu := rfl
@[simp] theorem State.setRi_lc (s : State) (f : RegionIf → RegionIf) : (s.setRi f).lc = s.lc := rfl
@[simp] theorem State.setRi_io (s : State) (f : RegionIf → RegionIf) : (s.setRi f).io = s.io := rfl
@[simp] theorem State.setRi_eventNo (s : State) (f : RegionIf → RegionIf) : (s.setRi f).eventNo = s.eventNo := rfl
@[simp] theorem State.setRi_pending (s : State) (f : RegionIf → RegionIf) : (s.setRi f).pending = s.pending := rfl

/-! ### setTb changes the block `tb` alone -/

@[simp] theorem State.setTb_elapsed (s : State) (f : TimeBase → TimeBase) : (s.setTb f).elapsed = s.elapsed := rfl
@[simp] theorem State.setTb_supply (s : State) (f : TimeBase → TimeBase) : (s.setTb f).supply = s.supply := rfl
@[simp] theorem State.setTb_dp (s : State) (f : TimeBase → TimeBase) : (s.setTb f).dp = s.dp := rfl
@[simp] theorem State.setTb_se (s : State) (f : TimeBase → TimeBase) : (s.setTb f).se = s.se := rfl
@[simp] theorem State.setTb_za (s : State) (f : TimeBase → TimeBase) : (s.setTb f).za = s.za := rfl
@[simp] theorem State.setTb_pu (s : State) (f : TimeBase → TimeBase) : (s.setTb f).pu = s.pu := rfl
@[simp] theorem State.setTb_au (s : State) (f : TimeBase → TimeBase) : (s.setTb f).au = s.au := rfl
@[simp] theorem State.setTb_dc (s : State) (f : TimeBase → TimeBase) : (s.setTb f).dc = s.dc := rfl
@[simp] theorem State.setTb_cu (s : State) (f : TimeBase → TimeBase) : (s.setTb f).cu = s.cu := rfl
@[simp] theorem State.setTb_lc (s : State) (f : TimeBase → TimeBase) : (s.setTb f).lc = s.lc := rfl
@[simp] theorem State.setTb_io (s : State) (f : TimeBase → TimeBase) : (s.setTb f).io = s.io := rfl
@[simp] theorem State.setTb_ri (s : State) (f : TimeBase → TimeBase) : (s.setTb f).ri = s.ri := rfl
@[simp] theorem State.setTb_eventNo (s : State) (f : TimeBase → TimeBase) : (s.setTb f).eventNo = s.eventNo := rfl
@[simp] theorem State.setTb_pending (s : State) (f : TimeBase → TimeBase) : (s.setTb f).pending = s.pending := rfl

/-! ### record changes the block `ri` alone -/

@[simp] theorem State.record_elapsed (s : State) (n : Note) : (s.record n).elapsed = s.elapsed := rfl
@[simp] theorem State.record_supply (s : State) (n : Note) : (s.record n).supply = s.supply := rfl
@[simp] theorem State.record_tb (s : State) (n : Note) : (s.record n).tb = s.tb := rfl
@[simp] theorem State.record_dp (s : State) (n : Note) : (s.record n).dp = s.dp := rfl
@[simp] theorem State.record_se (s : State) (n : Note) : (s.record n).se = s.se := rfl
@[simp] theorem State.record_za (s : State) (n : Note) : (s.record n).za = s.za := rfl
@[simp] theorem State.record_pu (s : State) (n : Note) : (s.record n).pu = s.pu := rfl
@[simp] theorem State.record_au (s : State) (n : Note) : (s.record n).au = s.au := rfl
@[simp] theorem State.record_dc (s : State) (n : Note) : (s.record n).dc = s.dc := rfl
@[simp] theorem State.record_cu (s : State) (n : Note) : (s.record n).cu = s.cu := rfl
@[simp] theorem State.record_lc (s : State) (n : Note) : (s.record n).lc = s.lc := rfl
@[simp] theorem State.record_io (s : State) (n : Note) : (s.record n).io = s.io := rfl
@[simp] theorem State.record_eventNo (s : State) (n : Note) : (s.record n).eventNo = s.eventNo := rfl
@[simp] theorem State.record_pending (s : State) (n : Note) : (s.record n).pending = s.pending := rfl

/-! ### ask changes the block `ri` alone -/

@[simp] theorem State.ask_elapsed (s : State) (a : Access) : (s.ask a).elapsed = s.elapsed := rfl
@[simp] theorem State.ask_supply (s : State) (a : Access) : (s.ask a).supply = s.supply := rfl
@[simp] theorem State.ask_tb (s : State) (a : Access) : (s.ask a).tb = s.tb := rfl
@[simp] theorem State.ask_dp (s : State) (a : Access) : (s.ask a).dp = s.dp := rfl
@[simp] theorem State.ask_se (s : State) (a : Access) : (s.ask a).se = s.se := rfl
@[simp] theorem State.ask_za (s : State) (a : Access) : (s.ask a).za = s.za := rfl
@[simp] theorem State.ask_pu (s : State) (a : Access) : (s.ask a).pu = s.pu := rfl
@[simp] theorem State.ask_au (s : State) (a : Access) : (s.ask a).au = s.au := rfl
@[simp] theorem State.ask_dc (s : State) (a : Access) : (s.ask a).dc = s.dc := rfl
@[simp] theorem State.ask_cu (s : State) (a : Access) : (s.ask a).cu = s.cu := rfl
@[simp] theorem State.ask_lc (s : State) (a : Access) : (s.ask a).lc = s.lc := rfl
@[simp] theorem State.ask_io (s : State) (a : Access) : (s.ask a).io = s.io := rfl
@[simp] theorem State.ask_eventNo (s : State) (a : Access) : (s.ask a).eventNo = s.eventNo := rfl
@[simp] theorem State.ask_pending (s : State) (a : Access) : (s.ask a).pending = s.pending := rfl

/-! ### completed changes the block `ri` alone -/

@[simp] theorem State.completed_elapsed (s : State) : (s.completed).elapsed = s.elapsed := rfl
@[simp] theorem State.completed_supply (s : State) : (s.completed).supply = s.supply := rfl
@[simp] theorem State.completed_tb (s : State) : (s.completed).tb = s.tb := rfl
@[simp] theorem State.completed_dp (s : State) : (s.completed).dp = s.dp := rfl
@[simp] theorem State.completed_se (s : State) : (s.completed).se = s.se := rfl
@[simp] theorem State.completed_za (s : State) : (s.completed).za = s.za := rfl
@[simp] theorem State.completed_pu (s : State) : (s.completed).pu = s.pu := rfl
@[simp] theorem State.completed_au (s : State) : (s.completed).au = s.au := rfl
@[simp] theorem State.completed_dc (s : State) : (s.completed).dc = s.dc := rfl
@[simp] theorem State.completed_cu (s : State) : (s.completed).cu = s.cu := rfl
@[simp] theorem State.completed_lc (s : State) : (s.completed).lc = s.lc := rfl
@[simp] theorem State.completed_io (s : State) : (s.completed).io = s.io := rfl
@[simp] theorem State.completed_eventNo (s : State) : (s.completed).eventNo = s.eventNo := rfl
@[simp] theorem State.completed_pending (s : State) : (s.completed).pending = s.pending := rfl

/-! ### takeSlot changes the block `ri` alone -/

@[simp] theorem State.takeSlot_elapsed (s : State) (q : ReqHdr) : (s.takeSlot q).elapsed = s.elapsed := rfl
@[simp] theorem State.takeSlot_supply (s : State) (q : ReqHdr) : (s.takeSlot q).supply = s.supply := rfl
@[simp] theorem State.takeSlot_tb (s : State) (q : ReqHdr) : (s.takeSlot q).tb = s.tb := rfl
@[simp] theorem State.takeSlot_dp (s : State) (q : ReqHdr) : (s.takeSlot q).dp = s.dp := rfl
@[simp] theorem State.takeSlot_se (s : State) (q : ReqHdr) : (s.takeSlot q).se = s.se := rfl
@[simp] theorem State.takeSlot_za (s : State) (q : ReqHdr) : (s.takeSlot q).za = s.za := rfl
@[simp] theorem State.takeSlot_pu (s : State) (q : ReqHdr) : (s.takeSlot q).pu = s.pu := rfl
@[simp] theorem State.takeSlot_au (s : State) (q : ReqHdr) : (s.takeSlot q).au = s.au := rfl
@[simp] theorem State.takeSlot_dc (s : State) (q : ReqHdr) : (s.takeSlot q).dc = s.dc := rfl
@[simp] theorem State.takeSlot_cu (s : State) (q : ReqHdr) : (s.takeSlot q).cu = s.cu := rfl
@[simp] theorem State.takeSlot_lc (s : State) (q : ReqHdr) : (s.takeSlot q).lc = s.lc := rfl
@[simp] theorem State.takeSlot_io (s : State) (q : ReqHdr) : (s.takeSlot q).io = s.io := rfl
@[simp] theorem State.takeSlot_eventNo (s : State) (q : ReqHdr) : (s.takeSlot q).eventNo = s.eventNo := rfl
@[simp] theorem State.takeSlot_pending (s : State) (q : ReqHdr) : (s.takeSlot q).pending = s.pending := rfl

/-! ### The fields that the named updates do change -/

@[simp] theorem State.setRi_ri (s : State) (f : RegionIf → RegionIf) : (s.setRi f).ri = f s.ri := rfl
@[simp] theorem State.setTb_tb (s : State) (f : TimeBase → TimeBase) : (s.setTb f).tb = f s.tb := rfl
@[simp] theorem State.record_ri (s : State) (n : Note) : (s.record n).ri = s.ri.take (stamped s n) := rfl
@[simp] theorem State.ask_ri (s : State) (a : Access) : (s.ask a).ri = { s.ri with accesses := s.ri.accesses ++ [a] } := rfl
@[simp] theorem State.completed_ri (s : State) : s.completed.ri = { s.ri with accesses := s.ri.accesses.tail } := rfl
@[simp] theorem State.takeSlot_ri (s : State) (q : ReqHdr) :
    (s.takeSlot q).ri = { s.ri with taken := s.ri.taken ++ [⟨q, none⟩] } := rfl

/-! ### An event's context -/

@[simp] theorem Ctx.upd_st (c : Ctx) (f : State → State) : (c.upd f).st = f c.st := rfl
@[simp] theorem Ctx.upd_ans (c : Ctx) (f : State → State) : (c.upd f).ans = c.ans := rfl
@[simp] theorem Ctx.upd_todo (c : Ctx) (f : State → State) : (c.upd f).todo = c.todo := rfl
@[simp] theorem Ctx.upd_skipped (c : Ctx) (f : State → State) : (c.upd f).skipped = c.skipped := rfl
@[simp] theorem Ctx.upd_tag (c : Ctx) (f : State → State) : (c.upd f).tag = c.tag := rfl
@[simp] theorem Ctx.say_st (c : Ctx) (x : Ans) : (c.say x).st = c.st := rfl
@[simp] theorem Ctx.say_ans (c : Ctx) (x : Ans) : (c.say x).ans = c.ans ++ [x] := rfl
@[simp] theorem Ctx.say_todo (c : Ctx) (x : Ans) : (c.say x).todo = c.todo := rfl
@[simp] theorem Ctx.say_skipped (c : Ctx) (x : Ans) : (c.say x).skipped = c.skipped := rfl
@[simp] theorem Ctx.say_tag (c : Ctx) (x : Ans) : (c.say x).tag = c.tag := rfl
@[simp] theorem Ctx.call_st (c : Ctx) (ws : List Work) : (c.call ws).st = c.st := rfl
@[simp] theorem Ctx.call_ans (c : Ctx) (ws : List Work) : (c.call ws).ans = c.ans := rfl
@[simp] theorem Ctx.call_todo (c : Ctx) (ws : List Work) : (c.call ws).todo = c.todo ++ ws := rfl
@[simp] theorem Ctx.call_skipped (c : Ctx) (ws : List Work) : (c.call ws).skipped = c.skipped := rfl
@[simp] theorem Ctx.call_tag (c : Ctx) (ws : List Work) : (c.call ws).tag = c.tag := rfl
@[simp] theorem Ctx.record_st (c : Ctx) (n : Note) : (c.record n).st = c.st.record n := rfl
@[simp] theorem Ctx.record_ans (c : Ctx) (n : Note) : (c.record n).ans = c.ans := rfl
@[simp] theorem Ctx.record_todo (c : Ctx) (n : Note) : (c.record n).todo = c.todo := rfl
@[simp] theorem Ctx.record_skipped (c : Ctx) (n : Note) : (c.record n).skipped = c.skipped := rfl
@[simp] theorem Ctx.record_tag (c : Ctx) (n : Note) : (c.record n).tag = c.tag := rfl
@[simp] theorem Ctx.upd_closing (c : Ctx) (f : State → State) : (c.upd f).closing = c.closing := rfl
@[simp] theorem Ctx.say_closing (c : Ctx) (x : Ans) : (c.say x).closing = c.closing := rfl
@[simp] theorem Ctx.call_closing (c : Ctx) (ws : List Work) : (c.call ws).closing = c.closing := rfl
@[simp] theorem Ctx.record_closing (c : Ctx) (n : Note) : (c.record n).closing = c.closing := rfl
@[simp] theorem Ctx.closes_st (c : Ctx) (l : Option Nat) : (c.closes l).st = c.st := rfl
@[simp] theorem Ctx.closes_ans (c : Ctx) (l : Option Nat) : (c.closes l).ans = c.ans := rfl
@[simp] theorem Ctx.closes_todo (c : Ctx) (l : Option Nat) : (c.closes l).todo = c.todo := rfl
@[simp] theorem Ctx.closes_skipped (c : Ctx) (l : Option Nat) : (c.closes l).skipped = c.skipped := rfl
@[simp] theorem Ctx.closes_tag (c : Ctx) (l : Option Nat) : (c.closes l).tag = c.tag := rfl
@[simp] theorem Ctx.closes_closing (c : Ctx) (l : Option Nat) : (c.closes l).closing = l := rfl
@[simp] theorem State.begin_closing (s : State) : s.begin.closing = none := rfl
@[simp] theorem State.begin_st (s : State) : s.begin.st = { s with eventNo := s.eventNo + 1 } := rfl
@[simp] theorem State.begin_ans (s : State) : s.begin.ans = [] := rfl
@[simp] theorem State.begin_todo (s : State) : s.begin.todo = [] := rfl
@[simp] theorem State.begin_skipped (s : State) : s.begin.skipped = 0 := rfl
@[simp] theorem State.begin_tag (s : State) : s.begin.tag = 0 := rfl
@[simp] theorem State.beginFor_st (s : State) (w : Word) : (s.beginFor w).st = { s with eventNo := s.eventNo + 1 } := rfl
@[simp] theorem State.beginFor_ans (s : State) (w : Word) : (s.beginFor w).ans = [] := rfl
@[simp] theorem State.beginFor_todo (s : State) (w : Word) : (s.beginFor w).todo = [] := rfl
@[simp] theorem State.beginFor_tag (s : State) (w : Word) : (s.beginFor w).tag = w := rfl
@[simp] theorem Ctx.each_nil {α : Type} (f : α → Ctx → Ctx) (c : Ctx) : Ctx.each f [] c = c := rfl
@[simp] theorem Ctx.each_cons {α : Type} (f : α → Ctx → Ctx) (x : α) (xs : List α) (c : Ctx) :
    Ctx.each f (x :: xs) c = Ctx.each f xs (f x c) := rfl

/-- An event that leaves nothing to answer or call is over. -/
theorem Ctx.close_of_done {c : Ctx} (ha : c.ans = []) (ht : c.todo = []) : c.close = c.st := by
  unfold Ctx.close eventTurns
  rw [turns]
  simp [turn, ha, ht]

end Sys2Proof.Machine
end

