-- ==== Sys2Proof/Laws/Region.lean ====
section
/-! SUPPORT. The region's bytes: a read after a write, the frame of a write, and the canonical form, which every write keeps. -/

namespace Sys2Proof.Machine
open Sys2Proof

theorem cells_keys {a : Nat} {bs : List Byte} : ∀ {x : Host.Cell}, x ∈ cells a bs → a ≤ x.1 ∧ x.1 < a + bs.length := by
  induction bs generalizing a with
  | nil => intro x h; simp [cells] at h
  | cons b bs ih =>
    intro x h
    simp only [cells, List.mem_cons] at h
    rcases h with rfl | h
    · simp
    · have := ih h
      simp only [List.length_cons]
      omega

theorem cells_wf (a : Nat) (bs : List Byte) : regionWf (cells a bs) := by
  induction bs generalizing a with
  | nil => exact List.Pairwise.nil
  | cons b bs ih =>
    refine List.Pairwise.cons (fun x hx => ?_) (ih (a + 1))
    have := cells_keys hx
    simp only
    omega

/-- Every write keeps the canonical form. -/
theorem regionWrite_wf {m : Memory} (h : regionWf m) (off : Nat) (bs : List Byte) : regionWf (regionWrite m off bs) := by
  unfold regionWf regionWrite
  refine List.pairwise_append.2 ⟨List.pairwise_append.2 ⟨List.Pairwise.filter _ h, cells_wf off bs, ?_⟩,
    List.Pairwise.filter _ h, ?_⟩
  · intro x hx y hy
    have := cells_keys hy
    simp only [List.mem_filter, decide_eq_true_eq] at hx
    omega
  · intro x hx y hy
    simp only [List.mem_append, List.mem_filter, decide_eq_true_eq] at hx hy
    rcases hx with hx | hx
    · omega
    · have := cells_keys hx
      omega

theorem find_filter_key {m : Memory} {p : Nat → Bool} {a : Nat} (hp : p a = true) :
    (m.filter fun c => p c.1).find? (fun c => c.1 == a) = m.find? (fun c => c.1 == a) := by
  induction m with
  | nil => rfl
  | cons c m ih =>
    by_cases hc : c.1 = a
    · simp [hc, hp]
    · by_cases hq : p c.1 = true
      · simp [hq, hc, ih]
      · simp [hq, hc, ih]

theorem find_filter_out {m : Memory} {p : Nat → Bool} {a : Nat} (hp : p a = false) :
    (m.filter fun c => p c.1).find? (fun c => c.1 == a) = none := by
  rw [List.find?_eq_none]
  intro c hc
  simp only [List.mem_filter] at hc
  simp only [beq_iff_eq]
  rintro rfl
  simp [hp] at hc

theorem find_cells_out {a off : Nat} {bs : List Byte} (h : a < off ∨ off + bs.length ≤ a) :
    (cells off bs).find? (fun c => c.1 == a) = none := by
  rw [List.find?_eq_none]
  intro c hc
  have := cells_keys hc
  simp only [beq_iff_eq]
  omega

theorem find_cells_in {bs : List Byte} {off i : Nat} (h : i < bs.length) :
    ((cells off bs).find? (fun c => c.1 == off + i)).map (·.2) = bs[i]? := by
  induction bs generalizing off i with
  | nil => simp at h
  | cons b bs ih =>
    cases i with
    | zero => simp [cells]
    | succ i =>
      have hne : (off == off + (i + 1)) = false := by simp
      simp only [cells, List.find?_cons, hne]
      have := ih (off := off + 1) (i := i) (by simpa using h)
      rw [show off + 1 + i = off + (i + 1) by omega] at this
      simpa using this

/-- A write leaves every other byte alone. -/
theorem regionRead_write_of_outside {m : Memory} {off : Nat} {bs : List Byte} {a : Nat}
    (h : a < off ∨ off + bs.length ≤ a) : regionRead (regionWrite m off bs) a = regionRead m a := by
  unfold regionRead regionWrite
  rw [List.find?_append, List.find?_append, find_cells_out h]
  rcases h with h | h
  · rw [find_filter_key (p := fun k => decide (k < off)) (by simpa using h),
      find_filter_out (p := fun k => decide (off + bs.length ≤ k)) (by simp; omega)]
    simp
  · rw [find_filter_out (p := fun k => decide (k < off)) (by simp; omega),
      find_filter_key (p := fun k => decide (off + bs.length ≤ k)) (by simpa using h)]
    simp

/-- A read after a write to the same place gives what was written. -/
theorem regionRead_write_of_inside {m : Memory} {off i : Nat} {bs : List Byte} (h : i < bs.length) :
    regionRead (regionWrite m off bs) (off + i) = bs[i]? := by
  unfold regionRead regionWrite
  rw [List.find?_append, List.find?_append, find_filter_out (p := fun k => decide (k < off)) (by simp)]
  have hc := find_cells_in (off := off) h
  cases hf : (cells off bs).find? (fun c => c.1 == off + i) with
  | none => rw [hf] at hc; simp only [Option.map_none] at hc; simp [List.getElem?_eq_getElem h] at hc
  | some x => rw [hf] at hc; simpa using hc

/-- The reset state's region has the canonical form. -/
theorem reset_regionWf : regionWf State.reset.ri.region := List.Pairwise.nil

@[simp] theorem leBytes_length (n v : Nat) : (leBytes n v).length = n := by
  induction n generalizing v with
  | zero => rfl
  | succ n ih => simp [leBytes, ih]

@[simp] theorem wordBytes_length (w : Word) : (wordBytes w).length = 4 := leBytes_length 4 _

theorem wordsBytes_length (ws : List Word) : (ws.flatMap wordBytes).length = 4 * ws.length := by
  induction ws with
  | nil => rfl
  | cons w ws ih => simp [ih]; omega

/-- A log record has 32 bytes (section 11.6). -/
@[simp] theorem logBytes_length (seq : Nat) (r : LogRecord) : (logBytes seq r).length = 32 := by simp [logBytes]

end Sys2Proof.Machine
end

