-- ==== Sys2Proof/Laws/Sound.lean ====
section
/-! SUPPORT. What a step may do to the standing conditions, said once for every operation. `Sound` is kept by every operation of the part; `Passed` by
every operation that an event's answers and calls may use, which leave the time base, the supply, the registers, the zone table and the host's part of the region
alone; `Turn` by those of them that leave the fire report alone. -/

namespace Sys2Proof.Machine
open Sys2Proof

/-- The standing conditions are kept, and so is the queue. -/
structure Sound (s t : State) : Prop where
  region : regionWf s.ri.region → regionWf t.ri.region
  log : LogSound s.ri → LogSound t.ri
  counts : Counts s → Counts t
  fire : FireSilence s → FireSilence t
  pending : t.pending = s.pending

/-- What no answer and no call of an event changes. -/
structure Passed (s t : State) : Prop extends Sound s t where
  tb : t.tb = s.tb
  elapsed : t.elapsed = s.elapsed
  supply : t.supply = s.supply
  eventNo : t.eventNo = s.eventNo
  run : t.ri.run = s.ri.run
  intEnable : t.ri.intEnable = s.ri.intEnable
  base : t.ri.base = s.ri.base
  causeEnable : t.ri.causeEnable = s.ri.causeEnable
  link : t.ri.link = s.ri.link
  taken : t.ri.taken = s.ri.taken
  scan : t.ri.scan = s.ri.scan
  readMark : t.ri.readMark = s.ri.readMark
  notify : t.ri.notify = s.ri.notify
  firstAttach : t.ri.firstAttach = s.ri.firstAttach
  marks : (t.ri.scanAt, t.ri.pollAt, t.ri.blockAt) = (s.ri.scanAt, s.ri.pollAt, s.ri.blockAt)
  accesses : s.ri.accesses <+: t.ri.accesses
  cause : ∀ i, s.ri.cause.getLsbD i = true → t.ri.cause.getLsbD i = true
  bound : s.ri.writeIndex < 256 → t.ri.writeIndex < 256
  outside : s.ri.writeIndex < 256 → ∀ a, ¬ partArea a → regionRead t.ri.region a = regionRead s.ri.region a
  table : t.za.table = s.za.table
  mark : s.se.mark.isSome = true → t.se.mark.isSome = true

/-- A frame in which the fire report stays too. -/
structure Turn (s t : State) : Prop extends Passed s t where
  reported : t.za.fireReported = s.za.fireReported

theorem Sound.refl (s : State) : Sound s s := ⟨id, id, id, id, rfl⟩

theorem Sound.trans {s t u : State} (h : Sound s t) (k : Sound t u) : Sound s u where
  region := k.region ∘ h.region
  log := k.log ∘ h.log
  counts := k.counts ∘ h.counts
  fire := k.fire ∘ h.fire
  pending := k.pending.trans h.pending

theorem Passed.refl (s : State) : Passed s s where
  toSound := Sound.refl s
  tb := rfl
  elapsed := rfl
  supply := rfl
  eventNo := rfl
  run := rfl
  intEnable := rfl
  base := rfl
  causeEnable := rfl
  link := rfl
  taken := rfl
  scan := rfl
  readMark := rfl
  notify := rfl
  firstAttach := rfl
  marks := rfl
  accesses := List.prefix_refl _
  cause := fun _ h => h
  bound := id
  outside := fun _ _ _ => rfl
  table := rfl
  mark := id

theorem Passed.trans {s t u : State} (h : Passed s t) (k : Passed t u) : Passed s u where
  toSound := h.toSound.trans k.toSound
  tb := k.tb.trans h.tb
  elapsed := k.elapsed.trans h.elapsed
  supply := k.supply.trans h.supply
  eventNo := k.eventNo.trans h.eventNo
  run := k.run.trans h.run
  intEnable := k.intEnable.trans h.intEnable
  base := k.base.trans h.base
  causeEnable := k.causeEnable.trans h.causeEnable
  link := k.link.trans h.link
  taken := k.taken.trans h.taken
  scan := k.scan.trans h.scan
  readMark := k.readMark.trans h.readMark
  notify := k.notify.trans h.notify
  firstAttach := k.firstAttach.trans h.firstAttach
  marks := k.marks.trans h.marks
  accesses := h.accesses.trans k.accesses
  cause := fun i hi => k.cause i (h.cause i hi)
  bound := fun hw => k.bound (h.bound hw)
  outside := fun hw a ha => (k.outside (h.bound hw) a ha).trans (h.outside hw a ha)
  table := k.table.trans h.table
  mark := k.mark ∘ h.mark

theorem Turn.refl (s : State) : Turn s s := ⟨Passed.refl s, rfl⟩

theorem Turn.trans {s t u : State} (h : Turn s t) (k : Turn t u) : Turn s u where
  toPassed := h.toPassed.trans k.toPassed
  reported := k.reported.trans h.reported

/-! ### Changes outside the Region Interface and the Zone Arbiter -/

/-- A change of the other blocks that keeps the counts of fixed things. -/
theorem Turn.of_blocks {s t : State} (ri : t.ri = s.ri) (tb : t.tb = s.tb) (el : t.elapsed = s.elapsed)
    (su : t.supply = s.supply) (ev : t.eventNo = s.eventNo) (pe : t.pending = s.pending) (za : t.za = s.za)
    (ch : t.au.channels.length = s.au.channels.length) (ci : t.cu.circuits.length = s.cu.circuits.length)
    (li : t.lc.lines.length = s.lc.lines.length) (inp : t.io.inputs.length = s.io.inputs.length)
    (out : t.io.outputs.length = s.io.outputs.length) (mark : s.se.mark.isSome = true → t.se.mark.isSome = true) : Turn s t where
  region := by rw [ri]; exact id
  log := by rw [ri]; exact id
  counts := fun h => ⟨za ▸ h.zones, za ▸ h.feeds, ch.trans h.channels, ci.trans h.circuits, li.trans h.lines,
    inp.trans h.inputs, out.trans h.outputs⟩
  fire := fun h => by
    have hz : t.zone = s.zone := by funext z; simp only [State.zone, za]
    have hr : t.zoneRec = s.zoneRec := by funext z; simp only [State.zoneRec, za]
    exact ⟨by rw [hz, hr]; exact h.out, by rw [hz, za]; exact h.silent, by rw [za]; exact h.feeds⟩
  pending := pe
  tb := tb
  elapsed := el
  supply := su
  eventNo := ev
  run := by rw [ri]
  intEnable := by rw [ri]
  base := by rw [ri]
  causeEnable := by rw [ri]
  link := by rw [ri]
  taken := by rw [ri]
  scan := by rw [ri]
  readMark := by rw [ri]
  notify := by rw [ri]
  firstAttach := by rw [ri]
  marks := by rw [ri]
  accesses := by rw [ri]
  cause := by rw [ri]; exact fun _ h => h
  bound := by rw [ri]; exact id
  outside := by rw [ri]; exact fun _ _ _ => rfl
  table := by rw [za]
  mark := mark
  reported := by rw [za]

theorem setBell_turn (s : State) (n : Nat) (f : Bell → Bell) : Turn s (s.setBell n f) := by apply Turn.of_blocks <;> first | rfl | exact id
theorem setAnn_turn (s : State) (n : Nat) (f : Ann → Ann) : Turn s (s.setAnn n f) := by apply Turn.of_blocks <;> first | rfl | exact id
theorem routeFailed_turn (s : State) (ws : List Watch) : Turn s (s.routeFailed ws) := by apply Turn.of_blocks <;> first | rfl | exact id
theorem setDrill_turn (s : State) (f : ActiveDrill → ActiveDrill) : Turn s (s.setDrill f) := by apply Turn.of_blocks <;> first | rfl | exact id
theorem setChannel_turn (s : State) (n : Nat) (f : Channel → Channel) : Turn s (s.setChannel n f) := by
  apply Turn.of_blocks <;> first | rfl | exact id | simp [State.setChannel]
theorem setCircuit_turn (s : State) (n : Nat) (f : Circuit → Circuit) : Turn s (s.setCircuit n f) := by
  apply Turn.of_blocks <;> first | rfl | exact id | simp [State.setCircuit]
theorem setLine_turn (s : State) (n : Nat) (f : Line → Line) : Turn s (s.setLine n f) := by
  apply Turn.of_blocks <;> first | rfl | exact id | simp [State.setLine]
theorem setNode_turn (s : State) (l a : Nat) (f : Node → Node) : Turn s (s.setNode l a f) := setLine_turn s l _
theorem setInput_turn (s : State) (n : Nat) (f : Input → Input) : Turn s (s.setInput n f) := by
  apply Turn.of_blocks <;> first | rfl | exact id | simp [State.setInput]
theorem setOutput_turn (s : State) (n : Nat) (f : Output → Output) : Turn s (s.setOutput n f) := by
  apply Turn.of_blocks <;> first | rfl | exact id | simp [State.setOutput]

/-! ### Changes of the Region Interface -/

/-- A change of RI alone. -/
theorem Turn.of_ri (s : State) (f : RegionIf → RegionIf)
    (region : regionWf s.ri.region → regionWf (f s.ri).region) (log : LogSound s.ri → LogSound (f s.ri))
    (run : (f s.ri).run = s.ri.run) (ie : (f s.ri).intEnable = s.ri.intEnable) (base : (f s.ri).base = s.ri.base)
    (ce : (f s.ri).causeEnable = s.ri.causeEnable) (link : (f s.ri).link = s.ri.link) (taken : (f s.ri).taken = s.ri.taken)
    (scan : (f s.ri).scan = s.ri.scan) (rm : (f s.ri).readMark = s.ri.readMark) (no : (f s.ri).notify = s.ri.notify)
    (fa : (f s.ri).firstAttach = s.ri.firstAttach)
    (ma : ((f s.ri).scanAt, (f s.ri).pollAt, (f s.ri).blockAt) = (s.ri.scanAt, s.ri.pollAt, s.ri.blockAt))
    (acc : s.ri.accesses <+: (f s.ri).accesses)
    (cause : ∀ i, s.ri.cause.getLsbD i = true → (f s.ri).cause.getLsbD i = true)
    (bound : s.ri.writeIndex < 256 → (f s.ri).writeIndex < 256)
    (outside : s.ri.writeIndex < 256 → ∀ a, ¬ partArea a → regionRead (f s.ri).region a = regionRead s.ri.region a) :
    Turn s (s.setRi f) where
  region := region
  log := log
  counts := fun h => ⟨h.zones, h.feeds, h.channels, h.circuits, h.lines, h.inputs, h.outputs⟩
  fire := fun h => ⟨h.out, h.silent, h.feeds⟩
  pending := rfl
  tb := rfl
  elapsed := rfl
  supply := rfl
  eventNo := rfl
  run := run
  intEnable := ie
  base := base
  causeEnable := ce
  link := link
  taken := taken
  scan := scan
  readMark := rm
  notify := no
  firstAttach := fa
  marks := ma
  accesses := acc
  cause := cause
  bound := bound
  outside := outside
  table := rfl
  mark := id
  reported := rfl

theorem ask_turn (s : State) (a : Access) : Turn s (s.ask a) := by
  apply Turn.of_ri <;> first | rfl | exact id | exact fun _ h => h | exact fun _ _ _ => rfl | skip
  · exact fun h => ⟨h.1, h.2, h.3, h.4, h.5, h.6⟩
  · exact List.prefix_append _ _

theorem raise_turn (s : State) (c : BitVec 4) : Turn s (s.setRi (RegionIf.raise c)) := by
  apply Turn.of_ri <;> first | rfl | exact id | exact fun _ _ _ => rfl | skip
  · exact fun h => ⟨h.1, h.2, h.3, h.4, h.5, h.6⟩
  · intro i h; simp [RegionIf.raise, h]

/-- A 4-byte field of the part's own is written. -/
theorem writeField_turn (s : State) (off : Nat) (w : Word) (h1 : 12 ≤ off) (h2 : off ≤ 44) : Turn s (s.writeField off w) := by
  unfold State.writeField
  split
  · apply Turn.of_ri <;> first | rfl | exact id | exact fun _ h => h | exact fun _ _ _ => rfl | skip
    · exact fun h => regionWrite_wf h _ _
    · exact fun h => ⟨h.1, h.2, h.3, h.4, h.5, h.6⟩
    · intro _ a ha
      apply regionRead_write_of_outside
      simp only [wordBytes_length]
      unfold partArea at ha
      omega
  · exact Turn.refl s

/-! #### Records -/

theorem place_region (ri : RegionIf) (r : LogRecord) : (ri.place r).region =
    regionWrite (regionWrite ri.region (Config.logBase + 32 * ri.writeIndex) (logBytes ri.nextSeq r)) cbWriteIndex
      (leBytes 4 ((ri.writeIndex + 1) % 256)) := by
  unfold RegionIf.place RegionIf.raise
  dsimp only
  split <;> split <;> rfl

theorem place_writeIndex (ri : RegionIf) (r : LogRecord) : (ri.place r).writeIndex = (ri.writeIndex + 1) % 256 := by
  unfold RegionIf.place RegionIf.raise
  dsimp only
  split <;> split <;> rfl

theorem place_nextSeq (ri : RegionIf) (r : LogRecord) : (ri.place r).nextSeq = (ri.nextSeq + 1) % 0x100000000 := by
  unfold RegionIf.place RegionIf.raise
  dsimp only
  split <;> split <;> rfl

/-- What a record's placing leaves alone. -/
theorem place_rest (ri : RegionIf) (r : LogRecord) :
    { ri.place r with region := ri.region, writeIndex := ri.writeIndex, nextSeq := ri.nextSeq, cause := ri.cause } = ri := by
  unfold RegionIf.place RegionIf.raise
  dsimp only
  split <;> split <;> rfl

theorem place_cause (ri : RegionIf) (r : LogRecord) (i : Nat) (h : ri.cause.getLsbD i = true) :
    (ri.place r).cause.getLsbD i = true := by
  unfold RegionIf.place RegionIf.raise
  dsimp only
  split <;> split <;> simp [h]

theorem place_wf {ri : RegionIf} (h : regionWf ri.region) (r : LogRecord) : regionWf (ri.place r).region := by
  rw [place_region]
  exact regionWrite_wf (regionWrite_wf h _ _) _ _

theorem place_outside {ri : RegionIf} (hw : ri.writeIndex < 256) (r : LogRecord) {a : Nat} (ha : ¬ partArea a) :
    regionRead (ri.place r).region a = regionRead ri.region a := by
  rw [place_region, regionRead_write_of_outside, regionRead_write_of_outside]
  · simp only [logBytes_length, Config.logBase]
    unfold partArea at ha
    omega
  · simp only [leBytes_length, cbWriteIndex]
    unfold partArea at ha
    omega

theorem place_log {ri : RegionIf} (h : LogSound ri) (r : LogRecord) : LogSound (ri.place r) := by
  have e := place_rest ri r
  refine ⟨?_, ?_, ?_, ?_, ?_, ?_⟩
  · rw [place_writeIndex]; exact Nat.mod_lt _ (by decide)
  · rw [show (ri.place r).readMark = ri.readMark from (by have k := congrArg RegionIf.readMark e; exact k)]; exact h.readMark
  · rw [place_nextSeq]; exact Nat.mod_lt _ (by decide)
  · rw [show (ri.place r).hold = ri.hold from (by have k := congrArg RegionIf.hold e; exact k)]; exact h.hold
  · rw [show (ri.place r).lost = ri.lost from (by have k := congrArg RegionIf.lost e; exact k)]; exact h.lost
  · rw [show (ri.place r).totalLost = ri.totalLost from (by have k := congrArg RegionIf.totalLost e; exact k)]; exact h.totalLost

theorem place_turn (s : State) (r : LogRecord) : Turn s (s.setRi (RegionIf.place r)) := by
  have e := place_rest s.ri r
  apply Turn.of_ri
  · exact fun h => place_wf h r
  · exact fun h => place_log h r
  · exact (by have k := congrArg RegionIf.run e; exact k)
  · exact (by have k := congrArg RegionIf.intEnable e; exact k)
  · exact (by have k := congrArg RegionIf.base e; exact k)
  · exact (by have k := congrArg RegionIf.causeEnable e; exact k)
  · exact (by have k := congrArg RegionIf.link e; exact k)
  · exact (by have k := congrArg RegionIf.taken e; exact k)
  · exact (by have k := congrArg RegionIf.scan e; exact k)
  · exact (by have k := congrArg RegionIf.readMark e; exact k)
  · exact (by have k := congrArg RegionIf.notify e; exact k)
  · exact (by have k := congrArg RegionIf.firstAttach e; exact k)
  · have k := congrArg (fun x => (RegionIf.scanAt x, RegionIf.pollAt x, RegionIf.blockAt x)) e; exact k
  · rw [show (s.ri.place r).accesses = s.ri.accesses from (by have k := congrArg RegionIf.accesses e; exact k)]
  · exact place_cause s.ri r
  · intro _; rw [place_writeIndex]; exact Nat.mod_lt _ (by decide)
  · exact fun hw a ha => place_outside hw r ha

/-- R195: what writing a record can do. -/
theorem take_turn (s : State) (r : LogRecord) : Turn s (s.setRi (RegionIf.take r)) := by
  have key : ∀ ri' : RegionIf, (ri' = s.ri.place r → Turn s { s with ri := ri' }) := by
    intro ri' h; subst h; exact place_turn s r
  unfold State.setRi RegionIf.take
  split
  · exact key _ rfl
  · split
    · rename_i h
      apply Turn.of_ri s (fun ri => { ri with hold := ri.hold ++ [r] }) <;>
        first | rfl | exact id | exact fun _ h => h | exact fun _ _ _ => rfl | skip
      · exact fun k => ⟨k.1, k.2, k.3, by simpa using h, k.5, k.6⟩
    · apply Turn.of_ri s (fun ri => { ri with lost := min (ri.lost + 1) 65535, totalLost := min (ri.totalLost + 1) 0xFFFFFFFF }) <;>
        first | rfl | exact id | exact fun _ h => h | exact fun _ _ _ => rfl | skip
      · exact fun k => ⟨k.1, k.2, k.3, k.4, Nat.min_le_right _ _, Nat.min_le_right _ _⟩

theorem record_turn (s : State) (n : Note) : Turn s (s.record n) := take_turn s _

/-! #### Mirrors and trouble -/

theorem mirrorTime_turn (s : State) : Turn s s.mirrorTime := by
  unfold State.mirrorTime
  dsimp only
  split <;>
  exact ((((writeField_turn s _ _ (by decide) (by decide)).trans (writeField_turn _ _ _ (by decide) (by decide))).trans
    (writeField_turn _ _ _ (by decide) (by decide))).trans (writeField_turn _ _ _ (by decide) (by decide)))
theorem mirrorTrouble_turn (s : State) : Turn s s.mirrorTrouble := writeField_turn s _ _ (by decide) (by decide)
theorem mirrorFire_turn (s : State) : Turn s s.mirrorFire := writeField_turn s _ _ (by decide) (by decide)
theorem mirrorDrill_turn (s : State) : Turn s s.mirrorDrill := writeField_turn s _ _ (by decide) (by decide)
theorem mirrorAll_turn (s : State) : Turn s s.mirrorAll :=
  ((((mirrorTime_turn s).trans (writeField_turn _ _ _ (by decide) (by decide))).trans (mirrorTrouble_turn _)).trans
    (mirrorFire_turn _)).trans (mirrorDrill_turn _)

theorem foldl_turn {α : Type} {f : State → α → State} (h : ∀ s a, Turn s (f s a)) (l : List α) (s : State) :
    Turn s (l.foldl f s) := by
  induction l generalizing s with
  | nil => exact Turn.refl s
  | cons a l ih => exact (h s a).trans (ih _)

theorem troubleClass_turn (s : State) (n : Nat) : Turn s (s.troubleClass n) := by
  unfold State.troubleClass
  dsimp only
  split
  · exact Turn.refl s
  · exact Turn.trans (Turn.trans (by apply Turn.of_blocks <;> first | rfl | exact id) (record_turn _ _)) (mirrorTrouble_turn _)

theorem updateTrouble_turn (s : State) : Turn s s.updateTrouble := foldl_turn troubleClass_turn _ s

/-! ### Changes of the Zone Arbiter -/

theorem setZone_zone (s : State) (z y : Nat) (f : ZoneDyn → ZoneDyn) (hf : z < s.za.zones.length) :
    (s.setZone z f).zone y = if y = z then f (s.zone z) else s.zone y := by
  unfold State.zone State.setZone
  simp only [List.getD_eq_getElem?_getD, List.getElem?_modify]
  by_cases h : z = y
  · subst h; simp [hf]
  · have h' : ¬ y = z := fun e => h e.symm
    simp [h, h']

theorem setZone_zone_out (s : State) (z y : Nat) (f : ZoneDyn → ZoneDyn) (hf : s.za.zones.length ≤ z) :
    (s.setZone z f).zone y = s.zone y := by
  unfold State.zone State.setZone
  simp only [List.getD_eq_getElem?_getD, List.getElem?_modify]
  by_cases h : z = y
  · subst h; simp [List.getElem?_eq_none hf]
  · simp [h]

/-- A zone whose record and report allow any holder and any waiter. -/
def Open (z : Nat) (s : State) : Prop := (s.zoneRec z).enabled = true ∧ s.za.fireReported = false

/-- What a change of one zone may do so that fire silence stands. -/
structure ZoneChange (f : ZoneDyn → ZoneDyn) : Prop where
  empty : ∀ d, d.holder = none → (f d).holder = none
  waiters : ∀ d, d.waiters = [] → (f d).waiters = []
  who : ∀ d, (∀ h, d.holder = some h → h.who = .fire) → ∀ h, (f d).holder = some h → h.who = .fire

theorem setZone_turn_of {s : State} {z : Nat} {f : ZoneDyn → ZoneDyn}
    (hf : FireSilence s → FireSilence (s.setZone z f)) : Turn s (s.setZone z f) where
  region := id
  log := id
  counts := fun h => ⟨by simpa [State.setZone] using h.zones, h.feeds, h.channels, h.circuits, h.lines, h.inputs, h.outputs⟩
  fire := hf
  pending := rfl
  tb := rfl
  elapsed := rfl
  supply := rfl
  eventNo := rfl
  run := rfl
  intEnable := rfl
  base := rfl
  causeEnable := rfl
  link := rfl
  taken := rfl
  scan := rfl
  readMark := rfl
  notify := rfl
  firstAttach := rfl
  marks := rfl
  accesses := List.prefix_refl _
  cause := fun _ h => h
  bound := id
  outside := fun _ _ _ => rfl
  table := rfl
  mark := id
  reported := rfl

theorem setZone_turn (s : State) (z : Nat) {f : ZoneDyn → ZoneDyn} (hf : ZoneChange f) : Turn s (s.setZone z f) := by
  apply setZone_turn_of
  intro h
  by_cases hz : z < s.za.zones.length
  · refine ⟨?_, ?_, h.feeds⟩
    · intro y hy he
      have := h.out y hy he
      rw [setZone_zone s z y f hz]
      split
      · rename_i e; subst e; exact ⟨hf.empty _ this.1, hf.waiters _ this.2⟩
      · exact this
    · intro hr y hy
      have := h.silent hr y hy
      rw [setZone_zone s z y f hz]
      split
      · rename_i e; subst e; exact ⟨hf.who _ this.1, hf.waiters _ this.2⟩
      · exact this
  · have hz' : s.za.zones.length ≤ z := by omega
    refine ⟨?_, ?_, h.feeds⟩
    · intro y hy he; rw [setZone_zone_out s z y f hz']; exact h.out y hy he
    · intro hr y hy; rw [setZone_zone_out s z y f hz']; exact h.silent hr y hy

theorem setZone_turn_open {s : State} {z : Nat} (ho : Open z s) (f : ZoneDyn → ZoneDyn) : Turn s (s.setZone z f) := by
  apply setZone_turn_of
  intro h
  have hrep : ∀ {p : Prop}, (s.setZone z f).za.fireReported = true → p := by
    intro p hr; rw [show (s.setZone z f).za.fireReported = s.za.fireReported from rfl, ho.2] at hr; cases hr
  refine ⟨?_, fun hr => hrep hr, fun hr => hrep hr⟩
  intro y hy he
  by_cases hz : z < s.za.zones.length
  · rw [setZone_zone s z y f hz]
    split
    · rename_i e
      subst e
      rw [show (s.setZone y f).zoneRec y = s.zoneRec y from rfl, ho.1] at he
      cases he
    · exact h.out y hy he
  · rw [setZone_zone_out s z y f (by omega)]; exact h.out y hy he

/-- A feed that becomes none, or any feed while fire is not reported. -/
theorem setFeed_turn (s : State) (b : Nat) (h : Option FeedHolder) (ho : h = none ∨ s.za.fireReported = false) :
    Turn s (s.setFeed b h) where
  region := id
  log := id
  counts := fun k => ⟨k.zones, by simpa [State.setFeed] using k.feeds, k.channels, k.circuits, k.lines, k.inputs, k.outputs⟩
  fire := fun k => ⟨k.out, k.silent, fun hr y => by
    have hr' : s.za.fireReported = true := hr
    rcases ho with rfl | ho
    · have := k.feeds hr' y
      unfold State.setFeed
      simp only [List.getD_eq_getElem?_getD, List.getElem?_set] at this ⊢
      by_cases e : b = y
      · subst e; by_cases l : b < s.za.feeds.length <;> simp [l]
      · simp [e]; simpa using this
    · rw [ho] at hr'; cases hr'⟩
  pending := rfl
  tb := rfl
  elapsed := rfl
  supply := rfl
  eventNo := rfl
  run := rfl
  intEnable := rfl
  base := rfl
  causeEnable := rfl
  link := rfl
  taken := rfl
  scan := rfl
  readMark := rfl
  notify := rfl
  firstAttach := rfl
  marks := rfl
  accesses := List.prefix_refl _
  cause := fun _ h => h
  bound := id
  outside := fun _ _ _ => rfl
  table := rfl
  mark := id
  reported := rfl

theorem Open.of_turn {s t : State} {z : Nat} (h : Open z s) (k : Turn s t) : Open z t :=
  ⟨by rw [State.zoneRec, k.table]; exact h.1, k.reported.trans h.2⟩

/-! ### An event's context -/

/-- No call that answers START DRILL waits. -/
def NoStart (ws : List Work) : Prop := ∀ q n, Work.startAnswer q n ∉ ws

/-- A context reached from another by turns' operations: a `Turn` of the states, and no new answer of START DRILL. -/
structure CTurn (c d : Ctx) : Prop where
  st : Turn c.st d.st
  noStart : NoStart c.todo → NoStart d.todo

theorem CTurn.refl (c : Ctx) : CTurn c c := ⟨Turn.refl _, id⟩
theorem CTurn.trans {c d e : Ctx} (h : CTurn c d) (k : CTurn d e) : CTurn c e := ⟨h.st.trans k.st, k.noStart ∘ h.noStart⟩

theorem upd_cturn {c0 c : Ctx} (h : CTurn c0 c) {f : State → State} (hf : Turn c.st (f c.st)) : CTurn c0 (c.upd f) :=
  ⟨h.st.trans hf, h.noStart⟩
theorem say_cturn {c0 c : Ctx} (h : CTurn c0 c) {a : Ans} : CTurn c0 (c.say a) := ⟨h.st, h.noStart⟩
theorem call_cturn {c0 c : Ctx} (h : CTurn c0 c) {ws : List Work} (hw : NoStart ws) : CTurn c0 (c.call ws) :=
  ⟨h.st, fun k q n hm => by
    rcases List.mem_append.1 hm with hm | hm
    · exact h.noStart k q n hm
    · exact hw q n hm⟩
theorem record_cturn {c0 c : Ctx} (h : CTurn c0 c) {n : Note} : CTurn c0 (c.record n) := upd_cturn h (record_turn _ _)
theorem skip_cturn {c0 c : Ctx} (h : CTurn c0 c) {n : Nat} : CTurn c0 { c with skipped := n } := ⟨h.st, h.noStart⟩
theorem closes_cturn {c0 c : Ctx} (h : CTurn c0 c) {l : Option Nat} : CTurn c0 (c.closes l) := ⟨h.st, h.noStart⟩
theorem each_cturn {α : Type} {f : α → Ctx → Ctx} (hf : ∀ x c0 c, CTurn c0 c → CTurn c0 (f x c)) {l : List α} {c0 c : Ctx}
    (h : CTurn c0 c) : CTurn c0 (Ctx.each f l c) := by
  induction l generalizing c with
  | nil => exact h
  | cons x l ih => exact ih (hf x c0 c h)

end Sys2Proof.Machine
end

