-- ==== Sys2Proof/Laws/Quiet.lean ====
section
/-! SUPPORT. What the Zone Arbiter's operations do in quiet surroundings: no claim waits, and the lines have no node. -/

namespace Sys2Proof.Machine
open Sys2Proof

theorem candidate_of_noWaiter {d : ZoneDyn} (h : d.waiters = []) : d.candidate = none := by
  unfold ZoneDyn.candidate
  rw [h]
  cases d.reserved <;> rfl

theorem candidates_of_noWaiters {s : State} (h : NoWaiters s) (b : Nat) : candidates s b = [] := by
  unfold candidates
  rw [List.filterMap_eq_nil_iff]
  intro z _
  split
  · rw [candidate_of_noWaiter (h z)]; rfl
  · rfl

theorem settleRound_of_noWaiters {c : Ctx} (h : NoWaiters c.st) (b : Nat) : settleRound b c = c := by
  simp only [settleRound, candidates_of_noWaiters h, List.filter_nil, List.length_nil, settleSpeaking, Ctx.each]

/-- With no claim waiting, settling a building does nothing but let its feed lapse (R70, R73). -/
theorem settle_of_noWaiters {c : Ctx} (h : NoWaiters c.st) (b : Nat) : settle b c = feedLapse b c := by
  have hl : NoWaiters (feedLapse b c).st := by
    unfold feedLapse
    split
    · exact h
    · split
      · exact h
      · exact h
  unfold settle settleRounds settleLoop
  simp [settleRound_of_noWaiters hl]

/-- Letting a feed lapse changes the feeds alone (R73). -/
theorem feedLapse_feeds (b : Nat) (c : Ctx) : ∃ fs, feedLapse b c = c.upd fun s => { s with za := { s.za with feeds := fs } } := by
  unfold feedLapse
  split
  · exact ⟨c.st.za.feeds, rfl⟩
  · split
    · exact ⟨c.st.za.feeds, rfl⟩
    · exact ⟨_, rfl⟩

theorem feedLapse_of_none {c : Ctx} (h : ∀ b, c.st.za.feeds.getD b none = none) (b : Nat) : feedLapse b c = c := by
  unfold feedLapse
  rw [h]

/-- On lines without nodes no ROUTE is sent (R78). -/
theorem routeZone_of_bare {c : Ctx} (h : BareLines c.st) (z cls : Nat) : routeZone z cls c = c := by
  unfold routeZone speakersOf
  rw [(h _).nodes]
  rfl

/-- A zone that does not sound on its line has no sounder transaction (R77). -/
theorem soundZone_of_silent {c : Ctx} {z : Nat} (h : (c.st.zoneRec z).sounds = false) (k : TxKind) (cls : Nat) : soundZone z k cls c = c := by
  unfold soundZone
  simp [h]

/-- A change of holder puts nothing on the line when the zone is silent there, or when neither holder has a sound order. -/
theorem driveSound_of_silent {c : Ctx} {z : Nat} {old new : Option Claim}
    (h : (c.st.zoneRec z).sounds = false ∨ (∀ x, old = some x → x.sound = none) ∧ ∀ x, new = some x → x.sound = none) :
    driveSound z old new c = c := by
  unfold driveSound
  rcases h with h | ⟨h1, h2⟩
  · split
    · exact soundZone_of_silent h _ _
    · exact soundZone_of_silent h _ _
    · rfl
  · cases new with
    | none =>
      cases old with
      | none => rfl
      | some x => simp [h1 x rfl]
    | some y =>
      cases old with
      | none => simp [h2 y rfl]
      | some x => simp [h1 x rfl, h2 y rfl]

/-- R67, R70, R76 to R78, in quiet surroundings: the holder changes, and the cadence step becomes QUIET. -/
theorem changeHolder_of_quiet {c : Ctx} {z : Nat} {new : Option Claim} (hb : BareLines c.st ∨ (c.st.zoneRec z).speaks = false)
    (h : (c.st.zoneRec z).sounds = false ∨ (∀ x, (c.st.zone z).holder = some x → x.sound = none) ∧ ∀ x, new = some x → x.sound = none) :
    changeHolder z new c = c.upd (State.setZone z fun d => { d with holder := new, cadence := .quiet }) := by
  unfold changeHolder
  simp only []
  rw [driveSound_of_silent]
  · split
    · rfl
    · next hr =>
      rcases hb with hb | hs
      · exact routeZone_of_bare (c := c.upd (State.setZone z fun d => { d with holder := new, cadence := .quiet })) hb _ _
      · exfalso
        apply hr
        have hs2 : ((State.setZone z (fun d => { d with holder := new, cadence := .quiet }) c.st).zoneRec z).speaks = false := hs
        simp [State.routed, hs, Ctx.upd, hs2]
  · exact h

/-- A claimant's waiting claims are gone (R69). -/
theorem dropWaiter_eq {c : Ctx} (h : NoWaiters c.st) (z : Nat) (who : Claimant) :
    ∃ r : Option Claimant → Option Claimant, dropWaiter z who c = c.upd (State.setZone z fun d => { d with reserved := r d.reserved }) := by
  refine ⟨fun x => if x = some who then none else x, ?_⟩
  unfold dropWaiter Ctx.upd
  congr 1
  unfold State.setZone
  have hz : (c.st.za.zones.modify z fun d => { d with
      waiters := d.waiters.filter fun w => w.who != who, reserved := if d.reserved = some who then none else d.reserved })
      = c.st.za.zones.modify z fun d => { d with reserved := if d.reserved = some who then none else d.reserved } := by
    apply List.ext_getElem?
    intro i
    rw [List.getElem?_modify, List.getElem?_modify]
    by_cases hi : z = i
    · subst hi
      cases hx : c.st.za.zones[z]? with
      | none => rfl
      | some d =>
        have := h z
        rw [State.zone, List.getD_eq_getElem?_getD, hx] at this
        simp at this
        simp [this]
    · simp [hi]
  rw [hz]

/-! ### Releasing a claimant's zones -/

/-- The state with other zones and feeds. -/
def State.zonesTo (zs : List ZoneDyn) (fs : List (Option FeedHolder)) (s : State) : State :=
  { s with za := { s.za with zones := zs, feeds := fs } }

/-- The zones of `P` are free and quiet, and every other zone keeps its holder and its cadence step; nothing waits. -/
structure Freed (P : Nat → Prop) (s t : State) : Prop where
  free : ∀ z, P z → (t.zone z).holder = none ∧ (t.zone z).cadence = .quiet
  kept : ∀ z, ¬ P z → (t.zone z).holder = (s.zone z).holder ∧ (t.zone z).cadence = (s.zone z).cadence
  waiters : NoWaiters t
  length : t.za.zones.length = s.za.zones.length

theorem each_dropWaiter (who : Claimant) (l : List Nat) : ∀ {c : Ctx}, NoWaiters c.st →
    ∃ zs, Ctx.each (fun z c => dropWaiter z who c) l c = c.upd (State.zonesTo zs c.st.za.feeds) ∧
      Freed (fun _ => False) c.st (State.zonesTo zs c.st.za.feeds c.st) := by
  induction l with
  | nil =>
    intro c h
    exact ⟨c.st.za.zones, rfl, ⟨fun z h => h.elim, fun z _ => ⟨rfl, rfl⟩, h, rfl⟩⟩
  | cons z zs ih =>
    intro c h
    obtain ⟨r, hr⟩ := dropWaiter_eq h z who
    have hz : ∀ y, ((State.setZone z (fun d => { d with reserved := r d.reserved }) c.st).zone y).holder = (c.st.zone y).holder
        ∧ ((State.setZone z (fun d => { d with reserved := r d.reserved }) c.st).zone y).cadence = (c.st.zone y).cadence
        ∧ ((State.setZone z (fun d => { d with reserved := r d.reserved }) c.st).zone y).waiters = (c.st.zone y).waiters := by
      intro y
      rcases Nat.lt_or_ge z c.st.za.zones.length with hl | hl
      · rw [setZone_zone _ _ _ _ hl]
        split
        · next hy => subst hy; exact ⟨rfl, rfl, rfl⟩
        · exact ⟨rfl, rfl, rfl⟩
      · rw [setZone_zone_out _ _ _ _ hl]; exact ⟨rfl, rfl, rfl⟩
    have hw : NoWaiters (dropWaiter z who c).st := by
      rw [hr]; intro y; exact (hz y).2.2.trans (h y)
    obtain ⟨zs', h1, h2⟩ := ih hw
    refine ⟨zs', ?_, ?_⟩
    · show Ctx.each _ zs (dropWaiter z who c) = _
      rw [h1, hr]; rfl
    · refine ⟨fun _ h => h.elim, fun y hy => ?_, ?_, ?_⟩
      · have := h2.kept y hy
        rw [hr] at this
        exact ⟨this.1.trans (hz y).1, this.2.trans (hz y).2.1⟩
      · have := h2.waiters
        rw [hr] at this; exact this
      · have := h2.length
        rw [hr] at this
        exact this.trans (by simp [Ctx.upd, State.setZone])

/-- A zone of these that a claimant holds. -/
def heldIn (l : List Nat) (who : Claimant) (s : State) (z : Nat) : Prop := z ∈ l ∧ ∃ h, (s.zone z).holder = some h ∧ h.who = who

theorem each_changeHolder (who : Claimant) (l : List Nat) : ∀ {c : Ctx}, NoWaiters c.st → c.st.za.zones.length = 64 →
    (∀ z h, (c.st.zone z).holder = some h → h.who = who →
      (BareLines c.st ∨ (c.st.zoneRec z).speaks = false) ∧ ((c.st.zoneRec z).sounds = false ∨ h.sound = none)) →
    ∃ zs, Ctx.each (fun z c => if (c.st.zone z).holder.any (fun h => h.who == who) then changeHolder z none c else c) l c
      = c.upd (State.zonesTo zs c.st.za.feeds) ∧ Freed (heldIn l who c.st) c.st (State.zonesTo zs c.st.za.feeds c.st) := by
  induction l with
  | nil =>
    intro c h _ _
    exact ⟨c.st.za.zones, rfl, ⟨fun z h => absurd h.1 (by simp), fun z _ => ⟨rfl, rfl⟩, h, rfl⟩⟩
  | cons z zs ih =>
    intro c h h64 hq
    simp only [Ctx.each]
    split
    · next hh =>
      obtain ⟨x, hx, hxw⟩ : ∃ x, (c.st.zone z).holder = some x ∧ x.who = who := by
        cases hz : (c.st.zone z).holder with
        | none => simp [hz] at hh
        | some x => exact ⟨x, rfl, by simpa [hz] using hh⟩
      have hzl : z < c.st.za.zones.length := by
        by_contra hl
        have : c.st.zone z = ZoneDyn.clear := by
          simp [State.zone, List.getD_eq_getElem?_getD, List.getElem?_eq_none (Nat.le_of_not_lt hl)]
        rw [this] at hx; cases hx
      have hc : changeHolder z none c = c.upd (State.setZone z fun d => { d with holder := none, cadence := .quiet }) := by
        apply changeHolder_of_quiet (hq z x hx hxw).1
        rcases (hq z x hx hxw).2 with hs | hs
        · exact Or.inl hs
        · refine Or.inr ⟨fun y hy => ?_, fun y hy => by cases hy⟩
          rw [hx] at hy; cases hy; exact hs
      have hz := fun y => setZone_zone c.st z y (fun d => { d with holder := none, cadence := .quiet }) hzl
      have hw : NoWaiters (changeHolder z none c).st := by
        rw [hc]; intro y
        show ((State.setZone z _ c.st).zone y).waiters = []
        rw [hz y]
        split
        · exact h z
        · exact h y
      have hlen : (changeHolder z none c).st.za.zones.length = 64 := by
        rw [hc]; simp [Ctx.upd, State.setZone, h64]
      obtain ⟨zs', h1, h2⟩ := ih hw hlen (by
        rw [hc]; intro y k hk hkw
        have hk' : (((State.setZone z _ c.st).zone y)).holder = some k := hk
        rw [hz y] at hk'
        split at hk'
        · cases hk'
        · exact hq y k hk' hkw)
      refine ⟨zs', by rw [h1, hc]; rfl, ?_⟩
      rw [hc] at h2
      refine ⟨fun y hy => ?_, fun y hy => ?_, h2.waiters, ?_⟩
      · by_cases hin : heldIn zs who (State.setZone z (fun d => { d with holder := none, cadence := .quiet }) c.st) y
        · exact h2.free y hin
        · have hk := h2.kept y hin
          have e1 : ((State.zonesTo zs' c.st.za.feeds c.st).zone y).holder = ((State.setZone z (fun d => { d with holder := none, cadence := .quiet }) c.st).zone y).holder := hk.1
          have e2 : ((State.zonesTo zs' c.st.za.feeds c.st).zone y).cadence = ((State.setZone z (fun d => { d with holder := none, cadence := .quiet }) c.st).zone y).cadence := hk.2
          rw [e1, e2, hz y]
          by_cases hyz : y = z
          · simp [hyz]
          · exfalso
            apply hin
            obtain ⟨hm, k, hk1, hk2⟩ := hy
            refine ⟨?_, k, ?_, hk2⟩
            · simpa [hyz] using hm
            · rw [hz y, if_neg hyz]; exact hk1
      · have hyz : y ≠ z := by
          intro e; subst e; exact hy ⟨by simp, x, hx, hxw⟩
        have hin : ¬ heldIn zs who (State.setZone z (fun d => { d with holder := none, cadence := .quiet }) c.st) y := by
          rintro ⟨hm, k, hk1, hk2⟩
          rw [hz y, if_neg hyz] at hk1
          exact hy ⟨by simp [hm], k, hk1, hk2⟩
        have hk := h2.kept y hin
        have e1 : ((State.zonesTo zs' c.st.za.feeds c.st).zone y).holder = ((State.setZone z (fun d => { d with holder := none, cadence := .quiet }) c.st).zone y).holder := hk.1
        have e2 : ((State.zonesTo zs' c.st.za.feeds c.st).zone y).cadence = ((State.setZone z (fun d => { d with holder := none, cadence := .quiet }) c.st).zone y).cadence := hk.2
        rw [e1, e2, hz y, if_neg hyz]
        exact ⟨rfl, rfl⟩
      · have := h2.length
        exact this.trans (by simp [Ctx.upd, State.setZone])
    · next hh =>
      obtain ⟨zs', h1, h2⟩ := ih h h64 hq
      refine ⟨zs', h1, fun y hy => ?_, fun y hy => ?_, h2.waiters, h2.length⟩
      · apply h2.free y
        obtain ⟨hm, k, hk1, hk2⟩ := hy
        refine ⟨?_, k, hk1, hk2⟩
        rcases List.mem_cons.mp hm with e | hm
        · subst e; exfalso; apply hh; simp [hk1, hk2]
        · exact hm
      · apply h2.kept y
        rintro ⟨hm, k, hk1, hk2⟩
        exact hy ⟨by simp [hm], k, hk1, hk2⟩

theorem each_settle (l : List Nat) : ∀ {c : Ctx}, NoWaiters c.st → ∃ fs, Ctx.each settle l c = c.upd (State.zonesTo c.st.za.zones fs) := by
  induction l with
  | nil => intro c _; exact ⟨c.st.za.feeds, rfl⟩
  | cons b bs ih =>
    intro c h
    simp only [Ctx.each]
    rw [settle_of_noWaiters h]
    obtain ⟨fs, hf⟩ := feedLapse_feeds b c
    rw [hf]
    obtain ⟨gs, hg⟩ := ih (c := c.upd fun s => { s with za := { s.za with feeds := fs } }) h
    exact ⟨gs, by rw [hg]; rfl⟩

/-- R70, in quiet surroundings: a claimant that ends releases the zones it holds, and nothing else changes but feeds that lapse. -/
theorem releaseAll_quiet {who : Claimant} {c : Ctx} (h : NoWaiters c.st) (h64 : c.st.za.zones.length = 64)
    (hq : ∀ z h, (c.st.zone z).holder = some h → h.who = who →
      (BareLines c.st ∨ (c.st.zoneRec z).speaks = false) ∧ ((c.st.zoneRec z).sounds = false ∨ h.sound = none)) :
    ∃ zs fs, releaseAll who c = c.upd (State.zonesTo zs fs) ∧ Freed (heldIn (List.range 64) who c.st) c.st (State.zonesTo zs fs c.st) := by
  obtain ⟨zs, h1, h2⟩ := each_dropWaiter who (List.range 64) h
  have k : ∀ y, ((State.zonesTo zs c.st.za.feeds c.st).zone y).holder = (c.st.zone y).holder := fun y => (h2.kept y id).1
  obtain ⟨ys, h3, h4⟩ := each_changeHolder who (List.range 64) (c := c.upd (State.zonesTo zs c.st.za.feeds)) h2.waiters
    (h2.length.trans h64) (by
      intro z x hx hxw
      exact hq z x ((k z).symm.trans hx) hxw)
  obtain ⟨fs, h5⟩ := each_settle (List.range 8) (c := c.upd (State.zonesTo ys c.st.za.feeds)) h4.waiters
  have same : ∀ y, heldIn (List.range 64) who (c.upd (State.zonesTo zs c.st.za.feeds)).st y ↔ heldIn (List.range 64) who c.st y := by
    intro y
    unfold heldIn
    show (_ ∧ ∃ h, ((State.zonesTo zs c.st.za.feeds c.st).zone y).holder = some h ∧ _) ↔ _
    rw [k y]
  refine ⟨ys, fs, ?_, fun y hy => h4.free y ((same y).mpr hy), fun y hy => ?_, h4.waiters, h4.length.trans h2.length⟩
  · unfold releaseAll
    simp only []
    rw [h1, h3]
    exact h5
  · have := h4.kept y (fun e => hy ((same y).mp e))
    exact ⟨this.1.trans (k y), this.2.trans (h2.kept y id).2⟩

end Sys2Proof.Machine
end

