-- ==== Sys2Proof/Laws/Endings.lean ====
section
/-! SUPPORT. The end of an announcement that moves nobody else (R114). -/

namespace Sys2Proof.Machine
open Sys2Proof

theorem ann_num {s : State} {n : Nat} {a : Ann} (h : s.ann? n = some a) : a.num = n := by
  have := List.find?_some h
  simpa using this

theorem setAnn_ann {s : State} {n : Nat} {f : Ann → Ann} {a : Ann} (hf : ∀ x, (f x).num = x.num) (h : s.ann? n = some a) :
    (s.setAnn n f).ann? n = some (f a) := by
  unfold State.ann? State.setAnn at *
  simp only [List.find?_map]
  have : ((fun x => x.num == n) ∘ fun a : Ann => if a.num = n then f a else a) = fun x : Ann => x.num == n := by
    funext x; simp only [Function.comp]; split <;> simp [hf]
  rw [this, h]
  simp [ann_num (s := s) h]

theorem channel_set {s : State} {ch k : Nat} {f : Channel → Channel} (h : ch < s.au.channels.length) :
    (s.setChannel ch f).channel k = if k = ch then f (s.channel ch) else s.channel k := by
  unfold State.channel State.setChannel
  simp only [List.getD_eq_getElem?_getD, List.getElem?_modify]
  by_cases e : ch = k
  · subst e; simp [h]
  · simp [e, show ¬ k = ch from fun x => e x.symm]

theorem filter_setAnn (l : List Ann) (n : Nat) (f : Ann → Ann) (hf : ∀ x, (f x).num = x.num) :
    (l.map fun a => if a.num = n then f a else a).filter (fun e => e.num != n) = l.filter fun e => e.num != n := by
  induction l with
  | nil => rfl
  | cons x xs ih =>
    simp only [List.map_cons]
    by_cases h : x.num = n
    · rw [if_pos h, List.filter_cons_of_neg (by simp [hf, h]), List.filter_cons_of_neg (by simp [h]), ih]
    · rw [if_neg h, List.filter_cons_of_pos (by simp [h]), List.filter_cons_of_pos (by simp [h]), ih]

/-- R114, in quiet surroundings: the announcement's record, zones and channel are given up in its event. -/
theorem annEnd_alone {n ch : Nat} {r : EndReason} {a : Ann} {c : Ctx} (h : EndsAlone n ch a c.st) (ha : c.ans = []) (ht : c.todo = []) :
    AnnGone n ch r c.st (annEnd n r false c).close := by
  obtain ⟨counts, found, ⟨nw, ne⟩, ⟨hch, hlt⟩, noBlock, noW, noCW, bare, noSound⟩ := h
  let g : Ann → Ann := fun x => { x with
    st := .ending
    endReason := some r
    zones := x.zones.map fun z => { z with st := .lost }
    awaiting := none
    discarded := x.discarded + fifoLevel c.st a }
  obtain ⟨zs, fs, hr, hf⟩ := releaseAll_quiet (who := .ann n) (c := c.upd (State.setAnn n g)) noW counts.zones
    (fun z x hx hw => ⟨Or.inl bare, Or.inr (noSound z x hx hw)⟩)
  have hf' : Freed (heldIn (List.range 64) (.ann n) c.st) c.st (State.zonesTo zs fs c.st) := ⟨hf.free, hf.kept, hf.waiters, hf.length⟩
  let c3 : Ctx := ((c.upd (State.setAnn n g)).upd (State.zonesTo zs fs)).upd (freeChannel ch n r)
  have e0 : annEnd n r false c = annClose n (c3.call [.channelOffer ch]) := by
    unfold annEnd
    rw [found]
    simp only []
    cases hs : a.st with
    | ending => exact absurd hs ne
    | waiting => exact absurd hs nw
    | _ => rw [hr, hch]; rfl
  have hfound : (c3.call [.channelOffer ch]).st.ann? n = some (g a) := setAnn_ann (fun _ => rfl) found
  have e1 : annEnd n r false c = annRemove n (c3.call [.channelOffer ch]) := by
    rw [e0]
    unfold annClose
    rw [hfound]
    simp only []
    rw [if_neg (by simp [g])]
    split
    · rename_i hb
      have hb : a.isBlocks = true ∧ a.block.isSome = true ∧ c.st.attached = true := by
        simpa [g, Ann.isBlocks, c3, Ctx.call, Ctx.upd, State.attached, freeChannel, State.zonesTo, and_assoc] using hb
      rcases noBlock with hn | ⟨hc, hx⟩
      · exact absurd ⟨hb.1, hb.2.1, by simpa [State.attached] using hb.2.2⟩ hn
      · simp [g, hc, hx]
    · rfl
  let c4 : Ctx := annRemove n (c3.call [.channelOffer ch])
  have hst : ∃ ri, c4.st = { c3.st with au := { c3.st.au with anns := c3.st.au.anns.filter fun e => e.num != n }, ri := ri } := by
    show ∃ ri, (annRemove n (c3.call [.channelOffer ch])).st = _
    unfold annRemove
    rw [hfound]
    exact ⟨_, rfl⟩
  have h4a : c4.ans = [] := by
    show (annRemove n (c3.call [.channelOffer ch])).ans = _
    unfold annRemove
    rw [hfound]
    exact ha
  have h4t : c4.todo = [.channelOffer ch] := by
    show (annRemove n (c3.call [.channelOffer ch])).todo = _
    unfold annRemove
    rw [hfound]
    show c.todo ++ _ = _
    rw [ht]; rfl
  obtain ⟨ri, hst⟩ := hst
  have hoffer : channelOffer ch { c4 with todo := [] } = { c4 with todo := [] } := by
    unfold channelOffer
    have : ({ c4 with todo := [] } : Ctx).st.au.waitList = [] := by
      show c4.st.au.waitList = []
      rw [hst]; exact noCW
    rw [this]
    simp
  have hclose : (annEnd n r false c).close = c4.st := by
    rw [e1]
    refine close_of_closes (k := 1) (closes_call h4a h4t ?_) (by decide)
    have : doWork (.channelOffer ch) { c4 with todo := [] } = { c4 with todo := [] } := hoffer
    rw [this]
    exact closes_done h4a rfl
  rw [hclose, hst]
  have hlen : ch < (State.zonesTo zs fs (State.setAnn n g c.st)).au.channels.length := by
    show ch < c.st.au.channels.length
    rw [counts.channels]; exact hlt
  constructor
  · show (c.st.au.anns.map fun a => if a.num = n then g a else a).filter _ = _
    exact filter_setAnn _ _ _ fun _ => rfl
  · intro z x hz hx hw
    exact (hf'.free z ⟨by simpa using hz, x, hx, hw⟩).1
  · intro z x hx hw
    have := (hf'.kept z (by
      rintro ⟨_, y, hy, hyw⟩
      rw [hx] at hy; cases hy; exact hw hyw)).1
    exact this.trans hx
  · have := channel_set (k := ch) (f := fun k => Channel.free k.cfg (some ⟨n, r⟩)) hlen
    have e : (State.channel { c3.st with au := { c3.st.au with anns := c3.st.au.anns.filter fun e => e.num != n }, ri := ri } ch)
      = Channel.free (c.st.channel ch).cfg (some ⟨n, r⟩) := by
      show (State.setChannel ch (fun k => Channel.free k.cfg (some ⟨n, r⟩)) (State.zonesTo zs fs (State.setAnn n g c.st))).channel ch = _
      rw [this]; simp; rfl
    rw [e]
    exact ⟨rfl, rfl, rfl⟩
  · intro k hk
    have := channel_set (k := k) (f := fun k => Channel.free k.cfg (some ⟨n, r⟩)) hlen
    show (State.setChannel ch (fun k => Channel.free k.cfg (some ⟨n, r⟩)) (State.zonesTo zs fs (State.setAnn n g c.st))).channel k = _
    rw [this, if_neg hk]; rfl
  · constructor <;> intro _ <;> first | rfl | (exfalso; simp_all)

end Sys2Proof.Machine
end

