-- ==== Sys2Proof/WellFormed.lean ====
section
/-! DEFINITION. The well-formed commands: every operand fits the field or the index that carries it (sections 11.2 to 11.6), and a completion
carries as many bytes as its access reads (log entry 34). A value outside its RANGE is well formed: its rule refuses or clamps it. -/

namespace Sys2Proof

/-- A number fits a field of `n` bytes. -/
def fitsBytes (n v : Nat) : Bool := v < 256 ^ n

/-- R192: the slot is one of the 32. -/
def ReqHdr.wellFormed (q : ReqHdr) : Bool := q.slot < 32

/-- The parameters of SET DST RULE are bytes. -/
def DstParams.wellFormed (p : DstParams) : Bool :=
  [p.none, p.startMonth, p.startWeek, p.startHour, p.endMonth, p.endWeek, p.endHour, p.offset].all (fitsBytes 1)

/-- The parameters of RING fit their fields. -/
def RingParams.wellFormed (p : RingParams) : Bool :=
  [p.targetKind, p.group, p.pattern, p.level, p.defer].all (fitsBytes 1) && fitsBytes 2 p.duration

/-- The parameters of ANNOUNCE fit their fields. -/
def AnnounceParams.wellFormed (p : AnnounceParams) : Bool :=
  [p.targetKind, p.group, p.level, p.source, p.chime, p.onPreempt, p.lateJoin, p.wait].all (fitsBytes 1)
    && fitsBytes 4 p.blockOffset && fitsBytes 2 p.duration && fitsBytes 2 p.resume

/-- A trim is a signed 4-byte number. -/
def trimFits (v : Int) : Bool := -2147483648 ≤ v && v ≤ 2147483647

/-- A staged group's read brings its length byte and as many numbers. -/
def groupBytes : List Byte → Bool
  | [] => false
  | n :: rest => rest.length == n.toNat

/-- An audio sample count: what one millisecond of a live input brings, or nothing. -/
def liveSamples (l : List Sample) : Bool := l.length == 0 || l.length == 16

/-- A node address is 1 to 40 and a unit code a 32-bit number (R166). -/
def ReplyBody.wellFormed : ReplyBody → Bool
  | .poll _ shown => shown.all (· < 86400)
  | .query (.node code) => fitsBytes 2 code
  | .assign _ unit => fitsBytes 4 unit
  | _ => true

/-- The claimants' numbers: 64 bell instances, announcement numbers of a byte, eight drills. -/
def Claimant.wellFormed : Claimant → Bool
  | .bell n => n < 64
  | .ann n => fitsBytes 1 n
  | .drill n => n < 8
  | .fire => true

def CadenceRef.wellFormed : CadenceRef → Bool
  | .bell n z => n < 64 && z < 64
  | .chime n => fitsBytes 1 n
  | .drillZone z => z < 64
  | .drillTone => true

/-- A command is well formed. -/
def Instr.wellFormed : Instr → Bool
  | .run _ | .intEnable _ | .factoryClear | .regionBase _ | .attention _ | .cause _ | .causeEnable _ => true
  | .restart paths | .mainSupplyReturn paths => paths.length == 8
  | .registerWriteOther offset _ => offset % 4 == 0 && offset ≠ 4 && offset ≠ 8 && !(12 ≤ offset && offset ≤ 20)
  | .setTime q day ms => q.wellFormed && fitsBytes 2 day && fitsBytes 4 ms
  | .setTrim q v => q.wellFormed && trimFits v
  | .setReference q mode loss slew => q.wellFormed && fitsBytes 1 mode && fitsBytes 2 loss && fitsBytes 4 slew
  | .setDstRule q p => q.wellFormed && p.wellFormed
  | .loadTableProfiles q count offset | .loadTableCalendar q count offset | .loadTableZones q count offset
  | .loadTableGroups q count offset | .loadTablePatterns q count offset | .loadTableChannels q count offset
  | .loadTableDrills q count offset | .loadTableLines q count offset | .loadTableMembers q count offset =>
    q.wellFormed && fitsBytes 2 count && fitsBytes 4 offset
  | .loadTableCircuits q count offset tolerance =>
    q.wellFormed && fitsBytes 2 count && fitsBytes 4 offset && fitsBytes 1 tolerance
  | .loadTableIo q offset => q.wellFormed && fitsBytes 4 offset
  | .switchSchedule q offset count window choice day =>
    q.wellFormed && fitsBytes 4 offset && fitsBytes 2 count && fitsBytes 2 window && fitsBytes 1 choice && fitsBytes 2 day
  | .setFlags q _ _ => q.wellFormed
  | .setTodayProfile q n | .endAnnouncement q n | .startDrill q n | .enumerateLine q n | .renumberLine q n
  | .clearFaultsLine q n | .clearFaultsCircuit q n => q.wellFormed && fitsBytes 1 n
  | .ring q p => q.wellFormed && p.wellFormed
  | .announce q p => q.wellFormed && p.wellFormed
  | .stopSounding q | .allClear q | .endDrill q | .resumeAfterAlarm q => q.wellFormed
  | .setDial q circuit position polarity => q.wellFormed && fitsBytes 1 circuit && fitsBytes 2 position && fitsBytes 1 polarity
  | .setNode q line addr action => q.wellFormed && fitsBytes 1 line && fitsBytes 1 addr && fitsBytes 1 action
  | .driveOutput q output action duration => q.wellFormed && fitsBytes 1 output && fitsBytes 1 action && fitsBytes 4 duration
  | .readStatusTime q offset | .readStatusZones q offset | .readStatusCircuits q offset | .readStatusChannels q offset
  | .readStatusDrill q offset => q.wellFormed && fitsBytes 4 offset
  | .readStatusLine q line offset => q.wellFormed && fitsBytes 1 line && fitsBytes 4 offset
  | .hostFieldsRead layout mark notify => fitsBytes 4 layout && fitsBytes 4 mark && fitsBytes 4 notify
  | .slotRead data => data.length == 64
  | .readMarkRead mark notify => fitsBytes 4 mark && fitsBytes 4 notify
  | .snapshotWriteDone | .consumedWriteDone | .slotScanSecond | .readMarkPoll | .controlBlockSecond | .timeAdvance
  | .slewStep | .referencePulse | .referenceLost | .lastValidPulseExpiry | .soundingTimeReached
  | .evacuationTargetReached | .mainSupplyLoss | .backupSupplyDrop | .settlingEnd | .settlingTimeout => true
  | .regionAccessBusError offset => offset < 0x100000
  | .profileRecordRead data => data.length == 4
  | .calendarSpanRead data => data.length == 6
  | .zoneRecordRead data => data.length == 4
  | .groupRecordRead data => groupBytes data
  | .patternRecordRead data => data.length == 70
  | .channelRecordRead data => data.length == 6
  | .drillRecordRead data => data.length == 8
  | .circuitRecordRead data => data.length == 8
  | .lineRecordRead data paths => data.length == 8 && paths.length == 8
  | .memberEntryRead data => data.length == 12
  | .ioRecordRead data => data.length == 4 || data.length == 6 || data.length == 1
  | .scheduleEntryRead data => data.length == 20
  | .headerRead data | .headerReread data => data.length == 16
  | .fetchComplete samples => 1 ≤ samples.length && samples.length ≤ 2048
  | .waitLimitExpiry zone who => zone < 64 && who.wellFormed
  | .cadenceStep c => c.wellFormed
  | .bellCadenceEnd bell zone => bell < 64 && zone < 64
  | .chimeEnd n | .routingTimer n | .maxDurationReached n | .waitingMaxDuration n | .resumeDeadline n
  | .awaitingRereadTimer n | .noTalk n | .liveTailEnd n => fitsBytes 1 n
  | .drillZoneCadenceEnd zone | .allClearCadenceEnd zone => zone < 64
  | .samplesPlayed channel live => channel < 4 && liveSamples live
  | .starveLimit channel => channel < 4
  | .pulseStart circuit => circuit < 4
  | .pulseComplete circuit _ => circuit < 4
  | .frameSent line => line < 8
  | .replyReceived line reply => line < 8 && reply.body.wellFormed
  | .attemptTimeout line _ => line < 8
  | .busyHoldEnd line addr => line < 8 && 1 ≤ addr && addr ≤ 40
  | .supervisionCycleStart line _ => line < 8
  | .plainDriveRelease output => output < 12
  | .inputReadingChange input _ | .debouncedValueChange input => input < 12

end Sys2Proof
end

