-- ==== Sys2Proof/Laws/PerInstr.lean ====
section
/-! SUPPORT. Made per command: a well-formed request names one of the 32 slots (R192). -/

namespace Sys2Proof.Laws.SlotInRange
open Sys2Proof Sys2Proof.Machine

/-- R192: the slot of a well-formed request is one of the 32. A command that is no request names none. -/
def Statement (i : Instr) : Prop := i.wellFormed = true → ∀ q, reqHdr? i = some q → q.slot < 32

/-- The check of a header, alone or before the checks of the request's parameters. -/
theorem slot_of {q : ReqHdr} (h : q.wellFormed = true) : q.slot < 32 := of_decide_eq_true h

theorem slot_of_and {q : ReqHdr} {b : Bool} (h : (q.wellFormed && b) = true) : q.slot < 32 :=
  slot_of (Bool.and_eq_true_iff.mp h).1

theorem run (v : Bool) : Statement (.run v) := fun _ _ e => nomatch e
theorem intEnable (v : Bool) : Statement (.intEnable v) := fun _ _ e => nomatch e
theorem restart (paths : List PathPair) : Statement (.restart paths) := fun _ _ e => nomatch e
theorem factoryClear : Statement .factoryClear := fun _ _ e => nomatch e
theorem regionBase (w : Word) : Statement (.regionBase w) := fun _ _ e => nomatch e
theorem attention (w : Word) : Statement (.attention w) := fun _ _ e => nomatch e
theorem cause (w : Word) : Statement (.cause w) := fun _ _ e => nomatch e
theorem causeEnable (w : Word) : Statement (.causeEnable w) := fun _ _ e => nomatch e
theorem registerWriteOther (offset : Nat) (w : Word) : Statement (.registerWriteOther offset w) := fun _ _ e => nomatch e
theorem setTime (q : ReqHdr) (day ms : Nat) : Statement (.setTime q day ms) := fun h _ e => Option.some.inj e ▸ slot_of_and (Bool.and_eq_true_iff.mp h).1
theorem setTrim (q : ReqHdr) (trim : Int) : Statement (.setTrim q trim) := fun h _ e => Option.some.inj e ▸ slot_of_and h
theorem setReference (q : ReqHdr) (mode loss slew : Nat) : Statement (.setReference q mode loss slew) := fun h _ e => Option.some.inj e ▸ slot_of_and (Bool.and_eq_true_iff.mp (Bool.and_eq_true_iff.mp h).1).1
theorem setDstRule (q : ReqHdr) (p : DstParams) : Statement (.setDstRule q p) := fun h _ e => Option.some.inj e ▸ slot_of_and h
theorem loadTableProfiles (q : ReqHdr) (count offset : Nat) : Statement (.loadTableProfiles q count offset) := fun h _ e => Option.some.inj e ▸ slot_of_and (Bool.and_eq_true_iff.mp h).1
theorem loadTableCalendar (q : ReqHdr) (count offset : Nat) : Statement (.loadTableCalendar q count offset) := fun h _ e => Option.some.inj e ▸ slot_of_and (Bool.and_eq_true_iff.mp h).1
theorem loadTableZones (q : ReqHdr) (count offset : Nat) : Statement (.loadTableZones q count offset) := fun h _ e => Option.some.inj e ▸ slot_of_and (Bool.and_eq_true_iff.mp h).1
theorem loadTableGroups (q : ReqHdr) (count offset : Nat) : Statement (.loadTableGroups q count offset) := fun h _ e => Option.some.inj e ▸ slot_of_and (Bool.and_eq_true_iff.mp h).1
theorem loadTablePatterns (q : ReqHdr) (count offset : Nat) : Statement (.loadTablePatterns q count offset) := fun h _ e => Option.some.inj e ▸ slot_of_and (Bool.and_eq_true_iff.mp h).1
theorem loadTableChannels (q : ReqHdr) (count offset : Nat) : Statement (.loadTableChannels q count offset) := fun h _ e => Option.some.inj e ▸ slot_of_and (Bool.and_eq_true_iff.mp h).1
theorem loadTableDrills (q : ReqHdr) (count offset : Nat) : Statement (.loadTableDrills q count offset) := fun h _ e => Option.some.inj e ▸ slot_of_and (Bool.and_eq_true_iff.mp h).1
theorem loadTableCircuits (q : ReqHdr) (count offset tolerance : Nat) : Statement (.loadTableCircuits q count offset tolerance) := fun h _ e => Option.some.inj e ▸ slot_of_and (Bool.and_eq_true_iff.mp (Bool.and_eq_true_iff.mp h).1).1
theorem loadTableLines (q : ReqHdr) (count offset : Nat) : Statement (.loadTableLines q count offset) := fun h _ e => Option.some.inj e ▸ slot_of_and (Bool.and_eq_true_iff.mp h).1
theorem loadTableMembers (q : ReqHdr) (count offset : Nat) : Statement (.loadTableMembers q count offset) := fun h _ e => Option.some.inj e ▸ slot_of_and (Bool.and_eq_true_iff.mp h).1
theorem loadTableIo (q : ReqHdr) (offset : Nat) : Statement (.loadTableIo q offset) := fun h _ e => Option.some.inj e ▸ slot_of_and h
theorem switchSchedule (q : ReqHdr) (offset count window choice day : Nat) : Statement (.switchSchedule q offset count window choice day) := fun h _ e => Option.some.inj e ▸ slot_of_and (Bool.and_eq_true_iff.mp (Bool.and_eq_true_iff.mp (Bool.and_eq_true_iff.mp (Bool.and_eq_true_iff.mp h).1).1).1).1
theorem setFlags (q : ReqHdr) (m1 m2 : Set8) : Statement (.setFlags q m1 m2) := fun h _ e => Option.some.inj e ▸ slot_of h
theorem setTodayProfile (q : ReqHdr) (profile : Nat) : Statement (.setTodayProfile q profile) := fun h _ e => Option.some.inj e ▸ slot_of_and h
theorem ring (q : ReqHdr) (p : RingParams) : Statement (.ring q p) := fun h _ e => Option.some.inj e ▸ slot_of_and h
theorem announce (q : ReqHdr) (p : AnnounceParams) : Statement (.announce q p) := fun h _ e => Option.some.inj e ▸ slot_of_and h
theorem endAnnouncement (q : ReqHdr) (number : Nat) : Statement (.endAnnouncement q number) := fun h _ e => Option.some.inj e ▸ slot_of_and h
theorem startDrill (q : ReqHdr) (drill : Nat) : Statement (.startDrill q drill) := fun h _ e => Option.some.inj e ▸ slot_of_and h
theorem stopSounding (q : ReqHdr) : Statement (.stopSounding q) := fun h _ e => Option.some.inj e ▸ slot_of h
theorem allClear (q : ReqHdr) : Statement (.allClear q) := fun h _ e => Option.some.inj e ▸ slot_of h
theorem endDrill (q : ReqHdr) : Statement (.endDrill q) := fun h _ e => Option.some.inj e ▸ slot_of h
theorem resumeAfterAlarm (q : ReqHdr) : Statement (.resumeAfterAlarm q) := fun h _ e => Option.some.inj e ▸ slot_of h
theorem setDial (q : ReqHdr) (circuit position polarity : Nat) : Statement (.setDial q circuit position polarity) := fun h _ e => Option.some.inj e ▸ slot_of_and (Bool.and_eq_true_iff.mp (Bool.and_eq_true_iff.mp h).1).1
theorem enumerateLine (q : ReqHdr) (line : Nat) : Statement (.enumerateLine q line) := fun h _ e => Option.some.inj e ▸ slot_of_and h
theorem renumberLine (q : ReqHdr) (line : Nat) : Statement (.renumberLine q line) := fun h _ e => Option.some.inj e ▸ slot_of_and h
theorem setNode (q : ReqHdr) (line addr action : Nat) : Statement (.setNode q line addr action) := fun h _ e => Option.some.inj e ▸ slot_of_and (Bool.and_eq_true_iff.mp (Bool.and_eq_true_iff.mp h).1).1
theorem clearFaultsLine (q : ReqHdr) (line : Nat) : Statement (.clearFaultsLine q line) := fun h _ e => Option.some.inj e ▸ slot_of_and h
theorem clearFaultsCircuit (q : ReqHdr) (circuit : Nat) : Statement (.clearFaultsCircuit q circuit) := fun h _ e => Option.some.inj e ▸ slot_of_and h
theorem driveOutput (q : ReqHdr) (output action duration : Nat) : Statement (.driveOutput q output action duration) := fun h _ e => Option.some.inj e ▸ slot_of_and (Bool.and_eq_true_iff.mp (Bool.and_eq_true_iff.mp h).1).1
theorem readStatusTime (q : ReqHdr) (offset : Nat) : Statement (.readStatusTime q offset) := fun h _ e => Option.some.inj e ▸ slot_of_and h
theorem readStatusZones (q : ReqHdr) (offset : Nat) : Statement (.readStatusZones q offset) := fun h _ e => Option.some.inj e ▸ slot_of_and h
theorem readStatusLine (q : ReqHdr) (line offset : Nat) : Statement (.readStatusLine q line offset) := fun h _ e => Option.some.inj e ▸ slot_of_and (Bool.and_eq_true_iff.mp h).1
theorem readStatusCircuits (q : ReqHdr) (offset : Nat) : Statement (.readStatusCircuits q offset) := fun h _ e => Option.some.inj e ▸ slot_of_and h
theorem readStatusChannels (q : ReqHdr) (offset : Nat) : Statement (.readStatusChannels q offset) := fun h _ e => Option.some.inj e ▸ slot_of_and h
theorem readStatusDrill (q : ReqHdr) (offset : Nat) : Statement (.readStatusDrill q offset) := fun h _ e => Option.some.inj e ▸ slot_of_and h
theorem hostFieldsRead (layout mark notify : Nat) : Statement (.hostFieldsRead layout mark notify) := fun _ _ e => nomatch e
theorem slotRead (data : List Byte) : Statement (.slotRead data) := fun _ _ e => nomatch e
theorem readMarkRead (mark notify : Nat) : Statement (.readMarkRead mark notify) := fun _ _ e => nomatch e
theorem snapshotWriteDone : Statement .snapshotWriteDone := fun _ _ e => nomatch e
theorem regionAccessBusError (offset : Nat) : Statement (.regionAccessBusError offset) := fun _ _ e => nomatch e
theorem profileRecordRead (data : List Byte) : Statement (.profileRecordRead data) := fun _ _ e => nomatch e
theorem calendarSpanRead (data : List Byte) : Statement (.calendarSpanRead data) := fun _ _ e => nomatch e
theorem zoneRecordRead (data : List Byte) : Statement (.zoneRecordRead data) := fun _ _ e => nomatch e
theorem groupRecordRead (data : List Byte) : Statement (.groupRecordRead data) := fun _ _ e => nomatch e
theorem patternRecordRead (data : List Byte) : Statement (.patternRecordRead data) := fun _ _ e => nomatch e
theorem channelRecordRead (data : List Byte) : Statement (.channelRecordRead data) := fun _ _ e => nomatch e
theorem drillRecordRead (data : List Byte) : Statement (.drillRecordRead data) := fun _ _ e => nomatch e
theorem circuitRecordRead (data : List Byte) : Statement (.circuitRecordRead data) := fun _ _ e => nomatch e
theorem lineRecordRead (data : List Byte) (paths : List PathPair) : Statement (.lineRecordRead data paths) := fun _ _ e => nomatch e
theorem memberEntryRead (data : List Byte) : Statement (.memberEntryRead data) := fun _ _ e => nomatch e
theorem ioRecordRead (data : List Byte) : Statement (.ioRecordRead data) := fun _ _ e => nomatch e
theorem scheduleEntryRead (data : List Byte) : Statement (.scheduleEntryRead data) := fun _ _ e => nomatch e
theorem headerRead (data : List Byte) : Statement (.headerRead data) := fun _ _ e => nomatch e
theorem headerReread (data : List Byte) : Statement (.headerReread data) := fun _ _ e => nomatch e
theorem fetchComplete (samples : List Sample) : Statement (.fetchComplete samples) := fun _ _ e => nomatch e
theorem consumedWriteDone : Statement .consumedWriteDone := fun _ _ e => nomatch e
theorem slotScanSecond : Statement .slotScanSecond := fun _ _ e => nomatch e
theorem readMarkPoll : Statement .readMarkPoll := fun _ _ e => nomatch e
theorem controlBlockSecond : Statement .controlBlockSecond := fun _ _ e => nomatch e
theorem timeAdvance : Statement .timeAdvance := fun _ _ e => nomatch e
theorem slewStep : Statement .slewStep := fun _ _ e => nomatch e
theorem referencePulse : Statement .referencePulse := fun _ _ e => nomatch e
theorem referenceLost : Statement .referenceLost := fun _ _ e => nomatch e
theorem lastValidPulseExpiry : Statement .lastValidPulseExpiry := fun _ _ e => nomatch e
theorem waitLimitExpiry (zone : Nat) (who : Claimant) : Statement (.waitLimitExpiry zone who) := fun _ _ e => nomatch e
theorem cadenceStep (c : CadenceRef) : Statement (.cadenceStep c) := fun _ _ e => nomatch e
theorem bellCadenceEnd (bell zone : Nat) : Statement (.bellCadenceEnd bell zone) := fun _ _ e => nomatch e
theorem chimeEnd (ann : Nat) : Statement (.chimeEnd ann) := fun _ _ e => nomatch e
theorem drillZoneCadenceEnd (zone : Nat) : Statement (.drillZoneCadenceEnd zone) := fun _ _ e => nomatch e
theorem allClearCadenceEnd (zone : Nat) : Statement (.allClearCadenceEnd zone) := fun _ _ e => nomatch e
theorem routingTimer (ann : Nat) : Statement (.routingTimer ann) := fun _ _ e => nomatch e
theorem maxDurationReached (ann : Nat) : Statement (.maxDurationReached ann) := fun _ _ e => nomatch e
theorem waitingMaxDuration (ann : Nat) : Statement (.waitingMaxDuration ann) := fun _ _ e => nomatch e
theorem resumeDeadline (ann : Nat) : Statement (.resumeDeadline ann) := fun _ _ e => nomatch e
theorem awaitingRereadTimer (ann : Nat) : Statement (.awaitingRereadTimer ann) := fun _ _ e => nomatch e
theorem samplesPlayed (channel : Nat) (live : List Sample) : Statement (.samplesPlayed channel live) := fun _ _ e => nomatch e
theorem starveLimit (channel : Nat) : Statement (.starveLimit channel) := fun _ _ e => nomatch e
theorem noTalk (ann : Nat) : Statement (.noTalk ann) := fun _ _ e => nomatch e
theorem liveTailEnd (ann : Nat) : Statement (.liveTailEnd ann) := fun _ _ e => nomatch e
theorem soundingTimeReached : Statement .soundingTimeReached := fun _ _ e => nomatch e
theorem evacuationTargetReached : Statement .evacuationTargetReached := fun _ _ e => nomatch e
theorem pulseStart (circuit : Nat) : Statement (.pulseStart circuit) := fun _ _ e => nomatch e
theorem pulseComplete (circuit : Nat) (current : Bool) : Statement (.pulseComplete circuit current) := fun _ _ e => nomatch e
theorem frameSent (line : Nat) : Statement (.frameSent line) := fun _ _ e => nomatch e
theorem replyReceived (line : Nat) (reply : Reply) : Statement (.replyReceived line reply) := fun _ _ e => nomatch e
theorem attemptTimeout (line : Nat) (reading : PathCond) : Statement (.attemptTimeout line reading) := fun _ _ e => nomatch e
theorem busyHoldEnd (line addr : Nat) : Statement (.busyHoldEnd line addr) := fun _ _ e => nomatch e
theorem supervisionCycleStart (line : Nat) (readings : PathPair) : Statement (.supervisionCycleStart line readings) := fun _ _ e => nomatch e
theorem plainDriveRelease (output : Nat) : Statement (.plainDriveRelease output) := fun _ _ e => nomatch e
theorem inputReadingChange (input : Nat) (reading : Reading) : Statement (.inputReadingChange input reading) := fun _ _ e => nomatch e
theorem debouncedValueChange (input : Nat) : Statement (.debouncedValueChange input) := fun _ _ e => nomatch e
theorem mainSupplyLoss : Statement .mainSupplyLoss := fun _ _ e => nomatch e
theorem backupSupplyDrop : Statement .backupSupplyDrop := fun _ _ e => nomatch e
theorem mainSupplyReturn (paths : List PathPair) : Statement (.mainSupplyReturn paths) := fun _ _ e => nomatch e
theorem settlingEnd : Statement .settlingEnd := fun _ _ e => nomatch e
theorem settlingTimeout : Statement .settlingTimeout := fun _ _ e => nomatch e

end Sys2Proof.Laws.SlotInRange
end

