-- ==== Sys2Proof/Laws/Records.lean ====
section
/-! SUPPORT. What the updates of one record do: an input's reading, a line's configuration, an access that a link left in flight, an ASSIGN whose
enumeration has gone. -/

namespace Sys2Proof.Machine
open Sys2Proof

/-! ### An input takes a reading, and its holds age (R178, R180, R185) -/

@[simp] theorem Input.take_func (r : Reading) (now : Nat) (i : Input) : (i.take r now).func = i.func := rfl
@[simp] theorem Input.take_debounce (r : Reading) (now : Nat) (i : Input) : (i.take r now).debounce = i.debounce := rfl
@[simp] theorem Input.take_value (r : Reading) (now : Nat) (i : Input) : (i.take r now).value = i.value := rfl
@[simp] theorem Input.take_reading (r : Reading) (now : Nat) (i : Input) : (i.take r now).reading = r := rfl
@[simp] theorem Input.take_exact (r : Reading) (now : Nat) (i : Input) : (i.take r now).exact = ⟨now, i.debounce⟩ := rfl

/-- A hold of the counted value goes on while both readings count as one value, and begins anew else. -/
theorem Input.take_counted (r : Reading) (now : Nat) (i : Input) :
    (i.take r now).counted = if Reading.counted i.reading = Reading.counted r then i.counted else ⟨now, i.debounce⟩ := rfl

@[simp] theorem Input.aged_func (n : Nat) (i : Input) : (i.aged n).func = i.func := rfl
@[simp] theorem Input.aged_debounce (n : Nat) (i : Input) : (i.aged n).debounce = i.debounce := rfl
@[simp] theorem Input.aged_value (n : Nat) (i : Input) : (i.aged n).value = i.value := rfl
@[simp] theorem Input.aged_reading (n : Nat) (i : Input) : (i.aged n).reading = i.reading := rfl

/-- A hold is over at a moment exactly if its aged form is over that much earlier. -/
theorem Hold.aged_over (n now : Nat) (h : Hold) : (h.aged n).over now = h.over (now + n) := by
  unfold Hold.over Hold.aged
  simp only [decide_eq_decide]
  omega

/-! ### A line takes a configuration (R154, R167) -/

@[simp] theorem Line.configured_cfg (new : LineCfg) (l : Line) : (l.configured new).cfg = new := rfl
@[simp] theorem Line.configured_pathA (new : LineCfg) (l : Line) : (l.configured new).pathA = l.pathA := rfl
@[simp] theorem Line.configured_pathB (new : LineCfg) (l : Line) : (l.configured new).pathB = l.pathB := rfl
@[simp] theorem Line.configured_queue (new : LineCfg) (l : Line) : (l.configured new).queue = l.queue := rfl
@[simp] theorem Line.configured_inFlight (new : LineCfg) (l : Line) : (l.configured new).inFlight = l.inFlight := rfl
@[simp] theorem Line.configured_deferred (new : LineCfg) (l : Line) : (l.configured new).deferred = l.deferred := rfl
@[simp] theorem Line.configured_cycle (new : LineCfg) (l : Line) : (l.configured new).cycle = l.cycle := rfl
@[simp] theorem Line.configured_enumeration (new : LineCfg) (l : Line) : (l.configured new).enumeration = l.enumeration := rfl
@[simp] theorem Line.configured_summary (new : LineCfg) (l : Line) : (l.configured new).summary = l.summary := rfl

/-- A FAULTED node's fail count stays within the new threshold, whether the line is in operation or OFF. -/
theorem Line.configured_faulted (new : LineCfg) (l : Line) {n : Node} (h : n ∈ (l.configured new).nodes) (hf : n.st = .faulted) :
    n.fails ≤ new.threshold := by
  obtain ⟨m, -, rfl⟩ := List.mem_map.mp h
  by_cases hc : (m.st = .faulted || !(l.cfg.enabled && new.enabled)) = true
  · rw [if_pos hc]
    exact Nat.min_le_right _ _
  · rw [if_neg hc] at hf
    simp [hf] at hc

/-! ### What a link leaves in flight (R189) -/

/-- At most the first access is left, and its result is discarded. -/
theorem leftInFlight_length (as : List Access) : (leftInFlight as).length ≤ 1 := by
  unfold leftInFlight
  split <;> simp

theorem leftInFlight_discarded (as : List Access) {a : Access} (h : a ∈ leftInFlight as) : ∃ b, a = .discarded b := by
  unfold leftInFlight at h
  split at h <;> simp at h <;> exact ⟨_, h⟩

/-- What is left stays as it is when the link goes down again. -/
@[simp] theorem leftInFlight_twice (as : List Access) : leftInFlight (leftInFlight as) = leftInFlight as := by
  rcases as with _ | ⟨a, rest⟩
  · rfl
  · cases a <;> rfl

/-- An access that lands changes the region alone. -/
theorem landed_region (a : Access) (s : State) : landed a s = { s with ri := { s.ri with region := (landed a s).ri.region } } := by
  unfold landed
  split <;> rfl

/-- Of the accesses only the two that write put bytes into the region. -/
theorem landed_read (a : Access) (s : State) (hc : ∀ n off, a ≠ .consumed n off) (hs : ∀ q off seq ws, a ≠ .snapshot q off seq ws) : landed a s = s := by
  unfold landed
  split
  · exact absurd rfl (hc _ _)
  · exact absurd rfl (hs _ _ _ _)
  · rfl

/-! ### The enumeration that offered a transaction (R174, R175) -/

/-- A line owns a transaction exactly if its enumeration is in the phase that offers such, and has begun no later than the transaction was made. -/
theorem Line.owns_iff (l : Line) (t : Tx) :
    l.owns t = true ↔ ∃ e, l.enumeration = some e ∧ e.phase = t.kind.phase ∧ e.began ≤ t.event := by
  simp [Line.owns, Enumeration.owns, Option.any_eq_true]

/-- An ASSIGN that the line's enumeration did not offer changes nothing. -/
theorem assignAnswered_not_owned {ln a : Nat} {t : Tx} {o : TxOutcome} {body : Option ReplyBody} {c : Ctx}
    (h : (c.st.line ln).owns t = false) : assignAnswered ln a t o body c = c := by
  simp [assignAnswered, h]

end Sys2Proof.Machine
end

