-- ==== Sys2Proof/Laws/TurnLines.lean ====
section
/-! SUPPORT. The operations of the Line Controllers are turns (`Laws.Sound`): they leave the time base, the supply, the zone table and the
host's part of the region alone, and keep the standing conditions. -/

namespace Sys2Proof.Machine
open Sys2Proof

set_option linter.unusedTactic false
set_option linter.unreachableTactic false

theorem upd_setLine_cturn {c0 c : Ctx} (h : CTurn c0 c) {n : Nat} {f : Line → Line} : CTurn c0 (c.upd (State.setLine n f)) :=
  upd_cturn h (setLine_turn _ _ _)
theorem upd_setNode_cturn {c0 c : Ctx} (h : CTurn c0 c) {l a : Nat} {f : Node → Node} : CTurn c0 (c.upd (State.setNode l a f)) :=
  upd_cturn h (setNode_turn _ _ _ _)
theorem upd_setAnn_cturn {c0 c : Ctx} (h : CTurn c0 c) {n : Nat} {f : Ann → Ann} : CTurn c0 (c.upd (State.setAnn n f)) :=
  upd_cturn h (setAnn_turn _ _ _)
theorem upd_setChannel_cturn {c0 c : Ctx} (h : CTurn c0 c) {n : Nat} {f : Channel → Channel} :
    CTurn c0 (c.upd (State.setChannel n f)) := upd_cturn h (setChannel_turn _ _ _)
theorem upd_setDrill_cturn {c0 c : Ctx} (h : CTurn c0 c) {f : ActiveDrill → ActiveDrill} :
    CTurn c0 (c.upd (State.setDrill f)) := upd_cturn h (setDrill_turn _ _)
theorem upd_setBell_cturn {c0 c : Ctx} (h : CTurn c0 c) {n : Nat} {f : Bell → Bell} : CTurn c0 (c.upd (State.setBell n f)) :=
  upd_cturn h (setBell_turn _ _ _)
theorem upd_setCircuit_cturn {c0 c : Ctx} (h : CTurn c0 c) {n : Nat} {f : Circuit → Circuit} :
    CTurn c0 (c.upd (State.setCircuit n f)) := upd_cturn h (setCircuit_turn _ _ _)
theorem upd_trouble_cturn {c0 c : Ctx} (h : CTurn c0 c) : CTurn c0 (c.upd State.updateTrouble) :=
  upd_cturn h (updateTrouble_turn _)
theorem upd_ask_cturn {c0 c : Ctx} (h : CTurn c0 c) {a : Access} : CTurn c0 (c.upd (State.ask a)) := upd_cturn h (ask_turn _ _)

/-- Selection changes one line (R162). -/
theorem selectTx_turn (ln : Nat) (s : State) : Turn s (selectTx ln s) := by
  unfold selectTx
  dsimp only
  split
  · exact setLine_turn _ _ _
  · exact Turn.refl _
theorem upd_selectTx_cturn {c0 c : Ctx} (h : CTurn c0 c) {ln : Nat} : CTurn c0 (c.upd (selectTx ln)) :=
  upd_cturn h (selectTx_turn _ _)

theorem joinTx_cturn {c0 c : Ctx} (h : CTurn c0 c) {ln : Nat} {t : Tx} : CTurn c0 (joinTx ln t c) := by
  unfold joinTx
  try dsimp only
  repeat' first
    | with_reducible assumption
    | with_reducible apply say_cturn
    | with_reducible apply record_cturn
    | with_reducible apply upd_setLine_cturn
    | with_reducible apply upd_setNode_cturn
    | with_reducible apply upd_setAnn_cturn
    | with_reducible apply upd_setChannel_cturn
    | with_reducible apply upd_setDrill_cturn
    | with_reducible apply upd_setBell_cturn
    | with_reducible apply upd_setCircuit_cturn
    | with_reducible apply upd_trouble_cturn
    | with_reducible apply call_cturn
    | (with_reducible apply each_cturn; intro _ _ _ _; try dsimp only)
    | with_reducible apply upd_cturn
    | split
    | with_reducible apply Turn.refl
    | (with_reducible apply Turn.of_blocks <;> first | rfl | exact id | simp)
    | (intro _ _ hm; simp at hm; done)

theorem settleLine_cturn {ln n : Nat} {c0 c : Ctx} (h : CTurn c0 c) : CTurn c0 (settleLine ln n c) := by
  induction n generalizing c with
  | zero => exact h
  | succ n ih =>
    have hs : CTurn c0 (if c.closing = some ln then c else c.upd (selectTx ln)) := by
      split
      · exact h
      · exact upd_selectTx_cturn h
    revert hs
    unfold settleLine
    dsimp only
    generalize (if c.closing = some ln then c else c.upd (selectTx ln)) = d
    intro hs
    repeat' first
      | with_reducible assumption
      | with_reducible apply ih
      | with_reducible apply joinTx_cturn
      | with_reducible apply upd_setLine_cturn
      | split

theorem offerTx_cturn {c0 c : Ctx} (h : CTurn c0 c) {ln : Nat} {t : Tx} : CTurn c0 (offerTx ln t c) := by
  unfold offerTx
  try dsimp only
  repeat' first
    | with_reducible assumption
    | with_reducible apply say_cturn
    | with_reducible apply record_cturn
    | with_reducible apply upd_setLine_cturn
    | with_reducible apply upd_setNode_cturn
    | with_reducible apply upd_setAnn_cturn
    | with_reducible apply upd_setChannel_cturn
    | with_reducible apply upd_setDrill_cturn
    | with_reducible apply upd_setBell_cturn
    | with_reducible apply upd_setCircuit_cturn
    | with_reducible apply upd_trouble_cturn
    | with_reducible apply joinTx_cturn
    | with_reducible apply settleLine_cturn
    | with_reducible apply call_cturn
    | (with_reducible apply each_cturn; intro _ _ _ _; try dsimp only)
    | with_reducible apply upd_cturn
    | split
    | with_reducible apply Turn.refl
    | (with_reducible apply Turn.of_blocks <;> first | rfl | exact id | simp)
    | (intro _ _ hm; simp at hm; done)

theorem offerService_cturn {c0 c : Ctx} (h : CTurn c0 c) {ln : Nat} {d : Deferred} : CTurn c0 (offerService ln d c) := by
  unfold offerService
  try dsimp only
  repeat' first
    | with_reducible assumption
    | with_reducible apply say_cturn
    | with_reducible apply record_cturn
    | with_reducible apply upd_setLine_cturn
    | with_reducible apply upd_setNode_cturn
    | with_reducible apply upd_setAnn_cturn
    | with_reducible apply upd_setChannel_cturn
    | with_reducible apply upd_setDrill_cturn
    | with_reducible apply upd_setBell_cturn
    | with_reducible apply upd_setCircuit_cturn
    | with_reducible apply upd_trouble_cturn
    | with_reducible apply offerTx_cturn
    | with_reducible apply call_cturn
    | (with_reducible apply each_cturn; intro _ _ _ _; try dsimp only)
    | with_reducible apply upd_cturn
    | split
    | with_reducible apply Turn.refl
    | (with_reducible apply Turn.of_blocks <;> first | rfl | exact id | simp)
    | (intro _ _ hm; simp at hm; done)

theorem offerConfigure_cturn {c0 c : Ctx} (h : CTurn c0 c) {ln a : Nat} : CTurn c0 (offerConfigure ln a c) := by
  unfold offerConfigure
  try dsimp only
  repeat' first
    | with_reducible assumption
    | with_reducible apply say_cturn
    | with_reducible apply record_cturn
    | with_reducible apply upd_setLine_cturn
    | with_reducible apply upd_setNode_cturn
    | with_reducible apply upd_setAnn_cturn
    | with_reducible apply upd_setChannel_cturn
    | with_reducible apply upd_setDrill_cturn
    | with_reducible apply upd_setBell_cturn
    | with_reducible apply upd_setCircuit_cturn
    | with_reducible apply upd_trouble_cturn
    | with_reducible apply offerService_cturn
    | with_reducible apply call_cturn
    | (with_reducible apply each_cturn; intro _ _ _ _; try dsimp only)
    | with_reducible apply upd_cturn
    | split
    | with_reducible apply Turn.refl
    | (with_reducible apply Turn.of_blocks <;> first | rfl | exact id | simp)
    | (intro _ _ hm; simp at hm; done)

theorem offerQuery_cturn {c0 c : Ctx} (h : CTurn c0 c) {ln a : Nat} {key : Bool} : CTurn c0 (offerQuery ln a key c) := by
  unfold offerQuery
  try dsimp only
  repeat' first
    | with_reducible assumption
    | with_reducible apply say_cturn
    | with_reducible apply record_cturn
    | with_reducible apply upd_setLine_cturn
    | with_reducible apply upd_setNode_cturn
    | with_reducible apply upd_setAnn_cturn
    | with_reducible apply upd_setChannel_cturn
    | with_reducible apply upd_setDrill_cturn
    | with_reducible apply upd_setBell_cturn
    | with_reducible apply upd_setCircuit_cturn
    | with_reducible apply upd_trouble_cturn
    | with_reducible apply offerTx_cturn
    | with_reducible apply offerService_cturn
    | with_reducible apply call_cturn
    | (with_reducible apply each_cturn; intro _ _ _ _; try dsimp only)
    | with_reducible apply upd_cturn
    | split
    | with_reducible apply Turn.refl
    | (with_reducible apply Turn.of_blocks <;> first | rfl | exact id | simp)
    | (intro _ _ hm; simp at hm; done)

theorem takeOut_cturn {c0 c : Ctx} (h : CTurn c0 c) {ln : Nat} {p : Tx → Bool} {answer : Tx → Ans} : CTurn c0 (takeOut ln p answer c) := by
  unfold takeOut
  try dsimp only
  repeat' first
    | with_reducible assumption
    | with_reducible apply say_cturn
    | with_reducible apply record_cturn
    | with_reducible apply upd_setLine_cturn
    | with_reducible apply upd_setNode_cturn
    | with_reducible apply upd_setAnn_cturn
    | with_reducible apply upd_setChannel_cturn
    | with_reducible apply upd_setDrill_cturn
    | with_reducible apply upd_setBell_cturn
    | with_reducible apply upd_setCircuit_cturn
    | with_reducible apply upd_trouble_cturn
    | with_reducible apply settleLine_cturn
    | with_reducible apply call_cturn
    | (with_reducible apply each_cturn; intro _ _ _ _; try dsimp only)
    | with_reducible apply upd_cturn
    | split
    | with_reducible apply Turn.refl
    | (with_reducible apply Turn.of_blocks <;> first | rfl | exact id | simp)
    | (intro _ _ hm; simp at hm; done)

theorem withdraw_cturn {c0 c : Ctx} (h : CTurn c0 c) {ln : Nat} {p : Tx → Bool} : CTurn c0 (withdraw ln p c) := by
  unfold withdraw
  try dsimp only
  repeat' first
    | with_reducible assumption
    | with_reducible apply say_cturn
    | with_reducible apply record_cturn
    | with_reducible apply upd_setLine_cturn
    | with_reducible apply upd_setNode_cturn
    | with_reducible apply upd_setAnn_cturn
    | with_reducible apply upd_setChannel_cturn
    | with_reducible apply upd_setDrill_cturn
    | with_reducible apply upd_setBell_cturn
    | with_reducible apply upd_setCircuit_cturn
    | with_reducible apply upd_trouble_cturn
    | with_reducible apply takeOut_cturn
    | with_reducible apply call_cturn
    | (with_reducible apply each_cturn; intro _ _ _ _; try dsimp only)
    | with_reducible apply upd_cturn
    | split
    | with_reducible apply Turn.refl
    | (with_reducible apply Turn.of_blocks <;> first | rfl | exact id | simp)
    | (intro _ _ hm; simp at hm; done)

theorem beginRefresh_cturn {c0 c : Ctx} (h : CTurn c0 c) {ln a : Nat} : CTurn c0 (beginRefresh ln a c) := by
  unfold beginRefresh
  try dsimp only
  repeat' first
    | with_reducible assumption
    | with_reducible apply say_cturn
    | with_reducible apply record_cturn
    | with_reducible apply upd_setLine_cturn
    | with_reducible apply upd_setNode_cturn
    | with_reducible apply upd_setAnn_cturn
    | with_reducible apply upd_setChannel_cturn
    | with_reducible apply upd_setDrill_cturn
    | with_reducible apply upd_setBell_cturn
    | with_reducible apply upd_setCircuit_cturn
    | with_reducible apply upd_trouble_cturn
    | with_reducible apply offerService_cturn
    | with_reducible apply call_cturn
    | (with_reducible apply each_cturn; intro _ _ _ _; try dsimp only)
    | with_reducible apply upd_cturn
    | split
    | with_reducible apply Turn.refl
    | (with_reducible apply Turn.of_blocks <;> first | rfl | exact id | simp)
    | (intro _ _ hm; simp at hm; done)

theorem enterFaulted_cturn {c0 c : Ctx} (h : CTurn c0 c) {ln a : Nat} {k : BitVec 5} {fails : Nat} : CTurn c0 (enterFaulted ln a k fails c) := by
  unfold enterFaulted
  try dsimp only
  repeat' first
    | with_reducible assumption
    | with_reducible apply say_cturn
    | with_reducible apply record_cturn
    | with_reducible apply upd_setLine_cturn
    | with_reducible apply upd_setNode_cturn
    | with_reducible apply upd_setAnn_cturn
    | with_reducible apply upd_setChannel_cturn
    | with_reducible apply upd_setDrill_cturn
    | with_reducible apply upd_setBell_cturn
    | with_reducible apply upd_setCircuit_cturn
    | with_reducible apply upd_trouble_cturn
    | with_reducible apply call_cturn
    | (with_reducible apply each_cturn; intro _ _ _ _; try dsimp only)
    | with_reducible apply upd_cturn
    | split
    | with_reducible apply Turn.refl
    | (with_reducible apply Turn.of_blocks <;> first | rfl | exact id | simp)
    | (intro _ _ hm; simp at hm; done)

theorem nodeFail_cturn {c0 c : Ctx} (h : CTurn c0 c) {ln a : Nat} {k : BitVec 5} : CTurn c0 (nodeFail ln a k c) := by
  unfold nodeFail
  try dsimp only
  repeat' first
    | with_reducible assumption
    | with_reducible apply say_cturn
    | with_reducible apply record_cturn
    | with_reducible apply upd_setLine_cturn
    | with_reducible apply upd_setNode_cturn
    | with_reducible apply upd_setAnn_cturn
    | with_reducible apply upd_setChannel_cturn
    | with_reducible apply upd_setDrill_cturn
    | with_reducible apply upd_setBell_cturn
    | with_reducible apply upd_setCircuit_cturn
    | with_reducible apply upd_trouble_cturn
    | with_reducible apply enterFaulted_cturn
    | with_reducible apply call_cturn
    | (with_reducible apply each_cturn; intro _ _ _ _; try dsimp only)
    | with_reducible apply upd_cturn
    | split
    | with_reducible apply Turn.refl
    | (with_reducible apply Turn.of_blocks <;> first | rfl | exact id | simp)
    | (intro _ _ hm; simp at hm; done)

theorem nodeGood_cturn {c0 c : Ctx} (h : CTurn c0 c) {ln a : Nat} : CTurn c0 (nodeGood ln a c) := by
  unfold nodeGood
  try dsimp only
  repeat' first
    | with_reducible assumption
    | with_reducible apply say_cturn
    | with_reducible apply record_cturn
    | with_reducible apply upd_setLine_cturn
    | with_reducible apply upd_setNode_cturn
    | with_reducible apply upd_setAnn_cturn
    | with_reducible apply upd_setChannel_cturn
    | with_reducible apply upd_setDrill_cturn
    | with_reducible apply upd_setBell_cturn
    | with_reducible apply upd_setCircuit_cturn
    | with_reducible apply upd_trouble_cturn
    | with_reducible apply offerConfigure_cturn
    | with_reducible apply beginRefresh_cturn
    | with_reducible apply call_cturn
    | (with_reducible apply each_cturn; intro _ _ _ _; try dsimp only)
    | with_reducible apply upd_cturn
    | split
    | with_reducible apply Turn.refl
    | (with_reducible apply Turn.of_blocks <;> first | rfl | exact id | simp)
    | (intro _ _ hm; simp at hm; done)

theorem replyCalls_cturn {c0 c : Ctx} (h : CTurn c0 c) {ln a : Nat} {r : Reply} : CTurn c0 (replyCalls ln a r c) := by
  unfold replyCalls
  try dsimp only
  repeat' first
    | with_reducible assumption
    | with_reducible apply say_cturn
    | with_reducible apply record_cturn
    | with_reducible apply upd_setLine_cturn
    | with_reducible apply upd_setNode_cturn
    | with_reducible apply upd_setAnn_cturn
    | with_reducible apply upd_setChannel_cturn
    | with_reducible apply upd_setDrill_cturn
    | with_reducible apply upd_setBell_cturn
    | with_reducible apply upd_setCircuit_cturn
    | with_reducible apply upd_trouble_cturn
    | with_reducible apply offerQuery_cturn
    | with_reducible apply call_cturn
    | (with_reducible apply each_cturn; intro _ _ _ _; try dsimp only)
    | with_reducible apply upd_cturn
    | split
    | with_reducible apply Turn.refl
    | (with_reducible apply Turn.of_blocks <;> first | rfl | exact id | simp)
    | (intro _ _ hm; simp at hm; done)

theorem replyFlags_cturn {c0 c : Ctx} (h : CTurn c0 c) {ln a : Nat} {r : Reply} : CTurn c0 (replyFlags ln a r c) := by
  unfold replyFlags
  try dsimp only
  repeat' first
    | with_reducible assumption
    | with_reducible apply say_cturn
    | with_reducible apply record_cturn
    | with_reducible apply upd_setLine_cturn
    | with_reducible apply upd_setNode_cturn
    | with_reducible apply upd_setAnn_cturn
    | with_reducible apply upd_setChannel_cturn
    | with_reducible apply upd_setDrill_cturn
    | with_reducible apply upd_setBell_cturn
    | with_reducible apply upd_setCircuit_cturn
    | with_reducible apply upd_trouble_cturn
    | with_reducible apply nodeFail_cturn
    | with_reducible apply nodeGood_cturn
    | with_reducible apply replyCalls_cturn
    | with_reducible apply call_cturn
    | (with_reducible apply each_cturn; intro _ _ _ _; try dsimp only)
    | with_reducible apply upd_cturn
    | split
    | with_reducible apply Turn.refl
    | (with_reducible apply Turn.of_blocks <;> first | rfl | exact id | simp)
    | (intro _ _ hm; simp at hm; done)

theorem clearFlags_cturn {c0 c : Ctx} (h : CTurn c0 c) {ln a : Nat} {r : Reply} : CTurn c0 (clearFlags ln a r c) := by
  unfold clearFlags
  try dsimp only
  repeat' first
    | with_reducible assumption
    | with_reducible apply say_cturn
    | with_reducible apply record_cturn
    | with_reducible apply upd_setLine_cturn
    | with_reducible apply upd_setNode_cturn
    | with_reducible apply upd_setAnn_cturn
    | with_reducible apply upd_setChannel_cturn
    | with_reducible apply upd_setDrill_cturn
    | with_reducible apply upd_setBell_cturn
    | with_reducible apply upd_setCircuit_cturn
    | with_reducible apply upd_trouble_cturn
    | with_reducible apply replyFlags_cturn
    | with_reducible apply replyCalls_cturn
    | with_reducible apply call_cturn
    | (with_reducible apply each_cturn; intro _ _ _ _; try dsimp only)
    | with_reducible apply upd_cturn
    | split
    | with_reducible apply Turn.refl
    | (with_reducible apply Turn.of_blocks <;> first | rfl | exact id | simp)
    | (intro _ _ hm; simp at hm; done)

theorem completeTx_cturn {c0 c : Ctx} (h : CTurn c0 c) {ln : Nat} {f : InFlight} {o : TxOutcome} {reply : Option Reply} : CTurn c0 (completeTx ln f o reply c) := by
  unfold completeTx
  try dsimp only
  repeat' first
    | with_reducible assumption
    | with_reducible apply say_cturn
    | with_reducible apply closes_cturn
    | with_reducible apply clearFlags_cturn
    | with_reducible apply record_cturn
    | with_reducible apply upd_setLine_cturn
    | with_reducible apply upd_setNode_cturn
    | with_reducible apply upd_setAnn_cturn
    | with_reducible apply upd_setChannel_cturn
    | with_reducible apply upd_setDrill_cturn
    | with_reducible apply upd_setBell_cturn
    | with_reducible apply upd_setCircuit_cturn
    | with_reducible apply upd_trouble_cturn
    | with_reducible apply nodeFail_cturn
    | with_reducible apply replyFlags_cturn
    | with_reducible apply call_cturn
    | (with_reducible apply each_cturn; intro _ _ _ _; try dsimp only)
    | with_reducible apply upd_cturn
    | split
    | with_reducible apply Turn.refl
    | (with_reducible apply Turn.of_blocks <;> first | rfl | exact id | simp)
    | (intro _ _ hm; simp at hm; done)

theorem closeTx_cturn {c0 c : Ctx} (h : CTurn c0 c) {ln : Nat} {t : Tx} {o : TxOutcome} {attempts : Nat} : CTurn c0 (closeTx ln t o attempts c) := by
  unfold closeTx
  try dsimp only
  repeat' first
    | with_reducible assumption
    | with_reducible apply say_cturn
    | with_reducible apply closes_cturn
    | with_reducible apply clearFlags_cturn
    | with_reducible apply record_cturn
    | with_reducible apply upd_setLine_cturn
    | with_reducible apply upd_setNode_cturn
    | with_reducible apply upd_setAnn_cturn
    | with_reducible apply upd_setChannel_cturn
    | with_reducible apply upd_setDrill_cturn
    | with_reducible apply upd_setBell_cturn
    | with_reducible apply upd_setCircuit_cturn
    | with_reducible apply upd_trouble_cturn
    | with_reducible apply settleLine_cturn
    | with_reducible apply call_cturn
    | (with_reducible apply each_cturn; intro _ _ _ _; try dsimp only)
    | with_reducible apply upd_cturn
    | split
    | with_reducible apply Turn.refl
    | (with_reducible apply Turn.of_blocks <;> first | rfl | exact id | simp)
    | (intro _ _ hm; simp at hm; done)

theorem assignFlags_cturn {c0 c : Ctx} (h : CTurn c0 c) {ln a : Nat} {r : Reply} : CTurn c0 (assignFlags ln a r c) := by
  unfold assignFlags
  try dsimp only
  repeat' first
    | with_reducible assumption
    | with_reducible apply say_cturn
    | with_reducible apply record_cturn
    | with_reducible apply upd_setLine_cturn
    | with_reducible apply upd_setNode_cturn
    | with_reducible apply upd_setAnn_cturn
    | with_reducible apply upd_setChannel_cturn
    | with_reducible apply upd_setDrill_cturn
    | with_reducible apply upd_setBell_cturn
    | with_reducible apply upd_setCircuit_cturn
    | with_reducible apply upd_trouble_cturn
    | with_reducible apply nodeFail_cturn
    | with_reducible apply replyCalls_cturn
    | with_reducible apply call_cturn
    | (with_reducible apply each_cturn; intro _ _ _ _; try dsimp only)
    | with_reducible apply upd_cturn
    | split
    | with_reducible apply Turn.refl
    | (with_reducible apply Turn.of_blocks <;> first | rfl | exact id | simp)
    | (intro _ _ hm; simp at hm; done)

theorem endEnumeration_cturn {c0 c : Ctx} (h : CTurn c0 c) {ln cause : Nat} : CTurn c0 (endEnumeration ln cause c) := by
  unfold endEnumeration
  try dsimp only
  repeat' first
    | with_reducible assumption
    | with_reducible apply say_cturn
    | with_reducible apply record_cturn
    | with_reducible apply upd_setLine_cturn
    | with_reducible apply upd_setNode_cturn
    | with_reducible apply upd_setAnn_cturn
    | with_reducible apply upd_setChannel_cturn
    | with_reducible apply upd_setDrill_cturn
    | with_reducible apply upd_setBell_cturn
    | with_reducible apply upd_setCircuit_cturn
    | with_reducible apply upd_trouble_cturn
    | with_reducible apply call_cturn
    | (with_reducible apply each_cturn; intro _ _ _ _; try dsimp only)
    | with_reducible apply upd_cturn
    | split
    | with_reducible apply Turn.refl
    | (with_reducible apply Turn.of_blocks <;> first | rfl | exact id | simp)
    | (intro _ _ hm; simp at hm; done)

theorem lineDown_cturn {c0 c : Ctx} (h : CTurn c0 c) {ln : Nat} {off : Bool} : CTurn c0 (lineDown ln off c) := by
  unfold lineDown
  try dsimp only
  repeat' first
    | with_reducible assumption
    | with_reducible apply say_cturn
    | with_reducible apply record_cturn
    | with_reducible apply upd_setLine_cturn
    | with_reducible apply upd_setNode_cturn
    | with_reducible apply upd_setAnn_cturn
    | with_reducible apply upd_setChannel_cturn
    | with_reducible apply upd_setDrill_cturn
    | with_reducible apply upd_setBell_cturn
    | with_reducible apply upd_setCircuit_cturn
    | with_reducible apply upd_trouble_cturn
    | with_reducible apply endEnumeration_cturn
    | with_reducible apply call_cturn
    | (with_reducible apply each_cturn; intro _ _ _ _; try dsimp only)
    | with_reducible apply upd_cturn
    | split
    | with_reducible apply Turn.refl
    | (with_reducible apply Turn.of_blocks <;> first | rfl | exact id | simp)
    | (intro _ _ hm; simp at hm; done)

theorem lineChanged_cturn {c0 c : Ctx} (h : CTurn c0 c) {ln : Nat} {old : LineState} : CTurn c0 (lineChanged ln old c) := by
  unfold lineChanged
  try dsimp only
  repeat' first
    | with_reducible assumption
    | with_reducible apply say_cturn
    | with_reducible apply record_cturn
    | with_reducible apply upd_setLine_cturn
    | with_reducible apply upd_setNode_cturn
    | with_reducible apply upd_setAnn_cturn
    | with_reducible apply upd_setChannel_cturn
    | with_reducible apply upd_setDrill_cturn
    | with_reducible apply upd_setBell_cturn
    | with_reducible apply upd_setCircuit_cturn
    | with_reducible apply upd_trouble_cturn
    | with_reducible apply lineDown_cturn
    | with_reducible apply call_cturn
    | (with_reducible apply each_cturn; intro _ _ _ _; try dsimp only)
    | with_reducible apply upd_cturn
    | split
    | with_reducible apply Turn.refl
    | (with_reducible apply Turn.of_blocks <;> first | rfl | exact id | simp)
    | (intro _ _ hm; simp at hm; done)

theorem readPath_cturn {c0 c : Ctx} (h : CTurn c0 c) {ln : Nat} {p : Path} {r : PathCond} : CTurn c0 (readPath ln p r c) := by
  unfold readPath
  try dsimp only
  repeat' first
    | with_reducible assumption
    | with_reducible apply say_cturn
    | with_reducible apply record_cturn
    | with_reducible apply upd_setLine_cturn
    | with_reducible apply upd_setNode_cturn
    | with_reducible apply upd_setAnn_cturn
    | with_reducible apply upd_setChannel_cturn
    | with_reducible apply upd_setDrill_cturn
    | with_reducible apply upd_setBell_cturn
    | with_reducible apply upd_setCircuit_cturn
    | with_reducible apply upd_trouble_cturn
    | with_reducible apply lineChanged_cturn
    | with_reducible apply call_cturn
    | (with_reducible apply each_cturn; intro _ _ _ _; try dsimp only)
    | with_reducible apply upd_cturn
    | split
    | with_reducible apply Turn.refl
    | (with_reducible apply Turn.of_blocks <;> first | rfl | exact id | simp)
    | (intro _ _ hm; simp at hm; done)

theorem readPaths_cturn {c0 c : Ctx} (h : CTurn c0 c) {ln : Nat} {r : PathPair} : CTurn c0 (readPaths ln r c) := by
  unfold readPaths
  try dsimp only
  repeat' first
    | with_reducible assumption
    | with_reducible apply say_cturn
    | with_reducible apply record_cturn
    | with_reducible apply upd_setLine_cturn
    | with_reducible apply upd_setNode_cturn
    | with_reducible apply upd_setAnn_cturn
    | with_reducible apply upd_setChannel_cturn
    | with_reducible apply upd_setDrill_cturn
    | with_reducible apply upd_setBell_cturn
    | with_reducible apply upd_setCircuit_cturn
    | with_reducible apply upd_trouble_cturn
    | with_reducible apply readPath_cturn
    | with_reducible apply call_cturn
    | (with_reducible apply each_cturn; intro _ _ _ _; try dsimp only)
    | with_reducible apply upd_cturn
    | split
    | with_reducible apply Turn.refl
    | (with_reducible apply Turn.of_blocks <;> first | rfl | exact id | simp)
    | (intro _ _ hm; simp at hm; done)

theorem nextAttempt_cturn {c0 c : Ctx} (h : CTurn c0 c) {ln : Nat} {f : InFlight} {o : TxOutcome} : CTurn c0 (nextAttempt ln f o c) := by
  unfold nextAttempt
  try dsimp only
  repeat' first
    | with_reducible assumption
    | with_reducible apply say_cturn
    | with_reducible apply record_cturn
    | with_reducible apply upd_setLine_cturn
    | with_reducible apply upd_setNode_cturn
    | with_reducible apply upd_setAnn_cturn
    | with_reducible apply upd_setChannel_cturn
    | with_reducible apply upd_setDrill_cturn
    | with_reducible apply upd_setBell_cturn
    | with_reducible apply upd_setCircuit_cturn
    | with_reducible apply upd_trouble_cturn
    | with_reducible apply completeTx_cturn
    | with_reducible apply call_cturn
    | (with_reducible apply each_cturn; intro _ _ _ _; try dsimp only)
    | with_reducible apply upd_cturn
    | split
    | with_reducible apply Turn.refl
    | (with_reducible apply Turn.of_blocks <;> first | rfl | exact id | simp)
    | (intro _ _ hm; simp at hm; done)

theorem pollNext_cturn {c0 c : Ctx} (h : CTurn c0 c) {ln : Nat} : CTurn c0 (pollNext ln c) := by
  unfold pollNext
  try dsimp only
  repeat' first
    | with_reducible assumption
    | with_reducible apply say_cturn
    | with_reducible apply record_cturn
    | with_reducible apply upd_setLine_cturn
    | with_reducible apply upd_setNode_cturn
    | with_reducible apply upd_setAnn_cturn
    | with_reducible apply upd_setChannel_cturn
    | with_reducible apply upd_setDrill_cturn
    | with_reducible apply upd_setBell_cturn
    | with_reducible apply upd_setCircuit_cturn
    | with_reducible apply upd_trouble_cturn
    | with_reducible apply offerService_cturn
    | with_reducible apply call_cturn
    | (with_reducible apply each_cturn; intro _ _ _ _; try dsimp only)
    | with_reducible apply upd_cturn
    | split
    | with_reducible apply Turn.refl
    | (with_reducible apply Turn.of_blocks <;> first | rfl | exact id | simp)
    | (intro _ _ hm; simp at hm; done)

theorem assignStep_cturn {c0 c : Ctx} (h : CTurn c0 c) {ln : Nat} : CTurn c0 (assignStep ln c) := by
  unfold assignStep
  try dsimp only
  repeat' first
    | with_reducible assumption
    | with_reducible apply say_cturn
    | with_reducible apply record_cturn
    | with_reducible apply upd_setLine_cturn
    | with_reducible apply upd_setNode_cturn
    | with_reducible apply upd_setAnn_cturn
    | with_reducible apply upd_setChannel_cturn
    | with_reducible apply upd_setDrill_cturn
    | with_reducible apply upd_setBell_cturn
    | with_reducible apply upd_setCircuit_cturn
    | with_reducible apply upd_trouble_cturn
    | with_reducible apply offerService_cturn
    | with_reducible apply endEnumeration_cturn
    | with_reducible apply call_cturn
    | (with_reducible apply each_cturn; intro _ _ _ _; try dsimp only)
    | with_reducible apply upd_cturn
    | split
    | with_reducible apply Turn.refl
    | (with_reducible apply Turn.of_blocks <;> first | rfl | exact id | simp)
    | (intro _ _ hm; simp at hm; done)

theorem clearStep_cturn {c0 c : Ctx} (h : CTurn c0 c) {ln : Nat} : CTurn c0 (clearStep ln c) := by
  unfold clearStep
  try dsimp only
  repeat' first
    | with_reducible assumption
    | with_reducible apply say_cturn
    | with_reducible apply record_cturn
    | with_reducible apply upd_setLine_cturn
    | with_reducible apply upd_setNode_cturn
    | with_reducible apply upd_setAnn_cturn
    | with_reducible apply upd_setChannel_cturn
    | with_reducible apply upd_setDrill_cturn
    | with_reducible apply upd_setBell_cturn
    | with_reducible apply upd_setCircuit_cturn
    | with_reducible apply upd_trouble_cturn
    | with_reducible apply offerService_cturn
    | with_reducible apply assignStep_cturn
    | with_reducible apply call_cturn
    | (with_reducible apply each_cturn; intro _ _ _ _; try dsimp only)
    | with_reducible apply upd_cturn
    | split
    | with_reducible apply Turn.refl
    | (with_reducible apply Turn.of_blocks <;> first | rfl | exact id | simp)
    | (intro _ _ hm; simp at hm; done)

theorem detachNode_cturn {c0 c : Ctx} (h : CTurn c0 c) {ln a : Nat} {kind : Option NodeKind} : CTurn c0 (detachNode ln a kind c) := by
  unfold detachNode
  try dsimp only
  repeat' first
    | with_reducible assumption
    | with_reducible apply say_cturn
    | with_reducible apply record_cturn
    | with_reducible apply upd_setLine_cturn
    | with_reducible apply upd_setNode_cturn
    | with_reducible apply upd_setAnn_cturn
    | with_reducible apply upd_setChannel_cturn
    | with_reducible apply upd_setDrill_cturn
    | with_reducible apply upd_setBell_cturn
    | with_reducible apply upd_setCircuit_cturn
    | with_reducible apply upd_trouble_cturn
    | with_reducible apply takeOut_cturn
    | with_reducible apply pollNext_cturn
    | with_reducible apply call_cturn
    | (with_reducible apply each_cturn; intro _ _ _ _; try dsimp only)
    | with_reducible apply upd_cturn
    | split
    | with_reducible apply Turn.refl
    | (with_reducible apply Turn.of_blocks <;> first | rfl | exact id | simp)
    | (intro _ _ hm; simp at hm; done)

theorem removeNode_cturn {c0 c : Ctx} (h : CTurn c0 c) {ln a : Nat} : CTurn c0 (removeNode ln a c) := by
  unfold removeNode
  try dsimp only
  repeat' first
    | with_reducible assumption
    | with_reducible apply say_cturn
    | with_reducible apply record_cturn
    | with_reducible apply upd_setLine_cturn
    | with_reducible apply upd_setNode_cturn
    | with_reducible apply upd_setAnn_cturn
    | with_reducible apply upd_setChannel_cturn
    | with_reducible apply upd_setDrill_cturn
    | with_reducible apply upd_setBell_cturn
    | with_reducible apply upd_setCircuit_cturn
    | with_reducible apply upd_trouble_cturn
    | with_reducible apply settleLine_cturn
    | with_reducible apply detachNode_cturn
    | with_reducible apply call_cturn
    | (with_reducible apply each_cturn; intro _ _ _ _; try dsimp only)
    | with_reducible apply upd_cturn
    | split
    | with_reducible apply Turn.refl
    | (with_reducible apply Turn.of_blocks <;> first | rfl | exact id | simp)
    | (intro _ _ hm; simp at hm; done)

theorem nodeFound_cturn {c0 c : Ctx} (h : CTurn c0 c) {ln a : Nat} {kind : NodeKind} {unit : Nat} : CTurn c0 (nodeFound ln a kind unit c) := by
  unfold nodeFound
  try dsimp only
  repeat' first
    | with_reducible assumption
    | with_reducible apply say_cturn
    | with_reducible apply record_cturn
    | with_reducible apply upd_setLine_cturn
    | with_reducible apply upd_setNode_cturn
    | with_reducible apply upd_setAnn_cturn
    | with_reducible apply upd_setChannel_cturn
    | with_reducible apply upd_setDrill_cturn
    | with_reducible apply upd_setBell_cturn
    | with_reducible apply upd_setCircuit_cturn
    | with_reducible apply upd_trouble_cturn
    | with_reducible apply nodeGood_cturn
    | with_reducible apply assignStep_cturn
    | with_reducible apply removeNode_cturn
    | with_reducible apply call_cturn
    | (with_reducible apply each_cturn; intro _ _ _ _; try dsimp only)
    | with_reducible apply upd_cturn
    | split
    | with_reducible apply Turn.refl
    | (with_reducible apply Turn.of_blocks <;> first | rfl | exact id | simp)
    | (intro _ _ hm; simp at hm; done)

end Sys2Proof.Machine
end

