-- ==== Sys2Proof/Laws/TurnZones.lean ====
section
/-! SUPPORT. The operations of the Zone Arbiter are turns. A claim is granted, and a claimant waits, only where fire silence leaves the zone open. -/

namespace Sys2Proof.Machine
open Sys2Proof

set_option linter.unusedTactic false
set_option linter.unreachableTactic false

/-- What the proofs about one zone rest on: in a state where fire silence stands, the zone is enabled and no fire is reported. -/
def OpenIn (z : Nat) (c : Ctx) : Prop := FireSilence c.st → Open z c.st

theorem CTurn.open {c0 c : Ctx} (h : CTurn c0 c) {z : Nat} (hz : OpenIn z c0) (hf : FireSilence c0.st) : Open z c.st :=
  (hz hf).of_turn h.st

/-- One zone changes; that fire silence stands is the caller's to show, where it stood. -/
theorem Turn.then_setZone {s t : State} (h : Turn s t) {z : Nat} {f : ZoneDyn → ZoneDyn}
    (hf : FireSilence s → FireSilence t → FireSilence (t.setZone z f)) : Turn s (t.setZone z f) where
  region := h.region
  log := h.log
  counts := fun k =>
    have k := h.counts k
    ⟨by simpa [State.setZone] using k.zones, k.feeds, k.channels, k.circuits, k.lines, k.inputs, k.outputs⟩
  fire := fun k => hf k (h.fire k)
  pending := h.pending
  tb := h.tb
  elapsed := h.elapsed
  supply := h.supply
  eventNo := h.eventNo
  run := h.run
  intEnable := h.intEnable
  base := h.base
  causeEnable := h.causeEnable
  link := h.link
  taken := h.taken
  scan := h.scan
  readMark := h.readMark
  notify := h.notify
  firstAttach := h.firstAttach
  marks := h.marks
  accesses := h.accesses
  cause := h.cause
  bound := h.bound
  outside := h.outside
  table := h.table
  mark := h.mark
  reported := h.reported

/-- One feed changes. -/
theorem Turn.then_setFeed {s t : State} (h : Turn s t) {b : Nat} {x : Option FeedHolder}
    (hx : FireSilence s → x = none ∨ t.za.fireReported = false) : Turn s (t.setFeed b x) where
  region := h.region
  log := h.log
  counts := fun k =>
    have k := h.counts k
    ⟨k.zones, by simpa [State.setFeed] using k.feeds, k.channels, k.circuits, k.lines, k.inputs, k.outputs⟩
  fire := fun k => (setFeed_turn t b x (hx k)).fire (h.fire k)
  pending := h.pending
  tb := h.tb
  elapsed := h.elapsed
  supply := h.supply
  eventNo := h.eventNo
  run := h.run
  intEnable := h.intEnable
  base := h.base
  causeEnable := h.causeEnable
  link := h.link
  taken := h.taken
  scan := h.scan
  readMark := h.readMark
  notify := h.notify
  firstAttach := h.firstAttach
  marks := h.marks
  accesses := h.accesses
  cause := h.cause
  bound := h.bound
  outside := h.outside
  table := h.table
  mark := h.mark
  reported := h.reported

theorem zone_cturn {c0 c : Ctx} (h : CTurn c0 c) {z : Nat} {f : ZoneDyn → ZoneDyn} (hf : ZoneChange f) :
    CTurn c0 (c.upd (State.setZone z f)) := upd_cturn h (setZone_turn _ _ hf)

theorem zone_open_cturn {c0 c : Ctx} (h : CTurn c0 c) {z : Nat} {f : ZoneDyn → ZoneDyn} (hz : OpenIn z c0) :
    CTurn c0 (c.upd (State.setZone z f)) :=
  ⟨h.st.then_setZone fun k k' => (setZone_turn_open (h.open hz k) f).fire k', h.noStart⟩

theorem feed_cturn {c0 c : Ctx} (h : CTurn c0 c) {b : Nat} {x : Option FeedHolder}
    (hx : FireSilence c0.st → x = none ∨ c0.st.za.fireReported = false) : CTurn c0 (c.upd (State.setFeed b x)) :=
  ⟨h.st.then_setFeed fun k => (hx k).imp id fun e => h.st.reported.trans e, h.noStart⟩

theorem each_cturn_mem {α : Type} {f : α → Ctx → Ctx} {l : List α} {c0 c : Ctx}
    (hf : ∀ x ∈ l, ∀ c, CTurn c0 c → CTurn c0 (f x c)) (h : CTurn c0 c) : CTurn c0 (Ctx.each f l c) := by
  induction l generalizing c with
  | nil => exact h
  | cons x l ih =>
    exact ih (fun y hy => hf y (List.mem_cons_of_mem _ hy)) (hf x List.mem_cons_self c h)

/-- A held zone is one where fire silence would not stand, or an open one, or fire silence's. -/
theorem held_open {s : State} {z : Nat} (hz : z < 64) {h : Claim} (hh : (s.zone z).holder = some h)
    (hr : FireSilence s → s.za.fireReported = false) (k : FireSilence s) : Open z s := by
  refine ⟨?_, hr k⟩
  cases he : (s.zoneRec z).enabled with
  | true => rfl
  | false => rw [(k.out z hz he).1] at hh; cases hh

/-- A zone that a waiter waits for is open where fire silence stands. -/
theorem waited_open {s : State} {z : Nat} (hz : z < 64) (hw : (s.zone z).waiters ≠ []) (k : FireSilence s) : Open z s := by
  constructor
  · cases he : (s.zoneRec z).enabled with
    | true => rfl
    | false => exact absurd (k.out z hz he).2 hw
  · cases hr : s.za.fireReported with
    | false => rfl
    | true => exact absurd (k.silent hr z hz).2 hw

theorem mem_zonesOfBuilding {s : State} {b z : Nat} (h : z ∈ s.zonesOfBuilding b) : z < 64 := by
  simp only [State.zonesOfBuilding, List.mem_filter, List.mem_range] at h
  exact h.1

theorem routeNode_cturn {c0 c : Ctx} (h : CTurn c0 c) {ln : Nat} {cls : Nat} {n : Node} : CTurn c0 (routeNode ln cls n c) := by
  unfold routeNode
  try dsimp only
  repeat' first
    | with_reducible assumption
    | with_reducible apply say_cturn
    | with_reducible apply record_cturn
    | with_reducible apply upd_setLine_cturn
    | with_reducible apply upd_setNode_cturn
    | with_reducible apply upd_setAnn_cturn
    | with_reducible apply upd_setChannel_cturn
    | with_reducible apply upd_setDrill_cturn
    | with_reducible apply upd_setBell_cturn
    | with_reducible apply upd_setCircuit_cturn
    | with_reducible apply upd_trouble_cturn
    | with_reducible apply takeOut_cturn
    | with_reducible apply offerTx_cturn
    | with_reducible apply call_cturn
    | (with_reducible apply each_cturn; intro _ _ _ _; try dsimp only)
    | with_reducible apply upd_cturn
    | split
    | with_reducible apply Turn.refl
    | exact .inl rfl
    | (with_reducible apply Turn.of_blocks <;> first | rfl | exact id | simp)
    | (intro _ _ hm; simp at hm; done)

theorem routeZone_cturn {c0 c : Ctx} (h : CTurn c0 c) {z cls : Nat} : CTurn c0 (routeZone z cls c) := by
  unfold routeZone
  try dsimp only
  repeat' first
    | with_reducible assumption
    | with_reducible apply say_cturn
    | with_reducible apply record_cturn
    | with_reducible apply upd_setLine_cturn
    | with_reducible apply upd_setNode_cturn
    | with_reducible apply upd_setAnn_cturn
    | with_reducible apply upd_setChannel_cturn
    | with_reducible apply upd_setDrill_cturn
    | with_reducible apply upd_setBell_cturn
    | with_reducible apply upd_setCircuit_cturn
    | with_reducible apply upd_trouble_cturn
    | with_reducible apply routeNode_cturn
    | with_reducible apply call_cturn
    | (with_reducible apply each_cturn; intro _ _ _ _; try dsimp only)
    | with_reducible apply upd_cturn
    | split
    | with_reducible apply Turn.refl
    | exact .inl rfl
    | (with_reducible apply Turn.of_blocks <;> first | rfl | exact id | simp)
    | (intro _ _ hm; simp at hm; done)

theorem soundZone_cturn {c0 c : Ctx} (h : CTurn c0 c) {z : Nat} {k : TxKind} {cls : Nat} : CTurn c0 (soundZone z k cls c) := by
  unfold soundZone
  try dsimp only
  repeat' first
    | with_reducible assumption
    | with_reducible apply say_cturn
    | with_reducible apply record_cturn
    | with_reducible apply upd_setLine_cturn
    | with_reducible apply upd_setNode_cturn
    | with_reducible apply upd_setAnn_cturn
    | with_reducible apply upd_setChannel_cturn
    | with_reducible apply upd_setDrill_cturn
    | with_reducible apply upd_setBell_cturn
    | with_reducible apply upd_setCircuit_cturn
    | with_reducible apply upd_trouble_cturn
    | with_reducible apply offerTx_cturn
    | with_reducible apply withdraw_cturn
    | with_reducible apply call_cturn
    | (with_reducible apply each_cturn; intro _ _ _ _; try dsimp only)
    | with_reducible apply upd_cturn
    | split
    | with_reducible apply Turn.refl
    | exact .inl rfl
    | (with_reducible apply Turn.of_blocks <;> first | rfl | exact id | simp)
    | (intro _ _ hm; simp at hm; done)

theorem driveSound_cturn {c0 c : Ctx} (h : CTurn c0 c) {z : Nat} {old new : Option Claim} : CTurn c0 (driveSound z old new c) := by
  unfold driveSound
  try dsimp only
  repeat' first
    | with_reducible assumption
    | with_reducible apply say_cturn
    | with_reducible apply record_cturn
    | with_reducible apply upd_setLine_cturn
    | with_reducible apply upd_setNode_cturn
    | with_reducible apply upd_setAnn_cturn
    | with_reducible apply upd_setChannel_cturn
    | with_reducible apply upd_setDrill_cturn
    | with_reducible apply upd_setBell_cturn
    | with_reducible apply upd_setCircuit_cturn
    | with_reducible apply upd_trouble_cturn
    | with_reducible apply soundZone_cturn
    | with_reducible apply call_cturn
    | (with_reducible apply each_cturn; intro _ _ _ _; try dsimp only)
    | with_reducible apply upd_cturn
    | split
    | with_reducible apply Turn.refl
    | exact .inl rfl
    | (with_reducible apply Turn.of_blocks <;> first | rfl | exact id | simp)
    | (intro _ _ hm; simp at hm; done)

theorem changeHolder_cturn {c0 c : Ctx} (h : CTurn c0 c) {z : Nat} {new : Option Claim} (hz : new = none ∨ OpenIn z c0) :
    CTurn c0 (changeHolder z new c) := by
  have h1 : CTurn c0 (c.upd (State.setZone z fun d => { d with holder := new, cadence := .quiet })) := by
    rcases hz with rfl | hz
    · exact zone_cturn h ⟨fun _ _ => rfl, fun _ k => k, fun _ _ _ k => by cases k⟩
    · exact zone_open_cturn h hz
  unfold changeHolder
  dsimp only
  split
  · exact driveSound_cturn h1
  · exact routeZone_cturn (driveSound_cturn h1)

theorem feedLapse_cturn {c0 c : Ctx} (h : CTurn c0 c) {b : Nat} : CTurn c0 (feedLapse b c) := by
  unfold feedLapse
  split
  · exact h
  · split
    · exact h
    · exact feed_cturn h fun _ => .inl rfl

theorem dropWaiter_cturn {c0 c : Ctx} (h : CTurn c0 c) {z : Nat} {who : Claimant} : CTurn c0 (dropWaiter z who c) :=
  zone_cturn h ⟨fun _ k => k, fun _ k => by simp [k], fun _ k => k⟩

theorem joinList_cturn {c0 c : Ctx} (h : CTurn c0 c) {z : Nat} {x : Claim} {ok : Answer} (hz : OpenIn z c0) :
    CTurn c0 (joinList z x ok c) := by
  unfold joinList
  dsimp only
  split
  · exact say_cturn (zone_open_cturn h hz)
  · split
    · split
      · exact say_cturn (zone_open_cturn (say_cturn (dropWaiter_cturn h)) hz)
      · exact say_cturn h
    · exact say_cturn (zone_open_cturn h hz)

theorem preempted_cturn {c0 c : Ctx} (h : CTurn c0 c) {z cause : Nat} {new x : Claim} (hz : OpenIn z c0) :
    CTurn c0 (preempted z cause new x c) := by
  unfold preempted
  dsimp only
  split
  · exact joinList_cturn (record_cturn h) hz
  · exact say_cturn (record_cturn h)

theorem preemptOut_cturn {c0 c : Ctx} (h : CTurn c0 c) {z cause : Nat} {new : Claim} (hz : OpenIn z c0) :
    CTurn c0 (preemptOut z cause new c) := by
  unfold preemptOut
  split
  · exact changeHolder_cturn (preempted_cturn h hz) (.inl rfl)
  · exact h

theorem watchEarlier_cturn {c0 c : Ctx} (h : CTurn c0 c) {z : Nat} {who : Claimant} : CTurn c0 (watchEarlier z who c) := by
  unfold watchEarlier
  try dsimp only
  repeat' first
    | with_reducible assumption
    | with_reducible apply say_cturn
    | with_reducible apply record_cturn
    | with_reducible apply upd_setLine_cturn
    | with_reducible apply upd_setNode_cturn
    | with_reducible apply upd_setAnn_cturn
    | with_reducible apply upd_setChannel_cturn
    | with_reducible apply upd_setDrill_cturn
    | with_reducible apply upd_setBell_cturn
    | with_reducible apply upd_setCircuit_cturn
    | with_reducible apply upd_trouble_cturn
    | with_reducible apply call_cturn
    | (with_reducible apply each_cturn; intro _ _ _ _; try dsimp only)
    | with_reducible apply upd_cturn
    | split
    | with_reducible apply Turn.refl
    | exact .inl rfl
    | (with_reducible apply Turn.of_blocks <;> first | rfl | exact id | simp)
    | (intro _ _ hm; simp at hm; done)

theorem grantZone_cturn {c0 c : Ctx} (h : CTurn c0 c) {z : Nat} {x : Claim} (hz : OpenIn z c0) :
    CTurn c0 (grantZone z x c) := by
  have hr : FireSilence c0.st → c0.st.za.fireReported = false := fun k => (hz k).2
  have h1 : CTurn c0 (match ((dropWaiter z x.who c).st.zone z).holder with
      | some h => preempted z causeZone x h (dropWaiter z x.who c)
      | none => dropWaiter z x.who c) := by
    split
    · exact preempted_cturn (dropWaiter_cturn h) hz
    · exact dropWaiter_cturn h
  unfold grantZone
  dsimp only
  with_reducible refine changeHolder_cturn ?_ (.inr hz)
  with_reducible apply watchEarlier_cturn
  with_reducible apply say_cturn
  with_reducible refine zone_cturn ?_ ⟨fun _ k => k, fun _ k => k, fun _ k => k⟩
  split
  · exact feed_cturn h1 fun k => .inr (hr k)
  · exact h1

theorem feedPreempt_cturn {c0 c : Ctx} (h : CTurn c0 c) {b : Nat} {loser : Claimant} {keep : Option Nat} {x : Claim}
    (hr : FireSilence c0.st → c0.st.za.fireReported = false) : CTurn c0 (feedPreempt b loser keep x c) := by
  refine each_cturn_mem (fun z hz d hd => ?_) h
  split
  · rename_i k
    have hz := mem_zonesOfBuilding hz
    simp only [Bool.and_eq_true, Option.any_eq_true] at k
    obtain ⟨⟨y, hy, _⟩, _⟩ := k
    refine preemptOut_cturn hd fun f => ?_
    have o := held_open hz hy (fun _ => hd.st.reported.trans (hr f)) (hd.st.fire f)
    exact ⟨by have := o.1; rwa [State.zoneRec, hd.st.table] at this, hr f⟩
  · exact hd

theorem bestClaim_none {ps : List (Nat × Claim)} (h : ps = []) : bestClaim ps = none := by subst h; rfl

theorem settleSpeaking_cturn {b n : Nat} {ps : List (Nat × Claim)} {c0 c : Ctx} (h : CTurn c0 c)
    (hp : ∀ p ∈ ps, OpenIn p.1 c0) : CTurn c0 (settleSpeaking b n ps c) := by
  induction n generalizing ps c with
  | zero => exact h
  | succ n ih =>
    have hr : ∀ {w}, bestClaim ps = some w → FireSilence c0.st → c0.st.za.fireReported = false := by
      intro w hw f
      match ps, hp, hw with
      | [], _, hw => cases hw
      | p :: _, hp, _ => exact (hp p List.mem_cons_self f).2
    have hrest : ∀ w : Claim, ∀ p ∈ ps.filter (fun p => p.2.who != w.who), OpenIn p.1 c0 :=
      fun w p hm => hp p (List.mem_of_mem_filter hm)
    have give : ∀ (w : Claim) {d : Ctx}, CTurn c0 d →
        CTurn c0 (Ctx.each (fun p c => grantZone p.1 p.2 c) (ps.filter fun p => p.2.who == w.who) d) :=
      fun w d hd => each_cturn_mem (fun p hm e he => grantZone_cturn he (hp p (List.mem_of_mem_filter hm))) hd
    unfold settleSpeaking
    split
    · exact h
    · rename_i w hw
      dsimp only
      split
      · exact ih (give w h) (hrest w)
      · exact ih (give w (feedPreempt_cturn h (hr hw))) (hrest w)
      · refine ih ?_ (hrest w)
        with_reducible apply each_cturn
        · intro p c0 c hc
          with_reducible exact zone_cturn hc ⟨fun _ k => k, fun _ k => k, fun _ k => k⟩
        · exact h

/-- A candidate of a building's zones waits for an open zone. -/
theorem candidate_open {c0 c : Ctx} (h : CTurn c0 c) {b : Nat} {p : Nat × Claim} (hp : p ∈ candidates c.st b) :
    OpenIn p.1 c0 := by
  intro f
  simp only [candidates, List.mem_filterMap] at hp
  obtain ⟨z, hz, hp⟩ := hp
  split at hp
  · simp only [Option.map_eq_some_iff] at hp
    obtain ⟨w, hw, rfl⟩ := hp
    have hne : (c.st.zone z).waiters ≠ [] := by
      intro e
      unfold ZoneDyn.candidate at hw
      rw [e] at hw
      split at hw <;> simp at hw
    have o := waited_open (mem_zonesOfBuilding hz) hne (h.st.fire f)
    exact ⟨by have := o.1; rwa [State.zoneRec, h.st.table] at this, h.st.reported.symm.trans o.2⟩
  · cases hp

theorem settleRound_cturn {c0 c : Ctx} (h : CTurn c0 c) {b : Nat} : CTurn c0 (settleRound b c) := by
  unfold settleRound
  dsimp only
  have h1 : CTurn c0 (Ctx.each (fun p c => grantZone p.1 p.2 c) ((candidates c.st b).filter fun p => !p.2.speaking) c) :=
    each_cturn_mem (fun p hm e he => grantZone_cturn he (candidate_open h (List.mem_of_mem_filter hm))) h
  exact settleSpeaking_cturn h1 fun p hm => candidate_open h1 (List.mem_of_mem_filter hm)

theorem settleLoop_cturn {b n : Nat} {c0 c : Ctx} (h : CTurn c0 c) : CTurn c0 (settleLoop b n c) := by
  induction n generalizing c with
  | zero => exact h
  | succ n ih =>
    unfold settleLoop
    dsimp only
    split
    · exact settleRound_cturn h
    · exact ih (settleRound_cturn h)

theorem settle_cturn {c0 c : Ctx} (h : CTurn c0 c) {b : Nat} : CTurn c0 (settle b c) := by
  unfold settle
  try dsimp only
  repeat' first
    | with_reducible assumption
    | with_reducible apply say_cturn
    | with_reducible apply record_cturn
    | with_reducible apply upd_setLine_cturn
    | with_reducible apply upd_setNode_cturn
    | with_reducible apply upd_setAnn_cturn
    | with_reducible apply upd_setChannel_cturn
    | with_reducible apply upd_setDrill_cturn
    | with_reducible apply upd_setBell_cturn
    | with_reducible apply upd_setCircuit_cturn
    | with_reducible apply upd_trouble_cturn
    | with_reducible apply feedLapse_cturn
    | with_reducible apply settleLoop_cturn
    | with_reducible apply call_cturn
    | (with_reducible apply each_cturn; intro _ _ _ _; try dsimp only)
    | with_reducible apply upd_cturn
    | split
    | with_reducible apply Turn.refl
    | exact .inl rfl
    | (with_reducible apply Turn.of_blocks <;> first | rfl | exact id | simp)
    | (intro _ _ hm; simp at hm; done)

theorem takeOrBlock_cturn {c0 c : Ctx} (h : CTurn c0 c) {z : Nat} {x : Claim} (hz : OpenIn z c0) :
    CTurn c0 (takeOrBlock z x c) := by
  unfold takeOrBlock
  dsimp only
  split
  · exact grantZone_cturn h hz
  · exact grantZone_cturn (feedPreempt_cturn h fun f => (hz f).2) hz
  · split
    · exact preemptOut_cturn (joinList_cturn h hz) hz
    · exact say_cturn h

theorem waitOrLose_cturn {c0 c : Ctx} (h : CTurn c0 c) {z : Nat} {x : Claim} {r : LostReason} (hz : OpenIn z c0) :
    CTurn c0 (waitOrLose z x r c) := by
  unfold waitOrLose
  split
  · exact joinList_cturn h hz
  · exact say_cturn h

theorem decideClaim_cturn {c0 c : Ctx} (h : CTurn c0 c) {z : Nat} {x : Claim} (hz : OpenIn z c0) :
    CTurn c0 (decideClaim z x c) := by
  unfold decideClaim
  dsimp only
  split
  · split
    · exact takeOrBlock_cturn h hz
    · exact waitOrLose_cturn h hz
  · split
    · exact takeOrBlock_cturn h hz
    · split
      · with_reducible refine takeOrBlock_cturn ?_ hz
        with_reducible exact zone_cturn h ⟨fun _ k => k, fun _ k => k, fun _ k => k⟩
      · exact waitOrLose_cturn h hz

theorem zaCounter_turn (s : State) (n : Nat) : Turn s { s with za := { s.za with arrival := n } } where
  region := id
  log := id
  counts := fun h => ⟨h.zones, h.feeds, h.channels, h.circuits, h.lines, h.inputs, h.outputs⟩
  fire := fun h => ⟨h.out, h.silent, h.feeds⟩
  pending := rfl
  tb := rfl
  elapsed := rfl
  supply := rfl
  eventNo := rfl
  run := rfl
  intEnable := rfl
  base := rfl
  causeEnable := rfl
  link := rfl
  taken := rfl
  scan := rfl
  readMark := rfl
  notify := rfl
  firstAttach := rfl
  marks := rfl
  accesses := List.prefix_refl _
  cause := fun _ h => h
  bound := id
  outside := fun _ _ _ => rfl
  table := rfl
  mark := id
  reported := rfl

theorem claim_cturn {c0 c : Ctx} (h : CTurn c0 c) {z : Nat} {x : Claim} : CTurn c0 (claim z x c) := by
  unfold claim
  dsimp only
  split
  · exact say_cturn h
  · split
    · exact say_cturn h
    · have h1 : CTurn c0 (c.upd fun s => { s with za := { s.za with arrival := c.st.za.arrival + 1 } }) :=
        upd_cturn h (zaCounter_turn _ _)
      split
      · exact say_cturn h1
      · rename_i ho
        split
        · exact say_cturn h1
        · rename_i hr
          with_reducible apply settle_cturn
          refine decideClaim_cturn h1 ?_
          intro _
          refine ⟨?_, ?_⟩
          · rw [State.zoneRec, ← h.st.table]
            cases he : (c.st.zoneRec z).enabled with
            | true => exact he
            | false => simp [State.zoneState, he] at ho
          · rw [← h.st.reported]
            cases e : c.st.za.fireReported with
            | false => rfl
            | true => simp [e] at hr

theorem releaseZone_cturn {c0 c : Ctx} (h : CTurn c0 c) {z : Nat} {who : Claimant} : CTurn c0 (releaseZone z who c) := by
  unfold releaseZone
  try dsimp only
  repeat' first
    | with_reducible assumption
    | with_reducible apply say_cturn
    | with_reducible apply record_cturn
    | with_reducible apply upd_setLine_cturn
    | with_reducible apply upd_setNode_cturn
    | with_reducible apply upd_setAnn_cturn
    | with_reducible apply upd_setChannel_cturn
    | with_reducible apply upd_setDrill_cturn
    | with_reducible apply upd_setBell_cturn
    | with_reducible apply upd_setCircuit_cturn
    | with_reducible apply upd_trouble_cturn
    | with_reducible apply changeHolder_cturn
    | with_reducible apply settle_cturn
    | with_reducible apply call_cturn
    | (with_reducible apply each_cturn; intro _ _ _ _; try dsimp only)
    | with_reducible apply upd_cturn
    | split
    | with_reducible apply Turn.refl
    | exact .inl rfl
    | (with_reducible apply Turn.of_blocks <;> first | rfl | exact id | simp)
    | (intro _ _ hm; simp at hm; done)

theorem withdrawClaim_cturn {c0 c : Ctx} (h : CTurn c0 c) {z : Nat} {who : Claimant} : CTurn c0 (withdrawClaim z who c) := by
  unfold withdrawClaim
  try dsimp only
  repeat' first
    | with_reducible assumption
    | with_reducible apply say_cturn
    | with_reducible apply record_cturn
    | with_reducible apply upd_setLine_cturn
    | with_reducible apply upd_setNode_cturn
    | with_reducible apply upd_setAnn_cturn
    | with_reducible apply upd_setChannel_cturn
    | with_reducible apply upd_setDrill_cturn
    | with_reducible apply upd_setBell_cturn
    | with_reducible apply upd_setCircuit_cturn
    | with_reducible apply upd_trouble_cturn
    | with_reducible apply dropWaiter_cturn
    | with_reducible apply settle_cturn
    | with_reducible apply call_cturn
    | (with_reducible apply each_cturn; intro _ _ _ _; try dsimp only)
    | with_reducible apply upd_cturn
    | split
    | with_reducible apply Turn.refl
    | exact .inl rfl
    | (with_reducible apply Turn.of_blocks <;> first | rfl | exact id | simp)
    | (intro _ _ hm; simp at hm; done)

theorem releaseAll_cturn {c0 c : Ctx} (h : CTurn c0 c) {who : Claimant} : CTurn c0 (releaseAll who c) := by
  unfold releaseAll
  try dsimp only
  repeat' first
    | with_reducible assumption
    | with_reducible apply say_cturn
    | with_reducible apply record_cturn
    | with_reducible apply upd_setLine_cturn
    | with_reducible apply upd_setNode_cturn
    | with_reducible apply upd_setAnn_cturn
    | with_reducible apply upd_setChannel_cturn
    | with_reducible apply upd_setDrill_cturn
    | with_reducible apply upd_setBell_cturn
    | with_reducible apply upd_setCircuit_cturn
    | with_reducible apply upd_trouble_cturn
    | with_reducible apply changeHolder_cturn
    | with_reducible apply dropWaiter_cturn
    | with_reducible apply settle_cturn
    | with_reducible apply call_cturn
    | (with_reducible apply each_cturn; intro _ _ _ _; try dsimp only)
    | with_reducible apply upd_cturn
    | split
    | with_reducible apply Turn.refl
    | exact .inl rfl
    | (with_reducible apply Turn.of_blocks <;> first | rfl | exact id | simp)
    | (intro _ _ hm; simp at hm; done)

theorem expireClaim_cturn {c0 c : Ctx} (h : CTurn c0 c) {z : Nat} {who : Claimant} : CTurn c0 (expireClaim z who c) := by
  unfold expireClaim
  try dsimp only
  repeat' first
    | with_reducible assumption
    | with_reducible apply say_cturn
    | with_reducible apply record_cturn
    | with_reducible apply upd_setLine_cturn
    | with_reducible apply upd_setNode_cturn
    | with_reducible apply upd_setAnn_cturn
    | with_reducible apply upd_setChannel_cturn
    | with_reducible apply upd_setDrill_cturn
    | with_reducible apply upd_setBell_cturn
    | with_reducible apply upd_setCircuit_cturn
    | with_reducible apply upd_trouble_cturn
    | with_reducible apply dropWaiter_cturn
    | with_reducible apply settle_cturn
    | with_reducible apply call_cturn
    | (with_reducible apply each_cturn; intro _ _ _ _; try dsimp only)
    | with_reducible apply upd_cturn
    | split
    | with_reducible apply Turn.refl
    | exact .inl rfl
    | (with_reducible apply Turn.of_blocks <;> first | rfl | exact id | simp)
    | (intro _ _ hm; simp at hm; done)

theorem setCadence_cturn {c0 c : Ctx} (h : CTurn c0 c) {z : Nat} {who : Claimant} {k : Cadence} :
    CTurn c0 (setCadence z who k c) := by
  refine zone_cturn h ⟨fun d k => ?_, fun d k => ?_, fun d k => ?_⟩ <;> split <;> exact k

theorem setSound_cturn {c0 c : Ctx} (h : CTurn c0 c) {z : Nat} {who : Claimant} {o : Option SoundOrder} :
    CTurn c0 (setSound z who o c) := by
  unfold setSound
  split
  · rename_i x hx
    split
    · with_reducible apply driveSound_cturn
      refine ⟨h.st.then_setZone fun _ k => ?_, h.noStart⟩
      by_cases hz : z < c.st.za.zones.length
      · refine ⟨fun y hy he => ?_, fun hr y hy => ?_, k.feeds⟩
        · have := k.out y hy he
          rw [setZone_zone _ _ _ _ hz]
          split
          · rename_i e; subst e; rw [hx] at this; exact absurd this.1 (by simp)
          · exact this
        · have := k.silent hr y hy
          rw [setZone_zone _ _ _ _ hz]
          split
          · rename_i e; subst e
            refine ⟨fun w hw => ?_, this.2⟩
            cases hw
            exact this.1 x hx
          · exact this
      · have hz' : c.st.za.zones.length ≤ z := by omega
        refine ⟨fun y hy he => ?_, fun hr y hy => ?_, k.feeds⟩
        · rw [setZone_zone_out _ _ _ _ hz']; exact k.out y hy he
        · rw [setZone_zone_out _ _ _ _ hz']; exact k.silent hr y hy
    · exact h
  · exact h

theorem setSpeaking_cturn {c0 c : Ctx} (h : CTurn c0 c) {z : Nat} {b : Bool} : CTurn c0 (setSpeaking z b c) := by
  have h1 : CTurn c0 (c.upd (State.setZone z fun d => { d with holder := d.holder.map fun h => { h with speaking := b } })) := by
    refine zone_cturn h ⟨fun d k => by simp [k], fun _ k => k, fun d k x hx => ?_⟩
    simp only [Option.map_eq_some_iff] at hx
    obtain ⟨y, hy, rfl⟩ := hx
    exact k y hy
  unfold setSpeaking
  dsimp only
  split
  · exact h1
  · exact routeZone_cturn h1

theorem toneOn_cturn {c0 c : Ctx} (h : CTurn c0 c) {num : Nat} : CTurn c0 (toneOn num c) := by
  have hr : ∀ {b}, b ∈ (List.range 8).filter (fun b => (c.st.heldBy (.drill num)).any fun z => c.st.buildingOf z == b) →
      FireSilence c0.st → c0.st.za.fireReported = false := by
    intro b hb f
    simp only [List.mem_filter, List.any_eq_true, State.heldBy, List.mem_range, Option.any_eq_true] at hb
    obtain ⟨_, z, ⟨hz, y, hy, hw⟩, _⟩ := hb
    rw [← h.st.reported]
    cases e : c.st.za.fireReported with
    | false => rfl
    | true =>
      have := ((h.st.fire f).silent e z hz).1 y hy
      simp [this] at hw
  unfold toneOn
  dsimp only
  with_reducible apply each_cturn
  · exact fun _ _ _ hc => settle_cturn hc
  with_reducible apply each_cturn
  · exact fun _ _ _ hc => setSpeaking_cturn hc
  with_reducible refine each_cturn_mem (fun b hb d hd => ?_) h
  with_reducible refine feed_cturn ?_ fun f => .inr (hr hb f)
  split
  · exact feedPreempt_cturn hd (hr hb)
  · exact hd

theorem toneOff_cturn {c0 c : Ctx} (h : CTurn c0 c) {num : Nat} : CTurn c0 (toneOff num c) := by
  unfold toneOff
  try dsimp only
  repeat' first
    | with_reducible assumption
    | with_reducible apply say_cturn
    | with_reducible apply record_cturn
    | with_reducible apply upd_setLine_cturn
    | with_reducible apply upd_setNode_cturn
    | with_reducible apply upd_setAnn_cturn
    | with_reducible apply upd_setChannel_cturn
    | with_reducible apply upd_setDrill_cturn
    | with_reducible apply upd_setBell_cturn
    | with_reducible apply upd_setCircuit_cturn
    | with_reducible apply upd_trouble_cturn
    | with_reducible apply settle_cturn
    | with_reducible apply setSpeaking_cturn
    | with_reducible apply call_cturn
    | (with_reducible apply each_cturn; intro _ _ _ _; try dsimp only)
    | with_reducible apply upd_cturn
    | split
    | with_reducible apply Turn.refl
    | exact .inl rfl
    | (with_reducible apply Turn.of_blocks <;> first | rfl | exact id | simp)
    | (intro _ _ hm; simp at hm; done)

/-- R79, step 2, for one zone: what does not concern fire silence, which `fireSilence_passed` treats. -/
theorem silenceZone_zone {c : Ctx} {z : Nat} : (silenceZone z c).st =
    if (c.st.zoneRec z).enabled then c.st.setZone z fun _ => ⟨some fireClaim, [], none, .quiet⟩ else c.st := by
  have say : ∀ (l : List Claim) (d : Ctx), (Ctx.each (fun x c => c.say (.zone x.who z (.lost .fire))) l d).st = d.st := by
    intro l
    induction l with
    | nil => intro d; rfl
    | cons x l ih => intro d; exact ih _
  unfold silenceZone
  split
  · exact say _ _
  · rfl

theorem silenceLine_cturn {c0 c : Ctx} (h : CTurn c0 c) {ln : Nat} : CTurn c0 (silenceLine ln c) := by
  unfold silenceLine
  try dsimp only
  repeat' first
    | with_reducible assumption
    | with_reducible apply say_cturn
    | with_reducible apply record_cturn
    | with_reducible apply upd_setLine_cturn
    | with_reducible apply upd_setNode_cturn
    | with_reducible apply upd_setAnn_cturn
    | with_reducible apply upd_setChannel_cturn
    | with_reducible apply upd_setDrill_cturn
    | with_reducible apply upd_setBell_cturn
    | with_reducible apply upd_setCircuit_cturn
    | with_reducible apply upd_trouble_cturn
    | with_reducible apply offerTx_cturn
    | with_reducible apply withdraw_cturn
    | with_reducible apply call_cturn
    | (with_reducible apply each_cturn; intro _ _ _ _; try dsimp only)
    | with_reducible apply upd_cturn
    | split
    | with_reducible apply Turn.refl
    | exact .inl rfl
    | (with_reducible apply Turn.of_blocks <;> first | rfl | exact id | simp)
    | (intro _ _ hm; simp at hm; done)



theorem releaseSilence_cturn {c0 c : Ctx} (h : CTurn c0 c) : CTurn c0 (releaseSilence c) :=
  each_cturn (fun _ _ _ hc => zone_cturn hc ⟨fun _ _ => rfl, fun _ _ => rfl, fun _ _ _ k => by cases k⟩) h

end Sys2Proof.Machine
end

