-- ==== Sys2Proof/Laws/TurnBells.lean ====
section
/-! SUPPORT. The operations of the Pattern Unit are turns. -/

namespace Sys2Proof.Machine
open Sys2Proof

set_option linter.unusedTactic false
set_option linter.unreachableTactic false

theorem bellStart_cturn {c0 c : Ctx} (h : CTurn c0 c) {src : BellSource} {zones : ZoneSet} {pattern level defer duration : Nat} : CTurn c0 (bellStart src zones pattern level defer duration c) := by
  unfold bellStart
  try dsimp only
  repeat' first
    | with_reducible assumption
    | with_reducible apply say_cturn
    | with_reducible apply record_cturn
    | with_reducible apply upd_setLine_cturn
    | with_reducible apply upd_setNode_cturn
    | with_reducible apply upd_setAnn_cturn
    | with_reducible apply upd_setChannel_cturn
    | with_reducible apply upd_setDrill_cturn
    | with_reducible apply upd_setBell_cturn
    | with_reducible apply upd_setCircuit_cturn
    | with_reducible apply upd_trouble_cturn
    | with_reducible apply upd_ask_cturn
    | with_reducible apply call_cturn
    | (with_reducible apply each_cturn; intro _ _ _ _; try dsimp only)
    | with_reducible apply upd_cturn
    | split
    | with_reducible apply Turn.refl
    | exact .inl rfl
    | with_reducible exact mirrorDrill_turn _
    | with_reducible exact mirrorFire_turn _
    | with_reducible exact setDrill_turn _ _
    | (with_reducible apply Turn.of_blocks <;> first | rfl | exact id | simp)
    | (intro _ _ hm; simp at hm; done)

theorem bellClaim_cturn {c0 c : Ctx} (h : CTurn c0 c) {n z : Nat} : CTurn c0 (bellClaim n z c) := by
  unfold bellClaim
  try dsimp only
  repeat' first
    | with_reducible assumption
    | with_reducible apply say_cturn
    | with_reducible apply record_cturn
    | with_reducible apply upd_setLine_cturn
    | with_reducible apply upd_setNode_cturn
    | with_reducible apply upd_setAnn_cturn
    | with_reducible apply upd_setChannel_cturn
    | with_reducible apply upd_setDrill_cturn
    | with_reducible apply upd_setBell_cturn
    | with_reducible apply upd_setCircuit_cturn
    | with_reducible apply upd_trouble_cturn
    | with_reducible apply upd_ask_cturn
    | with_reducible apply claim_cturn
    | with_reducible apply call_cturn
    | (with_reducible apply each_cturn; intro _ _ _ _; try dsimp only)
    | with_reducible apply upd_cturn
    | split
    | with_reducible apply Turn.refl
    | exact .inl rfl
    | with_reducible exact mirrorDrill_turn _
    | with_reducible exact mirrorFire_turn _
    | with_reducible exact setDrill_turn _ _
    | (with_reducible apply Turn.of_blocks <;> first | rfl | exact id | simp)
    | (intro _ _ hm; simp at hm; done)

theorem bellCheck_cturn {c0 c : Ctx} (h : CTurn c0 c) {n : Nat} : CTurn c0 (bellCheck n c) := by
  unfold bellCheck
  try dsimp only
  repeat' first
    | with_reducible assumption
    | with_reducible apply say_cturn
    | with_reducible apply record_cturn
    | with_reducible apply upd_setLine_cturn
    | with_reducible apply upd_setNode_cturn
    | with_reducible apply upd_setAnn_cturn
    | with_reducible apply upd_setChannel_cturn
    | with_reducible apply upd_setDrill_cturn
    | with_reducible apply upd_setBell_cturn
    | with_reducible apply upd_setCircuit_cturn
    | with_reducible apply upd_trouble_cturn
    | with_reducible apply upd_ask_cturn
    | with_reducible apply call_cturn
    | (with_reducible apply each_cturn; intro _ _ _ _; try dsimp only)
    | with_reducible apply upd_cturn
    | split
    | with_reducible apply Turn.refl
    | exact .inl rfl
    | with_reducible exact mirrorDrill_turn _
    | with_reducible exact mirrorFire_turn _
    | with_reducible exact setDrill_turn _ _
    | (with_reducible apply Turn.of_blocks <;> first | rfl | exact id | simp)
    | (intro _ _ hm; simp at hm; done)

theorem bellLose_cturn {c0 c : Ctx} (h : CTurn c0 c) {n z : Nat} {r : BellReason} : CTurn c0 (bellLose n z r c) := by
  unfold bellLose
  try dsimp only
  repeat' first
    | with_reducible assumption
    | with_reducible apply say_cturn
    | with_reducible apply record_cturn
    | with_reducible apply upd_setLine_cturn
    | with_reducible apply upd_setNode_cturn
    | with_reducible apply upd_setAnn_cturn
    | with_reducible apply upd_setChannel_cturn
    | with_reducible apply upd_setDrill_cturn
    | with_reducible apply upd_setBell_cturn
    | with_reducible apply upd_setCircuit_cturn
    | with_reducible apply upd_trouble_cturn
    | with_reducible apply upd_ask_cturn
    | with_reducible apply bellCheck_cturn
    | with_reducible apply call_cturn
    | (with_reducible apply each_cturn; intro _ _ _ _; try dsimp only)
    | with_reducible apply upd_cturn
    | split
    | with_reducible apply Turn.refl
    | exact .inl rfl
    | with_reducible exact mirrorDrill_turn _
    | with_reducible exact mirrorFire_turn _
    | with_reducible exact setDrill_turn _ _
    | (with_reducible apply Turn.of_blocks <;> first | rfl | exact id | simp)
    | (intro _ _ hm; simp at hm; done)

theorem staleReport_cturn {c0 c : Ctx} (h : CTurn c0 c) {b : Bell} {z : Nat} : CTurn c0 (staleReport b z c) := by
  unfold staleReport
  try dsimp only
  repeat' first
    | with_reducible assumption
    | with_reducible apply say_cturn
    | with_reducible apply record_cturn
    | with_reducible apply upd_setLine_cturn
    | with_reducible apply upd_setNode_cturn
    | with_reducible apply upd_setAnn_cturn
    | with_reducible apply upd_setChannel_cturn
    | with_reducible apply upd_setDrill_cturn
    | with_reducible apply upd_setBell_cturn
    | with_reducible apply upd_setCircuit_cturn
    | with_reducible apply upd_trouble_cturn
    | with_reducible apply upd_ask_cturn
    | with_reducible apply call_cturn
    | (with_reducible apply each_cturn; intro _ _ _ _; try dsimp only)
    | with_reducible apply upd_cturn
    | split
    | with_reducible apply Turn.refl
    | exact .inl rfl
    | with_reducible exact mirrorDrill_turn _
    | with_reducible exact mirrorFire_turn _
    | with_reducible exact setDrill_turn _ _
    | (with_reducible apply Turn.of_blocks <;> first | rfl | exact id | simp)
    | (intro _ _ hm; simp at hm; done)

theorem bellGranted_cturn {c0 c : Ctx} (h : CTurn c0 c) {b : Bell} {z : Nat} : CTurn c0 (bellGranted b z c) := by
  unfold bellGranted
  try dsimp only
  repeat' first
    | with_reducible assumption
    | with_reducible apply say_cturn
    | with_reducible apply record_cturn
    | with_reducible apply upd_setLine_cturn
    | with_reducible apply upd_setNode_cturn
    | with_reducible apply upd_setAnn_cturn
    | with_reducible apply upd_setChannel_cturn
    | with_reducible apply upd_setDrill_cturn
    | with_reducible apply upd_setBell_cturn
    | with_reducible apply upd_setCircuit_cturn
    | with_reducible apply upd_trouble_cturn
    | with_reducible apply upd_ask_cturn
    | with_reducible apply setCadence_cturn
    | with_reducible apply staleReport_cturn
    | with_reducible apply call_cturn
    | (with_reducible apply each_cturn; intro _ _ _ _; try dsimp only)
    | with_reducible apply upd_cturn
    | split
    | with_reducible apply Turn.refl
    | exact .inl rfl
    | with_reducible exact mirrorDrill_turn _
    | with_reducible exact mirrorFire_turn _
    | with_reducible exact setDrill_turn _ _
    | (with_reducible apply Turn.of_blocks <;> first | rfl | exact id | simp)
    | (intro _ _ hm; simp at hm; done)

theorem bellAnswer_cturn {c0 c : Ctx} (h : CTurn c0 c) {n z : Nat} {a : Answer} : CTurn c0 (bellAnswer n z a c) := by
  unfold bellAnswer
  try dsimp only
  repeat' first
    | with_reducible assumption
    | with_reducible apply say_cturn
    | with_reducible apply record_cturn
    | with_reducible apply upd_setLine_cturn
    | with_reducible apply upd_setNode_cturn
    | with_reducible apply upd_setAnn_cturn
    | with_reducible apply upd_setChannel_cturn
    | with_reducible apply upd_setDrill_cturn
    | with_reducible apply upd_setBell_cturn
    | with_reducible apply upd_setCircuit_cturn
    | with_reducible apply upd_trouble_cturn
    | with_reducible apply upd_ask_cturn
    | with_reducible apply bellLose_cturn
    | with_reducible apply bellGranted_cturn
    | with_reducible apply call_cturn
    | (with_reducible apply each_cturn; intro _ _ _ _; try dsimp only)
    | with_reducible apply upd_cturn
    | split
    | with_reducible apply Turn.refl
    | exact .inl rfl
    | with_reducible exact mirrorDrill_turn _
    | with_reducible exact mirrorFire_turn _
    | with_reducible exact setDrill_turn _ _
    | (with_reducible apply Turn.of_blocks <;> first | rfl | exact id | simp)
    | (intro _ _ hm; simp at hm; done)

theorem bellFinish_cturn {c0 c : Ctx} (h : CTurn c0 c) {n z : Nat} : CTurn c0 (bellFinish n z c) := by
  unfold bellFinish
  try dsimp only
  repeat' first
    | with_reducible assumption
    | with_reducible apply say_cturn
    | with_reducible apply record_cturn
    | with_reducible apply upd_setLine_cturn
    | with_reducible apply upd_setNode_cturn
    | with_reducible apply upd_setAnn_cturn
    | with_reducible apply upd_setChannel_cturn
    | with_reducible apply upd_setDrill_cturn
    | with_reducible apply upd_setBell_cturn
    | with_reducible apply upd_setCircuit_cturn
    | with_reducible apply upd_trouble_cturn
    | with_reducible apply upd_ask_cturn
    | with_reducible apply releaseZone_cturn
    | with_reducible apply bellCheck_cturn
    | with_reducible apply call_cturn
    | (with_reducible apply each_cturn; intro _ _ _ _; try dsimp only)
    | with_reducible apply upd_cturn
    | split
    | with_reducible apply Turn.refl
    | exact .inl rfl
    | with_reducible exact mirrorDrill_turn _
    | with_reducible exact mirrorFire_turn _
    | with_reducible exact setDrill_turn _ _
    | (with_reducible apply Turn.of_blocks <;> first | rfl | exact id | simp)
    | (intro _ _ hm; simp at hm; done)

theorem bellPush_cturn {c0 c : Ctx} (h : CTurn c0 c) {k group pattern : Nat} : CTurn c0 (bellPush k group pattern c) := by
  unfold bellPush
  try dsimp only
  repeat' first
    | with_reducible assumption
    | with_reducible apply say_cturn
    | with_reducible apply record_cturn
    | with_reducible apply upd_setLine_cturn
    | with_reducible apply upd_setNode_cturn
    | with_reducible apply upd_setAnn_cturn
    | with_reducible apply upd_setChannel_cturn
    | with_reducible apply upd_setDrill_cturn
    | with_reducible apply upd_setBell_cturn
    | with_reducible apply upd_setCircuit_cturn
    | with_reducible apply upd_trouble_cturn
    | with_reducible apply upd_ask_cturn
    | with_reducible apply bellStart_cturn
    | with_reducible apply call_cturn
    | (with_reducible apply each_cturn; intro _ _ _ _; try dsimp only)
    | with_reducible apply upd_cturn
    | split
    | with_reducible apply Turn.refl
    | exact .inl rfl
    | with_reducible exact mirrorDrill_turn _
    | with_reducible exact mirrorFire_turn _
    | with_reducible exact setDrill_turn _ _
    | (with_reducible apply Turn.of_blocks <;> first | rfl | exact id | simp)
    | (intro _ _ hm; simp at hm; done)

theorem bellStep_cturn {c0 c : Ctx} (h : CTurn c0 c) {n z : Nat} : CTurn c0 (bellStep n z c) := by
  unfold bellStep
  try dsimp only
  repeat' first
    | with_reducible assumption
    | with_reducible apply say_cturn
    | with_reducible apply record_cturn
    | with_reducible apply upd_setLine_cturn
    | with_reducible apply upd_setNode_cturn
    | with_reducible apply upd_setAnn_cturn
    | with_reducible apply upd_setChannel_cturn
    | with_reducible apply upd_setDrill_cturn
    | with_reducible apply upd_setBell_cturn
    | with_reducible apply upd_setCircuit_cturn
    | with_reducible apply upd_trouble_cturn
    | with_reducible apply upd_ask_cturn
    | with_reducible apply setCadence_cturn
    | with_reducible apply call_cturn
    | (with_reducible apply each_cturn; intro _ _ _ _; try dsimp only)
    | with_reducible apply upd_cturn
    | split
    | with_reducible apply Turn.refl
    | exact .inl rfl
    | with_reducible exact mirrorDrill_turn _
    | with_reducible exact mirrorFire_turn _
    | with_reducible exact setDrill_turn _ _
    | (with_reducible apply Turn.of_blocks <;> first | rfl | exact id | simp)
    | (intro _ _ hm; simp at hm; done)

end Sys2Proof.Machine
end

