-- ==== Sys2Proof/Laws/TurnAnnounce.lean ====
section
/-! SUPPORT. The operations of the Announcement Unit are turns. -/

namespace Sys2Proof.Machine
open Sys2Proof

set_option linter.unusedTactic false
set_option linter.unreachableTactic false

theorem annAccess_cturn {c0 c : Ctx} (h : CTurn c0 c) {n : Nat} {x : AnnAccess} : CTurn c0 (annAccess n x c) := by
  unfold annAccess
  try dsimp only
  repeat' first
    | with_reducible assumption
    | with_reducible apply say_cturn
    | with_reducible apply record_cturn
    | with_reducible apply upd_setLine_cturn
    | with_reducible apply upd_setNode_cturn
    | with_reducible apply upd_setAnn_cturn
    | with_reducible apply upd_setChannel_cturn
    | with_reducible apply upd_setDrill_cturn
    | with_reducible apply upd_setBell_cturn
    | with_reducible apply upd_setCircuit_cturn
    | with_reducible apply upd_trouble_cturn
    | with_reducible apply upd_ask_cturn
    | with_reducible apply call_cturn
    | (with_reducible apply each_cturn; intro _ _ _ _; try dsimp only)
    | with_reducible apply upd_cturn
    | split
    | with_reducible apply Turn.refl
    | exact .inl rfl
    | with_reducible exact mirrorDrill_turn _
    | with_reducible exact mirrorFire_turn _
    | with_reducible exact setDrill_turn _ _
    | (with_reducible apply Turn.of_blocks <;> first | rfl | exact id | simp)
    | (intro _ _ hm; simp at hm; done)

theorem tryFetch_cturn {c0 c : Ctx} (h : CTurn c0 c) {n : Nat} : CTurn c0 (tryFetch n c) := by
  unfold tryFetch
  try dsimp only
  repeat' first
    | with_reducible assumption
    | with_reducible apply say_cturn
    | with_reducible apply record_cturn
    | with_reducible apply upd_setLine_cturn
    | with_reducible apply upd_setNode_cturn
    | with_reducible apply upd_setAnn_cturn
    | with_reducible apply upd_setChannel_cturn
    | with_reducible apply upd_setDrill_cturn
    | with_reducible apply upd_setBell_cturn
    | with_reducible apply upd_setCircuit_cturn
    | with_reducible apply upd_trouble_cturn
    | with_reducible apply upd_ask_cturn
    | with_reducible apply annAccess_cturn
    | with_reducible apply call_cturn
    | (with_reducible apply each_cturn; intro _ _ _ _; try dsimp only)
    | with_reducible apply upd_cturn
    | split
    | with_reducible apply Turn.refl
    | exact .inl rfl
    | with_reducible exact mirrorDrill_turn _
    | with_reducible exact mirrorFire_turn _
    | with_reducible exact setDrill_turn _ _
    | (with_reducible apply Turn.of_blocks <;> first | rfl | exact id | simp)
    | (intro _ _ hm; simp at hm; done)

theorem tryReread_cturn {c0 c : Ctx} (h : CTurn c0 c) {n : Nat} : CTurn c0 (tryReread n c) := by
  unfold tryReread
  try dsimp only
  repeat' first
    | with_reducible assumption
    | with_reducible apply say_cturn
    | with_reducible apply record_cturn
    | with_reducible apply upd_setLine_cturn
    | with_reducible apply upd_setNode_cturn
    | with_reducible apply upd_setAnn_cturn
    | with_reducible apply upd_setChannel_cturn
    | with_reducible apply upd_setDrill_cturn
    | with_reducible apply upd_setBell_cturn
    | with_reducible apply upd_setCircuit_cturn
    | with_reducible apply upd_trouble_cturn
    | with_reducible apply upd_ask_cturn
    | with_reducible apply annAccess_cturn
    | with_reducible apply call_cturn
    | (with_reducible apply each_cturn; intro _ _ _ _; try dsimp only)
    | with_reducible apply upd_cturn
    | split
    | with_reducible apply Turn.refl
    | exact .inl rfl
    | with_reducible exact mirrorDrill_turn _
    | with_reducible exact mirrorFire_turn _
    | with_reducible exact setDrill_turn _ _
    | (with_reducible apply Turn.of_blocks <;> first | rfl | exact id | simp)
    | (intro _ _ hm; simp at hm; done)

theorem annRemove_cturn {c0 c : Ctx} (h : CTurn c0 c) {n : Nat} : CTurn c0 (annRemove n c) := by
  unfold annRemove
  try dsimp only
  repeat' first
    | with_reducible assumption
    | with_reducible apply say_cturn
    | with_reducible apply record_cturn
    | with_reducible apply upd_setLine_cturn
    | with_reducible apply upd_setNode_cturn
    | with_reducible apply upd_setAnn_cturn
    | with_reducible apply upd_setChannel_cturn
    | with_reducible apply upd_setDrill_cturn
    | with_reducible apply upd_setBell_cturn
    | with_reducible apply upd_setCircuit_cturn
    | with_reducible apply upd_trouble_cturn
    | with_reducible apply upd_ask_cturn
    | with_reducible apply call_cturn
    | (with_reducible apply each_cturn; intro _ _ _ _; try dsimp only)
    | with_reducible apply upd_cturn
    | split
    | with_reducible apply Turn.refl
    | exact .inl rfl
    | with_reducible exact mirrorDrill_turn _
    | with_reducible exact mirrorFire_turn _
    | with_reducible exact setDrill_turn _ _
    | (with_reducible apply Turn.of_blocks <;> first | rfl | exact id | simp)
    | (intro _ _ hm; simp at hm; done)

theorem annClose_cturn {c0 c : Ctx} (h : CTurn c0 c) {n : Nat} : CTurn c0 (annClose n c) := by
  unfold annClose
  try dsimp only
  repeat' first
    | with_reducible assumption
    | with_reducible apply say_cturn
    | with_reducible apply record_cturn
    | with_reducible apply upd_setLine_cturn
    | with_reducible apply upd_setNode_cturn
    | with_reducible apply upd_setAnn_cturn
    | with_reducible apply upd_setChannel_cturn
    | with_reducible apply upd_setDrill_cturn
    | with_reducible apply upd_setBell_cturn
    | with_reducible apply upd_setCircuit_cturn
    | with_reducible apply upd_trouble_cturn
    | with_reducible apply upd_ask_cturn
    | with_reducible apply annAccess_cturn
    | with_reducible apply annRemove_cturn
    | with_reducible apply call_cturn
    | (with_reducible apply each_cturn; intro _ _ _ _; try dsimp only)
    | with_reducible apply upd_cturn
    | split
    | with_reducible apply Turn.refl
    | exact .inl rfl
    | with_reducible exact mirrorDrill_turn _
    | with_reducible exact mirrorFire_turn _
    | with_reducible exact setDrill_turn _ _
    | (with_reducible apply Turn.of_blocks <;> first | rfl | exact id | simp)
    | (intro _ _ hm; simp at hm; done)

theorem freeChannel_turn (s : State) (ch n : Nat) (r : EndReason) : Turn s (freeChannel ch n r s) := setChannel_turn _ _ _
theorem upd_freeChannel_cturn {c0 c : Ctx} (h : CTurn c0 c) {ch n : Nat} {r : EndReason} :
    CTurn c0 (c.upd (freeChannel ch n r)) := upd_cturn h (freeChannel_turn _ _ _ _)

theorem annEnd_cturn {c0 c : Ctx} (h : CTurn c0 c) {n : Nat} {r : EndReason} {pass : Bool} : CTurn c0 (annEnd n r pass c) := by
  unfold annEnd
  try dsimp only
  repeat' first
    | with_reducible assumption
    | with_reducible apply say_cturn
    | with_reducible apply record_cturn
    | with_reducible apply upd_setLine_cturn
    | with_reducible apply upd_setNode_cturn
    | with_reducible apply upd_setAnn_cturn
    | with_reducible apply upd_setChannel_cturn
    | with_reducible apply upd_setDrill_cturn
    | with_reducible apply upd_setBell_cturn
    | with_reducible apply upd_setCircuit_cturn
    | with_reducible apply upd_trouble_cturn
    | with_reducible apply upd_ask_cturn
    | with_reducible apply releaseAll_cturn
    | with_reducible apply annRemove_cturn
    | with_reducible apply annClose_cturn
    | with_reducible apply call_cturn
    | (with_reducible apply each_cturn; intro _ _ _ _; try dsimp only)
    | with_reducible apply upd_freeChannel_cturn
    | with_reducible apply upd_cturn
    | split
    | with_reducible apply Turn.refl
    | exact .inl rfl
    | with_reducible exact mirrorDrill_turn _
    | with_reducible exact mirrorFire_turn _
    | with_reducible exact setDrill_turn _ _
    | (with_reducible apply Turn.of_blocks <;> first | rfl | exact id | simp)
    | (intro _ _ hm; simp at hm; done)

theorem completeCheck_cturn {c0 c : Ctx} (h : CTurn c0 c) {n : Nat} : CTurn c0 (completeCheck n c) := by
  unfold completeCheck
  try dsimp only
  repeat' first
    | with_reducible assumption
    | with_reducible apply say_cturn
    | with_reducible apply record_cturn
    | with_reducible apply upd_setLine_cturn
    | with_reducible apply upd_setNode_cturn
    | with_reducible apply upd_setAnn_cturn
    | with_reducible apply upd_setChannel_cturn
    | with_reducible apply upd_setDrill_cturn
    | with_reducible apply upd_setBell_cturn
    | with_reducible apply upd_setCircuit_cturn
    | with_reducible apply upd_trouble_cturn
    | with_reducible apply upd_ask_cturn
    | with_reducible apply annEnd_cturn
    | with_reducible apply call_cturn
    | (with_reducible apply each_cturn; intro _ _ _ _; try dsimp only)
    | with_reducible apply upd_cturn
    | split
    | with_reducible apply Turn.refl
    | exact .inl rfl
    | with_reducible exact mirrorDrill_turn _
    | with_reducible exact mirrorFire_turn _
    | with_reducible exact setDrill_turn _ _
    | (with_reducible apply Turn.of_blocks <;> first | rfl | exact id | simp)
    | (intro _ _ hm; simp at hm; done)

theorem enterChime_cturn {c0 c : Ctx} (h : CTurn c0 c) {n : Nat} : CTurn c0 (enterChime n c) := by
  unfold enterChime
  try dsimp only
  repeat' first
    | with_reducible assumption
    | with_reducible apply say_cturn
    | with_reducible apply record_cturn
    | with_reducible apply upd_setLine_cturn
    | with_reducible apply upd_setNode_cturn
    | with_reducible apply upd_setAnn_cturn
    | with_reducible apply upd_setChannel_cturn
    | with_reducible apply upd_setDrill_cturn
    | with_reducible apply upd_setBell_cturn
    | with_reducible apply upd_setCircuit_cturn
    | with_reducible apply upd_trouble_cturn
    | with_reducible apply upd_ask_cturn
    | with_reducible apply call_cturn
    | (with_reducible apply each_cturn; intro _ _ _ _; try dsimp only)
    | with_reducible apply upd_cturn
    | split
    | with_reducible apply Turn.refl
    | exact .inl rfl
    | with_reducible exact mirrorDrill_turn _
    | with_reducible exact mirrorFire_turn _
    | with_reducible exact setDrill_turn _ _
    | (with_reducible apply Turn.of_blocks <;> first | rfl | exact id | simp)
    | (intro _ _ hm; simp at hm; done)

theorem startTalk_cturn {c0 c : Ctx} (h : CTurn c0 c) {n : Nat} {live : Nat} : CTurn c0 (startTalk n live c) := by
  unfold startTalk
  try dsimp only
  repeat' first
    | with_reducible assumption
    | with_reducible apply say_cturn
    | with_reducible apply record_cturn
    | with_reducible apply upd_setLine_cturn
    | with_reducible apply upd_setNode_cturn
    | with_reducible apply upd_setAnn_cturn
    | with_reducible apply upd_setChannel_cturn
    | with_reducible apply upd_setDrill_cturn
    | with_reducible apply upd_setBell_cturn
    | with_reducible apply upd_setCircuit_cturn
    | with_reducible apply upd_trouble_cturn
    | with_reducible apply upd_ask_cturn
    | with_reducible apply call_cturn
    | (with_reducible apply each_cturn; intro _ _ _ _; try dsimp only)
    | with_reducible apply upd_cturn
    | split
    | with_reducible apply Turn.refl
    | exact .inl rfl
    | with_reducible exact mirrorDrill_turn _
    | with_reducible exact mirrorFire_turn _
    | with_reducible exact setDrill_turn _ _
    | (with_reducible apply Turn.of_blocks <;> first | rfl | exact id | simp)
    | (intro _ _ hm; simp at hm; done)

theorem startStarve_cturn {c0 c : Ctx} (h : CTurn c0 c) {n : Nat} : CTurn c0 (startStarve n c) := by
  unfold startStarve
  try dsimp only
  repeat' first
    | with_reducible assumption
    | with_reducible apply say_cturn
    | with_reducible apply record_cturn
    | with_reducible apply upd_setLine_cturn
    | with_reducible apply upd_setNode_cturn
    | with_reducible apply upd_setAnn_cturn
    | with_reducible apply upd_setChannel_cturn
    | with_reducible apply upd_setDrill_cturn
    | with_reducible apply upd_setBell_cturn
    | with_reducible apply upd_setCircuit_cturn
    | with_reducible apply upd_trouble_cturn
    | with_reducible apply upd_ask_cturn
    | with_reducible apply call_cturn
    | (with_reducible apply each_cturn; intro _ _ _ _; try dsimp only)
    | with_reducible apply upd_cturn
    | split
    | with_reducible apply Turn.refl
    | exact .inl rfl
    | with_reducible exact mirrorDrill_turn _
    | with_reducible exact mirrorFire_turn _
    | with_reducible exact setDrill_turn _ _
    | (with_reducible apply Turn.of_blocks <;> first | rfl | exact id | simp)
    | (intro _ _ hm; simp at hm; done)

theorem beginPlaying_cturn {c0 c : Ctx} (h : CTurn c0 c) {n : Nat} : CTurn c0 (beginPlaying n c) := by
  unfold beginPlaying
  try dsimp only
  repeat' first
    | with_reducible assumption
    | with_reducible apply say_cturn
    | with_reducible apply record_cturn
    | with_reducible apply upd_setLine_cturn
    | with_reducible apply upd_setNode_cturn
    | with_reducible apply upd_setAnn_cturn
    | with_reducible apply upd_setChannel_cturn
    | with_reducible apply upd_setDrill_cturn
    | with_reducible apply upd_setBell_cturn
    | with_reducible apply upd_setCircuit_cturn
    | with_reducible apply upd_trouble_cturn
    | with_reducible apply upd_ask_cturn
    | with_reducible apply startStarve_cturn
    | with_reducible apply call_cturn
    | (with_reducible apply each_cturn; intro _ _ _ _; try dsimp only)
    | with_reducible apply upd_cturn
    | split
    | with_reducible apply Turn.refl
    | exact .inl rfl
    | with_reducible exact mirrorDrill_turn _
    | with_reducible exact mirrorFire_turn _
    | with_reducible exact setDrill_turn _ _
    | (with_reducible apply Turn.of_blocks <;> first | rfl | exact id | simp)
    | (intro _ _ hm; simp at hm; done)

theorem enterPlaying_cturn {c0 c : Ctx} (h : CTurn c0 c) {n : Nat} : CTurn c0 (enterPlaying n c) := by
  unfold enterPlaying
  try dsimp only
  repeat' first
    | with_reducible assumption
    | with_reducible apply say_cturn
    | with_reducible apply record_cturn
    | with_reducible apply upd_setLine_cturn
    | with_reducible apply upd_setNode_cturn
    | with_reducible apply upd_setAnn_cturn
    | with_reducible apply upd_setChannel_cturn
    | with_reducible apply upd_setDrill_cturn
    | with_reducible apply upd_setBell_cturn
    | with_reducible apply upd_setCircuit_cturn
    | with_reducible apply upd_trouble_cturn
    | with_reducible apply upd_ask_cturn
    | with_reducible apply annAccess_cturn
    | with_reducible apply startTalk_cturn
    | with_reducible apply beginPlaying_cturn
    | with_reducible apply call_cturn
    | (with_reducible apply each_cturn; intro _ _ _ _; try dsimp only)
    | with_reducible apply upd_cturn
    | split
    | with_reducible apply Turn.refl
    | exact .inl rfl
    | with_reducible exact mirrorDrill_turn _
    | with_reducible exact mirrorFire_turn _
    | with_reducible exact setDrill_turn _ _
    | (with_reducible apply Turn.of_blocks <;> first | rfl | exact id | simp)
    | (intro _ _ hm; simp at hm; done)

theorem resumePlaying_cturn {c0 c : Ctx} (h : CTurn c0 c) {n : Nat} : CTurn c0 (resumePlaying n c) := by
  unfold resumePlaying
  try dsimp only
  repeat' first
    | with_reducible assumption
    | with_reducible apply say_cturn
    | with_reducible apply record_cturn
    | with_reducible apply upd_setLine_cturn
    | with_reducible apply upd_setNode_cturn
    | with_reducible apply upd_setAnn_cturn
    | with_reducible apply upd_setChannel_cturn
    | with_reducible apply upd_setDrill_cturn
    | with_reducible apply upd_setBell_cturn
    | with_reducible apply upd_setCircuit_cturn
    | with_reducible apply upd_trouble_cturn
    | with_reducible apply upd_ask_cturn
    | with_reducible apply tryFetch_cturn
    | with_reducible apply tryReread_cturn
    | with_reducible apply completeCheck_cturn
    | with_reducible apply beginPlaying_cturn
    | with_reducible apply call_cturn
    | (with_reducible apply each_cturn; intro _ _ _ _; try dsimp only)
    | with_reducible apply upd_cturn
    | split
    | with_reducible apply Turn.refl
    | exact .inl rfl
    | with_reducible exact mirrorDrill_turn _
    | with_reducible exact mirrorFire_turn _
    | with_reducible exact setDrill_turn _ _
    | (with_reducible apply Turn.of_blocks <;> first | rfl | exact id | simp)
    | (intro _ _ hm; simp at hm; done)

theorem takeAnn_cturn {c0 c : Ctx} (h : CTurn c0 c) {proto : Ann} : CTurn c0 (takeAnn proto c).1 := by
  unfold takeAnn
  try dsimp only
  repeat' first
    | with_reducible assumption
    | with_reducible apply say_cturn
    | with_reducible apply record_cturn
    | with_reducible apply upd_setLine_cturn
    | with_reducible apply upd_setNode_cturn
    | with_reducible apply upd_setAnn_cturn
    | with_reducible apply upd_setChannel_cturn
    | with_reducible apply upd_setDrill_cturn
    | with_reducible apply upd_setBell_cturn
    | with_reducible apply upd_setCircuit_cturn
    | with_reducible apply upd_trouble_cturn
    | with_reducible apply upd_ask_cturn
    | with_reducible apply annEnd_cturn
    | with_reducible apply call_cturn
    | (with_reducible apply each_cturn; intro _ _ _ _; try dsimp only)
    | with_reducible apply upd_cturn
    | split
    | with_reducible apply Turn.refl
    | exact .inl rfl
    | with_reducible exact mirrorDrill_turn _
    | with_reducible exact mirrorFire_turn _
    | with_reducible exact setDrill_turn _ _
    | (with_reducible apply Turn.of_blocks <;> first | rfl | exact id | simp)
    | (intro _ _ hm; simp at hm; done)

theorem annGive_cturn {c0 c : Ctx} (h : CTurn c0 c) {n ch : Nat} : CTurn c0 (annGive n ch c) := by
  unfold annGive
  try dsimp only
  repeat' first
    | with_reducible assumption
    | with_reducible apply say_cturn
    | with_reducible apply record_cturn
    | with_reducible apply upd_setLine_cturn
    | with_reducible apply upd_setNode_cturn
    | with_reducible apply upd_setAnn_cturn
    | with_reducible apply upd_setChannel_cturn
    | with_reducible apply upd_setDrill_cturn
    | with_reducible apply upd_setBell_cturn
    | with_reducible apply upd_setCircuit_cturn
    | with_reducible apply upd_trouble_cturn
    | with_reducible apply upd_ask_cturn
    | with_reducible apply call_cturn
    | (with_reducible apply each_cturn; intro _ _ _ _; try dsimp only)
    | with_reducible apply upd_cturn
    | split
    | with_reducible apply Turn.refl
    | exact .inl rfl
    | with_reducible exact mirrorDrill_turn _
    | with_reducible exact mirrorFire_turn _
    | with_reducible exact setDrill_turn _ _
    | (with_reducible apply Turn.of_blocks <;> first | rfl | exact id | simp)
    | (intro _ _ hm; simp at hm; done)

theorem channelOffer_cturn {c0 c : Ctx} (h : CTurn c0 c) {ch : Nat} : CTurn c0 (channelOffer ch c) := by
  unfold channelOffer
  try dsimp only
  repeat' first
    | with_reducible assumption
    | with_reducible apply say_cturn
    | with_reducible apply record_cturn
    | with_reducible apply upd_setLine_cturn
    | with_reducible apply upd_setNode_cturn
    | with_reducible apply upd_setAnn_cturn
    | with_reducible apply upd_setChannel_cturn
    | with_reducible apply upd_setDrill_cturn
    | with_reducible apply upd_setBell_cturn
    | with_reducible apply upd_setCircuit_cturn
    | with_reducible apply upd_trouble_cturn
    | with_reducible apply upd_ask_cturn
    | with_reducible apply call_cturn
    | (with_reducible apply each_cturn; intro _ _ _ _; try dsimp only)
    | with_reducible apply upd_cturn
    | split
    | with_reducible apply Turn.refl
    | exact .inl rfl
    | with_reducible exact mirrorDrill_turn _
    | with_reducible exact mirrorFire_turn _
    | with_reducible exact setDrill_turn _ _
    | (with_reducible apply Turn.of_blocks <;> first | rfl | exact id | simp)
    | (intro _ _ hm; simp at hm; done)

theorem annClaim_cturn {c0 c : Ctx} (h : CTurn c0 c) {n z : Nat} : CTurn c0 (annClaim n z c) := by
  unfold annClaim
  try dsimp only
  repeat' first
    | with_reducible assumption
    | with_reducible apply say_cturn
    | with_reducible apply record_cturn
    | with_reducible apply upd_setLine_cturn
    | with_reducible apply upd_setNode_cturn
    | with_reducible apply upd_setAnn_cturn
    | with_reducible apply upd_setChannel_cturn
    | with_reducible apply upd_setDrill_cturn
    | with_reducible apply upd_setBell_cturn
    | with_reducible apply upd_setCircuit_cturn
    | with_reducible apply upd_trouble_cturn
    | with_reducible apply upd_ask_cturn
    | with_reducible apply claim_cturn
    | with_reducible apply call_cturn
    | (with_reducible apply each_cturn; intro _ _ _ _; try dsimp only)
    | with_reducible apply upd_cturn
    | split
    | with_reducible apply Turn.refl
    | exact .inl rfl
    | with_reducible exact mirrorDrill_turn _
    | with_reducible exact mirrorFire_turn _
    | with_reducible exact setDrill_turn _ _
    | (with_reducible apply Turn.of_blocks <;> first | rfl | exact id | simp)
    | (intro _ _ hm; simp at hm; done)

theorem leaveRouting_cturn {c0 c : Ctx} (h : CTurn c0 c) {n : Nat} : CTurn c0 (leaveRouting n c) := by
  unfold leaveRouting
  try dsimp only
  repeat' first
    | with_reducible assumption
    | with_reducible apply say_cturn
    | with_reducible apply record_cturn
    | with_reducible apply upd_setLine_cturn
    | with_reducible apply upd_setNode_cturn
    | with_reducible apply upd_setAnn_cturn
    | with_reducible apply upd_setChannel_cturn
    | with_reducible apply upd_setDrill_cturn
    | with_reducible apply upd_setBell_cturn
    | with_reducible apply upd_setCircuit_cturn
    | with_reducible apply upd_trouble_cturn
    | with_reducible apply upd_ask_cturn
    | with_reducible apply withdrawClaim_cturn
    | with_reducible apply annEnd_cturn
    | with_reducible apply enterChime_cturn
    | with_reducible apply enterPlaying_cturn
    | with_reducible apply call_cturn
    | (with_reducible apply each_cturn; intro _ _ _ _; try dsimp only)
    | with_reducible apply upd_cturn
    | split
    | with_reducible apply Turn.refl
    | exact .inl rfl
    | with_reducible exact mirrorDrill_turn _
    | with_reducible exact mirrorFire_turn _
    | with_reducible exact setDrill_turn _ _
    | (with_reducible apply Turn.of_blocks <;> first | rfl | exact id | simp)
    | (intro _ _ hm; simp at hm; done)

theorem annCheck_cturn {c0 c : Ctx} (h : CTurn c0 c) {n : Nat} : CTurn c0 (annCheck n c) := by
  unfold annCheck
  try dsimp only
  repeat' first
    | with_reducible assumption
    | with_reducible apply say_cturn
    | with_reducible apply record_cturn
    | with_reducible apply upd_setLine_cturn
    | with_reducible apply upd_setNode_cturn
    | with_reducible apply upd_setAnn_cturn
    | with_reducible apply upd_setChannel_cturn
    | with_reducible apply upd_setDrill_cturn
    | with_reducible apply upd_setBell_cturn
    | with_reducible apply upd_setCircuit_cturn
    | with_reducible apply upd_trouble_cturn
    | with_reducible apply upd_ask_cturn
    | with_reducible apply annEnd_cturn
    | with_reducible apply leaveRouting_cturn
    | with_reducible apply call_cturn
    | (with_reducible apply each_cturn; intro _ _ _ _; try dsimp only)
    | with_reducible apply upd_cturn
    | split
    | with_reducible apply Turn.refl
    | exact .inl rfl
    | with_reducible exact mirrorDrill_turn _
    | with_reducible exact mirrorFire_turn _
    | with_reducible exact setDrill_turn _ _
    | (with_reducible apply Turn.of_blocks <;> first | rfl | exact id | simp)
    | (intro _ _ hm; simp at hm; done)

theorem enterHeld_cturn {c0 c : Ctx} (h : CTurn c0 c) {n z : Nat} : CTurn c0 (enterHeld n z c) := by
  unfold enterHeld
  try dsimp only
  repeat' first
    | with_reducible assumption
    | with_reducible apply say_cturn
    | with_reducible apply record_cturn
    | with_reducible apply upd_setLine_cturn
    | with_reducible apply upd_setNode_cturn
    | with_reducible apply upd_setAnn_cturn
    | with_reducible apply upd_setChannel_cturn
    | with_reducible apply upd_setDrill_cturn
    | with_reducible apply upd_setBell_cturn
    | with_reducible apply upd_setCircuit_cturn
    | with_reducible apply upd_trouble_cturn
    | with_reducible apply upd_ask_cturn
    | with_reducible apply call_cturn
    | (with_reducible apply each_cturn; intro _ _ _ _; try dsimp only)
    | with_reducible apply upd_cturn
    | split
    | with_reducible apply Turn.refl
    | exact .inl rfl
    | with_reducible exact mirrorDrill_turn _
    | with_reducible exact mirrorFire_turn _
    | with_reducible exact setDrill_turn _ _
    | (with_reducible apply Turn.of_blocks <;> first | rfl | exact id | simp)
    | (intro _ _ hm; simp at hm; done)

theorem annLook_cturn {c0 c : Ctx} (h : CTurn c0 c) {n z : Nat} {wasPreempted : Bool} : CTurn c0 (annLook n z wasPreempted c) := by
  unfold annLook
  try dsimp only
  repeat' first
    | with_reducible assumption
    | with_reducible apply say_cturn
    | with_reducible apply record_cturn
    | with_reducible apply upd_setLine_cturn
    | with_reducible apply upd_setNode_cturn
    | with_reducible apply upd_setAnn_cturn
    | with_reducible apply upd_setChannel_cturn
    | with_reducible apply upd_setDrill_cturn
    | with_reducible apply upd_setBell_cturn
    | with_reducible apply upd_setCircuit_cturn
    | with_reducible apply upd_trouble_cturn
    | with_reducible apply upd_ask_cturn
    | with_reducible apply annEnd_cturn
    | with_reducible apply enterHeld_cturn
    | with_reducible apply call_cturn
    | (with_reducible apply each_cturn; intro _ _ _ _; try dsimp only)
    | with_reducible apply upd_cturn
    | split
    | with_reducible apply Turn.refl
    | exact .inl rfl
    | with_reducible exact mirrorDrill_turn _
    | with_reducible exact mirrorFire_turn _
    | with_reducible exact setDrill_turn _ _
    | (with_reducible apply Turn.of_blocks <;> first | rfl | exact id | simp)
    | (intro _ _ hm; simp at hm; done)

theorem annResume_cturn {c0 c : Ctx} (h : CTurn c0 c) {n z : Nat} : CTurn c0 (annResume n z c) := by
  unfold annResume
  try dsimp only
  repeat' first
    | with_reducible assumption
    | with_reducible apply say_cturn
    | with_reducible apply record_cturn
    | with_reducible apply upd_setLine_cturn
    | with_reducible apply upd_setNode_cturn
    | with_reducible apply upd_setAnn_cturn
    | with_reducible apply upd_setChannel_cturn
    | with_reducible apply upd_setDrill_cturn
    | with_reducible apply upd_setBell_cturn
    | with_reducible apply upd_setCircuit_cturn
    | with_reducible apply upd_trouble_cturn
    | with_reducible apply upd_ask_cturn
    | with_reducible apply enterChime_cturn
    | with_reducible apply resumePlaying_cturn
    | with_reducible apply call_cturn
    | (with_reducible apply each_cturn; intro _ _ _ _; try dsimp only)
    | with_reducible apply upd_cturn
    | split
    | with_reducible apply Turn.refl
    | exact .inl rfl
    | with_reducible exact mirrorDrill_turn _
    | with_reducible exact mirrorFire_turn _
    | with_reducible exact setDrill_turn _ _
    | (with_reducible apply Turn.of_blocks <;> first | rfl | exact id | simp)
    | (intro _ _ hm; simp at hm; done)

theorem annAnswer_cturn {c0 c : Ctx} (h : CTurn c0 c) {n z : Nat} {x : Answer} : CTurn c0 (annAnswer n z x c) := by
  unfold annAnswer
  try dsimp only
  repeat' first
    | with_reducible assumption
    | with_reducible apply say_cturn
    | with_reducible apply record_cturn
    | with_reducible apply upd_setLine_cturn
    | with_reducible apply upd_setNode_cturn
    | with_reducible apply upd_setAnn_cturn
    | with_reducible apply upd_setChannel_cturn
    | with_reducible apply upd_setDrill_cturn
    | with_reducible apply upd_setBell_cturn
    | with_reducible apply upd_setCircuit_cturn
    | with_reducible apply upd_trouble_cturn
    | with_reducible apply upd_ask_cturn
    | with_reducible apply annEnd_cturn
    | with_reducible apply annLook_cturn
    | with_reducible apply annResume_cturn
    | with_reducible apply call_cturn
    | (with_reducible apply each_cturn; intro _ _ _ _; try dsimp only)
    | with_reducible apply upd_cturn
    | split
    | with_reducible apply Turn.refl
    | exact .inl rfl
    | with_reducible exact mirrorDrill_turn _
    | with_reducible exact mirrorFire_turn _
    | with_reducible exact setDrill_turn _ _
    | (with_reducible apply Turn.of_blocks <;> first | rfl | exact id | simp)
    | (intro _ _ hm; simp at hm; done)

theorem routeReport_cturn {c0 c : Ctx} (h : CTurn c0 c) {w : Watch} : CTurn c0 (routeReport w c) := by
  unfold routeReport
  try dsimp only
  repeat' first
    | with_reducible assumption
    | with_reducible apply say_cturn
    | with_reducible apply record_cturn
    | with_reducible apply upd_setLine_cturn
    | with_reducible apply upd_setNode_cturn
    | with_reducible apply upd_setAnn_cturn
    | with_reducible apply upd_setChannel_cturn
    | with_reducible apply upd_setDrill_cturn
    | with_reducible apply upd_setBell_cturn
    | with_reducible apply upd_setCircuit_cturn
    | with_reducible apply upd_trouble_cturn
    | with_reducible apply upd_ask_cturn
    | with_reducible apply call_cturn
    | (with_reducible apply each_cturn; intro _ _ _ _; try dsimp only)
    | with_reducible apply upd_cturn
    | split
    | with_reducible apply Turn.refl
    | exact .inl rfl
    | with_reducible exact mirrorDrill_turn _
    | with_reducible exact mirrorFire_turn _
    | with_reducible exact setDrill_turn _ _
    | (with_reducible apply Turn.of_blocks <;> first | rfl | exact id | simp)
    | (intro _ _ hm; simp at hm; done)

theorem moveOn_cturn {c0 c : Ctx} (h : CTurn c0 c) {n : Nat} {next : Option Nat} : CTurn c0 (moveOn n next c) := by
  unfold moveOn
  try dsimp only
  repeat' first
    | with_reducible assumption
    | with_reducible apply say_cturn
    | with_reducible apply record_cturn
    | with_reducible apply upd_setLine_cturn
    | with_reducible apply upd_setNode_cturn
    | with_reducible apply upd_setAnn_cturn
    | with_reducible apply upd_setChannel_cturn
    | with_reducible apply upd_setDrill_cturn
    | with_reducible apply upd_setBell_cturn
    | with_reducible apply upd_setCircuit_cturn
    | with_reducible apply upd_trouble_cturn
    | with_reducible apply upd_ask_cturn
    | with_reducible apply annAccess_cturn
    | with_reducible apply call_cturn
    | (with_reducible apply each_cturn; intro _ _ _ _; try dsimp only)
    | with_reducible apply upd_cturn
    | split
    | with_reducible apply Turn.refl
    | exact .inl rfl
    | with_reducible exact mirrorDrill_turn _
    | with_reducible exact mirrorFire_turn _
    | with_reducible exact setDrill_turn _ _
    | (with_reducible apply Turn.of_blocks <;> first | rfl | exact id | simp)
    | (intro _ _ hm; simp at hm; done)

theorem exhausted_cturn {c0 c : Ctx} (h : CTurn c0 c) {n : Nat} : CTurn c0 (exhausted n c) := by
  unfold exhausted
  try dsimp only
  repeat' first
    | with_reducible assumption
    | with_reducible apply say_cturn
    | with_reducible apply record_cturn
    | with_reducible apply upd_setLine_cturn
    | with_reducible apply upd_setNode_cturn
    | with_reducible apply upd_setAnn_cturn
    | with_reducible apply upd_setChannel_cturn
    | with_reducible apply upd_setDrill_cturn
    | with_reducible apply upd_setBell_cturn
    | with_reducible apply upd_setCircuit_cturn
    | with_reducible apply upd_trouble_cturn
    | with_reducible apply upd_ask_cturn
    | with_reducible apply annAccess_cturn
    | with_reducible apply moveOn_cturn
    | with_reducible apply call_cturn
    | (with_reducible apply each_cturn; intro _ _ _ _; try dsimp only)
    | with_reducible apply upd_cturn
    | split
    | with_reducible apply Turn.refl
    | exact .inl rfl
    | with_reducible exact mirrorDrill_turn _
    | with_reducible exact mirrorFire_turn _
    | with_reducible exact setDrill_turn _ _
    | (with_reducible apply Turn.of_blocks <;> first | rfl | exact id | simp)
    | (intro _ _ hm; simp at hm; done)

theorem headerDone_cturn {c0 c : Ctx} (h : CTurn c0 c) {n : Nat} {d : List Byte} : CTurn c0 (headerDone n d c) := by
  unfold headerDone
  try dsimp only
  repeat' first
    | with_reducible assumption
    | with_reducible apply say_cturn
    | with_reducible apply record_cturn
    | with_reducible apply upd_setLine_cturn
    | with_reducible apply upd_setNode_cturn
    | with_reducible apply upd_setAnn_cturn
    | with_reducible apply upd_setChannel_cturn
    | with_reducible apply upd_setDrill_cturn
    | with_reducible apply upd_setBell_cturn
    | with_reducible apply upd_setCircuit_cturn
    | with_reducible apply upd_trouble_cturn
    | with_reducible apply upd_ask_cturn
    | with_reducible apply tryFetch_cturn
    | with_reducible apply annClose_cturn
    | with_reducible apply annEnd_cturn
    | with_reducible apply call_cturn
    | (with_reducible apply each_cturn; intro _ _ _ _; try dsimp only)
    | with_reducible apply upd_cturn
    | split
    | with_reducible apply Turn.refl
    | exact .inl rfl
    | with_reducible exact mirrorDrill_turn _
    | with_reducible exact mirrorFire_turn _
    | with_reducible exact setDrill_turn _ _
    | (with_reducible apply Turn.of_blocks <;> first | rfl | exact id | simp)
    | (intro _ _ hm; simp at hm; done)

theorem rereadDone_cturn {c0 c : Ctx} (h : CTurn c0 c) {n : Nat} {d : List Byte} : CTurn c0 (rereadDone n d c) := by
  unfold rereadDone
  try dsimp only
  repeat' first
    | with_reducible assumption
    | with_reducible apply say_cturn
    | with_reducible apply record_cturn
    | with_reducible apply upd_setLine_cturn
    | with_reducible apply upd_setNode_cturn
    | with_reducible apply upd_setAnn_cturn
    | with_reducible apply upd_setChannel_cturn
    | with_reducible apply upd_setDrill_cturn
    | with_reducible apply upd_setBell_cturn
    | with_reducible apply upd_setCircuit_cturn
    | with_reducible apply upd_trouble_cturn
    | with_reducible apply upd_ask_cturn
    | with_reducible apply tryReread_cturn
    | with_reducible apply annClose_cturn
    | with_reducible apply annEnd_cturn
    | with_reducible apply completeCheck_cturn
    | with_reducible apply moveOn_cturn
    | with_reducible apply call_cturn
    | (with_reducible apply each_cturn; intro _ _ _ _; try dsimp only)
    | with_reducible apply upd_cturn
    | split
    | with_reducible apply Turn.refl
    | exact .inl rfl
    | with_reducible exact mirrorDrill_turn _
    | with_reducible exact mirrorFire_turn _
    | with_reducible exact setDrill_turn _ _
    | (with_reducible apply Turn.of_blocks <;> first | rfl | exact id | simp)
    | (intro _ _ hm; simp at hm; done)

theorem fetchDone_cturn {c0 c : Ctx} (h : CTurn c0 c) {n : Nat} {samples : List Sample} : CTurn c0 (fetchDone n samples c) := by
  unfold fetchDone
  try dsimp only
  repeat' first
    | with_reducible assumption
    | with_reducible apply say_cturn
    | with_reducible apply record_cturn
    | with_reducible apply upd_setLine_cturn
    | with_reducible apply upd_setNode_cturn
    | with_reducible apply upd_setAnn_cturn
    | with_reducible apply upd_setChannel_cturn
    | with_reducible apply upd_setDrill_cturn
    | with_reducible apply upd_setBell_cturn
    | with_reducible apply upd_setCircuit_cturn
    | with_reducible apply upd_trouble_cturn
    | with_reducible apply upd_ask_cturn
    | with_reducible apply tryFetch_cturn
    | with_reducible apply annClose_cturn
    | with_reducible apply exhausted_cturn
    | with_reducible apply call_cturn
    | (with_reducible apply each_cturn; intro _ _ _ _; try dsimp only)
    | with_reducible apply upd_cturn
    | split
    | with_reducible apply Turn.refl
    | exact .inl rfl
    | with_reducible exact mirrorDrill_turn _
    | with_reducible exact mirrorFire_turn _
    | with_reducible exact setDrill_turn _ _
    | (with_reducible apply Turn.of_blocks <;> first | rfl | exact id | simp)
    | (intro _ _ hm; simp at hm; done)

theorem consumedDone_cturn {c0 c : Ctx} (h : CTurn c0 c) {n : Nat} : CTurn c0 (consumedDone n c) := by
  unfold consumedDone
  try dsimp only
  repeat' first
    | with_reducible assumption
    | with_reducible apply say_cturn
    | with_reducible apply record_cturn
    | with_reducible apply upd_setLine_cturn
    | with_reducible apply upd_setNode_cturn
    | with_reducible apply upd_setAnn_cturn
    | with_reducible apply upd_setChannel_cturn
    | with_reducible apply upd_setDrill_cturn
    | with_reducible apply upd_setBell_cturn
    | with_reducible apply upd_setCircuit_cturn
    | with_reducible apply upd_trouble_cturn
    | with_reducible apply upd_ask_cturn
    | with_reducible apply annAccess_cturn
    | with_reducible apply annClose_cturn
    | with_reducible apply completeCheck_cturn
    | with_reducible apply call_cturn
    | (with_reducible apply each_cturn; intro _ _ _ _; try dsimp only)
    | with_reducible apply upd_cturn
    | split
    | with_reducible apply Turn.refl
    | exact .inl rfl
    | with_reducible exact mirrorDrill_turn _
    | with_reducible exact mirrorFire_turn _
    | with_reducible exact setDrill_turn _ _
    | (with_reducible apply Turn.of_blocks <;> first | rfl | exact id | simp)
    | (intro _ _ hm; simp at hm; done)

theorem awaitTimer_cturn {c0 c : Ctx} (h : CTurn c0 c) {n : Nat} : CTurn c0 (awaitTimer n c) := by
  unfold awaitTimer
  try dsimp only
  repeat' first
    | with_reducible assumption
    | with_reducible apply say_cturn
    | with_reducible apply record_cturn
    | with_reducible apply upd_setLine_cturn
    | with_reducible apply upd_setNode_cturn
    | with_reducible apply upd_setAnn_cturn
    | with_reducible apply upd_setChannel_cturn
    | with_reducible apply upd_setDrill_cturn
    | with_reducible apply upd_setBell_cturn
    | with_reducible apply upd_setCircuit_cturn
    | with_reducible apply upd_trouble_cturn
    | with_reducible apply upd_ask_cturn
    | with_reducible apply tryReread_cturn
    | with_reducible apply call_cturn
    | (with_reducible apply each_cturn; intro _ _ _ _; try dsimp only)
    | with_reducible apply upd_cturn
    | split
    | with_reducible apply Turn.refl
    | exact .inl rfl
    | with_reducible exact mirrorDrill_turn _
    | with_reducible exact mirrorFire_turn _
    | with_reducible exact setDrill_turn _ _
    | (with_reducible apply Turn.of_blocks <;> first | rfl | exact id | simp)
    | (intro _ _ hm; simp at hm; done)

theorem playSamples_cturn {c0 c : Ctx} (h : CTurn c0 c) {ch n m : Nat} : CTurn c0 (playSamples ch n m c) := by
  unfold playSamples
  try dsimp only
  repeat' first
    | with_reducible assumption
    | with_reducible apply say_cturn
    | with_reducible apply record_cturn
    | with_reducible apply upd_setLine_cturn
    | with_reducible apply upd_setNode_cturn
    | with_reducible apply upd_setAnn_cturn
    | with_reducible apply upd_setChannel_cturn
    | with_reducible apply upd_setDrill_cturn
    | with_reducible apply upd_setBell_cturn
    | with_reducible apply upd_setCircuit_cturn
    | with_reducible apply upd_trouble_cturn
    | with_reducible apply upd_ask_cturn
    | with_reducible apply tryFetch_cturn
    | with_reducible apply tryReread_cturn
    | with_reducible apply completeCheck_cturn
    | with_reducible apply startStarve_cturn
    | with_reducible apply call_cturn
    | (with_reducible apply each_cturn; intro _ _ _ _; try dsimp only)
    | with_reducible apply upd_cturn
    | split
    | with_reducible apply Turn.refl
    | exact .inl rfl
    | with_reducible exact mirrorDrill_turn _
    | with_reducible exact mirrorFire_turn _
    | with_reducible exact setDrill_turn _ _
    | (with_reducible apply Turn.of_blocks <;> first | rfl | exact id | simp)
    | (intro _ _ hm; simp at hm; done)

theorem playChannel_cturn {c0 c : Ctx} (h : CTurn c0 c) {ch : Nat} {live : List Sample} : CTurn c0 (playChannel ch live c) := by
  unfold playChannel
  try dsimp only
  repeat' first
    | with_reducible assumption
    | with_reducible apply say_cturn
    | with_reducible apply record_cturn
    | with_reducible apply upd_setLine_cturn
    | with_reducible apply upd_setNode_cturn
    | with_reducible apply upd_setAnn_cturn
    | with_reducible apply upd_setChannel_cturn
    | with_reducible apply upd_setDrill_cturn
    | with_reducible apply upd_setBell_cturn
    | with_reducible apply upd_setCircuit_cturn
    | with_reducible apply upd_trouble_cturn
    | with_reducible apply upd_ask_cturn
    | with_reducible apply playSamples_cturn
    | with_reducible apply call_cturn
    | (with_reducible apply each_cturn; intro _ _ _ _; try dsimp only)
    | with_reducible apply upd_cturn
    | split
    | with_reducible apply Turn.refl
    | exact .inl rfl
    | with_reducible exact mirrorDrill_turn _
    | with_reducible exact mirrorFire_turn _
    | with_reducible exact setDrill_turn _ _
    | (with_reducible apply Turn.of_blocks <;> first | rfl | exact id | simp)
    | (intro _ _ hm; simp at hm; done)

theorem endTalk_cturn {c0 c : Ctx} (h : CTurn c0 c) {n : Nat} : CTurn c0 (endTalk n c) := by
  unfold endTalk
  try dsimp only
  repeat' first
    | with_reducible assumption
    | with_reducible apply say_cturn
    | with_reducible apply record_cturn
    | with_reducible apply upd_setLine_cturn
    | with_reducible apply upd_setNode_cturn
    | with_reducible apply upd_setAnn_cturn
    | with_reducible apply upd_setChannel_cturn
    | with_reducible apply upd_setDrill_cturn
    | with_reducible apply upd_setBell_cturn
    | with_reducible apply upd_setCircuit_cturn
    | with_reducible apply upd_trouble_cturn
    | with_reducible apply upd_ask_cturn
    | with_reducible apply completeCheck_cturn
    | with_reducible apply call_cturn
    | (with_reducible apply each_cturn; intro _ _ _ _; try dsimp only)
    | with_reducible apply upd_cturn
    | split
    | with_reducible apply Turn.refl
    | exact .inl rfl
    | with_reducible exact mirrorDrill_turn _
    | with_reducible exact mirrorFire_turn _
    | with_reducible exact setDrill_turn _ _
    | (with_reducible apply Turn.of_blocks <;> first | rfl | exact id | simp)
    | (intro _ _ hm; simp at hm; done)

theorem pttFor_cturn {c0 c : Ctx} (h : CTurn c0 c) {n live : Nat} : CTurn c0 (pttFor n live c) := by
  unfold pttFor
  try dsimp only
  repeat' first
    | with_reducible assumption
    | with_reducible apply say_cturn
    | with_reducible apply record_cturn
    | with_reducible apply upd_setLine_cturn
    | with_reducible apply upd_setNode_cturn
    | with_reducible apply upd_setAnn_cturn
    | with_reducible apply upd_setChannel_cturn
    | with_reducible apply upd_setDrill_cturn
    | with_reducible apply upd_setBell_cturn
    | with_reducible apply upd_setCircuit_cturn
    | with_reducible apply upd_trouble_cturn
    | with_reducible apply upd_ask_cturn
    | with_reducible apply endTalk_cturn
    | with_reducible apply call_cturn
    | (with_reducible apply each_cturn; intro _ _ _ _; try dsimp only)
    | with_reducible apply upd_cturn
    | split
    | with_reducible apply Turn.refl
    | exact .inl rfl
    | with_reducible exact mirrorDrill_turn _
    | with_reducible exact mirrorFire_turn _
    | with_reducible exact setDrill_turn _ _
    | (with_reducible apply Turn.of_blocks <;> first | rfl | exact id | simp)
    | (intro _ _ hm; simp at hm; done)

theorem pttChanged_cturn {c0 c : Ctx} (h : CTurn c0 c) {live : Nat} : CTurn c0 (pttChanged live c) := by
  unfold pttChanged
  try dsimp only
  repeat' first
    | with_reducible assumption
    | with_reducible apply say_cturn
    | with_reducible apply record_cturn
    | with_reducible apply upd_setLine_cturn
    | with_reducible apply upd_setNode_cturn
    | with_reducible apply upd_setAnn_cturn
    | with_reducible apply upd_setChannel_cturn
    | with_reducible apply upd_setDrill_cturn
    | with_reducible apply upd_setBell_cturn
    | with_reducible apply upd_setCircuit_cturn
    | with_reducible apply upd_trouble_cturn
    | with_reducible apply upd_ask_cturn
    | with_reducible apply pttFor_cturn
    | with_reducible apply call_cturn
    | (with_reducible apply each_cturn; intro _ _ _ _; try dsimp only)
    | with_reducible apply upd_cturn
    | split
    | with_reducible apply Turn.refl
    | exact .inl rfl
    | with_reducible exact mirrorDrill_turn _
    | with_reducible exact mirrorFire_turn _
    | with_reducible exact setDrill_turn _ _
    | (with_reducible apply Turn.of_blocks <;> first | rfl | exact id | simp)
    | (intro _ _ hm; simp at hm; done)

theorem annLinkLost_cturn {c0 c : Ctx} (h : CTurn c0 c) : CTurn c0 (annLinkLost c) := by
  unfold annLinkLost
  try dsimp only
  repeat' first
    | with_reducible assumption
    | with_reducible apply say_cturn
    | with_reducible apply record_cturn
    | with_reducible apply upd_setLine_cturn
    | with_reducible apply upd_setNode_cturn
    | with_reducible apply upd_setAnn_cturn
    | with_reducible apply upd_setChannel_cturn
    | with_reducible apply upd_setDrill_cturn
    | with_reducible apply upd_setBell_cturn
    | with_reducible apply upd_setCircuit_cturn
    | with_reducible apply upd_trouble_cturn
    | with_reducible apply upd_ask_cturn
    | with_reducible apply annRemove_cturn
    | with_reducible apply call_cturn
    | (with_reducible apply each_cturn; intro _ _ _ _; try dsimp only)
    | with_reducible apply upd_cturn
    | split
    | with_reducible apply Turn.refl
    | exact .inl rfl
    | with_reducible exact mirrorDrill_turn _
    | with_reducible exact mirrorFire_turn _
    | with_reducible exact setDrill_turn _ _
    | (with_reducible apply Turn.of_blocks <;> first | rfl | exact id | simp)
    | (intro _ _ hm; simp at hm; done)

theorem annTimer_cturn {c0 c : Ctx} (h : CTurn c0 c) {n : Nat} {due : State → Ann → Bool} {act : Ann → Ctx → Ctx}
    (ha : ∀ a c, CTurn c0 c → CTurn c0 (act a c)) : CTurn c0 (annTimer n due act c) := by
  unfold annTimer
  split
  · exact h
  · split
    · exact ha _ _ h
    · exact h

end Sys2Proof.Machine
end

