-- ==== Sys2Proof/Laws/TurnDrill.lean ====
section
/-! SUPPORT. The operations of the Drill Controller are turns, but for the report of the fire input's end, which fire silence hears. -/

namespace Sys2Proof.Machine
open Sys2Proof

set_option linter.unusedTactic false
set_option linter.unreachableTactic false

theorem drillStart_cturn {c0 c : Ctx} (h : CTurn c0 c) {origin : DrillOrigin} {num : Nat} : CTurn c0 (drillStart origin num c) := by
  unfold drillStart
  try dsimp only
  repeat' first
    | with_reducible assumption
    | with_reducible apply say_cturn
    | with_reducible apply record_cturn
    | with_reducible apply upd_setLine_cturn
    | with_reducible apply upd_setNode_cturn
    | with_reducible apply upd_setAnn_cturn
    | with_reducible apply upd_setChannel_cturn
    | with_reducible apply upd_setDrill_cturn
    | with_reducible apply upd_setBell_cturn
    | with_reducible apply upd_setCircuit_cturn
    | with_reducible apply upd_trouble_cturn
    | with_reducible apply upd_ask_cturn
    | with_reducible apply call_cturn
    | (with_reducible apply each_cturn; intro _ _ _ _; try dsimp only)
    | with_reducible apply upd_cturn
    | split
    | with_reducible apply Turn.refl
    | exact .inl rfl
    | with_reducible exact mirrorDrill_turn _
    | with_reducible exact mirrorFire_turn _
    | with_reducible exact setDrill_turn _ _
    | (with_reducible apply Turn.of_blocks <;> first | rfl | exact id | simp)
    | (intro _ _ hm; simp at hm; done)

theorem drillAsk_cturn {c0 c : Ctx} (h : CTurn c0 c) {asker : DrillAsker} {num : Nat} : CTurn c0 (drillAsk asker num c) := by
  unfold drillAsk
  try dsimp only
  repeat' first
    | with_reducible assumption
    | with_reducible apply say_cturn
    | with_reducible apply record_cturn
    | with_reducible apply upd_setLine_cturn
    | with_reducible apply upd_setNode_cturn
    | with_reducible apply upd_setAnn_cturn
    | with_reducible apply upd_setChannel_cturn
    | with_reducible apply upd_setDrill_cturn
    | with_reducible apply upd_setBell_cturn
    | with_reducible apply upd_setCircuit_cturn
    | with_reducible apply upd_trouble_cturn
    | with_reducible apply upd_ask_cturn
    | with_reducible apply drillStart_cturn
    | with_reducible apply call_cturn
    | (with_reducible apply each_cturn; intro _ _ _ _; try dsimp only)
    | with_reducible apply upd_cturn
    | split
    | with_reducible apply Turn.refl
    | exact .inl rfl
    | with_reducible exact mirrorDrill_turn _
    | with_reducible exact mirrorFire_turn _
    | with_reducible exact setDrill_turn _ _
    | (with_reducible apply Turn.of_blocks <;> first | rfl | exact id | simp)
    | (intro _ _ hm; simp at hm; done)

theorem drillGive_cturn {c0 c : Ctx} (h : CTurn c0 c) {ch : Nat} : CTurn c0 (drillGive ch c) := by
  unfold drillGive
  try dsimp only
  repeat' first
    | with_reducible assumption
    | with_reducible apply say_cturn
    | with_reducible apply record_cturn
    | with_reducible apply upd_setLine_cturn
    | with_reducible apply upd_setNode_cturn
    | with_reducible apply upd_setAnn_cturn
    | with_reducible apply upd_setChannel_cturn
    | with_reducible apply upd_setDrill_cturn
    | with_reducible apply upd_setBell_cturn
    | with_reducible apply upd_setCircuit_cturn
    | with_reducible apply upd_trouble_cturn
    | with_reducible apply upd_ask_cturn
    | with_reducible apply call_cturn
    | (with_reducible apply each_cturn; intro _ _ _ _; try dsimp only)
    | with_reducible apply upd_cturn
    | split
    | with_reducible apply Turn.refl
    | exact .inl rfl
    | with_reducible exact mirrorDrill_turn _
    | with_reducible exact mirrorFire_turn _
    | with_reducible exact setDrill_turn _ _
    | (with_reducible apply Turn.of_blocks <;> first | rfl | exact id | simp)
    | (intro _ _ hm; simp at hm; done)

theorem drillClaim_cturn {c0 c : Ctx} (h : CTurn c0 c) {z : Nat} : CTurn c0 (drillClaim z c) := by
  unfold drillClaim
  try dsimp only
  repeat' first
    | with_reducible assumption
    | with_reducible apply say_cturn
    | with_reducible apply record_cturn
    | with_reducible apply upd_setLine_cturn
    | with_reducible apply upd_setNode_cturn
    | with_reducible apply upd_setAnn_cturn
    | with_reducible apply upd_setChannel_cturn
    | with_reducible apply upd_setDrill_cturn
    | with_reducible apply upd_setBell_cturn
    | with_reducible apply upd_setCircuit_cturn
    | with_reducible apply upd_trouble_cturn
    | with_reducible apply upd_ask_cturn
    | with_reducible apply claim_cturn
    | with_reducible apply call_cturn
    | (with_reducible apply each_cturn; intro _ _ _ _; try dsimp only)
    | with_reducible apply upd_cturn
    | split
    | with_reducible apply Turn.refl
    | exact .inl rfl
    | with_reducible exact mirrorDrill_turn _
    | with_reducible exact mirrorFire_turn _
    | with_reducible exact setDrill_turn _ _
    | (with_reducible apply Turn.of_blocks <;> first | rfl | exact id | simp)
    | (intro _ _ hm; simp at hm; done)

theorem drillAnswer_cturn {c0 c : Ctx} (h : CTurn c0 c) {num z : Nat} {a : Answer} : CTurn c0 (drillAnswer num z a c) := by
  unfold drillAnswer
  try dsimp only
  repeat' first
    | with_reducible assumption
    | with_reducible apply say_cturn
    | with_reducible apply record_cturn
    | with_reducible apply upd_setLine_cturn
    | with_reducible apply upd_setNode_cturn
    | with_reducible apply upd_setAnn_cturn
    | with_reducible apply upd_setChannel_cturn
    | with_reducible apply upd_setDrill_cturn
    | with_reducible apply upd_setBell_cturn
    | with_reducible apply upd_setCircuit_cturn
    | with_reducible apply upd_trouble_cturn
    | with_reducible apply upd_ask_cturn
    | with_reducible apply setCadence_cturn
    | with_reducible apply call_cturn
    | (with_reducible apply each_cturn; intro _ _ _ _; try dsimp only)
    | with_reducible apply upd_cturn
    | split
    | with_reducible apply Turn.refl
    | exact .inl rfl
    | with_reducible exact mirrorDrill_turn _
    | with_reducible exact mirrorFire_turn _
    | with_reducible exact setDrill_turn _ _
    | (with_reducible apply Turn.of_blocks <;> first | rfl | exact id | simp)
    | (intro _ _ hm; simp at hm; done)

theorem drillToneOn_cturn {c0 c : Ctx} (h : CTurn c0 c) : CTurn c0 (drillToneOn c) := by
  unfold drillToneOn
  try dsimp only
  repeat' first
    | with_reducible assumption
    | with_reducible apply say_cturn
    | with_reducible apply record_cturn
    | with_reducible apply upd_setLine_cturn
    | with_reducible apply upd_setNode_cturn
    | with_reducible apply upd_setAnn_cturn
    | with_reducible apply upd_setChannel_cturn
    | with_reducible apply upd_setDrill_cturn
    | with_reducible apply upd_setBell_cturn
    | with_reducible apply upd_setCircuit_cturn
    | with_reducible apply upd_trouble_cturn
    | with_reducible apply upd_ask_cturn
    | with_reducible apply toneOn_cturn
    | with_reducible apply call_cturn
    | (with_reducible apply each_cturn; intro _ _ _ _; try dsimp only)
    | with_reducible apply upd_cturn
    | split
    | with_reducible apply Turn.refl
    | exact .inl rfl
    | with_reducible exact mirrorDrill_turn _
    | with_reducible exact mirrorFire_turn _
    | with_reducible exact setDrill_turn _ _
    | (with_reducible apply Turn.of_blocks <;> first | rfl | exact id | simp)
    | (intro _ _ hm; simp at hm; done)

theorem drillStarted_cturn {c0 c : Ctx} (h : CTurn c0 c) : CTurn c0 (drillStarted c) := by
  unfold drillStarted
  try dsimp only
  repeat' first
    | with_reducible assumption
    | with_reducible apply say_cturn
    | with_reducible apply record_cturn
    | with_reducible apply upd_setLine_cturn
    | with_reducible apply upd_setNode_cturn
    | with_reducible apply upd_setAnn_cturn
    | with_reducible apply upd_setChannel_cturn
    | with_reducible apply upd_setDrill_cturn
    | with_reducible apply upd_setBell_cturn
    | with_reducible apply upd_setCircuit_cturn
    | with_reducible apply upd_trouble_cturn
    | with_reducible apply upd_ask_cturn
    | with_reducible apply call_cturn
    | (with_reducible apply each_cturn; intro _ _ _ _; try dsimp only)
    | with_reducible apply upd_cturn
    | split
    | with_reducible apply Turn.refl
    | exact .inl rfl
    | with_reducible exact mirrorDrill_turn _
    | with_reducible exact mirrorFire_turn _
    | with_reducible exact setDrill_turn _ _
    | (with_reducible apply Turn.of_blocks <;> first | rfl | exact id | simp)
    | (intro _ _ hm; simp at hm; done)

theorem stopCadences_cturn {c0 c : Ctx} (h : CTurn c0 c) : CTurn c0 (stopCadences c) := by
  unfold stopCadences
  try dsimp only
  repeat' first
    | with_reducible assumption
    | with_reducible apply say_cturn
    | with_reducible apply record_cturn
    | with_reducible apply upd_setLine_cturn
    | with_reducible apply upd_setNode_cturn
    | with_reducible apply upd_setAnn_cturn
    | with_reducible apply upd_setChannel_cturn
    | with_reducible apply upd_setDrill_cturn
    | with_reducible apply upd_setBell_cturn
    | with_reducible apply upd_setCircuit_cturn
    | with_reducible apply upd_trouble_cturn
    | with_reducible apply upd_ask_cturn
    | with_reducible apply setCadence_cturn
    | with_reducible apply call_cturn
    | (with_reducible apply each_cturn; intro _ _ _ _; try dsimp only)
    | with_reducible apply upd_cturn
    | split
    | with_reducible apply Turn.refl
    | exact .inl rfl
    | with_reducible exact mirrorDrill_turn _
    | with_reducible exact mirrorFire_turn _
    | with_reducible exact setDrill_turn _ _
    | (with_reducible apply Turn.of_blocks <;> first | rfl | exact id | simp)
    | (intro _ _ hm; simp at hm; done)

theorem soundingEnd_cturn {c0 c : Ctx} (h : CTurn c0 c) {cause : PhaseCause} : CTurn c0 (soundingEnd cause c) := by
  unfold soundingEnd
  try dsimp only
  repeat' first
    | with_reducible assumption
    | with_reducible apply say_cturn
    | with_reducible apply record_cturn
    | with_reducible apply upd_setLine_cturn
    | with_reducible apply upd_setNode_cturn
    | with_reducible apply upd_setAnn_cturn
    | with_reducible apply upd_setChannel_cturn
    | with_reducible apply upd_setDrill_cturn
    | with_reducible apply upd_setBell_cturn
    | with_reducible apply upd_setCircuit_cturn
    | with_reducible apply upd_trouble_cturn
    | with_reducible apply upd_ask_cturn
    | with_reducible apply setSound_cturn
    | with_reducible apply stopCadences_cturn
    | with_reducible apply call_cturn
    | (with_reducible apply each_cturn; intro _ _ _ _; try dsimp only)
    | with_reducible apply upd_cturn
    | split
    | with_reducible apply Turn.refl
    | exact .inl rfl
    | with_reducible exact mirrorDrill_turn _
    | with_reducible exact mirrorFire_turn _
    | with_reducible exact setDrill_turn _ _
    | (with_reducible apply Turn.of_blocks <;> first | rfl | exact id | simp)
    | (intro _ _ hm; simp at hm; done)

theorem drillToneOff_cturn {c0 c : Ctx} (h : CTurn c0 c) : CTurn c0 (drillToneOff c) := by
  unfold drillToneOff
  try dsimp only
  repeat' first
    | with_reducible assumption
    | with_reducible apply say_cturn
    | with_reducible apply record_cturn
    | with_reducible apply upd_setLine_cturn
    | with_reducible apply upd_setNode_cturn
    | with_reducible apply upd_setAnn_cturn
    | with_reducible apply upd_setChannel_cturn
    | with_reducible apply upd_setDrill_cturn
    | with_reducible apply upd_setBell_cturn
    | with_reducible apply upd_setCircuit_cturn
    | with_reducible apply upd_trouble_cturn
    | with_reducible apply upd_ask_cturn
    | with_reducible apply toneOff_cturn
    | with_reducible apply call_cturn
    | (with_reducible apply each_cturn; intro _ _ _ _; try dsimp only)
    | with_reducible apply upd_cturn
    | split
    | with_reducible apply Turn.refl
    | exact .inl rfl
    | with_reducible exact mirrorDrill_turn _
    | with_reducible exact mirrorFire_turn _
    | with_reducible exact setDrill_turn _ _
    | (with_reducible apply Turn.of_blocks <;> first | rfl | exact id | simp)
    | (intro _ _ hm; simp at hm; done)

theorem drillChannelBack_cturn {c0 c : Ctx} (h : CTurn c0 c) : CTurn c0 (drillChannelBack c) := by
  unfold drillChannelBack
  try dsimp only
  repeat' first
    | with_reducible assumption
    | with_reducible apply say_cturn
    | with_reducible apply record_cturn
    | with_reducible apply upd_setLine_cturn
    | with_reducible apply upd_setNode_cturn
    | with_reducible apply upd_setAnn_cturn
    | with_reducible apply upd_setChannel_cturn
    | with_reducible apply upd_setDrill_cturn
    | with_reducible apply upd_setBell_cturn
    | with_reducible apply upd_setCircuit_cturn
    | with_reducible apply upd_trouble_cturn
    | with_reducible apply upd_ask_cturn
    | with_reducible apply call_cturn
    | (with_reducible apply each_cturn; intro _ _ _ _; try dsimp only)
    | with_reducible apply upd_cturn
    | split
    | with_reducible apply Turn.refl
    | exact .inl rfl
    | with_reducible exact mirrorDrill_turn _
    | with_reducible exact mirrorFire_turn _
    | with_reducible exact setDrill_turn _ _
    | (with_reducible apply Turn.of_blocks <;> first | rfl | exact id | simp)
    | (intro _ _ hm; simp at hm; done)

theorem phaseNote_cturn {c0 c : Ctx} (h : CTurn c0 c) {p : DrillPhase} {cause : PhaseCause} : CTurn c0 (phaseNote p cause c) := by
  unfold phaseNote
  try dsimp only
  repeat' first
    | with_reducible assumption
    | with_reducible apply say_cturn
    | with_reducible apply record_cturn
    | with_reducible apply upd_setLine_cturn
    | with_reducible apply upd_setNode_cturn
    | with_reducible apply upd_setAnn_cturn
    | with_reducible apply upd_setChannel_cturn
    | with_reducible apply upd_setDrill_cturn
    | with_reducible apply upd_setBell_cturn
    | with_reducible apply upd_setCircuit_cturn
    | with_reducible apply upd_trouble_cturn
    | with_reducible apply upd_ask_cturn
    | with_reducible apply call_cturn
    | (with_reducible apply each_cturn; intro _ _ _ _; try dsimp only)
    | with_reducible apply upd_cturn
    | split
    | with_reducible apply Turn.refl
    | exact .inl rfl
    | with_reducible exact mirrorDrill_turn _
    | with_reducible exact mirrorFire_turn _
    | with_reducible exact setDrill_turn _ _
    | (with_reducible apply Turn.of_blocks <;> first | rfl | exact id | simp)
    | (intro _ _ hm; simp at hm; done)

theorem allClearBegin_cturn {c0 c : Ctx} (h : CTurn c0 c) : CTurn c0 (allClearBegin c) := by
  unfold allClearBegin
  try dsimp only
  repeat' first
    | with_reducible assumption
    | with_reducible apply say_cturn
    | with_reducible apply record_cturn
    | with_reducible apply upd_setLine_cturn
    | with_reducible apply upd_setNode_cturn
    | with_reducible apply upd_setAnn_cturn
    | with_reducible apply upd_setChannel_cturn
    | with_reducible apply upd_setDrill_cturn
    | with_reducible apply upd_setBell_cturn
    | with_reducible apply upd_setCircuit_cturn
    | with_reducible apply upd_trouble_cturn
    | with_reducible apply upd_ask_cturn
    | with_reducible apply call_cturn
    | (with_reducible apply each_cturn; intro _ _ _ _; try dsimp only)
    | with_reducible apply upd_cturn
    | split
    | with_reducible apply Turn.refl
    | exact .inl rfl
    | with_reducible exact mirrorDrill_turn _
    | with_reducible exact mirrorFire_turn _
    | with_reducible exact setDrill_turn _ _
    | (with_reducible apply Turn.of_blocks <;> first | rfl | exact id | simp)
    | (intro _ _ hm; simp at hm; done)

theorem allClearClaim_cturn {c0 c : Ctx} (h : CTurn c0 c) {z p len : Nat} : CTurn c0 (allClearClaim z p len c) := by
  unfold allClearClaim
  try dsimp only
  repeat' first
    | with_reducible assumption
    | with_reducible apply say_cturn
    | with_reducible apply record_cturn
    | with_reducible apply upd_setLine_cturn
    | with_reducible apply upd_setNode_cturn
    | with_reducible apply upd_setAnn_cturn
    | with_reducible apply upd_setChannel_cturn
    | with_reducible apply upd_setDrill_cturn
    | with_reducible apply upd_setBell_cturn
    | with_reducible apply upd_setCircuit_cturn
    | with_reducible apply upd_trouble_cturn
    | with_reducible apply upd_ask_cturn
    | with_reducible apply claim_cturn
    | with_reducible apply setCadence_cturn
    | with_reducible apply setSound_cturn
    | with_reducible apply call_cturn
    | (with_reducible apply each_cturn; intro _ _ _ _; try dsimp only)
    | with_reducible apply upd_cturn
    | split
    | with_reducible apply Turn.refl
    | exact .inl rfl
    | with_reducible exact mirrorDrill_turn _
    | with_reducible exact mirrorFire_turn _
    | with_reducible exact setDrill_turn _ _
    | (with_reducible apply Turn.of_blocks <;> first | rfl | exact id | simp)
    | (intro _ _ hm; simp at hm; done)

theorem allClearCheck_cturn {c0 c : Ctx} (h : CTurn c0 c) : CTurn c0 (allClearCheck c) := by
  unfold allClearCheck
  try dsimp only
  repeat' first
    | with_reducible assumption
    | with_reducible apply say_cturn
    | with_reducible apply record_cturn
    | with_reducible apply upd_setLine_cturn
    | with_reducible apply upd_setNode_cturn
    | with_reducible apply upd_setAnn_cturn
    | with_reducible apply upd_setChannel_cturn
    | with_reducible apply upd_setDrill_cturn
    | with_reducible apply upd_setBell_cturn
    | with_reducible apply upd_setCircuit_cturn
    | with_reducible apply upd_trouble_cturn
    | with_reducible apply upd_ask_cturn
    | with_reducible apply call_cturn
    | (with_reducible apply each_cturn; intro _ _ _ _; try dsimp only)
    | with_reducible apply upd_cturn
    | split
    | with_reducible apply Turn.refl
    | exact .inl rfl
    | with_reducible exact mirrorDrill_turn _
    | with_reducible exact mirrorFire_turn _
    | with_reducible exact setDrill_turn _ _
    | (with_reducible apply Turn.of_blocks <;> first | rfl | exact id | simp)
    | (intro _ _ hm; simp at hm; done)

theorem drillEnd_cturn {c0 c : Ctx} (h : CTurn c0 c) {r : DrillEnd} : CTurn c0 (drillEnd r c) := by
  unfold drillEnd
  try dsimp only
  repeat' first
    | with_reducible assumption
    | with_reducible apply say_cturn
    | with_reducible apply record_cturn
    | with_reducible apply upd_setLine_cturn
    | with_reducible apply upd_setNode_cturn
    | with_reducible apply upd_setAnn_cturn
    | with_reducible apply upd_setChannel_cturn
    | with_reducible apply upd_setDrill_cturn
    | with_reducible apply upd_setBell_cturn
    | with_reducible apply upd_setCircuit_cturn
    | with_reducible apply upd_trouble_cturn
    | with_reducible apply upd_ask_cturn
    | with_reducible apply stopCadences_cturn
    | with_reducible apply call_cturn
    | (with_reducible apply each_cturn; intro _ _ _ _; try dsimp only)
    | with_reducible apply upd_cturn
    | split
    | with_reducible apply Turn.refl
    | exact .inl rfl
    | with_reducible exact mirrorDrill_turn _
    | with_reducible exact mirrorFire_turn _
    | with_reducible exact setDrill_turn _ _
    | (with_reducible apply Turn.of_blocks <;> first | rfl | exact id | simp)
    | (intro _ _ hm; simp at hm; done)

theorem drillRelease_cturn {c0 c : Ctx} (h : CTurn c0 c) : CTurn c0 (drillRelease c) := by
  unfold drillRelease
  try dsimp only
  repeat' first
    | with_reducible assumption
    | with_reducible apply say_cturn
    | with_reducible apply record_cturn
    | with_reducible apply upd_setLine_cturn
    | with_reducible apply upd_setNode_cturn
    | with_reducible apply upd_setAnn_cturn
    | with_reducible apply upd_setChannel_cturn
    | with_reducible apply upd_setDrill_cturn
    | with_reducible apply upd_setBell_cturn
    | with_reducible apply upd_setCircuit_cturn
    | with_reducible apply upd_trouble_cturn
    | with_reducible apply upd_ask_cturn
    | with_reducible apply releaseAll_cturn
    | with_reducible apply call_cturn
    | (with_reducible apply each_cturn; intro _ _ _ _; try dsimp only)
    | with_reducible apply upd_cturn
    | split
    | with_reducible apply Turn.refl
    | exact .inl rfl
    | with_reducible exact mirrorDrill_turn _
    | with_reducible exact mirrorFire_turn _
    | with_reducible exact setDrill_turn _ _
    | (with_reducible apply Turn.of_blocks <;> first | rfl | exact id | simp)
    | (intro _ _ hm; simp at hm; done)

theorem drillClose_cturn {c0 c : Ctx} (h : CTurn c0 c) {r : DrillEnd} : CTurn c0 (drillClose r c) := by
  unfold drillClose
  try dsimp only
  repeat' first
    | with_reducible assumption
    | with_reducible apply say_cturn
    | with_reducible apply record_cturn
    | with_reducible apply upd_setLine_cturn
    | with_reducible apply upd_setNode_cturn
    | with_reducible apply upd_setAnn_cturn
    | with_reducible apply upd_setChannel_cturn
    | with_reducible apply upd_setDrill_cturn
    | with_reducible apply upd_setBell_cturn
    | with_reducible apply upd_setCircuit_cturn
    | with_reducible apply upd_trouble_cturn
    | with_reducible apply upd_ask_cturn
    | with_reducible apply call_cturn
    | (with_reducible apply each_cturn; intro _ _ _ _; try dsimp only)
    | with_reducible apply upd_cturn
    | split
    | with_reducible apply Turn.refl
    | exact .inl rfl
    | with_reducible exact mirrorDrill_turn _
    | with_reducible exact mirrorFire_turn _
    | with_reducible exact setDrill_turn _ _
    | (with_reducible apply Turn.of_blocks <;> first | rfl | exact id | simp)
    | (intro _ _ hm; simp at hm; done)

theorem clearReport_cturn {c0 c : Ctx} (h : CTurn c0 c) {b : Nat} {src : ClearSource} : CTurn c0 (clearReport b src c) := by
  unfold clearReport
  try dsimp only
  repeat' first
    | with_reducible assumption
    | with_reducible apply say_cturn
    | with_reducible apply record_cturn
    | with_reducible apply upd_setLine_cturn
    | with_reducible apply upd_setNode_cturn
    | with_reducible apply upd_setAnn_cturn
    | with_reducible apply upd_setChannel_cturn
    | with_reducible apply upd_setDrill_cturn
    | with_reducible apply upd_setBell_cturn
    | with_reducible apply upd_setCircuit_cturn
    | with_reducible apply upd_trouble_cturn
    | with_reducible apply upd_ask_cturn
    | with_reducible apply call_cturn
    | (with_reducible apply each_cturn; intro _ _ _ _; try dsimp only)
    | with_reducible apply upd_cturn
    | split
    | with_reducible apply Turn.refl
    | exact .inl rfl
    | with_reducible exact mirrorDrill_turn _
    | with_reducible exact mirrorFire_turn _
    | with_reducible exact setDrill_turn _ _
    | (with_reducible apply Turn.of_blocks <;> first | rfl | exact id | simp)
    | (intro _ _ hm; simp at hm; done)

theorem targetReached_cturn {c0 c : Ctx} (h : CTurn c0 c) : CTurn c0 (targetReached c) := by
  unfold targetReached
  try dsimp only
  repeat' first
    | with_reducible assumption
    | with_reducible apply say_cturn
    | with_reducible apply record_cturn
    | with_reducible apply upd_setLine_cturn
    | with_reducible apply upd_setNode_cturn
    | with_reducible apply upd_setAnn_cturn
    | with_reducible apply upd_setChannel_cturn
    | with_reducible apply upd_setDrill_cturn
    | with_reducible apply upd_setBell_cturn
    | with_reducible apply upd_setCircuit_cturn
    | with_reducible apply upd_trouble_cturn
    | with_reducible apply upd_ask_cturn
    | with_reducible apply call_cturn
    | (with_reducible apply each_cturn; intro _ _ _ _; try dsimp only)
    | with_reducible apply upd_cturn
    | split
    | with_reducible apply Turn.refl
    | exact .inl rfl
    | with_reducible exact mirrorDrill_turn _
    | with_reducible exact mirrorFire_turn _
    | with_reducible exact setDrill_turn _ _
    | (with_reducible apply Turn.of_blocks <;> first | rfl | exact id | simp)
    | (intro _ _ hm; simp at hm; done)

theorem drillZoneEnd_cturn {c0 c : Ctx} (h : CTurn c0 c) {z : Nat} {p : DrillPhase} : CTurn c0 (drillZoneEnd z p c) := by
  unfold drillZoneEnd
  try dsimp only
  repeat' first
    | with_reducible assumption
    | with_reducible apply say_cturn
    | with_reducible apply record_cturn
    | with_reducible apply upd_setLine_cturn
    | with_reducible apply upd_setNode_cturn
    | with_reducible apply upd_setAnn_cturn
    | with_reducible apply upd_setChannel_cturn
    | with_reducible apply upd_setDrill_cturn
    | with_reducible apply upd_setBell_cturn
    | with_reducible apply upd_setCircuit_cturn
    | with_reducible apply upd_trouble_cturn
    | with_reducible apply upd_ask_cturn
    | with_reducible apply setCadence_cturn
    | with_reducible apply allClearCheck_cturn
    | with_reducible apply call_cturn
    | (with_reducible apply each_cturn; intro _ _ _ _; try dsimp only)
    | with_reducible apply upd_cturn
    | split
    | with_reducible apply Turn.refl
    | exact .inl rfl
    | with_reducible exact mirrorDrill_turn _
    | with_reducible exact mirrorFire_turn _
    | with_reducible exact setDrill_turn _ _
    | (with_reducible apply Turn.of_blocks <;> first | rfl | exact id | simp)
    | (intro _ _ hm; simp at hm; done)

theorem drillZoneStep_cturn {c0 c : Ctx} (h : CTurn c0 c) {z : Nat} : CTurn c0 (drillZoneStep z c) := by
  unfold drillZoneStep
  try dsimp only
  repeat' first
    | with_reducible assumption
    | with_reducible apply say_cturn
    | with_reducible apply record_cturn
    | with_reducible apply upd_setLine_cturn
    | with_reducible apply upd_setNode_cturn
    | with_reducible apply upd_setAnn_cturn
    | with_reducible apply upd_setChannel_cturn
    | with_reducible apply upd_setDrill_cturn
    | with_reducible apply upd_setBell_cturn
    | with_reducible apply upd_setCircuit_cturn
    | with_reducible apply upd_trouble_cturn
    | with_reducible apply upd_ask_cturn
    | with_reducible apply setCadence_cturn
    | with_reducible apply call_cturn
    | (with_reducible apply each_cturn; intro _ _ _ _; try dsimp only)
    | with_reducible apply upd_cturn
    | split
    | with_reducible apply Turn.refl
    | exact .inl rfl
    | with_reducible exact mirrorDrill_turn _
    | with_reducible exact mirrorFire_turn _
    | with_reducible exact setDrill_turn _ _
    | (with_reducible apply Turn.of_blocks <;> first | rfl | exact id | simp)
    | (intro _ _ hm; simp at hm; done)

theorem drillToneStep_cturn {c0 c : Ctx} (h : CTurn c0 c) : CTurn c0 (drillToneStep c) := by
  unfold drillToneStep
  try dsimp only
  repeat' first
    | with_reducible assumption
    | with_reducible apply say_cturn
    | with_reducible apply record_cturn
    | with_reducible apply upd_setLine_cturn
    | with_reducible apply upd_setNode_cturn
    | with_reducible apply upd_setAnn_cturn
    | with_reducible apply upd_setChannel_cturn
    | with_reducible apply upd_setDrill_cturn
    | with_reducible apply upd_setBell_cturn
    | with_reducible apply upd_setCircuit_cturn
    | with_reducible apply upd_trouble_cturn
    | with_reducible apply upd_ask_cturn
    | with_reducible apply call_cturn
    | (with_reducible apply each_cturn; intro _ _ _ _; try dsimp only)
    | with_reducible apply upd_cturn
    | split
    | with_reducible apply Turn.refl
    | exact .inl rfl
    | with_reducible exact mirrorDrill_turn _
    | with_reducible exact mirrorFire_turn _
    | with_reducible exact setDrill_turn _ _
    | (with_reducible apply Turn.of_blocks <;> first | rfl | exact id | simp)
    | (intro _ _ hm; simp at hm; done)

theorem fireAlarmOn_cturn {c0 c : Ctx} (h : CTurn c0 c) : CTurn c0 (fireAlarmOn c) := by
  unfold fireAlarmOn
  try dsimp only
  repeat' first
    | with_reducible assumption
    | with_reducible apply say_cturn
    | with_reducible apply record_cturn
    | with_reducible apply upd_setLine_cturn
    | with_reducible apply upd_setNode_cturn
    | with_reducible apply upd_setAnn_cturn
    | with_reducible apply upd_setChannel_cturn
    | with_reducible apply upd_setDrill_cturn
    | with_reducible apply upd_setBell_cturn
    | with_reducible apply upd_setCircuit_cturn
    | with_reducible apply upd_trouble_cturn
    | with_reducible apply upd_ask_cturn
    | with_reducible apply call_cturn
    | (with_reducible apply each_cturn; intro _ _ _ _; try dsimp only)
    | with_reducible apply upd_cturn
    | split
    | with_reducible apply Turn.refl
    | exact .inl rfl
    | with_reducible exact mirrorDrill_turn _
    | with_reducible exact mirrorFire_turn _
    | with_reducible exact setDrill_turn _ _
    | (with_reducible apply Turn.of_blocks <;> first | rfl | exact id | simp)
    | (intro _ _ hm; simp at hm; done)

end Sys2Proof.Machine
end

