-- ==== Sys2Proof/Laws/TurnClocks.lean ====
section
/-! SUPPORT. The operations of the Clock Unit are turns. -/

namespace Sys2Proof.Machine
open Sys2Proof

set_option linter.unusedTactic false
set_option linter.unreachableTactic false

theorem circuitBecomes_cturn {c0 c : Ctx} (h : CTurn c0 c) {i : Nat} {old new : CircuitState} : CTurn c0 (circuitBecomes i old new c) := by
  unfold circuitBecomes
  try dsimp only
  repeat' first
    | with_reducible assumption
    | with_reducible apply say_cturn
    | with_reducible apply record_cturn
    | with_reducible apply upd_setLine_cturn
    | with_reducible apply upd_setNode_cturn
    | with_reducible apply upd_setAnn_cturn
    | with_reducible apply upd_setChannel_cturn
    | with_reducible apply upd_setDrill_cturn
    | with_reducible apply upd_setBell_cturn
    | with_reducible apply upd_setCircuit_cturn
    | with_reducible apply upd_trouble_cturn
    | with_reducible apply upd_ask_cturn
    | with_reducible apply call_cturn
    | (with_reducible apply each_cturn; intro _ _ _ _; try dsimp only)
    | with_reducible apply upd_cturn
    | split
    | with_reducible apply Turn.refl
    | exact .inl rfl
    | with_reducible exact mirrorDrill_turn _
    | with_reducible exact mirrorFire_turn _
    | with_reducible exact setDrill_turn _ _
    | (with_reducible apply Turn.of_blocks <;> first | rfl | exact id | simp)
    | (intro _ _ hm; simp at hm; done)

theorem circuitDecide_cturn {c0 c : Ctx} (h : CTurn c0 c) {i : Nat} {old : CircuitState} : CTurn c0 (circuitDecide i old c) := by
  unfold circuitDecide
  try dsimp only
  repeat' first
    | with_reducible assumption
    | with_reducible apply say_cturn
    | with_reducible apply record_cturn
    | with_reducible apply upd_setLine_cturn
    | with_reducible apply upd_setNode_cturn
    | with_reducible apply upd_setAnn_cturn
    | with_reducible apply upd_setChannel_cturn
    | with_reducible apply upd_setDrill_cturn
    | with_reducible apply upd_setBell_cturn
    | with_reducible apply upd_setCircuit_cturn
    | with_reducible apply upd_trouble_cturn
    | with_reducible apply upd_ask_cturn
    | with_reducible apply circuitBecomes_cturn
    | with_reducible apply call_cturn
    | (with_reducible apply each_cturn; intro _ _ _ _; try dsimp only)
    | with_reducible apply upd_cturn
    | split
    | with_reducible apply Turn.refl
    | exact .inl rfl
    | with_reducible exact mirrorDrill_turn _
    | with_reducible exact mirrorFire_turn _
    | with_reducible exact setDrill_turn _ _
    | (with_reducible apply Turn.of_blocks <;> first | rfl | exact id | simp)
    | (intro _ _ hm; simp at hm; done)

theorem circuitPoint_cturn {c0 c : Ctx} (h : CTurn c0 c) {i : Nat} : CTurn c0 (circuitPoint i c) := by
  unfold circuitPoint
  try dsimp only
  repeat' first
    | with_reducible assumption
    | with_reducible apply say_cturn
    | with_reducible apply record_cturn
    | with_reducible apply upd_setLine_cturn
    | with_reducible apply upd_setNode_cturn
    | with_reducible apply upd_setAnn_cturn
    | with_reducible apply upd_setChannel_cturn
    | with_reducible apply upd_setDrill_cturn
    | with_reducible apply upd_setBell_cturn
    | with_reducible apply upd_setCircuit_cturn
    | with_reducible apply upd_trouble_cturn
    | with_reducible apply upd_ask_cturn
    | with_reducible apply circuitDecide_cturn
    | with_reducible apply call_cturn
    | (with_reducible apply each_cturn; intro _ _ _ _; try dsimp only)
    | with_reducible apply upd_cturn
    | split
    | with_reducible apply Turn.refl
    | exact .inl rfl
    | with_reducible exact mirrorDrill_turn _
    | with_reducible exact mirrorFire_turn _
    | with_reducible exact setDrill_turn _ _
    | (with_reducible apply Turn.of_blocks <;> first | rfl | exact id | simp)
    | (intro _ _ hm; simp at hm; done)

theorem pulseStart_cturn {c0 c : Ctx} (h : CTurn c0 c) {i : Nat} : CTurn c0 (pulseStart i c) := by
  unfold pulseStart
  try dsimp only
  repeat' first
    | with_reducible assumption
    | with_reducible apply say_cturn
    | with_reducible apply record_cturn
    | with_reducible apply upd_setLine_cturn
    | with_reducible apply upd_setNode_cturn
    | with_reducible apply upd_setAnn_cturn
    | with_reducible apply upd_setChannel_cturn
    | with_reducible apply upd_setDrill_cturn
    | with_reducible apply upd_setBell_cturn
    | with_reducible apply upd_setCircuit_cturn
    | with_reducible apply upd_trouble_cturn
    | with_reducible apply upd_ask_cturn
    | with_reducible apply call_cturn
    | (with_reducible apply each_cturn; intro _ _ _ _; try dsimp only)
    | with_reducible apply upd_cturn
    | split
    | with_reducible apply Turn.refl
    | exact .inl rfl
    | with_reducible exact mirrorDrill_turn _
    | with_reducible exact mirrorFire_turn _
    | with_reducible exact setDrill_turn _ _
    | (with_reducible apply Turn.of_blocks <;> first | rfl | exact id | simp)
    | (intro _ _ hm; simp at hm; done)

theorem circuitFault_cturn {c0 c : Ctx} (h : CTurn c0 c) {i : Nat} {old : CircuitState} : CTurn c0 (circuitFault i old c) := by
  unfold circuitFault
  try dsimp only
  repeat' first
    | with_reducible assumption
    | with_reducible apply say_cturn
    | with_reducible apply record_cturn
    | with_reducible apply upd_setLine_cturn
    | with_reducible apply upd_setNode_cturn
    | with_reducible apply upd_setAnn_cturn
    | with_reducible apply upd_setChannel_cturn
    | with_reducible apply upd_setDrill_cturn
    | with_reducible apply upd_setBell_cturn
    | with_reducible apply upd_setCircuit_cturn
    | with_reducible apply upd_trouble_cturn
    | with_reducible apply upd_ask_cturn
    | with_reducible apply circuitBecomes_cturn
    | with_reducible apply call_cturn
    | (with_reducible apply each_cturn; intro _ _ _ _; try dsimp only)
    | with_reducible apply upd_cturn
    | split
    | with_reducible apply Turn.refl
    | exact .inl rfl
    | with_reducible exact mirrorDrill_turn _
    | with_reducible exact mirrorFire_turn _
    | with_reducible exact setDrill_turn _ _
    | (with_reducible apply Turn.of_blocks <;> first | rfl | exact id | simp)
    | (intro _ _ hm; simp at hm; done)

theorem pulseComplete_cturn {c0 c : Ctx} (h : CTurn c0 c) {i : Nat} {current : Bool} : CTurn c0 (pulseComplete i current c) := by
  unfold pulseComplete
  try dsimp only
  repeat' first
    | with_reducible assumption
    | with_reducible apply say_cturn
    | with_reducible apply record_cturn
    | with_reducible apply upd_setLine_cturn
    | with_reducible apply upd_setNode_cturn
    | with_reducible apply upd_setAnn_cturn
    | with_reducible apply upd_setChannel_cturn
    | with_reducible apply upd_setDrill_cturn
    | with_reducible apply upd_setBell_cturn
    | with_reducible apply upd_setCircuit_cturn
    | with_reducible apply upd_trouble_cturn
    | with_reducible apply upd_ask_cturn
    | with_reducible apply circuitPoint_cturn
    | with_reducible apply circuitFault_cturn
    | with_reducible apply call_cturn
    | (with_reducible apply each_cturn; intro _ _ _ _; try dsimp only)
    | with_reducible apply upd_cturn
    | split
    | with_reducible apply Turn.refl
    | exact .inl rfl
    | with_reducible exact mirrorDrill_turn _
    | with_reducible exact mirrorFire_turn _
    | with_reducible exact setDrill_turn _ _
    | (with_reducible apply Turn.of_blocks <;> first | rfl | exact id | simp)
    | (intro _ _ hm; simp at hm; done)

theorem timeAll_cturn {c0 c : Ctx} (h : CTurn c0 c) {now : CampusTime} {ln : Nat} : CTurn c0 (timeAll now ln c) := by
  unfold timeAll
  try dsimp only
  repeat' first
    | with_reducible assumption
    | with_reducible apply say_cturn
    | with_reducible apply record_cturn
    | with_reducible apply upd_setLine_cturn
    | with_reducible apply upd_setNode_cturn
    | with_reducible apply upd_setAnn_cturn
    | with_reducible apply upd_setChannel_cturn
    | with_reducible apply upd_setDrill_cturn
    | with_reducible apply upd_setBell_cturn
    | with_reducible apply upd_setCircuit_cturn
    | with_reducible apply upd_trouble_cturn
    | with_reducible apply upd_ask_cturn
    | with_reducible apply offerTx_cturn
    | with_reducible apply withdraw_cturn
    | with_reducible apply call_cturn
    | (with_reducible apply each_cturn; intro _ _ _ _; try dsimp only)
    | with_reducible apply upd_cturn
    | split
    | with_reducible apply Turn.refl
    | exact .inl rfl
    | with_reducible exact mirrorDrill_turn _
    | with_reducible exact mirrorFire_turn _
    | with_reducible exact setDrill_turn _ _
    | (with_reducible apply Turn.of_blocks <;> first | rfl | exact id | simp)
    | (intro _ _ hm; simp at hm; done)

theorem minuteEvent_cturn {c0 c : Ctx} (h : CTurn c0 c) {now : CampusTime} : CTurn c0 (minuteEvent now c) := by
  unfold minuteEvent
  try dsimp only
  repeat' first
    | with_reducible assumption
    | with_reducible apply say_cturn
    | with_reducible apply record_cturn
    | with_reducible apply upd_setLine_cturn
    | with_reducible apply upd_setNode_cturn
    | with_reducible apply upd_setAnn_cturn
    | with_reducible apply upd_setChannel_cturn
    | with_reducible apply upd_setDrill_cturn
    | with_reducible apply upd_setBell_cturn
    | with_reducible apply upd_setCircuit_cturn
    | with_reducible apply upd_trouble_cturn
    | with_reducible apply upd_ask_cturn
    | with_reducible apply circuitPoint_cturn
    | with_reducible apply timeAll_cturn
    | with_reducible apply call_cturn
    | (with_reducible apply each_cturn; intro _ _ _ _; try dsimp only)
    | with_reducible apply upd_cturn
    | split
    | with_reducible apply Turn.refl
    | exact .inl rfl
    | with_reducible exact mirrorDrill_turn _
    | with_reducible exact mirrorFire_turn _
    | with_reducible exact setDrill_turn _ _
    | (with_reducible apply Turn.of_blocks <;> first | rfl | exact id | simp)
    | (intro _ _ hm; simp at hm; done)

theorem circuitsStep_cturn {c0 c : Ctx} (h : CTurn c0 c) : CTurn c0 (circuitsStep c) := by
  unfold circuitsStep
  try dsimp only
  repeat' first
    | with_reducible assumption
    | with_reducible apply say_cturn
    | with_reducible apply record_cturn
    | with_reducible apply upd_setLine_cturn
    | with_reducible apply upd_setNode_cturn
    | with_reducible apply upd_setAnn_cturn
    | with_reducible apply upd_setChannel_cturn
    | with_reducible apply upd_setDrill_cturn
    | with_reducible apply upd_setBell_cturn
    | with_reducible apply upd_setCircuit_cturn
    | with_reducible apply upd_trouble_cturn
    | with_reducible apply upd_ask_cturn
    | with_reducible apply circuitPoint_cturn
    | with_reducible apply call_cturn
    | (with_reducible apply each_cturn; intro _ _ _ _; try dsimp only)
    | with_reducible apply upd_cturn
    | split
    | with_reducible apply Turn.refl
    | exact .inl rfl
    | with_reducible exact mirrorDrill_turn _
    | with_reducible exact mirrorFire_turn _
    | with_reducible exact setDrill_turn _ _
    | (with_reducible apply Turn.of_blocks <;> first | rfl | exact id | simp)
    | (intro _ _ hm; simp at hm; done)

theorem clockShown_cturn {c0 c : Ctx} (h : CTurn c0 c) {ln a : Nat} {shown : Option Nat} : CTurn c0 (clockShown ln a shown c) := by
  unfold clockShown
  try dsimp only
  repeat' first
    | with_reducible assumption
    | with_reducible apply say_cturn
    | with_reducible apply record_cturn
    | with_reducible apply upd_setLine_cturn
    | with_reducible apply upd_setNode_cturn
    | with_reducible apply upd_setAnn_cturn
    | with_reducible apply upd_setChannel_cturn
    | with_reducible apply upd_setDrill_cturn
    | with_reducible apply upd_setBell_cturn
    | with_reducible apply upd_setCircuit_cturn
    | with_reducible apply upd_trouble_cturn
    | with_reducible apply upd_ask_cturn
    | with_reducible apply offerTx_cturn
    | with_reducible apply call_cturn
    | (with_reducible apply each_cturn; intro _ _ _ _; try dsimp only)
    | with_reducible apply upd_cturn
    | split
    | with_reducible apply Turn.refl
    | exact .inl rfl
    | with_reducible exact mirrorDrill_turn _
    | with_reducible exact mirrorFire_turn _
    | with_reducible exact setDrill_turn _ _
    | (with_reducible apply Turn.of_blocks <;> first | rfl | exact id | simp)
    | (intro _ _ hm; simp at hm; done)

theorem clockCorrected_cturn {c0 c : Ctx} (h : CTurn c0 c) {ln a : Nat} {diff : Option Int} : CTurn c0 (clockCorrected ln a diff c) := by
  unfold clockCorrected
  try dsimp only
  repeat' first
    | with_reducible assumption
    | with_reducible apply say_cturn
    | with_reducible apply record_cturn
    | with_reducible apply upd_setLine_cturn
    | with_reducible apply upd_setNode_cturn
    | with_reducible apply upd_setAnn_cturn
    | with_reducible apply upd_setChannel_cturn
    | with_reducible apply upd_setDrill_cturn
    | with_reducible apply upd_setBell_cturn
    | with_reducible apply upd_setCircuit_cturn
    | with_reducible apply upd_trouble_cturn
    | with_reducible apply upd_ask_cturn
    | with_reducible apply call_cturn
    | (with_reducible apply each_cturn; intro _ _ _ _; try dsimp only)
    | with_reducible apply upd_cturn
    | split
    | with_reducible apply Turn.refl
    | exact .inl rfl
    | with_reducible exact mirrorDrill_turn _
    | with_reducible exact mirrorFire_turn _
    | with_reducible exact setDrill_turn _ _
    | (with_reducible apply Turn.of_blocks <;> first | rfl | exact id | simp)
    | (intro _ _ hm; simp at hm; done)

end Sys2Proof.Machine
end

