-- ==== Sys2Proof/Laws/TurnReplies.lean ====
section
/-! SUPPORT. What the requesters of transactions do with their outcomes are turns. -/

namespace Sys2Proof.Machine
open Sys2Proof

set_option linter.unusedTactic false
set_option linter.unreachableTactic false

theorem deferAgain_cturn {c0 c : Ctx} (h : CTurn c0 c) {ln : Nat} {d : Deferred} : CTurn c0 (deferAgain ln d c) := by
  unfold deferAgain
  try dsimp only
  repeat' first
    | with_reducible assumption
    | with_reducible apply say_cturn
    | with_reducible apply record_cturn
    | with_reducible apply upd_setLine_cturn
    | with_reducible apply upd_setNode_cturn
    | with_reducible apply upd_setAnn_cturn
    | with_reducible apply upd_setChannel_cturn
    | with_reducible apply upd_setDrill_cturn
    | with_reducible apply upd_setBell_cturn
    | with_reducible apply upd_setCircuit_cturn
    | with_reducible apply upd_trouble_cturn
    | with_reducible apply upd_ask_cturn
    | with_reducible apply call_cturn
    | (with_reducible apply each_cturn; intro _ _ _ _; try dsimp only)
    | with_reducible apply upd_cturn
    | split
    | with_reducible apply Turn.refl
    | exact .inl rfl
    | with_reducible exact mirrorDrill_turn _
    | with_reducible exact mirrorFire_turn _
    | with_reducible exact setDrill_turn _ _
    | (with_reducible apply Turn.of_blocks <;> first | rfl | exact id | simp)
    | (intro _ _ hm; simp at hm; done)

theorem storeShown_cturn {c0 c : Ctx} (h : CTurn c0 c) {ln a : Nat} {shown : Option Nat} : CTurn c0 (storeShown ln a shown c) := by
  unfold storeShown
  try dsimp only
  repeat' first
    | with_reducible assumption
    | with_reducible apply say_cturn
    | with_reducible apply record_cturn
    | with_reducible apply upd_setLine_cturn
    | with_reducible apply upd_setNode_cturn
    | with_reducible apply upd_setAnn_cturn
    | with_reducible apply upd_setChannel_cturn
    | with_reducible apply upd_setDrill_cturn
    | with_reducible apply upd_setBell_cturn
    | with_reducible apply upd_setCircuit_cturn
    | with_reducible apply upd_trouble_cturn
    | with_reducible apply upd_ask_cturn
    | with_reducible apply call_cturn
    | (with_reducible apply each_cturn; intro _ _ _ _; try dsimp only)
    | with_reducible apply upd_cturn
    | split
    | with_reducible apply Turn.refl
    | exact .inl rfl
    | with_reducible exact mirrorDrill_turn _
    | with_reducible exact mirrorFire_turn _
    | with_reducible exact setDrill_turn _ _
    | (with_reducible apply Turn.of_blocks <;> first | rfl | exact id | simp)
    | (intro _ _ hm; simp at hm; done)

theorem pollDone_cturn {c0 c : Ctx} (h : CTurn c0 c) {ln a : Nat} {shown : Option Nat} : CTurn c0 (pollDone ln a shown c) := by
  unfold pollDone
  try dsimp only
  repeat' first
    | with_reducible assumption
    | with_reducible apply say_cturn
    | with_reducible apply record_cturn
    | with_reducible apply upd_setLine_cturn
    | with_reducible apply upd_setNode_cturn
    | with_reducible apply upd_setAnn_cturn
    | with_reducible apply upd_setChannel_cturn
    | with_reducible apply upd_setDrill_cturn
    | with_reducible apply upd_setBell_cturn
    | with_reducible apply upd_setCircuit_cturn
    | with_reducible apply upd_trouble_cturn
    | with_reducible apply upd_ask_cturn
    | with_reducible apply offerConfigure_cturn
    | with_reducible apply beginRefresh_cturn
    | with_reducible apply clockShown_cturn
    | with_reducible apply storeShown_cturn
    | with_reducible apply call_cturn
    | (with_reducible apply each_cturn; intro _ _ _ _; try dsimp only)
    | with_reducible apply upd_cturn
    | split
    | with_reducible apply Turn.refl
    | exact .inl rfl
    | with_reducible exact mirrorDrill_turn _
    | with_reducible exact mirrorFire_turn _
    | with_reducible exact setDrill_turn _ _
    | (with_reducible apply Turn.of_blocks <;> first | rfl | exact id | simp)
    | (intro _ _ hm; simp at hm; done)

theorem pollAnswered_cturn {c0 c : Ctx} (h : CTurn c0 c) {ln a : Nat} {stale : Bool} {o : TxOutcome} {body : Option ReplyBody} : CTurn c0 (pollAnswered ln a stale o body c) := by
  unfold pollAnswered
  try dsimp only
  repeat' first
    | with_reducible assumption
    | with_reducible apply say_cturn
    | with_reducible apply record_cturn
    | with_reducible apply upd_setLine_cturn
    | with_reducible apply upd_setNode_cturn
    | with_reducible apply upd_setAnn_cturn
    | with_reducible apply upd_setChannel_cturn
    | with_reducible apply upd_setDrill_cturn
    | with_reducible apply upd_setBell_cturn
    | with_reducible apply upd_setCircuit_cturn
    | with_reducible apply upd_trouble_cturn
    | with_reducible apply upd_ask_cturn
    | with_reducible apply pollNext_cturn
    | with_reducible apply deferAgain_cturn
    | with_reducible apply pollDone_cturn
    | with_reducible apply call_cturn
    | (with_reducible apply each_cturn; intro _ _ _ _; try dsimp only)
    | with_reducible apply upd_cturn
    | split
    | with_reducible apply Turn.refl
    | exact .inl rfl
    | with_reducible exact mirrorDrill_turn _
    | with_reducible exact mirrorFire_turn _
    | with_reducible exact setDrill_turn _ _
    | (with_reducible apply Turn.of_blocks <;> first | rfl | exact id | simp)
    | (intro _ _ hm; simp at hm; done)

theorem noticeTaken_cturn {c0 c : Ctx} (h : CTurn c0 c) {ln a : Nat} {kind : Option NodeKind} {x : Notice} : CTurn c0 (noticeTaken ln a kind x c) := by
  unfold noticeTaken
  try dsimp only
  repeat' first
    | with_reducible assumption
    | with_reducible apply say_cturn
    | with_reducible apply record_cturn
    | with_reducible apply upd_setLine_cturn
    | with_reducible apply upd_setNode_cturn
    | with_reducible apply upd_setAnn_cturn
    | with_reducible apply upd_setChannel_cturn
    | with_reducible apply upd_setDrill_cturn
    | with_reducible apply upd_setBell_cturn
    | with_reducible apply upd_setCircuit_cturn
    | with_reducible apply upd_trouble_cturn
    | with_reducible apply upd_ask_cturn
    | with_reducible apply call_cturn
    | (with_reducible apply each_cturn; intro _ _ _ _; try dsimp only)
    | with_reducible apply upd_cturn
    | split
    | with_reducible apply Turn.refl
    | exact .inl rfl
    | with_reducible exact mirrorDrill_turn _
    | with_reducible exact mirrorFire_turn _
    | with_reducible exact setDrill_turn _ _
    | (with_reducible apply Turn.of_blocks <;> first | rfl | exact id | simp)
    | (intro _ _ hm; simp at hm; done)

theorem queryAnswered_cturn {c0 c : Ctx} (h : CTurn c0 c) {ln a : Nat} {kind : Option NodeKind} {o : TxOutcome} {body : Option ReplyBody} : CTurn c0 (queryAnswered ln a kind o body c) := by
  unfold queryAnswered
  try dsimp only
  repeat' first
    | with_reducible assumption
    | with_reducible apply say_cturn
    | with_reducible apply record_cturn
    | with_reducible apply upd_setLine_cturn
    | with_reducible apply upd_setNode_cturn
    | with_reducible apply upd_setAnn_cturn
    | with_reducible apply upd_setChannel_cturn
    | with_reducible apply upd_setDrill_cturn
    | with_reducible apply upd_setBell_cturn
    | with_reducible apply upd_setCircuit_cturn
    | with_reducible apply upd_trouble_cturn
    | with_reducible apply upd_ask_cturn
    | with_reducible apply deferAgain_cturn
    | with_reducible apply noticeTaken_cturn
    | with_reducible apply call_cturn
    | (with_reducible apply each_cturn; intro _ _ _ _; try dsimp only)
    | with_reducible apply upd_cturn
    | split
    | with_reducible apply Turn.refl
    | exact .inl rfl
    | with_reducible exact mirrorDrill_turn _
    | with_reducible exact mirrorFire_turn _
    | with_reducible exact setDrill_turn _ _
    | (with_reducible apply Turn.of_blocks <;> first | rfl | exact id | simp)
    | (intro _ _ hm; simp at hm; done)

theorem configureAnswered_cturn {c0 c : Ctx} (h : CTurn c0 c) {ln a : Nat} {stale : Bool} {o : TxOutcome} : CTurn c0 (configureAnswered ln a stale o c) := by
  unfold configureAnswered
  try dsimp only
  repeat' first
    | with_reducible assumption
    | with_reducible apply say_cturn
    | with_reducible apply record_cturn
    | with_reducible apply upd_setLine_cturn
    | with_reducible apply upd_setNode_cturn
    | with_reducible apply upd_setAnn_cturn
    | with_reducible apply upd_setChannel_cturn
    | with_reducible apply upd_setDrill_cturn
    | with_reducible apply upd_setBell_cturn
    | with_reducible apply upd_setCircuit_cturn
    | with_reducible apply upd_trouble_cturn
    | with_reducible apply upd_ask_cturn
    | with_reducible apply deferAgain_cturn
    | with_reducible apply call_cturn
    | (with_reducible apply each_cturn; intro _ _ _ _; try dsimp only)
    | with_reducible apply upd_cturn
    | split
    | with_reducible apply Turn.refl
    | exact .inl rfl
    | with_reducible exact mirrorDrill_turn _
    | with_reducible exact mirrorFire_turn _
    | with_reducible exact setDrill_turn _ _
    | (with_reducible apply Turn.of_blocks <;> first | rfl | exact id | simp)
    | (intro _ _ hm; simp at hm; done)

theorem loadAnswered_cturn {c0 c : Ctx} (h : CTurn c0 c) {ln a n version : Nat} {t : Tx} {o : TxOutcome} : CTurn c0 (loadAnswered ln a n version t o c) := by
  unfold loadAnswered
  try dsimp only
  repeat' first
    | with_reducible assumption
    | with_reducible apply say_cturn
    | with_reducible apply record_cturn
    | with_reducible apply upd_setLine_cturn
    | with_reducible apply upd_setNode_cturn
    | with_reducible apply upd_setAnn_cturn
    | with_reducible apply upd_setChannel_cturn
    | with_reducible apply upd_setDrill_cturn
    | with_reducible apply upd_setBell_cturn
    | with_reducible apply upd_setCircuit_cturn
    | with_reducible apply upd_trouble_cturn
    | with_reducible apply upd_ask_cturn
    | with_reducible apply offerService_cturn
    | with_reducible apply call_cturn
    | (with_reducible apply each_cturn; intro _ _ _ _; try dsimp only)
    | with_reducible apply upd_cturn
    | split
    | with_reducible apply Turn.refl
    | exact .inl rfl
    | with_reducible exact mirrorDrill_turn _
    | with_reducible exact mirrorFire_turn _
    | with_reducible exact setDrill_turn _ _
    | (with_reducible apply Turn.of_blocks <;> first | rfl | exact id | simp)
    | (intro _ _ hm; simp at hm; done)

theorem assignAnswered_cturn {c0 c : Ctx} (h : CTurn c0 c) {ln a : Nat} {t : Tx} {o : TxOutcome} {body : Option ReplyBody} : CTurn c0 (assignAnswered ln a t o body c) := by
  unfold assignAnswered
  try dsimp only
  repeat' first
    | with_reducible assumption
    | with_reducible apply say_cturn
    | with_reducible apply record_cturn
    | with_reducible apply upd_setLine_cturn
    | with_reducible apply upd_setNode_cturn
    | with_reducible apply upd_setAnn_cturn
    | with_reducible apply upd_setChannel_cturn
    | with_reducible apply upd_setDrill_cturn
    | with_reducible apply upd_setBell_cturn
    | with_reducible apply upd_setCircuit_cturn
    | with_reducible apply upd_trouble_cturn
    | with_reducible apply upd_ask_cturn
    | with_reducible apply endEnumeration_cturn
    | with_reducible apply nodeFound_cturn
    | with_reducible apply deferAgain_cturn
    | with_reducible apply call_cturn
    | (with_reducible apply each_cturn; intro _ _ _ _; try dsimp only)
    | with_reducible apply upd_cturn
    | split
    | with_reducible apply Turn.refl
    | exact .inl rfl
    | with_reducible exact mirrorDrill_turn _
    | with_reducible exact mirrorFire_turn _
    | with_reducible exact setDrill_turn _ _
    | (with_reducible apply Turn.of_blocks <;> first | rfl | exact id | simp)
    | (intro _ _ hm; simp at hm; done)

theorem clearAnswered_cturn {c0 c : Ctx} (h : CTurn c0 c) {ln a : Nat} {t : Tx} {o : TxOutcome} : CTurn c0 (clearAnswered ln a t o c) := by
  unfold clearAnswered
  try dsimp only
  repeat' first
    | with_reducible assumption
    | with_reducible apply say_cturn
    | with_reducible apply record_cturn
    | with_reducible apply upd_setLine_cturn
    | with_reducible apply upd_setNode_cturn
    | with_reducible apply upd_setAnn_cturn
    | with_reducible apply upd_setChannel_cturn
    | with_reducible apply upd_setDrill_cturn
    | with_reducible apply upd_setBell_cturn
    | with_reducible apply upd_setCircuit_cturn
    | with_reducible apply upd_trouble_cturn
    | with_reducible apply upd_ask_cturn
    | with_reducible apply clearStep_cturn
    | with_reducible apply removeNode_cturn
    | with_reducible apply deferAgain_cturn
    | with_reducible apply call_cturn
    | (with_reducible apply each_cturn; intro _ _ _ _; try dsimp only)
    | with_reducible apply upd_cturn
    | split
    | with_reducible apply Turn.refl
    | exact .inl rfl
    | with_reducible exact mirrorDrill_turn _
    | with_reducible exact mirrorFire_turn _
    | with_reducible exact setDrill_turn _ _
    | (with_reducible apply Turn.of_blocks <;> first | rfl | exact id | simp)
    | (intro _ _ hm; simp at hm; done)

theorem txAnswer_cturn {c0 c : Ctx} (h : CTurn c0 c) {ln : Nat} {t : Tx} {o : TxOutcome} {body : Option ReplyBody} : CTurn c0 (txAnswer ln t o body c) := by
  unfold txAnswer
  try dsimp only
  repeat' first
    | with_reducible assumption
    | with_reducible apply say_cturn
    | with_reducible apply record_cturn
    | with_reducible apply upd_setLine_cturn
    | with_reducible apply upd_setNode_cturn
    | with_reducible apply upd_setAnn_cturn
    | with_reducible apply upd_setChannel_cturn
    | with_reducible apply upd_setDrill_cturn
    | with_reducible apply upd_setBell_cturn
    | with_reducible apply upd_setCircuit_cturn
    | with_reducible apply upd_trouble_cturn
    | exact routeFailed_turn _ _
    | with_reducible apply upd_ask_cturn
    | with_reducible apply routeReport_cturn
    | with_reducible apply clockCorrected_cturn
    | with_reducible apply pollAnswered_cturn
    | with_reducible apply queryAnswered_cturn
    | with_reducible apply configureAnswered_cturn
    | with_reducible apply loadAnswered_cturn
    | with_reducible apply assignAnswered_cturn
    | with_reducible apply clearAnswered_cturn
    | with_reducible apply call_cturn
    | (with_reducible apply each_cturn; intro _ _ _ _; try dsimp only)
    | with_reducible apply upd_cturn
    | split
    | with_reducible apply Turn.refl
    | exact .inl rfl
    | with_reducible exact mirrorDrill_turn _
    | with_reducible exact mirrorFire_turn _
    | with_reducible exact setDrill_turn _ _
    | (with_reducible apply Turn.of_blocks <;> first | rfl | exact id | simp)
    | (intro _ _ hm; simp at hm; done)

theorem newVersion_cturn {c0 c : Ctx} (h : CTurn c0 c) {ln : Nat} {n : Node} : CTurn c0 (newVersion ln n c) := by
  unfold newVersion
  try dsimp only
  repeat' first
    | with_reducible assumption
    | with_reducible apply say_cturn
    | with_reducible apply record_cturn
    | with_reducible apply upd_setLine_cturn
    | with_reducible apply upd_setNode_cturn
    | with_reducible apply upd_setAnn_cturn
    | with_reducible apply upd_setChannel_cturn
    | with_reducible apply upd_setDrill_cturn
    | with_reducible apply upd_setBell_cturn
    | with_reducible apply upd_setCircuit_cturn
    | with_reducible apply upd_trouble_cturn
    | with_reducible apply upd_ask_cturn
    | with_reducible apply offerService_cturn
    | with_reducible apply withdraw_cturn
    | with_reducible apply call_cturn
    | (with_reducible apply each_cturn; intro _ _ _ _; try dsimp only)
    | with_reducible apply upd_cturn
    | split
    | with_reducible apply Turn.refl
    | exact .inl rfl
    | with_reducible exact mirrorDrill_turn _
    | with_reducible exact mirrorFire_turn _
    | with_reducible exact setDrill_turn _ _
    | (with_reducible apply Turn.of_blocks <;> first | rfl | exact id | simp)
    | (intro _ _ hm; simp at hm; done)

theorem versionChanged_cturn {c0 c : Ctx} (h : CTurn c0 c) : CTurn c0 (versionChanged c) := by
  unfold versionChanged
  try dsimp only
  repeat' first
    | with_reducible assumption
    | with_reducible apply say_cturn
    | with_reducible apply record_cturn
    | with_reducible apply upd_setLine_cturn
    | with_reducible apply upd_setNode_cturn
    | with_reducible apply upd_setAnn_cturn
    | with_reducible apply upd_setChannel_cturn
    | with_reducible apply upd_setDrill_cturn
    | with_reducible apply upd_setBell_cturn
    | with_reducible apply upd_setCircuit_cturn
    | with_reducible apply upd_trouble_cturn
    | with_reducible apply upd_ask_cturn
    | with_reducible apply settleLine_cturn
    | with_reducible apply newVersion_cturn
    | with_reducible apply call_cturn
    | (with_reducible apply each_cturn; intro _ _ _ _; try dsimp only)
    | with_reducible apply upd_cturn
    | split
    | with_reducible apply Turn.refl
    | exact .inl rfl
    | with_reducible exact mirrorDrill_turn _
    | with_reducible exact mirrorFire_turn _
    | with_reducible exact setDrill_turn _ _
    | (with_reducible apply Turn.of_blocks <;> first | rfl | exact id | simp)
    | (intro _ _ hm; simp at hm; done)

end Sys2Proof.Machine
end

