-- ==== Sys2Proof/Laws/Turns.lean ====
section
/-! SUPPORT. What the turns of an event can do: every answer and every call but two is a turn's operation (`Turn`); fire silence keeps a frame
(`Passed`) and establishes what it claims; the answer of START DRILL writes its slot. -/

namespace Sys2Proof.Machine
open Sys2Proof

/-- An answer reaches the block it is for: what that block can do. -/
theorem handleAns_cturn {c0 c : Ctx} (h : CTurn c0 c) {a : Ans} : CTurn c0 (handleAns a c) := by
  unfold handleAns
  split
  · exact bellAnswer_cturn h
  · exact annAnswer_cturn h
  · exact drillAnswer_cturn h
  · exact h
  · exact txAnswer_cturn h

/-! ### Fire silence -/

/-- What R79's step 2 makes of the zones of a list. -/
theorem each_silenceZone (l : List Nat) (c : Ctx) : ∃ zs, (Ctx.each silenceZone l c).st = { c.st with za := { c.st.za with zones := zs } } ∧
    zs.length = c.st.za.zones.length ∧ (Ctx.each silenceZone l c).todo = c.todo ∧
    ∀ y, zs.getD y ZoneDyn.clear = c.st.zone y ∨
      ((c.st.zoneRec y).enabled = true ∧ zs.getD y ZoneDyn.clear = ⟨some fireClaim, [], none, .quiet⟩) := by
  induction l generalizing c with
  | nil => exact ⟨c.st.za.zones, rfl, rfl, rfl, fun y => .inl rfl⟩
  | cons z l ih =>
    obtain ⟨zs, e, hl, ht, hz⟩ := ih (silenceZone z c)
    have htodo : (silenceZone z c).todo = c.todo := by
      have say : ∀ (l : List Claim) (d : Ctx), (Ctx.each (fun x c => c.say (.zone x.who z (.lost .fire))) l d).todo = d.todo := by
        intro l
        induction l with
        | nil => intro d; rfl
        | cons x l ih => intro d; exact ih _
      unfold silenceZone
      split
      · exact say _ _
      · rfl
    have hst := silenceZone_zone (c := c) (z := z)
    split at hst
    · rename_i he
      refine ⟨zs, ?_, ?_, ht.trans htodo, fun y => ?_⟩
      · rw [Ctx.each_cons, e, hst]; rfl
      · rw [hl, hst]; simp [State.setZone]
      · rcases hz y with hy | ⟨hy, k⟩
        · rw [hst] at hy
          by_cases hlen : z < c.st.za.zones.length
          · rw [setZone_zone _ _ _ _ hlen] at hy
            split at hy
            · rename_i ey; subst ey; exact .inr ⟨he, hy⟩
            · exact .inl hy
          · rw [setZone_zone_out _ _ _ _ (by omega)] at hy; exact .inl hy
        · rw [hst] at hy; exact .inr ⟨hy, k⟩
    · refine ⟨zs, ?_, ?_, ht.trans htodo, fun y => ?_⟩
      · rw [Ctx.each_cons, e, hst]
      · rw [hl, hst]
      · rw [hst] at hz; exact hz y

/-- R79: an enabled zone of the list is held by fire silence afterwards. -/
theorem each_silenceZone_in {l : List Nat} {c : Ctx} {z : Nat} (hz : z ∈ l) (he : (c.st.zoneRec z).enabled = true)
    (hl : z < c.st.za.zones.length) : (Ctx.each silenceZone l c).st.zone z = ⟨some fireClaim, [], none, .quiet⟩ := by
  induction l generalizing c with
  | nil => cases hz
  | cons x l ih =>
    have hst := silenceZone_zone (c := c) (z := x)
    have hrec : ((silenceZone x c).st.zoneRec z) = c.st.zoneRec z := by rw [hst]; split <;> rfl
    have hlen : (silenceZone x c).st.za.zones.length = c.st.za.zones.length := by
      rw [hst]; split
      · simp [State.setZone]
      · rfl
    by_cases hm : z ∈ l
    · exact ih hm (by rw [hrec]; exact he) (by rw [hlen]; exact hl)
    · have hx : z = x := by simpa [hm] using hz
      subst hx
      obtain ⟨zs, e, _, _, k⟩ := each_silenceZone l (silenceZone z c)
      rw [if_pos he] at hst
      rw [Ctx.each_cons, e]
      rcases k z with k | ⟨_, k⟩
      · have : (silenceZone z c).st.zone z = ⟨some fireClaim, [], none, .quiet⟩ := by
          rw [hst, setZone_zone _ _ _ _ hl, if_pos rfl]
        exact k.trans this
      · exact k

/-- The state of R79 before the lines are told. -/
theorem silence_passed (c : Ctx) : Passed c.st ((Ctx.each silenceZone (List.range 64)
      (c.upd fun s => { s with za := { s.za with fireReported := true } })).upd
      fun s => { s with za := { s.za with feeds := List.replicate 8 none } }).st := by
  have key := fun z => each_silenceZone_in (z := z) (l := List.range 64) (c := c.upd fun s => { s with za := { s.za with fireReported := true } })
  obtain ⟨zs, e, hl, _, hz⟩ := each_silenceZone (List.range 64) (c.upd fun s => { s with za := { s.za with fireReported := true } })
  rw [e] at key
  rw [Ctx.upd_st, e]
  refine { Passed.refl c.st with
    region := id, log := id, counts := ?_, fire := ?_, pending := rfl, tb := rfl, elapsed := rfl, supply := rfl,
    eventNo := rfl, run := rfl, intEnable := rfl, base := rfl, causeEnable := rfl, link := rfl, taken := rfl, scan := rfl,
    readMark := rfl, notify := rfl, firstAttach := rfl, marks := rfl, accesses := List.prefix_refl _,
    cause := fun _ h => h, bound := id, outside := fun _ _ _ => rfl, table := rfl, mark := id }
  · exact fun h => ⟨hl.trans h.zones, by simp, h.channels, h.circuits, h.lines, h.inputs, h.outputs⟩
  · intro h
    have hout : ∀ y, y < 64 → (c.st.zoneRec y).enabled = false → (zs.getD y ZoneDyn.clear).holder = none ∧
        (zs.getD y ZoneDyn.clear).waiters = [] := by
      intro y hy he
      rcases hz y with k | ⟨k, _⟩
      · rw [k]; exact h.out y hy he
      · rw [show ((c.upd fun s => { s with za := { s.za with fireReported := true } }).st.zoneRec y) = c.st.zoneRec y from rfl, he] at k
        cases k
    refine ⟨hout, fun _ y hy => ?_, fun _ b => ?_⟩
    · show ZoneDyn.silent (zs.getD y ZoneDyn.clear)
      cases he : (c.st.zoneRec y).enabled with
      | false =>
        obtain ⟨a, b⟩ := hout y hy he
        refine ⟨fun x hx => ?_, b⟩
        rw [hx] at a
        cases a
      | true =>
        by_cases hlen : y < c.st.za.zones.length
        · have k : zs.getD y ZoneDyn.clear = ⟨some fireClaim, [], none, .quiet⟩ := key y (List.mem_range.2 hy) he hlen
          rw [k]
          refine ⟨fun x hx => ?_, rfl⟩
          cases hx
          rfl
        · have k : zs.getD y ZoneDyn.clear = ZoneDyn.clear := by
            rw [List.getD_eq_getElem?_getD, List.getElem?_eq_none (by rw [hl]; exact Nat.le_of_not_lt hlen)]; rfl
          rw [k]
          refine ⟨fun x hx => ?_, rfl⟩
          cases hx
    · show (List.replicate 8 (none : Option FeedHolder)).getD b none = none
      rw [List.getD_eq_getElem?_getD, List.getElem?_replicate]
      split <;> rfl

/-- R79: fire silence keeps an event's frame. -/
theorem fireSilence_passed (c : Ctx) : Passed c.st (fireSilence c).st ∧ (NoStart c.todo → NoStart (fireSilence c).todo) := by
  unfold fireSilence
  dsimp only
  have h := each_cturn (f := silenceLine) (l := List.range 8) (fun _ _ _ k => silenceLine_cturn k)
    (CTurn.refl ((Ctx.each silenceZone (List.range 64)
      (c.upd fun s => { s with za := { s.za with fireReported := true } })).upd
      fun s => { s with za := { s.za with feeds := List.replicate 8 none } }))
  refine ⟨(silence_passed c).trans h.st.toPassed, fun k => h.noStart ?_⟩
  obtain ⟨_, _, _, ht, _⟩ := each_silenceZone (List.range 64) (c.upd fun s => { s with za := { s.za with fireReported := true } })
  rw [Ctx.upd_todo, ht]
  exact k

/-! ### Outcomes -/

/-- Bytes of a slot that an outcome writes: the state, the outcome, the result words (R193, section 11.6). -/
theorem writeOutcome_sound (q : ReqHdr) (a : Answered) (s : State) : Sound s (s.setRi (writeOutcome q a)) where
  region := fun h => by
    show regionWf (writeOutcome q a s.ri).region
    unfold writeOutcome
    dsimp only
    split <;> exact regionWrite_wf (regionWrite_wf (regionWrite_wf h _ _) _ _) _ _
  log := fun h => by
    show LogSound (writeOutcome q a s.ri)
    unfold writeOutcome
    dsimp only
    split <;> exact ⟨h.1, h.2, h.3, h.4, h.5, h.6⟩
  counts := fun h => ⟨h.zones, h.feeds, h.channels, h.circuits, h.lines, h.inputs, h.outputs⟩
  fire := fun h => ⟨h.out, h.silent, h.feeds⟩
  pending := rfl

theorem answer_sound (q : ReqHdr) (o : Outcome) (ws : List Word) (s : State) : Sound s (s.answer q o ws) := by
  unfold State.answer
  split
  · exact writeOutcome_sound q _ s
  · exact ⟨id, fun h => ⟨h.1, h.2, h.3, h.4, h.5, h.6⟩,
      fun h => ⟨h.zones, h.feeds, h.channels, h.circuits, h.lines, h.inputs, h.outputs⟩,
      fun h => ⟨h.out, h.silent, h.feeds⟩, rfl⟩

/-! ### Calls and turns -/

/-- Every call but the answer of START DRILL keeps an event's frame. -/
theorem doWork_passed {w : Work} (hw : ∀ q n, w ≠ .startAnswer q n) (c : Ctx) :
    Passed c.st (doWork w c).st ∧ (NoStart c.todo → NoStart (doWork w c).todo) := by
  have turn : ∀ {d : Ctx}, CTurn c d → Passed c.st d.st ∧ (NoStart c.todo → NoStart d.todo) := fun k => ⟨k.st.toPassed, k.noStart⟩
  have r := CTurn.refl c
  cases w with
  | bellStart => exact turn (bellStart_cturn r)
  | bellClaim => exact turn (bellClaim_cturn r)
  | chime => exact turn (chimeEntry_cturn r)
  | annClaim => exact turn (annClaim_cturn r)
  | annCheck => exact turn (annCheck_cturn r)
  | annEnd => exact turn (annEnd_cturn r)
  | annGive => exact turn (annGive_cturn r)
  | channelOffer => exact turn (channelOffer_cturn r)
  | drillStart => exact turn (drillStart_cturn r)
  | drillAsk => exact turn (drillAsk_cturn r)
  | drillGive => exact turn (drillGive_cturn r)
  | drillClaim => exact turn (drillClaim_cturn r)
  | drillToneOn => exact turn (drillToneOn_cturn r)
  | drillStarted => exact turn (drillStarted_cturn r)
  | startAnswer q n => exact absurd rfl (hw q n)
  | soundingEnd => exact turn (soundingEnd_cturn r)
  | drillToneOff => exact turn (drillToneOff_cturn r)
  | drillChannelBack => exact turn (drillChannelBack_cturn r)
  | phaseNote => exact turn (phaseNote_cturn r)
  | allClearBegin => exact turn (allClearBegin_cturn r)
  | allClearClaim => exact turn (allClearClaim_cturn r)
  | allClearCheck => exact turn (allClearCheck_cturn r)
  | drillEnd => exact turn (drillEnd_cturn r)
  | drillRelease => exact turn (drillRelease_cturn r)
  | drillClose => exact turn (drillClose_cturn r)
  | clearReport => exact turn (clearReport_cturn r)
  | fireOn => exact fireSilence_passed c
  | due => exact turn (dueEntry_cturn r)
  | dueStep => exact turn (dueEntryStep_cturn r)
  | passOver => exact turn (passOver_cturn r)
  | dayRoll => exact turn (dayRoll_cturn r)
  | restOfStep => exact turn (restOfStep_cturn r)
  | setMark => exact turn (setMark_cturn r)
  | skipReport => exact turn (skipReport_cturn r)
  | secondEvent => exact turn (secondEvent_cturn r)
  | minuteEvent => exact turn (minuteEvent_cturn r)
  | clockStep => exact turn (circuitsStep_cturn r)
  | stepEvent => exact turn (stepEvent_cturn r)
  | assignFlags => exact turn (assignFlags_cturn r)
  | txClose => exact turn (closeTx_cturn r)

/-- Every call keeps the standing conditions. -/
theorem doWork_sound (w : Work) (c : Ctx) : Sound c.st (doWork w c).st := by
  by_cases hw : ∀ q n, w ≠ .startAnswer q n
  · exact (doWork_passed hw c).1.toSound
  · push Not at hw
    obtain ⟨q, n, rfl⟩ := hw
    exact answer_sound _ _ _ _

theorem turn_sound {c d : Ctx} (h : turn c = some d) : Sound c.st d.st := by
  obtain ⟨st, ans, todo, sk, tag, cl⟩ := c
  cases ans with
  | cons a rest =>
    simp only [turn, Option.some.injEq] at h
    subst h
    exact (handleAns_cturn (a := a) (CTurn.refl ⟨st, rest, [], sk, tag, cl⟩)).st.toPassed.toSound
  | nil =>
    cases todo with
    | cons w rest =>
      simp only [turn, Option.some.injEq] at h
      subst h
      exact doWork_sound w ⟨st, [], [], sk, tag, cl⟩
    | nil => simp [turn] at h

/-- The turns of an event keep the standing conditions. -/
theorem turns_sound (n : Nat) (c : Ctx) : Sound c.st (turns n c).st := by
  induction n generalizing c with
  | zero => exact Sound.refl _
  | succ n ih =>
    unfold turns
    split
    · rename_i d h; exact (turn_sound h).trans (ih d)
    · exact Sound.refl _

theorem close_sound (c : Ctx) : Sound c.st c.close := turns_sound _ c

theorem turn_passed {c d : Ctx} (hn : NoStart c.todo) (h : turn c = some d) : Passed c.st d.st ∧ NoStart d.todo := by
  obtain ⟨st, ans, todo, sk, tag, cl⟩ := c
  have join : ∀ {e : Ctx} {rest : List Work}, (NoStart [] → NoStart e.todo) → NoStart rest → NoStart (e.todo ++ rest) := by
    intro e rest k hr q m hm
    rcases List.mem_append.1 hm with hm | hm
    · exact k (fun _ _ hx => by cases hx) q m hm
    · exact hr q m hm
  cases ans with
  | cons a rest =>
    simp only [turn, Option.some.injEq] at h
    subst h
    have k := handleAns_cturn (a := a) (CTurn.refl ⟨st, rest, [], sk, tag, cl⟩)
    exact ⟨k.st.toPassed, join k.noStart hn⟩
  | nil =>
    cases todo with
    | cons w rest =>
      simp only [turn, Option.some.injEq] at h
      subst h
      have k := doWork_passed (w := w) (fun q m e => hn q m (e ▸ List.mem_cons_self)) ⟨st, [], [], sk, tag, cl⟩
      exact ⟨k.1, join k.2 fun q m hm => hn q m (List.mem_cons_of_mem _ hm)⟩
    | nil => simp [turn] at h

/-- The turns of an event in which no START DRILL is to be answered keep its frame. -/
theorem turns_passed (n : Nat) {c : Ctx} (hn : NoStart c.todo) : Passed c.st (turns n c).st := by
  induction n generalizing c with
  | zero => exact Passed.refl _
  | succ n ih =>
    unfold turns
    split
    · rename_i d h
      obtain ⟨k, hd⟩ := turn_passed hn h
      exact k.trans (ih hd)
    · exact Passed.refl _

theorem close_passed {c : Ctx} (hn : NoStart c.todo) : Passed c.st c.close := turns_passed _ hn

end Sys2Proof.Machine
end

