-- ==== Sys2Proof/Laws/SoundTime.lean ====
section
/-! SUPPORT. The operations of the Time Base keep the standing conditions (`Sound`). -/

namespace Sys2Proof.Machine
open Sys2Proof

set_option linter.unusedTactic false
set_option linter.unreachableTactic false

/-- A context whose state keeps the standing conditions of another's. -/
def CSound (c d : Ctx) : Prop := Sound c.st d.st

theorem CSound.refl (c : Ctx) : CSound c c := Sound.refl _
theorem csound_of_turn {c0 c d : Ctx} (h : CSound c0 c) (k : CTurn c d) : CSound c0 d := Sound.trans h k.st.toSound
theorem csound_of_passed {c0 c d : Ctx} (h : CSound c0 c) (k : Passed c.st d.st) : CSound c0 d := Sound.trans h k.toSound
theorem upd_csound {c0 c : Ctx} (h : CSound c0 c) {f : State → State} (hf : Sound c.st (f c.st)) : CSound c0 (c.upd f) :=
  Sound.trans h hf
theorem upd_say_csound {c0 c : Ctx} (h : CSound c0 c) {a : Ans} : CSound c0 (c.say a) := h
theorem call_csound {c0 c : Ctx} (h : CSound c0 c) {ws : List Work} : CSound c0 (c.call ws) := h
theorem record_csound {c0 c : Ctx} (h : CSound c0 c) {n : Note} : CSound c0 (c.record n) :=
  upd_csound h (record_turn _ _).toSound
theorem each_csound {α : Type} {f : α → Ctx → Ctx} (hf : ∀ x c0 c, CSound c0 c → CSound c0 (f x c)) {l : List α} {c0 c : Ctx}
    (h : CSound c0 c) : CSound c0 (Ctx.each f l c) := by
  induction l generalizing c with
  | nil => exact h
  | cons x l ih => exact ih (hf x c0 c h)

/-- A change outside the Region Interface and the Zone Arbiter that keeps the counts. -/
theorem Sound.of_blocks {s t : State} (ri : t.ri = s.ri) (za : t.za = s.za) (pe : t.pending = s.pending)
    (ch : t.au.channels.length = s.au.channels.length) (ci : t.cu.circuits.length = s.cu.circuits.length)
    (li : t.lc.lines.length = s.lc.lines.length) (inp : t.io.inputs.length = s.io.inputs.length)
    (out : t.io.outputs.length = s.io.outputs.length) : Sound s t where
  region := by rw [ri]; exact id
  log := by rw [ri]; exact id
  counts := fun h => ⟨za ▸ h.zones, za ▸ h.feeds, ch.trans h.channels, ci.trans h.circuits, li.trans h.lines,
    inp.trans h.inputs, out.trans h.outputs⟩
  fire := fun h => by
    have hz : t.zone = s.zone := by funext z; simp only [State.zone, za]
    have hr : t.zoneRec = s.zoneRec := by funext z; simp only [State.zoneRec, za]
    exact ⟨by rw [hz, hr]; exact h.out, by rw [hz, za]; exact h.silent, by rw [za]; exact h.feeds⟩
  pending := pe

/-- A change of the zone arbiter's loads, groups or counters. -/
theorem Sound.of_za {s t : State} (ri : t.ri = s.ri) (pe : t.pending = s.pending) (tb : t.za.table = s.za.table)
    (zs : t.za.zones = s.za.zones) (fe : t.za.feeds = s.za.feeds) (fr : t.za.fireReported = s.za.fireReported)
    (au : t.au = s.au) (cu : t.cu = s.cu) (lc : t.lc = s.lc) (io : t.io = s.io) : Sound s t where
  region := by rw [ri]; exact id
  log := by rw [ri]; exact id
  counts := fun h => ⟨zs ▸ h.zones, fe ▸ h.feeds, au ▸ h.channels, cu ▸ h.circuits, lc ▸ h.lines, io ▸ h.inputs, io ▸ h.outputs⟩
  fire := fun h => by
    have hz : t.zone = s.zone := by funext z; simp only [State.zone, zs]
    have hr : t.zoneRec = s.zoneRec := by funext z; simp only [State.zoneRec, tb]
    exact ⟨by rw [hz, hr]; exact h.out, by rw [hz, fr]; exact h.silent, by rw [fe, fr]; exact h.feeds⟩
  pending := pe

/-- A change of RI alone that keeps the region's form and the log's numbers. -/
theorem Sound.of_ri (s : State) (f : RegionIf → RegionIf) (region : regionWf s.ri.region → regionWf (f s.ri).region)
    (log : LogSound s.ri → LogSound (f s.ri)) : Sound s (s.setRi f) where
  region := region
  log := log
  counts := fun h => ⟨h.zones, h.feeds, h.channels, h.circuits, h.lines, h.inputs, h.outputs⟩
  fire := fun h => ⟨h.out, h.silent, h.feeds⟩
  pending := rfl

theorem upd_answer_csound {c0 c : Ctx} (h : CSound c0 c) {q : ReqHdr} {o : Outcome} {ws : List Word} :
    CSound c0 (c.upd (State.answer q o ws)) := upd_csound h (answer_sound _ _ _ _)
theorem upd_refuse_csound {c0 c : Ctx} (h : CSound c0 c) {q : ReqHdr} {o : Outcome} :
    CSound c0 (c.upd (State.refuse q o)) := upd_csound h (answer_sound _ _ _ _)
theorem upd_setTb_csound {c0 c : Ctx} (h : CSound c0 c) {f : TimeBase → TimeBase} : CSound c0 (c.upd (State.setTb f)) :=
  upd_csound h (by apply Sound.of_blocks <;> rfl)
theorem upd_ask_csound {c0 c : Ctx} (h : CSound c0 c) {a : Access} : CSound c0 (c.upd (State.ask a)) :=
  upd_csound h (ask_turn _ _).toSound
theorem upd_setLine_csound {c0 c : Ctx} (h : CSound c0 c) {n : Nat} {f : Line → Line} : CSound c0 (c.upd (State.setLine n f)) :=
  upd_csound h (setLine_turn _ _ _).toSound
theorem upd_setNode_csound {c0 c : Ctx} (h : CSound c0 c) {l a : Nat} {f : Node → Node} :
    CSound c0 (c.upd (State.setNode l a f)) := upd_csound h (setNode_turn _ _ _ _).toSound
theorem upd_setCircuit_csound {c0 c : Ctx} (h : CSound c0 c) {n : Nat} {f : Circuit → Circuit} :
    CSound c0 (c.upd (State.setCircuit n f)) := upd_csound h (setCircuit_turn _ _ _).toSound
theorem upd_setOutput_csound {c0 c : Ctx} (h : CSound c0 c) {n : Nat} {f : Output → Output} :
    CSound c0 (c.upd (State.setOutput n f)) := upd_csound h (setOutput_turn _ _ _).toSound
theorem upd_setInput_csound {c0 c : Ctx} (h : CSound c0 c) {n : Nat} {f : Input → Input} :
    CSound c0 (c.upd (State.setInput n f)) := upd_csound h (setInput_turn _ _ _).toSound
theorem upd_trouble_csound {c0 c : Ctx} (h : CSound c0 c) : CSound c0 (c.upd State.updateTrouble) :=
  upd_csound h (updateTrouble_turn _).toSound

/-- R80: FIRE OFF leaves the zones as they are. -/
theorem fireOff_csound {c0 c : Ctx} (h : CSound c0 c) : CSound c0 (fireOff c) := by
  refine upd_csound h ⟨id, id, fun k => ⟨k.zones, k.feeds, k.channels, k.circuits, k.lines, k.inputs, k.outputs⟩,
    fun k => ⟨k.out, fun e => ?_, fun e => ?_⟩, rfl⟩ <;> cases e
theorem fireAlarmOff_csound {c0 c : Ctx} (h : CSound c0 c) : CSound c0 (fireAlarmOff c) := by
  unfold fireAlarmOff
  with_reducible apply fireOff_csound
  with_reducible apply record_csound
  refine upd_csound (upd_csound h ?_) (mirrorFire_turn _).toSound
  apply Sound.of_blocks <;> rfl
theorem takeAnn_csound {c0 c : Ctx} (h : CSound c0 c) {a : Ann} : CSound c0 (takeAnn a c).1 :=
  csound_of_turn h (takeAnn_cturn (CTurn.refl c))

theorem civilEvents_csound {c0 c : Ctx} (h : CSound c0 c) {old new : CampusTime} : CSound c0 (civilEvents old new c) := by
  unfold civilEvents
  try dsimp only
  repeat' first
    | with_reducible assumption
    | with_reducible apply upd_say_csound
    | with_reducible apply record_csound
    | with_reducible apply upd_answer_csound
    | with_reducible apply upd_refuse_csound
    | with_reducible apply upd_setTb_csound
    | with_reducible apply upd_ask_csound
    | with_reducible apply upd_setLine_csound
    | with_reducible apply upd_setNode_csound
    | with_reducible apply upd_setCircuit_csound
    | with_reducible apply upd_setOutput_csound
    | with_reducible apply upd_setInput_csound
    | with_reducible apply upd_trouble_csound
    | with_reducible apply call_csound
    | (with_reducible apply each_csound; intro _ _ _ _; try dsimp only)
    | with_reducible apply upd_csound
    | split
    | with_reducible apply Sound.refl
    | (with_reducible apply Sound.of_blocks <;> first | rfl | simp)

theorem advanceCampus_csound {c0 c : Ctx} (h : CSound c0 c) {n : Nat} : CSound c0 (advanceCampus n c) := by
  unfold advanceCampus
  try dsimp only
  repeat' first
    | with_reducible assumption
    | with_reducible apply upd_say_csound
    | with_reducible apply record_csound
    | with_reducible apply civilEvents_csound
    | with_reducible apply upd_answer_csound
    | with_reducible apply upd_refuse_csound
    | with_reducible apply upd_setTb_csound
    | with_reducible apply upd_ask_csound
    | with_reducible apply upd_setLine_csound
    | with_reducible apply upd_setNode_csound
    | with_reducible apply upd_setCircuit_csound
    | with_reducible apply upd_setOutput_csound
    | with_reducible apply upd_setInput_csound
    | with_reducible apply upd_trouble_csound
    | with_reducible apply call_csound
    | (with_reducible apply each_csound; intro _ _ _ _; try dsimp only)
    | with_reducible apply upd_csound
    | split
    | with_reducible apply Sound.refl
    | (with_reducible apply Sound.of_blocks <;> first | rfl | simp)

theorem tick_csound {c0 c : Ctx} (h : CSound c0 c) : CSound c0 (tick c) := by
  unfold tick
  try dsimp only
  repeat' first
    | with_reducible assumption
    | with_reducible apply upd_say_csound
    | with_reducible apply record_csound
    | with_reducible apply advanceCampus_csound
    | with_reducible apply upd_answer_csound
    | with_reducible apply upd_refuse_csound
    | with_reducible apply upd_setTb_csound
    | with_reducible apply upd_ask_csound
    | with_reducible apply upd_setLine_csound
    | with_reducible apply upd_setNode_csound
    | with_reducible apply upd_setCircuit_csound
    | with_reducible apply upd_setOutput_csound
    | with_reducible apply upd_setInput_csound
    | with_reducible apply upd_trouble_csound
    | with_reducible apply call_csound
    | (with_reducible apply each_csound; intro _ _ _ _; try dsimp only)
    | with_reducible apply upd_csound
    | split
    | with_reducible apply Sound.refl
    | (with_reducible apply Sound.of_blocks <;> first | rfl | simp)

theorem referenceLost_csound {c0 c : Ctx} (h : CSound c0 c) : CSound c0 (referenceLost c) := by
  unfold referenceLost
  try dsimp only
  repeat' first
    | with_reducible assumption
    | with_reducible apply upd_say_csound
    | with_reducible apply record_csound
    | with_reducible apply upd_answer_csound
    | with_reducible apply upd_refuse_csound
    | with_reducible apply upd_setTb_csound
    | with_reducible apply upd_ask_csound
    | with_reducible apply upd_setLine_csound
    | with_reducible apply upd_setNode_csound
    | with_reducible apply upd_setCircuit_csound
    | with_reducible apply upd_setOutput_csound
    | with_reducible apply upd_setInput_csound
    | with_reducible apply upd_trouble_csound
    | with_reducible apply call_csound
    | (with_reducible apply each_csound; intro _ _ _ _; try dsimp only)
    | with_reducible apply upd_csound
    | split
    | with_reducible apply Sound.refl
    | (with_reducible apply Sound.of_blocks <;> first | rfl | simp)

theorem correctPhase_csound {c0 c : Ctx} (h : CSound c0 c) {e : Int} : CSound c0 (correctPhase e c) := by
  unfold correctPhase
  try dsimp only
  repeat' first
    | with_reducible assumption
    | with_reducible apply upd_say_csound
    | with_reducible apply record_csound
    | with_reducible apply upd_answer_csound
    | with_reducible apply upd_refuse_csound
    | with_reducible apply upd_setTb_csound
    | with_reducible apply upd_ask_csound
    | with_reducible apply upd_setLine_csound
    | with_reducible apply upd_setNode_csound
    | with_reducible apply upd_setCircuit_csound
    | with_reducible apply upd_setOutput_csound
    | with_reducible apply upd_setInput_csound
    | with_reducible apply upd_trouble_csound
    | with_reducible apply call_csound
    | (with_reducible apply each_csound; intro _ _ _ _; try dsimp only)
    | with_reducible apply upd_csound
    | split
    | with_reducible apply Sound.refl
    | (with_reducible apply Sound.of_blocks <;> first | rfl | simp)

theorem validPulse_csound {c0 c : Ctx} (h : CSound c0 c) {t : CampusTime} : CSound c0 (validPulse t c) := by
  unfold validPulse
  try dsimp only
  repeat' first
    | with_reducible assumption
    | with_reducible apply upd_say_csound
    | with_reducible apply record_csound
    | with_reducible apply correctPhase_csound
    | with_reducible apply upd_answer_csound
    | with_reducible apply upd_refuse_csound
    | with_reducible apply upd_setTb_csound
    | with_reducible apply upd_ask_csound
    | with_reducible apply upd_setLine_csound
    | with_reducible apply upd_setNode_csound
    | with_reducible apply upd_setCircuit_csound
    | with_reducible apply upd_setOutput_csound
    | with_reducible apply upd_setInput_csound
    | with_reducible apply upd_trouble_csound
    | with_reducible apply call_csound
    | (with_reducible apply each_csound; intro _ _ _ _; try dsimp only)
    | with_reducible apply upd_csound
    | split
    | with_reducible apply Sound.refl
    | (with_reducible apply Sound.of_blocks <;> first | rfl | simp)

theorem referencePulse_csound {c0 c : Ctx} (h : CSound c0 c) : CSound c0 (referencePulse c) := by
  unfold referencePulse
  try dsimp only
  repeat' first
    | with_reducible assumption
    | with_reducible apply upd_say_csound
    | with_reducible apply record_csound
    | with_reducible apply validPulse_csound
    | with_reducible apply upd_answer_csound
    | with_reducible apply upd_refuse_csound
    | with_reducible apply upd_setTb_csound
    | with_reducible apply upd_ask_csound
    | with_reducible apply upd_setLine_csound
    | with_reducible apply upd_setNode_csound
    | with_reducible apply upd_setCircuit_csound
    | with_reducible apply upd_setOutput_csound
    | with_reducible apply upd_setInput_csound
    | with_reducible apply upd_trouble_csound
    | with_reducible apply call_csound
    | (with_reducible apply each_csound; intro _ _ _ _; try dsimp only)
    | with_reducible apply upd_csound
    | split
    | with_reducible apply Sound.refl
    | (with_reducible apply Sound.of_blocks <;> first | rfl | simp)

theorem reevaluate_csound {c0 c : Ctx} (h : CSound c0 c) {newYear : Bool} {t : CampusTime} {cause : Nat} : CSound c0 (reevaluate newYear t cause c) := by
  unfold reevaluate
  try dsimp only
  repeat' first
    | with_reducible assumption
    | with_reducible apply upd_say_csound
    | with_reducible apply record_csound
    | with_reducible apply upd_answer_csound
    | with_reducible apply upd_refuse_csound
    | with_reducible apply upd_setTb_csound
    | with_reducible apply upd_ask_csound
    | with_reducible apply upd_setLine_csound
    | with_reducible apply upd_setNode_csound
    | with_reducible apply upd_setCircuit_csound
    | with_reducible apply upd_setOutput_csound
    | with_reducible apply upd_setInput_csound
    | with_reducible apply upd_trouble_csound
    | with_reducible apply call_csound
    | (with_reducible apply each_csound; intro _ _ _ _; try dsimp only)
    | with_reducible apply upd_csound
    | split
    | with_reducible apply Sound.refl
    | (with_reducible apply Sound.of_blocks <;> first | rfl | simp)

theorem stepSaturation_csound {c0 c : Ctx} (h : CSound c0 c) {t : CampusTime} : CSound c0 (stepSaturation t c) := by
  unfold stepSaturation
  try dsimp only
  repeat' first
    | with_reducible assumption
    | with_reducible apply upd_say_csound
    | with_reducible apply record_csound
    | with_reducible apply upd_answer_csound
    | with_reducible apply upd_refuse_csound
    | with_reducible apply upd_setTb_csound
    | with_reducible apply upd_ask_csound
    | with_reducible apply upd_setLine_csound
    | with_reducible apply upd_setNode_csound
    | with_reducible apply upd_setCircuit_csound
    | with_reducible apply upd_setOutput_csound
    | with_reducible apply upd_setInput_csound
    | with_reducible apply upd_trouble_csound
    | with_reducible apply call_csound
    | (with_reducible apply each_csound; intro _ _ _ _; try dsimp only)
    | with_reducible apply upd_csound
    | split
    | with_reducible apply Sound.refl
    | (with_reducible apply Sound.of_blocks <;> first | rfl | simp)

theorem stepTime_csound {c0 c : Ctx} (h : CSound c0 c) {t : CampusTime} : CSound c0 (stepTime t c) := by
  unfold stepTime
  try dsimp only
  repeat' first
    | with_reducible assumption
    | with_reducible apply upd_say_csound
    | with_reducible apply record_csound
    | with_reducible apply reevaluate_csound
    | with_reducible apply stepSaturation_csound
    | with_reducible apply upd_answer_csound
    | with_reducible apply upd_refuse_csound
    | with_reducible apply upd_setTb_csound
    | with_reducible apply upd_ask_csound
    | with_reducible apply upd_setLine_csound
    | with_reducible apply upd_setNode_csound
    | with_reducible apply upd_setCircuit_csound
    | with_reducible apply upd_setOutput_csound
    | with_reducible apply upd_setInput_csound
    | with_reducible apply upd_trouble_csound
    | with_reducible apply call_csound
    | (with_reducible apply each_csound; intro _ _ _ _; try dsimp only)
    | with_reducible apply upd_csound
    | split
    | with_reducible apply Sound.refl
    | (with_reducible apply Sound.of_blocks <;> first | rfl | simp)

theorem firstTime_csound {c0 c : Ctx} (h : CSound c0 c) {q : ReqHdr} {t : CampusTime} : CSound c0 (firstTime q t c) := by
  unfold firstTime
  try dsimp only
  repeat' first
    | with_reducible assumption
    | with_reducible apply upd_say_csound
    | with_reducible apply record_csound
    | with_reducible apply stepTime_csound
    | with_reducible apply upd_answer_csound
    | with_reducible apply upd_refuse_csound
    | with_reducible apply upd_setTb_csound
    | with_reducible apply upd_ask_csound
    | with_reducible apply upd_setLine_csound
    | with_reducible apply upd_setNode_csound
    | with_reducible apply upd_setCircuit_csound
    | with_reducible apply upd_setOutput_csound
    | with_reducible apply upd_setInput_csound
    | with_reducible apply upd_trouble_csound
    | with_reducible apply call_csound
    | (with_reducible apply each_csound; intro _ _ _ _; try dsimp only)
    | with_reducible apply upd_csound
    | split
    | with_reducible apply Sound.refl
    | (with_reducible apply Sound.of_blocks <;> first | rfl | simp)

theorem setTimeOff_csound {c0 c : Ctx} (h : CSound c0 c) {q : ReqHdr} {t old : CampusTime} : CSound c0 (setTimeOff q t old c) := by
  unfold setTimeOff
  try dsimp only
  repeat' first
    | with_reducible assumption
    | with_reducible apply upd_say_csound
    | with_reducible apply record_csound
    | with_reducible apply stepTime_csound
    | with_reducible apply upd_answer_csound
    | with_reducible apply upd_refuse_csound
    | with_reducible apply upd_setTb_csound
    | with_reducible apply upd_ask_csound
    | with_reducible apply upd_setLine_csound
    | with_reducible apply upd_setNode_csound
    | with_reducible apply upd_setCircuit_csound
    | with_reducible apply upd_setOutput_csound
    | with_reducible apply upd_setInput_csound
    | with_reducible apply upd_trouble_csound
    | with_reducible apply call_csound
    | (with_reducible apply each_csound; intro _ _ _ _; try dsimp only)
    | with_reducible apply upd_csound
    | split
    | with_reducible apply Sound.refl
    | (with_reducible apply Sound.of_blocks <;> first | rfl | simp)

theorem setTimePulse_csound {c0 c : Ctx} (h : CSound c0 c) {q : ReqHdr} {t old : CampusTime} : CSound c0 (setTimePulse q t old c) := by
  unfold setTimePulse
  try dsimp only
  repeat' first
    | with_reducible assumption
    | with_reducible apply upd_say_csound
    | with_reducible apply record_csound
    | with_reducible apply stepTime_csound
    | with_reducible apply upd_answer_csound
    | with_reducible apply upd_refuse_csound
    | with_reducible apply upd_setTb_csound
    | with_reducible apply upd_ask_csound
    | with_reducible apply upd_setLine_csound
    | with_reducible apply upd_setNode_csound
    | with_reducible apply upd_setCircuit_csound
    | with_reducible apply upd_setOutput_csound
    | with_reducible apply upd_setInput_csound
    | with_reducible apply upd_trouble_csound
    | with_reducible apply call_csound
    | (with_reducible apply each_csound; intro _ _ _ _; try dsimp only)
    | with_reducible apply upd_csound
    | split
    | with_reducible apply Sound.refl
    | (with_reducible apply Sound.of_blocks <;> first | rfl | simp)

theorem decideSetTime_csound {c0 c : Ctx} (h : CSound c0 c) {q : ReqHdr} {day ms : Nat} : CSound c0 (decideSetTime q day ms c) := by
  unfold decideSetTime
  try dsimp only
  repeat' first
    | with_reducible assumption
    | with_reducible apply upd_say_csound
    | with_reducible apply record_csound
    | with_reducible apply firstTime_csound
    | with_reducible apply setTimeOff_csound
    | with_reducible apply setTimePulse_csound
    | with_reducible apply upd_answer_csound
    | with_reducible apply upd_refuse_csound
    | with_reducible apply upd_setTb_csound
    | with_reducible apply upd_ask_csound
    | with_reducible apply upd_setLine_csound
    | with_reducible apply upd_setNode_csound
    | with_reducible apply upd_setCircuit_csound
    | with_reducible apply upd_setOutput_csound
    | with_reducible apply upd_setInput_csound
    | with_reducible apply upd_trouble_csound
    | with_reducible apply call_csound
    | (with_reducible apply each_csound; intro _ _ _ _; try dsimp only)
    | with_reducible apply upd_csound
    | split
    | with_reducible apply Sound.refl
    | (with_reducible apply Sound.of_blocks <;> first | rfl | simp)

theorem decideSetTrim_csound {c0 c : Ctx} (h : CSound c0 c) {q : ReqHdr} {v : Int} : CSound c0 (decideSetTrim q v c) := by
  unfold decideSetTrim
  try dsimp only
  repeat' first
    | with_reducible assumption
    | with_reducible apply upd_say_csound
    | with_reducible apply record_csound
    | with_reducible apply upd_answer_csound
    | with_reducible apply upd_refuse_csound
    | with_reducible apply upd_setTb_csound
    | with_reducible apply upd_ask_csound
    | with_reducible apply upd_setLine_csound
    | with_reducible apply upd_setNode_csound
    | with_reducible apply upd_setCircuit_csound
    | with_reducible apply upd_setOutput_csound
    | with_reducible apply upd_setInput_csound
    | with_reducible apply upd_trouble_csound
    | with_reducible apply call_csound
    | (with_reducible apply each_csound; intro _ _ _ _; try dsimp only)
    | with_reducible apply upd_csound
    | split
    | with_reducible apply Sound.refl
    | (with_reducible apply Sound.of_blocks <;> first | rfl | simp)

theorem decideSetReference_csound {c0 c : Ctx} (h : CSound c0 c) {q : ReqHdr} {mode loss slew : Nat} : CSound c0 (decideSetReference q mode loss slew c) := by
  unfold decideSetReference
  try dsimp only
  repeat' first
    | with_reducible assumption
    | with_reducible apply upd_say_csound
    | with_reducible apply record_csound
    | with_reducible apply referenceLost_csound
    | with_reducible apply upd_answer_csound
    | with_reducible apply upd_refuse_csound
    | with_reducible apply upd_setTb_csound
    | with_reducible apply upd_ask_csound
    | with_reducible apply upd_setLine_csound
    | with_reducible apply upd_setNode_csound
    | with_reducible apply upd_setCircuit_csound
    | with_reducible apply upd_setOutput_csound
    | with_reducible apply upd_setInput_csound
    | with_reducible apply upd_trouble_csound
    | with_reducible apply call_csound
    | (with_reducible apply each_csound; intro _ _ _ _; try dsimp only)
    | with_reducible apply upd_csound
    | split
    | with_reducible apply Sound.refl
    | (with_reducible apply Sound.of_blocks <;> first | rfl | simp)

theorem setRule_csound {c0 c : Ctx} (h : CSound c0 c) {rule : Option DstRule} : CSound c0 (setRule rule c) := by
  unfold setRule
  try dsimp only
  repeat' first
    | with_reducible assumption
    | with_reducible apply upd_say_csound
    | with_reducible apply record_csound
    | with_reducible apply reevaluate_csound
    | with_reducible apply upd_answer_csound
    | with_reducible apply upd_refuse_csound
    | with_reducible apply upd_setTb_csound
    | with_reducible apply upd_ask_csound
    | with_reducible apply upd_setLine_csound
    | with_reducible apply upd_setNode_csound
    | with_reducible apply upd_setCircuit_csound
    | with_reducible apply upd_setOutput_csound
    | with_reducible apply upd_setInput_csound
    | with_reducible apply upd_trouble_csound
    | with_reducible apply call_csound
    | (with_reducible apply each_csound; intro _ _ _ _; try dsimp only)
    | with_reducible apply upd_csound
    | split
    | with_reducible apply Sound.refl
    | (with_reducible apply Sound.of_blocks <;> first | rfl | simp)

theorem decideSetDst_csound {c0 c : Ctx} (h : CSound c0 c) {q : ReqHdr} {p : DstParams} : CSound c0 (decideSetDst q p c) := by
  unfold decideSetDst
  try dsimp only
  repeat' first
    | with_reducible assumption
    | with_reducible apply upd_say_csound
    | with_reducible apply record_csound
    | with_reducible apply setRule_csound
    | with_reducible apply upd_answer_csound
    | with_reducible apply upd_refuse_csound
    | with_reducible apply upd_setTb_csound
    | with_reducible apply upd_ask_csound
    | with_reducible apply upd_setLine_csound
    | with_reducible apply upd_setNode_csound
    | with_reducible apply upd_setCircuit_csound
    | with_reducible apply upd_setOutput_csound
    | with_reducible apply upd_setInput_csound
    | with_reducible apply upd_trouble_csound
    | with_reducible apply call_csound
    | (with_reducible apply each_csound; intro _ _ _ _; try dsimp only)
    | with_reducible apply upd_csound
    | split
    | with_reducible apply Sound.refl
    | (with_reducible apply Sound.of_blocks <;> first | rfl | simp)

end Sys2Proof.Machine
end

