-- ==== Sys2Proof/Laws/SoundTables.lean ====
section
/-! SUPPORT. The operations of the table loads and of the schedule switch keep the standing conditions. -/

namespace Sys2Proof.Machine
open Sys2Proof

set_option linter.unusedTactic false
set_option linter.unreachableTactic false

theorem putProfileLoad_sound (l) (s : State) : Sound s (putProfileLoad l s) := by apply Sound.of_blocks <;> rfl
theorem putCalendarLoad_sound (l) (s : State) : Sound s (putCalendarLoad l s) := by apply Sound.of_blocks <;> rfl
theorem putZoneLoad_sound (l) (s : State) : Sound s (putZoneLoad l s) := by apply Sound.of_za <;> rfl
theorem putGroupLoad_sound (l) (s : State) : Sound s (putGroupLoad l s) := by apply Sound.of_za <;> rfl
theorem putPatternLoad_sound (l) (s : State) : Sound s (putPatternLoad l s) := by apply Sound.of_blocks <;> rfl
theorem putChannelLoad_sound (l) (s : State) : Sound s (putChannelLoad l s) := by apply Sound.of_blocks <;> rfl
theorem putDrillLoad_sound (l) (s : State) : Sound s (putDrillLoad l s) := by apply Sound.of_blocks <;> rfl
theorem putCircuitLoad_sound (l) (s : State) : Sound s (putCircuitLoad l s) := by apply Sound.of_blocks <;> rfl
theorem putLineLoad_sound (l) (s : State) : Sound s (putLineLoad l s) := by apply Sound.of_blocks <;> rfl
theorem putMemberLoad_sound (l) (s : State) : Sound s (putMemberLoad l s) := by apply Sound.of_blocks <;> rfl
theorem putIoLoad_sound (l) (s : State) : Sound s (putIoLoad l s) := by apply Sound.of_blocks <;> rfl
theorem putSwitch_sound (l) (s : State) : Sound s (putSwitch l s) := by apply Sound.of_blocks <;> rfl

theorem put_csound {c0 c : Ctx} (h : CSound c0 c) {f : State → State} (hf : ∀ s, Sound s (f s)) : CSound c0 (c.upd f) :=
  upd_csound h (hf _)
theorem beginLoad_csound {c0 c : Ctx} (h : CSound c0 c) {t : TableCode} {n : Nat} {finish : Ctx → Ctx}
    (hf : ∀ c, CSound c0 c → CSound c0 (finish c)) : CSound c0 (beginLoad t n finish c) := by
  unfold beginLoad
  split
  · exact hf _ h
  · exact upd_ask_csound h

theorem loadRecord_csound {c0 c : Ctx} (h : CSound c0 c) {α : Type} {t : TableCode} {l : Load α} {size : Nat}
    {r : Option (α × Bool)} {put : Option (Load α) → State → State} {finish : Load α → Ctx → Ctx}
    (hp : ∀ x s, Sound s (put x s)) (hf : ∀ l c, CSound c0 c → CSound c0 (finish l c)) :
    CSound c0 (loadRecord t l size r put finish c) := by
  unfold loadRecord
  split
  · exact upd_answer_csound (upd_csound h (hp _ _))
  · exact upd_ask_csound (upd_csound h (hp _ _))
  · exact hf _ _ h

theorem finishProfiles_csound {c0 c : Ctx} (h : CSound c0 c) {l : Load Profile} : CSound c0 (finishProfiles l c) := by
  unfold finishProfiles
  try dsimp only
  repeat' first
    | with_reducible assumption
    | with_reducible apply upd_say_csound
    | with_reducible apply record_csound
    | with_reducible exact putProfileLoad_sound _ _
    | with_reducible exact putCalendarLoad_sound _ _
    | with_reducible exact putZoneLoad_sound _ _
    | with_reducible exact putGroupLoad_sound _ _
    | with_reducible exact putPatternLoad_sound _ _
    | with_reducible exact putChannelLoad_sound _ _
    | with_reducible exact putDrillLoad_sound _ _
    | with_reducible exact putCircuitLoad_sound _ _
    | with_reducible exact putLineLoad_sound _ _
    | with_reducible exact putMemberLoad_sound _ _
    | with_reducible exact putIoLoad_sound _ _
    | with_reducible exact putSwitch_sound _ _
    | with_reducible apply upd_answer_csound
    | with_reducible apply upd_refuse_csound
    | with_reducible apply upd_setTb_csound
    | with_reducible apply upd_ask_csound
    | with_reducible apply upd_setLine_csound
    | with_reducible apply upd_setNode_csound
    | with_reducible apply upd_setCircuit_csound
    | with_reducible apply upd_setOutput_csound
    | with_reducible apply upd_setInput_csound
    | with_reducible apply upd_trouble_csound
    | with_reducible apply call_csound
    | (with_reducible apply each_csound; intro _ _ _ _; try dsimp only)
    | with_reducible apply upd_csound
    | with_reducible exact (mirrorFire_turn _).toSound
    | split
    | with_reducible apply Sound.refl
    | (with_reducible apply Sound.of_blocks <;> first | rfl | simp)

theorem decideLoadProfiles_csound {c0 c : Ctx} (h : CSound c0 c) {q : ReqHdr} {count offset : Nat} : CSound c0 (decideLoadProfiles q count offset c) := by
  unfold decideLoadProfiles
  split
  · exact upd_refuse_csound h
  · exact beginLoad_csound (upd_csound h (putProfileLoad_sound _ _)) fun _ k => finishProfiles_csound k

theorem profileRead_csound {c0 c : Ctx} (h : CSound c0 c) {d : List Byte} : CSound c0 (profileRead d c) := by
  unfold profileRead
  split
  · exact h
  · exact loadRecord_csound h (fun _ _ => putProfileLoad_sound _ _) fun _ _ k => finishProfiles_csound k

theorem finishCalendar_csound {c0 c : Ctx} (h : CSound c0 c) {l : Load Span} : CSound c0 (finishCalendar l c) := by
  unfold finishCalendar
  try dsimp only
  repeat' first
    | with_reducible assumption
    | with_reducible apply upd_say_csound
    | with_reducible apply record_csound
    | with_reducible exact putProfileLoad_sound _ _
    | with_reducible exact putCalendarLoad_sound _ _
    | with_reducible exact putZoneLoad_sound _ _
    | with_reducible exact putGroupLoad_sound _ _
    | with_reducible exact putPatternLoad_sound _ _
    | with_reducible exact putChannelLoad_sound _ _
    | with_reducible exact putDrillLoad_sound _ _
    | with_reducible exact putCircuitLoad_sound _ _
    | with_reducible exact putLineLoad_sound _ _
    | with_reducible exact putMemberLoad_sound _ _
    | with_reducible exact putIoLoad_sound _ _
    | with_reducible exact putSwitch_sound _ _
    | with_reducible apply upd_answer_csound
    | with_reducible apply upd_refuse_csound
    | with_reducible apply upd_setTb_csound
    | with_reducible apply upd_ask_csound
    | with_reducible apply upd_setLine_csound
    | with_reducible apply upd_setNode_csound
    | with_reducible apply upd_setCircuit_csound
    | with_reducible apply upd_setOutput_csound
    | with_reducible apply upd_setInput_csound
    | with_reducible apply upd_trouble_csound
    | with_reducible apply call_csound
    | (with_reducible apply each_csound; intro _ _ _ _; try dsimp only)
    | with_reducible apply upd_csound
    | with_reducible exact (mirrorFire_turn _).toSound
    | split
    | with_reducible apply Sound.refl
    | (with_reducible apply Sound.of_blocks <;> first | rfl | simp)

theorem decideLoadCalendar_csound {c0 c : Ctx} (h : CSound c0 c) {q : ReqHdr} {count offset : Nat} : CSound c0 (decideLoadCalendar q count offset c) := by
  unfold decideLoadCalendar
  split
  · exact upd_refuse_csound h
  · exact beginLoad_csound (upd_csound h (putCalendarLoad_sound _ _)) fun _ k => finishCalendar_csound k

theorem calendarRead_csound {c0 c : Ctx} (h : CSound c0 c) {d : List Byte} : CSound c0 (calendarRead d c) := by
  unfold calendarRead
  split
  · exact h
  · exact loadRecord_csound h (fun _ _ => putCalendarLoad_sound _ _) fun _ _ k => finishCalendar_csound k

theorem finishZones_csound {c0 c : Ctx} (h : CSound c0 c) {l : Load ZoneRec} : CSound c0 (finishZones l c) := by
  unfold finishZones
  dsimp only
  have h1 : CSound c0 (c.upd (putZoneLoad none)) := upd_csound h (putZoneLoad_sound _ _)
  have hz : ∀ z, (List.replicate 64 ZoneDyn.clear).getD z ZoneDyn.clear = ZoneDyn.clear := by
    intro z
    rw [List.getD_eq_getElem?_getD, List.getElem?_replicate]
    split <;> rfl
  split
  · refine upd_answer_csound (record_csound (upd_csound h1 ⟨id, id, ?_, fun k => ⟨fun z _ _ => ?_, fun _ z _ => ?_, k.feeds⟩, rfl⟩))
    · exact fun k => ⟨by simp, k.feeds, k.channels, k.circuits, k.lines, k.inputs, k.outputs⟩
    · exact ⟨congrArg ZoneDyn.holder (hz z), congrArg ZoneDyn.waiters (hz z)⟩
    · refine ⟨fun x hx => ?_, congrArg ZoneDyn.waiters (hz z)⟩
      cases hx.symm.trans (congrArg ZoneDyn.holder (hz z))
  · exact upd_refuse_csound h1

theorem decideLoadZones_csound {c0 c : Ctx} (h : CSound c0 c) {q : ReqHdr} {count offset : Nat} : CSound c0 (decideLoadZones q count offset c) := by
  unfold decideLoadZones
  split
  · exact upd_refuse_csound h
  · exact beginLoad_csound (upd_csound h (putZoneLoad_sound _ _)) fun _ k => finishZones_csound k

theorem zoneRead_csound {c0 c : Ctx} (h : CSound c0 c) {d : List Byte} : CSound c0 (zoneRead d c) := by
  unfold zoneRead
  split
  · exact h
  · exact loadRecord_csound h (fun _ _ => putZoneLoad_sound _ _) fun _ _ k => finishZones_csound k

theorem finishGroups_csound {c0 c : Ctx} (h : CSound c0 c) {l : Load ZoneSet} : CSound c0 (finishGroups l c) := by
  unfold finishGroups
  dsimp only
  have h1 : CSound c0 (c.upd (putGroupLoad none)) := upd_csound h (putGroupLoad_sound _ _)
  split
  · refine upd_answer_csound (record_csound (upd_csound h1 ?_))
    apply Sound.of_za <;> rfl
  · exact upd_refuse_csound h1

theorem decideLoadGroups_csound {c0 c : Ctx} (h : CSound c0 c) {q : ReqHdr} {count offset : Nat} : CSound c0 (decideLoadGroups q count offset c) := by
  unfold decideLoadGroups
  split
  · exact upd_refuse_csound h
  · exact beginLoad_csound (upd_csound h (putGroupLoad_sound _ _)) fun _ k => finishGroups_csound k

theorem groupRead_csound {c0 c : Ctx} (h : CSound c0 c) {d : List Byte} : CSound c0 (groupRead d c) := by
  unfold groupRead
  split
  · exact h
  · dsimp only
    split
    · exact upd_refuse_csound (upd_csound h (putGroupLoad_sound _ _))
    · exact loadRecord_csound h (fun _ _ => putGroupLoad_sound _ _) fun _ _ k => finishGroups_csound k

theorem finishPatterns_csound {c0 c : Ctx} (h : CSound c0 c) {l : Load Pattern} : CSound c0 (finishPatterns l c) := by
  unfold finishPatterns
  dsimp only
  have h1 : CSound c0 (c.upd (putPatternLoad none)) := upd_csound h (putPatternLoad_sound _ _)
  split
  · exact upd_refuse_csound h1
  · with_reducible apply upd_answer_csound
    with_reducible refine csound_of_turn ?_ (versionChanged_cturn (CTurn.refl _))
    with_reducible apply record_csound
    refine upd_csound h1 ?_
    apply Sound.of_blocks
    all_goals rfl

theorem decideLoadPatterns_csound {c0 c : Ctx} (h : CSound c0 c) {q : ReqHdr} {count offset : Nat} : CSound c0 (decideLoadPatterns q count offset c) := by
  unfold decideLoadPatterns
  split
  · exact upd_refuse_csound h
  · exact beginLoad_csound (upd_csound h (putPatternLoad_sound _ _)) fun _ k => finishPatterns_csound k

theorem patternRead_csound {c0 c : Ctx} (h : CSound c0 c) {d : List Byte} : CSound c0 (patternRead d c) := by
  unfold patternRead
  split
  · exact h
  · exact loadRecord_csound h (fun _ _ => putPatternLoad_sound _ _) fun _ _ k => finishPatterns_csound k

theorem finishChannels_csound {c0 c : Ctx} (h : CSound c0 c) {l : Load ChannelSet} : CSound c0 (finishChannels l c) := by
  unfold finishChannels
  dsimp only
  have h1 : CSound c0 (c.upd (putChannelLoad none)) := upd_csound h (putChannelLoad_sound _ _)
  split
  · exact upd_refuse_csound h1
  · refine upd_answer_csound (record_csound (upd_csound h1 ⟨id, id, fun k => ?_, fun k => ⟨k.out, k.silent, k.feeds⟩, rfl⟩))
    refine ⟨k.zones, k.feeds, ?_, k.circuits, k.lines, k.inputs, k.outputs⟩
    have := k.channels
    simp only [List.length_zipWith, filled, List.length_append, List.length_replicate]
    simp only [Ctx.upd_st] at this ⊢
    omega

theorem decideLoadChannels_csound {c0 c : Ctx} (h : CSound c0 c) {q : ReqHdr} {count offset : Nat} : CSound c0 (decideLoadChannels q count offset c) := by
  unfold decideLoadChannels
  split
  · exact upd_refuse_csound h
  · exact beginLoad_csound (upd_csound h (putChannelLoad_sound _ _)) fun _ k => finishChannels_csound k

theorem channelRead_csound {c0 c : Ctx} (h : CSound c0 c) {d : List Byte} : CSound c0 (channelRead d c) := by
  unfold channelRead
  split
  · exact h
  · exact loadRecord_csound h (fun _ _ => putChannelLoad_sound _ _) fun _ _ k => finishChannels_csound k

theorem finishDrills_csound {c0 c : Ctx} (h : CSound c0 c) {l : Load DrillRec} : CSound c0 (finishDrills l c) := by
  unfold finishDrills
  try dsimp only
  repeat' first
    | with_reducible assumption
    | with_reducible apply upd_say_csound
    | with_reducible apply record_csound
    | with_reducible exact putProfileLoad_sound _ _
    | with_reducible exact putCalendarLoad_sound _ _
    | with_reducible exact putZoneLoad_sound _ _
    | with_reducible exact putGroupLoad_sound _ _
    | with_reducible exact putPatternLoad_sound _ _
    | with_reducible exact putChannelLoad_sound _ _
    | with_reducible exact putDrillLoad_sound _ _
    | with_reducible exact putCircuitLoad_sound _ _
    | with_reducible exact putLineLoad_sound _ _
    | with_reducible exact putMemberLoad_sound _ _
    | with_reducible exact putIoLoad_sound _ _
    | with_reducible exact putSwitch_sound _ _
    | with_reducible apply upd_answer_csound
    | with_reducible apply upd_refuse_csound
    | with_reducible apply upd_setTb_csound
    | with_reducible apply upd_ask_csound
    | with_reducible apply upd_setLine_csound
    | with_reducible apply upd_setNode_csound
    | with_reducible apply upd_setCircuit_csound
    | with_reducible apply upd_setOutput_csound
    | with_reducible apply upd_setInput_csound
    | with_reducible apply upd_trouble_csound
    | with_reducible apply call_csound
    | (with_reducible apply each_csound; intro _ _ _ _; try dsimp only)
    | with_reducible apply upd_csound
    | with_reducible exact (mirrorFire_turn _).toSound
    | split
    | with_reducible apply Sound.refl
    | (with_reducible apply Sound.of_blocks <;> first | rfl | simp)

theorem decideLoadDrills_csound {c0 c : Ctx} (h : CSound c0 c) {q : ReqHdr} {count offset : Nat} : CSound c0 (decideLoadDrills q count offset c) := by
  unfold decideLoadDrills
  split
  · exact upd_refuse_csound h
  · exact beginLoad_csound (upd_csound h (putDrillLoad_sound _ _)) fun _ k => finishDrills_csound k

theorem drillRead_csound {c0 c : Ctx} (h : CSound c0 c) {d : List Byte} : CSound c0 (drillRead d c) := by
  unfold drillRead
  split
  · exact h
  · exact loadRecord_csound h (fun _ _ => putDrillLoad_sound _ _) fun _ _ k => finishDrills_csound k

theorem applyCircuit_csound {c0 c : Ctx} (h : CSound c0 c) {i : Nat} {new : CircuitSet} : CSound c0 (applyCircuit i new c) := by
  unfold applyCircuit
  try dsimp only
  repeat' first
    | with_reducible assumption
    | with_reducible apply upd_say_csound
    | with_reducible apply record_csound
    | with_reducible refine csound_of_turn ?_ (circuitBecomes_cturn (CTurn.refl _))
    | with_reducible refine csound_of_turn ?_ (circuitPoint_cturn (CTurn.refl _))
    | with_reducible exact putProfileLoad_sound _ _
    | with_reducible exact putCalendarLoad_sound _ _
    | with_reducible exact putZoneLoad_sound _ _
    | with_reducible exact putGroupLoad_sound _ _
    | with_reducible exact putPatternLoad_sound _ _
    | with_reducible exact putChannelLoad_sound _ _
    | with_reducible exact putDrillLoad_sound _ _
    | with_reducible exact putCircuitLoad_sound _ _
    | with_reducible exact putLineLoad_sound _ _
    | with_reducible exact putMemberLoad_sound _ _
    | with_reducible exact putIoLoad_sound _ _
    | with_reducible exact putSwitch_sound _ _
    | with_reducible apply upd_answer_csound
    | with_reducible apply upd_refuse_csound
    | with_reducible apply upd_setTb_csound
    | with_reducible apply upd_ask_csound
    | with_reducible apply upd_setLine_csound
    | with_reducible apply upd_setNode_csound
    | with_reducible apply upd_setCircuit_csound
    | with_reducible apply upd_setOutput_csound
    | with_reducible apply upd_setInput_csound
    | with_reducible apply upd_trouble_csound
    | with_reducible apply call_csound
    | (with_reducible apply each_csound; intro _ _ _ _; try dsimp only)
    | with_reducible apply upd_csound
    | with_reducible exact (mirrorFire_turn _).toSound
    | split
    | with_reducible apply Sound.refl
    | (with_reducible apply Sound.of_blocks <;> first | rfl | simp)

theorem finishCircuits_csound {c0 c : Ctx} (h : CSound c0 c) {l : Load CircuitSet} {tolerance : Nat} : CSound c0 (finishCircuits l tolerance c) := by
  unfold finishCircuits
  try dsimp only
  repeat' first
    | with_reducible assumption
    | with_reducible apply upd_say_csound
    | with_reducible apply record_csound
    | with_reducible apply applyCircuit_csound
    | with_reducible exact putProfileLoad_sound _ _
    | with_reducible exact putCalendarLoad_sound _ _
    | with_reducible exact putZoneLoad_sound _ _
    | with_reducible exact putGroupLoad_sound _ _
    | with_reducible exact putPatternLoad_sound _ _
    | with_reducible exact putChannelLoad_sound _ _
    | with_reducible exact putDrillLoad_sound _ _
    | with_reducible exact putCircuitLoad_sound _ _
    | with_reducible exact putLineLoad_sound _ _
    | with_reducible exact putMemberLoad_sound _ _
    | with_reducible exact putIoLoad_sound _ _
    | with_reducible exact putSwitch_sound _ _
    | with_reducible apply upd_answer_csound
    | with_reducible apply upd_refuse_csound
    | with_reducible apply upd_setTb_csound
    | with_reducible apply upd_ask_csound
    | with_reducible apply upd_setLine_csound
    | with_reducible apply upd_setNode_csound
    | with_reducible apply upd_setCircuit_csound
    | with_reducible apply upd_setOutput_csound
    | with_reducible apply upd_setInput_csound
    | with_reducible apply upd_trouble_csound
    | with_reducible apply call_csound
    | (with_reducible apply each_csound; intro _ _ _ _; try dsimp only)
    | with_reducible apply upd_csound
    | with_reducible exact (mirrorFire_turn _).toSound
    | split
    | with_reducible apply Sound.refl
    | (with_reducible apply Sound.of_blocks <;> first | rfl | simp)

theorem decideLoadCircuits_csound {c0 c : Ctx} (h : CSound c0 c) {q : ReqHdr} {count offset tolerance : Nat} : CSound c0 (decideLoadCircuits q count offset tolerance c) := by
  unfold decideLoadCircuits
  split
  · exact upd_refuse_csound h
  · exact beginLoad_csound (upd_csound h (putCircuitLoad_sound _ _)) fun _ k => finishCircuits_csound k

theorem circuitRead_csound {c0 c : Ctx} (h : CSound c0 c) {d : List Byte} : CSound c0 (circuitRead d c) := by
  unfold circuitRead
  split
  · exact h
  · exact loadRecord_csound h (fun _ _ => putCircuitLoad_sound _ _) fun _ _ k => finishCircuits_csound k

theorem cycleBegins_csound {c0 c : Ctx} (h : CSound c0 c) {ln : Nat} : CSound c0 (cycleBegins ln c) := by
  unfold cycleBegins
  try dsimp only
  repeat' first
    | with_reducible assumption
    | with_reducible apply upd_say_csound
    | with_reducible apply record_csound
    | with_reducible refine csound_of_turn ?_ (settleLine_cturn (CTurn.refl _))
    | with_reducible refine csound_of_turn ?_ (pollNext_cturn (CTurn.refl _))
    | with_reducible exact putProfileLoad_sound _ _
    | with_reducible exact putCalendarLoad_sound _ _
    | with_reducible exact putZoneLoad_sound _ _
    | with_reducible exact putGroupLoad_sound _ _
    | with_reducible exact putPatternLoad_sound _ _
    | with_reducible exact putChannelLoad_sound _ _
    | with_reducible exact putDrillLoad_sound _ _
    | with_reducible exact putCircuitLoad_sound _ _
    | with_reducible exact putLineLoad_sound _ _
    | with_reducible exact putMemberLoad_sound _ _
    | with_reducible exact putIoLoad_sound _ _
    | with_reducible exact putSwitch_sound _ _
    | with_reducible apply upd_answer_csound
    | with_reducible apply upd_refuse_csound
    | with_reducible apply upd_setTb_csound
    | with_reducible apply upd_ask_csound
    | with_reducible apply upd_setLine_csound
    | with_reducible apply upd_setNode_csound
    | with_reducible apply upd_setCircuit_csound
    | with_reducible apply upd_setOutput_csound
    | with_reducible apply upd_setInput_csound
    | with_reducible apply upd_trouble_csound
    | with_reducible apply call_csound
    | (with_reducible apply each_csound; intro _ _ _ _; try dsimp only)
    | with_reducible apply upd_csound
    | with_reducible exact (mirrorFire_turn _).toSound
    | split
    | with_reducible apply Sound.refl
    | (with_reducible apply Sound.of_blocks <;> first | rfl | simp)

theorem firstPath_csound {c0 c : Ctx} (h : CSound c0 c) {ln : Nat} {p : Path} {r : PathCond} : CSound c0 (firstPath ln p r c) := by
  unfold firstPath
  try dsimp only
  repeat' first
    | with_reducible assumption
    | with_reducible apply upd_say_csound
    | with_reducible apply record_csound
    | with_reducible exact putProfileLoad_sound _ _
    | with_reducible exact putCalendarLoad_sound _ _
    | with_reducible exact putZoneLoad_sound _ _
    | with_reducible exact putGroupLoad_sound _ _
    | with_reducible exact putPatternLoad_sound _ _
    | with_reducible exact putChannelLoad_sound _ _
    | with_reducible exact putDrillLoad_sound _ _
    | with_reducible exact putCircuitLoad_sound _ _
    | with_reducible exact putLineLoad_sound _ _
    | with_reducible exact putMemberLoad_sound _ _
    | with_reducible exact putIoLoad_sound _ _
    | with_reducible exact putSwitch_sound _ _
    | with_reducible apply upd_answer_csound
    | with_reducible apply upd_refuse_csound
    | with_reducible apply upd_setTb_csound
    | with_reducible apply upd_ask_csound
    | with_reducible apply upd_setLine_csound
    | with_reducible apply upd_setNode_csound
    | with_reducible apply upd_setCircuit_csound
    | with_reducible apply upd_setOutput_csound
    | with_reducible apply upd_setInput_csound
    | with_reducible apply upd_trouble_csound
    | with_reducible apply call_csound
    | (with_reducible apply each_csound; intro _ _ _ _; try dsimp only)
    | with_reducible apply upd_csound
    | with_reducible exact (mirrorFire_turn _).toSound
    | split
    | with_reducible apply Sound.refl
    | (with_reducible apply Sound.of_blocks <;> first | rfl | simp)

theorem lineStarts_csound {c0 c : Ctx} (h : CSound c0 c) {ln : Nat} {old : LineState} {r : PathPair} : CSound c0 (lineStarts ln old r c) := by
  unfold lineStarts
  try dsimp only
  repeat' first
    | with_reducible assumption
    | with_reducible apply upd_say_csound
    | with_reducible apply record_csound
    | with_reducible apply cycleBegins_csound
    | with_reducible apply firstPath_csound
    | with_reducible refine csound_of_turn ?_ (lineChanged_cturn (CTurn.refl _))
    | with_reducible exact putProfileLoad_sound _ _
    | with_reducible exact putCalendarLoad_sound _ _
    | with_reducible exact putZoneLoad_sound _ _
    | with_reducible exact putGroupLoad_sound _ _
    | with_reducible exact putPatternLoad_sound _ _
    | with_reducible exact putChannelLoad_sound _ _
    | with_reducible exact putDrillLoad_sound _ _
    | with_reducible exact putCircuitLoad_sound _ _
    | with_reducible exact putLineLoad_sound _ _
    | with_reducible exact putMemberLoad_sound _ _
    | with_reducible exact putIoLoad_sound _ _
    | with_reducible exact putSwitch_sound _ _
    | with_reducible apply upd_answer_csound
    | with_reducible apply upd_refuse_csound
    | with_reducible apply upd_setTb_csound
    | with_reducible apply upd_ask_csound
    | with_reducible apply upd_setLine_csound
    | with_reducible apply upd_setNode_csound
    | with_reducible apply upd_setCircuit_csound
    | with_reducible apply upd_setOutput_csound
    | with_reducible apply upd_setInput_csound
    | with_reducible apply upd_trouble_csound
    | with_reducible apply call_csound
    | (with_reducible apply each_csound; intro _ _ _ _; try dsimp only)
    | with_reducible apply upd_csound
    | with_reducible exact (mirrorFire_turn _).toSound
    | split
    | with_reducible apply Sound.refl
    | (with_reducible apply Sound.of_blocks <;> first | rfl | simp)

theorem applyThreshold_csound {c0 c : Ctx} (h : CSound c0 c) {ln : Nat} : CSound c0 (applyThreshold ln c) := by
  unfold applyThreshold
  try dsimp only
  repeat' first
    | with_reducible assumption
    | with_reducible apply upd_say_csound
    | with_reducible apply record_csound
    | with_reducible refine csound_of_turn ?_ (enterFaulted_cturn (CTurn.refl _))
    | with_reducible exact putProfileLoad_sound _ _
    | with_reducible exact putCalendarLoad_sound _ _
    | with_reducible exact putZoneLoad_sound _ _
    | with_reducible exact putGroupLoad_sound _ _
    | with_reducible exact putPatternLoad_sound _ _
    | with_reducible exact putChannelLoad_sound _ _
    | with_reducible exact putDrillLoad_sound _ _
    | with_reducible exact putCircuitLoad_sound _ _
    | with_reducible exact putLineLoad_sound _ _
    | with_reducible exact putMemberLoad_sound _ _
    | with_reducible exact putIoLoad_sound _ _
    | with_reducible exact putSwitch_sound _ _
    | with_reducible apply upd_answer_csound
    | with_reducible apply upd_refuse_csound
    | with_reducible apply upd_setTb_csound
    | with_reducible apply upd_ask_csound
    | with_reducible apply upd_setLine_csound
    | with_reducible apply upd_setNode_csound
    | with_reducible apply upd_setCircuit_csound
    | with_reducible apply upd_setOutput_csound
    | with_reducible apply upd_setInput_csound
    | with_reducible apply upd_trouble_csound
    | with_reducible apply call_csound
    | (with_reducible apply each_csound; intro _ _ _ _; try dsimp only)
    | with_reducible apply upd_csound
    | with_reducible exact (mirrorFire_turn _).toSound
    | split
    | with_reducible apply Sound.refl
    | (with_reducible apply Sound.of_blocks <;> first | rfl | simp)

theorem applyLine_csound {c0 c : Ctx} (h : CSound c0 c) {ln : Nat} {new : LineCfg} {r : PathPair} : CSound c0 (applyLine ln new r c) := by
  unfold applyLine
  try dsimp only
  repeat' first
    | with_reducible assumption
    | with_reducible apply upd_say_csound
    | with_reducible apply record_csound
    | with_reducible apply lineStarts_csound
    | with_reducible apply applyThreshold_csound
    | with_reducible refine csound_of_turn ?_ (lineChanged_cturn (CTurn.refl _))
    | with_reducible exact putProfileLoad_sound _ _
    | with_reducible exact putCalendarLoad_sound _ _
    | with_reducible exact putZoneLoad_sound _ _
    | with_reducible exact putGroupLoad_sound _ _
    | with_reducible exact putPatternLoad_sound _ _
    | with_reducible exact putChannelLoad_sound _ _
    | with_reducible exact putDrillLoad_sound _ _
    | with_reducible exact putCircuitLoad_sound _ _
    | with_reducible exact putLineLoad_sound _ _
    | with_reducible exact putMemberLoad_sound _ _
    | with_reducible exact putIoLoad_sound _ _
    | with_reducible exact putSwitch_sound _ _
    | with_reducible apply upd_answer_csound
    | with_reducible apply upd_refuse_csound
    | with_reducible apply upd_setTb_csound
    | with_reducible apply upd_ask_csound
    | with_reducible apply upd_setLine_csound
    | with_reducible apply upd_setNode_csound
    | with_reducible apply upd_setCircuit_csound
    | with_reducible apply upd_setOutput_csound
    | with_reducible apply upd_setInput_csound
    | with_reducible apply upd_trouble_csound
    | with_reducible apply call_csound
    | (with_reducible apply each_csound; intro _ _ _ _; try dsimp only)
    | with_reducible apply upd_csound
    | with_reducible exact (mirrorFire_turn _).toSound
    | split
    | with_reducible apply Sound.refl
    | (with_reducible apply Sound.of_blocks <;> first | rfl | simp)

theorem finishLines_csound {c0 c : Ctx} (h : CSound c0 c) {paths : List PathPair} {l : Load LineCfg} : CSound c0 (finishLines paths l c) := by
  unfold finishLines
  try dsimp only
  repeat' first
    | with_reducible assumption
    | with_reducible apply upd_say_csound
    | with_reducible apply record_csound
    | with_reducible apply applyLine_csound
    | with_reducible exact putProfileLoad_sound _ _
    | with_reducible exact putCalendarLoad_sound _ _
    | with_reducible exact putZoneLoad_sound _ _
    | with_reducible exact putGroupLoad_sound _ _
    | with_reducible exact putPatternLoad_sound _ _
    | with_reducible exact putChannelLoad_sound _ _
    | with_reducible exact putDrillLoad_sound _ _
    | with_reducible exact putCircuitLoad_sound _ _
    | with_reducible exact putLineLoad_sound _ _
    | with_reducible exact putMemberLoad_sound _ _
    | with_reducible exact putIoLoad_sound _ _
    | with_reducible exact putSwitch_sound _ _
    | with_reducible apply upd_answer_csound
    | with_reducible apply upd_refuse_csound
    | with_reducible apply upd_setTb_csound
    | with_reducible apply upd_ask_csound
    | with_reducible apply upd_setLine_csound
    | with_reducible apply upd_setNode_csound
    | with_reducible apply upd_setCircuit_csound
    | with_reducible apply upd_setOutput_csound
    | with_reducible apply upd_setInput_csound
    | with_reducible apply upd_trouble_csound
    | with_reducible apply call_csound
    | (with_reducible apply each_csound; intro _ _ _ _; try dsimp only)
    | with_reducible apply upd_csound
    | with_reducible exact (mirrorFire_turn _).toSound
    | split
    | with_reducible apply Sound.refl
    | (with_reducible apply Sound.of_blocks <;> first | rfl | simp)

theorem decideLoadLines_csound {c0 c : Ctx} (h : CSound c0 c) {q : ReqHdr} {count offset : Nat} : CSound c0 (decideLoadLines q count offset c) := by
  unfold decideLoadLines
  split
  · exact upd_refuse_csound h
  · exact beginLoad_csound (upd_csound h (putLineLoad_sound _ _)) fun _ k => finishLines_csound k

theorem lineRead_csound {c0 c : Ctx} (h : CSound c0 c) {paths : List PathPair} {d : List Byte} : CSound c0 (lineRead paths d c) := by
  unfold lineRead
  split
  · exact h
  · exact loadRecord_csound h (fun _ _ => putLineLoad_sound _ _) fun _ _ k => finishLines_csound k

theorem applyMember_csound {c0 c : Ctx} (h : CSound c0 c) {ln : Nat} {n : Node} : CSound c0 (applyMember ln n c) := by
  unfold applyMember
  try dsimp only
  repeat' first
    | with_reducible assumption
    | with_reducible apply upd_say_csound
    | with_reducible apply record_csound
    | with_reducible refine csound_of_turn ?_ (offerConfigure_cturn (CTurn.refl _))
    | with_reducible exact putProfileLoad_sound _ _
    | with_reducible exact putCalendarLoad_sound _ _
    | with_reducible exact putZoneLoad_sound _ _
    | with_reducible exact putGroupLoad_sound _ _
    | with_reducible exact putPatternLoad_sound _ _
    | with_reducible exact putChannelLoad_sound _ _
    | with_reducible exact putDrillLoad_sound _ _
    | with_reducible exact putCircuitLoad_sound _ _
    | with_reducible exact putLineLoad_sound _ _
    | with_reducible exact putMemberLoad_sound _ _
    | with_reducible exact putIoLoad_sound _ _
    | with_reducible exact putSwitch_sound _ _
    | with_reducible apply upd_answer_csound
    | with_reducible apply upd_refuse_csound
    | with_reducible apply upd_setTb_csound
    | with_reducible apply upd_ask_csound
    | with_reducible apply upd_setLine_csound
    | with_reducible apply upd_setNode_csound
    | with_reducible apply upd_setCircuit_csound
    | with_reducible apply upd_setOutput_csound
    | with_reducible apply upd_setInput_csound
    | with_reducible apply upd_trouble_csound
    | with_reducible apply call_csound
    | (with_reducible apply each_csound; intro _ _ _ _; try dsimp only)
    | with_reducible apply upd_csound
    | with_reducible exact (mirrorFire_turn _).toSound
    | split
    | with_reducible apply Sound.refl
    | (with_reducible apply Sound.of_blocks <;> first | rfl | simp)

theorem finishMembers_csound {c0 c : Ctx} (h : CSound c0 c) {l : Load Member} : CSound c0 (finishMembers l c) := by
  unfold finishMembers
  try dsimp only
  repeat' first
    | with_reducible assumption
    | with_reducible apply upd_say_csound
    | with_reducible apply record_csound
    | with_reducible apply applyMember_csound
    | with_reducible exact putProfileLoad_sound _ _
    | with_reducible exact putCalendarLoad_sound _ _
    | with_reducible exact putZoneLoad_sound _ _
    | with_reducible exact putGroupLoad_sound _ _
    | with_reducible exact putPatternLoad_sound _ _
    | with_reducible exact putChannelLoad_sound _ _
    | with_reducible exact putDrillLoad_sound _ _
    | with_reducible exact putCircuitLoad_sound _ _
    | with_reducible exact putLineLoad_sound _ _
    | with_reducible exact putMemberLoad_sound _ _
    | with_reducible exact putIoLoad_sound _ _
    | with_reducible exact putSwitch_sound _ _
    | with_reducible apply upd_answer_csound
    | with_reducible apply upd_refuse_csound
    | with_reducible apply upd_setTb_csound
    | with_reducible apply upd_ask_csound
    | with_reducible apply upd_setLine_csound
    | with_reducible apply upd_setNode_csound
    | with_reducible apply upd_setCircuit_csound
    | with_reducible apply upd_setOutput_csound
    | with_reducible apply upd_setInput_csound
    | with_reducible apply upd_trouble_csound
    | with_reducible apply call_csound
    | (with_reducible apply each_csound; intro _ _ _ _; try dsimp only)
    | with_reducible apply upd_csound
    | with_reducible exact (mirrorFire_turn _).toSound
    | split
    | with_reducible apply Sound.refl
    | (with_reducible apply Sound.of_blocks <;> first | rfl | simp)

theorem decideLoadMembers_csound {c0 c : Ctx} (h : CSound c0 c) {q : ReqHdr} {count offset : Nat} : CSound c0 (decideLoadMembers q count offset c) := by
  unfold decideLoadMembers
  split
  · exact upd_refuse_csound h
  · exact beginLoad_csound (upd_csound h (putMemberLoad_sound _ _)) fun _ k => finishMembers_csound k

theorem memberRead_csound {c0 c : Ctx} (h : CSound c0 c) {d : List Byte} : CSound c0 (memberRead d c) := by
  unfold memberRead
  split
  · exact h
  · exact loadRecord_csound h (fun _ _ => putMemberLoad_sound _ _) fun _ _ k => finishMembers_csound k

theorem decideLoadIo_csound {c0 c : Ctx} (h : CSound c0 c) {q : ReqHdr} {offset : Nat} : CSound c0 (decideLoadIo q offset c) := by
  unfold decideLoadIo
  try dsimp only
  repeat' first
    | with_reducible assumption
    | with_reducible apply upd_say_csound
    | with_reducible apply record_csound
    | with_reducible exact putProfileLoad_sound _ _
    | with_reducible exact putCalendarLoad_sound _ _
    | with_reducible exact putZoneLoad_sound _ _
    | with_reducible exact putGroupLoad_sound _ _
    | with_reducible exact putPatternLoad_sound _ _
    | with_reducible exact putChannelLoad_sound _ _
    | with_reducible exact putDrillLoad_sound _ _
    | with_reducible exact putCircuitLoad_sound _ _
    | with_reducible exact putLineLoad_sound _ _
    | with_reducible exact putMemberLoad_sound _ _
    | with_reducible exact putIoLoad_sound _ _
    | with_reducible exact putSwitch_sound _ _
    | with_reducible apply upd_answer_csound
    | with_reducible apply upd_refuse_csound
    | with_reducible apply upd_setTb_csound
    | with_reducible apply upd_ask_csound
    | with_reducible apply upd_setLine_csound
    | with_reducible apply upd_setNode_csound
    | with_reducible apply upd_setCircuit_csound
    | with_reducible apply upd_setOutput_csound
    | with_reducible apply upd_setInput_csound
    | with_reducible apply upd_trouble_csound
    | with_reducible apply call_csound
    | (with_reducible apply each_csound; intro _ _ _ _; try dsimp only)
    | with_reducible apply upd_csound
    | with_reducible exact (mirrorFire_turn _).toSound
    | split
    | with_reducible apply Sound.refl
    | (with_reducible apply Sound.of_blocks <;> first | rfl | simp)

theorem inputRefunction_csound {c0 c : Ctx} (h : CSound c0 c) {k : Nat} {old : InFunc} : CSound c0 (inputRefunction k old c) := by
  unfold inputRefunction
  try dsimp only
  repeat' first
    | with_reducible assumption
    | with_reducible apply upd_say_csound
    | with_reducible apply record_csound
    | with_reducible apply fireAlarmOff_csound
    | with_reducible refine csound_of_turn ?_ (pttChanged_cturn (CTurn.refl _))
    | with_reducible refine csound_of_turn ?_ (fireAlarmOn_cturn (CTurn.refl _))
    | with_reducible exact putProfileLoad_sound _ _
    | with_reducible exact putCalendarLoad_sound _ _
    | with_reducible exact putZoneLoad_sound _ _
    | with_reducible exact putGroupLoad_sound _ _
    | with_reducible exact putPatternLoad_sound _ _
    | with_reducible exact putChannelLoad_sound _ _
    | with_reducible exact putDrillLoad_sound _ _
    | with_reducible exact putCircuitLoad_sound _ _
    | with_reducible exact putLineLoad_sound _ _
    | with_reducible exact putMemberLoad_sound _ _
    | with_reducible exact putIoLoad_sound _ _
    | with_reducible exact putSwitch_sound _ _
    | with_reducible apply upd_answer_csound
    | with_reducible apply upd_refuse_csound
    | with_reducible apply upd_setTb_csound
    | with_reducible apply upd_ask_csound
    | with_reducible apply upd_setLine_csound
    | with_reducible apply upd_setNode_csound
    | with_reducible apply upd_setCircuit_csound
    | with_reducible apply upd_setOutput_csound
    | with_reducible apply upd_setInput_csound
    | with_reducible apply upd_trouble_csound
    | with_reducible apply call_csound
    | (with_reducible apply each_csound; intro _ _ _ _; try dsimp only)
    | with_reducible apply upd_csound
    | with_reducible exact (mirrorFire_turn _).toSound
    | split
    | with_reducible apply Sound.refl
    | (with_reducible apply Sound.of_blocks <;> first | rfl | simp)

theorem finishIo_csound {c0 c : Ctx} (h : CSound c0 c) {l : IoLoad} {pair : Bool} {mask : BitVec 6} (hi : 12 ≤ l.ins.length)
    (ho : 12 ≤ l.outs.length) : CSound c0 (finishIo l pair mask c) := by
  unfold finishIo
  dsimp only
  with_reducible apply upd_answer_csound
  with_reducible apply upd_trouble_csound
  with_reducible apply each_csound
  · intro _ _ _ k
    exact inputRefunction_csound k
  with_reducible apply record_csound
  refine upd_csound (upd_csound h ⟨id, id, fun k => ?_, fun k => ⟨k.out, k.silent, k.feeds⟩, rfl⟩) ?_
  · refine ⟨k.zones, k.feeds, k.channels, k.circuits, k.lines, ?_, ?_⟩
    · have := k.inputs
      simp only [List.length_zipWith]
      omega
    · have := k.outputs
      simp only [List.length_zipWith]
      omega
  · apply Sound.of_blocks <;> first | rfl | simp

theorem nextIo_csound {c0 c : Ctx} (h : CSound c0 c) {l : IoLoad} {size : Nat} : CSound c0 (nextIo l size c) := by
  unfold nextIo
  try dsimp only
  repeat' first
    | with_reducible assumption
    | with_reducible apply upd_say_csound
    | with_reducible apply record_csound
    | with_reducible exact putProfileLoad_sound _ _
    | with_reducible exact putCalendarLoad_sound _ _
    | with_reducible exact putZoneLoad_sound _ _
    | with_reducible exact putGroupLoad_sound _ _
    | with_reducible exact putPatternLoad_sound _ _
    | with_reducible exact putChannelLoad_sound _ _
    | with_reducible exact putDrillLoad_sound _ _
    | with_reducible exact putCircuitLoad_sound _ _
    | with_reducible exact putLineLoad_sound _ _
    | with_reducible exact putMemberLoad_sound _ _
    | with_reducible exact putIoLoad_sound _ _
    | with_reducible exact putSwitch_sound _ _
    | with_reducible apply upd_answer_csound
    | with_reducible apply upd_refuse_csound
    | with_reducible apply upd_setTb_csound
    | with_reducible apply upd_ask_csound
    | with_reducible apply upd_setLine_csound
    | with_reducible apply upd_setNode_csound
    | with_reducible apply upd_setCircuit_csound
    | with_reducible apply upd_setOutput_csound
    | with_reducible apply upd_setInput_csound
    | with_reducible apply upd_trouble_csound
    | with_reducible apply call_csound
    | (with_reducible apply each_csound; intro _ _ _ _; try dsimp only)
    | with_reducible apply upd_csound
    | with_reducible exact (mirrorFire_turn _).toSound
    | split
    | with_reducible apply Sound.refl
    | (with_reducible apply Sound.of_blocks <;> first | rfl | simp)

theorem ioFault_csound {c0 c : Ctx} (h : CSound c0 c) {l : IoLoad} {index : Nat} : CSound c0 (ioFault l index c) := by
  unfold ioFault
  try dsimp only
  repeat' first
    | with_reducible assumption
    | with_reducible apply upd_say_csound
    | with_reducible apply record_csound
    | with_reducible exact putProfileLoad_sound _ _
    | with_reducible exact putCalendarLoad_sound _ _
    | with_reducible exact putZoneLoad_sound _ _
    | with_reducible exact putGroupLoad_sound _ _
    | with_reducible exact putPatternLoad_sound _ _
    | with_reducible exact putChannelLoad_sound _ _
    | with_reducible exact putDrillLoad_sound _ _
    | with_reducible exact putCircuitLoad_sound _ _
    | with_reducible exact putLineLoad_sound _ _
    | with_reducible exact putMemberLoad_sound _ _
    | with_reducible exact putIoLoad_sound _ _
    | with_reducible exact putSwitch_sound _ _
    | with_reducible apply upd_answer_csound
    | with_reducible apply upd_refuse_csound
    | with_reducible apply upd_setTb_csound
    | with_reducible apply upd_ask_csound
    | with_reducible apply upd_setLine_csound
    | with_reducible apply upd_setNode_csound
    | with_reducible apply upd_setCircuit_csound
    | with_reducible apply upd_setOutput_csound
    | with_reducible apply upd_setInput_csound
    | with_reducible apply upd_trouble_csound
    | with_reducible apply call_csound
    | (with_reducible apply each_csound; intro _ _ _ _; try dsimp only)
    | with_reducible apply upd_csound
    | with_reducible exact (mirrorFire_turn _).toSound
    | split
    | with_reducible apply Sound.refl
    | (with_reducible apply Sound.of_blocks <;> first | rfl | simp)

theorem ioRead_csound {c0 c : Ctx} (h : CSound c0 c) {d : List Byte} : CSound c0 (ioRead d c) := by
  unfold ioRead
  split
  · exact h
  · split
    · split
      · exact ioFault_csound h
      · exact nextIo_csound h
    · split
      · split
        · exact ioFault_csound h
        · exact nextIo_csound h
      · rename_i hi
        split
        · exact ioFault_csound h
        · dsimp only
          split
          · rename_i ho
            exact finishIo_csound h (Nat.le_of_not_lt hi) ho
          · exact nextIo_csound h

theorem finishSwitch_csound {c0 c : Ctx} (h : CSound c0 c) {w : Switch} : CSound c0 (finishSwitch w c) := by
  unfold finishSwitch
  try dsimp only
  repeat' first
    | with_reducible assumption
    | with_reducible apply upd_say_csound
    | with_reducible apply record_csound
    | with_reducible exact putProfileLoad_sound _ _
    | with_reducible exact putCalendarLoad_sound _ _
    | with_reducible exact putZoneLoad_sound _ _
    | with_reducible exact putGroupLoad_sound _ _
    | with_reducible exact putPatternLoad_sound _ _
    | with_reducible exact putChannelLoad_sound _ _
    | with_reducible exact putDrillLoad_sound _ _
    | with_reducible exact putCircuitLoad_sound _ _
    | with_reducible exact putLineLoad_sound _ _
    | with_reducible exact putMemberLoad_sound _ _
    | with_reducible exact putIoLoad_sound _ _
    | with_reducible exact putSwitch_sound _ _
    | with_reducible apply upd_answer_csound
    | with_reducible apply upd_refuse_csound
    | with_reducible apply upd_setTb_csound
    | with_reducible apply upd_ask_csound
    | with_reducible apply upd_setLine_csound
    | with_reducible apply upd_setNode_csound
    | with_reducible apply upd_setCircuit_csound
    | with_reducible apply upd_setOutput_csound
    | with_reducible apply upd_setInput_csound
    | with_reducible apply upd_trouble_csound
    | with_reducible apply call_csound
    | (with_reducible apply each_csound; intro _ _ _ _; try dsimp only)
    | with_reducible apply upd_csound
    | with_reducible exact (mirrorFire_turn _).toSound
    | split
    | with_reducible apply Sound.refl
    | (with_reducible apply Sound.of_blocks <;> first | rfl | simp)

theorem decideSwitch_csound {c0 c : Ctx} (h : CSound c0 c) {q : ReqHdr} {offset count window choice day : Nat} : CSound c0 (decideSwitch q offset count window choice day c) := by
  unfold decideSwitch
  try dsimp only
  repeat' first
    | with_reducible assumption
    | with_reducible apply upd_say_csound
    | with_reducible apply record_csound
    | with_reducible apply finishSwitch_csound
    | with_reducible exact putProfileLoad_sound _ _
    | with_reducible exact putCalendarLoad_sound _ _
    | with_reducible exact putZoneLoad_sound _ _
    | with_reducible exact putGroupLoad_sound _ _
    | with_reducible exact putPatternLoad_sound _ _
    | with_reducible exact putChannelLoad_sound _ _
    | with_reducible exact putDrillLoad_sound _ _
    | with_reducible exact putCircuitLoad_sound _ _
    | with_reducible exact putLineLoad_sound _ _
    | with_reducible exact putMemberLoad_sound _ _
    | with_reducible exact putIoLoad_sound _ _
    | with_reducible exact putSwitch_sound _ _
    | with_reducible apply upd_answer_csound
    | with_reducible apply upd_refuse_csound
    | with_reducible apply upd_setTb_csound
    | with_reducible apply upd_ask_csound
    | with_reducible apply upd_setLine_csound
    | with_reducible apply upd_setNode_csound
    | with_reducible apply upd_setCircuit_csound
    | with_reducible apply upd_setOutput_csound
    | with_reducible apply upd_setInput_csound
    | with_reducible apply upd_trouble_csound
    | with_reducible apply call_csound
    | (with_reducible apply each_csound; intro _ _ _ _; try dsimp only)
    | with_reducible apply upd_csound
    | with_reducible exact (mirrorFire_turn _).toSound
    | split
    | with_reducible apply Sound.refl
    | (with_reducible apply Sound.of_blocks <;> first | rfl | simp)

theorem entryRead_csound {c0 c : Ctx} (h : CSound c0 c) {d : List Byte} : CSound c0 (entryRead d c) := by
  unfold entryRead
  try dsimp only
  repeat' first
    | with_reducible assumption
    | with_reducible apply upd_say_csound
    | with_reducible apply record_csound
    | with_reducible apply finishSwitch_csound
    | with_reducible exact putProfileLoad_sound _ _
    | with_reducible exact putCalendarLoad_sound _ _
    | with_reducible exact putZoneLoad_sound _ _
    | with_reducible exact putGroupLoad_sound _ _
    | with_reducible exact putPatternLoad_sound _ _
    | with_reducible exact putChannelLoad_sound _ _
    | with_reducible exact putDrillLoad_sound _ _
    | with_reducible exact putCircuitLoad_sound _ _
    | with_reducible exact putLineLoad_sound _ _
    | with_reducible exact putMemberLoad_sound _ _
    | with_reducible exact putIoLoad_sound _ _
    | with_reducible exact putSwitch_sound _ _
    | with_reducible apply upd_answer_csound
    | with_reducible apply upd_refuse_csound
    | with_reducible apply upd_setTb_csound
    | with_reducible apply upd_ask_csound
    | with_reducible apply upd_setLine_csound
    | with_reducible apply upd_setNode_csound
    | with_reducible apply upd_setCircuit_csound
    | with_reducible apply upd_setOutput_csound
    | with_reducible apply upd_setInput_csound
    | with_reducible apply upd_trouble_csound
    | with_reducible apply call_csound
    | (with_reducible apply each_csound; intro _ _ _ _; try dsimp only)
    | with_reducible apply upd_csound
    | with_reducible exact (mirrorFire_turn _).toSound
    | split
    | with_reducible apply Sound.refl
    | (with_reducible apply Sound.of_blocks <;> first | rfl | simp)

end Sys2Proof.Machine
end

