-- ==== Sys2Proof/Laws/SoundRequests.lean ====
section
/-! SUPPORT. The decisions of the requests keep the standing conditions. -/

namespace Sys2Proof.Machine
open Sys2Proof

set_option linter.unusedTactic false
set_option linter.unreachableTactic false

theorem readStatus_csound {c0 c : Ctx} (h : CSound c0 c) {q : ReqHdr} {size offset : Nat} {items : State → List Item} : CSound c0 (readStatus q size offset items c) := by
  unfold readStatus
  try dsimp only
  repeat' first
    | with_reducible assumption
    | with_reducible apply upd_say_csound
    | with_reducible apply record_csound
    | with_reducible apply upd_answer_csound
    | with_reducible apply upd_refuse_csound
    | with_reducible apply upd_setTb_csound
    | with_reducible apply upd_ask_csound
    | with_reducible apply upd_setLine_csound
    | with_reducible apply upd_setNode_csound
    | with_reducible apply upd_setCircuit_csound
    | with_reducible apply upd_setOutput_csound
    | with_reducible apply upd_setInput_csound
    | with_reducible apply upd_trouble_csound
    | with_reducible apply call_csound
    | (with_reducible apply each_csound; intro _ _ _ _; try dsimp only)
    | with_reducible apply upd_csound
    | with_reducible exact (mirrorFire_turn _).toSound
    | split
    | with_reducible apply Sound.refl
    | (with_reducible apply Sound.of_blocks <;> first | rfl | simp)

theorem decideSetFlags_csound {c0 c : Ctx} (h : CSound c0 c) {q : ReqHdr} {m1 m2 : Set8} : CSound c0 (decideSetFlags q m1 m2 c) := by
  unfold decideSetFlags
  try dsimp only
  repeat' first
    | with_reducible assumption
    | with_reducible apply upd_say_csound
    | with_reducible apply record_csound
    | with_reducible refine csound_of_turn ?_ (changeFlags_cturn (CTurn.refl _))
    | with_reducible apply upd_answer_csound
    | with_reducible apply upd_refuse_csound
    | with_reducible apply upd_setTb_csound
    | with_reducible apply upd_ask_csound
    | with_reducible apply upd_setLine_csound
    | with_reducible apply upd_setNode_csound
    | with_reducible apply upd_setCircuit_csound
    | with_reducible apply upd_setOutput_csound
    | with_reducible apply upd_setInput_csound
    | with_reducible apply upd_trouble_csound
    | with_reducible apply call_csound
    | (with_reducible apply each_csound; intro _ _ _ _; try dsimp only)
    | with_reducible apply upd_csound
    | with_reducible exact (mirrorFire_turn _).toSound
    | split
    | with_reducible apply Sound.refl
    | (with_reducible apply Sound.of_blocks <;> first | rfl | simp)

theorem profileChange_csound {c0 c : Ctx} (h : CSound c0 c) {new cause : Nat} : CSound c0 (profileChange new cause c) := by
  unfold profileChange
  try dsimp only
  repeat' first
    | with_reducible assumption
    | with_reducible apply upd_say_csound
    | with_reducible apply record_csound
    | with_reducible apply upd_answer_csound
    | with_reducible apply upd_refuse_csound
    | with_reducible apply upd_setTb_csound
    | with_reducible apply upd_ask_csound
    | with_reducible apply upd_setLine_csound
    | with_reducible apply upd_setNode_csound
    | with_reducible apply upd_setCircuit_csound
    | with_reducible apply upd_setOutput_csound
    | with_reducible apply upd_setInput_csound
    | with_reducible apply upd_trouble_csound
    | with_reducible apply call_csound
    | (with_reducible apply each_csound; intro _ _ _ _; try dsimp only)
    | with_reducible apply upd_csound
    | with_reducible exact (mirrorFire_turn _).toSound
    | split
    | with_reducible apply Sound.refl
    | (with_reducible apply Sound.of_blocks <;> first | rfl | simp)

theorem decideTodayProfile_csound {c0 c : Ctx} (h : CSound c0 c) {q : ReqHdr} {p : Nat} : CSound c0 (decideTodayProfile q p c) := by
  unfold decideTodayProfile
  try dsimp only
  repeat' first
    | with_reducible assumption
    | with_reducible apply upd_say_csound
    | with_reducible apply record_csound
    | with_reducible apply profileChange_csound
    | with_reducible apply upd_answer_csound
    | with_reducible apply upd_refuse_csound
    | with_reducible apply upd_setTb_csound
    | with_reducible apply upd_ask_csound
    | with_reducible apply upd_setLine_csound
    | with_reducible apply upd_setNode_csound
    | with_reducible apply upd_setCircuit_csound
    | with_reducible apply upd_setOutput_csound
    | with_reducible apply upd_setInput_csound
    | with_reducible apply upd_trouble_csound
    | with_reducible apply call_csound
    | (with_reducible apply each_csound; intro _ _ _ _; try dsimp only)
    | with_reducible apply upd_csound
    | with_reducible exact (mirrorFire_turn _).toSound
    | split
    | with_reducible apply Sound.refl
    | (with_reducible apply Sound.of_blocks <;> first | rfl | simp)

theorem decideRing_csound {c0 c : Ctx} (h : CSound c0 c) {q : ReqHdr} {p : RingParams} : CSound c0 (decideRing q p c) := by
  unfold decideRing
  try dsimp only
  repeat' first
    | with_reducible assumption
    | with_reducible apply upd_say_csound
    | with_reducible apply record_csound
    | with_reducible refine csound_of_turn ?_ (bellStart_cturn (CTurn.refl _))
    | with_reducible apply upd_answer_csound
    | with_reducible apply upd_refuse_csound
    | with_reducible apply upd_setTb_csound
    | with_reducible apply upd_ask_csound
    | with_reducible apply upd_setLine_csound
    | with_reducible apply upd_setNode_csound
    | with_reducible apply upd_setCircuit_csound
    | with_reducible apply upd_setOutput_csound
    | with_reducible apply upd_setInput_csound
    | with_reducible apply upd_trouble_csound
    | with_reducible apply call_csound
    | (with_reducible apply each_csound; intro _ _ _ _; try dsimp only)
    | with_reducible apply upd_csound
    | with_reducible exact (mirrorFire_turn _).toSound
    | split
    | with_reducible apply Sound.refl
    | (with_reducible apply Sound.of_blocks <;> first | rfl | simp)

theorem decideAnnounce_csound {c0 c : Ctx} (h : CSound c0 c) {q : ReqHdr} {p : AnnounceParams} : CSound c0 (decideAnnounce q p c) := by
  unfold decideAnnounce
  try dsimp only
  repeat' first
    | with_reducible assumption
    | with_reducible apply upd_say_csound
    | with_reducible apply record_csound
    | with_reducible apply takeAnn_csound
    | with_reducible apply upd_answer_csound
    | with_reducible apply upd_refuse_csound
    | with_reducible apply upd_setTb_csound
    | with_reducible apply upd_ask_csound
    | with_reducible apply upd_setLine_csound
    | with_reducible apply upd_setNode_csound
    | with_reducible apply upd_setCircuit_csound
    | with_reducible apply upd_setOutput_csound
    | with_reducible apply upd_setInput_csound
    | with_reducible apply upd_trouble_csound
    | with_reducible apply call_csound
    | (with_reducible apply each_csound; intro _ _ _ _; try dsimp only)
    | with_reducible apply upd_csound
    | with_reducible exact (mirrorFire_turn _).toSound
    | split
    | with_reducible apply Sound.refl
    | (with_reducible apply Sound.of_blocks <;> first | rfl | simp)

theorem decideEndAnnouncement_csound {c0 c : Ctx} (h : CSound c0 c) {q : ReqHdr} {n : Nat} : CSound c0 (decideEndAnnouncement q n c) := by
  unfold decideEndAnnouncement
  try dsimp only
  repeat' first
    | with_reducible assumption
    | with_reducible apply upd_say_csound
    | with_reducible apply record_csound
    | with_reducible refine csound_of_turn ?_ (annEnd_cturn (CTurn.refl _))
    | with_reducible apply upd_answer_csound
    | with_reducible apply upd_refuse_csound
    | with_reducible apply upd_setTb_csound
    | with_reducible apply upd_ask_csound
    | with_reducible apply upd_setLine_csound
    | with_reducible apply upd_setNode_csound
    | with_reducible apply upd_setCircuit_csound
    | with_reducible apply upd_setOutput_csound
    | with_reducible apply upd_setInput_csound
    | with_reducible apply upd_trouble_csound
    | with_reducible apply call_csound
    | (with_reducible apply each_csound; intro _ _ _ _; try dsimp only)
    | with_reducible apply upd_csound
    | with_reducible exact (mirrorFire_turn _).toSound
    | split
    | with_reducible apply Sound.refl
    | (with_reducible apply Sound.of_blocks <;> first | rfl | simp)

theorem decideStartDrill_csound {c0 c : Ctx} (h : CSound c0 c) {q : ReqHdr} {n : Nat} : CSound c0 (decideStartDrill q n c) := by
  unfold decideStartDrill
  try dsimp only
  repeat' first
    | with_reducible assumption
    | with_reducible apply upd_say_csound
    | with_reducible apply record_csound
    | with_reducible refine csound_of_turn ?_ (drillStart_cturn (CTurn.refl _))
    | with_reducible apply upd_answer_csound
    | with_reducible apply upd_refuse_csound
    | with_reducible apply upd_setTb_csound
    | with_reducible apply upd_ask_csound
    | with_reducible apply upd_setLine_csound
    | with_reducible apply upd_setNode_csound
    | with_reducible apply upd_setCircuit_csound
    | with_reducible apply upd_setOutput_csound
    | with_reducible apply upd_setInput_csound
    | with_reducible apply upd_trouble_csound
    | with_reducible apply call_csound
    | (with_reducible apply each_csound; intro _ _ _ _; try dsimp only)
    | with_reducible apply upd_csound
    | with_reducible exact (mirrorFire_turn _).toSound
    | split
    | with_reducible apply Sound.refl
    | (with_reducible apply Sound.of_blocks <;> first | rfl | simp)

theorem startAnswer_csound {c0 c : Ctx} (h : CSound c0 c) {q : ReqHdr} {n : Nat} : CSound c0 (startAnswer q n c) := by
  unfold startAnswer
  try dsimp only
  repeat' first
    | with_reducible assumption
    | with_reducible apply upd_say_csound
    | with_reducible apply record_csound
    | with_reducible apply upd_answer_csound
    | with_reducible apply upd_refuse_csound
    | with_reducible apply upd_setTb_csound
    | with_reducible apply upd_ask_csound
    | with_reducible apply upd_setLine_csound
    | with_reducible apply upd_setNode_csound
    | with_reducible apply upd_setCircuit_csound
    | with_reducible apply upd_setOutput_csound
    | with_reducible apply upd_setInput_csound
    | with_reducible apply upd_trouble_csound
    | with_reducible apply call_csound
    | (with_reducible apply each_csound; intro _ _ _ _; try dsimp only)
    | with_reducible apply upd_csound
    | with_reducible exact (mirrorFire_turn _).toSound
    | split
    | with_reducible apply Sound.refl
    | (with_reducible apply Sound.of_blocks <;> first | rfl | simp)

theorem decideStopSounding_csound {c0 c : Ctx} (h : CSound c0 c) {q : ReqHdr} : CSound c0 (decideStopSounding q c) := by
  unfold decideStopSounding
  try dsimp only
  repeat' first
    | with_reducible assumption
    | with_reducible apply upd_say_csound
    | with_reducible apply record_csound
    | with_reducible refine csound_of_turn ?_ (soundingEnd_cturn (CTurn.refl _))
    | with_reducible apply upd_answer_csound
    | with_reducible apply upd_refuse_csound
    | with_reducible apply upd_setTb_csound
    | with_reducible apply upd_ask_csound
    | with_reducible apply upd_setLine_csound
    | with_reducible apply upd_setNode_csound
    | with_reducible apply upd_setCircuit_csound
    | with_reducible apply upd_setOutput_csound
    | with_reducible apply upd_setInput_csound
    | with_reducible apply upd_trouble_csound
    | with_reducible apply call_csound
    | (with_reducible apply each_csound; intro _ _ _ _; try dsimp only)
    | with_reducible apply upd_csound
    | with_reducible exact (mirrorFire_turn _).toSound
    | split
    | with_reducible apply Sound.refl
    | (with_reducible apply Sound.of_blocks <;> first | rfl | simp)

theorem decideAllClear_csound {c0 c : Ctx} (h : CSound c0 c) {q : ReqHdr} : CSound c0 (decideAllClear q c) := by
  unfold decideAllClear
  try dsimp only
  repeat' first
    | with_reducible assumption
    | with_reducible apply upd_say_csound
    | with_reducible apply record_csound
    | with_reducible apply upd_answer_csound
    | with_reducible apply upd_refuse_csound
    | with_reducible apply upd_setTb_csound
    | with_reducible apply upd_ask_csound
    | with_reducible apply upd_setLine_csound
    | with_reducible apply upd_setNode_csound
    | with_reducible apply upd_setCircuit_csound
    | with_reducible apply upd_setOutput_csound
    | with_reducible apply upd_setInput_csound
    | with_reducible apply upd_trouble_csound
    | with_reducible apply call_csound
    | (with_reducible apply each_csound; intro _ _ _ _; try dsimp only)
    | with_reducible apply upd_csound
    | with_reducible exact (mirrorFire_turn _).toSound
    | split
    | with_reducible apply Sound.refl
    | (with_reducible apply Sound.of_blocks <;> first | rfl | simp)

theorem decideEndDrill_csound {c0 c : Ctx} (h : CSound c0 c) {q : ReqHdr} : CSound c0 (decideEndDrill q c) := by
  unfold decideEndDrill
  try dsimp only
  repeat' first
    | with_reducible assumption
    | with_reducible apply upd_say_csound
    | with_reducible apply record_csound
    | with_reducible refine csound_of_turn ?_ (drillEnd_cturn (CTurn.refl _))
    | with_reducible apply upd_answer_csound
    | with_reducible apply upd_refuse_csound
    | with_reducible apply upd_setTb_csound
    | with_reducible apply upd_ask_csound
    | with_reducible apply upd_setLine_csound
    | with_reducible apply upd_setNode_csound
    | with_reducible apply upd_setCircuit_csound
    | with_reducible apply upd_setOutput_csound
    | with_reducible apply upd_setInput_csound
    | with_reducible apply upd_trouble_csound
    | with_reducible apply call_csound
    | (with_reducible apply each_csound; intro _ _ _ _; try dsimp only)
    | with_reducible apply upd_csound
    | with_reducible exact (mirrorFire_turn _).toSound
    | split
    | with_reducible apply Sound.refl
    | (with_reducible apply Sound.of_blocks <;> first | rfl | simp)

theorem decideResume_csound {c0 c : Ctx} (h : CSound c0 c) {q : ReqHdr} : CSound c0 (decideResume q c) := by
  unfold decideResume
  try dsimp only
  repeat' first
    | with_reducible assumption
    | with_reducible apply upd_say_csound
    | with_reducible apply record_csound
    | with_reducible refine csound_of_turn ?_ (releaseSilence_cturn (CTurn.refl _))
    | with_reducible apply upd_answer_csound
    | with_reducible apply upd_refuse_csound
    | with_reducible apply upd_setTb_csound
    | with_reducible apply upd_ask_csound
    | with_reducible apply upd_setLine_csound
    | with_reducible apply upd_setNode_csound
    | with_reducible apply upd_setCircuit_csound
    | with_reducible apply upd_setOutput_csound
    | with_reducible apply upd_setInput_csound
    | with_reducible apply upd_trouble_csound
    | with_reducible apply call_csound
    | (with_reducible apply each_csound; intro _ _ _ _; try dsimp only)
    | with_reducible apply upd_csound
    | with_reducible exact (mirrorFire_turn _).toSound
    | split
    | with_reducible apply Sound.refl
    | (with_reducible apply Sound.of_blocks <;> first | rfl | simp)

theorem decideSetDial_csound {c0 c : Ctx} (h : CSound c0 c) {q : ReqHdr} {i pos pol : Nat} : CSound c0 (decideSetDial q i pos pol c) := by
  unfold decideSetDial
  try dsimp only
  repeat' first
    | with_reducible assumption
    | with_reducible apply upd_say_csound
    | with_reducible apply record_csound
    | with_reducible refine csound_of_turn ?_ (circuitDecide_cturn (CTurn.refl _))
    | with_reducible apply upd_answer_csound
    | with_reducible apply upd_refuse_csound
    | with_reducible apply upd_setTb_csound
    | with_reducible apply upd_ask_csound
    | with_reducible apply upd_setLine_csound
    | with_reducible apply upd_setNode_csound
    | with_reducible apply upd_setCircuit_csound
    | with_reducible apply upd_setOutput_csound
    | with_reducible apply upd_setInput_csound
    | with_reducible apply upd_trouble_csound
    | with_reducible apply call_csound
    | (with_reducible apply each_csound; intro _ _ _ _; try dsimp only)
    | with_reducible apply upd_csound
    | with_reducible exact (mirrorFire_turn _).toSound
    | split
    | with_reducible apply Sound.refl
    | (with_reducible apply Sound.of_blocks <;> first | rfl | simp)

theorem decideClearCircuit_csound {c0 c : Ctx} (h : CSound c0 c) {q : ReqHdr} {i : Nat} : CSound c0 (decideClearCircuit q i c) := by
  unfold decideClearCircuit
  try dsimp only
  repeat' first
    | with_reducible assumption
    | with_reducible apply upd_say_csound
    | with_reducible apply record_csound
    | with_reducible refine csound_of_turn ?_ (circuitDecide_cturn (CTurn.refl _))
    | with_reducible apply upd_answer_csound
    | with_reducible apply upd_refuse_csound
    | with_reducible apply upd_setTb_csound
    | with_reducible apply upd_ask_csound
    | with_reducible apply upd_setLine_csound
    | with_reducible apply upd_setNode_csound
    | with_reducible apply upd_setCircuit_csound
    | with_reducible apply upd_setOutput_csound
    | with_reducible apply upd_setInput_csound
    | with_reducible apply upd_trouble_csound
    | with_reducible apply call_csound
    | (with_reducible apply each_csound; intro _ _ _ _; try dsimp only)
    | with_reducible apply upd_csound
    | with_reducible exact (mirrorFire_turn _).toSound
    | split
    | with_reducible apply Sound.refl
    | (with_reducible apply Sound.of_blocks <;> first | rfl | simp)

theorem decideEnumerate_csound {c0 c : Ctx} (h : CSound c0 c) {q : ReqHdr} {ln : Nat} : CSound c0 (decideEnumerate q ln c) := by
  unfold decideEnumerate
  try dsimp only
  repeat' first
    | with_reducible assumption
    | with_reducible apply upd_say_csound
    | with_reducible apply record_csound
    | with_reducible refine csound_of_turn ?_ (assignStep_cturn (CTurn.refl _))
    | with_reducible apply upd_answer_csound
    | with_reducible apply upd_refuse_csound
    | with_reducible apply upd_setTb_csound
    | with_reducible apply upd_ask_csound
    | with_reducible apply upd_setLine_csound
    | with_reducible apply upd_setNode_csound
    | with_reducible apply upd_setCircuit_csound
    | with_reducible apply upd_setOutput_csound
    | with_reducible apply upd_setInput_csound
    | with_reducible apply upd_trouble_csound
    | with_reducible apply call_csound
    | (with_reducible apply each_csound; intro _ _ _ _; try dsimp only)
    | with_reducible apply upd_csound
    | with_reducible exact (mirrorFire_turn _).toSound
    | split
    | with_reducible apply Sound.refl
    | (with_reducible apply Sound.of_blocks <;> first | rfl | simp)

theorem decideRenumber_csound {c0 c : Ctx} (h : CSound c0 c) {q : ReqHdr} {ln : Nat} : CSound c0 (decideRenumber q ln c) := by
  unfold decideRenumber
  try dsimp only
  repeat' first
    | with_reducible assumption
    | with_reducible apply upd_say_csound
    | with_reducible apply record_csound
    | with_reducible refine csound_of_turn ?_ (clearStep_cturn (CTurn.refl _))
    | with_reducible apply upd_answer_csound
    | with_reducible apply upd_refuse_csound
    | with_reducible apply upd_setTb_csound
    | with_reducible apply upd_ask_csound
    | with_reducible apply upd_setLine_csound
    | with_reducible apply upd_setNode_csound
    | with_reducible apply upd_setCircuit_csound
    | with_reducible apply upd_setOutput_csound
    | with_reducible apply upd_setInput_csound
    | with_reducible apply upd_trouble_csound
    | with_reducible apply call_csound
    | (with_reducible apply each_csound; intro _ _ _ _; try dsimp only)
    | with_reducible apply upd_csound
    | with_reducible exact (mirrorFire_turn _).toSound
    | split
    | with_reducible apply Sound.refl
    | (with_reducible apply Sound.of_blocks <;> first | rfl | simp)

theorem setAbsent_csound {c0 c : Ctx} (h : CSound c0 c) {ln a : Nat} : CSound c0 (setAbsent ln a c) := by
  unfold setAbsent
  try dsimp only
  repeat' first
    | with_reducible assumption
    | with_reducible apply upd_say_csound
    | with_reducible apply record_csound
    | with_reducible refine csound_of_turn ?_ (settleLine_cturn (CTurn.refl _))
    | with_reducible refine csound_of_turn ?_ (detachNode_cturn (CTurn.refl _))
    | with_reducible apply upd_answer_csound
    | with_reducible apply upd_refuse_csound
    | with_reducible apply upd_setTb_csound
    | with_reducible apply upd_ask_csound
    | with_reducible apply upd_setLine_csound
    | with_reducible apply upd_setNode_csound
    | with_reducible apply upd_setCircuit_csound
    | with_reducible apply upd_setOutput_csound
    | with_reducible apply upd_setInput_csound
    | with_reducible apply upd_trouble_csound
    | with_reducible apply call_csound
    | (with_reducible apply each_csound; intro _ _ _ _; try dsimp only)
    | with_reducible apply upd_csound
    | with_reducible exact (mirrorFire_turn _).toSound
    | split
    | with_reducible apply Sound.refl
    | (with_reducible apply Sound.of_blocks <;> first | rfl | simp)

theorem decideSetNode_csound {c0 c : Ctx} (h : CSound c0 c) {q : ReqHdr} {ln a action : Nat} : CSound c0 (decideSetNode q ln a action c) := by
  unfold decideSetNode
  try dsimp only
  repeat' first
    | with_reducible assumption
    | with_reducible apply upd_say_csound
    | with_reducible apply record_csound
    | with_reducible apply setAbsent_csound
    | with_reducible apply upd_answer_csound
    | with_reducible apply upd_refuse_csound
    | with_reducible apply upd_setTb_csound
    | with_reducible apply upd_ask_csound
    | with_reducible apply upd_setLine_csound
    | with_reducible apply upd_setNode_csound
    | with_reducible apply upd_setCircuit_csound
    | with_reducible apply upd_setOutput_csound
    | with_reducible apply upd_setInput_csound
    | with_reducible apply upd_trouble_csound
    | with_reducible apply call_csound
    | (with_reducible apply each_csound; intro _ _ _ _; try dsimp only)
    | with_reducible apply upd_csound
    | with_reducible exact (mirrorFire_turn _).toSound
    | split
    | with_reducible apply Sound.refl
    | (with_reducible apply Sound.of_blocks <;> first | rfl | simp)

theorem decideClearLine_csound {c0 c : Ctx} (h : CSound c0 c) {q : ReqHdr} {ln : Nat} : CSound c0 (decideClearLine q ln c) := by
  unfold decideClearLine
  try dsimp only
  repeat' first
    | with_reducible assumption
    | with_reducible apply upd_say_csound
    | with_reducible apply record_csound
    | with_reducible apply upd_answer_csound
    | with_reducible apply upd_refuse_csound
    | with_reducible apply upd_setTb_csound
    | with_reducible apply upd_ask_csound
    | with_reducible apply upd_setLine_csound
    | with_reducible apply upd_setNode_csound
    | with_reducible apply upd_setCircuit_csound
    | with_reducible apply upd_setOutput_csound
    | with_reducible apply upd_setInput_csound
    | with_reducible apply upd_trouble_csound
    | with_reducible apply call_csound
    | (with_reducible apply each_csound; intro _ _ _ _; try dsimp only)
    | with_reducible apply upd_csound
    | with_reducible exact (mirrorFire_turn _).toSound
    | split
    | with_reducible apply Sound.refl
    | (with_reducible apply Sound.of_blocks <;> first | rfl | simp)

theorem decideDrive_csound {c0 c : Ctx} (h : CSound c0 c) {q : ReqHdr} {out action duration : Nat} : CSound c0 (decideDrive q out action duration c) := by
  unfold decideDrive
  try dsimp only
  repeat' first
    | with_reducible assumption
    | with_reducible apply upd_say_csound
    | with_reducible apply record_csound
    | with_reducible apply upd_answer_csound
    | with_reducible apply upd_refuse_csound
    | with_reducible apply upd_setTb_csound
    | with_reducible apply upd_ask_csound
    | with_reducible apply upd_setLine_csound
    | with_reducible apply upd_setNode_csound
    | with_reducible apply upd_setCircuit_csound
    | with_reducible apply upd_setOutput_csound
    | with_reducible apply upd_setInput_csound
    | with_reducible apply upd_trouble_csound
    | with_reducible apply call_csound
    | (with_reducible apply each_csound; intro _ _ _ _; try dsimp only)
    | with_reducible apply upd_csound
    | with_reducible exact (mirrorFire_turn _).toSound
    | split
    | with_reducible apply Sound.refl
    | (with_reducible apply Sound.of_blocks <;> first | rfl | simp)

theorem decideReadLine_csound {c0 c : Ctx} (h : CSound c0 c) {q : ReqHdr} {ln offset : Nat} : CSound c0 (decideReadLine q ln offset c) := by
  unfold decideReadLine
  try dsimp only
  repeat' first
    | with_reducible assumption
    | with_reducible apply upd_say_csound
    | with_reducible apply record_csound
    | with_reducible apply readStatus_csound
    | with_reducible apply upd_answer_csound
    | with_reducible apply upd_refuse_csound
    | with_reducible apply upd_setTb_csound
    | with_reducible apply upd_ask_csound
    | with_reducible apply upd_setLine_csound
    | with_reducible apply upd_setNode_csound
    | with_reducible apply upd_setCircuit_csound
    | with_reducible apply upd_setOutput_csound
    | with_reducible apply upd_setInput_csound
    | with_reducible apply upd_trouble_csound
    | with_reducible apply call_csound
    | (with_reducible apply each_csound; intro _ _ _ _; try dsimp only)
    | with_reducible apply upd_csound
    | with_reducible exact (mirrorFire_turn _).toSound
    | split
    | with_reducible apply Sound.refl
    | (with_reducible apply Sound.of_blocks <;> first | rfl | simp)

end Sys2Proof.Machine
end

