-- ==== Sys2Proof/Laws/SoundStarts.lean ====
section
/-! SUPPORT. The inputs and the starts of the part keep the standing conditions. -/

namespace Sys2Proof.Machine
open Sys2Proof

set_option linter.unusedTactic false
set_option linter.unreachableTactic false

theorem start_log (m : Memory) : LogSound (RegionIf.start m) := by
  constructor <;> simp [RegionIf.start]

theorem clear_zone {s : State} (h : s.za.zones = List.replicate 64 ZoneDyn.clear) (z : Nat) : s.zone z = ZoneDyn.clear := by
  rw [State.zone, h, List.getD_eq_getElem?_getD, List.getElem?_replicate]
  split <;> rfl

/-- A start leaves every zone clear and no fire reported. -/
theorem clear_fire {s : State} (h : s.za.zones = List.replicate 64 ZoneDyn.clear) (hr : s.za.fireReported = false) : FireSilence s :=
  ⟨fun z _ _ => by rw [clear_zone h]; exact ⟨rfl, rfl⟩, fun e => absurd e (by simp [hr]), fun e => absurd e (by simp [hr])⟩

/-- A retained start keeps the standing conditions (R184). -/
theorem retainedStart_sound (s : State) : Sound s s.retainedStart where
  region := fun h => h
  log := fun _ => start_log _
  counts := fun h => ⟨by simp [State.retainedStart, ZoneArbiter.retained, ZoneArbiter.cold],
    by simp [State.retainedStart, ZoneArbiter.retained, ZoneArbiter.cold],
    by simpa [State.retainedStart, AnnUnit.retained] using h.channels,
    by simpa [State.retainedStart, ClockUnit.retained] using h.circuits,
    by simpa [State.retainedStart, LineControl.retained] using h.lines,
    by simpa [State.retainedStart, IoUnit.retained] using h.inputs,
    by simpa [State.retainedStart, IoUnit.retained] using h.outputs⟩
  fire := fun _ => clear_fire rfl rfl
  pending := rfl

/-- A cold start keeps the standing conditions (R184). -/
theorem coldAgain_sound (s : State) : Sound s s.coldAgain where
  region := fun h => h
  log := fun _ => start_log _
  counts := fun h => ⟨by simp [State.coldAgain, State.coldStart, ZoneArbiter.cold],
    by simp [State.coldAgain, State.coldStart, ZoneArbiter.cold],
    by simp [State.coldAgain, State.coldStart, AnnUnit.cold],
    by simp [State.coldAgain, State.coldStart, ClockUnit.cold],
    by simp [State.coldAgain, State.coldStart, LineControl.cold],
    by simpa [State.coldAgain, State.coldStart, IoUnit.cold] using h.inputs,
    by simp [State.coldAgain, State.coldStart, IoUnit.cold]⟩
  fire := fun _ => clear_fire rfl rfl
  pending := rfl

theorem settled_sound (s : State) : Sound s s.settled := by
  apply Sound.of_blocks <;> first | rfl | simp [State.settled]

theorem takeReading_csound {c0 c : Ctx} (h : CSound c0 c) {k : Nat} {r : Reading} : CSound c0 (takeReading k r c) := by
  unfold takeReading
  try dsimp only
  repeat' first
    | with_reducible assumption
    | with_reducible apply upd_say_csound
    | with_reducible apply record_csound
    | with_reducible apply referencePulse_csound
    | with_reducible apply upd_answer_csound
    | with_reducible apply upd_refuse_csound
    | with_reducible apply upd_setTb_csound
    | with_reducible apply upd_ask_csound
    | with_reducible apply upd_setLine_csound
    | with_reducible apply upd_setNode_csound
    | with_reducible apply upd_setCircuit_csound
    | with_reducible apply upd_setOutput_csound
    | with_reducible apply upd_setInput_csound
    | with_reducible apply upd_trouble_csound
    | with_reducible apply call_csound
    | (with_reducible apply each_csound; intro _ _ _ _; try dsimp only)
    | with_reducible apply upd_csound
    | with_reducible exact (mirrorFire_turn _).toSound
    | split
    | with_reducible apply Sound.refl
    | (with_reducible apply Sound.of_blocks <;> first | rfl | simp)

theorem handOn_csound {c0 c : Ctx} (h : CSound c0 c) {k : Nat} {v : Contact} : CSound c0 (handOn k v c) := by
  unfold handOn
  try dsimp only
  repeat' first
    | with_reducible assumption
    | with_reducible apply upd_say_csound
    | with_reducible apply record_csound
    | with_reducible apply fireAlarmOff_csound
    | with_reducible refine csound_of_turn ?_ (bellPush_cturn (CTurn.refl _))
    | with_reducible refine csound_of_turn ?_ (pttChanged_cturn (CTurn.refl _))
    | with_reducible refine csound_of_turn ?_ (drillAsk_cturn (CTurn.refl _))
    | with_reducible refine csound_of_turn ?_ (clearReport_cturn (CTurn.refl _))
    | with_reducible refine csound_of_turn ?_ (fireAlarmOn_cturn (CTurn.refl _))
    | with_reducible apply upd_answer_csound
    | with_reducible apply upd_refuse_csound
    | with_reducible apply upd_setTb_csound
    | with_reducible apply upd_ask_csound
    | with_reducible apply upd_setLine_csound
    | with_reducible apply upd_setNode_csound
    | with_reducible apply upd_setCircuit_csound
    | with_reducible apply upd_setOutput_csound
    | with_reducible apply upd_setInput_csound
    | with_reducible apply upd_trouble_csound
    | with_reducible apply call_csound
    | (with_reducible apply each_csound; intro _ _ _ _; try dsimp only)
    | with_reducible apply upd_csound
    | with_reducible exact (mirrorFire_turn _).toSound
    | split
    | with_reducible apply Sound.refl
    | (with_reducible apply Sound.of_blocks <;> first | rfl | simp)

theorem setValue_csound {c0 c : Ctx} (h : CSound c0 c) {k : Nat} {v : Contact} : CSound c0 (setValue k v c) := by
  unfold setValue
  try dsimp only
  repeat' first
    | with_reducible assumption
    | with_reducible apply upd_say_csound
    | with_reducible apply record_csound
    | with_reducible apply handOn_csound
    | with_reducible refine csound_of_turn ?_ (pttChanged_cturn (CTurn.refl _))
    | with_reducible apply upd_answer_csound
    | with_reducible apply upd_refuse_csound
    | with_reducible apply upd_setTb_csound
    | with_reducible apply upd_ask_csound
    | with_reducible apply upd_setLine_csound
    | with_reducible apply upd_setNode_csound
    | with_reducible apply upd_setCircuit_csound
    | with_reducible apply upd_setOutput_csound
    | with_reducible apply upd_setInput_csound
    | with_reducible apply upd_trouble_csound
    | with_reducible apply call_csound
    | (with_reducible apply each_csound; intro _ _ _ _; try dsimp only)
    | with_reducible apply upd_csound
    | with_reducible exact (mirrorFire_turn _).toSound
    | split
    | with_reducible apply Sound.refl
    | (with_reducible apply Sound.of_blocks <;> first | rfl | simp)

theorem superviseFire_csound {c0 c : Ctx} (h : CSound c0 c) {opened : Bool} : CSound c0 (superviseFire opened c) := by
  unfold superviseFire
  try dsimp only
  repeat' first
    | with_reducible assumption
    | with_reducible apply upd_say_csound
    | with_reducible apply record_csound
    | with_reducible apply upd_answer_csound
    | with_reducible apply upd_refuse_csound
    | with_reducible apply upd_setTb_csound
    | with_reducible apply upd_ask_csound
    | with_reducible apply upd_setLine_csound
    | with_reducible apply upd_setNode_csound
    | with_reducible apply upd_setCircuit_csound
    | with_reducible apply upd_setOutput_csound
    | with_reducible apply upd_setInput_csound
    | with_reducible apply upd_trouble_csound
    | with_reducible apply call_csound
    | (with_reducible apply each_csound; intro _ _ _ _; try dsimp only)
    | with_reducible apply upd_csound
    | with_reducible exact (mirrorFire_turn _).toSound
    | split
    | with_reducible apply Sound.refl
    | (with_reducible apply Sound.of_blocks <;> first | rfl | simp)

theorem debounced_csound {c0 c : Ctx} (h : CSound c0 c) {k : Nat} : CSound c0 (debounced k c) := by
  unfold debounced
  try dsimp only
  repeat' first
    | with_reducible assumption
    | with_reducible apply upd_say_csound
    | with_reducible apply record_csound
    | with_reducible apply setValue_csound
    | with_reducible apply superviseFire_csound
    | with_reducible apply upd_answer_csound
    | with_reducible apply upd_refuse_csound
    | with_reducible apply upd_setTb_csound
    | with_reducible apply upd_ask_csound
    | with_reducible apply upd_setLine_csound
    | with_reducible apply upd_setNode_csound
    | with_reducible apply upd_setCircuit_csound
    | with_reducible apply upd_setOutput_csound
    | with_reducible apply upd_setInput_csound
    | with_reducible apply upd_trouble_csound
    | with_reducible apply call_csound
    | (with_reducible apply each_csound; intro _ _ _ _; try dsimp only)
    | with_reducible apply upd_csound
    | with_reducible exact (mirrorFire_turn _).toSound
    | split
    | with_reducible apply Sound.refl
    | (with_reducible apply Sound.of_blocks <;> first | rfl | simp)

theorem closeDrill_csound {c0 c : Ctx} (h : CSound c0 c) {active : Option ActiveDrill} : CSound c0 (closeDrill active c) := by
  unfold closeDrill
  try dsimp only
  repeat' first
    | with_reducible assumption
    | with_reducible apply upd_say_csound
    | with_reducible apply record_csound
    | with_reducible apply upd_answer_csound
    | with_reducible apply upd_refuse_csound
    | with_reducible apply upd_setTb_csound
    | with_reducible apply upd_ask_csound
    | with_reducible apply upd_setLine_csound
    | with_reducible apply upd_setNode_csound
    | with_reducible apply upd_setCircuit_csound
    | with_reducible apply upd_setOutput_csound
    | with_reducible apply upd_setInput_csound
    | with_reducible apply upd_trouble_csound
    | with_reducible apply call_csound
    | (with_reducible apply each_csound; intro _ _ _ _; try dsimp only)
    | with_reducible apply upd_csound
    | with_reducible exact (mirrorFire_turn _).toSound
    | split
    | with_reducible apply Sound.refl
    | (with_reducible apply Sound.of_blocks <;> first | rfl | simp)

theorem firstReadings_csound {c0 c : Ctx} (h : CSound c0 c) {ln : Nat} : CSound c0 (firstReadings ln c) := by
  unfold firstReadings
  try dsimp only
  repeat' first
    | with_reducible assumption
    | with_reducible apply upd_say_csound
    | with_reducible apply record_csound
    | with_reducible apply firstPath_csound
    | with_reducible apply upd_answer_csound
    | with_reducible apply upd_refuse_csound
    | with_reducible apply upd_setTb_csound
    | with_reducible apply upd_ask_csound
    | with_reducible apply upd_setLine_csound
    | with_reducible apply upd_setNode_csound
    | with_reducible apply upd_setCircuit_csound
    | with_reducible apply upd_setOutput_csound
    | with_reducible apply upd_setInput_csound
    | with_reducible apply upd_trouble_csound
    | with_reducible apply call_csound
    | (with_reducible apply each_csound; intro _ _ _ _; try dsimp only)
    | with_reducible apply upd_csound
    | with_reducible exact (mirrorFire_turn _).toSound
    | split
    | with_reducible apply Sound.refl
    | (with_reducible apply Sound.of_blocks <;> first | rfl | simp)

theorem withStartReads_sound (s : State) (paths : List PathPair) : Sound s (s.withStartReads paths) := by
  apply Sound.of_blocks <;> rfl

theorem beginRetained_csound {c0 c : Ctx} (h : CSound c0 c) {paths : List PathPair} : CSound c0 (beginRetained paths c) :=
  closeDrill_csound (upd_csound (upd_csound h (retainedStart_sound _)) (withStartReads_sound _ _))

theorem settleTime_csound {c0 c : Ctx} (h : CSound c0 c) : CSound c0 (settleTime c) := by
  unfold settleTime
  try dsimp only
  repeat' first
    | with_reducible assumption
    | with_reducible apply upd_say_csound
    | with_reducible apply record_csound
    | with_reducible apply upd_answer_csound
    | with_reducible apply upd_refuse_csound
    | with_reducible apply upd_setTb_csound
    | with_reducible apply upd_ask_csound
    | with_reducible apply upd_setLine_csound
    | with_reducible apply upd_setNode_csound
    | with_reducible apply upd_setCircuit_csound
    | with_reducible apply upd_setOutput_csound
    | with_reducible apply upd_setInput_csound
    | with_reducible apply upd_trouble_csound
    | with_reducible apply call_csound
    | (with_reducible apply each_csound; intro _ _ _ _; try dsimp only)
    | with_reducible apply upd_csound
    | with_reducible exact (mirrorFire_turn _).toSound
    | split
    | with_reducible apply Sound.refl
    | (with_reducible apply Sound.of_blocks <;> first | rfl | simp)

theorem planRestart_csound {c0 c : Ctx} (h : CSound c0 c) {retained : Bool} : CSound c0 (planRestart retained c) := by
  unfold planRestart
  try dsimp only
  repeat' first
    | with_reducible assumption
    | with_reducible apply upd_say_csound
    | with_reducible apply record_csound
    | with_reducible refine csound_of_turn ?_ (scheduleRestart_cturn (CTurn.refl _))
    | with_reducible apply upd_answer_csound
    | with_reducible apply upd_refuse_csound
    | with_reducible apply upd_setTb_csound
    | with_reducible apply upd_ask_csound
    | with_reducible apply upd_setLine_csound
    | with_reducible apply upd_setNode_csound
    | with_reducible apply upd_setCircuit_csound
    | with_reducible apply upd_setOutput_csound
    | with_reducible apply upd_setInput_csound
    | with_reducible apply upd_trouble_csound
    | with_reducible apply call_csound
    | (with_reducible apply each_csound; intro _ _ _ _; try dsimp only)
    | with_reducible apply upd_csound
    | with_reducible exact (mirrorFire_turn _).toSound
    | split
    | with_reducible apply Sound.refl
    | (with_reducible apply Sound.of_blocks <;> first | rfl | simp)

theorem evaluateFire_csound {c0 c : Ctx} (h : CSound c0 c) {k11 : Reading} : CSound c0 (evaluateFire k11 c) := by
  have h1 := upd_setInput_csound (n := 11) (f := fun i => { i with value := some (Reading.counted k11) }) h
  have h2 : ∀ {d : Ctx}, CSound c0 d → CSound c0 (d.upd fun s => { s with io := { s.io with fireOpen := true } }) :=
    fun k => upd_csound k (by apply Sound.of_blocks <;> rfl)
  have h3 : ∀ {d : Ctx}, CSound c0 d → CSound c0 (d.upd fun s => { s with io := { s.io with trouble := s.troubleNow } }) :=
    fun k => upd_csound k (by apply Sound.of_blocks <;> rfl)
  unfold evaluateFire
  dsimp only
  split <;> split
  · exact csound_of_turn (h3 (h2 h1)) (fireAlarmOn_cturn (CTurn.refl _))
  · exact csound_of_turn (h3 h1) (fireAlarmOn_cturn (CTurn.refl _))
  · exact h3 (h2 h1)
  · exact h3 h1

theorem firstCycle_csound {c0 c : Ctx} (h : CSound c0 c) {ln : Nat} : CSound c0 (firstCycle ln c) := by
  unfold firstCycle
  try dsimp only
  repeat' first
    | with_reducible assumption
    | with_reducible apply upd_say_csound
    | with_reducible apply record_csound
    | with_reducible apply cycleBegins_csound
    | with_reducible apply upd_answer_csound
    | with_reducible apply upd_refuse_csound
    | with_reducible apply upd_setTb_csound
    | with_reducible apply upd_ask_csound
    | with_reducible apply upd_setLine_csound
    | with_reducible apply upd_setNode_csound
    | with_reducible apply upd_setCircuit_csound
    | with_reducible apply upd_setOutput_csound
    | with_reducible apply upd_setInput_csound
    | with_reducible apply upd_trouble_csound
    | with_reducible apply call_csound
    | (with_reducible apply each_csound; intro _ _ _ _; try dsimp only)
    | with_reducible apply upd_csound
    | with_reducible exact (mirrorFire_turn _).toSound
    | split
    | with_reducible apply Sound.refl
    | (with_reducible apply Sound.of_blocks <;> first | rfl | simp)

theorem firstEvaluation_csound {c0 c : Ctx} (h : CSound c0 c) {k11 : Reading} : CSound c0 (firstEvaluation k11 c) := by
  unfold firstEvaluation
  dsimp only
  with_reducible apply each_csound
  · exact fun _ _ _ k => firstCycle_csound k
  · refine evaluateFire_csound ?_
    with_reducible apply each_csound
    · exact fun _ _ _ k => firstReadings_csound k
    · exact planRestart_csound (settleTime_csound (upd_csound h (settled_sound _)))

end Sys2Proof.Machine
end

