-- ==== Sys2Proof/Laws/SoundLink.lean ====
section
/-! SUPPORT. The Region Interface's own operations keep the standing conditions: the drain, the scans, the attach and the ways out of ATTACHED. -/

namespace Sys2Proof.Machine
open Sys2Proof

set_option linter.unusedTactic false
set_option linter.unreachableTactic false

theorem setRi_csound {c0 c : Ctx} (h : CSound c0 c) {f : RegionIf → RegionIf} (hr : (f c.st.ri).region = c.st.ri.region)
    (hl : LogSound c.st.ri → LogSound (f c.st.ri)) : CSound c0 (c.upd (State.setRi f)) :=
  upd_csound h (Sound.of_ri _ _ (by rw [hr]; exact id) hl)

/-- The drain of the hold buffer keeps the standing conditions (R196). -/
theorem drain_sound (n : Nat) (s : State) : Sound s (State.drain n s) := by
  induction n generalizing s with
  | zero => exact Sound.refl s
  | succ n ih =>
    unfold State.drain
    split
    · exact Sound.refl s
    · rename_i r rest hh
      split
      · dsimp only
        refine Sound.trans ?_ (ih _)
        have hold : ∀ ri : RegionIf, (ri.place r).hold = ri.hold := fun ri => by
          have k := congrArg RegionIf.hold (place_rest ri r); exact k
        have base : Sound s (s.setRi fun ri => { ri with hold := rest }.place r) :=
          Sound.of_ri s (fun ri => { ri with hold := rest }.place r) (fun h => place_wf (ri := { s.ri with hold := rest }) h r) fun h => place_log (ri := { s.ri with hold := rest })
            ⟨h.1, h.2, h.3, Nat.le_trans (by rw [hh]; exact Nat.le_succ _) h.4, h.5, h.6⟩ r
        split
        · refine Sound.of_ri s (fun ri => { ({ ri with hold := rest }.place r) with
            hold := ({ ri with hold := rest }.place r).hold ++ [stamped s (overflowNote ({ s.ri with hold := rest }.place r))], lost := 0 })
            base.region fun h => ?_
          have k := base.log h
          refine ⟨k.1, k.2, k.3, ?_, Nat.zero_le _, k.6⟩
          have := h.hold
          rw [hh] at this
          simp only [hold, List.length_append, List.length_cons, List.length_nil] at this ⊢
          omega
        · exact base
      · exact Sound.refl s

theorem callScan_sound (s : State) : Sound s (callScan s) := by
  unfold callScan
  split
  · exact Sound.trans (Sound.of_ri _ _ id fun h => ⟨h.1, h.2, h.3, h.4, h.5, h.6⟩) (ask_turn _ _).toSound
  · exact Sound.of_ri _ _ id fun h => ⟨h.1, h.2, h.3, h.4, h.5, h.6⟩
theorem endScan_sound (s : State) : Sound s (endScan s) := by
  unfold endScan
  split
  · exact Sound.trans (Sound.of_ri _ _ id fun h => ⟨h.1, h.2, h.3, h.4, h.5, h.6⟩) (callScan_sound _)
  · exact Sound.of_ri _ _ id fun h => ⟨h.1, h.2, h.3, h.4, h.5, h.6⟩
theorem nextSlot_sound (n : Nat) (s : State) : Sound s (nextSlot n s) := by
  unfold nextSlot
  split
  · exact (ask_turn _ _).toSound
  · exact endScan_sound s
theorem acceptMark_sound (m n : Nat) (s : State) : Sound s (acceptMark m n s) := by
  refine Sound.of_ri _ _ id fun h => ⟨h.1, ?_, h.3, h.4, h.5, h.6⟩
  dsimp only
  split
  · rename_i k
    simp only [Bool.and_eq_true, decide_eq_true_eq] at k
    exact k.1
  · exact h.2

theorem foldl_sound {α : Type} {f : State → α → State} (h : ∀ s a, Sound s (f s a)) (l : List α) (s : State) :
    Sound s (l.foldl f s) := by
  induction l generalizing s with
  | nil => exact Sound.refl s
  | cons a l ih => exact (h s a).trans (ih _)

theorem dropLoad_sound {α : Type} (l : Option (Load α)) (s : State) : Sound s (dropLoad l s) := by
  unfold dropLoad
  split
  · exact answer_sound _ _ _ _
  · exact Sound.refl s

theorem dropIoLoad_sound (l : Option IoLoad) (s : State) : Sound s (dropIoLoad l s) := by
  unfold dropIoLoad
  split
  · exact answer_sound _ _ _ _
  · exact Sound.refl s

theorem endLoads_sound (s : State) : Sound s (endLoads s) := by
  have k : ∀ {α : Type} {t : State} (l : Option (Load α)), Sound s t → Sound s (dropLoad l t) := fun l h => h.trans (dropLoad_sound l _)
  unfold endLoads
  with_reducible exact k _ (Sound.trans (k _ (k _ (k _ (k _ (k _ (k _ (k _ (k _ (k _ (k _ (Sound.refl s)))))))))))
    (dropIoLoad_sound _ _))

theorem clearLoads_sound (s : State) : Sound s (clearLoads s) := by
  unfold clearLoads
  with_reducible refine Sound.trans ?_ (putSwitch_sound _ _)
  with_reducible refine Sound.trans ?_ (putIoLoad_sound _ _)
  with_reducible refine Sound.trans ?_ (putMemberLoad_sound _ _)
  with_reducible refine Sound.trans ?_ (putLineLoad_sound _ _)
  with_reducible refine Sound.trans ?_ (putCircuitLoad_sound _ _)
  with_reducible refine Sound.trans ?_ (putDrillLoad_sound _ _)
  with_reducible refine Sound.trans ?_ (putChannelLoad_sound _ _)
  with_reducible refine Sound.trans ?_ (putPatternLoad_sound _ _)
  with_reducible refine Sound.trans ?_ (putGroupLoad_sound _ _)
  with_reducible refine Sound.trans ?_ (putZoneLoad_sound _ _)
  with_reducible refine Sound.trans ?_ (putCalendarLoad_sound _ _)
  exact putProfileLoad_sound _ _

/-- R31: every load and the switch in progress end. -/
theorem dropLoads_sound (s : State) : Sound s (dropLoads s) := (endLoads_sound s).trans (clearLoads_sound _)

theorem dropSnapshot_sound (a : Access) (s : State) : Sound s (dropSnapshot a s) := by
  unfold dropSnapshot
  split
  · exact answer_sound _ _ _ _
  · exact Sound.refl s

theorem writeHeld_sound (s : State) : Sound s (writeHeld s) := by
  refine foldl_sound (fun s n => ?_) _ s
  split
  · split
    · exact writeOutcome_sound _ _ _
    · exact Sound.refl s
  · exact Sound.refl s

/-- R188: the attach keeps the standing conditions. -/
theorem attach_sound (n : Nat) (s : State) : Sound s (attach n s) := by
  unfold attach
  dsimp only
  with_reducible refine Sound.trans ?_ (callScan_sound _)
  have e : ∀ t : State, Sound t (t.setRi fun ri => { ri with firstAttach := false }) :=
    fun t => Sound.of_ri _ _ id fun h => ⟨h.1, h.2, h.3, h.4, h.5, h.6⟩
  with_reducible refine Sound.trans ?_ (e _)
  with_reducible refine Sound.trans ?_ (mirrorAll_turn _).toSound
  with_reducible refine Sound.trans ?_ (writeHeld_sound _)
  with_reducible refine Sound.trans ?_ (drain_sound _ _)
  refine Sound.trans ?_ (place_turn _ _).toSound
  exact Sound.of_ri _ _ (fun h => regionWrite_wf h _ _) fun h =>
    ⟨Nat.zero_lt_succ _, Nat.zero_lt_succ _, (by decide : 1 < 0x100000000), h.4, h.5, h.6⟩

theorem leaveAttached_csound {c0 c : Ctx} (h : CSound c0 c) {left : List Access} : CSound c0 (leaveAttached left c) := by
  unfold leaveAttached
  dsimp only
  with_reducible refine csound_of_turn ?_ (annLinkLost_cturn (CTurn.refl _))
  refine setRi_csound (upd_csound h ?_) rfl fun h => ⟨h.1, h.2, h.3, h.4, h.5, h.6⟩
  exact Sound.trans (dropLoads_sound _) (foldl_sound (fun s a => dropSnapshot_sound a s) _ _)

theorem setLink_csound {c0 c : Ctx} (h : CSound c0 c) {l : LinkState} : CSound c0 (c.upd (State.setRi fun ri => { ri with link := l })) :=
  setRi_csound h rfl fun k => ⟨k.1, k.2, k.3, k.4, k.5, k.6⟩
theorem clearAccesses_csound {c0 c : Ctx} (h : CSound c0 c) : CSound c0 (c.upd (State.setRi fun ri => { ri with accesses := [] })) :=
  setRi_csound h rfl fun k => ⟨k.1, k.2, k.3, k.4, k.5, k.6⟩

theorem enterLinkFault_csound {c0 c : Ctx} (h : CSound c0 c) {cause offset : Nat} {version : Option Nat} :
    CSound c0 (enterLinkFault cause offset version c) := by
  have h2 : CSound c0 (((c.upd (State.setRi fun ri => { ri with link := .fault })).record
      (riNote .linkFault (dv cause) (dv offset) [dvo version])).upd (State.setRi (RegionIf.raise causeLink))) :=
    upd_csound (record_csound (setLink_csound h)) (raise_turn _ _).toSound
  unfold enterLinkFault
  dsimp only
  split <;> split
  · exact upd_trouble_csound (leaveAttached_csound h2)
  · exact upd_trouble_csound (clearAccesses_csound h2)
  · exact leaveAttached_csound h2
  · exact clearAccesses_csound h2

theorem hostFields_csound {c0 c : Ctx} (h : CSound c0 c) {layout mark notify : Nat} : CSound c0 (hostFields layout mark notify c) := by
  unfold hostFields
  split
  · exact upd_csound h (attach_sound _ _)
  · exact enterLinkFault_csound h

theorem writeRun_csound {c0 c : Ctx} (h : CSound c0 c) {v : Bool} : CSound c0 (writeRun v c) := by
  have h1 : CSound c0 (c.upd (State.setRi fun ri => { ri with run := v })) :=
    setRi_csound h rfl fun k => ⟨k.1, k.2, k.3, k.4, k.5, k.6⟩
  unfold writeRun
  dsimp only
  split
  · exact upd_ask_csound (setLink_csound h1)
  · exact h1
  · exact h1
  · exact setRi_csound h1 rfl fun k => ⟨k.1, k.2, k.3, k.4, k.5, k.6⟩
  · exact leaveAttached_csound (setLink_csound h1)
  · split
    · exact upd_trouble_csound (setLink_csound h1)
    · exact setLink_csound h1

theorem snapshotWritten_sound (offset : Nat) (words : List Word) (s : State) : Sound s (snapshotWritten offset words s) :=
  Sound.of_ri _ _ (fun h => regionWrite_wf h _ _) fun h => ⟨h.1, h.2, h.3, h.4, h.5, h.6⟩

theorem snapshotDone_sound (q : ReqHdr) (offset seq : Nat) (words : List Word) (s : State) : Sound s (snapshotDone q offset seq words s) :=
  Sound.trans (snapshotWritten_sound _ _ _) (answer_sound _ _ _ _)

theorem markConsumed_sound (off : Nat) (s : State) : Sound s (markConsumed off s) :=
  Sound.of_ri _ _ (fun h => regionWrite_wf h _ _) fun h => ⟨h.1, h.2, h.3, h.4, h.5, h.6⟩

/-- What is left in flight by a link that went down completes and keeps the standing conditions (R189). -/
theorem landed_sound (a : Access) (s : State) : Sound s (landed a s) := by
  unfold landed
  split
  · exact markConsumed_sound _ _
  · exact snapshotWritten_sound _ _ _
  · exact Sound.refl s

theorem takeSlot_sound (q : ReqHdr) (s : State) : Sound s (s.takeSlot q) :=
  Sound.of_ri _ _ id fun h => ⟨h.1, h.2, h.3, h.4, h.5, h.6⟩
theorem completed_sound (s : State) : Sound s s.completed :=
  Sound.of_ri _ _ id fun h => ⟨h.1, h.2, h.3, h.4, h.5, h.6⟩
theorem begin_sound (s : State) : Sound s s.begin.st := ⟨id, id,
  fun h => ⟨h.zones, h.feeds, h.channels, h.circuits, h.lines, h.inputs, h.outputs⟩, fun h => ⟨h.out, h.silent, h.feeds⟩, rfl⟩

end Sys2Proof.Machine
end

