-- ==== Sys2Proof/Laws/Shapes.lean ====
section
/-! SUPPORT. The three shapes of a command's effect keep the standing conditions when their inner operation does; so do the decision of a slot's request
and the reading of a slot. -/

namespace Sys2Proof.Machine
open Sys2Proof

set_option linter.unusedTactic false
set_option linter.unreachableTactic false

/-! ### The three shapes of a command's effect -/

theorem event_sound {f : Ctx → Ctx} (hf : ∀ c, CSound c (f c)) (s : State) : Sound s (event f s) := by
  unfold event
  split
  · exact (begin_sound s).trans (Sound.trans (hf _) (close_sound _))
  · exact Sound.refl s

theorem eventWhen_sound {p : Bool} {f : Ctx → Ctx} (hf : ∀ c, CSound c (f c)) (s : State) : Sound s (eventWhen p f s) := by
  unfold eventWhen
  split
  · exact event_sound hf s
  · exact Sound.refl s

theorem request_sound {q : ReqHdr} {f : Ctx → Ctx} (hf : ∀ c, CSound c (f c)) (s : State) : Sound s (request q f s) := by
  unfold request
  split
  · exact (takeSlot_sound q s).trans ((begin_sound _).trans (Sound.trans (hf ((s.takeSlot q).beginFor q.tag)) (close_sound _)))
  · exact Sound.refl s

theorem completion_sound {p : Access → Bool} {f : Access → Ctx → Ctx} (hf : ∀ a c, CSound c (f a c)) (s : State) :
    Sound s (completion p f s) := by
  unfold completion
  split
  · split
    · exact (completed_sound s).trans (landed_sound _ _)
    · exact Sound.refl s
  · split
    · exact (completed_sound s).trans ((begin_sound _).trans (Sound.trans (hf _ _) (close_sound _)))
    · exact Sound.refl s
  · exact Sound.refl s

theorem recordDone_sound {t : TableCode} {q : State → Option ReqHdr} {f : Ctx → Ctx} (hf : ∀ c, CSound c (f c)) (s : State) :
    Sound s (recordDone t q f s) := by
  unfold recordDone
  exact completion_sound (fun _ c => hf { c with tag := ((q s).map (·.tag)).getD 0 }) s

theorem decideRequest_csound {c0 c : Ctx} (h : CSound c0 c) {i : Instr} : CSound c0 (decideRequest i c) := by
  unfold decideRequest
  try dsimp only
  repeat' first
    | with_reducible assumption
    | with_reducible apply upd_say_csound
    | with_reducible apply record_csound
    | with_reducible apply decideSetTime_csound
    | with_reducible apply decideSetTrim_csound
    | with_reducible apply decideSetReference_csound
    | with_reducible apply decideSetDst_csound
    | with_reducible apply decideLoadProfiles_csound
    | with_reducible apply decideLoadCalendar_csound
    | with_reducible apply decideLoadZones_csound
    | with_reducible apply decideLoadGroups_csound
    | with_reducible apply decideLoadPatterns_csound
    | with_reducible apply decideLoadChannels_csound
    | with_reducible apply decideLoadDrills_csound
    | with_reducible apply decideLoadCircuits_csound
    | with_reducible apply decideLoadLines_csound
    | with_reducible apply decideLoadMembers_csound
    | with_reducible apply decideLoadIo_csound
    | with_reducible apply decideSwitch_csound
    | with_reducible apply readStatus_csound
    | with_reducible apply decideSetFlags_csound
    | with_reducible apply decideTodayProfile_csound
    | with_reducible apply decideRing_csound
    | with_reducible apply decideAnnounce_csound
    | with_reducible apply decideEndAnnouncement_csound
    | with_reducible apply decideStartDrill_csound
    | with_reducible apply decideStopSounding_csound
    | with_reducible apply decideAllClear_csound
    | with_reducible apply decideEndDrill_csound
    | with_reducible apply decideResume_csound
    | with_reducible apply decideSetDial_csound
    | with_reducible apply decideClearCircuit_csound
    | with_reducible apply decideEnumerate_csound
    | with_reducible apply decideRenumber_csound
    | with_reducible apply decideSetNode_csound
    | with_reducible apply decideClearLine_csound
    | with_reducible apply decideDrive_csound
    | with_reducible apply decideReadLine_csound
    | with_reducible apply upd_answer_csound
    | with_reducible apply upd_refuse_csound
    | with_reducible apply upd_setTb_csound
    | with_reducible apply upd_ask_csound
    | with_reducible apply upd_setLine_csound
    | with_reducible apply upd_setNode_csound
    | with_reducible apply upd_setCircuit_csound
    | with_reducible apply upd_setOutput_csound
    | with_reducible apply upd_setInput_csound
    | with_reducible apply upd_trouble_csound
    | with_reducible apply call_csound
    | (with_reducible apply each_csound; intro _ _ _ _; try dsimp only)
    | with_reducible apply upd_csound
    | with_reducible exact (mirrorFire_turn _).toSound
    | split
    | with_reducible apply Sound.refl
    | (with_reducible apply Sound.of_blocks <;> first | rfl | simp)

theorem decideSlot_csound {c0 c : Ctx} (h : CSound c0 c) {q : ReqHdr} {r : SlotRequest} : CSound c0 (decideSlot q r c) := by
  unfold decideSlot
  try dsimp only
  repeat' first
    | with_reducible assumption
    | with_reducible apply upd_say_csound
    | with_reducible apply record_csound
    | with_reducible apply decideRequest_csound
    | with_reducible apply upd_answer_csound
    | with_reducible apply upd_refuse_csound
    | with_reducible apply upd_setTb_csound
    | with_reducible apply upd_ask_csound
    | with_reducible apply upd_setLine_csound
    | with_reducible apply upd_setNode_csound
    | with_reducible apply upd_setCircuit_csound
    | with_reducible apply upd_setOutput_csound
    | with_reducible apply upd_setInput_csound
    | with_reducible apply upd_trouble_csound
    | with_reducible apply call_csound
    | (with_reducible apply each_csound; intro _ _ _ _; try dsimp only)
    | with_reducible apply upd_csound
    | with_reducible exact (mirrorFire_turn _).toSound
    | split
    | with_reducible apply Sound.refl
    | (with_reducible apply Sound.of_blocks <;> first | rfl | simp)

theorem slotDone_csound {c0 c : Ctx} (h : CSound c0 c) {n : Nat} {d : List Byte} : CSound c0 (slotDone n d c) := by
  unfold slotDone
  dsimp only
  refine upd_csound ?_ (nextSlot_sound _ _)
  split
  · exact decideSlot_csound (c := { c.upd (State.takeSlot (slotHdr n d)) with tag := (slotHdr n d).tag })
      (upd_csound h (takeSlot_sound _ _))
  · exact h

end Sys2Proof.Machine
end

