-- ==== Sys2Proof/Tests/Slice0.lean ====
section
/-! SUPPORT. The model's own tests: ill-formed commands that WellFormed refuses, the request a slot's bytes spell, one or two single steps of each
command with the outcome the manual gives, and for every statement with hypotheses a state and operands that meet them. -/

namespace Sys2Proof.Tests
open Sys2Proof Sys2Proof.Machine

/-! ### Helpers -/

/-- A command answers a next state, and a condition holds of it. -/
def after (i : Instr) (s : State) (p : State → Bool) : Bool :=
  match exec i s with
  | .next t => p t
  | .fault _ => false
  | .refused _ => false

/-- The state a command leaves. -/
def run1 (i : Instr) (s : State) : State :=
  match exec i s with
  | .next t => t
  | .fault _ => s
  | .refused _ => s

theorem counts_of {s : State} (h : (s.za.zones.length == 64 && s.za.feeds.length == 8 && s.au.channels.length == 4
    && s.cu.circuits.length == 4 && s.lc.lines.length == 8 && s.io.inputs.length == 12 && s.io.outputs.length == 12) = true) : Counts s := by
  simp only [Bool.and_eq_true, beq_iff_eq] at h
  obtain ⟨⟨⟨⟨⟨⟨a, b⟩, c⟩, d⟩, e⟩, f⟩, g⟩ := h
  exact ⟨a, b, c, d, e, f, g⟩

theorem logSound_of {ri : RegionIf} (h : (decide (ri.writeIndex < 256) && decide (ri.readMark < 256) && decide (ri.nextSeq < 0x100000000)
    && decide (ri.hold.length ≤ 32) && decide (ri.lost ≤ 65535) && decide (ri.totalLost ≤ 0xFFFFFFFF)) = true) : LogSound ri := by
  simp only [Bool.and_eq_true, decide_eq_true_eq] at h
  obtain ⟨⟨⟨⟨⟨a, b⟩, c⟩, d⟩, e⟩, f⟩ := h
  exact ⟨a, b, c, d, e, f⟩

theorem getD_all {α : Type} {l : List α} {d : α} {p : α → Bool} (h : l.all p = true) (hd : p d = true) (i : Nat) : p (l.getD i d) = true := by
  rw [List.getD_eq_getElem?_getD]
  cases e : l[i]? with
  | none => exact hd
  | some x => exact List.all_eq_true.mp h x (List.mem_of_getElem? e)

theorem noWaiters_of {s : State} (h : (s.za.zones.all fun d => d.waiters.isEmpty) = true) : NoWaiters s := fun z =>
  List.isEmpty_iff.mp (getD_all (d := ZoneDyn.clear) (p := fun d => d.waiters.isEmpty) h rfl z)

theorem noWaitersBut_of {s : State} {z : Nat} (h : ((s.za.zones.set z ZoneDyn.clear).all fun d => d.waiters.isEmpty) = true) :
    ∀ y, y ≠ z → (s.zone y).waiters = [] := fun y hy => by
  have := getD_all (d := ZoneDyn.clear) (p := fun d => d.waiters.isEmpty) h rfl y
  rw [List.getD_eq_getElem?_getD, List.getElem?_set_ne (fun e => hy e.symm), ← List.getD_eq_getElem?_getD] at this
  exact List.isEmpty_iff.mp this

theorem noHolder_of {s : State} (h : (s.za.zones.all fun d => d.holder.isNone) = true) : ∀ z, (s.zone z).holder = none := fun z =>
  Option.isNone_iff_eq_none.mp (getD_all (d := ZoneDyn.clear) (p := fun d => d.holder.isNone) h rfl z)

theorem holders_of {s : State} {p : Claim → Bool} (h : (s.za.zones.all fun d => d.holder.all p) = true) :
    ∀ z x, (s.zone z).holder = some x → p x = true := fun z x hx => by
  have := getD_all (d := ZoneDyn.clear) (p := fun d => d.holder.all p) h rfl z
  have hx' : (s.za.zones.getD z ZoneDyn.clear).holder = some x := hx
  simp only [hx', Option.all_some] at this
  exact this

theorem noFeed_of {s : State} (h : (s.za.feeds.all fun f => f.isNone) = true) : ∀ b, s.za.feeds.getD b none = none := fun b =>
  Option.isNone_iff_eq_none.mp (getD_all (d := none) (p := fun f : Option FeedHolder => f.isNone) h rfl b)

theorem bareLines_of {s : State} (h : (s.lc.lines.all fun l => l.queue.isEmpty && l.inFlight.isNone && l.deferred.isEmpty && l.nodes.isEmpty)
    = true) : BareLines s := fun i => by
  have := getD_all (d := Line.cold) h rfl i
  simp only [Bool.and_eq_true, List.isEmpty_iff, Option.isNone_iff_eq_none] at this
  obtain ⟨⟨⟨a, b⟩, c⟩, d⟩ := this
  exact ⟨a, b, c, d⟩

theorem onlyDue_of {s : State} {e : Entry} {h : HighWater} {now : CampusTime} (hm : s.se.mark = some h) (he : s.se.active.entries = [e])
    (hd : e.dueBy h now) : OnlyDue 0 e h now s :=
  ⟨hm, by simp [he], by simp [he], hd, fun j x hx _ => by
    rw [he] at hx
    cases j with
    | zero => rfl
    | succ k => simp at hx⟩

/-! ### WellFormed refuses -/

def q0 : ReqHdr := ⟨0, true, 7⟩
def q32 : ReqHdr := ⟨32, false, 0⟩
/-- A request from slot 1, slot 0 having held an earlier one. -/
def q1 : ReqHdr := ⟨1, false, 8⟩
def okReply : Reply := ⟨true, 7, false, false, false, false, false, false, .poll .marshal none⟩

theorem test_wellFormed_accepts : (Instr.setTrim q0 (-5001)).wellFormed = true ∧ (Instr.slotRead (List.replicate 64 0)).wellFormed = true := by decide
theorem test_wellFormed_slot : (Instr.setTrim q32 0).wellFormed = false := by decide
theorem test_wellFormed_paths : (Instr.restart []).wellFormed = false ∧ (Instr.mainSupplyReturn []).wellFormed = false := by decide
theorem test_wellFormed_register : (Instr.registerWriteOther 0x0C 0).wellFormed = false ∧ (Instr.registerWriteOther 0x1A 0).wellFormed = false := by
  decide
theorem test_wellFormed_setTime : (Instr.setTime q0 65536 0).wellFormed = false := by decide
theorem test_wellFormed_setTrim : (Instr.setTrim q0 2147483648).wellFormed = false := by decide
theorem test_wellFormed_setReference : (Instr.setReference q0 256 30 2000).wellFormed = false := by decide
theorem test_wellFormed_setDstRule : (Instr.setDstRule q0 ⟨0, 3, 5, 2, 10, 5, 3, 256⟩).wellFormed = false := by decide
theorem test_wellFormed_load : (Instr.loadTableProfiles q0 65536 0x3000).wellFormed = false
    ∧ (Instr.loadTableCircuits q0 4 0x3000 256).wellFormed = false ∧ (Instr.loadTableIo q0 0x100000000).wellFormed = false := by decide
theorem test_wellFormed_switch : (Instr.switchSchedule q0 0x3000 1 120 256 0).wellFormed = false := by decide
theorem test_wellFormed_number : (Instr.startDrill q0 256).wellFormed = false ∧ (Instr.endDrill q32).wellFormed = false := by decide
theorem test_wellFormed_ring : (Instr.ring q0 ⟨1, 0, 1, 3, 6, 0, 65536⟩).wellFormed = false := by decide
theorem test_wellFormed_announce : (Instr.announce q0 ⟨1, 0, 1, 5, 3, 0, 3, 600, 0, 65536, 0, 0⟩).wellFormed = false := by decide
theorem test_wellFormed_setDial : (Instr.setDial q0 0 65536 0).wellFormed = false := by decide
theorem test_wellFormed_setNode : (Instr.setNode q0 0 256 0).wellFormed = false := by decide
theorem test_wellFormed_driveOutput : (Instr.driveOutput q0 256 0 0).wellFormed = false := by decide
theorem test_wellFormed_readStatus : (Instr.readStatusLine q0 256 0x3000).wellFormed = false
    ∧ (Instr.readStatusTime q0 0x100000000).wellFormed = false := by decide
theorem test_wellFormed_hostFields : (Instr.hostFieldsRead 0x100000000 0 0).wellFormed = false
    ∧ (Instr.readMarkRead 0x100000000 0).wellFormed = false := by decide
theorem test_wellFormed_bytes : (Instr.slotRead []).wellFormed = false ∧ (Instr.profileRecordRead [0]).wellFormed = false
    ∧ (Instr.calendarSpanRead [0]).wellFormed = false ∧ (Instr.zoneRecordRead [0]).wellFormed = false
    ∧ (Instr.groupRecordRead [2, 16]).wellFormed = false ∧ (Instr.groupRecordRead []).wellFormed = false
    ∧ (Instr.patternRecordRead [0]).wellFormed = false ∧ (Instr.channelRecordRead [0]).wellFormed = false
    ∧ (Instr.drillRecordRead [0]).wellFormed = false ∧ (Instr.circuitRecordRead [0]).wellFormed = false
    ∧ (Instr.lineRecordRead [0] []).wellFormed = false ∧ (Instr.memberEntryRead [0]).wellFormed = false
    ∧ (Instr.ioRecordRead [0, 0]).wellFormed = false ∧ (Instr.scheduleEntryRead [0]).wellFormed = false
    ∧ (Instr.headerRead [0]).wellFormed = false ∧ (Instr.headerReread [0]).wellFormed = false ∧ (Instr.fetchComplete []).wellFormed = false := by
  decide
theorem test_wellFormed_busError : (Instr.regionAccessBusError 0x100000).wellFormed = false := by decide
theorem test_wellFormed_zones : (Instr.waitLimitExpiry 64 .fire).wellFormed = false ∧ (Instr.waitLimitExpiry 0 (.bell 64)).wellFormed = false
    ∧ (Instr.cadenceStep (.drillZone 64)).wellFormed = false ∧ (Instr.bellCadenceEnd 64 0).wellFormed = false
    ∧ (Instr.drillZoneCadenceEnd 64).wellFormed = false ∧ (Instr.chimeEnd 256).wellFormed = false := by decide
theorem test_wellFormed_channels : (Instr.samplesPlayed 4 []).wellFormed = false ∧ (Instr.samplesPlayed 0 [0]).wellFormed = false
    ∧ (Instr.starveLimit 4).wellFormed = false := by decide
theorem test_wellFormed_circuits : (Instr.pulseStart 4).wellFormed = false ∧ (Instr.pulseComplete 4 true).wellFormed = false := by decide
theorem test_wellFormed_lines : (Instr.frameSent 8).wellFormed = false ∧ (Instr.attemptTimeout 8 .normal).wellFormed = false
    ∧ (Instr.busyHoldEnd 0 41).wellFormed = false ∧ (Instr.supervisionCycleStart 8 ⟨.normal, .normal⟩).wellFormed = false
    ∧ (Instr.replyReceived 0 { okReply with body := .poll .clock (some 86400) }).wellFormed = false := by decide
theorem test_wellFormed_wiring : (Instr.plainDriveRelease 12).wellFormed = false ∧ (Instr.inputReadingChange 12 .closed).wellFormed = false
    ∧ (Instr.debouncedValueChange 12).wellFormed = false := by decide

/-! ### Decoding (sections 11.2, 11.4, 11.6) -/

/-- The table gives no bits: no word spells a command. -/
theorem test_decodeTableWord : decodeTableWord 32 0x12345678 = none := by decide

/-- A slot of 64 bytes from its first ones. -/
def slotBytes (l : List Byte) : List Byte := l ++ List.replicate (64 - l.length) 0

/-- POSTED, SET TRIM, notify 1, outcome 0, tag 07 00 00 00, trim −2 = FE FF FF FF. -/
theorem test_decode_setTrim : decodeSlot 0 (slotBytes [1, 2, 1, 0, 7, 0, 0, 0, 0xFE, 0xFF, 0xFF, 0xFF]) = .request (.setTrim q0 (-2)) := by decide
/-- SET TIME for day 9000 = 28 23, 36,000,000 ms = 00 51 25 02. -/
theorem test_decode_setTime : decodeSlot 0 (slotBytes [1, 1, 1, 0, 7, 0, 0, 0, 0x28, 0x23, 0x00, 0x51, 0x25, 0x02])
    = .request (.setTime q0 9000 36000000) := by decide
/-- LOAD TABLE MEMBERS, 2 entries at 00003000. -/
theorem test_decode_loadMembers : decodeSlot 0 (slotBytes [1, 5, 1, 0, 7, 0, 0, 0, 9, 2, 0, 0x00, 0x30, 0, 0])
    = .request (.loadTableMembers q0 2 0x3000) := by decide
/-- RING: zone set of zone 16, pattern 3, level 6, defer 10, duration 300. -/
theorem test_decode_ring : decodeSlot 0 (slotBytes [1, 9, 1, 0, 7, 0, 0, 0, 1, 0, 0, 0, 1, 0, 0, 0, 0, 0, 3, 6, 10, 0x2C, 0x01])
    = .request (.ring q0 ⟨1, 0, 0x10000, 3, 6, 10, 300⟩) := by decide
/-- READ STATUS LINE 2 at 00004000. -/
theorem test_decode_readLine : decodeSlot 0 (slotBytes [1, 0x17, 1, 0, 7, 0, 0, 0, 2, 2, 0x00, 0x40, 0, 0])
    = .request (.readStatusLine q0 2 0x4000) := by decide
theorem test_decode_badKind : decodeSlot 0 (slotBytes [1, 0x18]) = .badKind := by decide
theorem test_decode_badTable : decodeSlot 0 (slotBytes [1, 5, 0, 0, 0, 0, 0, 0, 11]) = .badParameter := by decide

/-! ### States of the tests -/

set_option maxRecDepth 8000

/-- In operation and ATTACHED, 100 s after the start, day 9000 at 10:00 (36,000,000 ms), with one log record (STARTED). -/
def base : State := { State.reset with
  elapsed := 100000
  supply := ⟨true, true, false, .cold⟩
  tb := { TimeBase.cold with campus := some ⟨9000, 36000000⟩ }
  dp := { DayPlan.cold with dayBegun := some 9000 }
  se := { Schedule.cold with mark := some ⟨9000, 36000000⟩ }
  ri := { RegionIf.start [] with
    run := true
    link := .attached
    writeIndex := 1
    nextSeq := 2
    firstAttach := false } }

/-- Zone 16 is enabled, in building 2, on relay Q0, in evacuation drills; pattern 3 rings twice 1 s on, 0.5 s off. -/
def zoned : State := { base with
  za := { base.za with table := base.za.table.set 16 ⟨true, 2, 1, false, false, true⟩ }
  pu := { base.pu with table := base.pu.table.set 3 ⟨[⟨1000, 500⟩], 2, 800, 7⟩ } }

/-- The link with its accesses, and no other item changed. -/
def State.linked (l : LinkState) (xs : List Access) (s : State) : State := { s with ri := { s.ri with link := l, accesses := xs } }

/-- An access in flight. -/
def State.doing (a : Access) (s : State) : State := State.linked .attached [a] s

def State.later (ms : Nat) (s : State) : State := { s with elapsed := s.elapsed + ms }

def detached : State := State.linked .detached [] base
def noPaths : List PathPair := List.replicate 8 openPair
/-- A cold start settles, with zone 16 enabled and so many milliseconds of elapsed time. -/
def settling (ms : Nat) : State := { State.reset with
  elapsed := ms
  za := zoned.za }

def ringP : RingParams := ⟨1, 0, 0x10000, 3, 6, 10, 300⟩
def ringing : State := run1 (.ring q0 ringP) zoned
/-- Zone 16 rings at level 6 and a bell at level 7 waits for it. -/
def queued : State := run1 (.ring q0 { ringP with level := 7 }) ringing

/-- A chime with pattern 3 on zone 16, at level 5, for at most 600 s. -/
def chimeP : AnnounceParams := ⟨1, 0, 0x10000, 5, 3, 0, 3, 600, 0, 0, 0, 0⟩
/-- Audio blocks from 4000 on zone 16, without a chime. -/
def blocksP : AnnounceParams := { chimeP with source := 0, blockOffset := 0x4000, chime := 0xFF }
/-- LIVE0 on zone 16, without a chime. -/
def liveP : AnnounceParams := { chimeP with source := 1, chime := 0xFF }
def chiming : State := run1 (.announce q0 chimeP) zoned
def playing : State := run1 (.announce q0 blocksP) zoned
def talking : State := run1 (.announce q0 liveP) zoned

/-- Drill 1: building 2, 60 s of sounding, a target of 300 s, no tone, no all-clear pattern. -/
def drillRec1 : DrillRec := ⟨true, 4, 60, 300, false, none, 0⟩
def drilled : State := { zoned with dc := { zoned.dc with records := zoned.dc.records.set 1 drillRec1 } }
def drilling : State := run1 (.startDrill q0 1) drilled
/-- Drill 2 has an all-clear pattern, 3, on group 5, which is zone 16. -/
def clearing : State := run1 (.allClear q0) (run1 (.stopSounding q0) (run1 (.startDrill q0 2)
  { drilled with
    dc := { drilled.dc with records := drilled.dc.records.set 2 { drillRec1 with allClear := some 3, group := 5 } }
    za := { drilled.za with groups := drilled.za.groups.set 5 0x10000 } }))

/-- Fire silence holds zone 16; K11 reads CLOSED. -/
def onFire : State := { run1 (.debouncedValueChange 11) { zoned with io := { zoned.io with
  inputs := zoned.io.inputs.set 11 ⟨.plain, 50, .closed, ⟨99900, 50⟩, ⟨99900, 50⟩, some .opened⟩ } } with eventNo := 0 }

/-- Circuit 1 is enabled, with a 720-minute dial at 600 = 10:00, pulses of 500 ms every 2,000 ms, holding up to 60 minutes. -/
def clocks : State := { base with cu := { base.cu with
  circuits := base.cu.circuits.set 1 ⟨⟨true, 720, 500, 2000, 60⟩, 600, .negative, .inStep, 0, none, none, none⟩ } }
/-- The dial is 5 minutes behind, and the next pulse is due. -/
def behind : State := { clocks with cu := { clocks.cu with
  circuits := clocks.cu.circuits.set 1 ⟨⟨true, 720, 500, 2000, 60⟩, 595, .negative, .catchingUp, 0, none, none, some 100000⟩ } }
def pulsing : State := State.later 500 (run1 (.pulseStart 1) behind)

/-- Line 2 is enabled and UP, its supervision cycle started at 90,000 ms. -/
def lineUp : Line := { Line.cold with
  cfg := ⟨true, 20, 2, true, 3, 0, 30⟩
  pathA := ⟨.normal, some .normal⟩
  pathB := ⟨.normal, some .normal⟩
  cycle := ⟨false, 0, some 90000, 30⟩ }
def nodeAt (a : Nat) (k : NodeKind) (st : NodeState) : Node :=
  ⟨a, k, 1000 + a, a, .a, st, 0, [], 0, true, false, true, none, none, none, none⟩
def withLine (l : Line) (s : State) : State := { s with lc := { s.lc with lines := s.lc.lines.set 2 l } }
def lined : State := withLine lineUp base
/-- Nodes 7, a marshal station, and 9, a sounder, are PRESENT on line 2. -/
def noded : State := withLine { lineUp with nodes := [nodeAt 7 .marshal .present, nodeAt 9 .sounder .present] } base
def pollOf (a : Nat) : Tx := ⟨.poll, 4, .node a, 0, [], false, none⟩
/-- A POLL of node 7 is in flight on path A at its first attempt, and its response timeout ends at 100,020. -/
def polling : State := withLine { lineUp with
  nodes := [nodeAt 7 .marshal .present, nodeAt 9 .sounder .present]
  inFlight := some ⟨pollOf 7, 1, .a, false, .fixed, some 100020, false, 20⟩ } base

/-- A decided request: state and outcome in slot 0 (section 11.6; R193). -/
def slotHolds (st oc : Byte) (t : State) : Bool := regionRead t.ri.region 0x100 = some st && regionRead t.ri.region 0x103 = some oc
/-- A result word of slot 0, at byte 52 on (section 11.6). -/
def resultWord (i : Nat) (t : State) : List (Option Byte) := (List.range 4).map fun k => regionRead t.ri.region (0x134 + 4 * i + k)
/-- The kind of the last log record. -/
def lastKind (t : State) : Option Byte := regionRead t.ri.region (0x1004 + 32 * (t.ri.writeIndex - 1))

/-! ### Register writes (section 11.2) -/

theorem test_run : after (.run true) detached (fun t => t.ri.link = .attaching && t.ri.accesses = [.hostFields]) = true := by decide
theorem test_run_clear : after (.run false) base (fun t => t.ri.link = .detached) = true := by decide
theorem test_intEnable : after (.intEnable true) base (fun t => t.ri.intEnable) = true := by decide
theorem test_restart : after (.restart noPaths) ringing (fun t => t.supply.settling && t.elapsed = 0 && t.pu.bells = [] && t.ri.link = .detached) = true := by
  decide
theorem test_factoryClear : after .factoryClear { detached with tb := { detached.tb with trim := 77 } } (fun t => t.tb = TimeBase.cold) = true := by decide
/-- Bits 31 to 20 of the value are the base. -/
theorem test_regionBase : after (.regionBase 0xABC12345) detached (fun t => t.ri.base = 0xABC) = true := by decide
theorem test_attention : after (.attention 0) base (fun t => t.ri.accesses = [.readMark true]) = true := by decide
/-- Writing 1 clears: 1011 with 0110 written leaves 1001. -/
theorem test_cause : after (.cause 6) { base with ri := { base.ri with cause := 0b1011 } } (fun t => t.ri.cause = 0b1001) = true := by decide
theorem test_causeEnable : after (.causeEnable 0xFFFFFFF5) base (fun t => t.ri.causeEnable = 0x5) = true := by decide
theorem test_registerWriteOther : after (.registerWriteOther 0x18 1) base (fun t => t = base) = true := by decide

/-! ### Requests (section 11.4) -/

/-- 1,000 ms later than now, within the slew limit of 2,000: Pc becomes 1,000 (R17). -/
theorem test_setTime_slews : after (.setTime q0 9000 36001000) base (fun t => t.tb.pc = 1000 && t.tb.campus = base.tb.campus && slotHolds 2 0 t) = true := by
  decide
/-- 2,001 ms earlier: a step (R17). -/
theorem test_setTime_steps : after (.setTime q0 9000 35997999) base (fun t => t.tb.campus = some ⟨9000, 35997999⟩ && slotHolds 2 0 t) = true := by
  decide
theorem test_setTrim_clamps : after (.setTrim q0 (-5001)) base (fun t => t.tb.trim = -5000 && slotHolds 2 1 t && lastKind t = some 6) = true := by decide
theorem test_setReference : after (.setReference q0 1 9 2000) base (fun t => t.tb.refMode = .pulse && t.tb.lossLimit = 10 && slotHolds 2 1 t) = true := by
  decide
theorem test_setReference_mode : after (.setReference q0 2 30 2000) base (fun t => t.tb.refMode = .off && slotHolds 3 3 t) = true := by decide
theorem test_setDstRule : after (.setDstRule q0 ⟨0, 3, 5, 2, 10, 5, 3, 60⟩) base (fun t => t.tb.dst = some ⟨3, 5, 2, 10, 5, 3, 60⟩ && slotHolds 2 0 t) = true := by
  decide
theorem test_setDstRule_months : after (.setDstRule q0 ⟨0, 3, 5, 2, 3, 5, 3, 60⟩) base (fun t => t.tb.dst = none && slotHolds 3 3 t) = true := by decide
theorem test_loadProfiles : after (.loadTableProfiles q0 16 0x3000) base (fun t => t.ri.accesses = [.record .profiles]) = true := by decide
theorem test_loadProfiles_count : after (.loadTableProfiles q0 17 0x3000) base (slotHolds 3 4) = true := by decide
theorem test_loadCalendar : after (.loadTableCalendar q0 96 0x3000) base (fun t => t.ri.accesses = [.record .calendar]) = true := by decide
theorem test_loadZones : after (.loadTableZones q0 64 0x3000) base (fun t => t.ri.accesses = [.record .zones]) = true := by decide
theorem test_loadZones_busy : after (.loadTableZones q0 64 0x3000) ringing (slotHolds 3 5) = true := by decide
theorem test_loadGroups : after (.loadTableGroups q0 64 0x3000) base (fun t => t.ri.accesses = [.record .groups]) = true := by decide
theorem test_loadPatterns : after (.loadTablePatterns q0 31 0x3002) base (slotHolds 3 11) = true := by decide
theorem test_loadChannels : after (.loadTableChannels q0 4 0xFFFE8) base (fun t => t.ri.accesses = [.record .channels]) = true := by decide
theorem test_loadDrills : after (.loadTableDrills q0 8 0x3000) drilling (slotHolds 3 5) = true := by decide
theorem test_loadCircuits : after (.loadTableCircuits q0 4 0x3000 2) base (fun t => t.ri.accesses = [.record .circuits]) = true := by decide
theorem test_loadLines : after (.loadTableLines q0 9 0x3000) base (slotHolds 3 4) = true := by decide
theorem test_loadMembers : after (.loadTableMembers q0 320 0x3000) base (fun t => t.ri.accesses = [.record .members]) = true := by decide
theorem test_loadIo : after (.loadTableIo q0 0x2FFC) base (slotHolds 3 11) = true := by decide
theorem test_switchSchedule : after (.switchSchedule q0 0x3000 1024 901 0 0) base (fun t => (t.se.switch.map (·.window)) = some 900) = true := by decide
/-- M2 over M1: 00 keeps, 01 sets, 10 clears, 11 toggles. Of flags 1010 with M1 0110 and M2 0011: 1, keep; 0, set; 1, toggled; 0, clear. -/
theorem test_setFlags : after (.setFlags q0 0b0110 0b0011) { base with dp := { base.dp with flags := 0b1010 } } (fun t => t.dp.flags = 0b1100 && slotHolds 2 0 t
    && resultWord 0 t = [some 0b1010, some 0, some 0, some 0] && resultWord 1 t = [some 0b1100, some 0, some 0, some 0]) = true := by decide
theorem test_setTodayProfile : after (.setTodayProfile q0 5) base (fun t => t.se.profile = 5 && slotHolds 2 0 t) = true := by decide
theorem test_setTodayProfile_range : after (.setTodayProfile q0 16) base (slotHolds 3 4) = true := by decide
theorem test_ring : after (.ring q0 ringP) zoned (fun t => t.zoneState 16 = .bell && t.relayDemand = 1 && slotHolds 2 0 t) = true := by decide
theorem test_ring_waits : after (.ring q0 { ringP with level := 7 }) ringing (fun t => (t.zone 16).waiters.length = 1 && slotHolds 2 0 t) = true := by decide
theorem test_announce : after (.announce q0 chimeP) zoned (fun t => t.zoneState 16 = .page && (t.ann? 0).map (·.st) = some .chime
    && (t.channel 0).tone = some ⟨800, 7⟩) = true := by decide
theorem test_announce_offset : after (.announce q0 { blocksP with blockOffset := 0x4001 }) zoned (slotHolds 3 11) = true := by decide
theorem test_endAnnouncement : after (.endAnnouncement q0 0) chiming (fun t => t.au.anns = [] && t.zoneState 16 = .idle
    && (t.channel 0).lastEnding = some ⟨0, .cancelled⟩ && slotHolds 2 0 t) = true := by decide
theorem test_endAnnouncement_none : after (.endAnnouncement q0 1) chiming (slotHolds 3 3) = true := by decide
/-- A drill's claim, level 1, takes the zone from a bell of level 6, which waits until its deadline (R93). -/
theorem test_startDrill : after (.startDrill q0 1) { drilled with za := ringing.za, pu := ringing.pu } (fun t => t.zoneState 16 = .evac
    && (t.zone 16).waiters.length = 1 && t.phase? = some .sounding && slotHolds 2 0 t) = true := by decide
theorem test_startDrill_undefined : after (.startDrill q0 0) drilled (slotHolds 3 3) = true := by decide
theorem test_stopSounding : after (.stopSounding q0) drilling (fun t => t.phase? = some .evacuating && t.relayDemand = 0 && t.zoneState 16 = .evac) = true := by
  decide
theorem test_allClear : after (.allClear q0) drilling (fun t => t.dc.active = none && (t.dc.last.map (·.reason)) = some .complete && t.zoneState 16 = .idle) = true := by
  decide
theorem test_endDrill : after (.endDrill q0) drilling (fun t => (t.dc.last.map (·.reason)) = some .aborted && slotHolds 2 0 t) = true := by decide
theorem test_endDrill_none : after (.endDrill q0) base (slotHolds 3 7) = true := by decide
theorem test_resume_fire : after (.resumeAfterAlarm q0) onFire (fun t => t.zoneState 16 = .silenced && slotHolds 3 8 t) = true := by decide
theorem test_resume : after (.resumeAfterAlarm q0) { onFire with dc := { onFire.dc with fireActive := false } } (fun t => t.zoneState 16 = .idle
    && !t.dc.silenceHeld && resultWord 0 t = [some 1, some 0, some 0, some 0]) = true := by decide
theorem test_setDial : after (.setDial q0 1 719 0) clocks (fun t => (t.circuit 1).pos = 719 && (t.circuit 1).polarity = .positive && slotHolds 2 0 t) = true := by
  decide
theorem test_setDial_range : after (.setDial q0 1 720 0) clocks (slotHolds 3 4) = true := by decide
theorem test_enumerateLine : after (.enumerateLine q0 2) lined (fun t => ((t.line 2).inFlight.map (·.tx.kind)) = some (.assign 1) && slotHolds 2 0 t) = true := by
  decide
/-- An ASSIGN of event 3 is in flight, its enumeration ended by the line's failure, and another begun at event 9 waits with its own ASSIGN 1; no reply comes. -/
def orphaned : State := withLine { lineUp with
  enumeration := some ⟨.assigning, some 1, 0, 0, 0, 9⟩
  queue := [⟨.assign 1, 4, .unaddressed, 9, [], false, none⟩]
  inFlight := some ⟨⟨.assign 1, 4, .unaddressed, 3, [], false, none⟩, 3, .a, false, .fixed, some 100000, false, 20⟩ } base
theorem test_assign_orphaned : after (.attemptTimeout 2 .normal) orphaned (fun t => (t.line 2).enumeration = (orphaned.line 2).enumeration
    && (t.line 2).inFlight.map (·.tx.event) = some 9 && (t.line 2).nodes = []) = true := by decide
/-- A LOAD PATTERN of event 3 is in flight to node 9, which was set aside since and enabled again; the refresh begun at event 5 has its own in the queue. -/
def reloading : State := withLine { lineUp with
  nodes := [{ nodeAt 9 .sounder .present with refresh := some ⟨0, 0, 5⟩ }]
  queue := [⟨.loadPattern 0 0 Pattern.empty, 4, .node 9, 5, [], false, none⟩]
  inFlight := some ⟨⟨.loadPattern 0 0 Pattern.empty, 4, .node 9, 3, [], true, none⟩, 1, .a, false, .fixed, some 100020, false, 20⟩ } base
/-- R97: at the new version the queued LOAD PATTERN is withdrawn, and the refresh starts again with that version. -/
theorem test_newVersion_withdraws : after (.loadTablePatterns q0 0 0x3000) reloading (fun t => t.pu.version = 1
    && (t.line 2).queue.map (·.kind) = [.loadPattern 0 1 Pattern.empty] && ((t.line 2).node? 9).bind (·.refresh) = some ⟨1, 0, t.eventNo⟩
    && (t.line 2).inFlight = (reloading.line 2).inFlight) = true := by decide
/-- Node 9 is at the highest chain position. -/
theorem test_renumberLine : after (.renumberLine q0 2) noded (fun t => ((t.line 2).inFlight.map (·.tx.dest)) = some (.node 9)
    && ((t.line 2).inFlight.map (·.tx.kind)) = some .clearAddress) = true := by decide
theorem test_setNode : after (.setNode q0 2 7 0) noded (fun t => ((t.line 2).node? 7).map (·.st) = some .absent && slotHolds 2 0 t) = true := by decide
theorem test_setNode_none : after (.setNode q0 2 8 0) noded (slotHolds 3 3) = true := by decide
theorem test_clearFaultsLine : after (.clearFaultsLine q0 2) (withLine { lineUp with summary := 3, nodes := [nodeAt 7 .marshal .faulted] } base) (fun t =>
    ((t.line 2).node? 7).map (·.st) = some .unknown && (t.line 2).summary = 0 && resultWord 0 t = [some 1, some 0, some 0, some 0]) = true := by decide
theorem test_clearFaultsCircuit : after (.clearFaultsCircuit q0 1) { clocks with cu := { clocks.cu with
    circuits := clocks.cu.circuits.set 1 { clocks.circuit 1 with st := .fault, openCount := 3 } } } (fun t => (t.circuit 1).st = .inStep && (t.circuit 1).openCount = 0) = true := by
  decide
theorem test_driveOutput : after (.driveOutput q0 3 0 600001) base (fun t => t.energized 3 && (t.output 3).releaseAt = some 700000 && slotHolds 2 1 t) = true := by
  decide
theorem test_driveOutput_state : after (.driveOutput q0 11 0 0) base (slotHolds 3 7) = true := by decide
theorem test_readStatusTime : after (.readStatusTime q0 0x3001) base (slotHolds 3 11) = true := by decide
theorem test_readStatusZones : after (.readStatusZones q0 0xFE004) base (slotHolds 3 11) = true := by decide
theorem test_readStatusLine : after (.readStatusLine q0 8 0x3000) base (slotHolds 3 4) = true := by decide
theorem test_readStatusCircuits : after (.readStatusCircuits q0 0x3000) base (fun t => t.ri.accesses.length = 1 && t.ri.taken = [⟨q0, none⟩]) = true := by decide
theorem test_readStatusChannels : after (.readStatusChannels q0 0x2FFC) base (slotHolds 3 11) = true := by decide
theorem test_readStatusDrill : after (.readStatusDrill q0 0xFFE00) base (fun t => t.ri.accesses.length = 1) = true := by decide

/-! ### Completions of region accesses -/

/-- The first attach writes STARTED, kind 54, at log position 0, and the write index 1 at bytes 28 to 31. -/
theorem test_hostFields : after (.hostFieldsRead 3 0 7) { State.linked .attaching [.hostFields] base with ri := { RegionIf.start [] with
    run := true, link := .attaching, accesses := [.hostFields] } } (fun t => t.ri.link = .attached && regionRead t.ri.region 0x1004 = some 54
    && regionRead t.ri.region 28 = some 1) = true := by decide
theorem test_hostFields_layout : after (.hostFieldsRead 2 0 7) (State.linked .attaching [.hostFields] base) (fun t => t.ri.link = .fault
    && t.ri.cause.getLsbD 3) = true := by decide
theorem test_slotRead : after (.slotRead (slotBytes [1, 2, 1, 0, 7, 0, 0, 0, 0xFE, 0xFF, 0xFF, 0xFF])) (State.doing (.slot 0) base) (fun t => t.tb.trim = -2
    && slotHolds 2 0 t && t.ri.accesses = [.slot 1]) = true := by decide
/-- A read mark that is not within the unread records is left alone (R196): from 0 to a write index of 1, not 2. -/
theorem test_readMark : after (.readMarkRead 2 0) (State.doing (.readMark false) base) (fun t => t.ri.readMark = 0) = true
    ∧ after (.readMarkRead 1 0) (State.doing (.readMark false) base) (fun t => t.ri.readMark = 1) = true := by decide
theorem test_snapshotWriteDone : after .snapshotWriteDone (State.doing (.snapshot q0 0x3000 2 [0x11223344]) base) (fun t => slotHolds 2 0 t
    && regionRead t.ri.region 0x3000 = some 0x44) = true := by decide
theorem test_busError : after (.regionAccessBusError 0x3000) base (fun t => t.ri.link = .fault && t.ri.cause.getLsbD 3 && t.io.trouble.getLsbD 4) = true := by decide
def loadOf {α : Type} (n : Nat) (xs : List α) : Load α := ⟨q0, 0x3000, n, xs, false⟩
/-- Name code 0005, mask 0F, preset 03. -/
theorem test_profileRecord : after (.profileRecordRead [5, 0, 0x0F, 3]) { State.doing (.record .profiles) base with
    dp := { base.dp with profileLoad := some (loadOf 1 []) } } (fun t => t.dp.profiles[0]? = some ⟨5, 0x0F, 3⟩ && slotHolds 2 0 t) = true := by decide
/-- A preset outside the mask is at fault. -/
theorem test_profileRecord_fault : after (.profileRecordRead [5, 0, 0x0C, 3]) { State.doing (.record .profiles) base with
    dp := { base.dp with profileLoad := some (loadOf 1 []) } } (slotHolds 3 10) = true := by decide
/-- Days 9000 (2328) to 9010 (2332), Monday to Friday, profile 4. -/
theorem test_calendarSpan : after (.calendarSpanRead [0x28, 0x23, 0x32, 0x23, 0x3E, 4]) { State.doing (.record .calendar) base with
    dp := { base.dp with calendarLoad := some (loadOf 1 []) } } (fun t => t.dp.calendar = [⟨9000, 9010, 0x3E, 4⟩]) = true := by decide
theorem test_zoneRecord : after (.zoneRecordRead [0b1011, 2, 1, 0]) { State.doing (.record .zones) base with
    za := { base.za with zoneLoad := some (loadOf 1 []) } } (fun t => t.zoneRec 0 = ⟨true, 2, 1, true, false, true⟩) = true := by decide
theorem test_groupRecord : after (.groupRecordRead [2, 0, 16]) { State.doing (.record .groups) base with
    za := { base.za with groupLoad := some (loadOf 1 []) } } (fun t => t.group 0 = 0x10001) = true := by decide
/-- One step of 1,000 ms (03E8) on and 500 ms (01F4) off, twice, 800 Hz (0320), level 7. -/
theorem test_patternRecord : after (.patternRecordRead ([1, 2, 0x20, 3, 7, 0, 0xE8, 3, 0xF4, 1] ++ List.replicate 60 0)) { State.doing (.record .patterns) base with
    pu := { base.pu with load := some (loadOf 1 []) } } (fun t => t.pattern 0 = ⟨[⟨1000, 500⟩], 2, 800, 7⟩ && t.pu.version = 1) = true := by decide
/-- A trigger of 512, a starve limit of 499 clamped to 500, a live tail of 0. -/
theorem test_channelRecord : after (.channelRecordRead [0, 2, 0xF3, 1, 0, 0]) { State.doing (.record .channels) base with
    au := { base.au with load := some (loadOf 1 []) } } (fun t => (t.channel 0).cfg = ⟨512, 500, 0⟩ && slotHolds 2 1 t) = true := by decide
/-- Building 2, 60 s, 300 s (012C), no tone, no all-clear. -/
theorem test_drillRecord : after (.drillRecordRead [4, 60, 0, 0x2C, 1, 0, 0xFF, 0]) { State.doing (.record .drills) base with
    dc := { base.dc with load := some (loadOf 1 []) } } (fun t => t.dc.records[0]? = some ⟨true, 4, 60, 300, false, none, 0⟩) = true := by decide
/-- Enabled, 720 (02D0), 500 ms (01F4), 2,000 ms (07D0), 60 minutes. -/
theorem test_circuitRecord : after (.circuitRecordRead [1, 0xD0, 2, 0xF4, 1, 0xD0, 7, 60]) { State.doing (.record .circuits) base with
    cu := { base.cu with load := some ⟨loadOf 1 [], 2⟩ } } (fun t => (t.circuit 0).cfg = ⟨true, 720, 500, 2000, 60⟩ && (t.circuit 0).st = .unset) = true := by decide
theorem test_lineRecord : after (.lineRecordRead [1, 20, 2, 1, 3, 0, 30, 0] (List.replicate 8 ⟨.normal, .normal⟩)) { State.doing (.record .lines) base with
    lc := { base.lc with lineLoad := some (loadOf 1 []) } } (fun t => (t.line 0).cfg = ⟨true, 20, 2, true, 3, 0, 30⟩ && (t.line 0).state = .up) = true := by decide
theorem test_memberEntry : after (.memberEntryRead [0x39, 0x30, 0, 0, 2, 1, 16, 0, 0, 0, 5, 0]) { State.doing (.record .members) base with
    lc := { base.lc with memberLoad := some (loadOf 1 []) } } (fun t => t.lc.members = [⟨12345, 2, [16], 5⟩]) = true := by decide
theorem test_ioRecord : after (.ioRecordRead [1, 0x3F, 0, 0]) { State.doing (.record .io) base with
    io := { base.io with load := some ⟨q0, 0x3000, false, none, [], []⟩ } } (fun t => (t.io.load.bind (·.header)) = some (false, 0x3F)) = true := by decide
/-- 08:00:00 = 28,800 (7080), profile 0, no condition, MARK 0102. -/
def markEntry : List Byte := [0x80, 0x70, 0, 0, 1, 0, 0xFF, 0, 4, 0, 0, 0, 0, 0, 0, 0, 0, 0, 2, 1]
theorem test_scheduleEntry : after (.scheduleEntryRead markEntry) { State.doing .scheduleEntry base with
    se := { base.se with switch := some ⟨loadOf 1 [], 120, .now⟩ } } (fun t => t.se.active = ⟨[⟨28800, 1, none, .mark 0x102⟩], 120⟩ && slotHolds 2 0 t) = true := by decide
/-- 1,000 samples (03E8), LAST no, READY, next 5000. -/
def header1 : List Byte := [0xE8, 3, 0, 1, 0, 0x50, 0, 0, 0, 0, 0, 0, 0, 0, 0, 0]
theorem test_headerRead : after (.headerRead header1) playing (fun t => t.ri.accesses = [.fetch 0 1000]) = true := by decide
/-- A block that is CONSUMED already is not valid: BAD BLOCK. -/
theorem test_headerRead_bad : after (.headerRead (header1.set 3 2)) playing (fun t => (t.channel 0).lastEnding = some ⟨0, .badBlock⟩) = true := by decide
def fetching : State := run1 (.headerRead header1) playing
def samplesOf (n : Nat) : List Sample := List.replicate n 5
theorem test_fetchComplete : after (.fetchComplete (samplesOf 1000)) fetching (fun t => (t.channel 0).fifo.length = 1000
    && t.ri.accesses = [.consumed 0 0x4000]) = true := by decide
def consuming : State := run1 (.fetchComplete (samplesOf 1000)) fetching
theorem test_consumedWriteDone : after .consumedWriteDone consuming (fun t => regionRead t.ri.region 0x4003 = some 2 && t.ri.accesses = [.header 0]) = true := by decide
/-- An exhausted block without a successor is read again at once; still without one, after 100 ms. -/
def exhausted : State := run1 (.fetchComplete (samplesOf 1000)) (run1 (.headerRead (header1.set 5 0)) playing)
theorem test_fetchComplete_last : exhausted.ri.accesses = [.reread 0] := by decide
def awaiting : State := run1 (.headerReread (header1.set 5 0)) exhausted
theorem test_awaitingReread : after (.awaitingRereadTimer 0) (State.later 100 awaiting) (fun t => t.ri.accesses = [.reread 0]) = true := by decide
theorem test_headerReread : after (.headerReread header1) (run1 (.awaitingRereadTimer 0) (State.later 100 awaiting)) (fun t => t.ri.accesses = [.consumed 0 0x4000]) = true := by
  decide

/-! ### Events of elapsed time -/

theorem test_slotScanSecond : after .slotScanSecond base (fun t => t.ri.scan = .scanning && t.ri.scanAt = 1000) = true := by decide
def aRecord : LogRecord := ⟨⟨.inputChanged, .routine, .io, 0, 0, dv 0, dv 0, dv 0⟩, 9000, 0, 0⟩
theorem test_readMarkPoll : after .readMarkPoll { base with ri := { base.ri with hold := [aRecord] } } (fun t => t.ri.accesses = [.readMark false]) = true := by decide
/-- Day 9000 = 2328 at bytes 12 to 15; the trouble field at 36. -/
theorem test_controlBlockSecond : after .controlBlockSecond base (fun t => regionRead t.ri.region 12 = some 0x28 && regionRead t.ri.region 13 = some 0x23
    && regionRead t.ri.region 36 = some 0) = true := by decide
theorem test_timeAdvance : after .timeAdvance base (fun t => t.elapsed = 100001 && t.tb.campus = some ⟨9000, 36000001⟩) = true := by decide
/-- A whole trim term: 9,999,000 + 1,000 reaches 10,000,000, so campus time counts 2. -/
theorem test_timeAdvance_trim : after .timeAdvance { base with tb := { base.tb with acc := 9999000, trim := 1000 } } (fun t => t.tb.acc = 0
    && t.tb.campus = some ⟨9000, 36000002⟩) = true := by decide
/-- The 100th counted millisecond of a slew of −3: campus time counts 0 and Pc becomes −2. -/
theorem test_slewStep : after .slewStep { base with tb := { base.tb with pc := -3, slewCount := 99 } } (fun t => t.tb.pc = -2
    && t.tb.campus = some ⟨9000, 36000000⟩) = true := by decide
def refIn : State := { base with
  tb := { base.tb with refMode := .pulse, campus := some ⟨9000, 36000497⟩ }
  io := { base.io with inputs := base.io.inputs.set 0 ⟨.reference, 50, .opened, ⟨0, 50⟩, ⟨0, 50⟩, none⟩ } }
/-- A pulse at 497 ms past the second: a phase error of +497, so Pc is −497 (R10, R12). -/
theorem test_referencePulse : after .referencePulse refIn (fun t => t.tb.lastError = 497 && t.tb.pc = -497 && t.tb.lastPulse = some 100000) = true := by decide
theorem test_referenceLost : after .referenceLost { refIn with tb := { refIn.tb with lossTimer := 30000 } } (fun t => timeState t.tb = .holdover
    && t.io.trouble.getLsbD 2) = true := by decide
theorem test_lastValidPulseExpiry : after .lastValidPulseExpiry { base with elapsed := 3700050, tb := { base.tb with lastPulse := some 100000 } } (fun t =>
    t.tb.lastPulse = none) = true := by decide
/-- The claim that waits has a limit of 10 s. -/
theorem test_waitLimitExpiry : after (.waitLimitExpiry 16 (.bell 1)) (State.later 10000 queued) (fun t => (t.zone 16).waiters = []
    && t.pu.bells.length = 1) = true := by decide
/-- 1,200 ms after its start pattern 3 is in its OFF time. -/
theorem test_cadenceStep : after (.cadenceStep (.bell 0 16)) (State.later 1200 ringing) (fun t => (t.zone 16).cadence = .off && t.relayDemand = 0) = true := by decide
/-- Two repeats of 1,500 ms. -/
theorem test_bellCadenceEnd : after (.bellCadenceEnd 0 16) (State.later 3000 ringing) (fun t => t.zoneState 16 = .idle && t.pu.bells = []) = true
    ∧ after (.bellCadenceEnd 0 16) (State.later 2999 ringing) (fun t => t.zoneState 16 = .bell) = true := by decide
theorem test_chimeEnd : after (.chimeEnd 0) (State.later 3000 chiming) (fun t => t.au.anns = [] && (t.channel 0).lastEnding = some ⟨0, .complete⟩) = true := by decide
theorem test_drillZoneCadenceEnd : after (.drillZoneCadenceEnd 16) (State.later 60000 drilling) (fun t => (t.zone 16).cadence = .quiet
    && t.zoneState 16 = .evac) = true := by decide
theorem test_allClearCadenceEnd : after (.allClearCadenceEnd 16) (State.later 3000 clearing) (fun t => t.dc.active = none && t.zoneState 16 = .idle) = true := by decide
/-- An announcement without a chime that waits for routing of no speaker: 2 s later it plays. -/
def routing : State := playing.setAnn 0 fun a => { a with st := .routing, routingAt := 100000, lateJoin := true }
theorem test_routingTimer : after (.routingTimer 0) (State.later 2000 { routing with ri := { routing.ri with accesses := [] } }) (fun t =>
    (t.ann? 0).map (·.st) = some .playing) = true := by decide
theorem test_maxDuration : after (.maxDurationReached 0) (chiming.setAnn 0 fun a => { a with timePlayed := 600000 }) (fun t => t.au.anns = []
    && (t.channel 0).lastEnding = some ⟨0, .maxTime⟩) = true := by decide
def waitingAnn : State := { (chiming.setAnn 0 fun a => { a with st := .waiting, channel := none, zones := [] }) with
  za := zoned.za }
theorem test_waitingMaxDuration : after (.waitingMaxDuration 0) (State.later 600000 { waitingAnn with au := { waitingAnn.au with waitList := [0] } }) (fun t =>
    t.au.anns = [] && t.au.waitList = []) = true := by decide
theorem test_resumeDeadline : after (.resumeDeadline 0) (State.later 30000 (chiming.setAnn 0 fun a => { a with st := .held, heldAt := 100000, resume := 30 })) (fun t =>
    t.au.anns = [] && (t.channel 0).lastEnding = some ⟨0, .preempted⟩) = true := by decide
theorem test_samplesPlayed : after (.samplesPlayed 0 []) (State.later 1 consuming) (fun t => (t.channel 0).fifo.length = 984
    && (t.ann? 0).map (·.played) = some 16) = true := by decide
theorem test_starveLimit : after (.starveLimit 0) (State.later 2000 (playing.setChannel 0 fun k => { k with starveFrom := some 100000 })) (fun t =>
    (t.channel 0).lastEnding = some ⟨0, .starved⟩) = true := by decide
theorem test_noTalk : after (.noTalk 0) (State.later 10000 talking) (fun t => t.au.anns = [] && (t.channel 0).lastEnding = some ⟨0, .noTalk⟩) = true := by decide
theorem test_liveTailEnd : after (.liveTailEnd 0) (talking.setAnn 0 fun a => { a with talk := some .tail, tailEnd := some 100000, noTalkAt := none }) (fun t =>
    t.au.anns = [] && (t.channel 0).lastEnding = some ⟨0, .complete⟩) = true := by decide
theorem test_soundingTime : after .soundingTimeReached (State.later 60000 drilling) (fun t => t.phase? = some .evacuating) = true := by decide
theorem test_evacuationTarget : after .evacuationTargetReached (State.later 300000 drilling) (fun t =>
    (t.dc.active.map fun d => d.buildings.map (·.late)) = some [true]) = true := by decide
theorem test_pulseStart : after (.pulseStart 1) behind (fun t => ((t.circuit 1).pulse.map (·.polarity)) = some .positive) = true := by decide
theorem test_pulseComplete : after (.pulseComplete 1 true) pulsing (fun t => (t.circuit 1).pos = 596 && (t.circuit 1).polarity = .positive
    && (t.circuit 1).nextAt = some 102000) = true := by decide
theorem test_pulseComplete_open : after (.pulseComplete 1 false) pulsing (fun t => (t.circuit 1).pos = 595 && (t.circuit 1).polarity = .negative
    && (t.circuit 1).openCount = 1) = true := by decide

/-! ### Field lines, wiring and supply -/

/-- A response timeout of 20 ms. -/
theorem test_frameSent : after (.frameSent 2) (run1 (.enumerateLine q0 2) lined) (fun t => ((t.line 2).inFlight.bind (·.timeoutAt)) = some 100020) = true := by decide
theorem test_replyReceived : after (.replyReceived 2 okReply) polling (fun t => (t.line 2).inFlight = none && ((t.line 2).node? 7).map (·.fails) = some 0) = true := by decide
theorem test_attemptTimeout : after (.attemptTimeout 2 .normal) (State.later 20 polling) (fun t => ((t.line 2).inFlight.map (·.path)) = some .b
    && ((t.line 2).inFlight.map (·.attempt)) = some 2) = true := by decide
theorem test_busyHoldEnd : after (.busyHoldEnd 2 7) (withLine { lineUp with nodes := [{ nodeAt 7 .marshal .present with busyUntil := some 100000 }] } base) (fun t =>
    ((t.line 2).node? 7).map (·.busyUntil) = some none) = true := by decide
/-- 30 s after the last one. -/
theorem test_supervisionCycle : after (.supervisionCycleStart 2 ⟨.normal, .normal⟩) (State.later 20000 noded) (fun t => ((t.line 2).inFlight.map (·.tx.dest)) = some (.node 7)) = true := by
  decide
theorem test_plainDriveRelease : after (.plainDriveRelease 3) (State.later 5000 (run1 (.driveOutput q0 3 0 5000) base)) (fun t => !t.energized 3) = true := by decide
theorem test_inputReadingChange : after (.inputReadingChange 4 .closed) base (fun t => (t.input 4).reading = .closed && (t.input 4).counted = ⟨100000, 50⟩
    && (t.input 4).value = none) = true := by decide
theorem test_debouncedFire : after (.debouncedValueChange 11) { zoned with io := { zoned.io with
    inputs := zoned.io.inputs.set 11 ⟨.plain, 50, .closed, ⟨99950, 50⟩, ⟨99950, 50⟩, some .opened⟩ } } (fun t => t.dc.fireActive && t.dc.silenceHeld && t.zoneState 16 = .silenced) = true := by
  decide
theorem test_debounced_early : after (.debouncedValueChange 11) { zoned with io := { zoned.io with
    inputs := zoned.io.inputs.set 11 ⟨.plain, 50, .closed, ⟨99951, 50⟩, ⟨99951, 50⟩, some .opened⟩ } } (fun t => !t.dc.fireActive) = true := by decide
theorem test_mainSupplyLoss : after .mainSupplyLoss ringing (fun t => !t.energized 0 && t.supply.backupHeld) = true := by decide
theorem test_backupSupplyDrop : after .backupSupplyDrop (run1 .mainSupplyLoss base) (fun t => !t.supply.backupHeld) = true := by decide
theorem test_mainSupplyReturn : after (.mainSupplyReturn noPaths) (run1 .mainSupplyLoss zoned) (fun t => t.supply.kind = .retained
    && t.tb.campus = zoned.tb.campus && t.ri.link = .detached) = true := by decide
theorem test_settlingEnd : after .settlingEnd (settling 50) (fun t => t.running && t.elapsed = 0 && !t.dc.fireActive) = true := by decide
/-- After 10 s with a reading that does not hold, K11 counts as CLOSED. -/
def unsettled : State := { settling 10000 with io := { State.reset.io with inputs := State.reset.io.inputs.set 11 ⟨.plain, 50, .highZ, ⟨9990, 50⟩, ⟨9990, 50⟩, none⟩ } }
theorem test_settlingTimeout : after .settlingTimeout unsettled (fun t => t.running && t.dc.fireActive && t.zoneState 16 = .silenced) = true := by decide

/-! ### Witnesses: a state and operands that meet the hypotheses of each statement -/

/-- The front command of the queue, where a step answers a next state. -/
def stepsTo (s : State) : Bool :=
  match step s with
  | .next _ => true
  | .fault _ => false
  | .refused _ => false

theorem step_next {s : State} (h : stepsTo s = true) : ∃ t, step s = .next t := by
  unfold stepsTo at h
  split at h
  · exact ⟨_, ‹_›⟩
  · cases h
  · cases h

theorem exec_next {i : Instr} {s : State} (h : after i s (fun _ => true) = true) : ∃ t, exec i s = .next t := by
  unfold after at h
  split at h
  · exact ⟨_, ‹_›⟩
  · cases h
  · cases h

theorem fireSilence_of {s : State} (h : ((List.range 64).all fun z => (s.zoneRec z).enabled || ((s.zone z).holder.isNone && (s.zone z).waiters.isEmpty)) = true)
    (h2 : (!s.za.fireReported || ((List.range 64).all fun z => (s.zone z).holder.all (fun x => x.who = .fire) && (s.zone z).waiters.isEmpty)) = true)
    (h3 : (s.za.feeds.all fun f => f.isNone) = true) : FireSilence s := by
  refine ⟨fun z hz he => ?_, fun hf z hz => ?_, fun _ => noFeed_of h3⟩
  · have := List.all_eq_true.mp h z (List.mem_range.mpr hz)
    simp only [he, Bool.false_or, Bool.and_eq_true, Option.isNone_iff_eq_none, List.isEmpty_iff] at this
    exact this
  · simp only [hf, Bool.not_true, Bool.false_or] at h2
    have := List.all_eq_true.mp h2 z (List.mem_range.mpr hz)
    simp only [Bool.and_eq_true, List.isEmpty_iff] at this
    refine ⟨fun x hx => ?_, this.2⟩
    have h4 := this.1
    simp only [hx, Option.all_some, decide_eq_true_eq] at h4
    exact h4

def withQueue (i : Instr) (s : State) : State := { s with pending := [i] }

theorem witness_StepKeepsRegionForm : regionWf (withQueue (.setTrim q0 5) ringing).ri.region ∧ ∃ t, step (withQueue (.setTrim q0 5) ringing) = .next t :=
  ⟨by decide, step_next (by decide)⟩

theorem witness_StepKeepsFireSilence : FireSilence (withQueue (.ring q0 ringP) onFire) ∧ onFire.za.fireReported = true
    ∧ ∃ t, step (withQueue (.ring q0 ringP) onFire) = .next t :=
  ⟨fireSilence_of (by decide) (by decide) (by decide), by decide, step_next (by decide)⟩

theorem witness_StepKeepsLogNumbers : LogSound (withQueue (.setTrim q0 5) ringing).ri ∧ ∃ t, step (withQueue (.setTrim q0 5) ringing) = .next t :=
  ⟨logSound_of (by decide), step_next (by decide)⟩

theorem witness_StepKeepsCounts : Counts (withQueue (.setTrim q0 5) ringing) ∧ ∃ t, step (withQueue (.setTrim q0 5) ringing) = .next t :=
  ⟨counts_of (by decide), step_next (by decide)⟩

/-- H is set in operation; a cold start's settling is UNSET. -/
theorem witness_StepKeepsHighWaterMark : HighWaterSet (withQueue (.setTime q0 9000 36001000) base) ∧ (∃ t, step (withQueue (.setTime q0 9000 36001000) base) = .next t)
    ∧ HighWaterSet (withQueue .settlingEnd (settling 50)) ∧ ∃ t, step (withQueue .settlingEnd (settling 50)) = .next t :=
  ⟨⟨fun _ _ => by decide, fun _ h => absurd h (by decide)⟩, step_next (by decide), ⟨fun h => absurd h (by decide), fun _ _ _ => by decide⟩, step_next (by decide)⟩

/-- A disabled zone; an enabled one without a holder, and with one; each row of the time states. -/
theorem witness_DerivedItemsFollowState : (zoned.zoneRec 0).enabled = false ∧ ((zoned.zoneRec 16).enabled = true ∧ (zoned.zone 16).holder = none)
    ∧ ((ringing.zoneRec 16).enabled = true ∧ ((ringing.zone 16).holder.map (·.who)) = some (.bell 0))
    ∧ (let tb := { refIn.tb with refLost := true }; tb.campus ≠ none ∧ tb.refMode = .pulse ∧ tb.refLost = true)
    ∧ (let tb := { base.tb with pc := 1 }; tb.campus ≠ none ∧ ¬ (tb.refMode = .pulse ∧ tb.refLost = true) ∧ tb.pc ≠ 0)
    ∧ (refIn.tb.campus ≠ none ∧ refIn.tb.refLost = false ∧ refIn.tb.pc = 0 ∧ refIn.tb.refMode = .pulse)
    ∧ (base.tb.campus ≠ none ∧ base.tb.pc = 0 ∧ base.tb.refMode = .off) := by decide

theorem witness_DerivedItemsFollowState_silence : FireSilence onFire ∧ onFire.za.fireReported = true :=
  ⟨fireSilence_of (by decide) (by decide) (by decide), by decide⟩

def outputsOf (f : OutFunc) : State := { ringing with io := { ringing.io with outputs := ringing.io.outputs.set 0 ⟨f, true, none⟩ } }
theorem witness_DerivedItemsFollowState_outputs : State.reset.running = false
    ∧ (base.running = true ∧ base.io.outFunc 0 = .plain)
    ∧ ((outputsOf .zone).running = true ∧ (outputsOf .zone).io.outFunc 0 = .zone)
    ∧ ((outputsOf .drillLamp).running = true ∧ (outputsOf .drillLamp).io.outFunc 0 = .drillLamp)
    ∧ (base.running = true ∧ base.io.outFunc 11 = .trouble) ∧ base.io.safetyPair = true := by decide

/-- Announcement 0, and the drill of the tests, hold the feed of building 2. -/
def fedBy (w : Claimant) (s : State) : State := { s with za := { s.za with feeds := s.za.feeds.set 2 (some ⟨w, 5⟩) } }
def annOf (s : State) : Ann := (s.ann? 0).getD (protoAnn (.entry 0) 0 0 .toneOnly none 0 false 0 false false)
def toned : State := { chiming with
  dc := { chiming.dc with active := some ⟨1, { drillRec1 with tone := true }, .entry 0, .sounding, 100000, some 0, true, [], [], false⟩ }
  au := { chiming.au with channels := chiming.au.channels.set 0 { chiming.channel 0 with owner := some .drill, drillCad := some ⟨31, 100000, 60000⟩ } } }
theorem witness_DerivedItemsFollowState_feeds : base.za.feeds.getD 7 none = none
    ∧ (let s := fedBy (.ann 0) chiming; s.za.feeds.getD 2 none = some ⟨.ann 0, 5⟩ ∧ s.ann? 0 = some (annOf s) ∧ (annOf s).channel = some 0)
    ∧ (let s := fedBy (.drill 1) toned; s.za.feeds.getD 2 none = some ⟨.drill 1, 5⟩ ∧ (s.dc.active.bind (·.channel)) = some 0) := by decide

theorem witness_RegisterWritesTakeEffect : (detached.supply.main = true ∧ detached.ri.link = .detached) ∧ (base.supply.main = true ∧ base.ri.link ≠ .detached) := by
  decide

theorem witness_RunAttachesAndDetaches : (detached.supply.main = true ∧ detached.ri.link = .detached)
    ∧ (let s := State.linked .attaching [.hostFields] base; s.supply.main = true ∧ s.ri.link = .attaching)
    ∧ (ringing.supply.main = true ∧ ringing.ri.link = .attached ∧ ringing.au.anns = []) := by decide

def scanning : State := { base with ri := { base.ri with scan := .scanning, scanAt := 99000 } }
theorem witness_ScansAndLinkTimersTakeEffect_scans : (base.running = true ∧ base.ri.link = .attached ∧ base.ri.scan = .idle ∧ base.ri.scanAt + 1000 ≤ base.elapsed)
    ∧ (scanning.running = true ∧ scanning.ri.link = .attached ∧ scanning.ri.scan ≠ .idle ∧ scanning.ri.scanAt + 1000 ≤ scanning.elapsed) := by decide

def heldBack : State := { base with ri := { base.ri with hold := [aRecord], pollAt := 99900, blockAt := 99000 } }
theorem witness_ScansAndLinkTimersTakeEffect_timers : (heldBack.running = true ∧ heldBack.ri.link = .attached ∧ heldBack.ri.pollAt + 100 ≤ heldBack.elapsed ∧ heldBack.ri.hold ≠ [])
    ∧ heldBack.ri.blockAt + 1000 ≤ heldBack.elapsed := by decide

theorem witness_RequestsTouchOnlyTheirSlot : (reqHdr? (.setTrim q32 0) = some q32 ∧ base.reaches q32 = false)
    ∧ (reqHdr? (.ring q0 ringP) = some q0 ∧ LogSound zoned.ri ∧ zoned.ri.link = .attached ∧ ∃ t, exec (.ring q0 ringP) zoned = .next t) :=
  ⟨by decide, by decide, logSound_of (by decide), by decide, exec_next (by decide)⟩

theorem base_ready : base.reaches q0 = true ∧ LogSound base.ri ∧ Counts base := ⟨by decide, logSound_of (by decide), counts_of (by decide)⟩

/-- Both clauses of a change of flags: one that changes none, one that changes some. -/
theorem witness_SetFlagsChangesEachFlag : base.reaches q0 = true ∧ flagChange 0 0 base.begin.st.dp.flags = base.begin.st.dp.flags
    ∧ flagChange 1 0 base.begin.st.dp.flags ≠ base.begin.st.dp.flags := by decide

/-- The ends of the range and the values beside them. -/
theorem witness_SetTrimClampsAndAnswers : base.reaches q0 = true ∧ ((-5000 : Int) ≤ -5000 ∧ (-5000 : Int) ≤ 5000) ∧ ((-5001 : Int) < -5000) ∧ ((5000 : Int) < 5001) := by
  decide

theorem witness_SetReferenceTakesEffect : (base.reaches q0 = true ∧ LogSound base.ri ∧ base.tb.refMode = .off)
    ∧ (refIn.reaches q0 = true ∧ LogSound refIn.ri ∧ refIn.tb.refMode = .pulse) ∧ 1 < 2 ∧ 1 ≤ 1 :=
  ⟨⟨by decide, logSound_of (by decide), by decide⟩, ⟨by decide, logSound_of (by decide), by decide⟩, by decide⟩

def unset : State := { base with tb := TimeBase.cold }
/-- Beyond the range; from UNSET; at the slew limit and beyond it; a difference of 499 ms in PULSE. -/
theorem witness_SetTimeTakesEffect : (base.reaches q0 = true ∧ LogSound base.ri ∧ 36524 < 36525 ∧ 86399999 < 86400000)
    ∧ (unset.reaches q0 = true ∧ LogSound unset.ri ∧ unset.tb.campus = none)
    ∧ (base.tb.campus = some ⟨9000, 36000000⟩ ∧ base.tb.refMode = .off
      ∧ ((CampusTime.lin ⟨9000, 36002000⟩ : Int) - CampusTime.lin ⟨9000, 36000000⟩).natAbs ≤ base.tb.slewLimit
      ∧ base.tb.slewLimit < ((CampusTime.lin ⟨9000, 36002001⟩ : Int) - CampusTime.lin ⟨9000, 36000000⟩).natAbs)
    ∧ (refIn.reaches q0 = true ∧ LogSound refIn.ri ∧ refIn.tb.campus = some ⟨9000, 36000497⟩ ∧ refIn.tb.refMode = .pulse
      ∧ ((CampusTime.lin ⟨9000, 36000996⟩ : Int) - CampusTime.lin ⟨9000, 36000497⟩).natAbs < 500) :=
  ⟨⟨by decide, logSound_of (by decide), by decide⟩, ⟨by decide, logSound_of (by decide), by decide⟩, by decide,
    by decide, logSound_of (by decide), by decide⟩
/-- In PULSE: a difference of 1,503 ms is rounded to 2,000, and one of 500 to 1,000; at 600 ms before the end 600 is rounded to 1,000, which is moved to 0; at 1,600 ms
before it 1,600 is rounded to 2,000, which is moved to 1,000. -/
theorem witness_SetTimeTakesEffect_pulse : (∀ x : Int × Int, x ∈ [(1503, 2000), (500, 1000), (-500, -1000), (600, 1000), (1600, 2000)] → 500 ≤ x.1.natAbs ∧ x.2 % 1000 = 0
      ∧ 2 * (x.1 - x.2).natAbs ≤ 1000 ∧ (2 * (x.1 - x.2).natAbs = 1000 → x.1.natAbs < x.2.natAbs))
    ∧ (refIn.reaches q0 = true ∧ LogSound refIn.ri ∧ refIn.tb.refMode = .pulse ∧ CampusTime.lin ⟨9000, 36000497⟩ ≤ lastLin
      ∧ 0 ≤ (CampusTime.lin ⟨9000, 36000497⟩ : Int) + 2000 ∧ (CampusTime.lin ⟨9000, 36000497⟩ : Int) + 2000 ≤ lastLin)
    ∧ (¬ ((CampusTime.lin ⟨36524, 86399399⟩ : Int) + 1000 ≤ lastLin) ∧ (1000 - 1000 : Int) = 0)
    ∧ (¬ ((CampusTime.lin ⟨36524, 86398399⟩ : Int) + 2000 ≤ lastLin) ∧ (2000 - 1000 : Int) ≠ 0) :=
  ⟨by decide, ⟨by decide, logSound_of (by decide), by decide⟩, by decide, by decide⟩

theorem zoned_free : FreeZone 16 zoned := ⟨by decide, by decide, by decide, by decide, by decide, by decide⟩
/-- Group 5 is zone 16, and these entries are ACTIVE. -/
def sched (es : List Entry) (s : State) : State := { s with
  se := { s.se with active := ⟨es, 120⟩ }
  za := { s.za with groups := s.za.groups.set 5 0x10000 } }
def bellAt (time : Nat) : Entry := ⟨time, 1, none, .bell 5 3 6 10 300⟩
def flagsAt (time : Nat) (c : Option Condition) (m1 m2 : Set8) : Entry := ⟨time, 1, c, .flags m1 m2⟩
theorem bellReady_of (es : List Entry) : BellReady 5 3 16 0 (sched es zoned) :=
  ⟨(by decide : (zoned.pattern 3).steps ≠ []), (by decide : (sched [] zoned).group 5 = BitVec.twoPow 64 16),
    ⟨zoned_free.range, zoned_free.counted, zoned_free.enabled, zoned_free.silentLine, zoned_free.noHolder, zoned_free.noFire⟩,
    noWaiters_of (s := zoned) (by decide), (by decide : freeBell zoned.pu.bells = some 0)⟩
/-- The bank of day 9001 waits, its day has a profile of its own, and today's profile is set by hand. -/
def planned : State := let s := sched [bellAt 36005] zoned
  { s with
    dp := { s.dp with profiles := s.dp.profiles.set 4 ⟨7, 0x0F, 3⟩, calendar := [⟨9001, 9010, 0x7F, 4⟩], flags := 0x3C, override := some ⟨2, 9000⟩ }
    se := { s.se with profile := 2, waiting := some ⟨⟨[bellAt 40000], 60⟩, 9001⟩ } }
theorem base_rest : CircuitsAtRest base := by
  unfold CircuitsAtRest
  decide
/-- A step to 10:00:10 from H at 10:00:00: to no later than H, over FLAGS entries, over a bell's entry within its window and past it, over one that is not selected, and
onto the next day. -/
theorem witness_ScheduleStepped : base.se.mark = some ⟨9000, 36000000⟩ ∧ unset.tb.campus = none ∧ CircuitsAtRest base
    ∧ ((CampusTime.lin ⟨9000, 36000000⟩ : Int) ≤ HighWater.lin ⟨9000, 36000000⟩) ∧ HighWater.lin ⟨9000, 36000000⟩ < (CampusTime.lin ⟨9000, 36010000⟩ : Int)
    ∧ (∀ e, e ∈ [flagsAt 36001 none 1 0, flagsAt 36010 (some ⟨0, true⟩) 2 0] → e.dueBy ⟨9000, 36000000⟩ ⟨9000, 36010000⟩ ∧ ∃ m1 m2, e.kind = .flags m1 m2)
    ∧ (let s := sched [bellAt 36005] zoned; OnlyDue 0 (bellAt 36005) ⟨9000, 36000000⟩ ⟨9000, 36125000⟩ s ∧ (bellAt 36005).selectedBy s.se.profile s.dp.flags
      ∧ 36125000 / 1000 ≤ (bellAt 36005).time + s.se.active.window ∧ (bellAt 36005).time + s.se.active.window < 36126000 / 1000 ∧ BellReady 5 3 16 0 s)
    ∧ (let e := { bellAt 36005 with profiles := 2 }; OnlyDue 0 e ⟨9000, 36000000⟩ ⟨9000, 36010000⟩ (sched [e] zoned) ∧ ¬ e.selectedBy 0 0)
    ∧ (planned.se.mark = some ⟨9000, 36000000⟩ ∧ 9000 < 9001
      ∧ ∀ e, e ∈ (planned.se.rolled ⟨9001, 39999999⟩ planned.dp.calendar).active.entries → 39999999 < 1000 * e.time) := by
  refine ⟨by decide, by decide, base_rest, by decide, by decide, fun e he => ?_, ⟨onlyDue_of (by decide) rfl (by decide), ⟨by decide, fun c hc => by cases hc⟩,
    by decide, by decide, bellReady_of _⟩, ⟨onlyDue_of (by decide) rfl (by decide), fun h => absurd h.1 (by decide)⟩, by decide, by decide, by decide⟩
  rcases List.mem_cons.mp he with rfl | h
  · exact ⟨by decide, 1, 0, rfl⟩
  · rw [List.mem_singleton.mp h]
    exact ⟨by decide, 2, 0, rfl⟩

def summerRule : DstRule := ⟨3, 5, 2, 10, 5, 3, 60⟩
/-- NONE, by 1 and by 255; an offset of 121; equal months; the ends of the ranges; a rule that changes the offset in force
on day 9000, and NONE, which does not. -/
theorem witness_SetDstRuleTakesEffect : base.reaches q0 = true ∧ LogSound base.ri ∧ base.tb.campus = some ⟨9000, 36000000⟩ ∧ (1 ≠ 0 ∧ 0xFF ≠ 0)
    ∧ dstInRange ⟨0, 3, 5, 2, 10, 5, 3, 121⟩ = false ∧ dstInRange ⟨0, 3, 5, 2, 3, 5, 3, 60⟩ = true ∧ dstInRange ⟨0, 3, 5, 2, 10, 5, 3, 60⟩ = true
    ∧ CircuitsAtRest base ∧ offsetAt (some summerRule) (some (transitionsOf summerRule (yearOf 9000))) (CampusTime.lin ⟨9000, 36000000⟩) ≠ base.tb.offset ∧ unset.tb.campus = none
    ∧ offsetAt none none (CampusTime.lin ⟨9000, 36000000⟩) = base.tb.offset :=
  ⟨by decide, logSound_of (by decide), by decide, by decide, by decide, by decide, by decide, base_rest, by decide, by decide, by decide⟩

/-- The greatest table of each kind, ending with the free area, and no load in progress. -/
theorem witness_LoadsBegin : base.reaches q0 = true ∧ (loadable 16 16 0xFFFC0 4 ∧ base.dp.profileLoad = none)
    ∧ (loadable 96 96 0xFFDC0 6 ∧ base.dp.calendarLoad = none) ∧ (loadable 64 64 0xFFF00 4 ∧ base.za.zoneLoad = none ∧ base.zonesQuiet = true)
    ∧ (loadable 64 64 0xFFFC0 1 ∧ base.za.groupLoad = none) ∧ (loadable 31 31 0xFF784 70 ∧ base.pu.load = none ∧ patternsInUse base = false)
    ∧ (loadable 4 4 0xFFFE8 6 ∧ base.au.load = none ∧ channelsInUse base = false) ∧ (loadable 8 8 0xFFFC0 8 ∧ base.dc.load = none ∧ base.dc.active = none)
    ∧ (loadable 4 4 0xFFFE0 8 ∧ base.cu.load = none) ∧ (loadable 8 8 0xFFFC0 8 ∧ base.lc.lineLoad = none)
    ∧ (loadable 320 320 0xFF100 12 ∧ base.lc.memberLoad = none ∧ base.zonesUnheld = true) ∧ (loadable 1 1 0xFFFA8 88 ∧ base.io.load = none)
    ∧ (loadable 1024 1024 0xFB000 20 ∧ base.se.switch = none) := by
  unfold loadable
  and_intros <;> decide

/-- A switch for the day after H, and for the last day; one to a day before is not this case. -/
theorem witness_LoadsBegin_days : loadable 1024 1024 0xFB000 20 ∧ base.se.switch = none ∧ base.tb.campus ≠ none ∧ 36525 ≤ 36525 ∧ (∀ h, base.se.mark = some h → h.day < 9001) := by
  refine ⟨by unfold loadable; decide, by decide, by decide, by decide, fun h e => ?_⟩
  have := Option.some.inj ((show base.se.mark = some ⟨9000, 36000000⟩ from rfl).symm.trans e)
  rw [← this]
  decide
/-- A table of no records may lie at the very end of the region. -/
theorem witness_LoadsBegin_empty : LogSound base.ri ∧ Counts base ∧ BareLines base ∧ StagedAt 0x100000 0 ∧ base.dp.profileLoad = none ∧ base.dp.calendarLoad = none
    ∧ base.za.zoneLoad = none ∧ base.za.groupLoad = none ∧ base.zonesQuiet = true ∧ base.pu.load = none ∧ patternsInUse base = false ∧ base.au.load = none
    ∧ channelsInUse base = false ∧ base.dc.load = none ∧ base.dc.active = none ∧ base.cu.load = none ∧ base.lc.lineLoad = none ∧ base.lc.memberLoad = none
    ∧ base.zonesUnheld = true ∧ base.se.switch = none ∧ base.se.mark = some ⟨9000, 36000000⟩ ∧ 9000 < 9001 ∧ 36525 ≤ 36525 :=
  ⟨logSound_of (by decide), counts_of (by decide), bareLines_of (by decide), by unfold StagedAt; decide, by and_intros <;> decide⟩

def overridden : State := { base with dp := { base.dp with override := some ⟨5, 9000⟩ }, se := { base.se with profile := 5 } }
theorem witness_SetTodayProfileTakesEffect : (base.reaches q0 = true ∧ LogSound base.ri ∧ 15 < 16 ∧ 16 ≠ 0xFF ∧ 15 ≤ 15 ∧ base.tb.campus ≠ none)
    ∧ (unset.reaches q0 = true ∧ LogSound unset.ri ∧ unset.tb.campus = none) ∧ base.dp.override = none
    ∧ (overridden.reaches q0 = true ∧ LogSound overridden.ri ∧ overridden.tb.campus ≠ none ∧ overridden.dp.override ≠ none) :=
  ⟨⟨by decide, logSound_of (by decide), by decide⟩, ⟨by decide, logSound_of (by decide), by decide⟩, by decide, by decide, logSound_of (by decide), by decide⟩

theorem drilled_free : FreeZone 16 drilled := ⟨by decide, by decide, by decide, by decide, by decide, by decide⟩

/-- The ends of the level's range, at pattern 3 and at the fixed pattern 31. -/
theorem witness_RingSoundsAFreeZone : zoned.reaches q0 = true ∧ LogSound zoned.ri ∧ NoWaiters zoned ∧ FreeZone 16 zoned ∧ ringP.targetKind = 1
    ∧ ringP.zones = BitVec.twoPow 64 16 ∧ ringP.pattern ≤ 31 ∧ 2 ≤ ringP.level ∧ ringP.level ≤ 9 ∧ (zoned.pattern ringP.pattern).steps ≠ []
    ∧ (zoned.pattern 31).steps ≠ [] ∧ freeBell zoned.pu.bells = some 0 :=
  ⟨by decide, logSound_of (by decide), noWaiters_of (by decide), zoned_free, by decide⟩
/-- All 64 bell numbers are taken. -/
def fullOfBells : State := { zoned with pu := { zoned.pu with bells := (List.range 64).map fun n => ⟨n, .ring 0, 3, 6, 0, 300, [], false⟩ } }
/-- The nearest values out of range; a kind, a pattern, a zone set and a group that are none. -/
theorem witness_RingSoundsAFreeZone_refused : (1 < 2 ∧ 9 < 10 ∧ 31 < 32 ∧ 63 < 64) ∧ 1 < 2 ∧ (zoned.pattern 30).steps = [] ∧ zoned.group 63 = 0
    ∧ (fullOfBells.reaches q0 = true ∧ LogSound fullOfBells.ri ∧ ringP.zones ≠ 0 ∧ ∀ n, n < 64 → ∃ b, b ∈ fullOfBells.pu.bells ∧ b.num = n) :=
  ⟨by decide, by decide, by decide, by decide, by decide, logSound_of (by decide), by decide, fun n hn => ⟨⟨n, .ring 0, 3, 6, 0, 300, [], false⟩,
    List.mem_map.mpr ⟨n, List.mem_range.mpr hn, rfl⟩, rfl⟩⟩

theorem contest_of {z : Nat} {s : State} (hc : Counts s) (hz : (decide (z < 64) && (s.zoneRec z).enabled && !s.za.fireReported
      && (s.zone z).holder.all fun h => decide (h.who ≠ .fire)) = true) (hw : ((s.za.zones.set z ZoneDyn.clear).all fun d => d.waiters.isEmpty) = true)
    (hs : (s.za.table.all fun r => !r.sounds) = true)
    (hb : (s.lc.lines.all fun l => l.queue.isEmpty && l.inFlight.isNone && l.deferred.isEmpty && l.nodes.isEmpty) = true) : Contest z s := by
  simp only [Bool.and_eq_true, decide_eq_true_eq, Bool.not_eq_true'] at hz
  refine ⟨hc, hz.1.1.1, hz.1.1.2, ⟨hz.1.2, fun h e => ?_⟩, noWaitersBut_of hw, fun y => ?_, bareLines_of hb⟩
  · have := hz.2
    simpa [e] using this
  · have h : (!(s.zoneRec y).sounds) = true := getD_all (d := ZoneRec.blank) (p := fun r => !r.sounds) hs rfl y
    simpa using h
def bellAt16 (s : State) : Bell := (s.bell? 0).getD ⟨0, .push 0, 0, 0, 0, 0, [], false⟩
def claimAt (z : Nat) (s : State) : Claim := ((s.zone z).holder).getD ⟨.fire, 0, false, false, none, .leave, none, 0, 0⟩
/-- Bell 0 at level 6 holds zone 16, and may wait for it until its deadline, which is at 110,000. -/
theorem witness_ContestedZonesGoByLevel : (let s := ringing; Contest 16 s ∧ LogSound s.ri ∧ BellHolds 0 16 110000 (bellAt16 s) ⟨16, .sounding, true, 100000⟩ (claimAt 16 s) s
      ∧ s.elapsed < 110000 ∧ (s.zone 16).waiters = [] ∧ s.reaches q1 = true ∧ ringP.zones = BitVec.twoPow 64 16 ∧ freeBell s.pu.bells = some 1 ∧ 5 < (claimAt 16 s).level
      ∧ (claimAt 16 s).level ≤ 6)
    ∧ (let s := State.later 10000 ringing; Contest 16 s ∧ BellHolds 0 16 110000 (bellAt16 s) ⟨16, .sounding, true, 100000⟩ (claimAt 16 s) s ∧ 110000 ≤ s.elapsed)
    ∧ (let s := { ringing with dc := drilled.dc }; Contest 16 s ∧ LogSound s.ri ∧ BellHolds 0 16 110000 (bellAt16 s) ⟨16, .sounding, true, 100000⟩ (claimAt 16 s) s
      ∧ drillRefusal s 1 = none ∧ drillZones s drillRec1 = [16] ∧ 1 < (claimAt 16 s).level)
    ∧ (let s := State.later 3000 queued; Contest 16 s ∧ BellHolds 0 16 110000 (bellAt16 s) ⟨16, .sounding, true, 100000⟩ (claimAt 16 s) s
      ∧ 100000 + (bellAt16 s).length ≤ s.elapsed ∧ ((s.zone 16).waiters.map (·.who)) = [.bell 1] ∧ ((s.bell? 1).map (·.zones)) = some [⟨16, .waiting, false, 0⟩]) :=
  ⟨⟨contest_of (counts_of (by decide)) (by decide) (by decide) (by decide) (by decide), logSound_of (by decide), ⟨by decide, by decide, rfl, rfl, by decide, by decide, by decide, by decide,
      by decide⟩, by decide⟩,
    ⟨contest_of (counts_of (by decide)) (by decide) (by decide) (by decide) (by decide), ⟨by decide, by decide, rfl, rfl, by decide, by decide, by decide, by decide, by decide⟩, by decide⟩,
    ⟨contest_of (counts_of (by decide)) (by decide) (by decide) (by decide) (by decide), logSound_of (by decide), ⟨by decide, by decide, rfl, rfl, by decide, by decide, by decide, by decide,
      by decide⟩, by decide⟩,
    ⟨contest_of (counts_of (by decide)) (by decide) (by decide) (by decide) (by decide), ⟨by decide, by decide, rfl, rfl, by decide, by decide, by decide, by decide, by decide⟩, by decide⟩⟩
/-- A claim of bell 9 at a level, which may wait; a speaking one of announcement 9; four waiters of zone 16, at levels 7 and 8; zone 17 of the same building, in which announcement 0,
at level 5, holds the feed from zone 16; and zone 17 reserved for announcement 3 at level 6. -/
def claimOf9 (level : Nat) : Claim := ⟨.bell 9, level, false, true, some 200000, .waitUntil 200000, none, 0, 0⟩
def pageOf (n level arrival : Nat) : Claim := ⟨.ann n, level, true, true, none, .waitFor 1000, none, arrival, 0⟩
def fourWait : State := ringing.setZone 16 fun d => { d with waiters := [(7, 1), (7, 2), (8, 3), (8, 4)].map fun p => { claimOf9 p.1 with who := .bell (20 + p.2), arrival := 0 } }
def fed : State := { chiming with za := { chiming.za with
  table := chiming.za.table.set 17 ⟨true, 2, 1, false, false, true⟩
  feeds := chiming.za.feeds.set 2 (some ⟨.ann 0, 5⟩) } }
def reservedFor : State := fed.setZone 17 fun d => { d with waiters := [pageOf 3 6 0], reserved := some (.ann 3) }
theorem feedHeld_fed {s : State} (ht : s.za.table = fed.za.table) (hf : s.za.feeds = fed.za.feeds)
    (h : (s.za.zones.all fun d => d.holder.all fun h => decide (h.who ≠ .ann 0) || (h.speaking && h.level == 5 && d.reserved.isNone)) = true)
    (h16 : (s.za.zones.zipIdx.all fun p => p.1.holder.isNone || p.2 == 16) = true) (hh : ((s.zone 16).holder.map (·.who)) = some (.ann 0)) : FeedHeld 2 ⟨.ann 0, 5⟩ s := by
  refine ⟨by decide, by rw [hf]; decide, fun y x hx hw _ => ?_, ⟨16, (s.zone 16).holder.getD (pageOf 0 0 0), by decide, ?_, ?_, ?_⟩⟩
  · have h1 := getD_all (d := ZoneDyn.clear) h rfl y
    have hx' : (s.za.zones.getD y ZoneDyn.clear).holder = some x := hx
    simp only [hx', Option.all_some, hw, ne_eq, not_true_eq_false, decide_false, Bool.false_or, Bool.and_eq_true, beq_iff_eq, Option.isNone_iff_eq_none] at h1
    refine ⟨h1.1.1, h1.1.2, ?_, h1.2⟩
    have hy : y = 16 := by
      by_cases e : y < s.za.zones.length
      · have := List.all_eq_true.mp h16 (s.za.zones[y], y) (by rw [List.mem_zipIdx_iff_getElem?]; simp [e])
        have hg : s.za.zones.getD y ZoneDyn.clear = s.za.zones[y] := by simp [List.getD_eq_getElem?_getD, e]
        rw [hg] at hx'
        simpa [hx'] using this
      · have : s.za.zones.getD y ZoneDyn.clear = ZoneDyn.clear := by simp [List.getD_eq_getElem?_getD, Nat.not_lt.mp e]
        rw [this] at hx'
        cases hx'
    subst hy
    show (s.za.table.getD 16 ZoneRec.blank).enabled = true
    rw [ht]; decide
  · cases e : (s.zone 16).holder with
    | none => rw [e] at hh; cases hh
    | some x => rfl
  · cases e : (s.zone 16).holder with
    | none => rw [e] at hh; cases hh
    | some x => rw [e] at hh; simpa using hh
  · show (s.za.table.getD 16 ZoneRec.blank).building = 2
    rw [ht]; decide
theorem witness_ContestedZonesGoByLevel_claims : (Contest 16 ringing.begin.st ∧ 5 < (claimAt 16 ringing).level ∧ (claimAt 16 ringing).who ≠ (claimOf9 5).who)
    ∧ (Contest 16 fourWait.begin.st ∧ (claimAt 16 fourWait).level ≤ 7 ∧ (∀ w, w ∈ (fourWait.zone 16).waiters → w.who ≠ .bell 9) ∧ (fourWait.zone 16).waiters.length = 4
      ∧ ∀ w, (fourWait.zone 16).waiters.getLast? = some w → w.level ≤ 8 ∧ 7 < w.level)
    ∧ (Contest 17 fed.begin.st ∧ FeedHeld 2 ⟨.ann 0, 5⟩ fed.begin.st ∧ (fed.zoneRec 17).building = 2 ∧ (fed.zone 17).holder = none ∧ (pageOf 9 5 0).who ≠ .ann 0 ∧ 5 ≤ (pageOf 9 5 0).level
      ∧ (pageOf 9 4 0).level < 5)
    ∧ (Contest 17 reservedFor.begin.st ∧ FeedHeld 2 ⟨.ann 0, 5⟩ reservedFor.begin.st ∧ (reservedFor.zone 17).reserved = some (.ann 3) ∧ 5 ≤ (pageOf 3 6 0).level) :=
  ⟨⟨contest_of (counts_of (by decide)) (by decide) (by decide) (by decide) (by decide), by decide, by decide⟩,
    ⟨contest_of (counts_of (by decide)) (by decide) (by decide) (by decide) (by decide), by decide, by decide, by decide, fun w h => by
      have e : (fourWait.zone 16).waiters.getLast? = some { claimOf9 8 with who := .bell 24, arrival := 0 } := by decide
      rw [e] at h; cases h; decide⟩,
    ⟨contest_of (counts_of (by decide)) (by decide) (by decide) (by decide) (by decide), feedHeld_fed rfl rfl (by decide) (by decide) (by decide), by decide⟩,
    contest_of (counts_of (by decide)) (by decide) (by decide) (by decide) (by decide), feedHeld_fed rfl rfl (by decide) (by decide) (by decide), by decide⟩
/-- A better bell takes the zone and the other waits; a better page takes the feed, and the page that had it keeps its place with a reservation. -/
theorem test_contested : after (.ring q1 { ringP with level := 5 }) ringing (fun t => (t.zone 16).holder.map (·.who) = some (.bell 1)
      && (t.zone 16).waiters.map (fun w => (w.who, w.waitLimit)) = [(.bell 0, some 110000)]) = true
    ∧ ((claim 17 (pageOf 9 4 0) fed.begin).st.zone 17).holder.map (·.who) = some (.ann 9) ∧ ((claim 17 (pageOf 9 4 0) fed.begin).st.zone 16).holder = none
    ∧ ((claim 17 (pageOf 9 5 0) fed.begin).st.zone 17).reserved = some (.ann 9) := by decide

theorem witness_AnnounceChimesOnAFreeZone : zoned.reaches q0 = true ∧ LogSound zoned.ri ∧ Counts zoned ∧ NoWaiters zoned ∧ FreeZone 16 zoned ∧ BareLines zoned
    ∧ (∀ b, zoned.za.feeds.getD b none = none) ∧ freeChannel? zoned = some 0 ∧ zoned.au.anns.length < 12 ∧ chimeP.targetKind = 1
    ∧ chimeP.zones = BitVec.twoPow 64 16 ∧ 2 ≤ chimeP.level ∧ chimeP.level ≤ 9 ∧ chimeP.source = 3 ∧ chimeP.chime ≤ 31
    ∧ (zoned.pattern chimeP.chime).steps ≠ [] ∧ chimeP.onPreempt ≤ 1 ∧ chimeP.lateJoin ≤ 1 ∧ chimeP.wait ≤ 1 :=
  ⟨by decide, logSound_of (by decide), counts_of (by decide), noWaiters_of (by decide), zoned_free, bareLines_of (by decide), noFeed_of (by decide), by decide⟩

/-- Announcement 0 ends alone. -/
def endsAlone (s : State) (a : Ann) : Bool := s.ann? 0 = some a && a.st ≠ .waiting && a.st ≠ .ending && a.channel = some 0
  && (s.za.zones.length == 64 && s.za.feeds.length == 8 && s.au.channels.length == 4
    && s.cu.circuits.length == 4 && s.lc.lines.length == 8 && s.io.inputs.length == 12 && s.io.outputs.length == 12)
  && (!(a.isBlocks && a.block.isSome && s.ri.link = .attached) || (a.consumedBegun && a.access.isNone)) && (s.za.zones.all fun d => d.waiters.isEmpty) && s.au.waitList = []
  && (s.lc.lines.all fun l => l.queue.isEmpty && l.inFlight.isNone && l.deferred.isEmpty && l.nodes.isEmpty)
  && (s.za.zones.all fun d => d.holder.all fun h => h.who ≠ .ann 0 || h.sound.isNone)

theorem endsAlone_of {s : State} {a : Ann} (h : endsAlone s a = true) : EndsAlone 0 0 a s := by
  unfold endsAlone at h
  simp only [Bool.and_eq_true, Bool.or_eq_true, decide_eq_true_eq, Bool.not_eq_true', Bool.and_eq_false_imp] at h
  obtain ⟨⟨⟨⟨⟨⟨⟨⟨⟨h1, h2⟩, h3⟩, h4⟩, h5⟩, h6⟩, h7⟩, h8⟩, h9⟩, h10⟩ := h
  refine ⟨counts_of (by simpa using h5), h1, ⟨h2, h3⟩, ⟨h4, by decide⟩, ?_, noWaiters_of h7, h8, bareLines_of h9, fun z x hx hw => ?_⟩
  · rcases h6 with h6 | h6
    · refine Or.inl fun x => ?_
      have := h6 ⟨x.1, x.2.1⟩
      simp [x.2.2] at this
    · exact Or.inr ⟨h6.1, by simpa using h6.2⟩
  · have := holders_of h10 z x hx
    simp only [hw, ne_eq, not_true_eq_false, decide_false, Bool.false_or, Option.isNone_iff_eq_none] at this
    exact this

/-- The nearest values out of range, a bad value of each field, an offset that is no multiple of 4 and one that leaves the region, twelve announcements, a second one of
a live source, and every channel owned by an announcement no weaker than the new one. -/
def twelve : State := { zoned with au := { zoned.au with anns := List.replicate 12 (annOf chiming) } }
def noChannel : State := { chiming with au := { chiming.au with channels := chiming.au.channels.map fun k => { k with owner := some (.ann 0) } } }
theorem witness_AnnounceChimesOnAFreeZone_refused : (63 < 64 ∧ 32 ≠ 0xFF ∧ 31 < 32 ∧ 1 < 2 ∧ 9 < 10) ∧ (3 < 4 ∧ zoned.group 63 = 0 ∧ (zoned.pattern 30).steps = [])
    ∧ (blocksP.source = 0 ∧ ¬ (0x4001 % 4 = 0) ∧ ¬ (0xFFFF4 + 16 ≤ 0x100000) ∧ 0xFFFF0 + 16 ≤ 0x100000)
    ∧ (twelve.reaches q0 = true ∧ LogSound twelve.ri ∧ 12 ≤ twelve.au.anns.length)
    ∧ (talking.reaches q1 = true ∧ LogSound talking.ri ∧ annOf talking ∈ talking.au.anns ∧ (annOf talking).source = .live 0 ∧ liveP.source = 0 + 1)
    ∧ (noChannel.reaches q1 = true ∧ LogSound noChannel.ri ∧ (∀ ch, ch < 4 → (noChannel.channel ch).owner = some (.ann 0)) ∧ noChannel.ann? 0 = some (annOf noChannel)
      ∧ (annOf noChannel).level ≤ chimeP.level ∧ chimeP.wait = 0 ∧ noChannel.au.waitList.length < 8) :=
  ⟨by decide, by decide, by decide, ⟨by decide, logSound_of (by decide), by decide⟩, ⟨by decide, logSound_of (by decide), by decide⟩,
    by decide, logSound_of (by decide), by decide⟩

/-- BLOCKS plays with its header's read in flight; the link is in FAULT. -/
def faulted : State := run1 (.regionAccessBusError 0x3000) base
theorem witness_RunAttachesAndDetaches_others : (playing.supply.main = true ∧ playing.ri.link = .attached ∧ playing.au.anns = [annOf playing] ∧ (annOf playing).isBlocks = true
      ∧ EndsAlone 0 0 (annOf playing) { playing with ri := { playing.ri with link := .detached } })
    ∧ (faulted.supply.main = true ∧ faulted.ri.link = .fault ∧ faulted.running = true)
    ∧ (let s := { faulted with supply := ⟨true, true, true, .cold⟩ }; s.supply.main = true ∧ s.ri.link = .fault ∧ s.running = false) :=
  ⟨⟨by decide, by decide, by decide, by decide, endsAlone_of (by decide)⟩, by decide, by decide⟩

theorem witness_EndAnnouncementEndsIt : (base.reaches q0 = true ∧ LogSound base.ri ∧ base.ann? 0 = none)
    ∧ (chiming.reaches q1 = true ∧ LogSound chiming.ri ∧ chiming.ann? 0 = some (annOf chiming) ∧ EndsAlone 0 0 (annOf chiming) chiming)
    ∧ (waitingAnn.reaches q1 = true ∧ LogSound waitingAnn.ri ∧ (waitingAnn.ann? 0).map (·.st) = some .waiting)
    ∧ (let s := chiming.setAnn 0 fun a => { a with st := .ending }; s.reaches q1 = true ∧ LogSound s.ri ∧ (s.ann? 0).map (·.st) = some .ending) :=
  ⟨⟨by decide, logSound_of (by decide), by decide⟩, ⟨by decide, logSound_of (by decide), by decide, endsAlone_of (by decide)⟩,
    ⟨by decide, logSound_of (by decide), by decide⟩, by decide, logSound_of (by decide), by decide⟩

theorem witness_StartDrillEvacuatesAFreeZone : (drilled.reaches q0 = true ∧ LogSound drilled.ri ∧ 7 < 8 ∧ (drilled.dc.records.getD 7 DrillRec.undefined).defined = false)
    ∧ (drilled.dc.records.getD 1 DrillRec.undefined = drillRec1 ∧ drillRefusal drilled 1 = none ∧ drillRec1.tone = false
      ∧ drillZones drilled drillRec1 = [16] ∧ FreeZone 16 drilled ∧ NoWaiters drilled)
    ∧ (let s := { drilled with tb := TimeBase.cold }; s.reaches q0 = true ∧ s.tb.campus = none)
    ∧ (let s := { drilled with dc := { drilled.dc with silenceHeld := true } }; s.reaches q0 = true ∧ s.tb.campus ≠ none ∧ s.dc.silenceHeld = true)
    ∧ (drilling.reaches q0 = true ∧ LogSound drilling.ri ∧ drilling.tb.campus ≠ none ∧ drilling.dc.fireActive = false ∧ drilling.dc.silenceHeld = false
      ∧ drilling.dc.active ≠ none) :=
  ⟨⟨by decide, logSound_of (by decide), by decide⟩, ⟨by decide, by decide, by decide, by decide, drilled_free, noWaiters_of (by decide)⟩, by decide, by decide,
    by decide, logSound_of (by decide), by decide⟩

def drillOf (s : State) : ActiveDrill := s.dc.active.getD ⟨0, drillRec1, .entry 0, .sounding, 0, none, false, [], [], false⟩
theorem witness_DrillRequestsTakeEffect_stop : (base.reaches q0 = true ∧ LogSound base.ri ∧ base.phase? ≠ some .sounding)
    ∧ (drilling.reaches q0 = true ∧ LogSound drilling.ri ∧ drilling.dc.active = some (drillOf drilling) ∧ (drillOf drilling).phase = .sounding
      ∧ (drillOf drilling).tone = false ∧ (drillOf drilling).channel = none ∧ ∀ e, e ∈ (drillOf drilling).zones → (drilling.zoneRec e.zone).sounds = false) :=
  ⟨⟨by decide, logSound_of (by decide), by decide⟩, by decide, logSound_of (by decide), by decide⟩

/-- A drill of buildings without a zone in evacuation. -/
def bareDrill : State := { base with dc := { base.dc with
  active := some ⟨1, drillRec1, .entry 0, .evacuating, 40000, none, false, [], [⟨2, none, none, false⟩, ⟨3, some 20000, none, false⟩], false⟩ } }
/-- Drill 2, whose all-clear pattern is 3 on group 5, sounds in zone 16; and it evacuates without a zone. -/
def clearable : State := run1 (.startDrill q0 2) { drilled with
  dc := { drilled.dc with records := drilled.dc.records.set 2 { drillRec1 with allClear := some 3, group := 5 } }
  za := { drilled.za with groups := drilled.za.groups.set 5 0x10000 } }
def clearableBare : State := { sched [] zoned with dc := { clearable.dc with active := some { drillOf clearable with phase := .evacuating, zones := [] } } }
theorem drillAlone_of {s : State} (hc : Counts s) (hw : NoWaiters s) (ha : s.au.waitList = []) (hb : BareLines s)
    (hz : (s.za.table.all fun r => !r.sounds) = true) (hd : (drillOf s).channel = none) : DrillAlone (drillOf s) s :=
  ⟨hc, hw, ha, hb, fun z _ _ _ => by
    have h : (!(s.zoneRec z).sounds) = true := getD_all (d := ZoneRec.blank) (p := fun r => !r.sounds) hz rfl z
    simpa using h, fun ch e => by rw [hd] at e; cases e⟩
theorem witness_DrillRequestsTakeEffect : (base.reaches q0 = true ∧ LogSound base.ri ∧ base.dc.active = none)
    ∧ (clearing.reaches q1 = true ∧ LogSound clearing.ri ∧ clearing.phase? = some .allClear)
    ∧ (drilling.reaches q1 = true ∧ LogSound drilling.ri ∧ drilling.dc.active = some (drillOf drilling) ∧ (drillOf drilling).phase = .sounding
      ∧ (drillOf drilling).record.allClear = none ∧ ((drilling.zone 16).holder.map (·.who)) = some (.drill (drillOf drilling).num) ∧ DrillAlone (drillOf drilling) drilling)
    ∧ (bareDrill.reaches q0 = true ∧ LogSound bareDrill.ri ∧ bareDrill.dc.active = some (drillOf bareDrill) ∧ (drillOf bareDrill).phase = .evacuating
      ∧ DrillAlone (drillOf bareDrill) bareDrill) :=
  ⟨⟨by decide, logSound_of (by decide), by decide⟩, ⟨by decide, logSound_of (by decide), by decide⟩,
    ⟨by decide, logSound_of (by decide), by decide, by decide, by decide, by decide,
      drillAlone_of (counts_of (by decide)) (noWaiters_of (by decide)) (by decide) (bareLines_of (by decide)) (by decide) (by decide)⟩,
    by decide, logSound_of (by decide), by decide, by decide,
    drillAlone_of (counts_of (by decide)) (noWaiters_of (by decide)) (by decide) (bareLines_of (by decide)) (by decide) (by decide)⟩
theorem witness_DrillRequestsTakeEffect_allClear : (clearable.reaches q1 = true ∧ LogSound clearable.ri ∧ Counts clearable ∧ clearable.dc.active = some (drillOf clearable)
      ∧ (drillOf clearable).phase = .sounding ∧ (drillOf clearable).record.allClear = some 3 ∧ (clearable.pattern 3).steps ≠ []
      ∧ clearable.group (drillOf clearable).record.group = BitVec.twoPow 64 16 ∧ (drillOf clearable).tone = false ∧ (drillOf clearable).channel = none
      ∧ (clearable.zoneRec 16).sounds = false ∧ (clearable.zoneRec 16).speaks = false ∧ ((drillOf clearable).zones.map (·.zone)) = [16]
      ∧ ((clearable.zone 16).holder.map (·.who)) = some (.drill (drillOf clearable).num))
    ∧ (clearableBare.reaches q1 = true ∧ LogSound clearableBare.ri ∧ Counts clearableBare ∧ clearableBare.dc.active = some (drillOf clearableBare)
      ∧ (drillOf clearableBare).phase = .evacuating ∧ (drillOf clearableBare).record.allClear = some 3 ∧ (drillOf clearableBare).zones = []
      ∧ clearableBare.group (drillOf clearableBare).record.group = BitVec.twoPow 64 16 ∧ FreeZone 16 clearableBare ∧ NoWaiters clearableBare) :=
  ⟨⟨by decide, logSound_of (by decide), counts_of (by decide), by decide⟩, by decide, logSound_of (by decide), counts_of (by decide), by decide, by decide, by decide, by decide,
    by decide, ⟨by decide, by decide, by decide, by decide, by decide, by decide⟩, noWaiters_of (by decide)⟩

def quietFire : State := { onFire with dc := { onFire.dc with fireActive := false } }
theorem witness_ResumeReleasesSilence : (onFire.reaches q0 = true ∧ LogSound onFire.ri ∧ onFire.dc.fireActive = true)
    ∧ (quietFire.reaches q0 = true ∧ LogSound quietFire.ri ∧ quietFire.dc.fireActive = false ∧ quietFire.zoneState 16 = .silenced ∧ quietFire.zoneState 0 ≠ .silenced) :=
  ⟨⟨by decide, logSound_of (by decide), by decide⟩, by decide, logSound_of (by decide), by decide⟩

theorem witness_CircuitRequestsTakeEffect : clocks.reaches q0 = true ∧ LogSound clocks.ri ∧ Counts clocks ∧ 3 < 4 ∧ 719 < (clocks.circuit 1).cfg.dial
    ∧ (clocks.circuit 1).cfg.dial ≤ 720 ∧ 1 < 2 ∧ (clocks.circuit 1).st ≠ .off ∧ clocks.tb.campus ≠ none ∧ (clocks.circuit 3).st = .off
    ∧ ({ clocks with tb := TimeBase.cold } : State).tb.campus = none :=
  ⟨by decide, logSound_of (by decide), counts_of (by decide), by decide⟩

/-- A dial whose pulse is on, and one in FAULT; at 10:00 the dial of SET DIAL is behind, ahead and in step. -/
def dialFault : State := behind.setCircuit 1 fun k => { k with st := .fault, openCount := 3, nextAt := none }
theorem witness_CircuitRequestsTakeEffect_decision : (behind.civil = some ⟨9000, 36000000⟩ ∧ (behind.circuit 1).pulse = none ∧ (behind.circuit 1).st ≠ .off)
    ∧ ((pulsing.circuit 1).pulse ≠ none ∧ (pulsing.circuit 1).st ≠ .off ∧ pulsing.reaches q0 = true ∧ LogSound pulsing.ri ∧ Counts pulsing)
    ∧ (dialFault.reaches q0 = true ∧ LogSound dialFault.ri ∧ Counts dialFault ∧ dialFault.civil = some ⟨9000, 36000000⟩ ∧ (dialFault.circuit 1).st = .fault) :=
  ⟨by decide, ⟨by decide, by decide, by decide, logSound_of (by decide), counts_of (by decide)⟩, by decide, logSound_of (by decide), counts_of (by decide), by decide⟩
/-- Pc behind by the catch-up threshold: 599 is one minute behind, 598 two, 660 at the hold limit and 661 past it. -/
theorem test_setDial_decides : ((Circuit.decided 600 100000 { behind.circuit 1 with pos := 599 }).st, (Circuit.decided 600 100000 { behind.circuit 1 with pos := 598 }).st,
    (Circuit.decided 600 100000 { behind.circuit 1 with pos := 660 }).st, (Circuit.decided 600 100000 { behind.circuit 1 with pos := 661 }).st)
    = (.inStep, .catchingUp, .holding, .catchingUp) := by decide

def enumerating : State := withLine { lineUp with enumeration := some ⟨.assigning, some 1, 0, 0, 0, 0⟩ } base
theorem witness_EnumerationsBegin : (lined.reaches q0 = true ∧ LogSound lined.ri ∧ Counts lined ∧ 7 < 8 ∧ (lined.line 7).active = false)
    ∧ (enumerating.reaches q0 = true ∧ LogSound enumerating.ri ∧ Counts enumerating ∧ (enumerating.line 2).active = true ∧ (enumerating.line 2).enumeration ≠ none)
    ∧ ((lined.line 2).active = true ∧ (lined.line 2).enumeration = none ∧ BareLine (lined.line 2))
    ∧ (noded.reaches q0 = true ∧ LogSound noded.ri ∧ Counts noded ∧ (noded.line 2).active = true ∧ (noded.line 2).enumeration = none ∧ IdleLine (noded.line 2)
      ∧ (∀ z, z < 64 → (noded.zoneRec z).building = 2 → (noded.zone z).holder = none) ∧ (noded.line 2).lastInChain = some (nodeAt 9 .sounder .present)
      ∧ (noded.line 2).node? 9 = some (nodeAt 9 .sounder .present) ∧ (nodeAt 9 .sounder .present).busyUntil = none) :=
  ⟨⟨by decide, logSound_of (by decide), counts_of (by decide), by decide⟩, ⟨by decide, logSound_of (by decide), counts_of (by decide), by decide⟩,
    ⟨by decide, by decide, by decide, by decide, by decide, by decide⟩, by decide, logSound_of (by decide), counts_of (by decide), by decide, by decide,
    ⟨by decide, by decide, by decide⟩, by decide⟩

/-- Nodes 1 to n are recorded on line 2. -/
def recorded (n : Nat) : State := withLine { lineUp with nodes := (List.range' 1 n).map fun a => nodeAt a .sounder .present } base
/-- 39 nodes leave address 40, and 40 none; zone 16, of the line's building, is held. -/
theorem witness_EnumerationsBegin_table : ((recorded 39).reaches q0 = true ∧ LogSound (recorded 39).ri ∧ Counts (recorded 39) ∧ ((recorded 39).line 2).active = true
      ∧ ((recorded 39).line 2).enumeration = none ∧ IdleLine ((recorded 39).line 2) ∧ ((recorded 39).line 2).node? 40 = none
      ∧ ∀ b, 1 ≤ b → b < 40 → ((recorded 39).line 2).node? b ≠ none)
    ∧ ((recorded 40).reaches q0 = true ∧ LogSound (recorded 40).ri ∧ Counts (recorded 40) ∧ ((recorded 40).line 2).active = true ∧ ((recorded 40).line 2).enumeration = none
      ∧ ((recorded 40).line 2).deferred = [] ∧ ∀ b, 1 ≤ b → b ≤ 40 → ((recorded 40).line 2).node? b ≠ none)
    ∧ (let s := withLine lineUp ringing; s.reaches q1 = true ∧ LogSound s.ri ∧ Counts s ∧ (s.line 2).active = true ∧ (s.line 2).enumeration = none ∧ 16 < 64
      ∧ (s.zoneRec 16).building = 2 ∧ (s.zoneRec 16).enabled = true ∧ (s.zone 16).holder ≠ none) :=
  ⟨⟨by decide, logSound_of (by decide), counts_of (by decide), by decide, by decide, ⟨by decide, by decide, by decide⟩, by decide,
      fun b h1 h2 => (by decide : ∀ b, b < 40 → 1 ≤ b → ((recorded 39).line 2).node? b ≠ none) b h2 h1⟩,
    ⟨by decide, logSound_of (by decide), counts_of (by decide), by decide, by decide, by decide,
      fun b h1 h2 => (by decide : ∀ b, b < 41 → 1 ≤ b → ((recorded 40).line 2).node? b ≠ none) b (by omega) h1⟩,
    by decide, logSound_of (by decide), counts_of (by decide), by decide⟩
theorem test_enumerate_full : after (.enumerateLine q0 2) (recorded 40) (fun t => slotHolds 2 0 t && lastKind t = some 50 && (t.line 2).enumeration = none) = true := by decide

def setAside : State := withLine { lineUp with nodes := [nodeAt 7 .marshal .absent, nodeAt 9 .sounder .faulted] } base
theorem witness_NodeRequestsTakeEffect : (noded.reaches q0 = true ∧ LogSound noded.ri ∧ Counts noded ∧ (noded.line 2).node? 40 = none
      ∧ (noded.line 2).node? 7 = some (nodeAt 7 .marshal .present) ∧ IdleLine (noded.line 2) ∧ (noded.line 7).state = .off ∧ (noded.line 2).state ≠ .off)
    ∧ (setAside.reaches q0 = true ∧ LogSound setAside.ri ∧ Counts setAside ∧ (setAside.line 2).node? 7 = some (nodeAt 7 .marshal .absent)) ∧ 0 < 1 ∧ 40 < 41 ∧ 1 < 2 :=
  ⟨⟨by decide, logSound_of (by decide), counts_of (by decide), by decide, by decide, ⟨by decide, by decide, by decide⟩, by decide⟩, ⟨by decide, logSound_of (by decide),
    counts_of (by decide), by decide⟩, by decide⟩

theorem witness_DriveOutputDrivesIt : base.reaches q0 = true ∧ LogSound base.ri ∧ Counts base ∧ 11 < 12 ∧ 1 < 2 ∧ base.io.outFunc 11 ≠ .plain
    ∧ base.io.outFunc 10 = .plain := ⟨by decide, logSound_of (by decide), counts_of (by decide), by decide⟩

/-- The last offset at which each size fits, and offsets past it, before the free area and off the grid of 4; the part's counts. -/
theorem witness_ReadStatusCopiesASnapshot : base.reaches q0 = true ∧ (∀ x : Nat × Nat, x ∈ [(0xFFF00, 256), (0xFE000, 8192), (0xFFE00, 512), (0xFFC00, 1024)] →
      StagedAt x.1 x.2 ∧ ¬ StagedAt (x.1 + 4) x.2 ∧ ¬ StagedAt 0x2FFC x.2 ∧ ¬ StagedAt 0x3002 x.2) ∧ 7 ≤ 7 ∧ 7 < 8
    ∧ Counts noded ∧ noded.dc.records.length = 8 ∧ noded.tb.campus = some ⟨9000, 36000000⟩ ∧ unset.tb.campus = none
    ∧ drilled.dc.records[1]? = some drillRec1 ∧ ([none, some (-1)] : List (Option Int))[0]? = some none ∧ 1 < 256 / 4 :=
  ⟨by decide, by unfold StagedAt; decide, by decide, by decide, counts_of (by decide), by decide⟩

theorem witness_StartsAndOutagesTakeEffect_retained : ringing.running = true ∧ ((run1 .mainSupplyLoss ringing).supply.main = false
    ∧ (run1 .mainSupplyLoss ringing).supply.backupHeld = true) ∧ State.reset.running = false := by decide

theorem witness_StartsAndOutagesTakeEffect : (detached.running = true ∧ detached.ri.link = .detached) ∧ (base.running = true ∧ base.ri.link ≠ .detached ∧ base.supply.main = true)
    ∧ (run1 .mainSupplyLoss base).supply.main = false
    ∧ (let s := run1 .backupSupplyDrop (run1 .mainSupplyLoss base); s.supply.main = false ∧ s.supply.backupHeld = false) := by decide

theorem quietStart_of {s : State} (h : (s.supply.main && s.supply.settling && decide (s.tb.campus = none)
      && (s.za.zones.length == 64 && s.za.feeds.length == 8 && s.au.channels.length == 4
        && s.cu.circuits.length == 4 && s.lc.lines.length == 8 && s.io.inputs.length == 12 && s.io.outputs.length == 12)
      && (s.za.zones.all fun d => d.holder.isNone) && (s.za.zones.all fun d => d.waiters.isEmpty)
      && decide (s.dc.active = none)) = true) : QuietStart s := by
  simp only [Bool.and_eq_true, decide_eq_true_eq] at h
  obtain ⟨⟨⟨⟨⟨⟨h1, h2⟩, h3⟩, h4⟩, h5⟩, h6⟩, h7⟩ := h
  exact ⟨⟨h1, h2⟩, h3, counts_of (by simpa using h4), noHolder_of h5, noWaiters_of h6, h7⟩

/-- A start settles with a reading of K11 held since a time, K11 the fire input or not. -/
def settlingWith (r : Reading) (since : Int) (pair : Bool) (ms : Nat) : State := { settling ms with io := { State.reset.io with
  safetyPair := pair
  inputs := State.reset.io.inputs.set 11 ⟨.plain, 50, r, ⟨since, 50⟩, ⟨since, 50⟩, none⟩ } }
/-- Line 2 is enabled, and its paths will read NORMAL and OPEN for the first time. -/
def settlingLine : State := withLine { Line.cold with cfg := ⟨true, 20, 2, true, 3, 0, 30⟩ }
  { settling 50 with lc := { (settling 50).lc with startReads := noPaths.set 2 ⟨.normal, .opened⟩ } }
theorem test_settlingEnd_line : after .settlingEnd settlingLine (fun t => (t.line 2).pathA = ⟨.normal, some .normal⟩ && (t.line 2).pathB = ⟨.opened, some .opened⟩
    && (t.line 2).state = .degraded && (t.line 2).cycle.lastStart = some 0) = true := by decide
/-- K11's reading has held for exactly its 50 ms, and for one less; it has not held after exactly 10 s, nor one millisecond before; each reading, with and without the
fire input; a line that is enabled. -/
theorem witness_SettlingEndsWithTheFireInput : (QuietStart (settling 49) ∧ ¬ (((settling 49).input 11).exact.since + 50 ≤ (settling 49).elapsed))
    ∧ (QuietStart (settling 50) ∧ ((settling 50).input 11).exact.since + 50 ≤ (settling 50).elapsed ∧ ((settling 50).input 11).reading = .opened)
    ∧ (QuietStart unsettled ∧ unsettled.io.inFunc 11 = .fireAlarm ∧ 10000 ≤ unsettled.elapsed ∧ ¬ ((unsettled.input 11).exact.since + 50 ≤ unsettled.elapsed))
    ∧ (QuietStart { unsettled with elapsed := 9999 } ∧ ({ unsettled with elapsed := 9999 } : State).elapsed < 10000)
    ∧ (let s := settlingWith .closed 100 true 150; QuietStart s ∧ s.io.inFunc 11 = .fireAlarm ∧ (s.input 11).reading = .closed
      ∧ (s.input 11).exact.since + 50 ≤ s.elapsed ∧ ∀ l, l < 8 → (s.line l).cfg.enabled = false)
    ∧ (let s := settlingWith .highZ 9950 true 10000; QuietStart s ∧ BareLines s ∧ (s.input 11).reading = .highZ ∧ (s.input 11).exact.since + 50 ≤ s.elapsed
      ∧ (s.input 11).exact.since + 50 ≤ 10000)
    ∧ (let s := settlingWith .closed 20000 false 20050; QuietStart s ∧ BareLines s ∧ s.io.inFunc 11 = .plain ∧ (s.input 11).exact.since + 50 ≤ s.elapsed)
    ∧ (QuietStart settlingLine ∧ BareLines settlingLine ∧ (settlingLine.line 2).cfg.enabled = true ∧ (settlingLine.input 11).exact.since + 50 ≤ settlingLine.elapsed) :=
  ⟨⟨quietStart_of (by decide), by decide⟩, ⟨quietStart_of (by decide), by decide⟩, ⟨quietStart_of (by decide), by decide⟩, ⟨quietStart_of (by decide), by decide⟩,
    ⟨quietStart_of (by decide), by decide⟩, ⟨quietStart_of (by decide), bareLines_of (by decide), by decide⟩,
    ⟨quietStart_of (by decide), bareLines_of (by decide), by decide⟩, quietStart_of (by decide), bareLines_of (by decide), by decide⟩

/-- The first access was left in flight by a link that went down: its writes land, and nothing else does. -/
def leftOver (a : Access) : State := { base with ri := { base.ri with link := .detached, accesses := [.discarded a] } }
theorem test_discarded_consumed : after .consumedWriteDone (leftOver (.consumed 0 0x4000)) (fun t => regionRead t.ri.region 0x4003 = some 2 && t.ri.accesses = []) = true := by decide
theorem test_discarded_slot : after (.slotRead (slotBytes [1, 2])) (leftOver (.slot 3)) (fun t => t = { leftOver (.slot 3) with ri := { (leftOver (.slot 3)).ri with accesses := [] } }) = true := by
  decide
theorem witness_RegionAccessesAreInOrder_discarded : (leftOver (.slot 3)).inFlight? = some (.discarded (.slot 3))
    ∧ (leftOver (.consumed 0 0x4000)).inFlight? = some (.discarded (.consumed 0 0x4000))
    ∧ (leftOver (.snapshot q0 0x3000 2 [1])).inFlight? = some (.discarded (.snapshot q0 0x3000 2 [1])) ∧ (leftOver (.slot 3)).running = true
    ∧ (leftOver (.slot 3)).ri.accesses.head? = some (.discarded (.slot 3)) ∧ ∀ b, Access.slot 3 ≠ .discarded b := by
  refine ⟨rfl, rfl, rfl, by decide, rfl, fun b h => by cases h⟩
/-- Another access is in flight. -/
theorem witness_RegionAccessesAreInOrder : (State.doing .scheduleEntry base).ri.accesses.head? ≠ some .hostFields
    ∧ (∀ n, (State.doing .scheduleEntry base).ri.accesses.head? ≠ some (.slot n)) ∧ (∀ b, (State.doing .scheduleEntry base).ri.accesses.head? ≠ some (.readMark b))
    ∧ (∀ q o n w, (State.doing .scheduleEntry base).ri.accesses.head? ≠ some (.snapshot q o n w))
    ∧ (∀ t, (State.doing .scheduleEntry base).ri.accesses.head? ≠ some (.record t)) ∧ base.ri.accesses.head? ≠ some .scheduleEntry
    ∧ (∀ n, (State.doing .scheduleEntry base).ri.accesses.head? ≠ some (.header n)) ∧ (∀ n, (State.doing .scheduleEntry base).ri.accesses.head? ≠ some (.reread n))
    ∧ (∀ n k, (State.doing .scheduleEntry base).ri.accesses.head? ≠ some (.fetch n k))
    ∧ (∀ n o, (State.doing .scheduleEntry base).ri.accesses.head? ≠ some (.consumed n o)) := by
  simp [State.doing, State.linked, base, RegionIf.start]

def attaching : State := { base with ri := { RegionIf.start [] with run := true, link := .attaching, accesses := [.hostFields] } }
theorem witness_HostFieldsAttachTheLink : attaching.running = true ∧ attaching.ri.link = .attaching ∧ attaching.ri.accesses = [.hostFields] ∧ attaching.ri.hold = []
    ∧ attaching.ri.taken = [] ∧ attaching.ri.scan = .idle ∧ attaching.ri.firstAttach = true ∧ (2 ≠ 3 ∨ 0 ≠ 0) := by decide

theorem doing_completing {a : Access} {s : State} (h : s.running = true) : Completing a (State.doing a s) := ⟨h, rfl, rfl⟩

def slotSetFlags : List Byte := slotBytes [1, 7, 1, 0, 7, 0, 0, 0, 3, 0]
/-- Slots 30 and 31 on either side of the scan's end; a read mark at the write index and one past it. -/
theorem witness_SlotsAndMarksAreRead : Completing (.slot 30) (State.doing (.slot 30) base) ∧ byteAt (slotBytes [0]) 0 ≠ 1 ∧ 30 < 31
    ∧ (Completing (.slot 31) (State.doing (.slot 31) scanning) ∧ (State.doing (.slot 31) scanning).ri.scan = .scanning)
    ∧ ((State.doing (.slot 30) base).reaches (slotHdr 30 slotSetFlags) = true ∧ byteAt slotSetFlags 0 = 1 ∧ byteAt slotSetFlags 1 = 7)
    ∧ ((State.doing (.slot 30) base).reaches (slotHdr 30 (slotBytes [1, 0])) = true ∧ byteAt (slotBytes [1, 0]) 0 = 1 ∧ byteAt (slotBytes [1, 0]) 1 = 0)
    ∧ (Completing (.readMark true) (State.doing (.readMark true) base) ∧ (State.doing (.readMark true) base).ri.hold = [])
    ∧ (Completing (.readMark false) (State.doing (.readMark false) base) ∧ (State.doing (.readMark false) base).ri.hold = []) :=
  ⟨doing_completing (by decide), by decide, by decide, ⟨doing_completing (by decide), by decide⟩, by decide, by decide,
    ⟨doing_completing (by decide), by decide⟩, doing_completing (by decide), by decide⟩

/-- The last slot of a scan, with another one due. -/
theorem witness_SlotsAndMarksAreRead_due : Completing (.slot 31) (State.doing (.slot 31) { scanning with ri := { scanning.ri with scan := .scanningDue } })
    ∧ (State.doing (.slot 31) { scanning with ri := { scanning.ri with scan := .scanningDue } }).ri.scan = .scanningDue := ⟨doing_completing (by decide), by decide⟩
/-- A full log with two held records and three lost: a read mark that leaves room for one record, for all three and for none. -/
def holding : State := State.doing (.readMark false) { base with ri := { base.ri with writeIndex := 254, readMark := 255, hold := [aRecord, aRecord], lost := 3, totalLost := 5 } }
theorem witness_SlotsAndMarksAreRead_hold : Completing (.readMark false) holding ∧ LogSound holding.ri ∧ holding.ri.hold ≠ [] ∧ (255 - (254 + 256 - 0) % 256 = 1)
    ∧ (255 - (254 + 256 - 2) % 256 = 3) ∧ (255 - (254 + 256 - 255) % 256 = 0) := ⟨doing_completing (by decide), logSound_of (by decide), by decide⟩
/-- The first held record is written, and OVERFLOW stands behind the second; with room for three OVERFLOW is the last one written. -/
theorem test_readMark_drains : after (.readMarkRead 0 0) holding (fun t => t.ri.hold.map (·.note.kind) = [.inputChanged, .overflow] && t.ri.lost = 0 && t.ri.writeIndex = 255) = true
    ∧ after (.readMarkRead 2 0) holding (fun t => t.ri.hold = [] && t.ri.lost = 0 && t.ri.writeIndex = 1 && lastKind t = some 55) = true
    ∧ after (.readMarkRead 255 0) holding (fun t => t.ri.hold.length = 2 && t.ri.lost = 3 && t.ri.writeIndex = 254) = true := by decide

theorem witness_SnapshotsAndBusErrors : (Completing (.snapshot q0 0x3000 2 [0x11223344]) (State.doing (.snapshot q0 0x3000 2 [0x11223344]) base) ∧ q0.slot < 32 ∧ 0x3000 ≤ 0x3000)
    ∧ (base.running = true ∧ base.ri.link = .attached ∧ base.au.anns = []) ∧ (attaching.running = true ∧ attaching.ri.link = .attaching ∧ attaching.au.anns = [])
    ∧ detached.ri.link = .detached ∧ (∀ a, base.ri.accesses.head? ≠ some (.discarded a))
    ∧ (let s := leftOver (.slot 3); s.running = true ∧ s.ri.accesses.head? = some (.discarded (.slot 3))) :=
  ⟨⟨doing_completing (by decide), by decide⟩, by decide, by decide, by decide, (fun a h => by cases h), by decide⟩

/-! #### Loads: a record without a fault, one at fault, and the loads they belong to -/

def recProfile : List Byte := [5, 0, 0x0F, 3]
def recSpan : List Byte := [0x28, 0x23, 0x32, 0x23, 0x3E, 4]
def recZone : List Byte := [0b1011, 7, 0xFF, 7]
def recGroup : List Byte := [2, 0, 63]
def recPattern : List Byte := [1, 2, 0x20, 3, 7, 0, 0x11, 0x27, 0xF4, 1] ++ List.replicate 60 0
def recChannel : List Byte := [0, 2, 0xF3, 1, 0, 0]
def recDrill : List Byte := [4, 60, 0, 0x2C, 1, 0, 0xFF, 0]
def recCircuit : List Byte := [1, 0xD0, 2, 0xF4, 1, 0xD0, 7, 60]
def recLine : List Byte := [1, 20, 2, 1, 3, 0, 30, 0]
def recMember : List Byte := [0x39, 0x30, 0, 0, 2, 1, 16, 0, 0, 0, 5, 0]
def recIoHeader : List Byte := [1, 0x3F, 0, 0]
def recInput : List Byte := [2, 7, 0, 0, 50, 0]

/-- Each load in progress, of `n` records with `k` read so far. -/
def loadsOf (n k : Nat) : State := { base with
  dp := { base.dp with profileLoad := some (loadOf n (List.replicate k ⟨0, 0, 0⟩)), calendarLoad := some (loadOf n (List.replicate k ⟨0, 0, 0, 0⟩)) }
  za := { base.za with zoneLoad := some (loadOf n (List.replicate k ZoneRec.blank)), groupLoad := some (loadOf n (List.replicate k 0)) }
  pu := { base.pu with load := some (loadOf n (List.replicate k Pattern.empty)) }
  au := { base.au with load := some (loadOf n (List.replicate k ChannelSet.default)) }
  dc := { base.dc with load := some (loadOf n (List.replicate k drillRec1)) }
  cu := { base.cu with load := some ⟨loadOf n (List.replicate k Circuit.cold.cfg), 11⟩ }
  lc := { base.lc with lineLoad := some (loadOf n (List.replicate k Line.cold.cfg)), memberLoad := some (loadOf n (List.replicate k ⟨1, 0, [], 0⟩)) }
  se := { base.se with switch := some ⟨loadOf n (List.replicate k ⟨0, 1, none, .mark 0⟩), 120, .now⟩ }
  io := { base.io with load := some ⟨q0, 0x3000, false, none, [], []⟩ } }
def ioLoaded (ins outs : Nat) : State := { base with io := { base.io with
  load := some ⟨q0, 0x3000, false, some (true, 0x3F), List.replicate ins (.plain, 50), List.replicate outs .plain⟩ } }

/-- One record too many for each table; the first offset past the last one for the greatest table. -/
theorem witness_LoadsAreRefused : base.reaches q0 = true ∧ (16 < 17 ∧ 96 < 97 ∧ 64 < 65 ∧ 31 < 32 ∧ 4 < 5 ∧ 8 < 9 ∧ 320 < 321 ∧ 1024 < 1025)
    ∧ (∀ x : Nat × Nat × Nat, x ∈ [(16, 4, 0xFFFC4), (96, 6, 0xFFDC4), (64, 4, 0xFFF04), (64, 1, 0xFFFC4), (31, 70, 0xFF788), (4, 6, 0xFFFEC), (8, 8, 0xFFFC4), (4, 8, 0xFFFE4),
      (320, 12, 0xFF104), (1, 88, 0xFFFAC), (1024, 20, 0xFB004), (1, 4, 0x3002), (1, 4, 0x2FFC)] → ¬ StagedAt x.2.2 (x.1 * x.2.1))
    ∧ (2 < 3 ∨ (3 = 2 ∧ 36525 < 0)) ∧ (2 < 2 ∨ (2 = 2 ∧ 36525 < 36526)) ∧ ¬ (2 < 2 ∨ (2 = 2 ∧ 36525 < 36525)) ∧ ¬ (2 < 1 ∨ (1 = 2 ∧ 36525 < 36526))
    ∧ (unset.reaches q0 = true ∧ unset.tb.campus = none ∧ unset.se.switch = none ∧ 1 ≠ 0) ∧ (base.tb.campus ≠ none ∧ base.se.mark = some ⟨9000, 36000000⟩ ∧ 9000 ≤ 9000) := by
  unfold StagedAt
  decide
/-- Each load in progress, at the last offset for the greatest table; the zones, patterns, channels and drills in use, each way. -/
theorem witness_LoadsAreRefused_busy : (let s := loadsOf 2 0; s.reaches q0 = true ∧ s.dp.profileLoad ≠ none ∧ s.dp.calendarLoad ≠ none ∧ s.za.zoneLoad ≠ none ∧ s.za.groupLoad ≠ none
      ∧ s.pu.load ≠ none ∧ s.au.load ≠ none ∧ s.dc.load ≠ none ∧ s.cu.load ≠ none ∧ s.lc.lineLoad ≠ none ∧ s.lc.memberLoad ≠ none ∧ s.io.load ≠ none ∧ s.se.switch ≠ none)
    ∧ StagedAt 0xFFFC0 (16 * 4) ∧ StagedAt 0xFB000 (1024 * 20) ∧ StagedAt 0xFFFA8 88
    ∧ (ringing.reaches q1 = true ∧ 16 < 64 ∧ (ringing.zone 16).holder ≠ none ∧ PatternsUsed ringing)
    ∧ (chiming.reaches q1 = true ∧ chiming.pu.bells = [] ∧ PatternsUsed chiming ∧ ChannelsUsed chiming)
    ∧ (clearing.reaches q1 = true ∧ clearing.pu.bells = [] ∧ clearing.au.anns = [] ∧ PatternsUsed clearing ∧ clearing.dc.active ≠ none)
    ∧ (let s := { toned with au := { toned.au with anns := [] } }; s.reaches q1 = true ∧ ChannelsUsed s) := by
  unfold StagedAt
  exact ⟨by decide, by decide, by decide, by decide, ⟨by decide, by decide, by decide, .inl (by decide)⟩,
    ⟨by decide, by decide, .inr (.inl ⟨annOf chiming, 3, by decide, by decide, by decide, by decide⟩), .inl (by decide)⟩,
    ⟨by decide, by decide, by decide, .inr (.inr ⟨drillOf clearing, (drillOf clearing).zones.headD ⟨0, none, false, false⟩, by decide⟩), by decide⟩,
    by decide, .inr ⟨toned.channel 0, by decide⟩⟩

def recordOf (t : TableCode) (s : State) : State := State.doing (.record t) s
theorem record_completing (t : TableCode) {s : State} (h : s.running = true) : Completing (.record t) (recordOf t s) := ⟨h, rfl, rfl⟩

/-- The values on either side of each fault's border, by the ranges of the manual's records. -/
theorem witness_StagedRecordsAreChecked : ((decodeProfile [5, 0, 0x0F, 0x10]).isNone ∧ (decodeProfile [5, 0, 0x1F, 0x10]).isSome)
    ∧ ((decodeSpan [0xAE, 0x8E, 0xAE, 0x8E, 0x7F, 0]).isNone ∧ (decodeSpan [0xAD, 0x8E, 0xAD, 0x8E, 0x7F, 15]).isSome ∧ (decodeSpan [1, 0, 1, 0, 0, 16]).isNone)
    ∧ ((decodeZone [1, 7, 0, 4]).isSome ∧ (decodeZone [1, 8, 0, 4]).isNone ∧ (decodeZone [1, 7, 0, 8]).isNone)
    ∧ ((decodeGroup [2, 5, 5]).isNone ∧ (decodeGroup [1, 63]).isSome ∧ (decodeGroup [1, 64]).isNone)
    ∧ ((decodePattern ([17, 0, 0, 0, 0, 0, 1] ++ List.replicate 63 0)).isNone ∧ (decodePattern ([1, 251, 0, 0, 0, 0, 1] ++ List.replicate 63 0)).isNone
      ∧ (decodePattern ([1, 250, 0, 0, 15, 0, 1] ++ List.replicate 63 0)).isSome ∧ (decodePattern (1 :: List.replicate 69 0)).isNone)
    ∧ ((decodeChannel [0, 6, 0, 0, 0, 0]).isSome ∧ (decodeChannel [1, 6, 0, 0, 0, 0]).isNone)
    ∧ ((decodeDrill [] [1, 29, 0, 60, 0, 0, 0xFF, 0]).isNone ∧ (decodeDrill [] [1, 30, 0, 8, 7, 0, 0xFF, 0]).isSome ∧ (decodeDrill [] [1, 30, 0, 9, 7, 0, 0xFF, 0]).isNone)
    ∧ ((decodeCircuit 720 [1, 0xA0, 5, 0, 1, 0, 8, 0]).isSome ∧ (decodeCircuit 720 [1, 0xD0, 2, 0, 1, 0, 8, 0]).isNone)
    ∧ ((decodeLine [1, 80, 3, 1, 7, 0, 30, 0]).isSome ∧ (decodeLine [1, 80, 4, 1, 7, 0, 30, 0]).isNone ∧ (decodeLine [1, 80, 3, 1, 0, 0, 30, 0]).isNone)
    ∧ ((decodeMember [⟨9, 0, [], 0⟩] [9, 0, 0, 0, 7, 0, 0, 0, 0, 0, 15, 0]).isNone ∧ (decodeMember [] [9, 0, 0, 0, 7, 4, 1, 2, 3, 63, 15, 0]).isSome
      ∧ (decodeMember [] [9, 0, 0, 0, 7, 4, 1, 2, 3, 3, 15, 0]).isNone)
    ∧ ((decodeIoHeader [1, 0, 0, 0]).isSome ∧ (decodeIoHeader [2, 0, 0, 0]).isNone)
    ∧ ((decodeInput 11 [1, 0, 0, 0, 10, 0]).isSome ∧ (decodeInput 10 [1, 0, 0, 0, 10, 0]).isNone ∧ (decodeInput 1 [6, 0, 0, 0, 10, 0]).isNone)
    ∧ ((decodeOutput 10 [1]).isSome ∧ (decodeOutput 11 [1]).isNone ∧ (decodeOutput 0 [4]).isNone)
    ∧ ((decodeEntry [] [] [] 86399 (leBytes 4 86399 ++ [1, 0, 0xFF, 0, 4] ++ List.replicate 11 0)).isSome
      ∧ (decodeEntry [] [] [] 0 (leBytes 4 86400 ++ [1, 0, 0xFF, 0, 4] ++ List.replicate 11 0)).isNone
      ∧ (decodeEntry [] [] [] 86399 (leBytes 4 86398 ++ [1, 0, 0xFF, 0, 4] ++ List.replicate 11 0)).isNone
      ∧ (decodeEntry [] [] [] 0 (leBytes 4 0 ++ [1, 0, 7, 1, 5] ++ List.replicate 11 0)).isNone
      ∧ (decodeEntry zoned.pu.table [0x10000] [] 0 (leBytes 4 0 ++ [1, 0, 7, 1, 1, 0, 3, 9, 120, 0x58, 2, 0, 0, 0, 0, 0])).isSome
      ∧ (decodeEntry zoned.pu.table [0x10000] [] 0 (leBytes 4 0 ++ [1, 0, 7, 1, 1, 0, 3, 9, 120, 0x59, 2, 0, 0, 0, 0, 0])).isNone) := by
  and_intros <;> decide

/-- A load of two records in progress whose first is read. -/
theorem witness_LoadsGoOn : (∀ t, Completing (.record t) (recordOf t (loadsOf 2 0))) ∧ Completing .scheduleEntry (State.doing .scheduleEntry (loadsOf 2 0))
    ∧ (loadOf 2 ([] : List Profile)).midway ∧ (loadsOf 2 0).dp.profileLoad = some (loadOf 2 []) ∧ (loadsOf 2 0).dp.calendarLoad = some (loadOf 2 [])
    ∧ (loadsOf 2 0).za.zoneLoad = some (loadOf 2 []) ∧ (loadsOf 2 0).za.groupLoad = some (loadOf 2 []) ∧ (loadsOf 2 0).pu.load = some (loadOf 2 [])
    ∧ (loadsOf 2 0).au.load = some (loadOf 2 []) ∧ (loadsOf 2 0).dc.load = some (loadOf 2 []) ∧ (loadsOf 2 0).cu.load = some ⟨loadOf 2 [], 11⟩
    ∧ (loadsOf 2 0).lc.lineLoad = some (loadOf 2 []) ∧ (loadsOf 2 0).lc.memberLoad = some (loadOf 2 [])
    ∧ (loadsOf 2 0).se.switch = some ⟨loadOf 2 [], 120, .now⟩ ∧ ((loadsOf 2 0).io.load.map (·.header)) = some none := by
  refine ⟨fun t => record_completing t (by decide), doing_completing (by decide), ?_⟩
  unfold Load.midway
  and_intros <;> first | rfl | decide
theorem witness_LoadsGoOn_records : decodeProfile recProfile = some ⟨5, 0x0F, 3⟩ ∧ decodeSpan recSpan = some ⟨9000, 9010, 0x3E, 4⟩
    ∧ decodeZone recZone = some ⟨true, 7, 0x7FF, true, false, true⟩ ∧ decodeGroup recGroup = some (1 ||| BitVec.twoPow 64 63)
    ∧ 0x3000 + 1 + byteAt recGroup 0 + (2 - 0 - 1) ≤ 0x100000 ∧ decodePattern recPattern = some (⟨[⟨10000, 500⟩], 2, 800, 7⟩, true)
    ∧ decodeChannel recChannel = some (⟨512, 500, 0⟩, true) ∧ decodeDrill base.pu.table recDrill = some drillRec1
    ∧ decodeCircuit 719 recCircuit = some (⟨true, 720, 500, 2000, 60⟩, false) ∧ decodeLine recLine = some (⟨true, 20, 2, true, 3, 0, 30⟩, false)
    ∧ decodeMember [] recMember = some ⟨12345, 2, [16], 5⟩ ∧ decodeIoHeader recIoHeader = some (false, 0x3F)
    ∧ decodeInput 0 recInput = some ((.marshalClear 7, 50), false) ∧ decodeOutput 10 [1] = some .zone
    ∧ decodeEntry base.pu.table base.za.groups base.dc.records 0 markEntry = some ⟨28800, 1, none, .mark 0x102⟩ := by
  and_intros <;> decide
/-- The IO table's inputs and outputs, at the last places at which each is read. -/
theorem witness_LoadsGoOn_io : (Completing (.record .io) (recordOf .io (ioLoaded 11 0)) ∧ ((ioLoaded 11 0).io.load.map (·.ins.length)) = some 11)
    ∧ (Completing (.record .io) (recordOf .io (ioLoaded 12 10)) ∧ ((ioLoaded 12 10).io.load.map (·.outs.length)) = some 10
      ∧ ((ioLoaded 12 10).io.load.bind (·.header)) = some (true, 0x3F)) :=
  ⟨⟨record_completing .io (by decide), by decide⟩, record_completing .io (by decide), by decide⟩

theorem witness_LoadFaultsLeaveTables : LogSound (recordOf .profiles (loadsOf 2 0)).ri ∧ (∀ t, Completing (.record t) (recordOf t (loadsOf 2 0)))
    ∧ Completing .scheduleEntry (State.doing .scheduleEntry (loadsOf 2 0)) ∧ (loadOf 2 ([] : List Profile)).q.slot < 32
    ∧ decodeProfile [5, 0, 0x0C, 3] = none ∧ decodeSpan [0x32, 0x23, 0x28, 0x23, 0x3E, 4] = none ∧ decodeZone [1, 8, 0, 0] = none ∧ decodeGroup [1, 64] = none
    ∧ decodePattern ([17] ++ List.replicate 69 0) = none ∧ decodeChannel [0, 3, 0, 2, 0, 0] = none ∧ decodeDrill base.pu.table [0, 60, 0, 0x2C, 1, 0, 0xFF, 0] = none
    ∧ decodeCircuit 0 [1, 0xD1, 2, 0xF4, 1, 0xD0, 7, 60] = none ∧ decodeLine [1, 21, 2, 1, 3, 0, 30, 0] = none ∧ decodeMember [] [0, 0, 0, 0, 8, 0, 0, 0, 0, 0, 0, 0] = none
    ∧ decodeEntry base.pu.table base.za.groups base.dc.records 0 ([0x80, 0x51, 1, 0] ++ List.replicate 16 0) = none := by
  refine ⟨logSound_of (by decide), fun t => record_completing t (by decide), doing_completing (by decide), ?_⟩
  and_intros <;> decide
theorem witness_LoadFaultsLeaveTables_io : Completing (.record .io) (recordOf .io (ioLoaded 11 0)) ∧ ((ioLoaded 11 0).io.load.map (·.q.slot)) = some 0
    ∧ decodeInput 11 [7, 0, 0, 0, 50, 0] = none ∧ ((recordOf .io (loadsOf 2 0)).io.load.map (·.header)) = some none ∧ decodeIoHeader [2, 0, 0, 0] = none
    ∧ ((ioLoaded 12 11).io.load.map fun l => (l.ins.length, l.outs.length)) = some (12, 11) ∧ decodeOutput 11 [1] = none := ⟨record_completing .io (by decide), by decide⟩
/-- A group that ends one byte past the region, and one that ends with it. -/
theorem witness_LoadFaultsLeaveTables_group : (let l : Load ZoneSet := ⟨q0, 0xFFFFE, 1, [], false⟩; l.q.slot < 32
      ∧ 0x100000 < l.nextOff + 1 + byteAt recGroup 0 + (l.count - l.staged.length - 1))
    ∧ (let l : Load ZoneSet := ⟨q0, 0xFFFFD, 1, [], false⟩; l.nextOff + 1 + byteAt recGroup 0 + (l.count - l.staged.length - 1) ≤ 0x100000) := by decide

/-- A load of one record; its zones at rest, and in use. -/
theorem witness_LoadsFillTables : LogSound (recordOf .profiles (loadsOf 1 0)).ri ∧ (∀ t, Completing (.record t) (recordOf t (loadsOf 1 0)))
    ∧ (loadOf 1 ([] : List Profile)).atLast ∧ (loadsOf 1 0).dp.profileLoad = some (loadOf 1 []) ∧ (loadsOf 1 0).za.zoneLoad = some (loadOf 1 [])
    ∧ (loadsOf 1 0).zonesQuiet = true ∧ 0x3000 + 1 + byteAt recGroup 0 ≤ 0x100000 ∧ patternsInUse (loadsOf 1 0) = false ∧ BareLines (loadsOf 1 0)
    ∧ channelsInUse (loadsOf 1 0) = false ∧ Counts (loadsOf 1 0) ∧ (loadsOf 1 0).dc.active = none :=
  ⟨logSound_of (by decide), fun t => record_completing t (by decide), by unfold Load.atLast; decide, rfl, rfl, by decide, by decide, by decide, bareLines_of (by decide),
    by decide, counts_of (by decide), by decide⟩
def loadsWhileRinging : State := { loadsOf 1 0 with za := { ringing.za with zoneLoad := some (loadOf 1 []), groupLoad := some (loadOf 1 []) } }
theorem witness_LoadsFillTables_busy : Completing (.record .zones) (recordOf .zones loadsWhileRinging) ∧ Completing (.record .groups) (recordOf .groups loadsWhileRinging)
    ∧ LogSound loadsWhileRinging.ri ∧ loadsWhileRinging.zonesQuiet = false :=
  ⟨record_completing .zones (by decide), record_completing .groups (by decide), logSound_of (by decide), by decide⟩

/-- A load's last record finds a bell, an announcement, a drill under way, and a zone held. -/
theorem witness_LoadsFillTables_inUse : (let s := recordOf .patterns { loadsOf 1 0 with pu := { ringing.pu with load := some (loadOf 1 []) } }
      Completing (.record .patterns) s ∧ LogSound s.ri ∧ s.pu.load = some (loadOf 1 []) ∧ PatternsUsed s)
    ∧ (let s := recordOf .channels { loadsOf 1 0 with au := { chiming.au with load := some (loadOf 1 []) } }
      Completing (.record .channels) s ∧ LogSound s.ri ∧ s.au.load = some (loadOf 1 []) ∧ ChannelsUsed s)
    ∧ (let s := recordOf .drills { loadsOf 1 0 with dc := { drilling.dc with load := some (loadOf 1 []) } }
      Completing (.record .drills) s ∧ LogSound s.ri ∧ s.dc.load = some (loadOf 1 []) ∧ s.dc.active ≠ none)
    ∧ (let s := recordOf .members loadsWhileRinging; Completing (.record .members) s ∧ LogSound s.ri ∧ Counts s ∧ BareLines s ∧ s.lc.memberLoad = some (loadOf 1 [])
      ∧ (s.zone 16).holder ≠ none) :=
  ⟨⟨record_completing .patterns (by decide), logSound_of (by decide), by decide, .inl (by decide)⟩,
    ⟨record_completing .channels (by decide), logSound_of (by decide), by decide, .inl (by decide)⟩,
    ⟨record_completing .drills (by decide), logSound_of (by decide), by decide, by decide⟩,
    record_completing .members (by decide), logSound_of (by decide), counts_of (by decide), bareLines_of (by decide), by decide, by decide⟩

theorem witness_LoadsPutSettingsInForce : LogSound (recordOf .lines (loadsOf 1 0)).ri ∧ Counts (recordOf .lines (loadsOf 1 0)) ∧ BareLines (recordOf .lines (loadsOf 1 0))
    ∧ (∀ t, Completing (.record t) (recordOf t (loadsOf 1 0))) ∧ Completing .scheduleEntry (State.doing .scheduleEntry (loadsOf 1 0))
    ∧ (loadsOf 1 0).cu.load = some ⟨loadOf 1 [], 11⟩ ∧ ¬ (1 ≤ 11 ∧ 11 ≤ 10) ∧ (loadsOf 1 0).lc.lineLoad = some (loadOf 1 []) ∧ (loadsOf 1 0).lc.memberLoad = some (loadOf 1 [])
    ∧ (loadsOf 1 0).zonesUnheld = true ∧ ((loadsOf 1 0).circuit 0).st = .off ∧ ((loadsOf 1 0).line 0).cfg.enabled = false
    ∧ (loadsOf 1 0).se.switch = some ⟨loadOf 1 [], 120, .now⟩ :=
  ⟨logSound_of (by decide), counts_of (by decide), bareLines_of (by decide), fun t => record_completing t (by decide), doing_completing (by decide), by
    and_intros <;> first | rfl | decide⟩
/-- A switch for the day after H, for a day after it, and for the day of H itself. -/
def switching (c : SwitchChoice) : State := State.doing .scheduleEntry { base with se := { base.se with switch := some ⟨loadOf 1 [], 120, c⟩ } }
theorem witness_LoadsPutSettingsInForce_days : Completing .scheduleEntry (switching .nextDay) ∧ LogSound (switching .nextDay).ri ∧ Counts (switching .nextDay) ∧ BareLines (switching .nextDay)
    ∧ (switching .nextDay).se.mark = some ⟨9000, 36000000⟩ ∧ (switching .nextDay).se.switch = some ⟨loadOf 1 [], 120, .nextDay⟩
    ∧ (switching (.atDay 9001)).se.switch = some ⟨loadOf 1 [], 120, .atDay 9001⟩ ∧ 9000 < 9001 ∧ (switching (.atDay 9000)).se.switch = some ⟨loadOf 1 [], 120, .atDay 9000⟩ ∧ 9000 ≤ 9000
    ∧ decodeEntry base.pu.table base.za.groups base.dc.records 0 markEntry = some ⟨28800, 1, none, .mark 0x102⟩ :=
  ⟨doing_completing (by decide), logSound_of (by decide), counts_of (by decide), bareLines_of (by decide), by and_intros <;> first | rfl | decide⟩
theorem input_all {s : State} {p : Input → Bool} (h : s.io.inputs.all p = true) (hd : p (Input.cold .opened) = true) (k : Nat) : p (s.input k) = true :=
  getD_all h hd k
theorem witness_LoadsPutSettingsInForce_io : LogSound (recordOf .io (ioLoaded 12 11)).ri ∧ Counts (recordOf .io (ioLoaded 12 11)) ∧ BareLines (recordOf .io (ioLoaded 12 11))
    ∧ Completing (.record .io) (recordOf .io (ioLoaded 12 11)) ∧ ((ioLoaded 12 11).io.load.map fun l => (l.ins.length, l.outs.length)) = some (12, 11)
    ∧ (∀ i, ((ioLoaded 12 11).input i).value ≠ some .closed) ∧ decodeOutput 11 [3] = some .trouble :=
  ⟨logSound_of (by decide), counts_of (by decide), bareLines_of (by decide), record_completing .io (by decide), by decide, fun i => by
    simpa using input_all (s := ioLoaded 12 11) (p := fun i => i.value ≠ some .closed) (by decide) (by decide) i, by decide⟩

/-! #### Time -/

def slewing (pc : Int) (n : Nat) : State := { base with tb := { base.tb with pc := pc, slewCount := n } }
/-- No step due at 98 counted milliseconds, and one due at 99, in each direction; settling, an outage with and without its backup. -/
theorem witness_NominalMillisecondsCount : (let s := slewing 3 98; s.running = true ∧ s.tb.slewLate = false ∧ ¬ (s.tb.pc ≠ 0 ∧ 99 ≤ s.tb.slewCount))
    ∧ (let s := slewing 3 99; s.running = true ∧ s.tb.slewLate = false ∧ s.tb.pc ≠ 0 ∧ 99 ≤ s.tb.slewCount ∧ 0 < s.tb.pc)
    ∧ (let s := slewing (-3) 99; s.running = true ∧ s.tb.slewLate = false ∧ 99 ≤ s.tb.slewCount ∧ s.tb.pc < 0 ∧ -10000000 < s.tb.acc + s.tb.trim)
    ∧ (State.reset.running = false ∧ State.reset.supply.main = true)
    ∧ (let s := run1 .mainSupplyLoss base; s.running = false ∧ s.supply.backupHeld = true ∧ s.tb.campus = some ⟨9000, 36000000⟩)
    ∧ (let s := run1 .backupSupplyDrop (run1 .mainSupplyLoss base); s.supply.main = false ∧ s.supply.backupHeld = false) := by decide

def slewLate (pc : Int) (n : Nat) (acc : Int) (late : Bool) : State := { base with tb := { base.tb with pc := pc, slewCount := n, acc := acc, trim := -1000, slewLate := late } }
/-- A step of −1 due in the millisecond of a trim term of −1 waits, and waits on in another such millisecond; it comes in the next without one. -/
theorem witness_NominalMillisecondsCount_late : (let s := slewLate (-3) 99 (-9999000) false; s.running = true ∧ 99 ≤ s.tb.slewCount ∧ s.tb.pc < 0 ∧ s.tb.acc + s.tb.trim ≤ -10000000)
    ∧ (let s := slewLate (-3) 5 (-9999000) true; s.running = true ∧ s.tb.slewLate = true ∧ s.tb.pc < 0 ∧ s.tb.acc + s.tb.trim ≤ -10000000)
    ∧ (let s := slewLate (-3) 99 (-9998999) true; s.running = true ∧ s.tb.slewLate = true ∧ s.tb.pc < 0 ∧ -10000000 < s.tb.acc + s.tb.trim) := by decide
/-- A step that waited comes: campus time counts 0, and Pc is one nearer to 0. -/
theorem test_slewStep_late : after .slewStep (slewLate (-3) 5 0 true) (fun t => t.tb.pc = -2 && !t.tb.slewLate && t.tb.campus = some ⟨9000, 36000000⟩) = true
    ∧ after .slewStep (slewLate (-3) 99 (-9999000) false) (fun t => t.tb.pc = -3 && t.tb.slewLate && t.tb.campus = some ⟨9000, 36000000⟩) = true := by decide

/-- The state at a campus time. -/
def atMs (day ms : Nat) (s : State) : State := { s with tb := { s.tb with campus := some ⟨day, ms⟩ } }
theorem advances_of {s : State} (day ms : Nat) (next : CampusTime) (hr : s.running = true) (hs : s.tb.saturated = false)
    (hn : next = ofLin (CampusTime.lin ⟨day, ms⟩ + 1)) (hl : next.lin < lastLin) (ht : s.tb.trim = 0 ∧ s.tb.acc.natAbs < 10000000)
    (hp : s.tb.pc = 0 ∧ s.tb.slewLate = false) : Advances ⟨day, ms⟩ next (atMs day ms s) := ⟨hr, rfl, hs, hn, hl, ht, hp⟩
/-- The last millisecond of summer time in 2024 (27 October, day 9066, 01:59:59.999 campus time), and of the year 2024. -/
def inSummer : State := { sched [bellAt 36005] zoned with
  tb := { base.tb with dst := some summerRule, trans := some (transitionsOf summerRule (yearOf 9066)), offset := 60 }
  se := { base.se with mark := some ⟨9066, 10799000⟩ } }
/-- Circuit 1 is 6 minutes behind and waits, circuits 2 and 3 are 9 minutes ahead and in step; an entry stands at H, a second before, and one a second after the new minute;
clock 7 is PRESENT on line 2. -/
def minuteAt : State :=
  let dial (pos : Nat) (k : Circuit) : Circuit := { k with cfg := ⟨true, 1440, 500, 2000, 60⟩, pos := pos, st := .inStep }
  withLine { lineUp with nodes := [nodeAt 7 .clock .present] } (((behind.setCircuit 2 (dial 610)).setCircuit 3 (dial 601)) |> fun s => { s with
    se := { s.se with mark := some ⟨9000, 36059000⟩, active := ⟨[bellAt 36059, bellAt 36061], 120⟩ } })
theorem witness_CivilTimeTakesEffect : (2000 ≤ 2000 ∧ 1 ≤ 12 ∧ 12 ≤ 12 ∧ 4 ≤ 4 ∧ 5 ≤ 5)
    ∧ (let tr := transitionsOf summerRule 2024; tr.s.lin < tr.e.lin) ∧ (let tr := transitionsOf { summerRule with startMonth := 10, endMonth := 3 } 2024; tr.e.lin < tr.s.lin)
    ∧ (Advances ⟨9066, 7199999⟩ ⟨9066, 7200000⟩ (atMs 9066 7199999 inSummer) ∧ (inSummer.tb.steppedTo ⟨9066, 7200000⟩).offset ≠ 60 ∧ CircuitsAtRest inSummer)
    ∧ (Advances ⟨9131, 86399999⟩ ⟨9132, 0⟩ (atMs 9131 86399999 inSummer) ∧ yearOf 9131 ≠ yearOf 9132) :=
  ⟨by decide, by decide, by decide, ⟨advances_of _ _ _ (by decide) (by decide) (by decide) (by decide) (by decide) (by decide), by decide, by unfold CircuitsAtRest; decide⟩,
    advances_of _ _ _ (by decide) (by decide) (by decide) (by decide) (by decide) (by decide), by decide⟩
theorem idleLines_of {s : State} (h : (s.lc.lines.all fun l => l.queue.isEmpty && l.inFlight.isNone && l.deferred.isEmpty) = true) : ∀ l, IdleLine (s.line l) := fun i => by
  have := getD_all (d := Line.cold) h rfl i
  simp only [Bool.and_eq_true, List.isEmpty_iff, Option.isNone_iff_eq_none] at this
  exact ⟨this.1.1, this.1.2, this.2⟩
theorem witness_CivilTimeTakesEffect_minute : Advances ⟨9000, 36059999⟩ ⟨9000, 36060000⟩ (atMs 9000 36059999 minuteAt) ∧ CampusTime.lin ⟨9000, 36060000⟩ % 60000 = 0
    ∧ (minuteAt.tb.steppedTo ⟨9000, 36060000⟩).offset = minuteAt.tb.offset ∧ (minuteAt.se.mark = some ⟨9000, 36059000⟩ ∧ 9000 ≤ 9000
      ∧ ∀ e, e ∈ minuteAt.se.active.entries → ¬ e.dueBy ⟨9000, 36059000⟩ ⟨9000, 36060000⟩) ∧ Counts minuteAt ∧ (∀ l, IdleLine (minuteAt.line l))
    ∧ (minuteAt.circuit 0).st.running = false ∧ ((minuteAt.circuit 1).st.running = true ∧ (minuteAt.circuit 1).pulse = none)
    ∧ ((minuteAt.line 2).state = .up ∧ nodeAt 7 .clock .present ∈ (minuteAt.line 2).nodes) ∧ (minuteAt.line 0).nodes = [] :=
  ⟨advances_of _ _ _ (by decide) (by decide) (by decide) (by decide) (by decide) (by decide), by decide, by decide, by decide, counts_of (by decide),
    idleLines_of (by decide), by decide⟩
/-- Daylight time that ends in January: E of 2023, whose first day is a Sunday, lies on the day before it, so entering the year ends the offset and reaches no instant; a rule
that starts at the first moment of 2023 is reached. -/
def winterRule : DstRule := ⟨3, 5, 2, 1, 1, 0, 60⟩
def newYearRule : DstRule := ⟨1, 1, 0, 6, 1, 3, 60⟩
def yearEnd (r : DstRule) (offset : Nat) : State := { base with
  tb := { base.tb with dst := some r, trans := some (transitionsOf r 2022), offset := offset }
  se := { base.se with mark := some ⟨8401, 3599000⟩ } }
theorem witness_CivilTimeTakesEffect_year : (Advances ⟨8400, 86399999⟩ ⟨8401, 0⟩ (atMs 8400 86399999 (yearEnd winterRule 60)) ∧ yearOf 8400 ≠ yearOf 8401
      ∧ offsetAt (some winterRule) (some (transitionsOf winterRule 2023)) (CampusTime.lin ⟨8401, 0⟩) = 0
      ∧ offsetAt (some winterRule) (some (transitionsOf winterRule 2022)) (CampusTime.lin ⟨8400, 86399999⟩) = 60
      ∧ (transitionsOf winterRule 2023).e.lin < CampusTime.lin ⟨8400, 86399999⟩ ∧ CampusTime.lin ⟨8401, 0⟩ < (transitionsOf winterRule 2023).s.lin
      ∧ CircuitsAtRest (yearEnd winterRule 60) ∧ BareLines (yearEnd winterRule 60) ∧ (CampusTime.lin (civilAt ⟨8401, 0⟩ 0) : Int) ≤ HighWater.lin ⟨8401, 3599000⟩)
    ∧ (transitionsOf newYearRule 2023).s.lin = CampusTime.lin ⟨8401, 0⟩ :=
  ⟨⟨advances_of _ _ _ (by decide) (by decide) (by decide) (by decide) (by decide) (by decide), by decide, by decide, by decide, by decide, by decide, base_rest,
    bareLines_of (by decide), by decide⟩, by decide⟩
/-- R24: the year roll writes no record and steps nothing; a start instant on January 1 does. -/
theorem test_yearRoll_silent : after .timeAdvance (atMs 8400 86399999 (yearEnd winterRule 60)) (fun t => t.tb.offset = 0 && t.ri.writeIndex = 1
      && t.se.mark = some ⟨8401, 3599000⟩) = true
    ∧ after .timeAdvance (atMs 8400 86399999 (yearEnd newYearRule 0)) (fun t => t.tb.offset = 60 && lastKind t = some 2) = true := by decide
/-- R144: 6 behind catches up, 9 ahead holds, 0 is in step. -/
theorem test_timeAdvance_minute : after .timeAdvance (atMs 9000 36059999 minuteAt) (fun t => (t.circuit 1).st = .catchingUp && (t.circuit 2).st = .holding
    && (t.circuit 3).st = .inStep && ((t.line 2).inFlight.map (·.tx.kind)) = some (.timeAll 9000 601 false)) = true := by decide

/-- The last millisecond before 10:00:01, with H at 10:00:00 and one entry due at the second: a bell, a MARK, a bell with an empty pattern, one of another profile, FLAGS;
and with H unset, with H later, and at the end of the day of H. -/
def before10 (es : List Entry) : State := atMs 9000 36000999 (sched es zoned)
theorem before10_advances (es : List Entry) : Advances ⟨9000, 36000999⟩ ⟨9000, 36001000⟩ (before10 es) :=
  advances_of _ _ _ (by decide : zoned.running = true) (by decide : zoned.tb.saturated = false) (by decide) (by decide)
    (by decide : zoned.tb.trim = 0 ∧ zoned.tb.acc.natAbs < 10000000) (by decide : zoned.tb.pc = 0 ∧ zoned.tb.slewLate = false)
theorem before10_due {e : Entry} (h : e.time = 36001) : OnlyDue 0 e ⟨9000, 36000000⟩ ⟨9000, 36001000⟩ (before10 [e]) :=
  onlyDue_of rfl rfl (by unfold Entry.dueBy; rw [h]; decide)
theorem witness_ScheduleFiresDueEntries : (zoned.tb.steppedTo ⟨9000, 36001000⟩).offset = zoned.tb.offset ∧ CampusTime.lin ⟨9000, 36001000⟩ % 1000 = 0 ∧ CircuitsAtRest zoned ∧ BareLines zoned
    ∧ civilAt ⟨9000, 36001000⟩ 0 = ⟨9000, 36001000⟩ ∧ Advances ⟨9000, 36000999⟩ ⟨9000, 36001000⟩ (before10 [bellAt 36001])
    ∧ (OnlyDue 0 (bellAt 36001) ⟨9000, 36000000⟩ ⟨9000, 36001000⟩ (before10 [bellAt 36001]) ∧ (bellAt 36001).selectedBy 0 0 ∧ BellReady 5 3 16 0 (sched [bellAt 36001] zoned))
    ∧ (let e : Entry := ⟨36001, 1, some ⟨0, false⟩, .mark 7⟩; OnlyDue 0 e ⟨9000, 36000000⟩ ⟨9000, 36001000⟩ (before10 [e]) ∧ e.selectedBy 0 0 ∧ ¬ e.selectedBy 0 1 ∧ ¬ e.selectedBy 1 0)
    ∧ (let e : Entry := ⟨36001, 1, none, .chime 6 4 6 10 300⟩; OnlyDue 0 e ⟨9000, 36000000⟩ ⟨9000, 36001000⟩ (before10 [e]) ∧ (zoned.pattern 4).steps = [] ∧ zoned.group 6 = 0)
    ∧ (∀ e, e ∈ [flagsAt 36001 none 1 0, flagsAt 36001 (some ⟨0, true⟩) 2 0] → e.dueBy ⟨9000, 36000000⟩ ⟨9000, 36001000⟩ ∧ ∃ m1 m2, e.kind = .flags m1 m2) := by
  refine ⟨by decide, by decide, by unfold CircuitsAtRest; decide, bareLines_of (by decide), by decide, before10_advances _,
    ⟨before10_due rfl, ⟨by decide, fun c h => by cases h⟩, bellReady_of _⟩,
    ⟨before10_due rfl, ⟨by decide, fun c h => by cases h; decide⟩, fun h => absurd (h.2 _ rfl) (by decide), fun h => absurd h.1 (by decide)⟩,
    ⟨before10_due rfl, by decide, by decide⟩, fun e he => ?_⟩
  rcases List.mem_cons.mp he with rfl | h
  · exact ⟨by decide, 1, 0, rfl⟩
  · rw [List.mem_singleton.mp h]
    exact ⟨by decide, 2, 0, rfl⟩
theorem witness_ScheduleFiresDueEntries_roll : Advances ⟨9000, 86399999⟩ ⟨9001, 0⟩ (atMs 9000 86399999 planned) ∧ planned.se.mark = some ⟨9000, 36000000⟩ ∧ 9000 < 9001
    ∧ (∀ e, e ∈ (planned.se.rolled ⟨9001, 0⟩ planned.dp.calendar).active.entries → 0 < 1000 * e.time)
    ∧ (CampusTime.lin ⟨9000, 36000000⟩ : Int) ≤ HighWater.lin ⟨9000, 36000000⟩ :=
  ⟨advances_of _ _ _ (by decide) (by decide) (by decide) (by decide) (by decide) (by decide), by decide, by decide, by decide, by decide⟩
def chimeAt (time : Nat) : Entry := ⟨time, 1, none, .chime 5 3 6 10 300⟩
def drillAt (time n : Nat) : Entry := ⟨time, 1, none, .drill n⟩
theorem due_at {s : State} {e : Entry} (hm : s.se.mark = some ⟨9000, 36000000⟩) (h : e.time = 36001) : OnlyDue 0 e ⟨9000, 36000000⟩ ⟨9000, 36001000⟩ (atMs 9000 36000999 (sched [e] s)) :=
  onlyDue_of hm rfl (by unfold Entry.dueBy; rw [h]; decide)
theorem sched_free {s : State} {es : List Entry} {z : Nat} (h : FreeZone z s) : FreeZone z (sched es s) := ⟨h.range, h.counted, h.enabled, h.silentLine, h.noHolder, h.noFire⟩
/-- A CHIME on a free zone, and with 12 announcements; a DRILL on a free zone, one that is undefined, one while silence is held and one while a drill is active. -/
theorem witness_ScheduleFiresDueEntries_chime : (OnlyDue 0 (chimeAt 36001) ⟨9000, 36000000⟩ ⟨9000, 36001000⟩ (before10 [chimeAt 36001]) ∧ (chimeAt 36001).selectedBy 0 0
      ∧ (zoned.pattern 3).steps ≠ [] ∧ (before10 []).group 5 = BitVec.twoPow 64 16 ∧ zoned.au.anns.length < 12 ∧ Counts zoned ∧ FreeZone 16 zoned ∧ NoWaiters zoned
      ∧ (∀ b, zoned.za.feeds.getD b none = none) ∧ freeChannel? zoned = some 0)
    ∧ (OnlyDue 0 (chimeAt 36001) ⟨9000, 36000000⟩ ⟨9000, 36001000⟩ (atMs 9000 36000999 (sched [chimeAt 36001] twelve)) ∧ 12 ≤ twelve.au.anns.length) :=
  ⟨⟨before10_due rfl, ⟨by decide, fun c h => by cases h⟩, by decide, by decide, by decide, counts_of (by decide), zoned_free, noWaiters_of (by decide), noFeed_of (by decide),
    by decide⟩, due_at (by decide) rfl, by decide⟩
theorem witness_ScheduleFiresDueEntries_drill : (OnlyDue 0 (drillAt 36001 1) ⟨9000, 36000000⟩ ⟨9000, 36001000⟩ (atMs 9000 36000999 (sched [drillAt 36001 1] drilled))
      ∧ (drillAt 36001 1).selectedBy 0 0 ∧ (drilled.dc.records.getD 1 DrillRec.undefined) = drillRec1 ∧ drillZones drilled drillRec1 = [16] ∧ FreeZone 16 drilled ∧ NoWaiters drilled
      ∧ drilled.dc.fireActive = false ∧ drilled.dc.silenceHeld = false ∧ drilled.dc.active = none)
    ∧ (drilled.dc.records.getD 0 DrillRec.undefined).defined = false ∧ onFire.dc.silenceHeld = true ∧ drilling.dc.active ≠ none :=
  ⟨⟨due_at (by decide) rfl, ⟨by decide, fun c h => by cases h⟩, by decide, by decide, drilled_free, noWaiters_of (by decide), by decide, by decide, by decide⟩, by decide⟩
theorem test_chimeEntry : after .timeAdvance (before10 [chimeAt 36001]) (fun t => (t.ann? 0).map (·.st) = some .chime && (t.ann? 0).map (·.origin) = some (.entry 0)
    && t.zoneState 16 = .page) = true := by decide
/-- The day roll at midnight: the waiting bank, the day's profile and its presets on the flags. -/
theorem test_timeAdvance_roll : after .timeAdvance (atMs 9000 86399999 planned) (fun t => t.se.active.entries.length = 1 && t.se.waiting = none && t.se.profile = 4
    && t.dp.flags = 0x33 && t.dp.override = none) = true := by decide

def refAt (ms : Nat) : State := { refIn with tb := { refIn.tb with campus := some ⟨9000, 36000000 + ms⟩ } }
def pulsed (ago : Nat) : State := { refIn with tb := { refIn.tb with lastPulse := some (100000 - ago) } }
theorem refIn_ready : refIn.running = true ∧ refIn.io.inFunc 0 = .reference ∧ (refIn.input 0).reading ≠ .closed ∧ Counts refIn :=
  ⟨by decide, by decide, by decide, counts_of (by decide)⟩
/-- Chapter 1's second learning: a baseline of 137 s, a phase error of −3, a trim of 31. -/
def learning : State := { refAt 997 with
  elapsed := 200000
  tb := { (refAt 997).tb with baseline := some 63000, lastPulse := some 199000, trim := 31 } }
/-- Valid intervals of 950, 1,050 and 3,600,051 ms, invalid ones of 949 and 1,051; phase errors of +2, −2 and +3; a loss timer at the limit and below it; the last valid
pulse's expiry. -/
theorem witness_ReferenceEventsTakeEffect : (let s := { refIn with tb := base.tb }; s.running = true ∧ s.io.inFunc 0 = .reference ∧ s.tb.refMode = .off)
    ∧ ((pulsed 950).tb.lastPulse = some 99050 ∧ 1000 * 1 ≤ 100000 - 99050 + 50 ∧ 100000 - 99050 ≤ 1000 * 1 + 50)
    ∧ ((pulsed 1050).tb.lastPulse = some 98950 ∧ 1000 * 1 ≤ 100000 - 98950 + 50 ∧ 100000 - 98950 ≤ 1000 * 1 + 50)
    ∧ ((pulsed 949).tb.lastPulse = some 99051 ∧ ∀ k, 1 ≤ k → ¬ 1000 * k ≤ 100000 - 99051 + 50)
    ∧ ((pulsed 1051).tb.lastPulse = some 98949 ∧ ¬ (100000 - 98949 ≤ 1000 * 1 + 50) ∧ ∀ k, 2 ≤ k → ¬ 1000 * k ≤ 100000 - 98949 + 50) ∧ 3600050 < 3700051 - 100000
    ∧ ((refAt 2).tb.campus = some ⟨9000, 36000002⟩ ∧ (refAt 998).tb.campus = some ⟨9000, 36000998⟩ ∧ (refAt 3).tb.campus = some ⟨9000, 36000003⟩
      ∧ (refAt 3).tb.lastPulse = none ∧ (refAt 3).tb.baseline = none ∧ (refAt 3).tb.refMode = .pulse ∧ (refAt 3).tb.saturated = false)
    ∧ (learning.tb.baseline = some 63000 ∧ learning.tb.pc = 0 ∧ learning.tb.campus = some ⟨9000, 36000997⟩ ∧ learning.tb.lastPulse = some 199000)
    ∧ base.io.inFunc 0 ≠ .reference
    ∧ (let s := { refIn with tb := { refIn.tb with lossTimer := 30000 } }; s.tb.refMode = .pulse ∧ s.tb.campus ≠ none ∧ s.tb.refLost = false ∧ s.tb.saturated = false
      ∧ 1000 * s.tb.lossLimit ≤ s.tb.lossTimer) ∧ refIn.tb.lossTimer < 1000 * refIn.tb.lossLimit
    ∧ (let s := { base with elapsed := 3700050, tb := { base.tb with lastPulse := some 100000 } }; s.tb.lastPulse = some 100000 ∧ 100000 + 3600050 ≤ s.elapsed)
    ∧ ((pulsed 0).tb.lastPulse = some 100000 ∧ (pulsed 0).elapsed < 100000 + 3600050) := by
  and_intros <;> first | decide | omega
/-- Chapter 1's worked example: −30,000 / 1096 is truncated to −27, and the trim becomes 58. -/
theorem test_referencePulse_learns : after .referencePulse learning (fun t => t.tb.trim = 58 && t.tb.pc = 3 && t.tb.baseline = none && t.tb.baselineAwaited
    && t.tb.lastPulse = some 200000) = true := by decide

/-! #### Bells and announcements -/

def bellOf (s : State) (n : Nat) : Bell := (s.bell? n).getD ⟨0, .push 0, 0, 0, 0, 0, [], false⟩
def claimOf (s : State) (z : Nat) : Claim := ((s.zone z).holder).getD ⟨.fire, 0, false, false, none, .leave, none, 0, 0⟩
/-- One millisecond before the end of the cadence, and at it. -/
theorem witness_BellsStepFinishAndExpire : (let s := State.later 2999 ringing; s.running = true ∧ s.bell? 0 = some (bellOf s 0) ∧ (bellOf s 0).zones = [⟨16, .sounding, true, 100000⟩]
      ∧ (s.zone 16).holder = some (claimOf s 16) ∧ (claimOf s 16).who = .bell 0 ∧ s.elapsed < 100000 + (bellOf s 0).length)
    ∧ (let s := State.later 3000 ringing; 100000 + (bellOf s 0).length ≤ s.elapsed ∧ (s.zoneRec 16).sounds = false ∧ (s.zoneRec 16).speaks = false)
    ∧ (let s := State.later 9999 queued; s.running = true ∧ s.bell? 1 = some (bellOf s 1) ∧ (bellOf s 1).zones = [⟨16, .waiting, false, 0⟩]
      ∧ (s.zone 16).holder = some (claimOf s 16) ∧ (claimOf s 16).who ≠ .bell 1 ∧ ((s.zone 16).waiters.map fun w => (w.who, w.waitLimit)) = [(.bell 1, some 110000)]
      ∧ s.elapsed < 110000) ∧ 110000 ≤ (State.later 10000 queued).elapsed := by decide
theorem witness_BellsStepFinishAndExpire_rest : Counts (State.later 3000 ringing) ∧ NoWaiters (State.later 3000 ringing) ∧ (∀ y, (State.later 3000 ringing).za.feeds.getD y none = none)
    ∧ Counts (State.later 10000 queued) ∧ (∀ y, (State.later 10000 queued).za.feeds.getD y none = none) ∧ ∀ y, y ≠ 16 → ((State.later 10000 queued).zone y).waiters = [] :=
  ⟨counts_of (by decide), noWaiters_of (by decide), noFeed_of (by decide), counts_of (by decide), noFeed_of (by decide), noWaitersBut_of (by decide)⟩

/-- CHIME in ROUTING, 2 s after it began; CHIME at its last millisecond and at its end, for each source. -/
def chimedWith (x : AnnSource) : State := State.later 3000 (chiming.setAnn 0 fun a => { a with source := x })
def routed (ms : Nat) : State := State.later ms (chiming.setAnn 0 fun a => { a with st := .routing, routingAt := 100000, lateJoin := true })
theorem witness_ChimesStepAndEnd : (let s := routed 2000; s.running = true ∧ s.ann? 0 = some (annOf s) ∧ (annOf s).channel = some 0 ∧ (annOf s).chime = some 3 ∧ (annOf s).st = .routing
      ∧ (annOf s).routingAt + 2000 ≤ s.elapsed ∧ (annOf s).lateJoin = true ∧ (annOf s).holds = true) ∧ (routed 1999).elapsed < (annOf (routed 1999)).routingAt + 2000
    ∧ (let s := State.later 2999 chiming; s.ann? 0 = some (annOf s) ∧ (annOf s).st = .chime ∧ (annOf s).chime = some 3
      ∧ s.elapsed < (annOf s).chimeAt + (s.pattern 3).length (annOf s).maxDur)
    ∧ (let s := chimedWith .toneOnly; s.ann? 0 = some (annOf s) ∧ (annOf s).source = .toneOnly ∧ (annOf s).chimeAt + (s.pattern 3).length (annOf s).maxDur ≤ s.elapsed)
    ∧ (let s := chimedWith (.blocks 0x4000); (annOf s).source = .blocks 0x4000 ∧ s.ri.link = .attached)
    ∧ (let s := chimedWith (.live 0); (annOf s).source = .live 0 ∧ s.pttClosed 0 = false) := by and_intros <;> decide
theorem witness_ChimesStepAndEnd_rest : Counts (routed 2000) ∧ Counts (chimedWith .toneOnly) ∧ EndsAlone 0 0 (annOf (chimedWith .toneOnly)) (chimedWith .toneOnly)
    ∧ Counts (chimedWith (.blocks 0x4000)) ∧ Counts (chimedWith (.live 0)) :=
  ⟨counts_of (by decide), counts_of (by decide), endsAlone_of (by decide), counts_of (by decide), counts_of (by decide)⟩

def spent : State := chiming.setAnn 0 fun a => { a with timePlayed := 600000 }
def heldAnn (ms : Nat) : State := State.later ms (chiming.setAnn 0 fun a => { a with st := .held, heldAt := 100000, resume := 30 })
def starving (ms : Nat) : State := State.later ms (playing.setChannel 0 fun k => { k with starveFrom := some 100000 })
def tailing (fifo : List Sample) : State := (talking.setAnn 0 fun a => { a with talk := some .tail, tailEnd := some 100000, noTalkAt := none }).setChannel 0 fun k =>
  { k with fifo := fifo }
theorem witness_AnnouncementTimersEndThem : (spent.running = true ∧ spent.ann? 0 = some (annOf spent) ∧ (annOf spent).st = .chime ∧ 1000 * (annOf spent).maxDur ≤ (annOf spent).timePlayed)
    ∧ ((annOf chiming).st = .chime ∧ (annOf chiming).timePlayed < 1000 * (annOf chiming).maxDur)
    ∧ (let s := heldAnn 30000; s.ann? 0 = some (annOf s) ∧ (annOf s).st = .held ∧ (annOf s).heldAt + 1000 * (annOf s).resume ≤ s.elapsed)
    ∧ (let s := heldAnn 29999; s.elapsed < (annOf s).heldAt + 1000 * (annOf s).resume)
    ∧ (let s := starving 2000; s.ann? 0 = some (annOf s) ∧ (annOf s).st = .playing ∧ (s.channel 0).owner = some (.ann 0) ∧ (s.channel 0).starveFrom = some 100000
      ∧ 100000 + (s.channel 0).cfg.starveLimit ≤ s.elapsed) ∧ (starving 1999).elapsed < 100000 + ((starving 1999).channel 0).cfg.starveLimit
    ∧ ((annOf talking).talk = some .beforeTalk ∧ (annOf talking).noTalkAt = some 110000 ∧ 110000 ≤ (State.later 10000 talking).elapsed ∧ (State.later 9999 talking).elapsed < 110000)
    ∧ (let s := tailing []; s.ann? 0 = some (annOf s) ∧ (annOf s).st = .playing ∧ (annOf s).talk = some .tail ∧ (annOf s).tailEnd = some 100000 ∧ 100000 ≤ s.elapsed
      ∧ (s.channel 0).fifo = []) ∧ ((tailing [1]).channel 0).fifo ≠ []
    ∧ (let s := State.later 600000 waitingAnn; s.running = true ∧ s.ann? 0 = some (annOf s) ∧ (annOf s).st = .waiting ∧ (annOf s).takenAt + 1000 * (annOf s).maxDur ≤ s.elapsed) := by
  and_intros <;> decide
theorem witness_AnnouncementTimersEndThem_rest : EndsAlone 0 0 (annOf spent) spent ∧ EndsAlone 0 0 (annOf (heldAnn 30000)) (heldAnn 30000)
    ∧ EndsAlone 0 0 (annOf (starving 2000)) (starving 2000) ∧ EndsAlone 0 0 (annOf (State.later 10000 talking)) (State.later 10000 talking)
    ∧ EndsAlone 0 0 (annOf (tailing [])) (tailing []) :=
  ⟨endsAlone_of (by decide), endsAlone_of (by decide), endsAlone_of (by decide), endsAlone_of (by decide), endsAlone_of (by decide)⟩

/-- BLOCKS play with 17 samples left; LIVE0 talks with 512; a channel that has played all its milliseconds. -/
def withFifo (n : Nat) (s : State) : State := State.later 1 (s.setChannel 0 fun k => { k with fifo := samplesOf n })
def talkingNow : State := talking.setAnn 0 fun a => { a with talk := some .talking, noTalkAt := none }
theorem witness_ChannelsPlay : (let s := withFifo 17 playing; s.running = true ∧ s.ann? 0 = some (annOf s) ∧ (annOf s).st = .playing ∧ (annOf s).channel = some 0
      ∧ (s.channel 0).owner = some (.ann 0) ∧ (s.channel 0).playedTo < s.elapsed ∧ (annOf s).sourceEnded = false ∧ (annOf s).awaiting = none ∧ (annOf s).block = none
      ∧ (annOf s).liveOf = none ∧ (annOf s).talk = none ∧ 16 < (s.channel 0).fifo.length)
    ∧ (let s := withFifo 16 playing; (annOf s).isBlocks = true ∧ (s.channel 0).fifo.length ≤ 16)
    ∧ (let s := withFifo 512 talkingNow; s.running = true ∧ s.ann? 0 = some (annOf s) ∧ (annOf s).st = .playing ∧ (s.channel 0).owner = some (.ann 0)
      ∧ (s.channel 0).playedTo < s.elapsed ∧ (annOf s).liveOf ≠ none ∧ (annOf s).talk = some .talking ∧ (samplesOf 16).length = 16)
    ∧ playing.elapsed ≤ (playing.channel 0).playedTo
    ∧ (let s := State.later 100 awaiting; s.ann? 0 = some (annOf s) ∧ (annOf s).st = .playing ∧ (annOf s).awaiting = some 100100 ∧ s.ri.link = .attached ∧ 100100 ≤ s.elapsed
      ∧ (annOf s).access = none) ∧ (State.later 99 awaiting).elapsed < 100100
    ∧ (let s := State.later 200 (run1 (.awaitingRereadTimer 0) (State.later 100 awaiting)); (annOf s).awaiting = some 100200 ∧ 100200 ≤ s.elapsed ∧ (annOf s).access ≠ none) := by
  and_intros <;> decide
theorem witness_ChannelsPlay_counts : Counts (withFifo 17 playing) ∧ Counts (withFifo 512 talkingNow) ∧ Counts (State.later 100 awaiting) :=
  ⟨counts_of (by decide), counts_of (by decide), counts_of (by decide)⟩

/-- With a current block: at its trigger level, where a fetch begins; far above it; and with the whole block fetched. -/
def blockPlaying (n fetched : Nat) : State := withFifo n (playing.setAnn 0 fun a => { a with block := some ⟨0x6000, 2500, fetched, 0, false⟩, access := none })
theorem witness_ChannelsPlay_block : (let s := blockPlaying 1039 0; s.running = true ∧ s.ann? 0 = some (annOf s) ∧ (annOf s).st = .playing ∧ (annOf s).channel = some 0
      ∧ (s.channel 0).owner = some (.ann 0) ∧ (s.channel 0).playedTo < s.elapsed ∧ (annOf s).sourceEnded = false ∧ (annOf s).awaiting = none ∧ (annOf s).isBlocks = true
      ∧ (annOf s).talk = none ∧ (annOf s).block = some ⟨0x6000, 2500, 0, 0, false⟩ ∧ (annOf s).access = none ∧ s.ri.link = .attached ∧ 16 < (s.channel 0).cfg.trigger
      ∧ (s.channel 0).fifo.length < (s.channel 0).cfg.trigger + 16)
    ∧ ¬ ((blockPlaying 1040 0).channel 0).fifo.length < ((blockPlaying 1040 0).channel 0).cfg.trigger + 16 ∧ ¬ 2500 < 2500 := by
  and_intros <;> decide
theorem witness_ChannelsPlay_block_counts : Counts (blockPlaying 1039 0) := counts_of (by decide)

/-- The source has ended, its last block is marked, and 16 samples are left. -/
def lastPart (n : Nat) : State := withFifo n (playing.setAnn 0 fun a => { a with block := some ⟨0x6000, 2500, 2500, 0, true⟩, access := none, consumedBegun := true, sourceEnded := true })
theorem witness_ChannelsPlay_end : (lastPart 16).running = true ∧ Counts (lastPart 16) ∧ (lastPart 16).ann? 0 = some (annOf (lastPart 16)) ∧ (annOf (lastPart 16)).sourceEnded = true
    ∧ ((lastPart 16).channel 0).playedTo < (lastPart 16).elapsed ∧ (annOf (lastPart 16)).talk = none ∧ (annOf (lastPart 16)).block = some ⟨0x6000, 2500, 2500, 0, true⟩
    ∧ ((lastPart 16).channel 0).fifo.length ≤ 16 ∧ 16 < ((lastPart 16).channel 0).cfg.trigger ∧ EndsAlone 0 0 (annOf (lastPart 16)) (lastPart 16) :=
  ⟨by decide, counts_of (by decide), by decide, by decide, by decide, by decide, by decide, by decide, by decide, endsAlone_of (by decide)⟩
theorem test_samplesPlayed_end : after (.samplesPlayed 0 []) (lastPart 16) (fun t => t.au.anns = [] && (t.channel 0).lastEnding = some ⟨0, .complete⟩) = true := by decide

def half : State := State.doing (.fetch 0 999) ((fetching.setAnn 0 fun a => { a with access := some (.fetch 999) }).setChannel 0 fun k => { k with fifo := samplesOf 25 })
/-- Chapter 6's worked example: with trigger 1024 the level falls to 1023 and a fetch of 1025 samples of block Y begins there. -/
theorem test_samplesPlayed_fetch : after (.samplesPlayed 0 []) (withFifo 1024 (playing.setAnn 0 fun a => { a with block := some ⟨0x6000, 2500, 0, 0, false⟩, access := none })) (fun t =>
    (t.ann? 0).map (·.access) = some (some (.fetch 1025)) && (t.channel 0).fifo.length = 1008 && (t.ann? 0).map (·.played) = some 16) = true := by decide
def rereading : State := run1 (.awaitingRereadTimer 0) (State.later 100 awaiting)
theorem completing_of {a : Access} {s : State} (h : (s.running && decide (s.ri.link = .attached) && decide (s.ri.accesses.head? = some a)) = true) : Completing a s := by
  simp only [Bool.and_eq_true, decide_eq_true_eq] at h
  exact ⟨h.1.1, h.1.2, h.2⟩
def level (s : State) : Nat := (s.channel 0).fifo.length
theorem witness_AudioAccessesComplete : (playing.ann? 0 = some (annOf playing) ∧ playing.annById? (annOf playing).arrival = some (annOf playing) ∧ (annOf playing).st = .playing
      ∧ (annOf playing).channel = some 0 ∧ (annOf playing).isBlocks = true ∧ (annOf playing).access = some (.header 0x4000) ∧ headerValid 0x4000 (decodeHeader header1) = true
      ∧ level playing < (playing.channel 0).cfg.trigger ∧ headerValid 0x4000 (decodeHeader (header1.set 3 2)) = false ∧ (annOf playing).block = none)
    ∧ (half.ann? 0 = some (annOf half) ∧ (annOf half).access = some (.fetch 999) ∧ (annOf half).block = some ⟨0x4000, 1000, 0, 0x5000, false⟩ ∧ 0 + 999 < 1000)
    ∧ (fetching.ann? 0 = some (annOf fetching) ∧ (annOf fetching).access = some (.fetch 1000) ∧ (annOf fetching).block = some ⟨0x4000, 1000, 0, 0x5000, false⟩
      ∧ (samplesOf 1000).length = 1000 ∧ 1000 ≤ 0 + 1000 ∧ 0x5000 ≠ 0)
    ∧ (consuming.ann? 0 = some (annOf consuming) ∧ (annOf consuming).access = some (.consumed (some 0x5000)))
    ∧ (rereading.ann? 0 = some (annOf rereading) ∧ (annOf rereading).access = some .reread ∧ (annOf rereading).block = some ⟨0x4000, 1000, 1000, 0, false⟩
      ∧ (decodeHeader header1).last = false ∧ (decodeHeader header1).next ≠ 0 ∧ blockOffsetOk (decodeHeader header1).next = true ∧ (annOf rereading).rereadDue = false
      ∧ (decodeHeader (header1.set 5 0)).next = 0) := by and_intros <;> decide
/-- Block 4000 is LAST: its only fetch completes; its CONSUMED write with samples left and with none; a re-read that finds it LAST. -/
def lastFetching : State := run1 (.headerRead (header1.set 2 1)) playing
def lastConsuming (n : Nat) : State := (run1 (.fetchComplete (samplesOf 1000)) lastFetching).setChannel 0 fun k => { k with fifo := samplesOf n }
theorem witness_AudioAccessesComplete_last : (lastFetching.ann? 0 = some (annOf lastFetching) ∧ (annOf lastFetching).access = some (.fetch 1000)
      ∧ (annOf lastFetching).block = some ⟨0x4000, 1000, 0, 0x5000, true⟩ ∧ Counts lastFetching ∧ Completing (.fetch 0 1000) lastFetching)
    ∧ (let s := lastConsuming 1; s.ann? 0 = some (annOf s) ∧ (annOf s).access = some (.consumed none) ∧ (annOf s).sourceEnded = true ∧ level s ≠ 0 ∧ Counts s
      ∧ Completing (.consumed 0 0x4000) s)
    ∧ (let s := lastConsuming 0; (annOf s).access = some (.consumed none) ∧ level s = 0
      ∧ EndsAlone 0 0 { annOf s with access := none } (s.setAnn 0 fun a => { a with access := none }))
    ∧ ((decodeHeader (header1.set 2 1)).last = true ∧ level rereading ≠ 0) :=
  ⟨⟨by decide, by decide, by decide, counts_of (by decide), completing_of (by decide)⟩, ⟨by decide, by decide, by decide, by decide, counts_of (by decide), completing_of (by decide)⟩,
    ⟨by decide, by decide, endsAlone_of (by decide)⟩, by decide⟩
theorem test_consumed_last : after .consumedWriteDone (lastConsuming 0) (fun t => t.au.anns = [] && (t.channel 0).lastEnding = some ⟨0, .complete⟩
    && regionRead t.ri.region 0x4003 = some 2) = true := by decide
theorem witness_AudioAccessesComplete_rest : Counts playing ∧ Completing (.header 0) playing ∧ EndsAlone 0 0 (annOf playing) playing ∧ Counts half ∧ Completing (.fetch 0 999) half
    ∧ (half.channel 0).cfg.trigger ≤ level half + 999 ∧ Completing (.fetch 0 1000) fetching ∧ Counts fetching
    ∧ Completing (.consumed 0 0x4000) consuming ∧ Counts consuming ∧ Completing (.reread 0) rereading ∧ Counts rereading :=
  ⟨counts_of (by decide), completing_of (by decide), endsAlone_of (by decide), counts_of (by decide), completing_of (by decide), by decide, completing_of (by decide),
    counts_of (by decide), completing_of (by decide), counts_of (by decide), completing_of (by decide), counts_of (by decide)⟩

/-! #### Drills, circuits, lines, wiring -/

def evacuated : State := State.later 60000 drilling
def drillZone (s : State) : DrillZone := (drillOf s).zones.headD ⟨0, none, false, false⟩
theorem witness_DrillTimersTakeEffect : (let s := State.later 59999 drilling; s.running = true ∧ s.dc.active = some (drillOf s) ∧ (drillOf s).tone = false ∧ (drillOf s).channel = none
      ∧ (drillOf s).zones = [⟨16, some ⟨31, 100000, 60000⟩, false, false⟩] ∧ (s.zoneRec 16).sounds = false ∧ (s.zoneRec 16).speaks = false
      ∧ (s.zone 16).holder.map (·.who) = some (.drill 1) ∧ (drillOf s).num = 1 ∧ s.elapsed < 100000 + 60000 ∧ (drillOf s).phase = .sounding
      ∧ s.elapsed < (drillOf s).start + 1000 * (drillOf s).record.sounding)
    ∧ (100000 + 60000 ≤ evacuated.elapsed ∧ (drillOf evacuated).start + 1000 * (drillOf evacuated).record.sounding ≤ evacuated.elapsed)
    ∧ (let s := State.later 300000 drilling; (drillOf s).targetReached = false ∧ (drillOf s).start + 1000 * (drillOf s).record.target ≤ s.elapsed)
    ∧ (let s := State.later 3000 clearing; s.dc.active = some (drillOf s) ∧ (drillOf s).zones = [⟨16, some ⟨3, 100000, 3000⟩, true, false⟩] ∧ (drillOf s).phase = .allClear
      ∧ 100000 + 3000 ≤ s.elapsed)
    ∧ (toned.running = true ∧ toned.dc.active = some (drillOf toned) ∧ (drillOf toned).channel = some 0 ∧ (toned.channel 0).drillCad = some ⟨31, 100000, 60000⟩) := by
  and_intros <;> decide
theorem witness_DrillTimersTakeEffect_rest : Counts evacuated ∧ Counts (State.later 3000 clearing) ∧ NoWaiters (State.later 3000 clearing)
    ∧ (∀ b, (State.later 3000 clearing).za.feeds.getD b none = none)
    ∧ ∀ z h, ((State.later 3000 clearing).zone z).holder = some h → h.who = .drill 2 → z = 16 := by
  refine ⟨counts_of (by decide), counts_of (by decide), noWaiters_of (by decide), noFeed_of (by decide), fun z h hz _ => ?_⟩
  by_cases e : z = 16
  · exact e
  · have := getD_all (l := (State.later 3000 clearing).za.zones.set 16 ZoneDyn.clear) (d := ZoneDyn.clear) (p := fun d => d.holder.isNone) (by decide) rfl z
    rw [List.getD_eq_getElem?_getD, List.getElem?_set_ne (fun x => e x.symm), ← List.getD_eq_getElem?_getD] at this
    rw [show ((State.later 3000 clearing).za.zones.getD z ZoneDyn.clear).holder = some h from hz] at this
    cases this

def voided : State := State.later 500 (run1 (.setDial q0 1 600 0) (run1 (.pulseStart 1) behind))
def opened (n : Nat) : State := pulsing.setCircuit 1 fun k => { k with openCount := n }
theorem witness_CircuitPulsesTakeEffect : (behind.running = true ∧ (behind.circuit 1).st.running = true ∧ (behind.circuit 1).pulse = none ∧ (behind.circuit 1).nextAt = some 100000
      ∧ 100000 ≤ behind.elapsed) ∧ (let s := { behind with elapsed := 99999 }; (s.circuit 1).nextAt = some 100000 ∧ s.elapsed < 100000)
    ∧ (let s := run1 (.pulseStart 1) behind; (s.circuit 1).pulse = some ⟨.positive, 100000, 500, false⟩ ∧ s.elapsed < 100000 + 500)
    ∧ (pulsing.running = true ∧ (pulsing.circuit 1).st.running = true ∧ (pulsing.circuit 1).pulse = some ⟨.positive, 100000, 500, false⟩ ∧ 100000 + 500 ≤ pulsing.elapsed)
    ∧ (2 ≤ ((opened 2).circuit 1).openCount ∧ ((opened 1).circuit 1).openCount < 2)
    ∧ (voided.running = true ∧ (voided.circuit 1).st.running = true ∧ (voided.circuit 1).pulse = some ⟨.positive, 100000, 500, true⟩) := by and_intros <;> decide
theorem witness_CircuitPulsesTakeEffect_counts : Counts behind ∧ Counts pulsing ∧ Counts (opened 2) ∧ Counts voided :=
  ⟨counts_of (by decide), counts_of (by decide), counts_of (by decide), counts_of (by decide)⟩

def flightOf (s : State) : InFlight := ((s.line 2).inFlight).getD ⟨pollOf 0, 1, .a, false, .fixed, none, false, 20⟩
def sendingTo (d : Dest) (k : TxKind) : State := withLine { lineUp with inFlight := some ⟨⟨k, 3, d, 0, [], false, none⟩, 1, .a, false, .fixed, none, false, 20⟩ } base
def pollFlight (n : Nat) (st : NodeState) : State := withLine { lineUp with
  nodes := [nodeAt 7 .marshal st]
  inFlight := some ⟨pollOf 7, n, .a, false, .fixed, some 100000, false, 20⟩ } base
/-- An addressed frame and a broadcast being sent; a POLL at its first attempt, and at its third and last, with its timeout reached; a reply with no flag and one
with a bad check. -/
theorem witness_FramesAreAnswered : (let s := sendingTo (.node 7) .configure; s.running = true ∧ (s.line 2).inFlight = some (flightOf s) ∧ (s.line 2).queue = [] ∧ (s.line 2).deferred = []
      ∧ (s.line 2).cycle.running = false ∧ (s.line 2).state = .up ∧ (flightOf s).timeoutAt = none ∧ (flightOf s).tx.kind.broadcast = false)
    ∧ (let s := sendingTo .all .soundStopAll; (s.line 2).inFlight = some (flightOf s) ∧ (flightOf s).timeoutAt = none ∧ (flightOf s).tx.kind.broadcast = true
      ∧ (flightOf s).tx.addr? = none)
    ∧ (let s := pollFlight 1 .suspect; (s.line 2).inFlight = some (flightOf s) ∧ (s.line 2).state = .up ∧ (flightOf s).timeoutAt = some 100000 ∧ (flightOf s).tx.kind = .poll
      ∧ (flightOf s).tx.dest = .node 7 ∧ (flightOf s).tx.stale = false ∧ okReply = ⟨true, 7, false, false, false, false, false, false, .poll .marshal none⟩
      ∧ (s.line 2).node? 7 = some (nodeAt 7 .marshal .suspect) ∧ validReply (flightOf s).tx { okReply with checkOk := false } = false
      ∧ (flightOf s).attempt < 1 + (s.line 2).cfg.retries ∧ (flightOf s).single = false ∧ 100000 ≤ s.elapsed ∧ PathCond.normal = ((s.line 2).path (flightOf s).path).cond)
    ∧ (let s := pollFlight 3 .present; (s.line 2).inFlight = some (flightOf s) ∧ 1 + (s.line 2).cfg.retries ≤ (flightOf s).attempt
      ∧ (s.line 2).node? 7 = some (nodeAt 7 .marshal .present) ∧ (nodeAt 7 .marshal .present).fails + 1 < (s.line 2).cfg.threshold ∧ (s.line 2).cfg.bypass = 0)
    ∧ (polling.elapsed < 100020 ∧ (flightOf polling).timeoutAt = some 100020) := by and_intros <;> decide
theorem witness_FramesAreAnswered_counts : Counts (sendingTo (.node 7) .configure) ∧ Counts (sendingTo .all .soundStopAll) ∧ Counts (pollFlight 1 .suspect)
    ∧ Counts (pollFlight 3 .present) := ⟨counts_of (by decide), counts_of (by decide), counts_of (by decide), counts_of (by decide)⟩

def busyNode : Node := { nodeAt 7 .marshal .present with busyUntil := some 100000 }
def busyLine (xs : List Tx) : State := withLine { lineUp with nodes := [busyNode], queue := xs } base
theorem witness_LineTimersTakeEffect : (let s := busyLine []; s.running = true ∧ (s.line 2).deferred = [] ∧ (s.line 2).inFlight = none ∧ (s.line 2).node? 7 = some busyNode
      ∧ busyNode.busyUntil = some 100000 ∧ 100000 ≤ s.elapsed ∧ (s.line 2).queue = []) ∧ ({ busyLine [] with elapsed := 99999 } : State).elapsed < 100000
    ∧ (let s := busyLine [pollOf 7]; (s.line 2).deferred = [] ∧ (s.line 2).inFlight = none ∧ (s.line 2).queue = [pollOf 7] ∧ (pollOf 7).addr? = some 7)
    ∧ cycleDue noded 2 = false
    ∧ (let s := State.later 20000 lined; cycleDue s 2 = true ∧ (s.line 2).queue = [] ∧ (⟨.normal, .normal⟩ : PathPair) = ⟨(s.line 2).pathA.cond, (s.line 2).pathB.cond⟩
      ∧ (s.line 2).nodes = [])
    ∧ (let s := State.later 20000 noded; cycleDue s 2 = true ∧ (s.line 2).state = .up ∧ (s.line 2).nextPoll 1 = some 7 ∧ (s.line 2).node? 7 = some (nodeAt 7 .marshal .present)
      ∧ (nodeAt 7 .marshal .present).busyUntil = none) := by and_intros <;> decide
theorem witness_LineTimersTakeEffect_counts : Counts (busyLine [pollOf 7]) ∧ Counts (State.later 20000 lined) ∧ Counts (State.later 20000 noded) :=
  ⟨counts_of (by decide), counts_of (by decide), counts_of (by decide)⟩

def driven : State := run1 (.driveOutput q0 3 0 5000) base
def closing (k since : Nat) (s : State) : State := { s with io := { s.io with inputs := s.io.inputs.set k ⟨.plain, 50, .closed, ⟨since, 50⟩, ⟨since, 50⟩, some .opened⟩ } }
theorem witness_WiringEventsTakeEffect : ((State.later 5000 driven).running = true ∧ ((State.later 5000 driven).output 3).releaseAt = some 105000 ∧ 105000 ≤ (State.later 5000 driven).elapsed)
    ∧ (base.output 3).releaseAt = none ∧ (State.later 4999 driven).elapsed < 105000 ∧ (base.input 4).reading = .opened
    ∧ ((base.input 4).reading ≠ .highZ ∧ (base.input 4).reading ≠ .closed ∧ base.io.inFunc 4 ≠ .reference)
    ∧ ((closing 4 99951 base).running = true ∧ ((closing 4 99951 base).input 4).counted = ⟨99951, 50⟩ ∧ ((closing 4 99951 base).elapsed : Int) < 99951 + 50)
    ∧ (((closing 4 99950 base).input 4).counted = ⟨99950, 50⟩ ∧ 99950 + 50 ≤ ((closing 4 99950 base).elapsed : Int) ∧ (closing 4 99950 base).io.inFunc 4 = .plain)
    ∧ (let s := closing 11 99950 zoned; s.running = true ∧ (s.input 11).exact = ⟨99950, 50⟩ ∧ 99950 + 50 ≤ (s.elapsed : Int) ∧ s.io.inFunc 11 = .fireAlarm
      ∧ (s.input 11).reading = .closed ∧ (s.input 11).value = some .opened ∧ s.dc.active = none ∧ ∀ l, l < 8 → (s.line l).cfg.enabled = false) := by
  and_intros <;> decide
theorem witness_WiringEventsTakeEffect_rest : Counts (State.later 5000 driven) ∧ Counts (closing 4 99950 base) ∧ Counts (closing 11 99950 zoned)
    ∧ (∀ z, ((closing 11 99950 zoned).zone z).holder = none) ∧ NoWaiters (closing 11 99950 zoned) :=
  ⟨counts_of (by decide), counts_of (by decide), counts_of (by decide), noHolder_of (by decide), noWaiters_of (by decide)⟩

/-- An input with a function, whose reading has held for exactly its 50 ms. -/
def wired (k : Nat) (f : InFunc) (r : Reading) (v : Option Contact) (s : State) : State := { s with io := { s.io with
  inputs := s.io.inputs.set k ⟨f, 50, r, ⟨99950, 50⟩, ⟨99950, 50⟩, v⟩ } }
def tailNow : State := talking.setAnn 0 fun a => { a with talk := some .tail, tailEnd := some 100400, noTalkAt := none }
/-- Each function's closing and opening, each kind of drill for a MARSHAL CLEAR, each refusal of a DRILL KEY, each talk state, and K11's values and supervision. -/
theorem witness_InputsAreHandedOn : (let s := wired 4 (.bellPush 5 3) .closed (some .opened) (sched [] zoned); s.running = true ∧ s.io.inFunc 4 = .bellPush 5 3 ∧ (s.input 4).reading = .closed
      ∧ (s.input 4).value = some .opened ∧ (s.input 4).counted.since + (s.input 4).counted.time ≤ (s.elapsed : Int) ∧ s.pu.lastPush.getD 4 none = none
      ∧ (s.pattern 4).steps = [] ∧ s.group 6 = 0)
    ∧ (let s := wired 4 (.bellPush 5 3) .closed (some .opened) ringing; { s with pu := { s.pu with lastPush := s.pu.lastPush.set 4 (some 63) } }.pu.lastPush.getD 4 none = some 63)
    ∧ (let s := wired 4 (.bellPush 5 3) .opened (some .closed) zoned; (s.input 4).reading ≠ .closed ∧ (s.input 4).value = some .closed)
    ∧ (let s := wired 4 (.marshalClear 2) .closed (some .opened) drilling; s.io.inFunc 4 = .marshalClear 2 ∧ s.dc.active = some (drillOf s) ∧ (drillOf s).phase = .sounding
      ∧ (drillOf s).buildings = [⟨2, none, none, false⟩] ∧ (drillOf s).tone = false ∧ (drillOf s).channel = none ∧ ∀ e, e ∈ (drillOf s).zones → (s.zoneRec e.zone).sounds = false)
    ∧ ((drillOf bareDrill).phase ≠ .sounding ∧ (drillOf bareDrill).buildings = [⟨2, none, none, false⟩, ⟨3, some 20000, none, false⟩] ∧ base.dc.active = none)
    ∧ (drilled.dc.records.getD 0 DrillRec.undefined).defined = false ∧ drilling.dc.active ≠ none ∧ onFire.dc.silenceHeld = true
    ∧ (let s := wired 4 (.drillKey 1) .closed (some .opened) drilled; s.io.inFunc 4 = .drillKey 1 ∧ (s.dc.records.getD 1 DrillRec.undefined) = drillRec1 ∧ s.tb.campus ≠ none
      ∧ s.dc.fireActive = false ∧ s.dc.silenceHeld = false ∧ s.dc.active = none ∧ drillZones s drillRec1 = [16])
    ∧ (let s := wired 4 (.ptt 0) .closed none talking; s.io.inFunc 4 = .ptt 0 ∧ s.au.anns = [annOf s] ∧ (annOf s).source = .live 0 ∧ (annOf s).st ≠ .ending
      ∧ (s.input 4).value ≠ some .closed ∧ (annOf s).talk = some .beforeTalk ∧ (annOf tailNow).talk = some .tail)
    ∧ (let s := wired 4 (.ptt 0) .opened (some .closed) talkingNow; s.io.inFunc 4 = .ptt 0 ∧ s.au.anns = [annOf s] ∧ (annOf s).talk = some .talking ∧ (annOf s).channel = some 0
      ∧ (∀ j, j < 12 → j ≠ 4 → s.io.inFunc j ≠ .ptt 0) ∧ (s.channel 0).cfg.liveTail ≠ 0)
    ∧ (let s := wired 11 .plain .opened (some .closed) onFire; s.io.inFunc 11 = .fireAlarm ∧ (s.input 11).reading = .opened ∧ (s.input 11).value = some .closed
      ∧ (s.input 11).exact.since + (s.input 11).exact.time ≤ (s.elapsed : Int))
    ∧ (let s := wired 11 .plain .highZ (some .opened) zoned; s.io.inFunc 11 = .fireAlarm ∧ (s.input 11).reading = .highZ ∧ s.io.fireOpen = false)
    ∧ (let s := { wired 4 .plain .closed none zoned with supply := ⟨true, true, true, .cold⟩ }; s.supply.main = true ∧ s.supply.settling = true ∧ (s.input 4).value = none)
    ∧ (wired 0 .reference .closed none base).io.inFunc 0 = .reference := by and_intros <;> decide
theorem witness_InputsAreHandedOn_rest : Counts (wired 4 (.bellPush 5 3) .closed (some .opened) (sched [] zoned)) ∧ Counts (wired 4 (.marshalClear 2) .closed (some .opened) drilling)
    ∧ BellReady 5 3 16 0 (sched [] zoned) ∧ FreeZone 16 drilled ∧ NoWaiters drilled :=
  ⟨counts_of (by decide), counts_of (by decide), bellReady_of _, drilled_free, noWaiters_of (by decide)⟩
/-- R91: the bell of a push sounds at level 6; R132: the last building's report ends SOUNDING; R127: the key starts its drill; R122: the last opening begins the tail. -/
theorem test_handedOn : after (.debouncedValueChange 4) (wired 4 (.bellPush 5 3) .closed (some .opened) (sched [] zoned)) (fun t => (t.pu.bells.map (·.level)) = [6] && t.zoneState 16 = .bell)
    ∧ after (.debouncedValueChange 4) (wired 4 (.marshalClear 2) .closed (some .opened) drilling) (fun t => t.phase? = some .evacuating)
    ∧ after (.debouncedValueChange 4) (wired 4 (.drillKey 1) .closed (some .opened) drilled) (fun t => t.zoneState 16 = .evac)
    ∧ after (.debouncedValueChange 4) (wired 4 (.ptt 0) .opened (some .closed) talkingNow) (fun t => (t.ann? 0).bind (·.tailEnd) = some 100500) := by and_intros <;> decide

end Sys2Proof.Tests
end

