-- ==== Sys2Proof/Proofs/SetTrim.lean ====
section
/-! SUPPORT. SET TRIM (R19): how a number is clamped, what a request that reaches the part comes to, and what the decision of a SET TRIM leaves. -/

namespace Sys2Proof.Machine
open Sys2Proof

/-! ### Clamping -/

theorem clampInt_of_mem {lo hi v : Int} (h1 : lo ≤ v) (h2 : v ≤ hi) : clampInt lo hi v = v := by
  simp only [clampInt, if_neg (not_lt.mpr h1), if_neg (not_lt.mpr h2)]

theorem clampInt_of_lt {lo hi v : Int} (h : v < lo) : clampInt lo hi v = lo := if_pos h

theorem clampInt_of_gt {lo hi v : Int} (hlh : lo ≤ hi) (h : hi < v) : clampInt lo hi v = hi := by
  simp only [clampInt, if_neg (not_lt.mpr (hlh.trans h.le)), if_pos h]

/-- The outcome of a value that may be clamped is DONE exactly when the value stands. -/
theorem ofClamped_bne (x v : Int) : Outcome.ofClamped (x != v) = if x = v then .done else .doneClamped := by
  by_cases h : x = v <;> simp [Outcome.ofClamped, h]

/-! ### A request that reaches the part -/

/-- R192, R193: the slot is taken and the decision made in one event. -/
theorem request_of_reaches {q : ReqHdr} {s : State} (h : s.reaches q = true) (f : Ctx → Ctx) :
    request q f s = (f ((s.takeSlot q).beginFor q.tag)).close := if_pos h

/-- A decision that leaves no answer and no call is the whole event. -/
theorem request_done {q : ReqHdr} {s : State} {f : Ctx → Ctx} (h : s.reaches q = true)
    (ha : (f ((s.takeSlot q).beginFor q.tag)).ans = []) (ht : (f ((s.takeSlot q).beginFor q.tag)).todo = []) :
    request q f s = (f ((s.takeSlot q).beginFor q.tag)).st :=
  (request_of_reaches h f).trans (close_done ha ht)

/-- What a request's decision starts from. -/
theorem beginFor_takeSlot_st (q : ReqHdr) (s : State) : ((s.takeSlot q).beginFor q.tag).st = s.taking q := rfl

/-! ### The decision -/

/-- R12, R19: the Time Base with a new trim; the learning baseline begins now in PULSE without loss and with Pc at 0, is none otherwise, and is then
awaited in PULSE. -/
def TimeBase.retrimmed (trim : Int) (now : Nat) (tb : TimeBase) : TimeBase := { tb with
  trim := trim
  baseline := if tb.refMode = .pulse ∧ tb.refLost = false ∧ tb.pc = 0 then some now else none
  baselineAwaited := if tb.refMode = .pulse ∧ ¬ (tb.refLost = false ∧ tb.pc = 0) then true else tb.baselineAwaited }

theorem retrimmed_learning {tb : TimeBase} (trim : Int) (now : Nat) (hm : tb.refMode = .pulse) (hl : tb.refLost = false ∧ tb.pc = 0) :
    tb.retrimmed trim now = { tb with trim := trim, baseline := some now } := by
  simp [TimeBase.retrimmed, hm, hl]

theorem retrimmed_awaiting {tb : TimeBase} (trim : Int) (now : Nat) (hm : tb.refMode = .pulse) (hl : ¬ (tb.refLost = false ∧ tb.pc = 0)) :
    tb.retrimmed trim now = { tb with trim := trim, baseline := none, baselineAwaited := true } := by
  simp only [TimeBase.retrimmed, hm, hl, and_false, if_false, not_false_eq_true, and_true, if_true]

theorem retrimmed_free {tb : TimeBase} (trim : Int) (now : Nat) (hm : tb.refMode ≠ .pulse) :
    tb.retrimmed trim now = { tb with trim := trim, baseline := none } := by
  simp [TimeBase.retrimmed, hm]

/-- The Time Base that the decision of a SET TRIM writes is the retrimmed one. -/
theorem setTrim_tb (trim : Int) (now : Nat) (tb : TimeBase) :
    (if tb.refMode = .pulse && !tb.refLost && tb.pc = 0 then { tb with trim := trim, baseline := some now }
     else { tb with trim := trim, baseline := none, baselineAwaited := tb.baselineAwaited || tb.refMode = .pulse }) = tb.retrimmed trim now := by
  by_cases hm : tb.refMode = .pulse
  · by_cases hl : tb.refLost = false ∧ tb.pc = 0
    · rw [retrimmed_learning trim now hm hl, if_pos (by simp [hm, hl])]
    · rw [retrimmed_awaiting trim now hm hl, if_neg (by simpa [hm] using hl)]
      simp [hm]
  · rw [retrimmed_free trim now hm, if_neg (by simp [hm])]
    simp [hm]

/-- TRIM CHANGED for a request: the old trim, the new trim and the cause HOST. -/
def trimNote (tag : Word) (old new : Int) : Note := ⟨.trimChanged, .routine, .tb, 0, tag, dvi old, dvi new, dv 0⟩

/-- R19: the clamped value becomes the trim, TRIM CHANGED is written, and then the request is answered. -/
theorem decideSetTrim_st (q : ReqHdr) (v : Int) (c : Ctx) : (decideSetTrim q v c).st =
    State.answer q (if clampInt (-5000) 5000 v = v then .done else .doneClamped) [numWord (clampInt (-5000) 5000 v)]
      (State.record (trimNote c.tag c.st.tb.trim (clampInt (-5000) 5000 v))
        (c.st.setTb (TimeBase.retrimmed (clampInt (-5000) 5000 v) c.st.elapsed))) := by
  simp only [decideSetTrim, setTrim_tb, ofClamped_bne, Ctx.upd_st, Ctx.record_st]
  rfl

@[simp] theorem decideSetTrim_ans (q : ReqHdr) (v : Int) (c : Ctx) : (decideSetTrim q v c).ans = c.ans := rfl
@[simp] theorem decideSetTrim_todo (q : ReqHdr) (v : Int) (c : Ctx) : (decideSetTrim q v c).todo = c.todo := rfl

theorem exec_setTrim (q : ReqHdr) (v : Int) (s : State) : exec (.setTrim q v) s = .next (request q (decideSetTrim q v) s) := rfl

/-- A SET TRIM that reaches the part is its decision from the state that took the slot: it hands nothing to another block. -/
theorem exec_setTrim_of_reaches {q : ReqHdr} {s : State} (v : Int) (h : s.reaches q = true) :
    exec (.setTrim q v) s = .next (decideSetTrim q v ((s.takeSlot q).beginFor q.tag)).st := by
  rw [exec_setTrim, request_done h (by simp) (by simp)]

/-- Settles O16: the trim is the value clamped to −5000 to +5000, in every time state. -/
theorem setTrimClampsAndAnswers : Obligations.SetTrimClampsAndAnswers := by
  intro q v s h
  refine ⟨clampInt (-5000) 5000 v, clampInt_of_mem, clampInt_of_lt, clampInt_of_gt (by decide), ?_⟩
  rw [exec_setTrim_of_reaches v h, decideSetTrim_st, beginFor_takeSlot_st]
  rfl

end Sys2Proof.Machine
end

