-- ==== Sys2Proof/Proofs/SetFlags.lean ====
section
/-! SUPPORT. SET FLAGS (R33, R34): what a flag change does to each flag, when it writes its record, and what the decision of a SET FLAGS leaves. -/

namespace Sys2Proof.Machine
open Sys2Proof

/-! ### The masks -/

/-- R33's table, read for one flag. -/
theorem getLsbD_flagChange (m1 m2 f : Set8) {i : Nat} (hi : i < 8) :
    (flagChange m1 m2 f).getLsbD i = match m2.getLsbD i, m1.getLsbD i with
      | false, false => f.getLsbD i
      | false, true => true
      | true, false => false
      | true, true => !f.getLsbD i := by
  simp only [flagChange, BitVec.getLsbD_or, BitVec.getLsbD_and, BitVec.getLsbD_not, hi, decide_true, Bool.true_and]
  cases m2.getLsbD i <;> cases m1.getLsbD i <;> simp

/-- M1 alone sets its flags and leaves the others. -/
theorem flagChange_set (m f : Set8) : flagChange m 0 f = f ||| m := by
  ext i hi
  simp only [flagChange, BitVec.getElem_or, BitVec.getElem_and, BitVec.getElem_not]
  cases m[i] <;> simp

/-- A mask in both toggles its flags and leaves the others. -/
theorem flagChange_toggle (m f : Set8) : flagChange m m f = f ^^^ m := by
  ext i hi
  simp only [flagChange, BitVec.getElem_or, BitVec.getElem_and, BitVec.getElem_not, BitVec.getElem_xor]
  cases m[i] <;> simp

/-- Flags that are set and then toggled are 0. -/
theorem flagChange_toggle_set_and (m f : Set8) : flagChange m m (flagChange m 0 f) &&& m = 0 := by
  rw [flagChange_toggle, flagChange_set]
  ext i hi
  simp only [BitVec.getElem_and, BitVec.getElem_xor, BitVec.getElem_or]
  cases m[i] <;> simp

/-- Flags that are toggled and then set are 1. -/
theorem flagChange_set_toggle_and (m f : Set8) : flagChange m 0 (flagChange m m f) &&& m = m := by
  rw [flagChange_set, flagChange_toggle]
  ext i hi
  simp only [BitVec.getElem_and, BitVec.getElem_xor, BitVec.getElem_or]
  cases m[i] <;> simp

/-! ### A flag change and its record -/

theorem changeFlags_of_eq {m1 m2 : Set8} {c : Ctx} (h : flagChange m1 m2 c.st.dp.flags = c.st.dp.flags) (cause : Nat) (tag : Word) :
    changeFlags m1 m2 cause tag c = c := if_pos h

theorem changeFlags_of_ne {m1 m2 : Set8} {c : Ctx} (h : flagChange m1 m2 c.st.dp.flags ≠ c.st.dp.flags) (cause : Nat) (tag : Word) :
    changeFlags m1 m2 cause tag c =
      (c.upd fun s => { s with dp := { s.dp with flags := flagChange m1 m2 c.st.dp.flags } }).record
        (dpNote .flagsChanged tag (setNum c.st.dp.flags) (setNum (flagChange m1 m2 c.st.dp.flags)) (dv cause)) := if_neg h

/-- FLAGS CHANGED is written exactly when the flags differ. -/
theorem changeFlags_st (m1 m2 : Set8) (cause : Nat) (tag : Word) (c : Ctx) : (changeFlags m1 m2 cause tag c).st =
    if flagChange m1 m2 c.st.dp.flags = c.st.dp.flags then c.st
    else State.record (dpNote .flagsChanged tag (setNum c.st.dp.flags) (setNum (flagChange m1 m2 c.st.dp.flags)) (dv cause))
      { c.st with dp := { c.st.dp with flags := flagChange m1 m2 c.st.dp.flags } } := by
  by_cases h : flagChange m1 m2 c.st.dp.flags = c.st.dp.flags
  · rw [if_pos h, changeFlags_of_eq h]
  · rw [if_neg h, changeFlags_of_ne h, Ctx.record_st, Ctx.upd_st]

/-- Whether a record is written or not, the flags are then those of the masks. -/
@[simp] theorem changeFlags_flags (m1 m2 : Set8) (cause : Nat) (tag : Word) (c : Ctx) :
    (changeFlags m1 m2 cause tag c).st.dp.flags = flagChange m1 m2 c.st.dp.flags := by
  by_cases h : flagChange m1 m2 c.st.dp.flags = c.st.dp.flags
  · rw [changeFlags_of_eq h, h]
  · rw [changeFlags_of_ne h]
    rfl

@[simp] theorem changeFlags_ans (m1 m2 : Set8) (cause : Nat) (tag : Word) (c : Ctx) : (changeFlags m1 m2 cause tag c).ans = c.ans := by
  by_cases h : flagChange m1 m2 c.st.dp.flags = c.st.dp.flags
  · rw [changeFlags_of_eq h]
  · rw [changeFlags_of_ne h, Ctx.record_ans, Ctx.upd_ans]

@[simp] theorem changeFlags_todo (m1 m2 : Set8) (cause : Nat) (tag : Word) (c : Ctx) : (changeFlags m1 m2 cause tag c).todo = c.todo := by
  by_cases h : flagChange m1 m2 c.st.dp.flags = c.st.dp.flags
  · rw [changeFlags_of_eq h]
  · rw [changeFlags_of_ne h, Ctx.record_todo, Ctx.upd_todo]

/-! ### The decision -/

/-- R34: the flags are changed with the cause HOST, and then the request is answered with the flags before and after. -/
theorem decideSetFlags_st (q : ReqHdr) (m1 m2 : Set8) (c : Ctx) : (decideSetFlags q m1 m2 c).st =
    State.answer q .done [c.st.dp.flags.setWidth 32, (flagChange m1 m2 c.st.dp.flags).setWidth 32]
      (changeFlags m1 m2 flagsHost c.tag c).st := by
  simp only [decideSetFlags, Ctx.upd_st, changeFlags_flags]

@[simp] theorem decideSetFlags_ans (q : ReqHdr) (m1 m2 : Set8) (c : Ctx) : (decideSetFlags q m1 m2 c).ans = c.ans := by
  simp only [decideSetFlags, Ctx.upd_ans, changeFlags_ans]

@[simp] theorem decideSetFlags_todo (q : ReqHdr) (m1 m2 : Set8) (c : Ctx) : (decideSetFlags q m1 m2 c).todo = c.todo := by
  simp only [decideSetFlags, Ctx.upd_todo, changeFlags_todo]

theorem exec_setFlags (q : ReqHdr) (m1 m2 : Set8) (s : State) : exec (.setFlags q m1 m2) s = .next (request q (decideSetFlags q m1 m2) s) := rfl

/-- A SET FLAGS that reaches the part is its decision from the state that took the slot: it hands nothing to another block. -/
theorem exec_setFlags_of_reaches {q : ReqHdr} {s : State} (m1 m2 : Set8) (h : s.reaches q = true) :
    exec (.setFlags q m1 m2) s = .next (decideSetFlags q m1 m2 ((s.takeSlot q).beginFor q.tag)).st := by
  rw [exec_setFlags, request_done h (by simp) (by simp)]

/-- Settles O15: the new flags are `flagChange m1 m2` of the old ones, in every time state. -/
theorem setFlagsChangesEachFlag : Obligations.SetFlagsChangesEachFlag := by
  refine ⟨fun q m1 m2 s h => ⟨flagChange m1 m2 s.dp.flags, fun i hi => getLsbD_flagChange m1 m2 _ hi, ?_⟩,
    fun m1 m2 cause tag c => ⟨fun h => changeFlags_of_eq h cause tag, fun h => ?_⟩,
    fun m f => ⟨flagChange_toggle_set_and m f, flagChange_set_toggle_and m f⟩⟩
  · rw [exec_setFlags_of_reaches m1 m2 h, decideSetFlags_st, changeFlags_st, beginFor_takeSlot_st]
    rfl
  · rw [changeFlags_st, if_neg h]
    rfl

end Sys2Proof.Machine
end

