-- ==== Sys2Proof/Proofs/Standing.lean ====
section
/-! SUPPORT. Every command keeps the standing conditions (`Sound`): the region's form, the numbers of the log, the counts, fire silence and the queue. -/

namespace Sys2Proof.Machine
open Sys2Proof

/-! ### The shapes of a command's effect -/

/-- A command answers a next state, which keeps the standing conditions. -/
def Keeps (s : State) (r : Result) : Prop := ∃ t, r = .next t ∧ Sound s t

theorem keeps_next {s t : State} (h : Sound s t) : Keeps s (.next t) := ⟨t, rfl, h⟩
theorem keeps_event {s : State} {f : Ctx → Ctx} (hf : ∀ c, CSound c (f c)) : Keeps s (.next (event f s)) := keeps_next (event_sound hf s)
theorem keeps_eventWhen {s : State} {p : Bool} {f : Ctx → Ctx} (hf : ∀ c, CSound c (f c)) : Keeps s (.next (eventWhen p f s)) :=
  keeps_next (eventWhen_sound hf s)
theorem keeps_request {s : State} {q : ReqHdr} {f : Ctx → Ctx} (hf : ∀ c, CSound c (f c)) : Keeps s (.next (request q f s)) :=
  keeps_next (request_sound hf s)
theorem keeps_completion {s : State} {p : Access → Bool} {f : Access → Ctx → Ctx} (hf : ∀ a c, CSound c (f a c)) :
    Keeps s (.next (completion p f s)) := keeps_next (completion_sound hf s)
theorem keeps_recordDone {s : State} {t : TableCode} {q : State → Option ReqHdr} {f : Ctx → Ctx} (hf : ∀ c, CSound c (f c)) :
    Keeps s (.next (recordDone t q f s)) := keeps_next (recordDone_sound hf s)

/-- An event that comes about whether or not the part is in operation. -/
theorem begin_close_sound {f : Ctx → Ctx} (hf : ∀ c, CSound c (f c)) (s : State) : Sound s (f s.begin).close :=
  (begin_sound s).trans (Sound.trans (hf _) (close_sound _))

theorem ite_sound {p : Prop} [Decidable p] {s t u : State} (ht : Sound s t) (hu : Sound s u) : Sound s (if p then t else u) := by
  split
  · exact ht
  · exact hu

/-- A write of a register leaves the region and the log's numbers alone. -/
theorem registerWrite_sound {f : RegionIf → RegionIf} (s : State) (hr : (f s.ri).region = s.ri.region) (hl : LogSound s.ri → LogSound (f s.ri)) :
    Sound s (registerWrite f s) :=
  ite_sound (Sound.of_ri s f (fun h => hr ▸ h) hl) (Sound.refl s)

/-- A change of the supply, the elapsed time and the Time Base alone. -/
theorem Sound.of_clock (s : State) (u : Supply) (e : Nat) (tb : TimeBase) : Sound s { s with supply := u, elapsed := e, tb := tb } := by
  apply Sound.of_blocks <;> rfl

theorem csound_turn {c d : Ctx} (h : CTurn c d) : CSound c d := h.st.toSound

/-! ### The events whose operation is written where the command is -/

theorem frameSent_csound (ln : Nat) (c : Ctx) : CSound c (frameSent ln c) := by
  unfold frameSent
  dsimp only
  split
  · split
    · exact CSound.refl c
    · split
      · exact csound_turn (completeTx_cturn (CTurn.refl c))
      · exact upd_setLine_csound (CSound.refl c)
  · exact CSound.refl c

theorem preferPath_cturn (ln : Nat) (f : InFlight) (c : Ctx) : CTurn c (preferPath ln f c) := by
  unfold preferPath
  split
  · split
    · exact CTurn.refl c
    · exact upd_setNode_cturn (CTurn.refl c)
  · exact CTurn.refl c

theorem assignCalls_noStart (ln : Nat) (f : InFlight) (r : Reply) : NoStart (assignCalls ln f r) := by
  intro q n h
  unfold assignCalls at h
  split at h
  · split at h <;> simp at h
  · simp at h

theorem replyReceived_csound (ln : Nat) (r : Reply) (c : Ctx) : CSound c (replyReceived ln r c) := by
  unfold replyReceived
  split
  · split
    · split
      · exact csound_turn (completeTx_cturn (call_cturn (preferPath_cturn ln _ c) (assignCalls_noStart ln _ r)))
      · exact csound_turn (nextAttempt_cturn (CTurn.refl c))
    · exact CSound.refl c
  · exact CSound.refl c

theorem attemptTimeout_csound (ln : Nat) (r : PathCond) (c : Ctx) : CSound c (attemptTimeout ln r c) := by
  unfold attemptTimeout
  split
  · split
    · exact csound_turn (nextAttempt_cturn (readPath_cturn (CTurn.refl c)))
    · exact CSound.refl c
  · exact CSound.refl c

theorem busyHoldEnd_csound (ln a : Nat) (c : Ctx) : CSound c (busyHoldEnd ln a c) := by
  unfold busyHoldEnd
  split
  · split
    · exact csound_turn (settleLine_cturn (upd_setNode_cturn (CTurn.refl c)))
    · exact CSound.refl c
  · exact CSound.refl c

theorem chimeStep_csound (n : Nat) (c : Ctx) : CSound c (chimeStep n c) := by
  refine csound_turn (annTimer_cturn (CTurn.refl c) fun a d h => ?_)
  split
  · exact upd_setChannel_cturn h
  · exact h

/-- A timer of an announcement keeps the standing conditions when what it sets off does. -/
theorem annTimer_csound {n : Nat} {due : State → Ann → Bool} {act : Ann → Ctx → Ctx} (ha : ∀ a c, CTurn c (act a c)) (c : Ctx) :
    CSound c (annTimer n due act c) := by
  unfold annTimer
  split
  · exact CSound.refl c
  · split
    · exact csound_turn (ha _ _)
    · exact CSound.refl c

theorem starve_csound (ch : Nat) (c : Ctx) : CSound c ((fun c : Ctx =>
    let k := c.st.channel ch
    match k.owner with
    | some (.ann n) =>
      annTimer n (fun s a => a.st = .playing && k.starveFrom.any fun t => t + k.cfg.starveLimit ≤ s.elapsed)
        (fun _ => annEnd n .starved false) c
    | _ => c) c) := by
  dsimp only
  split
  · exact annTimer_csound (fun a c => annEnd_cturn (CTurn.refl c)) c
  · exact CSound.refl c

theorem forAnn_csound {id : Nat} {f : Nat → Ctx → Ctx} {c0 c : Ctx} (h : CSound c0 c) (hf : ∀ n, CTurn c (f n c)) : CSound c0 (forAnn id f c) := by
  unfold forAnn
  split
  · exact csound_of_turn h (hf _)
  · exact h

theorem idleTick_sound (s : State) : Sound s (idleTick s) := by
  unfold idleTick
  exact ite_sound (Sound.of_clock s _ _ _) (ite_sound (Sound.of_clock s _ _ _) (Sound.refl s))

/-! ### Every command -/

/-- Every request is taken and decided by `decideRequest` in one event. -/
theorem exec_of_reqHdr {i : Instr} {q : ReqHdr} (h : reqHdr? i = some q) (s : State) : exec i s = .next (request q (decideRequest i) s) := by
  cases i <;> simp only [reqHdr?, Option.some.injEq, reduceCtorEq] at h <;> subst h <;> rfl

theorem request_keeps {i : Instr} {q : ReqHdr} (h : reqHdr? i = some q) (s : State) : Keeps s (exec i s) := by
  rw [exec_of_reqHdr h]
  exact keeps_request fun c => decideRequest_csound (CSound.refl c)

/-- Every command answers a next state, which keeps the standing conditions. -/
theorem exec_keeps (i : Instr) (s : State) : Keeps s (exec i s) := by
  have r := CSound.refl
  cases i with
  | run v => exact keeps_next (ite_sound (begin_close_sound (fun c => writeRun_csound (r c)) s) (Sound.refl s))
  | intEnable v => exact keeps_next (registerWrite_sound s rfl fun h => ⟨h.1, h.2, h.3, h.4, h.5, h.6⟩)
  | restart ps => exact keeps_event fun c => beginRetained_csound (r c)
  | factoryClear => exact keeps_eventWhen fun c => upd_csound (r c) (coldAgain_sound _)
  | regionBase w =>
    refine keeps_next (registerWrite_sound s ?_ ?_)
    · split <;> rfl
    · intro h; split <;> exact ⟨h.1, h.2, h.3, h.4, h.5, h.6⟩
  | attention w => exact keeps_eventWhen fun c => upd_csound (r c) (callScan_sound _)
  | cause w => exact keeps_next (registerWrite_sound s rfl fun h => ⟨h.1, h.2, h.3, h.4, h.5, h.6⟩)
  | causeEnable w => exact keeps_next (registerWrite_sound s rfl fun h => ⟨h.1, h.2, h.3, h.4, h.5, h.6⟩)
  | registerWriteOther o w => exact keeps_next (Sound.refl s)
  | hostFieldsRead l m n => exact keeps_completion fun _ c => hostFields_csound (r c)
  | slotRead d =>
    refine keeps_completion fun a c => ?_
    split
    · exact slotDone_csound (r c)
    · exact r c
  | readMarkRead m n =>
    refine keeps_completion fun a c => ?_
    have k := upd_csound (upd_csound (r c) (acceptMark_sound m n _)) (drain_sound drainSteps _)
    dsimp only
    split
    · exact upd_ask_csound k
    · exact k
  | snapshotWriteDone =>
    refine keeps_completion fun a c => ?_
    split
    · exact upd_csound (r c) (snapshotDone_sound _ _ _ _ _)
    · exact r c
  | profileRecordRead d => exact keeps_recordDone fun c => profileRead_csound (r c)
  | calendarSpanRead d => exact keeps_recordDone fun c => calendarRead_csound (r c)
  | zoneRecordRead d => exact keeps_recordDone fun c => zoneRead_csound (r c)
  | groupRecordRead d => exact keeps_recordDone fun c => groupRead_csound (r c)
  | patternRecordRead d => exact keeps_recordDone fun c => patternRead_csound (r c)
  | channelRecordRead d => exact keeps_recordDone fun c => channelRead_csound (r c)
  | drillRecordRead d => exact keeps_recordDone fun c => drillRead_csound (r c)
  | circuitRecordRead d => exact keeps_recordDone fun c => circuitRead_csound (r c)
  | lineRecordRead d ps => exact keeps_recordDone fun c => lineRead_csound (r c)
  | memberEntryRead d => exact keeps_recordDone fun c => memberRead_csound (r c)
  | ioRecordRead d => exact keeps_recordDone fun c => ioRead_csound (r c)
  | scheduleEntryRead d =>
    exact keeps_completion fun _ c => entryRead_csound (c := { c with tag := (s.se.switch.map (·.load.q.tag)).getD 0 }) (r c)
  | headerRead d =>
    refine keeps_completion fun a c => ?_
    split
    · exact forAnn_csound (r c) fun n => headerDone_cturn (CTurn.refl c)
    · exact r c
  | headerReread d =>
    refine keeps_completion fun a c => ?_
    split
    · exact forAnn_csound (r c) fun n => rereadDone_cturn (CTurn.refl c)
    · exact r c
  | fetchComplete d =>
    refine keeps_completion fun a c => ?_
    split
    · exact forAnn_csound (r c) fun n => fetchDone_cturn (CTurn.refl c)
    · exact r c
  | consumedWriteDone =>
    refine keeps_completion fun a c => ?_
    split
    · exact forAnn_csound (upd_csound (r c) (markConsumed_sound _ _)) fun n => consumedDone_cturn (CTurn.refl _)
    · exact r c
  | regionAccessBusError o =>
    refine keeps_next ?_
    split
    · exact completed_sound s
    · exact eventWhen_sound (fun c => enterLinkFault_csound (r c)) s
  | slotScanSecond => exact keeps_eventWhen fun c => upd_csound (r c) (Sound.trans (Sound.of_ri _ _ id fun h => ⟨h.1, h.2, h.3, h.4, h.5, h.6⟩) (callScan_sound _))
  | readMarkPoll => exact keeps_eventWhen fun c => upd_csound (r c) (Sound.trans (Sound.of_ri _ _ id fun h => ⟨h.1, h.2, h.3, h.4, h.5, h.6⟩) (ask_turn _ _).toSound)
  | controlBlockSecond => exact keeps_eventWhen fun c => upd_csound (r c) (Sound.trans (Sound.of_ri _ _ id fun h => ⟨h.1, h.2, h.3, h.4, h.5, h.6⟩) (mirrorAll_turn _).toSound)
  | timeAdvance => exact keeps_next (ite_sound (event_sound (fun c => tick_csound (r c)) s) (idleTick_sound s))
  | slewStep => exact keeps_eventWhen fun c => tick_csound (r c)
  | referencePulse => exact keeps_eventWhen fun c => takeReading_csound (r c)
  | referenceLost => exact keeps_eventWhen fun c => referenceLost_csound (r c)
  | lastValidPulseExpiry => exact keeps_eventWhen fun c => upd_setTb_csound (r c)
  | waitLimitExpiry z w => exact keeps_event fun c => csound_turn (expireClaim_cturn (CTurn.refl c))
  | cadenceStep k =>
    cases k with
    | bell n z => exact keeps_event fun c => csound_turn (bellStep_cturn (CTurn.refl c))
    | chime n => exact keeps_event (chimeStep_csound n)
    | drillZone z => exact keeps_event fun c => csound_turn (drillZoneStep_cturn (CTurn.refl c))
    | drillTone => exact keeps_event fun c => csound_turn (drillToneStep_cturn (CTurn.refl c))
  | bellCadenceEnd n z => exact keeps_event fun c => csound_turn (bellFinish_cturn (CTurn.refl c))
  | chimeEnd n =>
    refine keeps_event (annTimer_csound fun a c => ?_)
    split
    · exact annEnd_cturn (CTurn.refl c)
    · exact enterPlaying_cturn (CTurn.refl c)
  | drillZoneCadenceEnd z => exact keeps_event fun c => csound_turn (drillZoneEnd_cturn (CTurn.refl c))
  | allClearCadenceEnd z => exact keeps_event fun c => csound_turn (drillZoneEnd_cturn (CTurn.refl c))
  | routingTimer n => exact keeps_event (annTimer_csound fun a c => leaveRouting_cturn (CTurn.refl c))
  | maxDurationReached n => exact keeps_event (annTimer_csound fun a c => annEnd_cturn (CTurn.refl c))
  | waitingMaxDuration n => exact keeps_event (annTimer_csound fun a c => annEnd_cturn (CTurn.refl c))
  | resumeDeadline n => exact keeps_event (annTimer_csound fun a c => annEnd_cturn (CTurn.refl c))
  | awaitingRereadTimer n => exact keeps_event fun c => csound_turn (awaitTimer_cturn (CTurn.refl c))
  | samplesPlayed ch live => exact keeps_event fun c => csound_turn (playChannel_cturn (CTurn.refl c))
  | starveLimit ch => exact keeps_event (starve_csound ch)
  | noTalk n => exact keeps_event (annTimer_csound fun a c => annEnd_cturn (CTurn.refl c))
  | liveTailEnd n => exact keeps_event (annTimer_csound fun a c => endTalk_cturn (CTurn.refl c))
  | soundingTimeReached => exact keeps_eventWhen fun c => csound_turn (soundingEnd_cturn (CTurn.refl c))
  | evacuationTargetReached => exact keeps_eventWhen fun c => csound_turn (targetReached_cturn (CTurn.refl c))
  | pulseStart i => exact keeps_event fun c => csound_turn (pulseStart_cturn (CTurn.refl c))
  | pulseComplete i b => exact keeps_event fun c => csound_turn (pulseComplete_cturn (CTurn.refl c))
  | frameSent ln => exact keeps_event (frameSent_csound ln)
  | replyReceived ln p => exact keeps_event (replyReceived_csound ln p)
  | attemptTimeout ln p => exact keeps_event (attemptTimeout_csound ln p)
  | busyHoldEnd ln a => exact keeps_event (busyHoldEnd_csound ln a)
  | supervisionCycleStart ln rs => exact keeps_eventWhen fun c => cycleBegins_csound (csound_turn (readPaths_cturn (CTurn.refl c)))
  | plainDriveRelease o => exact keeps_eventWhen fun c => upd_setOutput_csound (r c)
  | inputReadingChange k x => exact keeps_next (ite_sound (begin_close_sound (fun c => takeReading_csound (r c)) s) (Sound.refl s))
  | debouncedValueChange k =>
    exact keeps_next (ite_sound (begin_close_sound (fun c => debounced_csound (r c)) s) (event_sound (fun c => debounced_csound (r c)) s))
  | mainSupplyLoss => exact keeps_next (ite_sound (Sound.of_clock s _ _ _) (Sound.refl s))
  | backupSupplyDrop => exact keeps_next (ite_sound (Sound.refl s) (Sound.of_clock s _ _ _))
  | mainSupplyReturn ps =>
    exact keeps_next (ite_sound (Sound.refl s) (ite_sound (begin_close_sound (fun c => beginRetained_csound (r c)) s) (coldAgain_sound s)))
  | settlingEnd => exact keeps_next (ite_sound (begin_close_sound (fun c => firstEvaluation_csound (r c)) s) (Sound.refl s))
  | settlingTimeout => exact keeps_next (ite_sound (begin_close_sound (fun c => firstEvaluation_csound (r c)) s) (Sound.refl s))
  | _ => exact request_keeps rfl s

theorem exec_sound {i : Instr} {s t : State} (h : exec i s = .next t) : Sound s t := by
  obtain ⟨u, hu, k⟩ := exec_keeps i s
  rw [hu] at h
  exact Host.Outcome.next.inj h ▸ k

/-- A step keeps the standing conditions; of the queue it takes the front. -/
theorem step_sound {s t : State} (h : step s = .next t) : Sound { s with pending := s.pending.tail } t := by
  unfold step at h
  split at h
  · rename_i hp
    rw [← Host.Outcome.next.inj h, hp]
    exact (show { s with pending := [] } = s by rw [← hp]) ▸ Sound.refl _
  · rename_i hp
    rw [hp]
    exact exec_sound h

/-! ### The statements -/

/-- Settles O1. -/
theorem stepRunsFrontCommand : Obligations.StepRunsFrontCommand := fun _ _ _ => rfl

/-- Settles O2. -/
theorem everyCommandCompletes : Obligations.EveryCommandCompletes := fun c s => by
  obtain ⟨t, h, k⟩ := exec_keeps c s
  exact ⟨t, h, k.pending⟩

/-- Settles O3. -/
theorem stepKeepsRegionForm : Obligations.StepKeepsRegionForm := fun _ _ h hs => (step_sound hs).region h

/-- Settles O4. -/
theorem stepKeepsFireSilence : Obligations.StepKeepsFireSilence := fun _ _ h hs => (step_sound hs).fire ⟨h.out, h.silent, h.feeds⟩

/-- Settles O5. -/
theorem stepKeepsLogNumbers : Obligations.StepKeepsLogNumbers := fun _ _ h hs => (step_sound hs).log h

/-- Settles O6. -/
theorem stepKeepsCounts : Obligations.StepKeepsCounts := fun _ _ h hs =>
  (step_sound hs).counts ⟨h.zones, h.feeds, h.channels, h.circuits, h.lines, h.inputs, h.outputs⟩

end Sys2Proof.Machine
end

