-- ==== Sys2Proof/Proofs/Cold.lean ====
section
/-! SUPPORT. The state right after reset: its values block by block, and the standing conditions it meets. -/

namespace Sys2Proof.Machine
open Sys2Proof

/-! ### The values at a cold start, place by place -/

theorem replicate_getD {α : Type} (n k : Nat) (x : α) : (List.replicate n x).getD k x = x := by
  simp only [List.getD_eq_getElem?_getD, List.getElem?_replicate]
  split <;> rfl

theorem reset_zone (z : Nat) : State.reset.zone z = ZoneDyn.clear := replicate_getD 64 z _
theorem reset_zoneRec (z : Nat) : State.reset.zoneRec z = ZoneRec.blank := replicate_getD 64 z _
theorem reset_group (g : Nat) : State.reset.group g = 0 := replicate_getD 64 g _
theorem reset_feed (b : Nat) : State.reset.za.feeds.getD b none = none := replicate_getD 8 b _
theorem reset_channel (k : Nat) : State.reset.channel k = Channel.free .default none := replicate_getD 4 k _
theorem reset_circuit (i : Nat) : State.reset.circuit i = Circuit.cold := replicate_getD 4 i _
theorem reset_line (l : Nat) : State.reset.line l = Line.cold := replicate_getD 8 l _
theorem reset_input (k : Nat) : State.reset.input k = Input.cold .opened := replicate_getD 12 k _
theorem reset_output (k : Nat) : State.reset.output k = Output.cold := replicate_getD 12 k _

theorem reset_zoneState (z : Nat) : State.reset.zoneState z = .out := by
  simp [State.zoneState, reset_zoneRec, ZoneRec.blank]

/-- Pattern 31 is the fixed one, and the others are empty (R99, R83). -/
theorem reset_pattern {p : Nat} (h : p ≤ 30) : (State.reset.pattern p).steps = [] := by
  have hp : p ≠ 31 := by omega
  have he : PatternUnit.cold.table.getD p Pattern.empty = Pattern.empty := replicate_getD 31 p _
  simp only [State.pattern, patternOf, hp, if_false]
  exact congrArg Pattern.steps he

theorem reset_drillRec {n : Nat} {r : DrillRec} (h : State.reset.dc.records[n]? = some r) : n < 8 ∧ r = DrillRec.undefined := by
  have h' : (List.replicate 8 DrillRec.undefined)[n]? = some r := h
  rw [List.getElem?_replicate] at h'
  split at h'
  · exact ⟨by assumption, (Option.some.inj h').symm⟩
  · exact absurd h' (by simp)

theorem reset_push {k : Nat} (h : k < 12) : State.reset.pu.lastPush[k]? = some none := by
  have hr : State.reset.pu.lastPush = List.replicate 12 none := rfl
  rw [hr, List.getElem?_replicate, if_pos h]

/-! ### The standing conditions -/

theorem reset_fireSilence : FireSilence State.reset where
  out := fun z _ _ => by rw [reset_zone]; exact ⟨rfl, rfl⟩
  silent := fun h => absurd h (by decide)
  feeds := fun h => absurd h (by decide)

theorem reset_logSound : LogSound State.reset.ri := by constructor <;> decide

theorem reset_counts : Counts State.reset := by constructor <;> rfl

theorem reset_highWaterSet : HighWaterSet State.reset := ⟨fun h => absurd h (by decide), fun _ _ _ => rfl⟩

/-- Settles O8. -/
theorem resetMeetsInvariants : Obligations.ResetMeetsInvariants :=
  ⟨reset_regionWf, reset_fireSilence, reset_logSound, reset_counts, reset_highWaterSet⟩

/-- Settles O9: each block's record is its cold one, and each list of fixed things holds its cold value at every place. -/
theorem resetLeavesColdValues : Obligations.ResetLeavesColdValues := by
  refine ⟨by decide, ⟨rfl, rfl, rfl, rfl, fun l _ => ?_⟩, by decide, by decide, fun z _ => ?_, ⟨reset_feed, by decide⟩,
    ⟨fun p hp => reset_pattern hp, by decide, rfl, rfl, rfl, fun k hk => reset_push hk⟩, ⟨⟨rfl, fun k _ => ?_, by decide⟩,
    ⟨fun n r h => ?_, by decide⟩, ⟨rfl, fun i _ => ?_, rfl, rfl⟩, ⟨fun k _ => ?_, by decide⟩, by decide⟩⟩
  · rw [reset_line]
    decide
  · rw [reset_zoneRec, reset_zoneState, reset_group, reset_zone]
    decide
  · rw [reset_channel]
    decide
  · obtain ⟨hn, rfl⟩ := reset_drillRec h
    exact ⟨hn, rfl, rfl, rfl, rfl, rfl, rfl⟩
  · rw [reset_circuit]
    decide
  · rw [reset_input, reset_output]
    decide

end Sys2Proof.Machine
end

