-- ==== Sys2Proof/Proofs/Derived.lean ====
section
/-! SUPPORT. The items the part derives: zone states, the time state, the relay demand, the outputs and the feeds. -/

namespace Sys2Proof.Machine
open Sys2Proof

/-! ### The states of a zone and of the time -/

theorem zoneState_of_out {s : State} {z : Nat} (h : (s.zoneRec z).enabled = false) : s.zoneState z = .out := by
  simp [State.zoneState, h]

theorem zoneState_of_free {s : State} {z : Nat} (h : (s.zoneRec z).enabled = true) (hn : (s.zone z).holder = none) :
    s.zoneState z = .idle := by
  simp [State.zoneState, h, hn]

theorem zoneState_of_held {s : State} {z : Nat} {h : Claim} (he : (s.zoneRec z).enabled = true) (hh : (s.zone z).holder = some h) :
    s.zoneState z = match h.who with
      | .bell _ => .bell
      | .ann _ => .page
      | .drill _ => .evac
      | .fire => .silenced := by
  simp only [State.zoneState, he, hh, if_true] <;> rfl

/-- R1's table, for a part that has a campus time. -/
theorem timeState_of_some {tb : TimeBase} (h : tb.campus ≠ none) : timeState tb =
    if tb.refMode = .pulse && tb.refLost then .holdover else if tb.pc ≠ 0 then .slewing else if tb.refMode = .pulse then .tracking else .free := by
  obtain ⟨t, ht⟩ := Option.ne_none_iff_exists'.mp h
  simp only [timeState, ht]

theorem timeState_unset_iff (tb : TimeBase) : tb.campus = none ↔ timeState tb = .unset := by
  by_cases h : tb.campus = none
  · simp [timeState, h]
  · rw [timeState_of_some h]
    refine iff_of_false h ?_
    split
    · simp
    · split
      · simp
      · split <;> simp

/-! ### The relay demand (R76) -/

/-- A zone drives its relays: it is BELL or EVAC with cadence step ON. -/
def State.drives (s : State) (z : Nat) : Prop := (s.zoneState z = .bell ∨ s.zoneState z = .evac) ∧ (s.zone z).cadence = .on

/-- The demand gathered over a list of zones has the relays of those that drive. -/
theorem relayFold_getLsbD (s : State) (r : Nat) (l : List Nat) (m : BitVec 12) :
    (l.foldl (fun m z =>
      if (s.zoneState z = .bell || s.zoneState z = .evac) && (s.zone z).cadence = .on then m ||| (s.zoneRec z).relays else m) m).getLsbD r = true
    ↔ m.getLsbD r = true ∨ ∃ z ∈ l, s.drives z ∧ (s.zoneRec z).relays.getLsbD r = true := by
  induction l generalizing m with
  | nil => simp
  | cons z l ih =>
    rw [List.foldl_cons, ih]
    by_cases hz : s.drives z
    · have hz' := hz
      simp only [State.drives] at hz'
      simp [hz', hz, or_assoc]
    · have hz' := hz
      simp only [State.drives] at hz'
      simp [hz', hz]

theorem relayDemand_getLsbD (s : State) (r : Nat) : s.relayDemand.getLsbD r = true ↔
    ∃ z, z < 64 ∧ s.drives z ∧ (s.zoneRec z).relays.getLsbD r = true := by
  simp only [State.relayDemand, relayFold_getLsbD, List.mem_range]
  simp

/-- R79: a zone that fire silence holds, or nothing, drives no relay. -/
theorem not_drives_of_silent {s : State} {z : Nat} (h : (s.zone z).silent) : ¬ s.drives z := by
  rintro ⟨hs, -⟩
  cases he : (s.zoneRec z).enabled with
  | false => simp [zoneState_of_out he] at hs
  | true =>
    cases hh : (s.zone z).holder with
    | none => simp [zoneState_of_free he hh] at hs
    | some x => simp [zoneState_of_held he hh, h.1 x hh] at hs

theorem relayDemand_of_fire {s : State} (h : FireSilence s) (hf : s.za.fireReported = true) : s.relayDemand = 0 := by
  apply BitVec.eq_of_getLsbD_eq
  intro r _
  rw [show BitVec.getLsbD 0 r = false by simp, Bool.eq_false_iff, Ne, relayDemand_getLsbD]
  rintro ⟨z, hz, hd, -⟩
  exact not_drives_of_silent (h.silent hf z hz) hd

/-! ### The outputs and the feeds -/

theorem energized_of_running {s : State} (h : s.running = true) (o : Nat) : s.energized o =
    match s.io.outFunc o with
    | .plain => (s.output o).driven
    | .zone => s.relayDemand.getLsbD o
    | .drillLamp => s.dc.active.isSome
    | .trouble => s.io.trouble &&& s.io.troubleMask == 0 := by
  rw [State.energized, h, Bool.true_and] <;> rfl

theorem energized_of_stopped {s : State} (h : s.running = false) (o : Nat) : s.energized o = false := by
  rw [State.energized, h, Bool.false_and]

theorem feedAudio_of_channel {s : State} {b ch : Nat} (h : s.feedChannel? b = some ch) :
    s.feedAudio b = some ⟨(s.channel ch).output, (s.channel ch).tone⟩ := by
  rw [State.feedAudio, h, Option.map_some]

/-- Settles O10: each item's lemma above. -/
theorem derivedItemsFollowState : Obligations.DerivedItemsFollowState := by
  refine ⟨fun s z => ⟨zoneState_of_out, zoneState_of_free, fun _ => zoneState_of_held⟩,
    fun tb => ⟨timeState_unset_iff tb, fun h hm hl => ?_, fun h hn hp => ?_, fun h hl hp hm => ?_, fun h hp hm => ?_⟩,
    fun s r => ?_, fun s => relayDemand_of_fire, fun s o => ⟨fun h => energized_of_stopped h o, fun h hf => ?_, fun h hf => ?_, fun h hf => ?_,
      fun h hf => ?_, fun h => ?_⟩, fun s b ch => ⟨fun h => ?_, fun f n a hf hw ha hc => ?_, fun f n d hf hw hd hc => ?_⟩⟩
  · simp [timeState_of_some h, hm, hl]
  · rw [timeState_of_some h, if_neg (by simpa using hn), if_pos hp]
  · simp [timeState_of_some h, hm, hl, hp]
  · simp [timeState_of_some h, hm, hp]
  · simp only [relayDemand_getLsbD, State.drives, and_assoc]
  · rw [energized_of_running h, hf]
  · rw [energized_of_running h, hf]
  · rw [energized_of_running h, hf]
  · rw [energized_of_running h, hf]
    exact beq_iff_eq
  · simp [IoUnit.outFunc, IoUnit.inFunc, h]
  · rw [State.feedAudio, State.feedChannel?, h]
    rfl
  · exact feedAudio_of_channel (by rw [State.feedChannel?, hf, Option.bind_some, hw]; simp [ha, hc])
  · exact feedAudio_of_channel (by rw [State.feedChannel?, hf, Option.bind_some, hw]; simp [hd, hc])

end Sys2Proof.Machine
end

