-- ==== Sys2Proof/Proofs/Registers.lean ====
section
/-! SUPPORT. The writes to the registers that act on RI alone (R187). -/

namespace Sys2Proof.Machine
open Sys2Proof

theorem registerWrite_of_main {s : State} (h : s.supply.main = true) (f : RegionIf → RegionIf) : registerWrite f s = s.setRi f := if_pos h

theorem clearCauses_getLsbD (cause written : BitVec 4) {i : Nat} (h : i < 4) :
    (clearCauses cause written).getLsbD i = (cause.getLsbD i && !written.getLsbD i) := by
  simp [clearCauses, h]

/-- The upper twelve bits of a word, as the part keeps them. -/
theorem baseBits (w : Word) : (w >>> 20).setWidth 12 = w.extractLsb 31 20 := by
  apply BitVec.eq_of_getLsbD_eq
  intro i hi
  simp only [BitVec.getLsbD_setWidth, BitVec.getLsbD_ushiftRight, BitVec.getLsbD_extractLsb]

/-- R187: the interrupt line is asserted while some cause is both present and enabled. -/
theorem interruptLine_iff (ri : RegionIf) : interruptLine ri = true ↔
    ri.intEnable = true ∧ ∃ i, i < 4 ∧ ri.cause.getLsbD i = true ∧ ri.causeEnable.getLsbD i = true := by
  rw [interruptLine, Bool.and_eq_true, bne_iff_ne]
  refine and_congr_right fun _ => ⟨fun h => ?_, fun ⟨i, _, hc, he⟩ h0 => ?_⟩
  · by_contra hn
    push Not at hn
    apply h
    apply BitVec.eq_of_getLsbD_eq
    intro i hi
    cases hc : ri.cause.getLsbD i with
    | false => simp [hc]
    | true => simpa [hc] using hn i hi hc
  · have hb := congrArg (fun m : BitVec 4 => m.getLsbD i) h0
    simp [hc, he] at hb

/-- Settles O11: each write is a change of one field of RI. -/
theorem registerWritesTakeEffect : Obligations.RegisterWritesTakeEffect := by
  intro s w v offset hm
  refine ⟨?_, fun hl => ?_, fun hl => ?_, ⟨_, congrArg Host.Outcome.next (registerWrite_of_main hm _), rfl, fun i hi => ?_⟩,
    ⟨_, congrArg Host.Outcome.next (registerWrite_of_main hm _), rfl, fun i hi => ?_⟩, rfl, interruptLine_iff s.ri⟩
  · exact congrArg Host.Outcome.next (registerWrite_of_main hm _)
  · show Host.Outcome.next (registerWrite _ s) = _
    rw [registerWrite_of_main hm, State.setRi, if_pos hl, baseBits]
  · show Host.Outcome.next (registerWrite _ s) = _
    rw [registerWrite_of_main hm, State.setRi, if_neg hl]
  · show (clearCauses s.ri.cause (w.setWidth 4)).getLsbD i = _
    rw [clearCauses_getLsbD _ _ hi, BitVec.getLsbD_setWidth]
    simp [hi]
  · show (w.setWidth 4).getLsbD i = _
    rw [BitVec.getLsbD_setWidth]
    simp [hi]

end Sys2Proof.Machine
end

