-- ==== Sys2Proof/Proofs/Events.lean ====
section
/-! SUPPORT. The shapes of an event's effect, for a part in operation: an event, one that waits for a condition, and the completion of the region access in
flight; and what an event comes to that hands nothing to another block. -/

namespace Sys2Proof.Machine
open Sys2Proof

theorem event_of_running {s : State} (h : s.running = true) (f : Ctx → Ctx) : event f s = (f s.begin).close := if_pos h

theorem eventWhen_of_running {s : State} (h : s.running = true) {p : Bool} (hp : p = true) (f : Ctx → Ctx) :
    eventWhen p f s = (f s.begin).close := by
  rw [eventWhen, if_pos hp, event_of_running h]

theorem eventWhen_of_not {s : State} {p : Bool} (hp : p = false) (f : Ctx → Ctx) : eventWhen p f s = s := by
  rw [eventWhen, hp]
  exact if_neg Bool.false_ne_true

/-- An event that changes the state and hands nothing on leaves the changed state. -/
theorem close_upd {c : Ctx} (f : State → State) (ha : c.ans = []) (ht : c.todo = []) : (c.upd f).close = f c.st :=
  Ctx.close_of_done (c := c.upd f) ha ht

theorem close_begin_upd (s : State) (f : State → State) : (s.begin.upd f).close = f s.started := close_upd f rfl rfl

/-- An event that changes nothing leaves its number alone. -/
theorem close_begin (s : State) : s.begin.close = s.started := Ctx.close_of_done rfl rfl

/-- R191: the completion of the access in flight, which no link has left behind, runs its event on the state that has completed it. -/
theorem completion_of_completing {s : State} {a : Access} (h : Completing a s) {p : Access → Bool} (hp : p a = true)
    (hd : ∀ b, a ≠ .discarded b) (f : Access → Ctx → Ctx) : completion p f s = (f a s.completed.begin).close := by
  unfold completion
  rw [State.inFlight?, if_pos h.running, h.head]
  cases a with
  | discarded b => exact absurd rfl (hd b)
  | _ => exact if_pos hp

/-! ### The control block's fields (R190) -/

/-- RI with another region. -/
def RegionIf.regionTo (m : Memory) (ri : RegionIf) : RegionIf := { ri with region := m }

theorem writeField_frame (s : State) (off : Nat) (w : Word) : s.writeField off w = s.setRi (RegionIf.regionTo (s.writeField off w).ri.region) := by
  unfold State.writeField
  split <;> rfl

theorem writeField_outside (s : State) {off a : Nat} (h : a < off ∨ off + 4 ≤ a) (w : Word) :
    regionRead (s.writeField off w).ri.region a = regionRead s.ri.region a := by
  unfold State.writeField
  split
  · exact regionRead_write_of_outside (by rwa [wordBytes_length])
  · rfl

theorem writeField_inside {s : State} (h : s.ri.link = .attached) (off : Nat) (w : Word) {i : Nat} (hi : i < 4) :
    regionRead (s.writeField off w).ri.region (off + i) = (wordBytes w)[i]? := by
  unfold State.writeField
  rw [if_pos (by simp [State.attached, h])]
  exact regionRead_write_of_inside (by rwa [wordBytes_length])

theorem writeField_link (s : State) (off : Nat) (w : Word) : (s.writeField off w).ri.link = s.ri.link := by
  rw [writeField_frame]
  rfl

/-- A state that differs from another in the region's bytes alone. -/
def RegionDiffers (s t : State) : Prop := ∃ m, t = s.setRi (RegionIf.regionTo m)

theorem RegionDiffers.field {s t : State} (h : RegionDiffers s t) (off : Nat) (w : Word) : RegionDiffers s (t.writeField off w) := by
  obtain ⟨m, rfl⟩ := h
  exact ⟨_, writeField_frame _ off w⟩

theorem mirrorTime_differs (s : State) : RegionDiffers s s.mirrorTime := by
  have h0 : RegionDiffers s s := ⟨s.ri.region, rfl⟩
  unfold State.mirrorTime
  dsimp only
  split
  · exact (((h0.field _ _).field _ _).field _ _).field _ _
  · exact (((h0.field _ _).field _ _).field _ _).field _ _

theorem mirrorTime_outside (s : State) {a : Nat} (h : a < 12 ∨ 28 ≤ a) : regionRead s.mirrorTime.ri.region a = regionRead s.ri.region a := by
  unfold State.mirrorTime
  dsimp only
  split
  all_goals
    rw [writeField_outside _ (by omega), writeField_outside _ (by omega), writeField_outside _ (by omega), writeField_outside _ (by omega)]

theorem mirrorTime_link (s : State) : s.mirrorTime.ri.link = s.ri.link := by
  obtain ⟨m, h⟩ := mirrorTime_differs s
  rw [h]
  rfl

theorem mirrorAll_differs (s : State) : RegionDiffers s s.mirrorAll :=
  ((((mirrorTime_differs s).field _ _).field _ _).field _ _).field _ _

theorem mirrorAll_outside (s : State) {a : Nat} (h : a < 12 ∨ 28 ≤ a ∧ a < 32 ∨ 48 ≤ a) :
    regionRead s.mirrorAll.ri.region a = regionRead s.ri.region a := by
  unfold State.mirrorAll State.mirrorDrill State.mirrorFire State.mirrorTrouble
  rw [writeField_outside _ (by omega), writeField_outside _ (by omega), writeField_outside _ (by omega), writeField_outside _ (by omega),
    mirrorTime_outside _ (by omega)]

/-- R190: the total lost field. -/
theorem mirrorAll_totalLost {s : State} (h : s.ri.link = .attached) {i : Nat} (hi : i < 4) :
    regionRead s.mirrorAll.ri.region (32 + i) = (wordBytes (numWord s.ri.totalLost))[i]? := by
  unfold State.mirrorAll State.mirrorDrill State.mirrorFire State.mirrorTrouble
  rw [writeField_outside _ (by omega), writeField_outside _ (by omega), writeField_outside _ (by omega),
    writeField_inside ((mirrorTime_link s).trans h) _ _ hi]

/-- R190: the trouble field. -/
theorem mirrorAll_trouble {s : State} (h : s.ri.link = .attached) {i : Nat} (hi : i < 4) :
    regionRead s.mirrorAll.ri.region (36 + i) = (wordBytes (s.io.trouble.setWidth 32))[i]? := by
  unfold State.mirrorAll State.mirrorDrill State.mirrorFire State.mirrorTrouble
  rw [writeField_outside _ (by omega), writeField_outside _ (by omega),
    writeField_inside ((writeField_link _ _ _).trans ((mirrorTime_link s).trans h)) _ _ hi]
  obtain ⟨m, hm⟩ := (mirrorTime_differs s).field 32 (numWord s.ri.totalLost)
  rw [hm]
  rfl

end Sys2Proof.Machine
end

