-- ==== Sys2Proof/Proofs/Trouble.lean ====
section
/-! SUPPORT. The trouble classes follow their conditions (R183), and what a record, an outcome and a mirror do while the link is down. -/

namespace Sys2Proof.Machine
open Sys2Proof

/-! ### The trouble classes -/

theorem withBit_getLsbD {w : Nat} (m : BitVec w) {n : Nat} (hn : n < w) (b : Bool) (i : Nat) :
    (withBit m n b).getLsbD i = if i = n then b else m.getLsbD i := by
  by_cases hi : i < w
  · cases b <;> by_cases h : i = n <;> simp [withBit, hi, hn, h]
  · have hne : i ≠ n := by omega
    simp [withBit, hne, BitVec.getLsbD_of_ge _ i (Nat.le_of_not_lt hi)]

/-- The trouble classes present, and RI, are other ones; everything else is the same. -/
def State.troubled (tr : BitVec 6) (ri : RegionIf) (s : State) : State := { s with io := { s.io with trouble := tr }, ri := ri }

/-- The conditions of the classes do not rest on the classes present. -/
theorem troubleNow_troubled {s : State} {tr : BitVec 6} {ri : RegionIf} (h : ri.link = s.ri.link) :
    (s.troubled tr ri).troubleNow = s.troubleNow := by
  simp only [State.troubleNow, State.troubled, h]
  rfl

/-- One class is brought up to date, and the others stay. -/
theorem troubleClass_eq (s : State) {n : Nat} (hn : n < 6) : ∃ tr ri, s.troubleClass n = s.troubled tr ri ∧ ri.link = s.ri.link
    ∧ ∀ i, tr.getLsbD i = if i = n then s.troubleNow.getLsbD i else s.io.trouble.getLsbD i := by
  have hl := (troubleClass_turn s n).link
  unfold State.troubleClass at hl ⊢
  dsimp only at hl ⊢
  split
  · next h =>
    refine ⟨s.io.trouble, s.ri, rfl, rfl, fun i => ?_⟩
    split
    · next hi => rw [hi, h]
    · rfl
  · next h =>
    rw [if_neg h] at hl
    refine ⟨withBit s.io.trouble n (s.troubleNow.getLsbD n), _, ?_, hl, fun i => ?_⟩
    · unfold State.mirrorTrouble State.writeField
      split <;> rfl
    · rw [withBit_getLsbD _ hn]
      split
      · next hi => rw [hi]
      · rfl

theorem troubleClasses_eq (l : List Nat) : ∀ s : State, (∀ n ∈ l, n < 6) →
    ∃ tr ri, l.foldl State.troubleClass s = s.troubled tr ri ∧ ri.link = s.ri.link
    ∧ ∀ i, tr.getLsbD i = if i ∈ l then s.troubleNow.getLsbD i else s.io.trouble.getLsbD i := by
  induction l with
  | nil => exact fun s _ => ⟨s.io.trouble, s.ri, rfl, rfl, fun i => by simp⟩
  | cons n l ih =>
    intro s hl
    obtain ⟨tr, ri, he, hk, hb⟩ := troubleClass_eq s (hl n (by simp))
    obtain ⟨tr2, ri2, he2, hk2, hb2⟩ := ih (s.troubled tr ri) fun m hm => hl m (by simp [hm])
    refine ⟨tr2, ri2, by rw [List.foldl_cons, he, he2]; rfl, hk2.trans hk, fun i => ?_⟩
    rw [hb2 i, troubleNow_troubled hk, show (s.troubled tr ri).io.trouble = tr from rfl, hb i]
    by_cases hi : i ∈ l <;> simp [hi]

/-- R183: the classes present are then exactly those whose condition holds, and only they and RI have changed. -/
theorem updateTrouble_eq (s : State) : ∃ ri, s.updateTrouble = s.troubled s.troubleNow ri ∧ ri.link = s.ri.link := by
  obtain ⟨tr, ri, he, hk, hb⟩ := troubleClasses_eq (List.range 6) s fun n hn => by simpa using hn
  refine ⟨ri, ?_, hk⟩
  have htr : tr = s.troubleNow := BitVec.eq_of_getLsbD_eq fun i hi => by
    rw [hb i, if_pos (List.mem_range.mpr hi)]
  rw [← htr]
  exact he

theorem updateTrouble_trouble (s : State) : s.updateTrouble.io.trouble = s.updateTrouble.troubleNow := by
  obtain ⟨ri, he, hk⟩ := updateTrouble_eq s
  rw [he, troubleNow_troubled hk]
  rfl

/-! ### While the link is down -/

/-- RI with another hold buffer and other lost counts. -/
def RegionIf.holding (h : List LogRecord) (l t : Nat) (ri : RegionIf) : RegionIf := { ri with hold := h, lost := l, totalLost := t }

/-- R195: with the link down a record reaches the hold buffer alone. -/
theorem record_of_down {s : State} (h : s.ri.link ≠ .attached) (n : Note) :
    ∃ hs l t, s.record n = s.setRi (RegionIf.holding hs l t) := by
  unfold State.record State.setRi RegionIf.take
  rw [if_neg (by simp [h])]
  split
  · exact ⟨_, s.ri.lost, s.ri.totalLost, rfl⟩
  · exact ⟨s.ri.hold, _, _, rfl⟩

theorem writeField_of_down {s : State} (h : s.ri.link ≠ .attached) (off : Nat) (w : Word) : s.writeField off w = s := by
  simp [State.writeField, State.attached, h]

theorem troubleClass_of_down {s : State} (h : s.ri.link ≠ .attached) (n : Nat) :
    ∃ tr hs l t, s.troubleClass n = s.troubled tr (s.ri.holding hs l t) := by
  unfold State.troubleClass
  dsimp only
  split
  · exact ⟨s.io.trouble, s.ri.hold, s.ri.lost, s.ri.totalLost, rfl⟩
  · obtain ⟨hs, l, t, hr⟩ := record_of_down (s := { s with io := { s.io with trouble := withBit s.io.trouble n (s.troubleNow.getLsbD n) } }) h
      (troubleNote s.io.trouble (withBit s.io.trouble n (s.troubleNow.getLsbD n))
        (withBit s.io.trouble n (s.troubleNow.getLsbD n) &&& s.io.troubleMask == 0))
    refine ⟨withBit s.io.trouble n (s.troubleNow.getLsbD n), hs, l, t, ?_⟩
    rw [hr]
    exact writeField_of_down (by exact h) _ _

theorem updateTrouble_of_down {s : State} (h : s.ri.link ≠ .attached) :
    ∃ hs l t, s.updateTrouble = s.troubled s.troubleNow (s.ri.holding hs l t) := by
  have fold : ∀ (ns : List Nat) (s : State), s.ri.link ≠ .attached →
      ∃ tr hs l t, ns.foldl State.troubleClass s = s.troubled tr (s.ri.holding hs l t) := by
    intro ns
    induction ns with
    | nil => exact fun s _ => ⟨s.io.trouble, s.ri.hold, s.ri.lost, s.ri.totalLost, rfl⟩
    | cons n ns ih =>
      intro s hs
      obtain ⟨tr, a, b, c, he⟩ := troubleClass_of_down hs n
      obtain ⟨tr2, a2, b2, c2, he2⟩ := ih (s.troubleClass n) (by rw [he]; exact hs)
      exact ⟨tr2, a2, b2, c2, by rw [List.foldl_cons, he2, he]; rfl⟩
  obtain ⟨tr, hs, l, t, he⟩ := fold (List.range 6) s h
  obtain ⟨ri, hu, -⟩ := updateTrouble_eq s
  refine ⟨hs, l, t, ?_⟩
  have htr : tr = s.troubleNow := congrArg (fun u : State => u.io.trouble) (he.symm.trans hu)
  rw [← htr]
  exact he

/-- RI with other taken slots. -/
def RegionIf.takenTo (tk : List TakenSlot) (ri : RegionIf) : RegionIf := { ri with taken := tk }

/-- R193: with the link down an outcome is held with its taken slot. -/
theorem answer_of_down {s : State} (h : s.ri.link ≠ .attached) (q : ReqHdr) (o : Outcome) (ws : List Word) :
    ∃ tk, s.answer q o ws = s.setRi (RegionIf.takenTo tk) := by
  unfold State.answer
  rw [if_neg (by simp [State.attached, h])]
  exact ⟨_, rfl⟩

end Sys2Proof.Machine
end

