-- ==== Sys2Proof/Proofs/LinkLost.lean ====
section
/-! SUPPORT. What an announcement's end leaves of RI, and what the link's leaving ATTACHED does when nobody but the ended announcement moves. -/

namespace Sys2Proof.Machine
open Sys2Proof

/-! ### An announcement that ends alone changes RI by its record (R114) -/

/-- The announcement as its end leaves it, before its record is removed. -/
def Ann.ended (r : EndReason) (level : Nat) (a : Ann) : Ann :=
  { a with
    st := .ending
    endReason := some r
    zones := a.zones.map fun z => { z with st := .lost }
    awaiting := none
    discarded := a.discarded + level }

/-- R114: an announcement that is over and has no block to mark is removed at once. -/
theorem annClose_of_over {n : Nat} {a : Ann} {c : Ctx} (h : c.st.ann? n = some a) (he : a.st = .ending)
    (hb : ¬ (a.isBlocks = true ∧ a.block.isSome = true ∧ c.st.ri.link = .attached) ∨ (a.consumedBegun = true ∧ a.access = none)) :
    annClose n c = annRemove n c := by
  unfold annClose
  rw [h]
  dsimp only
  rw [if_neg (by simp [he])]
  split
  · next hs =>
    simp only [Bool.and_eq_true, State.attached, beq_iff_eq, and_assoc] at hs
    rcases hb with hb | ⟨hc, hx⟩
    · exact absurd hs hb
    · simp [hc, hx]
  · rfl

theorem annRemove_of_found {n : Nat} {a : Ann} {c : Ctx} (h : c.st.ann? n = some a) : annRemove n c =
    (c.upd fun s => { s with au := { s.au with anns := s.au.anns.filter fun e => e.num != n } }).record
      (endedNote a (a.endReason.getD .complete)) := by
  unfold annRemove
  rw [h]

/-- The state an announcement's end leaves, but for its record: its zones and its channel are given up. -/
def State.withoutAnn (n ch : Nat) (r : EndReason) (level : Nat) (zs : List ZoneDyn) (fs : List (Option FeedHolder)) (s : State) : State :=
  let t := freeChannel ch n r ((s.setAnn n (Ann.ended r level)).zonesTo zs fs)
  { t with au := { t.au with anns := t.au.anns.filter fun e => e.num != n } }

/-- R114: the end of an announcement that is under way, with a channel to give back. -/
theorem annEnd_of_active {n ch : Nat} {r : EndReason} {a : Ann} {c : Ctx} (found : c.st.ann? n = some a) (nw : a.st ≠ .waiting)
    (ne : a.st ≠ .ending) (hch : a.channel = some ch) : annEnd n r false c =
    annClose n (((releaseAll (.ann n) (c.upd (State.setAnn n (Ann.ended r (fifoLevel c.st a))))).upd (freeChannel ch n r)).call
      [.channelOffer ch]) := by
  unfold annEnd
  rw [found]
  dsimp only
  cases hs : a.st with
  | ending => exact absurd hs ne
  | waiting => exact absurd hs nw
  | _ => rw [hch]; rfl

/-- R102: with nothing in the wait list a freed channel is offered to nobody. -/
theorem channelOffer_of_empty {c : Ctx} (h : c.st.au.waitList = []) (ch : Nat) : channelOffer ch c = c := by
  unfold channelOffer
  rw [h]
  exact ite_self _

/-- An event that leaves nothing but such an offer is over. -/
theorem closes_of_offer {c : Ctx} {ch : Nat} (ha : c.ans = []) (ht : c.todo = [.channelOffer ch]) (hw : c.st.au.waitList = []) :
    Closes 1 c c.st := by
  refine closes_call ha ht ?_
  have ho := channelOffer_of_empty (c := { c with todo := [] }) hw ch
  rw [doWork, ho]
  exact closes_done ha rfl

/-- R114, in quiet surroundings: what the end of an announcement makes of the event so far. -/
theorem annEnd_alone_eq {n ch : Nat} (r : EndReason) {a : Ann} {c : Ctx} (h : EndsAlone n ch a c.st) :
    ∃ level zs fs note, annEnd n r false c = (c.upd fun s => State.record note (s.withoutAnn n ch r level zs fs)).call [.channelOffer ch] := by
  obtain ⟨counts, found, ⟨nw, ne⟩, ⟨hch, -⟩, noBlock, noW, noCW, bare, noSound⟩ := h
  obtain ⟨zs, fs, hr, -⟩ := releaseAll_quiet (who := .ann n) (c := c.upd (State.setAnn n (Ann.ended r (fifoLevel c.st a)))) noW counts.zones
    (fun z x hx hw => ⟨Or.inl bare, Or.inr (noSound z x hx hw)⟩)
  have hd : ((((c.upd (State.setAnn n (Ann.ended r (fifoLevel c.st a)))).upd (State.zonesTo zs fs)).upd (freeChannel ch n r)).call
      [.channelOffer ch]).st.ann? n = some (Ann.ended r (fifoLevel c.st a) a) := setAnn_ann (fun _ => rfl) found
  rw [annEnd_of_active found nw ne hch, hr, annClose_of_over hd rfl noBlock, annRemove_of_found hd]
  exact ⟨fifoLevel c.st a, zs, fs, _, rfl⟩

theorem annEnd_alone_st {n ch : Nat} {r : EndReason} {a : Ann} {c : Ctx} (h : EndsAlone n ch a c.st) (ha : c.ans = []) (ht : c.todo = []) :
    ∃ level zs fs note, Closes 1 (annEnd n r false c) (State.record note (c.st.withoutAnn n ch r level zs fs)) := by
  obtain ⟨level, zs, fs, note, he⟩ := annEnd_alone_eq r h
  refine ⟨level, zs, fs, note, ?_⟩
  rw [he]
  exact closes_of_offer (ch := ch) ha (by simp [ht]) h.noChannelWaiters

/-! ### The link leaves ATTACHED (R189, R31, R46, R121) -/

/-- The state differs from another in its taken slots alone. -/
def SlotsDiffer (s t : State) : Prop := ∃ tk, t = s.setRi (RegionIf.takenTo tk)

theorem SlotsDiffer.refl (s : State) : SlotsDiffer s s := ⟨s.ri.taken, rfl⟩

theorem SlotsDiffer.answer {s t : State} (h : SlotsDiffer s t) (hs : s.ri.link ≠ .attached) (q : ReqHdr) (o : Outcome) (ws : List Word) :
    SlotsDiffer s (t.answer q o ws) := by
  obtain ⟨tk, rfl⟩ := h
  obtain ⟨tk2, h2⟩ := answer_of_down (s := s.setRi (RegionIf.takenTo tk)) hs q o ws
  exact ⟨tk2, h2⟩

theorem SlotsDiffer.dropLoad {s t : State} {α : Type} (h : SlotsDiffer s t) (hs : s.ri.link ≠ .attached) (l : Option (Load α)) :
    SlotsDiffer s (dropLoad l t) := by
  cases l with
  | none => exact h
  | some l => exact h.answer hs _ _ _

theorem SlotsDiffer.dropIoLoad {s t : State} (h : SlotsDiffer s t) (hs : s.ri.link ≠ .attached) (l : Option IoLoad) :
    SlotsDiffer s (dropIoLoad l t) := by
  cases l with
  | none => exact h
  | some l => exact h.answer hs _ _ _

theorem SlotsDiffer.dropSnapshot {s t : State} (h : SlotsDiffer s t) (hs : s.ri.link ≠ .attached) (a : Access) :
    SlotsDiffer s (dropSnapshot a t) := by
  unfold Machine.dropSnapshot
  split
  · exact h.answer hs _ _ _
  · exact h

/-- With the link down already, the requests of the loads are answered into their taken slots alone. -/
theorem endLoads_of_down {s : State} (hs : s.ri.link ≠ .attached) : SlotsDiffer s (endLoads s) :=
  (((((((((((((SlotsDiffer.refl s).dropLoad hs _).dropLoad hs _).dropLoad hs _).dropLoad hs _).dropLoad hs _).dropLoad hs _).dropLoad
    hs _).dropLoad hs _).dropLoad hs _).dropLoad hs _).dropIoLoad hs _).dropLoad hs _)

theorem dropSnapshots_of_down {s : State} (hs : s.ri.link ≠ .attached) (as : List Access) :
    ∀ {t : State}, SlotsDiffer s t → SlotsDiffer s (as.foldl (fun s a => dropSnapshot a s) t) := by
  induction as with
  | nil => exact fun h => h
  | cons a as ih => exact fun h => ih (h.dropSnapshot hs a)

/-- The state with no load and no switch in progress, block by block. -/
def State.noLoads (s : State) : State :=
  { s with
    dp := { s.dp with profileLoad := none, calendarLoad := none }
    se := { s.se with switch := none }
    za := { s.za with zoneLoad := none, groupLoad := none }
    pu := { s.pu with load := none }
    au := { s.au with load := none }
    dc := { s.dc with load := none }
    cu := { s.cu with load := none }
    lc := { s.lc with lineLoad := none, memberLoad := none }
    io := { s.io with load := none } }

theorem clearLoads_eq (s : State) : clearLoads s = s.noLoads := by
  simp only [clearLoads, putSwitch, putIoLoad, putMemberLoad, putLineLoad, putCircuitLoad, putDrillLoad, putChannelLoad, putPatternLoad,
    putGroupLoad, putZoneLoad, putCalendarLoad, putProfileLoad, State.noLoads]

/-- The state a link that left ATTACHED leaves, before the announcements hear of it: no load, no scan, and these accesses. -/
def State.unlinked (left : List Access) (tk : List TakenSlot) (s : State) : State :=
  s.noLoads.setRi fun ri => { ri with taken := tk, accesses := left, scan := .idle }

theorem noLoads_unlinked (left : List Access) (tk : List TakenSlot) (s : State) : NoLoads (s.unlinked left tk) :=
  ⟨⟨rfl, rfl⟩, rfl, ⟨rfl, rfl⟩, rfl, rfl, rfl, rfl, ⟨rfl, rfl⟩, rfl⟩

theorem leaveAttached_of_down {c : Ctx} (h : c.st.ri.link ≠ .attached) (left : List Access) :
    ∃ tk, leaveAttached left c = annLinkLost (c.upd (State.unlinked left tk)) := by
  obtain ⟨tk, he⟩ := endLoads_of_down h
  have hd : dropLoads c.st = c.st.noLoads.setRi (RegionIf.takenTo tk) := by
    rw [dropLoads, he, clearLoads_eq]
    rfl
  obtain ⟨tk2, hs⟩ := dropSnapshots_of_down (s := c.st.noLoads) h c.st.ri.accesses ⟨tk, hd⟩
  refine ⟨tk2, ?_⟩
  unfold leaveAttached Ctx.upd
  dsimp only
  rw [hs]
  rfl

theorem each_of_idle {α : Type} {f : α → Ctx → Ctx} {l : List α} (h : ∀ x ∈ l, ∀ c, f x c = c) (c : Ctx) : Ctx.each f l c = c := by
  induction l with
  | nil => rfl
  | cons x l ih => rw [Ctx.each_cons, h x (by simp), ih fun y hy => h y (by simp [hy])]

/-- R121: announcements that read no blocks hear nothing of the link. -/
theorem annLinkLost_of_noBlocks {c : Ctx} (h : ∀ a ∈ c.st.au.anns, a.isBlocks = false) : annLinkLost c = c := by
  unfold annLinkLost
  refine each_of_idle (fun a ha d => ?_) c
  have hm : a ∈ c.st.au.anns := by
    rcases List.mem_append.mp ha with hx | hx <;> exact (List.mem_filter.mp hx).1
  simp [h a hm]

/-- R121: the only announcement, which reads blocks and has not ended yet, is called to end. -/
theorem annLinkLost_of_one {c : Ctx} {a : Ann} (h : c.st.au.anns = [a]) (hb : a.isBlocks = true) (he : a.st ≠ .ending) :
    annLinkLost c = (c.upd (State.setAnn a.num fun e => { e with access := none })).call [.annEnd a.num .linkLost false] := by
  unfold annLinkLost
  rw [h]
  by_cases hw : a.st = .waiting <;> simp [hw, hb, he, Ctx.each]

end Sys2Proof.Machine
end

