-- ==== Sys2Proof/Proofs/Run.lean ====
section
/-! SUPPORT. RUN, the scans and the link's timers (R187 to R190, R192, R196). -/

namespace Sys2Proof.Machine
open Sys2Proof

/-! ### RUN -/

theorem exec_run_of_main {s : State} (h : s.supply.main = true) (v : Bool) : exec (.run v) s = .next (writeRun v s.begin).close := by
  show Host.Outcome.next _ = _
  rw [if_pos h]

/-- RUN is kept as written, whatever else it does. -/
def State.runTo (v : Bool) (s : State) : State := s.setRi fun ri => { ri with run := v }

theorem writeRun_on_of_detached {c : Ctx} (h : c.st.ri.link = .detached) : writeRun true c =
    ((c.upd (State.runTo true)).upd (State.setRi fun ri => { ri with link := .attaching })).upd (State.ask .hostFields) := by
  unfold writeRun
  dsimp only
  rw [h]
  rfl

theorem writeRun_on_of_up {c : Ctx} (h : c.st.ri.link ≠ .detached) : writeRun true c = c.upd (State.runTo true) := by
  unfold writeRun
  dsimp only
  cases hk : c.st.ri.link with
  | detached => exact absurd hk h
  | _ => rfl

theorem writeRun_off_of_detached {c : Ctx} (h : c.st.ri.link = .detached) : writeRun false c = c.upd (State.runTo false) := by
  unfold writeRun
  dsimp only
  rw [h]
  rfl

theorem writeRun_off_of_attaching {c : Ctx} (h : c.st.ri.link = .attaching) : writeRun false c =
    (c.upd (State.runTo false)).upd (State.setRi fun ri => { ri with link := .detached, accesses := leftInFlight ri.accesses }) := by
  unfold writeRun
  dsimp only
  rw [h]
  rfl

theorem writeRun_off_of_attached {c : Ctx} (h : c.st.ri.link = .attached) : writeRun false c =
    leaveAttached (leftInFlight c.st.ri.accesses) ((c.upd (State.runTo false)).upd (State.setRi fun ri => { ri with link := .detached })) := by
  unfold writeRun
  dsimp only
  rw [h]
  rfl

theorem writeRun_off_of_fault {c : Ctx} (h : c.st.ri.link = .fault) : writeRun false c =
    if c.st.running then ((c.upd (State.runTo false)).upd (State.setRi fun ri => { ri with link := .detached })).upd State.updateTrouble
    else (c.upd (State.runTo false)).upd (State.setRi fun ri => { ri with link := .detached }) := by
  unfold writeRun
  dsimp only
  rw [h]
  rfl

/-- R189: a write of RUN that takes an ATTACHED link down, before the announcements hear of it. -/
def State.detachedBy (tk : List TakenSlot) (s : State) : State :=
  ((s.started.runTo false).setRi fun ri => { ri with link := .detached }).unlinked (leftInFlight s.ri.accesses) tk

theorem writeRun_attached {s : State} (h : s.ri.link = .attached) :
    ∃ tk, writeRun false s.begin = annLinkLost { s.begin with st := s.detachedBy tk } := by
  obtain ⟨tk, he⟩ := leaveAttached_of_down (c := (s.begin.upd (State.runTo false)).upd (State.setRi fun ri => { ri with link := .detached }))
    (by simp [State.setRi]) (leftInFlight s.ri.accesses)
  exact ⟨tk, (writeRun_off_of_attached (c := s.begin) h).trans he⟩

theorem endsAlone_detached {n ch : Nat} {a : Ann} {s : State} (tk : List TakenSlot)
    (h : EndsAlone n ch a { s with ri := { s.ri with link := .detached } }) :
    EndsAlone n ch { a with access := none } ((s.detachedBy tk).setAnn n fun e => { e with access := none }) where
  counts := ⟨h.counts.zones, h.counts.feeds, h.counts.channels, h.counts.circuits, h.counts.lines, h.counts.inputs, h.counts.outputs⟩
  found := setAnn_ann (s := s.detachedBy tk) (f := fun e => { e with access := none }) (fun _ => rfl) h.found
  active := h.active
  channel := h.channel
  noBlock := Or.inl fun hb => nomatch hb.2.2
  noWaiters := h.noWaiters
  noChannelWaiters := h.noChannelWaiters
  bare := h.bare
  noSound := h.noSound

/-- What an announcement that ends as the link goes leaves, seen from the state before. -/
theorem annGone_of_detached {n ch : Nat} {r : EndReason} {s t : State} {tk : List TakenSlot}
    (h : AnnGone n ch r ((s.detachedBy tk).setAnn n fun e => { e with access := none }) t) : AnnGone n ch r s.noLoads t where
  anns := h.anns.trans (filter_setAnn _ _ _ fun _ => rfl)
  released := h.released
  others := h.others
  channel := h.channel
  otherChannels := h.otherChannels
  same := ⟨h.same.1, h.same.2, h.same.3, h.same.4, h.same.5, fun hn => (hn (by decide)).elim, h.same.7, h.same.8, h.same.9, h.same.10⟩

/-- Settles O12: each case of a write of RUN; from ATTACHED the loads' requests are held with their slots, and a BLOCKS announcement that can
end alone is the only thing that moves. -/
theorem runAttachesAndDetaches : Obligations.RunAttachesAndDetaches := by
  intro s hm
  refine ⟨fun hl => ?_, fun hl => ?_, fun hl => ?_, fun hl => ?_, fun hl hb => ?_, fun n ch a hl ha hb he => ?_, fun hl => ?_⟩
  · rw [exec_run_of_main hm, writeRun_on_of_detached hl]
    exact congrArg Host.Outcome.next (Ctx.close_of_done rfl rfl)
  · rw [exec_run_of_main hm, writeRun_on_of_up hl]
    exact congrArg Host.Outcome.next (Ctx.close_of_done rfl rfl)
  · rw [exec_run_of_main hm, writeRun_off_of_detached hl]
    exact congrArg Host.Outcome.next (Ctx.close_of_done rfl rfl)
  · rw [exec_run_of_main hm, writeRun_off_of_attaching hl]
    exact congrArg Host.Outcome.next (Ctx.close_of_done rfl rfl)
  · obtain ⟨tk, hr⟩ := writeRun_attached hl
    rw [annLinkLost_of_noBlocks (by exact hb)] at hr
    refine ⟨s.detachedBy tk, ?_, rfl, rfl, rfl, rfl, rfl, noLoads_unlinked _ _ _, rfl, rfl, rfl, rfl, rfl, rfl⟩
    rw [exec_run_of_main hm, hr]
    exact congrArg Host.Outcome.next (Ctx.close_of_done rfl rfl)
  · obtain ⟨tk, hr⟩ := writeRun_attached hl
    rw [annLinkLost_of_one (by exact ha) hb he.active.2, ann_num he.found] at hr
    have hg := endsAlone_detached tk he
    obtain ⟨level, zs, fs, note, hc⟩ := annEnd_alone_st (r := .linkLost)
      (c := { s.begin with st := (s.detachedBy tk).setAnn n fun e => { e with access := none } }) hg rfl rfl
    have hgone := annEnd_alone (r := .linkLost)
      (c := { s.begin with st := (s.detachedBy tk).setAnn n fun e => { e with access := none } }) hg rfl rfl
    rw [close_of_closes hc (by decide)] at hgone
    obtain ⟨hs, l, tl, hrec⟩ := record_of_down (s := State.withoutAnn n ch .linkLost level zs fs
      ((s.detachedBy tk).setAnn n fun e => { e with access := none })) (fun hk => nomatch hk) note
    refine ⟨_, ?_, ?_, ?_, ?_, ?_, ?_, ?_, clearLoads_eq s ▸ annGone_of_detached hgone⟩
    · rw [exec_run_of_main hm, hr]
      refine congrArg Host.Outcome.next (close_of_closes (closes_call (w := .annEnd n .linkLost false) rfl rfl ?_) (k := 2) (by decide))
      rw [List.append_nil]
      exact hc
    all_goals rw [hrec]; first | rfl | exact ⟨⟨rfl, rfl⟩, rfl, ⟨rfl, rfl⟩, rfl, rfl, rfl, rfl, ⟨rfl, rfl⟩, rfl⟩
  · rw [exec_run_of_main hm, writeRun_off_of_fault hl]
    by_cases hrun : s.running = true
    · obtain ⟨hs, l, tl, hu⟩ := updateTrouble_of_down (s := (s.started.runTo false).setRi fun ri => { ri with link := .detached })
        (fun hk => nomatch hk)
      refine ⟨_, congrArg Host.Outcome.next ((congrArg Ctx.close (if_pos hrun)).trans (Ctx.close_of_done rfl rfl)), ?_, ?_, ?_,
        fun _ => updateTrouble_trouble _, fun hn => absurd hrun (by simp [hn]), ?_⟩
      all_goals simp only [Ctx.upd_st, State.begin_st, State.started] at hu ⊢
      all_goals rw [hu]
      · rfl
      · rfl
      · rfl
      · exact ⟨fun _ => rfl, fun _ => rfl, fun _ => rfl, fun _ => rfl, fun _ => rfl, fun _ => rfl, fun _ => rfl, fun _ => rfl, fun _ => rfl,
          fun hn => (hn (by decide)).elim⟩
    · exact ⟨_, congrArg Host.Outcome.next ((congrArg Ctx.close (if_neg hrun)).trans (Ctx.close_of_done rfl rfl)), rfl, rfl, rfl,
        fun hn => absurd hn hrun, fun _ => rfl, fun _ => rfl, fun _ => rfl, fun _ => rfl, fun _ => rfl, fun _ => rfl, fun _ => rfl,
        fun _ => rfl, fun _ => rfl, fun _ => rfl, fun _ => rfl⟩

end Sys2Proof.Machine
end

