-- ==== Sys2Proof/Proofs/Scans.lean ====
section
/-! SUPPORT. The scans of the slots, the read mark poll and the control block's second (R187, R190, R192, R196). -/

namespace Sys2Proof.Machine
open Sys2Proof

theorem callScan_of_idle {s : State} (h : s.ri.scan = .idle) :
    callScan s = (s.setRi fun ri => { ri with scan := .scanning }).ask (.readMark true) := by
  unfold callScan
  rw [h]

theorem callScan_of_scanning {s : State} (h : s.ri.scan ≠ .idle) : callScan s = s.setRi fun ri => { ri with scan := .scanningDue } := by
  unfold callScan
  cases hk : s.ri.scan with
  | idle => exact absurd hk h
  | _ => rfl

theorem attached_of_link {s : State} (h : s.ri.link = .attached) : s.attached = true := by
  simp [State.attached, h]

theorem secondPassed_of {s : State} (h : s.ri.link = .attached) {t : Nat} (ht : t + 1000 ≤ s.elapsed) : secondPassed s t = true := by
  simp [secondPassed, attached_of_link h, ht]

/-- An event of a part in operation that changes the state alone, once its condition holds. -/
theorem eventWhen_upd {s : State} (h : s.running = true) {p : Bool} (hp : p = true) (f : State → State) :
    eventWhen p (fun c => c.upd f) s = f s.started := by
  rw [eventWhen_of_running h hp, close_begin_upd]

/-- Settles O13: each event's condition holds, and its effect is a change of RI alone. -/
theorem scansAndLinkTimersTakeEffect : Obligations.ScansAndLinkTimersTakeEffect := by
  intro s hr hl
  refine ⟨fun w => ⟨fun hs => ?_, fun hs => ?_⟩, fun ht hs => ?_, fun ht hs => ?_, fun ht hh => ?_, fun ht => ?_⟩
  · exact congrArg Host.Outcome.next ((eventWhen_upd hr (attached_of_link hl) callScan).trans (callScan_of_idle hs))
  · exact congrArg Host.Outcome.next ((eventWhen_upd hr (attached_of_link hl) callScan).trans (callScan_of_scanning hs))
  · exact congrArg Host.Outcome.next ((eventWhen_upd hr (secondPassed_of hl ht) _).trans (callScan_of_idle hs))
  · exact congrArg Host.Outcome.next ((eventWhen_upd hr (secondPassed_of hl ht) _).trans (callScan_of_scanning hs))
  · have hp : (s.attached && s.ri.pollAt + 100 ≤ s.elapsed && !s.ri.hold.isEmpty) = true := by simp [attached_of_link hl, ht, hh]
    refine ⟨_, congrArg Host.Outcome.next (eventWhen_upd hr hp _), rfl, ?_⟩
    show s.ri.pollAt + (s.elapsed - s.ri.pollAt) / 100 * 100 ≤ s.elapsed
      ∧ s.elapsed < s.ri.pollAt + (s.elapsed - s.ri.pollAt) / 100 * 100 + 100
      ∧ (s.ri.pollAt + (s.elapsed - s.ri.pollAt) / 100 * 100 - s.ri.pollAt) % 100 = 0
    omega
  · refine ⟨_, congrArg Host.Outcome.next (eventWhen_upd hr (secondPassed_of hl ht) _), ?_, ?_, ?_, ?_⟩
    · obtain ⟨m, hm⟩ := mirrorAll_differs (s.started.setRi fun ri => { ri with blockAt := ri.blockAt + 1000 })
      rw [hm]
      rfl
    · exact fun i hi => mirrorAll_totalLost (by exact hl) hi
    · exact fun i hi => mirrorAll_trouble (by exact hl) hi
    · exact fun a ha => mirrorAll_outside _ (by omega)

end Sys2Proof.Machine
end

