-- ==== Sys2Proof/Proofs/Frame.lean ====
section
/-! SUPPORT. What the operations inside an event leave alone of the clock, the supply and RI (`Framed`), and from it what a request that is answered in the midst of an
event comes to: `Decided` for one decided at once, `Ended` for one taken earlier. -/

namespace Sys2Proof.Machine
open Sys2Proof

/-! ### An outcome changes RI alone (R193) -/

/-- RI as an outcome leaves it: written into the slot, or held with the taken slot while the link is not ATTACHED. -/
def RegionIf.answered (q : ReqHdr) (a : Answered) (ri : RegionIf) : RegionIf :=
  if ri.link = .attached then writeOutcome q a ri
  else { ri with taken := ri.taken.map fun t => if t.q.slot = q.slot then { t with held := some a } else t }

theorem answer_setRi (s : State) (q : ReqHdr) (o : Outcome) (ws : List Word) : s.answer q o ws = s.setRi (RegionIf.answered q ⟨o, ws⟩) := by
  unfold State.answer RegionIf.answered State.setRi
  by_cases h : s.ri.link = .attached <;> simp [State.attached, h]

@[simp] theorem State.answer_elapsed (s : State) (q : ReqHdr) (o : Outcome) (ws : List Word) : (s.answer q o ws).elapsed = s.elapsed := by rw [answer_setRi]; rfl
@[simp] theorem State.answer_supply (s : State) (q : ReqHdr) (o : Outcome) (ws : List Word) : (s.answer q o ws).supply = s.supply := by rw [answer_setRi]; rfl
@[simp] theorem State.answer_tb (s : State) (q : ReqHdr) (o : Outcome) (ws : List Word) : (s.answer q o ws).tb = s.tb := by rw [answer_setRi]; rfl
@[simp] theorem State.answer_dp (s : State) (q : ReqHdr) (o : Outcome) (ws : List Word) : (s.answer q o ws).dp = s.dp := by rw [answer_setRi]; rfl
@[simp] theorem State.answer_se (s : State) (q : ReqHdr) (o : Outcome) (ws : List Word) : (s.answer q o ws).se = s.se := by rw [answer_setRi]; rfl
@[simp] theorem State.answer_za (s : State) (q : ReqHdr) (o : Outcome) (ws : List Word) : (s.answer q o ws).za = s.za := by rw [answer_setRi]; rfl
@[simp] theorem State.answer_pu (s : State) (q : ReqHdr) (o : Outcome) (ws : List Word) : (s.answer q o ws).pu = s.pu := by rw [answer_setRi]; rfl
@[simp] theorem State.answer_au (s : State) (q : ReqHdr) (o : Outcome) (ws : List Word) : (s.answer q o ws).au = s.au := by rw [answer_setRi]; rfl
@[simp] theorem State.answer_dc (s : State) (q : ReqHdr) (o : Outcome) (ws : List Word) : (s.answer q o ws).dc = s.dc := by rw [answer_setRi]; rfl
@[simp] theorem State.answer_cu (s : State) (q : ReqHdr) (o : Outcome) (ws : List Word) : (s.answer q o ws).cu = s.cu := by rw [answer_setRi]; rfl
@[simp] theorem State.answer_lc (s : State) (q : ReqHdr) (o : Outcome) (ws : List Word) : (s.answer q o ws).lc = s.lc := by rw [answer_setRi]; rfl
@[simp] theorem State.answer_io (s : State) (q : ReqHdr) (o : Outcome) (ws : List Word) : (s.answer q o ws).io = s.io := by rw [answer_setRi]; rfl
@[simp] theorem State.answer_eventNo (s : State) (q : ReqHdr) (o : Outcome) (ws : List Word) : (s.answer q o ws).eventNo = s.eventNo := by rw [answer_setRi]; rfl
@[simp] theorem State.answer_pending (s : State) (q : ReqHdr) (o : Outcome) (ws : List Word) : (s.answer q o ws).pending = s.pending := by rw [answer_setRi]; rfl

theorem answer_of_attached {s : State} (h : s.ri.link = .attached) (q : ReqHdr) (o : Outcome) (ws : List Word) :
    s.answer q o ws = s.setRi (writeOutcome q ⟨o, ws⟩) := if_pos (by simp [State.attached, h])

theorem writeOutcome_writeIndex (q : ReqHdr) (a : Answered) (ri : RegionIf) : (writeOutcome q a ri).writeIndex = ri.writeIndex := by
  unfold writeOutcome
  dsimp only
  split <;> rfl

theorem writeOutcome_accesses (q : ReqHdr) (a : Answered) (ri : RegionIf) : (writeOutcome q a ri).accesses = ri.accesses := by
  unfold writeOutcome
  dsimp only
  split <;> rfl

theorem writeOutcome_taken (q : ReqHdr) (a : Answered) (ri : RegionIf) :
    (writeOutcome q a ri).taken = ri.taken.filter fun t => t.q.slot != q.slot := by
  unfold writeOutcome
  dsimp only
  split <;> rfl

theorem writeOutcome_region (q : ReqHdr) (a : Answered) (ri : RegionIf) : (writeOutcome q a ri).region =
    regionWrite (regionWrite (regionWrite ri.region (slotAt q + 3) (leBytes 1 a.outcome.code)) (slotAt q + 52) (a.words.flatMap wordBytes))
      (slotAt q) (leBytes 1 a.outcome.slotState) := by
  unfold writeOutcome
  dsimp only
  split <;> rfl

theorem writeOutcome_cause (q : ReqHdr) (a : Answered) (ri : RegionIf) {i : Nat} (h : ri.cause.getLsbD i = true) :
    (writeOutcome q a ri).cause.getLsbD i = true := by
  unfold writeOutcome
  dsimp only
  split <;> simp [RegionIf.raise, h]

theorem writeOutcome_notice {q : ReqHdr} (h : q.notify = true) (a : Answered) (ri : RegionIf) :
    (writeOutcome q a ri).cause.getLsbD 2 = true := by
  unfold writeOutcome
  simp [h, RegionIf.raise, causeSlots]

theorem leBytes_one (v : Nat) : leBytes 1 v = [BitVec.ofNat 8 v] := rfl

theorem writeOutcome_slotState (q : ReqHdr) (a : Answered) (ri : RegionIf) :
    regionRead (writeOutcome q a ri).region (slotAt q) = some (BitVec.ofNat 8 a.outcome.slotState) := by
  rw [writeOutcome_region]
  exact (regionRead_write_of_inside (i := 0) (by simp)).trans rfl

theorem writeOutcome_outcome (q : ReqHdr) (a : Answered) (ri : RegionIf) :
    regionRead (writeOutcome q a ri).region (slotAt q + 3) = some (BitVec.ofNat 8 a.outcome.code) := by
  rw [writeOutcome_region, regionRead_write_of_outside (by simp), regionRead_write_of_outside (by omega)]
  exact (regionRead_write_of_inside (i := 0) (by simp)).trans rfl

theorem writeOutcome_words (q : ReqHdr) (a : Answered) (ri : RegionIf) {i : Nat} (h : i < 4 * a.words.length) :
    regionRead (writeOutcome q a ri).region (slotAt q + 52 + i) = (a.words.flatMap wordBytes)[i]? := by
  rw [writeOutcome_region, regionRead_write_of_outside (by simp; omega)]
  exact regionRead_write_of_inside (by rwa [wordsBytes_length])

theorem writeOutcome_outside (q : ReqHdr) (a : Answered) (ri : RegionIf) {b : Nat} (h : ¬ answerBytes q a.words.length b) :
    regionRead (writeOutcome q a ri).region b = regionRead ri.region b := by
  unfold answerBytes at h
  rw [writeOutcome_region, regionRead_write_of_outside (by simp; omega), regionRead_write_of_outside (by rw [wordsBytes_length]; omega),
    regionRead_write_of_outside (by simp; omega)]

/-! ### What an event's operations leave alone -/

/-- The clock, the supply and RI are kept, but for the records, the mirrors, the region's accesses and the causes. -/
structure Framed (s t : State) : Prop where
  kept : LinkKept s t
  taken : t.ri.taken = s.ri.taken
  cause : ∀ i, s.ri.cause.getLsbD i = true → t.ri.cause.getLsbD i = true
  bound : s.ri.writeIndex < 256 → t.ri.writeIndex < 256
  outside : s.ri.writeIndex < 256 → ∀ a, ¬ partArea a → regionRead t.ri.region a = regionRead s.ri.region a

theorem LinkKept.refl (s : State) : LinkKept s s := ⟨rfl, rfl, rfl, rfl, rfl, rfl, rfl, rfl, rfl, rfl⟩

theorem LinkKept.trans {s t u : State} (h : LinkKept s t) (k : LinkKept t u) : LinkKept s u :=
  ⟨k.1.trans h.1, k.2.trans h.2, k.3.trans h.3, k.4.trans h.4, k.5.trans h.5, k.6.trans h.6, k.7.trans h.7, k.8.trans h.8,
    k.9.trans h.9, k.10.trans h.10⟩

/-- A change of other blocks than RI leaves RI, the clock and the supply. -/
theorem LinkKept.of_ri {s t : State} (he : t.elapsed = s.elapsed) (hs : t.supply = s.supply) (hr : t.ri = s.ri) : LinkKept s t := by
  refine ⟨he, hs, ?_, ?_, ?_, ?_, ?_, ?_, ?_, ?_⟩ <;> rw [hr]

theorem Framed.refl (s : State) : Framed s s := ⟨LinkKept.refl s, rfl, fun _ h => h, id, fun _ _ _ => rfl⟩

theorem Framed.trans {s t u : State} (h : Framed s t) (k : Framed t u) : Framed s u where
  kept := h.kept.trans k.kept
  taken := k.taken.trans h.taken
  cause := fun i hi => k.cause i (h.cause i hi)
  bound := k.bound ∘ h.bound
  outside := fun hw a ha => (k.outside (h.bound hw) a ha).trans (h.outside hw a ha)

theorem Framed.of_ri {s t : State} (he : t.elapsed = s.elapsed) (hs : t.supply = s.supply) (hr : t.ri = s.ri) : Framed s t where
  kept := LinkKept.of_ri he hs hr
  taken := by rw [hr]
  cause := by rw [hr]; exact fun _ h => h
  bound := by rw [hr]; exact id
  outside := by rw [hr]; exact fun _ _ _ => rfl

theorem Passed.framed {s t : State} (h : Passed s t) : Framed s t :=
  ⟨⟨h.elapsed, h.supply, h.run, h.intEnable, h.base, h.causeEnable, h.link, h.readMark, h.notify, h.scan⟩, h.taken, h.cause, h.bound, h.outside⟩

theorem framed_record (s : State) (n : Note) : Framed s (s.record n) := (record_turn s n).framed

theorem framed_updateTrouble (s : State) : Framed s s.updateTrouble := (updateTrouble_turn s).framed

/-! ### A request is answered in the midst of an event -/

/-- The last byte of a slot lies below the log (section 11.6). -/
theorem slotAt_lt {q : ReqHdr} (h : q.slot < 32) : 0x100 ≤ slotAt q ∧ slotAt q + 64 ≤ 0x900 := by
  unfold slotAt Config.slotBase
  omega

theorem not_partArea_slot {q : ReqHdr} (h : q.slot < 32) {a : Nat} (h1 : slotAt q ≤ a) (h2 : a < slotAt q + 64) : ¬ partArea a := by
  have := slotAt_lt h
  unfold partArea
  omega

/-- What stands in the region, the taken slots and the causes after an outcome that an event has written between operations of other blocks. -/
structure Outcomes (q : ReqHdr) (o : Outcome) (ws : List Word) (s t : State) : Prop where
  slotState : regionRead t.ri.region (slotAt q) = some (BitVec.ofNat 8 o.slotState)
  outcome : regionRead t.ri.region (slotAt q + 3) = some (BitVec.ofNat 8 o.code)
  words : ∀ i, i < 4 * ws.length → regionRead t.ri.region (slotAt q + 52 + i) = (ws.flatMap wordBytes)[i]?
  outside : ∀ a, ¬ partArea a → ¬ answerBytes q ws.length a → regionRead t.ri.region a = regionRead s.ri.region a
  taken : t.ri.taken = s.ri.taken.filter fun k => k.q.slot != q.slot
  notice : q.notify = true → t.ri.cause.getLsbD 2 = true
  kept : LinkKept s t

theorem linkKept_writeOutcome (s : State) (q : ReqHdr) (a : Answered) : LinkKept s (s.setRi (writeOutcome q a)) := by
  unfold State.setRi writeOutcome
  dsimp only
  split <;> exact ⟨rfl, rfl, rfl, rfl, rfl, rfl, rfl, rfl, rfl, rfl⟩

theorem outcomes_of {q : ReqHdr} {o : Outcome} {ws : List Word} {s u t : State} (hl : s.ri.link = .attached) (hq : q.slot < 32)
    (hws : ws.length ≤ 3) (hw : s.ri.writeIndex < 256) (h : Framed s u) (k : Framed (u.answer q o ws) t) : Outcomes q o ws s t := by
  have hu : u.answer q o ws = u.setRi (writeOutcome q ⟨o, ws⟩) := answer_of_attached (h.kept.link.trans hl) q o ws
  rw [hu] at k
  have hb : (u.setRi (writeOutcome q ⟨o, ws⟩)).ri.writeIndex < 256 := by
    exact lt_of_eq_of_lt (writeOutcome_writeIndex q ⟨o, ws⟩ u.ri) (h.bound hw)
  have inSlot : ∀ {a}, slotAt q ≤ a → a < slotAt q + 64 →
      regionRead t.ri.region a = regionRead (writeOutcome q ⟨o, ws⟩ u.ri).region a := fun h1 h2 => k.outside hb _ (not_partArea_slot hq h1 h2)
  refine ⟨?_, ?_, fun i hi => ?_, fun a ha hn => ?_, ?_, fun hn => ?_, ?_⟩
  · exact (inSlot (by omega) (by omega)).trans (writeOutcome_slotState q _ _)
  · exact (inSlot (by omega) (by omega)).trans (writeOutcome_outcome q _ _)
  · exact (inSlot (by omega) (by omega)).trans (writeOutcome_words q ⟨o, ws⟩ _ hi)
  · exact ((k.outside hb a ha).trans (writeOutcome_outside q ⟨o, ws⟩ _ hn)).trans (h.outside hw a ha)
  · rw [k.taken, ← h.taken]
    exact writeOutcome_taken q _ _
  · exact k.cause 2 (writeOutcome_notice hn _ _)
  · exact (h.kept.trans (linkKept_writeOutcome u q _)).trans k.kept

/-! ### Requests that are decided at once (R192, R193) -/

theorem reaches_iff (q : ReqHdr) (s : State) : s.reaches q = true ↔
    s.running = true ∧ s.ri.link = .attached ∧ q.slot < 32 ∧ ∀ k, k ∈ s.ri.taken → k.q.slot ≠ q.slot := by
  simp only [State.reaches, State.attached, Bool.and_eq_true, beq_iff_eq, decide_eq_true_eq, Bool.not_eq_true',
    List.any_eq_false, and_assoc]
  exact Iff.rfl

/-- Of a slot that is not taken, taking it and giving it up leaves the taken slots as they were. -/
theorem taken_taking {q : ReqHdr} {s : State} (h : s.reaches q = true) :
    (s.taking q).ri.taken.filter (fun k => k.q.slot != q.slot) = s.ri.taken := by
  obtain ⟨-, -, -, hn⟩ := (reaches_iff q s).mp h
  show (s.ri.taken ++ [(⟨q, none⟩ : TakenSlot)]).filter _ = _
  have hs : s.ri.taken.filter (fun k => k.q.slot != q.slot) = s.ri.taken := List.filter_eq_self.mpr fun k hk => by simpa using hn k hk
  rw [List.filter_append, hs]
  simp

theorem decided_of {q : ReqHdr} {o : Outcome} {ws : List Word} {s u t : State} (hr : s.reaches q = true) (hlog : LogSound s.ri)
    (hws : ws.length ≤ 3) (h : Framed (s.taking q) u) (k : Framed (u.answer q o ws) t) : Decided q o ws s t := by
  obtain ⟨-, hl, hq, -⟩ := (reaches_iff q s).mp hr
  have hk := outcomes_of (s := s.taking q) hl hq hws hlog.writeIndex h k
  refine ⟨hk.slotState, hk.outcome, hk.words, hk.outside, hk.taken.trans (taken_taking hr), hk.notice, ?_⟩
  have ht : LinkKept s (s.taking q) := ⟨rfl, rfl, rfl, rfl, rfl, rfl, rfl, rfl, rfl, rfl⟩
  exact ht.trans hk.kept

/-- A request that is answered last. -/
theorem decided_of_answer {q : ReqHdr} {o : Outcome} {ws : List Word} {s u : State} (hr : s.reaches q = true) (hlog : LogSound s.ri)
    (hws : ws.length ≤ 3) (h : Framed (s.taking q) u) : Decided q o ws s (u.answer q o ws) :=
  decided_of hr hlog hws h (Framed.refl _)

/-! ### Requests that were taken earlier -/

theorem ended_of {q : ReqHdr} {o : Outcome} {ws : List Word} {a : Access} {s u t : State} (hc : Completing a s) (hq : q.slot < 32)
    (hlog : LogSound s.ri) (hws : ws.length ≤ 3) (h : Framed s.completed.started u) (k : Framed (u.answer q o ws) t)
    (ha : t.ri.accesses = s.ri.accesses.tail) : Ended q o ws s t := by
  have hk := outcomes_of (s := s.completed.started) hc.attached hq hws hlog.writeIndex h k
  refine ⟨hk.slotState, hk.outcome, hk.words, hk.outside, hk.taken, hk.notice, ha, ?_⟩
  have ht : LinkKept s s.completed.started := ⟨rfl, rfl, rfl, rfl, rfl, rfl, rfl, rfl, rfl, rfl⟩
  exact ht.trans hk.kept

/-! ### The region accesses stay -/

theorem record_accesses (s : State) (n : Note) : (s.record n).ri.accesses = s.ri.accesses := by
  rw [State.record_ri]
  unfold RegionIf.take
  split
  · have e := congrArg RegionIf.accesses (place_rest s.ri (stamped s n))
    exact e
  · split <;> rfl

theorem answer_accesses (s : State) (q : ReqHdr) (o : Outcome) (ws : List Word) : (s.answer q o ws).ri.accesses = s.ri.accesses := by
  rw [answer_setRi]
  show (RegionIf.answered q ⟨o, ws⟩ s.ri).accesses = _
  unfold RegionIf.answered
  split
  · exact writeOutcome_accesses q _ s.ri
  · rfl

end Sys2Proof.Machine
end

