-- ==== Sys2Proof/Proofs/Noted.lean ====
section
/-! SUPPORT. Records and mirrors: they change RI alone, and of RI only what `Framed` leaves open. -/

namespace Sys2Proof.Machine
open Sys2Proof

/-- The state differs from another in RI alone. -/
structure RiOnly (s t : State) : Prop where
  eq : t = { s with ri := t.ri }

theorem RiOnly.refl (s : State) : RiOnly s s := ⟨rfl⟩

theorem RiOnly.trans {s t u : State} (h : RiOnly s t) (k : RiOnly t u) : RiOnly s u := ⟨by rw [k.eq, h.eq]⟩

theorem riOnly_setRi (s : State) (f : RegionIf → RegionIf) : RiOnly s (s.setRi f) := ⟨rfl⟩

theorem riOnly_answer (s : State) (q : ReqHdr) (o : Outcome) (ws : List Word) : RiOnly s (s.answer q o ws) := ⟨by rw [answer_setRi]; rfl⟩

theorem RiOnly.elapsed {s t : State} (h : RiOnly s t) : t.elapsed = s.elapsed := by rw [h.eq]
theorem RiOnly.supply {s t : State} (h : RiOnly s t) : t.supply = s.supply := by rw [h.eq]
theorem RiOnly.tb {s t : State} (h : RiOnly s t) : t.tb = s.tb := by rw [h.eq]
theorem RiOnly.dp {s t : State} (h : RiOnly s t) : t.dp = s.dp := by rw [h.eq]
theorem RiOnly.se {s t : State} (h : RiOnly s t) : t.se = s.se := by rw [h.eq]
theorem RiOnly.za {s t : State} (h : RiOnly s t) : t.za = s.za := by rw [h.eq]
theorem RiOnly.pu {s t : State} (h : RiOnly s t) : t.pu = s.pu := by rw [h.eq]
theorem RiOnly.au {s t : State} (h : RiOnly s t) : t.au = s.au := by rw [h.eq]
theorem RiOnly.dc {s t : State} (h : RiOnly s t) : t.dc = s.dc := by rw [h.eq]
theorem RiOnly.cu {s t : State} (h : RiOnly s t) : t.cu = s.cu := by rw [h.eq]
theorem RiOnly.lc {s t : State} (h : RiOnly s t) : t.lc = s.lc := by rw [h.eq]
theorem RiOnly.io {s t : State} (h : RiOnly s t) : t.io = s.io := by rw [h.eq]
theorem RiOnly.eventNo {s t : State} (h : RiOnly s t) : t.eventNo = s.eventNo := by rw [h.eq]
theorem RiOnly.pending {s t : State} (h : RiOnly s t) : t.pending = s.pending := by rw [h.eq]
theorem RiOnly.zone {s t : State} (h : RiOnly s t) : t.zone = s.zone := by funext z; rw [State.zone, State.zone, h.za]
theorem RiOnly.zoneRec {s t : State} (h : RiOnly s t) : t.zoneRec = s.zoneRec := by funext z; rw [State.zoneRec, State.zoneRec, h.za]
theorem RiOnly.group {s t : State} (h : RiOnly s t) : t.group = s.group := by funext z; rw [State.group, State.group, h.za]
theorem RiOnly.pattern {s t : State} (h : RiOnly s t) : t.pattern = s.pattern := by funext z; rw [State.pattern, State.pattern, h.pu]
theorem RiOnly.line {s t : State} (h : RiOnly s t) : t.line = s.line := by funext z; rw [State.line, State.line, h.lc]
theorem RiOnly.circuit {s t : State} (h : RiOnly s t) : t.circuit = s.circuit := by funext z; rw [State.circuit, State.circuit, h.cu]
theorem RiOnly.channel {s t : State} (h : RiOnly s t) : t.channel = s.channel := by funext z; rw [State.channel, State.channel, h.au]
theorem RiOnly.output {s t : State} (h : RiOnly s t) : t.output = s.output := by funext z; rw [State.output, State.output, h.io]
theorem RiOnly.input {s t : State} (h : RiOnly s t) : t.input = s.input := by funext z; rw [State.input, State.input, h.io]
theorem RiOnly.ann {s t : State} (h : RiOnly s t) : t.ann? = s.ann? := by funext z; rw [State.ann?, State.ann?, h.au]
theorem RiOnly.bell {s t : State} (h : RiOnly s t) : t.bell? = s.bell? := by funext z; rw [State.bell?, State.bell?, h.pu]
theorem RiOnly.zoneState {s t : State} (h : RiOnly s t) : t.zoneState = s.zoneState := by
  funext z; rw [State.zoneState, State.zoneState, h.zone, h.zoneRec]
theorem RiOnly.running {s t : State} (h : RiOnly s t) : t.running = s.running := by rw [State.running, State.running, h.supply]
theorem RiOnly.relayDemand {s t : State} (h : RiOnly s t) : t.relayDemand = s.relayDemand := by
  rw [State.relayDemand, State.relayDemand, h.zoneState, h.zone, h.zoneRec]
theorem RiOnly.energized {s t : State} (h : RiOnly s t) : t.energized = s.energized := by
  funext o; rw [State.energized, State.energized, h.running, h.io, h.output, h.relayDemand, h.dc]

/-- With another RI the blocks that were kept are kept. -/
theorem SameBut.of_only {bs : List BlockId} {s t u : State} (h : SameBut bs s t) (k : RiOnly t u) : SameBut bs s u :=
  ⟨fun n => k.tb.trans (h.1 n), fun n => k.dp.trans (h.2 n), fun n => k.se.trans (h.3 n), fun n => k.za.trans (h.4 n),
    fun n => k.pu.trans (h.5 n), fun n => k.au.trans (h.6 n), fun n => k.dc.trans (h.7 n), fun n => k.cu.trans (h.8 n),
    fun n => k.lc.trans (h.9 n), fun n => k.io.trans (h.10 n)⟩

theorem SameBut.refl (bs : List BlockId) (s : State) : SameBut bs s s :=
  ⟨fun _ => rfl, fun _ => rfl, fun _ => rfl, fun _ => rfl, fun _ => rfl, fun _ => rfl, fun _ => rfl, fun _ => rfl, fun _ => rfl, fun _ => rfl⟩

/-- The state differs from another by records and mirrors alone. -/
structure Noted (s t : State) : Prop extends RiOnly s t where
  framed : Framed s t
  accesses : t.ri.accesses = s.ri.accesses
  hold : s.ri.link ≠ .attached → t.ri.region = s.ri.region

theorem Noted.refl (s : State) : Noted s s := ⟨RiOnly.refl s, Framed.refl s, rfl, fun _ => rfl⟩

theorem Noted.trans {s t u : State} (h : Noted s t) (k : Noted t u) : Noted s u := by
  refine ⟨h.toRiOnly.trans k.toRiOnly, h.framed.trans k.framed, k.accesses.trans h.accesses, fun hl => ?_⟩
  exact (k.hold (by rw [h.framed.kept.link]; exact hl)).trans (h.hold hl)

theorem noted_record (s : State) (n : Note) : Noted s (s.record n) := by
  refine ⟨⟨rfl⟩, framed_record s n, record_accesses s n, fun hl => ?_⟩
  obtain ⟨hs, l, t, h⟩ := record_of_down hl n
  rw [h]
  rfl

theorem Noted.record {s t : State} (h : Noted s t) (n : Note) : Noted s (t.record n) := h.trans (noted_record t n)

theorem noted_writeField (s : State) {off : Nat} (h1 : 12 ≤ off) (h2 : off ≤ 44) (w : Word) : Noted s (s.writeField off w) := by
  have hf := writeField_frame s off w
  refine ⟨⟨by rw [hf]; rfl⟩, (writeField_turn s off w h1 h2).framed, by rw [hf]; rfl, fun hl => by rw [writeField_of_down hl]⟩

theorem noted_mirrorTrouble (s : State) : Noted s s.mirrorTrouble := noted_writeField s (by decide) (by decide) _
theorem noted_mirrorFire (s : State) : Noted s s.mirrorFire := noted_writeField s (by decide) (by decide) _
theorem noted_mirrorDrill (s : State) : Noted s s.mirrorDrill := noted_writeField s (by decide) (by decide) _

/-- A record that is written only when something differs. -/
theorem noted_ite_record (p : Prop) [Decidable p] (s : State) (n : Note) : Noted s (if p then s else s.record n) := by
  split
  · exact Noted.refl s
  · exact noted_record s n

/-- R183: bringing the trouble classes up to date changes them, and writes records and mirrors. -/
theorem noted_updateTrouble (s : State) : Noted { s with io := { s.io with trouble := s.troubleNow } } s.updateTrouble := by
  have fold : ∀ (ns : List Nat) (s : State), (ns.foldl State.troubleClass s).ri.accesses = s.ri.accesses := by
    intro ns
    induction ns with
    | nil => exact fun _ => rfl
    | cons n ns ih =>
      intro s
      rw [List.foldl_cons, ih]
      unfold State.troubleClass
      dsimp only
      split
      · rfl
      · rw [(noted_mirrorTrouble _).accesses, record_accesses]
  obtain ⟨ri, he, -⟩ := updateTrouble_eq s
  refine ⟨⟨by rw [he]; rfl⟩, ?_, fold (List.range 6) s, fun hl => ?_⟩
  · have h : Framed { s with io := { s.io with trouble := s.troubleNow } } s := Framed.of_ri rfl rfl rfl
    exact h.trans (framed_updateTrouble s)
  · obtain ⟨hs, l, t, h⟩ := updateTrouble_of_down (s := s) hl
    rw [h]
    rfl

end Sys2Proof.Machine
end

