-- ==== Sys2Proof/Proofs/Refusals.lean ====
section
/-! SUPPORT. What a request comes to that its decision answers, or refuses, at once; and the refusals of every load and of SWITCH SCHEDULE. -/

namespace Sys2Proof.Machine
open Sys2Proof

/-! ### A request that is decided by one change of the state -/

/-- What the decision of a request that reaches the part begins with. -/
def State.deciding (q : ReqHdr) (s : State) : Ctx := (s.takeSlot q).beginFor q.tag

@[simp] theorem State.deciding_st (q : ReqHdr) (s : State) : (s.deciding q).st = s.taking q := rfl
@[simp] theorem State.deciding_ans (q : ReqHdr) (s : State) : (s.deciding q).ans = [] := rfl
@[simp] theorem State.deciding_todo (q : ReqHdr) (s : State) : (s.deciding q).todo = [] := rfl
@[simp] theorem State.deciding_tag (q : ReqHdr) (s : State) : (s.deciding q).tag = q.tag := rfl

theorem exec_request {i : Instr} {q : ReqHdr} {s : State} (hi : reqHdr? i = some q) (hr : s.reaches q = true) :
    exec i s = .next (decideRequest i (s.deciding q)).close := by
  rw [exec_of_reqHdr hi, request_of_reaches hr]
  rfl

theorem exec_request_upd {i : Instr} {q : ReqHdr} {s : State} (hi : reqHdr? i = some q) (hr : s.reaches q = true) {f : State → State}
    (h : decideRequest i (s.deciding q) = (s.deciding q).upd f) : exec i s = .next (f (s.taking q)) := by
  rw [exec_request hi hr, h]
  exact congrArg Host.Outcome.next (close_done rfl rfl)

theorem exec_refused {i : Instr} {q : ReqHdr} {s : State} {o : Outcome} (hi : reqHdr? i = some q) (hr : s.reaches q = true)
    (h : decideRequest i (s.deciding q) = (s.deciding q).upd (State.refuse q o)) : exec i s = .next ((s.taking q).answer q o []) :=
  exec_request_upd hi hr h

/-! ### The checks that every load shares (R28) -/

theorem offsetOk_iff (offset size : Nat) : offsetOk offset size = true ↔ StagedAt offset size := by
  simp only [offsetOk, inFree, Bool.and_eq_true, beq_iff_eq, decide_eq_true_eq]
  exact Iff.rfl

theorem loadRefusal_count {limit count : Nat} (h : limit < count) (offset size : Nat) (busy : Bool) :
    loadRefusal limit count offset size busy = some .outOfRange := if_pos h

theorem loadRefusal_offset {limit count offset size : Nat} (h : count ≤ limit) (ho : ¬ StagedAt offset (count * size)) (busy : Bool) :
    loadRefusal limit count offset size busy = some .regionOffset := by
  rw [← offsetOk_iff] at ho
  simp [loadRefusal, Nat.not_lt.mpr h, ho]

theorem loadRefusal_busy {limit count offset size : Nat} (h : count ≤ limit) (ho : StagedAt offset (count * size)) :
    loadRefusal limit count offset size true = some .busy := by
  rw [← offsetOk_iff] at ho
  simp [loadRefusal, Nat.not_lt.mpr h, ho]

theorem loadRefusal_none {limit count offset size : Nat} (h : count ≤ limit) (ho : StagedAt offset (count * size)) :
    loadRefusal limit count offset size false = none := by
  rw [← offsetOk_iff] at ho
  simp [loadRefusal, Nat.not_lt.mpr h, ho]

/-- The three refusals of a load whose decision refuses what `loadRefusal` gives for its limit, size and table's use. -/
theorem checks_of {q : ReqHdr} {s : State} (hr : s.reaches q = true) (limit size : Nat) (inUse : Bool) {busy : Prop} (hb : busy → inUse = true)
    (i : Nat → Nat → Instr) (hi : ∀ count offset, reqHdr? (i count offset) = some q)
    (hd : ∀ count offset o, loadRefusal limit count offset size inUse = some o →
      decideRequest (i count offset) (s.deciding q) = (s.deciding q).upd (State.refuse q o)) (count offset : Nat) :
    (limit < count → exec (i count offset) s = .next ((s.taking q).answer q .outOfRange []))
    ∧ (count ≤ limit → ¬ StagedAt offset (count * size) → exec (i count offset) s = .next ((s.taking q).answer q .regionOffset []))
    ∧ (count ≤ limit → StagedAt offset (count * size) → busy → exec (i count offset) s = .next ((s.taking q).answer q .busy [])) :=
  ⟨fun h => exec_refused (hi _ _) hr (hd _ _ _ (loadRefusal_count h _ _ _)),
    fun h ho => exec_refused (hi _ _) hr (hd _ _ _ (loadRefusal_offset h ho _)),
    fun h ho hu => exec_refused (hi _ _) hr (hd _ _ _ (hb hu ▸ loadRefusal_busy h ho))⟩

/-! ### Each load refuses what its checks give -/

theorem decideLoadProfiles_refused {q : ReqHdr} {count offset : Nat} {o : Outcome} {c : Ctx}
    (h : loadRefusal 16 count offset TableCode.profiles.size c.st.dp.profileLoad.isSome = some o) :
    decideLoadProfiles q count offset c = c.upd (State.refuse q o) := by rw [decideLoadProfiles, h]

theorem decideLoadCalendar_refused {q : ReqHdr} {count offset : Nat} {o : Outcome} {c : Ctx}
    (h : loadRefusal 96 count offset TableCode.calendar.size c.st.dp.calendarLoad.isSome = some o) :
    decideLoadCalendar q count offset c = c.upd (State.refuse q o) := by rw [decideLoadCalendar, h]

theorem decideLoadZones_refused {q : ReqHdr} {count offset : Nat} {o : Outcome} {c : Ctx}
    (h : loadRefusal 64 count offset TableCode.zones.size (c.st.za.zoneLoad.isSome || !c.st.zonesQuiet) = some o) :
    decideLoadZones q count offset c = c.upd (State.refuse q o) := by rw [decideLoadZones, h]

theorem decideLoadGroups_refused {q : ReqHdr} {count offset : Nat} {o : Outcome} {c : Ctx}
    (h : loadRefusal 64 count offset TableCode.groups.size (c.st.za.groupLoad.isSome || !c.st.zonesQuiet) = some o) :
    decideLoadGroups q count offset c = c.upd (State.refuse q o) := by rw [decideLoadGroups, h]

theorem decideLoadPatterns_refused {q : ReqHdr} {count offset : Nat} {o : Outcome} {c : Ctx}
    (h : loadRefusal 31 count offset TableCode.patterns.size (c.st.pu.load.isSome || patternsInUse c.st) = some o) :
    decideLoadPatterns q count offset c = c.upd (State.refuse q o) := by rw [decideLoadPatterns, h]

theorem decideLoadChannels_refused {q : ReqHdr} {count offset : Nat} {o : Outcome} {c : Ctx}
    (h : loadRefusal 4 count offset TableCode.channels.size (c.st.au.load.isSome || channelsInUse c.st) = some o) :
    decideLoadChannels q count offset c = c.upd (State.refuse q o) := by rw [decideLoadChannels, h]

theorem decideLoadDrills_refused {q : ReqHdr} {count offset : Nat} {o : Outcome} {c : Ctx}
    (h : loadRefusal 8 count offset TableCode.drills.size (c.st.dc.load.isSome || c.st.dc.active.isSome) = some o) :
    decideLoadDrills q count offset c = c.upd (State.refuse q o) := by rw [decideLoadDrills, h]

theorem decideLoadCircuits_refused {q : ReqHdr} {count offset tolerance : Nat} {o : Outcome} {c : Ctx}
    (h : loadRefusal 4 count offset TableCode.circuits.size c.st.cu.load.isSome = some o) :
    decideLoadCircuits q count offset tolerance c = c.upd (State.refuse q o) := by rw [decideLoadCircuits, h]

theorem decideLoadLines_refused {q : ReqHdr} {count offset : Nat} {o : Outcome} {c : Ctx}
    (h : loadRefusal 8 count offset TableCode.lines.size c.st.lc.lineLoad.isSome = some o) :
    decideLoadLines q count offset c = c.upd (State.refuse q o) := by rw [decideLoadLines, h]

theorem decideLoadMembers_refused {q : ReqHdr} {count offset : Nat} {o : Outcome} {c : Ctx}
    (h : loadRefusal 320 count offset TableCode.members.size (c.st.lc.memberLoad.isSome || !c.st.zonesUnheld) = some o) :
    decideLoadMembers q count offset c = c.upd (State.refuse q o) := by rw [decideLoadMembers, h]

theorem decideLoadIo_offset {q : ReqHdr} {offset : Nat} {c : Ctx} (h : ¬ StagedAt offset TableCode.io.size) :
    decideLoadIo q offset c = c.upd (State.refuse q .regionOffset) := by
  rw [← offsetOk_iff] at h
  simp [decideLoadIo, h]

theorem decideLoadIo_busy {q : ReqHdr} {offset : Nat} {c : Ctx} (h : StagedAt offset TableCode.io.size) (hl : c.st.io.load.isSome = true) :
    decideLoadIo q offset c = c.upd (State.refuse q .busy) := by
  rw [← offsetOk_iff] at h
  simp [decideLoadIo, h, hl]

theorem decideSwitch_refused {q : ReqHdr} {offset count window choice day : Nat} {ch : SwitchChoice} {o : Outcome} {c : Ctx}
    (hc : switchChoice choice day = some ch) (h : loadRefusal 1024 count offset scheduleEntrySize c.st.se.switch.isSome = some o) :
    decideSwitch q offset count window choice day c = c.upd (State.refuse q o) := by
  unfold decideSwitch
  rw [hc]
  dsimp only
  rw [h]

/-- The switch that a SWITCH SCHEDULE which passes its checks begins with (R42). -/
def Switch.start (q : ReqHdr) (offset count window : Nat) (ch : SwitchChoice) : Switch :=
  ⟨⟨q, offset, count, [], window > 900⟩, min window 900, ch⟩

/-- R42: what a switch whose count and offset are in order comes to. -/
theorem decideSwitch_checked {q : ReqHdr} {offset count window choice day : Nat} {ch : SwitchChoice} {c : Ctx}
    (hc : switchChoice choice day = some ch) (h : loadRefusal 1024 count offset scheduleEntrySize c.st.se.switch.isSome = none) :
    decideSwitch q offset count window choice day c =
      if c.st.tb.campus.isNone && ch ≠ .now then c.upd (State.refuse q .notReady)
      else if atDayPassed c.st ch then c.upd (State.refuse q .outOfRange)
      else if count = 0 then finishSwitch (Switch.start q offset count window ch) (c.upd (putSwitch (some (Switch.start q offset count window ch))))
      else (c.upd (putSwitch (some (Switch.start q offset count window ch)))).upd (State.ask .scheduleEntry) := by
  unfold decideSwitch
  rw [hc]
  dsimp only
  rw [h]
  rfl

/-! ### The tables in use -/

theorem zonesQuiet_of_taking (q : ReqHdr) (s : State) : (s.taking q).zonesQuiet = s.zonesQuiet := rfl

theorem not_zonesQuiet {s : State} (h : ∃ z, z < 64 ∧ ((s.zone z).holder ≠ none ∨ (s.zone z).waiters ≠ [])) : s.zonesQuiet = false := by
  obtain ⟨z, hz, hn⟩ := h
  rw [State.zonesQuiet, List.all_eq_false]
  exact ⟨z, List.mem_range.mpr hz, by rcases hn with hn | hn <;> simp [hn]⟩

theorem not_zonesUnheld {s : State} (h : ∃ z, z < 64 ∧ (s.zone z).holder ≠ none) : s.zonesUnheld = false := by
  obtain ⟨z, hz, hn⟩ := h
  rw [State.zonesUnheld, List.all_eq_false]
  exact ⟨z, List.mem_range.mpr hz, by simp [hn]⟩

/-- R85. -/
theorem patternsInUse_iff (s : State) : patternsInUse s = true ↔ PatternsUsed s := by
  unfold patternsInUse PatternsUsed
  simp only [Bool.or_eq_true, Bool.not_eq_true', List.isEmpty_eq_false_iff, List.any_eq_true, Option.any_eq_true, Bool.and_eq_true,
    decide_eq_true_eq, or_assoc]
  refine or_congr Iff.rfl (or_congr ⟨fun ⟨a, ha, ⟨p, hp, hl⟩, hs⟩ => ⟨a, p, ha, hp, hl, hs⟩, fun ⟨a, p, ha, hp, hl, hs⟩ => ⟨a, ha, ⟨p, hp, hl⟩, hs⟩⟩
    ⟨fun ⟨d, hd, hp, e, he, hi, hn⟩ => ⟨d, e, hd, hp, he, hi, by simpa using hn⟩, fun ⟨d, e, hd, hp, he, hi, hn⟩ => ⟨d, hd, hp, e, he, hi, by simp [hn]⟩⟩)

/-- R101. -/
theorem channelsInUse_iff (s : State) : channelsInUse s = true ↔ ChannelsUsed s := by
  unfold channelsInUse ChannelsUsed
  simp [Option.isSome_iff_ne_none]

/-! ### The schedule switch (R42) -/

theorem switchChoice_bad {choice day : Nat} (h : 2 < choice ∨ (choice = 2 ∧ 36525 < day)) : switchChoice choice day = none := by
  unfold switchChoice
  split
  · omega
  · omega
  · exact if_pos (by omega)
  · rfl

theorem switchChoice_good {choice day : Nat} (h : ¬ (2 < choice ∨ (choice = 2 ∧ 36525 < day))) :
    ∃ ch, switchChoice choice day = some ch ∧ (choice ≠ 0 → ch ≠ .now) ∧ (choice = 2 → ch = .atDay day) := by
  have hc : choice = 0 ∨ choice = 1 ∨ choice = 2 := by omega
  rcases hc with rfl | rfl | rfl
  · exact ⟨_, rfl, by simp, by simp⟩
  · exact ⟨_, rfl, by simp, by simp⟩
  · exact ⟨_, if_neg (by omega), by simp, by simp⟩

/-- Settles O21. -/
theorem loadsAreRefused : Obligations.LoadsAreRefused := by
  intro q s hr
  have or_some {α : Type} {x : Option α} {p : Prop} {b : Bool} (hb : p → b = true) (h : x ≠ none ∨ p) : (x.isSome || b) = true := by
    rcases h with h | h
    · simp [Option.isSome_iff_ne_none.mpr h]
    · simp [hb h]
  refine ⟨checks_of hr 16 4 s.dp.profileLoad.isSome Option.isSome_iff_ne_none.mpr _ (fun _ _ => rfl) fun _ _ _ h => decideLoadProfiles_refused h,
    checks_of hr 96 6 s.dp.calendarLoad.isSome Option.isSome_iff_ne_none.mpr _ (fun _ _ => rfl) fun _ _ _ h => decideLoadCalendar_refused h,
    checks_of hr 64 4 (s.za.zoneLoad.isSome || !s.zonesQuiet) (or_some fun h => by simp [not_zonesQuiet h]) _ (fun _ _ => rfl)
      fun _ _ _ h => decideLoadZones_refused h,
    checks_of hr 64 1 (s.za.groupLoad.isSome || !s.zonesQuiet) (or_some fun h => by simp [not_zonesQuiet h]) _ (fun _ _ => rfl)
      fun _ _ _ h => decideLoadGroups_refused h,
    checks_of hr 31 70 (s.pu.load.isSome || patternsInUse s) (or_some (patternsInUse_iff s).mpr) _ (fun _ _ => rfl)
      fun _ _ _ h => decideLoadPatterns_refused h,
    checks_of hr 4 6 (s.au.load.isSome || channelsInUse s) (or_some (channelsInUse_iff s).mpr) _ (fun _ _ => rfl)
      fun _ _ _ h => decideLoadChannels_refused h,
    checks_of hr 8 8 (s.dc.load.isSome || s.dc.active.isSome) (or_some Option.isSome_iff_ne_none.mpr) _ (fun _ _ => rfl)
      fun _ _ _ h => decideLoadDrills_refused h,
    fun tolerance => checks_of hr 4 8 s.cu.load.isSome Option.isSome_iff_ne_none.mpr _ (fun _ _ => rfl) fun _ _ _ h => decideLoadCircuits_refused h,
    checks_of hr 8 8 s.lc.lineLoad.isSome Option.isSome_iff_ne_none.mpr _ (fun _ _ => rfl) fun _ _ _ h => decideLoadLines_refused h,
    checks_of hr 320 12 (s.lc.memberLoad.isSome || !s.zonesUnheld) (or_some fun h => by simp [not_zonesUnheld h]) _ (fun _ _ => rfl)
      fun _ _ _ h => decideLoadMembers_refused h,
    fun offset => ⟨fun h => ?_, fun h hl => ?_⟩, fun window choice day => ⟨fun count offset hb => ?_, fun hb => ?_, fun count offset hb hc ho hs => ?_⟩⟩
  · exact exec_refused rfl hr (decideLoadIo_offset h)
  · exact exec_refused rfl hr (decideLoadIo_busy h (Option.isSome_iff_ne_none.mpr hl))
  · refine exec_refused rfl hr ?_
    simp only [decideRequest, decideSwitch, switchChoice_bad hb]
  · obtain ⟨ch, hch, -, -⟩ := switchChoice_good hb
    exact checks_of hr 1024 20 s.se.switch.isSome Option.isSome_iff_ne_none.mpr _ (fun _ _ => rfl) fun _ _ _ h => decideSwitch_refused hch h
  · obtain ⟨ch, hch, hnow, hat⟩ := switchChoice_good hb
    have hl : loadRefusal 1024 count offset scheduleEntrySize (s.deciding q).st.se.switch.isSome = none := by
      rw [show (s.deciding q).st.se.switch.isSome = false from congrArg Option.isSome hs]
      exact loadRefusal_none hc ho
    refine ⟨fun ht h0 => exec_refused rfl hr ((decideSwitch_checked hch hl).trans (if_pos ?_)), fun h ht hm h2 hd =>
      exec_refused rfl hr ((decideSwitch_checked hch hl).trans ((if_neg ?_).trans (if_pos ?_)))⟩
    · simp [State.taking, ht, hnow h0]
    · simp [State.taking, ht]
    · simp [hat h2, atDayPassed, State.taking, hm, hd]

end Sys2Proof.Machine
end

