-- ==== Sys2Proof/Proofs/Places.lean ====
section
/-! SUPPORT. What stands at one place of a list of fixed things after a change of that place, or of another. -/

namespace Sys2Proof.Machine
open Sys2Proof

theorem getD_modify {α : Type} {l : List α} {i : Nat} (h : i < l.length) (j : Nat) (f : α → α) (d : α) :
    (l.modify i f).getD j d = if j = i then f (l.getD i d) else l.getD j d := by
  simp only [List.getD_eq_getElem?_getD, List.getElem?_modify]
  by_cases hj : j = i
  · subst hj
    simp [h]
  · simp [hj, show ¬ i = j from fun e => hj e.symm]

theorem getD_modify_ne {α : Type} (l : List α) {i j : Nat} (h : j ≠ i) (f : α → α) (d : α) : (l.modify i f).getD j d = l.getD j d := by
  simp only [List.getD_eq_getElem?_getD, List.getElem?_modify]
  simp [show ¬ i = j from fun e => h e.symm]

theorem setOutput_output {s : State} (hc : Counts s) {o : Nat} (h : o < 12) (k : Nat) (f : Output → Output) :
    (s.setOutput o f).output k = if k = o then f (s.output o) else s.output k := getD_modify (by rwa [hc.outputs]) k f _

theorem setInput_input {s : State} (hc : Counts s) {o : Nat} (h : o < 12) (k : Nat) (f : Input → Input) :
    (s.setInput o f).input k = if k = o then f (s.input o) else s.input k := getD_modify (by rwa [hc.inputs]) k f _

theorem setInput_input_ne (s : State) {k o : Nat} (h : k ≠ o) (f : Input → Input) : (s.setInput o f).input k = s.input k :=
  getD_modify_ne _ h f _

theorem setCircuit_circuit {s : State} (hc : Counts s) {i : Nat} (h : i < 4) (k : Nat) (f : Circuit → Circuit) :
    (s.setCircuit i f).circuit k = if k = i then f (s.circuit i) else s.circuit k := getD_modify (by rwa [hc.circuits]) k f _

theorem setCircuit_circuit_ne (s : State) {k i : Nat} (h : k ≠ i) (f : Circuit → Circuit) : (s.setCircuit i f).circuit k = s.circuit k :=
  getD_modify_ne _ h f _

theorem setLine_line {s : State} (hc : Counts s) {l : Nat} (h : l < 8) (k : Nat) (f : Line → Line) :
    (s.setLine l f).line k = if k = l then f (s.line l) else s.line k := getD_modify (by rwa [hc.lines]) k f _

theorem setLine_line_ne (s : State) {k l : Nat} (h : k ≠ l) (f : Line → Line) : (s.setLine l f).line k = s.line k :=
  getD_modify_ne _ h f _

/-- A change of one place that keeps a feature of what stands there keeps it at every place. -/
theorem getD_modify_feature {α β : Type} (l : List α) (i : Nat) {f : α → α} {g : α → β} (hf : ∀ x, g (f x) = g x) (j : Nat) (d : α) :
    g ((l.modify i f).getD j d) = g (l.getD j d) := by
  simp only [List.getD_eq_getElem?_getD, List.getElem?_modify]
  by_cases h : i = j
  · subst h
    cases l[i]? with
    | none => rfl
    | some x => simp [hf]
  · simp [h]

theorem setInput_inFunc (s : State) (o : Nat) {f : Input → Input} (hf : ∀ x, (f x).func = x.func) (k : Nat) :
    (s.setInput o f).io.inFunc k = s.io.inFunc k := by
  simp only [IoUnit.inFunc, State.setInput, getD_modify_feature s.io.inputs o (g := Input.func) hf k]

/-- The function an output is configured for is not touched by a change that keeps each output's. -/
theorem setOutput_outFunc (s : State) (o : Nat) {f : Output → Output} (hf : ∀ x, (f x).func = x.func) (k : Nat) :
    (s.setOutput o f).io.outFunc k = s.io.outFunc k := by
  simp only [IoUnit.outFunc, State.setOutput, getD_modify_feature s.io.outputs o (g := Output.func) hf k]

end Sys2Proof.Machine
end

