-- ==== Sys2Proof/Proofs/Outputs.lean ====
section
/-! SUPPORT. DRIVE OUTPUT (R182). -/

namespace Sys2Proof.Machine
open Sys2Proof

/-- R182: an output is released, or driven, for a duration or until it is released. -/
def Output.driveTo (action d now : Nat) (o : Output) : Output :=
  if action = 1 then { o with driven := false, releaseAt := none }
  else { o with driven := true, releaseAt := if d = 0 then none else some (now + d) }

@[simp] theorem Output.driveTo_func (action d now : Nat) (o : Output) : (o.driveTo action d now).func = o.func := by
  unfold Output.driveTo
  split <;> rfl

/-- The state with an output so driven. -/
def State.driving (o action d : Nat) (s : State) : State := s.setOutput o (Output.driveTo action d s.elapsed)

theorem driving_output {s : State} (hc : Counts s) {o : Nat} (ho : o ≤ 11) (action d k : Nat) :
    (s.driving o action d).output k = if k = o then (s.output o).driveTo action d s.elapsed else s.output k :=
  setOutput_output hc (by omega) k _

theorem driveTo_driven {action : Nat} (h : action ≤ 1) (d now : Nat) (o : Output) : (o.driveTo action d now).driven = decide (action = 0) := by
  unfold Output.driveTo
  split
  · next ha => simp [ha]
  · simp only [true_eq_decide_iff]
    omega

theorem driveTo_releaseAt (action v now : Nat) (o : Output) :
    (o.driveTo action (min v 600000) now).releaseAt = if action = 1 ∨ v = 0 then none else some (now + min v 600000) := by
  unfold Output.driveTo
  split
  · next ha => simp [ha]
  · next ha =>
    by_cases hv : v = 0 <;> simp [ha, hv]

theorem driving_energized {s : State} (hr : s.running = true) (hc : Counts s) {o : Nat} (ho : o ≤ 11) (hf : s.io.outFunc o = .plain)
    {action : Nat} (ha : action ≤ 1) (d : Nat) : (s.driving o action d).energized o = decide (action = 0) := by
  have hp : (s.driving o action d).io.outFunc o = .plain := (setOutput_outFunc _ o (fun x => Output.driveTo_func _ _ _ x) o).trans hf
  rw [energized_of_running (s := s.driving o action d) hr, hp, driving_output hc ho, if_pos rfl]
  exact driveTo_driven ha d _ _

theorem decideDrive_plain {q : ReqHdr} {o action duration : Nat} {c : Ctx} (ho : o ≤ 11) (ha : action ≤ 1) (hf : c.st.io.outFunc o = .plain) :
    decideDrive q o action duration c = c.upd fun s => (s.driving o action (min duration 600000)).answer q
      (.ofClamped (min duration 600000 != duration)) [numWord (yesNo ((s.driving o action (min duration 600000)).energized o))] := by
  unfold decideDrive
  rw [if_neg (by omega), if_neg (by omega), if_neg (by simp [hf])]
  rfl

theorem running_of_reaches {q : ReqHdr} {s : State} (h : s.reaches q = true) : s.running = true := ((reaches_iff q s).mp h).1

theorem ofClamped_min (hi v : Nat) : Outcome.ofClamped (min v hi != v) = if v ≤ hi then .done else .doneClamped := by
  by_cases h : v ≤ hi
  · simp [Outcome.ofClamped, h]
  · simp [Outcome.ofClamped, h, Nat.min_eq_right (Nat.le_of_not_le h), show hi ≠ v by omega]

/-- Settles O33. -/
theorem driveOutputDrivesIt : Obligations.DriveOutputDrivesIt := by
  intro q o action duration s hr hlog hc
  refine ⟨fun h => exec_refused rfl hr (if_pos h), fun h ha => exec_refused rfl hr ((if_neg (by omega)).trans (if_pos ha)),
    fun h ha hf => exec_refused rfl hr ((if_neg (by omega)).trans ((if_neg (by omega)).trans (if_pos hf))), fun ho ha hf => ?_⟩
  have hc' : Counts (s.taking q) := ⟨hc.zones, hc.feeds, hc.channels, hc.circuits, hc.lines, hc.inputs, hc.outputs⟩
  have hrun : s.running = true := running_of_reaches hr
  have hen := driving_energized (s := s.taking q) hrun hc' ho hf ha (min duration 600000)
  have hout (k : Nat) := driving_output hc' ho action (min duration 600000) k
  have honly := riOnly_answer ((s.taking q).driving o action (min duration 600000)) q (.ofClamped (min duration 600000 != duration))
    [numWord (yesNo (((s.taking q).driving o action (min duration 600000)).energized o))]
  refine ⟨_, exec_request_upd rfl hr (decideDrive_plain ho ha hf), ?_, ?_, ?_, ?_, ?_, fun k hk => ?_, ?_, ?_⟩
  · rw [ofClamped_min, hen, show ((yesNo (decide (action = 0)) : Nat) : Int) = if action = 0 then 1 else 0 by
      by_cases h : action = 0 <;> simp [yesNo, h]]
    exact decided_of_answer hr hlog (by simp) (Framed.of_ri rfl rfl rfl)
  · rw [honly.output, hout o, if_pos rfl]
    exact driveTo_driven ha _ _ _
  · rw [honly.energized]
    exact hen
  · rw [honly.output, hout o, if_pos rfl]
    exact driveTo_releaseAt _ _ _ _
  · rw [honly.output, hout o, if_pos rfl]
    exact Output.driveTo_func _ _ _ _
  · rw [honly.output, hout k, if_neg hk]
    rfl
  · rw [honly.io]
    rfl
  · refine SameBut.of_only ?_ honly
    exact ⟨fun _ => rfl, fun _ => rfl, fun _ => rfl, fun _ => rfl, fun _ => rfl, fun _ => rfl, fun _ => rfl, fun _ => rfl, fun _ => rfl,
      fun hn => (hn (by decide)).elim⟩

end Sys2Proof.Machine
end

