-- ==== Sys2Proof/Proofs/TodayProfile.lean ====
section
/-! SUPPORT. SET TODAY PROFILE (R32). -/

namespace Sys2Proof.Machine
open Sys2Proof

/-- The state with another current day profile. -/
def State.profileTo (p : Nat) (s : State) : State := { s with se := { s.se with profile := p } }

/-- R32, R27: the current day profile changes its number, with PROFILE CHANGED exactly when that differs. -/
theorem profileChange_eq (new cause : Nat) (c : Ctx) : profileChange new cause c = c.upd fun s =>
    if s.se.profile = new then s.profileTo new
    else (s.profileTo new).record (dpNote .profileChanged c.tag (dv s.se.profile) (dv new) (dv cause)) := by
  unfold profileChange Ctx.upd
  dsimp only
  split <;> rfl

theorem profileChange_noted (new cause : Nat) (c : Ctx) : Noted (c.st.profileTo new) (profileChange new cause c).st := by
  rw [profileChange_eq, Ctx.upd_st]
  exact noted_ite_record _ _ _

theorem profileChange_ans (new cause : Nat) (c : Ctx) : (profileChange new cause c).ans = c.ans := by rw [profileChange_eq]; rfl
theorem profileChange_todo (new cause : Nat) (c : Ctx) : (profileChange new cause c).todo = c.todo := by rw [profileChange_eq]; rfl

/-- The state with another override of the day's profile. -/
def State.overrideTo (o : Option DayOverride) (s : State) : State := { s with dp := { s.dp with override := o } }

theorem decideTodayProfile_range {q : ReqHdr} {p : Nat} (h : 15 < p) (hn : p ≠ 0xFF) (c : Ctx) :
    decideTodayProfile q p c = c.upd (State.refuse q .outOfRange) := if_pos (by simp [h, hn, noneByte])

theorem decideTodayProfile_ready {q : ReqHdr} {p : Nat} (h : p ≤ 15 ∨ p = 0xFF) {c : Ctx} (hc : c.st.tb.campus = none) :
    decideTodayProfile q p c = c.upd (State.refuse q .notReady) := by
  unfold decideTodayProfile
  rw [if_neg (by simp [noneByte]; omega), if_pos (by simp [hc])]

/-- R32: a profile is given to today. -/
theorem decideTodayProfile_set {q : ReqHdr} {p : Nat} (h : p ≤ 15) {c : Ctx} (hc : c.st.tb.campus ≠ none) :
    decideTodayProfile q p c =
      (profileChange p 0 (c.upd (State.overrideTo (some ⟨p, c.st.dp.dayBegun.getD 0⟩)))).upd (State.answer q .done [numWord c.st.se.profile,
        numWord (profileChange p 0 (c.upd (State.overrideTo (some ⟨p, c.st.dp.dayBegun.getD 0⟩)))).st.se.profile]) := by
  unfold decideTodayProfile
  rw [if_neg (by simp [noneByte]; omega), if_neg (by simpa [Option.isNone_iff_eq_none] using hc)]
  dsimp only
  rw [if_pos (by unfold noneByte; omega)]
  rfl

/-- R32: the override is taken away. -/
theorem decideTodayProfile_clear {q : ReqHdr} {c : Ctx} (hc : c.st.tb.campus ≠ none) (ho : c.st.dp.override ≠ none) :
    decideTodayProfile q 0xFF c =
      (profileChange (profileOf c.st.dp.calendar (c.st.dp.dayBegun.getD 0)) 1 (c.upd (State.overrideTo none))).upd (State.answer q .done
        [numWord c.st.se.profile, numWord (profileChange (profileOf c.st.dp.calendar (c.st.dp.dayBegun.getD 0)) 1
          (c.upd (State.overrideTo none))).st.se.profile]) := by
  unfold decideTodayProfile
  rw [if_neg (by simp [noneByte]), if_neg (by simpa [Option.isNone_iff_eq_none] using hc)]
  dsimp only
  rw [if_neg (by simp [noneByte]), if_pos (Option.isSome_iff_ne_none.mpr ho)]
  rfl

theorem decideTodayProfile_idle {q : ReqHdr} {c : Ctx} (hc : c.st.tb.campus ≠ none) (ho : c.st.dp.override = none) :
    decideTodayProfile q 0xFF c = c.upd (State.answer q .done [numWord c.st.se.profile, numWord c.st.se.profile]) := by
  unfold decideTodayProfile
  rw [if_neg (by simp [noneByte]), if_neg (by simpa [Option.isNone_iff_eq_none] using hc)]
  dsimp only
  rw [if_neg (by simp [noneByte]), if_neg (by simp [ho])]

/-- What a change of today's override and of the current day profile comes to, answered with the profile before and after. -/
theorem overrides_decided {q : ReqHdr} {s : State} (hr : s.reaches q = true) (hlog : LogSound s.ri) (o : Option DayOverride) (new cause : Nat)
    {i : Instr} (hi : reqHdr? i = some q) (hd : decideRequest i (s.deciding q) =
      (profileChange new cause ((s.deciding q).upd (State.overrideTo o))).upd (State.answer q .done
        [numWord s.se.profile, numWord (profileChange new cause ((s.deciding q).upd (State.overrideTo o))).st.se.profile])) :
    ∃ t, exec i s = .next t ∧ Decided q .done [numWord s.se.profile, numWord new] s t ∧ t.dp = { s.dp with override := o }
      ∧ t.se = { s.se with profile := new } ∧ SameBut [.dp, .se] s t := by
  have hn := profileChange_noted new cause ((s.deciding q).upd (State.overrideTo o))
  have hse : (profileChange new cause ((s.deciding q).upd (State.overrideTo o))).st.se.profile = new := by rw [hn.se]; rfl
  rw [hse] at hd
  have honly := hn.toRiOnly.trans (riOnly_answer (profileChange new cause ((s.deciding q).upd (State.overrideTo o))).st q .done
    [numWord s.se.profile, numWord new])
  refine ⟨(profileChange new cause ((s.deciding q).upd (State.overrideTo o))).st.answer q .done [numWord s.se.profile, numWord new],
    ?_, ?_, ?_, ?_, ?_⟩
  · rw [exec_request hi hr, hd]
    exact congrArg Host.Outcome.next (close_upd _ (profileChange_ans _ _ _) (profileChange_todo _ _ _))
  · have hf : Framed (s.taking q) (((s.deciding q).upd (State.overrideTo o)).st.profileTo new) := Framed.of_ri rfl rfl rfl
    exact decided_of_answer hr hlog (by simp) (hf.trans hn.framed)
  · rw [honly.dp]
    rfl
  · rw [honly.se]
    rfl
  · refine SameBut.of_only ?_ honly
    exact ⟨fun _ => rfl, fun hx => (hx (by decide)).elim, fun hx => (hx (by decide)).elim, fun _ => rfl, fun _ => rfl, fun _ => rfl,
      fun _ => rfl, fun _ => rfl, fun _ => rfl, fun _ => rfl⟩

/-- Settles O22. -/
theorem setTodayProfileTakesEffect : Obligations.SetTodayProfileTakesEffect := by
  intro q p s hr hlog
  refine ⟨fun h hn => exec_refused rfl hr (decideTodayProfile_range h hn _), fun h hc => exec_refused rfl hr (decideTodayProfile_ready h hc),
    fun hc ho => exec_request_upd rfl hr (decideTodayProfile_idle hc ho), fun h hc => ?_, fun hc ho => ?_⟩
  · exact overrides_decided hr hlog _ p 0 (i := .setTodayProfile q p) rfl (decideTodayProfile_set h hc)
  · obtain ⟨t, he, hd, hdp, hse, hsame⟩ := overrides_decided hr hlog none _ 1 (i := .setTodayProfile q 0xFF) rfl (decideTodayProfile_clear (c := s.deciding q) hc ho)
    refine ⟨t, he, ?_, hdp, hse, hsame⟩
    rw [hse]
    exact hd

end Sys2Proof.Machine
end

