-- ==== Sys2Proof/Proofs/Status.lean ====
section
/-! SUPPORT. READ STATUS (R194): the request, and the places of the items of a snapshot. -/

namespace Sys2Proof.Machine
open Sys2Proof

/-! ### The places of the items -/

/-- The items of the `k`-th thing of a table, each thing having `n` of them. -/
theorem each_item {α : Type} {f : α → List Item} {n : Nat} (hf : ∀ x, (f x).length = n) (r : List Item) {j : Nat} (hj : j < n) :
    ∀ (l : List α) (k : Nat) (hk : k < l.length), (each l f ++ r)[n * k + j]? = (f l[k])[j]? := by
  intro l
  induction l with
  | nil => exact fun k hk => absurd hk (Nat.not_lt_zero k)
  | cons x l ih =>
    intro k hk
    have hx := hf x
    rw [each, List.flatMap_cons, List.append_assoc]
    cases k with
    | zero => rw [Nat.mul_zero, Nat.zero_add, List.getElem?_append_left (by omega), List.getElem_cons_zero]
    | succ k =>
      rw [List.getElem?_append_right (by rw [hx, Nat.mul_succ]; omega), List.getElem_cons_succ,
        show n * (k + 1) + j - (f x).length = n * k + j by rw [hx, Nat.mul_succ]; omega]
      exact ih k (Nat.lt_of_succ_lt_succ hk)

/-- One item for each thing. -/
theorem each_single {α : Type} {f : α → List Item} (hf : ∀ x, (f x).length = 1) (r : List Item) {l : List α} {k : Nat} (hk : k < l.length) :
    (each l f ++ r)[k]? = (f l[k])[0]? := by
  have h := each_item hf r (Nat.lt_succ_self 0) l k hk
  rwa [Nat.one_mul, Nat.add_zero] at h

theorem each_length_single {α : Type} {f : α → List Item} (hf : ∀ x, (f x).length = 1) (l : List α) : (each l f).length = l.length := by
  induction l with
  | nil => rfl
  | cons x l ih =>
    rw [each, List.flatMap_cons, List.length_append, hf x]
    exact (congrArg (1 + ·) ih).trans (Nat.add_comm 1 _)

/-! ### The words of a snapshot -/

theorem snapWords_get {size i : Nat} {items : List Item} (h : i < size / 4) : (snapWords size items)[i]? = some (match items[i]? with
    | some (some v) => numWord v
    | some none => Config.noneWord
    | none => 0) := by
  rw [snapWords, List.getElem?_take_of_lt h]
  by_cases hi : i < items.length
  · rw [List.getElem?_append_left (by rwa [List.length_map]), List.getElem?_map, List.getElem?_eq_getElem hi]
    cases items[i] <;> rfl
  · rw [List.getElem?_append_right (by rw [List.length_map]; omega), List.length_map, List.getElem?_replicate_of_lt (by omega),
      List.getElem?_eq_none (by omega)]

/-! ### The request -/

/-- R194: a snapshot whose place passes the checks is copied, and its write asked for. -/
theorem exec_readStatus {i : Instr} {q : ReqHdr} {s : State} {size offset : Nat} {items : State → List Item} (hi : reqHdr? i = some q)
    (hr : s.reaches q = true) (hd : decideRequest i (s.deciding q) = readStatus q size offset items (s.deciding q)) :
    (StagedAt offset size → exec i s = .next { s.taking q with ri := { (s.taking q).ri with
      accesses := s.ri.accesses ++ [.snapshot q offset s.ri.nextSeq (snapWords size (items (s.taking q)))] } })
    ∧ (¬ StagedAt offset size → exec i s = .next ((s.taking q).answer q .regionOffset [])) := by
  refine ⟨fun h => ?_, fun h => ?_⟩
  · have ho : offsetOk offset size = true := (offsetOk_iff offset size).mpr h
    exact exec_request_upd hi hr (hd.trans (if_neg (by simp [ho])))
  · have ho : ¬ offsetOk offset size = true := fun ho => h ((offsetOk_iff offset size).mp ho)
    exact exec_refused hi hr (hd.trans (if_pos (by simp [ho])))

theorem decideRequest_readStatusLine {q : ReqHdr} {ln : Nat} (h : ln ≤ 7) (offset : Nat) (c : Ctx) :
    decideRequest (.readStatusLine q ln offset) c = readStatus q 8192 offset (fun s => snapLine s ln) c := if_neg (by omega)

/-! ### The six snapshots -/

/-- TIME begins with campus time, the trim and the settings of the Time Base. -/
theorem snapTime_begin (s : State) : ∃ rest, snapTime s = some? 2 (s.tb.campus.map timeItems) ++ ([some s.tb.trim, some s.tb.acc, some s.tb.pc,
    some (s.tb.slewCount : Int), some (s.tb.refMode.code : Int), some (s.tb.lossLimit : Int), some (s.tb.slewLimit : Int)] ++ rest) := by
  unfold snapTime tbItems
  simp only [List.append_assoc]
  exact ⟨_, rfl⟩

theorem snapTime_set {s : State} {now : CampusTime} (h : s.tb.campus = some now) :
    (snapTime s).take 9 = [some (now.day : Int), some (now.ms : Int), some s.tb.trim, some s.tb.acc,
      some s.tb.pc, some (s.tb.slewCount : Int), some (s.tb.refMode.code : Int), some (s.tb.lossLimit : Int), some (s.tb.slewLimit : Int)] := by
  obtain ⟨rest, hb⟩ := snapTime_begin s
  rw [hb, h]
  rfl

theorem snapTime_unset {s : State} (h : s.tb.campus = none) : (snapTime s).take 3 = [none, none, some s.tb.trim] := by
  obtain ⟨rest, hb⟩ := snapTime_begin s
  rw [hb, h]
  rfl

theorem snapZones_state (s : State) {k : Nat} (hk : k < 64) : (snapZones s)[k]? = some (some ((s.zoneState k).code : Int)) := by
  simp only [snapZones, zaItems, List.append_assoc]
  rw [each_single (fun _ => rfl) _ (by simpa using hk), List.getElem_range]
  rfl

theorem snapCircuits_enabled {s : State} (hc : Counts s) {k : Nat} (hk : k < 4) :
    (snapCircuits s)[k]? = some (some (yesNo (s.circuit k).cfg.enabled : Int)) := by
  have hl : k < s.cu.circuits.length := by rw [hc.circuits]; exact hk
  simp only [snapCircuits, List.append_assoc]
  rw [each_single (fun _ => rfl) _ hl, State.circuit, List.getD_eq_getElem _ _ hl]
  rfl

theorem snapCircuits_dial {s : State} (hc : Counts s) {k : Nat} (hk : k < 4) :
    (snapCircuits s)[4 + k]? = some (some ((s.circuit k).cfg.dial : Int)) := by
  have hl : k < s.cu.circuits.length := by rw [hc.circuits]; exact hk
  have h4 : (each s.cu.circuits fun k => yes k.cfg.enabled).length = 4 := (each_length_single (fun _ => rfl) _).trans hc.circuits
  simp only [snapCircuits, List.append_assoc]
  rw [List.getElem?_append_right (by omega), h4, Nat.add_sub_cancel_left, each_single (fun _ => rfl) _ hl, State.circuit,
    List.getD_eq_getElem _ _ hl]
  rfl

/-- The three settings of a channel. -/
theorem snapChannels_item {s : State} (hc : Counts s) {k j : Nat} (hk : k < 4) (hj : j < 3) :
    (snapChannels s)[3 * k + j]? =
      (num (s.channel k).cfg.trigger ++ num (s.channel k).cfg.starveLimit ++ num (s.channel k).cfg.liveTail)[j]? := by
  have hl : k < s.au.channels.length := by rw [hc.channels]; exact hk
  rw [State.channel, List.getD_eq_getElem _ _ hl]
  simp only [snapChannels, List.append_assoc]
  exact each_item (n := 3) (fun _ => rfl) _ hj _ k hl

/-- The seven items of a drill record. -/
theorem snapDrill_item {s : State} {k j : Nat} {r : DrillRec} (hr : s.dc.records[k]? = some r) (hj : j < 7) :
    (snapDrill s)[7 * k + j]? = (drillRecItems r)[j]? := by
  obtain ⟨hk, rfl⟩ := List.getElem?_eq_some_iff.mp hr
  simp only [snapDrill, List.append_assoc]
  exact each_item (n := 7) (fun _ => rfl) _ hj _ k hk

/-- Settles O34. -/
theorem readStatusCopiesASnapshot : Obligations.ReadStatusCopiesASnapshot := by
  refine ⟨fun q ln offset s hr => ?_, fun size i items h => snapWords_get h, fun s k hc _ => ?_⟩
  · refine ⟨exec_readStatus (items := snapTime) rfl hr rfl, exec_readStatus (items := snapZones) rfl hr rfl, fun h => ?_,
      exec_readStatus (items := snapCircuits) rfl hr rfl, exec_readStatus (items := snapChannels) rfl hr rfl,
      exec_readStatus (items := snapDrill) rfl hr rfl, fun h => exec_refused rfl hr (if_pos h)⟩
    exact exec_readStatus (items := fun s => snapLine s ln) rfl hr (decideRequest_readStatusLine h offset _)
  · refine ⟨fun now h => snapTime_set h, snapTime_unset, snapZones_state s, ?_, fun hk => ⟨snapCircuits_enabled hc hk, snapCircuits_dial hc hk⟩,
      fun hk => ⟨snapChannels_item (j := 0) hc hk (by decide), snapChannels_item (j := 1) hc hk (by decide),
        snapChannels_item (j := 2) hc hk (by decide)⟩, fun r hr => ?_⟩
    · simp only [snapLine, List.append_assoc]
      rfl
    · refine ⟨snapDrill_item (j := 0) hr (by decide), snapDrill_item (j := 1) hr (by decide), snapDrill_item (j := 2) hr (by decide),
        snapDrill_item (j := 3) hr (by decide), snapDrill_item (j := 4) hr (by decide), ?_, snapDrill_item (j := 6) hr (by decide)⟩
      rw [snapDrill_item (j := 5) hr (by decide)]
      cases r with
      | mk defined buildings sounding target tone allClear group => cases allClear <;> rfl

end Sys2Proof.Machine
end

