-- ==== Sys2Proof/Proofs/Pure.lean ====
section
/-! SUPPORT. Changes that do not look at RI, and requests that come to such a change, with records and mirrors, and their answer. -/

namespace Sys2Proof.Machine
open Sys2Proof

/-- A change of state that neither reads RI nor changes it. -/
def RiFree (f : State → State) : Prop := ∀ (s : State) (ri : RegionIf), f { s with ri := ri } = { f s with ri := ri }

theorem RiFree.ri {f : State → State} (h : RiFree f) (s : State) : (f s).ri = s.ri := by
  have hs := h s s.ri
  rw [show ({ s with ri := s.ri } : State) = s from rfl] at hs
  rw [hs]

theorem RiFree.riOnly {f : State → State} (hf : RiFree f) {s t : State} (h : RiOnly s t) : RiOnly (f s) (f t) := by
  refine ⟨?_⟩
  conv => lhs; rw [h.eq, hf]
  rw [hf.ri t]

/-- Records and mirrors before such a change are as well after it. -/
theorem Noted.through {s t : State} (h : Noted s t) {f : State → State} (hf : RiFree f) : Noted (f s) (f t) := by
  have ho := hf.riOnly h.toRiOnly
  refine ⟨ho, ?_, by rw [hf.ri, hf.ri, h.accesses], fun hl => ?_⟩
  · obtain ⟨hk, ht, hc, hb, hout⟩ := h.framed
    obtain ⟨-, -, h1, h2, h3, h4, h5, h6, h7, h8⟩ := hk
    rw [← hf.ri s, ← hf.ri t] at h1 h2 h3 h4 h5 h6 h7 h8 ht hc hb hout
    exact ⟨⟨ho.elapsed, ho.supply, h1, h2, h3, h4, h5, h6, h7, h8⟩, ht, hc, hb, hout⟩
  · rw [hf.ri, hf.ri]
    exact h.hold (by rwa [hf.ri] at hl)

/-- Taking a request, and beginning an event, leave the blocks. -/
theorem SameBut.of_taking {bs : List BlockId} {q : ReqHdr} {s t : State} (h : SameBut bs (s.taking q) t) : SameBut bs s t :=
  ⟨h.tb, h.dp, h.se, h.za, h.pu, h.au, h.dc, h.cu, h.lc, h.io⟩

theorem SameBut.of_started {bs : List BlockId} {s t : State} (h : SameBut bs s.started t) : SameBut bs s t :=
  ⟨h.tb, h.dp, h.se, h.za, h.pu, h.au, h.dc, h.cu, h.lc, h.io⟩

theorem SameBut.trans {bs : List BlockId} {s t u : State} (h : SameBut bs s t) (k : SameBut bs t u) : SameBut bs s u :=
  ⟨fun n => (k.tb n).trans (h.tb n), fun n => (k.dp n).trans (h.dp n), fun n => (k.se n).trans (h.se n), fun n => (k.za n).trans (h.za n),
    fun n => (k.pu n).trans (h.pu n), fun n => (k.au n).trans (h.au n), fun n => (k.dc n).trans (h.dc n), fun n => (k.cu n).trans (h.cu n),
    fun n => (k.lc n).trans (h.lc n), fun n => (k.io n).trans (h.io n)⟩

/-- A request that comes to a change of other blocks than RI, with records and mirrors, and its answer. -/
theorem exec_decided {i : Instr} {q : ReqHdr} {s u : State} {c : Ctx} {o : Outcome} {ws : List Word} (hi : reqHdr? i = some q)
    (hr : s.reaches q = true) (hlog : LogSound s.ri) (hd : decideRequest i (s.deciding q) = c.upd (State.answer q o ws))
    (hn : Noted u c.st) (ha : c.ans = []) (ht : c.todo = []) (hws : ws.length ≤ 3) (he : u.elapsed = s.elapsed) (hs : u.supply = s.supply)
    (hri : u.ri = (s.taking q).ri) :
    exec i s = .next (c.st.answer q o ws) ∧ Decided q o ws s (c.st.answer q o ws) ∧ RiOnly u (c.st.answer q o ws) := by
  refine ⟨?_, ?_, hn.toRiOnly.trans (riOnly_answer _ q o ws)⟩
  · rw [exec_request hi hr, hd]
    exact congrArg Host.Outcome.next (close_done ha ht)
  · have hf : Framed (s.taking q) u := Framed.of_ri he hs hri
    exact decided_of_answer hr hlog hws (hf.trans hn.framed)

end Sys2Proof.Machine
end

