-- ==== Sys2Proof/Proofs/Resume.lean ====
section
/-! SUPPORT. RESUME AFTER ALARM (R139, R80). -/

namespace Sys2Proof.Machine
open Sys2Proof

/-- The state with some zones clear. -/
def State.clearing (zs : List Nat) (s : State) : State := zs.foldl (fun s z => s.setZone z fun _ => ZoneDyn.clear) s

theorem clearing_za_only (zs : List Nat) : ∀ s : State, ∃ ds, s.clearing zs = { s with za := { s.za with zones := ds } } := by
  induction zs with
  | nil => exact fun s => ⟨s.za.zones, rfl⟩
  | cons z zs ih =>
    intro s
    obtain ⟨ds, h⟩ := ih (s.setZone z fun _ => ZoneDyn.clear)
    exact ⟨ds, h⟩

/-- A place becomes clear, or keeps what it has; past the end a zone reads as clear. -/
theorem setZone_clear (s : State) (z y : Nat) : (s.setZone z fun _ => ZoneDyn.clear).zone y = if y = z then ZoneDyn.clear else s.zone y := by
  simp only [State.zone, State.setZone, List.getD_eq_getElem?_getD, List.getElem?_modify]
  by_cases h : z = y
  · subst h
    cases s.za.zones[z]? <;> simp
  · simp [h, show ¬ y = z from fun e => h e.symm]

theorem clearing_zone (zs : List Nat) : ∀ (s : State) (y : Nat), (s.clearing zs).zone y = if y ∈ zs then ZoneDyn.clear else s.zone y := by
  induction zs with
  | nil => exact fun s y => rfl
  | cons z zs ih =>
    intro s y
    show ((s.setZone z fun _ => ZoneDyn.clear).clearing zs).zone y = _
    rw [ih, setZone_clear]
    by_cases hy : y ∈ zs <;> by_cases hz : y = z <;> simp [hy, hz]

theorem each_clear (zs : List Nat) : ∀ c : Ctx,
    Ctx.each (fun z c => c.upd (State.setZone z fun _ => ZoneDyn.clear)) zs c = c.upd (State.clearing zs) := by
  induction zs with
  | nil => exact fun _ => rfl
  | cons z zs ih =>
    intro c
    rw [Ctx.each, ih]
    rfl

theorem mem_silenced {s : State} {z : Nat} : z ∈ s.silenced ↔ z < 64 ∧ s.zoneState z = .silenced := by simp [State.silenced]

/-- The state in which silence is no longer held. -/
def State.unsilenced (s : State) : State := { s with dc := { s.dc with silenceHeld := false } }

theorem riFree_clearing (zs : List Nat) : RiFree (State.clearing zs) := by
  induction zs with
  | nil => exact fun _ _ => rfl
  | cons z zs ih => exact fun s ri => ih (s.setZone z fun _ => ZoneDyn.clear) ri

/-- R80: the silenced zones are released, with SILENCE RELEASED. -/
def Ctx.resumed (c : Ctx) : Ctx :=
  (releaseSilence ((c.upd State.unsilenced).upd State.mirrorFire)).record
    (dcNote .silenceReleased .attention c.tag (dv c.st.silenced.length) (dv 0) (dv 0))

theorem decideResume_free {q : ReqHdr} {c : Ctx} (h : c.st.dc.fireActive = false) :
    decideResume q c = c.resumed.upd (State.answer q .done [numWord c.st.silenced.length]) := if_neg (by simp [h])

theorem resumed_eq (c : Ctx) : c.resumed = c.upd fun s => (s.unsilenced.mirrorFire.clearing s.silenced).record
    (dcNote .silenceReleased .attention c.tag (dv c.st.silenced.length) (dv 0) (dv 0)) := by
  have hzs : c.st.unsilenced.mirrorFire.silenced = c.st.silenced := by
    rw [State.silenced, (noted_mirrorFire c.st.unsilenced).zoneState]
    rfl
  unfold Ctx.resumed releaseSilence
  rw [each_clear]
  simp only [Ctx.upd_st, hzs]
  rfl

theorem resumed_noted (c : Ctx) : Noted (c.st.unsilenced.clearing c.st.silenced) c.resumed.st := by
  rw [resumed_eq]
  exact ((noted_mirrorFire c.st.unsilenced).through (riFree_clearing _)).record _

theorem unsilenced_clearing_zoneState {s : State} {z : Nat} (h : s.zoneState z = .silenced) (hz : z < 64) :
    (s.unsilenced.clearing s.silenced).zoneState z = .idle := by
  have hen : (s.zoneRec z).enabled = true := by
    by_contra hen
    simp [State.zoneState, hen] at h
  obtain ⟨ds, hds⟩ := clearing_za_only s.silenced s.unsilenced
  have hrec : (s.unsilenced.clearing s.silenced).zoneRec z = s.zoneRec z := by
    rw [hds]
    rfl
  rw [State.zoneState, clearing_zone, if_pos (mem_silenced.mpr ⟨hz, h⟩), hrec, hen]
  rfl

/-- Settles O29. -/
theorem resumeReleasesSilence : Obligations.ResumeReleasesSilence := by
  intro q s hr hlog
  refine ⟨fun h => exec_refused rfl hr (if_pos h), fun h => ?_⟩
  obtain ⟨ds, hds⟩ := clearing_za_only s.silenced (s.taking q).unsilenced
  have hn : Noted ((s.taking q).unsilenced.clearing s.silenced) (s.deciding q).resumed.st := resumed_noted (s.deciding q)
  have hzone (y : Nat) : ((s.taking q).unsilenced.clearing s.silenced).zone y = if y ∈ s.silenced then ZoneDyn.clear else s.zone y :=
    clearing_zone _ _ y
  obtain ⟨he, hd, honly⟩ := exec_decided (i := .resumeAfterAlarm q) rfl hr hlog (decideResume_free (c := s.deciding q) h) hn (by rw [resumed_eq]; rfl)
    (by rw [resumed_eq]; rfl) (by simp)
    (by rw [hds]; rfl) (by rw [hds]; rfl) (by rw [hds]; rfl)
  refine ⟨_, he, hd, ?_, fun z hz hs => ⟨?_, ?_⟩, fun z hs => ?_, ?_, SameBut.of_only ?_ honly⟩
  · rw [honly.dc, hds]
    rfl
  · rw [honly.zoneState]
    exact unsilenced_clearing_zoneState (s := s.taking q) hs hz
  · rw [honly.zone, hzone, if_pos (mem_silenced.mpr ⟨hz, hs⟩)]
    rfl
  · rw [honly.zone, hzone, if_neg fun hm => hs (mem_silenced.mp hm).2]
  · rw [honly.za, hds]
    rfl
  · rw [hds]
    exact ⟨fun _ => rfl, fun _ => rfl, fun _ => rfl, fun hx => (hx (by decide)).elim, fun _ => rfl, fun _ => rfl,
      fun hx => (hx (by decide)).elim, fun _ => rfl, fun _ => rfl, fun _ => rfl⟩

end Sys2Proof.Machine
end

