-- ==== Sys2Proof/Proofs/Reference.lean ====
section
/-! SUPPORT. SET REFERENCE, the pulses of the reference, and its loss (R9 to R14, R20). -/

namespace Sys2Proof.Machine
open Sys2Proof

/-! ### Events that change the Time Base and the trouble classes -/

/-- The state with another Time Base and other trouble classes. -/
def State.timed (tb : TimeBase) (tr : BitVec 6) (s : State) : State := { s with tb := tb, io := { s.io with trouble := tr } }

/-- An event so far has given the Time Base a value, and with it some trouble classes, records and mirrors; it has nothing outstanding. -/
structure Timed (tb : TimeBase) (s : State) (c : Ctx) : Prop where
  state : ∃ tr, Noted (s.timed tb tr) c.st
  ans : c.ans = []
  todo : c.todo = []

theorem timed_refl {c : Ctx} (ha : c.ans = []) (ht : c.todo = []) : Timed c.st.tb c.st c := ⟨⟨c.st.io.trouble, Noted.refl _⟩, ha, ht⟩

theorem Timed.setTb {tb : TimeBase} {s : State} {c : Ctx} (h : Timed tb s c) (f : TimeBase → TimeBase) :
    Timed (f tb) s (c.upd (State.setTb f)) := by
  obtain ⟨tr, hn⟩ := h.state
  exact ⟨⟨tr, hn.through (f := State.setTb f) fun _ _ => rfl⟩, h.ans, h.todo⟩

theorem Timed.record {tb : TimeBase} {s : State} {c : Ctx} (h : Timed tb s c) (n : Note) : Timed tb s (c.record n) := by
  obtain ⟨tr, hn⟩ := h.state
  exact ⟨⟨tr, hn.record _⟩, h.ans, h.todo⟩

theorem Timed.updateTrouble {tb : TimeBase} {s : State} {c : Ctx} (h : Timed tb s c) : Timed tb s (c.upd State.updateTrouble) := by
  obtain ⟨tr, hn⟩ := h.state
  have hu := hn.through (f := fun s => { s with io := { s.io with trouble := c.st.troubleNow } }) fun _ _ => rfl
  exact ⟨⟨c.st.troubleNow, hu.trans (noted_updateTrouble c.st)⟩, h.ans, h.todo⟩

theorem Timed.tb {tb : TimeBase} {s : State} {c : Ctx} (h : Timed tb s c) : c.st.tb = tb := by
  obtain ⟨tr, hn⟩ := h.state
  exact hn.tb

theorem Timed.elapsed {tb : TimeBase} {s : State} {c : Ctx} (h : Timed tb s c) : c.st.elapsed = s.elapsed := by
  obtain ⟨tr, hn⟩ := h.state
  exact hn.elapsed

theorem Timed.input {tb : TimeBase} {s : State} {c : Ctx} (h : Timed tb s c) : c.st.input = s.input := by
  obtain ⟨tr, hn⟩ := h.state
  exact hn.input

theorem Timed.close {tb : TimeBase} {s : State} {c : Ctx} (h : Timed tb s c) : c.close = c.st := close_done h.ans h.todo

theorem timed_sameBut (s : State) (tb : TimeBase) (tr : BitVec 6) : SameBut [.tb, .io] s (s.timed tb tr) :=
  ⟨fun hx => (hx (by decide)).elim, fun _ => rfl, fun _ => rfl, fun _ => rfl, fun _ => rfl, fun _ => rfl, fun _ => rfl, fun _ => rfl,
    fun _ => rfl, fun hx => (hx (by decide)).elim⟩

theorem Timed.same {tb : TimeBase} {s : State} {c : Ctx} (h : Timed tb s c) : SameBut [.tb, .io] s c.st := by
  obtain ⟨tr, hn⟩ := h.state
  exact (timed_sameBut s tb tr).of_only hn.toRiOnly

/-! ### The loss of the reference (R13) -/

/-- R13: the Time Base after the reference was lost. -/
def TimeBase.lost (now : Nat) (tb : TimeBase) : TimeBase := { tb with refLost := true, lostAt := now, baseline := none }

theorem referenceLost_timed {tb : TimeBase} {s : State} {c : Ctx} (h : Timed tb s c) : Timed (tb.lost s.elapsed) s (referenceLost c) := by
  rw [← h.elapsed]
  exact ((h.setTb (TimeBase.lost c.st.elapsed)).record _).updateTrouble

/-- R13, R183: the trouble class REFERENCE is present after the loss. -/
theorem referenceLost_trouble {c : Ctx} (h : timeState (referenceLost c).st.tb = .holdover) : (referenceLost c).st.io.trouble.getLsbD 2 = true := by
  have ht : (referenceLost c).st.io.trouble = (referenceLost c).st.troubleNow := updateTrouble_trouble _
  rw [ht, State.troubleNow]
  simp (disch := decide) [withBit_getLsbD, h, -BitVec.getLsbD_eq_getElem]

theorem lossDue_iff {tb : TimeBase} (hm : tb.refMode = .pulse) (hc : tb.campus ≠ none) (hl : tb.refLost = false) (hs : tb.saturated = false) :
    tb.lossDue = decide (1000 * tb.lossLimit ≤ tb.lossTimer) := by
  simp [TimeBase.lossDue, TimeBase.lossRuns, hm, hl, hs, Option.isSome_iff_ne_none.mpr hc]

theorem lost_holdover {tb : TimeBase} (hm : tb.refMode = .pulse) (hc : tb.campus ≠ none) (now : Nat) : timeState (tb.lost now) = .holdover := by
  obtain ⟨t, ht⟩ := Option.ne_none_iff_exists'.mp hc
  simp [timeState, TimeBase.lost, hm, ht]

/-! ### SET REFERENCE (R20) -/

theorem clampNat_eq {lo hi : Nat} (h : lo ≤ hi) (v : Nat) : clampNat lo hi v = max lo (min hi v) := by
  unfold clampNat
  split
  · omega
  · split <;> omega

theorem clampInt_eq {lo hi : Int} (h : lo ≤ hi) (v : Int) : clampInt lo hi v = max lo (min hi v) := by
  unfold clampInt
  split
  · omega
  · split <;> omega

/-- A change of mode keeps campus time, the trim, the pending correction, the offset and the limits. -/
theorem changeMode_kept (p : Bool) (now : Nat) (tb : TimeBase) :
    (changeMode p now tb).campus = tb.campus ∧ (changeMode p now tb).trim = tb.trim ∧ (changeMode p now tb).pc = tb.pc
      ∧ (changeMode p now tb).offset = tb.offset ∧ (changeMode p now tb).lossLimit = tb.lossLimit
      ∧ (changeMode p now tb).slewLimit = tb.slewLimit := by
  unfold changeMode
  cases tb.refMode <;> cases p <;> exact ⟨rfl, rfl, rfl, rfl, rfl, rfl⟩

theorem changeMode_refMode (p : Bool) (now : Nat) (tb : TimeBase) : (changeMode p now tb).refMode = if p = true then .pulse else .off := by
  unfold changeMode
  cases h : tb.refMode <;> cases p <;> simp [h]

theorem changeMode_enter {tb : TimeBase} (h : tb.refMode = .off) (now : Nat) : changeMode true now tb =
    { tb with refMode := .pulse, lastPulse := none, baseline := none, baselineAwaited := false, invalidPulses := 0
              refLost := false, lossTimer := 0, pulseEntry := now } := by
  unfold changeMode
  rw [h]

theorem changeMode_leave {tb : TimeBase} (h : tb.refMode = .pulse) (now : Nat) : changeMode false now tb =
    { tb with refMode := .off, refLost := false, lossTimer := 0, lastPulse := none, baseline := none, baselineAwaited := false } := by
  unfold changeMode
  rw [h]

/-- R20: the Time Base with the limits given and the mode changed. -/
def TimeBase.referred (mode loss slew now : Nat) (tb : TimeBase) : TimeBase :=
  changeMode (mode == 1) now { tb with lossLimit := clampNat 10 600 loss, slewLimit := clampNat 100 60000 slew }

/-- R20, R13: a loss that the new limit makes due comes at once. -/
def TimeBase.judged (now : Nat) (tb : TimeBase) : TimeBase := if tb.lossDue then tb.lost now else tb

theorem judged_kept (now : Nat) (tb : TimeBase) : (tb.judged now).campus = tb.campus ∧ (tb.judged now).trim = tb.trim
    ∧ (tb.judged now).pc = tb.pc ∧ (tb.judged now).offset = tb.offset ∧ (tb.judged now).lossLimit = tb.lossLimit
    ∧ (tb.judged now).slewLimit = tb.slewLimit ∧ (tb.judged now).refMode = tb.refMode := by
  unfold TimeBase.judged
  split <;> exact ⟨rfl, rfl, rfl, rfl, rfl, rfl, rfl⟩

theorem judged_of_not {tb : TimeBase} (h : tb.lossDue = false) (now : Nat) : tb.judged now = tb := if_neg (by simp [h])

theorem referred_entering {tb : TimeBase} (h : tb.refMode = .off) (loss slew now : Nat) :
    let t := (tb.referred 1 loss slew now).judged now
    t.lastPulse = none ∧ t.baseline = none ∧ t.invalidPulses = 0 ∧ t.refLost = false ∧ t.lossTimer = 0 := by
  have hl : 10 ≤ clampNat 10 600 loss := by
    rw [clampNat_eq (by decide)]
    omega
  have hm := changeMode_enter (tb := { tb with lossLimit := clampNat 10 600 loss, slewLimit := clampNat 100 60000 slew }) h now
  have hin : tb.referred 1 loss slew now = _ := hm
  rw [hin, judged_of_not]
  · exact ⟨rfl, rfl, rfl, rfl, rfl⟩
  · simp only [TimeBase.lossDue, Bool.and_eq_false_iff, decide_eq_false_iff_not]
    exact .inr (by omega)

theorem referred_leaving {tb : TimeBase} (h : tb.refMode = .pulse) (loss slew now : Nat) :
    let t := (tb.referred 0 loss slew now).judged now
    t.refLost = false ∧ t.baseline = none := by
  have hm := changeMode_leave (tb := { tb with lossLimit := clampNat 10 600 loss, slewLimit := clampNat 100 60000 slew }) h now
  have hin : tb.referred 0 loss slew now = _ := hm
  rw [hin, judged_of_not rfl]
  exact ⟨rfl, rfl⟩

/-- R20: what SET REFERENCE makes of the event so far. -/
def Ctx.referred (mode loss slew : Nat) (c : Ctx) : Ctx :=
  let c1 := (c.upd (State.setTb (TimeBase.referred mode loss slew c.st.elapsed))).upd State.updateTrouble
  if c1.st.tb.lossDue then referenceLost c1 else c1

theorem referred_timed {c : Ctx} (ha : c.ans = []) (ht : c.todo = []) (mode loss slew : Nat) :
    Timed ((c.st.tb.referred mode loss slew c.st.elapsed).judged c.st.elapsed) c.st (c.referred mode loss slew) := by
  have h := ((timed_refl ha ht).setTb (TimeBase.referred mode loss slew c.st.elapsed)).updateTrouble
  unfold Ctx.referred
  dsimp only
  rw [h.tb, TimeBase.judged]
  split
  · exact referenceLost_timed h
  · exact h

theorem decideSetReference_ok {q : ReqHdr} {mode : Nat} (h : mode ≤ 1) (loss slew : Nat) (c : Ctx) :
    decideSetReference q mode loss slew c = (c.referred mode loss slew).upd
      (State.answer q (.ofClamped (clampNat 10 600 loss != loss || clampNat 100 60000 slew != slew)) []) := if_neg (by omega)

/-- Settles O17. -/
theorem setReferenceTakesEffect : Obligations.SetReferenceTakesEffect := by
  intro q mode loss slew s hr hlog
  refine ⟨fun h => exec_refused rfl hr (if_pos h), fun h => ?_⟩
  have ht := referred_timed (c := s.deciding q) rfl rfl mode loss slew
  obtain ⟨tr, hn⟩ : ∃ tr, Noted ((s.taking q).timed ((s.tb.referred mode loss slew s.elapsed).judged s.elapsed) tr) _ := ht.state
  obtain ⟨he, hd, honly⟩ := exec_decided (i := .setReference q mode loss slew) rfl hr hlog (decideSetReference_ok h loss slew _) hn ht.ans
    ht.todo (by simp) rfl rfl rfl
  have htb := honly.tb.trans (show _ = (s.tb.referred mode loss slew s.elapsed).judged s.elapsed from rfl)
  obtain ⟨j1, j2, j3, j4, j5, j6, j7⟩ := judged_kept s.elapsed (s.tb.referred mode loss slew s.elapsed)
  obtain ⟨m1, m2, m3, m4, m5, m6⟩ := changeMode_kept (mode == 1) s.elapsed
    { s.tb with lossLimit := clampNat 10 600 loss, slewLimit := clampNat 100 60000 slew }
  have h10 := j5.trans m5
  have h100 := j6.trans m6
  rw [← htb] at h10 h100 j1 j2 j3 j4 j7
  refine ⟨_, he, h10.trans (clampNat_eq (by decide) _), h100.trans (clampNat_eq (by decide) _), ?_, ?_, j1.trans m1, j2.trans m2,
    j3.trans m3, j4.trans m4, fun hm ho => ?_, fun hm ho => ?_, ((timed_sameBut (s.taking q) _ tr).of_only honly).of_taking⟩
  · rw [j7, TimeBase.referred, changeMode_refMode]
    simp
  · rw [h10, h100]
    have ho : Outcome.ofClamped (clampNat 10 600 loss != loss || clampNat 100 60000 slew != slew)
        = if clampNat 10 600 loss = loss ∧ clampNat 100 60000 slew = slew then .done else .doneClamped := by
      unfold Outcome.ofClamped
      by_cases h1 : clampNat 10 600 loss = loss <;> by_cases h2 : clampNat 100 60000 slew = slew <;> simp [h1, h2]
    rw [← ho]
    exact hd
  · rw [htb, hm]
    exact referred_entering ho loss slew _
  · rw [htb, hm]
    exact referred_leaving ho loss slew _

/-! ### Pulses (R9 to R11, R14) -/

/-- R9, log entry 32: the phase error of a pulse. -/
theorem phaseError_eq (ms : Nat) : phaseError ms = (let m : Int := (ms % 1000 : Nat)
    if m < 500 then m else m - 1000) := by
  unfold phaseError
  dsimp only
  by_cases h : ms % 1000 < 500
  · rw [if_pos h, if_pos (by omega)]
  · rw [if_neg h, if_neg (by omega)]

theorem validInterval_iff (ms : Nat) : validInterval ms = true ↔ ∃ k, 1 ≤ k ∧ k ≤ 3600 ∧ 1000 * k ≤ ms + 50 ∧ ms ≤ 1000 * k + 50 := by
  simp only [validInterval, Bool.and_eq_true, decide_eq_true_eq]
  constructor
  · rintro ⟨⟨h1, h2⟩, h3⟩
    exact ⟨(ms + 50) / 1000, h1, h2, by omega, by omega⟩
  · rintro ⟨k, h1, h2, h3, h4⟩
    have hk : (ms + 50) / 1000 = k := by omega
    rw [hk]
    omega

/-- R9: a pulse is valid. -/
def State.pulseValid (s : State) : Prop := ∀ p, s.tb.lastPulse = some p → 3600050 < s.elapsed - p
  ∨ ∃ k, 1 ≤ k ∧ k ≤ 3600 ∧ 1000 * k ≤ s.elapsed - p + 50 ∧ s.elapsed - p ≤ 1000 * k + 50

theorem referencePulse_ignored {c : Ctx} (h : c.st.tb.refMode = .off ∨ c.st.tb.campus = none ∨ c.st.tb.saturated = true) :
    referencePulse c = c := by
  unfold referencePulse
  dsimp only
  cases hc : c.st.tb.campus with
  | none => rfl
  | some t =>
    rw [hc] at h
    exact if_pos (by simpa using h)

/-- R9: of a part with a campus time in mode PULSE a pulse is valid, or is counted as invalid. -/
theorem referencePulse_judged {c : Ctx} {t : CampusTime} (hm : c.st.tb.refMode = .pulse) (ht : c.st.tb.campus = some t)
    (hs : c.st.tb.saturated = false) : (c.st.pulseValid → referencePulse c = validPulse t c)
      ∧ (¬ c.st.pulseValid → referencePulse c =
        c.upd (State.setTb fun tb => { tb with invalidPulses := min (tb.invalidPulses + 1) 65535 })) := by
  unfold referencePulse State.pulseValid
  simp only [ht]
  rw [if_neg (by simp [hm, hs])]
  cases c.st.tb.lastPulse with
  | none => exact ⟨fun _ => rfl, fun h => (h (fun p hp => nomatch hp)).elim⟩
  | some p =>
    have hv : ((decide (c.st.elapsed - p > pulseExpiry) || validInterval (c.st.elapsed - p)) = true) ↔
        ∀ x, some p = some x → 3600050 < c.st.elapsed - x ∨ ∃ k, 1 ≤ k ∧ k ≤ 3600 ∧ 1000 * k ≤ c.st.elapsed - x + 50
          ∧ c.st.elapsed - x ≤ 1000 * k + 50 := by
      rw [Bool.or_eq_true, validInterval_iff, decide_eq_true_iff, pulseExpiry]
      exact ⟨fun h x hx => Option.some.inj hx ▸ h, fun h => h p rfl⟩
    exact ⟨fun h => if_pos (hv.mpr h), fun h => if_neg fun hx => h (hv.mp hx)⟩

/-- R10, R14: a valid pulse is the last, with its error, and the reference is there. -/
def TimeBase.pulsed (e : Int) (now : Nat) (tb : TimeBase) : TimeBase :=
  { tb with lastPulse := some now, lastError := e, lossTimer := 0, refLost := false }

/-- R11: the Time Base after a correction by a valid pulse outside the deadband. -/
def TimeBase.corrected (e trim : Int) (tb : TimeBase) : TimeBase :=
  ({ tb with trim := trim, baseline := none, baselineAwaited := true }).slewBy (-e)

/-- R10, R11: the Time Base after a valid pulse. -/
def TimeBase.afterPulse (e : Int) (now : Nat) (tb : TimeBase) : TimeBase :=
  if -2 ≤ e ∧ e ≤ 2 then { tb.pulsed e now with baseline := if tb.pc = 0 ∧ tb.baseline = none then some now else tb.baseline }
  else (tb.pulsed e now).corrected e (learnedTrim tb e now)

/-- The beginning of a valid pulse, with the end of a loss. -/
def Ctx.pulsed (e : Int) (c : Ctx) : Ctx :=
  let c1 := c.upd (State.setTb fun tb => { tb with lastError := e, lastPulse := some c.st.elapsed, lossTimer := 0 })
  if c.st.tb.refLost then
    ((c1.upd (State.setTb fun tb => { tb with refLost := false })).record
      (tbNote .referenceRestored .routine 0 (dv (c.st.elapsed - c.st.tb.lostAt)) (dvi e) (dv 0))).upd State.updateTrouble
  else c1

theorem pulsed_timed {s : State} {c : Ctx} (h : Timed s.tb s c) (e : Int) : Timed (s.tb.pulsed e s.elapsed) s (c.pulsed e) := by
  have h1 := h.setTb fun tb => { tb with lastError := e, lastPulse := some c.st.elapsed, lossTimer := 0 }
  rw [← h.elapsed]
  unfold Ctx.pulsed
  dsimp only
  split
  · exact ((h1.setTb fun tb => { tb with refLost := false }).record _).updateTrouble
  · next hl =>
    rw [h.tb, Bool.not_eq_true] at hl
    have he : ({ s.tb with lastError := e, lastPulse := some c.st.elapsed, lossTimer := 0 } : TimeBase) = s.tb.pulsed e c.st.elapsed := by
      rw [TimeBase.pulsed, ← hl]
    rwa [he] at h1

theorem validPulse_timed {s : State} {c : Ctx} (h : Timed s.tb s c) (t : CampusTime) :
    Timed (s.tb.afterPulse (phaseError t.ms) s.elapsed) s (validPulse t c) := by
  have h2 := pulsed_timed h (phaseError t.ms)
  have hv : validPulse t c = if -2 ≤ phaseError t.ms ∧ phaseError t.ms ≤ 2 then
      if s.tb.pc = 0 ∧ s.tb.baseline = none then (c.pulsed (phaseError t.ms)).upd (State.setTb fun tb => { tb with baseline := some c.st.elapsed })
      else c.pulsed (phaseError t.ms)
    else correctPhase (phaseError t.ms) (c.pulsed (phaseError t.ms)) := by
    unfold validPulse
    simp only [h.tb, Bool.and_eq_true, decide_eq_true_eq, Option.isNone_iff_eq_none]
    rw [← h.tb]
    rfl
  rw [hv, TimeBase.afterPulse]
  by_cases hd : -2 ≤ phaseError t.ms ∧ phaseError t.ms ≤ 2
  · rw [if_pos hd, if_pos hd]
    by_cases hb : s.tb.pc = 0 ∧ s.tb.baseline = none
    · rw [if_pos hb, if_pos hb, h.elapsed]
      exact h2.setTb fun tb => { tb with baseline := some s.elapsed }
    · rw [if_neg hb, if_neg hb]
      exact h2
  · rw [if_neg hd, if_neg hd]
    have hl : learnedTrim s.tb (phaseError t.ms) s.elapsed =
        learnedTrim (c.pulsed (phaseError t.ms)).st.tb (phaseError t.ms) (c.pulsed (phaseError t.ms)).st.elapsed := by
      rw [h2.tb, h2.elapsed]
      rfl
    rw [hl]
    exact (h2.setTb (TimeBase.corrected (phaseError t.ms) _)).record _

/-- R9 to R11: the Time Base after a pulse in mode PULSE, of a part with a campus time. -/
theorem referencePulse_timed {s : State} {c : Ctx} (h : Timed s.tb s c) :
    ∃ tb, Timed tb s (referencePulse c) ∧ (s.tb.refMode = .off ∨ s.tb.campus = none ∨ s.tb.saturated = true → tb = s.tb)
      ∧ ∀ t, s.tb.refMode = .pulse → s.tb.campus = some t → s.tb.saturated = false →
        (¬ s.pulseValid → tb = { s.tb with invalidPulses := min (s.tb.invalidPulses + 1) 65535 })
        ∧ (s.pulseValid → tb = s.tb.afterPulse (phaseError t.ms) s.elapsed) := by
  have hv : c.st.pulseValid ↔ s.pulseValid := by rw [State.pulseValid, State.pulseValid, h.tb, h.elapsed]
  by_cases hi : s.tb.refMode = .off ∨ s.tb.campus = none ∨ s.tb.saturated = true
  · refine ⟨s.tb, ?_, fun _ => rfl, fun t hm hc hs => ?_⟩
    · rwa [referencePulse_ignored (by rwa [h.tb])]
    · rcases hi with hi | hi | hi <;> simp_all
  · have hm : s.tb.refMode = .pulse := by
      cases hr : s.tb.refMode with
      | off => exact (hi (.inl hr)).elim
      | pulse => rfl
    have hs : s.tb.saturated = false := Bool.eq_false_iff.mpr fun hs => hi (.inr (.inr hs))
    obtain ⟨t, ht⟩ := Option.ne_none_iff_exists'.mp fun hc => hi (.inr (.inl hc))
    obtain ⟨hval, hinv⟩ := referencePulse_judged (c := c) (by rwa [h.tb]) (by rwa [h.tb]) (by rwa [h.tb])
    by_cases hp : s.pulseValid
    · refine ⟨s.tb.afterPulse (phaseError t.ms) s.elapsed, ?_, fun x => (hi x).elim, fun x _ hx _ => ⟨fun hn => (hn hp).elim, fun _ => ?_⟩⟩
      · rw [hval (hv.mpr hp)]
        exact validPulse_timed h t
      · rw [Option.some.inj (ht.symm.trans hx)]
    · refine ⟨{ s.tb with invalidPulses := min (s.tb.invalidPulses + 1) 65535 }, ?_, fun x => (hi x).elim,
        fun x _ hx _ => ⟨fun _ => rfl, fun hn => (hp hn).elim⟩⟩
      rw [hinv fun hn => hp (hv.mp hn)]
      exact h.setTb fun tb => { tb with invalidPulses := min (tb.invalidPulses + 1) 65535 }

/-- R10: inside the deadband. -/
theorem afterPulse_near {e : Int} (h1 : -2 ≤ e) (h2 : e ≤ 2) (now : Nat) (tb : TimeBase) : tb.afterPulse e now =
    { tb with lastPulse := some now, lastError := e, lossTimer := 0, refLost := false
              baseline := if tb.pc = 0 ∧ tb.baseline = none then some now else tb.baseline } := if_pos ⟨h1, h2⟩

/-- R11: outside the deadband. -/
theorem afterPulse_far {e : Int} (h : e < -2 ∨ 2 < e) (now : Nat) (tb : TimeBase) : tb.afterPulse e now =
    { tb with lastPulse := some now, lastError := e, lossTimer := 0, refLost := false, trim := learnedTrim tb e now
              baseline := none, baselineAwaited := true, pc := -e, slewCount := 0, slewLate := false } := if_neg (by omega)

theorem learnedTrim_none {tb : TimeBase} (h : tb.pc ≠ 0 ∨ tb.baseline = none) (e : Int) (now : Nat) : learnedTrim tb e now = tb.trim := by
  unfold learnedTrim
  cases hb : tb.baseline with
  | none => rfl
  | some b =>
    rw [hb] at h
    exact if_neg (h.resolve_right (by simp))

theorem learnedTrim_some {tb : TimeBase} (h : tb.pc = 0) {b : Nat} (hb : tb.baseline = some b) (e : Int) (now : Nat) :
    learnedTrim tb e now = (let seconds : Int := (max 1 (min 86400 ((now - b + 500) / 1000)) : Nat)
      max (-5000) (min 5000 (tb.trim + max (-500) (min 500 (-(Int.tdiv (e * 10000) (8 * seconds))))))) := by
  unfold learnedTrim
  simp only [hb, if_pos h, trimChange, learnSeconds, clampNat_eq (show 1 ≤ 86400 by decide), clampInt_eq (show (-5000 : Int) ≤ 5000 by decide),
    clampInt_eq (show (-500 : Int) ≤ 500 by decide)]

/-- An edge of K0 under REFERENCE is a pulse. -/
theorem takeReading_pulse {c : Ctx} (hr : c.st.running = true) (hf : c.st.io.inFunc 0 = .reference)
    (ho : Reading.counted (c.st.input 0).reading = .opened) :
    takeReading 0 .closed c = referencePulse (c.upd (State.setInput 0 (Input.take .closed c.st.elapsed))) :=
  if_pos (by simp [hr, hf, ho])

/-- R9: the last valid pulse is none any more. -/
theorem pulse_expired {p : Nat} {l : Option Nat} (hp : l = some p) (now : Nat) :
    (l.any fun p => p + pulseExpiry ≤ now) = decide (p + 3600050 ≤ now) := by
  rw [hp, Option.any_some, decide_eq_decide, pulseExpiry]

/-- Settles O49. -/
theorem referenceEventsTakeEffect : Obligations.ReferenceEventsTakeEffect := by
  intro s hr
  refine ⟨fun hf ho hc => ?_, fun hf => ?_, fun hm ht hl hs => ⟨fun h => ?_, fun h => ?_⟩, fun p hp => ⟨fun h => ?_, fun h => ?_⟩⟩
  · have hcl : Reading.counted (s.input 0).reading = .opened := by
      revert ho
      cases (s.input 0).reading <;> simp [Reading.counted]
    have hk : Counts s.started := ⟨hc.zones, hc.feeds, hc.channels, hc.circuits, hc.lines, hc.inputs, hc.outputs⟩
    have hin (k : Nat) := setInput_input hk (show 0 < 12 by decide) k (Input.take .closed s.elapsed)
    obtain ⟨tb, ht, hoff, hon⟩ := referencePulse_timed
      (timed_refl (c := s.begin.upd (State.setInput 0 (Input.take .closed s.elapsed))) rfl rfl)
    refine ⟨(referencePulse (s.begin.upd (State.setInput 0 (Input.take .closed s.elapsed)))).st, ?_, ?_, ?_, fun k hk => ?_, ?_,
      fun h => ht.tb.trans (hoff h), fun now hm hc hs => ?_⟩
    · refine congrArg Host.Outcome.next ((eventWhen_of_running hr (by simp [hf, hcl]) _).trans ?_)
      rw [takeReading_pulse (c := s.begin) hr hf hcl]
      exact ht.close
    · rw [ht.input]
      exact (congrArg Input.reading (hin 0)).trans rfl
    · rw [ht.input]
      exact (congrArg Input.func (hin 0)).trans rfl
    · rw [ht.input]
      exact setInput_input_ne s.started hk _
    · have hs : SameBut [.tb, .io] s.started (s.started.setInput 0 (Input.take .closed s.elapsed)) :=
        ⟨fun _ => rfl, fun _ => rfl, fun _ => rfl, fun _ => rfl, fun _ => rfl, fun _ => rfl, fun _ => rfl, fun _ => rfl, fun _ => rfl,
          fun hx => (hx (by decide)).elim⟩
      exact (hs.trans ht.same).of_started
    · obtain ⟨hinv, hval⟩ := hon now hm hc hs
      rw [ht.tb]
      have he := phaseError_eq now.ms
      dsimp only at he ⊢
      rw [← he]
      refine ⟨hinv, fun hv h1 h2 => (hval hv).trans (afterPulse_near h1 h2 _ _), fun hv h hb => (hval hv).trans ((afterPulse_far h s.elapsed s.tb).trans ?_),
        fun b hv h hpc hb => (hval hv).trans ((afterPulse_far h s.elapsed s.tb).trans ?_)⟩
      · rw [learnedTrim_none hb]
      · rw [learnedTrim_some hpc hb]
  · exact congrArg Host.Outcome.next (eventWhen_of_not (by simp [hf]) _)
  · exact congrArg Host.Outcome.next (eventWhen_of_not (by rw [lossDue_iff hm ht hl hs]; simpa using h) _)
  · have ht' := referenceLost_timed (timed_refl (c := s.begin) rfl rfl)
    have hh : timeState (referenceLost s.begin).st.tb = .holdover := by
      rw [ht'.tb]
      exact lost_holdover hm ht _
    refine ⟨(referenceLost s.begin).st, ?_, hh, ht'.tb, referenceLost_trouble hh, ht'.same.of_started⟩
    refine congrArg Host.Outcome.next ((eventWhen_of_running hr ?_ _).trans ht'.close)
    rw [lossDue_iff hm ht hl hs]
    simpa using h
  · refine congrArg Host.Outcome.next ((eventWhen_upd hr ?_ _).trans ?_)
    · rw [pulse_expired hp, decide_eq_true h]
    · rfl
  · exact congrArg Host.Outcome.next (eventWhen_of_not (by rw [pulse_expired hp, decide_eq_false (Nat.not_le_of_lt h)]) _)

end Sys2Proof.Machine
end

