-- ==== Sys2Proof/Proofs/Reach.lean ====
section
/-! SUPPORT. Events that come to a change of other items than RI and the trouble classes, with records, mirrors and the trouble classes following. -/

namespace Sys2Proof.Machine
open Sys2Proof

/-- The state with other trouble classes. -/
def State.troubleTo (tr : BitVec 6) (s : State) : State := { s with io := { s.io with trouble := tr } }

/-- A change of state that neither reads nor changes RI and the trouble classes. -/
structure Plain (f : State → State) : Prop where
  ri : RiFree f
  trouble : ∀ s tr, f (State.troubleTo tr s) = (f s).troubleTo tr

/-- An event so far has come to a state, but for the trouble classes, records and mirrors; it has nothing outstanding. -/
structure Reached (u : State) (c : Ctx) : Prop where
  state : ∃ tr, Noted (u.troubleTo tr) c.st
  ans : c.ans = []
  todo : c.todo = []

theorem reached_refl {c : Ctx} (ha : c.ans = []) (ht : c.todo = []) : Reached c.st c := ⟨⟨c.st.io.trouble, Noted.refl _⟩, ha, ht⟩

theorem Reached.upd {u : State} {c : Ctx} (h : Reached u c) {f : State → State} (hf : Plain f) : Reached (f u) (c.upd f) := by
  obtain ⟨tr, hn⟩ := h.state
  refine ⟨⟨tr, ?_⟩, h.ans, h.todo⟩
  rw [← hf.trouble]
  exact hn.through hf.ri

theorem Reached.record {u : State} {c : Ctx} (h : Reached u c) (n : Note) : Reached u (c.record n) := by
  obtain ⟨tr, hn⟩ := h.state
  exact ⟨⟨tr, hn.record _⟩, h.ans, h.todo⟩

theorem Reached.updateTrouble {u : State} {c : Ctx} (h : Reached u c) : Reached u (c.upd State.updateTrouble) := by
  obtain ⟨tr, hn⟩ := h.state
  have hu := hn.through (f := State.troubleTo c.st.troubleNow) fun _ _ => rfl
  exact ⟨⟨c.st.troubleNow, hu.trans (noted_updateTrouble c.st)⟩, h.ans, h.todo⟩

/-- What is equal but for the trouble classes and RI. -/
structure Alike (u t : State) : Prop where
  eq : t = { u with io := { u.io with trouble := t.io.trouble }, ri := t.ri }

theorem alike_refl (u : State) : Alike u u := ⟨rfl⟩
theorem alike_troubleTo {u t : State} {tr : BitVec 6} (h : RiOnly (u.troubleTo tr) t) : Alike u t := by
  refine ⟨?_⟩
  conv => lhs; rw [h.eq]
  rw [show t.io.trouble = tr from by rw [h.io]; rfl]
  rfl

theorem Alike.trans {s t u : State} (h : Alike s t) (k : Alike t u) : Alike s u := by
  refine ⟨?_⟩
  conv => lhs; rw [k.eq, h.eq]

theorem RiOnly.alike {s t : State} (h : RiOnly s t) : Alike s t := by
  refine ⟨?_⟩
  conv => lhs; rw [h.eq]
  rw [h.io]

theorem Reached.alike {u : State} {c : Ctx} (h : Reached u c) : Alike u c.st := by
  obtain ⟨tr, hn⟩ := h.state
  exact alike_troubleTo hn.toRiOnly

section
variable {u t : State} (h : Alike u t)
include h

theorem Alike.elapsed : t.elapsed = u.elapsed := by rw [h.eq]
theorem Alike.supply : t.supply = u.supply := by rw [h.eq]
theorem Alike.tb : t.tb = u.tb := by rw [h.eq]
theorem Alike.dp : t.dp = u.dp := by rw [h.eq]
theorem Alike.se : t.se = u.se := by rw [h.eq]
theorem Alike.za : t.za = u.za := by rw [h.eq]
theorem Alike.pu : t.pu = u.pu := by rw [h.eq]
theorem Alike.au : t.au = u.au := by rw [h.eq]
theorem Alike.dc : t.dc = u.dc := by rw [h.eq]
theorem Alike.cu : t.cu = u.cu := by rw [h.eq]
theorem Alike.lc : t.lc = u.lc := by rw [h.eq]
theorem Alike.eventNo : t.eventNo = u.eventNo := by rw [h.eq]
theorem Alike.pending : t.pending = u.pending := by rw [h.eq]
theorem Alike.zone : t.zone = u.zone := by funext z; rw [State.zone, State.zone, h.za]
theorem Alike.zoneRec : t.zoneRec = u.zoneRec := by funext z; rw [State.zoneRec, State.zoneRec, h.za]
theorem Alike.group : t.group = u.group := by funext z; rw [State.group, State.group, h.za]
theorem Alike.pattern : t.pattern = u.pattern := by funext z; rw [State.pattern, State.pattern, h.pu]
theorem Alike.line : t.line = u.line := by funext z; rw [State.line, State.line, h.lc]
theorem Alike.circuit : t.circuit = u.circuit := by funext z; rw [State.circuit, State.circuit, h.cu]
theorem Alike.channel : t.channel = u.channel := by funext z; rw [State.channel, State.channel, h.au]
theorem Alike.ann : t.ann? = u.ann? := by funext z; rw [State.ann?, State.ann?, h.au]
theorem Alike.bell : t.bell? = u.bell? := by funext z; rw [State.bell?, State.bell?, h.pu]
theorem Alike.zoneState : t.zoneState = u.zoneState := by funext z; rw [State.zoneState, State.zoneState, h.zone, h.zoneRec]
theorem Alike.running : t.running = u.running := by rw [State.running, State.running, h.supply]
theorem Alike.civil : t.civil = u.civil := by rw [State.civil, State.civil, h.tb]
theorem Alike.minute : t.minute? = u.minute? := by rw [State.minute?, State.minute?, h.civil]
theorem Alike.input : t.input = u.input := by funext z; rw [h.eq]; rfl
theorem Alike.output : t.output = u.output := by funext z; rw [h.eq]; rfl
theorem Alike.inFunc : t.io.inFunc = u.io.inFunc := by funext z; rw [h.eq]; rfl
theorem Alike.outFunc : t.io.outFunc = u.io.outFunc := by funext z; rw [h.eq]; rfl

/-- With other trouble classes and another RI the blocks that were kept are kept, but for IO. -/
theorem SameBut.of_alike {bs : List BlockId} {s : State} (hs : SameBut bs s u) (hio : .io ∈ bs) : SameBut bs s t :=
  ⟨fun n => h.tb.trans (hs.tb n), fun n => h.dp.trans (hs.dp n), fun n => h.se.trans (hs.se n), fun n => h.za.trans (hs.za n),
    fun n => h.pu.trans (hs.pu n), fun n => h.au.trans (hs.au n), fun n => h.dc.trans (hs.dc n), fun n => h.cu.trans (hs.cu n),
    fun n => h.lc.trans (hs.lc n), fun n => (n hio).elim⟩

end

/-- A request whose event has come to a state, with its answer. -/
theorem exec_reached {i : Instr} {q : ReqHdr} {s u : State} {c : Ctx} {o : Outcome} {ws : List Word} (hi : reqHdr? i = some q)
    (hr : s.reaches q = true) (hlog : LogSound s.ri) (hd : decideRequest i (s.deciding q) = c.upd (State.answer q o ws))
    (hn : Reached u c) (hws : ws.length ≤ 3) (he : u.elapsed = s.elapsed) (hs : u.supply = s.supply) (hri : u.ri = (s.taking q).ri) :
    exec i s = .next (c.st.answer q o ws) ∧ Decided q o ws s (c.st.answer q o ws) ∧ Alike u (c.st.answer q o ws) := by
  obtain ⟨tr, ht⟩ := hn.state
  obtain ⟨h1, h2, h3⟩ := exec_decided hi hr hlog hd ht hn.ans hn.todo hws he hs hri
  exact ⟨h1, h2, alike_troubleTo h3⟩

theorem Reached.close {u : State} {c : Ctx} (h : Reached u c) : c.close = c.st := close_done h.ans h.todo

/-! ### Plain changes -/

theorem plain_setCircuit (i : Nat) (f : Circuit → Circuit) : Plain (State.setCircuit i f) := ⟨fun _ _ => rfl, fun _ _ => rfl⟩
theorem plain_setLine (i : Nat) (f : Line → Line) : Plain (State.setLine i f) := ⟨fun _ _ => rfl, fun _ _ => rfl⟩
theorem plain_setTb (f : TimeBase → TimeBase) : Plain (State.setTb f) := ⟨fun _ _ => rfl, fun _ _ => rfl⟩
theorem plain_setZone (i : Nat) (f : ZoneDyn → ZoneDyn) : Plain (State.setZone i f) := ⟨fun _ _ => rfl, fun _ _ => rfl⟩
theorem plain_setAnn (i : Nat) (f : Ann → Ann) : Plain (State.setAnn i f) := ⟨fun _ _ => rfl, fun _ _ => rfl⟩
theorem plain_setBell (i : Nat) (f : Bell → Bell) : Plain (State.setBell i f) := ⟨fun _ _ => rfl, fun _ _ => rfl⟩
theorem plain_setChannel (i : Nat) (f : Channel → Channel) : Plain (State.setChannel i f) := ⟨fun _ _ => rfl, fun _ _ => rfl⟩
theorem plain_setInput (i : Nat) (f : Input → Input) : Plain (State.setInput i f) := ⟨fun _ _ => rfl, fun _ _ => rfl⟩
theorem plain_setOutput (i : Nat) (f : Output → Output) : Plain (State.setOutput i f) := ⟨fun _ _ => rfl, fun _ _ => rfl⟩

end Sys2Proof.Machine
end

