-- ==== Sys2Proof/Proofs/Circuits.lean ====
section
/-! SUPPORT. Decisions of circuits (R142, R144), and the requests that act on one (R147, R148). -/

namespace Sys2Proof.Machine
open Sys2Proof

/-- R144: a circuit after a decision that it comes to from a state; without civil time nothing is decided. -/
def Circuit.resolved (minute : Option Nat) (now : Nat) (old : CircuitState) (k : Circuit) : Circuit :=
  match minute with
  | none => { k with st := if old.running then old else .inStep }
  | some m => Circuit.decided m now k

/-- The decision of the model is R144's. -/
theorem decided_eq (k : Circuit) (m now : Nat) : { k with nextAt := (k.decide m now).2, st := (k.decide m now).1 } = Circuit.decided m now k := by
  unfold Circuit.decide Circuit.decided Circuit.target Circuit.ahead Circuit.behind
  dsimp only
  split
  · simp [*]
  · split
    · simp [*]
    · split <;> simp [*]

theorem setCircuit_setCircuit (i : Nat) (f g : Circuit → Circuit) (s : State) :
    (s.setCircuit i f).setCircuit i g = s.setCircuit i fun k => g (f k) := by
  simp only [State.setCircuit, List.modify_modify_eq]
  rfl

theorem circuitBecomes_reached {u : State} {c : Ctx} (h : Reached u c) (i : Nat) (old new : CircuitState) :
    Reached (u.setCircuit i fun k => { k with st := new }) (circuitBecomes i old new c) := by
  have h1 := h.upd (plain_setCircuit i fun k => { k with st := new })
  unfold circuitBecomes
  dsimp only
  split
  · exact h1
  · exact (h1.record _).updateTrouble

/-- R144: a decision changes the circuit alone, as `Circuit.resolved` says. -/
theorem circuitDecide_reached {u : State} {c : Ctx} (h : Reached u c) (i : Nat) (old : CircuitState) :
    ∃ f, Reached (u.setCircuit i f) (circuitDecide i old c) ∧ f (u.circuit i) = Circuit.resolved u.minute? u.elapsed old (u.circuit i) := by
  unfold circuitDecide
  rw [h.alike.minute, h.alike.circuit, h.alike.elapsed]
  cases u.minute? with
  | none => exact ⟨_, circuitBecomes_reached h i old _, rfl⟩
  | some m =>
    have h2 := circuitBecomes_reached (h.upd (plain_setCircuit i fun k => { k with nextAt := ((u.circuit i).decide m u.elapsed).2 })) i old
      ((u.circuit i).decide m u.elapsed).1
    rw [setCircuit_setCircuit] at h2
    exact ⟨_, h2, decided_eq (u.circuit i) m u.elapsed⟩

section
variable (m : Option Nat) (now : Nat) (old : CircuitState) (k : Circuit)

theorem resolved_kept : (k.resolved m now old).pos = k.pos ∧ (k.resolved m now old).polarity = k.polarity
    ∧ (k.resolved m now old).openCount = k.openCount ∧ (k.resolved m now old).cfg = k.cfg ∧ (k.resolved m now old).pulse = k.pulse := by
  cases m <;> exact ⟨rfl, rfl, rfl, rfl, rfl⟩

theorem decided_running (m now : Nat) (k : Circuit) : (Circuit.decided m now k).st.running = true := by
  unfold Circuit.decided
  dsimp only
  split
  · rfl
  · split
    · rfl
    · split <;> rfl

theorem resolved_running : (k.resolved m now old).st.running = true := by
  cases m with
  | none =>
    show (if old.running then old else CircuitState.inStep).running = true
    split
    · assumption
    · rfl
  | some m => exact decided_running m now k

end

theorem minute_of_civil {s : State} {civ : CampusTime} (h : s.civil = some civ) : s.minute? = some (civ.ms / 60000) := by
  rw [State.minute?, h]
  rfl

theorem counts_taking {s : State} (h : Counts s) (q : ReqHdr) : Counts (s.taking q) :=
  ⟨h.zones, h.feeds, h.channels, h.circuits, h.lines, h.inputs, h.outputs⟩

theorem counts_started {s : State} (h : Counts s) : Counts s.started :=
  ⟨h.zones, h.feeds, h.channels, h.circuits, h.lines, h.inputs, h.outputs⟩

/-- A change of one circuit leaves every other block. -/
theorem setCircuit_sameBut (i : Nat) (f : Circuit → Circuit) (s : State) : SameBut [.cu, .io] s (s.setCircuit i f) :=
  ⟨fun _ => rfl, fun _ => rfl, fun _ => rfl, fun _ => rfl, fun _ => rfl, fun _ => rfl, fun _ => rfl, fun hx => (hx (by decide)).elim,
    fun _ => rfl, fun _ => rfl⟩

/-! ### SET DIAL (R148) -/

/-- R148: the circuit with the position and polarity given, its pulse void. -/
def Circuit.dialled (pos pol : Nat) (k : Circuit) : Circuit :=
  { k with pos := pos, polarity := if pol = 0 then .positive else .negative, openCount := 0, pulse := k.pulse.map fun u => { u with void := true } }

/-- R148: what SET DIAL makes of the event so far. -/
def Ctx.dialled (i pos pol : Nat) (c : Ctx) : Ctx :=
  let k := c.st.circuit i
  let p : Polarity := if pol = 0 then .positive else .negative
  let c1 := (c.upd (State.setCircuit i (Circuit.dialled pos pol))).record
    (cuNote .dialSet .routine i c.tag (dv i) [some k.pos, some k.polarity.code] [some pos, some p.code])
  if k.pulse.isSome then c1 else circuitDecide i k.st c1

theorem decideSetDial_ok {q : ReqHdr} {i pos pol : Nat} {c : Ctx} (hi : i ≤ 3) (hp : pos < (c.st.circuit i).cfg.dial) (hl : pol ≤ 1)
    (hs : (c.st.circuit i).st ≠ .off) (hc : c.st.tb.campus ≠ none) : decideSetDial q i pos pol c =
      (c.dialled i pos pol).upd (State.answer q .done [numWord pos, numWord ((c.dialled i pos pol).st.circuit i).st.code]) := by
  unfold decideSetDial
  dsimp only
  rw [if_neg (by simp; omega), if_neg (by omega), if_neg (by simp [hs, hc])]
  rfl

theorem dialled_reached {c : Ctx} (ha : c.ans = []) (ht : c.todo = []) (hc : Counts c.st) {i : Nat} (hi : i < 4) (pos pol : Nat) :
    ∃ f, Reached (c.st.setCircuit i f) (c.dialled i pos pol) ∧ f (c.st.circuit i) =
      if (c.st.circuit i).pulse.isSome then (c.st.circuit i).dialled pos pol
      else ((c.st.circuit i).dialled pos pol).resolved c.st.minute? c.st.elapsed (c.st.circuit i).st := by
  have h1 := ((reached_refl ha ht).upd (plain_setCircuit i (Circuit.dialled pos pol))).record
    (cuNote .dialSet .routine i c.tag (dv i) [some (c.st.circuit i).pos, some (c.st.circuit i).polarity.code]
      [some pos, some (if pol = 0 then Polarity.positive else .negative).code])
  unfold Ctx.dialled
  dsimp only
  by_cases hp : (c.st.circuit i).pulse.isSome = true
  · rw [if_pos hp, if_pos hp]
    exact ⟨_, h1, rfl⟩
  · rw [if_neg hp, if_neg hp]
    obtain ⟨f, hf, he⟩ := circuitDecide_reached h1 i (c.st.circuit i).st
    rw [setCircuit_setCircuit] at hf
    rw [setCircuit_circuit hc hi, if_pos rfl] at he
    exact ⟨_, hf, he⟩

/-- R148: what SET DIAL leaves of its circuit. -/
theorem dialled_facts {k r : Circuit} {pos pol now : Nat} {m : Option Nat}
    (hr : r = if k.pulse.isSome then k.dialled pos pol else (k.dialled pos pol).resolved m now k.st) :
    r.pos = pos ∧ r.polarity = (if pol = 0 then .positive else .negative) ∧ r.openCount = 0 ∧ r.cfg = k.cfg
      ∧ r.pulse = k.pulse.map (fun u => { u with void := true }) ∧ (k.pulse ≠ none → r.st = k.st ∧ r.nextAt = k.nextAt)
      ∧ (k.pulse = none → r = Circuit.resolved m now k.st
        { k with pos := pos, polarity := if pol = 0 then .positive else .negative, openCount := 0 }) := by
  by_cases hp : k.pulse = none
  · rw [if_neg (by simp [hp])] at hr
    subst hr
    have hd : k.dialled pos pol = { k with pos := pos, polarity := if pol = 0 then .positive else .negative, openCount := 0 } := by
      simp only [Circuit.dialled, hp, Option.map_none]
    obtain ⟨h1, h2, h3, h4, h5⟩ := resolved_kept m now k.st (k.dialled pos pol)
    exact ⟨h1, h2, h3, h4, h5, fun h => (h hp).elim, fun _ => by rw [hd]⟩
  · rw [if_pos (Option.isSome_iff_ne_none.mpr hp)] at hr
    subst hr
    exact ⟨rfl, rfl, rfl, rfl, rfl, fun _ => ⟨rfl, rfl⟩, fun h => (hp h).elim⟩

/-! ### CLEAR FAULTS (R147) -/

/-- R147: what CLEAR FAULTS makes of the event so far. -/
def Ctx.faultCleared (i : Nat) (c : Ctx) : Ctx :=
  let c1 := c.upd (State.setCircuit i fun k => { k with openCount := 0 })
  if (c.st.circuit i).st = .fault then circuitDecide i .fault c1 else c1

theorem decideClearCircuit_ok {q : ReqHdr} {i : Nat} {c : Ctx} (hi : i ≤ 3) (hs : (c.st.circuit i).st ≠ .off) : decideClearCircuit q i c =
    (c.faultCleared i).upd (State.answer q .done [numWord ((c.faultCleared i).st.circuit i).st.code]) := by
  unfold decideClearCircuit
  dsimp only
  rw [if_neg (by omega), if_neg hs]
  rfl

theorem faultCleared_reached {c : Ctx} (ha : c.ans = []) (ht : c.todo = []) (hc : Counts c.st) {i : Nat} (hi : i < 4) :
    ∃ f, Reached (c.st.setCircuit i f) (c.faultCleared i) ∧ f (c.st.circuit i) =
      if (c.st.circuit i).st = .fault then Circuit.resolved c.st.minute? c.st.elapsed .fault { c.st.circuit i with openCount := 0 }
      else { c.st.circuit i with openCount := 0 } := by
  have h1 := (reached_refl ha ht).upd (plain_setCircuit i fun k => { k with openCount := 0 })
  unfold Ctx.faultCleared
  dsimp only
  by_cases hp : (c.st.circuit i).st = .fault
  · rw [if_pos hp, if_pos hp]
    obtain ⟨f, hf, he⟩ := circuitDecide_reached h1 i .fault
    rw [setCircuit_setCircuit] at hf
    rw [setCircuit_circuit hc hi, if_pos rfl] at he
    exact ⟨_, hf, he⟩
  · rw [if_neg hp, if_neg hp]
    exact ⟨_, h1, rfl⟩

/-- A request that changes one circuit: what it leaves of that circuit, of the others and of the other blocks. -/
theorem exec_circuit {i : Instr} {q : ReqHdr} {s : State} {c : Ctx} {ws : List Word} {n : Nat} {f : Circuit → Circuit} (hi : reqHdr? i = some q)
    (hr : s.reaches q = true) (hlog : LogSound s.ri) (hc : Counts s) (hn : n < 4)
    (hd : decideRequest i (s.deciding q) = c.upd (State.answer q .done (ws ++ [numWord (c.st.circuit n).st.code])))
    (h : Reached ((s.taking q).setCircuit n f) c) (hws : ws.length ≤ 2) :
    ∃ t, exec i s = .next t ∧ Decided q .done (ws ++ [numWord (t.circuit n).st.code]) s t ∧ t.circuit n = f (s.circuit n)
      ∧ (∀ j, j ≠ n → t.circuit j = s.circuit j) ∧ SameBut [.cu, .io] s t := by
  obtain ⟨he, hdec, hal⟩ := exec_reached hi hr hlog hd h (by simp; omega) rfl rfl rfl
  have hcir : (c.st.answer q .done (ws ++ [numWord (c.st.circuit n).st.code])).circuit = c.st.circuit := by
    rw [hal.circuit, h.alike.circuit]
  refine ⟨_, he, by rw [hcir]; exact hdec, ?_, fun j hj => ?_, ?_⟩
  · rw [hal.circuit, setCircuit_circuit (counts_taking hc q) hn, if_pos rfl]
    rfl
  · rw [hal.circuit]
    exact setCircuit_circuit_ne _ hj f
  · exact ((setCircuit_sameBut n f (s.taking q)).of_alike hal (by decide)).of_taking

/-- Settles O30. -/
theorem circuitRequestsTakeEffect : Obligations.CircuitRequestsTakeEffect := by
  intro q i pos pol s hr hlog hc
  refine ⟨fun h => ⟨exec_refused rfl hr (if_pos (by simp; omega)), exec_refused rfl hr (if_pos h)⟩, fun h hp => ?_, fun h hp hl => ?_,
    fun h hp hl hs => ?_, fun h hp hl hs ht => ?_, fun h hs => ?_, fun h hs => ?_⟩
  · exact exec_refused rfl hr (if_pos (by simpa using .inr hp))
  · exact exec_refused rfl hr ((if_neg (by simp; exact ⟨h, hp⟩)).trans (if_pos hl))
  · exact exec_refused rfl hr ((if_neg (by simp; exact ⟨h, hp⟩)).trans ((if_neg (by omega)).trans (if_pos (by rw [Bool.or_eq_true, decide_eq_true_iff, Option.isNone_iff_eq_none]; exact hs))))
  · obtain ⟨f, hf, hv⟩ := dialled_reached (c := s.deciding q) rfl rfl (counts_taking hc q) (show i < 4 by omega) pos pol
    obtain ⟨t, he, hd, hk, ho, hsame⟩ := exec_circuit (i := .setDial q i pos pol) (ws := [numWord pos]) rfl hr hlog hc (show i < 4 by omega)
      (decideSetDial_ok (c := s.deciding q) h hp hl hs ht) hf (by simp)
    obtain ⟨h1, h2, h3, h4, h5, h6, h7⟩ := dialled_facts (k := s.circuit i) (m := s.minute?) (now := s.elapsed) (hk.trans hv)
    refine ⟨t, he, hd, h1, h2, h3, h4, h5, h6, fun civ hciv hn => ?_, ho, hsame⟩
    rw [h7 hn, minute_of_civil hciv]
    rfl
  · exact exec_refused rfl hr ((if_neg (by omega)).trans (if_pos hs))
  · obtain ⟨f, hf, hv⟩ := faultCleared_reached (c := s.deciding q) rfl rfl (counts_taking hc q) (show i < 4 by omega)
    obtain ⟨t, he, hd, hk, ho, hsame⟩ := exec_circuit (i := .clearFaultsCircuit q i) (ws := []) rfl hr hlog hc (show i < 4 by omega)
      (decideClearCircuit_ok (c := s.deciding q) h hs) hf (by simp)
    replace hv : f (s.circuit i) = if (s.circuit i).st = .fault then Circuit.resolved s.minute? s.elapsed .fault { s.circuit i with openCount := 0 }
      else { s.circuit i with openCount := 0 } := hv
    rw [hv] at hk
    by_cases hf : (s.circuit i).st = .fault
    · rw [if_pos hf] at hk
      obtain ⟨h1, h2, h3, h4, h5⟩ := resolved_kept s.minute? s.elapsed .fault { s.circuit i with openCount := 0 }
      have hrun := resolved_running s.minute? s.elapsed .fault { s.circuit i with openCount := 0 }
      rw [← hk] at h1 h3 hrun
      refine ⟨t, he, hd, fun hx => ?_, h3, fun hx => (hx hf).elim, h1, fun civ hciv _ => ?_, ho, hsame⟩
      · rw [hx] at hrun
        exact nomatch hrun
      · rw [hk, minute_of_civil hciv]
        rfl
    · rw [if_neg hf] at hk
      refine ⟨t, he, hd, ?_, ?_, fun _ => hk, ?_, fun _ _ hx => (hf hx).elim, ho, hsame⟩
      · rw [hk]
        exact hf
      · rw [hk]
      · rw [hk]

end Sys2Proof.Machine
end

