-- ==== Sys2Proof/Proofs/IdleLines.lean ====
section
/-! SUPPORT. Lines with nothing queued and nothing deferred, and a transaction that is offered to one (R159 to R162). -/

namespace Sys2Proof.Machine
open Sys2Proof

/-- Changes that agree on what stands at a place are one change of the place. -/
theorem modify_congr {α : Type} {l : List α} {i : Nat} {f g : α → α} {d : α} (h : f (l.getD i d) = g (l.getD i d)) :
    l.modify i f = l.modify i g := by
  apply List.ext_getElem?
  intro j
  rw [List.getElem?_modify, List.getElem?_modify]
  by_cases hj : i = j
  · subst hj
    rw [List.getD_eq_getElem?_getD] at h
    cases hx : l[i]? with
    | none => rfl
    | some x =>
      rw [hx] at h
      simpa using h
  · simp [hj]

theorem setLine_congr {s : State} {ln : Nat} {f g : Line → Line} (h : f (s.line ln) = g (s.line ln)) : s.setLine ln f = s.setLine ln g := by
  unfold State.setLine
  rw [modify_congr (d := Line.cold) h]

/-- A change of a line that leaves it as it is changes nothing. -/
theorem setLine_of_fixed {s : State} {ln : Nat} {f : Line → Line} (h : f (s.line ln) = s.line ln) : s.setLine ln f = s := by
  have hid : s.setLine ln (fun l => l) = s := by
    unfold State.setLine
    rw [show (fun l : Line => l) = id from rfl, List.modify_id]
  exact (setLine_congr h).trans hid

theorem setLine_setLine (ln : Nat) (f g : Line → Line) (s : State) : (s.setLine ln f).setLine ln g = s.setLine ln fun l => g (f l) := by
  simp only [State.setLine, List.modify_modify_eq]
  rfl

theorem pick_of_empty {l : Line} (h : l.queue = []) : l.pick = none := by
  unfold Line.pick
  rw [h]
  rfl

/-- R162: with an empty queue nothing goes into flight. -/
theorem selectTx_of_empty {s : State} {ln : Nat} (h : (s.line ln).queue = []) : selectTx ln s = s := by
  unfold selectTx
  simp only [pick_of_empty h]
  cases (s.line ln).inFlight <;> rfl

/-- R162: the transaction picked goes into flight. -/
theorem selectTx_of_pick {s : State} {ln : Nat} {t : Tx} {rest : List Tx} (hf : (s.line ln).inFlight = none)
    (hp : (s.line ln).pick = some (t, rest)) :
    selectTx ln s = s.setLine ln fun l => { l with queue := rest, inFlight := some (startFlight s (s.line ln) t) } := by
  unfold selectTx
  simp only [hf, hp]
  exact setLine_congr rfl

/-- R160, R162: with nothing deferred a selection is all that settling a line does. -/
theorem settleLine_of_select {c : Ctx} {ln : Nat} (hn : c.closing ≠ some ln) (hd : ((selectTx ln c.st).line ln).deferred = []) (n : Nat) :
    settleLine ln (n + 1) c = c.upd (selectTx ln) := by
  unfold settleLine
  dsimp only
  simp only [if_neg hn, Ctx.upd_st, hd, firstDeferred]
  split <;> rfl

/-- R160, R162: with an empty queue and nothing deferred no selection is to be made. -/
theorem settleLine_of_empty {c : Ctx} {ln : Nat} (hq : (c.st.line ln).queue = []) (hd : (c.st.line ln).deferred = []) (n : Nat) :
    settleLine ln n c = c := by
  have hc : (if c.closing = some ln then c else c.upd (selectTx ln)) = c := by
    split
    · rfl
    · unfold Ctx.upd
      rw [selectTx_of_empty hq]
  cases n with
  | zero => rfl
  | succ n =>
    unfold settleLine
    dsimp only
    rw [hc, hq, hd, firstDeferred]
    split <;> rfl

/-- R161: nothing is taken out of an empty queue. -/
theorem takeOut_of_empty {c : Ctx} {ln : Nat} (hq : (c.st.line ln).queue = []) (hd : (c.st.line ln).deferred = []) (p : Tx → Bool)
    (a : Tx → Ans) : takeOut ln p a c = c := by
  have hs : c.upd (State.setLine ln fun l => { l with queue := l.queue.filter fun t => !p t }) = c := by
    unfold Ctx.upd
    rw [setLine_of_fixed (by rw [hq, List.filter_nil, ← hq])]
  unfold takeOut
  dsimp only
  rw [hs, hq, List.filter_nil, Ctx.each_nil, settleLine_of_empty hq hd]

/-- R165, R172: setting a node aside touches nothing more on an idle line. -/
theorem detachNode_of_idle {c : Ctx} {ln : Nat} (h : IdleLine (c.st.line ln)) (a : Nat) (k : Option NodeKind) : detachNode ln a k c = c := by
  have hs : c.upd (State.setLine ln fun l => { l with
      deferred := l.deferred.filter fun d => d.addr? != some a
      inFlight := l.inFlight.map fun f => if f.tx.addr? = some a then { f with tx := f.tx.detached k } else f }) = c := by
    unfold Ctx.upd
    rw [setLine_of_fixed]
    rw [h.deferred, h.inFlight, List.filter_nil, Option.map_none, ← h.deferred, ← h.inFlight]
  unfold detachNode
  dsimp only
  rw [hs, takeOut_of_empty h.queue h.deferred, h.deferred]
  exact if_neg (by simp)

/-- R162: the one transaction of a queue, eligible, is picked. -/
theorem pick_of_single {l : Line} {t : Tx} (hq : l.queue = [t]) (he : l.eligible t = true) : l.pick = some (t, []) := by
  unfold Line.pick
  rw [hq]
  simp [he, bestClass]

/-- R159, R162: on an active idle line a transaction whose node can take it goes into flight at once. -/
theorem offerTx_of_idle {c : Ctx} {ln : Nat} {t : Tx} (hc : Counts c.st) (hl : ln < 8) (hi : IdleLine (c.st.line ln))
    (ha : (c.st.line ln).active = true) (hu : (c.st.line ln).unreachable t = false) (he : (c.st.line ln).eligible t = true)
    (hn : c.closing ≠ some ln) :
    offerTx ln t c = c.upd (State.setLine ln fun l => { l with inFlight := some (startFlight c.st (c.st.line ln) t) }) := by
  have hj : joinTx ln t c = c.upd (State.setLine ln fun l => { l with queue := l.queue ++ [t] }) := by
    unfold joinTx
    dsimp only
    rw [if_neg (by simp [ha]), if_neg (by simp [hu]), if_pos (by rw [hi.queue]; decide)]
  have hline := setLine_line hc hl ln fun l => { l with queue := l.queue ++ [t] }
  rw [if_pos rfl, hi.queue, List.nil_append] at hline
  have hst : selectTx ln (c.st.setLine ln fun l => { l with queue := l.queue ++ [t] }) =
      c.st.setLine ln fun l => { l with inFlight := some (startFlight c.st (c.st.line ln) t) } := by
    rw [selectTx_of_pick (t := t) (rest := []) (by rw [hline]; exact hi.inFlight) (by rw [hline]; exact pick_of_single rfl he),
      setLine_setLine, hline]
    apply setLine_congr
    rw [← hi.queue]
    rfl
  unfold offerTx
  rw [hj, settleSteps, settleLine_of_select (n := 199)]
  · unfold Ctx.upd
    dsimp only
    rw [hst]
  · exact hn
  · rw [Ctx.upd_st, hst, setLine_line hc hl, if_pos rfl]
    exact hi.deferred

end Sys2Proof.Machine
end

