-- ==== Sys2Proof/Proofs/Nodes.lean ====
section
/-! SUPPORT. SET NODE and CLEAR FAULTS of a line (R172), and the beginnings of ENUMERATE LINE and RENUMBER LINE (R174, R175). -/

namespace Sys2Proof.Machine
open Sys2Proof

/-- A change of one line leaves every other block. -/
theorem setLine_sameBut (i : Nat) (f : Line → Line) (s : State) : SameBut [.lc] s (s.setLine i f) :=
  ⟨fun _ => rfl, fun _ => rfl, fun _ => rfl, fun _ => rfl, fun _ => rfl, fun _ => rfl, fun _ => rfl, fun _ => rfl,
    fun hx => (hx (by decide)).elim, fun _ => rfl⟩

theorem SameBut.weaken {bs cs : List BlockId} {s t : State} (h : SameBut bs s t) (hs : ∀ b, b ∈ bs → b ∈ cs) : SameBut cs s t :=
  ⟨fun n => h.tb fun x => n (hs _ x), fun n => h.dp fun x => n (hs _ x), fun n => h.se fun x => n (hs _ x), fun n => h.za fun x => n (hs _ x),
    fun n => h.pu fun x => n (hs _ x), fun n => h.au fun x => n (hs _ x), fun n => h.dc fun x => n (hs _ x), fun n => h.cu fun x => n (hs _ x),
    fun n => h.lc fun x => n (hs _ x), fun n => h.io fun x => n (hs _ x)⟩

/-! ### SET NODE (R172) -/

/-- R172: a node set aside. -/
def Node.setAside (n : Node) : Node := { n with st := .absent, fails := 0, queryNeeded := false, busyUntil := none, refresh := none }

theorem idleLine_setNode {s : State} {ln : Nat} (hc : Counts s) (hl : ln < 8) (h : IdleLine (s.line ln)) (a : Nat) (f : Node → Node) :
    IdleLine ((s.setNode ln a f).line ln) := by
  rw [State.setNode, setLine_line hc hl, if_pos rfl]
  exact ⟨h.queue, h.inFlight, h.deferred⟩

theorem Alike.counts {u t : State} (h : Alike u t) (hc : Counts u) : Counts t := by
  rw [h.eq]
  exact ⟨hc.zones, hc.feeds, hc.channels, hc.circuits, hc.lines, hc.inputs, hc.outputs⟩

theorem counts_setLine {s : State} (h : Counts s) (ln : Nat) (f : Line → Line) : Counts (s.setLine ln f) :=
  ⟨h.zones, h.feeds, h.channels, h.circuits, by simpa [State.setLine] using h.lines, h.inputs, h.outputs⟩

theorem setAbsent_reached {c : Ctx} (ha : c.ans = []) (ht : c.todo = []) (hc : Counts c.st) {ln : Nat} (hl : ln < 8)
    (hi : IdleLine (c.st.line ln)) (a : Nat) : Reached (c.st.setNode ln a Node.setAside) (setAbsent ln a c) := by
  have hset : c.upd (State.setNode ln a Node.setAside) = c.upd (State.setLine ln (Line.setNode a Node.setAside)) := rfl
  have h1 := ((reached_refl ha ht).upd (plain_setLine ln (Line.setNode a Node.setAside))).updateTrouble
  have hidle := idleLine_setNode hc hl hi a Node.setAside
  rw [← hset] at h1
  have h2 : IdleLine (((c.upd (State.setNode ln a Node.setAside)).upd State.updateTrouble).st.line ln) := by
    rw [h1.alike.line]
    exact hidle
  have hd : ∀ k, detachNode ln a k (c.upd (State.setNode ln a Node.setAside)) = c.upd (State.setNode ln a Node.setAside) :=
    detachNode_of_idle hidle a
  have hs : ∀ n, settleLine ln n ((c.upd (State.setNode ln a Node.setAside)).upd State.updateTrouble) =
      (c.upd (State.setNode ln a Node.setAside)).upd State.updateTrouble := settleLine_of_empty h2.queue h2.deferred
  unfold Node.setAside at hd hs h1
  unfold setAbsent
  dsimp only
  rw [hd, hs]
  exact h1

theorem decideSetNode_range {q : ReqHdr} {ln a action : Nat} (h : 7 < ln ∨ a < 1 ∨ 40 < a) (c : Ctx) :
    decideSetNode q ln a action c = c.upd (State.refuse q .outOfRange) := if_pos (by simp; omega)

theorem decideSetNode_found {q : ReqHdr} {ln a : Nat} (h : ln ≤ 7) (h1 : 1 ≤ a) (h2 : a ≤ 40) (action : Nat) {c : Ctx} {n : Node}
    (hn : (c.st.line ln).node? a = some n) : decideSetNode q ln a action c = match action with
      | 0 => (if n.st = .absent then c else setAbsent ln a c).upd (State.answer q .done [])
      | 1 => if n.st = .absent then (c.upd (State.setNode ln a Node.toUnknown)).upd (State.answer q .done [])
        else c.upd (State.refuse q .state)
      | _ => c.upd (State.refuse q .badParameter) := by
  unfold decideSetNode
  rw [if_neg (by simp; omega)]
  simp only [hn] <;> rfl

/-! ### CLEAR FAULTS (R172) -/

/-- R172: the line with its fault summary empty and its FAULTED nodes UNKNOWN. -/
def Line.faultsCleared (l : Line) : Line :=
  { l with summary := 0, nodes := l.nodes.map fun n => if n.st = .faulted then n.toUnknown else n }

/-- R172: what CLEAR FAULTS makes of the event so far. -/
def Ctx.lineCleared (ln : Nat) (c : Ctx) : Ctx :=
  ((c.upd (State.setLine ln Line.faultsCleared)).record (lcNote .faultsCleared .routine ln c.tag
    (dv ((c.st.line ln).nodes.filter fun n => n.st = .faulted).length) (dv 0) (dv 0))).upd State.updateTrouble

theorem decideClearLine_ok {q : ReqHdr} {ln : Nat} {c : Ctx} (h : ln ≤ 7) (hs : (c.st.line ln).state ≠ .off) :
    decideClearLine q ln c = (c.lineCleared ln).upd
      (State.answer q .done [numWord ((c.st.line ln).nodes.filter fun n => n.st = .faulted).length]) := by
  unfold decideClearLine
  rw [if_neg (by omega), if_neg hs]
  rfl

/-- A request that changes one line, and the trouble classes: what it leaves of that line, of the others and of the other blocks. -/
theorem exec_line {i : Instr} {q : ReqHdr} {s : State} {c : Ctx} {ws : List Word} {n : Nat} {f : Line → Line} (hi : reqHdr? i = some q)
    (hr : s.reaches q = true) (hlog : LogSound s.ri) (hc : Counts s) (hn : n < 8)
    (hd : decideRequest i (s.deciding q) = c.upd (State.answer q .done ws)) (h : Reached ((s.taking q).setLine n f) c) (hws : ws.length ≤ 3) :
    ∃ t, exec i s = .next t ∧ Decided q .done ws s t ∧ t.line n = f (s.line n) ∧ (∀ j, j ≠ n → t.line j = s.line j) ∧ SameBut [.lc, .io] s t := by
  obtain ⟨he, hdec, hal⟩ := exec_reached hi hr hlog hd h hws rfl rfl rfl
  refine ⟨_, he, hdec, ?_, fun j hj => ?_, ?_⟩
  · rw [hal.line, setLine_line (counts_taking hc q) hn, if_pos rfl]
    rfl
  · rw [hal.line]
    exact setLine_line_ne _ hj f
  · exact (((setLine_sameBut n f (s.taking q)).weaken (by simp)).of_alike hal (by decide)).of_taking

/-- A request that changes one line alone. -/
theorem exec_line_alone {i : Instr} {q : ReqHdr} {s : State} {n : Nat} {f : Line → Line} (hi : reqHdr? i = some q)
    (hr : s.reaches q = true) (hlog : LogSound s.ri) (hc : Counts s) (hn : n < 8)
    (hd : decideRequest i (s.deciding q) = ((s.deciding q).upd (State.setLine n f)).upd (State.answer q .done [])) :
    ∃ t, exec i s = .next t ∧ Decided q .done [] s t ∧ t.line n = f (s.line n) ∧ (∀ j, j ≠ n → t.line j = s.line j) ∧ SameBut [.lc] s t := by
  obtain ⟨he, hdec, hal⟩ := exec_decided hi hr hlog hd (Noted.refl ((s.taking q).setLine n f)) rfl rfl (by simp) rfl rfl rfl
  refine ⟨_, he, hdec, ?_, fun j hj => ?_, ?_⟩
  · rw [hal.line, setLine_line (counts_taking hc q) hn, if_pos rfl]
    rfl
  · rw [hal.line]
    exact setLine_line_ne _ hj f
  · exact ((setLine_sameBut n f (s.taking q)).of_only hal).of_taking

/-- Settles O32. -/
theorem nodeRequestsTakeEffect : Obligations.NodeRequestsTakeEffect := by
  intro q ln a action s hr hlog hc
  refine ⟨fun h => ⟨exec_refused rfl hr (decideSetNode_range (.inl h) _), exec_refused rfl hr (if_pos h)⟩,
    fun _ h => exec_refused rfl hr (decideSetNode_range (.inr h) _), fun hl h1 h2 hn => ?_, fun n hl h1 h2 hn => ?_,
    fun hl hs => exec_refused rfl hr ((if_neg (by omega)).trans (if_pos hs)), fun hl hs => ?_⟩
  · refine exec_refused rfl hr ?_
    show decideSetNode q ln a action (s.deciding q) = _
    unfold decideSetNode
    rw [if_neg (by simp; omega)]
    have hn' : ((s.deciding q).st.line ln).node? a = none := hn
    simp only [hn']
  · have hf (k : Nat) := decideSetNode_found (q := q) hl h1 h2 k (c := s.deciding q) hn
    refine ⟨fun ha => ?_, fun hk => exec_refused rfl hr ?_, fun ha => exec_request_upd rfl hr ?_, fun ha => exec_refused rfl hr ?_,
      fun ha hi => ?_⟩
    · exact exec_line_alone (i := .setNode q ln a 1) (f := Line.setNode a Node.toUnknown) rfl hr hlog hc (by omega)
        ((hf 1).trans (if_pos ha))
    · obtain ⟨k, rfl⟩ : ∃ k, action = k + 2 := ⟨action - 2, by omega⟩
      exact hf (k + 2)
    · refine (hf 0).trans ?_
      simp only [if_pos ha]
    · exact (hf 1).trans (if_neg ha)
    · refine exec_line (i := .setNode q ln a 0) rfl hr hlog hc (by omega) ?_
        (setAbsent_reached (c := s.deciding q) rfl rfl (counts_taking hc q) (by omega) hi a) (by simp)
      refine (hf 0).trans ?_
      simp only [if_neg ha]
  · have h1 := (((reached_refl (c := s.deciding q) rfl rfl).upd (plain_setLine ln Line.faultsCleared)).record (lcNote .faultsCleared .routine ln
      (s.deciding q).tag (dv ((s.line ln).nodes.filter fun n => n.st = .faulted).length) (dv 0) (dv 0))).updateTrouble
    exact exec_line (i := .clearFaultsLine q ln) rfl hr hlog hc (by omega) (decideClearLine_ok (c := s.deciding q) hl hs) h1 (by simp)

end Sys2Proof.Machine
end

