-- ==== Sys2Proof/Proofs/Enumerate.lean ====
section
/-! SUPPORT. The beginnings of ENUMERATE LINE and RENUMBER LINE (R174, R175). -/

namespace Sys2Proof.Machine
open Sys2Proof

/-- R174: the lowest address with no record. -/
theorem freeAddr_of_lowest {l : Line} {a : Nat} (h1 : 1 ≤ a) (h2 : a ≤ 40) (ha : l.node? a = none)
    (hb : ∀ b, 1 ≤ b → b < a → l.node? b ≠ none) : l.freeAddr = some a := by
  unfold Line.freeAddr
  rw [List.find?_eq_some_iff_getElem]
  refine ⟨by simp [ha], a - 1, by simp; omega, by simp; omega, fun j hj => ?_⟩
  simpa [Option.isSome_iff_ne_none] using hb (1 + j) (by omega) (by omega)

theorem freeAddr_of_full {l : Line} (h : ∀ b, 1 ≤ b → b ≤ 40 → l.node? b ≠ none) : l.freeAddr = none := by
  unfold Line.freeAddr
  rw [List.find?_eq_none]
  intro a ha
  rw [List.mem_range'_1] at ha
  simpa [Option.isNone_iff_eq_none] using h a (by omega) (by omega)

/-- What the line has after an enumeration has offered its first frame: the enumeration, and the frame's transaction in flight. -/
structure Offered (ln : Nat) (e : Enumeration) (k : TxKind) (d : Dest) (c c' : Ctx) : Prop where
  flight : ∃ f, c' = c.upd (State.setLine ln fun l => { l with enumeration := some e, inFlight := some f }) ∧ f.tx.kind = k ∧ f.tx.dest = d
    ∧ f.attempt = 1 ∧ f.timeoutAt = none

/-- R160, R162: the enumeration's frame goes into flight on an idle line. -/
theorem offerEnumeration {c : Ctx} {ln : Nat} {e : Enumeration} {t : Tx} (hc : Counts c.st) (hl : ln < 8) (hi : IdleLine (c.st.line ln))
    (ha : (c.st.line ln).active = true) (hn : c.closing ≠ some ln)
    (ht : ∀ s l, s.eventNo = c.st.eventNo → l.enumeration = some e → txOfDeferred s l .enumeration = some t)
    (hu : (c.st.line ln).unreachable t = false) (he : (c.st.line ln).eligible t = true) :
    Offered ln e t.kind t.dest c (offerService ln .enumeration (c.upd (State.setLine ln fun l => { l with enumeration := some e }))) := by
  have hline := setLine_line hc hl ln fun l => { l with enumeration := some e }
  rw [if_pos rfl] at hline
  have ho := offerTx_of_idle (c := c.upd (State.setLine ln fun l => { l with enumeration := some e })) (t := t) (counts_setLine hc ln _) hl
    (by rw [Ctx.upd_st, hline]; exact ⟨hi.queue, hi.inFlight, hi.deferred⟩) (by rw [Ctx.upd_st, hline]; exact ha)
    (by rw [Ctx.upd_st, hline]; exact hu) (by rw [Ctx.upd_st, hline]; exact he) hn
  have hs : offerService ln .enumeration (c.upd (State.setLine ln fun l => { l with enumeration := some e })) =
      offerTx ln t (c.upd (State.setLine ln fun l => { l with enumeration := some e })) := by
    unfold offerService
    dsimp only
    rw [Ctx.upd_st, hline, if_neg (by simp [hi.queue, Config.serviceRoom]),
      ht (c.st.setLine ln fun l => { l with enumeration := some e }) { c.st.line ln with enumeration := some e } rfl rfl]
  generalize hf : startFlight _ _ t = f at ho
  refine ⟨f, (hs.trans ho).trans ?_, ?_⟩
  · exact congrArg (fun s => { c with st := s }) (setLine_setLine ln _ _ c.st)
  · subst hf
    exact ⟨rfl, rfl, rfl, rfl⟩

/-- R174: ASSIGNING begins with the lowest address with no record. -/
theorem assignStep_offers {c : Ctx} {ln a : Nat} {e : Enumeration} (hc : Counts c.st) (hl : ln < 8) (hi : IdleLine (c.st.line ln))
    (ha : (c.st.line ln).active = true) (hn : c.closing ≠ some ln) (he : (c.st.line ln).enumeration = some e)
    (hf : (c.st.line ln).freeAddr = some a) :
    Offered ln { e with phase := .assigning, offered := some a } (.assign a) .unaddressed c (assignStep ln c) := by
  have h := offerEnumeration (e := { e with phase := .assigning, offered := some a }) (t := mkTx c.st (.assign a) 4 .unaddressed)
    hc hl hi ha hn (fun s l hs hl => by simp only [txOfDeferred, hl, mkTx, hs]; rfl) rfl rfl
  unfold assignStep
  simp only [he, hf]
  exact h

/-- R175: CLEARING begins with the recorded node of the highest chain position. -/
theorem clearStep_offers {c : Ctx} {ln : Nat} {e : Enumeration} {n : Node} (hc : Counts c.st) (hl : ln < 8) (hi : IdleLine (c.st.line ln))
    (ha : (c.st.line ln).active = true) (hn : c.closing ≠ some ln) (he : (c.st.line ln).enumeration = some e) (hp : e.phase = .clearing)
    (hf : (c.st.line ln).lastInChain = some n) (hfound : (c.st.line ln).node? n.addr = some n) (hb : n.busyUntil = none) :
    Offered ln { e with offered := some n.addr } .clearAddress (.node n.addr) c (clearStep ln c) := by
  have h := offerEnumeration (e := { e with offered := some n.addr }) (t := mkTx c.st .clearAddress 4 (.node n.addr))
    hc hl hi ha hn (fun s l hs hl => by simp only [txOfDeferred, hl, mkTx, hs, Option.bind_some, Option.map_some, hp])
    (by simp [Line.unreachable, mkTx, Tx.addr?, hfound, TxKind.isClear]) (by simp [Line.eligible, mkTx, Tx.addr?, hfound, hb])
  unfold clearStep
  simp only [he, hf]
  exact h

/-! ### The requests -/

/-- An enumeration as it begins. -/
def Enumeration.fresh (p : EnumPhase) (q : ReqHdr) (s : State) : Enumeration := ⟨p, none, 0, 0, q.tag, s.eventNo + 1⟩

/-- The event in which an enumeration has begun and its request has been answered. -/
def State.enumerating (p : EnumPhase) (q : ReqHdr) (ln : Nat) (s : State) : Ctx :=
  ((s.deciding q).upd (State.setLine ln fun l => { l with enumeration := some (.fresh p q s) })).upd (State.answer q .done [])

theorem enumRefusal_range {s : State} {ln : Nat} (h : 7 < ln) : enumRefusal s ln = some .outOfRange := if_pos h

theorem enumRefusal_state {s : State} {ln : Nat} (h : ln ≤ 7) (ha : (s.line ln).active = false) : enumRefusal s ln = some .state :=
  (if_neg (by omega)).trans (if_pos (by simp [ha]))

theorem enumRefusal_busy {s : State} {ln : Nat} (h : ln ≤ 7) (ha : (s.line ln).active = true) (he : (s.line ln).enumeration ≠ none) :
    enumRefusal s ln = some .busy :=
  (if_neg (by omega)).trans ((if_neg (by simp [ha])).trans (if_pos (Option.isSome_iff_ne_none.mpr he)))

theorem enumRefusal_none {s : State} {ln : Nat} (h : ln ≤ 7) (ha : (s.line ln).active = true) (he : (s.line ln).enumeration = none) :
    enumRefusal s ln = none :=
  (if_neg (by omega)).trans ((if_neg (by simp [ha])).trans (if_neg (by simp [he])))

theorem decideEnumerate_refused {q : ReqHdr} {ln : Nat} {c : Ctx} {o : Outcome} (h : enumRefusal c.st ln = some o) :
    decideEnumerate q ln c = c.upd (State.refuse q o) := by
  unfold decideEnumerate
  simp only [h]

theorem decideRenumber_refused {q : ReqHdr} {ln : Nat} {c : Ctx} {o : Outcome} (h : enumRefusal c.st ln = some o) :
    decideRenumber q ln c = c.upd (State.refuse q o) := by
  unfold decideRenumber
  simp only [h]

theorem decideEnumerate_begun {q : ReqHdr} {ln : Nat} {s : State} (h : enumRefusal (s.taking q) ln = none) :
    decideEnumerate q ln (s.deciding q) = assignStep ln (s.enumerating .assigning q ln) := by
  unfold decideEnumerate
  simp only [State.deciding_st, h]
  rfl

theorem building_held {s : State} {ln : Nat} : ((s.zonesOfBuilding ln).any fun z => (s.zone z).holder.isSome) = true ↔
    ∃ z, z < 64 ∧ (s.zoneRec z).building = ln ∧ (s.zone z).holder ≠ none := by
  simp [State.zonesOfBuilding, Option.isSome_iff_ne_none]

theorem decideRenumber_held {q : ReqHdr} {ln : Nat} {c : Ctx} (h : enumRefusal c.st ln = none)
    (hz : ∃ z, z < 64 ∧ (c.st.zoneRec z).building = ln ∧ (c.st.zone z).holder ≠ none) :
    decideRenumber q ln c = c.upd (State.refuse q .busy) := by
  unfold decideRenumber
  simp only [h]
  exact if_pos (building_held.mpr hz)

theorem decideRenumber_begun {q : ReqHdr} {ln : Nat} {s : State} (h : enumRefusal (s.taking q) ln = none)
    (hz : ∀ z, z < 64 → (s.zoneRec z).building = ln → (s.zone z).holder = none) :
    decideRenumber q ln (s.deciding q) = clearStep ln (s.enumerating .clearing q ln) := by
  unfold decideRenumber
  simp only [State.deciding_st, h]
  refine (if_neg fun hx => ?_).trans rfl
  obtain ⟨z, h1, h2, h3⟩ := building_held.mp hx
  exact h3 (hz z h1 h2)

/-- The line of an enumeration that has begun. -/
theorem enumerating_line {s : State} (hc : Counts s) {ln : Nat} (hl : ln < 8) (p : EnumPhase) (q : ReqHdr) (k : Nat) :
    (s.enumerating p q ln).st.line k = if k = ln then { s.line ln with enumeration := some (.fresh p q s) } else s.line k := by
  have h : (s.enumerating p q ln).st.line = ((s.taking q).setLine ln fun l => { l with enumeration := some (.fresh p q s) }).line :=
    (riOnly_answer _ q .done []).line
  rw [h, setLine_line (counts_taking hc q) hl]
  rfl

theorem enumerating_counts {s : State} (hc : Counts s) (p : EnumPhase) (q : ReqHdr) (ln : Nat) : Counts (s.enumerating p q ln).st :=
  (riOnly_answer _ q .done []).alike.counts (counts_setLine (counts_taking hc q) ln _)

/-- What leaves RI, the clock and the supply alone after the answer leaves the request decided. -/
theorem enumerating_decided {q : ReqHdr} {ln : Nat} {s : State} {p : EnumPhase} (hr : s.reaches q = true) (hlog : LogSound s.ri)
    {g : State → State} (hg : Framed (s.enumerating p q ln).st (g (s.enumerating p q ln).st)) :
    Decided q .done [] s (g (s.enumerating p q ln).st) := by
  have hf : Framed (s.taking q) ((s.taking q).setLine ln fun l => { l with enumeration := some (.fresh p q s) }) := Framed.of_ri rfl rfl rfl
  exact decided_of hr hlog (by simp) hf hg

/-- A request whose enumeration has offered its first frame. -/
theorem exec_enumeration {i : Instr} {q : ReqHdr} {s : State} {p : EnumPhase} {ln : Nat} {e : Enumeration} {k : TxKind} {d : Dest} {c : Ctx}
    (hi : reqHdr? i = some q) (hr : s.reaches q = true) (hlog : LogSound s.ri) (hc : Counts s) (hl : ln < 8)
    (hd : decideRequest i (s.deciding q) = c) (ho : Offered ln e k d (s.enumerating p q ln) c) :
    ∃ t, exec i s = .next t ∧ Decided q .done [] s t ∧ ∃ f, t.line ln = { s.line ln with enumeration := some e, inFlight := some f }
      ∧ f.tx.kind = k ∧ f.tx.dest = d ∧ f.attempt = 1 ∧ f.timeoutAt = none ∧ (∀ k, k ≠ ln → t.line k = s.line k) ∧ SameBut [.lc] s t := by
  obtain ⟨f, rfl, h1, h2, h3, h4⟩ := ho.flight
  refine ⟨_, ?_, enumerating_decided (ln := ln) (p := p) hr hlog (g := State.setLine ln fun l => { l with enumeration := some e, inFlight := some f })
    (Framed.of_ri rfl rfl rfl), f, ?_, h1, h2, h3, h4, fun k hk => ?_, ?_⟩
  · rw [exec_request hi hr, hd]
    exact congrArg Host.Outcome.next (close_upd _ rfl rfl)
  · rw [setLine_line (enumerating_counts hc p q ln) hl, if_pos rfl, enumerating_line hc hl, if_pos rfl]
  · rw [setLine_line (enumerating_counts hc p q ln) hl, if_neg hk, enumerating_line hc hl, if_neg hk]
  · have hs := ((setLine_sameBut ln (fun l => { l with enumeration := some (.fresh p q s) }) (s.taking q)).of_only
      (riOnly_answer _ q .done [])).of_taking
    exact hs.trans (setLine_sameBut ln _ _)

/-- R174: with every address recorded an enumeration ends at once. -/
theorem assignStep_full {c : Ctx} {ln : Nat} {e : Enumeration} (he : (c.st.line ln).enumeration = some e)
    (hf : (c.st.line ln).freeAddr = none) : assignStep ln c = (c.upd (State.setLine ln fun l => { l with
      enumeration := none
      deferred := l.deferred.filter fun d => d != .enumeration })).record
      (lcNote .enumerationDone .routine ln e.tag (dv e.found) (dv enumTableFull) (dv e.cleared)) := by
  unfold assignStep endEnumeration
  simp only [he, hf]

/-- The line after an enumeration that ended at once is as it was. -/
theorem exec_enumeration_full {q : ReqHdr} {s : State} {ln : Nat} (hr : s.reaches q = true) (hlog : LogSound s.ri) (hc : Counts s) (hl : ln < 8)
    (href : enumRefusal (s.taking q) ln = none) (he : (s.line ln).enumeration = none) (hd : (s.line ln).deferred = [])
    (hf : (s.line ln).freeAddr = none) :
    ∃ t, exec (.enumerateLine q ln) s = .next t ∧ Decided q .done [] s t
      ∧ t.ri = ((s.taking q).answer q .done []).ri.take (stamped s ⟨.enumerationDone, .routine, .lc, ln, q.tag, dv 0, dv 2, dv 0⟩)
      ∧ (∀ k, t.line k = s.line k) ∧ SameBut [.lc] s t := by
  have hline := enumerating_line hc hl .assigning q
  have hk := hline ln
  rw [if_pos rfl] at hk
  have hstep := assignStep_full (c := s.enumerating .assigning q ln) (ln := ln) (e := .fresh .assigning q s) (by rw [hk]) (by rw [hk]; exact hf)
  let g : State → State := fun t => (t.setLine ln fun l => { l with
    enumeration := none
    deferred := l.deferred.filter fun d => d != .enumeration }).record
      (lcNote .enumerationDone .routine ln q.tag (dv 0) (dv enumTableFull) (dv 0))
  have hg : Framed (s.enumerating .assigning q ln).st (g (s.enumerating .assigning q ln).st) := by
    have h1 : Framed (s.enumerating .assigning q ln).st ((s.enumerating .assigning q ln).st.setLine ln fun l => { l with
      enumeration := none
      deferred := l.deferred.filter fun d => d != .enumeration }) := Framed.of_ri rfl rfl rfl
    exact h1.trans (framed_record _ _)
  refine ⟨g (s.enumerating .assigning q ln).st, ?_, enumerating_decided hr hlog hg, ?_, fun k => ?_, ?_⟩
  · rw [exec_request (i := .enumerateLine q ln) rfl hr]
    refine congrArg Host.Outcome.next ?_
    show (decideEnumerate q ln (s.deciding q)).close = _
    rw [decideEnumerate_begun href, hstep]
    exact close_done rfl rfl
  · show ((s.enumerating .assigning q ln).st.ri.take _) = _
    unfold State.enumerating
    rw [Ctx.upd_st, Ctx.upd_st, answer_setRi, answer_setRi]
    rfl
  · show ((s.enumerating .assigning q ln).st.setLine ln _).line k = _
    rw [setLine_line (enumerating_counts hc .assigning q ln) hl, hk, hline k]
    by_cases hkl : k = ln
    · rw [if_pos hkl, hkl]
      simp only [hd, List.filter_nil]
      rw [← hd, ← he]
    · rw [if_neg hkl, if_neg hkl]
  · have h1 := ((setLine_sameBut ln (fun l => { l with enumeration := some (.fresh .assigning q s) }) (s.taking q)).of_only
      (riOnly_answer _ q .done [])).of_taking
    exact (h1.trans (setLine_sameBut ln _ _)).of_only (riOnly_setRi _ _)

theorem freeAddr_of_no_nodes {l : Line} (h : l.nodes = []) : l.freeAddr = some 1 :=
  freeAddr_of_lowest (by decide) (by decide) (by rw [Line.node?, h]; rfl) fun b h1 h2 => by omega

/-- Settles O31. -/
theorem enumerationsBegin : Obligations.EnumerationsBegin := by
  intro q ln s hr hlog hc
  refine ⟨fun h => ?_, fun h ha => ?_, fun h ha he => ?_, fun a hfree hi h1 h2 hna hb => ?_, fun hfree hfull hd => ?_, fun hfree hz => ?_,
    fun hfree hz => ?_⟩
  · exact ⟨exec_refused rfl hr (decideEnumerate_refused (enumRefusal_range h)), exec_refused rfl hr (decideRenumber_refused (enumRefusal_range h))⟩
  · have hx : enumRefusal (s.taking q) ln = some .state := enumRefusal_state h ha
    exact ⟨exec_refused rfl hr (decideEnumerate_refused hx), exec_refused rfl hr (decideRenumber_refused hx)⟩
  · have hx : enumRefusal (s.taking q) ln = some .busy := enumRefusal_busy h ha he
    exact ⟨exec_refused rfl hr (decideEnumerate_refused hx), exec_refused rfl hr (decideRenumber_refused hx)⟩
  all_goals
    obtain ⟨hl, ha, he⟩ := hfree
    have href : enumRefusal (s.taking q) ln = none := enumRefusal_none hl ha he
    have hline (p : EnumPhase) := enumerating_line hc (show ln < 8 by omega) p q ln
    simp only [if_pos] at hline
  · obtain ⟨t, h⟩ := exec_enumeration (i := .enumerateLine q ln) rfl hr hlog hc (by omega) (decideEnumerate_begun href)
      (assignStep_offers (a := a) (enumerating_counts hc .assigning q ln) (by omega) (by rw [hline]; exact ⟨hi.queue, hi.inFlight, hi.deferred⟩)
        (by rw [hline]; exact ha) (fun hx => nomatch hx) (by rw [hline]) (by rw [hline]; exact freeAddr_of_lowest h1 h2 hna hb))
    exact ⟨t, h⟩
  · exact exec_enumeration_full hr hlog hc (by omega) href he hd (freeAddr_of_full hfull)
  · obtain ⟨z, hz, hb, -, hh⟩ := hz
    exact exec_refused rfl hr (decideRenumber_held href ⟨z, hz, hb, hh⟩)
  · refine ⟨fun n hi hn hfound hb => ?_, fun hbare => ?_⟩
    · obtain ⟨t, h⟩ := exec_enumeration (i := .renumberLine q ln) rfl hr hlog hc (by omega) (decideRenumber_begun href hz)
        (clearStep_offers (n := n) (enumerating_counts hc .clearing q ln) (by omega)
          (by rw [hline]; exact ⟨hi.queue, hi.inFlight, hi.deferred⟩) (by rw [hline]; exact ha) (fun hx => nomatch hx) (by rw [hline]) rfl
          (by rw [hline]; exact hn) (by rw [hline]; exact hfound) hb)
      exact ⟨t, h⟩
    · have hstep : clearStep ln (s.enumerating .clearing q ln) = assignStep ln (s.enumerating .clearing q ln) := by
        unfold clearStep
        rw [hline]
        simp only [Line.lastInChain, hbare.nodes, List.foldl_nil]
      obtain ⟨t, h⟩ := exec_enumeration (i := .renumberLine q ln) rfl hr hlog hc (by omega) ((decideRenumber_begun href hz).trans hstep)
        (assignStep_offers (a := 1) (enumerating_counts hc .clearing q ln) (by omega)
          (by rw [hline]; exact ⟨hbare.queue, hbare.inFlight, hbare.deferred⟩) (by rw [hline]; exact ha) (fun hx => nomatch hx)
          (by rw [hline]) (by rw [hline]; exact freeAddr_of_no_nodes hbare.nodes))
      exact ⟨t, h⟩

end Sys2Proof.Machine
end

