-- ==== Sys2Proof/Proofs/EndAnn.lean ====
section
/-! SUPPORT. END ANNOUNCEMENT (R108, R114). -/

namespace Sys2Proof.Machine
open Sys2Proof

/-- Another RI leaves an announcement's end as it is. -/
theorem AnnGone.of_only {n ch : Nat} {r : EndReason} {s t u : State} (h : AnnGone n ch r s t) (k : RiOnly t u) : AnnGone n ch r s u where
  anns := by rw [k.au]; exact h.anns
  released := by rw [k.zone]; exact h.released
  others := by rw [k.zone]; exact h.others
  channel := by rw [k.channel]; exact h.channel
  otherChannels := by rw [k.channel]; exact h.otherChannels
  same := h.same.of_only k

theorem AnnGone.of_taking {n ch : Nat} {r : EndReason} {q : ReqHdr} {s t : State} (h : AnnGone n ch r (s.taking q) t) : AnnGone n ch r s t :=
  ⟨h.anns, h.released, h.others, h.channel, h.otherChannels, h.same.of_taking⟩

theorem AnnGone.of_started {n ch : Nat} {r : EndReason} {s t : State} (h : AnnGone n ch r s.started t) : AnnGone n ch r s t :=
  ⟨h.anns, h.released, h.others, h.channel, h.otherChannels, h.same.of_started⟩

theorem EndsAlone.taking {n ch : Nat} {a : Ann} {s : State} (h : EndsAlone n ch a s) (q : ReqHdr) : EndsAlone n ch a (s.taking q) :=
  ⟨⟨h.counts.zones, h.counts.feeds, h.counts.channels, h.counts.circuits, h.counts.lines, h.counts.inputs, h.counts.outputs⟩, h.found, h.active,
    h.channel, h.noBlock, h.noWaiters, h.noChannelWaiters, h.bare, h.noSound⟩

/-- R108: of an announcement that is not ENDING the end is answered with the samples fetched and played. -/
theorem decideEndAnnouncement_ok {q : ReqHdr} {n : Nat} {c : Ctx} {a : Ann} (h : c.st.ann? n = some a) (he : a.st ≠ .ending) :
    decideEndAnnouncement q n c = (annEnd n .cancelled false c).upd (State.answer q .done [numWord a.fetched, numWord a.played]) := by
  unfold decideEndAnnouncement
  rw [h]
  exact if_neg he

/-- An event that has only been passed on to an answer, and goes on, leaves its request decided. -/
theorem exec_passed {i : Instr} {q : ReqHdr} {s : State} {c : Ctx} {o : Outcome} {ws : List Word} (hi : reqHdr? i = some q)
    (hr : s.reaches q = true) (hlog : LogSound s.ri) (hd : decideRequest i (s.deciding q) = c.upd (State.answer q o ws))
    (hc : CTurn (s.deciding q) c) (hws : ws.length ≤ 3) :
    exec i s = .next (c.upd (State.answer q o ws)).close ∧ Decided q o ws s (c.upd (State.answer q o ws)).close := by
  refine ⟨by rw [exec_request hi hr, hd], decided_of hr hlog hws (hc.st.framed) ?_⟩
  exact (close_passed (c := c.upd (State.answer q o ws)) (hc.noStart fun _ _ hm => nomatch hm)).framed

/-- R108: a waiting announcement leaves the announcements and the wait list. -/
theorem annEnd_waiting {n : Nat} {r : EndReason} {c : Ctx} {a : Ann} (h : c.st.ann? n = some a) (hw : a.st = .waiting) :
    ∃ note, annEnd n r false c = c.upd fun s => State.record note { s with au := { s.au with
      anns := s.au.anns.filter fun e => e.num != n
      waitList := s.au.waitList.filter (· != n) } } := by
  have hf : ((c.upd (State.setAnn n fun a => { a with endReason := some r })).upd fun s =>
      { s with au := { s.au with waitList := s.au.waitList.filter (· != n) } }).st.ann? n = some { a with endReason := some r } :=
    setAnn_ann (f := fun a => { a with endReason := some r }) (fun _ => rfl) h
  refine ⟨endedNote { a with endReason := some r } r, ?_⟩
  unfold annEnd
  rw [h]
  simp only [hw]
  rw [annRemove_of_found hf]
  unfold Ctx.record Ctx.upd State.setAnn
  dsimp only
  rw [filter_setAnn c.st.au.anns n (fun a => { a with endReason := some r }) fun _ => rfl]
  rfl

/-- Settles O26. -/
theorem endAnnouncementEndsIt : Obligations.EndAnnouncementEndsIt := by
  intro q n s hr hlog
  refine ⟨fun h => exec_refused rfl hr ?_, fun a h => ⟨fun he => exec_refused rfl hr ?_, fun he => ?_⟩⟩
  · show decideEndAnnouncement q n (s.deciding q) = _
    unfold decideEndAnnouncement
    have h' : (s.deciding q).st.ann? n = none := h
    rw [h']
  · show decideEndAnnouncement q n (s.deciding q) = _
    unfold decideEndAnnouncement
    have h' : (s.deciding q).st.ann? n = some a := h
    rw [h']
    exact if_pos he
  · obtain ⟨hx, hd⟩ := exec_passed (i := .endAnnouncement q n) rfl hr hlog (decideEndAnnouncement_ok (c := s.deciding q) h he)
      (annEnd_cturn (CTurn.refl _)) (by simp)
    refine ⟨_, hx, hd, fun hw => ?_, fun ch hal => ?_⟩
    · obtain ⟨note, heq⟩ := annEnd_waiting (r := .cancelled) (c := s.deciding q) h hw
      have hclose : ((annEnd n .cancelled false (s.deciding q)).upd (State.answer q .done [numWord a.fetched, numWord a.played])).close =
          (annEnd n .cancelled false (s.deciding q)).st.answer q .done [numWord a.fetched, numWord a.played] := by
        rw [heq]
        exact close_done rfl rfl
      rw [hclose, heq]
      have honly := (noted_record _ note).toRiOnly.trans (riOnly_answer (State.record note { s.taking q with au := { s.au with
        anns := s.au.anns.filter fun e => e.num != n
        waitList := s.au.waitList.filter (· != n) } }) q .done [numWord a.fetched, numWord a.played])
      refine ⟨congrArg AnnUnit.anns honly.au, congrArg AnnUnit.waitList honly.au, SameBut.of_only ?_ honly⟩
      exact ⟨fun _ => rfl, fun _ => rfl, fun _ => rfl, fun _ => rfl, fun _ => rfl, fun hx => (hx (by decide)).elim, fun _ => rfl, fun _ => rfl,
        fun _ => rfl, fun _ => rfl⟩
    · have hgone := annEnd_alone (r := .cancelled) (c := s.deciding q) (hal.taking q) rfl rfl
      obtain ⟨level, zs, fs, note, heq⟩ := annEnd_alone_eq .cancelled (c := s.deciding q) (hal.taking q)
      have hclose : (annEnd n .cancelled false (s.deciding q)).close = (annEnd n .cancelled false (s.deciding q)).st := by
        rw [heq]
        exact close_of_closes (closes_of_offer (ch := ch) rfl rfl hal.noChannelWaiters) (by decide)
      rw [hclose] at hgone
      have hclose2 : ((annEnd n .cancelled false (s.deciding q)).upd (State.answer q .done [numWord a.fetched, numWord a.played])).close =
          (annEnd n .cancelled false (s.deciding q)).st.answer q .done [numWord a.fetched, numWord a.played] := by
        rw [heq]
        exact close_of_closes (closes_of_offer (ch := ch) rfl rfl (by
          show (State.answer q .done _ _).au.waitList = []
          rw [(riOnly_answer _ q .done _).au]
          exact hal.noChannelWaiters)) (by decide)
      rw [hclose2]
      exact (hgone.of_only (riOnly_answer _ _ _ _)).of_taking

end Sys2Proof.Machine
end

