-- ==== Sys2Proof/Proofs/Accesses.lean ====
section
/-! SUPPORT. The order of the region accesses (section 11.3, R191). -/

namespace Sys2Proof.Machine
open Sys2Proof

/-- What a left-over access's completion does: a write's bytes reach the region, and nothing else changes. -/
structure Landed (a : Access) (s t : State) : Prop where
  only : t = { s with ri := { s.ri with accesses := s.ri.accesses.tail, region := t.ri.region } }
  reads : (∀ id off, a ≠ .consumed id off) → (∀ q off n ws, a ≠ .snapshot q off n ws) → t.ri.region = s.ri.region
  consumed : ∀ id off, a = .consumed id off → regionRead t.ri.region (off + 3) = some 2
    ∧ ∀ k, k ≠ off + 3 → regionRead t.ri.region k = regionRead s.ri.region k
  snapshot : ∀ q off n ws, a = .snapshot q off n ws →
    (∀ i, i < 4 * ws.length → regionRead t.ri.region (off + i) = (ws.flatMap wordBytes)[i]?)
    ∧ ∀ k, ¬ (off ≤ k ∧ k < off + 4 * ws.length) → regionRead t.ri.region k = regionRead s.ri.region k

theorem landed_completed (a : Access) (s : State) : Landed a s (landed a s.completed) := by
  cases a with
  | consumed id off =>
    refine ⟨rfl, fun h => (h id off rfl).elim, fun id' off' h => ?_, fun _ _ _ _ h => nomatch h⟩
    obtain ⟨rfl, rfl⟩ := Access.consumed.inj h
    refine ⟨regionRead_write_of_inside (i := 0) (by decide), fun k hk => regionRead_write_of_outside ?_⟩
    show k < off + 3 ∨ off + 3 + 1 ≤ k
    omega
  | snapshot q off n ws =>
    refine ⟨rfl, fun _ h => (h q off n ws rfl).elim, fun _ _ h => (nomatch h), fun q' off' n' ws' h => ?_⟩
    obtain ⟨rfl, rfl, rfl, rfl⟩ := Access.snapshot.inj h
    refine ⟨fun i hi => regionRead_write_of_inside (by rwa [wordsBytes_length]), fun k hk => regionRead_write_of_outside ?_⟩
    rw [wordsBytes_length]
    omega
  | _ => exact ⟨rfl, fun _ _ => rfl, fun _ _ h => (nomatch h), fun _ _ _ _ h => nomatch h⟩

theorem completion_of_other {p : Access → Bool} {f : Access → Ctx → Ctx} {s : State}
    (h : ∀ a, s.inFlight? = some a → p a = false ∧ ∀ b, a = .discarded b → p b = false) : completion p f s = s := by
  unfold completion
  cases ha : s.inFlight? with
  | none => rfl
  | some a =>
    obtain ⟨h1, h2⟩ := h a ha
    cases a with
    | discarded b => exact if_neg (by simp [h2 b rfl])
    | _ => exact if_neg (by simp [h1])

theorem completion_of_discarded {p : Access → Bool} {f : Access → Ctx → Ctx} {s : State} {a : Access} (h : s.inFlight? = some (.discarded a))
    (hp : p a = true) : completion p f s = landed a s.completed := by
  unfold completion
  rw [h]
  exact if_pos hp

/-- A command that is the completion of one kind of access takes effect for the access in flight alone, and of one left behind it only lands. -/
theorem idle_of_completion {i : Instr} {s : State} {p : Access → Bool} {f : Access → Ctx → Ctx} {P : Access → Prop}
    (he : exec i s = .next (completion p f s)) (hp : ∀ a, p a = true ↔ P a) :
    ((∀ a, s.inFlight? = some a → ¬ P a ∧ ∀ b, a = .discarded b → ¬ P b) → exec i s = .next s)
      ∧ ∀ a, s.inFlight? = some (.discarded a) → P a → ∃ t, exec i s = .next t
        ∧ t = { s with ri := { s.ri with accesses := s.ri.accesses.tail, region := t.ri.region } }
        ∧ ((∀ id off, a ≠ .consumed id off) → (∀ q off n ws, a ≠ .snapshot q off n ws) → t.ri.region = s.ri.region)
        ∧ (∀ id off, a = .consumed id off → regionRead t.ri.region (off + 3) = some 2
          ∧ ∀ k, k ≠ off + 3 → regionRead t.ri.region k = regionRead s.ri.region k)
        ∧ ∀ q off n ws, a = .snapshot q off n ws →
          (∀ i, i < 4 * ws.length → regionRead t.ri.region (off + i) = (ws.flatMap wordBytes)[i]?)
          ∧ ∀ k, ¬ (off ≤ k ∧ k < off + 4 * ws.length) → regionRead t.ri.region k = regionRead s.ri.region k := by
  have hn : ∀ a, ¬ P a → p a = false := fun a h => Bool.eq_false_iff.mpr fun hx => h ((hp a).mp hx)
  refine ⟨fun h => ?_, fun a ha h => ?_⟩
  · rw [he, completion_of_other fun a ha => ⟨hn a (h a ha).1, fun b hb => hn b ((h a ha).2 b hb)⟩]
  · obtain ⟨h1, h2, h3, h4⟩ := landed_completed a s
    exact ⟨_, he.trans (congrArg Host.Outcome.next (completion_of_discarded ha ((hp a).mpr h))), h1, h2, h3, h4⟩

theorem isSlot_iff (a : Access) : isSlot a = true ↔ ∃ n, a = .slot n := by cases a <;> simp [isSlot]
theorem isReadMark_iff (a : Access) : isReadMark a = true ↔ ∃ b, a = .readMark b := by cases a <;> simp [isReadMark]
theorem isSnapshot_iff (a : Access) : isSnapshot a = true ↔ ∃ q o n w, a = .snapshot q o n w := by cases a <;> simp [isSnapshot]
theorem isHeader_iff (a : Access) : isHeader a = true ↔ ∃ n, a = .header n := by cases a <;> simp [isHeader]
theorem isReread_iff (a : Access) : isReread a = true ↔ ∃ n, a = .reread n := by cases a <;> simp [isReread]
theorem isFetch_iff (a : Access) : isFetch a = true ↔ ∃ n k, a = .fetch n k := by cases a <;> simp [isFetch]
theorem isConsumed_iff (a : Access) : isConsumed a = true ↔ ∃ n o, a = .consumed n o := by cases a <;> simp [isConsumed]

/-- Settles O37. -/
theorem regionAccessesAreInOrder : Obligations.RegionAccessesAreInOrder := by
  refine ⟨fun _ _ => rfl, fun a rest => ⟨rfl, rfl, fun h => ?_⟩, fun s data samples paths x y z => ?_⟩
  · cases a with
    | discarded b => exact (h b rfl).elim
    | _ => rfl
  · have record (t : TableCode) (a : Access) : (a == Access.record t) = true ↔ a = .record t := beq_iff_eq
    exact ⟨idle_of_completion rfl fun a => beq_iff_eq, idle_of_completion rfl isSlot_iff, idle_of_completion rfl isReadMark_iff,
      idle_of_completion rfl isSnapshot_iff, idle_of_completion rfl (record _), idle_of_completion rfl (record _),
      idle_of_completion rfl (record _), idle_of_completion rfl (record _), idle_of_completion rfl (record _),
      idle_of_completion rfl (record _), idle_of_completion rfl (record _), idle_of_completion rfl (record _),
      idle_of_completion rfl (record _), idle_of_completion rfl (record _), idle_of_completion rfl (record _),
      idle_of_completion rfl fun a => beq_iff_eq, idle_of_completion rfl isHeader_iff, idle_of_completion rfl isReread_iff,
      idle_of_completion rfl isFetch_iff, idle_of_completion rfl isConsumed_iff⟩

end Sys2Proof.Machine
end

