-- ==== Sys2Proof/Proofs/Linking.lean ====
section
/-! SUPPORT. The host fields and the attaching (R188), bus errors (R189), and the end of a snapshot's write (R194). -/

namespace Sys2Proof.Machine
open Sys2Proof

/-! ### LINK FAULT (R188, R189) -/

/-- What a part in operation is after its link has gone to LINK FAULT. -/
structure LinkFaulted (s t : State) : Prop where
  link : t.ri.link = .fault
  cause : t.ri.cause.getLsbD 3 = true
  accesses : t.ri.accesses = []
  trouble : t.io.trouble.getLsbD 4 = true
  region : t.ri.region = s.ri.region
  kept : t.tb = s.tb ∧ t.za.zones = s.za.zones ∧ t.pu.bells = s.pu.bells ∧ t.dc.active = s.dc.active
  left : s.ri.link = .attached → t.ri.scan = .idle ∧ NoLoads t
  same : s.ri.link ≠ .attached → SameBut [.io] s t

/-- R183: the class LINK is present in LINK FAULT. -/
theorem troubleNow_fault {s : State} (h : s.ri.link = .fault) : s.troubleNow.getLsbD 4 = true := by
  rw [State.troubleNow]
  simp (disch := decide) [withBit_getLsbD, h, -BitVec.getLsbD_eq_getElem]

/-- A link in LINK FAULT whose accesses and causes are such, with the trouble classes brought up to date. -/
theorem linkFaulted_of {s u : State} (h1 : u.ri.link = .fault) (h2 : u.ri.cause.getLsbD 3 = true) (h3 : u.ri.accesses = [])
    (h5 : u.ri.region = s.ri.region) (h6 : u.tb = s.tb ∧ u.za.zones = s.za.zones ∧ u.pu.bells = s.pu.bells ∧ u.dc.active = s.dc.active)
    (h7 : s.ri.link = .attached → u.ri.scan = .idle ∧ NoLoads u) (h8 : s.ri.link ≠ .attached → SameBut [.io] s u) :
    LinkFaulted s u.updateTrouble := by
  obtain ⟨hs, l, t, he⟩ := updateTrouble_of_down (s := u) (by rw [h1]; decide)
  rw [he]
  refine ⟨h1, h2, h3, troubleNow_fault h1, h5, h6, fun hl => ?_, fun hl => ?_⟩
  · obtain ⟨hs, hn⟩ := h7 hl
    exact ⟨hs, hn.dayPlan, hn.schedule, hn.zones, hn.patterns, hn.channels, hn.drills, hn.circuits, hn.lines, hn.wiring⟩
  · have hb := h8 hl
    exact ⟨hb.tb, hb.dp, hb.se, hb.za, hb.pu, hb.au, hb.dc, hb.cu, hb.lc, fun hn => (hn (by decide)).elim⟩

/-- The link's state, its record and its cause, as it enters LINK FAULT. -/
def State.toFault (cause offset : Nat) (version : Option Nat) (s : State) : State :=
  ((s.setRi fun ri => { ri with link := .fault }).record (riNote .linkFault (dv cause) (dv offset) [dvo version])).setRi (RegionIf.raise causeLink)

theorem toFault_riOnly (cause offset : Nat) (version : Option Nat) (s : State) : RiOnly s (s.toFault cause offset version) := ⟨rfl⟩

theorem toFault_ri (cause offset : Nat) (version : Option Nat) (s : State) : let t := s.toFault cause offset version
    t.ri.link = .fault ∧ t.ri.cause.getLsbD 3 = true ∧ t.ri.region = s.ri.region := by
  obtain ⟨hs, l, t, h⟩ := record_of_down (s := s.setRi fun ri => { ri with link := .fault }) (by exact fun h => nomatch h)
    (riNote .linkFault (dv cause) (dv offset) [dvo version])
  have hf : s.toFault cause offset version = _ := congrArg (State.setRi (RegionIf.raise causeLink)) h
  rw [hf]
  refine ⟨rfl, ?_, rfl⟩
  show (s.ri.cause ||| causeLink).getLsbD 3 = true
  simp [causeLink]

/-- R188, R189: LINK FAULT is entered from `u`, whose uses of the region have ended, if it was ATTACHED. -/
theorem enterLinkFault_of_running {c : Ctx} (hr : c.st.running = true) (cause offset : Nat) (version : Option Nat) :
    enterLinkFault cause offset version c = (if c.st.attached then leaveAttached [] (c.upd (State.toFault cause offset version))
      else (c.upd (State.toFault cause offset version)).upd (State.setRi fun ri => { ri with accesses := [] })).upd State.updateTrouble :=
  if_pos hr

/-- R188, R189: the link of a part in operation, with no announcement taken where it was ATTACHED, enters LINK FAULT. -/
theorem enterLinkFault_faulted {c : Ctx} (hr : c.st.running = true) (ha : c.ans = []) (ht : c.todo = [])
    (hn : c.st.ri.link = .attached → c.st.au.anns = []) (cause offset : Nat) (version : Option Nat) :
    LinkFaulted c.st (enterLinkFault cause offset version c).close := by
  obtain ⟨hlink, hcause, hregion⟩ := toFault_ri cause offset version c.st
  have ho := toFault_riOnly cause offset version c.st
  rw [enterLinkFault_of_running hr]
  generalize he : State.toFault cause offset version = f at *
  by_cases hl : c.st.ri.link = .attached
  · have hat : c.st.attached = true := by simp [State.attached, hl]
    obtain ⟨tk, hleave⟩ := leaveAttached_of_down (c := c.upd f) (by exact fun h => nomatch hlink.symm.trans h) []
    rw [if_pos hat, hleave, annLinkLost_of_noBlocks, close_upd]
    · exact linkFaulted_of hlink hcause rfl hregion ⟨ho.tb, congrArg (·.zones) ho.za, congrArg (·.bells) ho.pu,
        congrArg (·.active) ho.dc⟩
        (fun _ => ⟨rfl, noLoads_unlinked _ _ _⟩) fun h => (h hl).elim
    · exact ha
    · exact ht
    · intro a h
      have hnone : ((c.upd f).upd (State.unlinked [] tk)).st.au.anns = [] := (congrArg (·.anns) ho.au).trans (hn hl)
      rw [hnone] at h
      exact absurd h List.not_mem_nil
  · have hat : ¬ c.st.attached = true := by simp [State.attached, hl]
    rw [if_neg hat, close_upd]
    · exact linkFaulted_of hlink hcause rfl hregion ⟨ho.tb, congrArg (·.zones) ho.za, congrArg (·.bells) ho.pu,
        congrArg (·.active) ho.dc⟩ (fun h => (hl h).elim)
        fun _ => ((SameBut.refl [.io] c.st).of_only ho).of_only (riOnly_setRi (f c.st) fun ri => { ri with accesses := [] })
    · exact ha
    · exact ht

/-! ### The end of a snapshot's write (R194) -/

/-- R194: the snapshot stands in the region, and its request is answered. -/
theorem snapshotDone_of_attached {s : State} (h : s.ri.link = .attached) (q : ReqHdr) (offset seq : Nat) (words : List Word) :
    snapshotDone q offset seq words s = (snapshotWritten offset words s).setRi (writeOutcome q ⟨.done, [numWord seq]⟩) :=
  answer_of_attached (s := snapshotWritten offset words s) h q .done [numWord seq]

/-- R189: the error of an access that was not left behind takes the link to LINK FAULT. -/
theorem exec_busError {s : State} {place : Nat} (h : ∀ a, s.ri.accesses.head? ≠ some (.discarded a)) :
    exec (.regionAccessBusError place) s = .next (eventWhen (s.ri.link = .attached || s.ri.link = .attaching)
      (enterLinkFault faultBus place (if s.attached then some Config.layoutVersion else none)) s) := by
  refine congrArg Host.Outcome.next ?_
  split
  · next a he =>
    rw [State.inFlight?] at he
    split at he
    · exact (h a he).elim
    · exact nomatch he
  · rfl

/-! ### Attaching (R188) -/

/-- R193: with no outcome held there is none to write. -/
theorem writeHeld_of_none {s : State} (h : s.ri.taken = []) : writeHeld s = s := by
  unfold writeHeld
  generalize List.range Config.slotCount = ns
  induction ns with
  | nil => rfl
  | cons n ns ih =>
    rw [List.foldl_cons, h]
    exact ih

/-- R196: an empty hold buffer does not drain. -/
theorem drain_of_empty {s : State} (h : s.ri.hold = []) : ∀ n, State.drain n s = s
  | 0 => rfl
  | n + 1 => by
    unfold State.drain
    rw [h]

/-- The link's items as the attaching sets them, before STARTED (R188, R195). -/
def State.opened (notify : Nat) (s : State) : State := s.setRi fun ri => { ri with
  link := .attached
  writeIndex := 0
  readMark := 0
  nextSeq := 1
  notify := BitVec.ofNat 32 notify
  region := regionWrite ri.region cbWriteIndex (leBytes 4 0)
  scanAt := s.elapsed
  pollAt := s.elapsed
  blockAt := s.elapsed }

/-- The log after STARTED (R197). -/
def State.openedLog (notify : Nat) (s : State) : State :=
  (s.opened notify).setRi (RegionIf.place (stamped (s.opened notify) (startedNote (s.opened notify))))

/-- RI with the mirrors' bytes, the first attach done and a slot scan begun. -/
def RegionIf.attachedWith (m : Memory) (ri : RegionIf) : RegionIf :=
  { ri with region := m, firstAttach := false, scan := .scanning, accesses := ri.accesses ++ [.readMark true] }

theorem callScan_mirrored {u : State} (h : u.ri.scan = .idle) :
    callScan (u.mirrorAll.setRi fun ri => { ri with firstAttach := false }) = u.setRi (RegionIf.attachedWith u.mirrorAll.ri.region) := by
  obtain ⟨m, hm⟩ := mirrorAll_differs u
  rw [hm, callScan_of_idle]
  · rfl
  · exact h

/-- What a record's placing leaves of RI (R195). -/
structure PlacedOn (r : LogRecord) (ri p : RegionIf) : Prop where
  rest : p = { ri with region := p.region, writeIndex := p.writeIndex, nextSeq := p.nextSeq, cause := p.cause }
  region : p.region = regionWrite (regionWrite ri.region (Config.logBase + 32 * ri.writeIndex) (logBytes ri.nextSeq r)) cbWriteIndex
    (leBytes 4 ((ri.writeIndex + 1) % 256))
  writeIndex : p.writeIndex = (ri.writeIndex + 1) % 256
  nextSeq : p.nextSeq = (ri.nextSeq + 1) % 0x100000000

theorem placedOn (r : LogRecord) (ri : RegionIf) : PlacedOn r ri (ri.place r) := by
  refine ⟨?_, place_region ri r, place_writeIndex ri r, place_nextSeq ri r⟩
  unfold RegionIf.place RegionIf.raise
  dsimp only
  split <;> split <;> rfl

theorem stamped_note (s : State) (n : Note) : (stamped s n).note = n := by
  unfold stamped
  split <;> rfl

/-- STARTED stands alone in the log (R197). -/
theorem openedLog_placed (notify : Nat) (s : State) : ∃ r p, PlacedOn r (s.opened notify).ri p ∧ r.note.kind = .started
    ∧ s.openedLog notify = (s.opened notify).setRi fun _ => p :=
  ⟨_, _, placedOn _ _, congrArg Note.kind (stamped_note _ _), rfl⟩

/-- R188: with nothing held or taken the attaching writes STARTED and the mirrors, and calls for a scan. -/
theorem attach_of_empty {s : State} (hh : s.ri.hold = []) (ht : s.ri.taken = []) (hi : s.ri.scan = .idle) (notify : Nat) :
    attach notify s = (s.openedLog notify).setRi (RegionIf.attachedWith (s.openedLog notify).mirrorAll.ri.region) := by
  have he : attach notify s = callScan (((writeHeld (State.drain drainSteps (s.openedLog notify))).mirrorAll).setRi
    fun ri => { ri with firstAttach := false }) := rfl
  obtain ⟨r, p, hp, -, hs⟩ := openedLog_placed notify s
  rw [he, drain_of_empty, writeHeld_of_none, callScan_mirrored]
  all_goals rw [hs]
  · show p.scan = .idle
    rw [hp.rest]
    exact hi
  · show p.taken = []
    rw [hp.rest]
    exact ht
  · show p.hold = []
    rw [hp.rest]
    exact hh

/-- What the attaching leaves of RI and its region. -/
structure AttachedWell (notify : Nat) (s t : State) : Prop where
  link : t.ri.link = .attached
  writeIndex : t.ri.writeIndex = 1
  readMark : t.ri.readMark = 0
  nextSeq : t.ri.nextSeq = 2
  firstAttach : t.ri.firstAttach = false
  notify : t.ri.notify = BitVec.ofNat 32 notify
  scan : t.ri.scan = .scanning
  accesses : t.ri.accesses = s.ri.accesses ++ [.readMark true]
  sequence : ∀ i, i < 4 → regionRead t.ri.region (0x1000 + i) = (wordBytes 1)[i]?
  kind : ∀ i, i < 2 → regionRead t.ri.region (0x1004 + i) = (leBytes 2 54)[i]?
  mark : ∀ i, i < 4 → regionRead t.ri.region (28 + i) = (wordBytes 1)[i]?
  outside : ∀ a, ¬ partArea a → regionRead t.ri.region a = regionRead s.ri.region a
  only : RiOnly s t

/-- A record's bytes begin with its sequence and its kind (section 11.6). -/
theorem logBytes_head (n : Nat) (r : LogRecord) : ∃ rest, logBytes n r = leBytes 4 n ++ (leBytes 2 r.note.kind.code ++ rest) := by
  unfold logBytes
  simp only [List.append_assoc]
  exact ⟨_, rfl⟩

theorem attach_well {s : State} (hh : s.ri.hold = []) (ht : s.ri.taken = []) (hi : s.ri.scan = .idle) (notify : Nat) :
    AttachedWell notify s (attach notify s) := by
  obtain ⟨r, p, hp, hkind, hs⟩ := openedLog_placed notify s
  obtain ⟨rest, hbytes⟩ := logBytes_head 1 r
  rw [hkind] at hbytes
  have hmir (a : Nat) (h : a < 12 ∨ 28 ≤ a ∧ a < 32 ∨ 48 ≤ a) := mirrorAll_outside (s.openedLog notify) h
  rw [attach_of_empty hh ht hi]
  rw [hs] at hmir ⊢
  generalize ((s.opened notify).setRi fun _ => p).mirrorAll.ri.region = m at hmir ⊢
  have hreg : p.region = regionWrite (regionWrite (regionWrite s.ri.region cbWriteIndex (leBytes 4 0)) Config.logBase
      (logBytes 1 r)) cbWriteIndex (leBytes 4 1) := hp.region
  have hlog (i : Nat) (h : i < 32) : regionRead m (0x1000 + i) = (logBytes 1 r)[i]? := by
    refine (hmir _ (by omega)).trans ((congrArg (regionRead · (0x1000 + i)) hreg).trans ?_)
    rw [regionRead_write_of_outside (by rw [leBytes_length, cbWriteIndex]; omega)]
    exact regionRead_write_of_inside (by rwa [logBytes_length])
  refine ⟨?_, hp.writeIndex, ?_, hp.nextSeq, rfl, ?_, rfl, ?_, fun i hi => ?_, fun i hi => ?_, fun i hi => ?_, fun a ha => ?_, ⟨rfl⟩⟩
  · exact congrArg RegionIf.link hp.rest
  · exact congrArg RegionIf.readMark hp.rest
  · exact congrArg RegionIf.notify hp.rest
  · exact congrArg (fun ri : RegionIf => ri.accesses ++ [.readMark true]) hp.rest
  · refine (hlog i (by omega)).trans ?_
    rw [hbytes, List.getElem?_append_left (by rwa [leBytes_length])]
    rfl
  · have hat : 0x1004 + i = 0x1000 + (4 + i) := by omega
    rw [hat]
    refine (hlog (4 + i) (by omega)).trans ?_
    rw [hbytes, List.getElem?_append_right (by rw [leBytes_length]; omega), leBytes_length, Nat.add_sub_cancel_left,
      List.getElem?_append_left (by rwa [leBytes_length])]
    rfl
  · refine (hmir _ (by omega)).trans ((congrArg (regionRead · (28 + i)) hreg).trans ?_)
    exact regionRead_write_of_inside (by rwa [leBytes_length])
  · unfold partArea at ha
    refine (hmir a (by omega)).trans ((congrArg (regionRead · a) hreg).trans ?_)
    rw [regionRead_write_of_outside (by rw [leBytes_length, cbWriteIndex]; omega),
      regionRead_write_of_outside (by rw [logBytes_length, Config.logBase]; omega),
      regionRead_write_of_outside (by rw [leBytes_length, cbWriteIndex]; omega)]

theorem sameBut_completed (bs : List BlockId) (s : State) : SameBut bs s s.completed :=
  (SameBut.refl bs s).of_only (riOnly_setRi s fun ri => { ri with accesses := ri.accesses.tail })

/-- R191: the host fields' completion, while the link is attaching. -/
theorem exec_hostFields {s : State} (hr : s.running = true) (ha : s.ri.accesses = [.hostFields]) (layout mark notify : Nat) :
    exec (.hostFieldsRead layout mark notify) s = .next (hostFields layout mark notify s.completed.begin).close := by
  refine congrArg Host.Outcome.next ?_
  unfold completion
  rw [State.inFlight?, if_pos hr, ha]
  exact if_pos rfl

/-- Settles O38. -/
theorem hostFieldsAttachTheLink : Obligations.HostFieldsAttachTheLink := by
  intro layout mark notify s hr hl ha
  have hleft : s.ri.accesses.tail = [] := by rw [ha]; rfl
  refine ⟨fun h1 h2 hh ht hi => ?_, fun h => ?_⟩
  · have hw := attach_well (s := s.completed.started) hh ht hi notify
    have he : hostFields layout mark notify s.completed.begin = s.completed.begin.upd (attach notify) := by
      rw [hostFields, if_pos (by simp [h1, h2, Config.layoutVersion])]
    refine ⟨attach notify s.completed.started, ?_, hw.link, hw.writeIndex, hw.readMark, hw.nextSeq, hw.firstAttach, hw.notify, hw.scan, ?_,
      hw.sequence, hw.kind, hw.mark, hw.outside, ?_⟩
    · rw [exec_hostFields hr ha, he, close_begin_upd]
    · exact hw.accesses.trans (congrArg (fun l : List Access => l ++ [.readMark true]) hleft)
    · exact ((sameBut_completed [] s).trans (SameBut.of_started (SameBut.refl [] _))).of_only hw.only
  · have he : hostFields layout mark notify s.completed.begin = enterLinkFault faultLayout 0 (some layout) s.completed.begin := by
      rw [hostFields, if_neg fun hb => ?_]
      rw [Bool.and_eq_true, decide_eq_true_eq, decide_eq_true_eq] at hb
      exact h.elim (fun h => h hb.1) fun h => h hb.2
    have hf := enterLinkFault_faulted (c := s.completed.begin) hr rfl rfl (fun h => nomatch hl.symm.trans h) faultLayout 0 (some layout)
    refine ⟨_, (exec_hostFields hr ha _ _ _).trans (congrArg (fun c => Host.Outcome.next c.close) he), hf.link, hf.cause, hf.accesses, hf.trouble,
      hf.region, ?_⟩
    exact (sameBut_completed [.io] s).trans (SameBut.of_started (hf.same fun h => nomatch hl.symm.trans h))

/-- Settles O40. -/
theorem snapshotsAndBusErrors : Obligations.SnapshotsAndBusErrors := by
  intro q offset seq place words s
  refine ⟨fun hc hq ho => ?_, fun a hr hh => ?_, fun hnd => ⟨fun hr hl hann => ?_, fun hl => ?_⟩⟩
  · have hslot := slotAt_lt hq
    have hout (a : Nat) (h : ¬ (offset ≤ a ∧ a < offset + 4 * words.length)) :
        regionRead (snapshotWritten offset words s.completed.started).ri.region a = regionRead s.ri.region a :=
      regionRead_write_of_outside (by rw [wordsBytes_length]; omega)
    refine ⟨snapshotDone q offset seq words s.completed.started, ?_, ?_⟩
    · refine congrArg Host.Outcome.next ?_
      rw [completion_of_completing hc (p := isSnapshot) rfl fun b h => nomatch h]
      exact close_begin_upd s.completed _
    · rw [snapshotDone_of_attached (s := s.completed.started) hc.attached]
      have hk := linkKept_writeOutcome (snapshotWritten offset words s.completed.started) q ⟨.done, [numWord seq]⟩
      have hs : LinkKept s (snapshotWritten offset words s.completed.started) := ⟨rfl, rfl, rfl, rfl, rfl, rfl, rfl, rfl, rfl, rfl⟩
      refine ⟨writeOutcome_slotState _ _ _, writeOutcome_outcome _ _ _, fun i hi => writeOutcome_words q ⟨.done, [numWord seq]⟩ _ hi,
        fun i hi => ?_, fun a ha hn => (writeOutcome_outside q ⟨.done, [numWord seq]⟩ _ ha).trans (hout a hn), writeOutcome_taken _ _ _,
        writeOutcome_accesses _ _ _, hs.trans hk, ((sameBut_completed [] s).trans (SameBut.of_started ((SameBut.refl [] _).of_only (riOnly_setRi _ _)))).of_only (riOnly_setRi _ _)⟩
      have hb : ¬ answerBytes q 1 (offset + i) := by
        unfold answerBytes
        omega
      exact (writeOutcome_outside q ⟨.done, [numWord seq]⟩ _ hb).trans (regionRead_write_of_inside (by rwa [wordsBytes_length]))
  · refine congrArg Host.Outcome.next ?_
    rw [State.inFlight?, if_pos hr, hh]
    rfl
  · have hf := enterLinkFault_faulted (c := s.begin) hr rfl rfl (fun _ => hann) faultBus place
      (if s.attached then some Config.layoutVersion else none)
    have hlink : (s.ri.link = .attached || s.ri.link = .attaching) = true := by simpa using hl
    exact ⟨_, (exec_busError hnd).trans (congrArg Host.Outcome.next (eventWhen_of_running hr hlink _)),
      hf.link, hf.cause, hf.accesses, hf.trouble, hf.left, hf.region, hf.kept⟩
  · have hlink : (s.ri.link = .attached || s.ri.link = .attaching) = false := by
      rcases hl with h | h <;> simp [h]
    exact (exec_busError hnd).trans (congrArg Host.Outcome.next (eventWhen_of_not hlink _))

end Sys2Proof.Machine
end

