-- ==== Sys2Proof/Proofs/Comes.lean ====
section
/-! SUPPORT. Events that come to a change of other blocks than RI and to one answer, and which blocks a change leaves. -/

namespace Sys2Proof.Machine
open Sys2Proof

/-! ### A change of one block -/

section
variable {bs : List BlockId} {s u : State}

theorem sameBut_tb (hb : .tb ∈ bs) (h : u = { s with tb := u.tb, ri := u.ri, eventNo := u.eventNo, pending := u.pending }) : SameBut bs s u := by
  rw [h]
  exact ⟨fun n => (n hb).elim, fun _ => rfl, fun _ => rfl, fun _ => rfl, fun _ => rfl, fun _ => rfl, fun _ => rfl, fun _ => rfl, fun _ => rfl, fun _ => rfl⟩

theorem sameBut_dp (hb : .dp ∈ bs) (h : u = { s with dp := u.dp, ri := u.ri, eventNo := u.eventNo, pending := u.pending }) : SameBut bs s u := by
  rw [h]
  exact ⟨fun _ => rfl, fun n => (n hb).elim, fun _ => rfl, fun _ => rfl, fun _ => rfl, fun _ => rfl, fun _ => rfl, fun _ => rfl, fun _ => rfl, fun _ => rfl⟩

theorem sameBut_se (hb : .se ∈ bs) (h : u = { s with se := u.se, ri := u.ri, eventNo := u.eventNo, pending := u.pending }) : SameBut bs s u := by
  rw [h]
  exact ⟨fun _ => rfl, fun _ => rfl, fun n => (n hb).elim, fun _ => rfl, fun _ => rfl, fun _ => rfl, fun _ => rfl, fun _ => rfl, fun _ => rfl, fun _ => rfl⟩

theorem sameBut_za (hb : .za ∈ bs) (h : u = { s with za := u.za, ri := u.ri, eventNo := u.eventNo, pending := u.pending }) : SameBut bs s u := by
  rw [h]
  exact ⟨fun _ => rfl, fun _ => rfl, fun _ => rfl, fun n => (n hb).elim, fun _ => rfl, fun _ => rfl, fun _ => rfl, fun _ => rfl, fun _ => rfl, fun _ => rfl⟩

theorem sameBut_pu (hb : .pu ∈ bs) (h : u = { s with pu := u.pu, ri := u.ri, eventNo := u.eventNo, pending := u.pending }) : SameBut bs s u := by
  rw [h]
  exact ⟨fun _ => rfl, fun _ => rfl, fun _ => rfl, fun _ => rfl, fun n => (n hb).elim, fun _ => rfl, fun _ => rfl, fun _ => rfl, fun _ => rfl, fun _ => rfl⟩

theorem sameBut_au (hb : .au ∈ bs) (h : u = { s with au := u.au, ri := u.ri, eventNo := u.eventNo, pending := u.pending }) : SameBut bs s u := by
  rw [h]
  exact ⟨fun _ => rfl, fun _ => rfl, fun _ => rfl, fun _ => rfl, fun _ => rfl, fun n => (n hb).elim, fun _ => rfl, fun _ => rfl, fun _ => rfl, fun _ => rfl⟩

theorem sameBut_dc (hb : .dc ∈ bs) (h : u = { s with dc := u.dc, ri := u.ri, eventNo := u.eventNo, pending := u.pending }) : SameBut bs s u := by
  rw [h]
  exact ⟨fun _ => rfl, fun _ => rfl, fun _ => rfl, fun _ => rfl, fun _ => rfl, fun _ => rfl, fun n => (n hb).elim, fun _ => rfl, fun _ => rfl, fun _ => rfl⟩

theorem sameBut_cu (hb : .cu ∈ bs) (h : u = { s with cu := u.cu, ri := u.ri, eventNo := u.eventNo, pending := u.pending }) : SameBut bs s u := by
  rw [h]
  exact ⟨fun _ => rfl, fun _ => rfl, fun _ => rfl, fun _ => rfl, fun _ => rfl, fun _ => rfl, fun _ => rfl, fun n => (n hb).elim, fun _ => rfl, fun _ => rfl⟩

theorem sameBut_lc (hb : .lc ∈ bs) (h : u = { s with lc := u.lc, ri := u.ri, eventNo := u.eventNo, pending := u.pending }) : SameBut bs s u := by
  rw [h]
  exact ⟨fun _ => rfl, fun _ => rfl, fun _ => rfl, fun _ => rfl, fun _ => rfl, fun _ => rfl, fun _ => rfl, fun _ => rfl, fun n => (n hb).elim, fun _ => rfl⟩

theorem sameBut_io (hb : .io ∈ bs) (h : u = { s with io := u.io, ri := u.ri, eventNo := u.eventNo, pending := u.pending }) : SameBut bs s u := by
  rw [h]
  exact ⟨fun _ => rfl, fun _ => rfl, fun _ => rfl, fun _ => rfl, fun _ => rfl, fun _ => rfl, fun _ => rfl, fun _ => rfl, fun _ => rfl, fun n => (n hb).elim⟩

end

/-! ### An event that comes to one answer -/

/-- A context has come to a state, but for records and mirrors, and then to a request's answer; it has nothing outstanding. -/
def Comes (u : State) (q : ReqHdr) (o : Outcome) (ws : List Word) (c : Ctx) : Prop :=
  ∃ d : Ctx, c = d.upd (State.answer q o ws) ∧ Noted u d.st ∧ d.ans = [] ∧ d.todo = []

/-- The state is a context's own but for other blocks than RI. -/
structure Beside (s u : State) : Prop where
  elapsed : u.elapsed = s.elapsed
  supply : u.supply = s.supply
  ri : u.ri = s.ri

section
variable {u : State} {q : ReqHdr} {o : Outcome} {ws : List Word} {c : Ctx}

theorem comes_answer (ha : c.ans = []) (ht : c.todo = []) (q : ReqHdr) (o : Outcome) (ws : List Word) :
    Comes c.st q o ws (c.upd (State.answer q o ws)) := ⟨c, rfl, Noted.refl _, ha, ht⟩

theorem comes_record (ha : c.ans = []) (ht : c.todo = []) (n : Note) (q : ReqHdr) (o : Outcome) (ws : List Word) :
    Comes c.st q o ws ((c.record n).upd (State.answer q o ws)) := ⟨c.record n, rfl, (Noted.refl _).record _, ha, ht⟩

theorem Comes.close (h : Comes u q o ws c) : ∃ v, Noted u v ∧ c.close = v.answer q o ws := by
  obtain ⟨d, rfl, hn, ha, ht⟩ := h
  exact ⟨d.st, hn, close_upd _ ha ht⟩

/-- A request taken earlier, answered in the event of a completion. -/
theorem Comes.ended {a : Access} {s : State} (h : Comes u q o ws c) (hc : Completing a s) (hq : q.slot < 32) (hlog : LogSound s.ri)
    (hws : ws.length ≤ 3) (hu : Beside s.completed.started u) : Ended q o ws s c.close ∧ RiOnly u c.close := by
  obtain ⟨v, hn, hcl⟩ := h.close
  rw [hcl]
  refine ⟨ended_of hc hq hlog hws ((Framed.of_ri hu.elapsed hu.supply hu.ri).trans hn.framed) (Framed.refl _) ?_,
    hn.toRiOnly.trans (riOnly_answer v q o ws)⟩
  exact (answer_accesses v q o ws).trans (hn.accesses.trans (congrArg RegionIf.accesses hu.ri))

/-- A request answered in the event that takes it. -/
theorem Comes.decided {i : Instr} {s : State} (h : Comes u q o ws (decideRequest i (s.deciding q))) (hi : reqHdr? i = some q)
    (hr : s.reaches q = true) (hlog : LogSound s.ri) (hws : ws.length ≤ 3) (hu : Beside (s.taking q) u) :
    ∃ t, exec i s = .next t ∧ Decided q o ws s t ∧ RiOnly u t := by
  obtain ⟨d, hd, hn, ha, ht⟩ := h
  exact ⟨_, exec_decided hi hr hlog hd hn ha ht hws hu.elapsed hu.supply hu.ri⟩

end

end Sys2Proof.Machine
end

