-- ==== Sys2Proof/Proofs/LoadSteps.lean ====
section
/-! SUPPORT. The staged records of a load: one more, or one at fault (R28 to R180, R43). -/

namespace Sys2Proof.Machine
open Sys2Proof

/-! ### One staged record -/

/-- The context in which a load's record has been read: the access has completed, and the event carries the request's tag. -/
def State.reading (tag : Word) (s : State) : Ctx := { s.completed.begin with tag := tag }

theorem recordDone_eq {t : TableCode} {s : State} (hc : Completing (.record t) s) (q : State → Option ReqHdr) (f : Ctx → Ctx) :
    recordDone t q f s = (f (s.reading (((q s).map (·.tag)).getD 0))).close :=
  completion_of_completing hc (p := (· == .record t)) (by simp) (fun b h => nomatch h) _

section
variable {α : Type} {l : Load α} {x : α} {k : Bool} {t : TableCode} {size : Nat} {put : Option (Load α) → State → State}
  {finish : Load α → Ctx → Ctx} {c : Ctx}

theorem step_midway (h : l.midway) (size : Nat) (x : α) (k : Bool) : l.step size (some (x, k)) = .more (l.grown size x k) := by
  refine if_neg ?_
  rw [List.length_append, List.length_singleton]
  exact Nat.not_le_of_lt h

theorem step_atLast (h : l.atLast) (size : Nat) (x : α) (k : Bool) : l.step size (some (x, k)) = .done (l.grown size x k) := by
  refine if_pos ?_
  rw [List.length_append, List.length_singleton]
  exact Nat.le_of_eq h.symm

theorem loadRecord_fault : loadRecord t l size none put finish c = (c.upd (put none)).upd (State.answer l.q .tableInvalid [numWord l.staged.length]) := rfl

theorem loadRecord_midway (h : l.midway) : loadRecord t l size (some (x, k)) put finish c =
    (c.upd (put (some (l.grown size x k)))).upd (State.ask (.record t)) := by
  unfold loadRecord
  rw [step_midway h]

theorem loadRecord_atLast (h : l.atLast) : loadRecord t l size (some (x, k)) put finish c = finish (l.grown size x k) c := by
  unfold loadRecord
  rw [step_atLast h]

end

/-! ### The load in progress is found -/

section
variable {c : Ctx}

theorem profileRead_of {l : Load Profile} (h : c.st.dp.profileLoad = some l) (d : List Byte) : profileRead d c =
    loadRecord .profiles l TableCode.profiles.size (unclamped (decodeProfile d)) putProfileLoad finishProfiles c := by
  unfold profileRead
  rw [h]

theorem calendarRead_of {l : Load Span} (h : c.st.dp.calendarLoad = some l) (d : List Byte) : calendarRead d c =
    loadRecord .calendar l TableCode.calendar.size (unclamped (decodeSpan d)) putCalendarLoad finishCalendar c := by
  unfold calendarRead
  rw [h]

theorem zoneRead_of {l : Load ZoneRec} (h : c.st.za.zoneLoad = some l) (d : List Byte) : zoneRead d c =
    loadRecord .zones l TableCode.zones.size (unclamped (decodeZone d)) putZoneLoad finishZones c := by
  unfold zoneRead
  rw [h]

theorem patternRead_of {l : Load Pattern} (h : c.st.pu.load = some l) (d : List Byte) : patternRead d c =
    loadRecord .patterns l TableCode.patterns.size (decodePattern d) putPatternLoad finishPatterns c := by
  unfold patternRead
  rw [h]

theorem channelRead_of {l : Load ChannelSet} (h : c.st.au.load = some l) (d : List Byte) : channelRead d c =
    loadRecord .channels l TableCode.channels.size (decodeChannel d) putChannelLoad finishChannels c := by
  unfold channelRead
  rw [h]

theorem drillRead_of {l : Load DrillRec} (h : c.st.dc.load = some l) (d : List Byte) : drillRead d c =
    loadRecord .drills l TableCode.drills.size (unclamped (decodeDrill c.st.pu.table d)) putDrillLoad finishDrills c := by
  unfold drillRead
  rw [h]

theorem memberRead_of {l : Load Member} (h : c.st.lc.memberLoad = some l) (d : List Byte) : memberRead d c =
    loadRecord .members l TableCode.members.size (unclamped (decodeMember l.staged d)) putMemberLoad finishMembers c := by
  unfold memberRead
  rw [h]

theorem lineRead_of {l : Load LineCfg} (h : c.st.lc.lineLoad = some l) (paths : List PathPair) (d : List Byte) : lineRead paths d c =
    loadRecord .lines l TableCode.lines.size (decodeLine d) putLineLoad (finishLines paths) c := by
  unfold lineRead
  rw [h]

theorem circuitRead_of {l : CircuitLoad} (h : c.st.cu.load = some l) (d : List Byte) : circuitRead d c =
    loadRecord .circuits l.load TableCode.circuits.size (decodeCircuit (c.st.circuit l.load.staged.length).pos d)
      (fun x => putCircuitLoad (x.map fun y => ⟨y, l.tolerance⟩)) (fun x => finishCircuits x l.tolerance) c := by
  unfold circuitRead
  rw [h]

/-- R62: a group with room for itself and for those after it. -/
theorem groupRead_of {l : Load ZoneSet} (h : c.st.za.groupLoad = some l) {d : List Byte}
    (hroom : l.nextOff + (1 + byteAt d 0) + (l.count - l.staged.length - 1) ≤ 0x100000) : groupRead d c =
    loadRecord .groups l (1 + byteAt d 0) (unclamped (decodeGroup d)) putGroupLoad finishGroups c := by
  unfold groupRead
  rw [h]
  exact if_neg (Nat.not_lt_of_le hroom)

/-- R62: a group that leaves too little room. -/
theorem groupRead_of_noRoom {l : Load ZoneSet} (h : c.st.za.groupLoad = some l) {d : List Byte}
    (hroom : 0x100000 < l.nextOff + (1 + byteAt d 0) + (l.count - l.staged.length - 1)) : groupRead d c =
    (c.upd (putGroupLoad none)).upd (State.refuse l.q .regionOffset) := by
  unfold groupRead
  rw [h]
  exact if_pos hroom

/-- R180: the header of the IO table. -/
theorem ioRead_header {l : IoLoad} (h : c.st.io.load = some l) (hh : l.header = none) {d : List Byte} {g : Bool × BitVec 6}
    (hd : decodeIoHeader d = some g) : ioRead d c = nextIo { l with header := some g } 4 c := by
  unfold ioRead
  simp only [h, hh, hd]

theorem ioRead_badHeader {l : IoLoad} (h : c.st.io.load = some l) (hh : l.header = none) {d : List Byte}
    (hd : decodeIoHeader d = none) : ioRead d c = ioFault l 0 c := by
  unfold ioRead
  simp only [h, hh, hd]

/-- R180: an input's record. -/
theorem ioRead_input {l : IoLoad} {g : Bool × BitVec 6} (h : c.st.io.load = some l) (hh : l.header = some g) (hi : l.ins.length < 12)
    {d : List Byte} {x : InFunc × Nat} {k : Bool} (hd : decodeInput l.ins.length d = some (x, k)) :
    ioRead d c = nextIo { l with ins := l.ins ++ [x], clamped := l.clamped || k } 6 c := by
  unfold ioRead
  simp only [h, hh, if_pos hi, hd]

theorem ioRead_badInput {l : IoLoad} {g : Bool × BitVec 6} (h : c.st.io.load = some l) (hh : l.header = some g) (hi : l.ins.length < 12)
    {d : List Byte} (hd : decodeInput l.ins.length d = none) : ioRead d c = ioFault l l.ins.length c := by
  unfold ioRead
  simp only [h, hh, if_pos hi, hd]

/-- R180: an output's record. -/
theorem ioRead_output {l : IoLoad} {g : Bool × BitVec 6} (h : c.st.io.load = some l) (hh : l.header = some g) (hi : 12 ≤ l.ins.length)
    {d : List Byte} {x : OutFunc} (hd : decodeOutput l.outs.length d = some x) :
    ioRead d c = if l.outs.length + 1 ≥ 12 then finishIo { l with outs := l.outs ++ [x] } g.1 g.2 c
      else nextIo { l with outs := l.outs ++ [x] } 1 c := by
  unfold ioRead
  simp only [h, hh, if_neg (Nat.not_lt_of_le hi), hd, List.length_append, List.length_singleton]

theorem ioRead_badOutput {l : IoLoad} {g : Bool × BitVec 6} (h : c.st.io.load = some l) (hh : l.header = some g) (hi : 12 ≤ l.ins.length)
    {d : List Byte} (hd : decodeOutput l.outs.length d = none) : ioRead d c = ioFault l (12 + l.outs.length) c := by
  unfold ioRead
  simp only [h, hh, if_neg (Nat.not_lt_of_le hi), hd]

end

theorem unclamped_of {α : Type} {r : Option α} {x : α} (h : r = some x) : unclamped r = some (x, false) := congrArg unclamped h

theorem unclamped_none {α : Type} {r : Option α} (h : r = none) : unclamped r = none := congrArg unclamped h

/-! ### The schedule switch (R43) -/

/-- The time of the staged entry before the next. -/
def Switch.floor (w : Switch) : Nat := (w.load.staged.getLast?.map (·.time)).getD 0

theorem entryRead_completes {s : State} (hc : Completing .scheduleEntry s) (data : List Byte) :
    completion (· == .scheduleEntry) (fun _ c => entryRead data { c with tag := (s.se.switch.map (·.load.q.tag)).getD 0 }) s
    = (entryRead data (s.reading ((s.se.switch.map (·.load.q.tag)).getD 0))).close :=
  completion_of_completing hc (p := (· == .scheduleEntry)) (by simp) (fun b h => nomatch h) _

section
variable {c : Ctx} {w : Switch} {d : List Byte}

theorem entryRead_midway (h : c.st.se.switch = some w) (hm : w.load.midway) {x : Entry}
    (hd : decodeEntry c.st.pu.table c.st.za.groups c.st.dc.records w.floor d = some x) : entryRead d c =
    (c.upd (putSwitch (some { w with load := w.load.grown 20 x false }))).upd (State.ask .scheduleEntry) := by
  unfold Switch.floor at hd
  unfold entryRead
  simp only [h, hd, unclamped, Option.map_some, step_midway hm]
  rfl

theorem entryRead_atLast (h : c.st.se.switch = some w) (hm : w.load.atLast) {x : Entry}
    (hd : decodeEntry c.st.pu.table c.st.za.groups c.st.dc.records w.floor d = some x) : entryRead d c =
    finishSwitch { w with load := w.load.grown 20 x false } c := by
  unfold Switch.floor at hd
  unfold entryRead
  simp only [h, hd, unclamped, Option.map_some, step_atLast hm]
  rfl

theorem entryRead_bad (h : c.st.se.switch = some w)
    (hd : decodeEntry c.st.pu.table c.st.za.groups c.st.dc.records w.floor d = none) : entryRead d c =
    (c.upd (putSwitch none)).upd (State.answer w.load.q .tableInvalid [numWord w.load.staged.length]) := by
  unfold Switch.floor at hd
  unfold entryRead
  simp only [h, hd, unclamped, Option.map_none]
  rfl

end

/-! ### A load goes on -/

/-- A reading that comes to changes of state alone. -/
theorem recordDone_upd {t : TableCode} {s : State} (hc : Completing (.record t) s) {q : State → Option ReqHdr} {f : Ctx → Ctx} {g h : State → State}
    (hf : ∀ tag, f (s.reading tag) = ((s.reading tag).upd g).upd h) : recordDone t q f s = h (g s.completed.started) := by
  rw [recordDone_eq hc, hf]
  exact close_upd h rfl rfl

theorem recordDone_midway {α : Type} {l : Load α} {x : α} {k : Bool} {t : TableCode} {size : Nat} {r : Option (α × Bool)}
    {put : Option (Load α) → State → State} {finish : Load α → Ctx → Ctx} {s : State} {q : State → Option ReqHdr} {f : Ctx → Ctx}
    (hc : Completing (.record t) s) (hf : ∀ tag, f (s.reading tag) = loadRecord t l size r put finish (s.reading tag)) (hr : r = some (x, k))
    (hm : l.midway) : recordDone t q f s = (put (some (l.grown size x k)) s.completed.started).ask (.record t) := by
  subst hr
  exact recordDone_upd hc fun tag => (hf tag).trans (loadRecord_midway hm)

/-- Settles O42: each load is found in its block, its record is read by the decoder the statement names, and `loadRecord_midway` says the rest. -/
theorem loadsGoOn : Obligations.LoadsGoOn := by
  intro data paths k s
  refine ⟨fun l x hc hl hm hd => ?_, fun l x hc hl hm hd => ?_, fun l x hc hl hm hd => ?_, fun l x hc hl hm hroom hd => ?_, fun l x hc hl hm hd => ?_,
    fun l x hc hl hm hd => ?_, fun l x hc hl hm hd => ?_, fun l x hc hl hm hd => ?_, fun l x hc hl hm hd => ?_, fun l x hc hl hm hd => ?_,
    fun l h hc hl hh hd => ?_, fun l h x hc hl hh hi hd => ?_, fun l h x hc hl hh hi ho hd => ?_, fun w x hc hl hm hd => ?_⟩
  all_goals refine congrArg Host.Outcome.next ?_
  · exact recordDone_midway hc (fun _ => profileRead_of hl data) (unclamped_of hd) hm
  · exact recordDone_midway hc (fun _ => calendarRead_of hl data) (unclamped_of hd) hm
  · exact recordDone_midway hc (fun _ => zoneRead_of hl data) (unclamped_of hd) hm
  · exact recordDone_midway hc (fun _ => groupRead_of hl (by omega)) (unclamped_of hd) hm
  · exact recordDone_midway hc (fun _ => patternRead_of hl data) hd hm
  · exact recordDone_midway hc (fun _ => channelRead_of hl data) hd hm
  · exact recordDone_midway hc (fun _ => drillRead_of hl data) (unclamped_of hd) hm
  · exact recordDone_midway hc (fun _ => circuitRead_of hl data) hd hm
  · exact recordDone_midway hc (fun _ => lineRead_of hl paths data) hd hm
  · exact recordDone_midway hc (fun _ => memberRead_of hl data) (unclamped_of hd) hm
  · exact recordDone_upd hc fun _ => ioRead_header hl hh hd
  · exact recordDone_upd hc fun _ => ioRead_input hl hh hi hd
  · exact recordDone_upd hc fun _ => (ioRead_output hl hh (Nat.le_of_eq hi.symm) hd).trans (if_neg (by omega))
  · rw [entryRead_completes hc, entryRead_midway (c := s.reading ((s.se.switch.map (·.load.q.tag)).getD 0)) hl hm hd]
    exact close_upd _ rfl rfl

/-! ### A load ends with a fault -/

theorem comes_fault {α : Type} {l : Load α} {t : TableCode} {size : Nat} {r : Option (α × Bool)} {put : Option (Load α) → State → State}
    {finish : Load α → Ctx → Ctx} {c d : Ctx} (hf : d = loadRecord t l size r put finish c) (hr : r = none) (ha : c.ans = []) (ht : c.todo = []) :
    Comes (put none c.st) l.q .tableInvalid [numWord l.staged.length] d := by
  subst hf hr
  exact comes_answer (c := c.upd (put none)) ha ht _ _ _

/-- The event of a staged record that comes to an answer. -/
theorem recordDone_comes {t : TableCode} {s u : State} {q : ReqHdr} {o : Outcome} {ws : List Word} {qf : State → Option ReqHdr} {f : Ctx → Ctx}
    (hc : Completing (.record t) s) (hq : q.slot < 32) (hlog : LogSound s.ri) (hws : ws.length ≤ 3) (hu : Beside s.completed.started u)
    (h : ∀ tag, Comes u q o ws (f (s.reading tag))) :
    Ended q o ws s (recordDone t qf f s) ∧ RiOnly u (recordDone t qf f s) := by
  rw [recordDone_eq hc]
  exact (h _).ended hc hq hlog hws hu

/-- Settles O43: each load is found in its block, the decoder finds the record at fault, and the load ends with its answer alone. -/
theorem loadFaultsLeaveTables : Obligations.LoadFaultsLeaveTables := by
  intro data paths s hlog
  refine ⟨fun l hc hl hq hd => ?_, fun l hc hl hq hd => ?_, fun l hc hl hq hd => ?_, fun l hc hl hq hroom hd => ?_, fun l hc hl hq hroom => ?_,
    fun l hc hl hq hd => ?_, fun l hc hl hq hd => ?_, fun l hc hl hq hd => ?_, fun l hc hl hq hd => ?_, fun l hc hl hq hd => ?_,
    fun l hc hl hq hd => ?_, fun l h hc hl hq hh hi hd => ?_, fun l hc hl hq hh hd => ?_, fun l h hc hl hq hh hi hd => ?_, fun w hc hl hq hd => ?_⟩
  · obtain ⟨hend, ho⟩ := recordDone_comes (u := putProfileLoad none s.completed.started) (f := profileRead data) hc hq hlog (Nat.le_of_ble_eq_true rfl) ⟨rfl, rfl, rfl⟩
      (fun _ => comes_fault (profileRead_of hl data) (unclamped_none hd) rfl rfl)
    exact ⟨_, rfl, hend, ho.dp, (sameBut_dp (s := s) (u := putProfileLoad none s.completed.started) (List.mem_singleton_self _) rfl).of_only ho⟩
  · obtain ⟨hend, ho⟩ := recordDone_comes (u := putCalendarLoad none s.completed.started) (f := calendarRead data) hc hq hlog (Nat.le_of_ble_eq_true rfl) ⟨rfl, rfl, rfl⟩
      (fun _ => comes_fault (calendarRead_of hl data) (unclamped_none hd) rfl rfl)
    exact ⟨_, rfl, hend, ho.dp, (sameBut_dp (s := s) (u := putCalendarLoad none s.completed.started) (List.mem_singleton_self _) rfl).of_only ho⟩
  · obtain ⟨hend, ho⟩ := recordDone_comes (u := putZoneLoad none s.completed.started) (f := zoneRead data) hc hq hlog (Nat.le_of_ble_eq_true rfl) ⟨rfl, rfl, rfl⟩
      (fun _ => comes_fault (zoneRead_of hl data) (unclamped_none hd) rfl rfl)
    exact ⟨_, rfl, hend, ho.za, (sameBut_za (s := s) (u := putZoneLoad none s.completed.started) (List.mem_singleton_self _) rfl).of_only ho⟩
  · obtain ⟨hend, ho⟩ := recordDone_comes (u := putGroupLoad none s.completed.started) (f := groupRead data) hc hq hlog (Nat.le_of_ble_eq_true rfl) ⟨rfl, rfl, rfl⟩
      (fun _ => comes_fault (groupRead_of hl (by omega)) (unclamped_none hd) rfl rfl)
    exact ⟨_, rfl, hend, ho.za, (sameBut_za (s := s) (u := putGroupLoad none s.completed.started) (List.mem_singleton_self _) rfl).of_only ho⟩
  · obtain ⟨hend, ho⟩ := recordDone_comes (u := putGroupLoad none s.completed.started) (f := groupRead data) hc hq hlog (ws := []) (Nat.zero_le 3) ⟨rfl, rfl, rfl⟩
      (fun tag => by
      rw [groupRead_of_noRoom (c := s.reading tag) hl (by omega)]
      exact comes_answer (c := (s.reading tag).upd (putGroupLoad none)) rfl rfl _ _ _)
    exact ⟨_, rfl, hend, ho.za, (sameBut_za (s := s) (u := putGroupLoad none s.completed.started) (List.mem_singleton_self _) rfl).of_only ho⟩
  · obtain ⟨hend, ho⟩ := recordDone_comes (u := putPatternLoad none s.completed.started) (f := patternRead data) hc hq hlog (Nat.le_of_ble_eq_true rfl) ⟨rfl, rfl, rfl⟩
      (fun _ => comes_fault (patternRead_of hl data) hd rfl rfl)
    exact ⟨_, rfl, hend, ho.pu, (sameBut_pu (s := s) (u := putPatternLoad none s.completed.started) (List.mem_singleton_self _) rfl).of_only ho⟩
  · obtain ⟨hend, ho⟩ := recordDone_comes (u := putChannelLoad none s.completed.started) (f := channelRead data) hc hq hlog (Nat.le_of_ble_eq_true rfl) ⟨rfl, rfl, rfl⟩
      (fun _ => comes_fault (channelRead_of hl data) hd rfl rfl)
    exact ⟨_, rfl, hend, ho.au, (sameBut_au (s := s) (u := putChannelLoad none s.completed.started) (List.mem_singleton_self _) rfl).of_only ho⟩
  · obtain ⟨hend, ho⟩ := recordDone_comes (u := putDrillLoad none s.completed.started) (f := drillRead data) hc hq hlog (Nat.le_of_ble_eq_true rfl) ⟨rfl, rfl, rfl⟩
      (fun _ => comes_fault (drillRead_of hl data) (unclamped_none hd) rfl rfl)
    exact ⟨_, rfl, hend, ho.dc, (sameBut_dc (s := s) (u := putDrillLoad none s.completed.started) (List.mem_singleton_self _) rfl).of_only ho⟩
  · obtain ⟨hend, ho⟩ := recordDone_comes (u := putCircuitLoad none s.completed.started) (f := circuitRead data) hc hq hlog (Nat.le_of_ble_eq_true rfl) ⟨rfl, rfl, rfl⟩
      (fun _ => comes_fault (circuitRead_of hl data) hd rfl rfl)
    exact ⟨_, rfl, hend, ho.cu, (sameBut_cu (s := s) (u := putCircuitLoad none s.completed.started) (List.mem_singleton_self _) rfl).of_only ho⟩
  · obtain ⟨hend, ho⟩ := recordDone_comes (u := putLineLoad none s.completed.started) (f := lineRead paths data) hc hq hlog (Nat.le_of_ble_eq_true rfl) ⟨rfl, rfl, rfl⟩
      (fun _ => comes_fault (lineRead_of hl paths data) hd rfl rfl)
    exact ⟨_, rfl, hend, ho.lc, (sameBut_lc (s := s) (u := putLineLoad none s.completed.started) (List.mem_singleton_self _) rfl).of_only ho⟩
  · obtain ⟨hend, ho⟩ := recordDone_comes (u := putMemberLoad none s.completed.started) (f := memberRead data) hc hq hlog (Nat.le_of_ble_eq_true rfl) ⟨rfl, rfl, rfl⟩
      (fun _ => comes_fault (memberRead_of hl data) (unclamped_none hd) rfl rfl)
    exact ⟨_, rfl, hend, ho.lc, (sameBut_lc (s := s) (u := putMemberLoad none s.completed.started) (List.mem_singleton_self _) rfl).of_only ho⟩
  · obtain ⟨hend, ho⟩ := recordDone_comes (u := putIoLoad none s.completed.started) (f := ioRead data) hc hq hlog (Nat.le_of_ble_eq_true rfl) ⟨rfl, rfl, rfl⟩
      (fun tag => by
      rw [ioRead_badInput (c := s.reading tag) hl hh hi hd]
      exact comes_answer (c := (s.reading tag).upd (putIoLoad none)) rfl rfl _ _ _)
    exact ⟨_, rfl, hend, ho.io, (sameBut_io (s := s) (u := putIoLoad none s.completed.started) (List.mem_singleton_self _) rfl).of_only ho⟩
  · obtain ⟨hend, ho⟩ := recordDone_comes (u := putIoLoad none s.completed.started) (f := ioRead data) hc hq hlog (Nat.le_of_ble_eq_true rfl) ⟨rfl, rfl, rfl⟩
      (fun tag => by
      rw [ioRead_badHeader (c := s.reading tag) hl hh hd]
      exact comes_answer (c := (s.reading tag).upd (putIoLoad none)) rfl rfl _ _ _)
    exact ⟨_, rfl, hend, ho.io, (sameBut_io (s := s) (u := putIoLoad none s.completed.started) (List.mem_singleton_self _) rfl).of_only ho⟩
  · obtain ⟨hend, ho⟩ := recordDone_comes (u := putIoLoad none s.completed.started) (f := ioRead data) hc hq hlog (Nat.le_of_ble_eq_true rfl) ⟨rfl, rfl, rfl⟩
      (fun tag => by
      rw [ioRead_badOutput (c := s.reading tag) hl hh hi hd]
      exact comes_answer (c := (s.reading tag).upd (putIoLoad none)) rfl rfl _ _ _)
    exact ⟨_, rfl, hend, ho.io, (sameBut_io (s := s) (u := putIoLoad none s.completed.started) (List.mem_singleton_self _) rfl).of_only ho⟩
  · have he := entryRead_bad (c := s.reading ((s.se.switch.map (·.load.q.tag)).getD 0)) hl hd
    have hcomes := comes_answer (c := (s.reading ((s.se.switch.map (·.load.q.tag)).getD 0)).upd (putSwitch none)) rfl rfl w.load.q .tableInvalid
      [numWord w.load.staged.length]
    rw [← he] at hcomes
    obtain ⟨hend, ho⟩ := hcomes.ended hc hq hlog (Nat.le_of_ble_eq_true rfl) ⟨rfl, rfl, rfl⟩
    exact ⟨_, congrArg Host.Outcome.next (entryRead_completes hc data), hend, ho.se,
      (sameBut_se (s := s) (u := putSwitch none s.completed.started) (List.mem_singleton_self _) rfl).of_only ho⟩

end Sys2Proof.Machine
end

