-- ==== Sys2Proof/Proofs/LoadEnds.lean ====
section
/-! SUPPORT. The event that ends a load, and what it leaves (R28, R30, R61, R62, R85, R86, R101, R126). -/

namespace Sys2Proof.Machine
open Sys2Proof

/-! ### What each table takes -/

def State.profilesTo (xs : List Profile) (s : State) : State := { s with dp := { s.dp with profileLoad := none, profiles := filled 16 xs Profile.blank } }
def State.calendarTo (xs : List Span) (s : State) : State := { s with dp := { s.dp with calendarLoad := none, calendar := xs } }
def State.zoneTableTo (xs : List ZoneRec) (s : State) : State := { s with za := { s.za with
  zoneLoad := none, table := filled 64 xs ZoneRec.blank, zones := List.replicate 64 ZoneDyn.clear } }
def State.groupsTo (xs : List ZoneSet) (s : State) : State := { s with za := { s.za with groupLoad := none, groups := filled 64 xs 0 } }
def State.patternsTo (xs : List Pattern) (s : State) : State := { s with pu := { s.pu with
  load := none, table := filled 31 xs Pattern.empty, version := (s.pu.version + 1) % 256 } }
def State.channelsTo (xs : List ChannelSet) (s : State) : State := { s with au := { s.au with
  load := none, channels := s.au.channels.zipWith (fun k g => { k with cfg := g }) (filled 4 xs ChannelSet.default) } }
def State.drillsTo (xs : List DrillRec) (s : State) : State := { s with dc := { s.dc with
  load := none, records := xs ++ (s.dc.records.drop xs.length).map fun r => { r with defined := false } } }

/-! ### Lines with nothing on them hear no new version (R97) -/

theorem versionChanged_of_bare {c : Ctx} (h : BareLines c.st) : versionChanged c = c := by
  unfold versionChanged
  generalize List.range 8 = ls
  induction ls with
  | nil => rfl
  | cons ln ls ih =>
    have hl := h ln
    rw [Ctx.each_cons, hl.nodes, Ctx.each_nil, settleLine_of_empty hl.queue hl.deferred]
    exact ih

/-! ### The event that ends a load -/

section
variable {c : Ctx} (ha : c.ans = []) (ht : c.todo = [])
include ha ht

theorem comes_profiles (l : Load Profile) : Comes (c.st.profilesTo l.staged) l.q .done [] (finishProfiles l c) :=
  comes_record (c := (c.upd (putProfileLoad none)).upd fun s => { s with dp := { s.dp with profiles := filled 16 l.staged Profile.blank } }) ha ht _ _ _ _

theorem comes_calendar (l : Load Span) : Comes (c.st.calendarTo l.staged) l.q .done [] (finishCalendar l c) :=
  comes_record (c := (c.upd (putCalendarLoad none)).upd fun s => { s with dp := { s.dp with calendar := l.staged } }) ha ht _ _ _ _

theorem comes_zones (h : c.st.zonesQuiet = true) (l : Load ZoneRec) : Comes (c.st.zoneTableTo l.staged) l.q .done [] (finishZones l c) := by
  unfold finishZones
  rw [if_pos h]
  exact comes_record (c := (c.upd (putZoneLoad none)).upd fun s => { s with za := { s.za with
    table := filled 64 l.staged ZoneRec.blank, zones := List.replicate 64 ZoneDyn.clear } }) ha ht _ _ _ _

theorem comes_zones_busy (h : c.st.zonesQuiet = false) (l : Load ZoneRec) : Comes (putZoneLoad none c.st) l.q .busy [] (finishZones l c) := by
  unfold finishZones
  rw [if_neg (by rw [h]; exact Bool.false_ne_true)]
  exact comes_answer (c := c.upd (putZoneLoad none)) ha ht _ _ _

theorem comes_groups (h : c.st.zonesQuiet = true) (l : Load ZoneSet) : Comes (c.st.groupsTo l.staged) l.q .done [] (finishGroups l c) := by
  unfold finishGroups
  rw [if_pos h]
  exact comes_record (c := (c.upd (putGroupLoad none)).upd fun s => { s with za := { s.za with groups := filled 64 l.staged 0 } }) ha ht _ _ _ _

theorem comes_groups_busy (h : c.st.zonesQuiet = false) (l : Load ZoneSet) : Comes (putGroupLoad none c.st) l.q .busy [] (finishGroups l c) := by
  unfold finishGroups
  rw [if_neg (by rw [h]; exact Bool.false_ne_true)]
  exact comes_answer (c := c.upd (putGroupLoad none)) ha ht _ _ _

theorem comes_patterns (h : patternsInUse c.st = false) (hb : BareLines c.st) (l : Load Pattern) :
    Comes (c.st.patternsTo l.staged) l.q (.ofClamped l.clamped) [] (finishPatterns l c) := by
  unfold finishPatterns
  rw [if_neg (by rw [h]; exact Bool.false_ne_true)]
  dsimp only
  rw [versionChanged_of_bare]
  · exact comes_record (c := (c.upd (putPatternLoad none)).upd fun s => { s with pu := { s.pu with
      table := filled 31 l.staged Pattern.empty, version := (s.pu.version + 1) % 256 } }) ha ht _ _ _ _
  · exact hb

theorem comes_patterns_busy (h : patternsInUse c.st = true) (l : Load Pattern) : Comes (putPatternLoad none c.st) l.q .busy [] (finishPatterns l c) := by
  unfold finishPatterns
  rw [if_pos h]
  exact comes_answer (c := c.upd (putPatternLoad none)) ha ht _ _ _

theorem comes_channels (h : channelsInUse c.st = false) (l : Load ChannelSet) :
    Comes (c.st.channelsTo l.staged) l.q (.ofClamped l.clamped) [] (finishChannels l c) := by
  unfold finishChannels
  rw [if_neg (by rw [h]; exact Bool.false_ne_true)]
  exact comes_record (c := (c.upd (putChannelLoad none)).upd fun s => { s with au := { s.au with
    channels := s.au.channels.zipWith (fun k g => { k with cfg := g }) (filled 4 l.staged ChannelSet.default) } }) ha ht _ _ _ _

theorem comes_channels_busy (h : channelsInUse c.st = true) (l : Load ChannelSet) : Comes (putChannelLoad none c.st) l.q .busy [] (finishChannels l c) := by
  unfold finishChannels
  rw [if_pos h]
  exact comes_answer (c := c.upd (putChannelLoad none)) ha ht _ _ _

theorem comes_drills (h : c.st.dc.active = none) (l : Load DrillRec) : Comes (c.st.drillsTo l.staged) l.q .done [] (finishDrills l c) := by
  unfold finishDrills
  rw [if_neg (by rw [h]; exact Bool.false_ne_true)]
  exact comes_record (c := (c.upd (putDrillLoad none)).upd fun s => { s with dc := { s.dc with
    records := l.staged ++ (c.st.dc.records.drop l.staged.length).map fun r => { r with defined := false } } }) ha ht _ _ _ _

theorem comes_drills_busy (h : c.st.dc.active ≠ none) (l : Load DrillRec) : Comes (putDrillLoad none c.st) l.q .busy [] (finishDrills l c) := by
  unfold finishDrills
  rw [if_pos (Option.isSome_iff_ne_none.mpr h)]
  exact comes_answer (c := c.upd (putDrillLoad none)) ha ht _ _ _

end

/-! ### The last staged record -/

theorem recordDone_atLast {α : Type} {l : Load α} {x : α} {k : Bool} {t : TableCode} {size : Nat} {r : Option (α × Bool)}
    {put : Option (Load α) → State → State} {finish : Load α → Ctx → Ctx} {s u : State} {qf : State → Option ReqHdr} {f : Ctx → Ctx} {o : Outcome}
    (hc : Completing (.record t) s) (hq : l.q.slot < 32) (hlog : LogSound s.ri)
    (hf : ∀ tag, f (s.reading tag) = loadRecord t l size r put finish (s.reading tag)) (hr : r = some (x, k)) (hm : l.atLast)
    (hu : Beside s.completed.started u) (h : ∀ tag, Comes u l.q o [] (finish (l.grown size x k) (s.reading tag))) :
    Ended l.q o [] s (recordDone t qf f s) ∧ RiOnly u (recordDone t qf f s) := by
  subst hr
  exact recordDone_comes hc hq hlog (Nat.zero_le 3) hu fun tag => by
    rw [hf tag, loadRecord_atLast hm]
    exact h tag

theorem ofClamped_or (a b : Bool) : Outcome.ofClamped (a || b) = if a = true ∨ b = true then .doneClamped else .done := by
  cases a <;> cases b <;> rfl

/-- A place of a table: the record read for it, or the default. -/
theorem filled_getElem? {α : Type} {n i : Nat} (h : i < n) (xs : List α) (d : α) : (filled n xs d)[i]? = some ((xs[i]?).getD d) := by
  unfold filled
  by_cases hi : i < xs.length
  · rw [List.getElem?_append_left hi, List.getElem?_eq_getElem hi]
    rfl
  · rw [List.getElem?_append_right (Nat.le_of_not_lt hi), List.getElem?_replicate, if_pos (by omega),
      List.getElem?_eq_none (Nat.le_of_not_lt hi)]
    rfl

/-- R101: a channel takes its configuration, or the default one. -/
theorem channelTableTo_channel {s : State} (hc : Counts s) (xs : List ChannelSet) {c : Nat} (h : c < 4) :
    (s.channelsTo xs).channel c = { s.channel c with cfg := (xs[c]?).getD ⟨1024, 2000, 500⟩ } := by
  have hlen : c < s.au.channels.length := by rw [hc.channels]; exact h
  unfold State.channel State.channelsTo
  rw [List.getD_eq_getElem?_getD, List.getD_eq_getElem?_getD, List.getElem?_zipWith, filled_getElem? h, List.getElem?_eq_getElem hlen]
  rfl

/-- R126: the records past those read become undefined, and keep their other fields. -/
theorem drillsTo_read {s : State} {xs : List DrillRec} {i : Nat} (h : i < xs.length) : (s.drillsTo xs).dc.records[i]? = xs[i]? :=
  List.getElem?_append_left h

theorem drillsTo_rest {s : State} {xs : List DrillRec} {i : Nat} {r : DrillRec} (h : xs.length ≤ i) (hr : s.dc.records[i]? = some r) :
    (s.drillsTo xs).dc.records[i]? = some { r with defined := false } := by
  refine (List.getElem?_append_right h).trans ?_
  rw [List.getElem?_map, List.getElem?_drop, Nat.add_sub_cancel' h, hr]
  rfl

theorem zones_cleared (z : Nat) : (List.replicate 64 ZoneDyn.clear).getD z ZoneDyn.clear = ZoneDyn.clear := by
  rw [List.getD_eq_getElem?_getD, List.getElem?_replicate]
  split <;> rfl

/-- Settles O44: the last record ends its load, and the event that ends a load has come to what its table takes, or to BUSY. -/
theorem loadsFillTables : Obligations.LoadsFillTables := by
  intro data k s hlog
  refine ⟨fun l x hc hl hq hm hd => ?_, fun l x hc hl hq hm hd => ?_, fun l x hc hl hq hm hd => ?_, fun l x hc hl hq hm hroom hd => ?_,
    fun l x hc hl hq hm hd => ⟨fun hi hb => ?_, fun hi => ?_⟩, fun l x hc hl hq hm hd => ⟨fun hi hn => ?_, fun hi => ?_⟩,
    fun l x hc hl hq hm hd => ⟨fun hi => ?_, fun hi => ?_⟩⟩
  · obtain ⟨hend, ho⟩ := recordDone_atLast (u := s.completed.started.profilesTo (l.staged ++ [x])) (f := profileRead data) hc hq hlog
      (fun _ => profileRead_of hl data) (unclamped_of hd) hm ⟨rfl, rfl, rfl⟩ fun _ => comes_profiles rfl rfl _
    exact ⟨_, rfl, hend, (sameBut_dp (List.mem_singleton_self _) rfl).of_only ho, ho.dp⟩
  · obtain ⟨hend, ho⟩ := recordDone_atLast (u := s.completed.started.calendarTo (l.staged ++ [x])) (f := calendarRead data) hc hq hlog
      (fun _ => calendarRead_of hl data) (unclamped_of hd) hm ⟨rfl, rfl, rfl⟩ fun _ => comes_calendar rfl rfl _
    exact ⟨_, rfl, hend, (sameBut_dp (List.mem_singleton_self _) rfl).of_only ho, ho.dp⟩
  · cases hz : s.zonesQuiet with
    | true =>
      obtain ⟨hend, ho⟩ := recordDone_atLast (u := s.completed.started.zoneTableTo (l.staged ++ [x])) (f := zoneRead data) hc hq hlog
        (fun _ => zoneRead_of hl data) (unclamped_of hd) hm ⟨rfl, rfl, rfl⟩ fun _ => comes_zones rfl rfl hz _
      refine ⟨_, rfl, (sameBut_za (List.mem_singleton_self _) rfl).of_only ho, fun _ => ⟨hend, congrArg (·.table) ho.za, congrArg (·.zoneLoad) ho.za, congrArg (·.groups) ho.za,
        congrArg (·.feeds) ho.za, fun z => ?_⟩, fun h => nomatch h⟩
      rw [ho.zone]
      exact zones_cleared z
    | false =>
      obtain ⟨hend, ho⟩ := recordDone_atLast (u := putZoneLoad none s.completed.started) (f := zoneRead data) hc hq hlog
        (fun _ => zoneRead_of hl data) (unclamped_of hd) hm ⟨rfl, rfl, rfl⟩ fun _ => comes_zones_busy rfl rfl hz _
      exact ⟨_, rfl, (sameBut_za (List.mem_singleton_self _) rfl).of_only ho, fun h => (nomatch h), fun _ => ⟨hend, ho.za⟩⟩
  · have hsize : l.nextOff + (1 + byteAt data 0) + (l.count - l.staged.length - 1) ≤ 0x100000 := by
      unfold Load.atLast at hm
      omega
    cases hz : s.zonesQuiet with
    | true =>
      obtain ⟨hend, ho⟩ := recordDone_atLast (u := s.completed.started.groupsTo (l.staged ++ [x])) (f := groupRead data) hc hq hlog
        (fun _ => groupRead_of hl hsize) (unclamped_of hd) hm ⟨rfl, rfl, rfl⟩ fun _ => comes_groups rfl rfl hz _
      exact ⟨_, rfl, (sameBut_za (List.mem_singleton_self _) rfl).of_only ho, fun _ => ⟨hend, ho.za⟩, fun h => nomatch h⟩
    | false =>
      obtain ⟨hend, ho⟩ := recordDone_atLast (u := putGroupLoad none s.completed.started) (f := groupRead data) hc hq hlog
        (fun _ => groupRead_of hl hsize) (unclamped_of hd) hm ⟨rfl, rfl, rfl⟩ fun _ => comes_groups_busy rfl rfl hz _
      exact ⟨_, rfl, (sameBut_za (List.mem_singleton_self _) rfl).of_only ho, fun h => (nomatch h), fun _ => ⟨hend, ho.za⟩⟩
  · obtain ⟨hend, ho⟩ := recordDone_atLast (u := s.completed.started.patternsTo (l.staged ++ [x])) (f := patternRead data) hc hq hlog
        (fun _ => patternRead_of hl data) (hd) hm ⟨rfl, rfl, rfl⟩ fun _ => comes_patterns rfl rfl hi hb _
    rw [Load.grown, ofClamped_or] at hend
    exact ⟨_, rfl, hend, (sameBut_pu (List.mem_singleton_self _) rfl).of_only ho, ho.pu⟩
  · obtain ⟨hend, ho⟩ := recordDone_atLast (u := putPatternLoad none s.completed.started) (f := patternRead data) hc hq hlog
        (fun _ => patternRead_of hl data) (hd) hm ⟨rfl, rfl, rfl⟩ fun _ => comes_patterns_busy rfl rfl ((patternsInUse_iff s).mpr hi) _
    exact ⟨_, rfl, hend, (sameBut_pu (List.mem_singleton_self _) rfl).of_only ho, ho.pu⟩
  · obtain ⟨hend, ho⟩ := recordDone_atLast (u := s.completed.started.channelsTo (l.staged ++ [x])) (f := channelRead data) hc hq hlog
        (fun _ => channelRead_of hl data) (hd) hm ⟨rfl, rfl, rfl⟩ fun _ => comes_channels rfl rfl hi _
    rw [Load.grown, ofClamped_or] at hend
    refine ⟨_, rfl, hend, (sameBut_au (List.mem_singleton_self _) rfl).of_only ho, congrArg (·.load) ho.au, fun c h => ?_⟩
    rw [ho.channel]
    exact channelTableTo_channel hn _ h
  · obtain ⟨hend, ho⟩ := recordDone_atLast (u := putChannelLoad none s.completed.started) (f := channelRead data) hc hq hlog
        (fun _ => channelRead_of hl data) (hd) hm ⟨rfl, rfl, rfl⟩ fun _ => comes_channels_busy rfl rfl ((channelsInUse_iff s).mpr hi) _
    exact ⟨_, rfl, hend, (sameBut_au (List.mem_singleton_self _) rfl).of_only ho, ho.au⟩
  · obtain ⟨hend, ho⟩ := recordDone_atLast (u := s.completed.started.drillsTo (l.staged ++ [x])) (f := drillRead data) hc hq hlog
        (fun _ => drillRead_of hl data) (unclamped_of hd) hm ⟨rfl, rfl, rfl⟩ fun _ => comes_drills rfl rfl hi _
    have hlen : (l.staged ++ [x]).length = l.count := by rw [List.length_append, List.length_singleton]; exact hm
    refine ⟨_, rfl, hend, (sameBut_dc (List.mem_singleton_self _) rfl).of_only ho, congrArg (·.load) ho.dc, (congrArg (·.active) ho.dc).trans hi, fun i h => ?_, fun i r h hr => ?_⟩
    · rw [ho.dc]
      exact drillsTo_read (s := s.completed.started) (hlen.symm ▸ h)
    · rw [ho.dc]
      exact drillsTo_rest (s := s.completed.started) (hlen.symm ▸ h) hr
  · obtain ⟨hend, ho⟩ := recordDone_atLast (u := putDrillLoad none s.completed.started) (f := drillRead data) hc hq hlog
        (fun _ => drillRead_of hl data) (unclamped_of hd) hm ⟨rfl, rfl, rfl⟩ fun _ => comes_drills_busy rfl rfl hi _
    exact ⟨_, rfl, hend, (sameBut_dc (List.mem_singleton_self _) rfl).of_only ho, ho.dc⟩

end Sys2Proof.Machine
end

