-- ==== Sys2Proof/Proofs/BareLine.lean ====
section
/-! SUPPORT. What befalls a line with nothing on it: its starts and stops (R154 to R156, R173), and the events that touch place after place. -/

namespace Sys2Proof.Machine
open Sys2Proof

/-! ### Place after place -/

/-- An event that goes through places one by one: each step changes its own place alone, and keeps what all of them need. What the event so far has
to do with the state it has come to is the user's. -/
theorem each_places {α : Type} {n : Nat} (R : State → Ctx → Prop) (set : Nat → (α → α) → State → State) (get : State → Nat → α) (ok : State → Prop)
    (rel : Nat → α → α → Prop) (g : Nat → Ctx → Ctx)
    (hget : ∀ u i f, ok u → i < n → get (set i f u) i = f (get u i)) (hne : ∀ u i j f, j ≠ i → get (set i f u) j = get u j)
    (hstep : ∀ u c i, i < n → ok u → R u c → ∃ f, R (set i f u) (g i c) ∧ ok (set i f u) ∧ rel i (get u i) (f (get u i))) :
    ∀ (is : List Nat) (u : State) (c : Ctx), is.Nodup → (∀ i ∈ is, i < n) → ok u → R u c →
      ∃ v, R v (Ctx.each g is c) ∧ ok v ∧ (∀ i ∈ is, rel i (get u i) (get v i)) ∧ ∀ i, i ∉ is → get v i = get u i := by
  intro is
  induction is with
  | nil => exact fun u c _ _ hu h => ⟨u, h, hu, fun i hi => absurd hi List.not_mem_nil, fun _ _ => rfl⟩
  | cons i is ih =>
    intro u c hnd hlt hu h
    obtain ⟨hi, hnd⟩ := List.nodup_cons.mp hnd
    have hin := hlt i List.mem_cons_self
    obtain ⟨f, hr, hok, hrel⟩ := hstep u c i hin hu h
    obtain ⟨v, hv, hvok, hvr, hvn⟩ := ih (set i f u) (g i c) hnd (fun j hj => hlt j (List.mem_cons_of_mem _ hj)) hok hr
    refine ⟨v, hv, hvok, fun j hj => ?_, fun j hj => ?_⟩
    · rcases List.mem_cons.mp hj with rfl | hj
      · rw [hvn j hi, hget u j f hu hin]
        exact hrel
      · have hji : j ≠ i := fun h => hi (h ▸ hj)
        rw [← hne u i j f hji]
        exact hvr j hj
    · have hji : j ≠ i := fun h => hj (h ▸ List.mem_cons_self)
      have hj : j ∉ is := fun h => hj (List.mem_cons_of_mem _ h)
      rw [hvn j hj, hne u i j f hji]

theorem each_reached {α : Type} {n : Nat} (set : Nat → (α → α) → State → State) (get : State → Nat → α) (ok : State → Prop)
    (rel : Nat → α → α → Prop) (g : Nat → Ctx → Ctx)
    (hget : ∀ u i f, ok u → i < n → get (set i f u) i = f (get u i)) (hne : ∀ u i j f, j ≠ i → get (set i f u) j = get u j)
    (hstep : ∀ u c i, i < n → ok u → Reached u c → ∃ f, Reached (set i f u) (g i c) ∧ ok (set i f u) ∧ rel i (get u i) (f (get u i))) :
    ∀ (is : List Nat) (u : State) (c : Ctx), is.Nodup → (∀ i ∈ is, i < n) → ok u → Reached u c →
      ∃ v, Reached v (Ctx.each g is c) ∧ ok v ∧ (∀ i ∈ is, rel i (get u i) (get v i)) ∧ ∀ i, i ∉ is → get v i = get u i :=
  each_places Reached set get ok rel g hget hne hstep

/-! ### Circuits take their settings (R143) -/

theorem setCircuit_id (u : State) (i : Nat) : u.setCircuit i id = u := by
  unfold State.setCircuit
  rw [List.modify_id]

theorem circuitPoint_reached {u : State} {c : Ctx} (h : Reached u c) (i : Nat) :
    ∃ f, Reached (u.setCircuit i f) (circuitPoint i c) ∧ (f (u.circuit i)).cfg = (u.circuit i).cfg ∧ (f (u.circuit i)).pos = (u.circuit i).pos
      ∧ (f (u.circuit i)).polarity = (u.circuit i).polarity := by
  unfold circuitPoint
  dsimp only
  rw [h.alike.circuit]
  split
  · obtain ⟨f, hr, hf⟩ := circuitDecide_reached h i (u.circuit i).st
    have hk := resolved_kept u.minute? u.elapsed (u.circuit i).st (u.circuit i)
    exact ⟨f, hr, hf ▸ hk.2.2.2.1, hf ▸ hk.1, hf ▸ hk.2.1⟩
  · exact ⟨id, (setCircuit_id u i).symm ▸ h, rfl, rfl, rfl⟩

/-- R143: what a circuit's settings make of it. -/
structure CircuitTakes (new : CircuitSet) (k k' : Circuit) : Prop where
  cfg : k'.cfg = new
  pos : k'.pos = k.pos
  polarity : k'.polarity = k.polarity
  off : new.enabled = false → k'.st = .off
  unset : new.enabled = true → k.st = .off → k'.st = .unset

theorem applyCircuit_reached {u : State} {c : Ctx} (hc : Counts u) (h : Reached u c) {i : Nat} (hi : i < 4) (new : CircuitSet) :
    ∃ f, Reached (u.setCircuit i f) (applyCircuit i new c) ∧ CircuitTakes new (u.circuit i) (f (u.circuit i)) := by
  have hcfg := h.upd (plain_setCircuit i fun k => { k with cfg := new })
  have hcut := hcfg.upd (plain_setCircuit i fun k => { k with openCount := 0, pulse := none, nextAt := none })
  rw [setCircuit_setCircuit] at hcut
  unfold applyCircuit
  dsimp only
  rw [h.alike.circuit]
  split
  · next he =>
    have hb := circuitBecomes_reached hcut i (u.circuit i).st .off
    rw [setCircuit_setCircuit] at hb
    exact ⟨_, hb, rfl, rfl, rfl, fun _ => rfl, fun h => by simp [h] at he⟩
  · next he =>
    split
    · have hb := circuitBecomes_reached hcut i (u.circuit i).st .unset
      rw [setCircuit_setCircuit] at hb
      exact ⟨_, hb, rfl, rfl, rfl, fun h => by simp [h] at he, fun _ _ => rfl⟩
    · next hn =>
      obtain ⟨f, hr, h1, h2, h3⟩ := circuitPoint_reached hcfg i
      rw [setCircuit_circuit hc hi, if_pos rfl] at h1 h2 h3
      rw [setCircuit_setCircuit] at hr
      exact ⟨_, hr, h1, h2, h3, fun h => by simp [h] at he, fun _ h => by simp [h] at hn⟩

/-! ### One line's event -/

/-- An event so far has come to a state but for one line, which is another, and for the trouble classes, records and mirrors. -/
def LineReached (u : State) (ln : Nat) (l : Line) (c : Ctx) : Prop := ∃ f, Reached (u.setLine ln f) c ∧ f (u.line ln) = l

theorem setLine_id (u : State) (ln : Nat) : u.setLine ln id = u := by
  unfold State.setLine
  rw [List.modify_id]

section
variable {u : State} {ln : Nat} {l : Line} {c : Ctx}

theorem Reached.lineReached (h : Reached u c) (ln : Nat) : LineReached u ln (u.line ln) c := ⟨id, (setLine_id u ln).symm ▸ h, rfl⟩

theorem LineReached.upd (h : LineReached u ln l c) (g : Line → Line) : LineReached u ln (g l) (c.upd (State.setLine ln g)) := by
  obtain ⟨f, hr, rfl⟩ := h
  have hg := hr.upd (plain_setLine ln g)
  rw [setLine_setLine] at hg
  exact ⟨_, hg, rfl⟩

theorem LineReached.record (h : LineReached u ln l c) (n : Note) : LineReached u ln l (c.record n) := by
  obtain ⟨f, hr, hf⟩ := h
  exact ⟨f, hr.record n, hf⟩

theorem LineReached.updateTrouble (h : LineReached u ln l c) : LineReached u ln l (c.upd State.updateTrouble) := by
  obtain ⟨f, hr, hf⟩ := h
  exact ⟨f, hr.updateTrouble, hf⟩

theorem LineReached.line (h : LineReached u ln l c) (hc : Counts u) (hl : ln < 8) : c.st.line ln = l := by
  obtain ⟨f, hr, hf⟩ := h
  rw [hr.alike.line, setLine_line hc hl, if_pos rfl, hf]

theorem LineReached.elapsed (h : LineReached u ln l c) : c.st.elapsed = u.elapsed := by
  obtain ⟨f, hr, -⟩ := h
  exact hr.alike.elapsed

end

/-! ### A line with nothing on it -/

/-- What a change of a bare line keeps. -/
structure BareKeeps (l l' : Line) : Prop where
  cfg : l'.cfg = l.cfg
  pathA : l'.pathA = l.pathA
  pathB : l'.pathB = l.pathB
  lastStart : l'.cycle.lastStart = l.cycle.lastStart
  bare : BareLine l'

theorem BareKeeps.refl {l : Line} (hb : BareLine l) : BareKeeps l l := ⟨rfl, rfl, rfl, rfl, hb⟩

theorem BareKeeps.trans {l l' l'' : Line} (h : BareKeeps l l') (k : BareKeeps l' l'') : BareKeeps l l'' :=
  ⟨k.cfg.trans h.cfg, k.pathA.trans h.pathA, k.pathB.trans h.pathB, k.lastStart.trans h.lastStart, k.bare⟩

/-- The line once it has gone down, its enumeration apart (R156). -/
def Line.wentDown (off : Bool) (l : Line) : Line :=
  { l with
    queue := []
    inFlight := if off then none else l.inFlight
    deferred := []
    nodes := l.nodes.map fun n => { n with refresh := none, busyUntil := none }
    cycle := { l.cycle with running := false } }

theorem wentDown_keeps {l : Line} (hb : BareLine l) (off : Bool) : BareKeeps l (l.wentDown off) := by
  refine ⟨rfl, rfl, rfl, rfl, rfl, ?_, rfl, ?_⟩
  · show (if off then none else l.inFlight) = none
    rw [hb.inFlight, ite_self]
  · show l.nodes.map _ = []
    rw [hb.nodes]
    rfl

/-- The line whose cycle has started at a moment (R173). -/
def Line.cycleFrom (now : Nat) (l : Line) : Line := { l with cycle := ⟨l.active, 1, some now, l.cfg.period⟩ }

/-- What the start of a bare line makes of it (R155, R173). -/
structure BareStarts (r : PathPair) (now : Nat) (l l' : Line) : Prop where
  cfg : l'.cfg = l.cfg
  pathA : l'.pathA = ⟨r.a, some r.a⟩
  pathB : l'.pathB = ⟨r.b, some r.b⟩
  lastStart : l'.cycle.lastStart = some now
  bare : BareLine l'

section
variable {u : State} {ln : Nat} {l : Line} {c : Ctx} (hc : Counts u) (hl : ln < 8) (h : LineReached u ln l c) (hb : BareLine l)
include hc hl h hb

theorem endEnumeration_bare (cause : Nat) : ∃ l', LineReached u ln l' (endEnumeration ln cause c) ∧ BareKeeps l l' := by
  unfold endEnumeration
  rw [h.line hc hl]
  split
  · exact ⟨l, h, BareKeeps.refl hb⟩
  · refine ⟨_, (h.upd _).record _, rfl, rfl, rfl, rfl, hb.queue, hb.inFlight, ?_, hb.nodes⟩
    dsimp only
    rw [hb.deferred, List.filter_nil]

/-- R156: a bare line that goes down ends its enumeration and its cycle. -/
theorem lineDown_bare (off : Bool) : ∃ l', LineReached u ln l' (lineDown ln off c) ∧ BareKeeps l l' := by
  have hk := wentDown_keeps hb off
  have he : lineDown ln off c = endEnumeration ln enumLineFailed (c.upd (State.setLine ln (Line.wentDown off))) := by
    have hcut : ((if off then (c.st.line ln).inFlight.toList.map (·.tx) else []) ++ (c.st.line ln).queue) = [] := by
      rw [h.line hc hl, hb.inFlight, hb.queue]
      cases off <;> rfl
    unfold lineDown
    dsimp only
    rw [hcut]
    rfl
  obtain ⟨l', hr, hf⟩ := endEnumeration_bare hc hl (h.upd (Line.wentDown off)) hk.bare enumLineFailed
  exact ⟨l', he ▸ hr, hk.trans hf⟩

theorem lineChanged_bare (old : LineState) : ∃ l', LineReached u ln l' (lineChanged ln old c) ∧ BareKeeps l l' := by
  unfold lineChanged
  dsimp only
  split
  · exact ⟨l, h, BareKeeps.refl hb⟩
  · have hr := (h.record (lcNote .lineState (if (c.st.line ln).state = .degraded || (c.st.line ln).state = .failed then Category.attention else .routine)
      ln c.tag (dv old.code) (dv (c.st.line ln).state.code)
      [some (c.st.line ln).pathA.cond.code, some (c.st.line ln).pathB.cond.code])).updateTrouble
    split
    · exact lineDown_bare hc hl hr hb true
    · exact lineDown_bare hc hl hr hb false
    · exact ⟨l, hr, BareKeeps.refl hb⟩

/-- R173: on a bare line there is nobody to poll. -/
theorem pollNext_bare : ∃ l', LineReached u ln l' (pollNext ln c) ∧ BareKeeps l l' := by
  have hn : l.nextPoll l.cycle.next = none := by
    unfold Line.nextPoll Line.node?
    rw [hb.nodes]
    simp
  unfold pollNext
  dsimp only
  rw [h.line hc hl, hn]
  split
  · exact ⟨l, h, BareKeeps.refl hb⟩
  · exact ⟨_, h.upd _, rfl, rfl, rfl, rfl, hb.queue, hb.inFlight, hb.deferred, hb.nodes⟩

omit hc hl in
/-- R155: a first reading sets the path's condition. -/
theorem firstPath_bare (p : Path) (r : PathCond) : LineReached u ln (l.setPath p ⟨r, some r⟩) (firstPath ln p r c) ∧ BareLine (l.setPath p ⟨r, some r⟩) := by
  refine ⟨?_, by cases p <;> exact ⟨hb.queue, hb.inFlight, hb.deferred, hb.nodes⟩⟩
  unfold firstPath
  dsimp only
  split
  · exact h.upd _
  · exact (h.upd _).record _

/-- R173: a cycle of a bare line begins, and has ended. -/
theorem cycleBegins_bare : ∃ l', LineReached u ln l' (cycleBegins ln c) ∧ BareKeeps (l.cycleFrom u.elapsed) l' := by
  have hb1 : BareLine (l.cycleFrom u.elapsed) := ⟨hb.queue, hb.inFlight, hb.deferred, hb.nodes⟩
  obtain ⟨l', hr, hf⟩ := pollNext_bare hc hl (h.upd (Line.cycleFrom u.elapsed)) hb1
  have he : cycleBegins ln c = settleLine ln settleSteps (pollNext ln (c.upd (State.setLine ln (Line.cycleFrom u.elapsed)))) := by
    unfold cycleBegins
    rw [h.elapsed]
    rfl
  refine ⟨l', ?_, hf⟩
  rw [he, settleLine_of_empty (by rw [hr.line hc hl]; exact hf.bare.queue) (by rw [hr.line hc hl]; exact hf.bare.deferred)]
  exact hr

/-- R154 to R156, R173: a bare line starts with its first readings and a cycle. -/
theorem lineStarts_bare (old : LineState) (r : PathPair) :
    ∃ l', LineReached u ln l' (lineStarts ln old r c) ∧ BareStarts r u.elapsed l l' := by
  obtain ⟨ha, hba⟩ := firstPath_bare h hb .a r.a
  obtain ⟨hab, hbb⟩ := firstPath_bare ha hba .b r.b
  obtain ⟨l1, h1, hk1⟩ := lineChanged_bare hc hl hab hbb old
  have h2 := h1.upd fun l => { l with nodes := l.nodes.map fun n => if n.st = .absent || n.st = .faulted then n else n.toUnknown }
  have hb2 : BareLine { l1 with nodes := l1.nodes.map fun n => if n.st = .absent || n.st = .faulted then n else n.toUnknown } := by
    refine ⟨hk1.bare.queue, hk1.bare.inFlight, hk1.bare.deferred, ?_⟩
    dsimp only
    rw [hk1.bare.nodes, List.map_nil]
  obtain ⟨l', h3, hk3⟩ := cycleBegins_bare hc hl h2 hb2
  exact ⟨l', h3, hk3.cfg.trans hk1.cfg, hk3.pathA.trans hk1.pathA, hk3.pathB.trans hk1.pathB, hk3.lastStart, hk3.bare⟩

/-- R154: what a configuration makes of a bare line. -/
structure LineTakes (new : LineCfg) (r : PathPair) (now : Nat) (l l' : Line) : Prop where
  cfg : l'.cfg = new
  starts : l.cfg.enabled = false → new.enabled = true →
    l'.pathA = ⟨r.a, some r.a⟩ ∧ l'.pathB = ⟨r.b, some r.b⟩ ∧ l'.cycle.lastStart = some now
  bare : BareLine l'

theorem applyLine_bare (new : LineCfg) (r : PathPair) : ∃ l', LineReached u ln l' (applyLine ln new r c) ∧ LineTakes new r u.elapsed l l' := by
  have hb1 : BareLine (Line.configured new l) := by
    refine ⟨hb.queue, hb.inFlight, hb.deferred, ?_⟩
    unfold Line.configured
    dsimp only
    rw [hb.nodes, List.map_nil]
  have h1 := h.upd (Line.configured new)
  unfold applyLine
  dsimp only
  rw [h.line hc hl]
  split
  · next he hn =>
    refine ⟨_, ?_, rfl, fun h => by simp [he] at h, hb1⟩
    unfold applyThreshold
    dsimp only
    rw [h1.line hc hl, hb1.nodes]
    exact h1
  · next he hn =>
    obtain ⟨l', h2, hk⟩ := lineChanged_bare hc hl h1 hb1 l.state
    exact ⟨l', h2, hk.cfg, fun h => by simp [he] at h, hk.bare⟩
  · next he hn =>
    obtain ⟨l', h2, hk⟩ := lineStarts_bare hc hl h1 hb1 l.state r
    exact ⟨l', h2, hk.cfg, fun _ _ => ⟨hk.pathA, hk.pathB, hk.lastStart⟩, hk.bare⟩
  · next he hn => exact ⟨_, h1, rfl, fun _ h => by simp [hn] at h, hb1⟩

end

end Sys2Proof.Machine
end

