-- ==== Sys2Proof/Proofs/LoadTables.lean ====
section
/-! SUPPORT. The event that ends a load of circuits, lines or members, or a schedule switch (R143, R154, R171, R44, R45). -/

namespace Sys2Proof.Machine
open Sys2Proof

theorem comes_of_reached {v : State} {c : Ctx} (h : Reached v c) (n : Note) (q : ReqHdr) (o : Outcome) (ws : List Word) :
    ∃ tr, Comes (v.troubleTo tr) q o ws ((c.record n).upd (State.answer q o ws)) := by
  have hr := h.record n
  obtain ⟨tr, hn⟩ := hr.state
  exact ⟨tr, c.record n, rfl, hn, hr.ans, hr.todo⟩

/-! ### Circuits (R143) -/

/-- The circuits of a state, with the load over and a tolerance. -/
def State.circuitsTo (ks : List Circuit) (tolerance : Nat) (s : State) : State :=
  { s with cu := { s.cu with load := none, tolerance := tolerance, circuits := ks } }

/-- What the circuits of a load become (R143). -/
structure CircuitsLoaded (xs : List CircuitSet) (tolerance : Nat) (s v : State) : Prop where
  only : v = s.circuitsTo v.cu.circuits (clampNat 1 10 tolerance)
  takes : ∀ i, i < 4 → CircuitTakes ((xs[i]?).getD { (s.circuit i).cfg with enabled := false }) (s.circuit i) (v.circuit i)

theorem setCircuit_counts {s : State} (h : Counts s) (i : Nat) (f : Circuit → Circuit) : Counts (s.setCircuit i f) :=
  ⟨h.zones, h.feeds, h.channels, by simpa [State.setCircuit] using h.circuits, h.lines, h.inputs, h.outputs⟩

/-- R143: a circuit takes its record, or is not enabled. -/
def circuitTurn (xs : List CircuitSet) (i : Nat) (c : Ctx) : Ctx :=
  match xs[i]? with
  | some g => applyCircuit i g c
  | none => applyCircuit i { (c.st.circuit i).cfg with enabled := false } c

theorem circuitTurn_eq (xs : List CircuitSet) (i : Nat) (c : Ctx) :
    circuitTurn xs i c = applyCircuit i ((xs[i]?).getD { (c.st.circuit i).cfg with enabled := false }) c := by
  unfold circuitTurn
  cases xs[i]? <;> rfl

theorem comes_circuits {c : Ctx} (ha : c.ans = []) (ht : c.todo = []) (hc : Counts c.st) (l : Load CircuitSet) (tolerance : Nat) :
    ∃ v tr, Comes (v.troubleTo tr) l.q (.ofClamped (l.clamped || clampNat 1 10 tolerance != tolerance)) [] (finishCircuits l tolerance c)
      ∧ CircuitsLoaded l.staged tolerance c.st v := by
  have h0 : Reached (c.st.circuitsTo c.st.cu.circuits (clampNat 1 10 tolerance)) ((c.upd (putCircuitLoad none)).upd fun s =>
      { s with cu := { s.cu with tolerance := clampNat 1 10 tolerance } }) := reached_refl (c := (c.upd (putCircuitLoad none)).upd fun s =>
      { s with cu := { s.cu with tolerance := clampNat 1 10 tolerance } }) ha ht
  obtain ⟨v, hv, ⟨hvc, hvo⟩, hvr, -⟩ := each_reached (n := 4) State.setCircuit State.circuit
    (fun v => Counts v ∧ v = c.st.circuitsTo v.cu.circuits (clampNat 1 10 tolerance))
    (fun i k k' => CircuitTakes ((l.staged[i]?).getD { k.cfg with enabled := false }) k k') (circuitTurn l.staged)
    (fun u i f hu hi => by rw [setCircuit_circuit hu.1 hi, if_pos rfl]) (fun u i j f hj => setCircuit_circuit_ne u hj f)
    (fun u c i hi hu hr => by
      rw [circuitTurn_eq, hr.alike.circuit]
      obtain ⟨f, hf, ht⟩ := applyCircuit_reached hu.1 hr hi ((l.staged[i]?).getD { (u.circuit i).cfg with enabled := false })
      exact ⟨f, hf, ⟨setCircuit_counts hu.1 i f, congrArg (State.setCircuit i f) hu.2⟩, ht⟩)
    (List.range 4) (c.st.circuitsTo c.st.cu.circuits (clampNat 1 10 tolerance)) _ List.nodup_range (fun i hi => List.mem_range.mp hi) ⟨⟨hc.zones, hc.feeds, hc.channels, hc.circuits, hc.lines, hc.inputs, hc.outputs⟩, rfl⟩ h0
  obtain ⟨tr, hcomes⟩ := comes_of_reached hv (loadedNote .cu .circuits l.q l.count (clampNat 1 10 tolerance)) l.q
    (.ofClamped (l.clamped || clampNat 1 10 tolerance != tolerance)) []
  exact ⟨v, tr, hcomes, hvo, fun i hi => hvr i (List.mem_range.mpr hi)⟩

/-! ### Lines (R154) -/

/-- The lines of a state, with the load over. -/
def State.linesTo (ls : List Line) (s : State) : State := { s with lc := { s.lc with lineLoad := none, lines := ls } }

/-- What the lines of a load become (R154, R155, R173). -/
structure LinesLoaded (xs : List LineCfg) (paths : List PathPair) (s v : State) : Prop where
  only : v = s.linesTo v.lc.lines
  takes : ∀ i, i < 8 → LineTakes ((xs[i]?).getD { (s.line i).cfg with enabled := false }) (paths.getD i openPair) s.elapsed (s.line i) (v.line i)

/-- R154: a line takes its record, or is not enabled. -/
def lineTurn (xs : List LineCfg) (paths : List PathPair) (ln : Nat) (c : Ctx) : Ctx :=
  let new := match xs[ln]? with
    | some g => g
    | none => { (c.st.line ln).cfg with enabled := false }
  applyLine ln new (paths.getD ln openPair) c

theorem lineTurn_eq (xs : List LineCfg) (paths : List PathPair) (ln : Nat) (c : Ctx) :
    lineTurn xs paths ln c = applyLine ln ((xs[ln]?).getD { (c.st.line ln).cfg with enabled := false }) (paths.getD ln openPair) c := by
  unfold lineTurn
  cases xs[ln]? <;> rfl

theorem bareLines_setLine {u : State} (hc : Counts u) (hb : BareLines u) {ln : Nat} (hl : ln < 8) {f : Line → Line} (hf : BareLine (f (u.line ln))) :
    BareLines (u.setLine ln f) := by
  intro k
  rw [setLine_line hc hl]
  split
  · exact hf
  · exact hb k

/-- What the loop over the lines keeps: the counts, bare lines, and every item but the lines. -/
structure LinesUnder (s v : State) : Prop where
  counts : Counts v
  bare : BareLines v
  only : v = s.linesTo v.lc.lines

theorem comes_lines {c : Ctx} (ha : c.ans = []) (ht : c.todo = []) (hc : Counts c.st) (hb : BareLines c.st) (paths : List PathPair) (l : Load LineCfg) :
    ∃ v tr, Comes (v.troubleTo tr) l.q (.ofClamped l.clamped) [] (finishLines paths l c) ∧ LinesLoaded l.staged paths c.st v := by
  have h0 : Reached (c.st.linesTo c.st.lc.lines) (c.upd (putLineLoad none)) := reached_refl (c := c.upd (putLineLoad none)) ha ht
  obtain ⟨v, hv, hvo, hvr, -⟩ := each_reached (n := 8) State.setLine State.line (LinesUnder c.st)
    (fun i k k' => LineTakes ((l.staged[i]?).getD { k.cfg with enabled := false }) (paths.getD i openPair) c.st.elapsed k k') (lineTurn l.staged paths)
    (fun u i f hu hi => by rw [setLine_line hu.counts hi, if_pos rfl]) (fun u i j f hj => setLine_line_ne u hj f)
    (fun u d i hi hu hr => by
      rw [lineTurn_eq, hr.alike.line]
      obtain ⟨l', ⟨f, hf, hfl⟩, hk⟩ := applyLine_bare hu.counts hi (hr.lineReached i) (hu.bare i)
        ((l.staged[i]?).getD { (u.line i).cfg with enabled := false }) (paths.getD i openPair)
      have he : u.elapsed = c.st.elapsed := (congrArg State.elapsed hu.only :)
      refine ⟨f, hf, ⟨counts_setLine hu.counts i f, bareLines_setLine hu.counts hu.bare hi (hfl ▸ hk.bare), congrArg (State.setLine i f) hu.only⟩, ?_⟩
      rw [hfl, ← he]
      exact hk)
    (List.range 8) (c.st.linesTo c.st.lc.lines) _ List.nodup_range (fun i hi => List.mem_range.mp hi)
    ⟨⟨hc.zones, hc.feeds, hc.channels, hc.circuits, hc.lines, hc.inputs, hc.outputs⟩, hb, rfl⟩ h0
  obtain ⟨tr, hcomes⟩ := comes_of_reached hv (loadedNote .lc .lines l.q l.count 0) l.q (.ofClamped l.clamped) []
  exact ⟨v, tr, hcomes, hvo.only, fun i hi => hvr i (List.mem_range.mpr hi)⟩

/-! ### Members (R171) -/

def State.membersTo (xs : List Member) (s : State) : State := { s with lc := { s.lc with memberLoad := none, members := xs } }

section
variable {c : Ctx} (ha : c.ans = []) (ht : c.todo = [])
include ha ht

theorem comes_members (h : c.st.zonesUnheld = true) (hb : BareLines c.st) (l : Load Member) :
    Comes (c.st.membersTo l.staged) l.q .done [] (finishMembers l c) := by
  have hnone (d : Ctx) (hd : BareLines d.st) : Ctx.each (fun ln c => Ctx.each (applyMember ln) (c.st.line ln).nodes c) (List.range 8) d = d := by
    generalize List.range 8 = ls
    induction ls with
    | nil => rfl
    | cons ln ls ih =>
      rw [Ctx.each_cons, (hd ln).nodes, Ctx.each_nil]
      exact ih
  unfold finishMembers
  dsimp only
  rw [if_pos h, hnone]
  · exact comes_record (c := (c.upd (putMemberLoad none)).upd fun s => { s with lc := { s.lc with members := l.staged } }) ha ht _ _ _ _
  · exact hb

theorem comes_members_busy (h : c.st.zonesUnheld = false) (l : Load Member) : Comes (putMemberLoad none c.st) l.q .busy [] (finishMembers l c) := by
  unfold finishMembers
  rw [if_neg (by rw [h]; exact Bool.false_ne_true)]
  exact comes_answer (c := c.upd (putMemberLoad none)) ha ht _ _ _

/-! ### The schedule switch (R44, R45) -/

theorem comes_now {w : Switch} (h : w.choice = .now) :
    Comes { c.st with se := { c.st.se with switch := none, active := ⟨w.load.staged, w.window⟩, waiting := none } } w.load.q
      (.ofClamped w.load.clamped) [] (finishSwitch w c) := by
  unfold finishSwitch
  simp only [h]
  exact comes_record (c := (c.upd (putSwitch none)).upd fun s => { s with se := { s.se with
    active := ⟨w.load.staged, w.window⟩, waiting := none } }) ha ht _ _ _ _

theorem comes_pending {w : Switch} (h : w.choice ≠ .now) {n : Nat} (hn : effectiveDay c.st w.choice = some n) :
    Comes { c.st with se := { c.st.se with switch := none, waiting := some ⟨⟨w.load.staged, w.window⟩, n⟩ } } w.load.q
      (.ofClamped w.load.clamped) [] (finishSwitch w c) := by
  unfold finishSwitch
  cases hw : w.choice with
  | now => exact absurd hw h
  | _ =>
    rw [hw] at hn
    simp only [hn]
    exact comes_record (c := (c.upd (putSwitch none)).upd fun s => { s with se := { s.se with
      waiting := some ⟨⟨w.load.staged, w.window⟩, n⟩ } }) ha ht _ _ _ _

theorem comes_passed {w : Switch} (h : w.choice ≠ .now) (hn : effectiveDay c.st w.choice = none) :
    Comes (putSwitch none c.st) w.load.q .outOfRange [] (finishSwitch w c) := by
  unfold finishSwitch
  cases hw : w.choice with
  | now => exact absurd hw h
  | _ =>
    rw [hw] at hn
    simp only [hn]
    exact comes_answer (c := c.upd (putSwitch none)) ha ht _ _ _

end

end Sys2Proof.Machine
end

