-- ==== Sys2Proof/Proofs/LoadStarts.lean ====
section
/-! SUPPORT. A load or a switch that passes its checks (R28, R42). -/

namespace Sys2Proof.Machine
open Sys2Proof

theorem loadRefusal_passed {limit count offset size : Nat} {busy : Bool} (h : count ≤ limit) (ho : StagedAt offset (count * size)) (hb : busy = false) :
    loadRefusal limit count offset size busy = none := hb ▸ loadRefusal_none h ho

theorem isSome_none {α : Type} {o : Option α} (h : o = none) : o.isSome = false := by rw [h]; rfl

/-! ### A load that passes its checks begins -/

section
variable {q : ReqHdr} {count offset : Nat} {c : Ctx}

theorem decideLoadProfiles_passed (h : count ≤ 16) (ho : StagedAt offset (count * TableCode.profiles.size)) (hb : c.st.dp.profileLoad.isSome = false) :
    decideLoadProfiles q count offset c = beginLoad .profiles count (finishProfiles (Load.start q offset count)) (c.upd (putProfileLoad (some (Load.start q offset count)))) := by
  rw [decideLoadProfiles, loadRefusal_passed h ho hb]

theorem decideLoadCalendar_passed (h : count ≤ 96) (ho : StagedAt offset (count * TableCode.calendar.size)) (hb : c.st.dp.calendarLoad.isSome = false) :
    decideLoadCalendar q count offset c = beginLoad .calendar count (finishCalendar (Load.start q offset count)) (c.upd (putCalendarLoad (some (Load.start q offset count)))) := by
  rw [decideLoadCalendar, loadRefusal_passed h ho hb]

theorem decideLoadZones_passed (h : count ≤ 64) (ho : StagedAt offset (count * TableCode.zones.size)) (hb : (c.st.za.zoneLoad.isSome || !c.st.zonesQuiet) = false) :
    decideLoadZones q count offset c = beginLoad .zones count (finishZones (Load.start q offset count)) (c.upd (putZoneLoad (some (Load.start q offset count)))) := by
  rw [decideLoadZones, loadRefusal_passed h ho hb]

theorem decideLoadGroups_passed (h : count ≤ 64) (ho : StagedAt offset (count * TableCode.groups.size)) (hb : (c.st.za.groupLoad.isSome || !c.st.zonesQuiet) = false) :
    decideLoadGroups q count offset c = beginLoad .groups count (finishGroups (Load.start q offset count)) (c.upd (putGroupLoad (some (Load.start q offset count)))) := by
  rw [decideLoadGroups, loadRefusal_passed h ho hb]

theorem decideLoadPatterns_passed (h : count ≤ 31) (ho : StagedAt offset (count * TableCode.patterns.size)) (hb : (c.st.pu.load.isSome || patternsInUse c.st) = false) :
    decideLoadPatterns q count offset c = beginLoad .patterns count (finishPatterns (Load.start q offset count)) (c.upd (putPatternLoad (some (Load.start q offset count)))) := by
  rw [decideLoadPatterns, loadRefusal_passed h ho hb]

theorem decideLoadChannels_passed (h : count ≤ 4) (ho : StagedAt offset (count * TableCode.channels.size)) (hb : (c.st.au.load.isSome || channelsInUse c.st) = false) :
    decideLoadChannels q count offset c = beginLoad .channels count (finishChannels (Load.start q offset count)) (c.upd (putChannelLoad (some (Load.start q offset count)))) := by
  rw [decideLoadChannels, loadRefusal_passed h ho hb]

theorem decideLoadDrills_passed (h : count ≤ 8) (ho : StagedAt offset (count * TableCode.drills.size)) (hb : (c.st.dc.load.isSome || c.st.dc.active.isSome) = false) :
    decideLoadDrills q count offset c = beginLoad .drills count (finishDrills (Load.start q offset count)) (c.upd (putDrillLoad (some (Load.start q offset count)))) := by
  rw [decideLoadDrills, loadRefusal_passed h ho hb]

theorem decideLoadLines_passed (h : count ≤ 8) (ho : StagedAt offset (count * TableCode.lines.size)) (hb : c.st.lc.lineLoad.isSome = false) :
    decideLoadLines q count offset c = beginLoad .lines count (finishLines [] (Load.start q offset count)) (c.upd (putLineLoad (some (Load.start q offset count)))) := by
  rw [decideLoadLines, loadRefusal_passed h ho hb]

theorem decideLoadMembers_passed (h : count ≤ 320) (ho : StagedAt offset (count * TableCode.members.size)) (hb : (c.st.lc.memberLoad.isSome || !c.st.zonesUnheld) = false) :
    decideLoadMembers q count offset c = beginLoad .members count (finishMembers (Load.start q offset count)) (c.upd (putMemberLoad (some (Load.start q offset count)))) := by
  rw [decideLoadMembers, loadRefusal_passed h ho hb]

theorem decideLoadCircuits_passed (tolerance : Nat) (h : count ≤ 4) (ho : StagedAt offset (count * TableCode.circuits.size))
    (hb : c.st.cu.load.isSome = false) : decideLoadCircuits q count offset tolerance c =
    beginLoad .circuits count (finishCircuits (Load.start q offset count) tolerance) (c.upd (putCircuitLoad (some ⟨Load.start q offset count, tolerance⟩))) := by
  rw [decideLoadCircuits, loadRefusal_passed h ho hb]

theorem decideLoadIo_passed (ho : StagedAt offset TableCode.io.size) (hb : c.st.io.load.isSome = false) :
    decideLoadIo q offset c = (c.upd (putIoLoad (some ⟨q, offset, false, none, [], []⟩))).upd (State.ask (.record .io)) := by
  rw [← offsetOk_iff] at ho
  simp [decideLoadIo, ho, hb]

end

/-- A load of some records asks for its first. -/
theorem exec_begins {i : Instr} {q : ReqHdr} {s : State} {t : TableCode} {count : Nat} {fin : Ctx → Ctx} {put : State → State}
    (hi : reqHdr? i = some q) (hr : s.reaches q = true) (hn : 1 ≤ count)
    (hd : decideRequest i (s.deciding q) = beginLoad t count fin ((s.deciding q).upd put)) :
    exec i s = .next ((put (s.taking q)).ask (.record t)) := by
  refine exec_request_upd hi hr (f := fun s => (put s).ask (.record t)) (hd.trans ?_)
  rw [beginLoad, if_neg (by omega)]
  rfl

/-- A load of no records ends at once. -/
theorem exec_ends {i : Instr} {q : ReqHdr} {s u : State} {t : TableCode} {fin : Ctx → Ctx} {put : State → State} {o : Outcome}
    (hi : reqHdr? i = some q) (hr : s.reaches q = true) (hlog : LogSound s.ri) (hu : Beside (s.taking q) u)
    (hd : decideRequest i (s.deciding q) = beginLoad t 0 fin ((s.deciding q).upd put)) (h : Comes u q o [] (fin ((s.deciding q).upd put))) :
    ∃ t, exec i s = .next t ∧ Decided q o [] s t ∧ RiOnly u t :=
  Comes.decided (hd ▸ h) hi hr hlog (Nat.zero_le 3) hu

/-! ### A switch that passes its checks (R42) -/

theorem switch_passes {q : ReqHdr} {s : State} {count offset window choice day : Nat} {ch : SwitchChoice} (hlim : count ≤ 1024)
    (ho : StagedAt offset (count * 20)) (hw : s.se.switch = none) (hc : switchChoice choice day = some ch)
    (hn : s.tb.campus ≠ none ∨ ch = .now) (hp : atDayPassed s ch = false) :
    decideSwitch q offset count window choice day (s.deciding q) =
      if count = 0 then finishSwitch (Switch.start q offset count window ch) ((s.deciding q).upd (putSwitch (some (Switch.start q offset count window ch))))
      else ((s.deciding q).upd (putSwitch (some (Switch.start q offset count window ch)))).upd (State.ask .scheduleEntry) := by
  have hready : ¬ (s.tb.campus.isNone && ch ≠ .now) = true := by
    rcases hn with hn | hn <;> simp [hn]
  rw [decideSwitch_checked hc (loadRefusal_passed hlim ho (isSome_none hw))]
  exact (if_neg hready).trans (if_neg (by rw [show atDayPassed (s.deciding q).st ch = false from hp]; exact Bool.false_ne_true))

/-- A switch of no entries ends at once. -/
theorem exec_switchEnds {q : ReqHdr} {s u : State} {offset window choice day : Nat} {ch : SwitchChoice} {o : Outcome} (hr : s.reaches q = true)
    (hlog : LogSound s.ri) (ho : StagedAt offset 0) (hw : s.se.switch = none) (hc : switchChoice choice day = some ch)
    (hn : s.tb.campus ≠ none ∨ ch = .now) (hp : atDayPassed s ch = false) (hu : Beside (s.taking q) u)
    (h : Comes u q o [] (finishSwitch (Switch.start q offset 0 window ch) ((s.deciding q).upd (putSwitch (some (Switch.start q offset 0 window ch)))))) :
    ∃ t, exec (.switchSchedule q offset 0 window choice day) s = .next t ∧ Decided q o [] s t ∧ RiOnly u t := by
  refine Comes.decided (i := .switchSchedule q offset 0 window choice day) ?_ rfl hr hlog (Nat.zero_le 3) hu
  have hd := switch_passes (q := q) (window := window) (day := day) (Nat.zero_le 1024) (by rwa [Nat.zero_mul]) hw hc hn hp
  rw [if_pos rfl] at hd
  show Comes u q o [] (decideSwitch q offset 0 window choice day (s.deciding q))
  rw [hd]
  exact h

theorem exec_switch {q : ReqHdr} {s : State} {count offset window choice day : Nat} {ch : SwitchChoice} (hr : s.reaches q = true)
    (hl : loadable 1024 count offset 20) (hw : s.se.switch = none) (hc : switchChoice choice day = some ch)
    (hn : s.tb.campus ≠ none ∨ ch = .now) (hp : atDayPassed s ch = false) :
    exec (.switchSchedule q offset count window choice day) s =
      .next (((putSwitch (some (Switch.start q offset count window ch))) (s.taking q)).ask .scheduleEntry) := by
  refine exec_request_upd (i := .switchSchedule q offset count window choice day) rfl hr
    (f := fun s => (putSwitch (some (Switch.start q offset count window ch)) s).ask .scheduleEntry)
    ((switch_passes hl.2.1 hl.2.2 hw hc hn hp).trans (if_neg (Nat.ne_of_gt hl.1)))

theorem loadable_staged {limit count offset size : Nat} (h : loadable limit count offset size) : count ≤ limit ∧ StagedAt offset (count * size) :=
  ⟨h.2.1, h.2.2⟩

/-- A table is not in use when no load of it is in progress and its block is at rest. -/
theorem not_busy {α : Type} {o : Option α} {b : Bool} (h : o = none) (hb : b = false) : (o.isSome || b) = false := by rw [h, hb]; rfl

theorem switchChoice_atDay {day : Nat} (h : day ≤ 36525) : switchChoice 2 day = some (.atDay day) := if_neg (Nat.not_lt_of_le h)

theorem atDay_ahead {s : State} {day : Nat} (h : ∀ m, s.se.mark = some m → m.day < day) : atDayPassed s (.atDay day) = false := by
  unfold atDayPassed
  cases hm : s.se.mark with
  | none => rfl
  | some m =>
    have := h m hm
    simpa using this

theorem effectiveDay_ahead {s : State} {m : HighWater} (hm : s.se.mark = some m) {day : Nat} (h : m.day < day) :
    effectiveDay s (.atDay day) = some day := by
  unfold effectiveDay
  rw [hm]
  exact if_neg (Nat.not_le_of_lt h)

/-- A clamp that leaves a value has not clamped it. -/
theorem tolerance_clamped (x : Nat) : Outcome.ofClamped (false || clampNat 1 10 x != x) = if 1 ≤ x ∧ x ≤ 10 then .done else .doneClamped := by
  rw [clampNat_eq (by decide), Outcome.ofClamped, Bool.false_or]
  by_cases h : 1 ≤ x ∧ x ≤ 10
  · rw [if_pos h, if_neg]
    rw [bne_iff_ne]
    omega
  · rw [if_neg h, if_pos]
    rw [bne_iff_ne]
    omega

theorem window_clamped (window : Nat) : Outcome.ofClamped (decide (window > 900)) = if window ≤ 900 then .done else .doneClamped := by
  unfold Outcome.ofClamped
  by_cases h : window ≤ 900
  · rw [if_pos h, if_neg (by simpa using h)]
  · rw [if_neg h, if_pos (by simpa using h)]

theorem state_of_disabled {l : Line} (h : l.cfg.enabled = false) : l.state = .off := by
  unfold Line.state
  rw [h]
  rfl

/-- Settles O20: a load or a switch passes its checks, and either asks for its first record or its last event comes at once. -/
theorem loadsBegin : Obligations.LoadsBegin := by
  intro q count offset tolerance window s hr
  refine ⟨fun h hl => ?_, fun h hl => ?_, fun h hl hz => ?_, fun h hl hz => ?_, fun h hl hz => ?_, fun h hl hz => ?_, fun h hl hz => ?_,
    fun h hl => ?_, fun h hl => ?_, fun h hl hz => ?_, fun h hl => ?_, fun h hl day => ?_, fun day h hl hn => ⟨?_, fun hd hp => ?_⟩,
    fun hlog hc hb ho => ?_⟩
  · exact exec_begins (i := .loadTableProfiles q count offset) rfl hr h.1 (decideLoadProfiles_passed h.2.1 h.2.2 (isSome_none hl))
  · exact exec_begins (i := .loadTableCalendar q count offset) rfl hr h.1 (decideLoadCalendar_passed h.2.1 h.2.2 (isSome_none hl))
  · exact exec_begins (i := .loadTableZones q count offset) rfl hr h.1 (decideLoadZones_passed h.2.1 h.2.2 (not_busy hl (congrArg (!·) hz)))
  · exact exec_begins (i := .loadTableGroups q count offset) rfl hr h.1 (decideLoadGroups_passed h.2.1 h.2.2 (not_busy hl (congrArg (!·) hz)))
  · exact exec_begins (i := .loadTablePatterns q count offset) rfl hr h.1 (decideLoadPatterns_passed h.2.1 h.2.2 (not_busy hl hz))
  · exact exec_begins (i := .loadTableChannels q count offset) rfl hr h.1 (decideLoadChannels_passed h.2.1 h.2.2 (not_busy hl hz))
  · exact exec_begins (i := .loadTableDrills q count offset) rfl hr h.1 (decideLoadDrills_passed h.2.1 h.2.2 (not_busy hl (isSome_none hz)))
  · exact exec_begins (i := .loadTableCircuits q count offset tolerance) rfl hr h.1 (decideLoadCircuits_passed tolerance h.2.1 h.2.2 (isSome_none hl))
  · exact exec_begins (i := .loadTableLines q count offset) rfl hr h.1 (decideLoadLines_passed h.2.1 h.2.2 (isSome_none hl))
  · exact exec_begins (i := .loadTableMembers q count offset) rfl hr h.1 (decideLoadMembers_passed h.2.1 h.2.2 (not_busy hl (congrArg (!·) hz)))
  · exact exec_request_upd (i := .loadTableIo q offset) rfl hr (f := fun s => (putIoLoad (some ⟨q, offset, false, none, [], []⟩) s).ask (.record .io))
      (decideLoadIo_passed h.2.2 (isSome_none hl))
  · exact exec_switch hr h hl rfl (.inr rfl) rfl
  · exact exec_switch hr h hl rfl (.inl hn) rfl
  · exact exec_switch hr h hl (switchChoice_atDay hd) (.inl hn) (atDay_ahead hp)
  have hz (n : Nat) : StagedAt offset (0 * n) := by rwa [Nat.zero_mul]
  have hct := counts_taking hc q
  refine ⟨fun hl => ?_, fun hl => ?_, fun hl hq => ?_, fun hl hq => ?_, fun hl hq => ?_, fun hl hq => ?_, fun hl hq => ?_, fun hl => ?_, fun hl => ?_,
    fun hl hq => ?_, fun hl => ⟨fun day => ?_, fun h hn hm => ⟨fun day => ?_, fun day h1 h2 => ?_⟩⟩⟩
  · obtain ⟨t, he, hd, ht⟩ := exec_ends (i := .loadTableProfiles q 0 offset) (u := (s.taking q).profilesTo []) rfl hr hlog ⟨rfl, rfl, rfl⟩
      (decideLoadProfiles_passed (Nat.zero_le _) (hz _) (isSome_none hl)) (comes_profiles rfl rfl (Load.start q offset 0))
    refine ⟨t, he, hd, (sameBut_dp (List.mem_singleton_self _) rfl).of_only ht, ht.dp.trans ?_⟩
    exact congrArg (fun x => { s.dp with profileLoad := x, profiles := List.replicate 16 ⟨0, 0, 0⟩ }) hl.symm
  · obtain ⟨t, he, hd, ht⟩ := exec_ends (i := .loadTableCalendar q 0 offset) (u := (s.taking q).calendarTo []) rfl hr hlog ⟨rfl, rfl, rfl⟩
      (decideLoadCalendar_passed (Nat.zero_le _) (hz _) (isSome_none hl)) (comes_calendar rfl rfl (Load.start q offset 0))
    refine ⟨t, he, hd, (sameBut_dp (List.mem_singleton_self _) rfl).of_only ht, ht.dp.trans ?_⟩
    exact congrArg (fun x => { s.dp with calendarLoad := x, calendar := [] }) hl.symm
  · obtain ⟨t, he, hd, ht⟩ := exec_ends (i := .loadTableZones q 0 offset) (u := (s.taking q).zoneTableTo []) rfl hr hlog ⟨rfl, rfl, rfl⟩
      (decideLoadZones_passed (Nat.zero_le _) (hz _) (not_busy hl (congrArg (!·) hq))) (comes_zones rfl rfl hq (Load.start q offset 0))
    refine ⟨t, he, hd, (sameBut_za (List.mem_singleton_self _) rfl).of_only ht, ht.za.trans ?_⟩
    exact congrArg (fun x => { s.za with zoneLoad := x, table := List.replicate 64 ZoneRec.blank, zones := List.replicate 64 ZoneDyn.clear }) hl.symm
  · obtain ⟨t, he, hd, ht⟩ := exec_ends (i := .loadTableGroups q 0 offset) (u := (s.taking q).groupsTo []) rfl hr hlog ⟨rfl, rfl, rfl⟩
      (decideLoadGroups_passed (Nat.zero_le _) (hz _) (not_busy hl (congrArg (!·) hq))) (comes_groups rfl rfl hq (Load.start q offset 0))
    refine ⟨t, he, hd, (sameBut_za (List.mem_singleton_self _) rfl).of_only ht, ht.za.trans ?_⟩
    exact congrArg (fun x => { s.za with groupLoad := x, groups := List.replicate 64 0 }) hl.symm
  · obtain ⟨t, he, hd, ht⟩ := exec_ends (i := .loadTablePatterns q 0 offset) (u := (s.taking q).patternsTo []) rfl hr hlog ⟨rfl, rfl, rfl⟩
      (decideLoadPatterns_passed (Nat.zero_le _) (hz _) (not_busy hl hq)) (comes_patterns rfl rfl hq hb (Load.start q offset 0))
    refine ⟨t, he, hd, (sameBut_pu (List.mem_singleton_self _) rfl).of_only ht, ht.pu.trans ?_⟩
    exact congrArg (fun x => { s.pu with load := x, table := List.replicate 31 Pattern.empty, version := (s.pu.version + 1) % 256 }) hl.symm
  · obtain ⟨t, he, hd, ht⟩ := exec_ends (i := .loadTableChannels q 0 offset) (u := (s.taking q).channelsTo []) rfl hr hlog ⟨rfl, rfl, rfl⟩
      (decideLoadChannels_passed (Nat.zero_le _) (hz _) (not_busy hl hq)) (comes_channels rfl rfl hq (Load.start q offset 0))
    refine ⟨t, he, hd, (sameBut_au (List.mem_singleton_self _) rfl).of_only ht, fun c h => ?_⟩
    rw [ht.channel]
    exact channelTableTo_channel hct [] h
  · obtain ⟨t, he, hd, ht⟩ := exec_ends (i := .loadTableDrills q 0 offset) (u := (s.taking q).drillsTo []) rfl hr hlog ⟨rfl, rfl, rfl⟩
      (decideLoadDrills_passed (Nat.zero_le _) (hz _) (not_busy hl (isSome_none hq))) (comes_drills rfl rfl hq (Load.start q offset 0))
    refine ⟨t, he, hd, (sameBut_dc (List.mem_singleton_self _) rfl).of_only ht, ht.dc.trans ?_⟩
    exact congrArg (fun x => { s.dc with load := x, records := s.dc.records.map fun r : DrillRec => { r with defined := false } }) hl.symm
  · obtain ⟨v, tr, hcomes, hv⟩ := comes_circuits (c := (s.deciding q).upd (putCircuitLoad (some ⟨(Load.start q offset 0), tolerance⟩))) rfl rfl
      ⟨hc.zones, hc.feeds, hc.channels, hc.circuits, hc.lines, hc.inputs, hc.outputs⟩ (Load.start q offset 0) tolerance
    rw [show (Load.start q offset 0).clamped = false from rfl, tolerance_clamped] at hcomes
    have hv1 := hv.only
    obtain ⟨t, he, hd, ht⟩ := exec_ends (i := .loadTableCircuits q 0 offset tolerance) (u := v.troubleTo tr) rfl hr hlog
      (by rw [hv1]; exact ⟨rfl, rfl, rfl⟩) (decideLoadCircuits_passed tolerance (Nat.zero_le _) (hz _) (isSome_none hl)) hcomes
    have hal := alike_troubleTo ht
    refine ⟨t, he, hd, SameBut.of_alike hal (by rw [hv1]; exact sameBut_cu (by decide) rfl) (by decide), ?_, ?_, fun i hi => ?_⟩
    · rw [hal.cu, hv1]
      exact clampNat_eq (by decide) _
    · rw [hal.cu, hv1]
      rfl
    · have hk := hv.takes i hi
      rw [hal.circuit]
      exact ⟨hk.cfg, hk.off rfl⟩
  · obtain ⟨v, tr, hcomes, hv⟩ := comes_lines (c := (s.deciding q).upd (putLineLoad (some (Load.start q offset 0)))) rfl rfl
      ⟨hc.zones, hc.feeds, hc.channels, hc.circuits, hc.lines, hc.inputs, hc.outputs⟩ hb [] (Load.start q offset 0)
    have hv1 := hv.only
    obtain ⟨t, he, hd, ht⟩ := exec_ends (i := .loadTableLines q 0 offset) (u := v.troubleTo tr) rfl hr hlog
      (by rw [hv1]; exact ⟨rfl, rfl, rfl⟩) (decideLoadLines_passed (Nat.zero_le _) (hz _) (isSome_none hl)) hcomes
    have hal := alike_troubleTo ht
    refine ⟨t, he, hd, SameBut.of_alike hal (by rw [hv1]; exact sameBut_lc (by decide) rfl) (by decide), ?_, fun i hi => ?_⟩
    · rw [hal.lc, hv1]
      rfl
    · have hk := hv.takes i hi
      rw [hal.line]
      exact ⟨hk.cfg, state_of_disabled (congrArg (·.enabled) hk.cfg)⟩
  · obtain ⟨t, he, hd, ht⟩ := exec_ends (i := .loadTableMembers q 0 offset) (u := (s.taking q).membersTo []) rfl hr hlog ⟨rfl, rfl, rfl⟩
      (decideLoadMembers_passed (Nat.zero_le _) (hz _) (not_busy hl (congrArg (!·) hq))) (comes_members rfl rfl hq hb (Load.start q offset 0))
    refine ⟨t, he, hd, (sameBut_lc (List.mem_singleton_self _) rfl).of_only ht, ht.lc.trans ?_⟩
    exact congrArg (fun x => { s.lc with memberLoad := x, members := [] }) hl.symm
  · obtain ⟨t, he, hd, ht⟩ := exec_switchEnds (window := window) (choice := 0) (day := day) (ch := .now)
      (u := { s.taking q with se := { s.se with switch := none, active := ⟨[], min window 900⟩, waiting := none } }) hr hlog ho hl rfl (.inr rfl) (rfl) ⟨rfl, rfl, rfl⟩
      (comes_now (c := (s.deciding q).upd (putSwitch (some (Switch.start q offset 0 window .now)))) rfl rfl (w := Switch.start q offset 0 window .now) rfl)
    refine ⟨t, he, window_clamped window ▸ hd, (sameBut_se (List.mem_singleton_self _) rfl).of_only ht, ht.se.trans ?_⟩
    exact congrArg (fun x => { s.se with switch := x, active := ⟨[], min window 900⟩, waiting := none }) hl.symm
  · obtain ⟨t, he, hd, ht⟩ := exec_switchEnds (window := window) (choice := 1) (day := day) (ch := .nextDay)
      (u := { s.taking q with se := { s.se with switch := none, waiting := some ⟨⟨[], min window 900⟩, h.day + 1⟩ } }) hr hlog ho hl rfl (.inl hn) (rfl) ⟨rfl, rfl, rfl⟩
      (comes_pending (c := (s.deciding q).upd (putSwitch (some (Switch.start q offset 0 window .nextDay)))) rfl rfl (w := Switch.start q offset 0 window .nextDay) (fun h => nomatch h)
        (n := h.day + 1) (congrArg (Option.map _) hm))
    refine ⟨t, he, window_clamped window ▸ hd, (sameBut_se (List.mem_singleton_self _) rfl).of_only ht, ht.se.trans ?_⟩
    exact congrArg (fun x => { s.se with switch := x, waiting := some ⟨⟨[], min window 900⟩, h.day + 1⟩ }) hl.symm
  · obtain ⟨t, he, hd, ht⟩ := exec_switchEnds (window := window) (choice := 2) (day := day) (ch := (.atDay day))
      (u := { s.taking q with se := { s.se with switch := none, waiting := some ⟨⟨[], min window 900⟩, day⟩ } }) hr hlog ho hl (switchChoice_atDay h2) (.inl hn) (atDay_ahead fun m h => by rw [hm] at h; exact Option.some.inj h ▸ h1) ⟨rfl, rfl, rfl⟩
      (comes_pending (c := (s.deciding q).upd (putSwitch (some (Switch.start q offset 0 window (.atDay day))))) rfl rfl (w := Switch.start q offset 0 window (.atDay day)) (fun h => nomatch h)
        (n := day) (effectiveDay_ahead hm h1))
    refine ⟨t, he, window_clamped window ▸ hd, (sameBut_se (List.mem_singleton_self _) rfl).of_only ht, ht.se.trans ?_⟩
    exact congrArg (fun x => { s.se with switch := x, waiting := some ⟨⟨[], min window 900⟩, day⟩ }) hl.symm

end Sys2Proof.Machine
end

