-- ==== Sys2Proof/Proofs/IoLoads.lean ====
section
/-! SUPPORT. The event that ends a load of the IO table (R180). -/

namespace Sys2Proof.Machine
open Sys2Proof

/-! ### The trouble classes after an answer -/

theorem answered_link (q : ReqHdr) (a : Answered) (ri : RegionIf) : (RegionIf.answered q a ri).link = ri.link := by
  unfold RegionIf.answered
  split
  · unfold writeOutcome
    dsimp only
    split <;> rfl
  · rfl

theorem troubleNow_answer (s : State) (q : ReqHdr) (o : Outcome) (ws : List Word) : (s.answer q o ws).troubleNow = s.troubleNow := by
  rw [answer_setRi]
  exact troubleNow_troubled (tr := s.io.trouble) (answered_link q ⟨o, ws⟩ s.ri)

/-! ### What the table makes of the inputs and outputs -/

/-- The settings of an IO table in force, each input's and each output's function with them. -/
def IoUnit.tabled (l : IoLoad) (pair : Bool) (mask : BitVec 6) (io : IoUnit) : IoUnit :=
  { io with
    load := none
    safetyPair := pair
    troubleMask := mask
    inputs := io.inputs.zipWith (fun i g => { i with func := g.1, debounce := g.2 }) l.ins
    outputs := io.outputs.zipWith (fun o g => { o with func := g }) l.outs }

/-- An output whose effective function has left PLAIN loses its drive. -/
def IoUnit.undriven (was : List OutFunc) (io : IoUnit) : IoUnit :=
  { io with outputs := io.outputs.zipIdx.map fun p =>
      if was.getD p.2 .plain = .plain && io.outFunc p.2 ≠ .plain then { p.1 with driven := false, releaseAt := none } else p.1 }

/-- The IO unit that a load puts in force, but for the values of inputs that become REFERENCE. -/
def IoUnit.loaded (l : IoLoad) (pair : Bool) (mask : BitVec 6) (io : IoUnit) : IoUnit :=
  (io.tabled l pair mask).undriven ((List.range 12).map io.outFunc)

section
variable {l : IoLoad} {pair : Bool} {mask : BitVec 6} {s : State} (hc : Counts s)
include hc

/-- R180: an input takes its function and its debounce time, and keeps its readings. -/
theorem loaded_input {i : Nat} {g : InFunc × Nat} (hg : l.ins[i]? = some g) (hi : i < 12) :
    (s.io.loaded l pair mask).inputs.getD i (Input.cold .opened) = { s.input i with func := g.1, debounce := g.2 } := by
  have hlen : i < s.io.inputs.length := by rw [hc.inputs]; exact hi
  have he : (s.io.inputs.zipWith (fun i g => { i with func := g.1, debounce := g.2 }) l.ins)[i]? = some { s.input i with func := g.1, debounce := g.2 } := by
    rw [List.getElem?_zipWith, hg, State.input, List.getD_eq_getElem?_getD, List.getElem?_eq_getElem hlen]
    rfl
  show (s.io.inputs.zipWith _ l.ins).getD i _ = _
  rw [List.getD_eq_getElem?_getD, he]
  rfl

/-- R180: an output takes its function. -/
theorem tabled_output {i : Nat} {g : OutFunc} (hg : l.outs[i]? = some g) (hi : i < 12) :
    (s.io.tabled l pair mask).outputs[i]? = some { s.output i with func := g } := by
  have hlen : i < s.io.outputs.length := by rw [hc.outputs]; exact hi
  show (s.io.outputs.zipWith _ l.outs)[i]? = _
  rw [List.getElem?_zipWith, hg, State.output, List.getD_eq_getElem?_getD, List.getElem?_eq_getElem hlen]
  rfl

theorem loaded_output {i : Nat} {g : OutFunc} (hg : l.outs[i]? = some g) (hi : i < 12) :
    (s.io.loaded l pair mask).outputs.getD i Output.cold = if s.io.outFunc i = .plain ∧ (s.io.tabled l pair mask).outFunc i ≠ .plain then
      { s.output i with func := g, driven := false, releaseAt := none } else { s.output i with func := g } := by
  have hw : ((List.range 12).map s.io.outFunc).getD i .plain = s.io.outFunc i := by
    rw [List.getD_eq_getElem?_getD, List.getElem?_map, List.getElem?_range hi]
    rfl
  unfold IoUnit.loaded IoUnit.undriven
  rw [List.getD_eq_getElem?_getD, List.getElem?_map, List.getElem?_zipIdx, tabled_output hc hg hi]
  simp only [Option.map_some, Option.getD_some, Nat.zero_add, hw]
  by_cases h : s.io.outFunc i = .plain ∧ (s.io.tabled l pair mask).outFunc i ≠ .plain
  · rw [if_pos h, if_pos (by simpa using h)]
  · rw [if_neg h, if_neg (by simpa using h)]

/-- The functions do not change with the drives. -/
theorem loaded_outFunc {i : Nat} {g : OutFunc} (hg : l.outs[i]? = some g) (hi : i < 12) :
    (s.io.loaded l pair mask).outFunc i = (s.io.tabled l pair mask).outFunc i := by
  have h1 : ((s.io.loaded l pair mask).outputs.getD i Output.cold).func = g := by
    rw [loaded_output hc hg hi]
    split <;> rfl
  have h2 : ((s.io.tabled l pair mask).outputs.getD i Output.cold).func = g := by
    rw [List.getD_eq_getElem?_getD, tabled_output hc hg hi]
    rfl
  unfold IoUnit.outFunc
  rw [h1, h2]
  rfl

theorem loaded_lengths (hins : l.ins.length = 12) (houts : l.outs.length = 12) :
    (s.io.loaded l pair mask).inputs.length = 12 ∧ (s.io.loaded l pair mask).outputs.length = 12 := by
  unfold IoUnit.loaded IoUnit.undriven IoUnit.tabled
  simp [hins, houts, hc.inputs, hc.outputs]

end

/-! ### The event that ends the load -/

/-- R180: an input whose value is not CLOSED hands nothing on; one that becomes REFERENCE has no value. -/
theorem inputRefunction_of_open {c : Ctx} {k : Nat} (h : (c.st.input k).value ≠ some .closed) (old : InFunc) :
    inputRefunction k old c = c ∨ inputRefunction k old c = c.upd (State.setInput k fun i => { i with value := none }) := by
  unfold inputRefunction
  dsimp only
  split
  · exact .inl rfl
  · split
    · exact .inr rfl
    · exact .inl rfl

theorem setInput_id (u : State) (k : Nat) : u.setInput k id = u := by
  unfold State.setInput
  rw [List.modify_id]

/-- What the loop over the inputs keeps: the counts, inputs not CLOSED, and every item but the inputs. -/
structure InputsUnder (io : IoUnit) (s v : State) : Prop where
  counts : Counts v
  opened : ∀ i, i < 12 → (v.input i).value ≠ some .closed
  only : v = { s with io := { io with inputs := v.io.inputs } }

/-- An input that has at most lost its value. -/
def ValueLost (x x' : Input) : Prop := x' = { x with value := x'.value }

theorem finishIo_reached {c : Ctx} (ha : c.ans = []) (ht : c.todo = []) (hc : Counts c.st) {l : IoLoad} (hins : l.ins.length = 12) (houts : l.outs.length = 12)
    (hopen : ∀ i, (c.st.input i).value ≠ some .closed) (pair : Bool) (mask : BitVec 6) :
    ∃ v d, finishIo l pair mask c = d.upd (State.answer l.q (.ofClamped l.clamped) []) ∧ Reached v d ∧ d.st.io.trouble = d.st.troubleNow
      ∧ InputsUnder (c.st.io.loaded l pair mask) c.st v
      ∧ ∀ i, i < 12 → ValueLost ((c.st.io.loaded l pair mask).inputs.getD i (Input.cold .opened)) (v.input i) := by
  have h0 : Reached { c.st with io := c.st.io.loaded l pair mask }
      ((c.upd fun s => { s with io := s.io.tabled l pair mask }).upd fun s => { s with io := s.io.undriven ((List.range 12).map c.st.io.outFunc) }) :=
    reached_refl (c := (c.upd fun s => { s with io := s.io.tabled l pair mask }).upd
      fun s => { s with io := s.io.undriven ((List.range 12).map c.st.io.outFunc) }) ha ht
  have h1 := h0.record (loadedNote .io .io l.q 24 (if pair then 0 else 1))
  obtain ⟨hli, hlo⟩ := loaded_lengths (pair := pair) (mask := mask) hc hins houts
  have hstart : InputsUnder (c.st.io.loaded l pair mask) c.st { c.st with io := c.st.io.loaded l pair mask } := by
    refine ⟨⟨hc.zones, hc.feeds, hc.channels, hc.circuits, hc.lines, hli, hlo⟩, fun i hi => ?_, rfl⟩
    have he := loaded_input (pair := pair) (mask := mask) hc (i := i) (g := l.ins[i]) (List.getElem?_eq_getElem (by rw [hins]; exact hi)) hi
    show ((c.st.io.loaded l pair mask).inputs.getD i (Input.cold .opened)).value ≠ _
    rw [he]
    exact hopen i
  obtain ⟨v, hv, hvo, hvr, -⟩ := each_reached (n := 12) State.setInput State.input (InputsUnder (c.st.io.loaded l pair mask) c.st)
    (fun _ => ValueLost) (fun k c' => inputRefunction k (((List.range 12).map c.st.io.inFunc).getD k .plain) c')
    (fun u i f hu hi => by rw [setInput_input hu.counts hi, if_pos rfl]) (fun u i j f hj => setInput_input_ne u hj f)
    (fun u d i hi hu hr => by
      have ho : (d.st.input i).value ≠ some .closed := by rw [hr.alike.input]; exact hu.opened i hi
      rcases inputRefunction_of_open ho (((List.range 12).map c.st.io.inFunc).getD i .plain) with he | he
      · exact ⟨id, by rw [he, setInput_id]; exact hr, by rw [setInput_id]; exact hu, rfl⟩
      · refine ⟨_, by rw [he]; exact hr.upd (plain_setInput i _), ⟨?_, fun j hj => ?_, congrArg (State.setInput i fun i => { i with value := none }) hu.only⟩, rfl⟩
        · exact ⟨hu.counts.zones, hu.counts.feeds, hu.counts.channels, hu.counts.circuits, hu.counts.lines, by simpa [State.setInput] using hu.counts.inputs,
            hu.counts.outputs⟩
        · rw [setInput_input hu.counts hi]
          split
          · exact fun h => nomatch h
          · exact hu.opened j hj)
    (List.range 12) { c.st with io := c.st.io.loaded l pair mask } _ List.nodup_range (fun i hi => List.mem_range.mp hi) hstart h1
  exact ⟨v, _, rfl, hv.updateTrouble, updateTrouble_trouble _, hvo, fun i hi => hvr i (List.mem_range.mpr hi)⟩

end Sys2Proof.Machine
end

