-- ==== Sys2Proof/Proofs/LoadsInForce.lean ====
section
/-! SUPPORT. The last staged record of a load of circuits, lines, members or the IO table, and of a switch (R143, R154, R171, R180, R44, R45). -/

namespace Sys2Proof.Machine
open Sys2Proof

/-- The event of a load's last record is the one that ends the load. -/
theorem recordDone_last {α : Type} {l : Load α} {x : α} {k : Bool} {t : TableCode} {size : Nat} {r : Option (α × Bool)}
    {put : Option (Load α) → State → State} {finish : Load α → Ctx → Ctx} {s : State} {qf : State → Option ReqHdr} {f : Ctx → Ctx}
    (hc : Completing (.record t) s) (hf : ∀ tag, f (s.reading tag) = loadRecord t l size r put finish (s.reading tag)) (hr : r = some (x, k))
    (hm : l.atLast) : ∃ tag, recordDone t qf f s = (finish (l.grown size x k) (s.reading tag)).close := by
  subst hr
  exact ⟨_, by rw [recordDone_eq hc, hf, loadRecord_atLast hm]⟩

theorem counts_reading {s : State} (h : Counts s) (tag : Word) : Counts (s.reading tag).st :=
  ⟨h.zones, h.feeds, h.channels, h.circuits, h.lines, h.inputs, h.outputs⟩

/-- DONE CLAMPED tells of a record clamped or of the tolerance clamped. -/
theorem circuits_clamped (a b : Bool) (x : Nat) : Outcome.ofClamped ((a || b) || clampNat 1 10 x != x) =
    if a = true ∨ b = true ∨ ¬ (1 ≤ x ∧ x ≤ 10) then .doneClamped else .done := by
  have h := tolerance_clamped x
  unfold Outcome.ofClamped at h ⊢
  cases a <;> cases b <;> by_cases hx : 1 ≤ x ∧ x ≤ 10 <;> simp [hx] at h ⊢ <;> exact h

theorem zonesUnheld_of {s : State} (h : ∀ z, z < 64 → (s.zone z).holder = none) : s.zonesUnheld = true := by
  rw [State.zonesUnheld, List.all_eq_true]
  exact fun z hz => by simp [h z (List.mem_range.mp hz)]

/-- What the event of the last record of an IO table leaves (R180). -/
structure IoInForce (l : IoLoad) (g : Bool × BitVec 6) (s t : State) : Prop where
  ended : Ended l.q (if l.clamped = true then .doneClamped else .done) [] s t
  same : SameBut [.io] s t
  load : t.io.load = none
  pair : t.io.safetyPair = g.1
  mask : t.io.troubleMask = g.2
  trouble : t.io.trouble = t.troubleNow
  inputs : ∀ i f, l.ins[i]? = some f → (t.input i).func = f.1 ∧ (t.input i).debounce = f.2 ∧ (t.input i).reading = (s.input i).reading
    ∧ (t.input i).exact = (s.input i).exact ∧ (t.input i).counted = (s.input i).counted
  outputs : ∀ i f, l.outs[i]? = some f → (t.output i).func = f
  drives : ∀ i, i < 12 → s.io.outFunc i = .plain → t.io.outFunc i ≠ .plain → (t.output i).driven = false ∧ (t.output i).releaseAt = none

theorem ioTable_inForce {data : List Byte} {l : IoLoad} {g : Bool × BitVec 6} {s : State} (hc : Completing (.record .io) s) (hq : l.q.slot < 32)
    (hlog : LogSound s.ri) (hn : Counts s) (hi : l.ins.length = 12) (ho : l.outs.length = 12) (hopen : ∀ i, (s.input i).value ≠ some .closed)
    (hread : ∀ tag, ioRead data (s.reading tag) = finishIo l g.1 g.2 (s.reading tag)) :
    IoInForce l g s (recordDone .io (fun s => s.io.load.map (·.q)) (ioRead data) s) := by
  obtain ⟨v, d, hfin, hreach, htrouble, hunder, hlost⟩ := finishIo_reached (c := s.reading (((s.io.load.map (·.q)).map (·.tag)).getD 0)) rfl rfl
    (counts_reading hn _) hi ho hopen g.1 g.2
  have he : recordDone .io (fun s => s.io.load.map (·.q)) (ioRead data) s = d.st.answer l.q (.ofClamped l.clamped) [] := by
    rw [recordDone_eq hc, hread, hfin]
    exact close_upd _ hreach.ans hreach.todo
  have hvo := hunder.only
  obtain ⟨tr, hnoted⟩ := hreach.state
  have hcomes : Comes (v.troubleTo tr) l.q (.ofClamped l.clamped) [] (d.upd (State.answer l.q (.ofClamped l.clamped) [])) :=
    ⟨d, rfl, hnoted, hreach.ans, hreach.todo⟩
  obtain ⟨hend, ht⟩ := hcomes.ended hc hq hlog (Nat.zero_le 3) (by rw [hvo]; exact ⟨rfl, rfl, rfl⟩)
  rw [close_upd _ hreach.ans hreach.todo] at hend ht
  rw [he]
  have hal := alike_troubleTo ht
  have hio : (d.st.answer l.q (.ofClamped l.clamped) []).io = { v.io with trouble := (d.st.answer l.q (.ofClamped l.clamped) []).io.trouble } := by
    rw [hal.eq]
  have hvio : v.io = { s.io.loaded l g.1 g.2 with inputs := v.io.inputs } := congrArg State.io hvo
  have hvout (i : Nat) : v.output i = (s.io.loaded l g.1 g.2).outputs.getD i Output.cold :=
    (congrArg (fun io : IoUnit => io.outputs.getD i Output.cold) hvio).trans rfl
  refine ⟨hend, SameBut.of_alike hal (by rw [hvo]; exact sameBut_io (by decide) rfl) (by decide), ?_, ?_, ?_, ?_,
    fun i f hf => ?_, fun i f hf => ?_, fun i hi h1 h2 => ?_⟩
  · rw [hio, hvio]
    rfl
  · rw [hio, hvio]
    rfl
  · rw [hio, hvio]
    rfl
  · rw [troubleNow_answer, State.answer_io]
    exact htrouble
  · have hlt : i < 12 := hi ▸ (List.getElem?_eq_some_iff.mp hf).1
    have hin := hlost i hlt
    rw [loaded_input (counts_reading hn _) hf hlt] at hin
    rw [hal.input, hin]
    exact ⟨rfl, rfl, rfl, rfl, rfl⟩
  · have hlt : i < 12 := ho ▸ (List.getElem?_eq_some_iff.mp hf).1
    rw [hal.output, hvout, loaded_output hn hf hlt]
    split <;> rfl
  · have hf : l.outs[i]? = some l.outs[i] := List.getElem?_eq_getElem (by rw [ho]; exact hi)
    have hplain : (s.io.tabled l g.1 g.2).outFunc i ≠ .plain := by
      rw [hal.outFunc, hvio] at h2
      rw [← loaded_outFunc hn hf hi]
      exact h2
    rw [hal.output, hvout, loaded_output hn hf hi, if_pos ⟨h1, hplain⟩]
    exact ⟨rfl, rfl⟩

/-- A switch with one more entry. -/
def Switch.grown (x : Entry) (w : Switch) : Switch := { w with load := w.load.grown 20 x false }

theorem effectiveDay_behind {s : State} {m : HighWater} (hm : s.se.mark = some m) {day : Nat} (h : day ≤ m.day) : effectiveDay s (.atDay day) = none := by
  unfold effectiveDay
  rw [hm]
  exact if_pos h

/-- R44, R45: whatever its choice, the end of a switch changes the schedule alone. -/
theorem finishSwitch_comes {c : Ctx} (ha : c.ans = []) (ht : c.todo = []) (w : Switch) :
    ∃ u o, Comes u w.load.q o [] (finishSwitch w c) ∧ SameBut [.se] c.st u ∧ Beside c.st u := by
  by_cases hnow : w.choice = .now
  · exact ⟨_, _, comes_now ha ht hnow, sameBut_se (List.mem_singleton_self _) rfl, ⟨rfl, rfl, rfl⟩⟩
  · cases hday : effectiveDay c.st w.choice with
    | none => exact ⟨_, _, comes_passed ha ht hnow hday, sameBut_se (List.mem_singleton_self _) rfl, ⟨rfl, rfl, rfl⟩⟩
    | some n => exact ⟨_, _, comes_pending ha ht hnow hday, sameBut_se (List.mem_singleton_self _) rfl, ⟨rfl, rfl, rfl⟩⟩

/-- Settles O45. -/
theorem loadsPutSettingsInForce : Obligations.LoadsPutSettingsInForce := by
  intro data paths k s hlog hn hb
  refine ⟨fun l x hc hl hq hm hd => ?_, fun l x hc hl hq hm hd => ?_, fun l x hc hl hq hm hd => ?_,
    fun l h x hc hl hq hh hi ho hopen hd => ?_, fun w x hc hl hq hm hd => ?_⟩
  · obtain ⟨tag, he⟩ := recordDone_last (qf := fun s => s.cu.load.map (·.load.q)) (f := circuitRead data) hc (fun _ => circuitRead_of hl data) hd hm
    obtain ⟨v, tr, hcomes, hv⟩ := comes_circuits (c := s.reading tag) rfl rfl (counts_reading hn tag) (l.load.grown _ x k) l.tolerance
    have hv1 := hv.only
    obtain ⟨hend, ht⟩ := hcomes.ended hc hq hlog (Nat.zero_le 3) (by rw [hv1]; exact ⟨rfl, rfl, rfl⟩)
    have hal := alike_troubleTo ht
    refine ⟨_, congrArg Host.Outcome.next he, SameBut.of_alike hal (by rw [hv1]; exact sameBut_cu (by decide) rfl) (by decide),
      circuits_clamped l.load.clamped k l.tolerance ▸ hend, ?_, ?_, fun i hi => ?_⟩
    · rw [hal.cu, hv1]
      rfl
    · rw [hal.cu, hv1]
      exact clampNat_eq (by decide) _
    · have hk := hv.takes i hi
      rw [hal.circuit]
      exact ⟨hk.cfg, hk.pos, hk.polarity, fun h => hk.off (hk.cfg ▸ h), fun h => hk.unset (hk.cfg ▸ h)⟩
  · obtain ⟨tag, he⟩ := recordDone_last (qf := fun s => s.lc.lineLoad.map (·.q)) (f := lineRead paths data) hc (fun _ => lineRead_of hl paths data) hd hm
    obtain ⟨v, tr, hcomes, hv⟩ := comes_lines (c := s.reading tag) rfl rfl (counts_reading hn tag) hb paths (l.grown _ x k)
    have hv1 := hv.only
    obtain ⟨hend, ht⟩ := hcomes.ended hc hq hlog (Nat.zero_le 3) (by rw [hv1]; exact ⟨rfl, rfl, rfl⟩)
    have hal := alike_troubleTo ht
    refine ⟨_, congrArg Host.Outcome.next he, SameBut.of_alike hal (by rw [hv1]; exact sameBut_lc (by decide) rfl) (by decide),
      ofClamped_or l.clamped k ▸ hend, ?_, fun i hi => ?_⟩
    · rw [hal.lc, hv1]
      rfl
    · have hk := hv.takes i hi
      rw [hal.line]
      exact ⟨hk.cfg, fun h1 h2 => hk.starts h1 (hk.cfg ▸ h2)⟩
  · cases hz : s.zonesUnheld with
    | true =>
      obtain ⟨hend, ho⟩ := recordDone_atLast (u := s.completed.started.membersTo (l.staged ++ [x])) (f := memberRead data) hc hq hlog
        (fun _ => memberRead_of hl data) (unclamped_of hd) hm ⟨rfl, rfl, rfl⟩ fun _ => comes_members rfl rfl hz hb _
      refine ⟨_, rfl, (sameBut_lc (List.mem_singleton_self _) rfl).of_only ho, fun _ => ⟨hend, ho.lc⟩, fun h => ?_⟩
      rw [not_zonesUnheld h] at hz
      exact nomatch hz
    | false =>
      obtain ⟨hend, ho⟩ := recordDone_atLast (u := putMemberLoad none s.completed.started) (f := memberRead data) hc hq hlog
        (fun _ => memberRead_of hl data) (unclamped_of hd) hm ⟨rfl, rfl, rfl⟩ fun _ => comes_members_busy rfl rfl hz _
      refine ⟨_, rfl, (sameBut_lc (List.mem_singleton_self _) rfl).of_only ho, fun h => ?_, fun _ => ⟨hend, ho.lc⟩⟩
      rw [zonesUnheld_of h] at hz
      exact nomatch hz
  · have hlen : (l.outs ++ [x]).length = 12 := by rw [List.length_append, ho]; rfl
    have hread (tag) := (ioRead_output (c := s.reading tag) hl hh (Nat.le_of_eq hi.symm) (ho.symm ▸ hd)).trans (if_pos (by omega))
    have hf := ioTable_inForce (l := { l with outs := l.outs ++ [x] }) (g := h) hc hq hlog hn hi hlen hopen hread
    exact ⟨_, rfl, hf.ended, hf.same, hf.load, hf.pair, hf.mask, hf.trouble, hf.inputs, hf.outputs, hf.drives⟩
  · have he := entryRead_completes hc data
    rw [entryRead_atLast (c := s.reading ((s.se.switch.map (·.load.q.tag)).getD 0)) hl hm hd] at he
    have hend {u : State} {o : Outcome}
        (h : Comes u w.load.q o [] (finishSwitch (w.grown x) (s.reading ((s.se.switch.map (·.load.q.tag)).getD 0))))
        (hu : Beside s.completed.started u) :
        Ended w.load.q o [] s _ ∧ RiOnly u _ := h.ended hc hq hlog (Nat.zero_le 3) hu
    have hpassed : Outcome.ofClamped (w.grown x).load.clamped = if w.load.clamped = true then .doneClamped else .done := by
      unfold Switch.grown Load.grown Outcome.ofClamped
      rw [Bool.or_false]
    refine ⟨_, congrArg Host.Outcome.next he, ?_, fun hch => ?_, fun h hmark => ⟨fun hch => ?_, fun n hch => ⟨fun hlt => ?_, fun hle => ?_⟩⟩⟩
    · obtain ⟨u, o, hcomes, hsame, hu⟩ := finishSwitch_comes (c := s.reading ((s.se.switch.map (·.load.q.tag)).getD 0)) rfl rfl (w.grown x)
      exact (SameBut.of_only ((sameBut_completed [.se] s).trans (SameBut.of_started hsame)) (hend hcomes hu).2)
    · have hcomes := comes_now (c := s.reading ((s.se.switch.map (·.load.q.tag)).getD 0)) rfl rfl (w := w.grown x) hch
      rw [hpassed] at hcomes
      obtain ⟨h1, h2⟩ := hend hcomes ⟨rfl, rfl, rfl⟩
      exact ⟨h1, h2.se⟩
    · have hcomes := comes_pending (c := s.reading ((s.se.switch.map (·.load.q.tag)).getD 0)) rfl rfl (w := w.grown x) (n := h.day + 1)
        (fun hn => nomatch hch.symm.trans hn) (by rw [show (w.grown x).choice = .nextDay from hch]; exact congrArg (Option.map _) hmark)
      rw [hpassed] at hcomes
      obtain ⟨h1, h2⟩ := hend hcomes ⟨rfl, rfl, rfl⟩
      exact ⟨h1, h2.se⟩
    · have hcomes := comes_pending (c := s.reading ((s.se.switch.map (·.load.q.tag)).getD 0)) rfl rfl (w := w.grown x) (n := n)
        (fun hn => nomatch hch.symm.trans hn) (by rw [show (w.grown x).choice = .atDay n from hch]; exact effectiveDay_ahead hmark hlt)
      rw [hpassed] at hcomes
      obtain ⟨h1, h2⟩ := hend hcomes ⟨rfl, rfl, rfl⟩
      exact ⟨h1, h2.se⟩
    · have hcomes := comes_passed (c := s.reading ((s.se.switch.map (·.load.q.tag)).getD 0)) rfl rfl (w := w.grown x)
        (fun hn => nomatch hch.symm.trans hn) (by rw [show (w.grown x).choice = .atDay n from hch]; exact effectiveDay_behind hmark hle)
      obtain ⟨h1, h2⟩ := hend hcomes ⟨rfl, rfl, rfl⟩
      exact ⟨h1, h2.se⟩

end Sys2Proof.Machine
end

