-- ==== Sys2Proof/Proofs/Decoders.lean ====
section
/-! SUPPORT. What the decoders of staged records find at fault, and what they read (section 11.6; R28 to R180). -/

namespace Sys2Proof.Machine
open Sys2Proof

theorem checked_ite {α : Type} {p : Prop} [Decidable p] {fault : Prop} {x : α} (h : p ↔ fault) : Checked fault x (if p then none else some x) :=
  ⟨fun hf => if_pos (h.mpr hf), fun hf => if_neg fun hp => hf (h.mp hp)⟩

/-- A record that is at fault, or read as a value. -/
theorem checked_of {α : Type} {p : Prop} [Decidable p] {fault : Prop} {x : α} {r : Option α} (hr : r = if p then none else some x) (h : p ↔ fault) :
    Checked fault x r := hr ▸ checked_ite h

theorem checked_eq {α : Type} {p : Prop} [Decidable p] {fault : Prop} {x y : α} {r : Option α} (hr : r = if p then none else some y) (h : p ↔ fault)
    (hy : y = x) : Checked fault x r := hy ▸ checked_of hr h

theorem yesByte_eq (d : List Byte) (i : Nat) : yesByte d i = decide (byteAt d i ≠ 0) := by
  rw [Bool.eq_iff_iff]
  simp [yesByte]

/-- Two checks, one after the other. -/
theorem checked_two {α : Type} {p p' : Prop} [Decidable p] [Decidable p'] {fault : Prop} {x : α} (h : p ∨ p' ↔ fault) :
    Checked fault x (if p then none else if p' then none else some x) := by
  refine ⟨fun hf => ?_, fun hf => ?_⟩
  · rcases h.mpr hf with hp | hp
    · exact if_pos hp
    · rw [if_pos hp, ite_self]
  · rw [if_neg fun hp => hf (h.mp (.inl hp)), if_neg fun hp => hf (h.mp (.inr hp))]

/-! ### Profiles and spans (R28, R30) -/

/-- A value within a mask. -/
theorem within_mask_iff {w : Nat} (v m : BitVec w) : v &&& ~~~m = 0 ↔ ¬ ∃ i, i < w ∧ v.getLsbD i = true ∧ m.getLsbD i = false := by
  constructor
  · rintro h ⟨i, hi, hv, hm⟩
    have hb := congrArg (fun b => b.getLsbD i) h
    rw [BitVec.getLsbD_and, BitVec.getLsbD_not, hv, hm] at hb
    simp [hi] at hb
  · intro h
    refine BitVec.eq_of_getLsbD_eq fun i hi => ?_
    have hn : ¬ (v.getLsbD i = true ∧ m.getLsbD i = false) := fun hb => h ⟨i, hi, hb⟩
    cases hv : v.getLsbD i <;> cases hm : m.getLsbD i <;> simp_all

theorem decodeProfile_checked (d : List Byte) :
    Checked (∃ i, i < 8 ∧ (BitVec.ofNat 8 (byteAt d 3)).getLsbD i = true ∧ (BitVec.ofNat 8 (byteAt d 2)).getLsbD i = false)
      ⟨leAt d 0 2, BitVec.ofNat 8 (byteAt d 2), BitVec.ofNat 8 (byteAt d 3)⟩ (decodeProfile d) := by
  have h := within_mask_iff (BitVec.ofNat 8 (byteAt d 3)) (BitVec.ofNat 8 (byteAt d 2))
  constructor
  · exact fun hf => if_neg fun hm => h.mp hm hf
  · exact fun hf => if_pos (h.mpr hf)

theorem decodeSpan_checked (d : List Byte) :
    Checked (36525 < leAt d 0 2 ∨ 36525 < leAt d 2 2 ∨ leAt d 2 2 < leAt d 0 2 ∨ 15 < byteAt d 5)
      ⟨leAt d 0 2, leAt d 2 2, BitVec.ofNat 8 (byteAt d 4) &&& 0x7F, byteAt d 5⟩ (decodeSpan d) := by
  refine checked_of rfl ?_
  simp only [Bool.or_eq_true, decide_eq_true_eq, or_assoc]

/-! ### Zones and groups (R61, R62) -/

theorem decodeZone_checked (d : List Byte) :
    Checked (7 < byteAt d 1 ∨ (BitVec.ofNat 16 (leAt d 2 2)).getLsbD 11 = true)
      ⟨(BitVec.ofNat 8 (byteAt d 0)).getLsbD 0, byteAt d 1, BitVec.ofNat 12 (leAt d 2 2), (BitVec.ofNat 8 (byteAt d 0)).getLsbD 1,
        (BitVec.ofNat 8 (byteAt d 0)).getLsbD 2, (BitVec.ofNat 8 (byteAt d 0)).getLsbD 3⟩ (decodeZone d) := by
  refine checked_of rfl ?_
  rw [Bool.or_eq_true, decide_eq_true_eq, BitVec.getLsbD_ofNat, BitVec.getLsbD_ofNat]
  simp

theorem zoneBytes_any (d : List Byte) (i n : Nat) : (zoneBytes d i n).any (· > 63) = true ↔ ∃ k, k < n ∧ 63 < byteAt d (i + k) := by
  simp [zoneBytes]

theorem zoneBytes_nodup (d : List Byte) (i n : Nat) : ¬ (zoneBytes d i n).Nodup ↔ ∃ j k, j < k ∧ k < n ∧ byteAt d (i + j) = byteAt d (i + k) := by
  have hget {k : Nat} (hk : k < n) : (zoneBytes d i n)[k]? = some (byteAt d (i + k)) := by
    rw [zoneBytes, List.getElem?_map, List.getElem?_range hk]
    rfl
  have hlen : (zoneBytes d i n).length = n := by rw [zoneBytes, List.length_map, List.length_range]
  rw [List.nodup_iff_getElem?_ne_getElem?, hlen]
  constructor
  · intro h
    by_contra hn
    refine h fun j k hjk hk he => hn ⟨j, k, hjk, hk, ?_⟩
    rw [hget hk, hget (hjk.trans hk)] at he
    exact Option.some.inj he
  · rintro ⟨j, k, hjk, hk, he⟩ h
    refine h j k hjk hk ?_
    rw [hget hk, hget (hjk.trans hk), he]

/-- The set of the zones that a list names. -/
theorem zoneSetOf_mem (l : List Nat) {z : Nat} (hz : z < 64) : (zoneSetOf l).getLsbD z = true ↔ z ∈ l := by
  have hfold : ∀ (l : List Nat) (m : ZoneSet),
      (l.foldl (fun m z => m ||| BitVec.twoPow 64 z) m).getLsbD z = true ↔ m.getLsbD z = true ∨ z ∈ l := by
    intro l
    induction l with
    | nil => exact fun m => by simp
    | cons x l ih =>
      intro m
      rw [List.foldl_cons, ih, BitVec.getLsbD_or, BitVec.getLsbD_twoPow, List.mem_cons]
      simp only [Bool.or_eq_true, Bool.and_eq_true, decide_eq_true_eq, or_assoc]
      constructor
      · rintro (h | ⟨-, h⟩ | h)
        · exact .inl h
        · exact .inr (.inl h.symm)
        · exact .inr (.inr h)
      · rintro (h | h | h)
        · exact .inl h
        · exact .inr (.inl ⟨h ▸ hz, h.symm⟩)
        · exact .inr (.inr h)
  rw [zoneSetOf, hfold]
  simp

theorem decodeGroup_fault (d : List Byte) : (64 < byteAt d 0 ∨ (∃ k, k < byteAt d 0 ∧ 63 < byteAt d (1 + k))
    ∨ ∃ j k, j < k ∧ k < byteAt d 0 ∧ byteAt d (1 + j) = byteAt d (1 + k)) → decodeGroup d = none := by
  intro h
  refine if_pos ?_
  rw [← zoneBytes_any, ← zoneBytes_nodup] at h
  simpa [or_assoc] using h

theorem decodeGroup_read (d : List Byte) (h : ¬ (64 < byteAt d 0 ∨ (∃ k, k < byteAt d 0 ∧ 63 < byteAt d (1 + k))
    ∨ ∃ j k, j < k ∧ k < byteAt d 0 ∧ byteAt d (1 + j) = byteAt d (1 + k))) :
    decodeGroup d = some (zoneSetOf (zoneBytes d 1 (byteAt d 0))) := by
  refine if_neg ?_
  rw [← zoneBytes_any, ← zoneBytes_nodup] at h
  simpa [or_assoc] using h

theorem zoneBytes_mem (d : List Byte) (i n z : Nat) : z ∈ zoneBytes d i n ↔ ∃ k, k < n ∧ byteAt d (i + k) = z := by
  simp [zoneBytes]

/-! ### Patterns and channels (R85, R101) -/

theorem checked_not {α : Type} {p : Prop} [Decidable p] {fault : Prop} {x : α} {r : Option α} (hr : r = if p then some x else none) (h : ¬ p ↔ fault) :
    Checked fault x r :=
  ⟨fun hf => hr.trans (if_neg (h.mpr hf)), fun hf => hr.trans (if_pos (Decidable.not_not.mp fun hp => hf (h.mp hp)))⟩

theorem decodePattern_checked (d : List Byte) (hn : byteAt d 0 ≠ 0) :
    Checked (16 < byteAt d 0 ∨ 250 < byteAt d 1 ∨ 15 < byteAt d 4 ∨ ∀ k, k < byteAt d 0 → leAt d (6 + 4 * k) 2 = 0 ∧ leAt d (8 + 4 * k) 2 = 0)
      (⟨(List.range (byteAt d 0)).map fun k => ⟨min (leAt d (6 + 4 * k) 2) 10000, min (leAt d (8 + 4 * k) 2) 10000⟩, byteAt d 1,
          max 200 (min 4000 (leAt d 2 2)), byteAt d 4⟩,
        decide ((∃ k, k < byteAt d 0 ∧ (10000 < leAt d (6 + 4 * k) 2 ∨ 10000 < leAt d (8 + 4 * k) 2)) ∨ (leAt d 2 2 < 200 ∨ 4000 < leAt d 2 2)))
      (decodePattern d) := by
  rw [← clampNat_eq (by decide)]
  refine checked_eq (if_neg hn) ?_ (Prod.ext ?_ ?_)
  · simp [or_assoc]
  · simp
  · rw [Bool.eq_iff_iff]
    simp [or_assoc]

theorem decodeChannel_checked (d : List Byte) :
    Checked (leAt d 0 2 ≠ 512 ∧ leAt d 0 2 ≠ 1024 ∧ leAt d 0 2 ≠ 1536)
      (⟨leAt d 0 2, max 500 (min 5000 (leAt d 2 2)), min (leAt d 4 2) 2000⟩, decide ((leAt d 2 2 < 500 ∨ 5000 < leAt d 2 2) ∨ 2000 < leAt d 4 2))
      (decodeChannel d) := by
  rw [← clampNat_eq (by decide)]
  refine checked_not (p := (leAt d 0 2 = 512 || leAt d 0 2 = 1024 || leAt d 0 2 = 1536) = true) ?_ ?_
  · unfold decodeChannel
    dsimp only
    congr 3
    simp
  · simp [and_assoc]

/-! ### Drills (R126) -/

theorem decodeDrill_checked (table : List Pattern) (d : List Byte) :
    Checked (BitVec.ofNat 8 (byteAt d 0) = 0 ∨ (leAt d 1 2 < 30 ∨ 900 < leAt d 1 2) ∨ (leAt d 3 2 < 60 ∨ 1800 < leAt d 3 2)
        ∨ byteAt d 6 ≠ 0xFF ∧ (30 < byteAt d 6 ∨ (table.getD (byteAt d 6) Pattern.empty).steps = [] ∨ 63 < byteAt d 7))
      ⟨true, BitVec.ofNat 8 (byteAt d 0), leAt d 1 2, leAt d 3 2, decide (byteAt d 5 ≠ 0), if byteAt d 6 = 0xFF then none else some (byteAt d 6), byteAt d 7⟩
      (decodeDrill table d) := by
  rw [← yesByte_eq]
  unfold decodeDrill
  dsimp only
  by_cases h6 : byteAt d 6 = 0xFF
  · rw [if_pos h6, if_pos h6]
    refine checked_of rfl ?_
    simp [h6, or_assoc]
  · rw [if_neg h6, if_neg h6]
    refine checked_two ?_
    simp [h6, or_assoc]

/-! ### Circuits and lines (R143, R154) -/

theorem decodeCircuit_checked (pos : Nat) (d : List Byte) :
    let w := max 200 (min 1000 (leAt d 3 2))
    Checked ((leAt d 1 2 ≠ 720 ∧ leAt d 1 2 ≠ 1440) ∨ (leAt d 1 2 = 720 ∧ 720 ≤ pos))
      (⟨decide (byteAt d 0 ≠ 0), leAt d 1 2, w, max (w + 200) (min 10000 (leAt d 5 2)), min (byteAt d 7) 120⟩,
        decide ((leAt d 3 2 < 200 ∨ 1000 < leAt d 3 2) ∨ (leAt d 5 2 < w + 200 ∨ 10000 < leAt d 5 2) ∨ 120 < byteAt d 7)) (decodeCircuit pos d) := by
  intro w
  have hw : clampNat 200 1000 (leAt d 3 2) = w := clampNat_eq (by decide) _
  have hw2 : clampNat (w + 200) 10000 (leAt d 5 2) = max (w + 200) (min 10000 (leAt d 5 2)) := clampNat_eq (by omega) _
  refine checked_eq (p := _) rfl ?_ (Prod.ext ?_ ?_)
  · simp
  · simp only [hw, hw2, yesByte_eq]
  · rw [Bool.eq_iff_iff]
    simp [hw, or_assoc]

theorem decodeLine_checked (d : List Byte) :
    Checked ((byteAt d 1 ≠ 10 ∧ byteAt d 1 ≠ 20 ∧ byteAt d 1 ≠ 40 ∧ byteAt d 1 ≠ 80) ∨ 3 < byteAt d 2 ∨ (byteAt d 4 < 1 ∨ 7 < byteAt d 4))
      (⟨decide (byteAt d 0 ≠ 0), byteAt d 1, byteAt d 2, decide (byteAt d 3 ≠ 0), byteAt d 4, BitVec.ofNat 4 (byteAt d 5), max 5 (min 600 (leAt d 6 2))⟩,
        decide (leAt d 6 2 < 5 ∨ 600 < leAt d 6 2)) (decodeLine d) := by
  rw [← clampNat_eq (by decide)]
  refine checked_eq (p := _) rfl ?_ (Prod.ext ?_ ?_)
  · simp [and_assoc, or_assoc]
  · simp only [yesByte_eq]
  · rw [Bool.eq_iff_iff]
    simp

/-! ### Members and the IO table (R171, R180) -/

theorem decodeMember_checked (earlier : List Member) (d : List Byte) :
    Checked (7 < byteAt d 4 ∨ 4 < byteAt d 5 ∨ (∃ k, k < byteAt d 5 ∧ 63 < byteAt d (6 + k))
        ∨ (∃ j k, j < k ∧ k < byteAt d 5 ∧ byteAt d (6 + j) = byteAt d (6 + k)) ∨ 15 < byteAt d 10 ∨ ∃ m, m ∈ earlier ∧ m.unit = leAt d 0 4)
      ⟨leAt d 0 4, byteAt d 4, (List.range (byteAt d 5)).map fun k => byteAt d (6 + k), byteAt d 10⟩ (decodeMember earlier d) := by
  refine checked_of (p := _) rfl ?_
  rw [← zoneBytes_any, ← zoneBytes_nodup]
  simp [or_assoc]

theorem decodeIoHeader_checked (d : List Byte) :
    Checked (1 < byteAt d 0) (decide (byteAt d 0 = 0), BitVec.ofNat 6 (byteAt d 1)) (decodeIoHeader d) := by
  unfold decodeIoHeader
  rcases h : byteAt d 0 with _ | _ | n
  · exact ⟨fun hf => by omega, fun _ => rfl⟩
  · exact ⟨fun hf => by omega, fun _ => rfl⟩
  · exact ⟨fun _ => rfl, fun hf => by omega⟩

theorem decodeOutput_checked (k : Nat) (d : List Byte) :
    Checked (3 < byteAt d 0 ∨ (byteAt d 0 = 1 ∧ k = 11))
      (match byteAt d 0 with | 1 => .zone | 2 => .drillLamp | 3 => .trouble | _ => .plain) (decodeOutput k d) := by
  unfold decodeOutput
  rcases h : byteAt d 0 with _ | _ | _ | _ | n
  · exact ⟨fun hf => by omega, fun _ => rfl⟩
  · exact ⟨fun hf => if_pos (by omega), fun hf => if_neg (by omega)⟩
  · exact ⟨fun hf => by omega, fun _ => rfl⟩
  · exact ⟨fun hf => by omega, fun _ => rfl⟩
  · exact ⟨fun _ => rfl, fun hf => by omega⟩

/-- R180: the function an input's record names, where it is in order. -/
def inputFunc (d : List Byte) : InFunc :=
  match byteAt d 0 with
  | 1 => .fireAlarm | 2 => .marshalClear (byteAt d 1) | 3 => .bellPush (byteAt d 1) (byteAt d 2) | 4 => .drillKey (byteAt d 1)
  | 5 => .ptt (byteAt d 1) | 6 => .reference | _ => .plain

/-- What makes an input's record one at fault. -/
def inputFault (k : Nat) (d : List Byte) : Prop :=
  6 < byteAt d 0 ∨ (byteAt d 0 = 1 ∧ k ≠ 11) ∨ (byteAt d 0 = 2 ∧ 7 < byteAt d 1) ∨ (byteAt d 0 = 3 ∧ (63 < byteAt d 1 ∨ 31 < byteAt d 2))
    ∨ (byteAt d 0 = 4 ∧ 7 < byteAt d 1) ∨ (byteAt d 0 = 5 ∧ 1 < byteAt d 1) ∨ (byteAt d 0 = 6 ∧ k ≠ 0)

theorem checked_map {α β : Type} {fault : Prop} {x : α} {r : Option α} (h : Checked fault x r) (f : α → β) : Checked fault (f x) (r.map f) :=
  ⟨fun hf => by rw [h.1 hf]; rfl, fun hf => by rw [h.2 hf]; rfl⟩

theorem decodeInput_checked (k : Nat) (d : List Byte) :
    Checked (inputFault k d) ((inputFunc d, max 10 (min 2000 (leAt d 4 2))), decide (leAt d 4 2 < 10 ∨ 2000 < leAt d 4 2)) (decodeInput k d) := by
  have hdec : decide (leAt d 4 2 < 10 ∨ 2000 < leAt d 4 2) = (leAt d 4 2 < 10 || leAt d 4 2 > 2000 : Bool) := by
    rw [Bool.eq_iff_iff]
    simp
  rw [hdec, ← clampNat_eq (by decide)]
  refine checked_map (f := fun f => ((f, clampNat 10 2000 (leAt d 4 2)), (leAt d 4 2 < 10 || leAt d 4 2 > 2000 : Bool))) ?_
  unfold inputFault inputFunc
  rcases h : byteAt d 0 with _ | _ | _ | _ | _ | _ | _ | n
  · exact ⟨fun hf => by omega, fun _ => rfl⟩
  · exact ⟨fun hf => if_neg (by omega), fun hf => if_pos (by omega)⟩
  · exact ⟨fun hf => if_neg (by omega), fun hf => if_pos (by omega)⟩
  · exact ⟨fun hf => if_neg (by simp; omega), fun hf => if_pos (by simp; omega)⟩
  · exact ⟨fun hf => if_neg (by omega), fun hf => if_pos (by omega)⟩
  · exact ⟨fun hf => if_neg (by omega), fun hf => if_pos (by omega)⟩
  · exact ⟨fun hf => if_neg (by omega), fun hf => if_pos (by omega)⟩
  · exact ⟨fun _ => rfl, fun hf => by omega⟩

/-! ### Schedule entries (R43) -/

/-- What makes the fields a BELL or CHIME entry uses ones at fault. -/
def soundFault (table : List Pattern) (groups : List ZoneSet) (d : List Byte) (bell : Bool) : Prop :=
  63 < byteAt d 9 ∨ 31 < byteAt d 10 ∨ (byteAt d 11 < 2 ∨ 9 < byteAt d 11) ∨ 120 < byteAt d 12
    ∨ (¬ (bell = true ∧ (patternOf table (byteAt d 10)).repeats ≠ 0) ∧ (leAt d 13 2 < 1 ∨ 600 < leAt d 13 2))
    ∨ (patternOf table (byteAt d 10)).steps = [] ∨ groups.getD (byteAt d 9) 0 = 0

theorem soundFieldsOk_iff (table : List Pattern) (groups : List ZoneSet) (d : List Byte) (bell : Bool) :
    soundFieldsOk table groups bell (byteAt d 9) (byteAt d 10) (byteAt d 11) (byteAt d 12) (leAt d 13 2) = true ↔ ¬ soundFault table groups d bell := by
  unfold soundFieldsOk soundFault Pattern.isEmpty
  simp only [Bool.and_eq_true, Bool.or_eq_true, decide_eq_true_eq, bne_iff_ne, Bool.not_eq_true', List.isEmpty_eq_false_iff, not_or, not_and,
    Nat.not_lt, not_not, and_assoc, ne_eq]
  have hd : (bell = true ∧ ¬ (patternOf table (byteAt d 10)).repeats = 0 ∨ 1 ≤ leAt d 13 2 ∧ leAt d 13 2 ≤ 600) ↔
      (¬ (bell = true → (patternOf table (byteAt d 10)).repeats = 0) ∨ 1 ≤ leAt d 13 2 ∧ leAt d 13 2 ≤ 600) := by tauto
  tauto

/-- The kind a staged entry names, where it is in order. -/
def entryKindOf (d : List Byte) : EntryKind :=
  match byteAt d 8 with
  | 0 => .bell (byteAt d 9) (byteAt d 10) (byteAt d 11) (byteAt d 12) (leAt d 13 2)
  | 1 => .chime (byteAt d 9) (byteAt d 10) (byteAt d 11) (byteAt d 12) (leAt d 13 2)
  | 2 => .drill (byteAt d 15)
  | 3 => .flags (BitVec.ofNat 8 (byteAt d 16)) (BitVec.ofNat 8 (byteAt d 17))
  | _ => .mark (leAt d 18 2)

/-- Two options that make one when both have a value. -/
def bothOf {α β γ : Type} (mk : α → β → γ) (a : Option α) (b : Option β) : Option γ :=
  match a, b with
  | some x, some y => some (mk x y)
  | _, _ => none

/-- A staged entry whose condition and kind are read apart. -/
theorem checked_both {α β γ : Type} {p : Prop} [Decidable p] {f g h : Prop} {x : α} {y : β} {a : Option α} {b : Option β} {mk : α → β → γ}
    (hp : p ↔ f) (ha : Checked g x a) (hb : Checked h y b) : Checked (f ∨ g ∨ h) (mk x y) (if p then none else bothOf mk a b) := by
  refine ⟨fun hf => ?_, fun hf => ?_⟩
  · split
    · rfl
    · next hn =>
      rcases hf with hf | hf | hf
      · exact absurd (hp.mpr hf) hn
      · rw [ha.1 hf]
        rfl
      · rw [hb.1 hf]
        cases a <;> rfl
  · rw [if_neg fun hq => hf (.inl (hp.mp hq)), ha.2 fun hq => hf (.inr (.inl hq)), hb.2 fun hq => hf (.inr (.inr hq))]
    rfl

/-- R40: the condition a staged entry names. -/
def entryCond (d : List Byte) : Option (Option Condition) :=
  if byteAt d 6 = 0xFF then some none
  else if byteAt d 6 ≤ 7 && byteAt d 7 ≤ 1 then some (some ⟨byteAt d 6, byteAt d 7 == 1⟩) else none

theorem entryCond_checked (d : List Byte) : Checked (byteAt d 6 ≠ 0xFF ∧ (7 < byteAt d 6 ∨ 1 < byteAt d 7))
    (if byteAt d 6 = 0xFF then none else some ⟨byteAt d 6, decide (byteAt d 7 = 1)⟩) (entryCond d) := by
  unfold entryCond
  by_cases h : byteAt d 6 = 0xFF
  · rw [if_pos h, if_pos h]
    exact ⟨fun hf => absurd h hf.1, fun _ => rfl⟩
  · rw [if_neg h, if_neg h]
    refine checked_not rfl ?_
    simp [h]
    omega

/-- R40: the kind a staged entry names, with its checks. -/
def entryKind? (table : List Pattern) (groups : List ZoneSet) (drills : List DrillRec) (d : List Byte) : Option EntryKind :=
  match byteAt d 8 with
  | 0 => if soundFieldsOk table groups true (byteAt d 9) (byteAt d 10) (byteAt d 11) (byteAt d 12) (leAt d 13 2)
      then some (.bell (byteAt d 9) (byteAt d 10) (byteAt d 11) (byteAt d 12) (leAt d 13 2)) else none
  | 1 => if soundFieldsOk table groups false (byteAt d 9) (byteAt d 10) (byteAt d 11) (byteAt d 12) (leAt d 13 2)
      then some (.chime (byteAt d 9) (byteAt d 10) (byteAt d 11) (byteAt d 12) (leAt d 13 2)) else none
  | 2 => if (drills.getD (byteAt d 15) DrillRec.undefined).defined then some (.drill (byteAt d 15)) else none
  | 3 => some (.flags (BitVec.ofNat 8 (byteAt d 16)) (BitVec.ofNat 8 (byteAt d 17)))
  | 4 => some (.mark (leAt d 18 2))
  | _ => none

/-- What makes a staged entry's kind one at fault. -/
def kindFault (table : List Pattern) (groups : List ZoneSet) (drills : List DrillRec) (d : List Byte) : Prop :=
  4 < byteAt d 8 ∨ (byteAt d 8 = 0 ∧ soundFault table groups d true) ∨ (byteAt d 8 = 1 ∧ soundFault table groups d false)
    ∨ (byteAt d 8 = 2 ∧ (drills.getD (byteAt d 15) DrillRec.undefined).defined = false)

theorem checked_sound {α : Type} {fault : Prop} {x : α} {b : Bool} {r : Option α} (hr : r = if b then some x else none) (h : b = true ↔ ¬ fault) :
    Checked fault x r :=
  ⟨fun hf => hr.trans (if_neg fun hb => h.mp hb hf), fun hf => hr.trans (if_pos (h.mpr hf))⟩

theorem Checked.congr {α : Type} {f g : Prop} {x : α} {r : Option α} (h : Checked f x r) (hg : f ↔ g) : Checked g x r :=
  ⟨fun hf => h.1 (hg.mpr hf), fun hf => h.2 fun hx => hf (hg.mp hx)⟩

theorem entryKind_checked (table : List Pattern) (groups : List ZoneSet) (drills : List DrillRec) (d : List Byte) :
    Checked (kindFault table groups drills d) (entryKindOf d) (entryKind? table groups drills d) := by
  unfold kindFault entryKindOf entryKind?
  rcases h : byteAt d 8 with _ | _ | _ | _ | _ | n
  · exact (checked_sound rfl (soundFieldsOk_iff table groups d true)).congr (by simp)
  · exact (checked_sound rfl (soundFieldsOk_iff table groups d false)).congr (by simp)
  · exact (checked_sound (fault := (drills.getD (byteAt d 15) DrillRec.undefined).defined = false) rfl (by simp)).congr (by simp)
  · exact ⟨fun hf => by simp at hf, fun _ => rfl⟩
  · exact ⟨fun hf => by simp at hf, fun _ => rfl⟩
  · exact ⟨fun _ => rfl, fun hf => (hf (.inl (by omega))).elim⟩

/-- R43: the condition and the kind of a staged entry are read apart. -/
theorem decodeEntry_eq (table : List Pattern) (groups : List ZoneSet) (drills : List DrillRec) (floor : Nat) (d : List Byte) :
    decodeEntry table groups drills floor d = if (leAt d 0 4 > 86399 || leAt d 0 4 < floor) = true then none
      else bothOf (fun c k => (⟨leAt d 0 4, BitVec.ofNat 16 (leAt d 4 2), c, k⟩ : Entry)) (entryCond d) (entryKind? table groups drills d) := by
  unfold decodeEntry entryCond entryKind?
  dsimp only
  congr 1
  generalize (if byteAt d 6 = 0xFF then some none
    else if byteAt d 6 ≤ 7 && byteAt d 7 ≤ 1 then some (some ⟨byteAt d 6, byteAt d 7 == 1⟩) else none : Option (Option Condition)) = a
  generalize byteAt d 8 = n
  generalize soundFieldsOk table groups true (byteAt d 9) (byteAt d 10) (byteAt d 11) (byteAt d 12) (leAt d 13 2) = b0
  generalize soundFieldsOk table groups false (byteAt d 9) (byteAt d 10) (byteAt d 11) (byteAt d 12) (leAt d 13 2) = b1
  generalize (drills.getD (byteAt d 15) DrillRec.undefined).defined = b2
  rcases n with _ | _ | _ | _ | _ | n
  · cases a <;> cases b0 <;> rfl
  · cases a <;> cases b1 <;> rfl
  · cases a <;> cases b2 <;> rfl
  all_goals cases a <;> rfl

theorem decodeEntry_checked (table : List Pattern) (groups : List ZoneSet) (drills : List DrillRec) (floor : Nat) (d : List Byte) :
    Checked ((leAt d 0 4 < floor ∨ 86399 < leAt d 0 4) ∨ (byteAt d 6 ≠ 0xFF ∧ (7 < byteAt d 6 ∨ 1 < byteAt d 7)) ∨ kindFault table groups drills d)
      ⟨leAt d 0 4, BitVec.ofNat 16 (leAt d 4 2), if byteAt d 6 = 0xFF then none else some ⟨byteAt d 6, decide (byteAt d 7 = 1)⟩, entryKindOf d⟩
      (decodeEntry table groups drills floor d) := by
  have h := checked_both (p := (leAt d 0 4 > 86399 || leAt d 0 4 < floor) = true) (f := leAt d 0 4 < floor ∨ 86399 < leAt d 0 4)
    (mk := fun c k => (⟨leAt d 0 4, BitVec.ofNat 16 (leAt d 4 2), c, k⟩ : Entry)) (by simp [or_comm])
    (entryCond_checked d) (entryKind_checked table groups drills d)
  rw [decodeEntry_eq]
  exact h

/-- Settles O41: each decoder checks what the statement names as the record's faults, and reads the values it names. -/
theorem stagedRecordsAreChecked : Obligations.StagedRecordsAreChecked := by
  intro d
  refine ⟨decodeProfile_checked d, decodeSpan_checked d, decodeZone_checked d, decodeGroup_fault d, fun h => ⟨_, decodeGroup_read d h, fun z hz => ?_⟩,
    fun h => if_pos h, decodePattern_checked d, decodeChannel_checked d, fun table => decodeDrill_checked table d, fun pos => decodeCircuit_checked pos d,
    decodeLine_checked d, fun earlier => decodeMember_checked earlier d, decodeIoHeader_checked d,
    fun k => ⟨decodeInput_checked k d, decodeOutput_checked k d⟩, fun table groups drills floor => ?_⟩
  · rw [zoneSetOf_mem _ hz, zoneBytes_mem]
  · exact (decodeEntry_checked table groups drills floor d).congr or_assoc

end Sys2Proof.Machine
end

