-- ==== Sys2Proof/Proofs/Nominal.lean ====
section
/-! SUPPORT. The nominal millisecond (R5, R6, R8, R26, R185). -/

namespace Sys2Proof.Machine
open Sys2Proof

/-! ### The terms of a nominal millisecond -/

/-- R5: the trim term of an accumulator that has taken the trim. -/
def trimOf (a : Int) : Int := if a ≥ 10000000 then 1 else if a ≤ -10000000 then -1 else 0

theorem trimTerm_eq (acc trim : Int) : trimTerm acc trim = (trimOf (acc + trim), acc + trim - 10000000 * trimOf (acc + trim)) := by
  unfold trimTerm trimOf
  dsimp only
  split
  · rfl
  · split
    · simp
    · simp

/-- The items of the Time Base that only the millisecond's own counts move. -/
def TimeBase.counts (tb : TimeBase) : Int × Int × Int × RefMode × Option DstRule × Nat × Bool :=
  (tb.acc, tb.pc, tb.trim, tb.refMode, tb.dst, tb.slewCount, tb.slewLate)

theorem slewDone_counts (tb : TimeBase) (now : Nat) : (tb.slewDone now).counts = tb.counts := by
  unfold TimeBase.slewDone
  split
  · rfl
  · split <;> rfl

theorem slewDone_clock (tb : TimeBase) (now : Nat) : (tb.slewDone now).campus = tb.campus ∧ (tb.slewDone now).saturated = tb.saturated := by
  unfold TimeBase.slewDone
  split
  · exact ⟨rfl, rfl⟩
  · split <;> exact ⟨rfl, rfl⟩

/-- R6: the slew term of this millisecond. -/
def TimeBase.slewTerm (tb : TimeBase) : Int :=
  if tb.stepDue && !(tb.stepDue && pcSign tb.pc = -1 && trimOf (tb.acc + tb.trim) = -1) then pcSign tb.pc else 0

theorem nominal_advance (tb : TimeBase) (now : Nat) : (tb.nominal now).advance = 1 + trimOf (tb.acc + tb.trim) + tb.slewTerm := by
  unfold TimeBase.nominal TimeBase.slewTerm
  rw [trimTerm_eq]

theorem nominal_counts (tb : TimeBase) (now : Nat) : (tb.nominal now).tb.counts =
    (tb.acc + tb.trim - 10000000 * trimOf (tb.acc + tb.trim), tb.pc - tb.slewTerm, tb.trim, tb.refMode, tb.dst,
      (if tb.pc = 0 then 0 else if tb.slewCount + 1 ≥ 100 then 0 else tb.slewCount + 1),
      tb.stepDue && pcSign tb.pc = -1 && trimOf (tb.acc + tb.trim) = -1) := by
  unfold TimeBase.nominal TimeBase.slewTerm
  rw [trimTerm_eq]
  dsimp only
  split <;> (try rw [slewDone_counts]) <;> rfl

theorem nominal_clock (tb : TimeBase) (now : Nat) :
    (tb.nominal now).tb.campus = tb.campus ∧ (tb.nominal now).tb.saturated = tb.saturated := by
  unfold TimeBase.nominal
  dsimp only
  split
  · exact slewDone_clock _ _
  · exact ⟨rfl, rfl⟩

/-! ### The advance of campus time -/

/-- R8: campus time after an advance. -/
def TimeBase.campusAfter (n : Nat) (tb : TimeBase) : Option CampusTime :=
  if tb.saturated then tb.campus else tb.campus.map fun t => ofLin (min (t.lin + n) lastLin)

theorem campusAfter_congr {n : Nat} {tb tb' : TimeBase} (hc : tb.campus = tb'.campus) (hs : tb.saturated = tb'.saturated) :
    tb.campusAfter n = tb'.campusAfter n := by
  unfold TimeBase.campusAfter
  simp only [hc, hs]

/-- What an advance of campus time leaves of the clock, with nothing outstanding but the events of civil time. -/
structure Clocked (n : Nat) (c d : Ctx) : Prop where
  counts : d.st.tb.counts = c.st.tb.counts
  campus : d.st.tb.campus = c.st.tb.campusAfter n
  elapsed : d.st.elapsed = c.st.elapsed
  noStart : NoStart d.todo

theorem Clocked.call {n : Nat} {c d : Ctx} (h : Clocked n c d) {ws : List Work} (hw : NoStart ws) : Clocked n c (d.call ws) :=
  ⟨h.counts, h.campus, h.elapsed, fun q m hm => (List.mem_append.1 hm).elim (h.noStart q m) (hw q m)⟩

theorem Clocked.civilEvents {n : Nat} {c d : Ctx} (h : Clocked n c d) (old new : CampusTime) : Clocked n c (civilEvents old new d) := by
  have hs : Clocked n c (if old.lin / 1000 = new.lin / 1000 then d else d.call [.secondEvent new]) := by
    split
    · exact h
    · exact h.call (by intro q m; simp)
  unfold Machine.civilEvents
  dsimp only
  split
  · exact hs
  · exact hs.call (by intro q m; simp)

theorem Clocked.record {n : Nat} {c d : Ctx} (h : Clocked n c d) (nt : Note) : Clocked n c (d.record nt) :=
  ⟨by simpa using h.counts, by simpa using h.campus, by simpa using h.elapsed, h.noStart⟩

theorem Clocked.saturates {n : Nat} {c d : Ctx} (h : Clocked n c d) (b : Bool) :
    Clocked n c (d.upd (State.setTb fun tb => { tb with saturated := b })) := ⟨h.counts, h.campus, h.elapsed, h.noStart⟩

theorem Clocked.takesTrans {n : Nat} {c d : Ctx} (h : Clocked n c d) (t : CampusTime) :
    Clocked n c (d.upd (State.setTb fun tb => { tb with trans := instantsFor tb.dst t })) := ⟨h.counts, h.campus, h.elapsed, h.noStart⟩

theorem Clocked.takesOffset {n : Nat} {c d : Ctx} (h : Clocked n c d) (off : Nat) :
    Clocked n c (d.upd (State.setTb fun tb => { tb with offset := off })) := ⟨h.counts, h.campus, h.elapsed, h.noStart⟩

theorem advanceCampus_clocked (n : Nat) {c : Ctx} (ht : c.todo = []) : Clocked n c (advanceCampus n c) := by
  have hn : NoStart c.todo := by rw [ht]; intro q m; simp
  unfold advanceCampus
  split
  · next hc => exact ⟨rfl, by simp [TimeBase.campusAfter, hc], rfl, hn⟩
  · next t hc =>
    split
    · next hs => exact ⟨rfl, by simp [TimeBase.campusAfter, hs], rfl, hn⟩
    · next hs =>
      dsimp only
      have h1 : Clocked n c (c.upd (State.setTb fun tb => { tb with campus := some (ofLin (min (t.lin + n) lastLin)) })) :=
        ⟨rfl, by simp [TimeBase.campusAfter, hs, hc], rfl, hn⟩
      generalize c.upd (State.setTb fun tb => { tb with campus := some (ofLin (min (t.lin + n) lastLin)) }) = c1 at h1 ⊢
      have h2 : Clocked n c (if min (t.lin + n) lastLin = lastLin then
          (c1.upd (State.setTb fun tb => { tb with saturated := true })).record (timeLimitNote 0) else c1) := by
        split
        · exact (h1.saturates true).record _
        · exact h1
      generalize (if min (t.lin + n) lastLin = lastLin then
          (c1.upd (State.setTb fun tb => { tb with saturated := true })).record (timeLimitNote 0) else c1) = c2 at h2 ⊢
      have h3 : Clocked n c (if yearOf t.day = yearOf (ofLin (min (t.lin + n) lastLin)).day then c2
          else c2.upd (State.setTb fun tb => { tb with trans := instantsFor tb.dst (ofLin (min (t.lin + n) lastLin)) })) := by
        split
        · exact h2
        · exact h2.takesTrans _
      generalize (if yearOf t.day = yearOf (ofLin (min (t.lin + n) lastLin)).day then c2
          else c2.upd (State.setTb fun tb => { tb with trans := instantsFor tb.dst (ofLin (min (t.lin + n) lastLin)) })) = c3 at h3 ⊢
      split
      · split
        · exact h3.takesOffset _
        · exact (h3.takesOffset _).civilEvents _ _
      · exact ((h3.takesOffset _).record _).call (by intro q m; simp)

/-! ### A millisecond of a part in operation -/

/-- A millisecond with a slew term has passed from one state to another. -/
structure Ticked (slew : Int) (s t : State) : Prop where
  elapsed : t.elapsed = s.elapsed + 1
  acc : t.tb.acc = s.tb.acc + s.tb.trim - 10000000 * trimOf (s.tb.acc + s.tb.trim)
  pc : t.tb.pc = s.tb.pc - slew
  trim : t.tb.trim = s.tb.trim
  refMode : t.tb.refMode = s.tb.refMode
  dst : t.tb.dst = s.tb.dst
  slewCount : t.tb.slewCount = if s.tb.pc = 0 then 0 else if s.tb.slewCount + 1 ≥ 100 then 0 else s.tb.slewCount + 1
  slewLate : t.tb.slewLate = (s.tb.stepDue && pcSign s.tb.pc = -1 && trimOf (s.tb.acc + s.tb.trim) = -1)
  campus : t.tb.campus = s.tb.campusAfter (1 + trimOf (s.tb.acc + s.tb.trim) + slew).toNat

theorem Ticked.stays {slew : Int} {s t : State} (h : Ticked slew s t) (hs : s.tb.campus = none ∨ s.tb.saturated = true) :
    t.tb.campus = s.tb.campus := by
  rw [h.campus, TimeBase.campusAfter]
  rcases hs with hc | hs
  · rw [hc, Option.map_none, ite_self]
  · rw [if_pos hs]

theorem Ticked.moves {slew : Int} {s t : State} (h : Ticked slew s t) {old : CampusTime} (hc : s.tb.campus = some old)
    (hs : s.tb.saturated = false) :
    t.tb.campus = some (ofLin (min (old.lin + (1 + trimOf (s.tb.acc + s.tb.trim) + slew).toNat) lastLin)) := by
  rw [h.campus, TimeBase.campusAfter, if_neg (by simp [hs]), hc, Option.map_some]

theorem tick_ticked (s : State) : Ticked s.tb.slewTerm s (tick s.begin).close := by
  have hk := advanceCampus_clocked (s.tb.nominal (s.elapsed + 1)).advance.toNat (c := s.begin.upd fun u => { u with
    elapsed := s.elapsed + 1
    tb := { (s.tb.nominal (s.elapsed + 1)).tb with
      lossTimer := if (s.tb.nominal (s.elapsed + 1)).tb.lossRuns then (s.tb.nominal (s.elapsed + 1)).tb.lossTimer + 1
        else (s.tb.nominal (s.elapsed + 1)).tb.lossTimer }
    au := { u.au with anns := u.au.anns.map Ann.tick } }) rfl
  have hp := close_passed hk.noStart
  obtain ⟨hcampus, hsat⟩ := nominal_clock s.tb (s.elapsed + 1)
  have hcounts := ((congrArg TimeBase.counts hp.tb).trans hk.counts).trans (nominal_counts s.tb (s.elapsed + 1))
  have hmoved := (congrArg TimeBase.campus hp.tb).trans (hk.campus.trans (campusAfter_congr hcampus hsat))
  replace hmoved := hmoved.trans (congrArg (fun a : Int => s.tb.campusAfter a.toNat) (nominal_advance s.tb (s.elapsed + 1)))
  simp only [TimeBase.counts, Prod.mk.injEq] at hcounts
  obtain ⟨hacc, hpc, htrim, hmode, hdst, hcount, hlate⟩ := hcounts
  exact ⟨hp.elapsed.trans hk.elapsed, hacc, hpc, htrim, hmode, hdst, hcount, hlate, hmoved⟩

theorem exec_timeAdvance_of_running {s : State} (hr : s.running = true) : exec .timeAdvance s = .next (tick s.begin).close :=
  congrArg Host.Outcome.next ((if_pos hr).trans (event_of_running hr tick))

theorem exec_slewStep_of_due {s : State} (hr : s.running = true) (hd : s.tb.stepDue = true) :
    exec .slewStep s = .next (tick s.begin).close := congrArg Host.Outcome.next (eventWhen_of_running hr hd tick)

/-! ### Which slew term a millisecond has -/

theorem stepDue_iff (tb : TimeBase) : tb.stepDue = true ↔ tb.slewLate = true ∨ tb.pc ≠ 0 ∧ 99 ≤ tb.slewCount := by
  simp [TimeBase.stepDue]

theorem slewTerm_of_not_due {tb : TimeBase} (hd : tb.stepDue = false) : tb.slewTerm = 0 := by
  simp [TimeBase.slewTerm, hd]

theorem slewTerm_of_positive {tb : TimeBase} (hd : tb.stepDue = true) (hp : 0 < tb.pc) : tb.slewTerm = 1 := by
  simp [TimeBase.slewTerm, hd, pcSign, hp]

theorem pcSign_of_neg {pc : Int} (hp : pc < 0) : pcSign pc = -1 := by
  rw [pcSign, if_neg (by omega), if_pos hp]

theorem slewTerm_of_negative {tb : TimeBase} (hd : tb.stepDue = true) (hp : tb.pc < 0) (ht : trimOf (tb.acc + tb.trim) ≠ -1) :
    tb.slewTerm = -1 := by
  simp [TimeBase.slewTerm, hd, pcSign_of_neg hp, ht]

theorem slewTerm_of_late {tb : TimeBase} (hd : tb.stepDue = true) (hp : tb.pc < 0) (ht : trimOf (tb.acc + tb.trim) = -1) :
    tb.slewTerm = 0 := by
  simp [TimeBase.slewTerm, hd, pcSign_of_neg hp, ht]

/-- Settles O46: the millisecond's own counts survive the advance of campus time and the events it sets off, which touch neither the accumulator nor
the slew. -/
theorem nominalMillisecondsCount : Obligations.NominalMillisecondsCount := by
  intro s a term due ticked
  have hticked : ∀ {slew : Int} {t : State}, Ticked slew s t → ticked slew t := fun h =>
    ⟨h.elapsed, h.acc, h.pc, h.trim, h.refMode, h.dst, h.stays, fun old => h.moves⟩
  have hrun (hr : s.running = true) (slew : Int) (hs : s.tb.slewTerm = slew) : Ticked slew s (tick s.begin).close := hs ▸ tick_ticked s
  have hdue : s.tb.slewLate = true ∨ due → s.tb.stepDue = true := (stepDue_iff s.tb).2
  refine ⟨fun hr hl hd => ?_, fun hr hl hd hp => ?_, fun hr hl hd hp ht => ?_, fun hr hd hp ht => ?_, fun hr hl hp ht => ?_, fun hl hd => ?_,
    fun hr hs => ?_, fun hm hb => ?_⟩
  · have hn : s.tb.stepDue = false := by
      rw [Bool.eq_false_iff, Ne, stepDue_iff]
      exact fun h => h.elim (by simp [hl]) hd
    have h := hrun hr 0 (slewTerm_of_not_due hn)
    refine ⟨_, exec_timeAdvance_of_running hr, hticked h, h.slewCount.trans ?_⟩
    split
    · rfl
    · next hp => rw [if_neg (fun hc => hd ⟨hp, by omega⟩)]
  · have h := hrun hr 1 (slewTerm_of_positive (hdue (.inr hd)) hp)
    refine ⟨_, exec_slewStep_of_due hr (hdue (.inr hd)), exec_timeAdvance_of_running hr, hticked h, h.slewCount.trans ?_⟩
    obtain ⟨hpc, hc⟩ := hd
    rw [if_neg hpc, if_pos (by omega)]
  · have h := hrun hr (-1) (slewTerm_of_negative (hdue (.inr hd)) hp ht)
    refine ⟨_, exec_slewStep_of_due hr (hdue (.inr hd)), exec_timeAdvance_of_running hr, hticked h, h.slewLate.trans ?_, h.slewCount.trans ?_⟩
    · rw [decide_eq_false (p := trimOf (s.tb.acc + s.tb.trim) = -1) ht, Bool.and_false]
    · obtain ⟨hpc, hc⟩ := hd
      rw [if_neg hpc, if_pos (by omega)]
  · have h := hrun hr 0 (slewTerm_of_late (hdue hd) hp ht)
    refine ⟨_, exec_slewStep_of_due hr (hdue hd), exec_timeAdvance_of_running hr, hticked h, h.slewLate.trans ?_, h.slewCount.trans ?_⟩
    · rw [hdue hd, decide_eq_true (pcSign_of_neg hp), decide_eq_true (p := trimOf (s.tb.acc + s.tb.trim) = -1) ht]
      rfl
    · rw [if_neg (by omega)]
      congr 1
      simp
  · have h := hrun hr (-1) (slewTerm_of_negative (hdue (.inl hl)) hp ht)
    refine ⟨_, exec_slewStep_of_due hr (hdue (.inl hl)), exec_timeAdvance_of_running hr, hticked h, h.slewLate.trans ?_, h.slewCount.trans ?_⟩
    · rw [decide_eq_false (p := trimOf (s.tb.acc + s.tb.trim) = -1) ht, Bool.and_false]
    · rw [if_neg (by omega)]
      congr 1
      simp
  · have hn : ¬ s.tb.stepDue = true := fun h => ((stepDue_iff s.tb).1 h).elim (by simp [hl]) hd
    exact congrArg Host.Outcome.next (if_neg hn)
  · have hidle : exec .timeAdvance s = .next (idleTick s) := congrArg Host.Outcome.next (if_neg (by simp [hr]))
    refine ⟨_, hidle, ?_⟩
    have hacc : (countCampus s.tb).acc = a - 10000000 * term := congrArg Prod.snd (trimTerm_eq s.tb.acc s.tb.trim)
    have hcampus (old : CampusTime) (hc : s.tb.campus = some old) :
        (countCampus s.tb).campus = some (ofLin (min (old.lin + (1 + term).toNat) lastLin)) := by
      unfold countCampus
      rw [trimTerm_eq, hc]
      rfl
    unfold idleTick
    by_cases hm : s.supply.main = true
    · rw [if_pos hm, if_pos hm]
      exact ⟨rfl, hacc, rfl, hcampus, ⟨fun hx => (hx (by decide)).elim, fun _ => rfl, fun _ => rfl, fun _ => rfl, fun _ => rfl, fun _ => rfl,
        fun _ => rfl, fun _ => rfl, fun _ => rfl, fun _ => rfl⟩, rfl⟩
    · rw [if_neg hm, if_neg hm, if_pos (hs.resolve_left hm)]
      exact ⟨rfl, hacc, rfl, hcampus, ⟨fun hx => (hx (by decide)).elim, fun _ => rfl, fun _ => rfl, fun _ => rfl, fun _ => rfl, fun _ => rfl,
        fun _ => rfl, fun _ => rfl, fun _ => rfl, fun _ => rfl⟩, rfl⟩
  · have hr : s.running ≠ true := by simp [State.running, hm]
    refine congrArg Host.Outcome.next ((if_neg hr).trans ?_)
    rw [idleTick, if_neg (by simp [hm]), if_neg (by simp [hb])]

end Sys2Proof.Machine
end

