-- ==== Sys2Proof/Proofs/Starts.lean ====
section
/-! SUPPORT. RESTART, FACTORY CLEAR and the supply (R184). -/

namespace Sys2Proof.Machine
open Sys2Proof

/-! ### Lists of fixed things at a retained start -/

theorem getD_map_of_fixed {α : Type} {f : α → α} {d : α} (hf : f d = d) (l : List α) (k : Nat) : (l.map f).getD k d = f (l.getD k d) := by
  simp only [List.getD_eq_getElem?_getD, List.getElem?_map]
  cases l[k]? with
  | none => exact hf.symm
  | some x => rfl

/-- A retained start with something in the hold buffer. -/
def State.restarted (paths : List PathPair) (hs : List LogRecord) (l n : Nat) (s : State) : State :=
  (s.started.retainedStart.withStartReads paths).setRi (RegionIf.holding hs l n)

section
variable (paths : List PathPair) (hs : List LogRecord) (l n : Nat) (s : State) (k : Nat)
theorem restarted_input : (s.restarted paths hs l n).input k = (s.input k).retained := getD_map_of_fixed rfl _ _
theorem restarted_output : (s.restarted paths hs l n).output k = (s.output k).retained := getD_map_of_fixed rfl _ _
theorem restarted_line : (s.restarted paths hs l n).line k = (s.line k).retained := getD_map_of_fixed rfl _ _
theorem restarted_circuit : (s.restarted paths hs l n).circuit k = (s.circuit k).retained := getD_map_of_fixed rfl _ _
theorem restarted_channel : (s.restarted paths hs l n).channel k = (s.channel k).retained := getD_map_of_fixed rfl _ _
theorem restarted_zone : (s.restarted paths hs l n).zone k = ZoneDyn.clear := replicate_getD 64 k _
theorem restarted_tb : (s.restarted paths hs l n).tb = s.tb.retained.recomputed := rfl
theorem restarted_se : (s.restarted paths hs l n).se = s.se.retained s.tb.campus.isNone := rfl
end

/-! ### The Time Base at a retained start -/

theorem recomputed_none {tb : TimeBase} (h : tb.campus = none) : tb.recomputed = { tb with trans := none, offset := 0 } := by
  unfold TimeBase.recomputed
  rw [h]

theorem recomputed_some {tb : TimeBase} {now : CampusTime} (h : tb.campus = some now) : tb.recomputed =
    { tb with trans := instantsFor tb.dst now, offset := offsetAt tb.dst (instantsFor tb.dst now) now.lin } := by
  unfold TimeBase.recomputed
  rw [h]

theorem recomputed_keeps (tb : TimeBase) : ∃ tr off, tb.recomputed = { tb with trans := tr, offset := off } := by
  cases h : tb.campus with
  | none => exact ⟨_, _, (recomputed_none h).trans (by rw [h])⟩
  | some now => exact ⟨_, _, (recomputed_some h).trans (by rw [h])⟩

/-! ### The records of a drill that a start closes -/

theorem record_of_room {s : State} (h : s.ri.link ≠ .attached) (hr : s.ri.hold.length < Config.holdCapacity) (n : Note) :
    s.record n = s.setRi (RegionIf.holding (s.ri.hold ++ [stamped s n]) s.ri.lost s.ri.totalLost) := by
  unfold State.record State.setRi RegionIf.take
  rw [if_neg (by simp [h]), if_pos hr]
  rfl

/-- Records written with the link down reach the hold buffer alone, and all of them while it has room. -/
theorem each_record_of_down (ns : List Note) {c : Ctx} (hl : c.st.ri.link ≠ .attached) : ∃ hs l t,
    (Ctx.each Ctx.record ns c).st = c.st.setRi (RegionIf.holding hs l t)
    ∧ (Ctx.each Ctx.record ns c).ans = c.ans ∧ (Ctx.each Ctx.record ns c).todo = c.todo
    ∧ (c.st.ri.hold.length + ns.length ≤ Config.holdCapacity →
      hs.map (·.note) = c.st.ri.hold.map (·.note) ++ ns ∧ l = c.st.ri.lost ∧ t = c.st.ri.totalLost) := by
  induction ns generalizing c with
  | nil => exact ⟨c.st.ri.hold, c.st.ri.lost, c.st.ri.totalLost, rfl, rfl, rfl, fun _ => ⟨(List.append_nil _).symm, rfl, rfl⟩⟩
  | cons n ns ih =>
    obtain ⟨hs1, l1, t1, h1⟩ := record_of_down hl n
    have h1' : (c.record n).st = c.st.setRi (RegionIf.holding hs1 l1 t1) := h1
    obtain ⟨hs, l, t, he, ha, ht, hroom⟩ := ih (c := c.record n) (by rw [h1']; exact hl)
    refine ⟨hs, l, t, he.trans (by rw [h1']; rfl), ha, ht, fun hlen => ?_⟩
    rw [List.length_cons] at hlen
    have h2 : (c.record n).st = _ := record_of_room hl (by omega) n
    rw [h2] at hroom
    have hroom' := hroom (by simp only [State.setRi, RegionIf.holding, List.length_append, List.length_cons, List.length_nil]; omega)
    refine ⟨hroom'.1.trans ?_, hroom'.2⟩
    simp only [State.setRi, RegionIf.holding, List.map_append, List.map_cons, List.map_nil, List.append_assoc, List.singleton_append]
    congr 2
    unfold stamped
    split <;> rfl

theorem resultNotes_length (d : ActiveDrill) (tag : Word) (r : DrillEnd) : (resultNotes d tag r).length = d.buildings.length + 1 := by
  simp [resultNotes]

theorem retainedStart_of_held (s : State) (paths : List PathPair) {hs : List LogRecord} {l n : Nat}
    (h0 : s.dc.active = none → hs = [] ∧ l = 0 ∧ n = 0)
    (h1 : ∀ d, s.dc.active = some d → d.buildings.length < Config.holdCapacity → hs.map (·.note) = resultNotes d 0 .restart ∧ l = 0 ∧ n = 0) :
    RetainedStart s (s.restarted paths hs l n) where
  supply := ⟨rfl, rfl⟩
  time := by
    obtain ⟨tr, off, he⟩ := recomputed_keeps s.tb.retained
    rw [restarted_tb, he]
    exact ⟨rfl, rfl, rfl, rfl, rfl, rfl, rfl, rfl⟩
  correction := by
    obtain ⟨tr, off, he⟩ := recomputed_keeps s.tb.retained
    rw [restarted_tb, he]
    exact ⟨rfl, rfl, rfl, rfl, rfl, rfl, rfl, rfl, rfl, rfl, rfl, rfl⟩
  instants := by
    rw [restarted_tb]
    refine ⟨fun h => ?_, fun now h => ?_⟩
    · rw [recomputed_none (tb := s.tb.retained) h]
      exact ⟨rfl, rfl⟩
    · rw [recomputed_some (tb := s.tb.retained) h]
      exact ⟨rfl, rfl⟩
  reference := by
    obtain ⟨tr, off, he⟩ := recomputed_keeps s.tb.retained
    rw [restarted_tb, he]
    simp [TimeBase.retained, Option.isSome_iff_ne_none]
  plan := rfl
  schedule := by
    rw [restarted_se]
    cases s.tb.campus with
    | none => rfl
    | some now => rfl
  zones := ⟨rfl, rfl, fun z => restarted_zone .., rfl, fun b => replicate_getD 8 b _, rfl, rfl, rfl⟩
  patterns := ⟨rfl, rfl, rfl, rfl, rfl⟩
  announcements := ⟨rfl, rfl, rfl, rfl, rfl, fun k => by
    rw [restarted_channel]
    exact ⟨rfl, rfl, rfl, rfl, rfl, rfl, rfl, rfl, rfl⟩⟩
  drills := ⟨rfl, rfl, rfl, rfl, rfl, rfl, rfl⟩
  circuits := ⟨rfl, rfl, fun i => by
    rw [restarted_circuit]
    exact ⟨rfl, rfl, rfl, rfl, rfl, rfl, rfl, rfl⟩⟩
  members := ⟨rfl, rfl, rfl⟩
  lines := fun i _ => by
    rw [restarted_line]
    exact ⟨rfl, rfl, rfl, rfl, rfl, rfl, rfl, rfl, rfl, rfl⟩
  wiring := ⟨rfl, rfl, rfl, rfl, rfl, fun k _ => by
    rw [restarted_input]
    exact ⟨rfl, rfl, rfl, rfl, rfl, rfl⟩, fun o => by
    rw [restarted_output]
    exact ⟨rfl, rfl, rfl⟩⟩
  link := ⟨rfl, rfl, rfl, rfl, rfl, rfl, rfl, rfl, rfl, rfl, rfl, rfl, rfl⟩
  log := ⟨rfl, rfl, rfl, h0, h1⟩
  queue := rfl

theorem beginRetained_close (s : State) (paths : List PathPair) :
    RetainedStart s (beginRetained paths s.begin).close ∧ (beginRetained paths s.begin).close.lc.startReads = paths := by
  have hst : ((s.begin.upd State.retainedStart).upd (State.withStartReads paths)).st = s.restarted paths [] 0 0 := rfl
  unfold beginRetained closeDrill
  cases hd : s.dc.active with
  | none =>
    rw [show s.begin.st.dc.active = none from hd]
    dsimp only
    rw [close_done rfl rfl, hst]
    exact ⟨retainedStart_of_held s paths (fun _ => ⟨rfl, rfl, rfl⟩) (fun d h => by simp [hd] at h), rfl⟩
  | some d =>
    rw [show s.begin.st.dc.active = some d from hd]
    dsimp only
    obtain ⟨hs, l, n, he, ha, ht, hroom⟩ := each_record_of_down (resultNotes d 0 .restart)
      (c := (s.begin.upd State.retainedStart).upd (State.withStartReads paths)) (by rw [hst]; exact nofun)
    rw [close_done ha ht, he]
    refine ⟨retainedStart_of_held s paths (fun h => by simp [hd] at h) fun d' h hlen => ?_, rfl⟩
    obtain rfl : d = d' := Option.some.inj (hd.symm.trans h)
    rw [resultNotes_length] at hroom
    exact hroom (by rw [hst]; exact (Nat.zero_add _).symm ▸ hlen)

theorem energized_of_down {s : State} (h : s.running = false) : RelaysReleased s := fun q => by
  unfold State.energized
  rw [h, Bool.false_and]

/-- Settles O35. -/
theorem startsAndOutagesTakeEffect : Obligations.StartsAndOutagesTakeEffect := by
  intro paths s cold
  have hb := beginRetained_close s paths
  refine ⟨fun hr => ⟨_, congrArg Host.Outcome.next (event_of_running hr _), hb⟩, fun hm hh => ⟨_, congrArg Host.Outcome.next ?_, hb⟩,
    fun hr => congrArg Host.Outcome.next (if_neg (by simp [hr])), fun hr hl => congrArg Host.Outcome.next ?_,
    fun hr hl => congrArg Host.Outcome.next (eventWhen_of_not (by simp [hl]) _), fun hm => ⟨_, congrArg Host.Outcome.next (if_pos hm), ?_, rfl⟩,
    fun hm => congrArg Host.Outcome.next (if_neg (by simp [hm])), fun hm => congrArg Host.Outcome.next (if_neg (by simp [hm])),
    fun hm hh => congrArg Host.Outcome.next ?_, fun hm => congrArg Host.Outcome.next (if_pos hm)⟩
  · rw [if_neg (by simp [hm]), if_pos hh]
  · exact eventWhen_upd hr (by simp [hl]) State.coldAgain
  · exact energized_of_down rfl
  · rw [if_neg (by simp [hm]), if_neg (by simp [hh])]
    rfl

end Sys2Proof.Machine
end

