-- ==== Sys2Proof/Proofs/Turning.lean ====
section
/-! SUPPORT. Events of several turns: what an event so far has come to, with the answers and calls it has left. -/

namespace Sys2Proof.Machine
open Sys2Proof

/-- An event so far has come to a state, but for the trouble classes, records and mirrors, with these answers and calls left. -/
structure Stands (u : State) (as : List Ans) (ws : List Work) (c : Ctx) : Prop where
  state : ∃ tr, Noted (u.troubleTo tr) c.st
  ans : c.ans = as
  todo : c.todo = ws

/-- An event is closed as another is, with so many turns more. -/
def Leads (k : Nat) (c d : Ctx) : Prop := ∀ j t, Closes j d t → Closes (j + k) c t

theorem Leads.refl (c : Ctx) : Leads 0 c c := fun _ _ => id

theorem Leads.trans {k m : Nat} {c d e : Ctx} (h : Leads k c d) (g : Leads m d e) : Leads (m + k) c e := fun j t he =>
  Nat.add_assoc j m k ▸ h (j + m) t (g j t he)

theorem Reached.stands {u : State} {c : Ctx} (h : Reached u c) : Stands u [] [] c := ⟨h.state, h.ans, h.todo⟩

theorem stands_refl (c : Ctx) : Stands c.st c.ans c.todo c := ⟨⟨c.st.io.trouble, Noted.refl _⟩, rfl, rfl⟩

theorem stands_begin (s : State) : Stands s.started [] [] s.begin := stands_refl s.begin

section
variable {u : State} {as : List Ans} {ws : List Work} {c : Ctx} (h : Stands u as ws c)
include h

theorem Stands.upd {f : State → State} (hf : Plain f) : Stands (f u) as ws (c.upd f) := by
  obtain ⟨tr, hn⟩ := h.state
  exact ⟨⟨tr, hf.trouble u tr ▸ hn.through hf.ri⟩, h.ans, h.todo⟩

theorem Stands.noted {f : State → State} (hf : ∀ s, Noted s (f s)) : Stands u as ws (c.upd f) := by
  obtain ⟨tr, hn⟩ := h.state
  exact ⟨⟨tr, hn.trans (hf _)⟩, h.ans, h.todo⟩

theorem Stands.record (n : Note) : Stands u as ws (c.record n) := h.noted fun s => noted_record s n

theorem Stands.records (ns : List Note) : Stands u as ws (Ctx.each Ctx.record ns c) := by
  induction ns generalizing c with
  | nil => exact h
  | cons n ns ih => exact ih (h.record n)

theorem Stands.updateTrouble : Stands u as ws (c.upd State.updateTrouble) := by
  obtain ⟨tr, hn⟩ := h.state
  have hu := hn.through (f := State.troubleTo c.st.troubleNow) fun _ _ => rfl
  exact ⟨⟨c.st.troubleNow, hu.trans (noted_updateTrouble c.st)⟩, h.ans, h.todo⟩

theorem Stands.say (a : Ans) : Stands u (as ++ [a]) ws (c.say a) := ⟨h.state, congrArg (· ++ [a]) h.ans, h.todo⟩

theorem Stands.call (xs : List Work) : Stands u as (ws ++ xs) (c.call xs) := ⟨h.state, h.ans, congrArg (· ++ xs) h.todo⟩

theorem Stands.alike : Alike u c.st := by
  obtain ⟨tr, hn⟩ := h.state
  exact alike_troubleTo hn.toRiOnly

end

theorem Stands.reached {u : State} {c : Ctx} (h : Stands u [] [] c) : Reached u c := ⟨h.state, h.ans, h.todo⟩

theorem Stands.mirrorFire {u : State} {as : List Ans} {ws : List Work} {c : Ctx} (h : Stands u as ws c) :
    Stands u as ws (c.upd State.mirrorFire) := h.noted noted_mirrorFire

theorem Stands.mirrorDrill {u : State} {as : List Ans} {ws : List Work} {c : Ctx} (h : Stands u as ws c) :
    Stands u as ws (c.upd State.mirrorDrill) := h.noted noted_mirrorDrill

/-- The calls that are to be taken next stand aside while the first is. -/
theorem Stands.alone {u : State} {as : List Ans} {ws : List Work} {c : Ctx} (h : Stands u as ws c) : Stands u as [] { c with todo := [] } :=
  ⟨h.state, h.ans, rfl⟩

/-- With no answer left the first call is taken, and its own calls go before those behind it. -/
theorem Stands.takesCall_st {u u' : State} {as : List Ans} {w : Work} {ws xs : List Work} {c : Ctx} (h : Stands u [] (w :: ws) c)
    (hw : Stands u' as xs (doWork w { c with todo := [] })) :
    ∃ d, Leads 1 c d ∧ Stands u' as (xs ++ ws) d ∧ d.st = (doWork w { c with todo := [] }).st :=
  ⟨{ doWork w { c with todo := [] } with todo := (doWork w { c with todo := [] }).todo ++ ws }, fun _ _ => closes_call h.ans h.todo,
    ⟨hw.state, hw.ans, congrArg (· ++ ws) hw.todo⟩, rfl⟩

theorem Stands.takesCall {u u' : State} {as : List Ans} {w : Work} {ws xs : List Work} {c : Ctx} (h : Stands u [] (w :: ws) c)
    (hw : Stands u' as xs (doWork w { c with todo := [] })) : ∃ d, Leads 1 c d ∧ Stands u' as (xs ++ ws) d := by
  obtain ⟨d, hl, hd, -⟩ := h.takesCall_st hw
  exact ⟨d, hl, hd⟩

/-- An answer is taken before the calls. -/
theorem Stands.takesAns {u u' : State} {a : Ans} {as bs : List Ans} {ws xs : List Work} {c : Ctx} (h : Stands u (a :: as) ws c)
    (hw : Stands u' bs xs (handleAns a { c with ans := as, todo := [] })) : ∃ d, Leads 1 c d ∧ Stands u' bs (xs ++ ws) d :=
  ⟨{ handleAns a { c with ans := as, todo := [] } with todo := (handleAns a { c with ans := as, todo := [] }).todo ++ c.todo },
    fun _ _ => closes_ans h.ans, hw.state, hw.ans, by rw [hw.todo, h.todo]⟩

/-- What an event has come to when nothing is left is what it leaves. -/
theorem Stands.leaves {u : State} {k : Nat} {c d : Ctx} (h : Stands u [] [] d) (hl : Leads k c d) (hk : k ≤ 1000000) : c.close = d.st :=
  close_of_closes (hl 0 d.st (closes_done h.ans h.todo)) (by omega)

end Sys2Proof.Machine
end

