-- ==== Sys2Proof/Proofs/FireOn.lean ====
section
/-! SUPPORT. The fire alarm input becomes active with no drill, no zone held and no line enabled (R138, R79). -/

namespace Sys2Proof.Machine
open Sys2Proof

/-- R138: fire is active, and silence held. -/
def State.alarmed (s : State) : State := { s with dc := { s.dc with fireActive := true, fireSince := s.elapsed, silenceHeld := true } }

/-- R79: fire is reported to ZA, whose zones have these records and whose feeds nobody holds. -/
def State.hushed (zs : List ZoneDyn) (s : State) : State :=
  { s with za := { s.za with fireReported := true, zones := zs, feeds := List.replicate 8 none } }

theorem plain_alarmed : Plain State.alarmed := ⟨fun _ _ => rfl, fun _ _ => rfl⟩

theorem plain_hushed (zs : List ZoneDyn) : Plain (State.hushed zs) := ⟨fun _ _ => rfl, fun _ _ => rfl⟩

/-- No zone is held but by fire silence, and no claim waits. -/
def FreeOrSilenced (s : State) : Prop := ∀ z, (∀ h, (s.zone z).holder = some h → h.who = .fire) ∧ (s.zone z).waiters = []

theorem setZone_zone_cases (s : State) (z y : Nat) (f : ZoneDyn → ZoneDyn) : (s.setZone z f).zone y = s.zone y ∨ (s.setZone z f).zone y = f (s.zone y) := by
  by_cases h : z < s.za.zones.length
  · rw [setZone_zone _ _ _ _ h]
    split
    · next he => exact .inr (by rw [he])
    · exact .inl rfl
  · rw [setZone_zone_out _ _ _ _ (Nat.le_of_not_lt h)]
    exact .inl rfl

theorem FreeOrSilenced.silenceZone {c : Ctx} (h : FreeOrSilenced c.st) (z : Nat) : FreeOrSilenced (silenceZone z c).st := by
  rw [silenceZone_zone]
  split
  · intro y
    rcases setZone_zone_cases c.st z y (fun _ => ⟨some fireClaim, [], none, .quiet⟩) with he | he
    · rw [he]
      exact h y
    · rw [he]
      exact ⟨fun x hx => Option.some.inj hx ▸ rfl, rfl⟩
  · exact h

/-- Nobody loses a zone that nobody but fire silence holds. -/
theorem silenceZone_ans {c : Ctx} (h : FreeOrSilenced c.st) (z : Nat) : (silenceZone z c).ans = c.ans := by
  obtain ⟨hh, hw⟩ := h z
  have hl : ((c.st.zone z).holder.toList ++ (c.st.zone z).waiters).filter (fun x => x.who != .fire) = [] := by
    rw [hw, List.append_nil, List.filter_eq_nil_iff]
    intro x hx
    simp [hh x (Option.mem_toList.1 hx)]
  unfold silenceZone
  split
  · dsimp only
    rw [hl]
    rfl
  · rfl

theorem each_silenceZone_ans (zs : List Nat) : ∀ {c : Ctx}, FreeOrSilenced c.st → (Ctx.each silenceZone zs c).ans = c.ans := by
  induction zs with
  | nil => exact fun _ => rfl
  | cons z zs ih => exact fun h => (ih (h.silenceZone z)).trans (silenceZone_ans h z)

theorem silenceLine_of_off {ln : Nat} {c : Ctx} (h : (c.st.line ln).state = .off) : silenceLine ln c = c := if_pos h

theorem silenceLines_of_off {c : Ctx} (h : ∀ l, l < 8 → (c.st.line l).state = .off) (ls : List Nat) (hls : ∀ l, l ∈ ls → l < 8) :
    Ctx.each silenceLine ls c = c := by
  induction ls with
  | nil => rfl
  | cons l ls ih => rw [Ctx.each, silenceLine_of_off (h l (hls l List.mem_cons_self)), ih fun y hy => hls y (List.mem_cons_of_mem _ hy)]

/-- R79, with no zone held, no claim waiting and no line in operation. -/
theorem fireSilence_stands {u : State} {ws : List Work} {c : Ctx} (h : Stands u [] ws c) (hz : FreeOrSilenced u) (hlen : u.za.zones.length = 64)
    (hl : ∀ l, l < 8 → (u.line l).state = .off) : ∃ zs, Stands (u.hushed zs) [] ws (fireSilence c)
      ∧ (∀ z, z < 64 → (u.zoneRec z).enabled = true → zs.getD z ZoneDyn.clear = ⟨some fireClaim, [], none, .quiet⟩)
      ∧ (fireSilence c).st.io = c.st.io := by
  let c1 := c.upd fun s => { s with za := { s.za with fireReported := true } }
  have hal := h.alike
  have hz1 : FreeOrSilenced c1.st := by
    intro z
    show (∀ h, (c.st.zone z).holder = some h → h.who = .fire) ∧ (c.st.zone z).waiters = []
    rw [hal.zone]
    exact hz z
  obtain ⟨zs, hst, -, htodo, -⟩ := each_silenceZone (List.range 64) c1
  have hin (z : Nat) (h64 : z < 64) (he : (u.zoneRec z).enabled = true) : zs.getD z ZoneDyn.clear = ⟨some fireClaim, [], none, .quiet⟩ := by
    have hk := each_silenceZone_in (l := List.range 64) (c := c1) (z := z) (List.mem_range.2 h64)
      (by show (c.st.zoneRec z).enabled = true; rw [hal.zoneRec]; exact he)
      (by show z < c.st.za.zones.length; rw [hal.za, hlen]; exact h64)
    rw [hst] at hk
    exact hk
  have hans := (each_silenceZone_ans (List.range 64) hz1).trans h.ans
  have hstate : ∃ tr, Noted ((u.hushed zs).troubleTo tr) (c.st.hushed zs) := (h.upd (plain_hushed zs)).state
  have hsilence : fireSilence c = Ctx.each silenceLine (List.range 8)
    ((Ctx.each silenceZone (List.range 64) c1).upd fun s => { s with za := { s.za with feeds := List.replicate 8 none } }) := rfl
  refine ⟨zs, ?_⟩
  rw [hsilence]
  generalize Ctx.each silenceZone (List.range 64) c1 = c2 at hst htodo hans ⊢
  have hd : Stands (u.hushed zs) [] ws (c2.upd fun s => { s with za := { s.za with feeds := List.replicate 8 none } }) := by
    refine ⟨?_, hans, htodo.trans h.todo⟩
    rw [Ctx.upd_st, hst]
    exact hstate
  rw [silenceLines_of_off (fun l h8 => ?_) _ fun l => List.mem_range.1]
  · refine ⟨hd, hin, ?_⟩
    show c2.st.io = c.st.io
    rw [hst]
    rfl
  · rw [hd.alike.line]
    exact hl l h8

theorem drillEnd_of_none {r : DrillEnd} {c : Ctx} (h : c.st.dc.active = none) : drillEnd r c = c := by
  rw [drillEnd, h]
  rfl

/-- R138, R79: the alarm begins. -/
theorem fireAlarmOn_leads {u : State} {c : Ctx} (h : Stands u [] [] c) (hz : ∀ z, (u.zone z).holder = none) (hw : NoWaiters u)
    (hlen : u.za.zones.length = 64) (hd : u.dc.active = none) (hl : ∀ l, l < 8 → (u.line l).state = .off) :
    ∃ zs d, Leads 2 (fireAlarmOn c) d ∧ Stands (u.alarmed.hushed zs) [] [] d
      ∧ (∀ z, z < 64 → (u.zoneRec z).enabled = true → zs.getD z ZoneDyn.clear = ⟨some fireClaim, [], none, .quiet⟩) ∧ d.st.io = c.st.io := by
  have hio : (fireAlarmOn c).st.io = c.st.io := (noted_mirrorFire _).toRiOnly.io
  have h1 : Stands u.alarmed [] [.drillEnd .fire, .fireOn] (fireAlarmOn c) := (((h.upd plain_alarmed).mirrorFire).record _).call _
  have hnone : doWork (.drillEnd .fire) { fireAlarmOn c with todo := [] } = { fireAlarmOn c with todo := [] } := by
    rw [doWork, drillEnd_of_none (by exact (congrArg DrillControl.active h1.alike.dc).trans hd)]
  obtain ⟨d, hcd, h2, hst⟩ := h1.takesCall_st (u' := u.alarmed) (as := []) (xs := []) (by
    rw [hnone]
    exact h1.alone)
  obtain ⟨zs, h3, hin, hs⟩ := fireSilence_stands h2.alone (fun z => ⟨fun x hx => absurd (hx.symm.trans (hz z)) (by simp), hw z⟩) hlen hl
  obtain ⟨e, hde, h4, het⟩ := h2.takesCall_st h3
  refine ⟨zs, e, hcd.trans hde, h4, hin, ?_⟩
  calc e.st.io = (fireSilence { d with todo := [] }).st.io := congrArg State.io het
    _ = d.st.io := hs
    _ = (fireAlarmOn c).st.io := by rw [hst, hnone]
    _ = c.st.io := hio

end Sys2Proof.Machine
end

