-- ==== Sys2Proof/Proofs/WiringEvents.lean ====
section
/-! SUPPORT. The events of contact inputs and relay outputs (R178 to R182). -/

namespace Sys2Proof.Machine
open Sys2Proof

/-! ### Inputs -/

theorem setInput_congr {s : State} {k : Nat} {f g : Input → Input} (h : f (s.input k) = g (s.input k)) : s.setInput k f = s.setInput k g := by
  unfold State.setInput
  rw [modify_congr (d := Input.cold .opened) h]

theorem counted_eq (r : Reading) : Reading.counted r = if r = .closed then .closed else .opened := by cases r <;> rfl

/-- R178, R180: what a change of reading begins. -/
theorem take_of_ne {r : Reading} {now : Nat} {i : Input} (h : i.reading ≠ r) : Input.take r now i = { i with
    reading := r
    exact := ⟨now, i.debounce⟩
    counted := if i.reading ≠ .closed ∧ r ≠ .closed then i.counted else ⟨now, i.debounce⟩ } := by
  have hc : (Reading.counted i.reading = Reading.counted r) ↔ (i.reading ≠ .closed ∧ r ≠ .closed) := by
    cases hi : i.reading <;> cases r <;> simp [Reading.counted, hi] at h ⊢
  unfold Input.take
  simp only [hc]

theorem holdOf_eq (s : State) (k : Nat) :
    s.holdOf k = if k = 11 ∧ s.io.inFunc 11 = .fireAlarm then (s.input k).exact else (s.input k).counted := by
  unfold State.holdOf isFireInput
  by_cases hk : k = 11
  · subst hk
    simp
  · simp [hk]

theorem over_iff (h : Hold) (now : Nat) : h.over now = true ↔ h.since + (h.time : Int) ≤ (now : Int) := by simp [Hold.over]

theorem isFireInput_iff (s : State) (k : Nat) : isFireInput s k = true ↔ k = 11 ∧ s.io.inFunc 11 = .fireAlarm := by
  unfold isFireInput
  by_cases hk : k = 11
  · subst hk
    simp
  · simp [hk]

/-- R178: a hold that has not lasted its time does nothing yet. -/
theorem debounced_of_early {k : Nat} {c : Ctx} (h : (c.st.holdOf k).over c.st.elapsed = false) : debounced k c = c := by
  unfold debounced
  rw [h]
  simp

/-- R178: the counted value of an input other than the fire input. -/
theorem debounced_of_held {k : Nat} {c : Ctx} (hk : k < 12) (h : (c.st.holdOf k).over c.st.elapsed = true) (hr : c.st.io.inFunc k ≠ .reference)
    (hf : isFireInput c.st k = false) : debounced k c = setValue k (Reading.counted (c.st.input k).reading) c := by
  unfold debounced
  rw [h, hf]
  simp [hr, show ¬ k > 11 by omega]

/-- R178: the fire input's reading. -/
theorem debounced_of_fire {k : Nat} {c : Ctx} (h : (c.st.holdOf k).over c.st.elapsed = true) (hf : isFireInput c.st k = true)
    (hz : (c.st.input k).reading ≠ .highZ) : debounced k c = setValue k (Reading.counted (c.st.input k).reading) (superviseFire false c) := by
  obtain ⟨rfl, hfire⟩ := (isFireInput_iff _ _).1 hf
  unfold debounced
  rw [h, hf]
  dsimp only
  rw [if_neg (by simp [hfire]), if_pos rfl]
  cases hr : (c.st.input 11).reading with
  | highZ => exact absurd hr hz
  | closed => rfl
  | opened => rfl

theorem setValue_of_same {k : Nat} {v : Contact} {c : Ctx} (h : (c.st.input k).value = some v) : setValue k v c = c := by
  unfold setValue
  exact if_pos h

/-- The state in which an input has a value. -/
def State.valued (k : Nat) (v : Contact) (s : State) : State := s.setInput k fun i => { i with value := some v }

theorem plain_valued (k : Nat) (v : Contact) : Plain (State.valued k v) := plain_setInput _ _

/-- R179: a change of a value is handed on. -/
theorem setValue_of_change {k : Nat} {v w : Contact} {c : Ctx} (h : (c.st.input k).value = some w) (hv : w ≠ v) :
    setValue k v c = handOn k v (c.upd (State.valued k v)) := by
  unfold setValue
  dsimp only
  rw [h, if_neg fun e => hv (Option.some.inj e)]
  rfl

/-- A first value is handed on to nothing but a live source. -/
theorem setValue_of_first {k : Nat} {v : Contact} {c : Ctx} (h : (c.st.input k).value = none) (hp : ∀ n, c.st.io.inFunc k ≠ .ptt n) :
    setValue k v c = c.upd (State.valued k v) := by
  unfold setValue
  dsimp only
  rw [h, if_neg (by simp)]
  split
  · next he => cases he
  · next hp' => exact absurd hp' (hp _)
  · rfl

theorem valued_inFunc (s : State) (k : Nat) (v : Contact) (j : Nat) : (s.valued k v).io.inFunc j = s.io.inFunc j :=
  setInput_inFunc s k (f := fun i : Input => { i with value := some v }) (fun _ => rfl) j

/-! ### The supervision of the fire input -/

/-- The state with another condition of the fire input's wiring. -/
def State.fireOpenTo (b : Bool) (s : State) : State := { s with io := { s.io with fireOpen := b } }

theorem plain_fireOpenTo (b : Bool) : Plain (State.fireOpenTo b) := ⟨fun _ _ => rfl, fun _ _ => rfl⟩

theorem counts_fireOpenTo (b : Bool) {s : State} (h : Counts s) : Counts (s.fireOpenTo b) :=
  ⟨h.zones, h.feeds, h.channels, h.circuits, h.lines, h.inputs, h.outputs⟩

theorem superviseFire_stands {u : State} {as : List Ans} {ws : List Work} {c : Ctx} (h : Stands u as ws c) (b : Bool) :
    Stands (u.fireOpenTo b) as ws (superviseFire b c) := by
  unfold superviseFire
  split
  · next he =>
    have hu : u.fireOpenTo b = u := by
      have ho : u.io.fireOpen = b := by rw [← he, h.alike.eq]
      rw [State.fireOpenTo, ← ho]
    rw [hu]
    exact h
  · exact (h.upd (plain_fireOpenTo b)).updateTrouble

/-! ### Debounced values -/

/-- R179: a PLAIN input's new value is recorded. -/
theorem setValue_plain_stands {u : State} {k : Nat} {v : Contact} {c : Ctx} (h : Stands u [] [] c) (hk : u.io.inFunc k = .plain) :
    Stands (u.valued k v) [] [] (setValue k v c) := by
  have hin := h.alike.input
  cases hv : (c.st.input k).value with
  | none =>
    rw [setValue_of_first hv (by rw [h.alike.inFunc, hk]; exact fun _ => nofun)]
    exact h.upd (plain_valued k v)
  | some w =>
    by_cases hw : w = v
    · subst hw
      rw [setValue_of_same hv]
      have hu : u.valued k w = u := by
        have hval : (u.input k).value = some w := by rw [← hin]; exact hv
        unfold State.valued
        rw [setInput_congr (g := id) (by rw [← hval]; rfl), setInput_id]
      rw [hu]
      exact h
    · rw [setValue_of_change hv hw]
      unfold handOn
      rw [Ctx.upd_st, valued_inFunc, h.alike.inFunc, hk]
      exact (h.upd (plain_valued k v)).record _

theorem valued_input {s : State} (hc : Counts s) {k : Nat} (hk : k < 12) (v : Contact) :
    (s.valued k v).input k = { s.input k with value := some v } := by
  rw [State.valued, setInput_input hc hk, if_pos rfl]

theorem valued_input_ne (s : State) {j k : Nat} (h : j ≠ k) (v : Contact) : (s.valued k v).input j = s.input j := setInput_input_ne s h _

theorem exec_debounced {s : State} (h : s.running = true) (k : Nat) :
    exec (.debouncedValueChange k) s = .next (debounced k s.begin).close := by
  have hs : s.takesFirstValue k = false := by
    obtain ⟨-, hset⟩ : s.supply.main = true ∧ s.supply.settling = false := by simpa [State.running] using h
    simp [State.takesFirstValue, State.settlingNow, hset]
  exact congrArg Host.Outcome.next ((if_neg (by simp [hs])).trans (event_of_running h _))

section
variable {s : State} {k : Nat} (ho : (s.holdOf k).since + ((s.holdOf k).time : Int) ≤ (s.elapsed : Int))
include ho

/-- R178: what the end of an input's hold comes to, but for the fire input and a REFERENCE input. -/
theorem debounced_begin (hk : k < 12) (hr : s.io.inFunc k ≠ .reference) (hf : ¬ (k = 11 ∧ s.io.inFunc 11 = .fireAlarm)) :
    debounced k s.begin = setValue k (if (s.input k).reading = .closed then .closed else .opened) s.begin :=
  (debounced_of_held (c := s.begin) hk ((over_iff _ _).2 ho) hr (by rw [Bool.eq_false_iff, Ne, isFireInput_iff]; exact hf)).trans
    (congrArg (fun v => setValue k v s.begin) (counted_eq (s.input k).reading))

/-- R178: what the end of the fire input's hold comes to. -/
theorem debounced_begin_fire (hf : k = 11 ∧ s.io.inFunc 11 = .fireAlarm) (hz : (s.input k).reading ≠ .highZ) :
    debounced k s.begin = setValue k (if (s.input k).reading = .closed then .closed else .opened) (superviseFire false s.begin) :=
  (debounced_of_fire (c := s.begin) ((over_iff _ _).2 ho) ((isFireInput_iff _ _).2 hf) hz).trans
    (congrArg (fun v => setValue k v (superviseFire false s.begin)) (counted_eq (s.input k).reading))

end

theorem takeReading_of_no_pulse {k : Nat} {r : Reading} {c : Ctx} (h : c.st.io.inFunc k ≠ .reference) :
    takeReading k r c = c.upd (State.setInput k (Input.take r c.st.elapsed)) := by
  have hn : ¬ (c.st.running && c.st.io.inFunc k = .reference && Reading.counted (c.st.input k).reading = .opened && r = .closed) = true := by
    simp [h]
  unfold takeReading
  dsimp only
  rw [if_neg hn]

theorem zoneState_of_silenced {s : State} {z : Nat} (he : (s.zoneRec z).enabled = true) (hz : s.zone z = ⟨some fireClaim, [], none, .quiet⟩) :
    s.zoneState z = .silenced := by
  rw [State.zoneState, if_pos he, hz]
  rfl

theorem sameBut_io_dc_za {s u : State} (h : u = { s with io := u.io, dc := u.dc, za := u.za, ri := u.ri, eventNo := u.eventNo }) :
    SameBut [.io, .dc, .za] s u := by
  rw [h]
  exact ⟨fun _ => rfl, fun _ => rfl, fun _ => rfl, fun hx => (hx (by decide)).elim, fun _ => rfl, fun _ => rfl, fun hx => (hx (by decide)).elim,
    fun _ => rfl, fun _ => rfl, fun hx => (hx (by decide)).elim⟩

/-- Settles O59. -/
theorem wiringEventsTakeEffect : Obligations.WiringEventsTakeEffect := by
  intro k o t0 r s hc hold
  have hhold : s.holdOf k = hold := holdOf_eq s k
  refine ⟨fun hr hat hle => congrArg Host.Outcome.next (eventWhen_upd hr (by simp [hat, hle]) _),
    fun hat => congrArg Host.Outcome.next (eventWhen_of_not (by simp [hat]) _),
    fun hat hlt => congrArg Host.Outcome.next (eventWhen_of_not (by simp [hat, hlt]) _),
    fun hr => congrArg Host.Outcome.next (if_neg (by simp [hr])), fun hk hr hf => congrArg Host.Outcome.next ?_,
    fun hr hlt => congrArg Host.Outcome.next ?_, fun hr hk hle hf => ?_, fun hr hk hle hf hcl hv hd hz hw hl => ?_⟩
  · rw [if_pos (by simp [hk, hr]), takeReading_of_no_pulse hf, close_begin_upd]
    exact setInput_congr (take_of_ne hr)
  · have hnot : (s.begin.st.holdOf k).over s.begin.st.elapsed = false := by
      rw [Bool.eq_false_iff, Ne, over_iff]
      show ¬ (s.holdOf k).since + ((s.holdOf k).time : Int) ≤ (s.elapsed : Int)
      rw [hhold]
      omega
    refine (Host.Outcome.next.inj (exec_debounced hr k)).trans ?_
    rw [debounced_of_early hnot]
    exact close_done rfl rfl
  · refine ⟨_, exec_debounced hr k, ?_⟩
    rw [debounced_begin (by rwa [hhold]) hk (by rw [hf]; exact nofun) fun ⟨hk11, hfire⟩ => by subst hk11; simp [hf] at hfire]
    generalize (if (s.input k).reading = .closed then Contact.closed else .opened) = v
    have hst := setValue_plain_stands (v := v) (stands_begin s) hf
    have hal := hst.reached.close ▸ hst.alike
    refine ⟨?_, fun j hj => ?_, ?_, (sameBut_io (by decide) rfl).of_alike hal (by decide)⟩
    · rw [hal.input]
      exact valued_input (s := s.started) (counts_started hc) hk v
    · rw [hal.input]
      exact valued_input_ne s.started hj v
    · rw [hal.eq]
      rfl
  · subst hk
    refine ⟨_, exec_debounced hr 11, ?_⟩
    rw [debounced_begin_fire (by rwa [hhold]) ⟨rfl, hf⟩ (by rw [hcl]; exact nofun), if_pos hcl]
    have h1 := superviseFire_stands (stands_begin s) false
    rw [setValue_of_change (w := .opened) (by rw [h1.alike.input]; exact hv) (by decide)]
    have hu := h1.upd (plain_valued 11 .closed)
    unfold handOn
    rw [hu.alike.inFunc, valued_inFunc, show (s.started.fireOpenTo false).io.inFunc 11 = .fireAlarm from hf]
    obtain ⟨zs, d, hlead, hst, hin, -⟩ := fireAlarmOn_leads hu hz hw hc.zones hd fun l h8 => state_of_disabled (hl l h8)
    have hal := hst.alike
    dsimp only
    rw [hst.leaves hlead (by decide)]
    refine ⟨?_, hal.dc, congrArg ZoneArbiter.fireReported hal.za, fun z h64 he => ?_, fun b => ?_, (sameBut_io_dc_za rfl).of_alike hal (by decide)⟩
    · rw [hal.input]
      exact congrArg Input.value (valued_input (counts_fireOpenTo false (counts_started hc)) (by decide) .closed)
    · exact zoneState_of_silenced (by rw [hal.zoneRec]; exact he) (by rw [hal.zone]; exact hin z h64 he)
    · rw [hal.za]
      exact replicate_getD 8 b _

end Sys2Proof.Machine
end

