-- ==== Sys2Proof/Proofs/Pulses.lean ====
section
/-! SUPPORT. The pulses of impulse circuits (R145 to R148). -/

namespace Sys2Proof.Machine
open Sys2Proof

/-- R145: what a point at which a running circuit with no pulse on decides makes of a circuit. -/
def Circuit.pointed (minute : Option Nat) (now : Nat) (k : Circuit) : Circuit :=
  if k.st.running && k.pulse.isNone then k.resolved minute now k.st else k

theorem circuitPoint_points {u : State} {c : Ctx} (h : Reached u c) (i : Nat) :
    ∃ f, Reached (u.setCircuit i f) (circuitPoint i c) ∧ f (u.circuit i) = (u.circuit i).pointed u.minute? u.elapsed := by
  unfold circuitPoint Circuit.pointed
  dsimp only
  rw [h.alike.circuit]
  split
  · exact circuitDecide_reached h i (u.circuit i).st
  · exact ⟨id, (setCircuit_id u i).symm ▸ h, rfl⟩

section
variable (m : Option Nat) (now : Nat) (k : Circuit)

theorem pointed_kept : (k.pointed m now).cfg = k.cfg ∧ (k.pointed m now).pos = k.pos ∧ (k.pointed m now).polarity = k.polarity
    ∧ (k.pointed m now).openCount = k.openCount ∧ (k.pointed m now).pulse = k.pulse ∧ (k.pointed m now).prevStart = k.prevStart := by
  unfold Circuit.pointed
  split
  · cases m <;> exact ⟨rfl, rfl, rfl, rfl, rfl, rfl⟩
  · exact ⟨rfl, rfl, rfl, rfl, rfl, rfl⟩

theorem pointed_running (h : k.st.running = true) : (k.pointed m now).st.running = true := by
  unfold Circuit.pointed
  split
  · exact resolved_running m now k.st k
  · exact h

end

theorem not_fault_of_running {st : CircuitState} (h : st.running = true) : st ≠ .fault := by
  rintro rfl
  cases h

/-! ### The turns of one circuit -/

/-- R147: a fault is entered from a running circuit, and the trouble class CIRCUIT is present. -/
theorem circuitFault_reached {u : State} {c : Ctx} (hc : Counts u) (h : Reached u c) {i : Nat} (hi : i < 4) {old : CircuitState} (ho : old ≠ .fault) :
    Reached (u.setCircuit i fun k => { k with nextAt := none, st := .fault }) (circuitFault i old c)
      ∧ (circuitFault i old c).st.io.trouble.getLsbD 3 = true := by
  have h1 := circuitBecomes_reached (h.upd (plain_setCircuit i fun k => { k with nextAt := none })) i old .fault
  rw [setCircuit_setCircuit] at h1
  refine ⟨h1, ?_⟩
  have hst : ((circuitFault i old c).st.circuit i).st = .fault := by
    show ((circuitBecomes i old .fault _).st.circuit i).st = .fault
    rw [h1.alike.circuit, setCircuit_circuit hc hi, if_pos rfl]
  have hlen : i < (circuitFault i old c).st.cu.circuits.length := by
    show i < (circuitBecomes i old .fault _).st.cu.circuits.length
    rw [h1.alike.cu]
    simpa [State.setCircuit, hc.circuits] using hi
  have hany : ((circuitFault i old c).st.cu.circuits.any fun k => k.st = .fault) = true := by
    refine List.any_eq_true.2 ⟨_, List.getElem_mem hlen, ?_⟩
    rw [decide_eq_true_eq, ← hst, State.circuit, List.getD_eq_getElem _ _ hlen]
  have htr : (circuitFault i old c).st.io.trouble = (circuitFault i old c).st.troubleNow := by
    unfold circuitFault circuitBecomes
    dsimp only
    rw [if_neg ho, Ctx.upd_st]
    exact updateTrouble_trouble _
  rw [htr, State.troubleNow]
  simp (disch := decide) [withBit_getLsbD, hany, -BitVec.getLsbD_eq_getElem]

/-- The circuit without a pulse. -/
def Circuit.lowered (k : Circuit) : Circuit := { k with pulse := none }

/-- R146: the circuit that a pulse has moved on. -/
def Circuit.advanced (p : Polarity) (k : Circuit) : Circuit := { k with pos := (k.pos + 1) % k.cfg.dial, polarity := p, openCount := 0 }

/-- R147: the circuit that a pulse without current leaves. -/
def Circuit.missed (k : Circuit) : Circuit := { k with openCount := k.openCount + 1 }

theorem pulseComplete_eq {i : Nat} {c : Ctx} {p : Pulse} (hp : (c.st.circuit i).pulse = some p) (hd : p.start + p.width ≤ c.st.elapsed) (current : Bool) :
    pulseComplete i current c = if p.void then circuitPoint i (c.upd (State.setCircuit i Circuit.lowered))
      else if current then circuitPoint i ((c.upd (State.setCircuit i Circuit.lowered)).upd (State.setCircuit i (Circuit.advanced p.polarity)))
      else if (c.st.circuit i).openCount + 1 ≥ 3 then
        circuitFault i (c.st.circuit i).st ((c.upd (State.setCircuit i Circuit.lowered)).upd (State.setCircuit i Circuit.missed))
      else circuitPoint i ((c.upd (State.setCircuit i Circuit.lowered)).upd (State.setCircuit i Circuit.missed)) := by
  unfold pulseComplete
  dsimp only
  rw [hp]
  exact if_pos hd

/-- A completed pulse that causes no fault leaves its circuit at a point at which it may decide. -/
theorem pulseComplete_points {s : State} (hc : Counts s) {i : Nat} (hi : i < 4) (g : Circuit → Circuit) {c : Ctx}
    (h : Reached (s.started.setCircuit i g) c) : ∃ f, Reached (s.started.setCircuit i f) (circuitPoint i c)
      ∧ f (s.circuit i) = (g (s.circuit i)).pointed s.minute? s.elapsed := by
  obtain ⟨f, hf, he⟩ := circuitPoint_points h i
  rw [setCircuit_setCircuit] at hf
  rw [setCircuit_circuit (counts_started hc) hi, if_pos rfl] at he
  exact ⟨_, hf, he⟩

section
variable {s : State} (hc : Counts s) {i : Nat} (hi : i < 4) {p : Pulse} (hp : (s.circuit i).pulse = some p) (hd : p.start + p.width ≤ s.elapsed)
include hc hi hp hd

theorem pulseComplete_of_void (current : Bool) (hv : p.void = true) : ∃ f, Reached (s.started.setCircuit i f) (pulseComplete i current s.begin)
    ∧ f (s.circuit i) = (s.circuit i).lowered.pointed s.minute? s.elapsed := by
  rw [pulseComplete_eq (c := s.begin) hp hd, if_pos hv]
  exact pulseComplete_points hc hi _ ((reached_refl (c := s.begin) rfl rfl).upd (plain_setCircuit i Circuit.lowered))

theorem pulseComplete_of_current (hv : p.void = false) : ∃ f, Reached (s.started.setCircuit i f) (pulseComplete i true s.begin)
    ∧ f (s.circuit i) = ((s.circuit i).lowered.advanced p.polarity).pointed s.minute? s.elapsed := by
  rw [pulseComplete_eq (c := s.begin) hp hd, if_neg (by simp [hv]), if_pos rfl]
  refine pulseComplete_points hc hi (fun k => k.lowered.advanced p.polarity) ?_
  rw [← setCircuit_setCircuit]
  exact ((reached_refl (c := s.begin) rfl rfl).upd (plain_setCircuit i Circuit.lowered)).upd (plain_setCircuit i _)

theorem pulseComplete_of_open (hv : p.void = false) (ho : (s.circuit i).openCount < 2) : ∃ f,
    Reached (s.started.setCircuit i f) (pulseComplete i false s.begin)
    ∧ f (s.circuit i) = (s.circuit i).lowered.missed.pointed s.minute? s.elapsed := by
  have hno : ¬ (s.circuit i).openCount + 1 ≥ 3 := by omega
  rw [pulseComplete_eq (c := s.begin) hp hd, if_neg (by simp [hv]), if_neg (by simp), if_neg (by exact hno)]
  refine pulseComplete_points hc hi (fun k => k.lowered.missed) ?_
  rw [← setCircuit_setCircuit]
  exact ((reached_refl (c := s.begin) rfl rfl).upd (plain_setCircuit i Circuit.lowered)).upd (plain_setCircuit i _)

theorem pulseComplete_of_fault (hrun : (s.circuit i).st.running = true) (hv : p.void = false) (ho : 2 ≤ (s.circuit i).openCount) :
    Reached (s.started.setCircuit i fun k => { k.lowered.missed with nextAt := none, st := .fault }) (pulseComplete i false s.begin)
      ∧ (pulseComplete i false s.begin).st.io.trouble.getLsbD 3 = true := by
  have hth : (s.circuit i).openCount + 1 ≥ 3 := by omega
  rw [pulseComplete_eq (c := s.begin) hp hd, if_neg (by simp [hv]), if_neg (by simp), if_pos (by exact hth)]
  have h := ((reached_refl (c := s.begin) rfl rfl).upd (plain_setCircuit i Circuit.lowered)).upd (plain_setCircuit i Circuit.missed)
  rw [setCircuit_setCircuit] at h
  have hcs : Counts (s.started.setCircuit i fun k => k.lowered.missed) :=
    ⟨hc.zones, hc.feeds, hc.channels, (List.length_modify ..).trans hc.circuits, hc.lines, hc.inputs, hc.outputs⟩
  obtain ⟨hf, ht⟩ := circuitFault_reached hcs h hi (old := (s.circuit i).st) (not_fault_of_running hrun)
  rw [setCircuit_setCircuit] at hf
  exact ⟨hf, ht⟩

end

theorem polarity_other (p : Polarity) : p.other = match p with | .positive => .negative | .negative => .positive := by
  cases p <;> rfl

/-- Settles O56. -/
theorem circuitPulsesTakeEffect : Obligations.CircuitPulsesTakeEffect := by
  intro i t0 p current s hr hc hi hrun
  have hex (f : Ctx → Ctx) : event f s = (f s.begin).close := event_of_running hr f
  refine ⟨fun hp hn hle => ?_, fun hn hlt => ?_, fun hp hlt => ?_, fun hp hle => ?_⟩
  · have hgo : ((s.circuit i).st.running && (s.circuit i).pulse.isNone && (s.circuit i).nextAt.any (· ≤ s.elapsed)) = true := by
      simp [hrun, hp, hn, hle]
    refine ⟨_, congrArg Host.Outcome.next ((hex _).trans ((congrArg Ctx.close (if_pos hgo)).trans (close_begin_upd s _))), ?_⟩
    refine ⟨?_, fun j hj => setCircuit_circuit_ne _ hj _, rfl, sameBut_cu (by decide) rfl⟩
    rw [setCircuit_circuit (counts_started hc) hi, if_pos rfl]
    cases hpol : (s.circuit i).polarity <;> simp [Polarity.other, hpol, show s.started.circuit i = s.circuit i from rfl, State.begin]
  · have hno : ¬ ((s.circuit i).st.running && (s.circuit i).pulse.isNone && (s.circuit i).nextAt.any (· ≤ s.elapsed)) = true := by
      simp [hn, hlt]
    exact congrArg Host.Outcome.next ((hex _).trans ((congrArg Ctx.close (if_neg hno)).trans (close_done rfl rfl)))
  · have hno : pulseComplete i current s.begin = s.begin := by
      unfold pulseComplete
      dsimp only
      rw [show (s.begin.st.circuit i).pulse = some p from hp]
      exact if_neg (Nat.not_le.2 hlt)
    exact congrArg Host.Outcome.next ((hex _).trans ((congrArg Ctx.close hno).trans (close_done rfl rfl)))
  · refine ⟨_, congrArg Host.Outcome.next (hex _), ?_⟩
    have fixed {f : Circuit → Circuit} (hf : Reached (s.started.setCircuit i f) (pulseComplete i current s.begin)) :
        (pulseComplete i current s.begin).close.circuit i = f (s.circuit i)
        ∧ (∀ j, j ≠ i → (pulseComplete i current s.begin).close.circuit j = s.circuit j) ∧ (pulseComplete i current s.begin).close.tb = s.tb
        ∧ SameBut [.cu, .io] s (pulseComplete i current s.begin).close := by
      have hal := hf.close ▸ hf.alike
      refine ⟨?_, fun j hj => ?_, hal.tb, (setCircuit_sameBut i f s.started).of_started.of_alike hal (by decide)⟩
      · rw [hal.circuit, setCircuit_circuit (counts_started hc) hi, if_pos rfl]
        rfl
      · rw [hal.circuit, setCircuit_circuit_ne _ hj]
        rfl
    rcases Bool.eq_false_or_eq_true p.void with hv | hv
    · obtain ⟨f, hf, he⟩ := pulseComplete_of_void hc hi hp hle current hv
      obtain ⟨hi', hrest⟩ := fixed hf
      obtain ⟨hcfg, hpos, hpol, hoc, hpu, hprev⟩ := pointed_kept s.minute? s.elapsed (s.circuit i).lowered
      rw [hi', he]
      exact ⟨hpu, hcfg, hprev, fun h => by simp [hv] at h, fun h => by simp [hv] at h, fun _ => ⟨hpos, hpol, hoc⟩, hrest⟩
    rcases Bool.eq_false_or_eq_true current with rfl | rfl
    · obtain ⟨f, hf, he⟩ := pulseComplete_of_current hc hi hp hle hv
      obtain ⟨hi', hrest⟩ := fixed hf
      obtain ⟨hcfg, hpos, hpol, hoc, hpu, hprev⟩ := pointed_kept s.minute? s.elapsed ((s.circuit i).lowered.advanced p.polarity)
      rw [hi', he]
      exact ⟨hpu, hcfg, hprev, fun _ _ => ⟨hpos, hpol, hoc, not_fault_of_running (pointed_running _ _ _ hrun)⟩, fun _ h => by simp at h,
        fun h => by simp [hv] at h, hrest⟩
    rcases Nat.lt_or_ge (s.circuit i).openCount 2 with ho | ho
    · obtain ⟨f, hf, he⟩ := pulseComplete_of_open hc hi hp hle hv ho
      obtain ⟨hi', hrest⟩ := fixed hf
      obtain ⟨hcfg, hpos, hpol, hoc, hpu, hprev⟩ := pointed_kept s.minute? s.elapsed (s.circuit i).lowered.missed
      rw [hi', he]
      exact ⟨hpu, hcfg, hprev, fun _ h => by simp at h, fun _ _ => ⟨hpos, hpol, hoc, fun h => absurd h (by omega),
        fun _ => not_fault_of_running (pointed_running _ _ _ hrun)⟩, fun h => by simp [hv] at h, hrest⟩
    · obtain ⟨hf, ht⟩ := pulseComplete_of_fault hc hi hp hle hrun hv ho
      obtain ⟨hi', hrest⟩ := fixed hf
      rw [hi']
      exact ⟨rfl, rfl, rfl, fun _ h => by simp at h, fun _ _ => ⟨rfl, rfl, rfl, fun _ => ⟨rfl, rfl, hf.close ▸ ht⟩, fun h => absurd h (by omega)⟩,
        fun h => by simp [hv] at h, hrest⟩

end Sys2Proof.Machine
end

