-- ==== Sys2Proof/Proofs/AnnTimers.lean ====
section
/-! SUPPORT. The timers that end an announcement (R103, R109, R112 to R114, R120, R122). -/

namespace Sys2Proof.Machine
open Sys2Proof

/-! ### An announcement's end after a change of its record -/

/-- What is removed may have been another record with the same number. -/
theorem AnnGone.of_setAnn {n ch : Nat} {r : EndReason} {s t : State} {f : Ann → Ann} (hf : ∀ a, (f a).num = a.num)
    (h : AnnGone n ch r (s.setAnn n f) t) : AnnGone n ch r s t :=
  ⟨h.anns.trans (filter_setAnn s.au.anns n f hf), h.released, h.others, h.channel, h.otherChannels,
    ⟨h.same.tb, h.same.dp, h.same.se, h.same.za, h.same.pu, fun hx => (hx (by decide)).elim, h.same.dc, h.same.cu, h.same.lc, h.same.io⟩⟩

theorem EndsAlone.started {n ch : Nat} {a : Ann} {s : State} (h : EndsAlone n ch a s) : EndsAlone n ch a s.started :=
  ⟨⟨h.counts.zones, h.counts.feeds, h.counts.channels, h.counts.circuits, h.counts.lines, h.counts.inputs, h.counts.outputs⟩, h.found, h.active,
    h.channel, h.noBlock, h.noWaiters, h.noChannelWaiters, h.bare, h.noSound⟩

/-- R122: the end of a source leaves its announcement as able to end alone as it was. -/
theorem EndsAlone.setAnn {n ch : Nat} {a : Ann} {s : State} (h : EndsAlone n ch a s) {f : Ann → Ann} (hn : ∀ a, (f a).num = a.num)
    (hk : ∀ a, (f a).st = a.st ∧ (f a).channel = a.channel ∧ (f a).source = a.source ∧ (f a).block = a.block
      ∧ (f a).consumedBegun = a.consumedBegun ∧ (f a).access = a.access) : EndsAlone n ch (f a) (s.setAnn n f) := by
  obtain ⟨hst, hch, hsrc, hb, hcb, hac⟩ := hk a
  refine ⟨⟨h.counts.zones, h.counts.feeds, h.counts.channels, h.counts.circuits, h.counts.lines, h.counts.inputs, h.counts.outputs⟩,
    setAnn_ann hn h.found, by rw [hst]; exact h.active, by rw [hch]; exact h.channel, ?_, h.noWaiters, h.noChannelWaiters, h.bare, h.noSound⟩
  rw [hb, hcb, hac, show (f a).isBlocks = a.isBlocks by rw [Ann.isBlocks, Ann.isBlocks, hsrc]]
  exact h.noBlock

/-- R114: an announcement that can end alone ends in its event. -/
theorem annEnd_gone {n ch : Nat} {r : EndReason} {a : Ann} {s : State} (h : EndsAlone n ch a s) : AnnGone n ch r s (annEnd n r false s.begin).close :=
  (annEnd_alone (c := s.begin) h.started rfl rfl).of_started

/-! ### Timers -/

section
variable {n : Nat} {a : Ann} {s : State} {due : State → Ann → Bool} {act : Ann → Ctx → Ctx}

theorem annTimer_of_due (hf : s.ann? n = some a) (hd : due s.begin.st a = true) : annTimer n due act s.begin = act a s.begin := by
  unfold annTimer
  rw [show s.begin.st.ann? n = some a from hf]
  exact if_pos hd

theorem annTimer_of_early (hf : s.ann? n = some a) (hd : due s.begin.st a = false) : annTimer n due act s.begin = s.begin := by
  unfold annTimer
  rw [show s.begin.st.ann? n = some a from hf]
  exact if_neg (by rw [hd]; exact Bool.false_ne_true)

/-- A timer whose instant has come does what it is for. -/
theorem event_annTimer (hr : s.running = true) (hf : s.ann? n = some a) (hd : due s.begin.st a = true) :
    event (annTimer n due act) s = (act a s.begin).close := by
  rw [event_of_running hr, annTimer_of_due hf hd]

/-- Before its instant a timer does nothing. -/
theorem event_annTimer_early (hr : s.running = true) (hf : s.ann? n = some a) (hd : due s.begin.st a = false) :
    event (annTimer n due act) s = s.started := by
  rw [event_of_running hr, annTimer_of_early hf hd]
  exact close_done rfl rfl

end

/-! ### The end of a source -/

/-- R122: the announcement whose live source has ended. -/
def Ann.sourceOver (a : Ann) : Ann := { a with talk := some .ended, sourceEnded := true, tailEnd := none }

theorem endTalk_eq (n : Nat) (c : Ctx) : endTalk n c = completeCheck n (c.upd (State.setAnn n Ann.sourceOver)) := rfl

theorem fifoLevel_of_channel {s : State} {a : Ann} {ch : Nat} (h : a.channel = some ch) : fifoLevel s a = (s.channel ch).fifo.length := by
  rw [fifoLevel, h]

/-- R120: with the source ended and nothing left the announcement is complete. -/
theorem completeCheck_of_over {n : Nat} {a : Ann} {c : Ctx} (hf : c.st.ann? n = some a) (hst : a.st = .playing) (he : a.sourceEnded = true)
    (hl : fifoLevel c.st a = 0) : completeCheck n c = annEnd n .complete false c := by
  unfold completeCheck
  rw [hf]
  exact if_pos (by simp [hst, he, hl])

theorem completeCheck_of_level {n : Nat} {a : Ann} {c : Ctx} (hf : c.st.ann? n = some a) (hl : fifoLevel c.st a ≠ 0) : completeCheck n c = c := by
  unfold completeCheck
  rw [hf]
  exact if_neg (by simp [hl])

theorem completeCheck_of_going {n : Nat} {a : Ann} {c : Ctx} (hf : c.st.ann? n = some a) (he : a.sourceEnded = false) : completeCheck n c = c := by
  unfold completeCheck
  rw [hf]
  exact if_neg (by simp [he])

/-- R120: the starve timer is its channel's owner's. -/
theorem event_starveLimit {n ch : Nat} {s : State} (hr : s.running = true) (ho : (s.channel ch).owner = some (.ann n)) :
    exec (.starveLimit ch) s = .next (annTimer n (fun u a => a.st = .playing && (s.channel ch).starveFrom.any fun t =>
      t + (s.channel ch).cfg.starveLimit ≤ u.elapsed) (fun _ => annEnd n .starved false) s.begin).close := by
  refine congrArg Host.Outcome.next ((event_of_running hr _).trans (congrArg Ctx.close ?_))
  dsimp only
  rw [show (s.begin.st.channel ch).owner = some (.ann n) from ho]
  rfl

/-- Settles O52. -/
theorem announcementTimersEndThem : Obligations.AnnouncementTimersEndThem := by
  intro n ch t0 a s hr hf
  refine ⟨fun hst => ⟨fun hd hal => ⟨_, congrArg Host.Outcome.next (event_annTimer hr hf ?_), annEnd_gone hal⟩,
      fun hd => congrArg Host.Outcome.next (event_annTimer_early hr hf ?_)⟩,
    fun hst => ⟨fun hd hal => ⟨_, congrArg Host.Outcome.next (event_annTimer hr hf ?_), annEnd_gone hal⟩,
      fun hd => congrArg Host.Outcome.next (event_annTimer_early hr hf ?_)⟩,
    fun hst ho hs => ⟨fun hd hal => ⟨_, ?_, annEnd_gone hal⟩, fun hd => ?_⟩,
    fun ht ha => ⟨fun hd hal => ⟨_, congrArg Host.Outcome.next (event_annTimer hr hf ?_), annEnd_gone hal⟩,
      fun hd => congrArg Host.Outcome.next (event_annTimer_early hr hf ?_)⟩,
    fun hst ht ha => ⟨fun hd hal he => ⟨_, congrArg Host.Outcome.next (event_annTimer hr hf ?_), ?_⟩,
      fun hd hch he => congrArg Host.Outcome.next ((event_annTimer hr hf ?_).trans ?_),
      fun hd => congrArg Host.Outcome.next (event_annTimer_early hr hf ?_)⟩,
    fun hst => ⟨fun hd => ⟨_, congrArg Host.Outcome.next (event_annTimer hr hf ?_), ?_⟩,
      fun hd => congrArg Host.Outcome.next (event_annTimer_early hr hf ?_)⟩⟩
  · exact (Bool.and_eq_true _ _).mpr ⟨by simpa using hst, decide_eq_true hd⟩
  · exact Bool.and_eq_false_imp.2 fun _ => decide_eq_false (Nat.not_le.2 hd)
  · exact (Bool.and_eq_true _ _).mpr ⟨decide_eq_true hst, decide_eq_true hd⟩
  · exact Bool.and_eq_false_imp.2 fun _ => decide_eq_false (Nat.not_le.2 hd)
  · rw [event_starveLimit hr ho, annTimer_of_due hf ((Bool.and_eq_true _ _).mpr ⟨decide_eq_true hst, by rw [hs]; exact decide_eq_true hd⟩)]
  · rw [event_starveLimit hr ho, annTimer_of_early hf (Bool.and_eq_false_imp.2 fun _ => by rw [hs]; exact decide_eq_false (Nat.not_le.2 hd))]
    exact congrArg Host.Outcome.next (close_done rfl rfl)
  · simp [hal.active.2, ht, ha, hd, State.begin]
  · simp only [ha, Option.any_some, Bool.and_eq_false_imp]
    exact fun _ => decide_eq_false (Nat.not_le.2 hd)
  · simp [hst, ht, ha, hd, State.begin]
  · have hal' := hal.started.setAnn (f := Ann.sourceOver) (fun _ => rfl) fun _ => ⟨rfl, rfl, rfl, rfl, rfl, rfl⟩
    rw [endTalk_eq, completeCheck_of_over (a := a.sourceOver) hal'.found hst rfl ((fifoLevel_of_channel hal'.channel.1).trans (congrArg List.length he))]
    exact AnnGone.of_setAnn (s := s) (f := Ann.sourceOver) (fun _ => rfl) (AnnGone.of_started (annEnd_alone (c := s.begin.upd (State.setAnn n Ann.sourceOver)) hal' rfl rfl))
  · simp [hst, ht, ha, hd, State.begin]
  · rw [endTalk_eq, completeCheck_of_level (a := a.sourceOver) (setAnn_ann (f := Ann.sourceOver) (fun _ => rfl) hf)
      (by rw [fifoLevel_of_channel (a := a.sourceOver) hch]; exact fun h => he (List.length_eq_zero_iff.1 h))]
    exact close_begin_upd s _
  · simp only [ha, Option.any_some, Bool.and_eq_false_imp]
    exact fun _ => decide_eq_false (Nat.not_le.2 hd)
  · exact (Bool.and_eq_true _ _).mpr ⟨decide_eq_true hst, decide_eq_true hd⟩
  · obtain ⟨note, heq⟩ := annEnd_waiting (r := .maxTime) (c := s.begin) hf hst
    rw [heq, close_begin_upd]
    have honly := (noted_record { s.started with au := { s.au with
        anns := s.au.anns.filter fun e => e.num != n
        waitList := s.au.waitList.filter (· != n) } } note).toRiOnly
    refine ⟨honly.au, SameBut.of_only ?_ honly⟩
    exact ⟨fun _ => rfl, fun _ => rfl, fun _ => rfl, fun _ => rfl, fun _ => rfl, fun hx => (hx (by decide)).elim, fun _ => rfl, fun _ => rfl,
      fun _ => rfl, fun _ => rfl⟩
  · exact Bool.and_eq_false_imp.2 fun _ => decide_eq_false (Nat.not_le.2 hd)

end Sys2Proof.Machine
end

