-- ==== Sys2Proof/Proofs/Announcing.lean ====
section
/-! SUPPORT. The steps of an announcement under way: its region accesses, its chime and its entry into PLAYING (R110, R111, R116 to R120, R122). -/

namespace Sys2Proof.Machine
open Sys2Proof

/-! ### Changes of an announcement and of its channel -/

theorem setAnn_setAnn (n : Nat) {f g : Ann → Ann} (hf : ∀ a, (f a).num = a.num) (s : State) :
    (s.setAnn n f).setAnn n g = s.setAnn n fun a => g (f a) := by
  unfold State.setAnn
  simp only [List.map_map]
  congr 3
  funext a
  simp only [Function.comp]
  split
  · next h => rw [if_pos (by rw [hf, h])]
  · rfl

theorem setChannel_setChannel (ch : Nat) (f g : Channel → Channel) (s : State) :
    (s.setChannel ch f).setChannel ch g = s.setChannel ch fun k => g (f k) := by
  simp only [State.setChannel, List.modify_modify_eq]
  rfl

theorem setChannel_channel {s : State} (hc : Counts s) {ch : Nat} (h : ch < 4) (f : Channel → Channel) :
    (s.setChannel ch f).channel ch = f (s.channel ch) := (getD_modify (by rwa [hc.channels]) ch f _).trans (if_pos rfl)

theorem setChannel_channel_ne (s : State) {k ch : Nat} (h : k ≠ ch) (f : Channel → Channel) : (s.setChannel ch f).channel k = s.channel k :=
  getD_modify_ne _ h f _

theorem setAnn_channel (s : State) (n : Nat) (f : Ann → Ann) : (s.setAnn n f).channel = s.channel := rfl

theorem setChannel_ann (s : State) (ch : Nat) (f : Channel → Channel) : (s.setChannel ch f).ann? = s.ann? := rfl

theorem sameBut_setAnn_setChannel (n ch : Nat) (f : Ann → Ann) (g : Channel → Channel) (s : State) :
    SameBut [.au] s ((s.setAnn n f).setChannel ch g) :=
  ⟨fun _ => rfl, fun _ => rfl, fun _ => rfl, fun _ => rfl, fun _ => rfl, fun hx => (hx (by decide)).elim, fun _ => rfl, fun _ => rfl,
    fun _ => rfl, fun _ => rfl⟩

/-! ### Region accesses (R116 to R119) -/

section
variable {n : Nat} {a : Ann} {c : Ctx} (hf : c.st.ann? n = some a) (hl : c.st.ri.link = .attached)
include hf hl

theorem annAccess_header (off : Nat) : annAccess n (.header off) c =
    (c.upd (State.setAnn n fun a => { a with access := some (.header off) })).upd (State.ask (.header a.arrival)) := by
  unfold annAccess
  rw [hf]
  exact if_pos (attached_of_link hl)

theorem annAccess_reread : annAccess n .reread c =
    (c.upd (State.setAnn n fun a => { a with access := some .reread })).upd (State.ask (.reread a.arrival)) := by
  unfold annAccess
  rw [hf]
  exact if_pos (attached_of_link hl)

theorem annAccess_fetch (k : Nat) : annAccess n (.fetch k) c =
    (c.upd (State.setAnn n fun a => { a with access := some (.fetch k) })).upd (State.ask (.fetch a.arrival k)) := by
  unfold annAccess
  rw [hf]
  exact if_pos (attached_of_link hl)

theorem annAccess_consumed {b : Block} (hb : a.block = some b) (next : Option Nat) : annAccess n (.consumed next) c =
    (c.upd (State.setAnn n fun a => { a with access := some (.consumed next) })).upd (State.ask (.consumed a.arrival b.offset)) := by
  unfold annAccess
  rw [hf]
  dsimp only
  rw [if_pos (attached_of_link hl), hb]
  rfl

end

/-! ### CHIME and PLAYING -/

theorem enterChime_eq {n ch p : Nat} {a : Ann} {c : Ctx} (hf : c.st.ann? n = some a) (hc : a.chime = some p) (hch : a.channel = some ch) :
    enterChime n c = (c.upd (State.setAnn n fun a => { a with st := .chime, chimeAt := c.st.elapsed })).upd
      (State.setChannel ch fun k => { k with tone := toneFor c.st p ((c.st.pattern p).cadenceAt 0) }) := by
  unfold enterChime
  rw [hf]
  dsimp only
  rw [hc, hch]

/-- R120: an entry into PLAYING with a source that reads no blocks. -/
theorem startStarve_cases (n : Nat) {ch : Nat} {a : Ann} {c : Ctx} (hf : c.st.ann? n = some a) (hch : a.channel = some ch) :
    startStarve n c = if a.isBlocks && a.st = .playing && !a.sourceEnded && (c.st.channel ch).fifo.length = 0 then
      c.upd (State.setChannel ch fun k => { k with starveFrom := some (k.starveFrom.getD c.st.elapsed) }) else c := by
  unfold startStarve
  rw [hf]
  dsimp only
  rw [hch, fifoLevel_of_channel hch]

/-- A change of a channel that leaves its FIFO, its owner and what it plays. -/
structure ChannelKept (g : Channel → Channel) : Prop where
  fifo : ∀ k, (g k).fifo = k.fifo
  owner : ∀ k, (g k).owner = k.owner
  cfg : ∀ k, (g k).cfg = k.cfg
  output : ∀ k, (g k).output = k.output
  playedTo : ∀ k, (g k).playedTo = k.playedTo
  tone : ∀ k, (g k).tone = k.tone

/-- R120: the starve timer may begin, and no more. -/
theorem startStarve_keeps (n : Nat) {ch : Nat} {a : Ann} {c : Ctx} (hf : c.st.ann? n = some a) (hch : a.channel = some ch) :
    ∃ g, startStarve n c = c.upd (State.setChannel ch g) ∧ ChannelKept g := by
  rw [startStarve_cases n hf hch]
  split
  · exact ⟨_, rfl, ⟨fun _ => rfl, fun _ => rfl, fun _ => rfl, fun _ => rfl, fun _ => rfl, fun _ => rfl⟩⟩
  · refine ⟨id, ?_, ⟨fun _ => rfl, fun _ => rfl, fun _ => rfl, fun _ => rfl, fun _ => rfl, fun _ => rfl⟩⟩
    unfold Ctx.upd State.setChannel
    rw [List.modify_id]

/-- The channel as PLAYING is entered. -/
def Channel.playing (now : Nat) (k : Channel) : Channel := { k with tone := none, playedTo := now, output := [] }

theorem beginPlaying_eq {n ch : Nat} {a : Ann} {c : Ctx} (hf : c.st.ann? n = some a) (hch : a.channel = some ch) :
    ∃ g, beginPlaying n c = ((c.upd (State.setAnn n fun a => { a with st := .playing })).upd
      (State.setChannel ch fun k => g (k.playing c.st.elapsed))) ∧ ChannelKept g := by
  have hf' : ((c.upd (State.setAnn n fun a => { a with st := .playing })).upd (State.setChannel ch (Channel.playing c.st.elapsed))).st.ann? n =
      some { a with st := .playing } := setAnn_ann (f := fun a => { a with st := .playing }) (fun _ => rfl) hf
  obtain ⟨g, hg, hk⟩ := startStarve_keeps n hf' hch
  refine ⟨g, ?_, hk⟩
  unfold beginPlaying
  rw [hf]
  dsimp only
  rw [hch]
  dsimp only
  refine hg.trans ?_
  unfold Ctx.upd
  dsimp only
  rw [setChannel_setChannel]

end Sys2Proof.Machine
end

