-- ==== Sys2Proof/Proofs/Chimes.lean ====
section
/-! SUPPORT. ROUTING's end, and the chime of an announcement (R110, R111). -/

namespace Sys2Proof.Machine
open Sys2Proof

/-- R110: with late joining allowed, ROUTING ends into CHIME for an announcement that holds a zone. -/
theorem leaveRouting_of_late {n p : Nat} {a : Ann} {c : Ctx} (hf : c.st.ann? n = some a) (hc : a.chime = some p) (hl : a.lateJoin = true)
    (hh : a.holds = true) : ∃ note, leaveRouting n c = enterChime n (c.record note) := by
  refine ⟨auNote .annRouted .routine a (dvo a.channel :: a.originValues) [some (a.count .held), some (a.count .waiting)] (dv a.failedRoutes), ?_⟩
  unfold leaveRouting
  rw [hf]
  dsimp only
  rw [if_pos hl, Ctx.each, hf]
  dsimp only
  rw [if_neg (by simp [hh]), if_pos (by simp [hc])]

theorem chimeRun_of {s : State} {a : Ann} {p : Nat} (hc : a.chime = some p) :
    chimeRun s a = some ⟨p, a.chimeAt, (s.pattern p).length a.maxDur⟩ := by
  rw [chimeRun, hc]
  rfl

/-- R95: within a chime's length its tone follows its pattern. -/
theorem chimeStep_eq {n ch p : Nat} {a : Ann} {s : State} (hf : s.ann? n = some a) (hch : a.channel = some ch) (hc : a.chime = some p)
    (hst : a.st = .chime) (hlt : s.elapsed < a.chimeAt + (s.pattern p).length a.maxDur) : chimeStep n s.begin =
      s.begin.upd (State.setChannel ch fun k => { k with tone := toneFor s p ((s.pattern p).cadenceAt (s.elapsed - a.chimeAt)) }) := by
  have hnow : CadRun.now s.begin.st ⟨p, a.chimeAt, (s.begin.st.pattern p).length a.maxDur⟩ =
      some ((s.pattern p).cadenceAt (s.elapsed - a.chimeAt)) := if_pos hlt
  unfold chimeStep
  rw [annTimer_of_due hf (decide_eq_true hst), chimeRun_of hc, Option.bind_some, hnow, hch]
  rfl

theorem chime_due {s : State} {a : Ann} {p : Nat} (hc : a.chime = some p) (hst : a.st = .chime) :
    (a.st = .chime && (chimeRun s.begin.st a).any fun r => r.start + r.length ≤ s.begin.st.elapsed) =
      decide (a.chimeAt + (s.pattern p).length a.maxDur ≤ s.elapsed) := by
  rw [decide_eq_true hst, chimeRun_of hc]
  rfl

/-- A second change of an announcement passes its channel's. -/
theorem setAnn_setChannel_setAnn (n ch : Nat) {f : Ann → Ann} (hf : ∀ a, (f a).num = a.num) (f2 : Ann → Ann) (g : Channel → Channel) (s : State) :
    (((s.setAnn n f).setChannel ch g).setAnn n f2) = (s.setAnn n fun a => f2 (f a)).setChannel ch g := by
  rw [← setAnn_setAnn n hf]
  rfl

/-- R122: the announcement with the talk state of its first entry into PLAYING. -/
def Ann.talks (closed : Bool) (now : Nat) (a : Ann) : Ann :=
  if closed then { a with st := .playing, talk := some .talking }
  else { a with st := .playing, talk := some .beforeTalk, noTalkAt := some (now + 10000) }

/-- R116: the first entry into PLAYING of blocks reads their first header. -/
theorem enterPlaying_blocks {n ch first : Nat} {a : Ann} {c : Ctx} (hf : c.st.ann? n = some a) (hch : a.channel = some ch)
    (hs : a.source = .blocks first) (hl : c.st.ri.link = .attached) : ∃ g, ChannelKept g ∧ enterPlaying n c =
      ((c.upd (State.setAnn n fun a => { a with st := .playing, access := some (.header first) })).upd
        (State.setChannel ch fun k => g (k.playing c.st.elapsed))).upd (State.ask (.header a.arrival)) := by
  obtain ⟨g, hg, hk⟩ := beginPlaying_eq hf hch
  refine ⟨g, hk, ?_⟩
  have hf' : ((c.upd (State.setAnn n fun a => { a with st := .playing })).upd (State.setChannel ch fun k => g (k.playing c.st.elapsed))).st.ann? n =
      some { a with st := .playing } := setAnn_ann (f := fun a => { a with st := .playing }) (fun _ => rfl) hf
  unfold enterPlaying
  rw [hf]
  dsimp only
  rw [hs]
  dsimp only
  rw [hg, annAccess_header hf' hl]
  unfold Ctx.upd
  dsimp only
  rw [setAnn_setChannel_setAnn n ch (f := fun a : Ann => { a with st := .playing }) (fun _ => rfl)]

/-- R122: the first entry into PLAYING of a live source gives its talk state. -/
theorem enterPlaying_live {n ch live : Nat} {a : Ann} {c : Ctx} (hf : c.st.ann? n = some a) (hch : a.channel = some ch)
    (hs : a.source = .live live) : ∃ g, ChannelKept g ∧ enterPlaying n c =
      (c.upd (State.setAnn n (Ann.talks (c.st.pttClosed live) c.st.elapsed))).upd
        (State.setChannel ch fun k => g (k.playing c.st.elapsed)) := by
  obtain ⟨g, hg, hk⟩ := beginPlaying_eq hf hch
  refine ⟨g, hk, ?_⟩
  unfold enterPlaying
  rw [hf]
  dsimp only
  rw [hs]
  dsimp only
  rw [hg]
  have hptt : ((c.st.setAnn n fun a => { a with st := .playing }).setChannel ch fun k => g (k.playing c.st.elapsed)).pttClosed live =
      c.st.pttClosed live := rfl
  unfold startTalk Ctx.upd
  dsimp only
  rw [hptt]
  unfold Ann.talks
  cases c.st.pttClosed live with
  | true => rw [if_pos rfl, setAnn_setChannel_setAnn n ch (f := fun a : Ann => { a with st := .playing }) (fun _ => rfl)]; rfl
  | false =>
    rw [if_neg Bool.false_ne_true, setAnn_setChannel_setAnn n ch (f := fun a : Ann => { a with st := .playing }) (fun _ => rfl)]
    rfl

theorem exec_chimeStep {s : State} (hr : s.running = true) (n : Nat) : exec (.cadenceStep (.chime n)) s = .next (chimeStep n s.begin).close :=
  congrArg Host.Outcome.next (event_of_running hr (chimeStep n))

/-- A change of an announcement and of its channel, place by place. -/
theorem setAnn_setChannel_places {s : State} (hc : Counts s) {n ch : Nat} {a : Ann} (hf : s.ann? n = some a) (h4 : ch < 4) {f : Ann → Ann}
    (hn : ∀ a, (f a).num = a.num) (g : Channel → Channel) {t : State} (ht : RiOnly ((s.setAnn n f).setChannel ch g) t) :
    t.ann? n = some (f a) ∧ t.channel ch = g (s.channel ch) ∧ (∀ k, k ≠ ch → t.channel k = s.channel k) ∧ t.au.waitList = s.au.waitList
      ∧ SameBut [.au] s t := by
  refine ⟨?_, ?_, fun k hk => ?_, (congrArg AnnUnit.waitList ht.au).trans rfl, (sameBut_setAnn_setChannel n ch f g s).of_only ht⟩
  · rw [ht.ann]
    exact setAnn_ann hn hf
  · rw [ht.channel]
    exact setChannel_channel (s := s.setAnn n f) ⟨hc.zones, hc.feeds, hc.channels, hc.circuits, hc.lines, hc.inputs, hc.outputs⟩ h4 g
  · rw [ht.channel]
    exact setChannel_channel_ne _ hk g

/-- Settles O51. -/
theorem chimesStepAndEnd : Obligations.ChimesStepAndEnd := by
  intro n ch p a s hr hc hf hch h4 hp
  have hcs : Counts s.started := counts_started hc
  have hend (hst : a.st = .chime) (hle : a.chimeAt + (s.pattern p).length a.maxDur ≤ s.elapsed) : exec (.chimeEnd n) s =
      .next (if a.source = .toneOnly then annEnd n .complete false s.begin else enterPlaying n s.begin).close :=
    congrArg Host.Outcome.next (event_annTimer hr hf ((chime_due hp hst).trans (decide_eq_true hle)))
  refine ⟨fun hst hd hl hh => ?_, fun hst hd => ?_, fun hst hlt => ⟨_, ?_, rfl⟩, fun hst hlt => ?_,
    fun hst hle => ⟨fun hs hal => ?_, fun first hs hlk => ?_, fun live hs => ?_⟩⟩
  · obtain ⟨note, heq⟩ := leaveRouting_of_late (c := s.begin) hf hp hl hh
    have hf' : (s.begin.record note).st.ann? n = some a := hf
    have hgo : event (annTimer n (fun s a => a.st = .routing && a.routingAt + 2000 ≤ s.elapsed) (fun _ => leaveRouting n)) s =
        (enterChime n (s.begin.record note)).close :=
      (event_annTimer hr hf ((Bool.and_eq_true _ _).mpr ⟨decide_eq_true hst, decide_eq_true hd⟩)).trans (congrArg Ctx.close heq)
    rw [enterChime_eq hf' hp hch, close_upd _ rfl rfl] at hgo
    obtain ⟨ha, hk, hothers, hwait, hsame⟩ := setAnn_setChannel_places hcs hf h4 (f := fun a => { a with st := .chime, chimeAt := s.elapsed })
      (fun _ => rfl) (fun k => { k with tone := toneFor s p ((s.pattern p).cadenceAt 0) })
      (t := (((s.started.record note).setAnn n fun a => { a with st := .chime, chimeAt := s.elapsed }).setChannel ch
        fun k => { k with tone := toneFor s p ((s.pattern p).cadenceAt 0) })) ⟨rfl⟩
    exact ⟨_, _, congrArg Host.Outcome.next hgo, ha, rfl, hwait, (congrArg Channel.tone hk :), (congrArg Channel.owner hk :), hothers, hsame.of_started⟩
  · exact congrArg Host.Outcome.next (event_annTimer_early hr hf (Bool.and_eq_false_imp.2 fun _ => decide_eq_false (Nat.not_le.2 hd)))
  · rw [exec_chimeStep hr, chimeStep_eq hf hch hp hst hlt, close_begin_upd]
  · exact congrArg Host.Outcome.next (event_annTimer_early hr hf ((chime_due hp hst).trans (decide_eq_false (Nat.not_le.2 hlt))))
  · refine ⟨_, hend hst hle, ?_⟩
    rw [if_pos hs]
    exact annEnd_gone hal
  · obtain ⟨g, hk, heq⟩ := enterPlaying_blocks (c := s.begin) hf hch hs hlk
    have hx := hend hst hle
    rw [if_neg (by simp [hs]), heq, close_upd _ rfl rfl] at hx
    obtain ⟨ha, hch', hothers, -, hsame⟩ := setAnn_setChannel_places hcs hf h4 (f := fun a => { a with st := .playing, access := some (.header first) })
      (fun _ => rfl) (fun k => g (k.playing s.elapsed)) (t := (((s.started.setAnn n fun a => { a with st := .playing, access := some (.header first) }).setChannel ch
        fun k => g (k.playing s.elapsed))).ask (.header a.arrival)) ⟨rfl⟩
    exact ⟨_, _, hx, ha, rfl, rfl, (congrArg Channel.tone hch').trans (hk.tone _), (congrArg Channel.playedTo hch').trans (hk.playedTo _),
      (congrArg Channel.fifo hch').trans (hk.fifo _), hothers, hsame.of_started⟩
  · obtain ⟨g, hk, heq⟩ := enterPlaying_live (c := s.begin) hf hch hs
    have hx := hend hst hle
    rw [if_neg (by simp [hs]), heq, close_upd _ rfl rfl] at hx
    have hn : ∀ a, (Ann.talks (s.pttClosed live) s.elapsed a).num = a.num := fun a => by
      unfold Ann.talks
      split <;> rfl
    obtain ⟨ha, hch', hothers, -, hsame⟩ := setAnn_setChannel_places hcs hf h4 hn (fun k => g (k.playing s.elapsed))
      (t := ((s.started.setAnn n (Ann.talks (s.pttClosed live) s.elapsed)).setChannel ch fun k => g (k.playing s.elapsed))) ⟨rfl⟩
    refine ⟨_, _, hx, ha, ?_, fun ht => ?_, fun ht => ?_, (congrArg Channel.tone hch').trans (hk.tone _), hothers, rfl, hsame.of_started⟩
    · unfold Ann.talks
      split <;> rfl
    · rw [ht]
      rfl
    · rw [ht]
      rfl

end Sys2Proof.Machine
end

