-- ==== Sys2Proof/Proofs/AudioBlocks.lean ====
section
/-! SUPPORT. A CONSUMED write whose announcement's end writes its record over the block's header: the write index is not held to the log's 256 places. -/

namespace Sys2Proof.Machine
open Sys2Proof

/-- An announcement of blocks that plays a LAST block read to its end, with the CONSUMED write of the block in flight. -/
def lastWriting : Ann where
  num := 0
  origin := .entry 0
  level := 5
  source := .blocks 0x9000
  chime := none
  maxDur := 60
  hold := false
  resume := 0
  lateJoin := false
  mayWait := false
  arrival := 0
  st := .playing
  channel := some 0
  zones := []
  failed := []
  prior := .playing
  timePlayed := 0
  fetched := 16
  played := 16
  discarded := 0
  block := some ⟨0x9000, 16, 16, 0, true⟩
  awaiting := none
  rereadDue := false
  sourceEnded := true
  consumedBegun := true
  talk := none
  noTalkAt := none
  tailEnd := none
  access := some (.consumed none)
  takenAt := 0
  routingAt := 0
  chimeAt := 0
  heldAt := 0
  endReason := none

/-- A part in operation and attached whose write index, 1024, puts the next record at offset 0x9000, where the block's header stands. -/
def strayLog : State := { State.reset with
  supply := ⟨true, true, false, .cold⟩
  au := { AnnUnit.cold with anns := [lastWriting] }
  ri := { RegionIf.start [] with link := .attached, writeIndex := 1024, accesses := [.consumed 0 0x9000] } }

set_option maxRecDepth 8000 in
theorem strayLog_byte : (match exec .consumedWriteDone strayLog with
    | .next t => regionRead t.ri.region 0x9003
    | _ => some 2) = some 0 := by decide

theorem strayLog_zone (z : Nat) : strayLog.zone z = ZoneDyn.clear := replicate_getD 64 z _

theorem strayLog_endsAlone : EndsAlone 0 0 { lastWriting with access := none } (strayLog.setAnn 0 fun a => { a with access := none }) where
  counts := by constructor <;> rfl
  found := rfl
  active := by decide
  channel := by decide
  noBlock := .inr (by decide)
  noWaiters := fun z => congrArg ZoneDyn.waiters (strayLog_zone z)
  noChannelWaiters := rfl
  bare := fun l => by
    rw [show (strayLog.setAnn 0 fun a => { a with access := none }).line l = Line.cold from replicate_getD 8 l _]
    exact ⟨rfl, rfl, rfl, rfl⟩
  noSound := fun z h hh => absurd ((congrArg ZoneDyn.holder (strayLog_zone z)).symm.trans hh) nofun

/-- Refutes O54: with the write index at 1024, which no clause excludes, the record ANNOUNCEMENT ENDED goes over the header just marked CONSUMED, whose
state byte then is the high byte of the record's sequence number. -/
theorem not_audioAccessesComplete : ¬ Obligations.AudioAccessesComplete := by
  intro h
  obtain ⟨-, -, -, -, -, -, hlast, -⟩ := h [] [] 0 0 0x9000 0 0 lastWriting ⟨0x9000, 16, 16, 0, true⟩ strayLog (by constructor <;> rfl) (by decide)
    rfl rfl rfl rfl rfl
  obtain ⟨t, ht, -, hbyte⟩ := (hlast ⟨by decide, rfl, rfl⟩ rfl rfl).2 (by decide) strayLog_endsAlone
  have hzero := strayLog_byte
  rw [ht] at hzero
  exact absurd (hzero.symm.trans (hbyte (by decide))) (by decide)

end Sys2Proof.Machine
end

