-- ==== Sys2Proof/Proofs/AnnAt.lean ====
section
/-! SUPPORT. Events that come to a change of one announcement, of its channel and of the region accesses that are asked for. -/

namespace Sys2Proof.Machine
open Sys2Proof

/-- The state with one announcement and one channel changed, and more accesses asked for. -/
def State.annChanged (n ch : Nat) (f : Ann → Ann) (g : Channel → Channel) (xs : List Access) (s : State) : State :=
  ((s.setAnn n f).setChannel ch g).setRi fun ri => { ri with accesses := ri.accesses ++ xs }

/-- An event so far has come to a state but for one announcement and one channel, which are now others, and for more accesses asked for; it has
nothing outstanding. -/
structure AnnAt (u : State) (n ch : Nat) (a : Ann) (k : Channel) (xs : List Access) (c : Ctx) : Prop where
  state : ∃ f g, c.st = u.annChanged n ch f g xs ∧ (∀ x, (f x).num = x.num) ∧ (∀ x, u.ann? n = some x → f x = a) ∧ g (u.channel ch) = k
  found : ∃ x, u.ann? n = some x
  counts : Counts u
  range : ch < 4
  ans : c.ans = []
  todo : c.todo = []

theorem annAt_refl {n ch : Nat} {a : Ann} {c : Ctx} (hf : c.st.ann? n = some a) (hc : Counts c.st) (h4 : ch < 4) (ha : c.ans = []) (ht : c.todo = []) :
    AnnAt c.st n ch a (c.st.channel ch) [] c where
  state := by
    refine ⟨id, id, ?_, fun _ => rfl, fun x hx => Option.some.inj (hx.symm.trans hf), rfl⟩
    unfold State.annChanged State.setAnn State.setChannel State.setRi
    simp
  found := ⟨a, hf⟩
  counts := hc
  range := h4
  ans := ha
  todo := ht

section
variable {u : State} {n ch : Nat} {a : Ann} {k : Channel} {xs : List Access} {c : Ctx} (h : AnnAt u n ch a k xs c)
include h

theorem AnnAt.setAnn {f2 : Ann → Ann} (hf2 : ∀ x, (f2 x).num = x.num) : AnnAt u n ch (f2 a) k xs (c.upd (State.setAnn n f2)) := by
  obtain ⟨f, g, hst, hf, hfa, hg⟩ := h.state
  refine ⟨⟨fun x => f2 (f x), g, ?_, fun x => (hf2 _).trans (hf x), fun x hx => congrArg f2 (hfa x hx), hg⟩, h.found, h.counts, h.range, h.ans, h.todo⟩
  rw [Ctx.upd_st, hst, State.annChanged, State.annChanged, ← setAnn_setAnn n hf]
  rfl

theorem AnnAt.setChannel (g2 : Channel → Channel) : AnnAt u n ch a (g2 k) xs (c.upd (State.setChannel ch g2)) := by
  obtain ⟨f, g, hst, hf, hfa, hg⟩ := h.state
  refine ⟨⟨f, fun x => g2 (g x), ?_, hf, hfa, congrArg g2 hg⟩, h.found, h.counts, h.range, h.ans, h.todo⟩
  rw [Ctx.upd_st, hst, show (u.annChanged n ch f g xs).setChannel ch g2 = (((u.setAnn n f).setChannel ch g).setChannel ch g2).setRi
    (fun ri => { ri with accesses := ri.accesses ++ xs }) from rfl, setChannel_setChannel]
  rfl

theorem AnnAt.ask (x : Access) : AnnAt u n ch a k (xs ++ [x]) (c.upd (State.ask x)) := by
  obtain ⟨f, g, hst, hf, hfa, hg⟩ := h.state
  refine ⟨⟨f, g, ?_, hf, hfa, hg⟩, h.found, h.counts, h.range, h.ans, h.todo⟩
  rw [Ctx.upd_st, hst]
  unfold State.annChanged State.ask State.setRi
  simp only [List.append_assoc]

theorem AnnAt.ann : c.st.ann? n = some a := by
  obtain ⟨f, g, hst, hf, hfa, hg⟩ := h.state
  obtain ⟨x, hx⟩ := h.found
  rw [hst, ← hfa x hx]
  exact setAnn_ann hf hx

theorem AnnAt.channel : c.st.channel ch = k := by
  obtain ⟨f, g, hst, hf, hfa, hg⟩ := h.state
  rw [hst, ← hg]
  exact setChannel_channel (s := u.setAnn n f) ⟨h.counts.zones, h.counts.feeds, h.counts.channels, h.counts.circuits, h.counts.lines, h.counts.inputs,
    h.counts.outputs⟩ h.range g

theorem AnnAt.otherChannel {j : Nat} (hj : j ≠ ch) : c.st.channel j = u.channel j := by
  obtain ⟨f, g, hst, -⟩ := h.state
  rw [hst]
  exact setChannel_channel_ne _ hj g

theorem AnnAt.ri : c.st.ri = { u.ri with accesses := u.ri.accesses ++ xs } := by
  obtain ⟨f, g, hst, -⟩ := h.state
  rw [hst]
  rfl

theorem AnnAt.link : c.st.ri.link = u.ri.link := by rw [h.ri]

theorem AnnAt.elapsed : c.st.elapsed = u.elapsed := by
  obtain ⟨f, g, hst, -⟩ := h.state
  rw [hst]
  rfl

theorem AnnAt.same : SameBut [.au] u c.st := by
  obtain ⟨f, g, hst, -⟩ := h.state
  rw [hst]
  exact ⟨fun _ => rfl, fun _ => rfl, fun _ => rfl, fun _ => rfl, fun _ => rfl, fun hx => (hx (by decide)).elim, fun _ => rfl, fun _ => rfl,
    fun _ => rfl, fun _ => rfl⟩

theorem AnnAt.close : c.close = c.st := close_done h.ans h.todo

theorem AnnAt.level (hch : a.channel = some ch) : fifoLevel c.st a = k.fifo.length := by
  rw [fifoLevel_of_channel hch, h.channel]

/-! ### The steps that follow a change -/

/-- R119: without a successor awaited nothing is read again. -/
theorem AnnAt.tryReread_of_none (hw : a.awaiting = none) : tryReread n c = c := by
  unfold tryReread
  rw [h.ann]
  exact if_neg (by simp [hw])

/-- R117: a fetch begins. -/
theorem AnnAt.tryFetch_of_due {b : Block} (hl : u.ri.link = .attached) (hst : a.st = .playing) (hch : a.channel = some ch) (hb : a.block = some b)
    (ha : a.access = none) (hc : b.fetched < b.count) (ht : k.fifo.length < k.cfg.trigger) :
    AnnAt u n ch { a with access := some (.fetch (min (2048 - k.fifo.length) (b.count - b.fetched))) } k
      (xs ++ [.fetch a.arrival (min (2048 - k.fifo.length) (b.count - b.fetched))]) (tryFetch n c) := by
  have he : tryFetch n c = annAccess n (.fetch (min (2048 - k.fifo.length) (b.count - b.fetched))) c := by
    unfold tryFetch
    rw [h.ann]
    dsimp only
    rw [hb, hch]
    dsimp only
    rw [h.level hch, h.channel]
    exact if_pos (by simp [hst, ha, hc, ht])
  rw [he, annAccess_fetch h.ann (h.link.trans hl)]
  exact (h.setAnn (f2 := fun x => { x with access := some (.fetch (min (2048 - k.fifo.length) (b.count - b.fetched))) }) fun _ => rfl).ask _

/-- R117: with no block left to fetch, another access in flight or the FIFO at its trigger no fetch begins. -/
theorem AnnAt.tryFetch_of_not (hch : a.channel = some ch)
    (hn : a.access ≠ none ∨ (∀ b, a.block = some b → b.count ≤ b.fetched) ∨ k.cfg.trigger ≤ k.fifo.length) : tryFetch n c = c := by
  unfold tryFetch
  rw [h.ann]
  dsimp only
  cases hb : a.block with
  | none => rfl
  | some b =>
    rw [hch]
    dsimp only
    rw [h.level hch, h.channel]
    refine if_neg ?_
    rcases hn with hn | hn | hn
    · simp [Option.isNone_iff_eq_none, hn]
    · simp [hn b hb]
    · simp [hn]

/-- R120: the starve timer does not begin. -/
theorem AnnAt.startStarve_of_not (hch : a.channel = some ch) (hn : a.isBlocks = false ∨ a.sourceEnded = true ∨ k.fifo ≠ []) : startStarve n c = c := by
  rw [startStarve_cases n h.ann hch, h.channel]
  refine if_neg ?_
  rcases hn with hn | hn | hn
  · simp [hn]
  · simp [hn]
  · simp [hn]

/-- R120: the starve timer of a source that reads blocks runs once its FIFO is empty. -/
theorem AnnAt.startStarve_of_empty (hch : a.channel = some ch) (hst : a.st = .playing) (hb : a.isBlocks = true) (he : a.sourceEnded = false)
    (hk : k.fifo = []) : AnnAt u n ch a { k with starveFrom := some (k.starveFrom.getD u.elapsed) } xs (startStarve n c) := by
  rw [startStarve_cases n h.ann hch, h.channel, if_pos (by simp [hb, hst, he, hk]), h.elapsed]
  exact h.setChannel fun k => { k with starveFrom := some (k.starveFrom.getD u.elapsed) }

/-- R120: the starve timer may begin, and no more. -/
theorem AnnAt.startStarve (hch : a.channel = some ch) : ∃ k', AnnAt u n ch a k' xs (startStarve n c) ∧ k'.fifo = k.fifo ∧ k'.output = k.output
    ∧ k'.playedTo = k.playedTo ∧ k'.cfg = k.cfg ∧ k'.owner = k.owner := by
  obtain ⟨g, hg, hk⟩ := startStarve_keeps n h.ann hch
  exact ⟨g k, hg ▸ h.setChannel g, hk.fifo k, hk.output k, hk.playedTo k, hk.cfg k, hk.owner k⟩

end

/-! ### An announcement's end after such a change -/

theorem AnnAt.endsAlone {u : State} {n ch : Nat} {a a0 : Ann} {k : Channel} {xs : List Access} {c : Ctx} (h : AnnAt u n ch a k xs c)
    (h0 : EndsAlone n ch a0 u) (hst : a.st = a0.st) (hch : a.channel = a0.channel)
    (hb : ¬ (a.isBlocks = true ∧ a.block.isSome = true ∧ u.ri.link = .attached) ∨ (a.consumedBegun = true ∧ a.access = none)) :
    EndsAlone n ch a c.st := by
  obtain ⟨f, g, he, -⟩ := h.state
  refine ⟨?_, h.ann, by rw [hst]; exact h0.active, by rw [hch]; exact h0.channel, by rw [h.link]; exact hb, ?_, ?_, ?_, ?_⟩ <;> rw [he]
  · exact ⟨h.counts.zones, h.counts.feeds, (List.length_modify ..).trans h.counts.channels, h.counts.circuits, h.counts.lines, h.counts.inputs,
      h.counts.outputs⟩
  · exact h0.noWaiters
  · exact h0.noChannelWaiters
  · exact h0.bare
  · exact h0.noSound

theorem AnnAt.annGone {u t : State} {n ch : Nat} {a : Ann} {k : Channel} {xs : List Access} {c : Ctx} {r : EndReason} (h : AnnAt u n ch a k xs c)
    (hg : AnnGone n ch r c.st t) : AnnGone n ch r u t := by
  obtain ⟨f, g, he, hf, -⟩ := h.state
  rw [he] at hg
  refine ⟨hg.anns.trans (filter_setAnn u.au.anns n f hf), hg.released, hg.others, hg.channel,
    fun j hj => (hg.otherChannels j hj).trans (setChannel_channel_ne (u.setAnn n f) hj g), ?_⟩
  exact ⟨hg.same.tb, hg.same.dp, hg.same.se, fun hx => (hx (by decide)).elim, hg.same.pu, fun hx => (hx (by decide)).elim, hg.same.dc, hg.same.cu,
    hg.same.lc, hg.same.io⟩

end Sys2Proof.Machine
end

