-- ==== Sys2Proof/Proofs/Playing.lean ====
section
/-! SUPPORT. A channel plays its milliseconds (R117, R119, R120, R122). -/

namespace Sys2Proof.Machine
open Sys2Proof

/-! ### Samples are played -/

/-- The channel after so many samples. -/
def Channel.plays (m : Nat) (k : Channel) : Channel := { k with fifo := k.fifo.drop m, output := k.output ++ k.fifo.take m }

/-- The announcement after so many samples, a re-read being called for or not. -/
def Ann.plays (m : Nat) (was falls : Bool) (a : Ann) : Ann :=
  { a with played := a.played + m, rereadDue := a.rereadDue || (a.awaiting.isSome && was && falls) }

section
variable {u : State} {n ch : Nat} {a : Ann} {k : Channel} {xs : List Access} {c : Ctx} (h : AnnAt u n ch a k xs c) (hst : a.st = .playing)
  (hch : a.channel = some ch) (hw : a.awaiting = none)
include h hw

/-- With no successor awaited the samples are counted, and what may begin after them is a fetch, the starve timer or the end. -/
theorem playSamples_at (m : Nat) : ∃ c1, AnnAt u n ch { a with played := a.played + m } (k.plays m) xs c1
    ∧ playSamples ch n m c = completeCheck n (startStarve n (tryReread n (tryFetch n c1))) := by
  have h1 := (h.setChannel (Channel.plays m)).setAnn
    (f2 := Ann.plays m (decide (k.cfg.trigger ≤ k.fifo.length)) (decide ((k.fifo.drop m).length < k.cfg.trigger))) (fun _ => rfl)
  have ha : a.plays m (decide (k.cfg.trigger ≤ k.fifo.length)) (decide ((k.fifo.drop m).length < k.cfg.trigger)) = { a with played := a.played + m } := by
    unfold Ann.plays
    rw [hw]
    simp
  rw [ha] at h1
  refine ⟨_, h1, ?_⟩
  unfold playSamples
  dsimp only
  rw [h.channel]
  rfl

include hch

/-- With the source not ended and no fetch to begin, the samples are played and no more, but for the starve timer. -/
theorem playSamples_plain (m : Nat) (he : a.sourceEnded = false)
    (hn : a.access ≠ none ∨ (∀ b, a.block = some b → b.count ≤ b.fetched) ∨ k.cfg.trigger ≤ (k.fifo.drop m).length) :
    ∃ c1, AnnAt u n ch { a with played := a.played + m } (k.plays m) xs c1 ∧ playSamples ch n m c = startStarve n c1 := by
  obtain ⟨c1, h1, heq⟩ := playSamples_at h hw m
  refine ⟨c1, h1, ?_⟩
  rw [heq, h1.tryFetch_of_not hch hn, h1.tryReread_of_none hw]
  obtain ⟨k', h2, -⟩ := h1.startStarve hch
  exact completeCheck_of_going h2.ann he

include hst in
/-- R117: a fetch begins after the samples. -/
theorem playSamples_fetching (m : Nat) (he : a.sourceEnded = false) {b : Block} (hl : u.ri.link = .attached) (hb : a.block = some b)
    (ha : a.access = none) (hc : b.fetched < b.count) (ht : (k.fifo.drop m).length < k.cfg.trigger) :
    ∃ k', AnnAt u n ch { a with played := a.played + m, access := some (.fetch (min (2048 - (k.fifo.drop m).length) (b.count - b.fetched))) } k'
        (xs ++ [.fetch a.arrival (min (2048 - (k.fifo.drop m).length) (b.count - b.fetched))]) (playSamples ch n m c)
      ∧ k'.fifo = (k.plays m).fifo ∧ k'.output = (k.plays m).output ∧ k'.playedTo = k.playedTo ∧ k'.cfg = k.cfg := by
  obtain ⟨c1, h1, heq⟩ := playSamples_at h hw m
  have h2 := h1.tryFetch_of_due hl hst hch hb ha hc ht
  obtain ⟨k', h3, hfifo, hout, hto, hcfg, -⟩ := h2.startStarve hch
  refine ⟨k', ?_, hfifo, hout, hto, hcfg⟩
  rw [heq, h2.tryReread_of_none hw, completeCheck_of_going h3.ann he]
  exact h3

end

section
variable {u : State} {n ch : Nat} {a : Ann} {k : Channel} {c : Ctx} (h : AnnAt u n ch a k [] c) (hst : a.st = .playing)
  (hch : a.channel = some ch) (hw : a.awaiting = none) (he : a.sourceEnded = false) {b : Block} (hl : u.ri.link = .attached) (hb : a.block = some b)
  (ha : a.access = none)
include h hst hch hw he hl hb ha

/-- R117: some samples of a block not fetched whole are played, and a fetch begins when the level is below the trigger. -/
theorem playSamples_part (m : Nat) : ∃ k' a' xs, AnnAt u n ch a' k' xs (playSamples ch n m c)
    ∧ (b.fetched < b.count ∧ k.fifo.length - m < k.cfg.trigger → a' = { a with
        played := a.played + m, access := some (.fetch (min (2048 - (k.fifo.length - m)) (b.count - b.fetched))) }
      ∧ xs = [.fetch a.arrival (min (2048 - (k.fifo.length - m)) (b.count - b.fetched))])
    ∧ (¬ (b.fetched < b.count ∧ k.fifo.length - m < k.cfg.trigger) → a' = { a with played := a.played + m } ∧ xs = [])
    ∧ k'.fifo = k.fifo.drop m ∧ k'.output = k.output ++ k.fifo.take m ∧ k'.playedTo = k.playedTo := by
  by_cases hd : b.fetched < b.count ∧ k.fifo.length - m < k.cfg.trigger
  · obtain ⟨k', h1, hfifo, hout, hto, -⟩ := playSamples_fetching h hst hch hw m he hl hb ha hd.1 (by rw [List.length_drop]; exact hd.2)
    rw [List.length_drop] at h1
    exact ⟨k', _, _, h1, fun _ => ⟨rfl, rfl⟩, fun h => absurd hd h, hfifo, hout, hto⟩
  · obtain ⟨c1, h1, heq⟩ := playSamples_plain h hch hw m he (by
      rcases not_and_or.1 hd with hc | ht
      · exact .inr (.inl fun b' hb' => by rw [← Option.some.inj (hb.symm.trans hb')]; exact Nat.le_of_not_lt hc)
      · exact .inr (.inr (by rw [List.length_drop]; exact Nat.le_of_not_lt ht)))
    obtain ⟨k', h2, hfifo, hout, hto, -⟩ := h1.startStarve hch
    rw [heq]
    exact ⟨k', _, _, h2, fun h => absurd h hd, fun _ => ⟨rfl, rfl⟩, hfifo, hout, hto⟩

end

/-- R117: the samples of a millisecond up to the one at which the level falls below the trigger. -/
theorem firstPart_facts {a : Ann} {level trigger m m1 : Nat} (hm : m ≤ level) (h0 : 0 < trigger) (hb : a.block.isSome = true)
    (h : firstPart a level trigger m = m1) : m1 ≤ m ∧ (level - m1 < trigger ↔ level < trigger + m)
      ∧ (level < trigger + m → level - m1 = if level < trigger then level - m else trigger - 1) ∧ (m1 < m → level - m1 < trigger) := by
  unfold firstPart at h
  rw [hb, Bool.true_and] at h
  by_cases hs : trigger ≤ level ∧ level < trigger + m
  · rw [if_pos (by simpa using hs)] at h
    subst h
    rw [if_neg (by omega)]
    omega
  · rw [if_neg (by simpa using hs)] at h
    subst h
    refine ⟨Nat.le_refl _, by omega, fun hlt => ?_, fun h => absurd h (Nat.lt_irrefl _)⟩
    rw [if_pos (by omega)]

/-! ### One millisecond -/

/-- What a millisecond brings in from a live input. -/
def Ann.input (live : List Sample) (a : Ann) : List Sample := if a.takesLive then (live ++ List.replicate 16 0).take 16 else []

/-- The channel as its millisecond begins. -/
def Channel.opens (input : List Sample) (k : Channel) : Channel := { k with fifo := k.fifo ++ input, playedTo := k.playedTo + 1, output := [] }

theorem playChannel_eq {n ch : Nat} {a : Ann} {s : State} (live : List Sample) (hf : s.ann? n = some a) (hc : Counts s) (h4 : ch < 4)
    (ho : (s.channel ch).owner = some (.ann n)) (hst : a.st = .playing) (hto : (s.channel ch).playedTo < s.elapsed) :
    ∃ c1, AnnAt s.started n ch { a with fetched := a.fetched + (a.input live).length } ((s.channel ch).opens (a.input live)) [] c1
      ∧ playChannel ch live s.begin =
        let k := s.channel ch
        let m := playCount a (k.fifo ++ a.input live).length
        let m1 := firstPart a (k.fifo ++ a.input live).length k.cfg.trigger m
        if m1 < m then playSamples ch n (m - m1) (playSamples ch n m1 c1) else playSamples ch n m1 c1 := by
  have h0 : AnnAt s.started n ch a (s.channel ch) [] s.begin := annAt_refl (c := s.begin) hf (counts_started hc) h4 rfl rfl
  refine ⟨_, (h0.setChannel (Channel.opens (a.input live))).setAnn (f2 := fun a' => { a' with fetched := a'.fetched + (a.input live).length })
    (fun _ => rfl), ?_⟩
  unfold playChannel
  dsimp only
  rw [show s.begin.st.channel ch = s.channel ch from rfl, ho]
  dsimp only
  rw [show s.begin.st.ann? n = some a from hf]
  dsimp only
  exact if_pos ((Bool.and_eq_true _ _).mpr ⟨decide_eq_true hst, decide_eq_true hto⟩)

/-- What a millisecond in which no fetch begins leaves, but for the starve timer. -/
theorem samplesPlayed_plain {n ch : Nat} {a : Ann} {s : State} (live : List Sample) (hr : s.running = true) (hf : s.ann? n = some a) (hc : Counts s)
    (h4 : ch < 4) (hch : a.channel = some ch) (ho : (s.channel ch).owner = some (.ann n)) (hst : a.st = .playing)
    (hto : (s.channel ch).playedTo < s.elapsed) (he : a.sourceEnded = false) (hw : a.awaiting = none) (hb : a.block = none) {m : Nat}
    (hm : playCount a ((s.channel ch).fifo ++ a.input live).length = m) : ∃ c1, exec (.samplesPlayed ch live) s = .next (startStarve n c1).close
      ∧ AnnAt s.started n ch { a with fetched := a.fetched + (a.input live).length, played := a.played + m }
        (((s.channel ch).opens (a.input live)).plays m) [] c1 := by
  obtain ⟨c0, h0, heq⟩ := playChannel_eq live hf hc h4 ho hst hto
  have hfirst : firstPart a ((s.channel ch).fifo ++ a.input live).length (s.channel ch).cfg.trigger m = m := by
    rw [firstPart, hb]
    rfl
  dsimp only at heq
  rw [hm, hfirst, if_neg (Nat.lt_irrefl _)] at heq
  obtain ⟨c1, h1, hplay⟩ := playSamples_plain h0 hch hw m he (.inr (.inl fun b h => by simp [hb] at h))
  exact ⟨c1, congrArg Host.Outcome.next ((event_of_running hr _).trans (congrArg Ctx.close (heq.trans hplay))), h1⟩

theorem input_of_still {a : Ann} (live : List Sample) (h1 : a.talk ≠ some .talking) (h2 : a.talk ≠ some .tail) : a.input live = [] := by
  unfold Ann.input
  exact if_neg (by simp [Ann.takesLive, h1, h2])

theorem playCount_of_still {a : Ann} (level : Nat) (h1 : a.talk ≠ some .talking) (h2 : a.talk ≠ some .tail) : playCount a level = min 16 level := by
  unfold playCount
  split
  · exact if_neg (by simp [Ann.takesLive, h1, h2])
  · rfl

/-- The announcement that must read its header again, its next instant given. -/
def Ann.rereadsAt (t : Nat) (a : Ann) : Ann := { a with awaiting := some t, rereadDue := true }

/-- R119: an awaiting announcement reads its header again at each 100 ms, or notes that it must. -/
theorem awaitTimer_eq {n t0 : Nat} {a : Ann} {c : Ctx} (hf : c.st.ann? n = some a) (hst : a.st = .playing) (hw : a.awaiting = some t0)
    (hle : t0 ≤ c.st.elapsed) : awaitTimer n c = tryReread n (c.upd (State.setAnn n (Ann.rereadsAt (t0 + 100)))) := by
  unfold awaitTimer
  rw [hf]
  dsimp only
  rw [hw]
  dsimp only
  rw [if_pos (by simp [hst, hle])]
  rfl

theorem exec_awaiting {s : State} (hr : s.running = true) (n : Nat) : exec (.awaitingRereadTimer n) s = .next (awaitTimer n s.begin).close :=
  congrArg Host.Outcome.next (event_of_running hr (awaitTimer n))

theorem tryReread_of_busy {n t : Nat} {a : Ann} {s : State} (hf : s.ann? n = some a) (hacc : a.access ≠ none) :
    tryReread n (s.begin.upd (State.setAnn n (Ann.rereadsAt t))) = s.begin.upd (State.setAnn n (Ann.rereadsAt t)) := by
  have hf' : (s.begin.upd (State.setAnn n (Ann.rereadsAt t))).st.ann? n = some (a.rereadsAt t) := setAnn_ann (f := Ann.rereadsAt t) (fun _ => rfl) hf
  unfold tryReread
  rw [hf']
  exact if_neg (by simp [Ann.rereadsAt, Option.isNone_iff_eq_none, hacc])

theorem rereads_now {n t : Nat} {a : Ann} {s : State} (hf : s.ann? n = some a) (hst : a.st = .playing) (hacc : a.access = none)
    (hl : s.ri.link = .attached) : tryReread n (s.begin.upd (State.setAnn n (Ann.rereadsAt t))) =
      s.begin.upd fun s => (s.setAnn n fun a => { a with awaiting := some t, rereadDue := false, access := some .reread }).ask (.reread a.arrival) := by
  have hf1 : (s.begin.upd (State.setAnn n (Ann.rereadsAt t))).st.ann? n = some (a.rereadsAt t) := setAnn_ann (f := Ann.rereadsAt t) (fun _ => rfl) hf
  have hf2 : ((s.begin.upd (State.setAnn n (Ann.rereadsAt t))).upd (State.setAnn n fun a => { a with rereadDue := false })).st.ann? n =
      some { a.rereadsAt t with rereadDue := false } := setAnn_ann (f := fun a => { a with rereadDue := false }) (fun _ => rfl) hf1
  unfold tryReread
  rw [hf1]
  dsimp only
  rw [if_pos (by simp [Ann.rereadsAt, hst, hacc]), annAccess_reread hf2 hl]
  unfold Ctx.upd
  dsimp only
  rw [setAnn_setAnn n (f := Ann.rereadsAt t) (fun _ => rfl), setAnn_setAnn n (f := fun a => { a.rereadsAt t with rereadDue := false }) (fun _ => rfl)]
  rfl

/-! ### The clauses -/

theorem drop_min_length {α : Type} (m : Nat) (l : List α) : l.drop (min m l.length) = l.drop m := by
  rcases Nat.le_total m l.length with h | h
  · rw [Nat.min_eq_left h]
  · rw [Nat.min_eq_right h, List.drop_length, List.drop_eq_nil_of_le h]

theorem take_min_length {α : Type} (m : Nat) (l : List α) : l.take (min m l.length) = l.take m := by
  rcases Nat.le_total m l.length with h | h
  · rw [Nat.min_eq_left h]
  · rw [Nat.min_eq_right h, List.take_length, List.take_of_length_le h]

section
variable {n ch : Nat} {a : Ann} {s : State} (live : List Sample) (hr : s.running = true) (hf : s.ann? n = some a) (hc : Counts s)
  (h4 : ch < 4) (hch : a.channel = some ch) (ho : (s.channel ch).owner = some (.ann n)) (hst : a.st = .playing)
  (hto : (s.channel ch).playedTo < s.elapsed) (hw : a.awaiting = none)
include hr hf hc h4 hch ho hst hto hw

/-- R120: a source that brings in nothing of itself plays 16 samples, or what there is. -/
theorem plays_still (he : a.sourceEnded = false) (hb : a.block = none) (ht : a.talk = none) : ∃ c k', exec (.samplesPlayed ch live) s = .next c.close
    ∧ AnnAt s.started n ch { a with played := a.played + min 16 (s.channel ch).fifo.length } k' [] c
    ∧ k'.fifo = (s.channel ch).fifo.drop 16 ∧ k'.output = (s.channel ch).fifo.take 16 ∧ k'.playedTo = (s.channel ch).playedTo + 1
    ∧ (16 < (s.channel ch).fifo.length → k'.starveFrom = (s.channel ch).starveFrom)
    ∧ (a.isBlocks = true → (s.channel ch).fifo.length ≤ 16 → k'.starveFrom ≠ none) := by
  have hn (t : TalkState) : a.talk ≠ some t := by rw [ht]; exact nofun
  have hin : a.input live = [] := input_of_still live (hn _) (hn _)
  obtain ⟨c1, hx, h1⟩ := samplesPlayed_plain live hr hf hc h4 hch ho hst hto he hw hb
    (m := min 16 (s.channel ch).fifo.length) (by rw [hin, List.append_nil]; exact playCount_of_still _ (hn _) (hn _))
  rw [hin] at h1
  have hfifo : (((s.channel ch).opens []).plays (min 16 (s.channel ch).fifo.length)).fifo = (s.channel ch).fifo.drop 16 := by
    show ((s.channel ch).fifo ++ []).drop _ = _
    rw [List.append_nil, drop_min_length]
  have hout : (((s.channel ch).opens []).plays (min 16 (s.channel ch).fifo.length)).output = (s.channel ch).fifo.take 16 := by
    show [] ++ ((s.channel ch).fifo ++ []).take _ = _
    rw [List.append_nil, List.nil_append, take_min_length]
  by_cases hs : a.isBlocks = true ∧ (s.channel ch).fifo.length ≤ 16
  · have h2 := h1.startStarve_of_empty hch hst hs.1 he (by rw [hfifo]; exact List.drop_eq_nil_of_le hs.2)
    exact ⟨_, _, hx, h2, hfifo, hout, rfl, fun h => absurd hs.2 (Nat.not_le.2 h), fun _ _ => nofun⟩
  · have hno : startStarve n c1 = c1 := h1.startStarve_of_not hch (by
      rcases not_and_or.1 hs with hb' | hl
      · exact .inl (by simpa [Ann.isBlocks] using hb')
      · exact .inr (.inr (by rw [hfifo]; exact fun h => hl (List.drop_eq_nil_iff.1 h))))
    rw [hno] at hx
    exact ⟨c1, _, hx, h1, hfifo, hout, rfl, fun _ => rfl, fun hb' hl => absurd ⟨hb', hl⟩ hs⟩

/-- R122: a live source that talks brings in 16 samples and keeps 512 back. -/
theorem plays_live (he : a.sourceEnded = false) (hb : a.block = none) (hlv : a.liveOf ≠ none) (ht : a.talk = some .talking) (hlen : live.length = 16) :
    ∃ c k', exec (.samplesPlayed ch live) s = .next c.close
    ∧ AnnAt s.started n ch { a with fetched := a.fetched + 16, played := a.played + min 16 ((s.channel ch).fifo.length + 16 - 512) } k' [] c
    ∧ k'.fifo = ((s.channel ch).fifo ++ live).drop (min 16 ((s.channel ch).fifo.length + 16 - 512))
    ∧ k'.output = ((s.channel ch).fifo ++ live).take (min 16 ((s.channel ch).fifo.length + 16 - 512)) := by
  have htakes : a.takesLive = true := by simp [Ann.takesLive, ht]
  have hin : a.input live = live := by
    unfold Ann.input
    rw [if_pos htakes]
    exact List.take_left' hlen
  obtain ⟨src, hsrc⟩ : ∃ src, a.source = .live src := by
    cases h : a.source with
    | live src => exact ⟨src, rfl⟩
    | _ => exact absurd (by rw [Ann.liveOf, h]) hlv
  obtain ⟨c1, hx, h1⟩ := samplesPlayed_plain live hr hf hc h4 hch ho hst hto he hw hb (m := min 16 ((s.channel ch).fifo.length + 16 - 512)) (by
    unfold playCount
    rw [hsrc, hin, List.length_append, hlen]
    exact if_pos htakes)
  rw [hin, hlen] at h1
  have hno : startStarve n c1 = c1 := h1.startStarve_of_not hch (.inl (by rw [Ann.isBlocks, hsrc]))
  rw [hno] at hx
  exact ⟨c1, _, hx, h1, by simp only [Channel.plays, Channel.opens], by simp only [Channel.plays, Channel.opens, List.nil_append]⟩

/-- R117: a BLOCKS source fetches at the sample at which the level falls below the trigger. -/
theorem plays_fetching {b : Block} (he : a.sourceEnded = false) (ht : a.talk = none) (hb : a.block = some b)
    (hacc : a.access = none) (hl : s.ri.link = .attached) (h16 : 16 < (s.channel ch).cfg.trigger) :
    let level := (s.channel ch).fifo.length
    let m := min 16 level
    let lowest := if level < (s.channel ch).cfg.trigger then level - m else (s.channel ch).cfg.trigger - 1
    let size := min (2048 - lowest) (b.count - b.fetched)
    let fetches : Prop := b.fetched < b.count ∧ level < (s.channel ch).cfg.trigger + m
    ∃ c k' a' xs, exec (.samplesPlayed ch live) s = .next c.close ∧ AnnAt s.started n ch a' k' xs c
    ∧ (fetches → a' = { a with played := a.played + m, access := some (.fetch size) } ∧ xs = [.fetch a.arrival size])
    ∧ (¬ fetches → a' = { a with played := a.played + m } ∧ xs = [])
    ∧ k'.fifo = (s.channel ch).fifo.drop m ∧ k'.output = (s.channel ch).fifo.take m ∧ k'.playedTo = (s.channel ch).playedTo + 1 := by
  intro level m lowest size fetches
  have hn (t : TalkState) : a.talk ≠ some t := by rw [ht]; exact nofun
  have hin : a.input live = [] := input_of_still live (hn _) (hn _)
  obtain ⟨c0, h0, heq⟩ := playChannel_eq live hf hc h4 ho hst hto
  have hx : exec (.samplesPlayed ch live) s = .next (playChannel ch live s.begin).close := congrArg Host.Outcome.next (event_of_running hr _)
  rw [hin] at h0 heq
  dsimp only at heq
  rw [List.append_nil, playCount_of_still _ (hn _) (hn _)] at heq
  have hopen : ((s.channel ch).opens []).fifo = (s.channel ch).fifo := List.append_nil _
  generalize hm1 : firstPart a level (s.channel ch).cfg.trigger m = m1 at heq
  obtain ⟨hle, hdue, hlow, hlt⟩ := firstPart_facts (Nat.min_le_right _ _) (by omega) (by rw [hb]; rfl) hm1
  obtain ⟨k1, a1, xs, h1, hyes, hno, hfifo, hout, hto1⟩ := playSamples_part h0 hst hch hw he hl hb hacc m1
  rw [hopen] at hyes hno hfifo hout
  have hiff : (b.fetched < b.count ∧ level - m1 < (s.channel ch).cfg.trigger) ↔ fetches := and_congr_right fun _ => hdue
  by_cases hmore : m1 < m
  · rw [if_pos hmore] at heq
    have hcount : fetches ↔ b.fetched < b.count := ⟨And.left, fun h => ⟨h, hdue.1 (hlt hmore)⟩⟩
    have hsum : m1 + (m - m1) = m := by omega
    have hsame : a1.channel = some ch ∧ a1.awaiting = none ∧ a1.sourceEnded = false
        ∧ (a1.access ≠ none ∨ (∀ b, a1.block = some b → b.count ≤ b.fetched) ∨ k1.cfg.trigger ≤ (k1.fifo.drop (m - m1)).length) := by
      by_cases hfe : fetches
      · rw [(hyes (hiff.2 hfe)).1]
        exact ⟨hch, hw, he, .inl nofun⟩
      · rw [(hno fun h => hfe (hiff.1 h)).1]
        exact ⟨hch, hw, he, .inr (.inl fun b' hb' => by
          rw [← Option.some.inj (hb.symm.trans hb')]
          exact Nat.le_of_not_lt fun h => hfe (hcount.2 h))⟩
    obtain ⟨hch1, hw1, he1, hn1⟩ := hsame
    obtain ⟨c2, h2, heq2⟩ := playSamples_plain h1 hch1 hw1 (m - m1) he1 hn1
    obtain ⟨k3, h3, hfifo3, hout3, hto3, -⟩ := h2.startStarve hch1
    refine ⟨_, k3, _, xs, by rw [hx, heq, heq2], h3, fun hfe => ?_, fun hfe => ?_, ?_, ?_, hto3.trans hto1⟩
    · obtain ⟨rfl, hxs⟩ := hyes (hiff.2 hfe)
      rw [hlow hfe.2] at hxs
      refine ⟨?_, hxs⟩
      rw [hlow hfe.2]
      simp only [Nat.add_assoc, hsum]
      rfl
    · obtain ⟨rfl, hxs⟩ := hno fun h => hfe (hiff.1 h)
      refine ⟨?_, hxs⟩
      simp only [Nat.add_assoc, hsum]
      rfl
    · rw [hfifo3]
      show k1.fifo.drop _ = _
      rw [hfifo, List.drop_drop, hsum]
    · rw [hout3]
      show k1.output ++ k1.fifo.take _ = _
      rw [hout, hfifo, show m = m1 + (m - m1) by omega, List.take_add, Nat.add_sub_cancel_left]
      rfl
  · obtain rfl : m1 = m := by omega
    rw [if_neg hmore] at heq
    refine ⟨_, k1, a1, xs, by rw [hx, heq], h1, fun hfe => ?_, fun hfe => hno fun h => hfe (hiff.1 h), hfifo, hout, hto1⟩
    have hy := hyes (hiff.2 hfe)
    rw [hlow hfe.2] at hy
    exact hy

/-- R120: with the source ended, the last samples end the announcement. -/
theorem plays_last (he : a.sourceEnded = true) (ht1 : a.talk ≠ some .talking) (ht2 : a.talk ≠ some .tail)
    (hb : ∀ b, a.block = some b → b.count ≤ b.fetched) (hlen : (s.channel ch).fifo.length ≤ 16) (h16 : 16 < (s.channel ch).cfg.trigger)
    (hal : EndsAlone n ch a s) : ∃ t, exec (.samplesPlayed ch live) s = .next t ∧ AnnGone n ch .complete s t := by
  have hin : a.input live = [] := input_of_still live ht1 ht2
  obtain ⟨c0, h0, heq⟩ := playChannel_eq live hf hc h4 ho hst hto
  rw [hin] at h0 heq
  have hm : min 16 (s.channel ch).fifo.length = (s.channel ch).fifo.length := Nat.min_eq_right hlen
  have hfirst : firstPart a (s.channel ch).fifo.length (s.channel ch).cfg.trigger (s.channel ch).fifo.length = (s.channel ch).fifo.length :=
    if_neg (by simp; intro; omega)
  dsimp only at heq
  rw [List.append_nil, playCount_of_still _ ht1 ht2, hm] at heq
  rw [hfirst, if_neg (Nat.lt_irrefl _)] at heq
  obtain ⟨c1, h1, hplay⟩ := playSamples_at h0 hw (s.channel ch).fifo.length
  have hempty : (((s.channel ch).opens []).plays (s.channel ch).fifo.length).fifo = [] := by
    show ((s.channel ch).fifo ++ []).drop _ = _
    rw [List.append_nil, List.drop_length]
  rw [h1.tryFetch_of_not hch (.inr (.inl hb)), h1.tryReread_of_none hw, h1.startStarve_of_not hch (.inr (.inl he)),
    completeCheck_of_over h1.ann hst he ((h1.level hch).trans (congrArg List.length hempty))] at hplay
  refine ⟨_, congrArg Host.Outcome.next ((event_of_running hr _).trans (congrArg Ctx.close (heq.trans hplay))), ?_⟩
  have hgone := annEnd_alone (r := .complete) (h1.endsAlone hal.started rfl rfl (by exact hal.noBlock)) h1.ans h1.todo
  exact (h1.annGone hgone).of_started

end

/-- Settles O53. -/
theorem channelsPlay : Obligations.ChannelsPlay := by
  intro n ch t0 live a s hr hc h4 hf hst hch ho
  refine ⟨fun b hto he hw hbl ht hb hacc hl h16 => ?_, fun hto he hw hb => ⟨fun hlv ht => ?_, fun hlv ht hlen => ?_⟩,
    fun hto he ht1 ht2 hw hb hlen h16 hal => plays_last live hr hf hc h4 hch ho hst hto hw he ht1 ht2 hb hlen h16 hal, fun hto => ?_,
    fun hw hl => ⟨fun hle hacc => ⟨_, ?_, rfl⟩, fun hle hacc => ?_, fun hlt => ?_⟩⟩
  · obtain ⟨c, k', a', xs, hx, h, hyes, hno, hfifo, hout, hto'⟩ := plays_fetching live hr hf hc h4 hch ho hst hto hw he ht hb hacc hl h16
    rw [h.close] at hx
    refine ⟨_, hx, fun hfe => ?_, fun hfe => ?_, ?_, ?_, ?_, fun k hk => h.otherChannel hk, h.same.of_started⟩
    · obtain ⟨rfl, rfl⟩ := hyes hfe
      exact ⟨h.ann, h.ri⟩
    · obtain ⟨rfl, rfl⟩ := hno hfe
      exact ⟨h.ann, h.ri.trans (by rw [List.append_nil]; rfl)⟩
    · rw [h.channel, hfifo]
    · rw [h.channel, hout]
    · rw [h.channel, hto']
  · obtain ⟨c, k', hx, h, hfifo, hout, hto', hs1, hs2⟩ := plays_still live hr hf hc h4 hch ho hst hto hw he hb ht
    rw [h.close] at hx
    refine ⟨_, _, hx, h.ann, rfl, ?_, ?_, ?_, ?_, ?_, fun k hk => h.otherChannel hk, h.ri.trans (by rw [List.append_nil]; rfl), h.same.of_started⟩ <;>
      rw [h.channel] <;> assumption
  · obtain ⟨c, k', hx, h, hfifo, hout⟩ := plays_live live hr hf hc h4 hch ho hst hto hw he hb hlv ht hlen
    rw [h.close] at hx
    refine ⟨_, _, hx, h.ann, rfl, ?_, ?_, fun k hk => h.otherChannel hk, h.ri.trans (by rw [List.append_nil]; rfl), h.same.of_started⟩ <;>
      rw [h.channel] <;> assumption
  · have hno : playChannel ch live s.begin = s.begin := by
      unfold playChannel
      dsimp only
      rw [show s.begin.st.channel ch = s.channel ch from rfl, ho]
      dsimp only
      rw [show s.begin.st.ann? n = some a from hf]
      exact if_neg (by rw [Bool.not_eq_true]; exact Bool.and_eq_false_imp.2 fun _ => decide_eq_false (Nat.not_lt.2 hto))
    exact congrArg Host.Outcome.next ((event_of_running hr _).trans ((congrArg Ctx.close hno).trans (close_done rfl rfl)))
  · rw [exec_awaiting hr, awaitTimer_eq (c := s.begin) hf hst hw hle, rereads_now hf hst hacc hl, close_upd _ rfl rfl]
    rfl
  · rw [exec_awaiting hr, awaitTimer_eq (c := s.begin) hf hst hw hle, tryReread_of_busy hf hacc, close_begin_upd]
    rfl
  · have hno : awaitTimer n s.begin = s.begin := by
      unfold awaitTimer
      rw [show s.begin.st.ann? n = some a from hf]
      dsimp only
      rw [hw]
      exact if_neg (by rw [Bool.not_eq_true]; exact Bool.and_eq_false_imp.2 fun _ => decide_eq_false (Nat.not_le.2 hlt))
    exact congrArg Host.Outcome.next ((event_of_running hr _).trans ((congrArg Ctx.close hno).trans (close_done rfl rfl)))

end Sys2Proof.Machine
end

