-- ==== Sys2Proof/Proofs/Amid.lean ====
section
/-! SUPPORT. An event so far whose trouble classes stay: what it has come to but for RI, with the answers and calls it has left. -/

namespace Sys2Proof.Machine
open Sys2Proof

/-- An event so far has come to a state, but for RI, with these answers and calls left. -/
structure Amid (u : State) (as : List Ans) (ws : List Work) (c : Ctx) : Prop where
  state : RiOnly u c.st
  ans : c.ans = as
  todo : c.todo = ws

theorem amid_refl (c : Ctx) : Amid c.st c.ans c.todo c := ⟨RiOnly.refl _, rfl, rfl⟩

theorem amid_begin (s : State) : Amid s.started [] [] s.begin := amid_refl s.begin

theorem amid_deciding (q : ReqHdr) (s : State) : Amid (s.taking q) [] [] (s.deciding q) := amid_refl (s.deciding q)

section
variable {u : State} {as : List Ans} {ws : List Work} {c : Ctx} (h : Amid u as ws c)
include h

theorem Amid.upd {f : State → State} (hf : RiFree f) : Amid (f u) as ws (c.upd f) := ⟨hf.riOnly h.state, h.ans, h.todo⟩

theorem Amid.same {f : State → State} (hf : ∀ s, RiOnly s (f s)) : Amid u as ws (c.upd f) := ⟨h.state.trans (hf _), h.ans, h.todo⟩

theorem Amid.record (n : Note) : Amid u as ws (c.record n) := h.same fun s => (noted_record s n).toRiOnly

theorem Amid.records (ns : List Note) : Amid u as ws (Ctx.each Ctx.record ns c) := by
  induction ns generalizing c with
  | nil => exact h
  | cons n ns ih => exact ih (h.record n)

theorem Amid.answer (q : ReqHdr) (o : Outcome) (xs : List Word) : Amid u as ws (c.upd (State.answer q o xs)) :=
  h.same fun s => riOnly_answer s q o xs

theorem Amid.mirrorDrill : Amid u as ws (c.upd State.mirrorDrill) := h.same fun s => (noted_mirrorDrill s).toRiOnly

theorem Amid.say (a : Ans) : Amid u (as ++ [a]) ws (c.say a) := ⟨h.state, congrArg (· ++ [a]) h.ans, h.todo⟩

theorem Amid.call (xs : List Work) : Amid u as (ws ++ xs) (c.call xs) := ⟨h.state, h.ans, congrArg (· ++ xs) h.todo⟩

/-- The answer that is taken and the calls behind it stand aside. -/
theorem Amid.dropAns (bs : List Ans) : Amid u bs [] { c with ans := bs, todo := [] } := ⟨h.state, rfl, rfl⟩

theorem Amid.alone : Amid u as [] { c with todo := [] } := ⟨h.state, h.ans, rfl⟩

end

/-- With no answer left the first call is taken, and its own calls go before those behind it. -/
theorem Amid.takesCall {u u' : State} {as : List Ans} {w : Work} {ws xs : List Work} {c : Ctx} (h : Amid u [] (w :: ws) c)
    (hw : Amid u' as xs (doWork w { c with todo := [] })) : ∃ d, Leads 1 c d ∧ Amid u' as (xs ++ ws) d :=
  ⟨{ doWork w { c with todo := [] } with todo := (doWork w { c with todo := [] }).todo ++ ws }, fun _ _ => closes_call h.ans h.todo,
    hw.state, hw.ans, congrArg (· ++ ws) hw.todo⟩

/-- An answer is taken before the calls. -/
theorem Amid.takesAns {u u' : State} {a : Ans} {as bs : List Ans} {ws xs : List Work} {c : Ctx} (h : Amid u (a :: as) ws c)
    (hw : Amid u' bs xs (handleAns a { c with ans := as, todo := [] })) : ∃ d, Leads 1 c d ∧ Amid u' bs (xs ++ ws) d :=
  ⟨{ handleAns a { c with ans := as, todo := [] } with todo := (handleAns a { c with ans := as, todo := [] }).todo ++ c.todo },
    fun _ _ => closes_ans h.ans, hw.state, hw.ans, by rw [hw.todo, h.todo]⟩

/-- What an event has come to when nothing is left is what it leaves. -/
theorem Amid.leaves {u : State} {k : Nat} {c d : Ctx} (h : Amid u [] [] d) (hl : Leads k c d) (hk : k ≤ 1000000) : RiOnly u c.close := by
  rw [close_of_closes (hl 0 d.st (closes_done h.ans h.todo)) (by omega)]
  exact h.state

theorem Amid.close {u : State} {c : Ctx} (h : Amid u [] [] c) : RiOnly u c.close := h.leaves (Leads.refl c) (by decide)

theorem Stands.of_amid {u : State} {as : List Ans} {ws : List Work} {c : Ctx} (hn : Noted u c.st) (h : Amid u as ws c) : Stands u as ws c :=
  ⟨⟨u.io.trouble, hn⟩, h.ans, h.todo⟩

/-! ### Changes that do not look at RI -/

theorem riFree_setZone (z : Nat) (f : ZoneDyn → ZoneDyn) : RiFree (State.setZone z f) := fun _ _ => rfl
theorem riFree_setBell (n : Nat) (f : Bell → Bell) : RiFree (State.setBell n f) := fun _ _ => rfl
theorem riFree_setDrill (f : ActiveDrill → ActiveDrill) : RiFree (State.setDrill f) := fun _ _ => rfl
theorem riFree_setAnn (n : Nat) (f : Ann → Ann) : RiFree (State.setAnn n f) := fun _ _ => rfl
theorem riFree_setChannel (ch : Nat) (f : Channel → Channel) : RiFree (State.setChannel ch f) := fun _ _ => rfl

/-! ### Zones -/

theorem setZone_setZone (z : Nat) (f g : ZoneDyn → ZoneDyn) (s : State) : (s.setZone z f).setZone z g = s.setZone z fun d => g (f d) := by
  simp only [State.setZone, List.modify_modify_eq]
  rfl

theorem setZone_congr {s : State} {z : Nat} {f g : ZoneDyn → ZoneDyn} (h : f (s.zone z) = g (s.zone z)) : s.setZone z f = s.setZone z g := by
  unfold State.setZone
  rw [modify_congr (d := ZoneDyn.clear) h]

/-- With no claim waiting and no feed held, settling a building does nothing (R70, R73). -/
theorem settle_of_quiet {c : Ctx} (h : NoWaiters c.st) (hf : ∀ y, c.st.za.feeds.getD y none = none) (b : Nat) : settle b c = c := by
  rw [settle_of_noWaiters h, feedLapse_of_none hf]

/-! ### Bells -/

/-- The bells without one. -/
def State.bellGone (n : Nat) (s : State) : State := { s with pu := { s.pu with
  bells := s.pu.bells.filter fun e => e.num != n
  lastPush := s.pu.lastPush.map fun p => if p = some n then none else p } }

theorem riFree_bellGone (n : Nat) : RiFree (State.bellGone n) := fun _ _ => rfl

theorem bell_num {s : State} {n : Nat} {b : Bell} (h : s.bell? n = some b) : b.num = n := by
  simpa using List.find?_some h

theorem setBell_bell {s : State} {n : Nat} {b : Bell} {f : Bell → Bell} (hf : ∀ x, (f x).num = x.num) (h : s.bell? n = some b) :
    (s.setBell n f).bell? n = some (f b) := by
  have hmap : ∀ x : Bell, (if x.num = n then f x else x).num = x.num := fun x => by split <;> simp [hf]
  show (s.pu.bells.map fun b => if b.num = n then f b else b).find? (·.num == n) = some (f b)
  rw [List.find?_map, show ((fun x : Bell => x.num == n) ∘ fun b => if b.num = n then f b else b) = (·.num == n) from
    funext fun x => congrArg (· == n) (hmap x), show s.pu.bells.find? (·.num == n) = some b from h]
  simp [bell_num h]

/-- The bells but one are the same after it has changed. -/
theorem filter_setBell (bs : List Bell) (n : Nat) (f : Bell → Bell) (hf : ∀ x, (f x).num = x.num) :
    (bs.map fun b => if b.num = n then f b else b).filter (fun b => b.num != n) = bs.filter fun b => b.num != n := by
  induction bs with
  | nil => rfl
  | cons x xs ih =>
    by_cases hx : x.num = n
    · simp [hx, hf, ih]
    · simp [hx, ih]

theorem bellGone_setBell (n : Nat) (f : Bell → Bell) (hf : ∀ x, (f x).num = x.num) (s : State) : (s.setBell n f).bellGone n = s.bellGone n := by
  unfold State.bellGone State.setBell
  dsimp only
  rw [filter_setBell _ _ _ hf]

/-- A bell of one zone. -/
theorem Bell.zone?_of_single {b : Bell} {e : BellZone} {z : Nat} (hz : b.zones = [e]) (he : e.zone = z) : b.zone? z = some e := by
  simp [Bell.zone?, hz, he]

theorem Bell.setZone_of_single {b : Bell} {e : BellZone} {z : Nat} (hz : b.zones = [e]) (he : e.zone = z) (f : BellZone → BellZone) :
    b.setZone z f = { b with zones := [f e] } := by
  simp [Bell.setZone, hz, he]

section
variable {u : State} {as : List Ans} {ws : List Work} {c : Ctx} {n z : Nat} {b : Bell} {e : BellZone} (h : Amid u as ws c)
include h

/-- R94: a bell whose only zone has its outcome ends. -/
theorem Amid.bellCheck_over (hb : u.bell? n = some b) (hz : b.zones = [e]) (he : e.st ≠ .sounding ∧ e.st ≠ .waiting) :
    Amid (u.bellGone n) as ws (bellCheck n c) := by
  unfold bellCheck
  rw [congrFun h.state.bell n, hb]
  dsimp only
  rw [if_neg (by simp [Bell.count, hz, he])]
  exact (h.record _).upd (riFree_bellGone n)

/-- R94: a bell that loses its only zone ends. -/
theorem Amid.bellLose (hb : u.bell? n = some b) (hz : b.zones = [e]) (he : e.zone = z) (r : BellReason) :
    Amid (u.bellGone n) as ws (bellLose n z r c) := by
  unfold Machine.bellLose
  rw [congrFun h.state.bell n, hb]
  simp only [Bell.zone?_of_single hz he]
  rw [← bellGone_setBell n (Bell.setZone z fun x => { x with st := if e.sounded then BellZoneState.truncated else .missed }) (fun _ => rfl)]
  refine Amid.bellCheck_over ((h.upd (riFree_setBell _ _)).record _) (setBell_bell (fun _ => rfl) hb)
    (congrArg Bell.zones (Bell.setZone_of_single hz he _)) ?_
  cases e.sounded <;> simp

/-- R94: a bell is told that its claim on its only zone is lost. -/
theorem Amid.bell_lost (hb : u.bell? n = some b) (hz : b.zones = [e]) (he : e.zone = z) (r : LostReason) :
    Amid (u.bellGone n) as ws (handleAns (.zone (.bell n) z (.lost r)) c) := by
  have hx : handleAns (.zone (.bell n) z (.lost r)) c = Machine.bellLose n z (lostReason r) c := by
    show bellAnswer n z (.lost r) c = _
    unfold bellAnswer
    rw [congrFun h.state.bell n, hb]
  rw [hx]
  exact h.bellLose hb hz he _

end

end Sys2Proof.Machine
end

