-- ==== Sys2Proof/Proofs/BellTimes.lean ====
section
/-! SUPPORT. O50: a bell's zone steps, finishes and expires. -/

namespace Sys2Proof.Machine
open Sys2Proof

/-- R90: the cadence step of a zone a bell sounds in. -/
theorem bellStep_eq {n z : Nat} {b : Bell} {e : BellZone} {c : Ctx} (hb : c.st.bell? n = some b) (hz : b.zones = [e]) (he : e.zone = z)
    (hs : e.st = .sounding) (ht : c.st.elapsed < e.start + b.length) :
    bellStep n z c = setCadence z (.bell n) ((c.st.pattern b.pattern).cadenceAt (c.st.elapsed - e.start)) c := by
  unfold bellStep
  rw [hb]
  simp only [Bell.zone?_of_single hz he, if_pos hs, CadRun.now, if_pos ht]

/-- R76: the cadence step of a zone's holder. -/
theorem setCadence_eq {z : Nat} {h : Claim} {c : Ctx} (hh : (c.st.zone z).holder = some h) (k : Cadence) :
    setCadence z h.who k c = c.upd (State.setZone z fun d => { d with cadence := k }) := by
  unfold setCadence Ctx.upd
  congr 1
  exact setZone_congr (by simp [hh])

/-- A bell's zone whose cadence has not come to its end goes on. -/
theorem bellFinish_early {n z : Nat} {b : Bell} {e : BellZone} {c : Ctx} (hb : c.st.bell? n = some b) (hz : b.zones = [e]) (he : e.zone = z)
    (ht : c.st.elapsed < e.start + b.length) : bellFinish n z c = c := by
  unfold bellFinish
  rw [hb]
  simp only [Bell.zone?_of_single hz he]
  exact if_neg fun h => absurd (of_decide_eq_true (Bool.and_eq_true_iff.1 h).2) (by omega)

/-- The zone after its release. -/
def ZoneDyn.released (d : ZoneDyn) : ZoneDyn := { d with holder := none, cadence := .quiet }

/-- R70: in quiet surroundings a release of a zone that is silent on its line changes that zone alone. -/
theorem releaseZone_quiet {z : Nat} {h : Claim} {c : Ctx} (hlen : z < c.st.za.zones.length) (hh : (c.st.zone z).holder = some h) (hw : NoWaiters c.st)
    (hf : ∀ y, c.st.za.feeds.getD y none = none) (hs : (c.st.zoneRec z).sounds = false) (hp : (c.st.zoneRec z).speaks = false) :
    releaseZone z h.who c = c.upd (State.setZone z ZoneDyn.released) := by
  unfold releaseZone
  rw [if_pos (by simp [hh]), changeHolder_of_quiet (.inr hp) (.inl hs)]
  have hq : NoWaiters (c.upd (State.setZone z ZoneDyn.released)).st := fun y => by
    rw [Ctx.upd_st, setZone_zone _ _ _ _ hlen]
    split
    · exact hw z
    · exact hw y
  exact settle_of_quiet (c := c.upd (State.setZone z ZoneDyn.released)) hq hf (c.st.buildingOf z)

/-- R90, R94: the only zone of a bell reaches the end of its cadence. -/
theorem Amid.bellFinish {u : State} {c : Ctx} {n z : Nat} {b : Bell} {e : BellZone} {h : Claim} {as : List Ans} {ws : List Work}
    (hc : Amid u as ws c) (hb : u.bell? n = some b) (hz : b.zones = [e]) (he : e.zone = z) (hs : e.st = .sounding)
    (ht : e.start + b.length ≤ u.elapsed) (hlen : z < u.za.zones.length) (hh : (u.zone z).holder = some h) (hn : h.who = .bell n)
    (hw : NoWaiters u) (hf : ∀ y, u.za.feeds.getD y none = none) (hso : (u.zoneRec z).sounds = false) (hsp : (u.zoneRec z).speaks = false) :
    Amid ((u.setZone z ZoneDyn.released).bellGone n) as ws (Machine.bellFinish n z c) := by
  have hk := hc.state
  unfold Machine.bellFinish
  rw [congrFun hk.bell n, hb]
  simp only [Bell.zone?_of_single hz he]
  rw [if_pos (by simp [hs, hk.elapsed, ht]), ← hn, releaseZone_quiet (by exact hk.za ▸ hlen) (by exact hk.zone ▸ hh)
    (by exact fun y => hk.zone ▸ hw y) (by exact fun y => hk.za ▸ hf y) (by exact hk.zoneRec ▸ hso) (by exact hk.zoneRec ▸ hsp),
    ← bellGone_setBell n (Bell.setZone z fun x => { x with st := .finished }) fun _ => rfl]
  exact Amid.bellCheck_over (e := { e with st := .finished }) ((hc.upd (riFree_setBell n _)).upd (riFree_setZone z _))
    (setBell_bell (s := u) (fun _ => rfl) hb) (congrArg Bell.zones (Bell.setZone_of_single hz he _)) ⟨nofun, nofun⟩

/-- A claimant's claim has left the zone's wait list, with its reservation. -/
def ZoneDyn.without (who : Claimant) (d : ZoneDyn) : ZoneDyn :=
  { d with waiters := d.waiters.filter fun w => w.who != who, reserved := if d.reserved = some who then none else d.reserved }

/-- R69: before its wait limit a claim waits on. -/
theorem expireClaim_early {z limit : Nat} {w : Claim} {c : Ctx} (hw : (c.st.zone z).waiters = [w]) (hl : w.waitLimit = some limit)
    (ht : c.st.elapsed < limit) (who : Claimant) : expireClaim z who c = c := by
  unfold expireClaim
  rw [hw]
  exact if_neg (by simp [hl]; omega)

/-- R69, in quiet surroundings: a claim reaches its wait limit, and its claimant is told. -/
theorem expireClaim_due {z limit : Nat} {w : Claim} {c : Ctx} (hlen : z < c.st.za.zones.length) (hw : (c.st.zone z).waiters = [w])
    (hl : w.waitLimit = some limit) (ht : limit ≤ c.st.elapsed) (ho : ∀ y, y ≠ z → (c.st.zone y).waiters = [])
    (hf : ∀ y, c.st.za.feeds.getD y none = none) :
    expireClaim z w.who c = (dropWaiter z w.who c).say (.zone w.who z (.lost .waitExpired)) := by
  unfold expireClaim
  rw [hw, if_pos (by simp [hl, ht])]
  have hq : NoWaiters ((dropWaiter z w.who c).say (.zone w.who z (.lost .waitExpired))).st := fun y => by
    show ((State.setZone z _ c.st).zone y).waiters = []
    rw [setZone_zone _ _ _ _ hlen]
    split
    · simp [hw]
    · next hy => exact ho y hy
  exact settle_of_quiet (c := (dropWaiter z w.who c).say (.zone w.who z (.lost .waitExpired))) hq hf (c.st.buildingOf z)

/-- Settles O50, event by event; at a wait limit the bell is told in a turn of its own that its claim is lost. -/
theorem bellsStepFinishAndExpire : Obligations.BellsStepFinishAndExpire := by
  unfold Obligations.BellsStepFinishAndExpire
  intro n z b e h s hr hc hz64 hb hz he hh hf
  have hlen : z < s.started.za.zones.length := lt_of_lt_of_eq hz64 hc.zones.symm
  have other : ∀ (f : ZoneDyn → ZoneDyn) (y : Nat), y ≠ z → (s.started.setZone z f).zone y = s.zone y := fun f y hy => by
    rw [setZone_zone _ _ _ _ hlen, if_neg hy]; rfl
  have own : ∀ f : ZoneDyn → ZoneDyn, (s.started.setZone z f).zone z = f (s.zone z) := fun f => by
    rw [setZone_zone _ _ _ _ hlen, if_pos rfl]; rfl
  refine ⟨fun hs hwho ht => ?_, fun hs hwho ht hw hso hsp => ?_, fun hs ht => ?_, fun w limit hs hso hwho hws hww hwl ho => ⟨fun ht => ?_, fun ht => ?_⟩⟩
  · have hx : bellStep n z s.begin = s.begin.upd (State.setZone z fun d =>
        { d with cadence := (s.pattern b.pattern).cadenceAt (s.elapsed - e.start) }) := by
      rw [bellStep_eq (c := s.begin) hb hz he hs ht, ← hwho]
      exact setCadence_eq (c := s.begin) hh _
    refine ⟨_, congrArg Host.Outcome.next ((event_of_running hr _).trans (congrArg Ctx.close hx)), ?_⟩
    rw [close_begin_upd]
    exact ⟨own _, other _, SameBut.of_started (sameBut_za (by decide) rfl)⟩
  · have hd := ((amid_begin s).bellFinish hb hz he hs ht hlen hh hwho hw hf hso hsp).close
    refine ⟨_, congrArg Host.Outcome.next (event_of_running hr _), ?_, ?_, fun y hy => ?_, ?_, ?_, SameBut.of_only ?_ hd⟩
    · exact (congrArg ZoneDyn.holder ((congrFun hd.zone z).trans (own _)))
    · exact (congrArg ZoneDyn.cadence ((congrFun hd.zone z).trans (own _)))
    · exact (congrFun hd.zone y).trans (other _ y hy)
    · exact (congrArg PatternUnit.bells hd.pu).trans rfl
    · exact (congrArg PatternUnit.table hd.pu).trans rfl
    · exact ⟨fun _ => rfl, fun _ => rfl, fun _ => rfl, fun k => (k (by decide)).elim, fun k => (k (by decide)).elim, fun _ => rfl, fun _ => rfl,
        fun _ => rfl, fun _ => rfl, fun _ => rfl⟩
  · refine congrArg Host.Outcome.next ((event_of_running hr _).trans ?_)
    rw [bellFinish_early (c := s.begin) hb hz he ht]
    exact close_begin s
  · refine congrArg Host.Outcome.next ((event_of_running hr _).trans ?_)
    rw [expireClaim_early (c := s.begin) hws hwl ht]
    exact close_begin s
  · have hx : expireClaim z (.bell n) s.begin = (dropWaiter z (.bell n) s.begin).say (.zone (.bell n) z (.lost .waitExpired)) := by
      rw [← hww]
      exact expireClaim_due (c := s.begin) hlen hws hwl ht ho hf
    have h1 : Amid (s.started.setZone z fun d => d.without (.bell n)) [.zone (.bell n) z (.lost .waitExpired)] [] (expireClaim z (.bell n) s.begin) := by
      rw [hx]
      exact ((amid_begin s).upd (riFree_setZone z _)).say _
    obtain ⟨d, hl, h2⟩ := h1.takesAns ((h1.dropAns []).bell_lost hb hz he .waitExpired)
    have hd := h2.leaves hl (by decide)
    have hw1 : (s.zone z).without (.bell n) = { s.zone z with waiters := [], reserved := ((s.zone z).without (.bell n)).reserved } := by
      simp [ZoneDyn.without, hws, hww]
    refine ⟨_, congrArg Host.Outcome.next (event_of_running hr _), ?_, ?_, ?_, fun y hy => ?_, ?_, ?_, SameBut.of_only ?_ hd⟩
    · exact (congrArg ZoneDyn.waiters ((congrFun hd.zone z).trans ((own _).trans hw1)))
    · exact (congrArg ZoneDyn.holder ((congrFun hd.zone z).trans (own (ZoneDyn.without (.bell n))))).trans hh
    · exact (congrArg ZoneDyn.cadence ((congrFun hd.zone z).trans (own (ZoneDyn.without (.bell n))))).trans rfl
    · exact (congrFun hd.zone y).trans (other _ y hy)
    · exact (congrArg PatternUnit.bells hd.pu).trans rfl
    · exact (congrArg PatternUnit.table hd.pu).trans rfl
    · exact ⟨fun _ => rfl, fun _ => rfl, fun _ => rfl, fun k => (k (by decide)).elim, fun k => (k (by decide)).elim, fun _ => rfl, fun _ => rfl,
        fun _ => rfl, fun _ => rfl, fun _ => rfl⟩

end Sys2Proof.Machine
end

