-- ==== Sys2Proof/Proofs/Grants.lean ====
section
/-! SUPPORT. A claim on a zone that nobody holds, in quiet surroundings, and a bell that starts on such a zone. -/

namespace Sys2Proof.Machine
open Sys2Proof

/-! ### One zone of a zone set -/

theorem getLsbD_twoPow {z i : Nat} (hz : z < 64) : (BitVec.twoPow 64 z).getLsbD i = decide (i = z) := by
  rw [BitVec.getLsbD_twoPow]
  by_cases h : z = i
  · simp [h, h ▸ hz]
  · simp [h, Ne.symm h]

theorem filter_eq_self_range (n z : Nat) (hz : z < n) : ((List.range n).filter fun i => decide (i = z)) = [z] := by
  induction n with
  | zero => omega
  | succ n ih =>
    rw [List.range_succ, List.filter_append]
    by_cases h : z = n
    · subst h
      rw [List.filter_eq_nil_iff.2 fun i hi => by simpa using Nat.ne_of_lt (List.mem_range.1 hi)]
      simp
    · rw [ih (by omega)]
      simp [Ne.symm h]

/-- The set of one zone has that zone alone. -/
theorem zonesOf_twoPow {z : Nat} (hz : z < 64) : zonesOf (BitVec.twoPow 64 z) = [z] := by
  rw [zonesOf, show (BitVec.twoPow 64 z).getLsbD = fun i => decide (i = z) from funext fun i => getLsbD_twoPow hz]
  exact filter_eq_self_range 64 z hz

/-! ### The claim -/

/-- The zone as a claim is granted it, with the feeds that follow (R66, R73). -/
def State.grantedTo (z : Nat) (x : Claim) (fs : List (Option FeedHolder)) (s : State) : State :=
  { s with za := { s.za with
    arrival := s.za.arrival + 1
    feeds := fs
    zones := s.za.zones.modify z fun _ => ⟨some { x with arrival := s.za.arrival, grantEv := s.eventNo }, [], none, .quiet⟩ } }

theorem riFree_grantedTo (z : Nat) (x : Claim) (fs : List (Option FeedHolder)) : RiFree (State.grantedTo z x fs) := fun _ _ => rfl

/-- The claim on a free zone is granted at once: no feed is in its way, and its grant is watched on no line. -/
def UnhinderedClaim (x : Claim) (s : State) : Prop :=
  (x.speaking = false ∧ ∀ n, x.who ≠ .ann n) ∨ (BareLines s ∧ ∀ b, s.za.feeds.getD b none = none)

theorem feedTest_of_unhindered {s : State} {x : Claim} (h : UnhinderedClaim x s) (b : Nat) : feedTest s b x = .free := by
  unfold feedTest
  rcases h with ⟨h, -⟩ | ⟨-, h⟩
  · rw [h]
    rfl
  · rw [h]
    cases x.speaking <;> rfl

theorem setLine_of_bare {s : State} (h : BareLines s) {ln : Nat} {f : Tx → Tx} :
    (s.setLine ln fun l => { l with queue := l.queue.map f, inFlight := l.inFlight.map fun x => { x with tx := f x.tx } }) = s := by
  refine setLine_of_fixed ?_
  obtain ⟨hq, hi, -, -⟩ := h ln
  have : (s.line ln) = { s.line ln with queue := [], inFlight := none } := by rw [← hq, ← hi]
  rw [this]
  rfl

theorem watchEarlier_of_unhindered {x : Claim} {c : Ctx} (h : (∀ n, x.who ≠ .ann n) ∨ BareLines c.st) (z : Nat) : watchEarlier z x.who c = c := by
  unfold watchEarlier
  split
  · next n hn =>
    refine congrArg (fun s => ({ c with st := s } : Ctx)) (setLine_of_bare (h.resolve_left fun k => k n hn))
  · rfl

/-- R66: a grant of a zone that nobody holds and nobody waits for, to a claim that nothing is in the way of. -/
theorem grantZone_of_free {z : Nat} {x : Claim} {c : Ctx} (hs : (c.st.zoneRec z).sounds = false) (hp : (c.st.zoneRec z).speaks = false)
    (hh : (c.st.zone z).holder = none) (hw : (c.st.zone z).waiters = []) (hx : (∀ n, x.who ≠ .ann n) ∨ BareLines c.st) (hl : z < c.st.za.zones.length) :
    grantZone z x c = ((if x.speaking then c.upd (State.setFeed (c.st.buildingOf z) (some ⟨x.who, x.level⟩)) else c).upd
      (State.setZone z fun _ => ⟨some { x with grantEv := c.st.eventNo }, [], none, .quiet⟩)).say (.zone x.who z .granted) := by
  have hd : ((dropWaiter z x.who c).st.zone z).holder = none := by
    show ((State.setZone z _ c.st).zone z).holder = none
    rw [setZone_zone _ _ _ _ hl, if_pos rfl]
    exact hh
  have last : ∀ s : State, s.zone z = c.st.zone z → ((s.setZone z (ZoneDyn.without x.who)).setZone z fun d => { d with reserved := none }).setZone z
      (fun d => { d with holder := some { x with grantEv := c.st.eventNo }, cadence := .quiet })
      = s.setZone z fun _ => ⟨some { x with grantEv := c.st.eventNo }, [], none, .quiet⟩ := fun s h => by
    rw [setZone_setZone, setZone_setZone]
    refine setZone_congr ?_
    simp [ZoneDyn.without, h, hw]
  unfold grantZone
  simp only [hd]
  rw [watchEarlier_of_unhindered (by cases x.speaking <;> exact hx)]
  rw [changeHolder_of_quiet (.inr (by cases x.speaking <;> exact hp)) (.inl (by cases x.speaking <;> exact hs))]
  by_cases hsp : x.speaking = true
  · simp only [if_pos hsp]
    exact congrArg (fun s => ({ c with st := s, ans := c.ans ++ [.zone x.who z .granted] } : Ctx)) (last (c.st.setFeed _ _) rfl)
  · simp only [if_neg hsp]
    exact congrArg (fun s => ({ c with st := s, ans := c.ans ++ [.zone x.who z .granted] } : Ctx)) (last c.st rfl)

/-- R65, R66: a claim on a free zone is granted, in quiet surroundings. -/
theorem claim_of_free {z : Nat} {x : Claim} {c : Ctx} (hf : FreeZone z c.st) (hw : NoWaiters c.st) (hx : UnhinderedClaim x c.st) :
    ∃ fs, claim z x c = (c.upd (State.grantedTo z x fs)).say (.zone x.who z .granted) := by
  have hl : z < c.st.za.zones.length := lt_of_lt_of_eq hf.range hf.counted.symm
  unfold claim
  simp only [hf.noHolder, hw z]
  rw [if_neg (by simp), if_neg (by simp)]
  set n := c.st.za.arrival
  set c1 := c.upd fun s => { s with za := { s.za with arrival := n + 1 } }
  have hidle : c.st.zoneState z = .idle := zoneState_of_free hf.enabled hf.noHolder
  have hrange := hf.range
  have hfire : c.st.za.fireReported = false := hf.noFire
  rw [hidle, hfire, if_neg (by simp only [reduceCtorEq, decide_false, Bool.or_false, decide_eq_true_eq]; omega), if_neg (by simp)]
  have hdec : decideClaim z { x with arrival := n } c1 = grantZone z { x with arrival := n } c1 := by
    unfold decideClaim
    simp only [show (c1.st.zone z).holder = none from hf.noHolder, candidate_of_noWaiter (show (c1.st.zone z).waiters = [] from hw z)]
    unfold takeOrBlock
    simp only []
    rw [feedTest_of_unhindered (by exact hx)]
  have hx' : (∀ n, x.who ≠ .ann n) ∨ BareLines c.st := hx.imp (·.2) (·.1)
  rw [hdec, grantZone_of_free (c := c1) (x := { x with arrival := n }) hf.silentLine.1 hf.silentLine.2 hf.noHolder (hw z) (by exact hx') hl]
  have hq : ∀ u : State, (∀ y, (u.zone y).waiters = []) → u.za.zones.length = c.st.za.zones.length → ∀ g : Claim,
      NoWaiters (u.setZone z fun _ => ⟨some g, [], none, .quiet⟩) := fun u hu hlen g y => by
    rw [setZone_zone _ _ _ _ (lt_of_lt_of_eq hl hlen.symm)]
    split
    · rfl
    · exact hu y
  by_cases hsp : x.speaking = true
  · simp only [if_pos hsp]
    rw [settle_of_noWaiters (by exact hq _ hw rfl _)]
    obtain ⟨fs, hfs⟩ := feedLapse_feeds (c.st.buildingOf z) (((c1.upd (State.setFeed (c1.st.buildingOf z) (some ⟨x.who, x.level⟩))).upd
      (State.setZone z fun _ => ⟨some { x with arrival := n, grantEv := c1.st.eventNo }, [], none, .quiet⟩)).say (.zone x.who z .granted))
    exact ⟨fs, hfs⟩
  · simp only [if_neg hsp]
    rw [settle_of_noWaiters (by exact hq _ hw rfl _)]
    obtain ⟨fs, hfs⟩ := feedLapse_feeds (c.st.buildingOf z) ((c1.upd
      (State.setZone z fun _ => ⟨some { x with arrival := n, grantEv := c1.st.eventNo }, [], none, .quiet⟩)).say (.zone x.who z .granted))
    exact ⟨fs, hfs⟩

theorem FreeZone.of_za {z : Nat} {s t : State} (h : FreeZone z s) (hz : t.za = s.za) : FreeZone z t := by
  obtain ⟨h1, h2, h3, h4, h5, h6⟩ := h
  unfold State.zoneRec at h3 h4
  unfold State.zone at h5
  rw [← hz] at h2 h3 h4 h5 h6
  exact ⟨h1, h2, h3, h4, h5, h6⟩

theorem NoWaiters.of_za {s t : State} (h : NoWaiters s) (hz : t.za = s.za) : NoWaiters t := fun z => by
  have := h z
  unfold State.zone at this ⊢
  rwa [hz]

theorem BareLines.of_lc {s t : State} (h : BareLines s) (hl : t.lc = s.lc) : BareLines t := fun l => by
  have := h l
  unfold State.line at this ⊢
  rwa [hl]

theorem Amid.claim_free {u : State} {as : List Ans} {ws : List Work} {c : Ctx} {z : Nat} {x : Claim} (h : Amid u as ws c) (hf : FreeZone z u)
    (hw : NoWaiters u) (hx : UnhinderedClaim x u) : ∃ fs, Amid (u.grantedTo z x fs) (as ++ [.zone x.who z .granted]) ws (claim z x c) := by
  have hk := h.state
  obtain ⟨fs, he⟩ := claim_of_free (z := z) (x := x) (c := c) (hf.of_za hk.za) (hw.of_za hk.za)
    (hx.imp id fun hb => ⟨hb.1.of_lc hk.lc, fun b => hk.za ▸ hb.2 b⟩)
  exact ⟨fs, he ▸ (h.upd (riFree_grantedTo z x fs)).say _⟩

theorem grantedTo_zone {z : Nat} {x : Claim} {fs : List (Option FeedHolder)} {s : State} (h : z < s.za.zones.length) (y : Nat) :
    (s.grantedTo z x fs).zone y = if y = z then ⟨some { x with arrival := s.za.arrival, grantEv := s.eventNo }, [], none, .quiet⟩ else s.zone y :=
  setZone_zone s z y (fun _ => ⟨some { x with arrival := s.za.arrival, grantEv := s.eventNo }, [], none, .quiet⟩) h

/-! ### A bell starts -/

theorem freeBell_spec {bs : List Bell} {n : Nat} (h : freeBell bs = some n) : ∀ b, b ∈ bs → b.num ≠ n := by
  have := List.find?_some h
  simpa using this

theorem freeBell_none {bs : List Bell} (h : ∀ n, n < 64 → ∃ b, b ∈ bs ∧ b.num = n) : freeBell bs = none := by
  refine List.find?_eq_none.2 fun n hn => ?_
  obtain ⟨b, hb, rfl⟩ := h n (List.mem_range.1 hn)
  simpa using ⟨b, hb, rfl⟩

/-- A bell joins the instances; a push knows it as its last one. -/
def State.bellAdded (src : BellSource) (b : Bell) (s : State) : State :=
  { s with pu := { s.pu with
    bells := s.pu.bells ++ [b]
    lastPush := match src with
      | .push k => s.pu.lastPush.set k (some b.num)
      | _ => s.pu.lastPush } }

theorem riFree_bellAdded (src : BellSource) (b : Bell) : RiFree (State.bellAdded src b) := fun _ _ => rfl

theorem newBell_congr {s t : State} (h : RiOnly s t) (n : Nat) (src : BellSource) (zones : ZoneSet) (p l df du : Nat) :
    newBell t n src zones p l df du = newBell s n src zones p l df du := by
  unfold newBell
  rw [h.pattern, h.elapsed]

/-- R88: a bell with a free number is started. -/
theorem Amid.bellStart {u : State} {as : List Ans} {ws : List Work} {c : Ctx} (h : Amid u as ws c) {n : Nat} (hn : freeBell u.pu.bells = some n)
    (src : BellSource) (zones : ZoneSet) (p l df du : Nat) : Amid (u.bellAdded src (newBell u n src zones p l df du)) as
      (ws ++ (zonesOf zones).map (.bellClaim n)) (bellStart src zones p l df du c) := by
  unfold Machine.bellStart
  rw [h.state.pu, hn]
  simp only []
  rw [newBell_congr h.state]
  have hb := h.upd (riFree_bellAdded src (newBell u n src zones p l df du))
  cases src <;> exact (hb.records _).call _

theorem bellAdded_bell {u : State} {b : Bell} (h : ∀ x, x ∈ u.pu.bells → x.num ≠ b.num) (src : BellSource) :
    (u.bellAdded src b).bell? b.num = some b := by
  show (u.pu.bells ++ [b]).find? (·.num == b.num) = some b
  rw [List.find?_append, List.find?_eq_none.2 fun x hx => by simpa using h x hx]
  simp

end Sys2Proof.Machine
end

