-- ==== Sys2Proof/Proofs/Ringing.lean ====
section
/-! SUPPORT. O23: RING on a free zone. -/

namespace Sys2Proof.Machine
open Sys2Proof

/-- R90: the claim of a bell at a moment. -/
def Bell.claimAt (now : Nat) (b : Bell) : Claim :=
  ⟨.bell b.num, b.level, false, now < b.deadline, some b.deadline, .waitUntil b.deadline, some ⟨b.pattern, b.length⟩, 0, 0⟩

/-- R90: a bell sounds in a zone from a moment. -/
def Bell.soundingIn (z now : Nat) (b : Bell) : Bell := b.setZone z fun e => { e with st := .sounding, sounded := true, start := now }

theorem Amid.bellClaim {u u' : State} {as bs : List Ans} {ws : List Work} {c : Ctx} (h : Amid u as ws c) {n z : Nat} {b : Bell}
    (hb : u.bell? n = some b) (hc : ∀ x, x = b.claimAt u.elapsed → Amid u' bs ws (claim z x c)) : Amid u' bs ws (doWork (.bellClaim n z) c) := by
  have he := h.state.elapsed
  show Amid u' bs ws (Machine.bellClaim n z c)
  unfold Machine.bellClaim
  rw [congrFun h.state.bell n, hb]
  refine hc _ ?_
  rw [he, Bell.claimAt, bell_num hb]

/-- R98: a zone that does not sound on its line has no stale sounder to report. -/
theorem staleReport_of_silent {b : Bell} {z : Nat} {c : Ctx} (h : (c.st.zoneRec z).sounds = false) : staleReport b z c = c := by
  unfold staleReport
  simp only [h, Bool.false_and]
  exact if_neg Bool.false_ne_true

/-- R90: a grant starts the cadence of a zone that is silent on its line. -/
theorem Amid.bell_granted {u : State} {as : List Ans} {ws : List Work} {c : Ctx} (h : Amid u as ws c) {n z : Nat} {b : Bell} {g : Claim}
    (hb : u.bell? n = some b) (hs : (u.zoneRec z).sounds = false) (hg : (u.zone z).holder = some g) (hw : g.who = .bell n) :
    Amid ((u.setBell n (Bell.soundingIn z u.elapsed)).setZone z fun d => { d with cadence := (u.pattern b.pattern).cadenceAt 0 }) as ws
      (handleAns (.zone (.bell n) z .granted) c) := by
  have hk := h.state
  have h1 := h.upd (riFree_setBell n (Bell.soundingIn z u.elapsed))
  have h2 := h1.upd (riFree_setZone z fun d => { d with cadence := (u.pattern b.pattern).cadenceAt 0 })
  have hr : handleAns (.zone (.bell n) z .granted) c = (c.upd (State.setBell n (Bell.soundingIn z u.elapsed))).upd
      (State.setZone z fun d => { d with cadence := (u.pattern b.pattern).cadenceAt 0 }) := by
    show bellAnswer n z .granted c = _
    unfold bellAnswer
    rw [congrFun hk.bell n, hb]
    unfold bellGranted
    simp only [bell_num hb, hk.elapsed]
    have hcad := setCadence_eq (c := c.upd (State.setBell n (Bell.soundingIn z u.elapsed)))
      ((congrArg ZoneDyn.holder (congrFun h1.state.zone z)).trans hg) ((u.pattern b.pattern).cadenceAt 0)
    rw [hw] at hcad
    have hpat : (c.upd (State.setBell n (Bell.soundingIn z u.elapsed))).st.pattern b.pattern = u.pattern b.pattern :=
      congrFun hk.pattern b.pattern
    have hst := staleReport_of_silent (b := b) (z := z) (c := (c.upd (State.setBell n (Bell.soundingIn z u.elapsed))).upd
      (State.setZone z fun d => { d with cadence := (u.pattern b.pattern).cadenceAt 0 })) ((congrArg ZoneRec.sounds (congrFun h2.state.zoneRec z)).trans hs)
    rw [← hcad, ← hpat] at hst ⊢
    exact hst
  rw [hr]
  exact h2

/-- A zone has a new holder and cadence step, with the feeds that follow. -/
def State.heldAs (z : Nat) (g : Claim) (k : Cadence) (fs : List (Option FeedHolder)) (s : State) : State :=
  { s with za := { s.za with arrival := s.za.arrival + 1, feeds := fs, zones := s.za.zones.modify z fun _ => ⟨some g, [], none, k⟩ } }

theorem heldAs_zone {z : Nat} {g : Claim} {k : Cadence} {fs : List (Option FeedHolder)} {s : State} (h : z < s.za.zones.length) (y : Nat) :
    (s.heldAs z g k fs).zone y = if y = z then ⟨some g, [], none, k⟩ else s.zone y := setZone_zone s z y (fun _ => ⟨some g, [], none, k⟩) h

/-- The holder that a claim makes. -/
def Claim.holding (x : Claim) (s : State) : Claim := { x with arrival := s.za.arrival, grantEv := s.eventNo }

theorem grantedTo_cadence {z : Nat} {x : Claim} {k : Cadence} {fs : List (Option FeedHolder)} {s : State} :
    (s.grantedTo z x fs).setZone z (fun d => { d with cadence := k }) = s.heldAs z (x.holding s) k fs := by
  unfold State.setZone State.grantedTo State.heldAs
  dsimp only
  rw [List.modify_modify_eq]
  rfl

/-- The bell that is new is changed alone. -/
theorem bellAdded_setBell {u : State} {b : Bell} {src : BellSource} (h : ∀ x, x ∈ u.pu.bells → x.num ≠ b.num) {f : Bell → Bell}
    (hf : (f b).num = b.num) : (u.bellAdded src b).setBell b.num f = u.bellAdded src (f b) := by
  have hm : (u.pu.bells ++ [b]).map (fun x => if x.num = b.num then f x else x) = u.pu.bells ++ [f b] := by
    have hid : u.pu.bells.map (fun x => if x.num = b.num then f x else x) = u.pu.bells :=
      (List.map_congr_left fun x hx => if_neg (h x hx)).trans (List.map_id' _)
    rw [List.map_append, hid]
    simp
  unfold State.setBell State.bellAdded
  dsimp only
  rw [hm]
  cases src <;> simp only [hf]

/-- R88, R90: a bell with one zone, which is free, sounds there in two turns. -/
theorem Amid.bell_starts {u : State} {ws : List Work} {c : Ctx} {z : Nat} {b : Bell} {src : BellSource}
    (h : Amid (u.bellAdded src b) [] (.bellClaim b.num z :: ws) c) (hn : ∀ x, x ∈ u.pu.bells → x.num ≠ b.num)
    (hz : b.zones = [⟨z, .waiting, false, 0⟩]) (hf : FreeZone z u) (hw : NoWaiters u) :
    ∃ d fs, Leads 2 c d ∧ Amid ((u.heldAs z ((b.claimAt u.elapsed).holding u) ((u.pattern b.pattern).cadenceAt 0) fs).bellAdded src
      { b with zones := [⟨z, .sounding, true, u.elapsed⟩] }) [] ws d := by
  have hb := bellAdded_bell hn src
  have hl : z < u.za.zones.length := lt_of_lt_of_eq hf.range hf.counted.symm
  obtain ⟨fs, h1⟩ := h.alone.claim_free (x := b.claimAt u.elapsed) (hf.of_za rfl) (hw.of_za rfl) (.inl ⟨rfl, nofun⟩)
  obtain ⟨d1, hl1, h2⟩ := h.takesCall (h.alone.bellClaim hb fun x hx => by subst hx; exact h1)
  have hown := grantedTo_zone (x := b.claimAt u.elapsed) (fs := fs) (s := u.bellAdded src b) hl z
  rw [if_pos rfl] at hown
  obtain ⟨d2, hl2, h3⟩ := h2.takesAns ((h2.dropAns []).bell_granted (n := b.num) hb hf.silentLine.1 (congrArg ZoneDyn.holder hown) rfl)
  refine ⟨d2, fs, hl1.trans hl2, ?_⟩
  have hst : ((u.bellAdded src b).setBell b.num (Bell.soundingIn z u.elapsed)) = u.bellAdded src { b with zones := [⟨z, .sounding, true, u.elapsed⟩] } := by
    rw [bellAdded_setBell hn rfl, Bell.soundingIn, Bell.setZone_of_single hz rfl]
  have heq : ((((u.bellAdded src b).grantedTo z (b.claimAt u.elapsed) fs).setBell b.num (Bell.soundingIn z u.elapsed)).setZone z
      fun d => { d with cadence := (u.pattern b.pattern).cadenceAt 0 }) =
      (u.heldAs z ((b.claimAt u.elapsed).holding u) ((u.pattern b.pattern).cadenceAt 0) fs).bellAdded src
      { b with zones := [⟨z, .sounding, true, u.elapsed⟩] } := by
    have hc := congrArg (fun s : State => { s with pu := ((u.bellAdded src b).setBell b.num (Bell.soundingIn z u.elapsed)).pu })
      (grantedTo_cadence (z := z) (x := b.claimAt u.elapsed) (k := (u.pattern b.pattern).cadenceAt 0) (fs := fs) (s := u))
    rw [hst] at hc
    refine Eq.trans ?_ hc
    rw [← hst]
    rfl
  exact heq ▸ h3

end Sys2Proof.Machine
end

