-- ==== Sys2Proof/Proofs/Ring.lean ====
section
/-! SUPPORT. O23: RING and its refusals. -/

namespace Sys2Proof.Machine
open Sys2Proof

/-- R89: a field of RING is out of its range. -/
def ringOutOfRange (p : RingParams) : Prop := (p.targetKind = 0 ∧ 63 < p.group) ∨ 31 < p.pattern ∨ p.level < 2 ∨ 9 < p.level

/-- R89: the zones RING names. -/
def ringTarget (p : RingParams) (s : State) : ZoneSet := if p.targetKind = 0 then s.group p.group else p.zones

/-- R89: RING names another target kind, an empty pattern or an empty target. -/
def ringBad (p : RingParams) (s : State) : Prop := 1 < p.targetKind ∨ (s.pattern p.pattern).steps = [] ∨ ringTarget p s = 0

/-- R89: the outcome of a RING that is taken. -/
def ringOutcome (p : RingParams) : Outcome := if p.defer ≤ 120 ∧ 1 ≤ p.duration ∧ p.duration ≤ 600 then .done else .doneClamped

theorem ringOutcome_eq (p : RingParams) :
    Outcome.ofClamped (min p.defer 120 != p.defer || clampNat 1 600 p.duration != p.duration) = (ringOutcome p) := by
  rw [clampNat_eq (by decide)]
  unfold Outcome.ofClamped ringOutcome
  have : (min p.defer 120 != p.defer || max 1 (min 600 p.duration) != p.duration) = !decide (p.defer ≤ 120 ∧ 1 ≤ p.duration ∧ p.duration ≤ 600) := by
    rw [Bool.eq_iff_iff]
    simp only [Bool.or_eq_true, bne_iff_ne, Bool.not_eq_true', decide_eq_false_iff_not]
    omega
  rw [this]
  by_cases h : p.defer ≤ 120 ∧ 1 ≤ p.duration ∧ p.duration ≤ 600 <;> simp [h]

section
variable {q : ReqHdr} {p : RingParams} {c : Ctx}

theorem decideRing_outOfRange (h : ringOutOfRange p) : decideRing q p c = c.upd (State.refuse q .outOfRange) := by
  unfold ringOutOfRange at h
  unfold decideRing
  rw [if_pos (by simpa [or_assoc] using h)]

theorem decideRing_bad (h : ¬ ringOutOfRange p) (hb : ringBad p c.st) : decideRing q p c = c.upd (State.refuse q .badParameter) := by
  unfold ringOutOfRange at h
  unfold ringBad ringTarget at hb
  unfold decideRing targetZones
  rw [if_neg (by simpa [or_assoc] using h)]
  dsimp only
  rw [if_pos (by simpa [Pattern.isEmpty, or_assoc] using hb)]

/-- R89: a RING that passes its checks starts a bell. -/
theorem decideRing_taken (h : ¬ ringOutOfRange p) (hb : ¬ ringBad p c.st) : decideRing q p c =
    let c1 := bellStart (.ring c.tag) (ringTarget p c.st) p.pattern p.level (min p.defer 120) (clampNat 1 600 p.duration) c
    match freeBell c.st.pu.bells with
    | none => c1.upd (State.refuse q .busy)
    | some n => c1.upd (State.answer q (ringOutcome p) [numWord n, numWord (zonesOf (ringTarget p c.st)).length]) := by
  unfold ringOutOfRange at h
  unfold ringBad at hb
  unfold decideRing targetZones
  rw [if_neg (by simpa [or_assoc] using h)]
  dsimp only
  rw [if_neg (by simpa [Pattern.isEmpty, ringTarget, or_assoc] using hb), ringOutcome_eq]
  rfl

theorem decideRing_accepted {n : Nat} (h : ¬ ringOutOfRange p) (hb : ¬ ringBad p c.st) (hn : freeBell c.st.pu.bells = some n) : decideRing q p c =
    (bellStart (.ring c.tag) (ringTarget p c.st) p.pattern p.level (min p.defer 120) (clampNat 1 600 p.duration) c).upd
      (State.answer q (ringOutcome p) [numWord n, numWord (zonesOf (ringTarget p c.st)).length]) := by
  rw [decideRing_taken h hb, hn]

theorem decideRing_busy (h : ¬ ringOutOfRange p) (hb : ¬ ringBad p c.st) (hn : freeBell c.st.pu.bells = none) : decideRing q p c =
    (c.record (missedNote (.ring c.tag) .noInstance)).upd (State.answer q .busy []) := by
  rw [decideRing_taken h hb, hn]
  dsimp only
  unfold bellStart
  rw [hn]
  rfl

end

theorem zoneState_of_bell {s : State} {z n : Nat} {g : Claim} (he : (s.zoneRec z).enabled = true) (hh : (s.zone z).holder = some g)
    (hw : g.who = .bell n) : s.zoneState z = .bell := by
  unfold State.zoneState
  rw [if_pos he, hh]
  simp only [hw]

/-- Settles O23. -/
theorem ringSoundsAFreeZone : Obligations.RingSoundsAFreeZone := by
  unfold Obligations.RingSoundsAFreeZone
  intro q p s hr hlog
  refine ⟨fun h => exec_refused rfl hr (decideRing_outOfRange h), fun h hb => exec_refused rfl hr (decideRing_bad h hb), fun h hb hn => ?_,
    fun z n hw hf h hb ht hn => ?_⟩
  · have hd := decideRing_busy (q := q) (c := s.deciding q) h hb (freeBell_none hn)
    obtain ⟨hx, hdec, hk⟩ := exec_decided (i := .ring q p) rfl hr hlog hd (noted_record (s.taking q) _) rfl rfl (by simp) rfl rfl rfl
    exact ⟨_, hx, hdec, SameBut.of_only (SameBut.of_taking (q := q) (SameBut.refl [] (s.taking q))) hk⟩
  · have hz : zonesOf (ringTarget p s) = [z] := (congrArg zonesOf ht).trans (zonesOf_twoPow hf.range)
    have hd : decideRing q p (s.deciding q) = (bellStart (.ring q.tag) (ringTarget p s) p.pattern p.level (min p.defer 120)
        (clampNat 1 600 p.duration) (s.deciding q)).upd (State.answer q (ringOutcome p) [numWord n, numWord 1]) := by
      refine (decideRing_accepted (c := s.deciding q) h hb hn).trans ?_
      rw [show ringTarget p (s.deciding q).st = ringTarget p s from rfl, hz]
      rfl
    obtain ⟨hx, hdec⟩ := exec_passed (i := .ring q p) rfl hr hlog hd (bellStart_cturn (CTurn.refl _)) (by simp)
    have h1 := ((amid_deciding q s).bellStart hn (.ring q.tag) (ringTarget p s) p.pattern p.level (min p.defer 120)
      (clampNat 1 600 p.duration)).answer q (ringOutcome p) [numWord n, numWord 1]
    rw [hz] at h1
    obtain ⟨d, fs, hl, h2⟩ := h1.bell_starts (freeBell_spec hn) (by rw [newBell, hz]; rfl) (hf.of_za rfl) (hw.of_za rfl)
    have hk := h2.leaves hl (by decide)
    have hlen : z < s.za.zones.length := lt_of_lt_of_eq hf.range hf.counted.symm
    have hzone := fun y => (congrFun hk.zone y).trans (heldAs_zone (s := s.taking q) hlen y)
    have hown := (hzone z).trans (if_pos rfl)
    refine ⟨_, _, _, hx, hdec, congrArg ZoneDyn.holder hown, rfl, rfl, ?_, congrArg ZoneDyn.cadence hown, fun y hy => (hzone y).trans (if_neg hy),
      hk.pu, rfl, rfl, rfl, rfl, rfl, SameBut.of_only ?_ hk⟩
    · exact zoneState_of_bell ((congrArg ZoneRec.enabled (congrFun hk.zoneRec z)).trans hf.enabled) (congrArg ZoneDyn.holder hown) rfl
    · exact ⟨fun _ => rfl, fun _ => rfl, fun _ => rfl, fun k => (k (by decide)).elim, fun k => (k (by decide)).elim, fun _ => rfl, fun _ => rfl,
        fun _ => rfl, fun _ => rfl, fun _ => rfl⟩

end Sys2Proof.Machine
end

