-- ==== Sys2Proof/Proofs/DrillStarts.lean ====
section
/-! SUPPORT. O27: a drill without tone starts in one free zone. -/

namespace Sys2Proof.Machine
open Sys2Proof

/-! ### Turns that keep what an outcome written later needs -/

theorem Amid.passesCall {u u' : State} {as : List Ans} {w : Work} {ws xs : List Work} {c : Ctx} (h : Amid u [] (w :: ws) c)
    (hn : ∀ q n, w ≠ .startAnswer q n) (hw : Amid u' as xs (doWork w { c with todo := [] })) :
    ∃ d, Leads 1 c d ∧ Framed c.st d.st ∧ Amid u' as (xs ++ ws) d :=
  ⟨{ doWork w { c with todo := [] } with todo := (doWork w { c with todo := [] }).todo ++ ws }, fun _ _ => closes_call h.ans h.todo,
    (doWork_passed hn { c with todo := [] }).1.framed, hw.state, hw.ans, congrArg (· ++ ws) hw.todo⟩

theorem Amid.passesAns {u u' : State} {a : Ans} {as bs : List Ans} {ws xs : List Work} {c : Ctx} (h : Amid u (a :: as) ws c)
    (hw : Amid u' bs xs (handleAns a { c with ans := as, todo := [] })) : ∃ d, Leads 1 c d ∧ Framed c.st d.st ∧ Amid u' bs (xs ++ ws) d :=
  ⟨{ handleAns a { c with ans := as, todo := [] } with todo := (handleAns a { c with ans := as, todo := [] }).todo ++ c.todo },
    fun _ _ => closes_ans h.ans, ((handleAns_cturn (a := a) (CTurn.refl { c with ans := as, todo := [] })).st.toPassed).framed,
    hw.state, hw.ans, by rw [hw.todo, h.todo]⟩

/-! ### The drill -/

/-- The state with this drill active. -/
def State.drillAs (d : ActiveDrill) (s : State) : State := { s with dc := { s.dc with active := some d } }

theorem riFree_drillAs (d : ActiveDrill) : RiFree (State.drillAs d) := fun _ _ => rfl

/-- The drill of a start (R128). -/
def newDrill (s : State) (origin : DrillOrigin) (num : Nat) : ActiveDrill where
  num := num
  record := s.dc.records.getD num DrillRec.undefined
  origin := origin
  phase := .sounding
  start := s.elapsed
  channel := none
  tone := false
  zones := []
  buildings := (membersOf (s.dc.records.getD num DrillRec.undefined).buildings).map fun b => ⟨b, none, none, false⟩
  targetReached := false

/-- R128: a drill without tone claims its zones. -/
theorem Amid.drillStart {u : State} {as : List Ans} {ws : List Work} {c : Ctx} (h : Amid u as ws c) {num : Nat}
    (ht : (u.dc.records.getD num DrillRec.undefined).tone = false) (origin : DrillOrigin) :
    Amid (u.drillAs (newDrill u origin num)) as
      (ws ++ ((drillZones u (u.dc.records.getD num DrillRec.undefined)).map .drillClaim ++ [.drillStarted])) (drillStart origin num c) := by
  have hk := h.state
  have hz : ∀ r, drillZones c.st r = drillZones u r := fun r => by unfold drillZones; rw [hk.zoneRec]
  unfold Machine.drillStart
  simp only [hk.dc, ht, hz, hk.elapsed, Bool.false_eq_true, if_false, List.nil_append, List.append_nil]
  exact (h.upd (riFree_drillAs (newDrill u origin num))).call _

/-- A drill's claim. -/
theorem Amid.drillClaim {u u' : State} {as bs : List Ans} {ws : List Work} {c : Ctx} (h : Amid u as ws c) {z : Nat} {d : ActiveDrill}
    (hd : u.dc.active = some d) (hc : Amid u' bs ws (claim z (drillClaimOf d.num ⟨31, 1000 * d.record.sounding⟩) c)) :
    Amid u' bs ws (doWork (.drillClaim z) c) := by
  show Amid u' bs ws (Machine.drillClaim z c)
  unfold Machine.drillClaim
  rw [h.state.dc, hd]
  exact hc

/-- A zone of a drill from its grant on. -/
def grantedZone (z now : Nat) (o : SoundOrder) (d : ActiveDrill) : DrillZone := ⟨z, some ⟨o.pattern, now, o.length⟩, d.phase = .allClear, false⟩

/-- R128, R134: a zone that the drill is granted joins its zones, with its cadence from the first step. -/
theorem Amid.drill_granted {u : State} {as : List Ans} {ws : List Work} {c : Ctx} (h : Amid u as ws c) {z : Nat} {d : ActiveDrill} {g : Claim}
    {o : SoundOrder} (hd : u.dc.active = some d) (hn : ∀ e, e ∈ d.zones → e.zone ≠ z) (hg : (u.zone z).holder = some g)
    (hw : g.who = .drill d.num) (ho : g.sound = some o) :
    Amid ((u.drillAs { d with zones := d.zones ++ [grantedZone z u.elapsed o d] }).setZone z fun x =>
      { x with cadence := (u.pattern o.pattern).cadenceAt 0 }) as ws (handleAns (.zone (.drill d.num) z .granted) c) := by
  have hk := h.state
  have hstep : ∀ v : State, v.dc.active = some d → State.setDrill (fun d => { d with
      zones := d.zones ++ [grantedZone z u.elapsed o d] }) v = v.drillAs { d with zones := d.zones ++ [grantedZone z u.elapsed o d] } := by
    intro v hv
    unfold State.setDrill
    rw [hv]
    rfl
  have h1 := h.upd (riFree_setDrill fun d => { d with zones := d.zones ++ [grantedZone z u.elapsed o d] })
  rw [hstep u hd] at h1
  have hr : handleAns (.zone (.drill d.num) z .granted) c = (c.upd (State.setDrill fun d => { d with
      zones := d.zones ++ [grantedZone z u.elapsed o d] })).upd (State.setZone z fun x => { x with cadence := (u.pattern o.pattern).cadenceAt 0 }) := by
    show drillAnswer d.num z .granted c = _
    unfold drillAnswer
    rw [hk.dc, hd]
    simp only [hk.zone, hg, Option.bind_some, ho]
    rw [if_pos (by simpa using hn), ← hw]
    have hcad := setCadence_eq (c := c.upd (State.setDrill fun d => { d with zones := d.zones ++ [grantedZone z u.elapsed o d] }))
      ((congrArg ZoneDyn.holder (congrFun h1.state.zone z)).trans hg) ((u.pattern o.pattern).cadenceAt 0)
    rw [← hcad, hk.pattern, hk.elapsed]
    rfl
  rw [hr]
  exact h1.upd (riFree_setZone z fun x => { x with cadence := (u.pattern o.pattern).cadenceAt 0 })

/-- R128, steps 5 and 6: DRILL STARTED. -/
theorem Amid.drillStarted {u : State} {as : List Ans} {ws : List Work} {c : Ctx} (h : Amid u as ws c) : Amid u as ws (doWork .drillStarted c) := by
  show Amid u as ws (Machine.drillStarted c)
  unfold Machine.drillStarted
  split
  · exact h
  · exact h.mirrorDrill.record _

/-- R128, R134: a drill claims a free zone, in two turns. -/
theorem Amid.drill_takes {u : State} {ws : List Work} {c : Ctx} {z : Nat} {d : ActiveDrill} {o : SoundOrder} {w : Work}
    (h : Amid (u.drillAs d) [] (w :: ws) c) (hn : ∀ q n, w ≠ .startAnswer q n)
    (hw : ∀ e, (∃ as bs, e = { c with ans := as, todo := bs }) → doWork w e = claim z (drillClaimOf d.num o) e)
    (hz : ∀ e, e ∈ d.zones → e.zone ≠ z) (hf : FreeZone z u) (hq : NoWaiters u) :
    ∃ e fs, Leads 2 c e ∧ Framed c.st e.st ∧ Amid ((u.heldAs z ((drillClaimOf d.num o).holding u) ((u.pattern o.pattern).cadenceAt 0) fs).drillAs
      { d with zones := d.zones ++ [grantedZone z u.elapsed o d] }) [] ws e := by
  have hl : z < u.za.zones.length := lt_of_lt_of_eq hf.range hf.counted.symm
  obtain ⟨fs, h1⟩ := h.alone.claim_free (x := drillClaimOf d.num o) (hf.of_za rfl) (hq.of_za rfl) (.inl ⟨rfl, nofun⟩)
  rw [← hw _ ⟨c.ans, [], rfl⟩] at h1
  obtain ⟨d1, hl1, hf1, h2⟩ := h.passesCall hn h1
  have hown := grantedTo_zone (x := drillClaimOf d.num o) (fs := fs) (s := u.drillAs d) hl z
  rw [if_pos rfl] at hown
  obtain ⟨d2, hl2, hf2, h3⟩ := h2.passesAns ((h2.dropAns []).drill_granted rfl hz (congrArg ZoneDyn.holder hown) rfl rfl)
  refine ⟨d2, fs, hl1.trans hl2, hf1.trans hf2, ?_⟩
  have heq : (((u.drillAs d).grantedTo z (drillClaimOf d.num o) fs).drillAs { d with zones := d.zones ++ [grantedZone z u.elapsed o d] }).setZone z
      (fun x => { x with cadence := (u.pattern o.pattern).cadenceAt 0 }) =
      (u.heldAs z ((drillClaimOf d.num o).holding u) ((u.pattern o.pattern).cadenceAt 0) fs).drillAs
        { d with zones := d.zones ++ [grantedZone z u.elapsed o d] } :=
    congrArg (State.drillAs { d with zones := d.zones ++ [grantedZone z u.elapsed o d] })
      (grantedTo_cadence (z := z) (x := drillClaimOf d.num o) (k := (u.pattern o.pattern).cadenceAt 0) (fs := fs) (s := u))
  exact heq ▸ h3

/-- R128: a drill without tone starts in its only zone, which is free. -/
theorem Amid.drill_starts {u : State} {ws : List Work} {c : Ctx} {z : Nat} {d : ActiveDrill}
    (h : Amid (u.drillAs d) [] (.drillClaim z :: .drillStarted :: ws) c) (hz : d.zones = []) (hf : FreeZone z u) (hq : NoWaiters u) :
    ∃ e fs, Leads 3 c e ∧ Framed c.st e.st ∧ Amid ((u.heldAs z ((drillClaimOf d.num ⟨31, 1000 * d.record.sounding⟩).holding u) .on fs).drillAs
      { d with zones := [grantedZone z u.elapsed ⟨31, 1000 * d.record.sounding⟩ d] }) [] ws e := by
  obtain ⟨e1, fs, hl1, hf1, h1⟩ := h.drill_takes (z := z) (o := ⟨31, 1000 * d.record.sounding⟩) nofun (fun e he => by
      obtain ⟨as, bs, rfl⟩ := he
      show Machine.drillClaim z _ = _
      unfold Machine.drillClaim
      rw [show ({ c with ans := as, todo := bs } : Ctx).st.dc.active = some d from congrArg DrillControl.active h.state.dc]) (by simp [hz]) hf hq
  rw [hz] at h1
  obtain ⟨e2, hl2, hf2, h2⟩ := h1.passesCall nofun h1.alone.drillStarted
  exact ⟨e2, fs, hl1.trans hl2, hf1.trans hf2, h2⟩

/-- R127: a START DRILL that is not refused. -/
theorem decideStartDrill_taken {q : ReqHdr} {n : Nat} {c : Ctx} (h7 : n ≤ 7) (hr : drillRefusal c.st n = none) :
    decideStartDrill q n c = (drillStart (.request c.tag) n c).call [.startAnswer q n] := by
  unfold decideStartDrill
  rw [if_neg (by omega), hr]

theorem decideStartDrill_refused {q : ReqHdr} {n : Nat} {c : Ctx} {o : Outcome} (h7 : n ≤ 7) (hr : drillRefusal c.st n = some o) :
    decideStartDrill q n c = c.upd (State.refuse q o) := by
  unfold decideStartDrill
  rw [if_neg (by omega), hr]

/-- START DRILL is answered when its drill has started. -/
theorem Amid.start_answered {u : State} {q : ReqHdr} {n : Nat} {d : ActiveDrill} {c : Ctx} (h : Amid u [] [.startAnswer q n] c)
    (hd : u.dc.active = some d) : Closes 1 c (c.st.answer q .done [numWord n, numWord d.zones.length]) := by
  have hw : doWork (.startAnswer q n) { c with todo := [] } =
      ({ c with todo := [] } : Ctx).upd (State.answer q .done [numWord n, numWord d.zones.length]) := by
    show startAnswer q n _ = _
    unfold startAnswer
    rw [show ({ c with todo := [] } : Ctx).st.dc.active = some d from (congrArg DrillControl.active h.state.dc).trans hd]
    rfl
  refine closes_call (k := 0) h.ans h.todo ?_
  rw [hw]
  exact closes_done h.ans rfl

theorem zoneState_of_drill {s : State} {z n : Nat} {g : Claim} (he : (s.zoneRec z).enabled = true) (hh : (s.zone z).holder = some g)
    (hw : g.who = .drill n) : s.zoneState z = .evac := by
  unfold State.zoneState
  rw [if_pos he, hh]
  simp only [hw]

/-- Settles O27. -/
theorem startDrillEvacuatesAFreeZone : Obligations.StartDrillEvacuatesAFreeZone := by
  unfold Obligations.StartDrillEvacuatesAFreeZone
  intro q n z s hr hlog
  have refused : ∀ {o}, n ≤ 7 → drillRefusal s n = some o → exec (.startDrill q n) s = .next ((s.taking q).answer q o []) := fun h7 ho =>
    exec_refused rfl hr (decideStartDrill_refused (c := s.deciding q) h7 ho)
  refine ⟨fun h => exec_refused rfl hr (if_pos h), fun h7 hd => refused h7 ?_, fun h7 hd ht => refused h7 ?_, fun h7 hd ht hf => refused h7 ?_,
    fun h7 hd ht hf hs ha => refused h7 ?_, fun h7 hn ht hz hf hq => ?_⟩
  · simp only [drillRefusal, hd]; rfl
  · simp only [drillRefusal, hd, ht]; rfl
  · obtain ⟨v, hv⟩ := Option.ne_none_iff_exists'.1 ht
    simpa [drillRefusal, hv, hf] using hd
  · obtain ⟨v, hv⟩ := Option.ne_none_iff_exists'.1 ht
    obtain ⟨w, hw⟩ := Option.ne_none_iff_exists'.1 ha
    simpa [drillRefusal, hv, hf, hs, hw] using hd
  · have hd : decideRequest (.startDrill q n) (s.deciding q) = (drillStart (.request q.tag) n (s.deciding q)).call [.startAnswer q n] :=
      decideStartDrill_taken (c := s.deciding q) h7 hn
    have h1 := ((amid_deciding q s).drillStart ht (.request q.tag)).call [.startAnswer q n]
    rw [show drillZones (s.taking q) ((s.taking q).dc.records.getD n DrillRec.undefined) = [z] from hz] at h1
    obtain ⟨e, fs, hl, hfr, h2⟩ := h1.drill_starts rfl (hf.of_za rfl) (hq.of_za rfl)
    have hcl := close_of_closes (hl 1 _ (h2.start_answered rfl)) (by decide)
    have hx : exec (.startDrill q n) s = .next (e.st.answer q .done [numWord n, numWord 1]) := by
      rw [exec_request rfl hr, hd, hcl]
      rfl
    have hstart : Framed (s.taking q) ((drillStart (.request q.tag) n (s.deciding q)).call [.startAnswer q n]).st :=
      (drillStart_cturn (CTurn.refl (s.deciding q)) (origin := .request q.tag) (num := n)).st.toPassed.framed
    have hk := h2.state.trans (riOnly_answer e.st q .done [numWord n, numWord 1])
    have hlen : z < s.za.zones.length := lt_of_lt_of_eq hf.range hf.counted.symm
    have hzone := fun y => (congrFun hk.zone y).trans (heldAs_zone (s := s.taking q) hlen y)
    have hown := (hzone z).trans (if_pos rfl)
    refine ⟨_, _, _, hx, decided_of_answer hr hlog (by simp) (hstart.trans hfr), hk.dc, rfl, rfl, rfl, rfl, rfl, rfl,
      congrArg ZoneDyn.holder hown, rfl, rfl, rfl, ?_, congrArg ZoneDyn.cadence hown, fun y hy => (hzone y).trans (if_neg hy), SameBut.of_only ?_ hk⟩
    · exact zoneState_of_drill ((congrArg ZoneRec.enabled (congrFun hk.zoneRec z)).trans hf.enabled) (congrArg ZoneDyn.holder hown) rfl
    · exact ⟨fun _ => rfl, fun _ => rfl, fun _ => rfl, fun k => (k (by decide)).elim, fun _ => rfl, fun _ => rfl, fun k => (k (by decide)).elim,
        fun _ => rfl, fun _ => rfl, fun _ => rfl⟩

end Sys2Proof.Machine
end

