-- ==== Sys2Proof/Proofs/DrillZones.lean ====
section
/-! SUPPORT. What a drill's work does to its zones, where they are silent on their lines: cadences, sound orders and the tone change nobody's holding. -/

namespace Sys2Proof.Machine
open Sys2Proof

/-- One change, made of each of these zones. -/
structure Touched (l : List Nat) (F : ZoneDyn → ZoneDyn) (zs : List ZoneDyn) (s : State) : Prop where
  length : zs.length = s.za.zones.length
  zone : ∀ y, zs.getD y ZoneDyn.clear = if y ∈ l then F (s.zone y) else s.zone y

theorem riFree_zonesTo (zs : List ZoneDyn) (fs : List (Option FeedHolder)) : RiFree (State.zonesTo zs fs) := fun _ _ => rfl

theorem setZone_getD {F : ZoneDyn → ZoneDyn} (hF : F ZoneDyn.clear = ZoneDyn.clear) (s : State) (z y : Nat) :
    (s.setZone z F).zone y = if y = z then F (s.zone y) else s.zone y := by
  rcases Nat.lt_or_ge z s.za.zones.length with hl | hl
  · rw [setZone_zone _ _ _ _ hl]
    split
    · next h => rw [h]
    · rfl
  · rw [setZone_zone_out _ _ _ _ hl]
    split
    · next h =>
      have : s.zone y = ZoneDyn.clear := by simp [State.zone, List.getD_eq_getElem?_getD, List.getElem?_eq_none (h ▸ hl)]
      rw [this, hF]
    · rfl

/-- The zone's holder is the same claimant, and its wait list is the same. -/
structure SameClaimant (d e : ZoneDyn) : Prop where
  who : e.holder.map (·.who) = d.holder.map (·.who)
  waiters : e.waiters = d.waiters

theorem SameClaimant.refl (d : ZoneDyn) : SameClaimant d d := ⟨rfl, rfl⟩
theorem SameClaimant.trans {d e f : ZoneDyn} (h : SameClaimant d e) (k : SameClaimant e f) : SameClaimant d f :=
  ⟨k.who.trans h.who, k.waiters.trans h.waiters⟩

/-- A walk over zones that makes the same change of each, which is made once however often it is asked for and leaves the zone's claimants. -/
theorem each_touched {F : ZoneDyn → ZoneDyn} (hF : ∀ d, F (F d) = F d) (hc : F ZoneDyn.clear = ZoneDyn.clear) (hs : ∀ d, SameClaimant d (F d))
    {α : Type} {g : α → Nat} {f : α → Ctx → Ctx} (l : List α) : ∀ {c : Ctx}, (∀ x, x ∈ l → ∀ d : Ctx, d.st.za.table = c.st.za.table →
      d.st.lc = c.st.lc → (∀ y, SameClaimant (c.st.zone y) (d.st.zone y)) → f x d = d.upd (State.setZone (g x) F)) →
    ∃ zs, Ctx.each f l c = c.upd (State.zonesTo zs c.st.za.feeds) ∧ Touched (l.map g) F zs c.st := by
  induction l with
  | nil => exact fun _ => ⟨_, rfl, rfl, fun y => by simp [State.zone]⟩
  | cons x xs ih =>
    intro c hf
    have hone : ∀ y, SameClaimant (c.st.zone y) ((c.st.setZone (g x) F).zone y) := fun y => by
      rw [setZone_getD hc]
      split
      · exact hs _
      · exact SameClaimant.refl _
    obtain ⟨zs, he, hl, hz⟩ := ih (c := c.upd (State.setZone (g x) F)) fun y hy d ht hd hd2 =>
      hf y (List.mem_cons_of_mem _ hy) d ht hd fun z => (hone z).trans (hd2 z)
    refine ⟨zs, ?_, hl.trans (by simp [State.setZone]), fun y => ?_⟩
    · rw [Ctx.each, hf x List.mem_cons_self c rfl rfl fun y => SameClaimant.refl _, he]
      rfl
    · rw [hz y, Ctx.upd_st, setZone_getD hc, List.map_cons]
      by_cases h1 : y = g x
      · simp [h1, hF]
      · simp [h1]

/-! ### The changes -/

/-- The zone's cadence step is this while this claimant holds it. -/
def ZoneDyn.stepTo (who : Claimant) (k : Cadence) (d : ZoneDyn) : ZoneDyn :=
  if d.holder.any fun h => h.who == who then { d with cadence := k } else d

/-- The zone's sound order is this while this claimant holds it. -/
def ZoneDyn.soundTo (who : Claimant) (o : Option SoundOrder) (d : ZoneDyn) : ZoneDyn :=
  { d with holder := d.holder.map fun h => if h.who = who then { h with sound := o } else h }

/-- The zone's holder speaks or not. -/
def ZoneDyn.speakTo (b : Bool) (d : ZoneDyn) : ZoneDyn := { d with holder := d.holder.map fun h => { h with speaking := b } }

theorem sameClaimant_stepTo (who : Claimant) (k : Cadence) (d : ZoneDyn) : SameClaimant d (d.stepTo who k) := by
  unfold ZoneDyn.stepTo
  split <;> exact ⟨rfl, rfl⟩

theorem sameClaimant_soundTo (who : Claimant) (o : Option SoundOrder) (d : ZoneDyn) : SameClaimant d (d.soundTo who o) := by
  refine ⟨?_, rfl⟩
  unfold ZoneDyn.soundTo
  cases d.holder with
  | none => rfl
  | some h =>
    simp only [Option.map_some]
    split <;> rfl

theorem sameClaimant_speakTo (b : Bool) (d : ZoneDyn) : SameClaimant d (d.speakTo b) := by
  refine ⟨?_, rfl⟩
  unfold ZoneDyn.speakTo
  cases d.holder <;> rfl

theorem setCadence_stepTo (z : Nat) (who : Claimant) (k : Cadence) (c : Ctx) : setCadence z who k c = c.upd (State.setZone z (ZoneDyn.stepTo who k)) := rfl

theorem soundTo_fixed {who : Claimant} {o : Option SoundOrder} {d : ZoneDyn} (h : ∀ x, d.holder = some x → x.who = who → x.sound = o) :
    d.soundTo who o = d := by
  obtain ⟨hd, ws, r, k⟩ := d
  cases hd with
  | none => rfl
  | some x =>
    have hx := h x rfl
    unfold ZoneDyn.soundTo
    by_cases hw : x.who = who
    · simp only [Option.map_some, if_pos hw, ← hx hw]
    · simp [hw]

/-- R77: a zone that is silent on its line takes its sound order without a transaction. -/
theorem setSound_soundTo {z : Nat} {c : Ctx} {who : Claimant} (h : ∀ g, (c.st.zone z).holder = some g → g.who = who → (c.st.zoneRec z).sounds = false)
    (o : Option SoundOrder) :
    setSound z who o c = c.upd (State.setZone z (ZoneDyn.soundTo who o)) := by
  have fixed : (∀ x, (c.st.zone z).holder = some x → x.who = who → x.sound = o) → c.upd (State.setZone z (ZoneDyn.soundTo who o)) = c := fun hx => by
    have hs : c.st.setZone z (ZoneDyn.soundTo who o) = c.st.setZone z id := setZone_congr (soundTo_fixed hx)
    unfold Ctx.upd
    rw [hs, State.setZone, List.modify_id]
  unfold setSound
  cases hh : (c.st.zone z).holder with
  | none => exact (fixed (by simp [hh])).symm
  | some x =>
    dsimp only
    split
    · next hx =>
      obtain ⟨hw, -⟩ : x.who = who ∧ x.sound ≠ o := by simpa using hx
      rw [driveSound_of_silent (.inl (by exact h x hh hw))]
      exact congrArg (fun s => ({ c with st := s } : Ctx)) (setZone_congr (by simp [ZoneDyn.soundTo, hh, hw]))
    · next hx =>
      exact (fixed fun y hy hw => by
        rw [hh, Option.some.injEq] at hy
        subst hy
        simpa [hw] using hx).symm

/-- R75: on a bare line a zone becomes speaking, or stops, without a ROUTE. -/
theorem setSpeaking_speakTo {z : Nat} {c : Ctx} (h : BareLines c.st) (b : Bool) : setSpeaking z b c = c.upd (State.setZone z (ZoneDyn.speakTo b)) := by
  unfold setSpeaking
  dsimp only
  split
  · rfl
  · exact routeZone_of_bare (c := c.upd (State.setZone z (ZoneDyn.speakTo b))) h z 0

end Sys2Proof.Machine
end

