-- ==== Sys2Proof/Proofs/DrillEnds.lean ====
section
/-! SUPPORT. The end of a drill's sounding, and the end of a drill (R130, R135). -/

namespace Sys2Proof.Machine
open Sys2Proof

/-! ### The end of sounding -/

/-- The drill with none of its cadences running. -/
def quietedDrill (d : ActiveDrill) : ActiveDrill := { d with zones := d.zones.map fun e => { e with cad := none } }

theorem setDrill_of_active {s : State} {d : ActiveDrill} (h : s.dc.active = some d) (f : ActiveDrill → ActiveDrill) : s.setDrill f = s.drillAs (f d) := by
  unfold State.setDrill
  rw [h]
  rfl

section
variable {u : State} {as : List Ans} {ws : List Work} {c : Ctx} {d : ActiveDrill} (h : Amid u as ws c) (hd : u.dc.active = some d)
include h hd

theorem Amid.setDrill (f : ActiveDrill → ActiveDrill) : Amid (u.drillAs (f d)) as ws (c.upd (State.setDrill f)) :=
  setDrill_of_active hd f ▸ h.upd (riFree_setDrill f)

/-- R130, R135: the cadences that run stop. -/
theorem Amid.stopCadences : ∃ zs, Touched ((d.zones.filter fun e => e.cad.isSome).map (·.zone)) (ZoneDyn.stepTo (.drill d.num) .quiet) zs u
    ∧ Amid ((u.zonesTo zs u.za.feeds).drillAs (quietedDrill d)) as ws (stopCadences c) := by
  have hk := h.state
  have idem : ∀ x : ZoneDyn, (x.stepTo (.drill d.num) .quiet).stepTo (.drill d.num) .quiet = x.stepTo (.drill d.num) .quiet := fun x => by
    unfold ZoneDyn.stepTo
    split
    · next => simp
    · next => simp
  obtain ⟨zs, he, hz⟩ := each_touched idem rfl (sameClaimant_stepTo _ _) (g := fun e : DrillZone => e.zone)
    (f := fun e c => setCadence e.zone (.drill d.num) .quiet c) (d.zones.filter fun e => e.cad.isSome) (c := c) fun _ _ _ _ _ _ => rfl
  refine ⟨zs, ⟨hz.length.trans (by rw [hk.za]), fun y => by rw [hz.zone, hk.zone]⟩, ?_⟩
  unfold Machine.stopCadences
  rw [hk.dc, hd]
  dsimp only
  rw [he, hk.za]
  exact (h.upd (riFree_zonesTo zs u.za.feeds)).setDrill hd fun d => { d with zones := d.zones.map fun e => { e with cad := none } }

/-- R130: SOUNDING ends, in zones that are silent on their lines. -/
theorem Amid.soundingEnd (hs : ∀ e, e ∈ d.zones → ∀ g, (u.zone e.zone).holder = some g → g.who = .drill d.num → (u.zoneRec e.zone).sounds = false) (k : PhaseCause) : ∃ zs, zs.length = u.za.zones.length
    ∧ (∀ y, zs.getD y ZoneDyn.clear = (if y ∈ d.zones.map (·.zone) then ZoneDyn.soundTo (.drill d.num) none else id)
      (if y ∈ (d.zones.filter fun e => e.cad.isSome).map (·.zone) then (u.zone y).stepTo (.drill d.num) .quiet else u.zone y))
    ∧ Amid ((u.zonesTo zs u.za.feeds).drillAs (quietedDrill d)) as (ws ++ [.drillToneOff, .drillChannelBack, .phaseNote .evacuating k])
      (soundingEnd k c) := by
  obtain ⟨zs1, ht1, h1⟩ := h.stopCadences hd
  have hk := h1.state
  have idem : ∀ x : ZoneDyn, (x.soundTo (.drill d.num) none).soundTo (.drill d.num) none = x.soundTo (.drill d.num) none := fun x => by
    unfold ZoneDyn.soundTo
    cases x.holder with
    | none => rfl
    | some y =>
      by_cases hy : y.who = .drill d.num <;> simp [hy]
  obtain ⟨zs, he, hz⟩ := each_touched idem rfl (sameClaimant_soundTo _ _) (g := fun e : DrillZone => e.zone)
    (f := fun e c => setSound e.zone (.drill d.num) none c) d.zones (c := Machine.stopCadences c) fun e hm x ht _ hsame => by
      refine setSound_soundTo (fun g hg hgw => ?_) _
      have h0 : ((u.zonesTo zs1 u.za.feeds).drillAs (quietedDrill d)).zone e.zone = zs1.getD e.zone ZoneDyn.clear := rfl
      have h2 := hsame e.zone
      rw [hk.zone, h0] at h2
      have h3 : SameClaimant (u.zone e.zone) (zs1.getD e.zone ZoneDyn.clear) := by
        rw [ht1.zone]
        split
        · exact sameClaimant_stepTo _ _ _
        · exact SameClaimant.refl _
      have h4 := (h3.trans h2).who
      rw [hg] at h4
      obtain ⟨v, hv, hvw⟩ := Option.map_eq_some_iff.1 h4.symm
      unfold State.zoneRec
      rw [ht, hk.za]
      exact hs e hm v hv (hvw.trans hgw)
  refine ⟨zs, ?_, fun y => ?_, ?_⟩
  · rw [hz.length, hk.za]
    exact ht1.length
  · rw [hz.zone, hk.zone]
    have hy : ((u.zonesTo zs1 u.za.feeds).drillAs (quietedDrill d)).zone y = zs1.getD y ZoneDyn.clear := rfl
    rw [hy, ht1.zone]
    split <;> rfl
  · unfold Machine.soundingEnd
    rw [h.state.dc, hd]
    dsimp only
    rw [he, hk.za]
    exact (h1.upd (riFree_zonesTo zs u.za.feeds)).call _

/-- R130 step 3, R135 step 2: without a tone none is turned off. -/
theorem Amid.toneOff_none (ht : d.tone = false) : Amid u as ws (doWork .drillToneOff c) := by
  show Amid u as ws (Machine.drillToneOff c)
  unfold Machine.drillToneOff
  rw [h.state.dc, hd]
  dsimp only
  rw [ht, if_neg Bool.false_ne_true]
  exact h

/-- R104: without a channel none is given back. -/
theorem Amid.channelBack_none (hch : d.channel = none) : Amid u as ws (doWork .drillChannelBack c) := by
  show Amid u as ws (Machine.drillChannelBack c)
  unfold Machine.drillChannelBack
  rw [h.state.dc, hd, Option.bind_some, hch]
  exact h

/-- DRILL PHASE. -/
theorem Amid.phaseNote (p : DrillPhase) (k : PhaseCause) : Amid (u.drillAs { d with phase := p }) as ws (doWork (.phaseNote p k) c) := by
  show Amid _ as ws (Machine.phaseNote p k c)
  have h1 := ((h.setDrill hd fun d => { d with phase := p }).mirrorDrill)
  unfold Machine.phaseNote
  dsimp only
  rw [h1.state.dc]
  exact h1.record _

end

/-- R130: after SOUNDING a drill without tone and channel is in the next phase. -/
theorem Amid.sounded {u : State} {ws : List Work} {c : Ctx} {d : ActiveDrill} {p : DrillPhase} {k : PhaseCause}
    (h : Amid u [] (.drillToneOff :: .drillChannelBack :: .phaseNote p k :: ws) c) (hd : u.dc.active = some d) (ht : d.tone = false)
    (hch : d.channel = none) : ∃ e, Leads 3 c e ∧ Amid (u.drillAs { d with phase := p }) [] ws e := by
  obtain ⟨e1, hl1, h1⟩ := h.takesCall (h.alone.toneOff_none hd ht)
  obtain ⟨e2, hl2, h2⟩ := h1.takesCall (h1.alone.channelBack_none hd hch)
  obtain ⟨e3, hl3, h3⟩ := h2.takesCall (h2.alone.phaseNote hd p k)
  exact ⟨e3, hl1.trans (hl2.trans hl3), h3⟩

/-! ### The end of a drill -/

/-- A claimant's zones have no holder, and the others keep theirs. -/
structure Leaves (who : Claimant) (zs : List ZoneDyn) (s : State) : Prop where
  length : zs.length = s.za.zones.length
  released : ∀ y h, y < 64 → (s.zone y).holder = some h → h.who = who → (zs.getD y ZoneDyn.clear).holder = none
  others : ∀ y, (∀ h, (s.zone y).holder = some h → h.who ≠ who) → (zs.getD y ZoneDyn.clear).holder = (s.zone y).holder

/-- The zones have the claimants they had, in their wait lists too; the holders that are not this claimant have not changed. -/
structure Eased (who : Claimant) (zs : List ZoneDyn) (s : State) : Prop where
  length : zs.length = s.za.zones.length
  same : ∀ y, SameClaimant (s.zone y) (zs.getD y ZoneDyn.clear)
  others : ∀ y, (∀ h, (s.zone y).holder = some h → h.who ≠ who) → (zs.getD y ZoneDyn.clear).holder = (s.zone y).holder

theorem Eased.noWaiters {who : Claimant} {zs : List ZoneDyn} {s : State} (h : Eased who zs s) (hw : NoWaiters s) (fs : List (Option FeedHolder)) :
    NoWaiters (s.zonesTo zs fs) := fun y => (h.same y).waiters.trans (hw y)

/-- A zone that the claimant holds after is one it held before. -/
theorem Eased.held {who : Claimant} {zs : List ZoneDyn} {s : State} (h : Eased who zs s) {y : Nat} :
    (∃ g, (zs.getD y ZoneDyn.clear).holder = some g ∧ g.who = who) ↔ ∃ g, (s.zone y).holder = some g ∧ g.who = who := by
  have hs := (h.same y).who
  constructor
  · rintro ⟨g, hg, hw⟩
    rw [hg] at hs
    obtain ⟨x, hx, hxw⟩ := Option.map_eq_some_iff.1 hs.symm
    exact ⟨x, hx, hxw.trans hw⟩
  · rintro ⟨g, hg, hw⟩
    rw [hg] at hs
    obtain ⟨x, hx, hxw⟩ := Option.map_eq_some_iff.1 hs
    exact ⟨x, hx, hxw.trans hw⟩

theorem Eased.leaves {who : Claimant} {zs ys : List ZoneDyn} {s : State} (h : Eased who zs s) {fs : List (Option FeedHolder)}
    (k : Leaves who ys (s.zonesTo zs fs)) : Leaves who ys s where
  length := k.length.trans h.length
  released := fun y g h64 hg hw => by
    obtain ⟨x, hx, hxw⟩ := h.held.2 ⟨g, hg, hw⟩
    exact k.released y x h64 hx hxw
  others := fun y hy => by
    have hz : ∀ g, ((s.zonesTo zs fs).zone y).holder = some g → g.who ≠ who := fun g hg hw => by
      obtain ⟨x, hx, hxw⟩ := h.held.1 ⟨g, hg, hw⟩
      exact hy x hx hxw
    exact (k.others y hz).trans (h.others y hy)

theorem Touched.eased {l : List Nat} {F : ZoneDyn → ZoneDyn} {zs : List ZoneDyn} {s : State} {who : Claimant} (h : Touched l F zs s)
    (hF : ∀ d, SameClaimant d (F d)) (ho : ∀ y, y ∈ l → (∀ g, (s.zone y).holder = some g → g.who ≠ who) → (F (s.zone y)).holder = (s.zone y).holder) :
    Eased who zs s := by
  refine ⟨h.length, fun y => ?_, fun y hy => ?_⟩
  · rw [h.zone]
    split
    · exact hF _
    · exact SameClaimant.refl _
  · rw [h.zone]
    split
    · next hm => exact ho y hm hy
    · rfl

theorem stepTo_holder (who : Claimant) (k : Cadence) (d : ZoneDyn) : (d.stepTo who k).holder = d.holder := by
  unfold ZoneDyn.stepTo
  split <;> rfl

/-- A zone's holder has this claimant's work to do on its line, if any, without a transaction. -/
def QuietHolder (who : Claimant) (s : State) : Prop := ∀ y h, (s.zone y).holder = some h → h.who = who →
  (BareLines s ∨ (s.zoneRec y).speaks = false) ∧ ((s.zoneRec y).sounds = false ∨ h.sound = none)

/-- R70: a claimant releases all its zones, in quiet surroundings. -/
theorem Amid.releaseAll {u : State} {as : List Ans} {ws : List Work} {c : Ctx} (h : Amid u as ws c) {who : Claimant} (hw : NoWaiters u)
    (h64 : u.za.zones.length = 64) (hq : QuietHolder who u) : ∃ zs fs, Leaves who zs u ∧ NoWaiters (u.zonesTo zs fs)
      ∧ Amid (u.zonesTo zs fs) as ws (releaseAll who c) := by
  have hk := h.state
  obtain ⟨zs, fs, he, hf⟩ := releaseAll_quiet (who := who) (c := c) (hw.of_za hk.za) (by rw [hk.za]; exact h64) (fun y g hg hgw => by
    rw [hk.zone] at hg
    obtain ⟨h1, h2⟩ := hq y g hg hgw
    exact ⟨h1.imp (fun b => b.of_lc hk.lc) (fun b => by rw [hk.zoneRec]; exact b), by rw [hk.zoneRec]; exact h2⟩)
  refine ⟨zs, fs, ⟨hf.length.trans (by rw [hk.za]), fun y g h64 hg hgw => ?_, fun y hy => ?_⟩, hf.waiters, he ▸ h.upd (riFree_zonesTo zs fs)⟩
  · exact (hf.free y ⟨List.mem_range.2 h64, g, by rw [hk.zone]; exact hg, hgw⟩).1
  · refine (hf.kept y ?_).1.trans (by rw [hk.zone])
    rintro ⟨-, g, hg, hgw⟩
    rw [hk.zone] at hg
    exact hy g hg hgw

/-- R75: the tone goes off, with bare lines: the drill's zones stop speaking. -/
theorem Amid.toneOff {u : State} {as : List Ans} {ws : List Work} {c : Ctx} (h : Amid u as ws c) (num : Nat) (hb : BareLines u) (hw : NoWaiters u) :
    ∃ zs fs, Eased (.drill num) zs u ∧ Amid (u.zonesTo zs fs) as ws (toneOff num c) := by
  have hk := h.state
  have idem : ∀ x : ZoneDyn, (x.speakTo false).speakTo false = x.speakTo false := fun x => by
    unfold ZoneDyn.speakTo
    cases x.holder <;> rfl
  obtain ⟨zs, he, hz⟩ := each_touched idem rfl (sameClaimant_speakTo _) (g := id) (f := fun z c => setSpeaking z false c) (c.st.heldBy (.drill num)) (c := c)
    fun z _ d _ hd _ => setSpeaking_speakTo (hb.of_lc (hd.trans hk.lc)) false
  have hze : Eased (.drill num) zs u := by
    have ht : Eased (.drill num) zs c.st := hz.eased (sameClaimant_speakTo false) fun y hy hn => by
      rw [List.map_id, State.heldBy, List.mem_filter] at hy
      cases hh : (c.st.zone y).holder with
      | none => simp [hh] at hy
      | some g => exact absurd (by simpa [hh] using hy.2) (hn g hh)
    exact ⟨ht.length.trans (by rw [hk.za]), fun y => hk.zone ▸ ht.same y, fun y => by rw [← hk.zone]; exact ht.others y⟩
  obtain ⟨fs, hf⟩ := each_settle (List.range 8) (c := c.upd (State.zonesTo zs c.st.za.feeds)) (by
    have := hze.noWaiters hw c.st.za.feeds
    exact fun y => this y)
  refine ⟨zs, fs, hze, ?_⟩
  unfold Machine.toneOff
  dsimp only
  rw [he, hf]
  exact (h.upd (riFree_zonesTo zs c.st.za.feeds)).upd (riFree_zonesTo zs fs)

/-- The channel a drill gives back is free. -/
def State.freedOf (ch : Option Nat) (s : State) : State :=
  match ch with
  | none => s
  | some ch => s.setChannel ch fun k => Channel.free k.cfg k.lastEnding

/-- The drill is over: no drill is active, and its channel is free. -/
def State.drillOver (d : ActiveDrill) (r : DrillEnd) (zs : List ZoneDyn) (fs : List (Option FeedHolder)) (s : State) : State :=
  let t := (s.freedOf d.channel).zonesTo zs fs
  { t with dc := { s.dc with active := none, last := some ⟨d.num, r, d.buildings⟩ } }

theorem channelOffer_nobody {ch : Nat} {c : Ctx} (h : c.st.au.waitList = []) : channelOffer ch c = c := channelOffer_of_empty h ch

section
variable {u : State} {ws : List Work} {c : Ctx} {d : ActiveDrill}

/-- R135, step 2: the tone is turned off. -/
theorem Amid.tone_ends {as : List Ans} (h : Amid (u.drillAs d) as ws c) (hb : d.tone = true → BareLines u) (hw : NoWaiters u) :
    ∃ zs fs t, Eased (.drill d.num) zs u ∧ Amid ((u.zonesTo zs fs).drillAs { d with tone := t }) as ws (doWork .drillToneOff c) := by
  by_cases ht : d.tone = true
  · obtain ⟨zs, fs, he, h1⟩ := (h.setDrill rfl fun d => { d with tone := false }).toneOff d.num ((hb ht).of_lc rfl) (hw.of_za rfl)
    refine ⟨zs, fs, false, ⟨he.length, he.same, he.others⟩, ?_⟩
    have hx : doWork .drillToneOff c = Machine.toneOff d.num (c.upd (State.setDrill fun d => { d with tone := false })) := by
      show drillToneOff c = _
      unfold drillToneOff
      rw [h.state.dc]
      exact if_pos ht
    rw [hx]
    exact h1
  · have hf : d.tone = false := by simpa using ht
    refine ⟨u.za.zones, u.za.feeds, d.tone, ⟨rfl, fun y => SameClaimant.refl _, fun y _ => rfl⟩, ?_⟩
    exact h.toneOff_none rfl hf

/-- R104: the drill gives its channel back, which nobody waits for. -/
theorem Amid.channel_back (h : Amid (u.drillAs d) [] (.drillChannelBack :: ws) c) (hn : d.channel ≠ none → u.au.waitList = []) :
    ∃ e k, k ≤ 2 ∧ Leads k c e ∧ Amid ((u.freedOf d.channel).drillAs { d with channel := none }) [] ws e := by
  cases hch : d.channel with
  | none =>
    obtain ⟨e, hl, h1⟩ := h.takesCall (h.alone.channelBack_none rfl hch)
    have hsame : ({ d with channel := none } : ActiveDrill) = d := by rw [← hch]
    exact ⟨e, 1, by decide, hl, hsame.symm ▸ h1⟩
  | some ch =>
    have h1 : Amid ((u.freedOf (some ch)).drillAs { d with channel := none }) [] [.channelOffer ch] (doWork .drillChannelBack { c with todo := [] }) := by
      have h2 := ((h.alone.upd (riFree_setChannel ch fun k => Channel.free k.cfg k.lastEnding)).setDrill rfl fun d => { d with channel := none }).call
        [.channelOffer ch]
      have hx : doWork .drillChannelBack { c with todo := [] } = ((({ c with todo := [] } : Ctx).upd
          (State.setChannel ch fun k => Channel.free k.cfg k.lastEnding)).upd (State.setDrill fun d => { d with channel := none })).call [.channelOffer ch] := by
        show drillChannelBack _ = _
        unfold drillChannelBack
        rw [show ({ c with todo := [] } : Ctx).st.dc = (u.drillAs d).dc from h.state.dc]
        rw [show (u.drillAs d).dc.active.bind (·.channel) = some ch from hch]
      rw [hx]
      exact h2
    obtain ⟨e1, hl1, h3⟩ := h.takesCall h1
    have h4 : Amid ((u.freedOf (some ch)).drillAs { d with channel := none }) [] [] (doWork (.channelOffer ch) { e1 with todo := [] }) := by
      have hx : doWork (.channelOffer ch) { e1 with todo := [] } = { e1 with todo := [] } :=
        channelOffer_nobody (c := { e1 with todo := [] }) ((congrArg AnnUnit.waitList h3.state.au).trans (hn (by simp [hch])))
      rw [hx]
      exact h3.alone
    obtain ⟨e2, hl2, h5⟩ := h3.takesCall h4
    exact ⟨e2, 2, le_rfl, hl1.trans hl2, h5⟩

/-- R135, steps 4 to 6. -/
theorem Amid.drillClose {as : List Ans} (h : Amid u as ws c) (hd : u.dc.active = some d) (r : DrillEnd) :
    Amid { u with dc := { u.dc with active := none, last := some ⟨d.num, r, d.buildings⟩ } } as ws (doWork (.drillClose r) c) := by
  show Amid _ as ws (Machine.drillClose r c)
  unfold Machine.drillClose
  rw [h.state.dc, hd]
  exact ((h.records (resultNotes d c.tag r)).upd (f := fun s => { s with dc := { s.dc with
      active := none, last := some ⟨d.num, r, d.buildings⟩ } }) fun _ _ => rfl).mirrorDrill

/-- R135, step 3: the drill's zones are released. -/
theorem Amid.drill_releases (h : Amid (u.drillAs d) [] (.drillRelease :: ws) c) (hw : NoWaiters u) (h64 : u.za.zones.length = 64)
    (hq : QuietHolder (.drill d.num) u) : ∃ e zs fs, Leads 1 c e ∧ Leaves (.drill d.num) zs u
      ∧ Amid ((u.zonesTo zs fs).drillAs { d with zones := [] }) [] ws e := by
  have h1 := h.alone.setDrill rfl fun d => { d with zones := [] }
  obtain ⟨zs, fs, hl, -, h2⟩ := h1.releaseAll (who := .drill d.num) (hw.of_za rfl) h64 fun y g hg hgw =>
    (hq y g hg hgw).imp (·.imp (fun b => b.of_lc rfl) id) id
  have hx : doWork .drillRelease { c with todo := [] } = Machine.releaseAll (.drill d.num)
      (({ c with todo := [] } : Ctx).upd (State.setDrill fun d => { d with zones := [] })) := by
    show drillRelease _ = _
    unfold drillRelease
    rw [show ({ c with todo := [] } : Ctx).st.dc.active = some d from congrArg DrillControl.active h.state.dc]
  obtain ⟨e, hle, h3⟩ := h.takesCall (hx ▸ h2)
  exact ⟨e, zs, fs, hle, ⟨hl.length, hl.released, hl.others⟩, h3⟩

theorem Leaves.of_za {who : Claimant} {zs : List ZoneDyn} {s t : State} (h : Leaves who zs s) (hz : t.za = s.za) : Leaves who zs t := by
  have hzone : t.zone = s.zone := by funext y; rw [State.zone, State.zone, hz]
  exact ⟨h.length.trans (by rw [hz]), hzone ▸ h.released, hzone ▸ h.others⟩

theorem QuietHolder.of_za {who : Claimant} {s t : State} (h : QuietHolder who s) (hz : t.za = s.za) (hl : t.lc = s.lc) : QuietHolder who t := by
  have hzone : t.zone = s.zone := by funext y; rw [State.zone, State.zone, hz]
  have hrec : t.zoneRec = s.zoneRec := by funext y; rw [State.zoneRec, State.zoneRec, hz]
  unfold QuietHolder
  rw [hzone, hrec]
  exact fun y g hg hw => (h y g hg hw).imp (·.imp (fun b => b.of_lc hl) id) id

theorem freedOf_za (ch : Option Nat) (s : State) : (s.freedOf ch).za = s.za := by cases ch <;> rfl
theorem freedOf_lc (ch : Option Nat) (s : State) : (s.freedOf ch).lc = s.lc := by cases ch <;> rfl

/-- R135: a drill that nobody waits behind ends, once its cadences have stopped. -/
theorem Amid.drill_ends {r : DrillEnd} (h : Amid (u.drillAs d) [] (.drillToneOff :: .drillChannelBack :: .drillRelease :: .drillClose r :: ws) c)
    (hw : NoWaiters u) (h64 : u.za.zones.length = 64)
    (hq : ∀ y g, (u.zone y).holder = some g → g.who = .drill d.num → (BareLines u ∨ (u.zoneRec y).speaks = false) ∧ (u.zoneRec y).sounds = false)
    (hb : d.tone = true → BareLines u) (hn : d.channel ≠ none → u.au.waitList = []) :
    ∃ e k zs fs, k ≤ 5 ∧ Leads k c e ∧ Leaves (.drill d.num) zs u ∧ Amid (u.drillOver d r zs fs) [] ws e := by
  obtain ⟨zs1, fs1, t, he, h1⟩ := h.alone.tone_ends hb hw
  obtain ⟨e1, hl1, h2⟩ := h.takesCall h1
  obtain ⟨e2, k, hk, hl2, h3⟩ := h2.channel_back hn
  have hza := freedOf_za d.channel (u.zonesTo zs1 fs1)
  have hquiet : QuietHolder (.drill d.num) (u.zonesTo zs1 fs1) := fun y g hg hgw => by
    obtain ⟨x, hx, hxw⟩ := he.held.1 ⟨g, hg, hgw⟩
    exact (hq y x hx hxw).imp (·.imp (fun b => b.of_lc rfl) id) .inl
  obtain ⟨e3, zs, fs, hl3, hlv, h4⟩ := h3.drill_releases ((he.noWaiters hw fs1).of_za hza) (by rw [hza]; exact he.length.trans h64)
    (hquiet.of_za hza (freedOf_lc _ _))
  obtain ⟨e4, hl4, h5⟩ := h4.takesCall (h4.alone.drillClose rfl r)
  refine ⟨e4, 1 + 1 + k + 1, zs, fs, by omega, hl1.trans (hl2.trans (hl3.trans hl4)), he.leaves (fs := fs1) (hlv.of_za hza.symm), ?_⟩
  refine Eq.mp (congrArg (fun v => Amid v [] ws e4) ?_) h5
  cases hch : d.channel <;> simp only [State.drillOver, State.freedOf, hch] <;> rfl

end

end Sys2Proof.Machine
end

