-- ==== Sys2Proof/Proofs/DrillTimes.lean ====
section
/-! SUPPORT. O55: the times of a drill. -/

namespace Sys2Proof.Machine
open Sys2Proof

section
variable {u : State} {as : List Ans} {ws : List Work} {c : Ctx} {d : ActiveDrill} {e : DrillZone} {r : CadRun} {g : Claim} (h : Amid u as ws c)
  (hd : u.dc.active = some d) (hz : d.zones = [e]) (hg : (u.zone e.zone).holder = some g) (hw : g.who = .drill d.num)
include h hd hz hg hw

/-- R129, R134: the cadence step of the only zone of a drill. -/
theorem Amid.drillZoneStep (hr : e.cad = some r) (ht : u.elapsed < r.start + r.length) :
    Amid (u.setZone e.zone fun x => { x with cadence := (u.pattern r.pattern).cadenceAt (u.elapsed - r.start) }) as ws (drillZoneStep e.zone c) := by
  have hk := h.state
  unfold Machine.drillZoneStep
  rw [hk.dc, hd]
  simp only [hz, List.find?_cons, beq_self_eq_true, Option.bind_some, hr, CadRun.now, hk.elapsed, if_pos ht]
  rw [← hw, setCadence_eq (by rw [hk.zone]; exact hg), hk.pattern]
  exact h.upd (riFree_setZone _ _)

/-- R129, R134: the cadence of the only zone of a drill comes to its length. -/
theorem Amid.drillZoneEnd {p : DrillPhase} (hp : d.phase = p) (hr : e.cad = some r) (ht : r.start + r.length ≤ u.elapsed) :
    ∃ e1, Machine.drillZoneEnd e.zone p c = allClearCheck e1 ∧
      Amid ((u.setZone e.zone fun x => { x with cadence := .quiet }).drillAs { d with zones := [{ e with cad := none, ended := true }] }) as ws e1 := by
  have hk := h.state
  have h1 := h.setDrill hd fun d => { d with zones := d.zones.map fun x => if x.zone = e.zone then { x with cad := none, ended := true } else x }
  have hmap : (d.zones.map fun x => if x.zone = e.zone then { x with cad := none, ended := true } else x) = [{ e with cad := none, ended := true }] := by
    simp [hz]
  rw [hmap] at h1
  refine ⟨_, ?_, h1.upd (riFree_setZone e.zone fun x => { x with cadence := .quiet })⟩
  unfold Machine.drillZoneEnd
  rw [hk.dc, hd]
  simp only [hz, List.find?_cons, beq_self_eq_true, hr, hk.elapsed]
  rw [if_pos (by simp [hp, ht]), ← hw]
  refine congrArg allClearCheck (setCadence_eq ?_ _)
  exact (congrArg ZoneDyn.holder (congrFun h1.state.zone e.zone)).trans hg

end

/-- A zone's cadence that has not come to its length goes on. -/
theorem drillZoneEnd_early {c : Ctx} {d : ActiveDrill} {e : DrillZone} {r : CadRun} (hd : c.st.dc.active = some d) (hz : d.zones = [e])
    (hr : e.cad = some r) (ht : c.st.elapsed < r.start + r.length) (p : DrillPhase) : drillZoneEnd e.zone p c = c := by
  unfold drillZoneEnd
  rw [hd]
  simp only [hz, List.find?_cons, beq_self_eq_true, hr]
  exact if_neg fun hh => absurd (of_decide_eq_true (Bool.and_eq_true_iff.1 hh).2) (by omega)

/-- R95, R104: the tone of a cadence at this moment, none past its length. -/
def runTone (s : State) (r : CadRun) : Option Tone :=
  if s.elapsed < r.start + r.length then toneFor s r.pattern ((s.pattern r.pattern).cadenceAt (s.elapsed - r.start)) else none

/-- R104: a cadence step of the drill's tone. -/
theorem drillToneStep_eq {c : Ctx} {d : ActiveDrill} {ch : Nat} {r : CadRun} (hd : c.st.dc.active = some d) (hch : d.channel = some ch)
    (hr : (c.st.channel ch).drillCad = some r) : drillToneStep c = c.upd (State.setChannel ch fun k => { k with tone := runTone c.st r }) := by
  unfold drillToneStep
  rw [hd, Option.bind_some, hch]
  simp only [hr, CadRun.now, runTone]
  by_cases ht : c.st.elapsed < r.start + r.length
  · simp only [if_pos ht]
  · simp only [if_neg ht]

/-- R133: the buildings that have not reported are late. -/
theorem Amid.targetReached {u : State} {as : List Ans} {ws : List Work} {c : Ctx} {d : ActiveDrill} (h : Amid u as ws c) (hd : u.dc.active = some d) :
    Amid (u.drillAs { d with
      targetReached := true
      buildings := d.buildings.map fun b => if b.clear.isNone then { b with late := true } else b }) as ws (targetReached c) := by
  have records : ∀ (l : List DrillBuilding) (c : Ctx), Amid u as ws c → Amid u as ws (Ctx.each (fun b c => c.record
      (drillNote d c.tag .buildingLate .attention (dv b.building) (dv d.record.target) (dv 0))) l c) := by
    intro l
    induction l with
    | nil => exact fun _ hc => hc
    | cons b l ih => exact fun c hc => ih _ (hc.record _)
  unfold Machine.targetReached
  rw [h.state.dc, hd]
  exact (records _ c h).setDrill hd fun d => { d with
    targetReached := true
    buildings := d.buildings.map fun b => if b.clear.isNone then { b with late := true } else b }

theorem soundTo_holder {x : ZoneDyn} {g : Claim} {who : Claimant} (hg : x.holder = some g) (hw : g.who = who) (o : Option SoundOrder) :
    (x.soundTo who o).holder = some { g with sound := o } := by
  unfold ZoneDyn.soundTo
  rw [hg]
  simp [hw]

/-- R134: a drill whose last all-clear cadence has ended ends COMPLETE. -/
theorem allClearCheck_over {c : Ctx} {d : ActiveDrill} (hd : c.st.dc.active = some d) (hp : d.phase = .allClear)
    (hz : ∀ e, e ∈ d.zones → e.inAllClear = true → e.ended = true) : allClearCheck c = c.call [.drillEnd .complete] := by
  unfold allClearCheck
  rw [hd]
  refine if_pos ?_
  have hn : (d.zones.any fun e => e.inAllClear && !e.ended) = false := by
    rw [List.any_eq_false]
    intro e he
    have := hz e he
    cases h1 : e.inAllClear <;> simp_all
  rw [hn]
  simp [hp]

theorem allClearCheck_other {c : Ctx} {d : ActiveDrill} (hd : c.st.dc.active = some d) (hp : d.phase ≠ .allClear) : allClearCheck c = c := by
  unfold allClearCheck
  rw [hd]
  exact if_neg (by simp [hp])

/-- A drill's end first stops its cadences. -/
theorem Amid.drillEnd {u : State} {as : List Ans} {ws : List Work} {c : Ctx} {d : ActiveDrill} (h : Amid u as ws c) (hd : u.dc.active = some d) (r : DrillEnd) :
    ∃ zs, Touched ((d.zones.filter fun e => e.cad.isSome).map (·.zone)) (ZoneDyn.stepTo (.drill d.num) .quiet) zs u
    ∧ Amid ((u.zonesTo zs u.za.feeds).drillAs (quietedDrill d)) as (ws ++ [.drillToneOff, .drillChannelBack, .drillRelease, .drillClose r])
      (drillEnd r c) := by
  obtain ⟨zs, ht, h1⟩ := h.stopCadences hd
  refine ⟨zs, ht, ?_⟩
  unfold Machine.drillEnd
  rw [h.state.dc, hd, Option.isSome_some, if_pos rfl]
  exact h1.call _

/-- R135: a drill that nobody waits behind ends. -/
theorem Amid.drill_over {u : State} {ws : List Work} {e1 : Ctx} {d : ActiveDrill} {r : DrillEnd} {zs1 : List ZoneDyn}
    (ht : Touched ((d.zones.filter fun e => e.cad.isSome).map (·.zone)) (ZoneDyn.stepTo (.drill d.num) .quiet) zs1 u)
    (h : Amid ((u.zonesTo zs1 u.za.feeds).drillAs (quietedDrill d)) [] (.drillToneOff :: .drillChannelBack :: .drillRelease :: .drillClose r :: ws) e1)
    (hw : NoWaiters u) (h64 : u.za.zones.length = 64)
    (hq : ∀ y g, (u.zone y).holder = some g → g.who = .drill d.num → (BareLines u ∨ (u.zoneRec y).speaks = false) ∧ (u.zoneRec y).sounds = false)
    (hb : d.tone = true → BareLines u) (hn : d.channel ≠ none → u.au.waitList = []) :
    ∃ e k zs fs, k ≤ 5 ∧ Leads k e1 e ∧ Leaves (.drill d.num) zs u ∧ Amid (u.drillOver d r zs fs) [] ws e := by
  have he : Eased (.drill d.num) zs1 u := ht.eased (sameClaimant_stepTo _ _) fun y _ _ => stepTo_holder _ _ _
  obtain ⟨e, k, zs, fs, hk, hl, hlv, h1⟩ := h.drill_ends (he.noWaiters hw _) (he.length.trans h64) (fun y g hg hgw => by
    obtain ⟨x, hx, hxw⟩ := he.held.1 ⟨g, hg, hgw⟩
    exact (hq y x hx hxw).imp (·.imp (fun b => b.of_lc rfl) id) id) (fun ht => (hb ht).of_lc rfl) hn
  refine ⟨e, k, zs, fs, hk, hl, he.leaves hlv, ?_⟩
  refine Eq.mp (congrArg (fun v => Amid v [] ws e) ?_) h1
  cases hch : d.channel <;> simp only [State.drillOver, State.freedOf, quietedDrill, hch] <;> rfl

theorem sameBut_za_dc {bs : List BlockId} {s u : State} (h1 : .za ∈ bs) (h2 : .dc ∈ bs)
    (h : u = { s with za := u.za, dc := u.dc, ri := u.ri, eventNo := u.eventNo, pending := u.pending }) : SameBut bs s u := by
  rw [h]
  exact ⟨fun _ => rfl, fun _ => rfl, fun _ => rfl, fun k => (k h1).elim, fun _ => rfl, fun _ => rfl, fun k => (k h2).elim, fun _ => rfl, fun _ => rfl, fun _ => rfl⟩

/-- Settles O55. -/
theorem drillTimersTakeEffect : Obligations.DrillTimersTakeEffect := by
  unfold Obligations.DrillTimersTakeEffect
  refine ⟨fun d e r s hr hc hd ht hch hz h64 hso hsp hgw => ?_, fun d ch r s hr hd hch hcad => ?_⟩
  · obtain ⟨g, hg, hw⟩ := Option.map_eq_some_iff.1 hgw
    have hlen : e.zone < s.started.za.zones.length := lt_of_lt_of_eq h64 hc.zones.symm
    have hd' : s.drillAs d = s := by
      unfold State.drillAs
      rw [← hd]
    have silent : ∀ x, x ∈ d.zones → (s.zoneRec x.zone).sounds = false := fun x hx => by
      rw [hz, List.mem_singleton] at hx
      rw [hx]
      exact hso
    refine ⟨fun hcad hlt => ?_, fun hcad hp hle => ?_, fun hcad hlt => ⟨?_, ?_⟩, fun hp hle => ?_, fun hno => ?_, fun hn hle => ?_, fun hno => ?_,
      fun hcad hp hle hnw hf hown => ?_⟩
    · have hk := ((amid_begin s).drillZoneStep hd hz hg hw hcad hlt).close
      refine ⟨_, congrArg Host.Outcome.next (event_of_running hr _), ?_, fun y hy => ?_, (SameBut.of_started (sameBut_za (by decide) rfl)).of_only hk⟩
      · exact (congrFun hk.zone e.zone).trans ((setZone_zone _ _ _ _ hlen).trans (if_pos rfl))
      · exact (congrFun hk.zone y).trans ((setZone_zone _ _ _ _ hlen).trans (if_neg hy))
    · obtain ⟨e1, hx, h1⟩ := (amid_begin s).drillZoneEnd hd hz hg hw hp hcad hle
      rw [allClearCheck_other (congrArg DrillControl.active h1.state.dc) (by rw [hp]; decide)] at hx
      have hk := (hx ▸ h1).close
      refine ⟨_, congrArg Host.Outcome.next (event_of_running hr _), hk.dc, ?_, fun y hy => ?_, (sameBut_za_dc (by decide) (by decide) rfl).of_only hk⟩
      · exact (congrFun hk.zone e.zone).trans ((setZone_zone _ _ _ _ hlen).trans (if_pos rfl))
      · exact (congrFun hk.zone y).trans ((setZone_zone _ _ _ _ hlen).trans (if_neg hy))
    · refine congrArg Host.Outcome.next ((event_of_running hr _).trans ?_)
      rw [drillZoneEnd_early (c := s.begin) hd hz hcad hlt]
      exact close_begin s
    · refine congrArg Host.Outcome.next ((event_of_running hr _).trans ?_)
      rw [drillZoneEnd_early (c := s.begin) hd hz hcad hlt]
      exact close_begin s
    · obtain ⟨zs, hl, hzs, h1⟩ := (amid_begin s).soundingEnd hd (fun x hx _ _ _ => silent x hx) .time
      obtain ⟨e1, hle1, h2⟩ := h1.sounded (d := quietedDrill d) rfl ht hch
      have hk := h2.leaves hle1 (by decide)
      have hdue : (s.dc.active.any fun d => d.phase = .sounding && d.start + 1000 * d.record.sounding ≤ s.elapsed) = true := by
        rw [hd]
        exact (Bool.and_eq_true _ _).mpr ⟨decide_eq_true hp, decide_eq_true hle⟩
      have hq : (quietedDrill d).zones = [{ e with cad := none }] := by simp [quietedDrill, hz]
      have hzone := fun y => (congrFun hk.zone y).trans (hzs y)
      have hown := (hzone e.zone).trans (congrFun (if_pos (by simp [hz])) _)
      have hheld := congrArg ZoneDyn.holder hown
      have hoth : ∀ y, y ≠ e.zone → y ∉ d.zones.map (·.zone) := fun y hy => by simpa [hz] using hy
      refine ⟨_, { g with sound := none }, congrArg Host.Outcome.next (eventWhen_of_running hr hdue _), ?_, hheld.trans ?_, hw, rfl, fun hcad => ?_,
        fun y hy => ?_, (sameBut_za_dc (by decide) (by decide) rfl).of_only hk⟩
      · rw [← hq]
        exact hk.dc
      · refine (soundTo_holder (g := g) ?_ hw none)
        split
        · exact (stepTo_holder _ _ _).trans hg
        · exact hg
      · have hm : e.zone ∈ (d.zones.filter fun e => e.cad.isSome).map (·.zone) := by
          simpa [hz, Option.isSome_iff_ne_none] using hcad
        rw [if_pos hm] at hown
        refine (congrArg ZoneDyn.cadence hown).trans ?_
        show ((s.zone e.zone).stepTo (.drill d.num) .quiet).cadence = .quiet
        unfold ZoneDyn.stepTo
        rw [if_pos (by simp [hg, hw])]
      · refine (hzone y).trans ((congrFun (if_neg (hoth y hy)) _).trans (if_neg fun hm => hoth y hy ?_))
        exact List.map_subset _ (List.filter_subset_self _) hm
    · refine congrArg Host.Outcome.next (eventWhen_of_not ?_ _)
      rw [hd]
      refine Bool.and_eq_false_imp.2 fun hp => decide_eq_false (Nat.not_le.2 (hno.resolve_left fun k => k (of_decide_eq_true hp)))
    · have hk := ((amid_begin s).targetReached hd).close
      have hdue : (s.dc.active.any fun d => !d.targetReached && d.start + 1000 * d.record.target ≤ s.elapsed) = true := by
        rw [hd]
        exact (Bool.and_eq_true _ _).mpr ⟨by rw [hn]; rfl, decide_eq_true hle⟩
      exact ⟨_, congrArg Host.Outcome.next (eventWhen_of_running hr hdue _), hk.dc, (SameBut.of_started (sameBut_dc (by decide) rfl)).of_only hk⟩
    · refine congrArg Host.Outcome.next (eventWhen_of_not ?_ _)
      rw [hd]
      refine Bool.and_eq_false_imp.2 fun hp => decide_eq_false (Nat.not_le.2 (hno.resolve_left fun k => ?_))
      rw [k] at hp
      exact Bool.false_ne_true hp
    · obtain ⟨e1, hx, h1⟩ := (amid_begin s).drillZoneEnd hd hz hg hw hp hcad hle
      rw [allClearCheck_over (congrArg DrillControl.active h1.state.dc) hp (by simp)] at hx
      have h2 := h1.call [.drillEnd .complete]
      obtain ⟨zs1, ht1, h3⟩ := h2.alone.drillEnd rfl .complete
      obtain ⟨e2, hl2, h4⟩ := h2.takesCall h3
      have hzone : ∀ y, (s.started.setZone e.zone fun x => { x with cadence := .quiet }).zone y
          = if y = e.zone then { s.zone y with cadence := .quiet } else s.zone y := fun y => by
        rw [setZone_zone _ _ _ _ hlen]
        split
        · next hy => rw [hy]; rfl
        · rfl
      have hholder : ∀ y, ((s.started.setZone e.zone fun x => { x with cadence := .quiet }).zone y).holder = (s.zone y).holder := fun y => by
        rw [hzone y]
        split <;> rfl
      obtain ⟨e3, k, zs, fs, hk5, hl3, hlv, h5⟩ := Amid.drill_over ht1 h4 (fun y => by
          refine (congrArg ZoneDyn.waiters (hzone y)).trans ?_
          split <;> exact hnw y) ((List.length_modify _ _ _).trans hc.zones) (fun y x hx hxw => by
          have hy := hown y x ((hholder y).symm.trans hx) hxw
          rw [hy]
          exact ⟨.inr hsp, hso⟩) (fun hton => absurd (hton.symm.trans ht) (by decide)) (fun hne => absurd hch hne)
      have hk := h5.leaves (hl2.trans hl3) (by omega)
      have hdc : (((s.started.setZone e.zone fun x => { x with cadence := .quiet }).drillAs { d with zones := [{ e with cad := none, ended := true }] }).drillOver
          { d with zones := [{ e with cad := none, ended := true }] } .complete zs fs) =
          { s.started with
            za := { s.za with zones := zs, feeds := fs }
            dc := { s.dc with active := none, last := some ⟨d.num, .complete, d.buildings⟩ } } := by
        simp only [State.drillOver, State.freedOf, hch]
        rfl
      rw [hdc] at hk
      refine ⟨_, congrArg Host.Outcome.next ((event_of_running hr _).trans (congrArg Ctx.close hx)), hk.dc, ?_, fun y hy => ?_,
        (sameBut_za_dc (by decide) (by decide) rfl).of_only hk⟩
      · exact (congrArg ZoneDyn.holder (congrFun hk.zone e.zone)).trans (hlv.released e.zone g h64 ((hholder _).trans hg) hw)
      · refine (congrArg ZoneDyn.holder (congrFun hk.zone y)).trans ((hlv.others y fun x hx hxw => ?_).trans (hholder y))
        exact hy (hown y x ((hholder y).symm.trans hx) hxw)
  · have hx := drillToneStep_eq (c := s.begin) hd hch hcad
    exact ⟨_, congrArg Host.Outcome.next ((event_of_running hr _).trans ((congrArg Ctx.close hx).trans (close_begin_upd s _))), rfl⟩

end Sys2Proof.Machine
end

