-- ==== Sys2Proof/Proofs/AllClear.lean ====
section
/-! SUPPORT. O28: STOP SOUNDING, END DRILL and ALL CLEAR. -/

namespace Sys2Proof.Machine
open Sys2Proof

/-! ### A drill that can end moving nobody else -/

/-- What the end of a drill needs of its surroundings. -/
structure CanEnd (d : ActiveDrill) (u : State) : Prop where
  noWaiters : NoWaiters u
  zones : u.za.zones.length = 64
  bare : BareLines u
  silent : ∀ y g, (u.zone y).holder = some g → g.who = .drill d.num → (u.zoneRec y).sounds = false
  channels : u.au.waitList = []

theorem DrillAlone.canEnd {d : ActiveDrill} {s : State} (h : DrillAlone d s) : CanEnd d s :=
  ⟨h.noWaiters, h.counts.zones, h.bare, h.silentLine, h.noChannelWaiters⟩

theorem CanEnd.eased {d : ActiveDrill} {u : State} {zs : List ZoneDyn} (h : CanEnd d u) (he : Eased (.drill d.num) zs u) (fs : List (Option FeedHolder)) :
    CanEnd d (u.zonesTo zs fs) :=
  ⟨he.noWaiters h.noWaiters fs, he.length.trans h.zones, h.bare.of_lc rfl, fun y g hg hw => by
    obtain ⟨x, hx, hxw⟩ := he.held.1 ⟨g, hg, hw⟩
    exact h.silent y x hx hxw, h.channels⟩

/-- The surroundings of a drill's end, from another state with the same zones, lines and channels waited for. -/
theorem CanEnd.of_same {d : ActiveDrill} {s t : State} (h : CanEnd d s) (hz : t.za = s.za) (hl : t.lc = s.lc) (ha : t.au.waitList = s.au.waitList) : CanEnd d t := by
  have hzone : t.zone = s.zone := by funext y; rw [State.zone, State.zone, hz]
  have hrec : t.zoneRec = s.zoneRec := by funext y; rw [State.zoneRec, State.zoneRec, hz]
  refine ⟨h.noWaiters.of_za hz, by rw [hz]; exact h.zones, h.bare.of_lc hl, ?_, ha.trans h.channels⟩
  rw [hzone, hrec]
  exact h.silent

theorem freedOf_waitList (ch : Option Nat) (s : State) : (s.freedOf ch).au.waitList = s.au.waitList := by cases ch <;> rfl

/-- R135: a drill in quiet surroundings ends, once its cadences have stopped. -/
theorem Amid.drill_over_alone {u : State} {ws : List Work} {c : Ctx} {d : ActiveDrill} {r : DrillEnd} {zs1 : List ZoneDyn}
    (ht : Touched ((d.zones.filter fun e => e.cad.isSome).map (·.zone)) (ZoneDyn.stepTo (.drill d.num) .quiet) zs1 (u.drillAs d)) (he : CanEnd d u)
    (h : Amid (((u.drillAs d).zonesTo zs1 u.za.feeds).drillAs (quietedDrill d)) []
      (.drillToneOff :: .drillChannelBack :: .drillRelease :: .drillClose r :: ws) c) :
    ∃ e k zs fs, k ≤ 5 ∧ Leads k c e ∧ Leaves (.drill d.num) zs u ∧ Amid (u.drillOver d r zs fs) [] ws e := by
  obtain ⟨e, k, zs, fs, hk, hl, hlv, h2⟩ := Amid.drill_over (u := u.drillAs d) ht h (he.noWaiters.of_za rfl) he.zones
    (fun y g hg hw => ⟨.inl (he.bare.of_lc rfl), he.silent y g hg hw⟩) (fun _ => he.bare.of_lc rfl) (fun _ => he.channels)
  refine ⟨e, k, zs, fs, hk, hl, ⟨hlv.length, hlv.released, hlv.others⟩, ?_⟩
  refine Eq.mp (congrArg (fun v => Amid v [] ws e) ?_) h2
  cases hch : d.channel <;> simp only [State.drillOver, State.freedOf, hch] <;> rfl

/-- What a drill leaves that is over. -/
theorem drillGone_of {d : ActiveDrill} {r : DrillEnd} {q : ReqHdr} {s t : State} {zs : List ZoneDyn} {fs : List (Option FeedHolder)} (ha : DrillAlone d s)
    (hl : Leaves (.drill d.num) zs s) (h : RiOnly ((s.taking q).drillOver d r zs fs) t) : DrillGone d r s t := by
  have hzone : ∀ y, t.zone y = zs.getD y ZoneDyn.clear := fun y => congrFun h.zone y
  refine ⟨h.dc, fun z g h64 hg hw => ?_, fun z g hg hw => ?_, fun ch hch => ?_, fun k hk => ?_, SameBut.of_only ?_ h⟩
  · rw [hzone]
    exact hl.released z g h64 hg hw
  · rw [hzone]
    refine (hl.others z fun x hx hxw => ?_).trans hg
    rw [hg, Option.some.injEq] at hx
    exact hw (hx ▸ hxw)
  · have hx := setChannel_channel (counts_taking ha.counts q) (ha.channel ch hch) fun k => Channel.free k.cfg k.lastEnding
    refine (congrArg Channel.owner (congrFun h.channel ch)).trans ?_
    rw [show ((s.taking q).drillOver d r zs fs).channel ch = ((s.taking q).setChannel ch fun k => Channel.free k.cfg k.lastEnding).channel ch from by
      simp only [State.drillOver, State.freedOf, hch]; rfl, hx]
    rfl
  · refine (congrFun h.channel k).trans ?_
    cases hch : d.channel with
    | none => simp only [State.drillOver, State.freedOf, hch]; rfl
    | some ch =>
      rw [show ((s.taking q).drillOver d r zs fs).channel k = ((s.taking q).setChannel ch fun k => Channel.free k.cfg k.lastEnding).channel k from by
        simp only [State.drillOver, State.freedOf, hch]; rfl]
      exact setChannel_channel_ne (s.taking q) (fun e : k = ch => hk (hch.trans (congrArg some e.symm))) _
  · cases hch : d.channel <;> simp only [State.drillOver, State.freedOf, hch] <;>
      exact ⟨fun _ => rfl, fun _ => rfl, fun _ => rfl, fun k => (k (by decide)).elim, fun _ => rfl, fun k => (k (by decide)).elim,
        fun k => (k (by decide)).elim, fun _ => rfl, fun _ => rfl, fun _ => rfl⟩

section
variable {u : State} {ws : List Work} {c : Ctx} {d : ActiveDrill}

/-- R130: after SOUNDING a drill in quiet surroundings has no tone and no channel. -/
theorem Amid.sounded_alone {p : DrillPhase} {k : PhaseCause} (h : Amid (u.drillAs d) [] (.drillToneOff :: .drillChannelBack :: .phaseNote p k :: ws) c)
    (he : CanEnd d u) : ∃ e j zs fs t, j ≤ 4 ∧ Leads j c e ∧ Eased (.drill d.num) zs u
      ∧ Amid (((u.zonesTo zs fs).freedOf d.channel).drillAs { d with tone := t, channel := none, phase := p }) [] ws e := by
  obtain ⟨zs, fs, t, hz, h1⟩ := h.alone.tone_ends (fun _ => he.bare) he.noWaiters
  obtain ⟨e1, hl1, h2⟩ := h.takesCall h1
  obtain ⟨e2, j, hj, hl2, h3⟩ := h2.channel_back fun _ => he.channels
  obtain ⟨e3, hl3, h4⟩ := h3.takesCall (h3.alone.phaseNote rfl p k)
  exact ⟨e3, 1 + j + 1, zs, fs, t, by omega, hl1.trans (hl2.trans hl3), hz, h4⟩

/-- R134: a drill without an all-clear pattern ends. -/
theorem Amid.clears_at_once {k : PhaseCause} (h : Amid (u.drillAs d) [] [.phaseNote .allClear k, .allClearBegin] c) (hp : d.record.allClear = none)
    (he : CanEnd d u) : ∃ e j zs fs, j ≤ 8 ∧ Leads j c e ∧ Leaves (.drill d.num) zs u ∧ Amid (u.drillOver d .complete zs fs) [] [] e := by
  obtain ⟨e1, hl1, h1⟩ := h.takesCall (h.alone.phaseNote rfl .allClear k)
  have h2 : Amid (u.drillAs { d with phase := .allClear }) [] [.drillEnd .complete] (doWork .allClearBegin { e1 with todo := [] }) := by
    have hx : doWork .allClearBegin { e1 with todo := [] } = ({ e1 with todo := [] } : Ctx).call [.drillEnd .complete] := by
      show allClearBegin _ = _
      unfold allClearBegin
      rw [show ({ e1 with todo := [] } : Ctx).st.dc.active = some { d with phase := .allClear } from congrArg DrillControl.active h1.state.dc]
      simp only [hp]
    rw [hx]
    exact h1.alone.call _
  obtain ⟨e2, hl2, h3⟩ := h1.takesCall h2
  obtain ⟨zs1, ht, h4⟩ := h3.alone.drillEnd rfl .complete
  obtain ⟨e3, hl3, h5⟩ := h3.takesCall h4
  obtain ⟨e4, j, zs, fs, hj, hl4, hlv, h6⟩ := Amid.drill_over_alone (d := { d with phase := .allClear }) ht
    ⟨he.noWaiters, he.zones, he.bare, he.silent, he.channels⟩ h5
  refine ⟨e4, 1 + 1 + 1 + j, zs, fs, by omega, ?_, hlv, h6⟩
  have := hl1.trans (hl2.trans (hl3.trans hl4))
  rwa [show j + 1 + 1 + 1 = 1 + 1 + 1 + j from by omega] at this

/-- What the end of sounding does to zones that are silent on their lines leaves everybody's holding. -/
theorem eased_of_sounding {num : Nat} {zs : List ZoneDyn} {L R : List Nat} (hl : zs.length = u.za.zones.length)
    (hz : ∀ y, zs.getD y ZoneDyn.clear = (if y ∈ L then ZoneDyn.soundTo (.drill num) none else id)
      (if y ∈ R then (u.zone y).stepTo (.drill num) .quiet else u.zone y)) : Eased (.drill num) zs u := by
  refine ⟨hl, fun y => ?_, fun y hy => ?_⟩
  · have h1 : SameClaimant (u.zone y) (if y ∈ R then (u.zone y).stepTo (.drill num) .quiet else u.zone y) := by
      split
      · exact sameClaimant_stepTo _ _ _
      · exact SameClaimant.refl _
    rw [hz]
    refine h1.trans ?_
    by_cases hL : y ∈ L
    · rw [if_pos hL]
      exact sameClaimant_soundTo _ _ _
    · rw [if_neg hL]
      exact SameClaimant.refl _
  · have h1 : (if y ∈ R then (u.zone y).stepTo (.drill num) .quiet else u.zone y).holder = (u.zone y).holder := by
      split
      · exact stepTo_holder _ _ _
      · rfl
    rw [hz]
    refine Eq.trans ?_ h1
    by_cases hL : y ∈ L
    · rw [if_pos hL]
      exact congrArg ZoneDyn.holder (soundTo_fixed fun x hx hw => absurd hw (hy x (h1.symm.trans hx)))
    · rw [if_neg hL]
      rfl

/-- R134: a drill that sounds, and has no all-clear pattern, ends. -/
theorem Amid.clears_from_sounding {k : PhaseCause} (h : Amid (u.drillAs d) [] [.soundingEnd k, .phaseNote .allClear .host, .allClearBegin] c)
    (hp : d.record.allClear = none) (he : CanEnd d u) :
    ∃ e j zs fs, j ≤ 20 ∧ Leads j c e ∧ Leaves (.drill d.num) zs u ∧ Amid (u.drillOver d .complete zs fs) [] [] e := by
  obtain ⟨zs1, hl, hz, h1⟩ := h.alone.soundingEnd (d := d) rfl (fun e _ g hg hw => he.silent e.zone g hg hw) k
  obtain ⟨e1, hl1, h2⟩ := h.takesCall h1
  have hz1 : Eased (.drill d.num) zs1 u := eased_of_sounding hl hz
  have he1 := he.eased hz1 u.za.feeds
  obtain ⟨e2, j, zs2, fs2, t, hj, hl2, hz2, h3⟩ := Amid.sounded_alone (u := u.zonesTo zs1 u.za.feeds) (d := quietedDrill d) h2
    ⟨he1.noWaiters, he1.zones, he1.bare, he1.silent, he1.channels⟩
  have he2 := CanEnd.of_same (CanEnd.eased ⟨he1.noWaiters, he1.zones, he1.bare, he1.silent, he1.channels⟩ hz2 fs2) (freedOf_za d.channel _)
    (freedOf_lc d.channel _) (freedOf_waitList d.channel _)
  obtain ⟨e3, m, zs, fs, hm, hl3, hlv, h4⟩ := h3.clears_at_once hp ⟨he2.noWaiters, he2.zones, he2.bare, he2.silent, he2.channels⟩
  refine ⟨e3, m + (j + 1), zs, fs, by omega, hl1.trans (hl2.trans hl3), ?_, ?_⟩
  · exact hz1.leaves (fs := u.za.feeds) (hz2.leaves (fs := fs2) (hlv.of_za (freedOf_za _ _).symm))
  · refine Eq.mp (congrArg (fun v => Amid v [] [] e3) ?_) h4
    cases hch : d.channel <;> simp only [State.drillOver, State.freedOf, quietedDrill, hch] <;> rfl

end

end Sys2Proof.Machine
end

