-- ==== Sys2Proof/Proofs/DrillRequests.lean ====
section
/-! SUPPORT. O28: an all-clear with a pattern, and the requests that end a drill's sounding or the drill. -/

namespace Sys2Proof.Machine
open Sys2Proof

section
variable {u : State} {ws : List Work} {c : Ctx} {d : ActiveDrill} {z p : Nat}

/-- R134: an all-clear with a pattern and a group of one zone claims that zone. -/
theorem Amid.clear_claims {k : PhaseCause} (h : Amid (u.drillAs d) [] [.phaseNote .allClear k, .allClearBegin] c) (hp : d.record.allClear = some p)
    (hne : (u.pattern p).steps ≠ []) (hg : u.group d.record.group = BitVec.twoPow 64 z) (hz : z < 64) : ∃ e, Leads 2 c e
      ∧ Amid (u.drillAs { d with phase := .allClear }) [] [.allClearClaim z p (allClearLength (u.pattern p)), .allClearCheck] e := by
  obtain ⟨e1, hl1, h1⟩ := h.takesCall (h.alone.phaseNote rfl .allClear k)
  have hk := h1.state
  have hx : doWork .allClearBegin { e1 with todo := [] } =
      ({ e1 with todo := [] } : Ctx).call [.allClearClaim z p (allClearLength (u.pattern p)), .allClearCheck] := by
    show allClearBegin _ = _
    unfold allClearBegin
    rw [show ({ e1 with todo := [] } : Ctx).st.dc.active = some { d with phase := .allClear } from congrArg DrillControl.active hk.dc]
    simp only [hp]
    have hgrp : e1.st.group d.record.group = BitVec.twoPow 64 z := (congrFun hk.group _).trans hg
    have hpat : e1.st.pattern p = u.pattern p := congrFun hk.pattern p
    rw [hgrp, zonesOf_twoPow hz, hpat, if_neg (by simp [Pattern.isEmpty, hne])]
    rfl
  obtain ⟨e2, hl2, h2⟩ := h1.takesCall (hx ▸ h1.alone.call [.allClearClaim z p (allClearLength (u.pattern p)), .allClearCheck])
  exact ⟨e2, hl1.trans hl2, h2⟩

/-- R134: the all-clear goes on while a cadence of it runs. -/
theorem allClearCheck_running {c : Ctx} {d : ActiveDrill} (hd : c.st.dc.active = some d) {e : DrillZone} (he : e ∈ d.zones)
    (h : e.inAllClear = true ∧ e.ended = false) : allClearCheck c = c := by
  unfold allClearCheck
  rw [hd]
  refine if_neg fun hx => ?_
  have hn := (Bool.and_eq_true_iff.1 hx).2
  rw [Bool.not_eq_true', List.any_eq_false] at hn
  exact hn e he (by simp [h.1, h.2])

theorem Amid.clear_runs (h : Amid (u.drillAs d) [] [.allClearCheck] c) {e : DrillZone} (he : e ∈ d.zones) (hr : e.inAllClear = true ∧ e.ended = false) :
    ∃ e, Leads 1 c e ∧ Amid (u.drillAs d) [] [] e := by
  have hx : doWork .allClearCheck { c with todo := [] } = { c with todo := [] } :=
    allClearCheck_running (c := { c with todo := [] }) (congrArg DrillControl.active h.state.dc) he hr
  exact h.takesCall (hx ▸ h.alone)

/-- R134, step 3: the all-clear of a zone the drill holds already. -/
theorem Amid.clear_held (h : Amid (u.drillAs d) [] (.allClearClaim z p len :: ws) c) {e : DrillZone} (hz : d.zones = [e]) (he : e.zone = z)
    (hs : (u.zoneRec z).sounds = false) : ∃ e1, Leads 1 c e1 ∧ Amid (((u.setZone z (ZoneDyn.soundTo (.drill d.num) (some ⟨p, len⟩))).setZone z
      (ZoneDyn.stepTo (.drill d.num) ((u.pattern p).cadenceAt 0))).drillAs
      { d with zones := [{ e with cad := some ⟨p, u.elapsed, len⟩, inAllClear := true, ended := false }] }) [] ws e1 := by
  have hk := h.state
  have h1 := h.alone.setDrill rfl fun d => { d with
    zones := d.zones.map fun e => if e.zone = z then { e with cad := some ⟨p, u.elapsed, len⟩, inAllClear := true, ended := false } else e }
  have hmap : (d.zones.map fun e => if e.zone = z then { e with cad := some ⟨p, u.elapsed, len⟩, inAllClear := true, ended := false } else e)
      = [{ e with cad := some ⟨p, u.elapsed, len⟩, inAllClear := true, ended := false }] := by simp [hz, he]
  rw [hmap] at h1
  have hx : doWork (.allClearClaim z p len) { c with todo := [] } = ((({ c with todo := [] } : Ctx).upd (State.setDrill fun d => { d with
      zones := d.zones.map fun e => if e.zone = z then { e with cad := some ⟨p, u.elapsed, len⟩, inAllClear := true, ended := false } else e })).upd
      (State.setZone z (ZoneDyn.soundTo (.drill d.num) (some ⟨p, len⟩)))).upd (State.setZone z (ZoneDyn.stepTo (.drill d.num) ((u.pattern p).cadenceAt 0))) := by
    show allClearClaim z p len _ = _
    unfold allClearClaim
    rw [show ({ c with todo := [] } : Ctx).st.dc.active = some d from congrArg DrillControl.active hk.dc]
    dsimp only
    rw [if_pos (by simp [hz, he]), hk.elapsed, hk.pattern]
    rw [setSound_soundTo (fun g _ _ => ?_), setCadence_stepTo]
    · rfl
    · exact (congrArg ZoneRec.sounds (congrFun hk.zoneRec z)).trans hs
  obtain ⟨e1, hl, h2⟩ := h.takesCall (hx ▸ (h1.upd (riFree_setZone z _)).upd (riFree_setZone z _))
  exact ⟨e1, hl, h2⟩

/-- R134, step 3: the all-clear of a free zone. -/
theorem Amid.clear_free (h : Amid (u.drillAs d) [] (.allClearClaim z p len :: ws) c) (hz : d.zones = []) (hph : d.phase = .allClear) (hf : FreeZone z u)
    (hq : NoWaiters u) : ∃ e fs, Leads 2 c e ∧ Amid ((u.heldAs z ((drillClaimOf d.num ⟨p, len⟩).holding u) ((u.pattern p).cadenceAt 0) fs).drillAs
      { d with zones := [⟨z, some ⟨p, u.elapsed, len⟩, true, false⟩] }) [] ws e := by
  obtain ⟨e, fs, hl, -, h1⟩ := h.drill_takes (z := z) (o := ⟨p, len⟩) nofun (fun e he => by
    obtain ⟨as, bs, rfl⟩ := he
    show allClearClaim z p len _ = _
    unfold allClearClaim
    rw [show ({ c with ans := as, todo := bs } : Ctx).st.dc.active = some d from congrArg DrillControl.active h.state.dc]
    dsimp only
    rw [if_neg (by simp [hz])]) (by simp [hz]) hf hq
  refine ⟨e, fs, hl, ?_⟩
  rw [hz] at h1
  have hg : grantedZone z u.elapsed ⟨p, len⟩ d = ⟨z, some ⟨p, u.elapsed, len⟩, true, false⟩ := by
    simp [grantedZone, hph]
  rwa [hg] at h1

end

/-! ### The requests -/

/-- What ALL CLEAR hands on: the end of sounding in SOUNDING, and then the all-clear. -/
def clearCalls (p : DrillPhase) : List Work :=
  if p = .sounding then [.soundingEnd .stop, .phaseNote .allClear .host, .allClearBegin] else [.phaseNote .allClear .host, .allClearBegin]

theorem decideAllClear_taken {q : ReqHdr} {c : Ctx} {d : ActiveDrill} (hd : c.st.dc.active = some d) (hp : d.phase = .sounding ∨ d.phase = .evacuating) :
    decideAllClear q c = (c.call (clearCalls d.phase)).upd (State.answer q .done []) := by
  unfold decideAllClear State.phase?
  rw [hd, Option.map_some]
  rcases hp with hp | hp <;> rw [hp] <;> rfl

theorem decideAllClear_refused {q : ReqHdr} {c : Ctx} (h : c.st.dc.active = none ∨ c.st.phase? = some .allClear) :
    decideAllClear q c = c.upd (State.refuse q .state) := by
  have hp : c.st.phase? = none ∨ c.st.phase? = some .allClear := h.imp (fun h => by rw [State.phase?, h]; rfl) id
  unfold decideAllClear
  rcases hp with hp | hp <;> rw [hp]

theorem noStart_clearCalls (p : DrillPhase) : NoStart (clearCalls p) := by
  unfold clearCalls
  intro q n hm
  split at hm <;> simp at hm

section
variable {u : State} {c : Ctx} {d : ActiveDrill}

/-- R134: whether it sounds or not, a drill in quiet surroundings without an all-clear pattern ends. -/
theorem Amid.clears (h : Amid (u.drillAs d) [] (clearCalls d.phase) c) (hp : d.record.allClear = none) (he : CanEnd d u) :
    ∃ e j zs fs, j ≤ 20 ∧ Leads j c e ∧ Leaves (.drill d.num) zs u ∧ Amid (u.drillOver d .complete zs fs) [] [] e := by
  unfold clearCalls at h
  split at h
  · exact h.clears_from_sounding hp he
  · obtain ⟨e, j, zs, fs, hj, hl, hlv, h1⟩ := h.clears_at_once hp he
    exact ⟨e, j, zs, fs, by omega, hl, hlv, h1⟩

/-- The zones of a drill as an all-clear finds them: with the cadences that ran, or with none. -/
def ReadyZones (d : ActiveDrill) (ds : List DrillZone) : Prop := ds = d.zones ∨ ds = d.zones.map fun e => { e with cad := none }

/-- R130, R134: a drill without tone and channel comes to its all-clear; its zones have the claimants they had, and the others have not changed. -/
theorem Amid.comes_to_clear (h : Amid (u.drillAs d) [] (clearCalls d.phase) c) (hp : d.phase = .sounding ∨ d.phase = .evacuating)
    (ht : d.tone = false) (hch : d.channel = none)
    (hs : ∀ e, e ∈ d.zones → (u.zoneRec e.zone).sounds = false) : ∃ e j zs ds, j ≤ 4 ∧ Leads j c e ∧ zs.length = u.za.zones.length
      ∧ (∀ y, SameClaimant (u.zone y) (zs.getD y ZoneDyn.clear)) ∧ (∀ y, y ∉ d.zones.map (·.zone) → zs.getD y ZoneDyn.clear = u.zone y) ∧ ReadyZones d ds
      ∧ Amid ((u.zonesTo zs u.za.feeds).drillAs { d with phase := .evacuating, zones := ds }) [] [.phaseNote .allClear .host, .allClearBegin] e := by
  unfold clearCalls at h
  split at h
  · obtain ⟨zs, hl, hz, h1⟩ := h.alone.soundingEnd (d := d) rfl (fun e hm _ _ _ => hs e hm) .stop
    obtain ⟨e1, hl1, h2⟩ := h.takesCall h1
    obtain ⟨e2, hl2, h3⟩ := h2.sounded (d := quietedDrill d) rfl ht hch
    refine ⟨e2, 4, zs, _, le_rfl, hl1.trans hl2, hl, (eased_of_sounding hl hz).same, fun y hy => ?_, .inr rfl, h3⟩
    rw [hz, if_neg hy, if_neg fun hm => hy (List.map_subset _ (List.filter_subset_self _) hm)]
    rfl
  · next hn =>
    have he : ({ d with phase := .evacuating, zones := d.zones } : ActiveDrill) = d := by rw [← hp.resolve_left hn]
    exact ⟨c, 0, u.za.zones, d.zones, by decide, Leads.refl c, rfl, fun _ => SameClaimant.refl _, fun _ _ => rfl, .inl rfl, he.symm ▸ h⟩

end

theorem allClearLength_eq (p : Pattern) : allClearLength p = p.cycle * max 1 p.repeats := by
  unfold allClearLength Pattern.length
  by_cases h : p.repeats = 0
  · simp [h]
  · rw [if_neg h, if_neg h, Nat.max_eq_right (by omega)]

theorem ReadyZones.of_single {d : ActiveDrill} {ds : List DrillZone} {e : DrillZone} (h : ReadyZones d ds) (hz : d.zones = [e]) :
    ds = [e] ∨ ds = [{ e with cad := none }] := h.imp (·.trans hz) fun h => by rw [h, hz]; rfl

theorem drillAs_of_active {s : State} {d : ActiveDrill} (h : s.dc.active = some d) : s.drillAs d = s := by
  unfold State.drillAs
  rw [← h]

theorem stepTo_of_held {x : ZoneDyn} {g : Claim} {who : Claimant} (hg : x.holder = some g) (hw : g.who = who) (k : Cadence) :
    x.stepTo who k = { x with cadence := k } := by
  unfold ZoneDyn.stepTo
  rw [if_pos (by simp [hg, hw])]

section
variable {u : State} {c : Ctx} {d : ActiveDrill} {p z : Nat} (h : Amid (u.drillAs d) [] (clearCalls d.phase) c)
  (hph : d.phase = .sounding ∨ d.phase = .evacuating) (ht : d.tone = false) (hch : d.channel = none) (hp : d.record.allClear = some p)
  (hne : (u.pattern p).steps ≠ []) (hg : u.group d.record.group = BitVec.twoPow 64 z) (hz : z < u.za.zones.length) (hz64 : z < 64)
  (hs : (u.zoneRec z).sounds = false)
include h hph ht hch hp hne hg hz64

include hz hs in
/-- R134: an all-clear with a pattern begins in the zone that the drill holds. -/
theorem Amid.clear_begins_held {e : DrillZone} {g : Claim} (hzs : d.zones = [e]) (he : e.zone = z) (hh : (u.zone z).holder = some g)
    (hw : g.who = .drill d.num) : ∃ e1 j x zs, j ≤ 8 ∧ Leads j c e1 ∧ x.who = Claimant.drill d.num ∧ x.sound = some ⟨p, allClearLength (u.pattern p)⟩
      ∧ (zs.getD z ZoneDyn.clear).holder = some x ∧ (zs.getD z ZoneDyn.clear).cadence = (u.pattern p).cadenceAt 0
      ∧ (∀ y, y ≠ z → zs.getD y ZoneDyn.clear = u.zone y) ∧ Amid ((u.zonesTo zs u.za.feeds).drillAs { d with
        phase := .allClear, zones := [{ e with cad := some ⟨p, u.elapsed, allClearLength (u.pattern p)⟩, inAllClear := true, ended := false }] }) [] [] e1 := by
  obtain ⟨e1, j, zs, ds, hj, hl1, hlen, hsame, hoth, hds, h1⟩ := h.comes_to_clear hph ht hch fun x hx => by
    rw [hzs, List.mem_singleton] at hx
    rw [hx, he]
    exact hs
  obtain ⟨e2, hl2, h2⟩ := h1.clear_claims (z := z) hp hne hg hz64
  obtain ⟨e', he', hz', hfin⟩ : ∃ e' : DrillZone, ds = [e'] ∧ e'.zone = z ∧ (∀ r, ({ e' with cad := r, inAllClear := true, ended := false } : DrillZone)
      = { e with cad := r, inAllClear := true, ended := false }) := by
    rcases hds.of_single hzs with k | k
    · exact ⟨e, k, he, fun _ => rfl⟩
    · exact ⟨_, k, he, fun _ => rfl⟩
  obtain ⟨e3, hl3, h3⟩ := h2.clear_held he' hz' hs
  rw [hfin] at h3
  obtain ⟨e4, hl4, h4⟩ := h3.clear_runs (List.mem_singleton_self _) ⟨rfl, rfl⟩
  obtain ⟨x, hx, hxw⟩ : ∃ x, (zs.getD z ZoneDyn.clear).holder = some x ∧ x.who = .drill d.num := by
    have hm := (hsame z).who
    rw [hh] at hm
    obtain ⟨x, hx, hxw⟩ := Option.map_eq_some_iff.1 hm
    exact ⟨x, hx, hxw.trans hw⟩
  have hzl : z < (u.zonesTo zs u.za.feeds).za.zones.length := lt_of_lt_of_eq hz hlen.symm
  set o : SoundOrder := ⟨p, allClearLength (u.pattern p)⟩
  set v := ((u.zonesTo zs u.za.feeds).setZone z (ZoneDyn.soundTo (.drill d.num) (some o))).setZone z
    (ZoneDyn.stepTo (.drill d.num) ((u.pattern p).cadenceAt 0)) with hv
  have hvz : ∀ y, v.zone y = if y = z then ((zs.getD z ZoneDyn.clear).soundTo (.drill d.num) (some o)).stepTo (.drill d.num) ((u.pattern p).cadenceAt 0)
      else zs.getD y ZoneDyn.clear := fun y => by
    rw [hv, setZone_setZone, setZone_zone _ _ _ _ hzl]
    rfl
  have hown := (hvz z).trans (if_pos rfl)
  have hheld := soundTo_holder (o := some o) hx hxw
  refine ⟨e4, 1 + 1 + 2 + j, { x with sound := some o }, v.za.zones, by omega, ?_, hxw, rfl, ?_, ?_, fun y hy => ?_, h4⟩
  · exact hl1.trans (hl2.trans (hl3.trans hl4))
  · refine (congrArg ZoneDyn.holder hown).trans ?_
    rw [stepTo_holder]
    exact hheld
  · refine (congrArg ZoneDyn.cadence hown).trans ?_
    rw [stepTo_of_held hheld hxw]
  · exact (hvz y).trans ((if_neg hy).trans (hoth y (by simpa [hzs, he] using hy)))

/-- R134: an all-clear with a pattern begins in a free zone. -/
theorem Amid.clear_begins_free (hzs : d.zones = []) (hf : FreeZone z u) (hq : NoWaiters u) : ∃ e1 j fs zs, j ≤ 9 ∧ Leads j c e1
    ∧ (∀ y, zs.getD y ZoneDyn.clear = u.zone y) ∧ zs.length = u.za.zones.length
    ∧ Amid (((u.zonesTo zs u.za.feeds).heldAs z ((drillClaimOf d.num ⟨p, allClearLength (u.pattern p)⟩).holding u) ((u.pattern p).cadenceAt 0) fs).drillAs
      { d with phase := .allClear, zones := [⟨z, some ⟨p, u.elapsed, allClearLength (u.pattern p)⟩, true, false⟩] }) [] [] e1 := by
  obtain ⟨e1, j, zs, ds, hj, hl1, hlen, hsame, hoth, hds, h1⟩ := h.comes_to_clear hph ht hch fun x hx => by
    rw [hzs] at hx
    cases hx
  obtain ⟨e2, hl2, h2⟩ := h1.clear_claims (z := z) hp hne hg hz64
  have hd0 : ds = [] := by rcases hds with k | k <;> simp [k, hzs]
  have hall : ∀ y, zs.getD y ZoneDyn.clear = u.zone y := fun y => hoth y (by simp [hzs])
  have hf' : FreeZone z (u.zonesTo zs u.za.feeds) :=
    ⟨hf.range, hlen.trans hf.counted, hf.enabled, hf.silentLine, (congrArg ZoneDyn.holder (hall z)).trans hf.noHolder, hf.noFire⟩
  obtain ⟨e3, fs, hl3, h3⟩ := h2.clear_free hd0 rfl hf' fun y => (congrArg ZoneDyn.waiters (hall y)).trans (hq y)
  obtain ⟨e4, hl4, h4⟩ := h3.clear_runs (List.mem_singleton_self _) ⟨rfl, rfl⟩
  exact ⟨e4, 1 + 2 + 2 + j, fs, zs, by omega, hl1.trans (hl2.trans (hl3.trans hl4)), hall, hlen, h4⟩

end

/-- Settles O28. -/
theorem drillRequestsTakeEffect : Obligations.DrillRequestsTakeEffect := by
  unfold Obligations.DrillRequestsTakeEffect
  intro q s hr hlog
  refine ⟨fun hp => exec_refused rfl hr (if_neg hp), fun hd => exec_refused rfl hr ?_, fun hd => exec_refused rfl hr (decideAllClear_refused hd),
    fun d hd => ⟨fun hp => ?_, ?_, fun hp => ?_⟩⟩
  · show decideEndDrill q (s.deciding q) = _
    unfold decideEndDrill
    rw [show (s.deciding q).st.dc.active = none from hd]
  · have hreq : decideRequest (.stopSounding q) (s.deciding q) = (soundingEnd .stop (s.deciding q)).upd (State.answer q .done []) :=
      if_pos (by rw [State.phase?, show (s.deciding q).st.dc.active = some d from hd, Option.map_some, hp])
    obtain ⟨hx, hdec⟩ := exec_passed (i := .stopSounding q) rfl hr hlog hreq (soundingEnd_cturn (CTurn.refl _)) (by simp)
    refine ⟨_, hx, hdec, fun ht hch hs => ?_⟩
    obtain ⟨zs, hl, hz, h1⟩ := (amid_deciding q s).soundingEnd (d := d) hd (fun e hm _ _ _ => hs e hm) .stop
    obtain ⟨e1, hl1, h2⟩ := (h1.answer q .done []).sounded (d := quietedDrill d) rfl ht hch
    have hk := h2.leaves hl1 (by decide)
    have hzone : ∀ y, _ = zs.getD y ZoneDyn.clear := fun y => congrFun hk.zone y
    have he := (eased_of_sounding hl hz).same
    refine ⟨hk.dc, fun z g hg => ?_, fun e g hm hcad hg hw => ?_, (sameBut_za_dc (by decide) (by decide) rfl).of_only hk⟩
    · have hmap := (he z).who
      rw [← hzone z, show (s.taking q).zone z = s.zone z from rfl, hg] at hmap
      obtain ⟨x, hx, hxw⟩ := Option.map_eq_some_iff.1 hmap
      exact ⟨x, hx, hxw⟩
    · have hm1 : e.zone ∈ d.zones.map (·.zone) := List.mem_map_of_mem hm
      have hm2 : e.zone ∈ (d.zones.filter fun e => e.cad.isSome).map (·.zone) :=
        List.mem_map_of_mem (List.mem_filter.2 ⟨hm, Option.isSome_iff_ne_none.2 hcad⟩)
      rw [hzone, hz, if_pos hm1, if_pos hm2, stepTo_of_held (x := (s.taking q).zone e.zone) (g := g) hg hw]
      rfl
  · set a := (d.buildings.filter fun b => b.clear.isSome).length with ha
    have hreq : decideRequest (.endDrill q) (s.deciding q) = (drillEnd .aborted (s.deciding q)).upd
        (State.answer q .done [numWord d.num, numWord a, numWord ((d.buildings.length : Int) - a)]) := by
      show decideEndDrill q (s.deciding q) = _
      unfold decideEndDrill
      rw [show (s.deciding q).st.dc.active = some d from hd]
    obtain ⟨hx, hdec⟩ := exec_passed (i := .endDrill q) rfl hr hlog hreq (drillEnd_cturn (CTurn.refl _)) (by simp)
    refine ⟨_, hx, hdec, fun hal => ?_⟩
    have hd' : (s.taking q).drillAs d = s.taking q := drillAs_of_active hd
    obtain ⟨zs1, ht, h1⟩ := (amid_deciding q s).drillEnd hd .aborted
    obtain ⟨e, k, zs, fs, hk5, hl, hlv, h2⟩ := Amid.drill_over_alone (u := s.taking q) (d := d) (hd'.symm ▸ ht) (hal.canEnd.of_same rfl rfl rfl)
      (by rw [hd']; exact h1.answer q .done [numWord d.num, numWord a, numWord ((d.buildings.length : Int) - a)])
    exact drillGone_of hal ⟨hlv.length, hlv.released, hlv.others⟩ (h2.leaves hl (by omega))
  · have hreq := decideAllClear_taken (q := q) (c := s.deciding q) hd hp
    obtain ⟨hx, hdec⟩ := exec_passed (i := .allClear q) rfl hr hlog hreq (call_cturn (CTurn.refl _) (noStart_clearCalls _)) (by simp)
    have h0 : Amid ((s.taking q).drillAs d) [] (clearCalls d.phase) (((s.deciding q).call (clearCalls d.phase)).upd (State.answer q .done [])) := by
      rw [drillAs_of_active (s := s.taking q) hd]
      exact ((amid_deciding q s).call _).answer q .done []
    refine ⟨_, hx, hdec, fun hal hnone => ?_, fun p z hpat hne hgrp hz hc ht hch hso hsp => ?_⟩
    · obtain ⟨e, j, zs, fs, hj, hl, hlv, h1⟩ := h0.clears hnone (hal.canEnd.of_same rfl rfl rfl)
      exact drillGone_of hal ⟨hlv.length, hlv.released, hlv.others⟩ (h1.leaves hl (by omega))
    · have hreadd := allClearLength_eq (s.pattern p)
      refine ⟨fun e g hzs he hh hw => ?_, fun hzs hf hq => ?_⟩
      · obtain ⟨e1, j, x, zs, hj, hl, hxw, hxs, hxh, hxc, hoth, h1⟩ := h0.clear_begins_held hp ht hch hpat hne hgrp
          (lt_of_lt_of_eq hz hc.zones.symm) hz hso hzs he hh hw
        have hk := h1.leaves hl (by omega)
        have hzone : ∀ y, _ = zs.getD y ZoneDyn.clear := fun y => congrFun hk.zone y
        rw [← hreadd]
        refine ⟨x, hk.dc, (congrArg ZoneDyn.holder (hzone z)).trans hxh, hxw, hxs, (congrArg ZoneDyn.cadence (hzone z)).trans hxc,
          fun y hy => (hzone y).trans (hoth y hy), (sameBut_za_dc (by decide) (by decide) rfl).of_only hk⟩
      · obtain ⟨e1, j, fs, zs, hj, hl, hall, hlen, h1⟩ := h0.clear_begins_free hp ht hch hpat hne hgrp hz hzs (hf.of_za rfl) (hq.of_za rfl)
        have hk := h1.leaves hl (by omega)
        have hzone := fun y => (congrFun hk.zone y).trans (heldAs_zone (s := (s.taking q).zonesTo zs s.za.feeds) (lt_of_lt_of_eq hz (hlen.trans hf.counted).symm) y)
        have hown := (hzone z).trans (if_pos rfl)
        rw [← hreadd]
        refine ⟨⟨_, hk.dc, congrArg ZoneDyn.holder hown, rfl, rfl, congrArg ZoneDyn.cadence hown,
          fun y hy => (hzone y).trans ((if_neg hy).trans (hall y)), (sameBut_za_dc (by decide) (by decide) rfl).of_only hk⟩, ?_⟩
        exact zoneState_of_drill ((congrArg ZoneRec.enabled (congrFun hk.zoneRec z)).trans hf.enabled) (congrArg ZoneDyn.holder hown) rfl

end Sys2Proof.Machine
end

