-- ==== Sys2Proof/Proofs/AnnStarts.lean ====
section
/-! SUPPORT. An announcement of a chime that is given a free channel, and claims one free zone (R106, R110, R111). -/

namespace Sys2Proof.Machine
open Sys2Proof

/-! ### The number of a new announcement -/

/-- R106: with fewer than 256 announcements some number is nobody's. -/
theorem nextAnnNumber_free {s : State} (h : s.au.anns.length < 256) : s.ann? (nextAnnNumber s) = none := by
  have hex : ∃ k, k < 256 ∧ s.ann? ((s.au.counter + k) % 256) = none := by
    by_contra hno
    push Not at hno
    have hsub : Finset.range 256 ⊆ (s.au.anns.map (·.num)).toFinset := by
      intro m hm
      have hm256 := Finset.mem_range.1 hm
      obtain ⟨a, ha⟩ := Option.ne_none_iff_exists'.1 (hno ((m + 256 - s.au.counter % 256) % 256) (by omega))
      have hnum := ann_num ha
      rw [show (s.au.counter + (m + 256 - s.au.counter % 256) % 256) % 256 = m from by omega] at hnum
      exact List.mem_toFinset.2 (List.mem_map.2 ⟨a, List.mem_of_find?_eq_some ha, hnum⟩)
    have h1 := Finset.card_le_card hsub
    have h2 := List.toFinset_card_le (s.au.anns.map (·.num))
    rw [Finset.card_range] at h1
    rw [List.length_map] at h2
    omega
  obtain ⟨k, hk, hkn⟩ := hex
  unfold nextAnnNumber
  cases hf : ((List.range 256).map fun k => (s.au.counter + k) % 256).find? (fun n => (s.ann? n).isNone) with
  | none =>
    have := List.find?_eq_none.1 hf _ (List.mem_map.2 ⟨k, List.mem_range.2 hk, rfl⟩)
    simp [hkn] at this
  | some n => simpa using List.find?_some hf

theorem ann_of_none {s : State} {n : Nat} (h : s.ann? n = none) : ∀ x, x ∈ s.au.anns → x.num ≠ n := by
  unfold State.ann? at h
  simpa using h

/-! ### A new announcement -/

/-- A new announcement joins the others, and the counters move on. -/
def State.annAdded (a : Ann) (s : State) : State :=
  { s with au := { s.au with anns := s.au.anns ++ [a], counter := (a.num + 1) % 256, arrival := s.au.arrival + 1 } }

theorem riFree_annAdded (a : Ann) : RiFree (State.annAdded a) := fun _ _ => rfl

theorem annAdded_ann {u : State} {a : Ann} (h : ∀ x, x ∈ u.au.anns → x.num ≠ a.num) : (u.annAdded a).ann? a.num = some a := by
  show (u.au.anns ++ [a]).find? (·.num == a.num) = some a
  rw [List.find?_append, List.find?_eq_none.2 fun x hx => by simpa using h x hx]
  simp

/-- The announcement that is new is changed alone. -/
theorem annAdded_setAnn {u : State} {a : Ann} {n : Nat} (h : ∀ x, x ∈ u.au.anns → x.num ≠ n) (hn : a.num = n) {f : Ann → Ann}
    (hf : (f a).num = n) : (u.annAdded a).setAnn n f = u.annAdded (f a) := by
  have hm : (u.au.anns ++ [a]).map (fun x => if x.num = n then f x else x) = u.au.anns ++ [f a] := by
    have hid : u.au.anns.map (fun x => if x.num = n then f x else x) = u.au.anns :=
      (List.map_congr_left fun x hx => if_neg (h x hx)).trans (List.map_id' _)
    rw [List.map_append, hid]
    simp [hn]
  unfold State.setAnn State.annAdded
  dsimp only
  rw [hm, hf, hn]

/-- A channel given to an announcement. -/
def givenTo (n : Nat) (k : Channel) : Channel := { Channel.free k.cfg k.lastEnding with owner := some (.ann n) }

/-- An announcement that has been given a channel. -/
def routingOn (ch now : Nat) (a : Ann) : Ann := { a with st := .routing, routingAt := now, channel := some ch }

/-- An announcement whose zone has been granted. -/
def heldZone (z : Nat) (a : Ann) : Ann :=
  { a with
    zones := a.zones.map fun e => if e.zone = z then { e with st := .held, rejoined := false, routed := true } else e
    failed := a.failed.map fun zs => zs.filter (· != z) }

section
variable {u : State} {as : List Ans} {ws : List Work} {c : Ctx} {a : Ann} (hu : ∀ x, x ∈ u.au.anns → x.num ≠ a.num)
  (h : Amid (u.annAdded a) as ws c)
include hu h

theorem Amid.newAnn_set {f : Ann → Ann} (hf : (f a).num = a.num) : Amid (u.annAdded (f a)) as ws (c.upd (State.setAnn a.num f)) :=
  annAdded_setAnn hu rfl hf ▸ h.upd (riFree_setAnn a.num f)

theorem Amid.newAnn_ann : c.st.ann? a.num = some a := (congrFun h.state.ann a.num).trans (annAdded_ann hu)

/-- R110: an announcement is given a channel and claims its zones. -/
theorem Amid.annGive (ch : Nat) : Amid ((u.setChannel ch (givenTo a.num)).annAdded (routingOn ch u.elapsed a)) as
    (ws ++ (a.zones.map (fun z => .annClaim a.num z.zone) ++ [.annCheck a.num])) (annGive a.num ch c) := by
  have h1 : Amid ((u.setChannel ch (givenTo a.num)).annAdded a) as ws (c.upd (State.setChannel ch (givenTo a.num))) := h.upd (riFree_setChannel ch _)
  have h2 := Amid.newAnn_set (u := u.setChannel ch (givenTo a.num)) hu h1 (f := routingOn ch u.elapsed) rfl
  unfold Machine.annGive
  rw [h.newAnn_ann hu, h.state.elapsed]
  exact h2.call _

/-- R105: the claim of an announcement in ROUTING. -/
theorem Amid.annClaim {u' : State} {bs : List Ans} {z : Nat} (hst : a.st = .routing)
    (hc : Amid u' bs ws (claim z ⟨.ann a.num, a.level, true, true, none, if a.hold then .waitFor (1000 * a.resume) else .leave, none, 0, 0⟩ c)) :
    Amid u' bs ws (doWork (.annClaim a.num z) c) := by
  show Amid u' bs ws (Machine.annClaim a.num z c)
  unfold Machine.annClaim
  rw [h.newAnn_ann hu]
  dsimp only
  rw [if_pos hst]
  exact hc

/-- R110: an answer to an announcement in ROUTING. -/
theorem Amid.ann_granted {z : Nat} (hst : a.st = .routing) (hb : BareLines u) : Amid (u.annAdded (heldZone z a)) as (ws ++ [.annCheck a.num]) (handleAns (.zone (.ann a.num) z .granted) c) := by
  have hw : ∀ n z, watched c.st n z = false := fun n z => by
    have hl := (hb.of_lc (t := c.st) h.state.lc) (c.st.buildingOf z)
    unfold watched
    dsimp only
    rw [hl.queue, hl.inFlight]
    rfl
  show Amid _ as _ (annAnswer a.num z .granted c)
  unfold annAnswer
  rw [h.newAnn_ann hu]
  simp only [hst]
  rw [if_neg (by decide), if_neg (by decide)]
  refine Amid.call ?_ [.annCheck a.num]
  have h1 := h.newAnn_set hu (f := Ann.answered c.st z .granted) rfl
  have ha : Ann.answered c.st z .granted a = heldZone z a := by
    simp [Ann.answered, Ann.setZone, annStanding, Answer.wasGranted, hw, heldZone]
  rw [ha] at h1
  exact h1

end

/-- An announcement whose chime has begun. -/
def chimingFrom (now : Nat) (a : Ann) : Ann := { a with st := .chime, chimeAt := now }

/-- The tone generator at the first step of a pattern. -/
def tonedBy (s : State) (p : Nat) (k : Channel) : Channel := { k with tone := toneFor s p ((s.pattern p).cadenceAt 0) }

section
variable {u : State} {as : List Ans} {ws : List Work} {c : Ctx} {a : Ann} (hu : ∀ x, x ∈ u.au.anns → x.num ≠ a.num)
  (h : Amid (u.annAdded a) as ws c)
include hu h

/-- R110, R111: an announcement whose only zone is held and routed goes on to its chime. -/
theorem Amid.check_chimes {z ch p : Nat} (hst : a.st = .routing) (hz : a.zones = [⟨z, .held, false, true⟩]) (hp : a.chime = some p)
    (hch : a.channel = some ch) : Amid ((u.setChannel ch (tonedBy u p)).annAdded (chimingFrom u.elapsed a)) as ws (doWork (.annCheck a.num) c) := by
  have hf := h.newAnn_ann hu
  obtain ⟨note, hl⟩ : ∃ note, leaveRouting a.num c = enterChime a.num (c.record note) := by
    refine ⟨auNote .annRouted .routine a (dvo a.channel :: a.originValues) [some (a.count .held), some (a.count .waiting)] (dv a.failedRoutes), ?_⟩
    unfold leaveRouting
    rw [hf]
    dsimp only
    rw [show (if a.lateJoin = true then [] else (a.zones.filter fun z => z.st = .waiting).map (·.zone)) = [] from by simp [hz], Ctx.each, hf]
    dsimp only
    rw [if_neg (by simp [Ann.holds, hz]), if_pos (by simp [hp])]
  have hx : doWork (.annCheck a.num) c = enterChime a.num (c.record note) := by
    rw [← hl]
    show annCheck a.num c = _
    unfold annCheck
    rw [hf]
    dsimp only
    rw [if_neg (by simp [hst, hz]), if_pos (by simp [Ann.holds, hz]), if_pos (by simp [hz])]
  have h1 := h.record note
  have h2 : Amid ((u.setChannel ch (tonedBy u p)).annAdded (chimingFrom u.elapsed a)) as ws
      (((c.record note).upd (State.setAnn a.num (chimingFrom u.elapsed))).upd (State.setChannel ch (tonedBy u p))) :=
    (h1.newAnn_set hu (f := chimingFrom u.elapsed) rfl).upd (riFree_setChannel ch (tonedBy u p))
  rw [hx, enterChime_eq (h1.newAnn_ann hu) hp hch]
  have he : (c.record note).st.elapsed = u.elapsed := h1.state.elapsed
  have ht : ∀ k, toneFor (c.record note).st p k = toneFor u p k := fun k => by
    unfold toneFor
    rw [h1.state.pattern]
    rfl
  have hpat : (c.record note).st.pattern p = u.pattern p := congrFun h1.state.pattern p
  simp only [he, ht, hpat]
  exact h2

/-- R110: an announcement that is past ROUTING is not looked at. -/
theorem Amid.check_passes (hst : a.st ≠ .routing) : Amid (u.annAdded a) as ws (doWork (.annCheck a.num) c) := by
  have hx : doWork (.annCheck a.num) c = c := by
    show annCheck a.num c = _
    unfold annCheck
    rw [h.newAnn_ann hu]
    exact if_pos (by simp [hst])
  rw [hx]
  exact h

end

/-- The claim of an announcement. -/
def annClaimOf (a : Ann) : Claim := ⟨.ann a.num, a.level, true, true, none, if a.hold then .waitFor (1000 * a.resume) else .leave, none, 0, 0⟩

/-- R106, R110, R111: an announcement of a chime that is given a channel chimes in its only zone, which is free, in the same event. -/
theorem Amid.chime_starts {u : State} {ws : List Work} {c : Ctx} {a : Ann} {z ch p : Nat} (h : Amid (u.annAdded a) [] (.annGive a.num ch :: ws) c)
    (hu : ∀ x, x ∈ u.au.anns → x.num ≠ a.num) (hz : a.zones = [⟨z, .unclaimed, false, false⟩]) (hp : a.chime = some p) (hf : FreeZone z u)
    (hq : NoWaiters u) (hb : BareLines u) (hfd : ∀ b, u.za.feeds.getD b none = none) : ∃ e fs, Leads 5 c e
      ∧ Amid (((u.heldAs z ((annClaimOf a).holding u) .quiet fs).setChannel ch (fun k => tonedBy u p (givenTo a.num k))).annAdded
        (chimingFrom u.elapsed (heldZone z (routingOn ch u.elapsed a)))) [] ws e := by
  obtain ⟨e1, hl1, h1⟩ := h.takesCall (h.alone.annGive hu ch)
  rw [show (a.zones.map fun z => Work.annClaim a.num z.zone) = [.annClaim a.num z] from by rw [hz]; rfl] at h1
  obtain ⟨fs, h2⟩ := h1.alone.claim_free (z := z) (x := annClaimOf a) (hf.of_za rfl) (hq.of_za rfl) (.inr ⟨hb.of_lc rfl, hfd⟩)
  obtain ⟨e2, hl2, h3⟩ := h1.takesCall (Amid.annClaim (u := u.setChannel ch (givenTo a.num)) (a := routingOn ch u.elapsed a) hu h1.alone rfl h2)
  obtain ⟨e3, hl3, h4⟩ := h3.takesAns (Amid.ann_granted (u := (u.heldAs z ((annClaimOf a).holding u) .quiet fs).setChannel ch (givenTo a.num))
    (a := routingOn ch u.elapsed a) hu (h3.dropAns []) rfl (hb.of_lc rfl))
  obtain ⟨e4, hl4, h5⟩ := h4.takesCall (Amid.check_chimes (u := (u.heldAs z ((annClaimOf a).holding u) .quiet fs).setChannel ch (givenTo a.num))
    (a := heldZone z (routingOn ch u.elapsed a)) (z := z) (ch := ch) (p := p) hu h4.alone rfl (by simp [heldZone, routingOn, hz]) hp rfl)
  obtain ⟨e5, hl5, h6⟩ := h5.takesCall (Amid.check_passes (u := ((u.heldAs z ((annClaimOf a).holding u) .quiet fs).setChannel ch (givenTo a.num)).setChannel ch
    (tonedBy u p)) (a := chimingFrom u.elapsed (heldZone z (routingOn ch u.elapsed a))) hu h5.alone nofun)
  refine ⟨e5, fs, hl1.trans (hl2.trans (hl3.trans (hl4.trans hl5))), ?_⟩
  rw [← setChannel_setChannel ch (givenTo a.num) (tonedBy u p)]
  exact h6

end Sys2Proof.Machine
end

