-- ==== Sys2Proof/Proofs/Announces.lean ====
section
/-! SUPPORT. O25: ANNOUNCE and its refusals. -/

namespace Sys2Proof.Machine
open Sys2Proof

/-! ### The checks of R106 -/

/-- A field of ANNOUNCE is out of its range. -/
def annOutOfRange (p : AnnounceParams) : Prop := (p.targetKind = 0 ∧ 63 < p.group) ∨ (p.chime ≠ noneByte ∧ 31 < p.chime) ∨ p.level < 2 ∨ 9 < p.level

/-- The zones ANNOUNCE names. -/
def annTarget (p : AnnounceParams) (s : State) : ZoneSet := if p.targetKind = 0 then s.group p.group else p.zones

/-- A field of ANNOUNCE names nothing. -/
def annBad (p : AnnounceParams) (s : State) : Prop :=
  3 < p.source ∨ 1 < p.targetKind ∨ 1 < p.onPreempt ∨ 1 < p.lateJoin ∨ 1 < p.wait ∨ annTarget p s = 0
    ∨ (p.chime ≠ noneByte ∧ (s.pattern p.chime).steps = []) ∨ (p.source = 3 ∧ p.chime = noneByte)

/-- The first block of ANNOUNCE is at no block's offset. -/
def annBadOffset (p : AnnounceParams) : Prop :=
  p.source = 0 ∧ ¬ (p.blockOffset % 4 = 0 ∧ 0x3000 ≤ p.blockOffset ∧ p.blockOffset + 16 ≤ 0x100000)

/-- There are 12 announcements, or the live source is in use. -/
def annBusy (p : AnnounceParams) (s : State) : Prop :=
  12 ≤ s.au.anns.length ∨ ∃ a live, a ∈ s.au.anns ∧ live ≤ 1 ∧ a.source = .live live ∧ p.source = live + 1

theorem blockOffsetOk_iff (off : Nat) : blockOffsetOk off = true ↔ off % 4 = 0 ∧ 0x3000 ≤ off ∧ off + 16 ≤ 0x100000 := by
  unfold blockOffsetOk inFree
  simp only [Config.freeFirst, Config.regionEnd, Bool.and_eq_true, beq_iff_eq]
  exact Iff.and Iff.rfl (Iff.and decide_eq_true_iff decide_eq_true_iff)

/-- The sources by their numbers. -/
theorem sourceOf_cases {k block : Nat} (h : k ≤ 3) : ∃ x, sourceOf k block = some x ∧ (x = .toneOnly ↔ k = 3) ∧ ∀ live, x = .live live ↔ live ≤ 1 ∧ k = live + 1 := by
  have : k = 0 ∨ k = 1 ∨ k = 2 ∨ k = 3 := by omega
  rcases this with rfl | rfl | rfl | rfl
  · exact ⟨.blocks block, rfl, by simp, fun live => by simp⟩
  · exact ⟨.live 0, rfl, by simp, fun live => by simp; omega⟩
  · exact ⟨.live 1, rfl, by simp, fun live => by simp; omega⟩
  · exact ⟨.toneOnly, rfl, by simp, fun live => by simp; omega⟩

theorem sourceOf_none {k block : Nat} (h : 3 < k) : sourceOf k block = none := by
  unfold sourceOf
  split <;> simp_all

section
variable {p : AnnounceParams} {s : State}

theorem announce_outOfRange (h : annOutOfRange p) (x : Option AnnSource) (zs : ZoneSet) : announceRefusal s p x zs = some .outOfRange := by
  unfold annOutOfRange at h
  unfold announceRefusal
  dsimp only
  rw [if_pos (by simpa [or_assoc] using h)]

theorem announce_bad (h : ¬ annOutOfRange p) (hb : annBad p s) :
    announceRefusal s p (sourceOf p.source p.blockOffset) (annTarget p s) = some .badParameter := by
  unfold annOutOfRange at h
  unfold announceRefusal
  dsimp only
  rw [if_neg (by simpa [or_assoc] using h)]
  rcases Nat.lt_or_ge 3 p.source with h3 | h3
  · rw [sourceOf_none h3]
  · obtain ⟨x, hx, ht, -⟩ := sourceOf_cases (block := p.blockOffset) h3
    rw [hx]
    refine if_pos ?_
    unfold annBad at hb
    simpa [Pattern.isEmpty, ht, or_assoc, Nat.not_lt.2 h3] using hb

/-- The cases of R106 after the parameters. -/
theorem announce_rest (h : ¬ annOutOfRange p) (hb : ¬ annBad p s) : ∃ x, sourceOf p.source p.blockOffset = some x
    ∧ (x = .toneOnly ↔ p.source = 3) ∧ (∀ live, x = .live live ↔ live ≤ 1 ∧ p.source = live + 1)
    ∧ announceRefusal s p (some x) (annTarget p s) = if p.source = 0 && !blockOffsetOk p.blockOffset then some .regionOffset
      else if s.au.anns.length ≥ Config.annCapacity then some .busy else if liveInUse s x then some .busy else none := by
  unfold annOutOfRange at h
  unfold annBad at hb
  obtain ⟨x, hx, ht, hl⟩ := sourceOf_cases (k := p.source) (block := p.blockOffset) (Nat.le_of_not_lt fun h3 => hb (.inl h3))
  refine ⟨x, hx, ht, hl, ?_⟩
  unfold announceRefusal
  dsimp only
  rw [if_neg (by simpa [or_assoc] using h), if_neg]
  intro hc
  refine hb (.inr ?_)
  simpa [Pattern.isEmpty, ht, or_assoc] using hc

theorem announce_offset (h : ¬ annOutOfRange p) (hb : ¬ annBad p s) (ho : annBadOffset p) :
    announceRefusal s p (sourceOf p.source p.blockOffset) (annTarget p s) = some .regionOffset := by
  obtain ⟨x, hx, -, -, hr⟩ := announce_rest h hb
  rw [hx, hr]
  refine if_pos ?_
  rw [annBadOffset, ← blockOffsetOk_iff] at ho
  simp [ho.1, ho.2]

theorem liveInUse_iff {x : AnnSource} (hl : ∀ live, x = .live live ↔ live ≤ 1 ∧ p.source = live + 1) :
    liveInUse s x = true ↔ ∃ a live, a ∈ s.au.anns ∧ live ≤ 1 ∧ a.source = .live live ∧ p.source = live + 1 := by
  cases x with
  | live k =>
    obtain ⟨hk, hs⟩ := (hl k).1 rfl
    simp only [liveInUse, List.any_eq_true, decide_eq_true_eq]
    constructor
    · rintro ⟨a, ha, hx⟩
      exact ⟨a, k, ha, hk, hx, hs⟩
    · rintro ⟨a, live, ha, -, hx, h2⟩
      exact ⟨a, ha, by rw [hx, show live = k from by omega]⟩
  | _ =>
    simp only [liveInUse, Bool.false_eq_true, false_iff, not_exists]
    rintro a live ⟨-, h1, -, h2⟩
    have := (hl live).2 ⟨h1, h2⟩
    cases this

theorem not_badOffset (ho : ¬ annBadOffset p) : (p.source = 0 && !blockOffsetOk p.blockOffset) = false := by
  rw [annBadOffset, ← blockOffsetOk_iff] at ho
  cases hb : blockOffsetOk p.blockOffset <;> simp_all

theorem announce_busy (h : ¬ annOutOfRange p) (hb : ¬ annBad p s) (ho : ¬ annBadOffset p) (hs : annBusy p s) :
    announceRefusal s p (sourceOf p.source p.blockOffset) (annTarget p s) = some .busy := by
  obtain ⟨x, hx, -, hl, hr⟩ := announce_rest h hb
  rw [hx, hr, not_badOffset ho, if_neg Bool.false_ne_true]
  by_cases h12 : s.au.anns.length ≥ Config.annCapacity
  · rw [if_pos h12]
  · rw [if_neg h12, if_pos ((liveInUse_iff hl).2 (hs.resolve_left h12))]

theorem announce_taken (h : ¬ annOutOfRange p) (hb : ¬ annBad p s) (ho : ¬ annBadOffset p) (hs : ¬ annBusy p s) :
    ∃ x, sourceOf p.source p.blockOffset = some x ∧ (x = .toneOnly ↔ p.source = 3)
      ∧ announceRefusal s p (some x) (annTarget p s) = none := by
  obtain ⟨x, hx, ht, hl, hr⟩ := announce_rest h hb
  refine ⟨x, hx, ht, ?_⟩
  rw [hr, not_badOffset ho, if_neg Bool.false_ne_true, if_neg fun h12 : s.au.anns.length ≥ Config.annCapacity => hs (.inl h12), if_neg fun hu => hs (.inr ((liveInUse_iff hl).1 hu))]

end

/-! ### What ANNOUNCE comes to -/

/-- R106: the outcome of an ANNOUNCE that is taken. -/
def annOutcome (p : AnnounceParams) : Outcome := if 1 ≤ p.duration ∧ p.duration ≤ 600 ∧ p.resume ≤ 300 then .done else .doneClamped

theorem annOutcome_eq (p : AnnounceParams) :
    Outcome.ofClamped (clampNat 1 600 p.duration != p.duration || min p.resume 300 != p.resume) = annOutcome p := by
  rw [clampNat_eq (by decide)]
  unfold Outcome.ofClamped annOutcome
  have : (max 1 (min 600 p.duration) != p.duration || min p.resume 300 != p.resume)
      = !decide (1 ≤ p.duration ∧ p.duration ≤ 600 ∧ p.resume ≤ 300) := by
    rw [Bool.eq_iff_iff]
    simp only [Bool.or_eq_true, bne_iff_ne, Bool.not_eq_true', decide_eq_false_iff_not]
    omega
  rw [this]
  by_cases h : 1 ≤ p.duration ∧ p.duration ≤ 600 ∧ p.resume ≤ 300 <;> simp [h]

/-- The announcement that ANNOUNCE asks for. -/
def annAsked (p : AnnounceParams) (x : AnnSource) (tag : Word) (zs : ZoneSet) : Ann :=
  protoAnn (.request tag) zs p.level x (if p.chime = noneByte then none else some p.chime) (clampNat 1 600 p.duration) (p.onPreempt == 1)
    (min p.resume 300) (p.lateJoin == 1) (p.wait == 1)

section
variable {q : ReqHdr} {p : AnnounceParams} {c : Ctx}

theorem decideAnnounce_refused {o : Outcome} (h : announceRefusal c.st p (sourceOf p.source p.blockOffset) (annTarget p c.st) = some o) :
    decideAnnounce q p c = c.upd (State.refuse q o) := by
  unfold decideAnnounce
  dsimp only
  rw [show targetZones c.st p.targetKind p.group p.zones = annTarget p c.st from rfl, h]

theorem decideAnnounce_taken {x : AnnSource} (h : announceRefusal c.st p (some x) (annTarget p c.st) = none)
    (hx : sourceOf p.source p.blockOffset = some x) : decideAnnounce q p c =
      if (takeAnn (annAsked p x c.tag (annTarget p c.st)) c).2 then (takeAnn (annAsked p x c.tag (annTarget p c.st)) c).1.upd (State.answer q (annOutcome p)
        [numWord (nextAnnNumber c.st), numWord (channelRequest c.st p.level (p.wait == 1)).entered.code])
      else (takeAnn (annAsked p x c.tag (annTarget p c.st)) c).1.upd (State.refuse q .noChannel) := by
  unfold decideAnnounce
  dsimp only
  rw [show targetZones c.st p.targetKind p.group p.zones = annTarget p c.st from rfl, hx, h, ← annOutcome_eq]
  rfl

end

/-! ### Channel requests -/

/-- Every channel is owned, by no announcement at a worse level. -/
def NoChannel (level : Nat) (s : State) : Prop :=
  ∀ ch, ch < 4 → ∃ o, (s.channel ch).owner = some o ∧ ∀ n a, o = .ann n → s.ann? n = some a → a.level ≤ level

theorem NoChannel.free {level : Nat} {s : State} (h : NoChannel level s) : freeChannel? s = none := by
  unfold freeChannel?
  rw [List.find?_eq_none]
  intro ch hch
  obtain ⟨o, ho, -⟩ := h ch (List.mem_range.1 hch)
  simp [ho]

theorem NoChannel.worse {level : Nat} {s : State} (h : NoChannel level s) : worseOwners s level = [] := by
  unfold worseOwners
  rw [List.filterMap_eq_nil_iff]
  intro ch hch
  obtain ⟨o, ho, hlevel⟩ := h ch (List.mem_range.1 hch)
  rw [ho]
  cases o with
  | ann n =>
    cases ha : s.ann? n with
    | none => simp [ha]
    | some a => simpa [ha, Option.filter] using hlevel n a rfl ha
  | _ => rfl

/-- R102: without a channel a request is refused where it may not wait. -/
theorem NoChannel.refused {level : Nat} {s : State} (h : NoChannel level s) : channelRequest s level false = .refused := by
  unfold channelRequest
  rw [h.free, h.worse]
  rfl

/-- R103: without a channel a request waits where the wait list has room. -/
theorem NoChannel.waits {level : Nat} {s : State} (h : NoChannel level s) (hw : s.au.waitList.length < 8) : channelRequest s level true = .wait := by
  unfold channelRequest
  rw [h.free, h.worse]
  exact (if_pos rfl).trans (if_pos hw)

theorem channelRequest_free {level : Nat} {s : State} {ch : Nat} (h : freeChannel? s = some ch) (w : Bool) : channelRequest s level w = .free ch := by
  unfold channelRequest
  rw [h]

theorem mem_insertAnn (s : State) (a : Ann) (l : List Nat) : a.num ∈ insertAnn s a l := by
  induction l with
  | nil => exact List.mem_singleton.2 rfl
  | cons n rest ih =>
    unfold insertAnn
    split
    · split
      · exact List.mem_cons_self
      · exact List.mem_cons_of_mem n ih
    · exact List.mem_cons_of_mem n ih

/-- The record of an announcement that is taken. -/
def annTaken (s : State) (proto : Ann) : Ann := { proto with num := nextAnnNumber s, arrival := s.au.arrival, takenAt := s.elapsed }

/-- The counters move on. -/
def State.annCounted (n : Nat) (s : State) : State := { s with au := { s.au with counter := (n + 1) % 256, arrival := s.au.arrival + 1 } }

/-- An announcement waits for a channel. -/
def State.annWaits (a : Ann) (s : State) : State := { s with au := { s.au with waitList := insertAnn s a s.au.waitList } }

section
variable {proto : Ann} {c : Ctx}

theorem takeAnn_refused (h : channelRequest c.st proto.level proto.mayWait = .refused) :
    takeAnn proto c = (c.upd (State.annCounted (nextAnnNumber c.st)), false) := by
  unfold takeAnn
  dsimp only
  rw [h]
  rfl

theorem takeAnn_wait (h : channelRequest c.st proto.level proto.mayWait = .wait) : takeAnn proto c =
    (c.upd fun s => (s.annAdded (annTaken c.st proto)).annWaits (annTaken c.st proto), true) := by
  unfold takeAnn
  dsimp only
  rw [h]
  rfl

theorem takeAnn_free {ch : Nat} (h : channelRequest c.st proto.level proto.mayWait = .free ch) : takeAnn proto c =
    ((c.upd (State.annAdded (annTaken c.st proto))).call [.annGive (nextAnnNumber c.st) ch], true) := by
  unfold takeAnn
  dsimp only
  rw [h]
  rfl

end

theorem zoneState_of_ann {s : State} {z n : Nat} {g : Claim} (he : (s.zoneRec z).enabled = true) (hh : (s.zone z).holder = some g)
    (hw : g.who = .ann n) : s.zoneState z = .page := by
  unfold State.zoneState
  rw [if_pos he, hh]
  simp only [hw]

/-! ### The obligation -/

theorem sameBut_chimes (s : State) (z ch : Nat) (g : Claim) (k : Cadence) (fs : List (Option FeedHolder)) (f : Channel → Channel) (a : Ann) :
    SameBut [.za, .au] s (((s.heldAs z g k fs).setChannel ch f).annAdded a) :=
  ⟨fun _ => rfl, fun _ => rfl, fun _ => rfl, fun k => (k (by decide)).elim, fun _ => rfl, fun k => (k (by decide)).elim, fun _ => rfl, fun _ => rfl,
    fun _ => rfl, fun _ => rfl⟩

/-- R106: ANNOUNCE of a chime alone in one free zone, with a free channel, chimes in its event. -/
theorem announce_chimes {q : ReqHdr} {p : AnnounceParams} {s : State} {z ch : Nat} (hr : s.reaches q = true) (hlog : LogSound s.ri) (hc : Counts s)
    (hw : NoWaiters s) (hf : FreeZone z s) (hb : BareLines s) (hfd : ∀ b, s.za.feeds.getD b none = none) (hch : freeChannel? s = some ch)
    (ho : ¬ annOutOfRange p) (hbad : ¬ annBad p s) (hbusy : ¬ annBusy p s) (ht : annTarget p s = BitVec.twoPow 64 z) (hsrc : p.source = 3) :
    ∃ t h a, exec (.announce q p) s = .next t
      ∧ Decided q (annOutcome p) [numWord (nextAnnNumber s), numWord 1] s t
      ∧ s.ann? (nextAnnNumber s) = none ∧ t.ann? (nextAnnNumber s) = some a ∧ a.st = .chime ∧ a.level = p.level ∧ a.channel = some ch
      ∧ (t.channel ch).owner = some (.ann (nextAnnNumber s))
      ∧ (t.zone z).holder = some h ∧ h.who = .ann (nextAnnNumber s) ∧ t.zoneState z = .page ∧ (∀ y, y ≠ z → t.zone y = s.zone y)
      ∧ SameBut [.za, .au] s t := by
  have hchime : p.chime ≠ noneByte := fun h => hbad (.inr (.inr (.inr (.inr (.inr (.inr (.inr ⟨hsrc, h⟩)))))))
  have hlen : s.au.anns.length < 12 := Nat.lt_of_not_le fun h => hbusy (.inl h)
  have hno : s.ann? (nextAnnNumber s) = none := nextAnnNumber_free (by omega)
  have hnot : ¬ annBadOffset p := fun h => by
    have := h.1
    omega
  obtain ⟨x, hx, -, hr0⟩ := announce_taken ho hbad hnot hbusy
  let a := annTaken s (annAsked p x q.tag (annTarget p s))
  have hreq := channelRequest_free (level := p.level) hch (p.wait == 1)
  have hd : decideRequest (.announce q p) (s.deciding q) = (((s.deciding q).upd (State.annAdded a)).call [.annGive (nextAnnNumber s) ch]).upd
      (State.answer q (annOutcome p) [numWord (nextAnnNumber s), numWord 1]) := by
    refine (decideAnnounce_taken (c := s.deciding q) hr0 hx).trans ?_
    rw [takeAnn_free (proto := annAsked p x (s.deciding q).tag (annTarget p (s.deciding q).st)) (c := s.deciding q) hreq]
    refine (if_pos rfl).trans ?_
    rw [show channelRequest (s.deciding q).st p.level (p.wait == 1) = .free ch from hreq]
    rfl
  have hturn : CTurn (s.deciding q) (((s.deciding q).upd (State.annAdded a)).call [.annGive (nextAnnNumber s) ch]) := by
    have := takeAnn_cturn (CTurn.refl (s.deciding q)) (proto := annAsked p x q.tag (annTarget p s))
    rwa [takeAnn_free (proto := annAsked p x q.tag (annTarget p s)) (c := s.deciding q) hreq] at this
  obtain ⟨hex, hdec⟩ := exec_passed (i := .announce q p) rfl hr hlog hd hturn (by simp)
  have h1 := (((amid_deciding q s).upd (riFree_annAdded a)).call [.annGive a.num ch]).answer q (annOutcome p) [numWord (nextAnnNumber s), numWord 1]
  have hz : a.zones = [⟨z, .unclaimed, false, false⟩] := by
    show (zonesOf (annTarget p s)).map _ = _
    rw [ht, zonesOf_twoPow hf.range]
    rfl
  obtain ⟨e, fs, hl, h2⟩ := h1.chime_starts (ann_of_none hno) hz (show (if p.chime = noneByte then none else some p.chime) = _ from if_neg hchime)
    (hf.of_za rfl) (hw.of_za rfl) (hb.of_lc rfl) hfd
  have hk := h2.leaves hl (by decide)
  have hzlen : z < s.za.zones.length := lt_of_lt_of_eq hf.range hf.counted.symm
  have hzone := fun y => (congrFun hk.zone y).trans (heldAs_zone (s := s.taking q) hzlen y)
  have hown := (hzone z).trans (if_pos rfl)
  have hann : ∀ y, y ∈ (s.taking q).au.anns → y.num ≠ a.num := ann_of_none hno
  have hch4 : ch < 4 := List.mem_range.1 (List.mem_of_find?_eq_some hch)
  refine ⟨_, _, _, hex, hdec, hno, (congrFun hk.ann _).trans (annAdded_ann (a := chimingFrom s.elapsed (heldZone z (routingOn ch s.elapsed a))) hann), rfl, rfl, rfl, ?_,
    congrArg ZoneDyn.holder hown, rfl, ?_, fun y hy => (hzone y).trans (if_neg hy), ?_⟩
  · have hchan := setChannel_channel (s := s.taking q) (counts_taking hc q) hch4
      (fun k => tonedBy (s.taking q) p.chime (givenTo a.num k))
    exact congrArg Channel.owner ((congrFun hk.channel ch).trans hchan)
  · exact zoneState_of_ann ((congrArg ZoneRec.enabled (congrFun hk.zoneRec z)).trans hf.enabled) (congrArg ZoneDyn.holder hown) rfl
  · exact SameBut.of_only (SameBut.of_taking (q := q) (sameBut_chimes _ _ _ _ _ _ _ _)) hk

/-- Settles O25. -/
theorem announceChimesOnAFreeZone : Obligations.AnnounceChimesOnAFreeZone := by
  unfold Obligations.AnnounceChimesOnAFreeZone
  intro q p s hr hlog
  refine ⟨fun h => exec_refused rfl hr (decideAnnounce_refused (announce_outOfRange h _ _)),
    fun h hb => exec_refused rfl hr (decideAnnounce_refused (announce_bad h hb)),
    fun h hb ho => exec_refused rfl hr (decideAnnounce_refused (announce_offset h hb ho)),
    fun h hb ho hs => exec_refused rfl hr (decideAnnounce_refused (announce_busy h hb ho hs)), fun h hb ho hs hn => ?_,
    fun z ch hc hw hf hl hfd hch h hb hs ht hsrc => announce_chimes hr hlog hc hw hf hl hfd hch h hb hs ht hsrc⟩
  have hn' : NoChannel p.level s := hn
  obtain ⟨x, hx, -, hr0⟩ := announce_taken h hb ho hs
  have hd := decideAnnounce_taken (q := q) (c := s.deciding q) hr0 hx
  refine ⟨fun hw => ?_, fun hw hroom => ?_⟩
  · have hreq : channelRequest s p.level (p.wait == 1) = .refused := by
      rw [hw]
      exact hn'.refused
    rw [takeAnn_refused (proto := annAsked p x (s.deciding q).tag (annTarget p (s.deciding q).st)) (c := s.deciding q) hreq] at hd
    obtain ⟨hex, hdec, hk⟩ := exec_decided (i := .announce q p) rfl hr hlog hd (Noted.refl _) rfl rfl (by simp) rfl rfl rfl
    exact ⟨_, hex, hdec, (congrArg AnnUnit.anns hk.au).trans rfl, (congrArg AnnUnit.waitList hk.au).trans rfl, (congrArg AnnUnit.channels hk.au).trans rfl, SameBut.of_only (sameBut_au (by decide) rfl) hk⟩
  · have hreq : channelRequest s p.level (p.wait == 1) = .wait := by
      rw [hw]
      exact hn'.waits hroom
    have hreq' : channelRequest (s.deciding q).st p.level (p.wait == 1) = .wait := hreq
    rw [takeAnn_wait (proto := annAsked p x (s.deciding q).tag (annTarget p (s.deciding q).st)) (c := s.deciding q) hreq, hreq'] at hd
    obtain ⟨hex, hdec, hk⟩ := exec_decided (i := .announce q p) rfl hr hlog hd (Noted.refl _) rfl rfl (by simp) rfl rfl rfl
    refine ⟨_, annTaken s (annAsked p x q.tag (annTarget p s)), hex, hdec, (congrArg AnnUnit.anns hk.au).trans rfl, rfl, rfl, rfl, ?_, (congrArg AnnUnit.channels hk.au).trans rfl, SameBut.of_only (sameBut_au (by decide) rfl) hk⟩
    rw [congrArg AnnUnit.waitList hk.au]
    exact mem_insertAnn _ _ _

end Sys2Proof.Machine
end

