-- ==== Sys2Proof/Proofs/BellBegins.lean ====
section
/-! SUPPORT. A bell that is ready starts in its event (R88, R90). -/

namespace Sys2Proof.Machine
open Sys2Proof

theorem BellReady.of_blocks {g p z n : Nat} {s t : State} (h : BellReady g p z n s) (hza : t.za = s.za) (hpu : t.pu = s.pu) : BellReady g p z n t := by
  obtain ⟨hp, hg, hz, hw, hn⟩ := h
  unfold State.pattern at hp
  unfold State.group at hg
  refine ⟨?_, ?_, hz.of_za hza, hw.of_za hza, ?_⟩
  · unfold State.pattern
    rwa [hpu]
  · unfold State.group
    rwa [hza]
  · rwa [hpu]

section
variable {g p z n level df du : Nat} {src : BellSource}

/-- The bell that is ready, when it has sounded its zone from a moment. -/
def readyBell (u : State) (n : Nat) (src : BellSource) (g p level df du : Nat) : Bell := newBell u n src (u.group g) p level df du

theorem readyBell_zones {u : State} (h : BellReady g p z n u) : (readyBell u n src g p level df du).zones = [⟨z, .waiting, false, 0⟩] := by
  unfold readyBell newBell
  rw [h.group, zonesOf_twoPow h.zone.range]
  rfl

/-- R88: a bell that is ready has its number, and asks for its zone. -/
theorem Amid.bellStart_ready {u : State} {as : List Ans} {ws : List Work} {c : Ctx} (h : Amid u as ws c) (hr : BellReady g p z n u) :
    Amid (u.bellAdded src (readyBell u n src g p level df du)) as (ws ++ [.bellClaim n z]) (Machine.bellStart src (u.group g) p level df du c) := by
  have h1 := h.bellStart hr.number src (u.group g) p level df du
  rw [hr.group, zonesOf_twoPow hr.zone.range] at h1
  rw [readyBell, hr.group]
  exact h1

/-- R90: a bell that is ready is granted its zone and sounds. -/
theorem Amid.bell_sounds {u : State} {ws : List Work} {c : Ctx} (h : Amid (u.bellAdded src (readyBell u n src g p level df du)) [] (.bellClaim n z :: ws) c)
    (hr : BellReady g p z n u) : ∃ d k fs, Leads 2 c d ∧ k.who = .bell n ∧ k.level = level
      ∧ Amid ((u.heldAs z k ((u.pattern p).cadenceAt 0) fs).bellAdded src
        { readyBell u n src g p level df du with zones := [⟨z, .sounding, true, u.elapsed⟩] }) [] ws d := by
  obtain ⟨d, fs, hl, h2⟩ := h.bell_starts (freeBell_spec hr.number) (readyBell_zones hr) hr.zone hr.noWaiters
  exact ⟨d, _, fs, hl, rfl, rfl, h2⟩

/-- A bell that has its zone has started. -/
theorem bellStarted_of {u t : State} (hr : BellReady g p z n u) {k : Claim} {fs : List (Option FeedHolder)} (hw : k.who = .bell n) (hl : k.level = level)
    (h : RiOnly ((u.heldAs z k ((u.pattern p).cadenceAt 0) fs).bellAdded src
      { readyBell u n src g p level df du with zones := [⟨z, .sounding, true, u.elapsed⟩] }) t) : BellStarted n z p level src u t := by
  have hlen : z < u.za.zones.length := lt_of_lt_of_eq hr.zone.range hr.zone.counted.symm
  have hzone := fun y => (congrFun h.zone y).trans (heldAs_zone (s := u) hlen y)
  have hown := (hzone z).trans (if_pos rfl)
  have hel : t.elapsed = u.elapsed := h.elapsed
  refine ⟨⟨_, (congrArg PatternUnit.bells h.pu).trans rfl, rfl, rfl, rfl, rfl, by rw [hel]⟩, ⟨k, congrArg ZoneDyn.holder hown, hw, hl⟩, ?_,
    congrArg ZoneDyn.cadence hown, fun y hy => (hzone y).trans (if_neg hy), (congrArg PatternUnit.table h.pu).trans rfl⟩
  exact zoneState_of_bell ((congrArg ZoneRec.enabled (congrFun h.zoneRec z)).trans hr.zone.enabled) (congrArg ZoneDyn.holder hown) hw

theorem BellStarted.of_blocks {u s t : State} (h : BellStarted n z p level src u t) (hza : u.za = s.za) (hpu : u.pu = s.pu) :
    BellStarted n z p level src s t := by
  obtain ⟨hb, hh, hs, hc, ho, ht⟩ := h
  unfold State.pattern at hc
  unfold State.zone at ho
  rw [hpu] at hb hc ht
  rw [hza] at ho
  exact ⟨hb, hh, hs, hc, ho, ht⟩

end

end Sys2Proof.Machine
end

