-- ==== Sys2Proof/Proofs/Handed.lean ====
section
/-! SUPPORT. What a change of an input's debounced value sets off (R179): bell pushes, drill keys, clear reports and live sources. -/

namespace Sys2Proof.Machine
open Sys2Proof

/-- An input has taken a value; of the blocks only its own and those named have changed. -/
def Turned (k : Nat) (v : Contact) (bs : List BlockId) (s t : State) : Prop := t.input k = { s.input k with value := some v }
  ∧ (∀ j, j ≠ k → t.input j = s.input j) ∧ SameBut (.io :: bs) s t

theorem turned_of {s t : State} (hc : Counts s) {k : Nat} (hk : k < 12) {v : Contact} {bs : List BlockId} (hin : t.input = (s.valued k v).input)
    (h : SameBut (.io :: bs) s t) : Turned k v bs s t := by
  refine ⟨?_, fun j hj => ?_, h⟩
  · rw [hin]
    exact valued_input hc hk v
  · rw [hin]
    exact valued_input_ne s hj v

theorem riFree_valued (k : Nat) (v : Contact) : RiFree (State.valued k v) := fun _ _ => rfl

theorem amid_valued (s : State) (k : Nat) (v : Contact) : Amid (s.started.valued k v) [] [] (s.begin.upd (State.valued k v)) :=
  (amid_begin s).upd (riFree_valued k v)

section
variable {s : State} {k : Nat} (hc : Counts s) (hk : k < 12) (v : Contact)
include hc hk

/-- An input whose value is handed on to nothing. -/
theorem turned_quiet : Turned k v [] s (s.begin.upd (State.valued k v)).close ∧ (s.begin.upd (State.valued k v)).close.ri = s.ri := by
  rw [close_done rfl rfl]
  exact ⟨turned_of hc hk rfl (sameBut_io (by decide) rfl), rfl⟩

/-- A record alone is written. -/
theorem turned_record (n : Note) : Turned k v [] s ((s.begin.upd (State.valued k v)).record n).close
    ∧ ((s.begin.upd (State.valued k v)).record n).close.ri = s.ri.take (stamped ((s.begin.upd (State.valued k v)).record n).close n) := by
  rw [close_done (c := (s.begin.upd (State.valued k v)).record n) rfl rfl]
  exact ⟨turned_of hc hk rfl (sameBut_io (by decide) rfl), rfl⟩

end

section
variable {s : State} {k : Nat} (hk : k < 12) (ho : (s.holdOf k).since + ((s.holdOf k).time : Int) ≤ (s.elapsed : Int))
  (hr : s.io.inFunc k ≠ .reference) (hf : ¬ (k = 11 ∧ s.io.inFunc 11 = .fireAlarm))
include hk ho hr hf

/-- R179: a change of a value that has been debounced is handed on. -/
theorem debounced_turns {v w : Contact} (hv : (if (s.input k).reading = .closed then Contact.closed else .opened) = v)
    (hw : (s.input k).value = some w) (hne : w ≠ v) : debounced k s.begin = handOn k v (s.begin.upd (State.valued k v)) := by
  rw [debounced_begin ho hk hr hf, hv]
  exact setValue_of_change (c := s.begin) hw hne

/-- A first value is handed on to a live source alone. -/
theorem debounced_first (hn : (s.input k).value = none) (hp : ∀ n, s.io.inFunc k ≠ .ptt n) : debounced k s.begin
    = s.begin.upd (State.valued k (if (s.input k).reading = .closed then .closed else .opened)) := by
  rw [debounced_begin ho hk hr hf]
  exact setValue_of_first (c := s.begin) hn hp

/-- R122, R179: any change of the value of a live source's input, a first value among them, is handed on to it. -/
theorem debounced_talks {v : Contact} {n : Nat} (hv : (if (s.input k).reading = .closed then Contact.closed else .opened) = v)
    (hne : (s.input k).value ≠ some v) (hp : s.io.inFunc k = .ptt n) : debounced k s.begin = pttChanged n (s.begin.upd (State.valued k v)) := by
  rw [debounced_begin ho hk hr hf, hv]
  unfold setValue
  dsimp only
  rw [show s.begin.st.input k = s.input k from rfl, show s.begin.st.io.inFunc k = .ptt n from hp, if_neg hne]
  cases hx : (s.input k).value with
  | none => rfl
  | some w =>
    dsimp only
    unfold handOn
    rw [Ctx.upd_st, show (s.begin.st.setInput k fun i => { i with value := some v }).io.inFunc k = .ptt n from
      (valued_inFunc s.begin.st k v k).trans hp]
    rfl

end

/-! ### Bell pushes -/

section
variable {c : Ctx} {k g p : Nat}

/-- R91: a push does nothing while the input's last bell still exists. -/
theorem bellPush_again {n : Nat} (hl : c.st.pu.lastPush.getD k none = some n) : bellPush k g p c = c := if_pos (by rw [hl]; rfl)

/-- R91: a push with an empty pattern or group is missed. -/
theorem bellPush_missed (hl : c.st.pu.lastPush.getD k none = none) (he : (c.st.pattern p).steps = [] ∨ c.st.group g = 0) :
    bellPush k g p c = c.record (missedNote (.push k) (if (c.st.pattern p).steps = [] then .emptyPattern else .emptyGroup)) := by
  unfold bellPush
  dsimp only
  rw [hl, if_neg (by simp)]
  by_cases hp : (c.st.pattern p).steps = []
  · rw [if_pos hp, if_pos (by simpa [Pattern.isEmpty] using hp)]
  · rw [if_neg hp, if_neg (by simpa [Pattern.isEmpty] using hp), if_pos (he.resolve_left hp)]

theorem bellPush_rings (hl : c.st.pu.lastPush.getD k none = none) (hp : (c.st.pattern p).steps ≠ []) (hg : c.st.group g ≠ 0) :
    bellPush k g p c = bellStart (.push k) (c.st.group g) p 6 0 30 c := by
  unfold bellPush
  dsimp only
  rw [hl, if_neg (by simp), if_neg (by simpa [Pattern.isEmpty] using hp), if_neg hg]

end

theorem BellReady.group_ne {g p z n : Nat} {s : State} (h : BellReady g p z n s) : s.group g ≠ 0 := fun h0 => by
  have hb := congrArg (fun m : ZoneSet => m.getLsbD z) (h.group.symm.trans h0)
  simp [h.zone.range] at hb

/-- R91: a push rings its bell at level 6. -/
theorem push_rings {s : State} {k g p z n : Nat} (hc : Counts s) (hk : k < 12) (hl : s.pu.lastPush.getD k none = none) (hr : BellReady g p z n s) :
    Turned k .closed [.za, .pu] s (bellPush k g p (s.begin.upd (State.valued k .closed))).close
      ∧ BellStarted n z p 6 (.push k) s (bellPush k g p (s.begin.upd (State.valued k .closed))).close
      ∧ (bellPush k g p (s.begin.upd (State.valued k .closed))).close.pu.lastPush = s.pu.lastPush.set k (some n) := by
  have hu : BellReady g p z n (s.started.valued k .closed) := hr.of_blocks rfl rfl
  obtain ⟨d, x, fs, hle, hw, hlv, h2⟩ := ((amid_valued s k .closed).bellStart_ready (src := .push k) (level := 6) (df := 0) (du := 30) hu).bell_sounds hu
  rw [bellPush_rings (c := s.begin.upd (State.valued k .closed)) hl hu.pattern hu.group_ne]
  have hd := h2.leaves hle (by decide)
  refine ⟨turned_of hc hk (hd.input.trans rfl) (SameBut.of_only ?_ hd), (bellStarted_of hu hw hlv hd).of_blocks rfl rfl, (congrArg PatternUnit.lastPush hd.pu).trans rfl⟩
  exact ⟨fun _ => rfl, fun _ => rfl, fun _ => rfl, fun k => (k (by decide)).elim, fun k => (k (by decide)).elim, fun _ => rfl, fun _ => rfl,
    fun _ => rfl, fun _ => rfl, fun k => (k (by decide)).elim⟩

/-! ### Drill keys -/

/-- R127: what refuses a start. -/
theorem drillRefusal_eq (s : State) (n : Nat) : drillRefusal s n =
    if (s.dc.records.getD n DrillRec.undefined).defined = false then some .badParameter else if s.tb.campus = none then some .notReady
      else if s.dc.fireActive = true ∨ s.dc.silenceHeld = true then some .fireActive else if s.dc.active ≠ none then some .busy else none := by
  unfold drillRefusal
  cases (s.dc.records.getD n DrillRec.undefined).defined <;> cases s.tb.campus <;> cases s.dc.active <;> simp

/-- R127, R179: a drill key starts its drill. -/
theorem key_starts {s : State} {k n z : Nat} (hc : Counts s) (hk : k < 12) (hn : drillRefusal s n = none)
    (ht : (s.dc.records.getD n DrillRec.undefined).tone = false) (hz : drillZones s (s.dc.records.getD n DrillRec.undefined) = [z]) (hf : FreeZone z s)
    (hq : NoWaiters s) : ∃ t, (drillAsk (.key k) n (s.begin.upd (State.valued k .closed))).close = t ∧ Turned k .closed [.za, .dc] s t
      ∧ t.zoneState z = .evac ∧ (∀ y, y ≠ z → t.zone y = s.zone y) ∧ ∃ d h, t.dc = { s.dc with active := some d } ∧ d.num = n
        ∧ d.phase = .sounding ∧ d.origin = .key k ∧ d.start = s.elapsed ∧ (t.zone z).holder = some h ∧ h.who = .drill n := by
  have hx : drillAsk (.key k) n (s.begin.upd (State.valued k .closed)) = drillStart (.key k) n (s.begin.upd (State.valued k .closed)) := by
    unfold drillAsk
    rw [show drillRefusal (s.begin.upd (State.valued k .closed)).st n = none from hn]
  have h1 := (amid_valued s k .closed).drillStart (num := n) ht (.key k)
  rw [show drillZones (s.started.valued k .closed) ((s.started.valued k .closed).dc.records.getD n DrillRec.undefined) = [z] from hz] at h1
  obtain ⟨e, fs, hl, -, h2⟩ := h1.drill_starts rfl (hf.of_za rfl) (hq.of_za rfl)
  have hd := h2.leaves hl (by decide)
  have hlen : z < s.za.zones.length := lt_of_lt_of_eq hf.range hf.counted.symm
  have hzone := fun y => (congrFun hd.zone y).trans (heldAs_zone (s := s.started.valued k .closed) hlen y)
  have hown := (hzone z).trans (if_pos rfl)
  refine ⟨_, congrArg Ctx.close hx, turned_of hc hk (hd.input.trans rfl) (SameBut.of_only ?_ hd), ?_, fun y hy => (hzone y).trans (if_neg hy), _, _,
    hd.dc, rfl, rfl, rfl, rfl, congrArg ZoneDyn.holder hown, rfl⟩
  · exact ⟨fun _ => rfl, fun _ => rfl, fun _ => rfl, fun k => (k (by decide)).elim, fun _ => rfl, fun _ => rfl, fun k => (k (by decide)).elim,
      fun _ => rfl, fun _ => rfl, fun k => (k (by decide)).elim⟩
  · exact zoneState_of_drill ((congrArg ZoneRec.enabled (congrFun hd.zoneRec z)).trans hf.enabled) (congrArg ZoneDyn.holder hown) rfl

/-! ### Clear reports -/

/-- R132: a building's clear report. -/
def reportClear (b : Nat) (src : ClearSource) (t : Nat) (d : ActiveDrill) : ActiveDrill :=
  { d with buildings := d.buildings.map fun e => if e.building = b then { e with clear := some t, source := some src } else e }

section
variable {c : Ctx} {b : Nat} {src : ClearSource} {d : ActiveDrill}

/-- R132: with no drill, or from a building that is not awaited, a report does nothing. -/
theorem clearReport_ignored (h : ∀ d, c.st.dc.active = some d → ∀ e, d.buildings.find? (·.building == b) = some e → e.clear ≠ none) :
    clearReport b src c = c := by
  unfold clearReport
  split
  · rfl
  · next d hd =>
    split
    · rfl
    · next e he => exact if_pos (Option.isSome_iff_ne_none.2 (h d hd e he))

/-- R132: a report clears its building; the last one ends SOUNDING. -/
theorem clearReport_clears {u : State} {as : List Ans} {ws : List Work} (h : Amid u as ws c) (hd : u.dc.active = some d) {e : DrillBuilding}
    (he : d.buildings.find? (·.building == b) = some e) (hn : e.clear = none) :
    Amid (u.drillAs (reportClear b src (u.elapsed - d.start) d)) as (ws ++ if d.phase = .sounding ∧ ∀ x, x ∈ d.buildings → x.building ≠ b → x.clear ≠ none then
      [.soundingEnd .allCleared] else []) (clearReport b src c) := by
  unfold clearReport
  rw [h.state.dc, hd]
  dsimp only
  rw [he]
  dsimp only
  rw [if_neg (show ¬ e.clear.isSome = true by simp [hn]), h.state.elapsed]
  have h1 := fun n => (h.setDrill hd (reportClear b src (u.elapsed - d.start))).record n
  have hlast : (d.phase = .sounding && d.buildings.all fun x => x.clear.isSome || x.building = b) = true
      ↔ d.phase = .sounding ∧ ∀ x, x ∈ d.buildings → x.building ≠ b → x.clear ≠ none := by
    simp only [Bool.and_eq_true, decide_eq_true_eq, List.all_eq_true, Bool.or_eq_true, Option.isSome_iff_ne_none]
    exact and_congr_right fun _ => forall_congr' fun x => forall_congr' fun _ => by tauto
  by_cases hl : d.phase = .sounding ∧ ∀ x, x ∈ d.buildings → x.building ≠ b → x.clear ≠ none
  · rw [if_pos hl, if_pos (hlast.2 hl)]
    exact (h1 _).call _
  · rw [if_neg hl, if_neg fun k => hl (hlast.1 k), List.append_nil]
    exact h1 _

end

/-- R132: a clear report that does not end SOUNDING. -/
theorem marshal_clears {s : State} {k b : Nat} {d : ActiveDrill} {e : DrillBuilding} (hc : Counts s) (hk : k < 12) (hd : s.dc.active = some d)
    (he : d.buildings.find? (·.building == b) = some e) (hn : e.clear = none)
    (hl : ¬ (d.phase = .sounding ∧ ∀ x, x ∈ d.buildings → x.building ≠ b → x.clear ≠ none)) :
    ∃ t, (clearReport b (.input k) (s.begin.upd (State.valued k .closed))).close = t ∧ Turned k .closed [.dc] s t
      ∧ t.dc = { s.dc with active := some (reportClear b (.input k) (s.elapsed - d.start) d) } := by
  have h1 := clearReport_clears (b := b) (src := .input k) (amid_valued s k .closed) hd he hn
  rw [if_neg hl] at h1
  have hk1 := h1.close
  refine ⟨_, rfl, turned_of hc hk (hk1.input.trans rfl) (SameBut.of_only ?_ hk1), hk1.dc⟩
  exact ⟨fun _ => rfl, fun _ => rfl, fun _ => rfl, fun _ => rfl, fun _ => rfl, fun _ => rfl, fun k => (k (by decide)).elim, fun _ => rfl, fun _ => rfl,
    fun k => (k (by decide)).elim⟩

/-- R130: the end of SOUNDING that has been asked for. -/
theorem Amid.sounding_over {u : State} {c : Ctx} {d : ActiveDrill} {k : PhaseCause} (h : Amid u [] [.soundingEnd k] c) (hd : u.dc.active = some d)
    (ht : d.tone = false) (hch : d.channel = none) (hs : ∀ e, e ∈ d.zones → (u.zoneRec e.zone).sounds = false) :
    ∃ e zs, Leads 4 c e ∧ Amid ((u.zonesTo zs u.za.feeds).drillAs { quietedDrill d with phase := .evacuating }) [] [] e := by
  obtain ⟨zs, -, -, h2⟩ := h.alone.soundingEnd hd (fun x hx _ _ _ => hs x hx) k
  obtain ⟨e1, hl1, h3⟩ := h.takesCall h2
  obtain ⟨e2, hl2, h4⟩ := h3.sounded (d := quietedDrill d) rfl ht hch
  exact ⟨e2, zs, hl1.trans hl2, h4⟩

/-- R132, R130: the last clear report ends SOUNDING. -/
theorem marshal_ends {s : State} {k b : Nat} {d : ActiveDrill} {e : DrillBuilding} (hc : Counts s) (hk : k < 12) (hd : s.dc.active = some d)
    (he : d.buildings.find? (·.building == b) = some e) (hn : e.clear = none)
    (hl : d.phase = .sounding ∧ ∀ x, x ∈ d.buildings → x.building ≠ b → x.clear ≠ none) (ht : d.tone = false) (hch : d.channel = none)
    (hs : ∀ e, e ∈ d.zones → (s.zoneRec e.zone).sounds = false) :
    ∃ t, (clearReport b (.input k) (s.begin.upd (State.valued k .closed))).close = t ∧ Turned k .closed [.dc, .za] s t
      ∧ t.dc = { s.dc with active := some { reportClear b (.input k) (s.elapsed - d.start) d with
        phase := .evacuating, zones := d.zones.map fun e => { e with cad := none } } } := by
  have h1 : Amid ((s.started.valued k .closed).drillAs (reportClear b (.input k) (s.elapsed - d.start) d)) [] [.soundingEnd .allCleared]
      (clearReport b (.input k) (s.begin.upd (State.valued k .closed))) := by
    have h0 := clearReport_clears (b := b) (src := .input k) (amid_valued s k .closed) hd he hn
    rwa [if_pos hl] at h0
  generalize clearReport b (.input k) (s.begin.upd (State.valued k .closed)) = c at h1 ⊢
  obtain ⟨e2, zs, hl2, h4⟩ := h1.sounding_over rfl ht hch fun x hx => hs x hx
  have hk1 := h4.leaves hl2 (by decide)
  have hin : c.close.input = (s.valued k .closed).input := hk1.input
  exact ⟨_, rfl, turned_of hc hk hin ((sameBut_io_dc_za rfl).of_only hk1), hk1.dc⟩

/-! ### Live sources -/

/-- The announcement is the only one. -/
theorem pttChanged_one {c : Ctx} {n : Nat} {a : Ann} (h : c.st.au.anns = [a]) : pttChanged n c = pttFor a.num n c := by
  unfold pttChanged
  rw [h]
  rfl

/-- An announcement's PTT inputs, when it is the only one. -/
theorem ann_of_only {s : State} {a : Ann} (h : s.au.anns = [a]) : s.ann? a.num = some a := by
  unfold State.ann?
  rw [h]
  simp

/-- The only announcement is another. -/
def State.annOnly (a : Ann) (s : State) : State := { s with au := { s.au with anns := [a] } }

theorem State.annOnly_self {s : State} {a : Ann} (h : s.au.anns = [a]) : s.annOnly a = s := by
  unfold State.annOnly
  rw [← h]

theorem setAnn_of_only {s : State} {a : Ann} (h : s.au.anns = [a]) (f : Ann → Ann) : s.setAnn a.num f = s.annOnly (f a) := by
  unfold State.setAnn State.annOnly
  rw [h]
  simp

section
variable {c : Ctx} {a : Ann} {n : Nat} (h : c.st.au.anns = [a]) (hl : a.source = .live n) (he : a.st ≠ .ending)
include h hl he

/-- R122: a PTT input's closing has its live source talking. -/
theorem ptt_closes (hp : c.st.pttClosed n = true) : pttChanged n c = c.upd fun s => s.annOnly (match a.talk with
    | some .beforeTalk => { a with talk := some .talking, noTalkAt := none }
    | some .tail => { a with talk := some .talking, tailEnd := none }
    | _ => a) := by
  have hid : c = c.upd fun s => s.annOnly a := congrArg (fun st : State => { c with st := st }) (State.annOnly_self h).symm
  rw [pttChanged_one h, pttFor, ann_of_only h]
  dsimp only
  rw [if_neg (by simp [hl, he]), hp]
  cases ht : a.talk with
  | none => exact hid
  | some x =>
    cases x with
    | beforeTalk => exact congrArg (fun st : State => { c with st := st }) (setAnn_of_only h _)
    | tail => exact congrArg (fun st : State => { c with st := st }) (setAnn_of_only h _)
    | talking => exact hid
    | ended => exact hid

/-- R122: the tail of a live source begins. -/
def tailTo (e : Nat) (a : Ann) : Ann := { a with talk := some .tail, tailEnd := some e }

/-- R122: the last opening of a live source's PTT inputs begins its tail. -/
theorem ptt_opens (hp : c.st.pttClosed n = false) (ht : a.talk = some .talking) {ch : Nat} (hch : a.channel = some ch)
    (h0 : (c.st.channel ch).cfg.liveTail ≠ 0) : pttChanged n c = c.upd fun s => s.annOnly
      (tailTo (c.st.elapsed + (c.st.channel ch).cfg.liveTail) a) := by
  rw [pttChanged_one h, pttFor, ann_of_only h]
  dsimp only
  rw [if_neg (by simp [hl, he]), hp, ht, hch]
  dsimp only
  rw [if_neg h0]
  exact congrArg (fun st : State => { c with st := st }) (setAnn_of_only h (tailTo _))

end

end Sys2Proof.Machine
end

