-- ==== Sys2Proof/Proofs/HandedOn.lean ====
section
/-! SUPPORT. O60: the debounced values that are handed on, and the fire input's supervision. -/

namespace Sys2Proof.Machine
open Sys2Proof

/-! ### The fire input -/

/-- R139: fire is no longer active. -/
def State.fireInactive (s : State) : State := { s with dc := { s.dc with fireActive := false } }

/-- R79: fire is no longer reported. -/
def State.fireUnreported (s : State) : State := { s with za := { s.za with fireReported := false } }

theorem fireAlarmOff_stands {u : State} {as : List Ans} {ws : List Work} {c : Ctx} (h : Stands u as ws c) :
    Stands u.fireInactive.fireUnreported as ws (fireAlarmOff c) :=
  ((h.upd (f := State.fireInactive) ⟨fun _ _ => rfl, fun _ _ => rfl⟩).mirrorFire.record _).upd (f := State.fireUnreported) ⟨fun _ _ => rfl, fun _ _ => rfl⟩

/-- R183: the class of the fire input's wiring follows its supervision. -/
theorem superviseFire_trouble {c : Ctx} {b : Bool} (hf : c.st.io.inFunc 11 = .fireAlarm) (hn : c.st.io.fireOpen ≠ b) :
    (superviseFire b c).st.io.trouble.getLsbD 5 = b := by
  obtain ⟨ri, he, hl⟩ := updateTrouble_eq (c.st.fireOpenTo b)
  unfold superviseFire
  rw [if_neg hn]
  show ((c.st.fireOpenTo b).updateTrouble).io.trouble.getLsbD 5 = b
  rw [he]
  show (State.troubleNow (c.st.fireOpenTo b)).getLsbD 5 = b
  unfold State.troubleNow
  dsimp only
  rw [withBit_getLsbD _ (by decide), if_pos rfl, show (c.st.fireOpenTo b).io.inFunc 11 = .fireAlarm from hf]
  rfl

section
variable {s : State} (hf : s.io.inFunc 11 = .fireAlarm)
include hf

/-- What the fire input's supervision leaves. -/
theorem supervised {b : Bool} {c : Ctx} (hx : c = superviseFire b s.begin) :
    c.close.input 11 = s.input 11 ∧ c.close.io.fireOpen = b ∧ SameBut [.io] s c.close ∧ (s.io.fireOpen ≠ b → c.close.io.trouble.getLsbD 5 = b) := by
  have h1 := superviseFire_stands (stands_begin s) b
  rw [hx, close_done h1.ans h1.todo]
  have hal := h1.alike
  refine ⟨congrFun hal.input 11, ?_, (sameBut_io (by decide) rfl).of_alike hal (by decide), fun hn => superviseFire_trouble hf hn⟩
  rw [hal.eq]
  rfl

variable (ho : (s.holdOf 11).since + ((s.holdOf 11).time : Int) ≤ (s.elapsed : Int))
include ho

/-- R178: a HIGH IMPEDANCE reading of the fire input is no value. -/
theorem debounced_highZ (hz : (s.input 11).reading = .highZ) : debounced 11 s.begin = superviseFire true s.begin := by
  unfold debounced
  dsimp only
  rw [if_neg, if_pos (show isFireInput s.begin.st 11 = true from (isFireInput_iff _ _).2 ⟨rfl, hf⟩), show (s.begin.st.input 11).reading = .highZ from hz]
  rw [show s.begin.st.io.inFunc 11 = .fireAlarm from hf, show (s.begin.st.holdOf 11).over s.begin.st.elapsed = true from (over_iff _ _).2 ho]
  decide

/-- R139: the fire input's opening ends the report of fire. -/
theorem fire_opens (hc : Counts s) (hr : (s.input 11).reading = .opened) (hv : (s.input 11).value = some .closed) :
    Turned 11 .opened [.dc, .za] s (debounced 11 s.begin).close ∧ (debounced 11 s.begin).close.io.fireOpen = false
      ∧ (debounced 11 s.begin).close.dc = { s.dc with fireActive := false } ∧ (debounced 11 s.begin).close.za = { s.za with fireReported := false } := by
  have h1 := superviseFire_stands (stands_begin s) false
  rw [debounced_begin_fire ho ⟨rfl, hf⟩ (by rw [hr]; exact nofun), hr, if_neg (by decide),
    setValue_of_change (w := .closed) (by rw [h1.alike.input]; exact hv) (by decide)]
  have hu := h1.upd (plain_valued 11 .opened)
  unfold handOn
  rw [hu.alike.inFunc, valued_inFunc, show (s.started.fireOpenTo false).io.inFunc 11 = .fireAlarm from hf]
  have h2 := fireAlarmOff_stands hu
  have hal := h2.alike
  dsimp only
  rw [close_done h2.ans h2.todo]
  refine ⟨turned_of hc (by decide) hal.input ((sameBut_io_dc_za rfl).of_alike hal (by decide)), ?_, hal.dc, hal.za⟩
  rw [hal.eq]
  rfl

end

/-! ### The obligation -/

theorem pttClosed_of {s : State} {k n : Nat} (hk : k < 12) (hf : s.io.inFunc k = .ptt n) (hv : (s.input k).value = some .closed) : s.pttClosed n = true :=
  List.any_eq_true.2 ⟨k, List.mem_range.2 hk, by simp [hf, hv]⟩

theorem pttClosed_of_none {s : State} {n : Nat} (h : ∀ j, s.io.inFunc j = .ptt n → (s.input j).value ≠ some .closed) : s.pttClosed n = false := by
  unfold State.pttClosed
  rw [List.any_eq_false]
  exact fun j _ => by simpa using h j

/-- R185: an input's first value while the part settles. -/
theorem exec_debounced_settling {s : State} {k : Nat} (hm : s.supply.main = true) (hs : s.supply.settling = true) (hk : k ≠ 11) (hv : (s.input k).value = none) :
    exec (.debouncedValueChange k) s = .next (debounced k s.begin).close :=
  congrArg Host.Outcome.next (if_pos (by simp [State.takesFirstValue, State.settlingNow, hm, hs, hk, hv]))

theorem exec_debounced_settled {s : State} {k : Nat} (hs : s.supply.settling = true) (hv : (s.input k).value ≠ none) :
    exec (.debouncedValueChange k) s = .next s := by
  obtain ⟨v, hv⟩ := Option.ne_none_iff_exists'.1 hv
  refine congrArg Host.Outcome.next ((if_neg (by simp [State.takesFirstValue, hv])).trans (if_neg ?_))
  simp [State.running, hs]

/-- R179: what a closed input sets off by its function. -/
theorem handOn_closed {k : Nat} {c : Ctx} :
    (∀ g p, c.st.io.inFunc k = .bellPush g p → handOn k .closed c = bellPush k g p c)
    ∧ (∀ b, c.st.io.inFunc k = .marshalClear b → handOn k .closed c = clearReport b (.input k) c)
    ∧ ∀ n, c.st.io.inFunc k = .drillKey n → handOn k .closed c = drillAsk (.key k) n c := by
  refine ⟨fun g p h => ?_, fun b h => ?_, fun n h => ?_⟩ <;> · unfold handOn; rw [h]

/-- R179: an opening is handed on to no bell, drill or building. -/
theorem handOn_opened {k : Nat} {c : Ctx} (h : (∃ g p, c.st.io.inFunc k = .bellPush g p) ∨ (∃ b, c.st.io.inFunc k = .marshalClear b)
    ∨ ∃ n, c.st.io.inFunc k = .drillKey n) : handOn k .opened c = c := by
  unfold handOn
  obtain ⟨g, p, h⟩ | ⟨b, h⟩ | ⟨n, h⟩ := h <;> rw [h]

/-- R127, R179: a drill key whose drill is refused. -/
theorem drillAsk_refused {k n : Nat} {c : Ctx} {o : Outcome} (h : drillRefusal c.st n = some o) :
    drillAsk (.key k) n c = c.record ⟨.drillNotStarted, .attention, .dc, 0, 0, dv k, dv n, dv o.code⟩ := by
  unfold drillAsk
  rw [h]
  rfl

/-- A REFERENCE input takes no value. -/
theorem debounced_reference {k : Nat} {c : Ctx} (h : c.st.io.inFunc k = .reference) : debounced k c = c := by
  unfold debounced
  dsimp only
  rw [if_pos (by simp [h])]

/-- Settles O60. -/
theorem inputsAreHandedOn : Obligations.InputsAreHandedOn := by
  unfold Obligations.InputsAreHandedOn
  intro k s hk hc fireInput hold settles i turned quiet hover
  have ho : (s.holdOf k).since + ((s.holdOf k).time : Int) ≤ (s.elapsed : Int) := by
    rw [holdOf_eq]
    exact hover
  refine ⟨fun hr hf => ?_, fun hs hv => exec_debounced_settled hs.2.1 hv, fun hrs hn hr hf hp => ?_, fun hr => ⟨_, exec_debounced hr k, ?_, ?_, ?_, ?_, ?_, ?_⟩⟩
  · rw [exec_debounced hr k, debounced_reference (c := s.begin) hf]
    exact congrArg Host.Outcome.next (close_begin s)
  · have hx : exec (.debouncedValueChange k) s = .next (debounced k s.begin).close := by
      obtain hrun | ⟨hm, hset, h11⟩ := hrs
      · exact exec_debounced hrun k
      · exact exec_debounced_settling hm hset h11 hn
    rw [hx, debounced_first hk ho hr hf hn hp]
    exact ⟨_, rfl, turned_quiet hc hk _⟩
  · rintro ⟨rfl, hf⟩ hz
    obtain ⟨h1, h2, h3, h4⟩ := supervised hf (debounced_highZ hf ho hz)
    exact ⟨h1, h2, h3, fun h => h4 (by rw [h]; decide)⟩
  · rintro ⟨rfl, hf⟩ hz hv
    have hx : debounced 11 s.begin = superviseFire false s.begin := by
      rw [debounced_begin_fire ho ⟨rfl, hf⟩ hz]
      exact setValue_of_same (by rw [(superviseFire_stands (stands_begin s) false).alike.input]; exact hv)
    obtain ⟨h1, h2, h3, h4⟩ := supervised hf hx
    exact ⟨h1, h2, h3, fun h => h4 (by rw [h]; decide)⟩
  · rintro ⟨rfl, hf⟩ ho' hv
    exact fire_opens hf ho hc ho' hv
  · intro hro hv hfun
    have hx := debounced_turns (v := .opened) hk ho (fun h => by rw [h] at hfun; simp at hfun) (fun h => by rw [h.1, h.2] at hfun; simp at hfun) (if_neg hro) hv (by decide)
    rw [hx, handOn_opened (c := s.begin.upd (State.valued k .opened)) (by
      simp only [Ctx.upd_st, valued_inFunc]
      exact hfun)]
    exact turned_quiet hc hk _
  · intro hrc hv
    have hx := fun h1 h2 => debounced_turns (s := s) (v := .closed) hk ho h1 h2 (if_pos hrc) hv (by decide)
    obtain ⟨hpush, hmar, hkey⟩ := handOn_closed (k := k) (c := s.begin.upd (State.valued k .closed))
    simp only [Ctx.upd_st, valued_inFunc] at hpush hmar hkey
    refine ⟨fun g p hf => ?_, fun b hf => ?_, fun n hf => ?_⟩
    · rw [hx (by rw [hf]; exact nofun) (fun h => by rw [h.1, h.2] at hf; cases hf), hpush g p hf]
      refine ⟨fun n hl => ?_, fun hl he => ?_, fun z n hl hrd => push_rings hc hk hl hrd⟩
      · rw [bellPush_again (c := s.begin.upd (State.valued k .closed)) hl]
        exact turned_quiet hc hk _
      · rw [bellPush_missed (c := s.begin.upd (State.valued k .closed)) hl he]
        exact turned_record hc hk _ _
    · rw [hx (by rw [hf]; exact nofun) (fun h => by rw [h.1, h.2] at hf; cases hf), hmar b hf]
      refine ⟨fun hd => ?_, fun d hd => ⟨fun hcl => ?_, fun e he hn => ⟨fun hl => ?_, fun hl ht hch hs => ?_⟩⟩⟩
      · rw [clearReport_ignored (c := s.begin.upd (State.valued k .closed)) fun d' hd' => by cases hd.symm.trans hd']
        exact turned_quiet hc hk _
      · rw [clearReport_ignored (c := s.begin.upd (State.valued k .closed)) fun d' hd' => by cases hd.symm.trans hd'; exact hcl]
        exact turned_quiet hc hk _
      · obtain ⟨t, ht, h1⟩ := marshal_clears hc hk hd he hn hl
        rw [ht]
        exact h1
      · obtain ⟨t, ht, h1⟩ := marshal_ends hc hk hd he hn hl ht hch hs
        rw [ht]
        exact h1
    · rw [hx (by rw [hf]; exact nofun) (fun h => by rw [h.1, h.2] at hf; cases hf), hkey n hf]
      refine ⟨fun o hno => ?_, fun z hno ht hz hfz hq => ?_⟩
      · rw [drillAsk_refused (c := s.begin.upd (State.valued k .closed)) ((drillRefusal_eq s n).trans hno)]
        exact turned_record hc hk _ _
      · obtain ⟨t, ht, h1⟩ := key_starts hc hk ((drillRefusal_eq s n).trans hno) ht hz hfz hq
        rw [ht]
        exact h1
  · intro a n hf hone hl he
    have href : s.io.inFunc k ≠ .reference := by rw [hf]; exact nofun
    have hfire : ¬ (k = 11 ∧ s.io.inFunc 11 = .fireAlarm) := fun h => by rw [h.1, h.2] at hf; cases hf
    refine ⟨fun hrc hv => ?_, fun ch hro hv ht hch hno h0 => ?_⟩
    · have hp : (s.begin.upd (State.valued k .closed)).st.pttClosed n = true := by
        refine pttClosed_of hk ((valued_inFunc _ _ _ _).trans hf) ?_
        exact congrArg Input.value (valued_input (s := s.started) (counts_started hc) hk .closed)
      rw [debounced_talks hk ho href hfire (if_pos hrc) hv hf, ptt_closes (c := s.begin.upd (State.valued k .closed)) hone hl he hp, close_done rfl rfl]
      refine ⟨turned_of hc hk rfl ?_, fun h => ?_, fun h => ?_, fun h => ?_⟩
      · exact ⟨fun _ => rfl, fun _ => rfl, fun _ => rfl, fun _ => rfl, fun _ => rfl, fun k => (k (by decide)).elim, fun _ => rfl, fun _ => rfl, fun _ => rfl,
          fun k => (k (by decide)).elim⟩
      all_goals
        rw [h]
        exact ⟨rfl, rfl⟩
    · have hp : (s.begin.upd (State.valued k .opened)).st.pttClosed n = false := by
        refine pttClosed_of_none fun j hj => ?_
        by_cases hjk : j = k
        · rw [hjk, show (s.begin.upd (State.valued k .opened)).st.input k = _ from valued_input (s := s.started) (counts_started hc) hk .opened]
          exact nofun
        · rw [show (s.begin.upd (State.valued k .opened)).st.input j = _ from valued_input_ne s.started hjk .opened]
          exact hno j hjk ((valued_inFunc _ _ _ _).symm.trans hj)
      rw [debounced_talks hk ho href hfire (v := .opened) (if_neg hro) (by rw [hv]; exact nofun) hf, ptt_opens (c := s.begin.upd (State.valued k .opened)) hone hl he hp ht hch h0,
        close_done rfl rfl]
      refine ⟨turned_of hc hk rfl ?_, rfl, rfl⟩
      exact ⟨fun _ => rfl, fun _ => rfl, fun _ => rfl, fun _ => rfl, fun _ => rfl, fun k => (k (by decide)).elim, fun _ => rfl, fun _ => rfl, fun _ => rfl,
        fun k => (k (by decide)).elim⟩

end Sys2Proof.Machine
end

