-- ==== Sys2Proof/Proofs/Within.lean ====
section
/-! SUPPORT. What the decision of a request leaves alone: the link, the registers and the clock, every slot but its own, the high-water mark once it is
set, and, but for SET TIME, a campus time that is UNSET. -/

namespace Sys2Proof.Machine
open Sys2Proof

-- Proofs this short are elaborated one after another; side by side, each waits in a thread of its own.
set_option Elab.async false

/-- The slots that are taken, without a request's own. -/
def takenBut (q : ReqHdr) (l : List TakenSlot) : List TakenSlot := l.filter fun t => t.q.slot != q.slot

theorem takenBut_takenBut (q : ReqHdr) (l : List TakenSlot) : takenBut q (takenBut q l) = takenBut q l := by
  simp [takenBut, List.filter_filter]

/-- What a request's operations leave alone; `given` allows them to give an UNSET part its first campus time. -/
structure Within (q : ReqHdr) (given : Prop) (s t : State) : Prop where
  kept : LinkKept s t
  taken : s.ri.link = .attached → t.ri.taken = s.ri.taken ∨ t.ri.taken = takenBut q s.ri.taken
  bound : s.ri.writeIndex < 256 → t.ri.writeIndex < 256
  outside : s.ri.link = .attached → s.ri.writeIndex < 256 → ∀ a, ¬ partArea a → ¬ (slotAt q ≤ a ∧ a < slotAt q + 64) →
    regionRead t.ri.region a = regionRead s.ri.region a
  mark : s.se.mark.isSome = true → t.se.mark.isSome = true
  campus : given ∨ (s.tb.campus = none → t.tb.campus = none)

theorem LinkKept.of_passed {s t : State} (h : Passed s t) : LinkKept s t :=
  ⟨h.elapsed, h.supply, h.run, h.intEnable, h.base, h.causeEnable, h.link, h.readMark, h.notify, h.scan⟩

section
variable {q : ReqHdr} {g : Prop}

theorem Within.of_passed {s t : State} (h : Passed s t) : Within q g s t :=
  ⟨LinkKept.of_passed h, fun _ => .inl h.taken, h.bound, fun _ hw a ha _ => h.outside hw a ha, h.mark, .inr fun hn => by rwa [h.tb]⟩

theorem Within.refl (s : State) : Within q g s s := Within.of_passed (Passed.refl s)

theorem Within.trans {s t u : State} (h : Within q g s t) (k : Within q g t u) : Within q g s u where
  kept := h.kept.trans k.kept
  taken hl := by
    have hk := k.taken (h.kept.link.trans hl)
    obtain ht | ht := h.taken hl <;> rw [ht] at hk
    · exact hk
    · exact .inr (hk.elim id fun hu => hu.trans (takenBut_takenBut q _))
  bound := k.bound ∘ h.bound
  outside hl hw a ha hs := (k.outside (h.kept.link.trans hl) (h.bound hw) a ha hs).trans (h.outside hl hw a ha hs)
  mark := k.mark ∘ h.mark
  campus := h.campus.elim .inl fun h1 => k.campus.imp id fun k1 => k1 ∘ h1

/-- A change of the blocks behind RI. -/
theorem Within.of_blocks {s t : State} (ri : t.ri = s.ri) (el : t.elapsed = s.elapsed) (su : t.supply = s.supply)
    (mark : s.se.mark.isSome = true → t.se.mark.isSome = true) (campus : g ∨ (s.tb.campus = none → t.tb.campus = none)) : Within q g s t := by
  refine ⟨⟨el, su, ?_, ?_, ?_, ?_, ?_, ?_, ?_, ?_⟩, fun _ => .inl ?_, ?_, fun _ _ _ _ _ => ?_, mark, campus⟩ <;> rw [ri]
  exact id

/-- An outcome with at most three words goes into its request's slot. -/
theorem Within.answer (s : State) (o : Outcome) {ws : List Word} (hws : ws.length ≤ 3) : Within q g s (s.answer q o ws) := by
  by_cases hl : s.ri.link = .attached
  · rw [answer_of_attached hl]
    refine ⟨linkKept_writeOutcome s q _, fun _ => .inr (writeOutcome_taken q _ s.ri), fun hw => lt_of_eq_of_lt (writeOutcome_writeIndex q _ s.ri) hw,
      fun _ _ a _ ha => writeOutcome_outside q _ s.ri ?_, id, .inr id⟩
    unfold answerBytes
    dsimp only
    omega
  · rw [show s.answer q o ws = s.setRi _ from if_neg (by simp [State.attached, hl])]
    exact ⟨⟨rfl, rfl, rfl, rfl, rfl, rfl, rfl, rfl, rfl, rfl⟩, fun h => absurd h hl, id, fun h => absurd h hl, id, .inr id⟩

end

/-- A context reached from another by the operations of a request, with no new answer of START DRILL. -/
structure CWithin (q : ReqHdr) (given : Prop) (c d : Ctx) : Prop where
  st : Within q given c.st d.st
  noStart : NoStart c.todo → NoStart d.todo

/-- A change of the other blocks that leaves H and the campus time. -/
def Aside (f : State → State) : Prop :=
  ∀ s, (f s).ri = s.ri ∧ (f s).elapsed = s.elapsed ∧ (f s).supply = s.supply ∧ (f s).se.mark = s.se.mark ∧ (f s).tb.campus = s.tb.campus

section
variable {q : ReqHdr} {g : Prop} {c0 c d : Ctx}

theorem CWithin.refl (c : Ctx) : CWithin q g c c := ⟨Within.refl _, id⟩

theorem CWithin.trans (h : CWithin q g c0 c) (k : CWithin q g c d) : CWithin q g c0 d := ⟨h.st.trans k.st, k.noStart ∘ h.noStart⟩

theorem CTurn.within (h : CTurn c d) : CWithin q g c d := ⟨Within.of_passed h.st.toPassed, h.noStart⟩

theorem CWithin.turn (h : CWithin q g c0 c) (k : CTurn c d) : CWithin q g c0 d := h.trans k.within

theorem CWithin.upd (h : CWithin q g c0 c) {f : State → State} (hf : Within q g c.st (f c.st)) : CWithin q g c0 (c.upd f) := ⟨h.st.trans hf, h.noStart⟩

theorem CWithin.aside (h : CWithin q g c0 c) {f : State → State} (hf : Aside f := by exact fun _ => ⟨rfl, rfl, rfl, rfl, rfl⟩) : CWithin q g c0 (c.upd f) := by
  obtain ⟨ri, el, su, mk, ca⟩ := hf c.st
  exact h.upd (Within.of_blocks ri el su (by rw [mk]; exact id) (.inr (by rw [ca]; exact id)))

theorem CWithin.answer (h : CWithin q g c0 c) {o : Outcome} {ws : List Word} (hws : ws.length ≤ 3 := by exact of_decide_eq_true rfl) : CWithin q g c0 (c.upd (State.answer q o ws)) :=
  h.upd (Within.answer _ o hws)

theorem CWithin.refuse (h : CWithin q g c0 c) {o : Outcome} : CWithin q g c0 (c.upd (State.refuse q o)) := h.answer (Nat.zero_le 3)

theorem CWithin.record (h : CWithin q g c0 c) (n : Note) : CWithin q g c0 (c.record n) := h.turn (record_cturn (CTurn.refl c))

theorem CWithin.ask (h : CWithin q g c0 c) (a : Access) : CWithin q g c0 (c.upd (State.ask a)) := h.turn (upd_ask_cturn (CTurn.refl c))

theorem CWithin.trouble (h : CWithin q g c0 c) : CWithin q g c0 (c.upd State.updateTrouble) := h.turn (upd_trouble_cturn (CTurn.refl c))

theorem CWithin.call (h : CWithin q g c0 c) {ws : List Work} (hw : NoStart ws) : CWithin q g c0 (c.call ws) :=
  ⟨h.st, fun hn r n hm => (List.mem_append.1 hm).elim (h.noStart hn r n) (hw r n)⟩

theorem CWithin.each {α : Type} {f : α → Ctx → Ctx} (h : CWithin q g c0 c) (hf : ∀ x d, CWithin q g d (f x d)) (l : List α) :
    CWithin q g c0 (Ctx.each f l c) := by
  induction l generalizing c with
  | nil => exact h
  | cons x l ih => exact ih (h.trans (hf x c))

theorem CWithin.ite {p : Prop} [Decidable p] {e : Ctx} (h : p → CWithin q g c0 d) (k : ¬ p → CWithin q g c0 e) : CWithin q g c0 (if p then d else e) := by
  split
  · next hp => exact h hp
  · next hp => exact k hp

end

end Sys2Proof.Machine
end

