-- ==== Sys2Proof/Proofs/LoadsWithin.lean ====
section
/-! SUPPORT. The loads of the tables and the schedule switch leave alone what a request's operations leave alone (`CWithin`). -/

namespace Sys2Proof.Machine
open Sys2Proof

-- Proofs this short are elaborated one after another; side by side, each waits in a thread of its own.
set_option Elab.async false

section
variable {g : Prop} {c : Ctx}

/-! ### What every load shares -/

theorem beginLoad_within {q : ReqHdr} {c0 : Ctx} {t : TableCode} {n : Nat} {finish : Ctx → Ctx} (h : CWithin q g c0 c)
    (hf : ∀ d, CWithin q g d (finish d)) : CWithin q g c0 (beginLoad t n finish c) :=
  CWithin.ite (fun _ => h.trans (hf c)) fun _ => h.ask _

/-- A staged record leaves its load's request. -/
theorem step_cases {α : Type} (l : Load α) (size : Nat) (r : Option (α × Bool)) : (∃ i, l.step size r = .fault i)
    ∨ (∃ x, l.step size r = .more x ∧ x.q = l.q) ∨ ∃ x, l.step size r = .done x ∧ x.q = l.q := by
  unfold Load.step
  cases r with
  | none => exact .inl ⟨_, rfl⟩
  | some x =>
    dsimp only
    split
    · exact .inr (.inr ⟨_, rfl, rfl⟩)
    · exact .inr (.inl ⟨_, rfl, rfl⟩)

theorem loadRecord_within {α : Type} {t : TableCode} {l : Load α} {size : Nat} {r : Option (α × Bool)} {put : Option (Load α) → State → State}
    {finish : Load α → Ctx → Ctx} (hp : ∀ x, Aside (put x)) (hf : ∀ x d, CWithin x.q g d (finish x d)) :
    CWithin l.q g c (loadRecord t l size r put finish c) := by
  unfold loadRecord
  obtain ⟨i, h⟩ | ⟨x, h, -⟩ | ⟨x, h, hq⟩ := step_cases l size r <;> rw [h]
  · exact ((CWithin.refl c).aside (hp _)).answer
  · exact ((CWithin.refl c).aside (hp _)).ask _
  · exact hq ▸ hf x c

/-! ### The ends of the loads -/

theorem finishProfiles_within {l : Load Profile} : CWithin l.q g c (finishProfiles l c) := (((CWithin.refl c).aside.aside).record _).answer

theorem finishCalendar_within {l : Load Span} : CWithin l.q g c (finishCalendar l c) := (((CWithin.refl c).aside.aside).record _).answer

theorem finishZones_within {l : Load ZoneRec} : CWithin l.q g c (finishZones l c) :=
  CWithin.ite (fun _ => (((CWithin.refl c).aside.aside).record _).answer) fun _ => ((CWithin.refl c).aside).refuse

theorem finishGroups_within {l : Load ZoneSet} : CWithin l.q g c (finishGroups l c) :=
  CWithin.ite (fun _ => (((CWithin.refl c).aside.aside).record _).answer) fun _ => ((CWithin.refl c).aside).refuse

theorem finishPatterns_within {l : Load Pattern} : CWithin l.q g c (finishPatterns l c) :=
  CWithin.ite (fun _ => ((CWithin.refl c).aside).refuse) fun _ =>
    ((((CWithin.refl c).aside.aside).record _).turn (versionChanged_cturn (CTurn.refl _))).answer

theorem finishChannels_within {l : Load ChannelSet} : CWithin l.q g c (finishChannels l c) :=
  CWithin.ite (fun _ => ((CWithin.refl c).aside).refuse) fun _ => (((CWithin.refl c).aside.aside).record _).answer

theorem finishDrills_within {l : Load DrillRec} : CWithin l.q g c (finishDrills l c) :=
  CWithin.ite (fun _ => ((CWithin.refl c).aside).refuse) fun _ => (((CWithin.refl c).aside.aside).record _).answer

theorem applyCircuit_within {q : ReqHdr} {i : Nat} {new : CircuitSet} : CWithin q g c (applyCircuit i new c) := by
  have h : CWithin q g c (c.upd (State.setCircuit i fun k => { k with cfg := new })) := (CWithin.refl c).aside
  exact CWithin.ite (fun _ => h.aside.turn (circuitBecomes_cturn (CTurn.refl _))) fun _ =>
    CWithin.ite (fun _ => h.aside.turn (circuitBecomes_cturn (CTurn.refl _))) fun _ => h.turn (circuitPoint_cturn (CTurn.refl _))

theorem finishCircuits_within {l : Load CircuitSet} {tolerance : Nat} : CWithin l.q g c (finishCircuits l tolerance c) := by
  refine ((CWithin.each ((CWithin.refl c).aside.aside) (fun i d => ?_) _).record _).answer
  split <;> exact applyCircuit_within

theorem cycleBegins_cturn {ln : Nat} {c0 : Ctx} (h : CTurn c0 c) : CTurn c0 (cycleBegins ln c) :=
  settleLine_cturn (pollNext_cturn (upd_setLine_cturn h))

theorem firstPath_cturn {ln : Nat} {p : Path} {r : PathCond} {c0 : Ctx} (h : CTurn c0 c) : CTurn c0 (firstPath ln p r c) := by
  unfold firstPath
  dsimp only
  split
  · exact upd_setLine_cturn h
  · exact record_cturn (upd_setLine_cturn h)

theorem applyThreshold_cturn {ln : Nat} {c0 : Ctx} (h : CTurn c0 c) : CTurn c0 (applyThreshold ln c) :=
  each_cturn (fun n c0 c h => by
    split
    · exact enterFaulted_cturn h
    · exact h) h

theorem applyLine_within {q : ReqHdr} {ln : Nat} {new : LineCfg} {r : PathPair} : CWithin q g c (applyLine ln new r c) := by
  have h : CTurn c (c.upd (State.setLine ln (Line.configured new))) := upd_setLine_cturn (CTurn.refl c)
  unfold applyLine
  dsimp only
  split
  · exact (applyThreshold_cturn h).within
  · exact (lineChanged_cturn h).within
  · exact (cycleBegins_cturn (upd_setLine_cturn (lineChanged_cturn (firstPath_cturn (firstPath_cturn h))))).within
  · exact h.within

theorem finishLines_within {paths : List PathPair} {l : Load LineCfg} : CWithin l.q g c (finishLines paths l c) :=
  ((CWithin.each ((CWithin.refl c).aside) (fun _ _ => applyLine_within) _).record _).answer

theorem applyMember_within {q : ReqHdr} {ln : Nat} {n : Node} : CWithin q g c (applyMember ln n c) :=
  CWithin.ite (fun _ => CWithin.refl c) fun _ => CWithin.ite
    (fun _ => ((CWithin.refl c).turn (upd_setNode_cturn (CTurn.refl c))).turn (offerConfigure_cturn (CTurn.refl _)))
    fun _ => (upd_setNode_cturn (CTurn.refl c)).within

theorem finishMembers_within {l : Load Member} : CWithin l.q g c (finishMembers l c) :=
  CWithin.ite (fun _ => ((CWithin.each ((CWithin.refl c).aside.aside) (fun _ d => (CWithin.refl d).each (fun _ _ => applyMember_within) _) _).record _).answer)
    fun _ => ((CWithin.refl c).aside).refuse

theorem fireAlarmOff_within {q : ReqHdr} : CWithin q g c (fireAlarmOff c) :=
  ((((CWithin.refl c).aside (f := fun s => { s with dc := { s.dc with fireActive := false } })).upd
    (Within.of_passed (mirrorFire_turn _).toPassed)).record _).aside (f := fun s => { s with za := { s.za with fireReported := false } })

/-- R180: a closed input leaves its function. -/
def leaveFunc (old : InFunc) (c : Ctx) : Ctx :=
  match old with
  | .ptt n => pttChanged n c
  | .fireAlarm => fireAlarmOff c
  | _ => c

/-- R180: a closed input enters its function. -/
def enterFunc (new : InFunc) (c : Ctx) : Ctx :=
  match new with
  | .ptt n => pttChanged n c
  | .fireAlarm => fireAlarmOn c
  | _ => c

theorem inputRefunction_eq (k : Nat) (old : InFunc) (c : Ctx) : inputRefunction k old c =
    if old = c.st.io.inFunc k then c else
      let c1 := if (c.st.input k).value = some .closed then leaveFunc old c else c
      let c2 := if (c.st.input k).value = some .closed then enterFunc (c.st.io.inFunc k) c1 else c1
      if c.st.io.inFunc k = .reference then c2.upd (State.setInput k fun i => { i with value := none }) else c2 := rfl

theorem leaveFunc_within {q : ReqHdr} {old : InFunc} : CWithin q g c (leaveFunc old c) := by
  unfold leaveFunc
  split
  · exact (pttChanged_cturn (CTurn.refl c)).within
  · exact fireAlarmOff_within
  · exact CWithin.refl c

theorem enterFunc_within {q : ReqHdr} {new : InFunc} : CWithin q g c (enterFunc new c) := by
  unfold enterFunc
  split
  · exact (pttChanged_cturn (CTurn.refl c)).within
  · exact (fireAlarmOn_cturn (CTurn.refl c)).within
  · exact CWithin.refl c

theorem inputRefunction_within {q : ReqHdr} {k : Nat} {old : InFunc} : CWithin q g c (inputRefunction k old c) := by
  rw [inputRefunction_eq]
  refine CWithin.ite (fun _ => CWithin.refl c) fun _ => ?_
  have h1 : CWithin q g c (if (c.st.input k).value = some .closed then leaveFunc old c else c) :=
    CWithin.ite (fun _ => leaveFunc_within) fun _ => CWithin.refl c
  have h2 : CWithin q g c (if (c.st.input k).value = some .closed then enterFunc (c.st.io.inFunc k)
      (if (c.st.input k).value = some .closed then leaveFunc old c else c) else (if (c.st.input k).value = some .closed then leaveFunc old c else c)) :=
    CWithin.ite (fun _ => h1.trans enterFunc_within) fun _ => h1
  exact CWithin.ite (fun _ => h2.aside) fun _ => h2

theorem finishIo_within {l : IoLoad} {pair : Bool} {mask : BitVec 6} : CWithin l.q g c (finishIo l pair mask c) :=
  (((((CWithin.refl c).aside.aside).record _).each (fun _ _ => inputRefunction_within) _).trouble).answer

theorem finishSwitch_within {w : Switch} : CWithin w.load.q g c (finishSwitch w c) := by
  unfold finishSwitch
  dsimp only
  split
  · exact (((CWithin.refl c).aside.aside).record _).answer
  · split
    · exact ((CWithin.refl c).aside).refuse
    · exact (((CWithin.refl c).aside.aside).record _).answer

/-! ### The requests of the loads -/

section
variable {q : ReqHdr} {count offset : Nat}

theorem decideLoadProfiles_within : CWithin q g c (decideLoadProfiles q count offset c) := by
  unfold decideLoadProfiles
  split
  · exact (CWithin.refl c).refuse
  · exact beginLoad_within ((CWithin.refl c).aside) fun _ => finishProfiles_within (l := Load.start q offset count)

theorem decideLoadCalendar_within : CWithin q g c (decideLoadCalendar q count offset c) := by
  unfold decideLoadCalendar
  split
  · exact (CWithin.refl c).refuse
  · exact beginLoad_within ((CWithin.refl c).aside) fun _ => finishCalendar_within (l := Load.start q offset count)

theorem decideLoadZones_within : CWithin q g c (decideLoadZones q count offset c) := by
  unfold decideLoadZones
  split
  · exact (CWithin.refl c).refuse
  · exact beginLoad_within ((CWithin.refl c).aside) fun _ => finishZones_within (l := Load.start q offset count)

theorem decideLoadGroups_within : CWithin q g c (decideLoadGroups q count offset c) := by
  unfold decideLoadGroups
  split
  · exact (CWithin.refl c).refuse
  · exact beginLoad_within ((CWithin.refl c).aside) fun _ => finishGroups_within (l := Load.start q offset count)

theorem decideLoadPatterns_within : CWithin q g c (decideLoadPatterns q count offset c) := by
  unfold decideLoadPatterns
  split
  · exact (CWithin.refl c).refuse
  · exact beginLoad_within ((CWithin.refl c).aside) fun _ => finishPatterns_within (l := Load.start q offset count)

theorem decideLoadChannels_within : CWithin q g c (decideLoadChannels q count offset c) := by
  unfold decideLoadChannels
  split
  · exact (CWithin.refl c).refuse
  · exact beginLoad_within ((CWithin.refl c).aside) fun _ => finishChannels_within (l := Load.start q offset count)

theorem decideLoadDrills_within : CWithin q g c (decideLoadDrills q count offset c) := by
  unfold decideLoadDrills
  split
  · exact (CWithin.refl c).refuse
  · exact beginLoad_within ((CWithin.refl c).aside) fun _ => finishDrills_within (l := Load.start q offset count)

theorem decideLoadCircuits_within {tolerance : Nat} : CWithin q g c (decideLoadCircuits q count offset tolerance c) := by
  unfold decideLoadCircuits
  split
  · exact (CWithin.refl c).refuse
  · exact beginLoad_within ((CWithin.refl c).aside) fun _ => finishCircuits_within (l := Load.start q offset count)

theorem decideLoadLines_within : CWithin q g c (decideLoadLines q count offset c) := by
  unfold decideLoadLines
  split
  · exact (CWithin.refl c).refuse
  · exact beginLoad_within ((CWithin.refl c).aside) fun _ => finishLines_within (l := Load.start q offset count)

theorem decideLoadMembers_within : CWithin q g c (decideLoadMembers q count offset c) := by
  unfold decideLoadMembers
  split
  · exact (CWithin.refl c).refuse
  · exact beginLoad_within ((CWithin.refl c).aside) fun _ => finishMembers_within (l := Load.start q offset count)

theorem decideLoadIo_within : CWithin q g c (decideLoadIo q offset c) :=
  CWithin.ite (fun _ => (CWithin.refl c).refuse) fun _ => CWithin.ite (fun _ => (CWithin.refl c).refuse) fun _ => ((CWithin.refl c).aside).ask _

theorem decideSwitch_within {window choice day : Nat} : CWithin q g c (decideSwitch q offset count window choice day c) := by
  unfold decideSwitch
  split
  · exact (CWithin.refl c).refuse
  · split
    · exact (CWithin.refl c).refuse
    · refine CWithin.ite (fun _ => (CWithin.refl c).refuse) fun _ => CWithin.ite (fun _ => (CWithin.refl c).refuse) fun _ =>
        CWithin.ite (fun _ => ?_) fun _ => ((CWithin.refl c).aside).ask _
      exact ((CWithin.refl c).aside (f := putSwitch _)).trans (finishSwitch_within (w := ⟨⟨q, offset, count, [], window > 900⟩, min window 900, _⟩))

end

/-! ### The staged records -/

/-- What a staged record leaves alone, for the request of its load. -/
def StagedWithin (g : Prop) (c d : Ctx) : Prop := ∃ q, CWithin q g c d

theorem StagedWithin.refl (c : Ctx) : StagedWithin g c c := ⟨⟨0, false, 0⟩, CWithin.refl c⟩

section
variable {d : List Byte}

theorem profileRead_within : StagedWithin g c (profileRead d c) := by
  unfold profileRead
  split
  · exact StagedWithin.refl c
  · exact ⟨_, loadRecord_within (fun _ _ => ⟨rfl, rfl, rfl, rfl, rfl⟩) fun _ _ => finishProfiles_within⟩

theorem calendarRead_within : StagedWithin g c (calendarRead d c) := by
  unfold calendarRead
  split
  · exact StagedWithin.refl c
  · exact ⟨_, loadRecord_within (fun _ _ => ⟨rfl, rfl, rfl, rfl, rfl⟩) fun _ _ => finishCalendar_within⟩

theorem zoneRead_within : StagedWithin g c (zoneRead d c) := by
  unfold zoneRead
  split
  · exact StagedWithin.refl c
  · exact ⟨_, loadRecord_within (fun _ _ => ⟨rfl, rfl, rfl, rfl, rfl⟩) fun _ _ => finishZones_within⟩

theorem groupRead_within : StagedWithin g c (groupRead d c) := by
  unfold groupRead
  split
  · exact StagedWithin.refl c
  · exact ⟨_, CWithin.ite (fun _ => ((CWithin.refl c).aside).refuse) fun _ =>
      loadRecord_within (fun _ _ => ⟨rfl, rfl, rfl, rfl, rfl⟩) fun _ _ => finishGroups_within⟩

theorem patternRead_within : StagedWithin g c (patternRead d c) := by
  unfold patternRead
  split
  · exact StagedWithin.refl c
  · exact ⟨_, loadRecord_within (fun _ _ => ⟨rfl, rfl, rfl, rfl, rfl⟩) fun _ _ => finishPatterns_within⟩

theorem channelRead_within : StagedWithin g c (channelRead d c) := by
  unfold channelRead
  split
  · exact StagedWithin.refl c
  · exact ⟨_, loadRecord_within (fun _ _ => ⟨rfl, rfl, rfl, rfl, rfl⟩) fun _ _ => finishChannels_within⟩

theorem drillRead_within : StagedWithin g c (drillRead d c) := by
  unfold drillRead
  split
  · exact StagedWithin.refl c
  · exact ⟨_, loadRecord_within (fun _ _ => ⟨rfl, rfl, rfl, rfl, rfl⟩) fun _ _ => finishDrills_within⟩

theorem circuitRead_within : StagedWithin g c (circuitRead d c) := by
  unfold circuitRead
  split
  · exact StagedWithin.refl c
  · exact ⟨_, loadRecord_within (fun _ _ => ⟨rfl, rfl, rfl, rfl, rfl⟩) fun _ _ => finishCircuits_within⟩

theorem lineRead_within {paths : List PathPair} : StagedWithin g c (lineRead paths d c) := by
  unfold lineRead
  split
  · exact StagedWithin.refl c
  · exact ⟨_, loadRecord_within (fun _ _ => ⟨rfl, rfl, rfl, rfl, rfl⟩) fun _ _ => finishLines_within⟩

theorem memberRead_within : StagedWithin g c (memberRead d c) := by
  unfold memberRead
  split
  · exact StagedWithin.refl c
  · exact ⟨_, loadRecord_within (fun _ _ => ⟨rfl, rfl, rfl, rfl, rfl⟩) fun _ _ => finishMembers_within⟩

theorem nextIo_within {q : ReqHdr} {l : IoLoad} {size : Nat} : CWithin q g c (nextIo l size c) := ((CWithin.refl c).aside).ask _

theorem ioFault_within {l : IoLoad} {index : Nat} : CWithin l.q g c (ioFault l index c) := ((CWithin.refl c).aside).answer

theorem ioRead_within : StagedWithin g c (ioRead d c) := by
  unfold ioRead
  split
  · exact StagedWithin.refl c
  · next l _ =>
    refine ⟨l.q, ?_⟩
    split
    · split
      · exact ioFault_within
      · exact nextIo_within
    · refine CWithin.ite (fun _ => ?_) fun _ => ?_
      · split
        · exact ioFault_within
        · exact nextIo_within
      · split
        · exact ioFault_within
        · next x _ => exact CWithin.ite (fun _ => finishIo_within (l := { l with outs := l.outs ++ [x] })) fun _ => nextIo_within

theorem entryRead_within : StagedWithin g c (entryRead d c) := by
  unfold entryRead
  split
  · exact StagedWithin.refl c
  · next w _ =>
    refine ⟨w.load.q, ?_⟩
    dsimp only
    generalize unclamped (decodeEntry _ _ _ _ _) = r
    obtain ⟨i, h⟩ | ⟨x, h, -⟩ | ⟨x, h, hq⟩ := step_cases w.load scheduleEntrySize r <;> rw [h]
    · exact ((CWithin.refl c).aside).answer
    · exact ((CWithin.refl c).aside).ask _
    · exact hq ▸ finishSwitch_within (w := { w with load := x })

end

end

end Sys2Proof.Machine
end

