-- ==== Sys2Proof/Proofs/DecidesWithin.lean ====
section
/-! SUPPORT. The requests leave alone what a request's operations leave alone (`CWithin`), and so do the turns behind them. -/

namespace Sys2Proof.Machine
open Sys2Proof

-- Proofs this short are elaborated one after another; side by side, each waits in a thread of its own.
set_option Elab.async false

/-! ### The Time Base -/

section
variable {g : Prop} {q : ReqHdr} {c : Ctx}

theorem CWithin.setTb {c0 : Ctx} (h : CWithin q g c0 c) {f : TimeBase → TimeBase} (hf : ∀ tb, (f tb).campus = tb.campus := by exact fun _ => rfl) :
    CWithin q g c0 (c.upd (State.setTb f)) := h.aside fun s => ⟨rfl, rfl, rfl, rfl, hf s.tb⟩

theorem referenceLost_within : CWithin q g c (referenceLost c) := (((CWithin.refl c).setTb).record _).trouble

theorem reevaluate_within {newYear : Bool} {t : CampusTime} {cause : Nat} : CWithin q g c (reevaluate newYear t cause c) := by
  unfold reevaluate
  dsimp only
  have h : CWithin q g c (if newYear then c.upd (State.setTb fun tb => { tb with trans := instantsFor tb.dst t }) else c) :=
    CWithin.ite (fun _ => (CWithin.refl c).setTb) fun _ => CWithin.refl c
  exact CWithin.ite (fun _ => h) fun _ => (h.setTb).record _

theorem stepSaturation_within {t : CampusTime} : CWithin q g c (stepSaturation t c) :=
  CWithin.ite (fun _ => (CWithin.refl c).setTb) fun _ => CWithin.ite (fun _ => CWithin.refl c) fun _ => ((CWithin.refl c).setTb).record _

/-- A step gives a campus time. -/
theorem stepTime_within {t : CampusTime} (hg : g ∨ c.st.tb.campus ≠ none) : CWithin q g c (stepTime t c) := by
  have hc : CWithin q g c (c.upd (State.setTb fun tb => { tb with campus := some t })) :=
    (CWithin.refl c).upd (Within.of_blocks rfl rfl rfl id (hg.imp id fun hn h => absurd h hn))
  exact (((hc.record _).trans stepSaturation_within).trans reevaluate_within).call fun _ _ h => by simp at h

theorem firstTime_within {t : CampusTime} (hg : g) : CWithin q g c (firstTime q t c) := by
  unfold firstTime
  dsimp only
  exact CWithin.answer (((CWithin.refl c).setTb).trans (stepTime_within (.inl hg)))

theorem setTimeOff_eq (q : ReqHdr) (t old : CampusTime) (c : Ctx) (d : Int) (hd : d = (t.lin : Int) - old.lin) :
    setTimeOff q t old c = if d.natAbs ≤ c.st.tb.slewLimit then (c.upd (State.setTb (TimeBase.slewBy d))).upd (State.answer q .done [actionSlew, numWord d])
      else (stepTime t (c.upd (State.setTb (TimeBase.slewBy 0)))).upd (State.answer q .done [actionStep, numWord d]) := by
  subst hd
  rfl

theorem setTimeOff_within {t old : CampusTime} (hc : c.st.tb.campus ≠ none) : CWithin q g c (setTimeOff q t old c) := by
  obtain ⟨d, hd⟩ : ∃ d, d = (t.lin : Int) - old.lin := ⟨_, rfl⟩
  rw [setTimeOff_eq q t old c d hd]
  split
  · exact ((CWithin.refl c).setTb).answer
  · exact CWithin.answer (((CWithin.refl c).setTb (f := TimeBase.slewBy 0)).trans (stepTime_within (.inr hc)))

theorem setTimePulse_within {t old : CampusTime} (hc : c.st.tb.campus ≠ none) : CWithin q g c (setTimePulse q t old c) := by
  unfold setTimePulse
  dsimp only
  exact CWithin.ite (fun _ => (CWithin.refl c).answer) fun _ => CWithin.answer (stepTime_within (.inr hc))

theorem decideSetTime_within {day ms : Nat} (hg : g ∨ c.st.tb.campus ≠ none) : CWithin q g c (decideSetTime q day ms c) := by
  unfold decideSetTime
  refine CWithin.ite (fun _ => (CWithin.refl c).refuse) fun _ => ?_
  split
  · next hn => exact firstTime_within (hg.resolve_right fun hx => hx hn)
  · next old ho =>
    have hc : c.st.tb.campus ≠ none := by rw [ho]; exact nofun
    exact CWithin.ite (fun _ => setTimeOff_within hc) fun _ => setTimePulse_within hc

theorem decideSetTrim_within {v : Int} : CWithin q g c (decideSetTrim q v c) :=
  (((CWithin.refl c).setTb (hf := fun tb => by split <;> rfl)).record _).answer

theorem changeMode_campus (p : Bool) (now : Nat) (tb : TimeBase) : (changeMode p now tb).campus = tb.campus := by
  unfold changeMode
  split <;> rfl

theorem decideSetReference_eq (q : ReqHdr) (mode loss slew : Nat) (c : Ctx) : ∃ f : TimeBase → TimeBase, (∀ tb, (f tb).campus = tb.campus)
    ∧ ∃ o, decideSetReference q mode loss slew c = if mode > 1 then c.upd (State.refuse q .badParameter) else
      let c1 := (c.upd (State.setTb f)).upd State.updateTrouble
      (if c1.st.tb.lossDue then referenceLost c1 else c1).upd (State.answer q o []) :=
  ⟨fun tb => changeMode (mode == 1) c.st.elapsed { tb with lossLimit := clampNat 10 600 loss, slewLimit := clampNat 100 60000 slew },
    fun _ => changeMode_campus _ _ _, _, rfl⟩

theorem decideSetReference_within {mode loss slew : Nat} : CWithin q g c (decideSetReference q mode loss slew c) := by
  obtain ⟨f, hf, o, he⟩ := decideSetReference_eq q mode loss slew c
  have h : CWithin q g c ((c.upd (State.setTb f)).upd State.updateTrouble) := ((CWithin.refl c).setTb (hf := hf)).trouble
  rw [he]
  exact CWithin.ite (fun _ => (CWithin.refl c).refuse) fun _ => CWithin.answer (CWithin.ite (fun _ => h.trans referenceLost_within) fun _ => h)

theorem setRule_within {rule : Option DstRule} : CWithin q g c (setRule rule c) := by
  have h : CWithin q g c (c.upd (State.setTb fun tb => { tb with dst := rule })) := (CWithin.refl c).setTb
  unfold setRule
  dsimp only
  split
  · exact h
  · exact CWithin.ite (fun _ => h.trans reevaluate_within) fun _ => (h.trans reevaluate_within).call fun _ _ h => by simp at h

theorem decideSetDst_within {p : DstParams} : CWithin q g c (decideSetDst q p c) :=
  CWithin.ite (fun _ => setRule_within.answer) fun _ => CWithin.ite (fun _ => (CWithin.refl c).refuse) fun _ =>
    CWithin.ite (fun _ => (CWithin.refl c).refuse) fun _ => setRule_within.answer

/-! ### The other requests -/

theorem readStatus_within {size offset : Nat} {items : State → List Item} : CWithin q g c (readStatus q size offset items c) :=
  CWithin.ite (fun _ => (CWithin.refl c).refuse) fun _ => (CWithin.refl c).ask _

theorem decideReadLine_within {ln offset : Nat} : CWithin q g c (decideReadLine q ln offset c) :=
  CWithin.ite (fun _ => (CWithin.refl c).refuse) fun _ => readStatus_within

theorem decideSetFlags_within {m1 m2 : Set8} : CWithin q g c (decideSetFlags q m1 m2 c) := (changeFlags_cturn (CTurn.refl c)).within.answer

theorem profileChange_within {new cause : Nat} : CWithin q g c (profileChange new cause c) :=
  CWithin.ite (fun _ => (CWithin.refl c).aside) fun _ => ((CWithin.refl c).aside).record _

theorem decideTodayProfile_within {p : Nat} : CWithin q g c (decideTodayProfile q p c) := by
  refine CWithin.ite (fun _ => (CWithin.refl c).refuse) fun _ => CWithin.ite (fun _ => (CWithin.refl c).refuse) fun _ => CWithin.answer ?_
  exact CWithin.ite (fun _ => ((CWithin.refl c).aside (f := fun s => { s with dp := { s.dp with override := some _ } })).trans profileChange_within) fun _ =>
    CWithin.ite (fun _ => ((CWithin.refl c).aside (f := fun s => { s with dp := { s.dp with override := none } })).trans profileChange_within) fun _ =>
      CWithin.refl c

theorem decideRing_within {p : RingParams} : CWithin q g c (decideRing q p c) := by
  unfold decideRing
  dsimp only
  refine CWithin.ite (fun _ => (CWithin.refl c).refuse) fun _ => CWithin.ite (fun _ => (CWithin.refl c).refuse) fun _ => ?_
  have h := fun zs df du => (bellStart_cturn (CTurn.refl c) (src := .ring c.tag) (zones := zs) (pattern := p.pattern) (level := p.level)
    (defer := df) (duration := du)).within (q := q) (g := g)
  split
  · exact (h _ _ _).refuse
  · exact (h _ _ _).answer

theorem decideAnnounce_within {p : AnnounceParams} : CWithin q g c (decideAnnounce q p c) := by
  unfold decideAnnounce
  dsimp only
  split
  · exact (CWithin.refl c).refuse
  · exact (CWithin.refl c).refuse
  · exact CWithin.ite (fun _ => (takeAnn_cturn (CTurn.refl c)).within.answer) fun _ => (takeAnn_cturn (CTurn.refl c)).within.refuse

theorem decideEndAnnouncement_within {n : Nat} : CWithin q g c (decideEndAnnouncement q n c) := by
  unfold decideEndAnnouncement
  split
  · exact (CWithin.refl c).refuse
  · exact CWithin.ite (fun _ => (CWithin.refl c).refuse) fun _ => (annEnd_cturn (CTurn.refl c)).within.answer

theorem decideStopSounding_within : CWithin q g c (decideStopSounding q c) :=
  CWithin.ite (fun _ => (soundingEnd_cturn (CTurn.refl c)).within.answer) fun _ => (CWithin.refl c).refuse

theorem decideAllClear_within : CWithin q g c (decideAllClear q c) := by
  unfold decideAllClear
  dsimp only
  split
  · exact ((CWithin.refl c).call fun _ _ h => by simp at h).answer
  · exact ((CWithin.refl c).call fun _ _ h => by simp at h).answer
  · exact (CWithin.refl c).refuse

theorem decideEndDrill_within : CWithin q g c (decideEndDrill q c) := by
  unfold decideEndDrill
  split
  · exact (CWithin.refl c).refuse
  · exact (drillEnd_cturn (CTurn.refl c)).within.answer

theorem decideResume_within : CWithin q g c (decideResume q c) :=
  CWithin.ite (fun _ => (CWithin.refl c).refuse) fun _ =>
    (((((CWithin.refl c).aside (f := fun s => { s with dc := { s.dc with silenceHeld := false } })).upd
      (Within.of_passed (mirrorFire_turn _).toPassed)).turn (releaseSilence_cturn (CTurn.refl _))).record _).answer

theorem decideSetDial_within {i pos pol : Nat} : CWithin q g c (decideSetDial q i pos pol c) := by
  refine CWithin.ite (fun _ => (CWithin.refl c).refuse) fun _ => CWithin.ite (fun _ => (CWithin.refl c).refuse) fun _ =>
    CWithin.ite (fun _ => (CWithin.refl c).refuse) fun _ => CWithin.answer ?_
  have h := fun f n => ((CWithin.refl c (q := q) (g := g)).turn (upd_setCircuit_cturn (CTurn.refl c) (n := i) (f := f))).record n
  exact CWithin.ite (fun _ => h _ _) fun _ => (h _ _).turn (circuitDecide_cturn (CTurn.refl _))

theorem decideClearCircuit_within {i : Nat} : CWithin q g c (decideClearCircuit q i c) := by
  refine CWithin.ite (fun _ => (CWithin.refl c).refuse) fun _ => CWithin.ite (fun _ => (CWithin.refl c).refuse) fun _ => CWithin.answer ?_
  have h := fun f => (CWithin.refl c (q := q) (g := g)).turn (upd_setCircuit_cturn (CTurn.refl c) (n := i) (f := f))
  exact CWithin.ite (fun _ => (h _).turn (circuitDecide_cturn (CTurn.refl _))) fun _ => h _

theorem decideEnumerate_within {ln : Nat} : CWithin q g c (decideEnumerate q ln c) := by
  unfold decideEnumerate
  split
  · exact (CWithin.refl c).refuse
  · exact (((upd_setLine_cturn (CTurn.refl c)).within).answer (o := .done) (ws := [])).turn (assignStep_cturn (CTurn.refl _))

theorem decideRenumber_within {ln : Nat} : CWithin q g c (decideRenumber q ln c) := by
  unfold decideRenumber
  split
  · exact (CWithin.refl c).refuse
  · exact CWithin.ite (fun _ => (CWithin.refl c).refuse) fun _ =>
      (((upd_setLine_cturn (CTurn.refl c)).within).answer (o := .done) (ws := [])).turn (clearStep_cturn (CTurn.refl _))

theorem setAbsent_cturn {ln a : Nat} {c0 : Ctx} (h : CTurn c0 c) : CTurn c0 (setAbsent ln a c) :=
  settleLine_cturn (upd_trouble_cturn (detachNode_cturn (upd_setNode_cturn h)))

theorem decideSetNode_within {ln a action : Nat} : CWithin q g c (decideSetNode q ln a action c) := by
  refine CWithin.ite (fun _ => (CWithin.refl c).refuse) fun _ => ?_
  split
  · exact (CWithin.refl c).refuse
  · split
    · exact CWithin.answer (CWithin.ite (fun _ => CWithin.refl c) fun _ => (setAbsent_cturn (CTurn.refl c)).within)
    · exact CWithin.ite (fun _ => (upd_setNode_cturn (CTurn.refl c)).within.answer) fun _ => (CWithin.refl c).refuse
    · exact (CWithin.refl c).refuse

theorem decideClearLine_within {ln : Nat} : CWithin q g c (decideClearLine q ln c) :=
  CWithin.ite (fun _ => (CWithin.refl c).refuse) fun _ => CWithin.ite (fun _ => (CWithin.refl c).refuse) fun _ =>
    (((upd_setLine_cturn (CTurn.refl c)).within.record _).trouble).answer

theorem decideDrive_within {out action duration : Nat} : CWithin q g c (decideDrive q out action duration c) :=
  CWithin.ite (fun _ => (CWithin.refl c).refuse) fun _ => CWithin.ite (fun _ => (CWithin.refl c).refuse) fun _ =>
    CWithin.ite (fun _ => (CWithin.refl c).refuse) fun _ => ((CWithin.refl c).aside).answer

end

end Sys2Proof.Machine
end

