-- ==== Sys2Proof/Proofs/RequestFrame.lean ====
section
/-! SUPPORT. O14: a request's event keeps to its slot, the log and the control block. -/

namespace Sys2Proof.Machine
open Sys2Proof

-- Proofs this short are elaborated one after another; side by side, each waits in a thread of its own.
set_option Elab.async false

/-- Every START DRILL to be answered is one request's. -/
def OwnStarts (q : ReqHdr) (ws : List Work) : Prop := ∀ r n, Work.startAnswer r n ∈ ws → r = q

theorem NoStart.own {ws : List Work} (h : NoStart ws) (q : ReqHdr) : OwnStarts q ws := fun r n hm => absurd hm (h r n)

theorem OwnStarts.append {q : ReqHdr} {l m : List Work} (hl : OwnStarts q l) (hm : OwnStarts q m) : OwnStarts q (l ++ m) := fun r n h =>
  (List.mem_append.1 h).elim (hl r n) (hm r n)

section
variable {q : ReqHdr} {g : Prop}

theorem startAnswer_within {n : Nat} {c : Ctx} : CWithin q g c (startAnswer q n c) := CWithin.answer (CWithin.refl c)

/-- A call leaves alone what its request's operations do. -/
theorem doWork_within {w : Work} {c : Ctx} (hw : OwnStarts q [w]) : CWithin q g c (doWork w c) := by
  by_cases hs : ∀ r n, w ≠ .startAnswer r n
  · obtain ⟨hp, hn⟩ := doWork_passed hs c
    exact ⟨Within.of_passed hp, hn⟩
  · push Not at hs
    obtain ⟨r, n, rfl⟩ := hs
    obtain rfl := hw r n List.mem_cons_self
    exact startAnswer_within

theorem turn_within {c d : Ctx} (hn : OwnStarts q c.todo) (h : turn c = some d) : Within q g c.st d.st ∧ OwnStarts q d.todo := by
  obtain ⟨st, ans, todo, sk, tag, cl⟩ := c
  have hnil : NoStart [] := fun _ _ hx => nomatch hx
  cases ans with
  | cons a rest =>
    simp only [turn, Option.some.injEq] at h
    subst h
    have k := (handleAns_cturn (a := a) (CTurn.refl ⟨st, rest, [], sk, tag, cl⟩)).within (q := q) (g := g)
    exact ⟨k.st, ((k.noStart hnil).own q).append hn⟩
  | nil =>
    cases todo with
    | cons w rest =>
      simp only [turn, Option.some.injEq] at h
      subst h
      have k := doWork_within (g := g) (c := ⟨st, [], [], sk, tag, cl⟩) fun r n hm => hn r n (List.mem_cons.2 (.inl (List.mem_singleton.1 hm)))
      exact ⟨k.st, ((k.noStart hnil).own q).append fun r n hm => hn r n (List.mem_cons_of_mem _ hm)⟩
    | nil => simp [turn] at h

theorem turns_within (n : Nat) {c : Ctx} (hn : OwnStarts q c.todo) : Within q g c.st (turns n c).st := by
  induction n generalizing c with
  | zero => exact Within.refl _
  | succ n ih =>
    unfold turns
    split
    · next d h =>
      obtain ⟨k, hd⟩ := turn_within (g := g) hn h
      exact k.trans (ih hd)
    · exact Within.refl _

theorem close_within {c : Ctx} (hn : OwnStarts q c.todo) : Within q g c.st c.close := turns_within _ hn

theorem decideStartDrill_within {n : Nat} {c : Ctx} (hn : NoStart c.todo) :
    Within q g c.st (decideStartDrill q n c).st ∧ OwnStarts q (decideStartDrill q n c).todo := by
  have hr : ∀ o, Within q g c.st (c.upd (State.refuse q o)).st ∧ OwnStarts q (c.upd (State.refuse q o)).todo := fun o =>
    ⟨((CWithin.refl c).refuse (o := o)).st, hn.own q⟩
  unfold decideStartDrill
  split
  · exact hr _
  · split
    · exact hr _
    · have h := drillStart_cturn (CTurn.refl c) (origin := .request c.tag) (num := n)
      refine ⟨Within.of_passed h.st.toPassed, ((h.noStart hn).own q).append fun r m hm => ?_⟩
      simp only [List.mem_singleton, Work.startAnswer.injEq] at hm
      exact hm.1

/-- The decision of any request; SET TIME may give an UNSET part its first campus time. -/
theorem decideRequest_within {i : Instr} {c : Ctx} (hi : reqHdr? i = some q) (hn : NoStart c.todo)
    (hg : ∀ day ms, i = .setTime q day ms → g ∨ c.st.tb.campus ≠ none) :
    Within q g c.st (decideRequest i c).st ∧ OwnStarts q (decideRequest i c).todo := by
  have of : ∀ {d : Ctx}, CWithin q g c d → Within q g c.st d.st ∧ OwnStarts q d.todo := fun h => ⟨h.st, (h.noStart hn).own q⟩
  cases i <;> simp only [reqHdr?, Option.some.injEq, reduceCtorEq] at hi <;> subst hi
  case setTime day ms => exact of (decideSetTime_within (hg day ms rfl))
  case setTrim => exact of decideSetTrim_within
  case setReference => exact of decideSetReference_within
  case setDstRule => exact of decideSetDst_within
  case loadTableProfiles => exact of decideLoadProfiles_within
  case loadTableCalendar => exact of decideLoadCalendar_within
  case loadTableZones => exact of decideLoadZones_within
  case loadTableGroups => exact of decideLoadGroups_within
  case loadTablePatterns => exact of decideLoadPatterns_within
  case loadTableChannels => exact of decideLoadChannels_within
  case loadTableDrills => exact of decideLoadDrills_within
  case loadTableCircuits => exact of decideLoadCircuits_within
  case loadTableLines => exact of decideLoadLines_within
  case loadTableMembers => exact of decideLoadMembers_within
  case loadTableIo => exact of decideLoadIo_within
  case switchSchedule => exact of decideSwitch_within
  case setFlags => exact of decideSetFlags_within
  case setTodayProfile => exact of decideTodayProfile_within
  case ring => exact of decideRing_within
  case announce => exact of decideAnnounce_within
  case endAnnouncement => exact of decideEndAnnouncement_within
  case startDrill => exact decideStartDrill_within hn
  case stopSounding => exact of decideStopSounding_within
  case allClear => exact of decideAllClear_within
  case endDrill => exact of decideEndDrill_within
  case resumeAfterAlarm => exact of decideResume_within
  case setDial => exact of decideSetDial_within
  case enumerateLine => exact of decideEnumerate_within
  case renumberLine => exact of decideRenumber_within
  case setNode => exact of decideSetNode_within
  case clearFaultsLine => exact of decideClearLine_within
  case clearFaultsCircuit => exact of decideClearCircuit_within
  case driveOutput => exact of decideDrive_within
  case readStatusTime => exact of readStatus_within
  case readStatusZones => exact of readStatus_within
  case readStatusLine => exact of decideReadLine_within
  case readStatusCircuits => exact of readStatus_within
  case readStatusChannels => exact of readStatus_within
  case readStatusDrill => exact of readStatus_within

/-- The whole event of a request. -/
theorem request_within {i : Instr} {s : State} (hi : reqHdr? i = some q) (hg : ∀ day ms, i = .setTime q day ms → g ∨ s.tb.campus ≠ none) :
    Within q g (s.taking q) (decideRequest i (s.deciding q)).close := by
  obtain ⟨h, hn⟩ := decideRequest_within (g := g) (c := s.deciding q) hi (fun _ _ hx => nomatch hx) hg
  exact h.trans (close_within hn)

end

/-- Settles O14. -/
theorem requestsTouchOnlyTheirSlot : Obligations.RequestsTouchOnlyTheirSlot := by
  unfold Obligations.RequestsTouchOnlyTheirSlot
  intro i q s hi
  have hno : s.reaches q = false → exec i s = .next s := fun hr => by
    rw [exec_of_reqHdr hi]
    exact congrArg Host.Outcome.next (if_neg (by simp [hr]))
  refine ⟨hno, fun t hlog hl hx => ?_⟩
  cases hr : s.reaches q with
  | false =>
    rw [hno hr] at hx
    cases hx
    exact ⟨LinkKept.refl s, .inl rfl, fun _ _ _ => rfl⟩
  | true =>
    rw [exec_request hi hr] at hx
    cases hx
    have h := request_within (g := True) (s := s) hi fun _ _ _ => .inl trivial
    have ht : LinkKept s (s.taking q) := ⟨rfl, rfl, rfl, rfl, rfl, rfl, rfl, rfl, rfl, rfl⟩
    refine ⟨ht.trans h.kept, ?_, fun a ha hs => h.outside hl hlog.writeIndex a ha hs⟩
    obtain hk | hk := h.taken hl
    · exact .inr hk
    · exact .inl (hk.trans (taken_taking hr))

end Sys2Proof.Machine
end

