-- ==== Sys2Proof/Proofs/Dated.lean ====
section
/-! SUPPORT. What every command but SET TIME, a start and the end of settling leaves alone of the campus time and the high-water mark: the supply, a time
that is UNSET, and a mark that is set (`Dated`). -/

namespace Sys2Proof.Machine
open Sys2Proof

-- Proofs this short are elaborated one after another; side by side, each waits in a thread of its own.
set_option Elab.async false

/-- The supply stays, an UNSET time stays UNSET, and H stays set. -/
structure Dated (s t : State) : Prop where
  supply : t.supply = s.supply
  campus : s.tb.campus = none → t.tb.campus = none
  mark : s.se.mark.isSome = true → t.se.mark.isSome = true

section
variable {s t u : State} {c0 c d : Ctx}

theorem Dated.refl (s : State) : Dated s s := ⟨rfl, id, id⟩

theorem Dated.trans (h : Dated s t) (k : Dated t u) : Dated s u := ⟨k.supply.trans h.supply, k.campus ∘ h.campus, k.mark ∘ h.mark⟩

theorem Dated.of_blocks (supply : t.supply = s.supply) (campus : t.tb.campus = s.tb.campus) (mark : t.se.mark = s.se.mark) : Dated s t :=
  ⟨supply, fun h => campus.trans h, fun h => mark ▸ h⟩

theorem RiOnly.dated (h : RiOnly s t) : Dated s t := Dated.of_blocks h.supply (congrArg _ h.tb) (congrArg _ h.se)

theorem Passed.dated (h : Passed s t) : Dated s t := ⟨h.supply, fun hn => by rwa [h.tb], h.mark⟩

theorem CTurn.dated (h : CTurn c d) : Dated c.st d.st := h.st.toPassed.dated

theorem Within.dated {q : ReqHdr} (h : Within q False s t) : Dated s t := ⟨h.kept.supply, h.campus.resolve_left id, h.mark⟩

theorem CWithin.dated {q : ReqHdr} (h : CWithin q False c d) : Dated c.st d.st := h.st.dated

theorem StagedWithin.dated (h : StagedWithin False c d) : Dated c.st d.st := h.elim fun _ h => h.dated

theorem Dated.turn (h : Dated s c.st) (k : CTurn c d) : Dated s d.st := h.trans k.dated

theorem Dated.ite {p : Prop} [Decidable p] (h : p → Dated s t) (k : ¬ p → Dated s u) : Dated s (if p then t else u) := by
  split
  · next hp => exact h hp
  · next hp => exact k hp

theorem Dated.each {α : Type} {f : α → Ctx → Ctx} (h : Dated s c.st) (hf : ∀ x d, Dated d.st (f x d).st) (l : List α) :
    Dated s (Ctx.each f l c).st := by
  induction l generalizing c with
  | nil => exact h
  | cons x l ih => exact ih (h.trans (hf x c))

/-- What the standing condition asks of a state that has it passes to one so reached. -/
theorem HighWaterSet.of_dated (h : HighWaterSet s) (k : Dated s t) : HighWaterSet t where
  running hr hc hm := by
    have hs : s.se.mark ≠ none := h.running (by rwa [State.running, ← k.supply]) fun hn => hc (k.campus hn)
    have := k.mark (Option.isSome_iff_ne_none.2 hs)
    rw [hm] at this
    exact absurd this nofun
  settling hm hs hk := by
    rw [k.supply] at hm hs hk
    exact k.campus (h.settling hm hs hk)

/-! ### The turns of an event -/

theorem doWork_dated (w : Work) (c : Ctx) : Dated c.st (doWork w c).st := by
  by_cases hs : ∀ r n, w ≠ .startAnswer r n
  · exact (doWork_passed hs c).1.dated
  · push Not at hs
    obtain ⟨r, n, rfl⟩ := hs
    exact (startAnswer_within (q := r) (n := n)).dated

theorem turn_dated (h : turn c = some d) : Dated c.st d.st := by
  obtain ⟨st, ans, todo, sk, tag, cl⟩ := c
  cases ans with
  | cons a rest =>
    simp only [turn, Option.some.injEq] at h
    subst h
    exact (handleAns_cturn (a := a) (CTurn.refl ⟨st, rest, [], sk, tag, cl⟩)).dated
  | nil =>
    cases todo with
    | cons w rest =>
      simp only [turn, Option.some.injEq] at h
      subst h
      exact doWork_dated w ⟨st, [], [], sk, tag, cl⟩
    | nil => simp [turn] at h

theorem turns_dated (n : Nat) (c : Ctx) : Dated c.st (turns n c).st := by
  induction n generalizing c with
  | zero => exact Dated.refl _
  | succ n ih =>
    unfold turns
    split
    · next d h => exact (turn_dated h).trans (ih d)
    · exact Dated.refl _

theorem close_dated (c : Ctx) : Dated c.st c.close := turns_dated _ c

/-! ### The shapes of a command's effect -/

theorem begin_dated {f : Ctx → Ctx} (hf : ∀ c, Dated c.st (f c).st) (s : State) : Dated s (f s.begin).close :=
  (Dated.of_blocks (s := s) (t := s.begin.st) rfl rfl rfl).trans ((hf s.begin).trans (close_dated _))

theorem event_dated {f : Ctx → Ctx} (hf : ∀ c, Dated c.st (f c).st) (s : State) : Dated s (event f s) :=
  Dated.ite (fun _ => begin_dated hf s) fun _ => Dated.refl s

theorem eventWhen_dated {p : Bool} {f : Ctx → Ctx} (hf : ∀ c, Dated c.st (f c).st) (s : State) : Dated s (eventWhen p f s) :=
  Dated.ite (fun _ => event_dated hf s) fun _ => Dated.refl s

theorem landed_dated (a : Access) (s : State) : Dated s (landed a s) := by
  unfold landed
  split <;> exact Dated.of_blocks rfl rfl rfl

theorem completion_dated {p : Access → Bool} {f : Access → Ctx → Ctx} (hf : ∀ a c, Dated c.st (f a c).st) (s : State) :
    Dated s (completion p f s) := by
  have hc : Dated s s.completed := Dated.of_blocks rfl rfl rfl
  unfold completion
  split
  · exact Dated.ite (fun _ => hc.trans (landed_dated _ _)) fun _ => Dated.refl s
  · exact Dated.ite (fun _ => hc.trans (begin_dated (hf _) s.completed)) fun _ => Dated.refl s
  · exact Dated.refl s

theorem recordDone_dated {tc : TableCode} {q : State → Option ReqHdr} {f : Ctx → Ctx} (hf : ∀ c, StagedWithin False c (f c)) (s : State) :
    Dated s (recordDone tc q f s) :=
  completion_dated (fun _ c => (hf { c with tag := ((q s).map (·.tag)).getD 0 }).dated) s

theorem registerWrite_dated (f : RegionIf → RegionIf) (s : State) : Dated s (registerWrite f s) :=
  Dated.ite (fun _ => Dated.of_blocks rfl rfl rfl) fun _ => Dated.refl s

/-! ### The Region Interface's own operations -/

theorem callScan_riOnly (s : State) : RiOnly s (callScan s) := by
  unfold callScan
  split <;> exact ⟨rfl⟩

theorem endScan_riOnly (s : State) : RiOnly s (endScan s) := by
  unfold endScan
  split
  · exact (riOnly_setRi s _).trans (callScan_riOnly _)
  · exact riOnly_setRi s _

theorem nextSlot_riOnly (n : Nat) (s : State) : RiOnly s (nextSlot n s) := by
  unfold nextSlot
  split
  · exact ⟨rfl⟩
  · exact endScan_riOnly s

theorem drain_riOnly (n : Nat) (s : State) : RiOnly s (State.drain n s) := by
  induction n generalizing s with
  | zero => exact RiOnly.refl s
  | succ n ih =>
    unfold State.drain
    split
    · exact RiOnly.refl s
    · split
      · exact RiOnly.trans ⟨rfl⟩ (ih _)
      · exact RiOnly.refl s

theorem writeHeld_riOnly (s : State) : RiOnly s (writeHeld s) := by
  unfold writeHeld
  generalize List.range Config.slotCount = l
  induction l generalizing s with
  | nil => exact RiOnly.refl s
  | cons n l ih =>
    refine RiOnly.trans ?_ (ih _)
    dsimp only
    split
    · split
      · exact riOnly_setRi s _
      · exact RiOnly.refl s
    · exact RiOnly.refl s

theorem attach_dated (notify : Nat) (s : State) : Dated s (attach notify s) := by
  unfold attach
  dsimp only
  refine Dated.trans ?_ (callScan_riOnly _).dated
  refine Dated.trans ?_ (riOnly_setRi _ _).dated
  refine Dated.trans ?_ (mirrorAll_turn _).toPassed.dated
  exact (RiOnly.trans (RiOnly.trans (RiOnly.trans (riOnly_setRi _ _) (riOnly_setRi _ _)) (drain_riOnly _ _)) (writeHeld_riOnly _)).dated

theorem snapshotDone_dated (q : ReqHdr) (offset seq : Nat) (words : List Word) (s : State) : Dated s (snapshotDone q offset seq words s) :=
  RiOnly.dated ((riOnly_setRi s _).trans (riOnly_answer _ q .done _))

/-! ### The link's ways out of ATTACHED -/

theorem dropLoad_riOnly {α : Type} (l : Option (Load α)) (s : State) : RiOnly s (dropLoad l s) := by
  unfold dropLoad
  split
  · exact riOnly_answer s _ _ _
  · exact RiOnly.refl s

theorem dropIoLoad_riOnly (l : Option IoLoad) (s : State) : RiOnly s (dropIoLoad l s) := by
  unfold dropIoLoad
  split
  · exact riOnly_answer s _ _ _
  · exact RiOnly.refl s

theorem endLoads_riOnly (s : State) : RiOnly s (endLoads s) := by
  unfold endLoads
  dsimp only
  repeat' first
    | exact RiOnly.refl s
    | refine RiOnly.trans ?_ (dropLoad_riOnly _ _)
    | refine RiOnly.trans ?_ (dropIoLoad_riOnly _ _)

theorem dropLoads_dated (s : State) : Dated s (dropLoads s) := by
  rw [dropLoads, clearLoads_eq]
  exact (endLoads_riOnly s).dated.trans (Dated.of_blocks rfl rfl rfl)

theorem dropSnapshots_riOnly (as : List Access) (s : State) : RiOnly s (as.foldl (fun s a => dropSnapshot a s) s) := by
  induction as generalizing s with
  | nil => exact RiOnly.refl s
  | cons a as ih =>
    refine RiOnly.trans ?_ (ih _)
    unfold dropSnapshot
    dsimp only
    split
    · exact riOnly_answer s _ _ _
    · exact RiOnly.refl s

theorem leaveAttached_dated (left : List Access) (c : Ctx) : Dated c.st (leaveAttached left c).st := by
  unfold leaveAttached
  dsimp only
  refine Dated.turn ?_ (annLinkLost_cturn (CTurn.refl _))
  exact ((dropLoads_dated c.st).trans (dropSnapshots_riOnly _ _).dated).trans (Dated.of_blocks rfl rfl rfl)

theorem updateTrouble_dated (s : State) : Dated s s.updateTrouble := (updateTrouble_turn s).toPassed.dated

theorem enterLinkFault_dated (cause offset : Nat) (version : Option Nat) (c : Ctx) : Dated c.st (enterLinkFault cause offset version c).st := by
  unfold enterLinkFault
  dsimp only
  have h : Dated c.st (((c.upd (State.setRi fun ri => { ri with link := .fault })).record
      (riNote .linkFault (dv cause) (dv offset) [dvo version])).upd (State.setRi (RegionIf.raise causeLink))).st :=
    RiOnly.dated (((riOnly_setRi _ _).trans (noted_record _ _).toRiOnly).trans (riOnly_setRi _ _))
  generalize ((c.upd (State.setRi fun ri => { ri with link := .fault })).record _).upd _ = e at h ⊢
  have k : Dated c.st (if c.st.attached then leaveAttached [] e else e.upd (State.setRi fun ri => { ri with accesses := [] })).st := by
    split
    · exact h.trans (leaveAttached_dated [] e)
    · exact h.trans (Dated.of_blocks rfl rfl rfl)
  split
  · exact k.trans (updateTrouble_dated _)
  · exact k

theorem hostFields_dated (layout mark notify : Nat) (c : Ctx) : Dated c.st (hostFields layout mark notify c).st := by
  unfold hostFields
  split
  · rw [Ctx.upd_st]
    exact attach_dated notify c.st
  · exact enterLinkFault_dated _ _ _ c

theorem writeRun_dated (v : Bool) (c : Ctx) : Dated c.st (writeRun v c).st := by
  have h : Dated c.st (c.upd (State.setRi fun ri => { ri with run := v })).st := Dated.of_blocks rfl rfl rfl
  unfold writeRun
  dsimp only
  split
  · exact Dated.of_blocks rfl rfl rfl
  · exact h
  · exact h
  · exact Dated.of_blocks rfl rfl rfl
  · exact Dated.trans (t := ((c.upd (State.setRi fun ri => { ri with run := false })).upd (State.setRi fun ri => { ri with link := .detached })).st)
      (Dated.of_blocks rfl rfl rfl) (leaveAttached_dated _ _)
  · have k : Dated c.st ((c.upd (State.setRi fun ri => { ri with run := false })).upd (State.setRi fun ri => { ri with link := .detached })).st :=
      Dated.of_blocks rfl rfl rfl
    split
    · exact k.trans (updateTrouble_dated _)
    · exact k

end

end Sys2Proof.Machine
end

