-- ==== Sys2Proof/Proofs/HighWater.lean ====
section
/-! SUPPORT. O7: every command keeps the high-water mark set while there is a campus time, and a cold start's settling without one. -/

namespace Sys2Proof.Machine
open Sys2Proof

section
variable {s t : State} {c : Ctx}

/-! ### The Time Base -/

theorem Dated.setTb (h : Dated s c.st) {f : TimeBase → TimeBase} (hf : ∀ tb, (f tb).campus = tb.campus := by exact fun _ => rfl) :
    Dated s (c.upd (State.setTb f)).st := h.trans (Dated.of_blocks rfl (hf c.st.tb) rfl)

theorem Dated.record (h : Dated s c.st) (n : Note) : Dated s (c.record n).st := h.trans (noted_record _ n).dated

theorem Dated.call (h : Dated s c.st) (ws : List Work) : Dated s (c.call ws).st := h

theorem Dated.trouble (h : Dated s c.st) : Dated s (c.upd State.updateTrouble).st := h.trans (updateTrouble_dated _)

theorem Dated.cite {p : Prop} [Decidable p] {d : Ctx} (h : p → Dated s c.st) (k : ¬ p → Dated s d.st) : Dated s (if p then c else d).st := by
  split
  · next hp => exact h hp
  · next hp => exact k hp

theorem nominal_campus (tb : TimeBase) (now : Nat) : (tb.nominal now).tb.campus = tb.campus := by
  unfold TimeBase.nominal TimeBase.slewDone
  dsimp only
  repeat' split
  all_goals rfl

/-- An advance has brought campus time to a moment: R8's end of the count with it. -/
def campusAt (new : Nat) (c : Ctx) : Ctx :=
  if new = lastLin then ((c.upd (State.setTb fun tb => { tb with campus := some (ofLin new) })).upd (State.setTb fun tb => { tb with saturated := true })).record
    (timeLimitNote 0)
  else c.upd (State.setTb fun tb => { tb with campus := some (ofLin new) })

/-- R24: an advance into another year takes that year's instants. -/
def yearAt (t nt : CampusTime) (c : Ctx) : Ctx :=
  if yearOf t.day = yearOf nt.day then c else c.upd (State.setTb fun tb => { tb with trans := instantsFor tb.dst nt })

/-- An offset becomes the part's, with a step of civil time when it is another, but for the silent year roll, and else the events of civil time. -/
def takeOffset (old off : Nat) (silent : Bool) (oldCivil newCivil : CampusTime) (c : Ctx) : Ctx :=
  let c1 := c.upd (State.setTb fun tb => { tb with offset := off })
  if off = old || silent then if c1.st.tb.saturated then c1 else civilEvents oldCivil newCivil c1
  else (c1.record (dstNote 0 old off dstTransition)).call [.stepEvent newCivil]

/-- The offset in force at a moment becomes the part's. -/
def offsetTo (t : CampusTime) (new old : Nat) (c : Ctx) : Ctx :=
  takeOffset old (offsetAt c.st.tb.dst c.st.tb.trans new) (yearOf t.day ≠ yearOf (ofLin new).day && !c.st.tb.trans.any (·.crossed t.lin new))
    (ofLin (t.lin + 60000 * old)) (ofLin (new + 60000 * offsetAt c.st.tb.dst c.st.tb.trans new)) c

theorem advanceCampus_eq (n : Nat) {c : Ctx} {t : CampusTime} (ht : c.st.tb.campus = some t) : advanceCampus n c =
    if c.st.tb.saturated then c
    else offsetTo t (min (t.lin + n) lastLin) c.st.tb.offset (yearAt t (ofLin (min (t.lin + n) lastLin)) (campusAt (min (t.lin + n) lastLin) c)) := by
  unfold advanceCampus
  rw [ht]
  rfl

theorem campusAt_dated (new : Nat) {c : Ctx} (h : c.st.tb.campus ≠ none) : Dated c.st (campusAt new c).st := by
  have h1 : Dated c.st (c.upd (State.setTb fun tb => { tb with campus := some (ofLin new) })).st := ⟨rfl, fun hn => absurd hn h, id⟩
  exact Dated.cite (fun _ => h1.setTb.record _) fun _ => h1

theorem yearAt_dated (t nt : CampusTime) (c : Ctx) : Dated c.st (yearAt t nt c).st :=
  Dated.cite (fun _ => Dated.refl _) fun _ => (Dated.refl _).setTb

theorem civilEvents_dated (old new : CampusTime) (c : Ctx) : Dated c.st (civilEvents old new c).st :=
  have h : Dated c.st (if old.lin / 1000 = new.lin / 1000 then c else c.call [.secondEvent new]).st :=
    Dated.cite (fun _ => Dated.refl _) fun _ => (Dated.refl _).call _
  Dated.cite (fun _ => h) fun _ => h.call _

theorem takeOffset_dated (old off : Nat) (silent : Bool) (oldCivil newCivil : CampusTime) (c : Ctx) :
    Dated c.st (takeOffset old off silent oldCivil newCivil c).st := by
  have h : Dated c.st (c.upd (State.setTb fun tb => { tb with offset := off })).st := (Dated.refl _).setTb
  unfold takeOffset
  refine Dated.cite (fun _ => Dated.cite (fun _ => h) fun _ => ?_) fun _ => (h.record _).call _
  exact h.trans (civilEvents_dated _ _ _)

theorem advanceCampus_dated (n : Nat) (c : Ctx) : Dated c.st (advanceCampus n c).st := by
  cases hc : c.st.tb.campus with
  | none =>
    rw [show advanceCampus n c = c by unfold advanceCampus; rw [hc]]
    exact Dated.refl _
  | some t =>
    rw [advanceCampus_eq n hc]
    generalize min (t.lin + n) lastLin = new
    exact Dated.cite (fun _ => Dated.refl _) fun _ =>
      ((campusAt_dated new (by rw [hc]; exact nofun)).trans (yearAt_dated t _ _)).trans (takeOffset_dated _ _ _ _ _ _)

theorem tick_dated (c : Ctx) : Dated c.st (tick c).st := by
  unfold tick
  dsimp only
  refine Dated.trans ?_ (advanceCampus_dated _ _)
  exact Dated.of_blocks rfl (nominal_campus _ _) rfl

theorem idleTick_dated (s : State) : Dated s (idleTick s) := by
  have h : ∀ tb : TimeBase, tb.campus = none → (countCampus tb).campus = none := fun tb h => by simp [countCampus, h]
  exact Dated.ite (fun _ => ⟨rfl, h _, id⟩) fun _ => Dated.ite (fun _ => ⟨rfl, h _, id⟩) fun _ => Dated.refl s

theorem correctPhase_dated (e : Int) (c : Ctx) : Dated c.st (correctPhase e c).st := ((Dated.refl _).setTb).record _

theorem validPulse_dated (t : CampusTime) (c : Ctx) : Dated c.st (validPulse t c).st := by
  unfold validPulse
  dsimp only
  have h : Dated c.st (c.upd (State.setTb fun tb => { tb with lastError := phaseError t.ms, lastPulse := some c.st.elapsed, lossTimer := 0 })).st :=
    (Dated.refl _).setTb
  generalize c.upd (State.setTb fun tb => { tb with lastError := phaseError t.ms, lastPulse := some c.st.elapsed, lossTimer := 0 }) = d at h ⊢
  have k : Dated c.st (if c.st.tb.refLost = true then ((d.upd (State.setTb fun tb => { tb with refLost := false })).record
      (tbNote .referenceRestored .routine 0 (dv (c.st.elapsed - c.st.tb.lostAt)) (dvi (phaseError t.ms)) (dv 0))).upd State.updateTrouble else d).st := by
    split
    · exact ((h.setTb).record _).trouble
    · exact h
  generalize (if c.st.tb.refLost = true then _ else d) = e at k ⊢
  split
  · split
    · exact k.setTb
    · exact k
  · exact k.trans (correctPhase_dated _ e)

theorem referencePulse_dated (c : Ctx) : Dated c.st (referencePulse c).st := by
  by_cases h : c.st.tb.refMode = .off ∨ c.st.tb.campus = none ∨ c.st.tb.saturated = true
  · rw [referencePulse_ignored h]
    exact Dated.refl _
  · push Not at h
    obtain ⟨hm, hc, hs⟩ := h
    obtain ⟨t, ht⟩ := Option.ne_none_iff_exists'.1 hc
    obtain ⟨hv, hi⟩ := referencePulse_judged (by cases hx : c.st.tb.refMode <;> simp_all) ht (by simpa using hs)
    by_cases hp : c.st.pulseValid
    · rw [hv hp]
      exact validPulse_dated t c
    · rw [hi hp]
      exact (Dated.refl _).setTb

/-! ### The inputs -/

theorem setInput_dated (k : Nat) (f : Input → Input) (s : State) : Dated s (s.setInput k f) := Dated.of_blocks rfl rfl rfl

theorem takeReading_dated (k : Nat) (r : Reading) (c : Ctx) : Dated c.st (takeReading k r c).st := by
  have h : Dated c.st (c.upd (State.setInput k (Input.take r c.st.elapsed))).st := setInput_dated _ _ _
  unfold takeReading
  dsimp only
  split
  · exact h.trans (referencePulse_dated _)
  · exact h

theorem handOn_dated (k : Nat) (v : Contact) (c : Ctx) : Dated c.st (handOn k v c).st := by
  unfold handOn
  split
  · exact (Dated.refl _).record _
  · exact (fireAlarmOn_cturn (CTurn.refl c)).dated
  · exact (fireAlarmOff_within (q := ⟨0, false, 0⟩)).dated
  · exact (clearReport_cturn (CTurn.refl c)).dated
  · exact (bellPush_cturn (CTurn.refl c)).dated
  · exact (drillAsk_cturn (CTurn.refl c)).dated
  · exact (pttChanged_cturn (CTurn.refl c)).dated
  · exact Dated.refl _

theorem setValue_dated (k : Nat) (v : Contact) (c : Ctx) : Dated c.st (setValue k v c).st := by
  have h : Dated c.st (c.upd (State.setInput k fun i => { i with value := some v })).st := setInput_dated _ _ _
  unfold setValue
  dsimp only
  split
  · exact Dated.refl _
  · split
    · exact h.trans (handOn_dated _ _ _)
    · exact h.turn (pttChanged_cturn (CTurn.refl _))
    · exact h

theorem superviseFire_dated (b : Bool) (c : Ctx) : Dated c.st (superviseFire b c).st := by
  unfold superviseFire
  split
  · exact Dated.refl _
  · exact Dated.trans (t := { c.st with io := { c.st.io with fireOpen := b } }) (Dated.of_blocks rfl rfl rfl) (updateTrouble_dated _)

theorem debounced_dated (k : Nat) (c : Ctx) : Dated c.st (debounced k c).st := by
  unfold debounced
  dsimp only
  split
  · exact Dated.refl _
  · split
    · split
      · exact superviseFire_dated _ c
      · exact (superviseFire_dated _ c).trans (setValue_dated _ _ _)
    · exact setValue_dated _ _ c

/-! ### The events whose operation is written where the command is -/

theorem frameSent_dated (ln : Nat) (c : Ctx) : Dated c.st (frameSent ln c).st := by
  unfold frameSent
  dsimp only
  split
  · split
    · exact Dated.refl _
    · split
      · exact (completeTx_cturn (CTurn.refl c)).dated
      · exact (upd_setLine_cturn (CTurn.refl c)).dated
  · exact Dated.refl _

theorem replyReceived_dated (ln : Nat) (r : Reply) (c : Ctx) : Dated c.st (replyReceived ln r c).st := by
  unfold replyReceived
  split
  · split
    · split
      · exact (completeTx_cturn (call_cturn (preferPath_cturn ln _ c) (assignCalls_noStart ln _ r))).dated
      · exact (nextAttempt_cturn (CTurn.refl c)).dated
    · exact Dated.refl _
  · exact Dated.refl _

theorem attemptTimeout_dated (ln : Nat) (r : PathCond) (c : Ctx) : Dated c.st (attemptTimeout ln r c).st := by
  unfold attemptTimeout
  split
  · split
    · exact (nextAttempt_cturn (readPath_cturn (CTurn.refl c))).dated
    · exact Dated.refl _
  · exact Dated.refl _

theorem busyHoldEnd_dated (ln a : Nat) (c : Ctx) : Dated c.st (busyHoldEnd ln a c).st := by
  unfold busyHoldEnd
  split
  · split
    · exact (settleLine_cturn (upd_setNode_cturn (CTurn.refl c))).dated
    · exact Dated.refl _
  · exact Dated.refl _

theorem chimeStep_dated (n : Nat) (c : Ctx) : Dated c.st (chimeStep n c).st := by
  refine (annTimer_cturn (CTurn.refl c) fun a d h => ?_).dated
  split
  · exact upd_setChannel_cturn h
  · exact h

theorem annTimer_dated {n : Nat} {due : State → Ann → Bool} {act : Ann → Ctx → Ctx} (ha : ∀ a c, CTurn c (act a c)) (c : Ctx) :
    Dated c.st (annTimer n due act c).st := by
  unfold annTimer
  split
  · exact Dated.refl _
  · split
    · exact (ha _ c).dated
    · exact Dated.refl _

theorem forAnn_dated {id : Nat} {f : Nat → Ctx → Ctx} (hf : ∀ n c, CTurn c (f n c)) (c : Ctx) : Dated c.st (forAnn id f c).st := by
  unfold forAnn
  split
  · exact (hf _ c).dated
  · exact Dated.refl _

end

end Sys2Proof.Machine
end

