-- ==== Sys2Proof/Proofs/HighWaterKept.lean ====
section
/-! SUPPORT. O7: the commands that give a campus time, a start, or a mark. -/

namespace Sys2Proof.Machine
open Sys2Proof

section
variable {s t : State} {c : Ctx}

/-- What a command keeps of the standing condition. -/
def KeepsMark (s : State) (r : Result) : Prop := ∃ t, r = .next t ∧ (HighWaterSet s → HighWaterSet t)

theorem keepsMark_of {t : State} (h : HighWaterSet s → HighWaterSet t) : KeepsMark s (.next t) := ⟨t, rfl, h⟩

theorem keepsMark_dated {t : State} (h : Dated s t) : KeepsMark s (.next t) := ⟨t, rfl, fun hs => hs.of_dated h⟩

/-! ### SET TIME of a part without a time: the step event sets the mark -/

/-- The step event is the one call that is left. -/
def StepsNext (c : Ctx) : Prop := c.ans = [] ∧ ∃ now, c.todo = [.stepEvent now]

theorem dayRoll_marks (d : Nat) (c : Ctx) : (dayRoll d c).st.se.mark.isSome = true := rfl

/-- A step event that is all that is left leaves the mark set. -/
theorem close_marks (h : StepsNext c) : c.close.se.mark.isSome = true := by
  obtain ⟨ha, now, ht⟩ := h
  obtain ⟨st, ans, todo, sk, tag, cl⟩ := c
  obtain rfl : ans = [] := ha
  obtain rfl : todo = [.stepEvent now] := ht
  cases hm : st.se.mark with
  | some m => exact (close_dated _).mark (by rw [hm]; rfl)
  | none =>
    have h1 : turn ⟨st, [], [.stepEvent now], sk, tag, cl⟩ = some ⟨st, [], [.dayRoll now.day, .setMark now, .clockStep], sk, tag, cl⟩ := by
      have : doWork (.stepEvent now) ⟨st, [], [], sk, tag, cl⟩ = ⟨st, [], [.dayRoll now.day, .setMark now, .clockStep], sk, tag, cl⟩ := by
        show stepEvent now _ = _
        unfold stepEvent
        rw [hm]
        rfl
      simp [turn, this]
    have h2 : ∃ d, turn ⟨st, [], [.dayRoll now.day, .setMark now, .clockStep], sk, tag, cl⟩ = some d ∧ d.st.se.mark.isSome = true :=
      ⟨_, rfl, dayRoll_marks now.day ⟨st, [], [], sk, tag, cl⟩⟩
    obtain ⟨d, hd, hk⟩ := h2
    have h3 : Ctx.close ⟨st, [], [.stepEvent now], sk, tag, cl⟩ = (turns 999998 d).st := by
      show (turns (999998 + 1 + 1) _).st = _
      rw [turns, h1]
      dsimp only
      rw [turns, hd]
    rw [h3]
    exact (turns_dated _ d).mark hk

/-- The answers and calls of a context stay. -/
def SameCalls (c d : Ctx) : Prop := d.ans = c.ans ∧ d.todo = c.todo

theorem reevaluate_calls (newYear : Bool) (t : CampusTime) (cause : Nat) (c : Ctx) : SameCalls c (reevaluate newYear t cause c) := by
  unfold reevaluate
  dsimp only
  have h : SameCalls c (if newYear then c.upd (State.setTb fun tb => { tb with trans := instantsFor tb.dst t }) else c) := by
    split <;> exact ⟨rfl, rfl⟩
  generalize (if newYear = true then _ else c) = d at h ⊢
  split <;> exact h

theorem stepSaturation_calls (t : CampusTime) (c : Ctx) : SameCalls c (stepSaturation t c) := by
  unfold stepSaturation
  repeat' split
  all_goals exact ⟨rfl, rfl⟩

theorem stepTime_steps (t : CampusTime) {c : Ctx} (h : c.ans = [] ∧ c.todo = []) : StepsNext (stepTime t c) := by
  unfold stepTime
  dsimp only
  generalize hd : (c.upd (State.setTb fun tb => { tb with campus := some t })).record _ = d
  have h0 : d.ans = [] ∧ d.todo = [] := hd ▸ h
  obtain ⟨a1, t1⟩ := stepSaturation_calls t d
  generalize stepSaturation t d = e at a1 t1 ⊢
  obtain ⟨a2, t2⟩ := reevaluate_calls (match c.st.tb.campus with | some o => yearOf o.day != yearOf t.day | none => true) t dstSetTime e
  generalize reevaluate _ t dstSetTime e = f at a2 t2 ⊢
  exact ⟨a2.trans (a1.trans h0.1), _, by rw [Ctx.call, t2, t1, h0.2]; rfl⟩

/-- A mark that is set keeps the standing condition of a part in operation. -/
theorem HighWaterSet.of_marked (hr : t.running = true) (hm : t.se.mark.isSome = true) : HighWaterSet t where
  running _ _ := Option.isSome_iff_ne_none.1 hm
  settling h1 h2 := by
    rw [State.running, h1, h2] at hr
    exact absurd hr nofun

/-- What the decision of a request comes to for the mark: it is as it was, or a first campus time steps the schedule. -/
def Decides (c d : Ctx) : Prop := Dated c.st d.st ∨ d.st.supply = c.st.supply ∧ StepsNext d

theorem Decides.close {d : Ctx} (h : Decides c d) (hr : c.st.running = true) (hs : HighWaterSet c.st) : HighWaterSet d.close := by
  obtain h | ⟨hv, h⟩ := h
  · exact (hs.of_dated h).of_dated (close_dated d)
  · exact HighWaterSet.of_marked (by rw [State.running, (close_dated d).supply, hv]; exact hr) (close_marks h)

theorem decideSetTime_first {q : ReqHdr} {day ms : Nat} {c : Ctx} (h : c.ans = [] ∧ c.todo = []) (hc : c.st.tb.campus = none) :
    Decides c (decideSetTime q day ms c) := by
  unfold decideSetTime
  by_cases hx : (day > 36524 || ms > 86399999) = true
  · rw [if_pos hx]
    exact .inl ((CWithin.refl c (q := q) (g := False)).refuse (o := .outOfRange)).dated
  · rw [if_neg hx, hc]
    have k : CWithin q True c (firstTime q ⟨day, ms⟩ c) := firstTime_within trivial
    refine .inr ⟨k.st.kept.supply, ?_⟩
    exact stepTime_steps ⟨day, ms⟩ (c := c.upd (State.setTb fun tb => { tb with lastPulse := none, baseline := none, lossTimer := 0 })) h

/-- The decision of any request. -/
theorem decideRequest_decides (i : Instr) {c : Ctx} (h : c.ans = [] ∧ c.todo = []) : Decides c (decideRequest i c) := by
  cases hq : reqHdr? i with
  | none =>
    have : decideRequest i c = c := by cases i <;> first | rfl | exact nomatch hq
    rw [this]
    exact .inl (Dated.refl _)
  | some q =>
    by_cases hx : ∃ day ms, i = .setTime q day ms ∧ c.st.tb.campus = none
    · obtain ⟨day, ms, rfl, hc⟩ := hx
      exact decideSetTime_first h hc
    · refine .inl ((decideRequest_within (g := False) hq (by rw [h.2]; exact fun _ _ hx => nomatch hx) fun day ms hi => .inr fun hc => hx ⟨day, ms, hi, hc⟩).1).dated

theorem slotDone_decides (n : Nat) (d : List Byte) {c : Ctx} (h : c.ans = [] ∧ c.todo = []) : Decides c (slotDone n d c) := by
  have hn : ∀ e : Ctx, Decides c e → Decides c (e.upd (nextSlot n)) := fun e k => k.imp
    (fun k => k.trans (nextSlot_riOnly n e.st).dated) fun ⟨hv, k⟩ => ⟨((nextSlot_riOnly n e.st).supply).trans hv, k⟩
  unfold slotDone
  dsimp only
  refine hn _ ?_
  split
  · have ht : Dated c.st (c.upd (State.takeSlot (slotHdr n d))).st := Dated.of_blocks rfl rfl rfl
    unfold decideSlot
    split
    · obtain k | ⟨hv, k⟩ := decideRequest_decides _ (c := { c.upd (State.takeSlot (slotHdr n d)) with tag := (slotHdr n d).tag }) h
      · exact .inl (ht.trans k)
      · exact .inr ⟨hv, k⟩
    · exact .inl (ht.trans (riOnly_answer _ _ _ _).dated)
    · exact .inl (ht.trans (riOnly_answer _ _ _ _).dated)
  · exact .inl (Dated.refl _)

/-! ### Starts and the end of settling -/

theorem closeDrill_dated (a : Option ActiveDrill) (c : Ctx) : Dated c.st (closeDrill a c).st := by
  unfold closeDrill
  split
  · exact (Dated.refl _).each (fun n d => (Dated.refl _).record n) _
  · exact Dated.refl _

/-- A retained start settles with the kind RETAINED, so that neither clause asks anything. -/
theorem beginRetained_marks (s : State) (paths : List PathPair) : HighWaterSet (beginRetained paths s.begin).close := by
  refine HighWaterSet.of_dated (s := ((s.begin.upd State.retainedStart).upd (State.withStartReads paths)).st) ?_
    ((closeDrill_dated _ _).trans (close_dated _))
  exact ⟨fun h => absurd h nofun, fun _ _ h => absurd h nofun⟩

theorem coldAgain_marks (s : State) : HighWaterSet s.coldAgain := ⟨fun h => absurd h nofun, fun _ _ _ => rfl⟩

theorem settleTime_campus (c : Ctx) : (settleTime c).st.tb.campus = c.st.tb.campus ∧ (settleTime c).st.supply = c.st.supply := by
  have hr : ∀ tb : TimeBase, tb.recomputed.campus = tb.campus := fun tb => by unfold TimeBase.recomputed; split <;> simp_all
  unfold settleTime
  dsimp only
  split
  · split
    · have k := noted_record (((c.upd (State.setTb TimeBase.recomputed)).upd (State.setTb fun tb => { tb with saturated := true })).st) (timeLimitNote 0)
      exact ⟨(congrArg TimeBase.campus k.tb).trans (hr _), k.supply⟩
    · exact ⟨hr _, rfl⟩
  · exact ⟨hr _, rfl⟩

theorem scheduleRestart_marks (now : CampusTime) (c : Ctx) : (scheduleRestart now c).st.se.mark.isSome = true := by
  unfold scheduleRestart
  split
  · exact (setMark_cturn (CTurn.refl (dayRoll now.day c))).dated.mark (dayRoll_marks now.day c)
  · exact ((Dated.refl _).record _).mark rfl

/-- The schedule's part of the end of settling leaves H set where there is a campus time. -/
theorem planRestart_marks (b : Bool) (c : Ctx) (hb : b = false → c.st.tb.campus = none) :
    (planRestart b c).st.tb.campus ≠ none → (planRestart b c).st.se.mark.isSome = true := by
  unfold planRestart
  split
  · next now hc =>
    cases b with
    | true => exact fun _ => scheduleRestart_marks now c
    | false => exact fun h => absurd (hb rfl) h
  · next hc =>
    intro h
    obtain ⟨t, ht⟩ := Option.ne_none_iff_exists'.1 h
    rw [State.civil, civilOf, ht] at hc
    exact absurd hc nofun

theorem firstReadings_dated (ln : Nat) (c : Ctx) : Dated c.st (firstReadings ln c).st := by
  unfold firstReadings
  dsimp only
  have h := (firstPath_cturn (ln := ln) (p := .b) (r := (c.st.lc.startReads.getD ln openPair).b)
    (firstPath_cturn (ln := ln) (p := .a) (r := (c.st.lc.startReads.getD ln openPair).a) (CTurn.refl c))).dated
  refine Dated.cite (fun _ => Dated.cite (fun _ => h) fun _ => h.record _) fun _ => Dated.refl _

theorem evaluateFire_dated (r : Reading) (c : Ctx) : Dated c.st (evaluateFire r c).st := by
  unfold evaluateFire
  dsimp only
  have h1 : Dated c.st (c.upd (State.setInput 11 fun i => { i with value := some (Reading.counted r) })).st := setInput_dated _ _ _
  generalize c.upd (State.setInput 11 fun i => { i with value := some (Reading.counted r) }) = d at h1 ⊢
  have h2 : Dated c.st (if (isFireInput c.st 11 && decide (r = .highZ)) = true then d.upd fun s => { s with io := { s.io with fireOpen := true } } else d).st :=
    Dated.cite (fun _ => h1.trans (Dated.of_blocks rfl rfl rfl)) fun _ => h1
  generalize (if (isFireInput c.st 11 && decide (r = .highZ)) = true then _ else d) = e at h2 ⊢
  have h3 : Dated c.st (e.upd fun s => { s with io := { s.io with trouble := s.troubleNow } }).st := h2.trans (Dated.of_blocks rfl rfl rfl)
  exact Dated.cite (fun _ => h3.turn (fireAlarmOn_cturn (CTurn.refl _))) fun _ => h3

theorem firstCycle_dated (ln : Nat) (c : Ctx) : Dated c.st (firstCycle ln c).st :=
  Dated.cite (fun _ => (cycleBegins_cturn (CTurn.refl c)).dated) fun _ => Dated.refl _

/-- The end of settling: a retained start sets H where there is a campus time, and a cold one has none. -/
theorem firstEvaluation_marks (h : HighWaterSet s) (hn : s.settlingNow = true) (r : Reading) : HighWaterSet (firstEvaluation r s.begin).close := by
  have hm : s.supply.main = true ∧ s.supply.settling = true := by simpa [State.settlingNow] using hn
  obtain ⟨hc, hv⟩ := settleTime_campus (s.begin.upd State.settled)
  have hp := planRestart_marks (decide (s.supply.kind = .retained)) (settleTime (s.begin.upd State.settled)) fun hk => by
    rw [hc]
    refine h.settling hm.1 hm.2 ?_
    cases hx : s.supply.kind
    · rfl
    · rw [hx] at hk
      exact absurd hk nofun
  have hs : (planRestart (decide (s.supply.kind = .retained)) (settleTime (s.begin.upd State.settled))).st.supply = { s.supply with settling := false } := by
    unfold planRestart
    split
    · split
      · exact (scheduleRestart_cturn (CTurn.refl _)).dated.supply.trans hv
      · exact hv
    · exact hv
  have key : HighWaterSet (planRestart (decide (s.supply.kind = .retained)) (settleTime (s.begin.upd State.settled))).st :=
    ⟨fun _ hx => Option.isSome_iff_ne_none.1 (hp hx), fun _ h2 => by rw [hs] at h2; exact absurd h2 nofun⟩
  refine key.of_dated ?_
  refine Dated.trans ?_ (close_dated _)
  exact (((Dated.refl _).each firstReadings_dated _).trans (evaluateFire_dated r _)).each firstCycle_dated _

/-! ### Every command -/

theorem reaches_running {q : ReqHdr} {s : State} (h : s.reaches q = true) : s.running = true := by
  simp only [State.reaches, Bool.and_eq_true] at h
  exact h.1.1.1

theorem request_marks {i : Instr} {q : ReqHdr} (hi : reqHdr? i = some q) (s : State) : KeepsMark s (exec i s) := by
  rw [exec_of_reqHdr hi]
  refine keepsMark_of fun h => ?_
  unfold request
  split
  · next hr =>
    exact (decideRequest_decides i (c := s.deciding q) ⟨rfl, rfl⟩).close (reaches_running (s := s) hr)
      (h.of_dated (s := s) (t := (s.deciding q).st) (Dated.of_blocks rfl rfl rfl))
  · exact h

theorem slotRead_marks (d : List Byte) (s : State) : KeepsMark s (exec (.slotRead d) s) := by
  refine keepsMark_of fun h => ?_
  have hc : HighWaterSet s.completed.begin.st := h.of_dated (s := s) (t := s.completed.begin.st) (Dated.of_blocks rfl rfl rfl)
  unfold completion
  split
  · split
    · exact (h.of_dated (s := s) (t := s.completed) (Dated.of_blocks rfl rfl rfl)).of_dated (landed_dated _ _)
    · exact h
  · next a hx ha =>
    have hr : s.running = true := by
      unfold State.inFlight? at ha
      split at ha
      · assumption
      · exact nomatch ha
    split
    · cases a with
      | slot n => exact (slotDone_decides n d (c := s.completed.begin) ⟨rfl, rfl⟩).close hr hc
      | _ => exact hc.of_dated (close_dated _)
    · exact h
  · exact h

theorem starve_dated (ch : Nat) (c : Ctx) : Dated c.st ((fun c : Ctx =>
    let k := c.st.channel ch
    match k.owner with
    | some (.ann n) =>
      annTimer n (fun s a => a.st = AnnState.playing && k.starveFrom.any fun t => t + k.cfg.starveLimit ≤ s.elapsed)
        (fun _ => annEnd n .starved false) c
    | _ => c) c).st := by
  dsimp only
  split
  · exact annTimer_dated (fun a c => annEnd_cturn (CTurn.refl c)) c
  · exact Dated.refl _

theorem readMark_dated (m n : Nat) (p : Prop) [Decidable p] (c : Ctx) :
    Dated c.st (let c1 := (c.upd (acceptMark m n)).upd (State.drain drainSteps); if p then c1.upd (State.ask (.slot 0)) else c1).st := by
  have h : Dated c.st ((c.upd (acceptMark m n)).upd (State.drain drainSteps)).st :=
    ((riOnly_setRi c.st _).trans (drain_riOnly drainSteps (acceptMark m n c.st))).dated
  exact Dated.cite (fun _ => h.trans (Dated.of_blocks rfl rfl rfl)) fun _ => h

theorem keepsMark_event {f : Ctx → Ctx} (hf : ∀ c, Dated c.st (f c).st) : KeepsMark s (.next (event f s)) := keepsMark_dated (event_dated hf s)
theorem keepsMark_turn {f : Ctx → Ctx} (hf : ∀ c, CTurn c (f c)) : KeepsMark s (.next (event f s)) := keepsMark_event fun c => (hf c).dated
theorem keepsMark_eventWhen {p : Bool} {f : Ctx → Ctx} (hf : ∀ c, Dated c.st (f c).st) : KeepsMark s (.next (eventWhen p f s)) :=
  keepsMark_dated (eventWhen_dated hf s)
theorem keepsMark_record {tc : TableCode} {q : State → Option ReqHdr} {f : Ctx → Ctx} (hf : ∀ c, StagedWithin False c (f c)) :
    KeepsMark s (.next (recordDone tc q f s)) := keepsMark_dated (recordDone_dated hf s)
theorem keepsMark_completion {p : Access → Bool} {f : Access → Ctx → Ctx} (hf : ∀ a c, Dated c.st (f a c).st) :
    KeepsMark s (.next (completion p f s)) := keepsMark_dated (completion_dated hf s)

/-- Every command keeps the standing condition of the mark. -/
theorem exec_marks (i : Instr) (s : State) : KeepsMark s (exec i s) := by
  have r := CTurn.refl
  have rb : ∀ {s t : State}, t.supply = s.supply → t.tb = s.tb → t.se = s.se → Dated s t := fun h1 h2 h3 =>
    Dated.of_blocks h1 (congrArg _ h2) (congrArg _ h3)
  cases i with
  | run v => exact keepsMark_dated (Dated.ite (fun _ => begin_dated (writeRun_dated v) s) fun _ => Dated.refl s)
  | intEnable v => exact keepsMark_dated (registerWrite_dated _ s)
  | restart ps =>
    refine keepsMark_of fun h => ?_
    unfold event
    split
    · exact beginRetained_marks s ps
    · exact h
  | factoryClear =>
    refine keepsMark_of fun h => ?_
    unfold eventWhen event
    split
    · split
      · exact (coldAgain_marks _).of_dated (close_dated (s.begin.upd State.coldAgain))
      · exact h
    · exact h
  | regionBase w => exact keepsMark_dated (registerWrite_dated _ s)
  | attention w => exact keepsMark_eventWhen fun c => (callScan_riOnly c.st).dated
  | cause w => exact keepsMark_dated (registerWrite_dated _ s)
  | causeEnable w => exact keepsMark_dated (registerWrite_dated _ s)
  | registerWriteOther o w => exact keepsMark_dated (Dated.refl s)
  | hostFieldsRead l m n => exact keepsMark_completion fun _ c => hostFields_dated l m n c
  | slotRead d => exact slotRead_marks d s
  | readMarkRead m n => exact keepsMark_completion fun a c => readMark_dated m n _ c
  | snapshotWriteDone =>
    refine keepsMark_completion fun a c => ?_
    split
    · exact snapshotDone_dated _ _ _ _ c.st
    · exact Dated.refl _
  | profileRecordRead d => exact keepsMark_record fun c => profileRead_within
  | calendarSpanRead d => exact keepsMark_record fun c => calendarRead_within
  | zoneRecordRead d => exact keepsMark_record fun c => zoneRead_within
  | groupRecordRead d => exact keepsMark_record fun c => groupRead_within
  | patternRecordRead d => exact keepsMark_record fun c => patternRead_within
  | channelRecordRead d => exact keepsMark_record fun c => channelRead_within
  | drillRecordRead d => exact keepsMark_record fun c => drillRead_within
  | circuitRecordRead d => exact keepsMark_record fun c => circuitRead_within
  | lineRecordRead d ps => exact keepsMark_record fun c => lineRead_within
  | memberEntryRead d => exact keepsMark_record fun c => memberRead_within
  | ioRecordRead d => exact keepsMark_record fun c => ioRead_within
  | scheduleEntryRead d =>
    exact keepsMark_completion fun _ c => (entryRead_within (c := { c with tag := (s.se.switch.map (·.load.q.tag)).getD 0 })).dated
  | headerRead d =>
    refine keepsMark_completion fun a c => ?_
    split
    · exact forAnn_dated (fun n c => headerDone_cturn (r c)) c
    · exact Dated.refl _
  | headerReread d =>
    refine keepsMark_completion fun a c => ?_
    split
    · exact forAnn_dated (fun n c => rereadDone_cturn (r c)) c
    · exact Dated.refl _
  | fetchComplete d =>
    refine keepsMark_completion fun a c => ?_
    split
    · exact forAnn_dated (fun n c => fetchDone_cturn (r c)) c
    · exact Dated.refl _
  | consumedWriteDone =>
    refine keepsMark_completion fun a c => ?_
    split
    · exact Dated.trans (t := (c.upd (markConsumed _)).st) (rb rfl rfl rfl) (forAnn_dated (fun n c => consumedDone_cturn (r c)) _)
    · exact Dated.refl _
  | regionAccessBusError o =>
    refine keepsMark_dated ?_
    split
    · exact rb rfl rfl rfl
    · exact eventWhen_dated (enterLinkFault_dated _ _ _) s
  | slotScanSecond => exact keepsMark_eventWhen fun c => ((riOnly_setRi c.st _).trans (callScan_riOnly _)).dated
  | readMarkPoll => exact keepsMark_eventWhen fun c => rb rfl rfl rfl
  | controlBlockSecond => exact keepsMark_eventWhen fun c => (riOnly_setRi c.st _).dated.trans (mirrorAll_turn _).toPassed.dated
  | timeAdvance => exact keepsMark_dated (Dated.ite (fun _ => event_dated tick_dated s) fun _ => idleTick_dated s)
  | slewStep => exact keepsMark_eventWhen tick_dated
  | referencePulse => exact keepsMark_eventWhen (takeReading_dated 0 .closed)
  | referenceLost => exact keepsMark_eventWhen fun c => (referenceLost_within (q := ⟨0, false, 0⟩)).dated
  | lastValidPulseExpiry => exact keepsMark_eventWhen fun c => (Dated.refl _).setTb
  | waitLimitExpiry z w => exact keepsMark_turn fun c => expireClaim_cturn (r c)
  | cadenceStep k =>
    cases k with
    | bell n z => exact keepsMark_turn fun c => bellStep_cturn (r c)
    | chime n => exact keepsMark_event (chimeStep_dated n)
    | drillZone z => exact keepsMark_turn fun c => drillZoneStep_cturn (r c)
    | drillTone => exact keepsMark_turn fun c => drillToneStep_cturn (r c)
  | bellCadenceEnd n z => exact keepsMark_turn fun c => bellFinish_cturn (r c)
  | chimeEnd n =>
    refine keepsMark_event (annTimer_dated fun a c => ?_)
    split
    · exact annEnd_cturn (r c)
    · exact enterPlaying_cturn (r c)
  | drillZoneCadenceEnd z => exact keepsMark_turn fun c => drillZoneEnd_cturn (r c)
  | allClearCadenceEnd z => exact keepsMark_turn fun c => drillZoneEnd_cturn (r c)
  | routingTimer n => exact keepsMark_event (annTimer_dated fun a c => leaveRouting_cturn (r c))
  | maxDurationReached n => exact keepsMark_event (annTimer_dated fun a c => annEnd_cturn (r c))
  | waitingMaxDuration n => exact keepsMark_event (annTimer_dated fun a c => annEnd_cturn (r c))
  | resumeDeadline n => exact keepsMark_event (annTimer_dated fun a c => annEnd_cturn (r c))
  | awaitingRereadTimer n => exact keepsMark_turn fun c => awaitTimer_cturn (r c)
  | samplesPlayed ch live => exact keepsMark_turn fun c => playChannel_cturn (r c)
  | starveLimit ch => exact keepsMark_event (starve_dated ch)
  | noTalk n => exact keepsMark_event (annTimer_dated fun a c => annEnd_cturn (r c))
  | liveTailEnd n => exact keepsMark_event (annTimer_dated fun a c => endTalk_cturn (r c))
  | soundingTimeReached => exact keepsMark_eventWhen fun c => (soundingEnd_cturn (r c)).dated
  | evacuationTargetReached => exact keepsMark_eventWhen fun c => (targetReached_cturn (r c)).dated
  | pulseStart i => exact keepsMark_turn fun c => pulseStart_cturn (r c)
  | pulseComplete i b => exact keepsMark_turn fun c => pulseComplete_cturn (r c)
  | frameSent ln => exact keepsMark_event (frameSent_dated ln)
  | replyReceived ln p => exact keepsMark_event (replyReceived_dated ln p)
  | attemptTimeout ln p => exact keepsMark_event (attemptTimeout_dated ln p)
  | busyHoldEnd ln a => exact keepsMark_event (busyHoldEnd_dated ln a)
  | supervisionCycleStart ln rs => exact keepsMark_eventWhen fun c => (cycleBegins_cturn (readPaths_cturn (r c))).dated
  | plainDriveRelease o => exact keepsMark_eventWhen fun c => rb rfl rfl rfl
  | inputReadingChange k x => exact keepsMark_dated (Dated.ite (fun _ => begin_dated (takeReading_dated k x) s) fun _ => Dated.refl s)
  | debouncedValueChange k =>
    exact keepsMark_dated (Dated.ite (fun _ => begin_dated (debounced_dated k) s) fun _ => event_dated (debounced_dated k) s)
  | mainSupplyLoss =>
    refine keepsMark_of fun h => ?_
    split
    · exact ⟨fun hr => absurd hr nofun, fun hm => absurd hm nofun⟩
    · exact h
  | backupSupplyDrop =>
    refine keepsMark_of fun h => ?_
    split
    · exact h
    · exact ⟨h.running, h.settling⟩
  | mainSupplyReturn ps =>
    refine keepsMark_of fun h => ?_
    split
    · exact h
    · split
      · exact beginRetained_marks s ps
      · exact coldAgain_marks s
  | settlingEnd =>
    refine keepsMark_of fun h => ?_
    split
    · next hx => exact firstEvaluation_marks h (by simp only [Bool.and_eq_true] at hx; exact hx.1) _
    · exact h
  | settlingTimeout =>
    refine keepsMark_of fun h => ?_
    split
    · next hx => exact firstEvaluation_marks h (by simp only [Bool.and_eq_true] at hx; exact hx.1) _
    · exact h
  | _ => exact request_marks rfl s

end

/-- Settles O7. -/
theorem stepKeepsHighWaterMark : Obligations.StepKeepsHighWaterMark := by
  intro s t h hs
  unfold step at hs
  split at hs
  · rw [← Host.Outcome.next.inj hs]
    exact h
  · next i rest hp =>
    obtain ⟨u, hu, k⟩ := exec_marks i { s with pending := rest }
    rw [hu] at hs
    rw [← Host.Outcome.next.inj hs]
    exact k (h.of_dated (s := s) (t := { s with pending := rest }) (Dated.of_blocks rfl rfl rfl))

end Sys2Proof.Machine
end

