-- ==== Sys2Proof/Proofs/Schedule.lean ====
section
/-! SUPPORT. The Schedule Engine's calls, one at a time: the high-water mark, the FLAGS entries, the day roll, and which entries are due. -/

namespace Sys2Proof.Machine
open Sys2Proof

/-! ### The high-water mark -/

/-- The state with H at a civil time. -/
def State.markedAt (now : CampusTime) (s : State) : State := { s with se := { s.se with mark := some (markOf now) } }

theorem riFree_markedAt (now : CampusTime) : RiFree (State.markedAt now) := fun _ _ => rfl

theorem setMark_later {now : CampusTime} {c : Ctx} (h : ∀ m, c.st.se.mark = some m → m.lin < (now.lin : Int)) :
    setMark now c = c.upd (State.markedAt now) := by
  unfold setMark
  cases hm : c.st.se.mark with
  | none => rfl
  | some m => exact if_pos (decide_eq_true (h m hm))

theorem setMark_back {now : CampusTime} {c : Ctx} {m : HighWater} (hm : c.st.se.mark = some m) (h : (now.lin : Int) ≤ m.lin) :
    setMark now c = c := by
  unfold setMark
  rw [hm]
  exact if_neg (by simpa using h)

/-- H becomes the moment, when the moment is later. -/
theorem Amid.setMark {u : State} {as : List Ans} {ws : List Work} {c : Ctx} (h : Amid u as ws c) {now : CampusTime}
    (hl : ∀ m, u.se.mark = some m → m.lin < (now.lin : Int)) : Amid (u.markedAt now) as ws (doWork (.setMark now) c) := by
  rw [show doWork (.setMark now) c = c.upd (State.markedAt now) from setMark_later (by rwa [h.state.se])]
  exact h.upd (riFree_markedAt now)

/-! ### A step or a minute while no circuit is running -/

theorem each_of_still {α : Type} {f : α → Ctx → Ctx} {c : Ctx} {l : List α} (h : ∀ x, x ∈ l → f x c = c) : Ctx.each f l c = c := by
  induction l with
  | nil => rfl
  | cons x l ih =>
    show Ctx.each f l (f x c) = c
    rw [h x List.mem_cons_self]
    exact ih fun y hy => h y (List.mem_cons_of_mem _ hy)

theorem CircuitsAtRest.of_cu {s t : State} (h : CircuitsAtRest s) (hc : t.cu = s.cu) : CircuitsAtRest t := fun i hi => by
  rw [show t.circuit i = s.circuit i by unfold State.circuit; rw [hc]]
  exact h i hi

theorem circuits_rest {c : Ctx} (h : CircuitsAtRest c.st) : Ctx.each circuitPoint (List.range 4) c = c :=
  each_of_still fun i hi => if_neg (by simp [h i (List.mem_range.1 hi)])

/-! ### Flags -/

/-- The state with these flags. -/
def State.flagged (f : Set8) (s : State) : State := { s with dp := { s.dp with flags := f } }

theorem riFree_flagged (f : Set8) : RiFree (State.flagged f) := fun _ _ => rfl

theorem Amid.changeFlags {u : State} {as : List Ans} {ws : List Work} {c : Ctx} (h : Amid u as ws c) (m1 m2 : Set8) (cause : Nat) (tag : Word) :
    Amid (u.flagged (flagChange m1 m2 u.dp.flags)) as ws (changeFlags m1 m2 cause tag c) := by
  unfold Machine.changeFlags
  dsimp only
  rw [h.state.dp]
  split
  · next he =>
    rw [he]
    exact h
  · exact (h.upd (riFree_flagged _)).record _

/-- The calls of FLAGS entries, each of them tested as it is reached. -/
theorem Amid.runs_flags {W : Nat × Entry → Work} {cause : Nat × Entry → Nat} {ws : List Work}
    (hw : ∀ p m1 m2 d, p.2.kind = .flags m1 m2 → doWork (W p) d = if selected d.st p.2 then Machine.changeFlags m1 m2 (cause p) 0 d else d)
    {ps : List (Nat × Entry)} (hk : ∀ p, p ∈ ps → ∃ m1 m2, p.2.kind = .flags m1 m2) {u : State} {c : Ctx} (h : Amid u [] (ps.map W ++ ws) c) :
    ∃ d, Leads ps.length c d ∧ Amid (u.flagged (runFlags u.se.profile (ps.map Prod.snd) u.dp.flags)) [] ws d := by
  induction ps generalizing u c with
  | nil => exact ⟨c, Leads.refl c, h⟩
  | cons p ps ih =>
    obtain ⟨m1, m2, hp⟩ := hk p List.mem_cons_self
    have h0 : Amid (u.flagged (runFlags u.se.profile [p.2] u.dp.flags)) [] [] (doWork (W p) { c with todo := [] }) := by
      rw [hw p m1 m2 _ hp]
      have hs : (selected ({ c with todo := [] } : Ctx).st p.2 = true) ↔ p.2.profiles.getLsbD u.se.profile = true ∧ conditionPasses u.dp.flags p.2.cond = true := by
        show selected c.st p.2 = true ↔ _
        unfold selected
        rw [h.state.se, h.state.dp, Bool.and_eq_true]
      unfold runFlags
      rw [hp]
      dsimp only
      by_cases hx : p.2.profiles.getLsbD u.se.profile = true ∧ conditionPasses u.dp.flags p.2.cond = true
      · rw [if_pos hx, if_pos (hs.2 hx)]
        exact h.alone.changeFlags m1 m2 _ 0
      · rw [if_neg hx, if_neg fun hy => hx (hs.1 hy)]
        exact h.alone
    obtain ⟨d, hl, h1⟩ := h.takesCall (ws := ps.map W ++ ws) h0
    obtain ⟨e, hl2, h2⟩ := ih (fun q hq => hk q (List.mem_cons_of_mem _ hq)) h1
    exact ⟨e, hl.trans hl2, h2⟩

/-! ### The day roll -/

/-- R52: the Schedule Engine's banks on a civil day. -/
def Schedule.banksOn (d : Nat) (e : Schedule) : Schedule :=
  match e.waiting with
  | some p => if p.effective ≤ d then { e with active := p.bank, waiting := none } else e
  | none => e

/-- The state after the day roll for a civil day, H being the instant before it. -/
def State.rolledOn (d : Nat) (s : State) : State := { s with
  dp := s.dp.rolled d
  se := { s.se.banksOn d with profile := profileOf s.dp.calendar d, mark := some ⟨d, -1⟩ } }

theorem rolled_se (now : CampusTime) (s : State) : ((s.rolledOn now.day).markedAt now).se = s.se.rolled now s.dp.calendar := rfl

/-- The state whose banks are those of a civil day. -/
def State.banked (d : Nat) (s : State) : State := { s with se := s.se.banksOn d }

/-- The state whose Day Plan and profile are those of a civil day. -/
def State.planned (d : Nat) (s : State) : State := { s with dp := s.dp.rolled d, se := { s.se with profile := profileOf s.dp.calendar d } }

theorem flagChange_presets (p : Profile) (f : Set8) : flagChange (presetMasks p).1 (presetMasks p).2 f = (f &&& ~~~p.mask) ||| (p.mask &&& p.value) := by
  unfold flagChange presetMasks
  ext i hi
  simp only [BitVec.getElem_or, BitVec.getElem_and, BitVec.getElem_not]
  cases f[i] <;> cases p.mask[i] <;> cases p.value[i] <;> rfl

theorem Amid.bankSwap {u : State} {as : List Ans} {ws : List Work} {c : Ctx} (h : Amid u as ws c) (d : Nat) :
    Amid (u.banked d) as ws (bankSwap d c) := by
  unfold Machine.bankSwap State.banked Schedule.banksOn
  rw [h.state.se]
  cases hw : u.se.waiting with
  | none => exact h
  | some p =>
    dsimp only
    split
    · exact (h.upd (f := fun s => { s with se := { s.se with active := p.bank, waiting := none } }) fun _ _ => rfl).record _
    · exact h

theorem Amid.dayRollPlan {u : State} {as : List Ans} {ws : List Work} {c : Ctx} (h : Amid u as ws c) (d : Nat) :
    Amid (u.planned d) as ws (dayRollPlan d c) := by
  obtain ⟨f, hf⟩ : ∃ f : State → State, f = fun s => { s with
    dp := { s.dp with override := none, dayBegun := some d }
    se := { s.se with profile := profileOf u.dp.calendar d } } := ⟨_, rfl⟩
  have hx : Machine.dayRollPlan d c = Machine.changeFlags (presetMasks ((c.upd f).st.profileRec (profileOf u.dp.calendar d))).1
      (presetMasks ((c.upd f).st.profileRec (profileOf u.dp.calendar d))).2 flagsDayRoll 0 (c.upd f) := by
    unfold Machine.dayRollPlan
    rw [h.state.dp, hf]
  have h1 : Amid (f u) as ws (c.upd f) := h.upd (hf ▸ fun _ _ => rfl)
  have hp : (c.upd f).st.profileRec (profileOf u.dp.calendar d) = u.dp.profiles.getD (profileOf u.dp.calendar d) Profile.blank := by
    unfold State.profileRec
    rw [h1.state.dp, hf]
  rw [hx, hp]
  have h2 := h1.changeFlags (presetMasks (u.dp.profiles.getD (profileOf u.dp.calendar d) Profile.blank)).1
    (presetMasks (u.dp.profiles.getD (profileOf u.dp.calendar d) Profile.blank)).2 flagsDayRoll 0
  rw [flagChange_presets, hf] at h2
  rw [hf]
  exact h2

/-- The state with H at the instant before a civil day. -/
def State.eveOf (d : Nat) (s : State) : State := { s with se := { s.se with mark := some ⟨d, -1⟩ } }

theorem riFree_eveOf (d : Nat) : RiFree (State.eveOf d) := fun _ _ => rfl

theorem rolledOn_eq (d : Nat) (s : State) : s.rolledOn d = ((s.banked d).planned d).eveOf d := rfl

/-- R51: the records of a day roll aside, it is the bank swap, the plan of the day and the mark. -/
theorem dayRoll_eq (d : Nat) (c : Ctx) : ∃ n ns, Machine.dayRoll d c = ((Machine.dayRollPlan d (Machine.bankSwap d (Ctx.each Ctx.record ns c))).record n).upd
    (State.eveOf d) := by
  unfold Machine.dayRoll
  cases c.st.se.mark with
  | none => exact ⟨_, [], rfl⟩
  | some m =>
    dsimp only
    by_cases hd : d > m.day + 1
    · rw [if_pos hd]
      exact ⟨_, [_], rfl⟩
    · rw [if_neg hd]
      exact ⟨_, [], rfl⟩

theorem Amid.dayRoll {u : State} {as : List Ans} {ws : List Work} {c : Ctx} (h : Amid u as ws c) (d : Nat) :
    Amid (u.rolledOn d) as ws (doWork (.dayRoll d) c) := by
  obtain ⟨n, ns, hd⟩ := dayRoll_eq d c
  rw [show doWork (.dayRoll d) c = Machine.dayRoll d c from rfl, hd, rolledOn_eq]
  exact ((((h.records ns).bankSwap d).dayRollPlan d).record n).upd (riFree_eveOf d)

/-! ### The entries that are due -/

theorem indexed_snd (es : List Entry) : (indexed es).map Prod.snd = es := by
  unfold indexed
  rw [List.map_map, show (Prod.snd ∘ fun p : Entry × Nat => (p.2, p.1)) = Prod.fst from rfl, List.zipIdx_map_fst]

theorem dueAfter_eq {s : State} {h : HighWater} {now : CampusTime} (hm : s.se.mark = some h) :
    dueAfter s now.lin = (indexed s.se.active.entries).filter fun p => decide (p.2.dueBy h now) := by
  unfold dueAfter
  rw [hm]
  refine List.filter_congr fun p _ => ?_
  unfold Entry.instant Entry.dueBy
  rw [Bool.decide_and]
  congr 1
  exact decide_eq_decide.2 (by omega)

theorem dueAfter_snd {s : State} {h : HighWater} {now : CampusTime} (hm : s.se.mark = some h) :
    (dueAfter s now.lin).map Prod.snd = s.se.active.entries.filter fun e => decide (e.dueBy h now) := by
  rw [dueAfter_eq hm, show (fun p : Nat × Entry => decide (p.2.dueBy h now)) = (fun e : Entry => decide (e.dueBy h now)) ∘ Prod.snd from rfl,
    ← List.filter_map, indexed_snd]

theorem dueAfter_mem {s : State} {l : Int} {p : Nat × Entry} (hp : p ∈ dueAfter s l) : p.2 ∈ s.se.active.entries := by
  unfold dueAfter at hp
  split at hp
  · exact nomatch hp
  · have := List.mem_map_of_mem (f := Prod.snd) (List.mem_of_mem_filter hp)
    rwa [indexed_snd] at this

theorem dueAfter_length {s : State} {l : Int} : (dueAfter s l).length ≤ s.se.active.entries.length := by
  unfold dueAfter
  split
  · exact Nat.zero_le _
  · refine (List.length_filter_le _ _).trans (le_of_eq ?_)
    rw [← List.length_map (f := Prod.snd), indexed_snd]

theorem dueAfter_none {s : State} {h : HighWater} {now : CampusTime} (hm : s.se.mark = some h)
    (hn : ∀ e, e ∈ s.se.active.entries → ¬ e.dueBy h now) : dueAfter s now.lin = [] := by
  refine List.map_eq_nil_iff.1 ((dueAfter_snd hm).trans (List.filter_eq_nil_iff.2 fun e he => ?_))
  simpa using hn e he

theorem indexed_mem {es : List Entry} {p : Nat × Entry} (hp : p ∈ indexed es) : es[p.1]? = some p.2 := by
  unfold indexed at hp
  obtain ⟨x, hx, rfl⟩ := List.mem_map.1 hp
  exact List.mem_zipIdx_iff_getElem?.1 hx

theorem indexed_nodup (es : List Entry) : (indexed es).Nodup := by
  have : ((indexed es).map Prod.fst).Nodup := by
    unfold indexed
    rw [List.map_map, show (Prod.fst ∘ fun p : Entry × Nat => (p.2, p.1)) = Prod.snd from rfl, List.zipIdx_map_snd]
    exact List.nodup_range'
  exact List.Nodup.of_map _ this

/-- The only entry of a kind, with its place. -/
theorem filter_indexed_single {es : List Entry} {i : Nat} {e : Entry} {f : Entry → Bool} (hi : es[i]? = some e) (hf : f e = true)
    (ho : ∀ j x, es[j]? = some x → f x = true → j = i) : (indexed es).filter (fun p => f p.2) = [(i, e)] := by
  refine List.perm_singleton.1 ((List.perm_ext_iff_of_nodup ((indexed_nodup es).filter _) (List.nodup_singleton _)).2 fun p => ?_)
  rw [List.mem_filter, List.mem_singleton]
  constructor
  · rintro ⟨hp, hx⟩
    have hg := indexed_mem hp
    have hj := ho _ _ hg hx
    rw [hj, hi] at hg
    exact Prod.ext hj (Option.some.inj hg).symm
  · rintro rfl
    refine ⟨List.mem_map.2 ⟨(e, i), List.mem_zipIdx_iff_getElem?.2 hi, rfl⟩, hf⟩

/-- The only entry due by a moment. -/
theorem OnlyDue.dueAfter_eq {i : Nat} {e : Entry} {h : HighWater} {now : CampusTime} {s : State} (ho : OnlyDue i e h now s) :
    dueAfter s now.lin = [(i, e)] := by
  rw [Machine.dueAfter_eq ho.mark]
  exact filter_indexed_single ho.found (decide_eq_true ho.due) fun j x hj hx => ho.only j x hj (of_decide_eq_true hx)

end Sys2Proof.Machine
end

