-- ==== Sys2Proof/Proofs/Steps.lean ====
section
/-! SUPPORT. A step of civil time reaches the schedule (R53 to R56), while no circuit is running. -/

namespace Sys2Proof.Machine
open Sys2Proof

section
variable {u : State} {as : List Ans} {ws : List Work} {c : Ctx} {now : CampusTime}

/-! ### The calls of a step event, one at a time -/

theorem stepEvent_first (hm : c.st.se.mark = none) : doWork (.stepEvent now) c = c.call [.dayRoll now.day, .setMark now, .clockStep] := by
  show stepEvent now c = _
  unfold stepEvent
  rw [hm]

theorem stepEvent_back {h : HighWater} (hm : c.st.se.mark = some h) (hb : (now.lin : Int) ≤ h.lin) :
    doWork (.stepEvent now) c = c.call [.clockStep] := by
  show stepEvent now c = _
  unfold stepEvent
  rw [hm]
  exact if_pos hb

theorem stepEvent_same {h : HighWater} (hm : c.st.se.mark = some h) (hb : h.lin < (now.lin : Int)) (hd : now.day ≤ h.day) :
    doWork (.stepEvent now) c = c.call [.restOfStep now, .setMark now, .skipReport h now, .clockStep] := by
  show stepEvent now c = _
  unfold stepEvent
  rw [hm]
  dsimp only
  rw [if_neg (not_le_of_gt hb), if_pos hd]

theorem stepEvent_later {h : HighWater} (hm : c.st.se.mark = some h) (hb : h.lin < (now.lin : Int)) (hd : h.day < now.day) :
    doWork (.stepEvent now) c = c.call ((dueAfter c.st ((h.day + 1) * dayMs : Nat)).map (fun p => .passOver p.2)
      ++ [.dayRoll now.day, .restOfStep now, .setMark now, .skipReport h now, .clockStep]) := by
  show stepEvent now c = _
  unfold stepEvent
  rw [hm]
  dsimp only
  rw [if_neg (not_le_of_gt hb), if_neg (not_le_of_gt hd)]

theorem dueAfter_congr {s t : State} (h : t.se = s.se) (l : Int) : dueAfter t l = dueAfter s l := by
  unfold dueAfter
  rw [h]

theorem Amid.restOfStep (h : Amid u as ws c) : Amid u as (ws ++ (dueAfter u now.lin).map fun p => .dueStep p.1 p.2 now) (doWork (.restOfStep now) c) := by
  show Amid u as _ (Machine.restOfStep now c)
  unfold Machine.restOfStep
  rw [dueAfter_congr h.state.se]
  exact h.call _

theorem Amid.skipReport (h : Amid u as ws c) (m : HighWater) : Amid u as ws (doWork (.skipReport m now) c) := by
  show Amid u as ws (Machine.skipReport m now c)
  unfold Machine.skipReport
  split
  · exact h.record _
  · exact h

theorem Amid.clockStep (h : Amid u as ws c) (hr : CircuitsAtRest u) : Amid u as ws (doWork .clockStep c) := by
  rw [show doWork .clockStep c = c from circuits_rest (hr.of_cu h.state.cu)]
  exact h

theorem Amid.passOver (h : Amid u as ws c) (e : Entry) : Amid u as ws (doWork (.passOver e) c) := by
  show Amid u as ws (Machine.passOver e c)
  unfold Machine.passOver
  split
  · exact ⟨h.state, h.ans, h.todo⟩
  · exact h

/-- Calls that change nothing but RI, in their order. -/
theorem Amid.passes_all {α : Type} {W : α → Work} (hw : ∀ x as ws d, Amid u as ws d → Amid u as ws (doWork (W x) d)) {xs : List α}
    (h : Amid u [] (xs.map W ++ ws) c) : ∃ d, Leads xs.length c d ∧ Amid u [] ws d := by
  induction xs generalizing c with
  | nil => exact ⟨c, Leads.refl c, h⟩
  | cons x xs ih =>
    obtain ⟨d, hl, h1⟩ := h.takesCall (hw x [] [] _ h.alone)
    obtain ⟨e, hl2, h2⟩ := ih h1
    exact ⟨e, hl.trans hl2, h2⟩

/-! ### The end of a step's calls -/

/-- After the entries H is the moment, and the circuits at rest stay. -/
theorem Amid.ends_step {m : HighWater} (h : Amid u [] [.setMark now, .skipReport m now, .clockStep] c)
    (hl : ∀ m, u.se.mark = some m → m.lin < (now.lin : Int)) (hr : CircuitsAtRest u) : ∃ d, Leads 3 c d ∧ Amid (u.markedAt now) [] [] d := by
  obtain ⟨d1, l1, h1⟩ := h.takesCall (h.alone.setMark hl)
  obtain ⟨d2, l2, h2⟩ := h1.takesCall (h1.alone.skipReport m)
  obtain ⟨d3, l3, h3⟩ := h2.takesCall (h2.alone.clockStep (hr.of_cu rfl))
  exact ⟨d3, (l1.trans l2).trans l3, h3⟩

/-- R54: a step on the day of H comes to its due entries and its end. -/
theorem Amid.step_same {h : HighWater} (ha : Amid u [] [.stepEvent now] c) (hm : u.se.mark = some h) (hb : h.lin < (now.lin : Int)) (hd : now.day ≤ h.day) :
    ∃ d, Leads 2 c d ∧ Amid u [] ((dueAfter u now.lin).map (fun p => .dueStep p.1 p.2 now) ++ [.setMark now, .skipReport h now, .clockStep]) d := by
  have h1 := ha.alone.call [.restOfStep now, .setMark now, .skipReport h now, .clockStep]
  rw [← stepEvent_same (c := { c with todo := [] }) ((congrArg Schedule.mark ha.state.se).trans hm) hb hd] at h1
  obtain ⟨d1, l1, h2⟩ := ha.takesCall h1
  obtain ⟨d2, l2, h3⟩ := h2.takesCall h2.alone.restOfStep
  exact ⟨d2, l1.trans l2, h3⟩

/-! ### An entry of a step -/

theorem dueEntryStep_flags {p : Nat × Entry} {m1 m2 : Set8} (hk : p.2.kind = .flags m1 m2) (d : Ctx) : doWork (.dueStep p.1 p.2 now) d =
    if selected d.st p.2 then changeFlags m1 m2 (if now.ms / 1000 - p.2.time = 0 then flagsSchedule else flagsCatchUp) 0 d else d := by
  show dueEntryStep p.1 p.2 now d = _
  unfold dueEntryStep fire
  rw [hk]
  dsimp only
  cases selected d.st p.2 <;> rfl

theorem selected_iff (s : State) (e : Entry) : selected s e = true ↔ e.selectedBy s.se.profile s.dp.flags := by
  unfold selected Entry.selectedBy
  rw [Bool.and_eq_true]
  refine and_congr_right fun _ => ?_
  cases e.cond with
  | none => simp [conditionPasses]
  | some k => simp [conditionPasses]

theorem Amid.selected_eq (h : Amid u as ws c) (e : Entry) : selected c.st e = selected u e := by
  unfold selected
  rw [h.state.se, h.state.dp]

/-- An entry of a step that starts nothing. -/
theorem Amid.due_passed (h : Amid u as ws c) {i : Nat} {e : Entry} (hk : ∀ m1 m2, e.kind ≠ .flags m1 m2)
    (hp : ¬ e.selectedBy u.se.profile u.dp.flags ∨ e.time + u.se.active.window < now.ms / 1000) : Amid u as ws (doWork (.dueStep i e now) c) := by
  show Amid u as ws (dueEntryStep i e now c)
  unfold dueEntryStep
  rw [h.selected_eq, h.state.se]
  by_cases hs : selected u e = true
  · have hw := hp.resolve_left (fun hn => hn ((selected_iff u e).1 hs))
    rw [if_neg (by simp [hs])]
    split
    · next m1 m2 hx => exact absurd hx (hk m1 m2)
    · rw [if_neg (by omega), if_neg (by omega)]
      exact ⟨h.state, h.ans, h.todo⟩
  · rw [if_pos (by simpa using hs)]
    exact h

/-- R49, R54: a BELL entry of a step starts its bell with its lateness. -/
theorem Amid.due_bell (h : Amid u as ws c) {i : Nat} {e : Entry} {g p level df du z n : Nat} (hk : e.kind = .bell g p level df du)
    (hs : e.selectedBy u.se.profile u.dp.flags) (hw : now.ms / 1000 ≤ e.time + u.se.active.window)
    (hr : BellReady g p z n u) :
    Amid u as (ws ++ [.bellStart (.entry i (now.ms / 1000 - e.time)) (u.group g) p level df du]) (doWork (.dueStep i e now) c) := by
  have hf : ∀ late, fire i e late c = c.call [.bellStart (.entry i late) (u.group g) p level df du] := fun late => by
    have he : emptyReason c.st g p = none := by
      unfold emptyReason
      rw [h.state.pattern, h.state.group, if_neg (by simpa [Pattern.isEmpty] using hr.pattern), if_neg hr.group_ne]
    unfold fire
    rw [hk]
    dsimp only
    rw [he, h.state.group]
  have hx : doWork (.dueStep i e now) c = c.call [.bellStart (.entry i (now.ms / 1000 - e.time)) (u.group g) p level df du] := by
    show dueEntryStep i e now c = _
    unfold dueEntryStep
    rw [h.selected_eq, h.state.se, if_neg (by simp [(selected_iff u e).2 hs]), hk]
    dsimp only
    rw [hf, hf]
    by_cases he : e.time = now.ms / 1000
    · rw [if_pos he, he, Nat.sub_self]
    · rw [if_neg he, if_pos hw]
  rw [hx]
  exact h.call _

end

/-- What has become of a bell's start stays through a change of other items. -/
theorem BellStarted.of_later {n z p level : Nat} {src : BellSource} {s t v : State} (h : BellStarted n z p level src s t) (hz : v.zone = t.zone)
    (hs : v.zoneState = t.zoneState) (hb : v.pu.bells = t.pu.bells) (ht : v.pu.table = t.pu.table) (he : v.elapsed = t.elapsed) :
    BellStarted n z p level src s v := by
  obtain ⟨h1, h2, h3, h4, h5, h6⟩ := h
  rw [← hz] at h2 h4 h5
  rw [← hb, ← he] at h1
  exact ⟨h1, h2, hs ▸ h3, h4, h5, ht.trans h6⟩

/-- A change of the zones, the patterns' bells and the schedule. -/
theorem sameBut_se_za_pu {bs : List BlockId} {s u : State} (h1 : .se ∈ bs) (h2 : .za ∈ bs) (h3 : .pu ∈ bs)
    (h : u = { s with se := u.se, za := u.za, pu := u.pu, ri := u.ri, eventNo := u.eventNo, pending := u.pending }) : SameBut bs s u := by
  rw [h]
  exact ⟨fun _ => rfl, fun _ => rfl, fun k => (k h1).elim, fun k => (k h2).elim, fun k => (k h3).elim, fun _ => rfl, fun _ => rfl, fun _ => rfl, fun _ => rfl, fun _ => rfl⟩

/-- A change of the Day Plan and the schedule. -/
theorem sameBut_dp_se {bs : List BlockId} {s u : State} (h1 : .dp ∈ bs) (h2 : .se ∈ bs)
    (h : u = { s with dp := u.dp, se := u.se, ri := u.ri, eventNo := u.eventNo, pending := u.pending }) : SameBut bs s u := by
  rw [h]
  exact ⟨fun _ => rfl, fun k => (k h1).elim, fun k => (k h2).elim, fun _ => rfl, fun _ => rfl, fun _ => rfl, fun _ => rfl, fun _ => rfl, fun _ => rfl, fun _ => rfl⟩

theorem lin_of_day (now : CampusTime) : (now.lin : Int) = (now.day * dayMs : Nat) + now.ms := by
  unfold CampusTime.lin
  push_cast
  rfl

/-- The eve of the civil day of a moment lies before the moment. -/
theorem eve_before (now : CampusTime) : (⟨now.day, -1⟩ : HighWater).lin < (now.lin : Int) := by
  rw [lin_of_day]
  unfold HighWater.lin
  dsimp only
  omega

section
variable {s u : State} {now : CampusTime} {c : Ctx} (hc : Amid u [] [.stepEvent now] c) (hu : SameBut [.tb] s u) (hr : CircuitsAtRest s)
include hc hu hr

/-- A step of civil time reaches the schedule. -/
theorem scheduleStepped_of : ScheduleStepped now s c.close := by
  have hse := hu.se (by decide)
  have hdp := hu.dp (by decide)
  have hza := hu.za (by decide)
  have hpu := hu.pu (by decide)
  have hru : CircuitsAtRest u := hr.of_cu (hu.cu (by decide))
  have into : ∀ {bs : List BlockId} {t}, SameBut bs u t → SameBut (.tb :: bs) s t := fun h =>
    (hu.weaken fun b hb => List.mem_cons.2 (.inl (List.mem_singleton.1 hb))).trans (h.weaken fun b hb => List.mem_cons_of_mem _ hb)
  constructor
  case first =>
    intro hm
    have h1 := hc.alone.call [.dayRoll now.day, .setMark now, .clockStep]
    rw [← stepEvent_first (c := { c with todo := [] }) (now := now) ((congrArg Schedule.mark (hc.state.se.trans hse)).trans hm)] at h1
    obtain ⟨d1, l1, h1⟩ := hc.takesCall h1
    obtain ⟨d2, l2, h2⟩ := h1.takesCall (h1.alone.dayRoll now.day)
    obtain ⟨d3, l3, h3⟩ := h2.takesCall (h2.alone.setMark fun m hx => Option.some.inj hx ▸ eve_before now)
    obtain ⟨d4, l4, h4⟩ := h3.takesCall (h3.alone.clockStep (hru.of_cu rfl))
    have ht := h4.leaves (((l1.trans l2).trans l3).trans l4) (by decide)
    exact ⟨by rw [ht.dp, ← hdp]; rfl, by rw [ht.se, ← hse, ← hdp]; rfl, into (SameBut.of_only (sameBut_dp_se (bs := [.dp, .se]) (by decide) (by decide) rfl) ht)⟩
  case back =>
    intro h hm hb
    have h1 := hc.alone.call [.clockStep]
    rw [← stepEvent_back (c := { c with todo := [] }) ((congrArg Schedule.mark (hc.state.se.trans hse)).trans hm) hb] at h1
    obtain ⟨d1, l1, h1⟩ := hc.takesCall h1
    obtain ⟨d2, l2, h2⟩ := h1.takesCall (h1.alone.clockStep hru)
    exact hu.of_only (h2.leaves (l1.trans l2) (by decide))
  case flags =>
    intro h hm hlen hb hd hk
    have hmu : u.se.mark = some h := (congrArg Schedule.mark hse).trans hm
    obtain ⟨d1, l1, h1⟩ := hc.step_same hmu hb hd
    have hlen' : (dueAfter u now.lin).length ≤ 1024 := by
      refine dueAfter_length.trans ?_
      rwa [hse]
    have hdue := dueAfter_snd (now := now) hmu
    obtain ⟨d2, l2, h2⟩ := h1.runs_flags (fun p m1 m2 d hx => dueEntryStep_flags hx d) fun p hp => by
      have := List.mem_map_of_mem (f := Prod.snd) hp
      rw [hdue, List.mem_filter, hse] at this
      exact hk _ this.1 (of_decide_eq_true this.2)
    obtain ⟨d3, l3, h3⟩ := h2.ends_step (fun m hx => Option.some.inj (hmu.symm.trans hx) ▸ hb) (hru.of_cu rfl)
    have ht := h3.leaves ((l1.trans l2).trans l3) (by omega)
    rw [hdue, hse, hdp] at ht
    refine ⟨by rw [ht.dp]; rfl, ?_, ?_, into (SameBut.of_only (sameBut_dp_se (bs := [.dp, .se]) (by decide) (by decide) rfl) ht)⟩
    · rw [ht.dp, ← hdp]; rfl
    · rw [ht.se, ← hse]; rfl
  case bell =>
    intro i e h g p level df du z n ho hd hk hs hw hrd
    have hmu : u.se.mark = some h := (congrArg Schedule.mark hse).trans ho.mark
    have hlt : h.lin < (now.lin : Int) := by have := ho.due; unfold Entry.dueBy at this; omega
    obtain ⟨d1, l1, h1⟩ := hc.step_same hmu hlt (le_of_eq hd)
    rw [dueAfter_congr hse, ho.dueAfter_eq] at h1
    have hru' : BellReady g p z n u := hrd.of_blocks hza hpu
    obtain ⟨d2, l2, h2⟩ := h1.takesCall (h1.alone.due_bell (i := i) hk (by rwa [hse, hdp]) (by rwa [hse]) hru')
    obtain ⟨d3, l3, h3⟩ := h2.takesCall (h2.alone.bellStart_ready (src := .entry i (now.ms / 1000 - e.time)) (level := level) (df := df) (du := du) hru')
    obtain ⟨d4, k, fs, l4, hkw, hkl, h4⟩ := h3.bell_sounds hru'
    obtain ⟨d5, l5, h5⟩ := h4.ends_step (fun m hx => Option.some.inj (hmu.symm.trans hx) ▸ hlt) (hru.of_cu rfl)
    have ht := h5.leaves ((((l1.trans l2).trans l3).trans l4).trans l5) (by decide)
    refine ⟨?_, by rw [ht.se, ← hse]; rfl, into (SameBut.of_only (sameBut_se_za_pu (bs := [.se, .za, .pu]) (by decide) (by decide) (by decide) rfl) ht)⟩
    have hb : BellStarted n z p level (.entry i (now.ms / 1000 - e.time)) u _ := bellStarted_of (df := df) (du := du) (fs := fs) hru' hkw hkl (RiOnly.refl _)
    exact (hb.of_later ht.zone ht.zoneState (congrArg PatternUnit.bells ht.pu) (congrArg PatternUnit.table ht.pu) ht.elapsed).of_blocks hza hpu
  case passed =>
    intro i e h ho hd hk hp
    have hmu : u.se.mark = some h := (congrArg Schedule.mark hse).trans ho.mark
    have hlt : h.lin < (now.lin : Int) := by have := ho.due; unfold Entry.dueBy at this; omega
    obtain ⟨d1, l1, h1⟩ := hc.step_same hmu hlt (le_of_eq hd)
    rw [dueAfter_congr hse, ho.dueAfter_eq] at h1
    obtain ⟨d2, l2, h2⟩ := h1.takesCall (h1.alone.due_passed (i := i) (e := e) hk (by rwa [hse, hdp]))
    obtain ⟨d3, l3, h3⟩ := h2.ends_step (fun m hx => Option.some.inj (hmu.symm.trans hx) ▸ hlt) hru
    have ht := h3.leaves ((l1.trans l2).trans l3) (by decide)
    exact ⟨by rw [ht.se, ← hse]; rfl, into (SameBut.of_only (sameBut_se (bs := [.se]) (by decide) rfl) ht)⟩
  case roll =>
    intro h hm hlen hd hb hn
    have hmu : u.se.mark = some h := (congrArg Schedule.mark hse).trans hm
    have h1 := hc.alone.call ((dueAfter u ((h.day + 1) * dayMs : Nat)).map (fun p => .passOver p.2)
      ++ [.dayRoll now.day, .restOfStep now, .setMark now, .skipReport h now, .clockStep])
    rw [← dueAfter_congr hc.state.se, ← stepEvent_later (c := { c with todo := [] }) ((congrArg Schedule.mark hc.state.se).trans hmu) hb hd] at h1
    obtain ⟨d1, l1, h1⟩ := hc.takesCall h1
    have hlen' : (dueAfter c.st ((h.day + 1) * dayMs : Nat)).length ≤ 1024 := by
      refine dueAfter_length.trans ?_
      rwa [hc.state.se, hse]
    obtain ⟨d2, l2, h2⟩ := Amid.passes_all (W := fun p : Nat × Entry => .passOver p.2) (fun p _ _ _ h => h.passOver p.2) ((congrArg (fun l => Amid u [] l d1)
      (List.append_assoc _ _ _)).mp h1)
    obtain ⟨d3, l3, h3⟩ := h2.takesCall (h2.alone.dayRoll now.day)
    obtain ⟨d4, l4, h4⟩ := h3.takesCall h3.alone.restOfStep
    have hnone : dueAfter (u.rolledOn now.day) now.lin = [] := by
      refine dueAfter_none (h := ⟨now.day, -1⟩) rfl fun e he hx => ?_
      have := hn e (by rw [← hse, ← hdp]; exact he)
      have hx2 := hx.2
      unfold CampusTime.lin at hx2
      dsimp only at hx2
      omega
    rw [hnone] at h4
    obtain ⟨d5, l5, h5⟩ := h4.ends_step (fun m hx => Option.some.inj hx ▸ eve_before now) (hru.of_cu rfl)
    have ht := h5.leaves ((((l1.trans l2).trans l3).trans l4).trans l5) (by omega)
    exact ⟨by rw [ht.dp, ← hdp]; rfl, by rw [ht.se, ← hse, ← hdp]; rfl, into (SameBut.of_only (sameBut_dp_se (bs := [.dp, .se]) (by decide) (by decide) rfl) ht)⟩

end

end Sys2Proof.Machine
end

