-- ==== Sys2Proof/Proofs/StepTime.lean ====
section
/-! SUPPORT. O19: a rule of daylight saving takes effect at once, and a change of offset steps the schedule; O18: SET TIME fails to leave a time past
the last day alone. -/

namespace Sys2Proof.Machine
open Sys2Proof

/-- R18, third part: the Time Base with the instants, when they are taken anew, and the offset of a time. -/
def TimeBase.reevaluated (newYear : Bool) (t : CampusTime) (tb : TimeBase) : TimeBase :=
  { tb with
    trans := if newYear then instantsFor tb.dst t else tb.trans
    offset := offsetAt tb.dst (if newYear then instantsFor tb.dst t else tb.trans) t.lin }

theorem riFree_setTb (f : TimeBase → TimeBase) : RiFree (State.setTb f) := fun _ _ => rfl

section
variable {u : State} {as : List Ans} {ws : List Work} {c : Ctx}

theorem Amid.setTb (h : Amid u as ws c) (f : TimeBase → TimeBase) : Amid (u.setTb f) as ws (c.upd (State.setTb f)) := h.upd (riFree_setTb f)

theorem Amid.reevaluate (h : Amid u as ws c) (newYear : Bool) (t : CampusTime) (cause : Nat) :
    Amid (u.setTb (TimeBase.reevaluated newYear t)) as ws (reevaluate newYear t cause c) := by
  obtain ⟨f, hf⟩ : ∃ f : TimeBase → TimeBase, f = fun tb => { tb with trans := if newYear then instantsFor tb.dst t else tb.trans } := ⟨_, rfl⟩
  have h1 : Amid (u.setTb f) as ws (if newYear then c.upd (State.setTb fun tb => { tb with trans := instantsFor tb.dst t }) else c) := by
    subst hf
    cases newYear
    · exact h
    · exact h.setTb _
  unfold Machine.reevaluate
  dsimp only
  generalize (if newYear then c.upd (State.setTb fun tb => { tb with trans := instantsFor tb.dst t }) else c) = d at h1 ⊢
  rw [h1.state.tb]
  have hx : u.setTb (TimeBase.reevaluated newYear t) = (u.setTb f).setTb fun tb => { tb with offset := offsetAt tb.dst tb.trans t.lin } := by
    subst hf
    rfl
  rw [hx]
  split
  · next he =>
    have : ((u.setTb f).setTb fun tb => { tb with offset := offsetAt tb.dst tb.trans t.lin }) = u.setTb f := by
      show ({ u.setTb f with tb := { (u.setTb f).tb with offset := offsetAt (u.setTb f).tb.dst (u.setTb f).tb.trans t.lin } } : State) = _
      rw [he]
    rw [this]
    exact h1
  · exact (h1.setTb fun tb => { tb with offset := offsetAt (u.setTb f).tb.dst (u.setTb f).tb.trans t.lin }).record _

end

theorem Framed.upd_setTb {s : State} {c : Ctx} (h : Framed s c.st) (f : TimeBase → TimeBase) : Framed s (c.upd (State.setTb f)).st :=
  h.trans (Framed.of_ri rfl rfl rfl)

theorem Framed.noted {s : State} {c : Ctx} (h : Framed s c.st) (n : Note) : Framed s (c.record n).st := h.trans (framed_record _ n)

theorem Framed.called {s : State} {c : Ctx} (h : Framed s c.st) (ws : List Work) : Framed s (c.call ws).st := h

theorem reevaluate_framed (newYear : Bool) (t : CampusTime) (cause : Nat) (c : Ctx) : Framed c.st (reevaluate newYear t cause c).st := by
  have h : Framed c.st (if newYear then c.upd (State.setTb fun tb => { tb with trans := instantsFor tb.dst t }) else c).st := by
    cases newYear
    · exact Framed.refl _
    · exact (Framed.refl _).upd_setTb _
  unfold reevaluate
  dsimp only
  generalize (if newYear then c.upd (State.setTb fun tb => { tb with trans := instantsFor tb.dst t }) else c) = d at h ⊢
  split
  · exact h
  · exact (h.upd_setTb _).noted _

/-! ### SET DST RULE -/

/-- R21: the offset a rule gives at a time. -/
def ruleOffset (rule : Option DstRule) (now : CampusTime) : Nat := offsetAt rule (rule.map fun r => transitionsOf r (yearOf now.day)) now.lin

section
variable {u : State} {c : Ctx} {rule : Option DstRule}

theorem setRule_of_unset (h : Amid u [] [] c) (hn : u.tb.campus = none) :
    Amid (u.setTb fun tb => { tb with dst := rule }) [] [] (setRule rule c) ∧ (setRule rule c).st = (c.upd (State.setTb fun tb => { tb with dst := rule })).st := by
  have hx : setRule rule c = c.upd (State.setTb fun tb => { tb with dst := rule }) := by
    unfold setRule
    dsimp only
    rw [show (c.upd (State.setTb fun tb => { tb with dst := rule })).st.tb.campus = none from (congrArg TimeBase.campus h.state.tb).trans hn]
  rw [hx]
  exact ⟨h.setTb _, rfl⟩

/-- R21: the rule is in force, and a step event is left where it changes the offset. -/
theorem Amid.setRule (h : Amid u [] [] c) {now : CampusTime} (hn : u.tb.campus = some now) :
    Amid (u.setTb fun tb => TimeBase.reevaluated true now { tb with dst := rule }) []
      (if ruleOffset rule now = u.tb.offset then [] else [.stepEvent (civilAt now (ruleOffset rule now))]) (setRule rule c) := by
  unfold Machine.setRule
  dsimp only
  have h1 := h.setTb fun tb => { tb with dst := rule }
  rw [show (c.upd (State.setTb fun tb => { tb with dst := rule })).st.tb.campus = some now from (congrArg TimeBase.campus h1.state.tb).trans hn]
  dsimp only
  have h2 := h1.reevaluate true now dstRule
  have ho : (Machine.reevaluate true now dstRule (c.upd (State.setTb fun tb => { tb with dst := rule }))).st.tb.offset = ruleOffset rule now :=
    (congrArg TimeBase.offset h2.state.tb).trans rfl
  have ho1 : (c.upd (State.setTb fun tb => { tb with dst := rule })).st.tb.offset = u.tb.offset := (congrArg TimeBase.offset h1.state.tb).trans rfl
  rw [ho, ho1]
  split
  · exact h2
  · exact h2.call _

theorem setRule_framed (rule : Option DstRule) (c : Ctx) : Framed c.st (Machine.setRule rule c).st := by
  unfold Machine.setRule
  dsimp only
  have h : Framed c.st (c.upd (State.setTb fun tb => { tb with dst := rule })).st := (Framed.refl _).upd_setTb _
  generalize c.upd (State.setTb fun tb => { tb with dst := rule }) = d at h ⊢
  split
  · exact h
  · next now _ =>
    have k := h.trans (reevaluate_framed true now dstRule d)
    generalize Machine.reevaluate true now dstRule d = e at k ⊢
    split
    · exact k
    · exact k.called _

end

theorem dstInRange_iff (p : DstParams) : dstInRange p = true ↔ (1 ≤ p.startMonth ∧ p.startMonth ≤ 12) ∧ (1 ≤ p.endMonth ∧ p.endMonth ≤ 12)
    ∧ (1 ≤ p.startWeek ∧ p.startWeek ≤ 5) ∧ (1 ≤ p.endWeek ∧ p.endWeek ≤ 5) ∧ p.startHour ≤ 23 ∧ p.endHour ≤ 23
    ∧ 15 ≤ p.offset ∧ p.offset ≤ 120 ∧ p.offset % 15 = 0 := by
  simp only [dstInRange, Bool.and_eq_true, decide_eq_true_eq, beq_iff_eq]
  tauto

/-- R21: what a rule that is accepted, or none, comes to. -/
theorem exec_setRule {q : ReqHdr} {p : DstParams} {s : State} (hr : s.reaches q = true) (hlog : LogSound s.ri) {rule : Option DstRule}
    (hd : decideRequest (.setDstRule q p) (s.deciding q) = (setRule rule (s.deciding q)).upd (State.answer q .done [])) :
    ∃ t, exec (.setDstRule q p) s = .next t ∧ Decided q .done [] s t
      ∧ (s.tb.campus = none → t.tb = { s.tb with dst := rule } ∧ SameBut [.tb] s t)
      ∧ ∀ now, s.tb.campus = some now →
        t.tb = { s.tb with dst := rule, trans := rule.map (fun r => transitionsOf r (yearOf now.day)), offset := ruleOffset rule now }
        ∧ (ruleOffset rule now = s.tb.offset → SameBut [.tb] s t)
        ∧ (ruleOffset rule now ≠ s.tb.offset → CircuitsAtRest s → ScheduleStepped (civilAt now (ruleOffset rule now)) s t) := by
  have hno : NoStart (setRule rule (s.deciding q)).todo := (setRule_within (c := s.deciding q) (q := q) (g := True)).noStart fun _ _ hm => nomatch hm
  have hdec : Decided q .done [] s ((setRule rule (s.deciding q)).upd (State.answer q .done [])).close :=
    decided_of hr hlog (Nat.zero_le 3) (setRule_framed rule (s.deciding q)) (close_passed (c := (setRule rule (s.deciding q)).upd (State.answer q .done [])) hno).framed
  refine ⟨_, by rw [exec_request rfl hr, hd], hdec, fun hn => ?_, fun now hn => ?_⟩
  · have ht := ((setRule_of_unset (rule := rule) (amid_deciding q s) hn).1.answer q .done []).close
    exact ⟨ht.tb, SameBut.of_taking (q := q) (SameBut.of_only (sameBut_tb (by decide) rfl) ht)⟩
  · have h1 := ((amid_deciding q s).setRule (rule := rule) hn).answer q .done []
    have htb := (close_passed (c := (setRule rule (s.deciding q)).upd (State.answer q .done [])) hno).tb
    refine ⟨htb.trans h1.state.tb, fun he => ?_, fun he hrest => ?_⟩
    · rw [show (s.taking q).tb.offset = s.tb.offset from rfl, if_pos he] at h1
      exact SameBut.of_taking (q := q) (SameBut.of_only (sameBut_tb (by decide) rfl) h1.close)
    · rw [show (s.taking q).tb.offset = s.tb.offset from rfl, if_neg he] at h1
      exact scheduleStepped_of h1 (SameBut.of_taking (q := q) (sameBut_tb (by decide) rfl)) hrest

/-- Settles O19. -/
theorem setDstRuleTakesEffect : Obligations.SetDstRuleTakesEffect := by
  unfold Obligations.SetDstRuleTakesEffect
  intro q p s hr hlog
  refine ⟨fun h => exec_setRule hr hlog (if_pos h), fun now hn => rfl, fun h0 hd => exec_refused rfl hr ?_, fun h0 hd hm => exec_refused rfl hr ?_,
    fun h0 hd hm => exec_setRule hr hlog ?_, dstInRange_iff p⟩
  · exact (if_neg (not_not.2 h0)).trans (if_pos (by rw [hd]; rfl))
  · exact (if_neg (not_not.2 h0)).trans ((if_neg (by rw [hd]; exact nofun)).trans (if_pos hm))
  · exact (if_neg (not_not.2 h0)).trans ((if_neg (by rw [hd]; exact nofun)).trans (if_neg hm))

/-! ### SET TIME -/

/-- A part in operation whose campus time stands a millisecond past the last day, in mode PULSE. -/
def pastLastDay : State := { Tests.base with tb := { Tests.base.tb with campus := some ⟨36525, 0⟩, refMode := .pulse } }

/-- SET TIME to the last millisecond of the last day moves that time a whole second back, where the rounded difference is 0. -/
theorem setTime_pastLastDay : (decideRequest (.setTime Tests.q0 36524 86399999) (pastLastDay.deciding Tests.q0)).st.tb.campus = some ⟨36524, 86399000⟩ := by
  decide

/-- Refutes O18: a campus time past the last day, which the clause for a rounded difference of 0 does not exclude, is moved a second toward it, and so
stepped, where the clause says that nothing changes. -/
theorem not_setTimeTakesEffect : ¬ Obligations.SetTimeTakesEffect := by
  unfold Obligations.SetTimeTakesEffect
  intro h
  have hr : pastLastDay.reaches Tests.q0 = true := by decide
  have hlog : LogSound pastLastDay.ri := ⟨by decide, by decide, by decide, by decide, by decide, by decide⟩
  obtain ⟨-, hin⟩ := h Tests.q0 36524 86399999 pastLastDay hr hlog
  obtain ⟨-, hold⟩ := hin (by decide) (by decide)
  obtain ⟨-, -, hnone, -⟩ := hold ⟨36525, 0⟩ rfl
  have hx := hnone rfl (by decide)
  rw [exec_request rfl hr] at hx
  have hno : NoStart (decideRequest (.setTime Tests.q0 36524 86399999) (pastLastDay.deciding Tests.q0)).todo :=
    (decideSetTime_within (q := Tests.q0) (g := True) (c := pastLastDay.deciding Tests.q0) (.inl trivial)).noStart fun _ _ hm => nomatch hm
  have hc := congrArg (fun s : State => s.tb.campus) (Host.Outcome.next.inj hx)
  rw [(close_passed hno).tb, setTime_pastLastDay, (riOnly_answer _ _ _ _).tb] at hc
  exact absurd hc (by decide)

end Sys2Proof.Machine
end

