-- ==== Sys2Proof/Proofs/Advance.lean ====
section
/-! SUPPORT. The nominal millisecond that carries campus time on with no trim and no slew (`Advances`), and the events of civil time after it. -/

namespace Sys2Proof.Machine
open Sys2Proof

theorem lin_ofLin (n : Nat) : (ofLin n).lin = n := by
  unfold ofLin CampusTime.lin
  dsimp only
  exact Nat.div_add_mod' n dayMs

/-- The part after a millisecond has carried campus time to a moment, with a loss timer. -/
def State.carriedTo (now : CampusTime) (loss : Nat) (s : State) : State :=
  { s.started.annsTicked with elapsed := s.elapsed + 1, tb := { s.tb.steppedTo now with slewCount := 0, lossTimer := loss } }

/-- The part with a millisecond's counts done (R6, R13, R109). -/
def State.counting (loss : Nat) (s : State) : State :=
  { s with elapsed := s.elapsed + 1, tb := { s.tb with slewCount := 0, lossTimer := loss }, au := { s.au with anns := s.au.anns.map Ann.tick } }

/-- The part with campus time at the moment and these instants of its year, the offset not yet looked at. -/
def State.arriving (now : CampusTime) (trans : Option Transitions) (loss : Nat) (s : State) : State :=
  { s.counting loss with tb := { (s.counting loss).tb with campus := some now, trans := trans } }

theorem steppedTo_trans {old now : CampusTime} {tb : TimeBase} (h : tb.campus = some old) :
    (tb.steppedTo now).trans = if yearOf old.day = yearOf now.day then tb.trans else instantsFor tb.dst now := by
  unfold TimeBase.steppedTo
  rw [h]

/-- R23: the millisecond has reached an instant of the year it lies in. -/
def reachesInstant (now : CampusTime) (tb : TimeBase) : Prop := ∃ tr, (tb.steppedTo now).trans = some tr ∧ (tr.s.lin = now.lin ∨ tr.e.lin = now.lin)

theorem takeOffset_events {old off : Nat} {silent : Bool} {oc nc : CampusTime} {c : Ctx} (h : off = old ∨ silent = true)
    (hs : c.st.tb.saturated = false) : takeOffset old off silent oc nc c = civilEvents oc nc (c.upd (State.setTb fun tb => { tb with offset := off })) := by
  have hc : (off = old || silent) = true := by simpa using h
  unfold takeOffset
  dsimp only
  rw [if_pos hc]
  exact if_neg (by rw [show (c.upd (State.setTb fun tb => { tb with offset := off })).st.tb.saturated = c.st.tb.saturated from rfl, hs]; exact nofun)

theorem takeOffset_steps {old off : Nat} {silent : Bool} {oc nc : CampusTime} {c : Ctx} (h : off ≠ old) (hs : silent = false) :
    takeOffset old off silent oc nc c = ((c.upd (State.setTb fun tb => { tb with offset := off })).record (dstNote 0 old off dstTransition)).call [.stepEvent nc] := by
  have hc : ¬ (off = old || silent) = true := by simp [h, hs]
  exact if_neg hc

/-- R23: a millisecond crosses the instants it ends at. -/
theorem crossed_iff {old now : CampusTime} {tb : TimeBase} (hl : now.lin = old.lin + 1) :
    (tb.steppedTo now).trans.any (·.crossed old.lin now.lin) = true ↔ reachesInstant now tb := by
  unfold reachesInstant
  generalize (tb.steppedTo now).trans = trans
  rw [Option.any_eq_true]
  refine exists_congr fun tr => and_congr_right fun _ => ?_
  unfold Transitions.crossed
  generalize tr.s.lin = a
  generalize tr.e.lin = b
  simp only [Bool.or_eq_true, Bool.and_eq_true, decide_eq_true_eq]
  omega

section
variable {old now : CampusTime} {s : State} (h : Advances old now s)
include h

theorem Advances.lin : now.lin = old.lin + 1 := by
  rw [h.next, lin_ofLin]

theorem Advances.nominal : s.tb.nominal (s.elapsed + 1) = ⟨1, { s.tb with slewCount := 0 }⟩ := by
  obtain ⟨ht, ha⟩ := h.noTrim
  obtain ⟨hp, hl⟩ := h.noSlew
  have h1 : trimTerm s.tb.acc s.tb.trim = (0, s.tb.acc) := by
    unfold trimTerm
    dsimp only
    rw [ht, if_neg (by omega), if_neg (by omega), Int.add_zero]
  have h2 : s.tb.stepDue = false := by
    unfold TimeBase.stepDue
    simp [hp, hl]
  unfold TimeBase.nominal
  rw [h1, h2]
  dsimp only
  simp only [Bool.false_and, Bool.false_eq_true, if_false, if_pos hp, Int.sub_zero]
  congr 1
  rw [← hl]

/-- The counts of the millisecond are done, and campus time is still to be carried on. -/
theorem Advances.tick_counts : ∃ loss, tick s.begin = advanceCampus 1 (s.begin.upd (State.counting loss)) := by
  refine ⟨if ({ s.tb with slewCount := 0 } : TimeBase).lossRuns then s.tb.lossTimer + 1 else s.tb.lossTimer, ?_⟩
  unfold tick
  dsimp only
  rw [show s.begin.st.tb = s.tb from rfl, show s.begin.st.elapsed = s.elapsed from rfl, h.nominal]
  rfl

/-- The moment is reached, with the instants of its year. -/
theorem Advances.arrives (loss : Nat) : yearAt old now (campusAt now.lin (s.begin.upd (State.counting loss))) = s.begin.upd (State.arriving now (s.tb.steppedTo now).trans loss) := by
  have hof : ofLin now.lin = now := by rw [h.next, lin_ofLin]
  unfold campusAt
  rw [if_neg (Nat.ne_of_lt h.short), hof]
  unfold yearAt
  rw [steppedTo_trans h.campus]
  by_cases hy : yearOf old.day = yearOf now.day
  · rw [if_pos hy, if_pos hy]
    rfl
  · rw [if_neg hy, if_neg hy]
    rfl

/-- R5, R23: the millisecond carries campus time to the moment, and what follows goes by the offset then in force. -/
theorem Advances.tick_eq : ∃ loss, tick s.begin = takeOffset s.tb.offset (s.tb.steppedTo now).offset
    (yearOf old.day ≠ yearOf now.day && !(s.tb.steppedTo now).trans.any (·.crossed old.lin now.lin))
    (civilAt old s.tb.offset) (civilAt now (s.tb.steppedTo now).offset) (s.begin.upd (State.arriving now (s.tb.steppedTo now).trans loss)) := by
  obtain ⟨loss, hl⟩ := h.tick_counts
  refine ⟨loss, ?_⟩
  have hmin : min (old.lin + 1) lastLin = now.lin := by
    rw [← h.lin]
    exact Nat.min_eq_left (Nat.le_of_lt h.short)
  have hof : ofLin now.lin = now := by rw [h.next, lin_ofLin]
  have hsat : ¬ (s.begin.upd (State.counting loss)).st.tb.saturated = true := by
    rw [show (s.begin.upd (State.counting loss)).st.tb.saturated = s.tb.saturated from rfl, h.unsaturated]
    exact nofun
  rw [hl, advanceCampus_eq (t := old) 1 h.campus, if_neg hsat, hmin, hof, h.arrives, offsetTo, hof]
  rfl

theorem Advances.carries (loss : Nat) : (s.begin.upd (State.arriving now (s.tb.steppedTo now).trans loss)).upd (State.setTb fun tb => { tb with offset := (s.tb.steppedTo now).offset })
    = ⟨s.carriedTo now loss, [], [], 0, 0, none⟩ := by
  have hd : decide (lastLin ≤ now.lin) = s.tb.saturated := by
    rw [h.unsaturated]
    exact decide_eq_false (Nat.not_le_of_lt h.short)
  unfold State.carriedTo TimeBase.steppedTo
  dsimp only
  rw [hd]
  rfl

/-- The context in which a millisecond has carried campus time on. -/
theorem Advances.keeps_offset (ho : (s.tb.steppedTo now).offset = s.tb.offset) : ∃ loss, tick s.begin =
    civilEvents (civilAt old s.tb.offset) (civilAt now s.tb.offset) ⟨s.carriedTo now loss, [], [], 0, 0, none⟩ := by
  obtain ⟨loss, hl⟩ := h.tick_eq
  exact ⟨loss, by rw [hl, takeOffset_events (.inl ho) h.unsaturated, h.carries loss, ho]⟩

/-- R24: a year roll whose new instants the millisecond does not reach is silent. -/
theorem Advances.rolls_silently (hy : yearOf old.day ≠ yearOf now.day) (hr : ¬ reachesInstant now s.tb) : ∃ loss, tick s.begin =
    civilEvents (civilAt old s.tb.offset) (civilAt now (s.tb.steppedTo now).offset) ⟨s.carriedTo now loss, [], [], 0, 0, none⟩ := by
  obtain ⟨loss, hl⟩ := h.tick_eq
  have hs : (yearOf old.day ≠ yearOf now.day && !(s.tb.steppedTo now).trans.any (·.crossed old.lin now.lin)) = true := by
    rw [Bool.eq_false_iff.2 ((crossed_iff h.lin).not.2 hr)]
    simp [hy]
  exact ⟨loss, by rw [hl, takeOffset_events (.inr hs) h.unsaturated, h.carries loss]⟩

/-- R23: a millisecond that changes the offset, but for a silent year roll, steps civil time. -/
theorem Advances.transition (ho : (s.tb.steppedTo now).offset ≠ s.tb.offset) (hr : yearOf old.day = yearOf now.day ∨ reachesInstant now s.tb) :
    ∃ loss n, tick s.begin = ((⟨s.carriedTo now loss, [], [], 0, 0, none⟩ : Ctx).record n).call [.stepEvent (civilAt now (s.tb.steppedTo now).offset)] := by
  obtain ⟨loss, hl⟩ := h.tick_eq
  have hs : (yearOf old.day ≠ yearOf now.day && !(s.tb.steppedTo now).trans.any (·.crossed old.lin now.lin)) = false := by
    obtain hy | hx := hr
    · simp [hy]
    · rw [(crossed_iff h.lin).2 hx]
      simp
  exact ⟨loss, _, by rw [hl, takeOffset_steps ho hs, h.carries loss]⟩

theorem Advances.exec : exec .timeAdvance s = .next (tick s.begin).close := by
  show Host.Outcome.next (if s.running then event tick s else idleTick s) = _
  rw [if_pos h.running, event, if_pos h.running]

end

/-! ### The events of civil time -/

/-- The calls of civil time behind a new second. -/
def minuteTail (old now : CampusTime) : List Work := if old.lin / 60000 = now.lin / 60000 then [] else [.minuteEvent now]

theorem civilEvents_second {old now : CampusTime} (h : old.lin / 1000 ≠ now.lin / 1000) (c : Ctx) :
    civilEvents old now c = c.call (.secondEvent now :: minuteTail old now) := by
  unfold civilEvents minuteTail
  rw [if_neg h]
  by_cases hm : old.lin / 60000 = now.lin / 60000
  · rw [if_pos hm, if_pos hm]
  · rw [if_neg hm, if_neg hm]
    show Ctx.mk _ _ ((c.todo ++ [.secondEvent now]) ++ [.minuteEvent now]) _ _ _ = Ctx.mk _ _ (c.todo ++ [.secondEvent now, .minuteEvent now]) _ _ _
    rw [List.append_assoc]
    rfl

/-- R150: a line without nodes gets no TIME ALL. -/
theorem timeAll_of_noNodes {now : CampusTime} {ln : Nat} {c : Ctx} (h : ∀ n, n ∈ (c.st.line ln).nodes → n.kind = .clock → n.st = .absent) :
    timeAll now ln c = c := by
  refine if_neg ?_
  simp only [Bool.and_eq_true, List.any_eq_true, decide_eq_true_eq, not_and, not_exists]
  exact fun _ n hn hk hx => hx (h n hn hk)

theorem minuteEvent_rest {now : CampusTime} {c : Ctx} (hr : CircuitsAtRest c.st) (hb : BareLines c.st) : minuteEvent now c = c := by
  unfold minuteEvent
  rw [circuits_rest hr]
  exact each_of_still fun ln _ => timeAll_of_noNodes (by rw [(hb ln).nodes]; exact fun _ h => nomatch h)

end Sys2Proof.Machine
end

