-- ==== Sys2Proof/Proofs/Firing.lean ====
section
/-! SUPPORT. O48: a new civil second fires the entries that are due, and the day roll comes first on a new day. -/

namespace Sys2Proof.Machine
open Sys2Proof

/-! ### The end of a second's calls -/

/-- What may be left behind a civil second: nothing, or its civil minute. -/
def MinuteOnly (now : CampusTime) (ws : List Work) : Prop := ws = [] ∨ ws = [.minuteEvent now]

theorem minuteTail_only (old now : CampusTime) : MinuteOnly now (minuteTail old now) := by
  unfold minuteTail
  split
  · exact .inl rfl
  · exact .inr rfl

section
variable {c : Ctx} {now : CampusTime} {tail : List Work} (htail : MinuteOnly now tail)
include htail

theorem minute_ends (ha : c.ans = []) (ht : c.todo = tail) (hr : CircuitsAtRest c.st) (hb : BareLines c.st) : Closes 1 c c.st := by
  obtain rfl | rfl := htail
  · exact fun m hm => closes_done ha ht m (by omega)
  · refine closes_call ha ht ?_
    rw [show doWork (.minuteEvent now) { c with todo := [] } = { c with todo := [] } from minuteEvent_rest (c := { c with todo := [] }) hr hb]
    exact closes_done ha rfl

/-- After the entries H becomes the second, and the minute finds nothing to do. -/
theorem second_ends (ha : c.ans = []) (ht : c.todo = .setMark now :: tail) (hr : CircuitsAtRest c.st) (hb : BareLines c.st)
    (hl : ∀ m, c.st.se.mark = some m → m.lin < (now.lin : Int)) : Closes 2 c (c.st.markedAt now) := by
  refine closes_call ha ht ?_
  rw [show doWork (.setMark now) { c with todo := [] } = ({ c with todo := [] } : Ctx).upd (State.markedAt now) from setMark_later (c := { c with todo := [] }) hl]
  exact minute_ends htail (c := ⟨c.st.markedAt now, c.ans, tail, c.skipped, c.tag, c.closing⟩) ha rfl (hr.of_cu rfl) (hb.of_lc rfl)

theorem second_stays {m : HighWater} (ha : c.ans = []) (ht : c.todo = .setMark now :: tail) (hr : CircuitsAtRest c.st) (hb : BareLines c.st)
    (hm : c.st.se.mark = some m) (hl : (now.lin : Int) ≤ m.lin) : Closes 2 c c.st := by
  refine closes_call ha ht ?_
  rw [show doWork (.setMark now) { c with todo := [] } = { c with todo := [] } from setMark_back (c := { c with todo := [] }) hm hl]
  exact minute_ends htail (c := ⟨c.st, c.ans, tail, c.skipped, c.tag, c.closing⟩) ha rfl hr hb

/-- What a second has come to when its entries are dealt with. -/
theorem Amid.second_leaves {u : State} {d : Ctx} {k : Nat} (h : Amid u [] (.setMark now :: tail) d) (hl : Leads k c d)
    (hk : k ≤ 2000) (hr : CircuitsAtRest u) (hb : BareLines u) (hm : ∀ m, u.se.mark = some m → m.lin < (now.lin : Int)) :
    RiOnly (u.markedAt now) c.close ∧ c.close = d.st.markedAt now := by
  have hc := second_ends htail h.ans h.todo (hr.of_cu h.state.cu) (hb.of_lc h.state.lc) (by rwa [h.state.se])
  have he := close_of_closes (hl 2 _ hc) (by omega)
  exact ⟨by rw [he]; exact (riFree_markedAt now).riOnly h.state, he⟩

end

/-! ### A civil second reaches the schedule -/

section
variable {c : Ctx} {now : CampusTime}

theorem secondEvent_unset (hm : c.st.se.mark = none) : doWork (.secondEvent now) c = c := by
  show secondEvent now c = _
  unfold secondEvent
  rw [hm]

theorem secondEvent_same {h : HighWater} (hm : c.st.se.mark = some h) (hd : now.day ≤ h.day) :
    doWork (.secondEvent now) c = c.call ((dueAfter c.st now.lin).map (fun p => .due p.1 p.2 now) ++ [.setMark now]) := by
  show secondEvent now c = _
  unfold secondEvent
  rw [hm]
  exact if_neg (by omega)

theorem secondEvent_later {h : HighWater} (hm : c.st.se.mark = some h) (hd : h.day < now.day) :
    doWork (.secondEvent now) c = c.call [.dayRoll now.day, .secondEvent now] := by
  show secondEvent now c = _
  unfold secondEvent
  rw [hm]
  exact if_pos hd

end

/-! ### An entry that is due -/

/-- A context with nothing skipped, no tag and no answer left. -/
def Ctx.plain (u : State) (ws : List Work) : Ctx := ⟨u, [], ws, 0, 0, none⟩

theorem plain_leads {u u' : State} {w : Work} {ws xs : List Work} (h : doWork w (Ctx.plain u []) = Ctx.plain u' xs) :
    Leads 1 (Ctx.plain u (w :: ws)) (Ctx.plain u' (xs ++ ws)) := fun j t hj => closes_call (c := Ctx.plain u (w :: ws)) rfl rfl (by
  rw [show ({ Ctx.plain u (w :: ws) with todo := [] } : Ctx) = Ctx.plain u [] from rfl, h]
  exact hj)

theorem amid_plain (u : State) (ws : List Work) : Amid u [] ws (Ctx.plain u ws) := amid_refl (Ctx.plain u ws)

section
variable {c : Ctx} {i : Nat} {e : Entry} {now : CampusTime}

theorem due_unselected (h : ¬ e.selectedBy c.st.se.profile c.st.dp.flags) : doWork (.due i e now) c = c :=
  if_neg (fun hs => h ((selected_iff c.st e).1 hs))

theorem due_selected (h : e.selectedBy c.st.se.profile c.st.dp.flags) : doWork (.due i e now) c = fire i e 0 c := if_pos ((selected_iff c.st e).2 h)

theorem due_flags {p : Nat × Entry} {m1 m2 : Set8} (hk : p.2.kind = .flags m1 m2) (d : Ctx) : doWork (.due p.1 p.2 now) d =
    if selected d.st p.2 then changeFlags m1 m2 flagsSchedule 0 d else d := by
  show dueEntry p.1 p.2 d = _
  unfold dueEntry fire
  rw [hk]
  rfl

/-- R50: an entry whose pattern or group is empty is not fired. -/
theorem fire_empty {g p level df du : Nat} (hk : e.kind = .bell g p level df du ∨ e.kind = .chime g p level df du)
    (he : (c.st.pattern p).steps = [] ∨ c.st.group g = 0) :
    fire i e 0 c = c.record ⟨.entryNotFired, .attention, .se, 0, 0, dv i, dv e.kind.code, dv (if (c.st.pattern p).steps = [] then 0 else 1)⟩ := by
  have hr : emptyReason c.st g p = some (if (c.st.pattern p).steps = [] then 0 else 1) := by
    unfold emptyReason
    by_cases hp : (c.st.pattern p).steps = []
    · rw [if_pos (by simpa [Pattern.isEmpty] using hp), if_pos hp]
      rfl
    · rw [if_neg (by simpa [Pattern.isEmpty] using hp), if_pos (he.resolve_left hp), if_neg hp]
      rfl
  unfold fire
  obtain hk | hk := hk <;> rw [hk] <;> dsimp only <;> rw [hr] <;> rfl

theorem emptyReason_none {s : State} {g p : Nat} (hp : (s.pattern p).steps ≠ []) (hg : s.group g ≠ 0) : emptyReason s g p = none := by
  unfold emptyReason
  rw [if_neg (by simpa [Pattern.isEmpty] using hp), if_neg hg]

theorem fire_bell {g p level df du : Nat} (hk : e.kind = .bell g p level df du) (hp : (c.st.pattern p).steps ≠ []) (hg : c.st.group g ≠ 0) :
    fire i e 0 c = c.call [.bellStart (.entry i 0) (c.st.group g) p level df du] := by
  unfold fire
  rw [hk]
  dsimp only
  rw [emptyReason_none hp hg]

theorem fire_chime {g p level df du : Nat} (hk : e.kind = .chime g p level df du) (hp : (c.st.pattern p).steps ≠ []) (hg : c.st.group g ≠ 0) :
    fire i e 0 c = c.call [.chime i g p level df du] := by
  unfold fire
  rw [hk]
  dsimp only
  rw [emptyReason_none hp hg]
  rfl

theorem fire_drill {n : Nat} (hk : e.kind = .drill n) : fire i e 0 c = c.call [.drillAsk (.entry i) n] := by
  unfold fire
  rw [hk]
  rfl

theorem fire_mark {code : Nat} (hk : e.kind = .mark code) : fire i e 0 c = c.record ⟨.mark, .routine, .se, 0, 0, dv code, dv i, dv 0⟩ := by
  unfold fire
  rw [hk]
  rfl

theorem chime_busy {g p level df du : Nat} (h : 12 ≤ c.st.au.anns.length) : doWork (.chime i g p level df du) c =
    c.record ⟨.entryNotFired, .attention, .se, 0, 0, dv i, dv (EntryKind.chime g p level df du).code, dv Outcome.busy.code⟩ :=
  if_pos (show c.st.au.anns.length ≥ Config.annCapacity from h)

/-- The announcement of a CHIME entry. -/
def chimeProto (s : State) (i g p level df du : Nat) : Ann := protoAnn (.entry i) (s.group g) level .toneOnly (some p) du false 0 true (df > 0)

theorem chime_taken {g p level df du ch : Nat} (h : c.st.au.anns.length < 12) (hf : freeChannel? c.st = some ch) :
    doWork (.chime i g p level df du) c =
      (c.upd (State.annAdded (annTaken c.st (chimeProto c.st i g p level df du)))).call [.annGive (nextAnnNumber c.st) ch] := by
  show chimeEntry i g p level df du c = _
  unfold chimeEntry
  dsimp only
  rw [if_neg (show ¬ c.st.au.anns.length ≥ Config.annCapacity from Nat.not_le_of_lt h)]
  have hx := takeAnn_free (proto := chimeProto c.st i g p level df du) (c := c) (channelRequest_free (level := level) hf (decide (df > 0)))
  unfold chimeProto at hx ⊢
  rw [hx]
  rfl

theorem drillAsk_entry_refused {n : Nat} {o : Outcome} (h : drillRefusal c.st n = some o) :
    doWork (.drillAsk (.entry i) n) c = c.record ⟨.drillNotStarted, .attention, .se, 0, 0, dv i, dv n, dv o.code⟩ := by
  show drillAsk (.entry i) n c = _
  unfold drillAsk
  rw [h]

theorem drillAsk_entry_starts {n : Nat} (h : drillRefusal c.st n = none) : doWork (.drillAsk (.entry i) n) c = drillStart (.entry i) n c := by
  show drillAsk (.entry i) n c = _
  unfold drillAsk
  rw [h]

end

end Sys2Proof.Machine
end

