-- ==== Sys2Proof/Proofs/Fires.lean ====
section
/-! SUPPORT. O48: what a civil second comes to, case by case. -/

namespace Sys2Proof.Machine
open Sys2Proof

section
variable {u : State} {now : CampusTime} {tail : List Work} (htail : MinuteOnly now tail) (hr : CircuitsAtRest u) (hb : BareLines u)
include htail hr hb

theorem second_unset (hm : u.se.mark = none) : (Ctx.plain u (.secondEvent now :: tail)).close = u :=
  close_of_closes (plain_leads (xs := []) (secondEvent_unset (c := Ctx.plain u []) hm) 1 _ (minute_ends htail (c := Ctx.plain u tail) rfl rfl hr hb)) (by decide)

omit htail hr hb in
theorem second_due {h : HighWater} (hm : u.se.mark = some h) (hd : now.day ≤ h.day) : Leads 1 (Ctx.plain u (.secondEvent now :: tail))
    (Ctx.plain u ((dueAfter u now.lin).map (fun p => .due p.1 p.2 now) ++ .setMark now :: tail)) := by
  have h1 := plain_leads (ws := tail) (xs := (dueAfter u now.lin).map (fun p => .due p.1 p.2 now) ++ [.setMark now])
    (secondEvent_same (c := Ctx.plain u []) hm hd)
  rwa [List.append_assoc] at h1

/-- R48: at or before H nothing is done. -/
theorem second_back {h : HighWater} (hm : u.se.mark = some h) (hl : (now.lin : Int) ≤ h.lin) (hd : now.day ≤ h.day) :
    (Ctx.plain u (.secondEvent now :: tail)).close = u := by
  have h1 := second_due (tail := tail) hm hd
  rw [dueAfter_none hm fun e _ hx => by unfold Entry.dueBy at hx; omega] at h1
  exact close_of_closes (h1 2 _ (second_stays htail (c := Ctx.plain u _) rfl rfl hr hb hm hl)) (by decide)

/-- R48: the FLAGS entries due are applied in order. -/
theorem second_flags {h : HighWater} (hm : u.se.mark = some h) (hl : h.lin < (now.lin : Int)) (hd : now.day = h.day)
    (hlen : u.se.active.entries.length ≤ 1024)
    (hk : ∀ e, e ∈ u.se.active.entries → e.dueBy h now → ∃ m1 m2, e.kind = .flags m1 m2) :
    RiOnly ((u.flagged (runFlags u.se.profile (u.se.active.entries.filter fun e => decide (e.dueBy h now)) u.dp.flags)).markedAt now)
      (Ctx.plain u (.secondEvent now :: tail)).close := by
  have hdue := dueAfter_snd (now := now) hm
  obtain ⟨d, l, h2⟩ := (amid_plain u _).runs_flags (W := fun p => .due p.1 p.2 now) (cause := fun _ => flagsSchedule) (ws := .setMark now :: tail)
    (fun p m1 m2 d hx => due_flags hx d) (ps := dueAfter u now.lin) fun p hp => by
      have := List.mem_map_of_mem (f := Prod.snd) hp
      rw [hdue, List.mem_filter] at this
      exact hk _ this.1 (of_decide_eq_true this.2)
  have hlen' := dueAfter_length (s := u) (l := now.lin)
  rw [hdue] at h2
  exact (h2.second_leaves htail ((second_due hm (le_of_eq hd)).trans l) (by omega) (hr.of_cu rfl) (hb.of_lc rfl)
    fun m hx => Option.some.inj (hm.symm.trans hx) ▸ hl).1

/-- R51, R52: on a later day the day roll comes first. -/
theorem second_rolls {h : HighWater} (hm : u.se.mark = some h) (hd : h.day < now.day)
    (hn : ∀ e, e ∈ (u.se.rolled now u.dp.calendar).active.entries → now.ms < 1000 * e.time) :
    RiOnly ((u.rolledOn now.day).markedAt now) (Ctx.plain u (.secondEvent now :: tail)).close := by
  obtain ⟨d1, l1, h1⟩ := (amid_plain u (.secondEvent now :: tail)).takesCall
    (secondEvent_later (c := Ctx.plain u []) hm hd ▸ (amid_plain u []).call [.dayRoll now.day, .secondEvent now])
  obtain ⟨d2, l2, h2⟩ := h1.takesCall (h1.alone.dayRoll now.day)
  have hmark : d2.st.se.mark = some ⟨now.day, -1⟩ := congrArg Schedule.mark h2.state.se
  have hnone : dueAfter (u.rolledOn now.day) now.lin = [] := by
    refine dueAfter_none (h := ⟨now.day, -1⟩) rfl fun e he hx => ?_
    have := hn e he
    have hx2 := hx.2
    unfold CampusTime.lin at hx2
    dsimp only at hx2
    omega
  have h2' : Amid (u.rolledOn now.day) [] [.setMark now] (doWork (.secondEvent now) { d2 with todo := [] }) := by
    rw [secondEvent_same (c := { d2 with todo := [] }) hmark (Nat.le_refl _), dueAfter_congr h2.state.se, hnone]
    exact h2.alone.call [.setMark now]
  obtain ⟨d3, l3, h3⟩ := h2.takesCall h2'
  exact (h3.second_leaves htail ((l1.trans l2).trans l3) (by decide) (hr.of_cu rfl) (hb.of_lc rfl) fun m hx => Option.some.inj hx ▸ eve_before now).1

/-! ### The one entry that is due -/

section
variable {i : Nat} {e : Entry} {h : HighWater} (ho : OnlyDue i e h now u) (hd : now.day = h.day)
include ho hd

omit htail hr hb in
theorem only_due : Leads 1 (Ctx.plain u (.secondEvent now :: tail)) (Ctx.plain u (.due i e now :: .setMark now :: tail)) := by
  have h1 := second_due (tail := tail) ho.mark (le_of_eq hd)
  rwa [ho.dueAfter_eq] at h1

omit htail hr hb hd in
theorem OnlyDue.later : ∀ m, u.se.mark = some m → m.lin < (now.lin : Int) := fun m hm => by
  have h1 := ho.due
  unfold Entry.dueBy at h1
  have h2 : h = m := Option.some.inj (ho.mark.symm.trans hm)
  rw [← h2]
  omega

/-- An entry that is dealt with at once, to a state. -/
theorem only_ends {u' : State} {k : Nat} (hl : Leads k (Ctx.plain u (.due i e now :: .setMark now :: tail)) (Ctx.plain u' (.setMark now :: tail)))
    (hk : k ≤ 1000) (hu : RiOnly u u') : (Ctx.plain u (.secondEvent now :: tail)).close = u'.markedAt now := by
  have h1 : Amid u' [] (.setMark now :: tail) (Ctx.plain u' (.setMark now :: tail)) := amid_plain u' _
  refine (h1.second_leaves htail ((only_due ho hd).trans hl) (by omega) (hr.of_cu hu.cu) (hb.of_lc hu.lc) fun m hx => ho.later m ?_).2
  rwa [hu.se] at hx

/-- R41: an entry that is not selected does nothing. -/
theorem only_unselected (hs : ¬ e.selectedBy u.se.profile u.dp.flags) : (Ctx.plain u (.secondEvent now :: tail)).close = u.markedAt now :=
  only_ends htail hr hb ho hd (plain_leads (xs := []) (due_unselected (c := Ctx.plain u []) hs)) (by decide) (RiOnly.refl u)

variable (hs : e.selectedBy u.se.profile u.dp.flags)
include hs

/-- An entry that writes its record and does no more. -/
theorem only_writes {n : Note} (hf : fire i e 0 (Ctx.plain u []) = (Ctx.plain u []).record n) :
    (Ctx.plain u (.secondEvent now :: tail)).close = (u.record n).markedAt now :=
  only_ends htail hr hb ho hd (plain_leads (u' := u.record n) (xs := []) ((due_selected (c := Ctx.plain u []) hs).trans hf)) (by decide) (noted_record u n).toRiOnly

/-- An entry that asks for one piece of work, which writes a record and does no more. -/
theorem only_asks_writes {n : Note} {w : Work} (hf : fire i e 0 (Ctx.plain u []) = (Ctx.plain u []).call [w])
    (hw : doWork w (Ctx.plain u []) = (Ctx.plain u []).record n) :
    (Ctx.plain u (.secondEvent now :: tail)).close = (u.record n).markedAt now :=
  only_ends htail hr hb ho hd ((plain_leads (u' := u) (xs := [w]) ((due_selected (c := Ctx.plain u []) hs).trans hf)).trans
    (plain_leads (u' := u.record n) (xs := []) hw)) (by decide) (noted_record u n).toRiOnly

omit htail hr hb in
theorem only_asks {w : Work} (hf : fire i e 0 (Ctx.plain u []) = (Ctx.plain u []).call [w]) :
    Leads 2 (Ctx.plain u (.secondEvent now :: tail)) (Ctx.plain u (w :: .setMark now :: tail)) :=
  (only_due ho hd).trans (plain_leads (u' := u) (xs := [w]) ((due_selected (c := Ctx.plain u []) hs).trans hf))

/-- R49, R88: a BELL entry rings its bell. -/
theorem only_rings {g p level df du z n : Nat} (hk : e.kind = .bell g p level df du) (hrd : BellReady g p z n u) :
    ∃ t, (Ctx.plain u (.secondEvent now :: tail)).close = t ∧ BellStarted n z p level (.entry i 0) u t
      ∧ t.se = { u.se with mark := some (markOf now) } ∧ t.au = u.au ∧ SameBut [.se, .za, .pu] u t ∧ t.elapsed = u.elapsed ∧ t.tb = u.tb := by
  have hf := fire_bell (i := i) (c := Ctx.plain u []) hk hrd.pattern hrd.group_ne
  have h1 := amid_plain u (.bellStart (.entry i 0) (u.group g) p level df du :: .setMark now :: tail)
  obtain ⟨d3, l3, h3⟩ := h1.takesCall (h1.alone.bellStart_ready (src := .entry i 0) (level := level) (df := df) (du := du) hrd)
  obtain ⟨d4, k, fs, l4, hkw, hkl, h4⟩ := h3.bell_sounds hrd
  have ht := (h4.second_leaves htail (((only_asks ho hd hs hf).trans l3).trans l4) (by decide) (hr.of_cu rfl) (hb.of_lc rfl) ho.later).1
  have hbs : BellStarted n z p level (.entry i 0) u _ := bellStarted_of (df := df) (du := du) (fs := fs) hrd hkw hkl (RiOnly.refl _)
  exact ⟨_, rfl, hbs.of_later ht.zone ht.zoneState (congrArg PatternUnit.bells ht.pu) (congrArg PatternUnit.table ht.pu) ht.elapsed, ht.se, ht.au,
    SameBut.of_only (sameBut_se_za_pu (bs := [.se, .za, .pu]) (by decide) (by decide) (by decide) rfl) ht, ht.elapsed, ht.tb⟩

/-- R49, R106: a CHIME entry's announcement chimes. -/
theorem only_chimes {g p level df du z ch : Nat} (hk : e.kind = .chime g p level df du) (hp : (u.pattern p).steps ≠ []) (hgn : u.group g ≠ 0)
    (hlen : u.au.anns.length < 12) (hg : u.group g = BitVec.twoPow 64 z) (hc : Counts u) (hz : FreeZone z u) (hq : NoWaiters u)
    (hfd : ∀ b, u.za.feeds.getD b none = none) (hch : freeChannel? u = some ch) :
    ∃ t, (Ctx.plain u (.secondEvent now :: tail)).close = t ∧ t.se = { u.se with mark := some (markOf now) }
      ∧ SameBut [.au, .se, .za] u t ∧ t.elapsed = u.elapsed ∧ t.tb = u.tb
      ∧ ∃ a k, t.au.anns = u.au.anns ++ [a] ∧ u.ann? (nextAnnNumber u) = none ∧ a.num = nextAnnNumber u ∧ a.st = .chime
        ∧ a.source = .toneOnly ∧ a.chime = some p ∧ a.level = level ∧ a.origin = .entry i ∧ a.maxDur = du ∧ a.channel = some ch
        ∧ (t.channel ch).owner = some (.ann a.num) ∧ (t.zone z).holder = some k ∧ k.who = .ann a.num ∧ t.zoneState z = .page
        ∧ ∀ y, y ≠ z → t.zone y = u.zone y := by
  have hno : u.ann? (nextAnnNumber u) = none := nextAnnNumber_free (by omega)
  let a := annTaken u (chimeProto u i g p level df du)
  have hf := fire_chime (i := i) (c := Ctx.plain u []) hk hp hgn
  have h1 := amid_plain u (.chime i g p level df du :: .setMark now :: tail)
  have hx : Amid (u.annAdded a) [] [.annGive a.num ch] (doWork (.chime i g p level df du) (Ctx.plain u [])) := by
    rw [chime_taken (c := Ctx.plain u []) hlen hch]
    exact ((amid_plain u []).upd (riFree_annAdded a)).call [.annGive a.num ch]
  obtain ⟨d3, l3, h3⟩ := h1.takesCall hx
  have haz : a.zones = [⟨z, .unclaimed, false, false⟩] := by
    show (zonesOf (u.group g)).map _ = _
    rw [hg, zonesOf_twoPow hz.range]
    rfl
  obtain ⟨d4, fs, l4, h4⟩ := h3.chime_starts (ann_of_none hno) haz (show a.chime = some p from rfl) hz hq hb hfd
  have ht := (h4.second_leaves htail (((only_asks ho hd hs hf).trans l3).trans l4) (by decide) (hr.of_cu rfl) (hb.of_lc rfl) ho.later).1
  have hzlen : z < u.za.zones.length := lt_of_lt_of_eq hz.range hz.counted.symm
  have hzone := fun y => (congrFun ht.zone y).trans (heldAs_zone (s := u) hzlen y)
  have hown := (hzone z).trans (if_pos rfl)
  have hch4 : ch < 4 := List.mem_range.1 (List.mem_of_find?_eq_some hch)
  refine ⟨_, rfl, ht.se, SameBut.of_only ?_ ht, ht.elapsed, ht.tb, _, _, congrArg AnnUnit.anns ht.au, hno, rfl, rfl, rfl, rfl, rfl, rfl, rfl, rfl, ?_,
    congrArg ZoneDyn.holder hown, rfl, ?_, fun y hy => (hzone y).trans (if_neg hy)⟩
  · exact ⟨fun _ => rfl, fun _ => rfl, fun k => (k (by decide)).elim, fun k => (k (by decide)).elim, fun _ => rfl, fun k => (k (by decide)).elim,
      fun _ => rfl, fun _ => rfl, fun _ => rfl, fun _ => rfl⟩
  · have hchan := setChannel_channel (s := u) hc hch4 (fun k => tonedBy u p (givenTo a.num k))
    exact congrArg Channel.owner ((congrFun ht.channel ch).trans hchan)
  · exact zoneState_of_ann ((congrArg ZoneRec.enabled (congrFun ht.zoneRec z)).trans hz.enabled) (congrArg ZoneDyn.holder hown) rfl

/-- R49, R128: a DRILL entry starts its drill. -/
theorem only_drills {n z : Nat} (hk : e.kind = .drill n) (hn : drillRefusal u n = none) (hto : (u.dc.records.getD n DrillRec.undefined).tone = false)
    (hz : drillZones u (u.dc.records.getD n DrillRec.undefined) = [z]) (hf : FreeZone z u) (hq : NoWaiters u) :
    ∃ t, (Ctx.plain u (.secondEvent now :: tail)).close = t ∧ t.se = { u.se with mark := some (markOf now) } ∧ t.au = u.au
      ∧ SameBut [.se, .za, .dc] u t ∧ t.elapsed = u.elapsed ∧ t.tb = u.tb ∧ t.zoneState z = .evac ∧ (∀ y, y ≠ z → t.zone y = u.zone y)
      ∧ ∃ d k, t.dc = { u.dc with active := some d } ∧ d.num = n ∧ d.phase = .sounding ∧ d.origin = .entry i ∧ d.start = t.elapsed
        ∧ (t.zone z).holder = some k ∧ k.who = .drill n := by
  have h1 := amid_plain u (.drillAsk (.entry i) n :: .setMark now :: tail)
  have hx := (amid_plain u []).drillStart (num := n) hto (.entry i)
  rw [hz, ← drillAsk_entry_starts (c := Ctx.plain u []) hn] at hx
  obtain ⟨d3, l3, h3⟩ := h1.takesCall hx
  obtain ⟨d4, fs, l4, -, h4⟩ := h3.drill_starts rfl hf hq
  have ht := (h4.second_leaves htail (((only_asks ho hd hs (fire_drill hk)).trans l3).trans l4) (by decide) (hr.of_cu rfl) (hb.of_lc rfl) ho.later).1
  have hlen : z < u.za.zones.length := lt_of_lt_of_eq hf.range hf.counted.symm
  have hzone := fun y => (congrFun ht.zone y).trans (heldAs_zone (s := u) hlen y)
  have hown := (hzone z).trans (if_pos rfl)
  refine ⟨_, rfl, ht.se, ht.au, SameBut.of_only ?_ ht, ht.elapsed, ht.tb, ?_, fun y hy => (hzone y).trans (if_neg hy), _, _, ht.dc, rfl, rfl, rfl, ht.elapsed.symm,
    congrArg ZoneDyn.holder hown, rfl⟩
  · exact ⟨fun _ => rfl, fun _ => rfl, fun k => (k (by decide)).elim, fun k => (k (by decide)).elim, fun _ => rfl, fun _ => rfl,
      fun k => (k (by decide)).elim, fun _ => rfl, fun _ => rfl, fun _ => rfl⟩
  · exact zoneState_of_drill ((congrArg ZoneRec.enabled (congrFun ht.zoneRec z)).trans hf.enabled) (congrArg ZoneDyn.holder hown) rfl

end
end

end Sys2Proof.Machine
end

