-- ==== Sys2Proof/Proofs/ScheduleFires.lean ====
section
/-! O48: a new civil second fires the entries due, and the day roll comes first on a new day. -/

namespace Sys2Proof.Machine
open Sys2Proof

/-! ### The part that campus time has been carried on in -/

theorem ann_ticked (s : State) (n : Nat) : s.annsTicked.ann? n = (s.ann? n).map Ann.tick := by
  have htick : ∀ a : Ann, a.tick.num = a.num := fun a => by unfold Ann.tick; split <;> rfl
  show (s.au.anns.map Ann.tick).find? (·.num == n) = (s.au.anns.find? (·.num == n)).map Ann.tick
  rw [List.find?_map, show ((fun a : Ann => a.num == n) ∘ Ann.tick) = (·.num == n) from funext fun a => congrArg (· == n) (htick a)]

theorem nextAnnNumber_ticked (s : State) : nextAnnNumber s.annsTicked = nextAnnNumber s := by
  unfold nextAnnNumber
  simp only [ann_ticked, Option.isNone_map]
  rfl

section
variable (s : State) (now : CampusTime) (loss : Nat)

theorem sameBut_carried : SameBut [.tb, .au] s (s.carriedTo now loss) :=
  ⟨fun k => (k (by decide)).elim, fun _ => rfl, fun _ => rfl, fun _ => rfl, fun _ => rfl, fun k => (k (by decide)).elim, fun _ => rfl, fun _ => rfl,
    fun _ => rfl, fun _ => rfl⟩

theorem nextAnnNumber_carried : nextAnnNumber (s.carriedTo now loss) = nextAnnNumber s := nextAnnNumber_ticked s

theorem ann_carried {n : Nat} (h : (s.carriedTo now loss).ann? n = none) : s.ann? n = none := by
  have h1 : s.annsTicked.ann? n = none := h
  rwa [ann_ticked, Option.map_eq_none_iff] at h1

end

section
variable {s t : State} {now : CampusTime} {loss : Nat} {bs : List BlockId}

theorem SameBut.of_carried (h : SameBut bs (s.carriedTo now loss) t) : SameBut (.tb :: .au :: bs) s t :=
  ((sameBut_carried s now loss).weaken fun b hb => by simp only [List.mem_cons] at hb ⊢; tauto).trans
    (h.weaken fun b hb => List.mem_cons_of_mem _ (List.mem_cons_of_mem _ hb))

theorem OnlyDue.carried {i : Nat} {e : Entry} {h : HighWater} {civ : CampusTime} (ho : OnlyDue i e h civ s) : OnlyDue i e h civ (s.carriedTo now loss) :=
  ⟨ho.mark, ho.bound, ho.found, ho.due, ho.only⟩

/-- R127: a drill that a part with a campus time does not refuse, or refuses for its record, the fire or another drill. -/
theorem drillRefusal_carried (n : Nat) : drillRefusal (s.carriedTo now loss) n =
    if (s.dc.records.getD n DrillRec.undefined).defined = false then some .badParameter
      else if s.dc.fireActive = true ∨ s.dc.silenceHeld = true then some .fireActive else if s.dc.active ≠ none then some .busy else none := by
  rw [drillRefusal_eq]
  exact congrArg (ite _ _) (if_neg nofun)

end

/-! ### The second -/

/-- R39: a millisecond that ends at a whole second begins a civil second. -/
theorem Advances.new_second {old now : CampusTime} {s : State} (h : Advances old now s) (hs : now.lin % 1000 = 0) (off : Nat) :
    (civilAt old off).lin / 1000 ≠ (civilAt now off).lin / 1000 := by
  unfold civilAt
  rw [lin_ofLin, lin_ofLin]
  have := h.lin
  omega

theorem Advances.second {old now : CampusTime} {s : State} (h : Advances old now s) (ho : (s.tb.steppedTo now).offset = s.tb.offset)
    (hs : now.lin % 1000 = 0) : ∃ loss, Machine.exec .timeAdvance s = .next (Ctx.plain (s.carriedTo now loss)
      (.secondEvent (civilAt now s.tb.offset) :: minuteTail (civilAt old s.tb.offset) (civilAt now s.tb.offset))).close := by
  obtain ⟨loss, hl⟩ := h.keeps_offset ho
  exact ⟨loss, by rw [h.exec, hl, civilEvents_second (h.new_second hs _)]; rfl⟩

/-- A second that writes a record, and H is the second. -/
theorem carried_wrote {s t : State} {now civ : CampusTime} {loss : Nat} {n : Note} (h : t = ((s.carriedTo now loss).record n).markedAt civ) :
    t.se = { s.se with mark := some ⟨civ.day, civ.ms⟩ } ∧ t.au = s.annsTicked.au ∧ t.ri = s.ri.take (stamped t n) ∧ SameBut [.tb, .au, .se] s t := by
  rw [h]
  exact ⟨rfl, rfl, rfl, (sameBut_se (s := s.carriedTo now loss) (bs := [.se]) (by decide) rfl).of_carried⟩

/-- A second's event leaves elapsed time and the Time Base. -/
theorem second_passes {u : State} {now : CampusTime} {tail : List Work} (htail : MinuteOnly now tail) :
    Passed u (Ctx.plain u (.secondEvent now :: tail)).close := by
  refine close_passed (c := Ctx.plain u (.secondEvent now :: tail)) fun q n hm => ?_
  obtain rfl | rfl := htail <;> simp [Ctx.plain] at hm

/-- Settles O48. -/
theorem scheduleFiresDueEntries : Obligations.ScheduleFiresDueEntries := by
  unfold Obligations.ScheduleFiresDueEntries
  intro old now s h ho hs hr hb
  obtain ⟨loss, hx⟩ := h.second ho hs
  dsimp only
  generalize civilAt now s.tb.offset = civ at hx ⊢
  have htail := minuteTail_only (civilAt old s.tb.offset) civ
  generalize minuteTail (civilAt old s.tb.offset) civ = tail at hx htail
  have hpass := second_passes (u := s.carriedTo now loss) htail
  have hru : CircuitsAtRest (s.carriedTo now loss) := hr.of_cu rfl
  have hbu : BareLines (s.carriedTo now loss) := hb.of_lc rfl
  refine ⟨_, hx, hpass.elapsed, congrArg TimeBase.campus hpass.tb, fun hm => ?unset, fun m hm hl hd => ?back, fun m hm hl hd hlen hk => ?flags,
    fun i e m hd0 hd => ⟨fun hsel => ?unselected, fun hsel => ⟨fun g p level df du z n hk hrd => ?bell, fun g p level df du hk hp hg => ⟨fun hfull => ?full,
      fun z ch hlen hgz hc hz hq hfd hch => ?chime⟩, fun n hk => ⟨fun o hro => ?refused, fun z hno hto hzs hz hq => ?drill⟩, fun g p level df du hk he => ?empty,
      fun code hk => ?mark⟩⟩, fun m hm hd hn => ?roll⟩
  case unset =>
    rw [second_unset htail hru hbu hm]
    exact ⟨rfl, rfl, rfl, sameBut_carried s now loss⟩
  case back =>
    rw [second_back htail hru hbu hm hl hd]
    exact ⟨rfl, rfl, rfl, sameBut_carried s now loss⟩
  case flags =>
    have ht := second_flags htail hru hbu hm hl hd hlen hk
    refine ⟨ht.se, ht.au, ?_, ht.dp⟩
    exact (SameBut.of_only (sameBut_dp_se (bs := [.dp, .se]) (by decide) (by decide) rfl) ht).of_carried
  case unselected =>
    rw [only_unselected htail hru hbu hd0.carried hd hsel]
    exact ⟨rfl, rfl, rfl, (sameBut_se (s := s.carriedTo now loss) (bs := [.se]) (by decide) rfl).of_carried⟩
  case bell =>
    obtain ⟨t, ht, hbell, hse, hau, hsame, -, -⟩ := only_rings htail hru hbu hd0.carried hd hsel hk (hrd.of_blocks (t := s.carriedTo now loss) rfl rfl)
    rw [ht]
    exact ⟨hse, hau, hbell.of_blocks rfl rfl, hsame.of_carried⟩
  case full =>
    have hlen : 12 ≤ (s.carriedTo now loss).au.anns.length := le_of_le_of_eq hfull (List.length_map _).symm
    have hw := chime_busy (i := i) (g := g) (p := p) (level := level) (df := df) (du := du) (c := Ctx.plain (s.carriedTo now loss) []) hlen
    rw [← hk] at hw
    exact carried_wrote (only_asks_writes htail hru hbu hd0.carried hd hsel (fire_chime (c := Ctx.plain (s.carriedTo now loss) []) hk hp hg) hw)
  case chime =>
    have hlen' : (s.carriedTo now loss).au.anns.length < 12 := lt_of_eq_of_lt (List.length_map _) hlen
    obtain ⟨t, ht, hse, hsame, -, -, a, k, hanns, hno, hnum, hst, hsrc, hch1, hlv, hor, hdu, hchan, hown, hhold, hwho, hzs, hoth⟩ :=
      only_chimes htail hru hbu hd0.carried hd hsel hk hp hg hlen' hgz ⟨hc.zones, hc.feeds, hc.channels, hc.circuits, hc.lines, hc.inputs, hc.outputs⟩
        (hz.of_za rfl) (hq.of_za rfl) hfd hch
    rw [nextAnnNumber_carried] at hno hnum
    rw [ht]
    exact ⟨hse, hsame.of_carried.weaken (by decide), a, k, hanns, ann_carried s now loss hno, hnum, hst, hsrc, hch1, hlv, hor, hdu, hchan, hown, hhold, hwho, hzs, hoth⟩
  case refused =>
    exact carried_wrote (only_asks_writes htail hru hbu hd0.carried hd hsel (fire_drill (c := Ctx.plain (s.carriedTo now loss) []) hk)
      (drillAsk_entry_refused (c := Ctx.plain (s.carriedTo now loss) []) ((drillRefusal_carried n).trans hro)))
  case drill =>
    obtain ⟨t, ht, hse, hau, hsame, -, -, hev, hoth, d, k, hdc, hnum, hph, hor, hst, hhold, hwho⟩ :=
      only_drills htail hru hbu hd0.carried hd hsel hk ((drillRefusal_carried n).trans hno) hto hzs (hz.of_za rfl) (hq.of_za rfl)
    rw [ht]
    exact ⟨hse, hau, hsame.of_carried, hev, hoth, d, k, hdc, hnum, hph, hor, hst, hhold, hwho⟩
  case empty => exact carried_wrote (only_writes htail hru hbu hd0.carried hd hsel (fire_empty (c := Ctx.plain (s.carriedTo now loss) []) hk he))
  case mark => exact carried_wrote (only_writes htail hru hbu hd0.carried hd hsel (fire_mark (c := Ctx.plain (s.carriedTo now loss) []) hk))
  case roll =>
    have ht := second_rolls htail hru hbu hm hd hn
    exact ⟨ht.dp, ht.se.trans (rolled_se civ _), ht.au, (SameBut.of_only (sameBut_dp_se (bs := [.dp, .se]) (by decide) (by decide) rfl) ht).of_carried⟩

end Sys2Proof.Machine
end

