-- ==== Sys2Proof/Proofs/RuleDays.lean ====
section
/-! SUPPORT. The days that a rule's month and week name (R22), and the offset that its instants put in force (R23). -/

namespace Sys2Proof.Machine
open Sys2Proof

/-- The day after the last of a month. -/
def monthEnd (y m : Nat) : Nat := monthFirst y m + monthLength y m

theorem monthLength_ge (y m : Nat) : 28 ≤ monthLength y m := by
  unfold monthLength
  split
  · split <;> decide
  · decide
  · decide
  · decide
  · decide
  · decide

/-- R4: a month begins where the one before it ends. -/
theorem monthFirst_succ {m : Nat} (h : 1 ≤ m) (y : Nat) : monthFirst y (m + 1) = monthEnd y m := by
  obtain ⟨k, rfl⟩ := Nat.exists_eq_add_of_le' h
  unfold monthEnd monthFirst
  simp only [Nat.add_sub_cancel, List.range_succ, List.map_append, List.map_cons, List.map_nil, List.sum_append, List.sum_cons, List.sum_nil]
  omega

/-- R4: a year ends with its December. -/
theorem jan1_succ {y : Nat} (h : 2000 ≤ y) : jan1 (y + 1) = monthEnd y 12 := by
  obtain ⟨k, rfl⟩ := Nat.exists_eq_add_of_le h
  unfold monthEnd monthFirst jan1 monthLength leapYear
  by_cases hl : (2000 + k) % 4 = 0
  · simp [List.range_succ, hl]
    omega
  · simp [List.range_succ, hl]
    omega

/-- The first Sunday at or after a day. -/
def sundayFrom (f : Nat) : Nat := f + (7 - weekday f) % 7

theorem sundayFrom_spec (f : Nat) : sundayFrom f % 7 = 1 ∧ f ≤ sundayFrom f ∧ sundayFrom f < f + 7 := by
  unfold sundayFrom weekday
  omega

theorem firstSunday_eq (y : Nat) {m : Nat} (h : m ≠ 13) : firstSunday y m = sundayFrom (monthFirst y m) := by
  unfold firstSunday
  rw [if_neg h]
  rfl

theorem firstSunday_next {y m : Nat} (hy : 2000 ≤ y) (h1 : 1 ≤ m) (h12 : m ≤ 12) : firstSunday y (m + 1) = sundayFrom (monthEnd y m) := by
  by_cases h : m = 12
  · subst h
    unfold firstSunday
    rw [if_pos rfl, jan1_succ hy]
    rfl
  · rw [firstSunday_eq y (by omega), monthFirst_succ h1]

theorem weekday_sunday {d : Nat} (h : d % 7 = 1) : weekday d = 0 := by
  unfold weekday
  omega

/-- R22: a rule's week names a Sunday of its month. -/
theorem ruleDay_spec {y m week : Nat} (hy : 2000 ≤ y) (h1 : 1 ≤ m) (h12 : m ≤ 12) (hw1 : 1 ≤ week) (hw5 : week ≤ 5) :
    weekday (ruleDay y m week) = 0 ∧ monthFirst y m ≤ ruleDay y m week ∧ ruleDay y m week < monthEnd y m
      ∧ (week ≤ 4 → monthFirst y m + 7 * (week - 1) ≤ ruleDay y m week ∧ ruleDay y m week < monthFirst y m + 7 * week)
      ∧ (week = 5 → monthEnd y m ≤ ruleDay y m week + 7) := by
  have hlen := monthLength_ge y m
  unfold ruleDay
  by_cases h5 : week = 5
  · rw [if_pos h5, firstSunday_next hy h1 h12]
    have hend : monthEnd y m = monthFirst y m + monthLength y m := rfl
    obtain ⟨h7, hlo, hhi⟩ := sundayFrom_spec (monthEnd y m)
    exact ⟨weekday_sunday (by omega), by omega, by omega, fun h => by omega, fun _ => by omega⟩
  · rw [if_neg h5, firstSunday_eq y (by omega)]
    obtain ⟨h7, hlo, hhi⟩ := sundayFrom_spec (monthFirst y m)
    unfold monthEnd
    exact ⟨weekday_sunday (by omega), by omega, by omega, fun _ => ⟨by omega, by omega⟩, fun h => absurd h h5⟩

section
variable {r : DstRule} {tr : Transitions} {now : Nat}

theorem offsetAt_within (h : tr.s.lin < tr.e.lin) :
    offsetAt (some r) (some tr) now = if tr.s.lin ≤ now ∧ now < tr.e.lin then r.offset else 0 := by
  unfold offsetAt
  simp [h]

theorem offsetAt_around (h : tr.e.lin < tr.s.lin) :
    offsetAt (some r) (some tr) now = if now < tr.e.lin ∨ tr.s.lin ≤ now then r.offset else 0 := by
  unfold offsetAt
  simp [h, Nat.lt_asymm h]

end

end Sys2Proof.Machine
end

