-- ==== Sys2Proof/Proofs/Minutes.lean ====
section
/-! SUPPORT. A civil minute reaches the circuits and the clocks (R145, R150). -/

namespace Sys2Proof.Machine
open Sys2Proof

/-! ### The circuits -/

theorem circuitBecomes_closing (i : Nat) (old new : CircuitState) (c : Ctx) : (circuitBecomes i old new c).closing = c.closing := by
  unfold circuitBecomes
  dsimp only
  split <;> rfl

theorem circuitPoint_closing (i : Nat) (c : Ctx) : (circuitPoint i c).closing = c.closing := by
  unfold circuitPoint
  dsimp only
  split
  · unfold circuitDecide
    split
    · exact circuitBecomes_closing _ _ _ _
    · exact circuitBecomes_closing _ _ _ _
  · rfl

theorem each_closing {α : Type} {f : α → Ctx → Ctx} (hf : ∀ x c, (f x c).closing = c.closing) (l : List α) (c : Ctx) :
    (Ctx.each f l c).closing = c.closing := by
  induction l generalizing c with
  | nil => rfl
  | cons x l ih => exact (ih (f x c)).trans (hf x c)

/-- Equal but for CU. -/
def CircuitsApart (u v : State) : Prop := v = { u with cu := v.cu }

theorem circuitsApart_set {u v : State} (h : CircuitsApart u v) (i : Nat) (f : Circuit → Circuit) : CircuitsApart u (v.setCircuit i f) := by
  unfold CircuitsApart
  conv => lhs; rw [h]
  rfl

theorem counts_setCircuit {s : State} (h : Counts s) (i : Nat) (f : Circuit → Circuit) : Counts (s.setCircuit i f) :=
  ⟨h.zones, h.feeds, h.channels, (List.length_modify f s.cu.circuits i).trans h.circuits, h.lines, h.inputs, h.outputs⟩

/-- R145: each running circuit without a pulse decides. -/
theorem circuits_point {u : State} {c : Ctx} (hc : Counts u) (h : Reached u c) :
    ∃ v, Reached v (Ctx.each circuitPoint (List.range 4) c) ∧ CircuitsApart u v ∧ Counts v
      ∧ ∀ i, i < 4 → v.circuit i = (u.circuit i).pointed u.minute? u.elapsed := by
  obtain ⟨v, hv, ⟨hap, hcv⟩, hrel, -⟩ := each_reached (n := 4) State.setCircuit State.circuit (fun v => CircuitsApart u v ∧ Counts v)
    (fun _ k k' => k' = k.pointed u.minute? u.elapsed) circuitPoint
    (fun v i f hv hi => (setCircuit_circuit hv.2 hi i f).trans (if_pos rfl)) (fun v i j f hj => setCircuit_circuit_ne v hj f)
    (fun v c i hi hv h => by
      obtain ⟨f, hf, hk⟩ := circuitPoint_points h i
      have hm : v.minute? = u.minute? := by rw [hv.1]; rfl
      have he : v.elapsed = u.elapsed := by rw [hv.1]
      rw [hm, he] at hk
      exact ⟨f, hf, ⟨circuitsApart_set hv.1 i f, counts_setCircuit hv.2 i f⟩, hk⟩)
    (List.range 4) u c List.nodup_range (fun i hi => List.mem_range.1 hi) ⟨rfl, hc⟩ h
  exact ⟨v, hv, hap, hcv, fun i hi => hrel i (List.mem_range.2 hi)⟩

theorem pointed_still {k : Circuit} (h : k.st.running = false ∨ k.pulse ≠ none) (m : Option Nat) (now : Nat) : k.pointed m now = k := by
  unfold Circuit.pointed
  refine if_neg ?_
  cases hp : k.pulse <;> simp_all

theorem pointed_decides {k : Circuit} (hr : k.st.running = true) (hp : k.pulse = none) (m now : Nat) :
    k.pointed (some m) now = Circuit.decided m now k := by
  unfold Circuit.pointed
  rw [hr, hp]
  rfl

/-! ### The clocks -/

/-- A line has a clock that is not ABSENT. -/
def hasClock (l : Line) : Bool := l.nodes.any fun n => n.kind = .clock && n.st ≠ .absent

theorem hasClock_iff {l : Line} : hasClock l = true ↔ ∃ n, n ∈ l.nodes ∧ n.kind = .clock ∧ n.st ≠ .absent := by
  simp [hasClock]

/-- R150: a line before and after a civil minute: with a clock and in use, a TIME ALL is in flight on it. -/
structure TimeOffered (kind : TxKind) (l l' : Line) : Prop where
  offered : (l.active && hasClock l) = true → ∃ f : InFlight, l' = { l with inFlight := some f } ∧ f.tx.kind = kind ∧ f.tx.dest = .all ∧ f.attempt = 1
    ∧ f.timeoutAt = none
  still : (l.active && hasClock l) = false → l' = l

/-- R150: on an idle line a TIME ALL goes into flight at once. -/
theorem timeAll_idle {u : State} {now : CampusTime} {ln : Nat} {c : Ctx} (hc : Counts u) (hl : ln < 8) (hi : IdleLine (u.line ln)) (h : Reached u c)
    (hn : c.closing = none) : ∃ f, Reached (u.setLine ln f) (timeAll now ln c) ∧ (timeAll now ln c).closing = none
      ∧ TimeOffered (.timeAll now.day (now.ms / 60000) (u.tb.offset != 0)) (u.line ln) (f (u.line ln)) := by
  have hline := h.alike.line
  unfold timeAll
  dsimp only
  by_cases ha : ((u.line ln).active && hasClock (u.line ln)) = true
  · have hcond : ((c.st.line ln).active && (c.st.line ln).nodes.any fun n => n.kind = .clock && n.st ≠ .absent) = true := by rw [hline]; exact ha
    have hcc : Counts c.st := by
      rw [h.alike.eq]
      exact ⟨hc.zones, hc.feeds, hc.channels, hc.circuits, hc.lines, hc.inputs, hc.outputs⟩
    have hic : IdleLine (c.st.line ln) := by rw [hline]; exact hi
    obtain ⟨hact, -⟩ := Bool.and_eq_true_iff.1 hcond
    rw [if_pos hcond, withdraw, takeOut_of_empty hic.queue hic.deferred, offerTx_of_idle hcc hl hic hact rfl rfl (by rw [hn]; exact nofun)]
    refine ⟨_, h.upd (plain_setLine ln _), hn, fun _ => ⟨_, rfl, ?_, rfl, rfl, rfl⟩, fun hf => ?_⟩
    · show TxKind.timeAll now.day (now.ms / 60000) (c.st.tb.offset != 0) = _
      rw [h.alike.tb]
    · rw [ha] at hf
      exact nomatch hf
  · have hcond : ¬ ((c.st.line ln).active && (c.st.line ln).nodes.any fun n => n.kind = .clock && n.st ≠ .absent) = true := by rw [hline]; exact ha
    rw [if_neg hcond]
    have hid : u.setLine ln (fun l => l) = u := setLine_of_fixed rfl
    exact ⟨fun l => l, hid.symm ▸ h, hn, fun hf => absurd hf ha, fun _ => rfl⟩

/-- Equal but for LC. -/
def LinesApart (u v : State) : Prop := v = { u with lc := v.lc }

theorem linesApart_set {u v : State} (h : LinesApart u v) (ln : Nat) (f : Line → Line) : LinesApart u (v.setLine ln f) := by
  unfold LinesApart
  conv => lhs; rw [h]
  rfl

/-- R150: the minute reaches line after line. -/
theorem timeAlls {u0 : State} {now : CampusTime} : ∀ (is : List Nat) (u : State) (c : Ctx), is.Nodup → (∀ i, i ∈ is → i < 8) → Counts u → LinesApart u0 u →
    (∀ l, l ∈ is → IdleLine (u.line l)) → Reached u c → c.closing = none →
    ∃ v, Reached v (Ctx.each (timeAll now) is c) ∧ LinesApart u0 v
      ∧ (∀ i, i ∈ is → TimeOffered (.timeAll now.day (now.ms / 60000) (u0.tb.offset != 0)) (u.line i) (v.line i)) ∧ ∀ i, i ∉ is → v.line i = u.line i := by
  intro is
  induction is with
  | nil => exact fun u c _ _ _ hap _ h _ => ⟨u, h, hap, fun _ hi => absurd hi List.not_mem_nil, fun _ _ => rfl⟩
  | cons i is ih =>
    intro u c hnd hlt hc hap hidle h hn
    obtain ⟨hi, hnd⟩ := List.nodup_cons.mp hnd
    have hi8 := hlt i List.mem_cons_self
    obtain ⟨f, hf, hcl, hoff⟩ := timeAll_idle (now := now) hc hi8 (hidle i List.mem_cons_self) h hn
    rw [show u.tb = u0.tb by rw [hap]] at hoff
    have hother : ∀ j, j ≠ i → (u.setLine i f).line j = u.line j := fun j hj => setLine_line_ne u hj f
    have hne : ∀ j, j ∈ is → j ≠ i := fun j hj h => hi (h ▸ hj)
    obtain ⟨v, hv, hvap, hvo, hvs⟩ := ih (u.setLine i f) _ hnd (fun j hj => hlt j (List.mem_cons_of_mem _ hj)) (counts_setLine hc i f)
      (linesApart_set hap i f) (fun j hj => by rw [hother j (hne j hj)]; exact hidle j (List.mem_cons_of_mem _ hj)) hf hcl
    refine ⟨v, hv, hvap, fun j hj => ?_, fun j hj => ?_⟩
    · obtain rfl | hj := List.mem_cons.1 hj
      · rw [hvs j hi, setLine_line hc hi8, if_pos rfl]
        exact hoff
      · rw [← hother j (hne j hj)]
        exact hvo j hj
    · have hji : j ≠ i := fun h => hj (h ▸ List.mem_cons_self)
      rw [hvs j fun h => hj (List.mem_cons_of_mem _ h), hother j hji]

/-! ### The minute -/

/-- R145, R150: what a civil minute makes of a part whose lines are idle. -/
theorem minute_passes {u : State} {now : CampusTime} {c : Ctx} (hc : Counts u) (hidle : ∀ l, IdleLine (u.line l)) (h : Reached u c) (hn : c.closing = none) :
    ∃ v, Reached v (doWork (.minuteEvent now) c) ∧ v = { u with cu := v.cu, lc := v.lc }
      ∧ (∀ i, i < 4 → v.circuit i = (u.circuit i).pointed u.minute? u.elapsed)
      ∧ ∀ l, l < 8 → TimeOffered (.timeAll now.day (now.ms / 60000) (u.tb.offset != 0)) (u.line l) (v.line l) := by
  obtain ⟨w, hw, hap, hcw, hcirc⟩ := circuits_point hc h
  have hline : w.line = u.line := by funext l; rw [hap]; rfl
  have htb : w.tb = u.tb := by rw [hap]
  obtain ⟨v, hv, hvap, hvo, -⟩ := timeAlls (now := now) (List.range 8) w _ List.nodup_range (fun i hi => List.mem_range.1 hi) hcw rfl
    (fun l _ => by rw [hline]; exact hidle l) hw ((each_closing circuitPoint_closing _ c).trans hn)
  rw [hline, htb] at hvo
  refine ⟨v, hv, ?_, fun i hi => ?_, fun l hl => hvo l (List.mem_range.2 hl)⟩
  · conv => lhs; rw [hvap]
    rw [show v.cu = w.cu by rw [hvap]]
    conv => lhs; rw [hap]
  · rw [← hcirc i hi]
    unfold State.circuit
    rw [show v.cu = w.cu by rw [hvap]]

end Sys2Proof.Machine
end

