-- ==== Sys2Proof/Proofs/CivilTime.lean ====
section
/-! O47: campus time carries the offset in force, the year, the dials and the time broadcasts with it. -/

namespace Sys2Proof.Machine
open Sys2Proof

/-! ### A minute with no entry due -/

/-- The part with H at a civil time, if H is set and before it. -/
def State.movedTo (now : CampusTime) (s : State) : State :=
  { s with se := { s.se with mark := s.se.mark.map fun h => if h.lin < (now.lin : Int) then ⟨now.day, now.ms⟩ else h } }

theorem movedTo_unset {now : CampusTime} {s : State} (h : s.se.mark = none) : s.movedTo now = s := by
  unfold State.movedTo
  rw [h, Option.map_none, ← h]

theorem setMark_moves {now : CampusTime} {u : State} {h : HighWater} (hm : u.se.mark = some h) :
    doWork (.setMark now) (Ctx.plain u []) = Ctx.plain (u.movedTo now) [] := by
  show setMark now (Ctx.plain u []) = _
  unfold State.movedTo
  rw [hm, Option.map_some]
  by_cases hl : h.lin < (now.lin : Int)
  · rw [if_pos hl]
    exact setMark_later (c := Ctx.plain u []) fun m hx => Option.some.inj (hm.symm.trans hx) ▸ hl
  · rw [if_neg hl, setMark_back (c := Ctx.plain u []) hm (not_lt.1 hl), ← hm]

/-- R48: a second at which no entry is due moves H alone. -/
theorem second_moves {u : State} {now : CampusTime} {tail : List Work}
    (hm : ∀ h, u.se.mark = some h → now.day ≤ h.day ∧ ∀ e, e ∈ u.se.active.entries → ¬ e.dueBy h now) :
    Leads 2 (Ctx.plain u (.secondEvent now :: tail)) (Ctx.plain (u.movedTo now) tail) := by
  cases hk : u.se.mark with
  | none =>
    rw [movedTo_unset hk]
    exact fun j t hj m hm => plain_leads (xs := []) (secondEvent_unset (c := Ctx.plain u []) hk) j t hj m (by omega)
  | some h =>
    obtain ⟨hd, hn⟩ := hm h hk
    have h1 := second_due (tail := tail) hk hd
    rw [dueAfter_none hk hn] at h1
    exact h1.trans (plain_leads (u' := u.movedTo now) (xs := []) (setMark_moves hk))

/-- An event with one call left, which leaves nothing. -/
theorem closes_lone {c d : Ctx} {w : Work} (ha : c.ans = []) (ht : c.todo = [w]) (hd : doWork w { c with todo := [] } = d) (hda : d.ans = [])
    (hdt : d.todo = []) : Closes 1 c d.st := by
  refine closes_call ha ht ?_
  rw [hd]
  exact closes_done hda (by rw [hdt]; rfl)

/-! ### The millisecond -/

theorem civilEvents_cturn (a b : CampusTime) (c : Ctx) : CTurn c (civilEvents a b c) := by
  have h1 : CTurn c (if a.lin / 1000 = b.lin / 1000 then c else c.call [.secondEvent b]) := by
    split
    · exact CTurn.refl c
    · exact call_cturn (CTurn.refl c) (by intro q m; simp)
  unfold civilEvents
  dsimp only
  split
  · exact h1
  · exact call_cturn h1 (by intro q m; simp)

/-- A turn of an event that had no call left, and the event's end. -/
theorem passed_close {c d : Ctx} (h : CTurn c d) (ht : c.todo = []) : Passed c.st d.close :=
  h.st.toPassed.trans (close_passed (h.noStart (by rw [ht]; exact fun _ _ hx => nomatch hx)))

/-- The context in which campus time has been carried on. -/
def Ctx.carried (now : CampusTime) (loss : Nat) (s : State) : Ctx := ⟨s.carriedTo now loss, [], [], 0, 0, none⟩

/-- An event in which campus time has been carried on, however it goes on, leaves that Time Base. -/
theorem closes_carried {now : CampusTime} {loss : Nat} {s : State} {c : Ctx} (hc : Passed (s.carriedTo now loss) c.close) :
    c.close.elapsed = s.elapsed + 1 ∧ c.close.tb = { s.tb.steppedTo now with slewCount := 0, lossTimer := loss } := ⟨hc.elapsed, hc.tb⟩

theorem passed_civil {c : Ctx} (h : c.todo = []) (a b : CampusTime) : Passed c.st (civilEvents a b c).close := passed_close (civilEvents_cturn a b c) h

theorem passed_step {c : Ctx} (h : c.todo = []) (n : Note) (a : CampusTime) : Passed c.st ((c.record n).call [.stepEvent a]).close :=
  passed_close (call_cturn (record_cturn (CTurn.refl c)) (by intro q m; simp)) h

section
variable {old now : CampusTime} {s : State} (h : Advances old now s)
include h

/-- R5, R18: what a millisecond leaves of the Time Base, whichever events follow it. -/
theorem Advances.clock : ∃ loss, (tick s.begin).close.elapsed = s.elapsed + 1
    ∧ (tick s.begin).close.tb = { s.tb.steppedTo now with slewCount := 0, lossTimer := loss } := by
  by_cases ho : (s.tb.steppedTo now).offset = s.tb.offset
  · obtain ⟨loss, hl⟩ := h.keeps_offset ho
    rw [hl]
    exact ⟨loss, closes_carried (passed_civil (c := Ctx.carried now loss s) rfl _ _)⟩
  · by_cases hr : yearOf old.day = yearOf now.day ∨ reachesInstant now s.tb
    · obtain ⟨loss, n, hl⟩ := h.transition ho hr
      rw [hl]
      exact ⟨loss, closes_carried (passed_step (c := Ctx.carried now loss s) rfl n _)⟩
    · obtain ⟨loss, hl⟩ := h.rolls_silently (fun hy => hr (.inl hy)) (fun hx => hr (.inr hx))
      rw [hl]
      exact ⟨loss, closes_carried (passed_civil (c := Ctx.carried now loss s) rfl _ _)⟩

/-- R23: a millisecond that changes the offset steps civil time. -/
theorem Advances.steps (ho : (s.tb.steppedTo now).offset ≠ s.tb.offset) (hr : yearOf old.day = yearOf now.day ∨ reachesInstant now s.tb)
    (hc : CircuitsAtRest s) : ScheduleStepped (civilAt now (s.tb.steppedTo now).offset) s.annsTicked (tick s.begin).close := by
  obtain ⟨loss, n, hl⟩ := h.transition ho hr
  have hk : Amid (s.carriedTo now loss) [] [.stepEvent (civilAt now (s.tb.steppedTo now).offset)] (tick s.begin) := by
    rw [hl]
    exact ((amid_refl (Ctx.carried now loss s)).record n).call _
  exact scheduleStepped_of hk ⟨fun k => (k (by decide)).elim, fun _ => rfl, fun _ => rfl, fun _ => rfl, fun _ => rfl, fun _ => rfl, fun _ => rfl, fun _ => rfl,
    fun _ => rfl, fun _ => rfl⟩ (hc.of_cu rfl)

/-- R24: a silent year roll that comes to a civil time at or before H does nothing. -/
theorem Advances.silent (hy : yearOf old.day ≠ yearOf now.day) (hr : ¬ reachesInstant now s.tb) (hc : CircuitsAtRest s) (hb : BareLines s) {m : HighWater}
    (hm : s.se.mark = some m) (hd : (civilAt now (s.tb.steppedTo now).offset).day ≤ m.day)
    (hl : ((civilAt now (s.tb.steppedTo now).offset).lin : Int) ≤ m.lin) : ∃ loss, (tick s.begin).close = s.carriedTo now loss := by
  obtain ⟨loss, hx⟩ := h.rolls_silently hy hr
  refine ⟨loss, ?_⟩
  rw [hx]
  generalize civilAt now (s.tb.steppedTo now).offset = civ at hd hl ⊢
  generalize civilAt old s.tb.offset = from' at hd hl ⊢
  by_cases hs : from'.lin / 1000 = civ.lin / 1000
  · have hmin : from'.lin / 60000 = civ.lin / 60000 := by omega
    have hid : civilEvents from' civ (Ctx.carried now loss s) = Ctx.carried now loss s := by
      unfold civilEvents
      rw [if_pos hs]
      exact if_pos hmin
    exact (congrArg Ctx.close hid).trans (close_done rfl rfl)
  · have hev := civilEvents_second hs (Ctx.carried now loss s)
    exact (congrArg Ctx.close hev).trans (second_back (u := s.carriedTo now loss) (minuteTail_only from' civ) (hc.of_cu rfl) (hb.of_lc rfl) hm hl hd)

/-- R48, R145, R150: a new civil minute with no entry due. -/
theorem Advances.minute (ho : (s.tb.steppedTo now).offset = s.tb.offset) (hm : now.lin % 60000 = 0) (hc : Counts s) (hi : ∀ l, IdleLine (s.line l))
    (hn : ∀ m, s.se.mark = some m → (civilAt now s.tb.offset).day ≤ m.day
      ∧ ∀ e, e ∈ s.se.active.entries → ¬ e.dueBy m (civilAt now s.tb.offset)) :
    ∃ loss v, Alike v (tick s.begin).close ∧ v = { (s.carriedTo now loss).movedTo (civilAt now s.tb.offset) with cu := v.cu, lc := v.lc }
      ∧ (∀ i, i < 4 → v.circuit i = (s.circuit i).pointed (some ((civilAt now s.tb.offset).ms / 60000)) (s.elapsed + 1))
      ∧ ∀ l, l < 8 → TimeOffered (.timeAll (civilAt now s.tb.offset).day ((civilAt now s.tb.offset).ms / 60000) (s.tb.offset != 0)) (s.line l) (v.line l) := by
  obtain ⟨loss, hx⟩ := h.keeps_offset ho
  have hlin := h.lin
  have hs := h.new_second (by omega) s.tb.offset
  have hmin : minuteTail (civilAt old s.tb.offset) (civilAt now s.tb.offset) = [.minuteEvent (civilAt now s.tb.offset)] := by
    refine if_neg ?_
    unfold civilAt
    rw [lin_ofLin, lin_ofLin]
    omega
  have hev := civilEvents_second hs (Ctx.carried now loss s)
  rw [hmin] at hev
  have hciv : (s.carriedTo now loss).minute? = some ((civilAt now s.tb.offset).ms / 60000) := by
    refine minute_of_civil ?_
    show some (civilAt now (s.tb.steppedTo now).offset) = _
    rw [ho]
  generalize civilAt now s.tb.offset = civ at *
  obtain ⟨v, hv, hap, hcirc, hlines⟩ := minute_passes (u := (s.carriedTo now loss).movedTo civ) (now := civ) (c := Ctx.plain ((s.carriedTo now loss).movedTo civ) [])
    ⟨hc.zones, hc.feeds, hc.channels, hc.circuits, hc.lines, hc.inputs, hc.outputs⟩ hi (reached_refl (c := Ctx.plain ((s.carriedTo now loss).movedTo civ) []) rfl rfl) rfl
  have hmoves := second_moves (u := s.carriedTo now loss) (tail := [.minuteEvent civ]) hn
  have hclose : (tick s.begin).close = (doWork (.minuteEvent civ) (Ctx.plain ((s.carriedTo now loss).movedTo civ) [])).st := by
    rw [hx]
    refine (congrArg Ctx.close hev).trans (close_of_closes (hmoves 1 _ ?_) (by decide))
    exact closes_lone (c := Ctx.plain _ [.minuteEvent civ]) rfl rfl rfl hv.ans hv.todo
  refine ⟨loss, v, hclose ▸ hv.alike, hap, fun i hi => (hcirc i hi).trans ?_, fun l hl => ?_⟩
  · rw [show ((s.carriedTo now loss).movedTo civ).minute? = some (civ.ms / 60000) from hciv]
    rfl
  · have hk := hlines l hl
    rwa [show ((s.carriedTo now loss).movedTo civ).tb.offset = s.tb.offset from ho] at hk

end

/-- Settles O47. -/
theorem civilTimeTakesEffect : Obligations.CivilTimeTakesEffect := by
  unfold Obligations.CivilTimeTakesEffect
  refine ⟨fun y m week hy h1 h12 hw1 hw5 => ruleDay_spec hy h1 h12 hw1 hw5,
    fun r y now => ⟨lin_ofLin _, lin_ofLin _, offsetAt_within, offsetAt_around⟩, fun old now s h => ?_⟩
  obtain ⟨loss, he, htb⟩ := h.clock
  have hoff : (tick s.begin).close.tb.offset = (s.tb.steppedTo now).offset := by rw [htb]
  have htrans : (tick s.begin).close.tb.trans = (s.tb.steppedTo now).trans := by rw [htb]
  refine ⟨(tick s.begin).close, h.exec, he, by rw [htb], fun hy => ?_, ?_, fun ho hm hc hi => ?_⟩
  · rw [htrans, steppedTo_trans h.campus, if_neg hy]
    rfl
  · dsimp only
    rw [hoff, htrans]
    refine ⟨fun ho hr hc => h.steps ho hr hc, fun m ho hy hr hc hb hm hd hl => ?_⟩
    obtain ⟨l, hx⟩ := h.silent hy hr hc hb hm hd hl
    rw [hx]
    exact ⟨rfl, rfl, sameBut_carried s now l⟩
  · rw [hoff] at ho
    dsimp only
    intro hn
    obtain ⟨l, v, hv, hap, hcirc, hlines⟩ := h.minute ho hm hc hi hn
    generalize civilAt now s.tb.offset = civ at *
    generalize (tick s.begin).close = t at *
    refine ⟨fun i hi => ⟨fun hst => ?_, fun hr hp => ?_⟩, fun ln hl hup hclk => ?_, fun ln hl hno => ?_, ?_, ?_, ?_⟩
    · rw [hv.circuit, hcirc i hi, pointed_still hst]
    · rw [hv.circuit, hcirc i hi, pointed_decides hr hp, he]
    · obtain ⟨f, hf, hkind, hdest, hatt, hto⟩ := (hlines ln hl).offered (by
        rw [hasClock_iff.2 hclk]
        simp [Line.active, hup])
      refine ⟨f, by rw [hv.line]; exact hf, ?_, hdest, hatt, hto⟩
      rw [hkind, bne, beq_eq_decide, decide_not]
    · rw [hv.line]
      refine (hlines ln hl).still ?_
      have : hasClock (s.line ln) = false := by
        rw [← Bool.not_eq_true, hasClock_iff]
        rintro ⟨n, hn, hk, hx⟩
        exact hx (hno n hn hk)
      rw [this, Bool.and_false]
    · rw [hv.se, hap]
      rfl
    · refine SameBut.of_alike (u := v) hv ?_ (by decide)
      rw [hap]
      exact ⟨fun k => (k (by decide)).elim, fun _ => rfl, fun k => (k (by decide)).elim, fun _ => rfl, fun _ => rfl, fun k => (k (by decide)).elim,
        fun _ => rfl, fun k => (k (by decide)).elim, fun k => (k (by decide)).elim, fun k => (k (by decide)).elim⟩
    · rw [hv.au, hap]
      rfl

end Sys2Proof.Machine
end

