-- ==== Sys2Proof/Proofs/Draining.lean ====
section
/-! O39: slots and read marks are read as the scan goes on (R192, R195), and the hold buffer drains (R196). -/

namespace Sys2Proof.Machine
open Sys2Proof

/-! ### The hold buffer drains -/

/-- RI with a hold buffer and a lost count. -/
def RegionIf.keeping (h : List LogRecord) (l : Nat) (ri : RegionIf) : RegionIf := { ri with hold := h, lost := l }

theorem place_keeping (r : LogRecord) (h : List LogRecord) (l : Nat) (ri : RegionIf) : (ri.keeping h l).place r = (ri.place r).keeping h l := by
  unfold RegionIf.place RegionIf.keeping RegionIf.raise RegionIf.unread
  dsimp only
  split <;> split <;> rfl

/-- What a placed record leaves of RI. -/
structure Placing (ri ri' : RegionIf) : Prop where
  hold : ri'.hold = ri.hold
  lost : ri'.lost = ri.lost
  totalLost : ri'.totalLost = ri.totalLost
  link : ri'.link = ri.link
  readMark : ri'.readMark = ri.readMark
  writeIndex : ri'.writeIndex = (ri.writeIndex + 1) % 256

theorem place_placing (r : LogRecord) (ri : RegionIf) : Placing ri (ri.place r) := by
  unfold RegionIf.place RegionIf.raise RegionIf.unread
  dsimp only
  split <;> split <;> exact ⟨rfl, rfl, rfl, rfl, rfl, rfl⟩

/-- The records a log has room for, of 255 (R195). -/
def RegionIf.room (ri : RegionIf) : Nat := 255 - ri.unread

theorem place_room {ri : RegionIf} (hw : ri.writeIndex < 256) (hm : ri.readMark < 256) (h : 0 < ri.room) (r : LogRecord) :
    (ri.place r).room = ri.room - 1 := by
  have hp := place_placing r ri
  unfold RegionIf.room RegionIf.unread at h ⊢
  rw [hp.writeIndex, hp.readMark]
  omega

/-- The state with another RI. -/
def State.riTo (ri : RegionIf) (s : State) : State := { s with ri := ri }

/-- R196: the records that go into the log, with the rest left in the hold buffer. -/
def RegionIf.drained (queue : List LogRecord) (l : Nat) (ri : RegionIf) : RegionIf :=
  ((queue.take ri.room).foldl (fun ri r => ri.place r) ri).keeping (queue.drop ri.room) l

/-- The state whose log may take records: attached, its numbers in their ranges. -/
structure Drains (s : State) : Prop where
  attached : s.ri.link = .attached
  writeIndex : s.ri.writeIndex < 256
  readMark : s.ri.readMark < 256

theorem drain_full {s : State} (h : s.ri.room = 0) : ∀ n, State.drain n s = s
  | 0 => rfl
  | n + 1 => by
    have hu : ¬ s.ri.unread < Config.logFull := by
      unfold RegionIf.room at h
      show ¬ s.ri.unread < 255
      omega
    unfold State.drain
    split
    · rfl
    · exact if_neg (by simp [hu])

/-- R196: the first record goes into the log, and OVERFLOW joins the end of the hold buffer when records were lost. -/
theorem drain_step {s : State} (hd : Drains s) {r : LogRecord} {rest : List LogRecord} (hh : s.ri.hold = r :: rest) (hr : 0 < s.ri.room) (n : Nat) :
    State.drain (n + 1) s = State.drain n (s.riTo ((s.ri.place r).keeping
      (if s.ri.lost > 0 then rest ++ [stamped s (overflowNote s.ri)] else rest) 0)) := by
  have hu : s.ri.unread < Config.logFull := by
    unfold RegionIf.room at hr
    show s.ri.unread < 255
    omega
  have hpl : ({ s.ri with hold := rest } : RegionIf).place r = (s.ri.place r).keeping rest s.ri.lost := place_keeping r rest s.ri.lost s.ri
  have hp := place_placing r s.ri
  have ho : overflowNote ((s.ri.place r).keeping rest s.ri.lost) = overflowNote s.ri := by
    unfold overflowNote RegionIf.keeping
    rw [hp.totalLost]
  conv => lhs; unfold State.drain
  rw [hh]
  dsimp only
  rw [if_pos (by simp [hd.attached, hu]), hpl, ho]
  by_cases hl : s.ri.lost > 0
  · rw [if_pos (show ((s.ri.place r).keeping rest s.ri.lost).lost > 0 from hl), if_pos hl]
    rfl
  · rw [if_neg (show ¬ ((s.ri.place r).keeping rest s.ri.lost).lost > 0 from hl), if_neg hl, show s.ri.lost = 0 from by omega]
    rfl

theorem drains_place {s : State} (hd : Drains s) (r : LogRecord) (h : List LogRecord) : Drains (s.riTo ((s.ri.place r).keeping h 0)) := by
  have hp := place_placing r s.ri
  refine ⟨hp.link.trans hd.attached, ?_, hp.readMark.trans_lt hd.readMark⟩
  show (s.ri.place r).writeIndex < 256
  rw [hp.writeIndex]
  omega

theorem drained_cons {ri : RegionIf} (hw : ri.writeIndex < 256) (hm : ri.readMark < 256) (hr : 0 < ri.room) (r : LogRecord) (rest h : List LogRecord) (l l' : Nat) :
    ((ri.place r).keeping h l').drained rest l = ri.drained (r :: rest) l := by
  have hroom := place_room hw hm hr r
  have hfold : ∀ (xs : List LogRecord) (x : RegionIf), xs.foldl (fun ri r => ri.place r) (x.keeping h l') = (xs.foldl (fun ri r => ri.place r) x).keeping h l' := by
    intro xs
    induction xs with
    | nil => exact fun _ => rfl
    | cons y ys ih =>
      intro x
      rw [List.foldl_cons, List.foldl_cons, place_keeping]
      exact ih _
  obtain ⟨k, hk⟩ := Nat.exists_eq_add_of_lt hr
  have hk' : ri.room = k + 1 := by omega
  unfold RegionIf.drained
  rw [show ((ri.place r).keeping h l').room = (ri.place r).room from rfl, hroom, hk', Nat.add_sub_cancel, List.take_succ_cons, List.drop_succ_cons, List.foldl_cons,
    hfold]
  rfl

/-- R196: with nothing lost the hold buffer drains in its order while the log has room. -/
theorem drain_lossless : ∀ (n : Nat) (s : State), Drains s → s.ri.lost = 0 → s.ri.room ≤ n → State.drain n s = s.riTo (s.ri.drained s.ri.hold 0) := by
  have done : ∀ s : State, s.ri.lost = 0 → (s.ri.room = 0 ∨ s.ri.hold = []) → s.riTo (s.ri.drained s.ri.hold 0) = s := by
    intro s hl h
    have hd : s.ri.drained s.ri.hold 0 = s.ri := by
      unfold RegionIf.drained RegionIf.keeping
      obtain h | h := h
      · rw [h, List.take_zero, List.foldl_nil, List.drop_zero, ← hl]
      · rw [h, List.take_nil, List.foldl_nil, List.drop_nil, ← hl, ← h]
    unfold State.riTo
    rw [hd]
  intro n
  induction n with
  | zero => exact fun s _ hl hn => (done s hl (.inl (Nat.le_zero.1 hn))).symm
  | succ n ih =>
    intro s hd hl hn
    by_cases hr : s.ri.room = 0
    · rw [drain_full hr, done s hl (.inl hr)]
    · cases hh : s.ri.hold with
      | nil => rw [drain_of_empty hh, ← hh, done s hl (.inr hh)]
      | cons r rest =>
        have hroom := place_room hd.writeIndex hd.readMark (Nat.pos_of_ne_zero hr) r
        rw [drain_step hd hh (Nat.pos_of_ne_zero hr), if_neg (by omega), ih _ (drains_place hd r rest) rfl (by
          show (s.ri.place r).room ≤ n
          omega)]
        exact congrArg (fun ri => s.riTo ri) (drained_cons hd.writeIndex hd.readMark (Nat.pos_of_ne_zero hr) r rest rest 0 0)

/-- R196: the hold buffer drains, and OVERFLOW joins its end when a record leaves it with records lost. -/
theorem drain_hold {s : State} (hd : Drains s) (hh : s.ri.hold ≠ []) : State.drain drainSteps s = s.riTo (s.ri.drained
    (if 0 < s.ri.lost ∧ 0 < s.ri.room then s.ri.hold ++ [stamped s (overflowNote s.ri)] else s.ri.hold) (if 0 < s.ri.room then 0 else s.ri.lost)) := by
  by_cases hr : 0 < s.ri.room
  · rw [if_pos hr]
    obtain ⟨r, rest, hx⟩ := List.exists_cons_of_ne_nil hh
    have hroom := place_room hd.writeIndex hd.readMark hr r
    have hle : s.ri.room ≤ 255 := Nat.sub_le _ _
    rw [show drainSteps = 255 + 1 from rfl, drain_step hd hx hr, drain_lossless 255 _ (drains_place hd r _) rfl (by
      show (s.ri.place r).room ≤ 255
      omega)]
    refine (congrArg (fun ri => s.riTo ri) (drained_cons hd.writeIndex hd.readMark hr r _ _ 0 0)).trans ?_
    by_cases hl : 0 < s.ri.lost
    · rw [if_pos hl, if_pos ⟨hl, hr⟩, hx]
      rfl
    · rw [if_neg hl, if_neg fun h => hl h.1, hx]
      rfl
  · have h0 : s.ri.room = 0 := by omega
    rw [drain_full h0, if_neg hr, if_neg fun h => hr h.2]
    unfold RegionIf.drained RegionIf.keeping
    rw [h0]
    rfl

/-! ### A slot's read -/

section
variable {s : State} {n : Nat} {data : List Byte}

/-- R192: the completion of a slot's read. -/
theorem exec_slotRead (h : Completing (.slot n) s) : exec (.slotRead data) s = .next (slotDone n data s.completed.begin).close := by
  refine congrArg Host.Outcome.next ?_
  unfold completion
  rw [State.inFlight?, if_pos h.running, h.head]
  exact if_pos rfl

/-- R192: a slot that is not POSTED is passed over. -/
theorem exec_slotPassed (h : Completing (.slot n) s) (hp : byteAt data 0 ≠ 1) : exec (.slotRead data) s = .next (nextSlot n s.completed.started) := by
  have hd : slotDone n data s.completed.begin = s.completed.begin.upd (nextSlot n) := by
    unfold slotDone
    dsimp only
    rw [if_neg (by simp [postedCode, hp])]
  rw [exec_slotRead h, hd, close_begin_upd]

theorem completed_reaches {q : ReqHdr} (s : State) : s.completed.reaches q = s.reaches q := rfl

/-- R192, R193: a POSTED slot is taken and decided. -/
theorem slotDone_posted (hp : byteAt data 0 = 1) (hr : s.reaches (slotHdr n data) = true) :
    slotDone n data s.completed.begin = (decideSlot (slotHdr n data) (decodeSlot n data) (s.completed.deciding (slotHdr n data))).upd (nextSlot n) := by
  unfold State.reaches at hr
  simp only [Bool.and_eq_true, Bool.not_eq_true'] at hr
  obtain ⟨-, hfree⟩ := hr
  unfold slotDone
  dsimp only
  refine congrArg (fun c : Ctx => c.upd (nextSlot n)) (if_pos ?_)
  rw [show s.completed.begin.st.ri.taken = s.ri.taken from rfl, show n = (slotHdr n data).slot from rfl, hfree]
  simp [postedCode, hp]

/-- R192: slots below the last are followed by the next. -/
theorem nextSlot_below (h : n < 31) (s : State) : nextSlot n s = s.ask (.slot (n + 1)) := if_pos (show n + 1 < 32 by omega)

theorem decodeSlot_badKind (h : byteAt data 1 = 0) : decodeSlot n data = .badKind := by
  unfold decodeSlot
  dsimp only
  rw [h]
  rfl

theorem decodeSlot_setFlags (h : byteAt data 1 = 7) :
    decodeSlot n data = .request (.setFlags (slotHdr n data) (BitVec.ofNat 8 (byteAt data 8)) (BitVec.ofNat 8 (byteAt data 9))) := by
  unfold decodeSlot
  dsimp only
  rw [h]
  rfl

/-- R33: SET FLAGS leaves nothing outstanding. -/
theorem setFlags_done (q : ReqHdr) (m1 m2 : Set8) (s : State) : ∃ u, Amid u [] [] (decideSetFlags q m1 m2 (s.deciding q)) :=
  ⟨_, ((amid_deciding q s).changeFlags m1 m2 flagsHost q.tag).answer q .done _⟩

end

/-! ### A read mark -/

/-- RI with a read mark in use and the notify categories read. -/
def RegionIf.marked (mark notify : Nat) (ri : RegionIf) : RegionIf :=
  { ri with
    readMark := if mark < 256 ∧ (mark + 256 - ri.readMark) % 256 ≤ (ri.writeIndex + 256 - ri.readMark) % 256 then mark else ri.readMark
    notify := BitVec.ofNat 32 notify }

/-- The state in which a read mark has been read. -/
def State.markRead (mark notify : Nat) (s : State) : State := s.completed.started.riTo (s.completed.started.ri.marked mark notify)

/-- R196: a scan goes on to slot 0 after its read mark. -/
def State.slotZero (scan : Bool) (s : State) : State := if scan = true then s.ask (.slot 0) else s

theorem acceptMark_eq (mark notify : Nat) (s : State) : acceptMark mark notify s.completed.started = s.markRead mark notify := by
  unfold acceptMark State.markRead State.riTo RegionIf.marked State.setRi RegionIf.unread
  simp only [Bool.and_eq_true, decide_eq_true_eq]

/-- R196: the completion of the read mark's read. -/
theorem exec_readMark {s : State} {scan : Bool} (h : Completing (.readMark scan) s) (mark notify : Nat) :
    exec (.readMarkRead mark notify) s = .next ((State.drain drainSteps (s.markRead mark notify)).slotZero scan) := by
  refine congrArg Host.Outcome.next ?_
  rw [← acceptMark_eq]
  unfold completion State.slotZero
  rw [State.inFlight?, if_pos h.running, h.head]
  refine (if_pos rfl).trans ?_
  cases scan with
  | true => exact (congrArg Ctx.close (if_pos rfl)).trans (close_done rfl rfl)
  | false => exact (congrArg Ctx.close (if_neg nofun)).trans (close_done rfl rfl)

/-- Placed records do not look at the region accesses. -/
def RegionIf.asking (as : List Access) (ri : RegionIf) : RegionIf := { ri with accesses := as }

theorem place_asking (r : LogRecord) (as : List Access) (ri : RegionIf) : (ri.asking as).place r = (ri.place r).asking as := by
  unfold RegionIf.place RegionIf.asking RegionIf.raise RegionIf.unread
  dsimp only
  split <;> split <;> rfl

theorem places_asking (as : List Access) : ∀ (xs : List LogRecord) (ri : RegionIf),
    xs.foldl (fun ri r => ri.place r) (ri.asking as) = (xs.foldl (fun ri r => ri.place r) ri).asking as := by
  intro xs
  induction xs with
  | nil => exact fun _ => rfl
  | cons y ys ih =>
    intro ri
    rw [List.foldl_cons, List.foldl_cons, place_asking]
    exact ih _

theorem places_accesses : ∀ (xs : List LogRecord) (ri : RegionIf), (xs.foldl (fun ri r => ri.place r) ri).accesses = ri.accesses := by
  intro xs
  induction xs with
  | nil => exact fun _ => rfl
  | cons y ys ih =>
    intro ri
    rw [List.foldl_cons, ih]
    unfold RegionIf.place RegionIf.raise RegionIf.unread
    dsimp only
    split <;> split <;> rfl

theorem riTo_slotZero (scan : Bool) {s : State} {ri : RegionIf} (h : ri.accesses = s.ri.accesses.tail) :
    (s.completed.started.riTo ri).slotZero scan = { s.wentOn (if scan = true then [.slot 0] else []) with
      ri := ri.asking (s.ri.accesses.tail ++ if scan = true then [.slot 0] else []) } := by
  unfold State.slotZero
  cases scan with
  | true =>
    rw [if_pos rfl, if_pos rfl, ← h]
    rfl
  | false =>
    rw [if_neg nofun, if_neg nofun, List.append_nil, ← h]
    rfl

/-- Settles O39. -/
theorem slotsAndMarksAreRead : Obligations.SlotsAndMarksAreRead := by
  unfold Obligations.SlotsAndMarksAreRead
  intro data n mark notify scan s
  refine ⟨fun h hp hn => ?_, fun h hp hsc => ⟨_, exec_slotPassed h hp, ?_⟩, fun h hp hsc => ?_, fun h hp hn hr hk => ?_, fun h hp hn hr hk => ?_,
    fun h => ⟨fun hh => ?_, fun hh hlog => ?_⟩⟩
  · rw [exec_slotPassed h hp, nextSlot_below hn]
    rfl
  · rw [show nextSlot 31 s.completed.started = endScan s.completed.started from rfl, endScan, show s.completed.started.ri.scan = .scanning from hsc]
    unfold State.wentOn
    rw [List.append_nil]
    rfl
  · rw [exec_slotPassed h hp, show nextSlot 31 s.completed.started = endScan s.completed.started from rfl, endScan,
      show s.completed.started.ri.scan = .scanningDue from hsc]
    rfl
  · rw [exec_slotRead h, slotDone_posted hp hr, decodeSlot_badKind hk]
    refine congrArg Host.Outcome.next ((close_done rfl rfl).trans ?_)
    exact nextSlot_below hn _
  · obtain ⟨u, hu⟩ := setFlags_done (slotHdr n data) (BitVec.ofNat 8 (byteAt data 8)) (BitVec.ofNat 8 (byteAt data 9)) s.completed
    refine ⟨_, exec_request rfl ((completed_reaches s).trans hr), ?_⟩
    rw [exec_slotRead h, slotDone_posted hp hr, decodeSlot_setFlags hk]
    refine congrArg Host.Outcome.next ?_
    rw [show (decideRequest (.setFlags (slotHdr n data) (BitVec.ofNat 8 (byteAt data 8)) (BitVec.ofNat 8 (byteAt data 9)))
      (s.completed.deciding (slotHdr n data))).close = _ from close_done hu.ans hu.todo, ← nextSlot_below hn]
    exact close_done hu.ans hu.todo
  · rw [exec_readMark h, drain_of_empty (show (s.markRead mark notify).ri.hold = [] from hh)]
    exact congrArg Host.Outcome.next (riTo_slotZero (s := s) scan (ri := s.completed.started.ri.marked mark notify) rfl)
  · have hd : Drains (s.markRead mark notify) := by
      refine ⟨h.attached, hlog.writeIndex, ?_⟩
      show (if _ then mark else s.ri.readMark) < 256
      split
      · next hm => exact hm.1
      · exact hlog.readMark
    intro room overflow queue
    rw [exec_readMark h, drain_hold hd hh]
    refine congrArg Host.Outcome.next ((riTo_slotZero (s := s) scan (ri := (s.markRead mark notify).ri.drained _ _) (places_accesses _ _)).trans ?_)
    have hp := places_asking (s.ri.accesses.tail ++ if scan = true then [.slot 0] else []) (queue.take room) (s.markRead mark notify).ri
    refine congrArg (fun ri : RegionIf => { s.wentOn (if scan = true then [.slot 0] else []) with
      ri := { ri with hold := queue.drop room, lost := if 0 < room then 0 else s.ri.lost } }) hp.symm

end Sys2Proof.Machine
end

