-- ==== Sys2Proof/Proofs/OnLine.lean ====
section
/-! SUPPORT. Events of one field line: what each of its operations makes of the line, everything else standing. -/

namespace Sys2Proof.Machine
open Sys2Proof

/-- The state with one line replaced. -/
def State.lineTo (ln : Nat) (l : Line) (u : State) : State := u.setLine ln fun _ => l

/-- An event of a line so far: the line stands so, and nothing is left; `cl` is the line whose transaction completes. -/
def Ctx.onLine (u : State) (ln : Nat) (l : Line) (cl : Option Nat) : Ctx := ⟨u.lineTo ln l, [], [], 0, 0, cl⟩

theorem lineTo_self (u : State) (ln : Nat) : u.lineTo ln (u.line ln) = u := setLine_of_fixed rfl

theorem begin_onLine (s : State) (ln : Nat) : s.begin = Ctx.onLine s.started ln (s.line ln) none := by
  unfold Ctx.onLine
  rw [show s.line ln = s.started.line ln from rfl, lineTo_self]
  rfl

theorem lineTo_setLine (u : State) (ln : Nat) (l : Line) (g : Line → Line) : (u.lineTo ln l).setLine ln g = u.lineTo ln (g l) := setLine_setLine ln _ g u

theorem onLine_upd (u : State) (ln : Nat) (l : Line) (cl : Option Nat) (g : Line → Line) :
    (Ctx.onLine u ln l cl).upd (State.setLine ln g) = Ctx.onLine u ln (g l) cl :=
  congrArg (fun st : State => Ctx.mk st [] [] 0 0 cl) (lineTo_setLine u ln l g)

theorem onLine_setNode (u : State) (ln : Nat) (l : Line) (cl : Option Nat) (a : Nat) (g : Node → Node) :
    (Ctx.onLine u ln l cl).upd (State.setNode ln a g) = Ctx.onLine u ln (l.setNode a g) cl := onLine_upd u ln l cl _

theorem sameBut_lineTo (s : State) (ln : Nat) (l : Line) : SameBut [.lc] s (s.started.lineTo ln l) :=
  ⟨fun _ => rfl, fun _ => rfl, fun _ => rfl, fun _ => rfl, fun _ => rfl, fun _ => rfl, fun _ => rfl, fun _ => rfl, fun k => (k (by decide)).elim, fun _ => rfl⟩

theorem lineTo_other (s : State) {ln k : Nat} (l : Line) (h : k ≠ ln) : (s.started.lineTo ln l).line k = s.line k := setLine_line_ne s.started h _

/-- A node that is looked up after a change of it. -/
theorem node_setNode {l : Line} {a : Nat} {n : Node} (h : l.node? a = some n) {g : Node → Node} (hg : ∀ x, (g x).addr = x.addr) :
    (l.setNode a g).node? a = some (g n) := by
  have ha : n.addr = a := by simpa using List.find?_some h
  have hmap : ∀ x : Node, (if x.addr = a then g x else x).addr = x.addr := fun x => by split <;> simp [hg]
  show (l.nodes.map fun n => if n.addr = a then g n else n).find? (·.addr == a) = some (g n)
  rw [List.find?_map, show ((fun x : Node => x.addr == a) ∘ fun n => if n.addr = a then g n else n) = (·.addr == a) from
    funext fun x => congrArg (· == a) (hmap x), show l.nodes.find? (·.addr == a) = some n from h]
  simp [ha]

theorem setNode_setNode {l : Line} {a : Nat} {g h : Node → Node} (hg : ∀ x, (g x).addr = x.addr) :
    (l.setNode a g).setNode a h = l.setNode a fun x => h (g x) := by
  unfold Line.setNode
  dsimp only
  rw [List.map_map]
  congr 1
  refine List.map_congr_left fun x _ => ?_
  by_cases hx : x.addr = a <;> simp [hx, hg]

section
variable {u : State} {ln : Nat} {l : Line} {cl : Option Nat} (hc : Counts u) (hl : ln < 8)
include hc hl

theorem lineTo_line : (u.lineTo ln l).line ln = l := (setLine_line hc hl ln _).trans (if_pos rfl)

theorem onLine_line : (Ctx.onLine u ln l cl).st.line ln = l := lineTo_line hc hl

/-- R160: with an empty queue and nothing deferred a line is settled. -/
theorem onLine_settled (hq : l.queue = []) (hd : l.deferred = []) (n : Nat) : settleLine ln n (Ctx.onLine u ln l cl) = Ctx.onLine u ln l cl :=
  settleLine_of_empty (by rw [onLine_line hc hl, hq]) (by rw [onLine_line hc hl, hd]) n

/-- R155: a reading that is the path's condition changes that path's reading alone. -/
theorem onLine_readPath {p : Path} {r : PathCond} (hr : r = (l.path p).cond) : readPath ln p r (Ctx.onLine u ln l cl) = Ctx.onLine u ln (l.setPath p ⟨r, some r⟩) cl := by
  unfold readPath
  dsimp only
  rw [onLine_line hc hl, onLine_upd, ← hr, ite_self]
  exact if_pos rfl

/-! ### A transaction completes -/

omit hc hl in
/-- An event with one answer left and one call behind it, which leave nothing. -/
theorem closes_answered {c d e : Ctx} {a : Ans} {w : Work} (ha : c.ans = [a]) (ht : c.todo = [w]) (hd : handleAns a { c with ans := [], todo := [] } = d)
    (hda : d.ans = []) (hdt : d.todo = []) (he : doWork w { d with todo := [] } = e) (hea : e.ans = []) (het : e.todo = []) : Closes 2 c e.st := by
  refine closes_ans ha ?_
  rw [hd, ht, hdt]
  refine closes_call (c := { d with todo := [w] }) hda rfl ?_
  rw [he]
  exact closes_done hea (by rw [het]; rfl)

omit hc hl in
/-- What a completion makes of the records of the transaction's node (R165, R167, R168). -/
def Ctx.noded (ln : Nat) (f : InFlight) (o : TxOutcome) (reply : Option Reply) (c : Ctx) : Ctx :=
  match f.tx.addr? with
  | some a =>
    if f.tx.stale then c
    else
      let c0 := if f.tx.kind.isQuery && decide (o = TxOutcome.done) then c.upd (State.setNode ln a fun n => { n with queryNeeded := false }) else c
      let c' := if o.cls != 0 && f.tx.kind.counted then nodeFail ln a o.cls c0 else c0
      match reply with
      | some r => if f.tx.kind.counted then replyFlags ln a r c' else clearFlags ln a r c'
      | none => c'
  | none => c

/-- A completion that writes no TRANSACTION FAILED: it is DONE, or of a POLL. -/
def failsSilently (k : TxKind) (o : TxOutcome) : Prop := o = .done ∨ k = .poll

theorem onLine_closeTx {t : Tx} {o : TxOutcome} (ho : failsSilently t.kind o) (n : Nat) (hq : l.queue = []) (hd : l.deferred = []) :
    closeTx ln t o n (Ctx.onLine u ln l (some ln)) = Ctx.onLine u ln l none := by
  have hx : closeTx ln t o n (Ctx.onLine u ln l (some ln)) = settleLine ln settleSteps (Ctx.onLine u ln l none) := by
    unfold closeTx
    obtain ho | ho := ho <;> rw [ho]
    · rfl
    · dsimp only
      rw [Bool.and_false]
      rfl
  rw [hx]
  exact onLine_settled hc hl hq hd settleSteps

/-- R165: a completion on a line with nothing queued or deferred, by what it makes of the node's record and what its requester does. -/
theorem onLine_completes {f : InFlight} {o : TxOutcome} {reply : Option Reply} {l2 l3 : Line}
    (h2 : Ctx.noded ln f o reply (Ctx.onLine u ln { l with inFlight := none } (some ln)) = Ctx.onLine u ln l2 (some ln))
    (h3 : txAnswer ln f.tx o (reply.map Reply.body) (Ctx.onLine u ln l2 (some ln)) = Ctx.onLine u ln l3 (some ln))
    (ho : failsSilently f.tx.kind o) (hq : l3.queue = []) (hd : l3.deferred = []) :
    (completeTx ln f o reply (Ctx.onLine u ln l none)).close = u.lineTo ln l3 := by
  have hx : completeTx ln f o reply (Ctx.onLine u ln l none) =
      ((Ctx.onLine u ln l2 (some ln)).say (.tx ln f.tx o (reply.map Reply.body))).call [.txClose ln f.tx o f.attempt] := by
    rw [← h2, ← onLine_upd u ln l (some ln) fun l => { l with inFlight := none }]
    rfl
  rw [hx]
  have hclose := closes_answered (c := ((Ctx.onLine u ln l2 (some ln)).say (.tx ln f.tx o (reply.map Reply.body))).call [.txClose ln f.tx o f.attempt])
    (d := Ctx.onLine u ln l3 (some ln)) (e := Ctx.onLine u ln l3 none) rfl rfl h3 rfl rfl (onLine_closeTx hc hl ho f.attempt hq hd) rfl rfl
  exact close_of_closes hclose (by decide)

/-! ### Attempts -/

/-- The next attempt of a transaction on an UP line (R164). -/
def InFlight.again (s : State) (l : Line) (f : InFlight) : InFlight := { f with
  attempt := f.attempt + 1
  path := if l.cfg.alternate then f.path.other else l.prefOf f.tx
  timeoutAt := none
  timeout := l.cfg.timeout
  frame := frameOf s l f.tx }

theorem onLine_nextAttempt {f : InFlight} (hup : l.state = .up) (ha : f.attempt < 1 + l.cfg.retries) (hs : f.single = false) (o : TxOutcome) :
    nextAttempt ln f o (Ctx.onLine u ln l cl) = Ctx.onLine u ln { l with inFlight := some (f.again u l) } cl := by
  unfold nextAttempt
  dsimp only
  rw [onLine_line hc hl, if_pos (by simp [ha, hs, Line.active, hup]), onLine_upd]
  unfold InFlight.again
  rw [hup]
  unfold Line.pathFor
  rw [hup]
  cases l.cfg.alternate <;> rfl

theorem onLine_lastAttempt {f : InFlight} (ha : 1 + l.cfg.retries ≤ f.attempt) (o : TxOutcome) :
    nextAttempt ln f o (Ctx.onLine u ln l cl) = completeTx ln f o none (Ctx.onLine u ln l cl) := by
  unfold nextAttempt
  dsimp only
  rw [onLine_line hc hl, if_neg (by simp [Nat.not_lt.2 ha])]

end

end Sys2Proof.Machine
end

