-- ==== Sys2Proof/Proofs/Frames.lean ====
section
/-! O57: a frame is sent, answered, attempted again or fails. -/

namespace Sys2Proof.Machine
open Sys2Proof

/-- An event of a line comes to a line. -/
theorem exec_onLine {s : State} (hr : s.running = true) {g : Ctx → Ctx} {ln : Nat} {l : Line}
    (h : (g (Ctx.onLine s.started ln (s.line ln) none)).close = s.started.lineTo ln l) : event g s = s.started.lineTo ln l := by
  rw [event_of_running hr, begin_onLine, h]

/-- An event of a line that leaves nothing. -/
theorem close_onLine (u : State) (ln : Nat) (l : Line) (cl : Option Nat) : (Ctx.onLine u ln l cl).close = u.lineTo ln l := close_done rfl rfl

/-- A node with no failure counted. -/
def Node.unfailed (n : Node) : Node := { n with fails := 0 }

/-- A node that is PRESENT. -/
def Node.presented (n : Node) : Node := { n with st := .present }

/-- A SUSPECT node that has answered (R168). -/
def Node.answered (n : Node) : Node := { n with fails := 0, st := .present }

/-- A node with a preferred path (R164). -/
def Node.prefers (p : Path) (n : Node) : Node := { n with pref := p }

/-- A node that has failed, below the threshold (R167). -/
def Node.failing (k : Nat) (n : Node) : Node := { n with st := .suspect, fails := k }

theorem addr_node {t : Tx} {a : Nat} (h : t.dest = .node a) : t.addr? = some a := by
  unfold Tx.addr?
  rw [h]

section
variable {u : State} {ln : Nat} {l : Line} {cl : Option Nat} (hc : Counts u) (hl : ln < 8)
include hc hl

/-- R173: no cycle that does not run goes on. -/
theorem onLine_pollNext (hr : l.cycle.running = false) : pollNext ln (Ctx.onLine u ln l cl) = Ctx.onLine u ln l cl := by
  unfold pollNext
  dsimp only
  rw [onLine_line hc hl]
  exact if_pos (by rw [hr]; rfl)

/-- R163: the sending of an addressed frame ends. -/
theorem frameSent_addressed {f : InFlight} (hf : l.inFlight = some f) (ht : f.timeoutAt = none) (hb : f.tx.kind.broadcast = false) :
    frameSent ln (Ctx.onLine u ln l cl) = Ctx.onLine u ln { l with inFlight := some { f with timeoutAt := some (u.elapsed + f.timeout) } } cl := by
  unfold frameSent
  dsimp only
  rw [onLine_line hc hl, hf]
  dsimp only
  rw [if_neg (by rw [ht]; exact nofun), if_neg (by rw [hb]; exact nofun), onLine_upd]
  rfl

/-- R163: the sending of a broadcast ends its transaction. -/
theorem frameSent_broadcast {f : InFlight} (hf : l.inFlight = some f) (ht : f.timeoutAt = none) (hb : f.tx.kind.broadcast = true) (ha : f.tx.addr? = none)
    (hq : l.queue = []) (hd : l.deferred = []) : (frameSent ln (Ctx.onLine u ln l none)).close = u.lineTo ln { l with inFlight := none } := by
  have hx : frameSent ln (Ctx.onLine u ln l none) = completeTx ln f .done none (Ctx.onLine u ln l none) := by
    unfold frameSent
    dsimp only
    rw [onLine_line hc hl, hf]
    dsimp only
    rw [if_neg (by rw [ht]; exact nofun), if_pos hb]
  rw [hx]
  refine onLine_completes hc hl (l2 := { l with inFlight := none }) ?_ ?_ (.inl rfl) hq hd
  · unfold Ctx.noded
    rw [ha]
  · unfold txAnswer
    cases hk : f.tx.kind <;> rw [hk] at hb
    all_goals first | rfl | exact nomatch hb

/-- R157, R164: an invalid reply begins another attempt. -/
theorem badReply_again {f : InFlight} {r : Reply} {t0 : Nat} (hf : l.inFlight = some f) (ht : f.timeoutAt = some t0) (hv : validReply f.tx r = false)
    (hup : l.state = .up) (ha : f.attempt < 1 + l.cfg.retries) (hs : f.single = false) :
    replyReceived ln r (Ctx.onLine u ln l cl) = Ctx.onLine u ln { l with inFlight := some (f.again u l) } cl := by
  unfold replyReceived
  rw [onLine_line hc hl, hf]
  dsimp only
  rw [if_pos (by rw [ht]; rfl), if_neg (by rw [hv]; exact nofun), onLine_nextAttempt hc hl hup ha hs]

/-- R168: a good reply from a SUSPECT node makes it PRESENT. -/
theorem nodeGood_suspect {a : Nat} {n : Node} (hn : l.node? a = some n) (hst : n.st = .suspect) :
    nodeGood ln a (Ctx.onLine u ln l cl) = Ctx.onLine u ln (l.setNode a Node.answered) cl := by
  have h2 : nodeGood ln a (Ctx.onLine u ln l cl) = ((Ctx.onLine u ln l cl).upd (State.setNode ln a Node.unfailed)).upd (State.setNode ln a Node.presented) := by
    unfold nodeGood
    rw [onLine_line hc hl, hn]
    dsimp only
    rw [hst]
    rfl
  rw [h2, onLine_setNode, onLine_setNode, setNode_setNode (g := Node.unfailed) (h := Node.presented) fun _ => rfl]
  rfl

/-- R173: the POLL of a configured node that is no sounder and no clock hands nothing on. -/
theorem pollDone_quiet {a : Nat} {n : Node} {shown : Option Nat} (hn : l.node? a = some n) (hst : n.st ≠ .absent) (hk : n.kind = .marshal)
    (hcf : n.configured = true) : pollDone ln a shown (Ctx.onLine u ln l cl) = Ctx.onLine u ln l cl := by
  have hb : beginRefresh ln a (Ctx.onLine u ln l cl) = Ctx.onLine u ln l cl := by
    unfold beginRefresh
    dsimp only
    rw [onLine_line hc hl, hn]
    exact if_neg (by simp [staleNode, hk])
  unfold pollDone
  rw [onLine_line hc hl, hn]
  dsimp only
  rw [if_neg hst, if_pos hcf, if_neg (show ¬ n.kind = .clock by rw [hk]; exact nofun), hb]

omit hc hl in
/-- R168: a reply with no call in its flags. -/
theorem replyFlags_none {a : Nat} {body : ReplyBody} (c : Ctx) :
    replyFlags ln a ⟨true, a, false, false, false, false, false, false, body⟩ c = nodeGood ln a c := by
  have h0 : flagClasses ⟨true, a, false, false, false, false, false, false, body⟩ = 0 := by simp [flagClasses]
  unfold replyFlags
  dsimp only
  rw [h0]
  rfl

omit hc hl in
/-- R168: a POLL that is DONE takes its reply's flags. -/
theorem noded_done {f : InFlight} {a : Nat} (ha : f.tx.addr? = some a) (hk : f.tx.kind = .poll) (hs : f.tx.stale = false) (r : Reply) (c : Ctx) :
    Ctx.noded ln f .done (some r) c = replyFlags ln a r c := by
  unfold Ctx.noded
  rw [ha, hk]
  exact if_neg (by rw [hs]; exact nofun)

omit hc hl in
/-- R167: a POLL that fails counts against its node. -/
theorem noded_failed {f : InFlight} {a : Nat} (ha : f.tx.addr? = some a) (hk : f.tx.kind = .poll) (hs : f.tx.stale = false) (c : Ctx) :
    Ctx.noded ln f .noReply none c = nodeFail ln a classNoReply c := by
  unfold Ctx.noded
  rw [ha, hk]
  exact if_neg (by rw [hs]; exact nofun)

/-- R168, R173: a valid reply to a POLL from a SUSPECT node makes it PRESENT. -/
theorem poll_answered {f : InFlight} {a : Nat} {n : Node} {kind : NodeKind} {shown : Option Nat} {t0 : Nat} (hf : l.inFlight = some f)
    (ht : f.timeoutAt = some t0) (hk : f.tx.kind = .poll) (hd : f.tx.dest = .node a) (hs : f.tx.stale = false) (hn : l.node? a = some n)
    (hst : n.st = .suspect) (hm : n.kind = .marshal) (hcf : n.configured = true) (hr : l.cycle.running = false) (hq : l.queue = []) (hdf : l.deferred = []) :
    (replyReceived ln ⟨true, a, false, false, false, false, false, false, .poll kind shown⟩ (Ctx.onLine u ln l none)).close =
      u.lineTo ln (({ l with inFlight := none } : Line).setNode a fun x => (x.prefers f.path).answered) := by
  have haddr := addr_node hd
  have hvalid : validReply f.tx ⟨true, a, false, false, false, false, false, false, .poll kind shown⟩ = true := by
    unfold validReply Tx.replyAddr
    rw [hk, hd]
    simp [kindAnswers]
  have hx : replyReceived ln ⟨true, a, false, false, false, false, false, false, .poll kind shown⟩ (Ctx.onLine u ln l none) =
      completeTx ln f .done (some ⟨true, a, false, false, false, false, false, false, .poll kind shown⟩)
        (Ctx.onLine u ln (l.setNode a (Node.prefers f.path)) none) := by
    unfold replyReceived preferPath assignCalls
    rw [onLine_line hc hl, hf]
    dsimp only
    rw [if_pos (by rw [ht]; rfl), if_pos hvalid, hk, haddr]
    dsimp only
    rw [if_neg (show ¬ f.tx.stale = true by rw [hs]; exact nofun), ← onLine_setNode]
    rfl
  have hn1 : (l.setNode a (Node.prefers f.path)).node? a = some (n.prefers f.path) := node_setNode hn fun _ => rfl
  have hn2 : ((l.setNode a (Node.prefers f.path)).setNode a Node.answered).node? a = some (n.prefers f.path).answered := node_setNode hn1 fun _ => rfl
  have htwo : ((l.setNode a (Node.prefers f.path)).setNode a Node.answered) = l.setNode a fun x => (x.prefers f.path).answered := setNode_setNode fun _ => rfl
  rw [hx]
  refine onLine_completes hc hl (l2 := ({ l with inFlight := none } : Line).setNode a fun x => (x.prefers f.path).answered) ?_ ?_ (.inl rfl) hq hdf
  · rw [noded_done haddr hk hs, replyFlags_none]
    refine (nodeGood_suspect hc hl (l := { l.setNode a (Node.prefers f.path) with inFlight := none }) (n := n.prefers f.path) hn1 hst).trans ?_
    exact congrArg (fun x : Line => Ctx.onLine u ln { x with inFlight := none } (some ln)) htwo
  · unfold txAnswer
    rw [hk, haddr, hs]
    show pollNext ln (pollDone ln a shown (Ctx.onLine u ln _ (some ln))) = _
    rw [pollDone_quiet hc hl (n := (n.prefers f.path).answered) (by rw [← hn2, htwo]; rfl) nofun hm hcf]
    exact onLine_pollNext hc hl hr

/-! ### The response timeout -/

section
variable {f : InFlight} {t0 : Nat} {p : PathCond} (hf : l.inFlight = some f) (ht : f.timeoutAt = some t0)
include hf ht

/-- R164: before the response timeout nothing happens. -/
theorem timeout_early (h : u.elapsed < t0) : attemptTimeout ln p (Ctx.onLine u ln l cl) = Ctx.onLine u ln l cl := by
  unfold attemptTimeout
  rw [onLine_line hc hl, hf]
  exact if_neg (by rw [ht]; exact fun hx => absurd (of_decide_eq_true hx) (Nat.not_le_of_lt h))

variable (h : t0 ≤ u.elapsed) (hp : p = (l.path f.path).cond)
include h hp

/-- R164: at the response timeout the attempt's path is read. -/
theorem timeout_reads : attemptTimeout ln p (Ctx.onLine u ln l cl) = nextAttempt ln f .noReply (Ctx.onLine u ln (l.setPath f.path ⟨p, some p⟩) cl) := by
  unfold attemptTimeout
  rw [onLine_line hc hl, hf]
  refine (if_pos ?_).trans (congrArg (nextAttempt ln f .noReply) (onLine_readPath hc hl hp))
  rw [ht]
  exact decide_eq_true h

end

omit hc hl in
/-- A path that is set to the condition it has keeps what the other items follow from. -/
theorem setPath_kept {p : Path} {r : PathCond} (hr : r = (l.path p).cond) : (l.setPath p ⟨r, some r⟩).state = l.state
    ∧ (l.setPath p ⟨r, some r⟩).cfg = l.cfg ∧ (l.setPath p ⟨r, some r⟩).nodes = l.nodes ∧ (l.setPath p ⟨r, some r⟩).queue = l.queue
    ∧ (l.setPath p ⟨r, some r⟩).deferred = l.deferred ∧ (l.setPath p ⟨r, some r⟩).cycle = l.cycle := by
  subst hr
  cases p <;> exact ⟨rfl, rfl, rfl, rfl, rfl, rfl⟩

/-- R164: another attempt after the response timeout. -/
theorem timeout_again {f : InFlight} {t0 : Nat} {p : PathCond} (hf : l.inFlight = some f) (ht : f.timeoutAt = some t0) (h : t0 ≤ u.elapsed)
    (hp : p = (l.path f.path).cond) (hup : l.state = .up) (ha : f.attempt < 1 + l.cfg.retries) (hs : f.single = false) :
    attemptTimeout ln p (Ctx.onLine u ln l cl) = Ctx.onLine u ln { l.setPath f.path ⟨p, some p⟩ with inFlight := some (f.again u l) } cl := by
  obtain ⟨hst, hcfg, hnodes, -⟩ := setPath_kept hp
  rw [timeout_reads hc hl hf ht h hp, onLine_nextAttempt hc hl (hst.trans hup) (by rwa [hcfg]) hs]
  have hag : f.again u (l.setPath f.path ⟨p, some p⟩) = f.again u l := by
    unfold InFlight.again frameOf Line.prefOf Line.node?
    rw [hcfg, hnodes]
  rw [hag]

/-- R167: a failure below the threshold makes the node SUSPECT. -/
theorem nodeFail_suspect {a : Nat} {n : Node} {k : BitVec 5} (hn : l.node? a = some n) (hst : n.st = .present) (hth : n.fails + 1 < l.cfg.threshold)
    (hb : l.cfg.bypass = 0) : nodeFail ln a k (Ctx.onLine u ln l cl) = Ctx.onLine u ln (l.setNode a (Node.failing (n.fails + 1))) cl := by
  have hby : bypassClasses 0 = 0 := by decide
  unfold nodeFail
  dsimp only
  rw [onLine_line hc hl, hn]
  dsimp only
  rw [hst, hb, hby, Nat.min_eq_left (Nat.le_of_lt hth)]
  dsimp only
  rw [if_neg (by simp), if_neg (Nat.ne_of_lt hth), ← onLine_setNode]
  rfl

/-- R164, R167: a POLL whose last attempt times out fails, which counts against its node. -/
theorem timeout_fails {f : InFlight} {t0 a : Nat} {n : Node} {p : PathCond} (hf : l.inFlight = some f) (ht : f.timeoutAt = some t0) (h : t0 ≤ u.elapsed)
    (hp : p = (l.path f.path).cond) (ha : 1 + l.cfg.retries ≤ f.attempt) (hk : f.tx.kind = .poll) (hd : f.tx.dest = .node a) (hs : f.tx.stale = false)
    (hn : l.node? a = some n) (hst : n.st = .present) (hth : n.fails + 1 < l.cfg.threshold) (hb : l.cfg.bypass = 0) (hr : l.cycle.running = false)
    (hq : l.queue = []) (hdf : l.deferred = []) : (attemptTimeout ln p (Ctx.onLine u ln l none)).close =
      u.lineTo ln (({ l.setPath f.path ⟨p, some p⟩ with inFlight := none } : Line).setNode a (Node.failing (n.fails + 1))) := by
  obtain ⟨-, hcfg, hnodes, hqueue, hdefer, hcycle⟩ := setPath_kept hp
  have haddr := addr_node hd
  rw [timeout_reads hc hl hf ht h hp, onLine_lastAttempt hc hl (by rwa [hcfg])]
  refine onLine_completes hc hl (l2 := ({ l.setPath f.path ⟨p, some p⟩ with inFlight := none } : Line).setNode a (Node.failing (n.fails + 1))) ?_ ?_ (.inr hk)
    (hqueue.trans hq) (hdefer.trans hdf)
  · rw [noded_failed haddr hk hs]
    refine nodeFail_suspect hc hl (n := n) ?_ hst (by rwa [hcfg]) (by rwa [hcfg])
    rw [← hn]
    unfold Line.node?
    rw [hnodes]
  · unfold txAnswer
    rw [hk, haddr]
    exact onLine_pollNext hc hl (hcycle ▸ hr)

end

/-- Settles O57. -/
theorem framesAreAnswered : Obligations.FramesAreAnswered := by
  unfold Obligations.FramesAreAnswered
  intro ln f r c s hr hc hl hf hq hdf hcy hup
  have hcs : Counts s.started := counts_started hc
  have comes : ∀ {l : Line}, SameBut [.lc] s (s.started.lineTo ln l) ∧ (s.started.lineTo ln l).ri = s.ri
      ∧ (s.started.lineTo ln l).line ln = l ∧ ∀ k, k ≠ ln → (s.started.lineTo ln l).line k = s.line k := fun {l} =>
    ⟨sameBut_lineTo s ln l, rfl, lineTo_line hcs hl, fun k hk => lineTo_other s l hk⟩
  have sure : ∀ {g : Ctx → Ctx} {l : Line}, (g (Ctx.onLine s.started ln (s.line ln) none)).close = s.started.lineTo ln l →
      (Host.Outcome.next (event g s) : Result) = Host.Outcome.next (s.started.lineTo ln l) := fun h => congrArg Host.Outcome.next (exec_onLine hr h)
  have still : ∀ {g : Ctx → Ctx} {l : Line}, g (Ctx.onLine s.started ln (s.line ln) none) = Ctx.onLine s.started ln l none →
      (Host.Outcome.next (event g s) : Result) = Host.Outcome.next (s.started.lineTo ln l) := fun h => sure (by rw [h, close_onLine])
  refine ⟨fun ht hb => ⟨_, still (frameSent_addressed hcs hl hf ht hb), comes⟩, fun ht hb ha => ⟨_, sure (frameSent_broadcast hcs hl hf ht hb ha hq hdf), comes⟩,
    fun t0 ht => ⟨fun a n k shown hk hd hs hrr hn hst hm hcf => ?_, fun hv ha hs => ⟨_, still (badReply_again hcs hl hf ht hv hup ha hs), comes⟩, fun he => ?_,
      fun he hp ha hs => ⟨_, still (timeout_again hcs hl hf ht he hp hup ha hs), comes⟩,
      fun a n he hp ha hk hd hs hn hst hth hb => ?_⟩⟩
  · subst hrr
    exact ⟨_, sure (poll_answered hcs hl hf ht hk hd hs hn hst hm hcf hcy hq hdf), comes⟩
  · refine (still (timeout_early hcs hl hf ht he)).trans (congrArg Host.Outcome.next ?_)
    exact lineTo_self s.started ln
  · obtain ⟨-, -, hnodes, -⟩ := setPath_kept hp
    have heq : (({ (s.line ln).setPath f.path ⟨c, some c⟩ with inFlight := none } : Line).setNode a (Node.failing (n.fails + 1))) =
        { (s.line ln).setPath f.path ⟨c, some c⟩ with
          inFlight := none
          nodes := (s.line ln).nodes.map fun x => if x.addr = a then Node.failing (n.fails + 1) x else x } := by
      rw [← hnodes]
      rfl
    exact ⟨_, sure ((timeout_fails hcs hl hf ht he hp ha hk hd hs hn hst hth hb hcy hq hdf).trans (congrArg (fun l => s.started.lineTo ln l) heq)), comes⟩

end Sys2Proof.Machine
end

