-- ==== Sys2Proof/Proofs/LineTimers.lean ====
section
/-! O58: BUSY holds end and supervision cycles start. -/

namespace Sys2Proof.Machine
open Sys2Proof

/-- A node that may be sent to again (R168). -/
def Node.unheld (n : Node) : Node := { n with busyUntil := none }

theorem nextPoll_present {l : Line} {k a : Nat} {n : Node} (h : l.nextPoll k = some a) (hn : l.node? a = some n) : n.st ≠ .absent := by
  have := List.find?_some h
  rw [hn] at this
  simpa using this

theorem eventWhen_of_due {p : Bool} {f : Ctx → Ctx} {s : State} (h : p = true) : eventWhen p f s = event f s := if_pos h

theorem nextPoll_of_no_nodes {l : Line} (h : l.nodes = []) (k : Nat) : l.nextPoll k = none := by
  unfold Line.nextPoll Line.node?
  rw [h]
  exact List.find?_eq_none.2 fun _ _ => nofun

section
variable {u : State} {ln : Nat} {l : Line} (hc : Counts u) (hl : ln < 8)
include hc hl

/-- R162: the one eligible transaction of a queue goes into flight. -/
theorem onLine_selects {t : Tx} (hq : l.queue = [t]) (he : l.eligible t = true) (hf : l.inFlight = none) (hd : l.deferred = []) :
    settleLine ln settleSteps (Ctx.onLine u ln l none) =
      Ctx.onLine u ln { l with queue := [], inFlight := some (startFlight (u.lineTo ln l) l t) } none := by
  have hline : (u.lineTo ln l).line ln = l := lineTo_line hc hl
  have hsel : selectTx ln (u.lineTo ln l) = u.lineTo ln { l with queue := [], inFlight := some (startFlight (u.lineTo ln l) l t) } := by
    rw [selectTx_of_pick (t := t) (rest := []) (by rw [hline]; exact hf) (by rw [hline]; exact pick_of_single hq he), hline]
    exact lineTo_setLine u ln l _
  rw [show settleSteps = 199 + 1 from rfl, settleLine_of_select (c := Ctx.onLine u ln l none) nofun]
  · exact congrArg (fun st : State => Ctx.mk st [] [] 0 0 none) hsel
  · rw [show (Ctx.onLine u ln l none).st = u.lineTo ln l from rfl, hsel, lineTo_line hc hl]
    exact hd

/-! ### BUSY holds -/

section
variable {a t0 : Nat} {n : Node} (hn : l.node? a = some n) (hb : n.busyUntil = some t0)
include hn hb

/-- R168: before its end a BUSY hold stands. -/
theorem hold_stands (h : u.elapsed < t0) : busyHoldEnd ln a (Ctx.onLine u ln l none) = Ctx.onLine u ln l none := by
  unfold busyHoldEnd
  rw [onLine_line hc hl, hn, Option.bind_some, hb]
  exact if_neg (Nat.not_le_of_lt h)

/-- R168: a BUSY hold ends, and selection is made again. -/
theorem hold_ends (h : t0 ≤ u.elapsed) :
    busyHoldEnd ln a (Ctx.onLine u ln l none) = settleLine ln settleSteps (Ctx.onLine u ln (l.setNode a Node.unheld) none) := by
  unfold busyHoldEnd
  rw [onLine_line hc hl, hn, Option.bind_some, hb]
  dsimp only
  rw [if_pos (show t0 ≤ (Ctx.onLine u ln l none).st.elapsed from h), ← onLine_setNode]
  rfl

/-- R162, R168: the transaction queued for the node goes into flight at the end of its BUSY hold. -/
theorem hold_selects (h : t0 ≤ u.elapsed) {x : Tx} (hq : l.queue = [x]) (hx : x.addr? = some a) (hf : l.inFlight = none) (hd : l.deferred = []) :
    ∃ f, busyHoldEnd ln a (Ctx.onLine u ln l none) = Ctx.onLine u ln { l.setNode a Node.unheld with queue := [], inFlight := some f } none
      ∧ f.tx = x ∧ f.attempt = 1 ∧ f.timeoutAt = none := by
  have he : (l.setNode a Node.unheld).eligible x = true := by
    unfold Line.eligible
    rw [hx]
    dsimp only
    rw [node_setNode (g := Node.unheld) hn fun _ => rfl]
    rfl
  exact ⟨_, (hold_ends hc hl hn hb h).trans (onLine_selects hc hl (l := l.setNode a Node.unheld) (t := x) hq he hf hd), rfl, rfl, rfl⟩

end

/-! ### Supervision cycles -/

/-- R155: both paths are read as they were. -/
theorem onLine_readPaths {r : PathPair} (hr : r = ⟨l.pathA.cond, l.pathB.cond⟩) :
    readPaths ln r (Ctx.onLine u ln l none) = Ctx.onLine u ln { l with pathA := ⟨r.a, some r.a⟩, pathB := ⟨r.b, some r.b⟩ } none := by
  unfold readPaths
  rw [onLine_readPath hc hl (l := l) (p := .a) (by rw [hr]; rfl), onLine_readPath hc hl (l := l.setPath .a ⟨r.a, some r.a⟩) (p := .b) (by rw [hr]; rfl)]
  rfl

omit hc hl in
/-- R173: a cycle begins and goes on to its first POLL. -/
theorem cycle_begins : cycleBegins ln (Ctx.onLine u ln l none) =
    settleLine ln settleSteps (pollNext ln (Ctx.onLine u ln { l with cycle := ⟨l.active, 1, some u.elapsed, l.cfg.period⟩ } none)) := by
  unfold cycleBegins
  dsimp only
  rw [onLine_upd]
  rfl

/-- R173: a cycle without a node to poll has ended. -/
theorem pollNext_ends (h : l.nextPoll l.cycle.next = none) :
    pollNext ln (Ctx.onLine u ln l none) = Ctx.onLine u ln { l with cycle := { l.cycle with running := false } } none := by
  unfold pollNext
  dsimp only
  rw [onLine_line hc hl]
  by_cases hr : l.cycle.running = true
  · rw [if_neg (by simp [hr]), h]
    exact onLine_upd u ln l none fun l => { l with cycle := { l.cycle with running := false } }
  · rw [if_pos (by simp [hr])]
    have : l.cycle = { l.cycle with running := false } := by
      rw [← Bool.eq_false_iff.2 hr]
    rw [← this]

/-- R159, R162, R173: on an idle line in use the POLL goes into flight at once. -/
theorem pollNext_polls {a : Nat} {n : Node} (hact : l.active = true) (hi : IdleLine l) (hr : l.cycle.running = true) (hnext : l.nextPoll l.cycle.next = some a)
    (hn : l.node? a = some n) (hb : n.busyUntil = none) : ∃ f, pollNext ln (Ctx.onLine u ln l none) =
      Ctx.onLine u ln { l with cycle := { l.cycle with next := a + 1 }, inFlight := some f } none
      ∧ f.tx.kind = .poll ∧ f.tx.dest = .node a ∧ f.attempt = 1 ∧ f.path = l.pathFor n.pref := by
  let l1 : Line := { l with cycle := { l.cycle with next := a + 1 } }
  let c : Ctx := Ctx.onLine u ln l1 none
  have hline : c.st.line ln = l1 := onLine_line hc hl
  have hpoll : pollNext ln (Ctx.onLine u ln l none) = offerTx ln (mkTx c.st .poll 4 (.node a)) c := by
    unfold pollNext
    dsimp only
    rw [onLine_line hc hl, if_neg (by simp [hr]), hnext]
    dsimp only
    rw [onLine_upd]
    show offerService ln (.poll a) c = _
    unfold offerService
    dsimp only
    rw [hline, if_neg (show ¬ (l1.active && decide (l1.queue.length ≥ Config.serviceRoom)) = true by
      rw [show l1.queue = [] from hi.queue]
      simp [Config.serviceRoom])]
    rfl
  have hn1 : l1.node? a = some n := hn
  have hoffer := offerTx_of_idle (c := c) (t := mkTx c.st .poll 4 (.node a)) (counts_setLine hc ln _) hl (by rw [hline]; exact ⟨hi.queue, hi.inFlight, hi.deferred⟩)
    (by rw [hline]; exact hact)
    (by
      rw [hline]
      show (match l1.node? a with
        | none => true
        | some n => n.st = .absent && !TxKind.poll.isClear) = false
      rw [hn1]
      simpa using fun h => absurd h (nextPoll_present hnext hn))
    (by
      rw [hline]
      show ((l1.node? a).bind (·.busyUntil)).isNone = true
      rw [hn1, Option.bind_some, hb]
      rfl) nofun
  refine ⟨startFlight c.st l1 (mkTx c.st .poll 4 (.node a)), ?_, rfl, rfl, rfl, ?_⟩
  · rw [hpoll, hoffer, hline]
    exact onLine_upd u ln l1 none _
  · show l1.pathFor (((l1.node? a).map (·.pref)).getD .a) = _
    rw [hn1]
    rfl

/-- A line whose paths have been read as they were. -/
def Line.pathsRead (l : Line) : Line := { l with pathA := ⟨l.pathA.cond, some l.pathA.cond⟩, pathB := ⟨l.pathB.cond, some l.pathB.cond⟩ }

/-- R155, R173: a cycle begins with the readings of both paths. -/
theorem cycle_reads : cycleBegins ln (readPaths ln ⟨l.pathA.cond, l.pathB.cond⟩ (Ctx.onLine u ln l none)) =
    settleLine ln settleSteps (pollNext ln (Ctx.onLine u ln { l.pathsRead with cycle := ⟨l.active, 1, some u.elapsed, l.cfg.period⟩ } none)) := by
  rw [onLine_readPaths hc hl rfl]
  exact cycle_begins (l := l.pathsRead)

/-- R173: on a line without nodes a cycle has ended as it begins. -/
theorem cycle_over (hno : l.nodes = []) (hq : l.queue = []) (hd : l.deferred = []) :
    cycleBegins ln (readPaths ln ⟨l.pathA.cond, l.pathB.cond⟩ (Ctx.onLine u ln l none)) =
      Ctx.onLine u ln { l.pathsRead with cycle := ⟨false, 1, some u.elapsed, l.cfg.period⟩ } none := by
  rw [cycle_reads hc hl, pollNext_ends hc hl (l := { l.pathsRead with cycle := ⟨l.active, 1, some u.elapsed, l.cfg.period⟩ }) (nextPoll_of_no_nodes hno _)]
  exact onLine_settled hc hl (l := { l.pathsRead with cycle := ⟨false, 1, some u.elapsed, l.cfg.period⟩ }) hq hd settleSteps

/-- R173: on an UP line a cycle polls the node of the lowest address. -/
theorem cycle_polls {a : Nat} {n : Node} (hup : l.state = .up) (hi : IdleLine l) (hnext : l.nextPoll 1 = some a) (hn : l.node? a = some n)
    (hb : n.busyUntil = none) : ∃ f, cycleBegins ln (readPaths ln ⟨l.pathA.cond, l.pathB.cond⟩ (Ctx.onLine u ln l none)) =
      Ctx.onLine u ln { l.pathsRead with cycle := ⟨true, a + 1, some u.elapsed, l.cfg.period⟩, inFlight := some f } none
      ∧ f.tx.kind = .poll ∧ f.tx.dest = .node a ∧ f.attempt = 1 ∧ f.path = n.pref := by
  have hact : l.active = true := by simp [Line.active, hup]
  obtain ⟨f, hf, hk, hd, hat, hp⟩ := pollNext_polls hc hl (l := { l.pathsRead with cycle := ⟨l.active, 1, some u.elapsed, l.cfg.period⟩ }) (a := a) (n := n) hact
    ⟨hi.queue, hi.inFlight, hi.deferred⟩ hact hnext hn hb
  refine ⟨f, ?_, hk, hd, hat, hp.trans ?_⟩
  · rw [cycle_reads hc hl, hf, hact]
    exact onLine_settled hc hl (l := { l.pathsRead with cycle := ⟨true, a + 1, some u.elapsed, l.cfg.period⟩, inFlight := some f }) hi.queue hi.deferred settleSteps
  · exact if_neg (show ¬ l.state = .degraded by rw [hup]; exact nofun)

end

/-- Settles O58. -/
theorem lineTimersTakeEffect : Obligations.LineTimersTakeEffect := by
  unfold Obligations.LineTimersTakeEffect
  intro ln a t0 n r s hr hc hl hd hf
  have hcs : Counts s.started := counts_started hc
  have comes : ∀ {l : Line}, SameBut [.lc] s (s.started.lineTo ln l) ∧ (s.started.lineTo ln l).ri = s.ri := fun {l} => ⟨sameBut_lineTo s ln l, rfl⟩
  have change : ∀ {l : Line}, (s.started.lineTo ln l).line ln = l ∧ ∀ k, k ≠ ln → (s.started.lineTo ln l).line k = s.line k := fun {l} =>
    ⟨lineTo_line hcs hl, fun k hk => lineTo_other s l hk⟩
  have still : ∀ {g : Ctx → Ctx} {l : Line}, g (Ctx.onLine s.started ln (s.line ln) none) = Ctx.onLine s.started ln l none →
      (Host.Outcome.next (event g s) : Result) = Host.Outcome.next (s.started.lineTo ln l) := fun h =>
    congrArg Host.Outcome.next (exec_onLine hr (by rw [h, close_onLine]))
  refine ⟨fun hn hb => ⟨fun he => ?_, fun he hq => ?_, fun x he hq hx => ?_⟩, fun hdue => ?_, fun hdue hq hrd => ⟨fun hno => ?_,
    fun hup hnext hn hb => ?_⟩⟩
  · refine (still (hold_stands hcs hl hn hb he)).trans (congrArg Host.Outcome.next ?_)
    exact lineTo_self s.started ln
  · have hx := (hold_ends (u := s.started) hcs hl hn hb he).trans (onLine_settled hcs hl (l := (s.line ln).setNode a Node.unheld) hq hd settleSteps)
    exact ⟨_, still hx, comes.1, comes.2, change⟩
  · obtain ⟨f, hx1, htx, hat, hto⟩ := hold_selects hcs hl hn hb he hq hx hf hd
    exact ⟨_, f, still hx1, comes.1, comes.2, htx, hat, hto, change⟩
  · exact congrArg Host.Outcome.next (eventWhen_of_not hdue _)
  · subst hrd
    have hx := cycle_over (u := s.started) hcs hl hno hq hd
    refine ⟨_, (congrArg Host.Outcome.next (eventWhen_of_due hdue)).trans (still hx), comes.1, comes.2, ?_⟩
    have hline := (change (l := { (s.line ln).pathsRead with cycle := ⟨false, 1, some s.started.elapsed, (s.line ln).cfg.period⟩ })).1
    exact ⟨congrArg (fun l : Line => l.cycle.running) hline, congrArg (fun l : Line => l.cycle.lastStart) hline, (congrArg Line.inFlight hline).trans hf,
      congrArg Line.pathA hline, congrArg Line.pathB hline, change.2⟩
  · subst hrd
    obtain ⟨f, hx, hk, hds, hat, hp⟩ := cycle_polls (u := s.started) hcs hl hup ⟨hq, hf, hd⟩ hnext hn hb
    exact ⟨_, f, (congrArg Host.Outcome.next (eventWhen_of_due hdue)).trans (still hx), comes.1, comes.2, hk, hds, hat, hp, change⟩

end Sys2Proof.Machine
end

