-- ==== Sys2Proof/Proofs/SettleLines.lean ====
section
/-! SUPPORT. The end of settling on bare lines: their first readings and their first cycles (R155, R173, R177). -/

namespace Sys2Proof.Machine
open Sys2Proof

/-- The state with other lines. -/
def State.withLines (ls : List Line) (s : State) : State := { s with lc := { s.lc with lines := ls } }

/-- What goes through the lines keeps: the counts, bare lines, and every item but the lines. -/
structure OnlyBareLines (s v : State) : Prop where
  counts : Counts v
  bare : BareLines v
  only : v = s.withLines v.lc.lines

theorem OnlyBareLines.setLine {s v : State} (h : OnlyBareLines s v) {ln : Nat} (hl : ln < 8) {f : Line → Line} (hf : BareLine (f (v.line ln))) :
    OnlyBareLines s (v.setLine ln f) :=
  ⟨counts_setLine h.counts ln f, bareLines_setLine h.counts h.bare hl hf, congrArg (State.setLine ln f) h.only⟩

/-- An enabled line with its first readings (R155). -/
def Line.firstRead (r : PathPair) (l : Line) : Line := if l.cfg.enabled then { l with pathA := ⟨r.a, some r.a⟩, pathB := ⟨r.b, some r.b⟩ } else l

/-- An enabled line whose first cycle has begun, and ended for want of nodes (R173). -/
def Line.firstCycled (now : Nat) (l : Line) : Line := if l.cfg.enabled then { l with cycle := ⟨false, 1, some now, l.cfg.period⟩ } else l

theorem BareLine.firstRead {l : Line} (h : BareLine l) (r : PathPair) : BareLine (l.firstRead r) := by
  unfold Line.firstRead
  split
  · exact ⟨h.queue, h.inFlight, h.deferred, h.nodes⟩
  · exact h

theorem BareLine.firstCycled {l : Line} (h : BareLine l) (now : Nat) : BareLine (l.firstCycled now) := by
  unfold Line.firstCycled
  split
  · exact ⟨h.queue, h.inFlight, h.deferred, h.nodes⟩
  · exact h

/-! ### First readings -/

theorem firstPath_reached {u : State} {c : Ctx} (h : Reached u c) (ln : Nat) (p : Path) (r : PathCond) :
    Reached (u.setLine ln (Line.setPath p ⟨r, some r⟩)) (firstPath ln p r c) := by
  unfold firstPath
  dsimp only
  split
  · exact h.upd (plain_setLine _ _)
  · exact (h.upd (plain_setLine _ _)).record _

theorem firstReadings_reached {u : State} {c : Ctx} (h : Reached u c) (ln : Nat) :
    Reached (u.setLine ln (Line.firstRead (u.lc.startReads.getD ln openPair))) (firstReadings ln c) := by
  have he : c.st.line ln = u.line ln := congrFun h.alike.line ln
  have hr : c.st.lc.startReads = u.lc.startReads := by rw [h.alike.lc]
  unfold firstReadings
  dsimp only
  rw [he, hr]
  split
  · next hen =>
    have h2 := firstPath_reached (firstPath_reached h ln .a (u.lc.startReads.getD ln openPair).a) ln .b (u.lc.startReads.getD ln openPair).b
    rw [setLine_setLine, setLine_congr (g := Line.firstRead (u.lc.startReads.getD ln openPair))
      (by unfold Line.firstRead; rw [if_pos hen]; rfl)] at h2
    split
    · exact h2
    · exact h2.record _
  · next hen => rwa [setLine_of_fixed (by unfold Line.firstRead; rw [if_neg hen])]

/-- R155, R177: every enabled line, while bare, takes its first readings. -/
theorem firstReadings_all {s : State} {c : Ctx} (h : Reached s c) (hc : Counts s) (hb : BareLines s) :
    ∃ v, Reached v (Ctx.each firstReadings (List.range 8) c) ∧ OnlyBareLines s v
      ∧ ∀ l, l < 8 → v.line l = (s.line l).firstRead (s.lc.startReads.getD l openPair) := by
  obtain ⟨v, hv, hap, hrel, -⟩ := each_reached (n := 8) State.setLine State.line (OnlyBareLines s)
    (fun l k k' => k' = k.firstRead (s.lc.startReads.getD l openPair)) firstReadings
    (fun u i f hu hi => by rw [setLine_line hu.counts hi, if_pos rfl]) (fun u i j f hj => setLine_line_ne u hj f)
    (fun u c i hi hu hr => by
      have hreads : u.lc.startReads = s.lc.startReads := by rw [hu.only]; rfl
      have h1 := firstReadings_reached hr i
      rw [hreads] at h1
      exact ⟨_, h1, hu.setLine hi ((hu.bare i).firstRead _), rfl⟩)
    (List.range 8) s c List.nodup_range (fun i => List.mem_range.1) ⟨hc, hb, rfl⟩ h
  exact ⟨v, hv, hap, fun l hl => hrel l (List.mem_range.2 hl)⟩

/-! ### First cycles -/

/-- R173: the first cycle of a bare line begins and has ended. -/
theorem firstCycle_eq {c : Ctx} (hc : Counts c.st) {ln : Nat} (hl : ln < 8) (hb : BareLine (c.st.line ln)) :
    firstCycle ln c = c.upd (State.setLine ln (Line.firstCycled c.st.elapsed)) := by
  have settled {g : Line → Line} (hg : g (c.st.line ln) = { c.st.line ln with cycle := (g (c.st.line ln)).cycle }) :
      settleLine ln settleSteps (c.upd (State.setLine ln g)) = c.upd (State.setLine ln g) := by
    have hline : (c.upd (State.setLine ln g)).st.line ln = g (c.st.line ln) := (setLine_line hc hl ln g).trans (if_pos rfl)
    exact settleLine_of_empty (by rw [hline, hg]; exact hb.queue) (by rw [hline, hg]; exact hb.deferred) settleSteps
  unfold firstCycle
  split
  · next he =>
    have hline : (c.upd (State.setLine ln (Line.cycleFrom c.st.elapsed))).st.line ln = (c.st.line ln).cycleFrom c.st.elapsed :=
      (setLine_line hc hl ln _).trans (if_pos rfl)
    have hpoll : ∃ g : Line → Line, pollNext ln (c.upd (State.setLine ln (Line.cycleFrom c.st.elapsed))) = c.upd (State.setLine ln g)
        ∧ g (c.st.line ln) = (c.st.line ln).firstCycled c.st.elapsed := by
      unfold pollNext
      dsimp only
      rw [hline, nextPoll_of_no_nodes (show ((c.st.line ln).cycleFrom c.st.elapsed).nodes = [] from hb.nodes)]
      unfold Line.firstCycled
      rw [if_pos he]
      split
      · next hrun =>
        refine ⟨_, rfl, ?_⟩
        have : (c.st.line ln).active = false := by simpa [Line.cycleFrom] using hrun
        simp [Line.cycleFrom, this]
      · exact ⟨_, congrArg (fun s : State => { c with st := s }) (setLine_setLine ln _ _ _), rfl⟩
    obtain ⟨g, hg, hgl⟩ := hpoll
    have hcyc : cycleBegins ln c = settleLine ln settleSteps (pollNext ln (c.upd (State.setLine ln (Line.cycleFrom c.st.elapsed)))) := rfl
    rw [hcyc, hg, settled (by rw [hgl]; unfold Line.firstCycled; rw [if_pos he])]
    exact congrArg (fun s : State => { c with st := s }) (setLine_congr hgl)
  · next he =>
    have : c.st.setLine ln (Line.firstCycled c.st.elapsed) = c.st := setLine_of_fixed (by unfold Line.firstCycled; rw [if_neg he])
    show c = { c with st := c.st.setLine ln (Line.firstCycled c.st.elapsed) }
    rw [this]

/-- The trouble classes present do not rest on a line's cycle. -/
theorem troubleNow_setLine {s : State} {ln : Nat} {f : Line → Line} (hf : ∀ l, (f l).state = l.state ∧ (f l).nodes = l.nodes) :
    (s.setLine ln f).troubleNow = s.troubleNow := by
  have hany (p : Line → Bool) (hp : ∀ l, p (f l) = p l) : (s.lc.lines.modify ln f).any p = s.lc.lines.any p := by
    generalize s.lc.lines = ls
    induction ls generalizing ln with
    | nil => simp
    | cons l ls ih => cases ln <;> simp [hp, ih]
  unfold State.troubleNow State.setLine
  dsimp only
  rw [hany (fun l => l.state = .degraded || l.state = .failed) fun l => by rw [(hf l).1],
    hany (fun l => l.nodes.any fun n => n.st = .faulted) fun l => by rw [(hf l).2]]

theorem firstCycled_standing (now : Nat) (l : Line) : (l.firstCycled now).state = l.state ∧ (l.firstCycled now).nodes = l.nodes := by
  unfold Line.firstCycled
  split <;> exact ⟨rfl, rfl⟩

/-- R173: every enabled line, while bare, begins a cycle, which has ended. -/
theorem firstCycle_all {c : Ctx} (hc : Counts c.st) (hb : BareLines c.st) (ha : c.ans = []) (ht : c.todo = []) :
    ∃ v, (Ctx.each firstCycle (List.range 8) c).close = v ∧ OnlyBareLines c.st v ∧ v.troubleNow = c.st.troubleNow
      ∧ ∀ l, l < 8 → v.line l = (c.st.line l).firstCycled c.st.elapsed := by
  obtain ⟨v, ⟨hv, hva, hvt⟩, ⟨hap, htr⟩, hrel, -⟩ := each_places (n := 8) (fun u d => d.st = u ∧ d.ans = [] ∧ d.todo = []) State.setLine State.line
    (fun u => OnlyBareLines c.st u ∧ u.troubleNow = c.st.troubleNow) (fun _ k k' => k' = k.firstCycled c.st.elapsed) firstCycle
    (fun u i f hu hi => by rw [setLine_line hu.1.counts hi, if_pos rfl]) (fun u i j f hj => setLine_line_ne u hj f)
    (fun u d i hi hu hd => by
      obtain ⟨rfl, hda, hdt⟩ := hd
      obtain ⟨hap, htr⟩ := hu
      have hel : d.st.elapsed = c.st.elapsed := by rw [hap.only]; rfl
      rw [firstCycle_eq hap.counts hi (hap.bare i), hel]
      exact ⟨_, ⟨rfl, hda, hdt⟩, ⟨hap.setLine hi ((hap.bare i).firstCycled _), (troubleNow_setLine (firstCycled_standing _)).trans htr⟩, rfl⟩)
    (List.range 8) c.st c List.nodup_range (fun i => List.mem_range.1) ⟨⟨hc, hb, rfl⟩, rfl⟩ ⟨rfl, ha, ht⟩
  exact ⟨v, (close_done hva hvt).trans hv, hap, htr, fun l hl => hrel l (List.mem_range.2 hl)⟩

/-! ### Lines that are not enabled -/

theorem each_of_fixed {α : Type} {g : α → Ctx → Ctx} {c : Ctx} {is : List α} (h : ∀ i, i ∈ is → g i c = c) : Ctx.each g is c = c := by
  induction is with
  | nil => rfl
  | cons i is ih => rw [Ctx.each, h i List.mem_cons_self, ih fun j hj => h j (List.mem_cons_of_mem _ hj)]

theorem firstReadings_none {c : Ctx} (h : ∀ l, l < 8 → (c.st.line l).cfg.enabled = false) : Ctx.each firstReadings (List.range 8) c = c :=
  each_of_fixed fun l hl => if_neg (by rw [h l (List.mem_range.1 hl)]; exact nofun)

theorem firstCycle_none {c : Ctx} (h : ∀ l, l < 8 → (c.st.line l).cfg.enabled = false) : Ctx.each firstCycle (List.range 8) c = c :=
  each_of_fixed fun l hl => if_neg (by rw [h l (List.mem_range.1 hl)]; exact nofun)

end Sys2Proof.Machine
end

