-- ==== Sys2Proof/Proofs/Settling.lean ====
section
/-! O36: the end of settling with the time UNSET, no zone held and no drill. -/

namespace Sys2Proof.Machine
open Sys2Proof

/-! ### When settling ends -/

theorem fireInput_iff (s : State) : isFireInput s 11 = true ↔ s.io.inFunc 11 = .fireAlarm := (isFireInput_iff s 11).trans (and_iff_right rfl)

/-- How long K11's reading must hold. -/
theorem settleHold_eq (s : State) : settleHold s = if s.io.inFunc 11 = .fireAlarm then (s.input 11).debounce else 50 := by
  unfold settleHold
  by_cases h : s.io.inFunc 11 = .fireAlarm
  · rw [if_pos ((fireInput_iff s).2 h), if_pos h]
  · rw [if_neg (fun k => h ((fireInput_iff s).1 k)), if_neg h]

theorem settleHeld_iff (s : State) : settleHeld s = true ↔ (s.input 11).exact.since + (settleHold s : Int) ≤ s.elapsed
    ∧ (s.io.inFunc 11 = .fireAlarm → (s.input 11).exact.since + (settleHold s : Int) ≤ 10000) := by
  have hle : ((settleHold s : Int) ≤ (s.elapsed : Int) - (s.input 11).exact.since) ↔ (s.input 11).exact.since + (settleHold s : Int) ≤ s.elapsed := by
    omega
  have hlim : ((settleLimit : Nat) : Int) = 10000 := rfl
  unfold settleHeld
  rw [Bool.and_eq_true, decide_eq_true_iff, hle, Bool.or_eq_true, decide_eq_true_iff, hlim, Bool.not_eq_true', ← Bool.not_eq_true, fireInput_iff,
    ← imp_iff_not_or]

theorem settleExpired_iff (s : State) : settleExpired s = true ↔ s.io.inFunc 11 = .fireAlarm ∧ 10000 ≤ s.elapsed ∧ ¬ settleHeld s = true := by
  have hlim : settleLimit = 10000 := rfl
  unfold settleExpired
  rw [Bool.and_eq_true, Bool.and_eq_true, decide_eq_true_iff, Bool.not_eq_true', ← Bool.not_eq_true, fireInput_iff, hlim, and_assoc]

/-! ### The first evaluation -/

/-- The part as settling ends, with elapsed time 0. -/
def State.operating (s : State) : State := s.started.settled.setTb TimeBase.recomputed

/-- K11's value and the fire input's supervision with the reading that K11 is taken as. -/
def State.judged (k11 : Reading) (s : State) : State :=
  if s.io.inFunc 11 = .fireAlarm ∧ k11 = .highZ then (s.valued 11 (Reading.counted k11)).fireOpenTo true else s.valued 11 (Reading.counted k11)

/-- The part with K11 judged and the trouble classes that are then present. -/
def State.evaluated (k11 : Reading) (s : State) : State := (s.judged k11).troubleTo (s.judged k11).troubleNow

theorem evaluateFire_eq (k11 : Reading) (c : Ctx) : evaluateFire k11 c =
    if c.st.io.inFunc 11 = .fireAlarm ∧ k11 = .closed then fireAlarmOn (c.upd (State.evaluated k11)) else c.upd (State.evaluated k11) := by
  have hp (p : Prop) [Decidable p] : (isFireInput c.st 11 && decide p) = true ↔ c.st.io.inFunc 11 = .fireAlarm ∧ p := by
    rw [Bool.and_eq_true, fireInput_iff, decide_eq_true_iff]
  have hjudged : (if (isFireInput c.st 11 && decide (k11 = .highZ)) = true then (c.upd (State.valued 11 (Reading.counted k11))).upd (State.fireOpenTo true)
      else c.upd (State.valued 11 (Reading.counted k11))) = c.upd (State.judged k11) := by
    simp only [hp]
    split
    · next h => exact congrArg (fun s : State => { c with st := s }) (if_pos h).symm
    · next h => exact congrArg (fun s : State => { c with st := s }) (if_neg h).symm
  have hx : evaluateFire k11 c = if (isFireInput c.st 11 && decide (k11 = .closed)) = true then
      fireAlarmOn ((if (isFireInput c.st 11 && decide (k11 = .highZ)) = true then (c.upd (State.valued 11 (Reading.counted k11))).upd (State.fireOpenTo true)
        else c.upd (State.valued 11 (Reading.counted k11))).upd fun s => s.troubleTo s.troubleNow)
      else (if (isFireInput c.st 11 && decide (k11 = .highZ)) = true then (c.upd (State.valued 11 (Reading.counted k11))).upd (State.fireOpenTo true)
        else c.upd (State.valued 11 (Reading.counted k11))).upd fun s => s.troubleTo s.troubleNow := rfl
  rw [hx, hjudged]
  simp only [hp]
  rfl

/-- With the time UNSET settling ends with the lines' first readings, K11's evaluation and the first cycles. -/
theorem firstEvaluation_unset {s : State} (h : s.tb.campus = none) (k11 : Reading) : firstEvaluation k11 s.begin =
    Ctx.each firstCycle (List.range 8) (evaluateFire k11 (Ctx.each firstReadings (List.range 8) (Ctx.plain s.operating []))) := by
  have htime : settleTime (s.begin.upd State.settled) = Ctx.plain s.operating [] := by
    unfold settleTime
    dsimp only
    rw [show (s.begin.upd State.settled).st.tb.campus = none from h]
    rfl
  have hplan (b : Bool) : planRestart b (Ctx.plain s.operating []) = Ctx.plain s.operating [] := by
    unfold planRestart
    have : (Ctx.plain s.operating []).st.civil = none := by
      show civilOf s.tb.recomputed = none
      rw [recomputed_none h, civilOf]
      exact congrArg (Option.map _) h
    rw [this]
  unfold firstEvaluation
  dsimp only
  rw [htime, hplan]

theorem exec_settlingEnd {s : State} (h : s.supply.main = true ∧ s.supply.settling = true) (hh : settleHeld s = true) :
    exec .settlingEnd s = .next (firstEvaluation (s.input 11).reading s.begin).close := by
  refine congrArg Host.Outcome.next (if_pos ?_)
  rw [State.settlingNow, h.1, h.2, hh]
  rfl

theorem exec_settlingTimeout {s : State} (h : s.supply.main = true ∧ s.supply.settling = true) (hx : settleExpired s = true) :
    exec .settlingTimeout s = .next (firstEvaluation .closed s.begin).close := by
  refine congrArg Host.Outcome.next (if_pos ?_)
  rw [State.settlingNow, h.1, h.2, hx]
  rfl

/-! ### What the evaluation leaves -/

section
variable {s : State} (hc : Counts s)
include hc

theorem counts_operating : Counts s.operating :=
  ⟨hc.zones, hc.feeds, hc.channels, hc.circuits, hc.lines, (List.length_map _).trans hc.inputs, hc.outputs⟩

omit hc in
/-- An input's readings keep their age, and the input the rest. -/
theorem operating_input {β : Type} {g : Input → β} (hg : ∀ i, g (i.aged s.elapsed) = g i) (k : Nat) : g (s.operating.input k) = g (s.input k) := by
  show g ((s.io.inputs.map (Input.aged s.elapsed)).getD k _) = g (s.io.inputs.getD k _)
  simp only [List.getD_eq_getElem?_getD, List.getElem?_map]
  cases s.io.inputs[k]? with
  | none => rfl
  | some x => exact hg x

omit hc in
theorem operating_inFunc : s.operating.io.inFunc 11 = s.io.inFunc 11 := by
  have hf := operating_input (s := s) (g := Input.func) (fun _ => rfl) 11
  unfold IoUnit.inFunc
  exact congrArg (ite _ _) hf

theorem evaluated_input (k : Reading) : (s.evaluated k).input 11 = { s.input 11 with value := some (Reading.counted k) } := by
  have hv := valued_input hc (k := 11) (by decide) (Reading.counted k)
  unfold State.evaluated State.judged
  split <;> exact hv

omit hc in
theorem evaluated_input_ne {j : Nat} (h : j ≠ 11) (k : Reading) : (s.evaluated k).input j = s.input j := by
  have hv := valued_input_ne s h (Reading.counted k)
  unfold State.evaluated State.judged
  split <;> exact hv

omit hc in
theorem evaluated_fireOpen (k : Reading) :
    (s.evaluated k).io.fireOpen = if s.io.inFunc 11 = .fireAlarm ∧ k = .highZ then true else s.io.fireOpen := by
  unfold State.evaluated State.judged
  split <;> rfl

omit hc in
theorem evaluated_trouble (k : Reading) : (s.evaluated k).io.trouble = (s.evaluated k).troubleNow := by
  unfold State.evaluated
  exact (troubleNow_troubled (s := s.judged k) (tr := (s.judged k).troubleNow) (ri := (s.judged k).ri) rfl).symm

omit hc in
/-- The evaluation changes IO alone. -/
theorem evaluated_only (k : Reading) : s.evaluated k = { s with io := (s.evaluated k).io } := by
  unfold State.evaluated State.judged
  split <;> rfl

theorem counts_evaluated (k : Reading) : Counts (s.evaluated k) := by
  have hlen : (s.io.inputs.modify 11 fun i => { i with value := some (Reading.counted k) }).length = 12 := (List.length_modify ..).trans hc.inputs
  unfold State.evaluated State.judged
  split <;> exact ⟨hc.zones, hc.feeds, hc.channels, hc.circuits, hc.lines, hlen, hc.outputs⟩

end

/-- R185: the part in operation after settling, K11 with a value, and the trouble classes those present. -/
structure Settled (v : Contact) (s t : State) : Prop where
  running : t.running = true
  elapsed : t.elapsed = 0
  value : (t.input 11).value = some v
  others : ∀ k, k < 11 → (t.input k).value = (s.input k).value
  trouble : t.io.trouble = t.troubleNow
  unset : t.tb.campus = none

theorem recomputed_campus (tb : TimeBase) : tb.recomputed.campus = tb.campus := by
  obtain ⟨tr, off, h⟩ := recomputed_keeps tb
  rw [h]

/-- The first evaluation leaves K11 with its value and the others as they were. -/
theorem settled_of_evaluated {s x t : State} (hq : QuietStart s) (hc : Counts x) (hx : x.input = s.operating.input) (k : Reading) (hio : t.io = (x.evaluated k).io)
    (hs : t.supply = s.operating.supply) (he : t.elapsed = 0) (htb : t.tb = s.operating.tb) (htr : t.io.trouble = t.troubleNow) :
    Settled (Reading.counted k) s t := by
  have hin (j : Nat) : t.input j = (x.evaluated k).input j := by
    unfold State.input
    rw [hio]
  refine ⟨?_, he, ?_, fun j hj => ?_, htr, ?_⟩
  · rw [State.running, hs, show s.operating.supply.main = s.supply.main from rfl, hq.settling.1]
    rfl
  · rw [hin, evaluated_input hc]
  · rw [hin, evaluated_input_ne (Nat.ne_of_lt hj), hx]
    exact operating_input (g := Input.value) (fun _ => rfl) j
  · rw [htb]
    exact (recomputed_campus s.tb).trans hq.unset

/-! ### Settling that sets nothing off -/

/-- An enabled line as settling leaves it: with its first readings, its cycle begun at 0 and ended. -/
def Line.begun (r : PathPair) (l : Line) : Line :=
  { l with pathA := ⟨r.a, some r.a⟩, pathB := ⟨r.b, some r.b⟩, cycle := ⟨false, 1, some 0, l.cfg.period⟩ }

theorem firstCycled_firstRead (r : PathPair) (l : Line) :
    (l.cfg.enabled = false → (l.firstRead r).firstCycled 0 = l) ∧ (l.cfg.enabled = true → (l.firstRead r).firstCycled 0 = l.begun r) := by
  unfold Line.firstRead
  refine ⟨fun h => ?_, fun h => ?_⟩
  · rw [if_neg (by rw [h]; exact nofun)]
    exact if_neg (by rw [h]; exact nofun)
  · rw [if_pos h]
    exact if_pos h

/-- R155, R173, R185: K11 sets nothing off, and the enabled lines start. -/
theorem settles_quietly {s : State} (hq : QuietStart s) (hb : BareLines s) {k : Reading} (hk : ¬ (s.io.inFunc 11 = .fireAlarm ∧ k = .closed)) :
    ∃ t, (firstEvaluation k s.begin).close = t ∧ Settled (Reading.counted k) s t
      ∧ t.io.fireOpen = (if s.io.inFunc 11 = .fireAlarm ∧ k = .highZ then true else s.io.fireOpen)
      ∧ (∀ l, l < 8 → (s.line l).cfg.enabled = false → t.line l = s.line l)
      ∧ (∀ l, l < 8 → (s.line l).cfg.enabled = true → t.line l = (s.line l).begun (s.lc.startReads.getD l openPair))
      ∧ SameBut [.tb, .io, .lc] s t := by
  obtain ⟨v, hv, hap, hread⟩ := firstReadings_all (s := s.operating) (c := Ctx.plain s.operating []) (reached_refl (c := Ctx.plain s.operating []) rfl rfl)
    (counts_operating hq.counts) hb
  rw [firstEvaluation_unset hq.unset, evaluateFire_eq]
  generalize Ctx.each firstReadings (List.range 8) (Ctx.plain s.operating []) = c at hv
  have hal := hv.alike
  have hfunc : c.st.io.inFunc 11 = s.io.inFunc 11 := by
    rw [hal.inFunc, hap.only]
    exact operating_inFunc
  have hcc : Counts c.st := hal.counts hap.counts
  have hin : c.st.input = s.operating.input := by
    rw [hal.input, hap.only]
    rfl
  have hbc : BareLines (c.st.evaluated k) := by
    intro l
    rw [evaluated_only]
    exact (congrFun hal.line l).symm ▸ hap.bare l
  rw [hfunc, if_neg hk]
  obtain ⟨t, ht, htap, htr, hline⟩ := firstCycle_all (c := c.upd (State.evaluated k)) (counts_evaluated hcc k) hbc hv.ans hv.todo
  have hio : t.io = (c.st.evaluated k).io := by
    rw [htap.only]
    rfl
  have honly : t = { s.operating with lc := t.lc, io := t.io, ri := t.ri } := by
    conv => lhs; rw [htap.only, Ctx.upd_st, evaluated_only, hal.eq, hap.only]
    rw [hio, htap.only, Ctx.upd_st, evaluated_only, hal.eq, hap.only]
    rfl
  have hfinal (l : Nat) (hl : l < 8) : t.line l = ((s.line l).firstRead (s.lc.startReads.getD l openPair)).firstCycled 0 := by
    have hel : (c.st.evaluated k).elapsed = 0 := by
      rw [evaluated_only, hal.elapsed, hap.only]
      rfl
    have hl1 : (c.st.evaluated k).line l = v.line l := by
      rw [evaluated_only]
      exact congrFun hal.line l
    rw [hline l hl, Ctx.upd_st, hel, hl1, hread l hl]
    rfl
  refine ⟨t, ht, settled_of_evaluated hq hcc hin k hio (by rw [honly]) (by rw [honly]; rfl) (by rw [honly]) ?_, ?_, fun l hl he => ?_, fun l hl he => ?_, ?_⟩
  · rw [hio, evaluated_trouble]
    exact htr.symm
  · rw [hio, evaluated_fireOpen, hfunc, hal.eq, hap.only]
    rfl
  · rw [hfinal l hl, (firstCycled_firstRead _ _).1 he]
  · rw [hfinal l hl, (firstCycled_firstRead _ _).2 he]
  · rw [honly]
    exact ⟨fun n => (n (by decide)).elim, fun _ => rfl, fun _ => rfl, fun _ => rfl, fun _ => rfl, fun _ => rfl, fun _ => rfl, fun _ => rfl,
      fun n => (n (by decide)).elim, fun n => (n (by decide)).elim⟩

/-! ### Settling that ends with fire -/

/-- The trouble classes present rest on these items alone. -/
theorem troubleNow_congr {s t : State} (hlc : t.lc = s.lc) (htb : t.tb = s.tb) (hcu : t.cu = s.cu) (hio : t.io = s.io) (hl : t.ri.link = s.ri.link) :
    t.troubleNow = s.troubleNow := by
  unfold State.troubleNow
  rw [hlc, htb, hcu, hio, hl]

/-- R138, R79: fire is active and reported, silence is held, and every enabled zone is SILENCED. -/
structure Alarmed (s t : State) : Prop where
  settled : Settled .closed s t
  active : t.dc.fireActive = true
  held : t.dc.silenceHeld = true
  reported : t.za.fireReported = true
  silenced : ∀ z, z < 64 → (s.zoneRec z).enabled = true → t.zoneState z = .silenced
  same : SameBut [.tb, .io, .dc, .za] s t

theorem fireAlarmOn_lc (c : Ctx) : (fireAlarmOn c).st.lc = c.st.lc := (noted_mirrorFire _).toRiOnly.lc

/-- R138, R185: a closed fire input is active at once. -/
theorem settles_alarmed {s : State} (hq : QuietStart s) (hf : s.io.inFunc 11 = .fireAlarm) (hl : ∀ l, l < 8 → (s.line l).cfg.enabled = false) :
    Alarmed s (firstEvaluation .closed s.begin).close := by
  obtain ⟨u, hev⟩ : ∃ u, s.operating.evaluated .closed = u := ⟨_, rfl⟩
  have hu : u = { s.operating with io := u.io } := hev ▸ evaluated_only .closed
  have htrouble : u.io.trouble = u.troubleNow := hev ▸ evaluated_trouble .closed
  have hlines (ln : Nat) (h : ln < 8) : (u.line ln).cfg.enabled = false := by
    rw [hu]
    exact hl ln h
  have hzone (z : Nat) (h : (s.zoneRec z).enabled = true) : (u.zoneRec z).enabled = true := by
    rw [hu]
    exact h
  have hlc : (fireAlarmOn (Ctx.plain u [])).st.lc = u.lc := fireAlarmOn_lc _
  have heval : firstEvaluation .closed s.begin = fireAlarmOn (Ctx.plain u []) := by
    rw [firstEvaluation_unset hq.unset, firstReadings_none (by exact hl), evaluateFire_eq, if_pos ⟨operating_inFunc.trans hf, rfl⟩,
      show (Ctx.plain s.operating []).upd (State.evaluated .closed) = Ctx.plain u [] from congrArg (Ctx.plain · []) hev]
    exact firstCycle_none fun ln h => by
      show ((fireAlarmOn (Ctx.plain u [])).st.lc.lines.getD ln Line.cold).cfg.enabled = false
      rw [hlc]
      exact hlines ln h
  obtain ⟨zs, d, hlead, hst, hin, hio⟩ := fireAlarmOn_leads (u := u) (stands_refl (Ctx.plain u [])) (by rw [hu]; exact hq.noHolder)
    (by rw [hu]; exact hq.noWaiters) (by rw [hu]; exact hq.counts.zones) (by rw [hu]; exact hq.noDrill) fun l h8 => state_of_disabled (hlines l h8)
  have hal := hst.alike
  have hlink : d.st.ri.link = u.ri.link := by
    obtain ⟨tr, hn⟩ := hst.state
    exact hn.framed.kept.link
  rw [heval, hst.leaves hlead (by decide)]
  refine ⟨settled_of_evaluated hq (counts_operating hq.counts) rfl .closed (hev ▸ hio) ?_ ?_ ?_ ?_, ?_, ?_, ?_, fun z h64 he => ?_, ?_⟩
  · rw [hal.supply]
    exact (congrArg State.supply hu :)
  · rw [hal.elapsed]
    exact (congrArg State.elapsed hu :)
  · rw [hal.tb]
    exact (congrArg State.tb hu :)
  · rw [hio]
    exact htrouble.trans (troubleNow_congr hal.lc hal.tb hal.cu hio hlink).symm
  · rw [hal.dc]
    rfl
  · rw [hal.dc]
    rfl
  · rw [hal.za]
    rfl
  · refine zoneState_of_silenced ?_ ?_
    · rw [hal.zoneRec]
      exact hzone z he
    · rw [hal.zone]
      exact hin z h64 (hzone z he)
  · rw [hal.eq, hu]
    exact ⟨fun n => (n (by decide)).elim, fun _ => rfl, fun _ => rfl, fun n => (n (by decide)).elim, fun _ => rfl, fun _ => rfl,
      fun n => (n (by decide)).elim, fun _ => rfl, fun _ => rfl, fun n => (n (by decide)).elim⟩

/-- Settles O36. -/
theorem settlingEndsWithTheFireInput : Obligations.SettlingEndsWithTheFireInput := by
  unfold Obligations.SettlingEndsWithTheFireInput
  intro s hq
  dsimp only
  rw [← settleHold_eq, ← settleHeld_iff]
  have active (h : s.io.inFunc 11 = .fireAlarm) (hl : ∀ l, l < 8 → (s.line l).cfg.enabled = false) := settles_alarmed hq h hl
  have settled {v : Contact} {t : State} (h : Settled v s t) : t.running = true ∧ t.elapsed = 0 ∧ (t.input 11).value = some v
      ∧ (∀ k, k < 11 → (t.input k).value = (s.input k).value) ∧ t.io.trouble = t.troubleNow ∧ t.tb.campus = none :=
    ⟨h.running, h.elapsed, h.value, h.others, h.trouble, h.unset⟩
  have alarmed {t : State} (h : Alarmed s t) := And.intro (settled h.settled) (And.intro h.active (And.intro h.held
    (And.intro h.reported (And.intro h.silenced h.same))))
  refine ⟨fun hh => ?_, fun hn => ?_, fun hh hb hk => ?_, fun hl => ⟨fun hh hr hf => ?_, fun hf ht hh => ?_⟩⟩
  · refine congrArg Host.Outcome.next (if_neg ?_)
    simp [hh]
  · have hx : ¬ settleExpired s = true := fun hx => by
      obtain ⟨hf, hlate, hno⟩ := (settleExpired_iff s).1 hx
      obtain h | h | h := hn
      · exact h hf
      · omega
      · exact hno h
    refine congrArg Host.Outcome.next (if_neg ?_)
    simp [hx]
  · obtain ⟨t, ht, hs, hopen, hoff, hon, hsame⟩ := settles_quietly hq hb (k := (s.input 11).reading) fun h => hk ⟨h.2, h.1⟩
    refine ⟨t, (exec_settlingEnd hq.settling hh).trans (congrArg Host.Outcome.next ht), counted_eq _ ▸ settled hs, fun hz hf => ?_, fun h => ?_, hoff,
      hon, hsame⟩
    · rw [hopen, if_pos ⟨hf, hz⟩]
    · rw [hopen, if_neg fun k => h.elim (fun h => h k.2) fun h => h k.1]
  · have he := exec_settlingEnd hq.settling hh
    rw [hr] at he
    exact ⟨_, he, alarmed (active hf hl)⟩
  · exact ⟨_, exec_settlingTimeout hq.settling ((settleExpired_iff s).2 ⟨hf, ht, hh⟩), alarmed (active hf hl)⟩

end Sys2Proof.Machine
end

