-- ==== Sys2Proof/Proofs/Settlement.lean ====
section
/-! SUPPORT. The settlement of a building (R70): with no candidate, with one that is granted, and with speaking candidates that the feed blocks. -/

namespace Sys2Proof.Machine
open Sys2Proof

/-! ### Candidates -/

theorem mem_candidates {s : State} {b y : Nat} {w : Claim} : (y, w) ∈ candidates s b ↔
    y < 64 ∧ (s.zoneRec y).building = b ∧ (s.zoneRec y).enabled = true ∧ (s.zone y).holder = none ∧ (s.zone y).candidate = some w := by
  unfold candidates State.zonesOfBuilding
  simp only [List.mem_filterMap, List.mem_filter, List.mem_range, beq_iff_eq]
  constructor
  · rintro ⟨x, ⟨hx, hb⟩, hw⟩
    split at hw
    · next hc =>
      obtain ⟨v, hv, he⟩ := Option.map_eq_some_iff.1 hw
      obtain ⟨rfl, rfl⟩ := Prod.mk.inj he
      obtain ⟨h1, h2⟩ := Bool.and_eq_true_iff.1 hc
      exact ⟨hx, hb, h1, Option.isNone_iff_eq_none.1 h2, hv⟩
    · cases hw
  · rintro ⟨hx, hb, h1, h2, hv⟩
    exact ⟨y, ⟨hx, hb⟩, by rw [if_pos (by simp [h1, h2]), hv]; rfl⟩

theorem mem_candidates_fst {s : State} {b y : Nat} : y ∈ (candidates s b).map (·.1) ↔
    y < 64 ∧ (s.zoneRec y).building = b ∧ (s.zoneRec y).enabled = true ∧ (s.zone y).holder = none ∧ (s.zone y).candidate ≠ none := by
  rw [List.mem_map, Option.ne_none_iff_exists']
  constructor
  · rintro ⟨⟨x, w⟩, hx, rfl⟩
    obtain ⟨h1, h2, h3, h4, h5⟩ := mem_candidates.1 hx
    exact ⟨h1, h2, h3, h4, w, h5⟩
  · rintro ⟨h1, h2, h3, h4, w, h5⟩
    exact ⟨(y, w), mem_candidates.2 ⟨h1, h2, h3, h4, h5⟩, rfl⟩

theorem candidates_none {s : State} (h : ∀ y, (s.zone y).holder = none → (s.zone y).candidate = none) (b : Nat) : candidates s b = [] := by
  refine List.eq_nil_iff_forall_not_mem.2 fun ⟨y, w⟩ hy => ?_
  obtain ⟨-, -, -, h4, h5⟩ := mem_candidates.1 hy
  rw [h y h4] at h5
  cases h5

/-! ### Rounds -/

theorem settleRound_of_none {c : Ctx} {b : Nat} (h : candidates c.st b = []) : settleRound b c = c := by
  simp only [settleRound, h, List.filter_nil, List.length_nil, settleSpeaking, Ctx.each]

/-- The rounds are over with the first that changes nothing. -/
theorem settleLoop_of_round {b n : Nat} {c : Ctx} (h : settleRound b c = c) : settleLoop b (n + 1) c = c := by
  unfold settleLoop
  simp only [h, if_true]

theorem settleLoop_of_rounds {b n : Nat} {c d : Ctx} (h : settleRound b c = d) (k : settleRound b d = d) : settleLoop b (n + 2) c = d := by
  rw [settleLoop, h, settleLoop_of_round k, ite_self]

theorem settleRounds_eq : settleRounds = 998 + 2 := rfl

/-- R70, R73: with no candidate settlement lets the feed lapse, and no more. -/
theorem settle_of_none {c : Ctx} (h : ∀ y, (c.st.zone y).holder = none → (c.st.zone y).candidate = none) (b : Nat) : settle b c = feedLapse b c := by
  have hl : ∀ y, ((feedLapse b c).st.zone y).holder = none → ((feedLapse b c).st.zone y).candidate = none := by
    obtain ⟨fs, he⟩ := feedLapse_feeds b c
    rw [he]
    exact h
  exact settleLoop_of_round (n := 998 + 1) (settleRound_of_none (candidates_none hl b))

/-- R70: the one candidate, who does not speak, is granted its zone. -/
theorem settle_of_quiet_one {c d : Ctx} {b z : Nat} {w : Claim} (hc : candidates (feedLapse b c).st b = [(z, w)]) (hw : w.speaking = false)
    (hd : grantZone z w (feedLapse b c) = d) (hn : candidates d.st b = []) : settle b c = d := by
  refine settleLoop_of_rounds (n := 998) ?_ (settleRound_of_none hn)
  have hq : ([(z, w)].filter fun p => !p.2.speaking) = [(z, w)] := by simp [hw]
  unfold settleRound
  dsimp only
  rw [hc, hq]
  simp only [Ctx.each, hd, hn, List.filter_nil, List.length_nil, settleSpeaking]

/-! ### Blocked candidates -/

/-- The state with these zones reserved for a claimant. -/
def State.reserve (k : Claimant) (zs : List Nat) (s : State) : State :=
  { s with za := { s.za with zones := s.za.zones.mapIdx fun y d => if y ∈ zs then { d with reserved := some k } else d } }

theorem reserve_zone {s : State} {k : Claimant} {zs : List Nat} (hl : ∀ y, y ∈ zs → y < s.za.zones.length) (y : Nat) :
    (s.reserve k zs).zone y = if y ∈ zs then { s.zone y with reserved := some k } else s.zone y := by
  unfold State.zone State.reserve
  simp only [List.getD_eq_getElem?_getD, List.getElem?_mapIdx]
  by_cases hy : y < s.za.zones.length
  · simp [hy]
  · have hn : y ∉ zs := fun h => hy (hl y h)
    simp [Nat.le_of_not_lt hy, hn]

theorem reserve_nil (k : Claimant) (s : State) : s.reserve k [] = s := by
  unfold State.reserve
  have : (s.za.zones.mapIdx fun y d => if y ∈ ([] : List Nat) then { d with reserved := some k } else d) = s.za.zones := by
    refine List.ext_getElem (by simp) fun i h1 h2 => ?_
    simp
  rw [this]

theorem reserve_setZone (k : Claimant) (z : Nat) (zs : List Nat) (s : State) :
    (s.setZone z fun d => { d with reserved := some k }).reserve k zs = s.reserve k (z :: zs) := by
  have : ((s.za.zones.modify z fun d => { d with reserved := some k }).mapIdx fun y d => if y ∈ zs then { d with reserved := some k } else d) =
      s.za.zones.mapIdx fun y d => if y ∈ z :: zs then { d with reserved := some k } else d := by
    refine List.ext_getElem (by simp) fun i h1 h2 => ?_
    by_cases hz : z = i
    · simp [hz]
    · simp [hz, Ne.symm hz]
  unfold State.reserve State.setZone
  dsimp only
  rw [this]

theorem reserve_reserve (k : Claimant) (zs : List Nat) (s : State) : (s.reserve k zs).reserve k zs = s.reserve k zs := by
  have : ((s.za.zones.mapIdx fun y d => if y ∈ zs then { d with reserved := some k } else d).mapIdx
      fun y d => if y ∈ zs then { d with reserved := some k } else d) = s.za.zones.mapIdx fun y d => if y ∈ zs then { d with reserved := some k } else d := by
    refine List.ext_getElem (by simp) fun i h1 h2 => ?_
    by_cases hi : i ∈ zs <;> simp [hi]
  unfold State.reserve
  dsimp only
  rw [this]

theorem each_reserve {k : Claimant} (ps : List (Nat × Claim)) (h : ∀ p, p ∈ ps → p.2.who = k) : ∀ c : Ctx,
    Ctx.each (fun (p : Nat × Claim) (c : Ctx) => c.upd (State.setZone p.1 fun d => { d with reserved := some p.2.who })) ps c = c.upd (State.reserve k (ps.map (·.1))) := by
  induction ps with
  | nil => exact fun c => congrArg (fun s : State => { c with st := s }) (reserve_nil k c.st).symm
  | cons p ps ih =>
    intro c
    rw [Ctx.each, ih fun q hq => h q (List.mem_cons_of_mem _ hq), h p List.mem_cons_self]
    exact congrArg (fun s : State => { c with st := s }) (reserve_setZone k p.1 (ps.map (·.1)) c.st)

theorem bestClaim_mem {ps : List (Nat × Claim)} {w : Claim} (h : bestClaim ps = some w) : ∃ p, p ∈ ps ∧ p.2 = w := by
  induction ps generalizing w with
  | nil => cases h
  | cons p ps ih =>
    unfold bestClaim at h
    cases hb : bestClaim ps with
    | none =>
      rw [hb] at h
      exact ⟨p, List.mem_cons_self, Option.some.inj h⟩
    | some v =>
      rw [hb] at h
      obtain ⟨q, hq, hv⟩ := ih hb
      have hw := Option.some.inj h
      split at hw
      · exact ⟨q, List.mem_cons_of_mem _ hq, hv.trans hw⟩
      · exact ⟨p, List.mem_cons_self, hw⟩

theorem bestClaim_some {p : Nat × Claim} {ps : List (Nat × Claim)} : ∃ w, bestClaim (p :: ps) = some w := by
  unfold bestClaim
  cases bestClaim ps <;> exact ⟨_, rfl⟩

/-- The candidates of a building are of one claimant, speak, and are blocked by the building's feed (R74). -/
def AllBlocked (k : Claimant) (b : Nat) (s : State) : Prop :=
  ∀ p, p ∈ candidates s b → p.2.speaking = true ∧ p.2.who = k ∧ feedTest s b p.2 = .blocked

/-- R70: a round leaves the zones of blocked candidates reserved for them. -/
theorem settleRound_of_blocked {c : Ctx} {b : Nat} {k : Claimant} (h : AllBlocked k b c.st) :
    settleRound b c = c.upd (State.reserve k ((candidates c.st b).map (·.1))) := by
  have hq : ((candidates c.st b).filter fun p => !p.2.speaking) = [] := by
    refine List.filter_eq_nil_iff.2 fun p hp => ?_
    simp [(h p hp).1]
  have hl : ((candidates c.st b).filter fun p => p.2.speaking) = candidates c.st b := List.filter_eq_self.2 fun p hp => (h p hp).1
  unfold settleRound
  dsimp only
  rw [hq]
  dsimp only [Ctx.each]
  rw [hl]
  generalize hps : candidates c.st b = ps
  cases ps with
  | nil => exact congrArg (fun s : State => { c with st := s }) (reserve_nil k c.st).symm
  | cons p ps =>
    obtain ⟨w, hw⟩ := bestClaim_some (p := p) (ps := ps)
    obtain ⟨q, hmem, rfl⟩ := bestClaim_mem hw
    have hall : ∀ r, r ∈ p :: ps → r.2.who = k := fun r hr => (h r (hps ▸ hr)).2.1
    obtain ⟨-, hwho, hblocked⟩ := h q (hps ▸ hmem)
    have hmine : ((p :: ps).filter fun r => r.2.who == q.2.who) = p :: ps := List.filter_eq_self.2 fun r hr => by simp [hall r hr, hwho]
    have hrest : ((p :: ps).filter fun r => r.2.who != q.2.who) = [] := List.filter_eq_nil_iff.2 fun r hr => by simp [hall r hr, hwho]
    have hend (n : Nat) (d : Ctx) : settleSpeaking b n [] d = d := by cases n <;> rfl
    rw [List.length_cons, settleSpeaking, hw]
    dsimp only
    rw [hmine, hrest, hblocked]
    dsimp only
    rw [hend]
    exact each_reserve (p :: ps) hall c

/-- A reservation of a zone for a claimant leaves its candidate. -/
def KeepsCandidate (k : Claimant) (d : ZoneDyn) : Prop := ({ d with reserved := some k } : ZoneDyn).candidate = d.candidate

theorem candidates_reserve {s : State} {b : Nat} {k : Claimant} (hlen : s.za.zones.length = 64)
    (h : ∀ y, (s.zone y).holder = none → KeepsCandidate k (s.zone y)) :
    candidates (s.reserve k ((candidates s b).map (·.1))) b = candidates s b := by
  have hz := reserve_zone (s := s) (k := k) (zs := (candidates s b).map (·.1)) fun y hy => lt_of_lt_of_eq (mem_candidates_fst.1 hy).1 hlen.symm
  generalize (candidates s b).map (·.1) = zs at hz ⊢
  unfold candidates
  refine List.filterMap_congr fun y _ => ?_
  have hh : ((s.reserve k zs).zone y).holder = (s.zone y).holder := by
    rw [hz]
    split <;> rfl
  have hrec : (s.reserve k zs).zoneRec y = s.zoneRec y := rfl
  rw [hh, hrec]
  split
  · next hc =>
    have hn := Option.isNone_iff_eq_none.1 (Bool.and_eq_true_iff.1 hc).2
    rw [hz]
    split
    · rw [h y hn]
    · rfl
  · rfl

/-- R70: where every candidate of a building is blocked its zones stay, reserved for it. -/
theorem settle_of_blocked {c : Ctx} {b : Nat} {k : Claimant} (hlapse : feedLapse b c = c) (hlen : c.st.za.zones.length = 64) (hb : AllBlocked k b c.st)
    (h : ∀ y, (c.st.zone y).holder = none → KeepsCandidate k (c.st.zone y)) :
    settle b c = c.upd (State.reserve k ((candidates c.st b).map (·.1))) := by
  have hcand := candidates_reserve (b := b) hlen h
  unfold settle
  rw [hlapse, settleRounds_eq]
  refine settleLoop_of_rounds (settleRound_of_blocked hb) ?_
  have hb2 : AllBlocked k b (c.upd (State.reserve k ((candidates c.st b).map (·.1)))).st := fun p hp => hb p (hcand ▸ hp)
  rw [settleRound_of_blocked hb2]
  refine congrArg (fun s : State => { c with st := s }) ?_
  rw [Ctx.upd_st, hcand]
  exact reserve_reserve k _ c.st

end Sys2Proof.Machine
end

