-- ==== Sys2Proof/Proofs/Contests.lean ====
section
/-! SUPPORT. Claims on a zone that others hold or wait for (R66 to R71), in quiet surroundings. -/

namespace Sys2Proof.Machine
open Sys2Proof

/-- The Zone Arbiter's next claim has a later number. -/
def State.arrived (s : State) : State := { s with za := { s.za with arrival := s.za.arrival + 1 } }

/-- The feeds have these holders. -/
def State.feedsTo (fs : List (Option FeedHolder)) (s : State) : State := { s with za := { s.za with feeds := fs } }

/-- A claim has come to this: its zone stands so, and the feeds have these holders. -/
def State.zoneAs (z : Nat) (d : ZoneDyn) (fs : List (Option FeedHolder)) (s : State) : State := (s.arrived.setZone z fun _ => d).feedsTo fs

theorem riFree_arrived : RiFree State.arrived := fun _ _ => rfl
theorem riFree_feedsTo (fs : List (Option FeedHolder)) : RiFree (State.feedsTo fs) := fun _ _ => rfl
theorem riFree_setFeed (b : Nat) (f : Option FeedHolder) : RiFree (State.setFeed b f) := fun _ _ => rfl
theorem riFree_zoneAs (z : Nat) (d : ZoneDyn) (fs : List (Option FeedHolder)) : RiFree (State.zoneAs z d fs) := fun _ _ => rfl
theorem riFree_reserve (k : Claimant) (zs : List Nat) : RiFree (State.reserve k zs) := fun _ _ => rfl

theorem zoneAs_zone {s : State} {z : Nat} (h : z < s.za.zones.length) (d : ZoneDyn) (fs : List (Option FeedHolder)) (y : Nat) :
    (s.zoneAs z d fs).zone y = if y = z then d else s.zone y := setZone_zone s.arrived z y (fun _ => d) h

theorem zoneAs_of_setZone {s : State} {z : Nat} {f : ZoneDyn → ZoneDyn} {d : ZoneDyn} (h : f (s.zone z) = d) (fs : List (Option FeedHolder)) :
    (s.arrived.setZone z f).feedsTo fs = s.zoneAs z d fs := congrArg (State.feedsTo fs) (setZone_congr h)

theorem setZone_id (s : State) (z : Nat) : s.setZone z id = s := by
  unfold State.setZone
  rw [List.modify_id]

theorem zoneAs_of_same (s : State) (z : Nat) (fs : List (Option FeedHolder)) : s.arrived.feedsTo fs = s.zoneAs z (s.zone z) fs := by
  refine Eq.trans ?_ (zoneAs_of_setZone (f := id) rfl fs)
  rw [setZone_id]

theorem Contest.of_riOnly {z : Nat} {s t : State} (h : Contest z s) (k : RiOnly s t) : Contest z t := by
  refine ⟨?_, h.range, k.zoneRec ▸ h.enabled, ?_, k.zone ▸ h.alone, k.zoneRec ▸ h.silentLine, h.bare.of_lc k.lc⟩
  · rw [k.eq]
    exact ⟨h.counts.zones, h.counts.feeds, h.counts.channels, h.counts.circuits, h.counts.lines, h.counts.inputs, h.counts.outputs⟩
  · rw [k.za, k.zone]
    exact h.noFire

/-! ### The Zone Arbiter's steps -/

/-- R67: the wait limit with which a preempted holder's claim rejoins its wait list; none where it has ended. -/
def Claim.waitsTo (now : Nat) (h : Claim) : Option Nat :=
  match h.onPreempt with
  | .leave => none
  | .waitUntil t => if now < t then some t else none
  | .waitFor d => if 0 < d then some (now + d) else none

theorem rejoining_eq (now : Nat) (h : Claim) : h.rejoining now = (h.waitsTo now).toList.map fun t => { h with waitLimit := some t } := by
  obtain ⟨who, level, speaking, mayWait, limit, onPreempt, sound, arrival, grantEv⟩ := h
  unfold Claim.rejoining Claim.waitsTo
  cases onPreempt with
  | leave => rfl
  | waitUntil t =>
    dsimp only
    split <;> rfl
  | waitFor d =>
    dsimp only
    split <;> rfl

section
variable {u : State} {as : List Ans} {ws : List Work} {c : Ctx} (h : Amid u as ws c)
include h

/-- R67, R70: a change of holder of a zone that is silent on its bare line. -/
theorem Amid.changesHolder {z : Nat} (hs : (u.zoneRec z).sounds = false) (hb : BareLines u) (new : Option Claim) :
    Amid (u.setZone z fun d => { d with holder := new, cadence := .quiet }) as ws (changeHolder z new c) := by
  rw [changeHolder_of_quiet (.inl (hb.of_lc h.state.lc)) (.inl (by rw [h.state.zoneRec]; exact hs))]
  exact h.upd (riFree_setZone z _)

/-- R67: a preempted holder's claim rejoins the empty wait list of its zone, or has ended. -/
theorem Amid.preempts {z : Nat} (hw : (u.zone z).waiters = []) (cause : Nat) (new g : Claim) :
    Amid (u.setZone z fun d => { d with waiters := g.rejoining u.elapsed }) (as ++ [.zone g.who z (.preempted new.who !(g.rejoining u.elapsed).isEmpty)]) ws
      (preempted z cause new g c) := by
  have stays : u.setZone z (fun d => { d with waiters := [] }) = u := by
    rw [setZone_congr (g := id) (by rw [← hw]; rfl), setZone_id]
  have ended {e : Ctx} (he : Amid u as ws e) (hr : g.rejoining u.elapsed = []) : Amid (u.setZone z fun d => { d with waiters := g.rejoining u.elapsed })
      (as ++ [.zone g.who z (.preempted new.who !(g.rejoining u.elapsed).isEmpty)]) ws (e.say (.zone g.who z (.preempted new.who false))) := by
    rw [hr, stays]
    exact he.say _
  have rejoins {e : Ctx} (he : Amid u as ws e) {t : Nat} (hr : g.rejoining u.elapsed = [{ g with waitLimit := some t }]) :
      Amid (u.setZone z fun d => { d with waiters := g.rejoining u.elapsed })
      (as ++ [.zone g.who z (.preempted new.who !(g.rejoining u.elapsed).isEmpty)]) ws (joinList z { g with waitLimit := some t } (.preempted new.who true) e) := by
    unfold joinList
    dsimp only
    rw [he.state.zone, hw, if_pos (by decide), hr]
    have hput := (he.upd (riFree_setZone z fun d => { d with waiters := insertClaim { g with waitLimit := some t } d.waiters })).say
      (.zone g.who z (.preempted new.who true))
    rw [setZone_congr (g := fun d => { d with waiters := [{ g with waitLimit := some t }] }) (by rw [hw]; rfl)] at hput
    exact hput
  have hrec := h.record (zaNote z c.tag (dv z) (claimantValues g.who g.level) (claimantValues new.who new.level ++ [some (cause : Int)]))
  have hrj := rejoining_eq u.elapsed g
  have hx : preempted z cause new g c = match g.waitsTo c.st.elapsed with
    | some t => joinList z { g with waitLimit := some t } (.preempted new.who true)
        (c.record (zaNote z c.tag (dv z) (claimantValues g.who g.level) (claimantValues new.who new.level ++ [some (cause : Int)])))
    | none => (c.record (zaNote z c.tag (dv z) (claimantValues g.who g.level) (claimantValues new.who new.level ++ [some (cause : Int)]))).say
        (.zone g.who z (.preempted new.who false)) := rfl
  rw [hx, h.state.elapsed]
  cases hl : g.waitsTo u.elapsed with
  | none =>
    rw [hl] at hrj
    exact ended hrec hrj
  | some t =>
    rw [hl] at hrj
    exact rejoins hrec hrj

variable {z : Nat} (hs : (u.zoneRec z).sounds = false) (hb : BareLines u) (hl : z < u.za.zones.length)
include hs hb hl

/-- R66: a grant of a zone that nobody holds. -/
theorem Amid.grants_unheld {x : Claim} (hh : (u.zone z).holder = none) :
    Amid ((if x.speaking then u.setFeed (u.buildingOf z) (some ⟨x.who, x.level⟩) else u).setZone z fun d =>
      ⟨some { x with grantEv := u.eventNo }, (d.without x.who).waiters, none, .quiet⟩) (as ++ [.zone x.who z .granted]) ws (grantZone z x c) := by
  have hd : ((dropWaiter z x.who c).st.zone z).holder = none := by
    show ((State.setZone z _ c.st).zone z).holder = none
    rw [setZone_zone _ _ _ _ (h.state.za ▸ hl), if_pos rfl, h.state.zone]
    exact hh
  have h1 : Amid (u.setZone z (ZoneDyn.without x.who)) as ws (dropWaiter z x.who c) := h.upd (riFree_setZone z (ZoneDyn.without x.who))
  have hbld : (dropWaiter z x.who c).st.buildingOf z = u.buildingOf z := by
    show (c.st.zoneRec z).building = _
    rw [h.state.zoneRec]
    rfl
  have hev : (dropWaiter z x.who c).st.eventNo = u.eventNo := h.state.eventNo
  have hbc : BareLines c.st := hb.of_lc h.state.lc
  unfold grantZone
  simp only [hd]
  rw [watchEarlier_of_unhindered (.inr (by cases x.speaking <;> exact hbc)), hbld, hev]
  by_cases hsp : x.speaking = true
  · rw [if_pos hsp, if_pos hsp]
    have h2 := (((h1.upd (riFree_setFeed (u.buildingOf z) (some ⟨x.who, x.level⟩))).upd (riFree_setZone z fun d => { d with reserved := none })).say
      (.zone x.who z .granted)).changesHolder (z := z) (by exact hs) (by exact hb) (some { x with grantEv := u.eventNo })
    rw [show (u.setZone z (ZoneDyn.without x.who)).setFeed (u.buildingOf z) (some ⟨x.who, x.level⟩) =
      (u.setFeed (u.buildingOf z) (some ⟨x.who, x.level⟩)).setZone z (ZoneDyn.without x.who) from rfl, setZone_setZone, setZone_setZone] at h2
    exact h2
  · rw [if_neg hsp, if_neg hsp]
    have h2 := ((h1.upd (riFree_setZone z fun d => { d with reserved := none })).say
      (.zone x.who z .granted)).changesHolder (z := z) (by exact hs) (by exact hb) (some { x with grantEv := u.eventNo })
    rw [setZone_setZone, setZone_setZone] at h2
    exact h2

/-- R66, R67: a grant, straight from its holder, of a zone that nobody waits for, to a claim that does not speak. -/
theorem Amid.grants_held {x g : Claim} (hx : x.speaking = false) (hh : (u.zone z).holder = some g) (hw : (u.zone z).waiters = []) :
    Amid (u.setZone z fun _ => ⟨some { x with grantEv := u.eventNo }, g.rejoining u.elapsed, none, .quiet⟩)
      (as ++ [.zone g.who z (.preempted x.who !(g.rejoining u.elapsed).isEmpty)] ++ [.zone x.who z .granted]) ws (grantZone z x c) := by
  have h1 : Amid (u.setZone z (ZoneDyn.without x.who)) as ws (dropWaiter z x.who c) := h.upd (riFree_setZone z (ZoneDyn.without x.who))
  have hz : (u.setZone z (ZoneDyn.without x.who)).zone z = (u.zone z).without x.who := (setZone_zone _ _ _ _ hl).trans (if_pos rfl)
  have hd : ((dropWaiter z x.who c).st.zone z).holder = some g := by
    rw [h1.state.zone, hz]
    exact hh
  have h2 := h1.preempts (z := z) (by rw [hz]; simp [ZoneDyn.without, hw]) causeZone x g
  have hbc := BareLines.of_lc (s := u) (t := (preempted z causeZone x g (dropWaiter z x.who c)).st) hb h2.state.lc
  have hev : (preempted z causeZone x g (dropWaiter z x.who c)).st.eventNo = u.eventNo := h2.state.eventNo
  unfold grantZone
  simp only [hd]
  rw [if_neg (by rw [hx]; exact nofun), watchEarlier_of_unhindered (.inr (by exact hbc)), hev]
  have h3 := ((h2.upd (riFree_setZone z fun d => { d with reserved := none })).say
    (.zone x.who z .granted)).changesHolder (z := z) (by exact hs) (by exact hb) (some { x with grantEv := u.eventNo })
  rw [setZone_setZone, setZone_setZone, setZone_setZone] at h3
  exact h3

end

end Sys2Proof.Machine
end

