-- ==== Sys2Proof/Proofs/ContestClaims.lean ====
section
/-! SUPPORT. Claims on a held zone (R66, R68), in quiet surroundings: it is taken, waited for or not had. -/

namespace Sys2Proof.Machine
open Sys2Proof

/-! ### Wait lists -/

/-- R68: a claim goes behind those it is not before and before the others. -/
theorem insertClaim_between {x : Claim} {us vs : List Claim} (hu : ∀ u, u ∈ us → x.before u = false) (hv : ∀ v, v ∈ vs → x.before v = true) :
    insertClaim x (us ++ vs) = us ++ x :: vs := by
  induction us with
  | nil =>
    cases vs with
    | nil => rfl
    | cons v vs => exact if_pos (hv v List.mem_cons_self)
  | cons u us ih =>
    rw [List.cons_append, insertClaim, if_neg (by rw [hu u List.mem_cons_self]; exact nofun), ih fun y hy => hu y (List.mem_cons_of_mem _ hy)]
    rfl

/-- The claim of a newcomer, with its arrival number. -/
def Claim.arriving (x : Claim) (s : State) : Claim := { x with arrival := s.za.arrival }

/-- R68: a newcomer goes behind the claims of its level and better, and before the worse. -/
theorem arriving_between {x : Claim} {s : State} {us vs : List Claim}
    (h : (∀ u, u ∈ us → u.level < x.level ∨ (u.level = x.level ∧ u.arrival ≤ s.za.arrival)) ∧ ∀ v, v ∈ vs → x.level < v.level) :
    insertClaim (x.arriving s) (us ++ vs) = us ++ x.arriving s :: vs := by
  refine insertClaim_between (fun u hu => ?_) fun v hv => ?_
  · unfold Claim.before Claim.arriving
    rw [Bool.or_eq_false_iff, Bool.and_eq_false_iff]
    obtain hlt | ⟨heq, harr⟩ := h.1 u hu
    · exact ⟨decide_eq_false (Nat.not_lt.2 hlt.le), .inl (beq_eq_false_iff_ne.2 hlt.ne')⟩
    · exact ⟨decide_eq_false (Nat.not_lt.2 heq.le), .inr (decide_eq_false (Nat.not_lt.2 harr))⟩
  · have := h.2 v hv
    simp [Claim.before, Claim.arriving, this]

section
variable {u : State} {as : List Ans} {ws : List Work} {c : Ctx} (h : Amid u as ws c)
include h

/-- R68: a claim joins a wait list that has room. -/
theorem Amid.joins {z : Nat} (hw : (u.zone z).waiters.length < 4) (x : Claim) (ok : Answer) :
    Amid (u.setZone z fun d => { d with waiters := insertClaim x d.waiters }) (as ++ [.zone x.who z ok]) ws (joinList z x ok c) := by
  unfold joinList
  dsimp only
  rw [h.state.zone, if_pos (by exact hw)]
  exact (h.upd (riFree_setZone z _)).say _

/-- R68: a claim takes the place of the worst of four waiters. -/
theorem Amid.joins_full {z : Nat} {vs : List Claim} {w : Claim} (hw : (u.zone z).waiters = vs ++ [w]) (hlen : vs.length = 3) {x : Claim}
    (hx : x.level < w.level) (ok : Answer) :
    Amid (u.setZone z fun d => { d.without w.who with waiters := insertClaim x (d.without w.who).waiters })
      (as ++ [.zone w.who z (.lost .waitFull)] ++ [.zone x.who z ok]) ws (joinList z x ok c) := by
  have h1 : Amid (u.setZone z (ZoneDyn.without w.who)) as ws (dropWaiter z w.who c) := h.upd (riFree_setZone z (ZoneDyn.without w.who))
  have h2 := ((h1.say (.zone w.who z (.lost .waitFull))).upd (riFree_setZone z fun d => { d with waiters := insertClaim x d.waiters })).say (.zone x.who z ok)
  rw [setZone_setZone] at h2
  unfold joinList
  dsimp only
  rw [h.state.zone, hw, if_neg (by simp [hlen, Config.waitCapacity]), List.getLast?_append]
  dsimp only [List.getLast?_singleton, Option.some_or]
  rw [if_pos hx]
  exact h2

/-- R68: four claims that are no worse wait, and a fifth is turned away. -/
theorem Amid.joins_not {z : Nat} {vs : List Claim} {w : Claim} (hw : (u.zone z).waiters = vs ++ [w]) (hlen : vs.length = 3) {x : Claim}
    (hx : w.level ≤ x.level) (ok : Answer) : Amid u (as ++ [.zone x.who z (.lost .waitFull)]) ws (joinList z x ok c) := by
  unfold joinList
  dsimp only
  rw [h.state.zone, hw, if_neg (by simp [hlen, Config.waitCapacity]), List.getLast?_append]
  dsimp only [List.getLast?_singleton, Option.some_or]
  rw [if_neg (Nat.not_lt.2 hx)]
  exact h.say _

/-- R70, R73: with no candidate settlement lets a feed lapse, and no more. -/
theorem Amid.settles (hn : ∀ y, (u.zone y).holder = none → (u.zone y).candidate = none) (b : Nat) : ∃ fs, Amid (u.feedsTo fs) as ws (settle b c) := by
  rw [settle_of_none (by rw [h.state.zone]; exact hn)]
  obtain ⟨fs, he⟩ := feedLapse_feeds b c
  rw [he]
  exact ⟨fs, h.upd (riFree_feedsTo fs)⟩

variable {z : Nat}

/-- R64, R65: a claim on a zone in contest is decided, and the building settled. -/
theorem Amid.claim_eq {x : Claim} (hx : Contest z u) (hh : ∀ g, (u.zone z).holder = some g → g.who ≠ x.who) (hw : ∀ w, w ∈ (u.zone z).waiters → w.who ≠ x.who) :
    claim z x c = settle (u.buildingOf z) (decideClaim z (x.arriving u) (c.upd State.arrived)) := by
  have hk := hx.of_riOnly h.state
  have hz : c.st.zone z = u.zone z := congrFun h.state.zone z
  have hne : c.st.zoneState z ≠ .out ∧ c.st.zoneState z ≠ .silenced := by
    cases hg : (c.st.zone z).holder with
    | none =>
      rw [zoneState_of_free hk.enabled hg]
      exact ⟨nofun, nofun⟩
    | some g =>
      have hf := hk.noFire.2 g hg
      rw [zoneState_of_held hk.enabled hg]
      cases hwho : g.who with
      | fire => exact absurd hwho hf
      | bell n => exact ⟨nofun, nofun⟩
      | ann n => exact ⟨nofun, nofun⟩
      | drill n => exact ⟨nofun, nofun⟩
  have hnext : (c.upd fun s => { s with za := { s.za with arrival := c.st.za.arrival + 1 } }) = c.upd State.arrived := rfl
  have hbld : c.st.buildingOf z = u.buildingOf z := by
    unfold State.buildingOf
    rw [h.state.zoneRec]
  have harr : c.st.za.arrival = u.za.arrival := by rw [h.state.za]
  unfold claim
  dsimp only
  rw [if_neg (by
      rw [hz]
      cases hg : (u.zone z).holder with
      | none => exact nofun
      | some g => simpa using hh g hg),
    if_neg (by rw [hz]; simpa using hw), if_neg (by simp [hne.1, hk.range]), if_neg (by simp [hne.2, hk.noFire.1])]
  rw [hnext, hbld, harr]
  rfl

/-! ### Decisions on a held zone -/

section
variable {g x : Claim} (hg : (u.zone z).holder = some g)
include hg

theorem Amid.decides_better (hx : x.level < g.level) (hq : x.speaking = false) : decideClaim z x c = grantZone z x c := by
  unfold decideClaim takeOrBlock
  dsimp only
  rw [h.state.zone, hg]
  dsimp only
  have hfree : feedTest c.st (c.st.buildingOf z) x = .free := by
    unfold feedTest
    rw [hq]
    rfl
  rw [if_pos hx, hfree]

theorem Amid.decides_worse (hx : g.level ≤ x.level) : ∃ r, decideClaim z x c = waitOrLose z x r c := by
  unfold decideClaim
  dsimp only
  rw [h.state.zone, hg]
  exact ⟨_, if_neg (Nat.not_lt.2 hx)⟩

end

/-! ### Claims on a held zone -/

omit h in
/-- With its zone held no claim in a contest is a candidate. -/
theorem Contest.no_candidate {v : State} (hx : Contest z u) (hheld : (v.zone z).holder ≠ none) (hsame : ∀ y, y ≠ z → v.zone y = u.zone y) :
    ∀ y, (v.zone y).holder = none → (v.zone y).candidate = none := by
  intro y hy
  by_cases hz : y = z
  · exact absurd (hz ▸ hy) hheld
  · rw [hsame y hz]
    exact candidate_of_noWaiter (hx.alone y hz)

/-- A claim by what its decision makes of the zone, which is then held. -/
theorem Amid.claim_decided {x : Claim} (hx : Contest z u) (hh : ∀ g, (u.zone z).holder = some g → g.who ≠ x.who)
    (hw : ∀ w, w ∈ (u.zone z).waiters → w.who ≠ x.who) {f : ZoneDyn → ZoneDyn} {bs : List Ans} {d : ZoneDyn}
    (hd : Amid (u.arrived.setZone z f) bs ws (decideClaim z (x.arriving u) (c.upd State.arrived)))
    (hf : f (u.zone z) = d) (hheld : d.holder ≠ none) : ∃ fs, Amid (u.zoneAs z d fs) bs ws (claim z x c) := by
  have hl : z < u.arrived.za.zones.length := lt_of_lt_of_eq hx.range hx.counts.zones.symm
  have hz : (u.arrived.setZone z f).zone z = d := (setZone_zone _ _ _ _ hl).trans ((if_pos rfl).trans hf)
  obtain ⟨fs, hs⟩ := hd.settles (hx.no_candidate (by rw [hz]; exact hheld) fun y hy => (setZone_zone _ _ _ _ hl).trans (if_neg hy)) (u.buildingOf z)
  rw [zoneAs_of_setZone hf] at hs
  rw [h.claim_eq hx hh hw]
  exact ⟨fs, hs⟩

section
variable {g x : Claim} (hx : Contest z u) (hg : (u.zone z).holder = some g) (hne : g.who ≠ x.who) (hw : ∀ w, w ∈ (u.zone z).waiters → w.who ≠ x.who)
include hx hg hne hw

/-- A claim on a held zone, by what its decision makes of the zone, which stays held. -/
theorem Amid.claim_held {f : ZoneDyn → ZoneDyn} {bs : List Ans} {d : ZoneDyn} (hd : Amid (u.arrived.setZone z f) bs ws (decideClaim z (x.arriving u) (c.upd State.arrived)))
    (hf : f (u.zone z) = d) (hheld : d.holder ≠ none) : ∃ fs, Amid (u.zoneAs z d fs) bs ws (claim z x c) :=
  h.claim_decided hx (fun _ hk => Option.some.inj (hg.symm.trans hk) ▸ hne) hw hd hf hheld

/-- R66, R67: a better claim that does not speak takes a zone that nobody waits for. -/
theorem Amid.claim_takes (hlev : x.level < g.level) (hq : x.speaking = false) (hnw : (u.zone z).waiters = []) :
    ∃ fs, Amid (u.zoneAs z ⟨some (x.holding u), g.rejoining u.elapsed, none, .quiet⟩ fs)
      (as ++ [.zone g.who z (.preempted x.who !(g.rejoining u.elapsed).isEmpty)] ++ [.zone x.who z .granted]) ws (claim z x c) := by
  have h1 := h.upd riFree_arrived
  refine h.claim_held hx hg hne hw (f := fun _ => ⟨some (x.holding u), g.rejoining u.elapsed, none, .quiet⟩) ?_ rfl nofun
  rw [h1.decides_better (x := x.arriving u) hg hlev hq]
  exact h1.grants_held (x := x.arriving u) (hx.silentLine z) hx.bare (lt_of_lt_of_eq hx.range hx.counts.zones.symm) hq hg hnw

/-- R66: a claim that is no better and may not wait is lost. -/
theorem Amid.claim_loses (hlev : g.level ≤ x.level) (hm : x.mayWait = false) :
    ∃ fs r, Amid (u.zoneAs z (u.zone z) fs) (as ++ [.zone x.who z (.lost r)]) ws (claim z x c) := by
  have h1 := h.upd riFree_arrived
  obtain ⟨r, hr⟩ := h1.decides_worse (x := x.arriving u) hg hlev
  obtain ⟨fs, hfs⟩ := h.claim_held hx hg hne hw (f := id) (bs := as ++ [.zone x.who z (.lost r)]) (by
    rw [hr, setZone_id]
    unfold waitOrLose
    rw [if_neg (by rw [show (x.arriving u).mayWait = false from hm]; exact nofun)]
    exact h1.say _) rfl (by rw [show (id (u.zone z)).holder = (u.zone z).holder from rfl, hg]; exact nofun)
  exact ⟨fs, r, hfs⟩

/-- R66, R68: a claim that is no better, and may wait, joins the wait list where it has room. -/
theorem Amid.claim_waits (hlev : g.level ≤ x.level) (hm : x.mayWait = true) (hroom : (u.zone z).waiters.length < 4) :
    ∃ fs, Amid (u.zoneAs z { u.zone z with waiters := insertClaim (x.arriving u) (u.zone z).waiters } fs) (as ++ [.zone x.who z .waiting]) ws
      (claim z x c) := by
  have h1 := h.upd riFree_arrived
  obtain ⟨r, hr⟩ := h1.decides_worse (x := x.arriving u) hg hlev
  refine h.claim_held hx hg hne hw (f := fun d => { d with waiters := insertClaim (x.arriving u) d.waiters }) ?_ rfl (by rw [hg]; exact nofun)
  rw [hr]
  unfold waitOrLose
  rw [if_pos (show (x.arriving u).mayWait = true from hm)]
  exact h1.joins hroom (x.arriving u) .waiting

variable {vs : List Claim} {w : Claim} (hlast : (u.zone z).waiters = vs ++ [w]) (hlen : vs.length = 3)
include hlast hlen

/-- R68: a claim that is no better than four waiters is turned away. -/
theorem Amid.claim_full (hlev : g.level ≤ x.level) (hm : x.mayWait = true) (hwl : w.level ≤ x.level) :
    ∃ fs, Amid (u.zoneAs z (u.zone z) fs) (as ++ [.zone x.who z (.lost .waitFull)]) ws (claim z x c) := by
  have h1 := h.upd riFree_arrived
  obtain ⟨r, hr⟩ := h1.decides_worse (x := x.arriving u) hg hlev
  refine h.claim_held hx hg hne hw (f := id) ?_ rfl (by rw [hg]; exact nofun)
  rw [hr, setZone_id]
  unfold waitOrLose
  rw [if_pos (show (x.arriving u).mayWait = true from hm)]
  exact h1.joins_not hlast hlen (x := x.arriving u) hwl .waiting

/-- R68: a claim better than the worst of four waiters takes its place in the list. -/
theorem Amid.claim_replaces (hlev : g.level ≤ x.level) (hm : x.mayWait = true) (hwl : x.level < w.level) :
    ∃ fs, Amid (u.zoneAs z { (u.zone z).without w.who with waiters := insertClaim (x.arriving u) ((u.zone z).without w.who).waiters } fs)
      (as ++ [.zone w.who z (.lost .waitFull)] ++ [.zone x.who z .waiting]) ws (claim z x c) := by
  have h1 := h.upd riFree_arrived
  obtain ⟨r, hr⟩ := h1.decides_worse (x := x.arriving u) hg hlev
  refine h.claim_held hx hg hne hw (f := fun d => { d.without w.who with waiters := insertClaim (x.arriving u) (d.without w.who).waiters }) ?_ rfl
    (by rw [show ({ (u.zone z).without w.who with waiters := insertClaim (x.arriving u) ((u.zone z).without w.who).waiters } : ZoneDyn).holder =
      (u.zone z).holder from rfl, hg]; exact nofun)
  rw [hr]
  unfold waitOrLose
  rw [if_pos (show (x.arriving u).mayWait = true from hm)]
  exact h1.joins_full hlast hlen (x := x.arriving u) hwl .waiting

end

end

end Sys2Proof.Machine
end

