-- ==== Sys2Proof/Proofs/ContestFeeds.lean ====
section
/-! SUPPORT. Contests over a building's feed (R73, R74), and the release of a zone that others wait for (R70). -/

namespace Sys2Proof.Machine
open Sys2Proof

/-! ### Candidates and feeds -/

theorem keepsCandidate_of_none {d : ZoneDyn} (h : d.waiters = []) (k : Claimant) : KeepsCandidate k d :=
  (candidate_of_noWaiter (d := { d with reserved := some k }) h).trans (candidate_of_noWaiter h).symm

theorem candidate_of_single {d : ZoneDyn} {w : Claim} (h : d.waiters = [w]) : d.candidate = some w := by
  unfold ZoneDyn.candidate
  rw [h]
  cases d.reserved with
  | none => rfl
  | some k => cases hk : w.who == k <;> simp [List.find?, hk]

theorem keepsCandidate_of_single {d : ZoneDyn} {w : Claim} (h : d.waiters = [w]) (k : Claimant) : KeepsCandidate k d :=
  (candidate_of_single (d := { d with reserved := some k }) h).trans (candidate_of_single h).symm

theorem candidate_of_reserved {d : ZoneDyn} {w : Claim} {ws : List Claim} (h : d.waiters = w :: ws) (hr : d.reserved = some w.who) :
    d.candidate = some w := by
  unfold ZoneDyn.candidate
  rw [h, hr]
  simp

theorem keepsCandidate_of_reserved {d : ZoneDyn} {k : Claimant} (h : d.reserved = some k) : KeepsCandidate k d := by
  unfold KeepsCandidate
  rw [← h]

theorem candidate_of_unreserved {d : ZoneDyn} {w : Claim} {ws : List Claim} (h : d.waiters = w :: ws) (hr : d.reserved = none) :
    d.candidate = some w := by
  unfold ZoneDyn.candidate
  rw [h, hr]
  rfl

/-- R73: a feed whose holder speaks in a zone of the building stays. -/
theorem feedLapse_of_kept {c : Ctx} {b y : Nat} {f : FeedHolder} {g : Claim} (hf : c.st.za.feeds.getD b none = some f) (hy : y < 64)
    (hb : (c.st.zoneRec y).building = b) (hg : (c.st.zone y).holder = some g) (hs : g.speaking = true) (hw : g.who = f.who) : feedLapse b c = c := by
  unfold feedLapse
  rw [hf]
  refine if_pos (List.any_eq_true.2 ⟨y, ?_, ?_⟩)
  · unfold State.zonesOfBuilding
    simp [hy, hb]
  · simp [hg, hs, hw]

theorem filterMap_of_single {α β : Type} {f : α → Option β} {a : α} {r : β} (ha : f a = some r) : ∀ {l : List α}, l.Nodup → a ∈ l →
    (∀ y, y ∈ l → y ≠ a → f y = none) → l.filterMap f = [r] := by
  intro l
  induction l with
  | nil => exact fun _ h => absurd h List.not_mem_nil
  | cons x l ih =>
    intro hnd hmem hne
    obtain ⟨hx, hnd⟩ := List.nodup_cons.1 hnd
    by_cases hxa : x = a
    · subst hxa
      rw [List.filterMap_cons_some ha, List.filterMap_eq_nil_iff.2 fun y hy => hne y (List.mem_cons_of_mem _ hy) fun h => hx (h ▸ hy)]
    · rw [List.filterMap_cons_none (hne x List.mem_cons_self hxa)]
      exact ih hnd ((List.mem_cons.1 hmem).resolve_left fun h => hxa h.symm) fun y hy => hne y (List.mem_cons_of_mem _ hy)

/-- The one candidate of a building. -/
theorem candidates_of_single {s : State} {z : Nat} {w : Claim} (hz : z < 64) (he : (s.zoneRec z).enabled = true) (hh : (s.zone z).holder = none)
    (hw : (s.zone z).candidate = some w) (ho : ∀ y, y ≠ z → (s.zone y).waiters = []) : candidates s (s.buildingOf z) = [(z, w)] := by
  refine filterMap_of_single (a := z) ?_ (List.nodup_range.filter _) ?_ fun y _ hy => ?_
  · rw [if_pos (by simp [he, hh]), hw]
    rfl
  · unfold State.zonesOfBuilding State.buildingOf
    simp [hz]
  · rw [candidate_of_noWaiter (ho y hy)]
    exact ite_self _

/-! ### Settlement and release -/

/-- A settlement has given a zone so, and the feeds have these holders. -/
def State.zoneGiven (z : Nat) (d : ZoneDyn) (fs : List (Option FeedHolder)) (s : State) : State := (s.setZone z fun _ => d).feedsTo fs

theorem zoneGiven_zone {s : State} {z : Nat} (h : z < s.za.zones.length) (d : ZoneDyn) (fs : List (Option FeedHolder)) (y : Nat) :
    (s.zoneGiven z d fs).zone y = if y = z then d else s.zone y := setZone_zone s z y (fun _ => d) h

theorem zoneGiven_of_setZone {s : State} {z : Nat} {f : ZoneDyn → ZoneDyn} {d : ZoneDyn} {fs : List (Option FeedHolder)} :
    (s.setZone z f).zoneGiven z d fs = s.zoneGiven z d fs := congrArg (State.feedsTo fs) (setZone_setZone z f (fun _ => d) s)

section
variable {u : State} {as : List Ans} {ws : List Work} {c : Ctx} (h : Amid u as ws c)
include h

/-- R70: where every candidate of a building is one claimant that its feed, which is kept, blocks, their zones are reserved for it. -/
theorem Amid.settles_blocked {b y : Nat} {f : FeedHolder} {g : Claim} {k : Claimant} (hlen : u.za.zones.length = 64)
    (hf : u.za.feeds.getD b none = some f) (hy : y < 64) (hb : (u.zoneRec y).building = b) (hg : (u.zone y).holder = some g) (hs : g.speaking = true)
    (hw : g.who = f.who) (hk : f.who ≠ k)
    (hcand : ∀ x w, (u.zone x).holder = none → (u.zone x).candidate = some w → w.speaking = true ∧ w.who = k ∧ f.level ≤ w.level)
    (hkeep : ∀ x, (u.zone x).holder = none → KeepsCandidate k (u.zone x)) :
    Amid (u.reserve k ((candidates u b).map (·.1))) as ws (settle b c) := by
  have hz := h.state.zone
  have hr := h.state.zoneRec
  have hc : candidates c.st b = candidates u b := by
    unfold candidates State.zonesOfBuilding
    rw [hz, hr]
  have hfc : c.st.za.feeds.getD b none = some f := h.state.za ▸ hf
  have hblocked : AllBlocked k b c.st := by
    rintro ⟨x, w⟩ hp
    obtain ⟨-, -, -, h4, h5⟩ := mem_candidates.1 hp
    obtain ⟨h1, h2, h3⟩ := hcand x w (hz ▸ h4) (hz ▸ h5)
    refine ⟨h1, h2, ?_⟩
    unfold feedTest
    rw [if_pos h1, hfc]
    dsimp only
    rw [if_neg (by rw [h2]; exact hk), if_neg (Nat.not_lt.2 h3)]
  rw [settle_of_blocked (feedLapse_of_kept hfc hy (hr ▸ hb) (hz ▸ hg) hs hw) (h.state.za ▸ hlen) hblocked (hz ▸ hkeep), hc]
  exact h.upd (riFree_reserve k _)

/-- R70: the first waiter of a zone that nobody holds, who does not speak, is granted it. -/
theorem Amid.settles_quiet {z : Nat} {w : Claim} {vs : List Claim} (hx : Contest z u) (hg : (u.zone z).holder = none)
    (hw : (u.zone z).waiters = w :: vs) (hr : (u.zone z).reserved = none) (hq : w.speaking = false) (hne : ∀ v, v ∈ vs → v.who ≠ w.who) :
    ∃ fs, Amid (u.zoneGiven z ⟨some { w with grantEv := u.eventNo }, vs, none, .quiet⟩ fs) (as ++ [.zone w.who z .granted]) ws
      (settle (u.buildingOf z) c) := by
  have hl : z < u.za.zones.length := lt_of_lt_of_eq hx.range hx.counts.zones.symm
  obtain ⟨fs, hlapse⟩ : ∃ fs, feedLapse (u.buildingOf z) c = c.upd (State.feedsTo fs) := feedLapse_feeds _ _
  have h1 := h.upd (riFree_feedsTo fs)
  rw [← hlapse] at h1
  have hone : candidates (feedLapse (u.buildingOf z) c).st (u.buildingOf z) = [(z, w)] := by
    have hz : (feedLapse (u.buildingOf z) c).st.zone = u.zone := h1.state.zone
    have hb : (feedLapse (u.buildingOf z) c).st.buildingOf z = u.buildingOf z := congrArg ZoneRec.building (congrFun h1.state.zoneRec z)
    have hc := candidates_of_single hx.range (h1.state.zoneRec ▸ hx.enabled) (hz ▸ hg) (hz ▸ candidate_of_unreserved hw hr) fun y hy => hz ▸ hx.alone y hy
    rwa [hb] at hc
  have hdrop : ((u.zone z).without w.who).waiters = vs := by
    have : (w :: vs).filter (fun v => v.who != w.who) = vs := by
      rw [List.filter_cons_of_neg (by simp)]
      exact List.filter_eq_self.2 fun v hv => by simpa using hne v hv
    exact (congrArg (List.filter fun v => v.who != w.who) hw).trans this
  have h2 := h1.grants_unheld (z := z) (x := w) (hx.silentLine z) hx.bare hl hg
  rw [if_neg (by rw [hq]; exact nofun)] at h2
  have heq : (u.feedsTo fs).setZone z (fun d => ⟨some { w with grantEv := u.eventNo }, (d.without w.who).waiters, none, .quiet⟩) =
      u.zoneGiven z ⟨some { w with grantEv := u.eventNo }, vs, none, .quiet⟩ fs :=
    congrArg (State.feedsTo fs) (setZone_congr (by rw [hdrop]))
  have h3 : Amid (u.zoneGiven z ⟨some { w with grantEv := u.eventNo }, vs, none, .quiet⟩ fs) (as ++ [.zone w.who z .granted]) ws
      (grantZone z w (feedLapse (u.buildingOf z) c)) := heq ▸ h2
  refine ⟨fs, ?_⟩
  rw [settle_of_quiet_one hone hq rfl]
  · exact h3
  · refine candidates_none ?_ _
    rw [h3.state.zone]
    exact hx.no_candidate (by rw [zoneGiven_zone hl, if_pos rfl]; exact nofun) fun y hy => (zoneGiven_zone hl _ _ y).trans (if_neg hy)

omit h in
/-- A zone stays in contest where fire does not come to hold it. -/
theorem Contest.setZone {z : Nat} (hx : Contest z u) {f : ZoneDyn → ZoneDyn} (hf : ∀ g, (f (u.zone z)).holder = some g → g.who ≠ .fire) :
    Contest z (u.setZone z f) := by
  have hl : z < u.za.zones.length := lt_of_lt_of_eq hx.range hx.counts.zones.symm
  have hz : ∀ y, (u.setZone z f).zone y = if y = z then f (u.zone z) else u.zone y := fun y => setZone_zone _ _ _ _ hl
  refine ⟨?_, hx.range, hx.enabled, ⟨hx.noFire.1, fun g hg => ?_⟩, fun y hy => ?_, hx.silentLine, hx.bare⟩
  · exact ⟨(List.length_modify ..).trans hx.counts.zones, hx.counts.feeds, hx.counts.channels, hx.counts.circuits, hx.counts.lines, hx.counts.inputs,
      hx.counts.outputs⟩
  · rw [hz, if_pos rfl] at hg
    exact hf g hg
  · rw [hz, if_neg hy]
    exact hx.alone y hy

/-- R70: at the release of a zone its first waiter, who does not speak, is granted it. -/
theorem Amid.releases {z : Nat} {g w : Claim} {vs : List Claim} (hx : Contest z u) (hg : (u.zone z).holder = some g)
    (hw : (u.zone z).waiters = w :: vs) (hr : (u.zone z).reserved = none) (hq : w.speaking = false) (hne : ∀ v, v ∈ vs → v.who ≠ w.who) :
    ∃ fs, Amid (u.zoneGiven z ⟨some { w with grantEv := u.eventNo }, vs, none, .quiet⟩ fs) (as ++ [.zone w.who z .granted]) ws
      (releaseZone z g.who c) := by
  have hl : z < u.za.zones.length := lt_of_lt_of_eq hx.range hx.counts.zones.symm
  have h1 : Amid (u.setZone z ZoneDyn.released) as ws (changeHolder z none c) := h.changesHolder (hx.silentLine z) hx.bare none
  have hz : (u.setZone z ZoneDyn.released).zone z = (u.zone z).released := (setZone_zone _ _ _ _ hl).trans (if_pos rfl)
  obtain ⟨fs, h2⟩ := h1.settles_quiet (hx.setZone nofun) (by rw [hz]; rfl) (by rw [hz]; exact hw) (by rw [hz]; exact hr) hq hne
  rw [zoneGiven_of_setZone] at h2
  have hbld : c.st.buildingOf z = u.buildingOf z := by
    unfold State.buildingOf
    rw [h.state.zoneRec]
  refine ⟨fs, ?_⟩
  unfold releaseZone
  rw [if_pos (by rw [h.state.zone, hg]; simp), hbld]
  exact h2

end

end Sys2Proof.Machine
end

