-- ==== Sys2Proof/Proofs/FeedContests.lean ====
section
/-! SUPPORT. Claims on a zone that nobody holds while its building's feed is held (R66, R74), in quiet surroundings. -/

namespace Sys2Proof.Machine
open Sys2Proof

theorem takeOrBlock_of_quiet {z : Nat} {x : Claim} (hq : x.speaking = false) (c : Ctx) : takeOrBlock z x c = grantZone z x c := by
  have hfree : feedTest c.st (c.st.buildingOf z) x = .free := by
    unfold feedTest
    rw [hq]
    rfl
  unfold takeOrBlock
  dsimp only
  rw [hfree]

/-- R74: a speaking claim that is no better than the holder of the feed is blocked by it. -/
theorem feedTest_blocked {s : State} {b : Nat} {x : Claim} {f : FeedHolder} (hs : x.speaking = true) (hf : s.za.feeds.getD b none = some f)
    (hw : f.who ≠ x.who) (hl : f.level ≤ x.level) : feedTest s b x = .blocked := by
  unfold feedTest
  rw [if_pos hs, hf]
  dsimp only
  rw [if_neg hw, if_neg (Nat.not_lt.2 hl)]

theorem feedTest_worse {s : State} {b : Nat} {x : Claim} {f : FeedHolder} (hs : x.speaking = true) (hf : s.za.feeds.getD b none = some f)
    (hw : f.who ≠ x.who) (hl : x.level < f.level) : feedTest s b x = .worse f.who := by
  unfold feedTest
  rw [if_pos hs, hf]
  dsimp only
  rw [if_neg hw, if_pos hl]

section
variable {u : State} {as : List Ans} {ws : List Work} {c : Ctx} (h : Amid u as ws c) {z : Nat} {x : Claim} (hg : (u.zone z).holder = none)
include h hg

/-! ### Decisions on a zone that nobody holds -/

theorem Amid.decides_free (hn : (u.zone z).candidate = none) : decideClaim z x c = takeOrBlock z x c := by
  unfold decideClaim
  dsimp only
  rw [h.state.zone, hg, hn]

theorem Amid.decides_behind {w : Claim} (hn : (u.zone z).candidate = some w) (hl : w.level ≤ x.level) : decideClaim z x c = waitOrLose z x .held c := by
  unfold decideClaim
  dsimp only
  rw [h.state.zone, hg, hn]
  exact if_neg (Nat.not_lt.2 hl)

theorem Amid.decides_past {w : Claim} (hn : (u.zone z).candidate = some w) (hl : x.level < w.level) :
    decideClaim z x c = takeOrBlock z x (c.upd (State.setZone z fun d => { d with reserved := none })) := by
  unfold decideClaim
  dsimp only
  rw [h.state.zone, hg, hn]
  exact if_pos hl

/-! ### Claims that the feed's holder blocks -/

section
variable (hx : Contest z u) (hw : ∀ w, w ∈ (u.zone z).waiters → w.who ≠ x.who)
include hx hw

/-- A claim that leaves its zone to nobody, for a claimant that the feed's holder blocks. -/
theorem Amid.claim_blocked {e : ZoneDyn → ZoneDyn} {d : ZoneDyn} {bs : List Ans} {k : Claimant} {f : FeedHolder}
    (hd : Amid (u.arrived.setZone z e) bs ws (decideClaim z (x.arriving u) (c.upd State.arrived))) (he : e (u.zone z) = d) (hh : d.holder = none)
    (hf : FeedHeld (u.buildingOf z) f u) (hk : f.who ≠ k) (hcand : ∀ w, d.candidate = some w → w.speaking = true ∧ w.who = k ∧ f.level ≤ w.level)
    (hkeep : KeepsCandidate k d) :
    ∃ t, Amid t bs ws (claim z x c) ∧ t.zone z = (if d.candidate = none then d else { d with reserved := some k })
      ∧ (∀ y, y ≠ z → t.zone y = u.zone y) ∧ t.za.feeds = u.za.feeds := by
  have hl : z < u.arrived.za.zones.length := lt_of_lt_of_eq hx.range hx.counts.zones.symm
  have hlen : (u.arrived.setZone z e).za.zones.length = 64 := (List.length_modify ..).trans hx.counts.zones
  have hz : (u.arrived.setZone z e).zone z = d := (setZone_zone _ _ _ _ hl).trans ((if_pos rfl).trans he)
  have ho : ∀ y, y ≠ z → (u.arrived.setZone z e).zone y = u.zone y := fun y hy => (setZone_zone _ _ _ _ hl).trans (if_neg hy)
  obtain ⟨y, g, hy, hgy, hgw, hgb⟩ := hf.some
  have hyz : y ≠ z := fun hyz => by
    rw [hyz, hg] at hgy
    cases hgy
  have hsp := (hf.zones y g hgy hgw hgb).1
  have none_of (v : Nat) (hv : v ≠ z) : ((u.arrived.setZone z e).zone v).candidate = none := by
    rw [ho v hv]
    exact candidate_of_noWaiter (hx.alone v hv)
  have hs := hd.settles_blocked (b := u.buildingOf z) (k := k) hlen hf.feed hy hgb (by rw [ho y hyz]; exact hgy) hsp hgw hk
    (fun v w _ hc => by
      by_cases hv : v = z
      · rw [hv, hz] at hc
        exact hcand w hc
      · rw [none_of v hv] at hc
        cases hc)
    (fun v _ => by
      by_cases hv : v = z
      · rw [hv, hz]
        exact hkeep
      · rw [ho v hv]
        exact keepsCandidate_of_none (hx.alone v hv) k)
  rw [h.claim_eq hx (fun v hv => by rw [hg] at hv; cases hv) hw]
  refine ⟨_, hs, ?_, fun v hv => ?_, rfl⟩
  · rw [reserve_zone fun v hv => lt_of_lt_of_eq (mem_candidates_fst.1 hv).1 hlen.symm, hz]
    by_cases hc : d.candidate = none
    · rw [if_neg fun hm => (mem_candidates_fst.1 hm).2.2.2.2 (by rw [hz]; exact hc), if_pos hc]
    · rw [if_pos ((mem_candidates_fst (s := u.arrived.setZone z e) (b := u.buildingOf z)).2 ⟨hx.range, rfl, hx.enabled, by rw [hz]; exact hh, by rw [hz]; exact hc⟩), if_neg hc]
  · rw [reserve_zone fun v hv => lt_of_lt_of_eq (mem_candidates_fst.1 hv).1 hlen.symm,
      if_neg fun hm => (mem_candidates_fst.1 hm).2.2.2.2 (none_of v hv)]
    exact ho v hv

/-! #### A zone reserved for a speaking waiter -/

section
variable {v : Claim} {f : FeedHolder} (hv : (u.zone z).waiters = [v]) (hr : (u.zone z).reserved = some v.who)
include hv hr

/-- R66: on a zone reserved for a waiter a better claim that does not speak is granted, and the waiter waits on. -/
theorem Amid.claim_passes (hlev : x.level < v.level) (hq : x.speaking = false) :
    ∃ fs, Amid (u.zoneAs z ⟨some (x.holding u), [v], none, .quiet⟩ fs) (as ++ [.zone x.who z .granted]) ws (claim z x c) := by
  have hl : z < u.za.zones.length := lt_of_lt_of_eq hx.range hx.counts.zones.symm
  have h1 := h.upd riFree_arrived
  have h2 := h1.upd (riFree_setZone z fun d => { d with reserved := none })
  have h3 := h2.grants_unheld (z := z) (x := x.arriving u) (hx.silentLine z) hx.bare (by exact lt_of_lt_of_eq hl (List.length_modify ..).symm)
    (congrArg ZoneDyn.holder ((setZone_zone u.arrived z z _ hl).trans (if_pos rfl)) |>.trans hg)
  rw [if_neg (by rw [show (x.arriving u).speaking = false from hq]; exact nofun), setZone_setZone] at h3
  refine h.claim_decided hx (fun k hk => by rw [hg] at hk; cases hk) hw ?_ ?_ nofun
    (f := fun d => ⟨some (x.holding u), (({ d with reserved := none } : ZoneDyn).without x.who).waiters, none, .quiet⟩) (d := ⟨some (x.holding u), [v], none, .quiet⟩)
  · rw [h1.decides_past (x := x.arriving u) hg (candidate_of_reserved hv hr) hlev, takeOrBlock_of_quiet (x := x.arriving u) hq]
    exact h3
  · have : ([v] : List Claim).filter (fun w => w.who != x.who) = [v] :=
      List.filter_eq_self.2 fun w hw' => by simpa using hw w (hv ▸ hw')
    simp only [ZoneDyn.without, hv, this]

variable (hsp : v.speaking = true) (hf : FeedHeld (u.buildingOf z) f u) (hne : f.who ≠ v.who) (hfl : f.level ≤ v.level)
include hsp hf hne hfl

/-- R66, R68: a claim no better than that waiter joins the wait list behind it. -/
theorem Amid.claim_queues (hlev : v.level ≤ x.level) (hm : x.mayWait = true) (harr : v.arrival ≤ u.za.arrival) :
    ∃ t bs, Amid t bs ws (claim z x c) ∧ t.zone z = { u.zone z with waiters := [v, x.arriving u] } ∧ ∀ y, y ≠ z → t.zone y = u.zone y := by
  have h1 := h.upd riFree_arrived
  have hc := candidate_of_reserved hv hr
  have hins : insertClaim (x.arriving u) [v] = [v, x.arriving u] :=
    arriving_between (us := [v]) (vs := []) ⟨fun w hw' => by rw [List.mem_singleton.1 hw']; omega, fun w hw' => absurd hw' List.not_mem_nil⟩
  have hcand : ({ u.zone z with waiters := [v, x.arriving u] } : ZoneDyn).candidate = some v := candidate_of_reserved (ws := [x.arriving u]) rfl hr
  obtain ⟨t, ht, htz, hto, -⟩ := h.claim_blocked hg hx hw (e := fun d => { d with waiters := insertClaim (x.arriving u) d.waiters }) (k := v.who)
    (d := { u.zone z with waiters := [v, x.arriving u] }) (by
      rw [h1.decides_behind (x := x.arriving u) hg hc hlev]
      unfold waitOrLose
      rw [if_pos (show (x.arriving u).mayWait = true from hm)]
      exact h1.joins (z := z) (by exact lt_of_eq_of_lt (congrArg List.length hv) (by simp)) (x.arriving u) .waiting)
    (by rw [hv, hins]) hg hf hne
    (fun w hw' => by rw [hcand] at hw'; cases hw'; exact ⟨hsp, rfl, hfl⟩) (keepsCandidate_of_reserved hr)
  refine ⟨t, _, ht, ?_, hto⟩
  rw [htz, hcand, if_neg nofun, ← hr]

/-- R66: a claim no better than that waiter, which may not wait, is lost. -/
theorem Amid.claim_lost (hlev : v.level ≤ x.level) (hm : x.mayWait = false) :
    ∃ t bs, Amid t bs ws (claim z x c) ∧ ∀ y, t.zone y = u.zone y := by
  have h1 := h.upd riFree_arrived
  have hc := candidate_of_reserved hv hr
  obtain ⟨t, ht, htz, hto, -⟩ := h.claim_blocked hg hx hw (e := id) (k := v.who) (d := u.zone z) (bs := as ++ [.zone x.who z (.lost .held)]) (by
      rw [h1.decides_behind (x := x.arriving u) hg hc hlev, setZone_id]
      unfold waitOrLose
      rw [if_neg (by rw [show (x.arriving u).mayWait = false from hm]; exact nofun)]
      exact h1.say _)
    rfl hg hf hne (fun w hw' => by rw [hc] at hw'; cases hw'; exact ⟨hsp, rfl, hfl⟩) (keepsCandidate_of_reserved hr)
  refine ⟨t, _, ht, fun y => ?_⟩
  by_cases hy : y = z
  · rw [hy, htz, hc, if_neg nofun, ← hr]
  · exact hto y hy

end

/-! #### A speaking claim on a free zone whose building's feed is held -/

section
variable {f : FeedHolder} (hnw : (u.zone z).waiters = []) (hsp : x.speaking = true) (hf : FeedHeld (u.buildingOf z) f u) (hne : f.who ≠ x.who)
include hnw hsp hf hne

/-- R74: a speaking claim that the feed's holder blocks leaves its zone IDLE, reserved for it if it waits. -/
theorem Amid.claim_reserves (hlev : f.level ≤ x.level) : ∃ t bs, Amid t bs ws (claim z x c) ∧ t.za.feeds = u.za.feeds
    ∧ t.zone z = (if x.mayWait = true then { u.zone z with waiters := [x.arriving u], reserved := some x.who } else u.zone z)
    ∧ ∀ y, y ≠ z → t.zone y = u.zone y := by
  have h1 := h.upd riFree_arrived
  have hbld : (c.upd State.arrived).st.buildingOf z = u.buildingOf z := congrArg ZoneRec.building (congrFun h1.state.zoneRec z)
  have htest : feedTest (c.upd State.arrived).st (u.buildingOf z) (x.arriving u) = .blocked :=
    feedTest_blocked (x := x.arriving u) hsp (by rw [h1.state.za]; exact hf.feed) hne hlev
  have hdec : decideClaim z (x.arriving u) (c.upd State.arrived) = if x.mayWait = true then
      preemptOut z causeZone (x.arriving u) (joinList z (x.arriving u) .waiting (c.upd State.arrived))
      else (c.upd State.arrived).say (.zone x.who z (.lost .feed)) := by
    rw [h1.decides_free (x := x.arriving u) hg (candidate_of_noWaiter hnw)]
    unfold takeOrBlock
    dsimp only
    rw [hbld, htest]
    rfl
  by_cases hm : x.mayWait = true
  · have hcand : ({ u.zone z with waiters := [x.arriving u] } : ZoneDyn).candidate = some (x.arriving u) := candidate_of_single rfl
    have h2 := h1.joins (z := z) (by exact lt_of_eq_of_lt (congrArg List.length hnw) (by decide)) (x.arriving u) .waiting
    have hl : z < u.za.zones.length := lt_of_lt_of_eq hx.range hx.counts.zones.symm
    obtain ⟨t, ht, htz, hto, htf⟩ := h.claim_blocked hg hx hw (e := fun d => { d with waiters := insertClaim (x.arriving u) d.waiters }) (k := x.who)
      (d := { u.zone z with waiters := [x.arriving u] }) (by
        rw [hdec, if_pos hm]
        unfold preemptOut
        rw [h2.state.zone, setZone_zone u.arrived z z _ hl, if_pos rfl, show (State.zone u.arrived z) = u.zone z from rfl, hg]
        exact h2)
      (by rw [hnw]; rfl) hg hf hne
      (fun w hw' => by rw [hcand] at hw'; cases hw'; exact ⟨hsp, rfl, hlev⟩) (keepsCandidate_of_single rfl _)
    refine ⟨t, _, ht, htf, ?_, hto⟩
    rw [htz, hcand, if_neg nofun, if_pos hm]
  · obtain ⟨t, ht, htz, hto, htf⟩ := h.claim_blocked hg hx hw (e := id) (k := x.who) (d := u.zone z) (bs := as ++ [.zone x.who z (.lost .feed)]) (by
        rw [hdec, if_neg hm, setZone_id]
        exact h1.say _)
      rfl hg hf hne (fun w hw' => by rw [candidate_of_noWaiter hnw] at hw'; cases hw') (keepsCandidate_of_none hnw _)
    refine ⟨t, _, ht, htf, ?_, hto⟩
    rw [htz, if_pos (candidate_of_noWaiter hnw), if_neg hm]

end

end

end

end Sys2Proof.Machine
end

