-- ==== Sys2Proof/Proofs/FeedPreempts.lean ====
section
/-! SUPPORT. A speaking claim that takes a building's feed from a worse holder (R74), in quiet surroundings. -/

namespace Sys2Proof.Machine
open Sys2Proof

/-- A zone that a claimant holds is taken from it, and its claim rejoins the empty wait list or has ended (R67). -/
def ZoneDyn.ousted (now : Nat) (who : Claimant) (d : ZoneDyn) : ZoneDyn :=
  match d.holder with
  | some g => if g.who = who then { d with holder := none, waiters := g.rejoining now, cadence := .quiet } else d
  | none => d

theorem ousted_of_holder {now : Nat} {d : ZoneDyn} {g : Claim} (hg : d.holder = some g) :
    d.ousted now g.who = { d with holder := none, waiters := g.rejoining now, cadence := .quiet } := by
  unfold ZoneDyn.ousted
  rw [hg]
  exact if_pos rfl

theorem ousted_of_other {now : Nat} {who : Claimant} {d : ZoneDyn} (h : ∀ g, d.holder = some g → g.who ≠ who) : d.ousted now who = d := by
  unfold ZoneDyn.ousted
  split
  · next g hg => exact if_neg (h g hg)
  · rfl

theorem ousted_of_unheld {now : Nat} {who : Claimant} {d : ZoneDyn} (h : d.holder = none) : d.ousted now who = d :=
  ousted_of_other fun g hg => by
    rw [h] at hg
    cases hg

/-- What the walk over a building's zones keeps: every item but the zones, no waiter for a zone that is held, and the claimed zone unheld. -/
structure Ousting (z : Nat) (s v : State) : Prop where
  only : v = { s with za := { s.za with zones := v.za.zones } }
  length : v.za.zones.length = 64
  unheld : (v.zone z).holder = none
  alone : ∀ y g, (v.zone y).holder = some g → (v.zone y).waiters = []

theorem Ousting.setZone {z y : Nat} {s v : State} (h : Ousting z s v) (hy : y < 64) (who : Claimant) :
    Ousting z s (v.setZone y (ZoneDyn.ousted s.elapsed who)) := by
  have hz : ∀ x, (v.setZone y (ZoneDyn.ousted s.elapsed who)).zone x = if x = y then (v.zone y).ousted s.elapsed who else v.zone x := fun x =>
    setZone_zone _ _ _ _ (lt_of_lt_of_eq hy h.length.symm)
  refine ⟨congrArg (State.setZone y (ZoneDyn.ousted s.elapsed who)) h.only, (List.length_modify ..).trans h.length, ?_, fun x g hg => ?_⟩
  · rw [hz]
    split
    · next hzy => rw [← hzy, ousted_of_unheld h.unheld, h.unheld]
    · exact h.unheld
  · rw [hz] at hg ⊢
    split at hg
    · next hxy =>
      rw [if_pos hxy]
      cases hh : (v.zone y).holder with
      | none =>
        rw [ousted_of_unheld hh, hh] at hg
        cases hg
      | some k =>
        by_cases hk : k.who = who
        · rw [← hk, ousted_of_holder hh] at hg
          cases hg
        · rw [ousted_of_other fun e he => by rw [hh] at he; cases he; exact hk]
          exact h.alone y k hh
    · next hxy =>
      rw [if_neg hxy]
      exact h.alone x g hg

section
variable {u : State} {as : List Ans} {ws : List Work} {c : Ctx} (h : Amid u as ws c)
include h

/-- R67: a zone is taken from its holder and left without one. -/
theorem Amid.ousts {y : Nat} {g : Claim} (hg : (u.zone y).holder = some g) (hw : (u.zone y).waiters = []) (hs : (u.zoneRec y).sounds = false)
    (hb : BareLines u) (cause : Nat) (x : Claim) : ∃ bs, Amid (u.setZone y (ZoneDyn.ousted u.elapsed g.who)) bs ws (preemptOut y cause x c) := by
  have h1 := (h.preempts hw cause x g).changesHolder (z := y) (by exact hs) (by exact hb) none
  rw [setZone_setZone, setZone_congr (g := ZoneDyn.ousted u.elapsed g.who) (ousted_of_holder hg).symm] at h1
  unfold preemptOut
  rw [h.state.zone, hg]
  exact ⟨_, h1⟩

/-- R74: a feed's holder loses its zones of the building. -/
theorem Amid.feedPreempts {z : Nat} (hx : Contest z u) (hg : (u.zone z).holder = none) (hw : (u.zone z).waiters = []) (b : Nat) (who : Claimant) (x : Claim) :
    ∃ v bs, Amid v bs ws (feedPreempt b who (some z) x c) ∧ Ousting z u v
      ∧ ∀ y, v.zone y = if y < 64 ∧ (u.zoneRec y).building = b then (u.zone y).ousted u.elapsed who else u.zone y := by
  have hlist : c.st.zonesOfBuilding b = u.zonesOfBuilding b := by
    unfold State.zonesOfBuilding
    rw [h.state.zoneRec]
  have hmem : ∀ y, y ∈ u.zonesOfBuilding b ↔ y < 64 ∧ (u.zoneRec y).building = b := fun y => by
    unfold State.zonesOfBuilding
    simp
  obtain ⟨v, ⟨bs, hv⟩, hok, hin, hout⟩ := each_places (n := 64) (fun v d => ∃ bs, Amid v bs ws d) State.setZone State.zone (Ousting z u)
    (fun _ d d' => d' = d.ousted u.elapsed who)
    (fun y c => if (c.st.zone y).holder.any (fun h => h.who == who) && some z != some y then preemptOut y causeFeed x c else c)
    (fun v y f hv hy => (setZone_zone _ _ _ _ (lt_of_lt_of_eq hy hv.length.symm)).trans (if_pos rfl)) (fun v y j f hj => getD_modify_ne _ hj f _)
    (fun v d y hy hv hd => by
      obtain ⟨bs, hd⟩ := hd
      refine ⟨ZoneDyn.ousted u.elapsed who, ?_, hv.setZone hy who, rfl⟩
      rw [hd.state.zone]
      cases hh : (v.zone y).holder with
      | none =>
        rw [if_neg (by simp), setZone_congr (g := id) (ousted_of_unheld hh), setZone_id]
        exact ⟨bs, hd⟩
      | some k =>
        by_cases hk : k.who = who
        · have hyz : z ≠ y := fun hyz => by
            rw [← hyz, hv.unheld] at hh
            cases hh
          have hel : v.elapsed = u.elapsed := by rw [hv.only]
          rw [if_pos (by simp [hk, hyz]), ← hk, ← hel]
          exact hd.ousts hh (hv.alone y k hh) (by rw [hv.only]; exact hx.silentLine y) (by rw [hv.only]; exact hx.bare) causeFeed x
        · rw [if_neg (by simp [hk]), setZone_congr (g := id) (ousted_of_other fun e he => by rw [hh] at he; cases he; exact hk), setZone_id]
          exact ⟨bs, hd⟩)
    (u.zonesOfBuilding b) u c (List.nodup_range.filter _) (fun y hy => ((hmem y).1 hy).1)
    ⟨rfl, hx.counts.zones, hg, fun y g hy => by
      by_cases hyz : y = z
      · rw [hyz]
        exact hw
      · exact hx.alone y hyz⟩ ⟨as, h⟩
  refine ⟨v, bs, ?_, hok, fun y => ?_⟩
  · unfold feedPreempt
    rw [hlist]
    exact hv
  · split
    · next hy => exact hin y ((hmem y).2 hy)
    · next hy => exact hout y fun k => hy ((hmem y).1 k)

end

end Sys2Proof.Machine
end

