-- ==== Sys2Proof/Proofs/FeedTakes.lean ====
section
/-! SUPPORT. R74: a better speaking claim takes the zone and the building's feed, whose holder loses its zones of the building. -/

namespace Sys2Proof.Machine
open Sys2Proof

theorem rejoining_cases (now : Nat) (g : Claim) : g.rejoining now = [] ∨ ∃ t, g.rejoining now = [{ g with waitLimit := some t }] := by
  rw [rejoining_eq]
  cases g.waitsTo now with
  | none => exact .inl rfl
  | some t => exact .inr ⟨t, rfl⟩

theorem Contest.arrived {z : Nat} {s : State} (h : Contest z s) : Contest z s.arrived :=
  ⟨⟨h.counts.zones, h.counts.feeds, h.counts.channels, h.counts.circuits, h.counts.lines, h.counts.inputs, h.counts.outputs⟩, h.range, h.enabled,
    h.noFire, h.alone, h.silentLine, h.bare⟩

/-- A claimant's claim on a zone of a building. -/
def HoldsIn (who : Claimant) (b : Nat) (s : State) (y : Nat) (g : Claim) : Prop :=
  y < 64 ∧ (s.zoneRec y).building = b ∧ (s.zone y).holder = some g ∧ g.who = who

/-- What the loss of a building's feed leaves of a zone: unheld if the feed's holder held it, else as it was. -/
structure Losing (b : Nat) (f : FeedHolder) (s : State) (d : Claim → ZoneDyn) (y : Nat) (e : ZoneDyn) : Prop where
  held : ∀ g, HoldsIn f.who b s y g → e = d g
  other : (¬ ∃ g, HoldsIn f.who b s y g) → e = s.zone y

/-- The zones of the building that the feed's holder held, as the loss of the feed leaves them. -/
theorem ousted_losing {b y : Nat} {f : FeedHolder} {s : State} (hf : FeedHeld b f s) : Losing b f s (fun g => ⟨none, g.rejoining s.elapsed, none, .quiet⟩) y
    (if y < 64 ∧ (s.zoneRec y).building = b then (s.zone y).ousted s.elapsed f.who else s.zone y) := by
  refine ⟨fun g hg => ?_, fun hn => ?_⟩
  · obtain ⟨h64, hb, hh, hw⟩ := hg
    obtain ⟨-, -, -, hr⟩ := hf.zones y g hh hw hb
    rw [if_pos ⟨h64, hb⟩, ← hw, ousted_of_holder hh, hr]
  · split
    · next hy => exact ousted_of_other fun g hg hw => hn ⟨g, hy.1, hy.2, hg, hw⟩
    · rfl

section
variable {u : State} {as : List Ans} {ws : List Work} {c : Ctx} (h : Amid u as ws c) {z : Nat} {x : Claim} {f : FeedHolder}
include h

/-- R74: the grant of the zone with the feed, before the building is settled. -/
theorem Amid.grants_feed (hx : Contest z u) (hg : (u.zone z).holder = none) (hnw : (u.zone z).waiters = []) (hsp : x.speaking = true)
    (hf : FeedHeld (u.buildingOf z) f u) (hne : f.who ≠ x.who) (hlev : x.level < f.level) :
    ∃ w bs, Amid w bs ws (decideClaim z (x.arriving u) (c.upd State.arrived)) ∧ w.za.zones.length = 64
      ∧ w.za.feeds = u.za.feeds.set (u.buildingOf z) (some ⟨x.who, x.level⟩) ∧ w.zoneRec = u.zoneRec
      ∧ w.zone z = ⟨some (x.holding u), [], none, .quiet⟩
      ∧ ∀ y, y ≠ z → Losing (u.buildingOf z) f u (fun g => ⟨none, g.rejoining u.elapsed, none, .quiet⟩) y (w.zone y) := by
  have h1 := h.upd riFree_arrived
  have hbld : (c.upd State.arrived).st.buildingOf z = u.buildingOf z := congrArg ZoneRec.building (congrFun h1.state.zoneRec z)
  have htest : feedTest (c.upd State.arrived).st (u.buildingOf z) (x.arriving u) = .worse f.who :=
    feedTest_worse (x := x.arriving u) hsp (by rw [h1.state.za]; exact hf.feed) hne hlev
  have hdec : decideClaim z (x.arriving u) (c.upd State.arrived) =
      grantZone z (x.arriving u) (feedPreempt (u.buildingOf z) f.who (some z) (x.arriving u) (c.upd State.arrived)) := by
    rw [h1.decides_free (x := x.arriving u) hg (candidate_of_noWaiter hnw)]
    unfold takeOrBlock
    dsimp only
    rw [hbld, htest]
  obtain ⟨v, bs, hv, hou, hzone⟩ := h1.feedPreempts hx.arrived hg hnw (u.buildingOf z) f.who (x.arriving u)
  have hvz : v.zone z = u.zone z := by
    rw [hzone]
    split
    · exact ousted_of_unheld hg
    · rfl
  have hl : z < v.za.zones.length := lt_of_lt_of_eq hx.range hou.length.symm
  have h2 := hv.grants_unheld (z := z) (x := x.arriving u) (by rw [hou.only]; exact hx.silentLine z) (by rw [hou.only]; exact hx.bare) hl hou.unheld
  rw [if_pos (show (x.arriving u).speaking = true from hsp), show v.buildingOf z = u.buildingOf z by rw [hou.only]; rfl,
    show v.eventNo = u.eventNo by rw [hou.only]; rfl] at h2
  have hl' : z < (v.setFeed (u.buildingOf z) (some ⟨x.who, x.level⟩)).za.zones.length := hl
  have hown : ((v.setFeed (u.buildingOf z) (some ⟨x.who, x.level⟩)).setZone z fun d =>
      ⟨some (x.holding u), (d.without x.who).waiters, none, .quiet⟩).zone z = ⟨some (x.holding u), [], none, .quiet⟩ := by
    rw [setZone_zone _ _ _ _ hl', if_pos rfl, show (v.setFeed (u.buildingOf z) (some ⟨x.who, x.level⟩)).zone z = v.zone z from rfl, hvz]
    simp only [ZoneDyn.without, hnw, List.filter_nil]
  refine ⟨_, _, hdec ▸ h2, (List.length_modify ..).trans hou.length, ?_, ?_, hown, fun y hy => ?_⟩
  · show v.za.feeds.set _ _ = _
    rw [hou.only]
    rfl
  · rw [hou.only]
    rfl
  · rw [setZone_zone _ _ _ _ hl', if_neg hy, show (v.setFeed (u.buildingOf z) _).zone y = v.zone y from rfl, hzone]
    exact ousted_losing hf

/-- R74: a better speaking claim takes the zone and the feed; the zones of the building that the feed's holder held are reserved for its claims that
still wait. -/
theorem Amid.claim_takes_feed (hx : Contest z u) (hg : (u.zone z).holder = none) (hnw : (u.zone z).waiters = []) (hsp : x.speaking = true)
    (hf : FeedHeld (u.buildingOf z) f u) (hne : f.who ≠ x.who) (hlev : x.level < f.level) :
    ∃ t bs, Amid t bs ws (claim z x c) ∧ t.za.feeds = u.za.feeds.set (u.buildingOf z) (some ⟨x.who, x.level⟩)
      ∧ t.zone z = ⟨some (x.holding u), [], none, .quiet⟩
      ∧ ∀ y, y ≠ z → Losing (u.buildingOf z) f u (fun g => ⟨none, g.rejoining u.elapsed, (g.rejoining u.elapsed).head?.map (·.who), .quiet⟩) y (t.zone y) := by
  obtain ⟨w, bs, hw, hlen, hfeeds, hrec, hown, hother⟩ := h.grants_feed hx hg hnw hsp hf hne hlev
  have hb8 : u.buildingOf z < u.za.feeds.length := lt_of_lt_of_eq hf.range hx.counts.feeds.symm
  have hfeed : w.za.feeds.getD (u.buildingOf z) none = some ⟨x.who, x.level⟩ := by
    rw [hfeeds]
    simp [hb8]
  have waits (y : Nat) (hy : y ≠ z) : (w.zone y).waiters = [] ∨ ∃ g t, HoldsIn f.who (u.buildingOf z) u y g ∧ (w.zone y).waiters = [{ g with waitLimit := some t }]
      ∧ w.zone y = ⟨none, g.rejoining u.elapsed, none, .quiet⟩ := by
    by_cases hh : ∃ g, HoldsIn f.who (u.buildingOf z) u y g
    · obtain ⟨g, hgy⟩ := hh
      have he := (hother y hy).held g hgy
      rw [he]
      exact (rejoining_cases u.elapsed g).imp id fun ⟨t, ht⟩ => ⟨g, t, hgy, ht, rfl⟩
    · rw [(hother y hy).other hh]
      exact .inl (hx.alone y hy)
  have hs := hw.settles_blocked (b := u.buildingOf z) (g := x.holding u) (k := f.who) hlen hfeed hx.range (congrFun hrec z ▸ rfl) (by rw [hown]) hsp rfl hne.symm
    (fun y v hy hc => by
      by_cases hyz : y = z
      · rw [hyz, hown] at hy
        cases hy
      · obtain hn | ⟨g, t, ⟨-, hgb, hgh, hgw⟩, ht, -⟩ := waits y hyz
        · rw [candidate_of_noWaiter hn] at hc
          cases hc
        · rw [candidate_of_single ht] at hc
          cases hc
          obtain ⟨h1, h2, -, -⟩ := hf.zones y g hgh hgw hgb
          exact ⟨h1, hgw, by show x.level ≤ g.level; omega⟩)
    (fun y hy => by
      by_cases hyz : y = z
      · rw [hyz, hown] at hy
        cases hy
      · obtain hn | ⟨g, t, -, ht, -⟩ := waits y hyz
        · exact keepsCandidate_of_none hn _
        · exact keepsCandidate_of_single ht _)
  have hmem (y : Nat) := mem_candidates_fst (s := w) (b := u.buildingOf z) (y := y)
  have hzone (y : Nat) := reserve_zone (s := w) (k := f.who) (zs := (candidates w (u.buildingOf z)).map (·.1))
    (fun v hv => lt_of_lt_of_eq ((hmem v).1 hv).1 hlen.symm) y
  rw [h.claim_eq hx (fun v hv => by rw [hg] at hv; cases hv) (by rw [hnw]; exact fun v hv => absurd hv List.not_mem_nil)]
  refine ⟨_, _, hs, hfeeds, ?_, fun y hy => ⟨fun g hgy => ?_, fun hn => ?_⟩⟩
  · rw [hzone, hown, if_neg fun hm => by have := ((hmem z).1 hm).2.2.2.1; rw [hown] at this; cases this]
  · have he := (hother y hy).held g hgy
    obtain ⟨h64, hgb, hgh, hgw⟩ := hgy
    rw [hzone, he]
    obtain hr | ⟨t, ht⟩ := rejoining_cases u.elapsed g
    · rw [if_neg fun hm => ((hmem y).1 hm).2.2.2.2 (by rw [he, hr]; exact candidate_of_noWaiter rfl), hr]
      rfl
    · rw [if_pos ((hmem y).2 ⟨h64, hrec ▸ hgb, hrec ▸ (hf.zones y g hgh hgw hgb).2.2.1, by rw [he],
        by rw [he, ht, candidate_of_single rfl]; exact nofun⟩), ht, ← hgw]
      rfl
  · rw [hzone, (hother y hy).other hn, if_neg fun hm => ((hmem y).1 hm).2.2.2.2 (by
      rw [(hother y hy).other hn]
      exact candidate_of_noWaiter (hx.alone y hy))]

end

end Sys2Proof.Machine
end

