-- ==== Sys2Proof/Proofs/ContestBells.lean ====
section
/-! SUPPORT. Bells that lose their only zone to others, and wait for it (R92 to R94). -/

namespace Sys2Proof.Machine
open Sys2Proof

/-! ### Other bells -/

theorem setBell_bell_ne {s : State} {n m : Nat} {f : Bell → Bell} (hf : ∀ x, (f x).num = x.num) (h : m ≠ n) : (s.setBell n f).bell? m = s.bell? m := by
  show (s.pu.bells.map fun b => if b.num = n then f b else b).find? (·.num == m) = s.pu.bells.find? (·.num == m)
  induction s.pu.bells with
  | nil => rfl
  | cons b bs ih =>
    rw [List.map_cons]
    by_cases hb : b.num = n
    · rw [if_pos hb, List.find?_cons_of_neg (by simp [hf, hb, h.symm]), List.find?_cons_of_neg (by simp [hb, h.symm]), ih]
    · rw [if_neg hb, List.find?_cons, List.find?_cons, ih]

theorem bellGone_bell {s : State} (n : Nat) : (s.bellGone n).bell? n = none :=
  List.find?_eq_none.2 fun b hb => by simpa using (List.mem_filter.1 hb).2

theorem bellGone_bell_ne {s : State} {n m : Nat} (h : m ≠ n) : (s.bellGone n).bell? m = s.bell? m := by
  show (s.pu.bells.filter fun e => e.num != n).find? (·.num == m) = s.pu.bells.find? (·.num == m)
  rw [List.find?_filter]
  congr 1
  funext b
  by_cases hb : b.num = m <;> simp [hb, h]

theorem bellAdded_bell_ne {s : State} {m : Nat} {b b0 : Bell} (h : s.bell? m = some b0) (src : BellSource) : (s.bellAdded src b).bell? m = some b0 := by
  show (s.pu.bells ++ [b]).find? (·.num == m) = some b0
  rw [List.find?_append, show s.pu.bells.find? (·.num == m) = some b0 from h]
  rfl

theorem bell_num_ne {s : State} {n m : Nat} {b : Bell} (hn : freeBell s.pu.bells = some n) (hb : s.bell? m = some b) : m ≠ n := fun h => by
  subst h
  exact freeBell_spec hn b (List.mem_of_find?_eq_some hb) (bell_num hb)

/-! ### Answers to a bell of one zone -/

/-- R92: the bell waits for a zone. -/
def Bell.waitingIn (z : Nat) (b : Bell) : Bell := b.setZone z fun e => { e with st := .waiting }

/-- R93: why a bell whose claim has ended at its preemption is lost. -/
def oustedReason : Claimant → BellReason
  | .drill _ => .drill
  | _ => .preempted

/-- An answer to one bell has changed its record, or taken it away: `b` is what stands of it. -/
structure BellNow (n : Nat) (b : Option Bell) (s t : State) : Prop where
  only : t = { s with pu := t.pu }
  pattern : t.pattern = s.pattern
  bell : t.bell? n = b
  others : ∀ m, m ≠ n → t.bell? m = s.bell? m

section
variable {u : State} {as : List Ans} {ws : List Work} {c : Ctx} (h : Amid u as ws c) {n z : Nat} {b : Bell} {e : BellZone} (hb : u.bell? n = some b)
  (hz : b.zones = [e]) (he : e.zone = z)
include h hb

/-- R92: a bell that waits for its zone. -/
theorem Amid.bell_waiting {a : Answer} (ha : a = .waiting ∨ ∃ new, a = .preempted new true) :
    Amid (u.setBell n (Bell.waitingIn z)) as ws (handleAns (.zone (.bell n) z a) c) := by
  have hx : handleAns (.zone (.bell n) z a) c = c.upd (State.setBell n (Bell.waitingIn z)) := by
    show bellAnswer n z a c = _
    unfold bellAnswer
    rw [congrFun h.state.bell n, hb]
    obtain rfl | ⟨new, rfl⟩ := ha <;> rfl
  rw [hx]
  exact h.upd (riFree_setBell n _)

include hz he

/-- R93: a bell whose claim has ended at its preemption. -/
theorem Amid.bell_ousted (new : Claimant) : Amid (u.bellGone n) as ws (handleAns (.zone (.bell n) z (.preempted new false)) c) := by
  have hx : handleAns (.zone (.bell n) z (.preempted new false)) c = Machine.bellLose n z (oustedReason new) c := by
    show bellAnswer n z (.preempted new false) c = _
    unfold bellAnswer
    rw [congrFun h.state.bell n, hb]
    cases new <;> rfl
  rw [hx]
  exact h.bellLose hb hz he _

/-- R92, R93: a preempted bell waits for its zone, or has ended. -/
theorem Amid.bell_preempted (new : Claimant) (k : Bool) : ∃ v, Amid v as ws (handleAns (.zone (.bell n) z (.preempted new k)) c)
    ∧ BellNow n (if k = true then some { b with zones := [{ e with st := .waiting }] } else none) u v := by
  cases k with
  | true =>
    refine ⟨_, h.bell_waiting hb (.inr ⟨new, rfl⟩), rfl, rfl, ?_, fun m hm => setBell_bell_ne (f := Bell.waitingIn z) (fun _ => rfl) hm⟩
    rw [setBell_bell (f := Bell.waitingIn z) (fun _ => rfl) hb, Bell.waitingIn, Bell.setZone_of_single hz he]
    rfl
  | false => exact ⟨_, h.bell_ousted hb hz he new, rfl, rfl, bellGone_bell n, fun m hm => bellGone_bell_ne hm⟩

end

/-- A bell's rejoining claim has its deadline as its wait limit. -/
theorem rejoining_of_deadline {g : Claim} {now deadline : Nat} (h : g.onPreempt = .waitUntil deadline) :
    g.rejoining now = if now < deadline then [{ g with waitLimit := some deadline }] else [] := by
  unfold Claim.rejoining
  rw [h]

end Sys2Proof.Machine
end

