-- ==== Sys2Proof/Proofs/ContestRings.lean ====
section
/-! SUPPORT. RING on a zone that a bell holds (R66, R88 to R94). -/

namespace Sys2Proof.Machine
open Sys2Proof

/-! ### A bell that loses its zone -/

/-- R92, R93: what a bell that has lost its only zone to another leaves: its claim waits until its deadline, or it has ended. -/
structure ZoneTaken (n z deadline : Nat) (b : Bell) (e : BellZone) (g : Claim) (s t : State) : Prop where
  waits : s.elapsed < deadline → (t.zone z).waiters = [{ g with waitLimit := some deadline }] ∧ t.bell? n = some { b with zones := [{ e with st := .waiting }] }
  ended : deadline ≤ s.elapsed → (t.zone z).waiters = [] ∧ t.bell? n = none
  others : ∀ y, y ≠ z → t.zone y = s.zone y

theorem ZoneTaken.of_zone {n z deadline : Nat} {b : Bell} {e : BellZone} {g : Claim} {s t : State} (hp : g.onPreempt = .waitUntil deadline)
    (hw : (t.zone z).waiters = g.rejoining s.elapsed)
    (hb : t.bell? n = if (!(g.rejoining s.elapsed).isEmpty) = true then some { b with zones := [{ e with st := .waiting }] } else none)
    (ho : ∀ y, y ≠ z → t.zone y = s.zone y) : ZoneTaken n z deadline b e g s t := by
  have hr := rejoining_of_deadline (now := s.elapsed) hp
  refine ⟨fun hd => ?_, fun hd => ?_, ho⟩
  · rw [if_pos hd] at hr
    rw [hr] at hw hb
    exact ⟨hw, hb⟩
  · rw [if_neg (Nat.not_lt.2 hd)] at hr
    rw [hr] at hw hb
    exact ⟨hw, hb⟩

section
variable {u : State} {ws : List Work} {c : Ctx} {z n0 deadline : Nat} {b0 : Bell} {e : BellZone} {g x : Claim} {w : Work}

/-- R66, R67, R92: a better claim that does not speak takes the zone from a bell, which is told before the claim is answered. -/
theorem Amid.takes_from_bell (h : Amid u [] (w :: ws) c) (hn : ∀ q n, w ≠ .startAnswer q n) (hx : Contest z u) (hb : BellHolds n0 z deadline b0 e g u)
    (hnw : (u.zone z).waiters = []) (hne : x.who ≠ .bell n0) (hlev : x.level < g.level) (hq : x.speaking = false)
    (hw : doWork w { c with todo := [] } = claim z x { c with todo := [] }) :
    ∃ d v fs, Leads 2 c d ∧ Framed c.st d.st ∧ Amid v [.zone x.who z .granted] ws d
      ∧ BellNow n0 (if (!(g.rejoining u.elapsed).isEmpty) = true then some { b0 with zones := [{ e with st := .waiting }] } else none)
        (u.zoneAs z ⟨some (x.holding u), g.rejoining u.elapsed, none, .quiet⟩ fs) v := by
  obtain ⟨fs, h1⟩ := h.alone.claim_takes hx hb.holder (by rw [hb.who]; exact hne.symm) (by rw [hnw]; exact fun y hy => absurd hy List.not_mem_nil) hlev hq hnw
  rw [← hw, hb.who] at h1
  obtain ⟨d1, hl1, hf1, h2⟩ := h.passesCall hn h1
  obtain ⟨v, hv, hnow⟩ := (h2.dropAns [.zone x.who z .granted]).bell_preempted (n := n0) hb.bell hb.zones hb.zone x.who
    (!(g.rejoining u.elapsed).isEmpty)
  obtain ⟨d2, hl2, hf2, h3⟩ := h2.passesAns hv
  exact ⟨d2, v, fs, hl1.trans hl2, hf1.trans hf2, h3, hnow⟩

end

/-! ### RING -/

/-- A RING of one zone that passes its checks has begun its bell, which has still to claim the zone. -/
theorem ring_begins {q : ReqHdr} {p : RingParams} {s : State} {z n : Nat} (hr : s.reaches q = true) (hlog : LogSound s.ri) (h : ¬ ringOutOfRange p)
    (hb : ¬ ringBad p s) (hz : z < 64) (ht : ringTarget p s = BitVec.twoPow 64 z) (hn : freeBell s.pu.bells = some n) :
    ∃ c b, exec (.ring q p) s = .next c.close ∧ Decided q (ringOutcome p) [numWord n, numWord 1] s c.close
      ∧ Amid ((s.taking q).bellAdded (.ring q.tag) b) [] [.bellClaim n z] c ∧ b.num = n ∧ b.level = p.level ∧ b.pattern = p.pattern
      ∧ b.deadline = s.elapsed + 1000 * min p.defer 120 ∧ b.zones = [⟨z, .waiting, false, 0⟩] := by
  have hzs : zonesOf (ringTarget p s) = [z] := (congrArg zonesOf ht).trans (zonesOf_twoPow hz)
  have hd : decideRing q p (s.deciding q) = (bellStart (.ring q.tag) (ringTarget p s) p.pattern p.level (min p.defer 120)
      (clampNat 1 600 p.duration) (s.deciding q)).upd (State.answer q (ringOutcome p) [numWord n, numWord 1]) := by
    refine (decideRing_accepted (c := s.deciding q) h hb hn).trans ?_
    rw [show ringTarget p (s.deciding q).st = ringTarget p s from rfl, hzs]
    rfl
  obtain ⟨hx, hdec⟩ := exec_passed (i := .ring q p) rfl hr hlog hd (bellStart_cturn (CTurn.refl _)) (by simp)
  have h1 := ((amid_deciding q s).bellStart hn (.ring q.tag) (ringTarget p s) p.pattern p.level (min p.defer 120)
    (clampNat 1 600 p.duration)).answer q (ringOutcome p) [numWord n, numWord 1]
  rw [hzs] at h1
  refine ⟨_, _, hx, hdec, h1, rfl, rfl, rfl, rfl, ?_⟩
  rw [newBell, hzs]
  rfl

section
variable {s : State} {q : ReqHdr} {src : BellSource} {b : Bell} {z : Nat} {c : Ctx}

/-- A zone stays in contest when a bell starts. -/
theorem Contest.ringing (h : Contest z s) : Contest z ((s.taking q).bellAdded src b) :=
  ⟨⟨h.counts.zones, h.counts.feeds, h.counts.channels, h.counts.circuits, h.counts.lines, h.counts.inputs, h.counts.outputs⟩, h.range, h.enabled,
    h.noFire, h.alone, h.silentLine, h.bare⟩

theorem BellHolds.ringing {n0 deadline : Nat} {b0 : Bell} {e : BellZone} {g : Claim} (h : BellHolds n0 z deadline b0 e g s) :
    BellHolds n0 z deadline b0 e g ((s.taking q).bellAdded src b) :=
  ⟨bellAdded_bell_ne (s := s.taking q) h.bell src, h.zones, h.zone, h.sounded, h.holder, h.who, h.quiet, h.onPreempt, h.unreserved⟩

end

/-- A state differs from another in ZA and PU alone. -/
structure ZonesAndBells (s t : State) : Prop where
  eq : t = { s with za := t.za, pu := t.pu }

theorem ZonesAndBells.trans {s t u : State} (h : ZonesAndBells s t) (k : ZonesAndBells t u) : ZonesAndBells s u := ⟨by rw [k.eq, h.eq]⟩

/-- A bell of one zone that has still to claim it, from another bell that holds it and that nobody waits behind. -/
structure BellContest (z : Nat) (b : Bell) (n0 deadline : Nat) (b0 : Bell) (e : BellZone) (g : Claim) (u : State) : Prop where
  contest : Contest z u
  holds : BellHolds n0 z deadline b0 e g u
  noWaiters : (u.zone z).waiters = []
  bell : u.bell? b.num = some b
  ne : n0 ≠ b.num
  zones : b.zones = [⟨z, .waiting, false, 0⟩]

section
variable {u : State} {b : Bell} {z : Nat} {c : Ctx} {n0 deadline : Nat} {b0 : Bell} {e : BellZone} {g : Claim}
  (h : Amid u [] [.bellClaim b.num z] c) (hu : BellContest z b n0 deadline b0 e g u)
include h hu

theorem Amid.bellClaim_eq : doWork (.bellClaim b.num z) { c with todo := [] } = claim z (b.claimAt u.elapsed) { c with todo := [] } := by
  show Machine.bellClaim b.num z _ = _
  have hb : ({ c with todo := [] } : Ctx).st.bell? b.num = some b := (congrFun h.state.bell b.num).trans hu.bell
  unfold Machine.bellClaim
  rw [hb]
  exact congrArg (fun t => claim z ⟨.bell b.num, b.level, false, t < b.deadline, some b.deadline, .waitUntil b.deadline, some ⟨b.pattern, b.length⟩, 0, 0⟩
    { c with todo := [] }) h.state.elapsed

omit h in
theorem BellContest.length : z < u.za.zones.length := lt_of_lt_of_eq hu.contest.range hu.contest.counts.zones.symm

omit h in
theorem BellContest.others {w : Claim} (hw : w ∈ (u.zone z).waiters) : w.who ≠ .bell b.num := by
  rw [hu.noWaiters] at hw
  exact absurd hw List.not_mem_nil

omit h in
theorem BellContest.who : g.who ≠ (b.claimAt u.elapsed).who := by
  rw [hu.holds.who]
  exact fun hw => hu.ne (Claimant.bell.inj hw)

/-- R66, R90: a bell at a better level takes the zone and sounds there. -/
theorem Amid.ring_takes (hlev : b.level < g.level) : ∃ d t k, Leads 3 c d ∧ Amid t [] [] d ∧ ZoneTaken n0 z deadline b0 e g u t
    ∧ ZonesAndBells u t ∧ (t.zone z).holder = some k ∧ k.who = .bell b.num ∧ k.level = b.level
    ∧ (t.zone z).cadence = (u.pattern b.pattern).cadenceAt 0 ∧ t.bell? b.num = some { b with zones := [⟨z, .sounding, true, u.elapsed⟩] } := by
  obtain ⟨d1, v, fs, hl1, -, h1, hnow⟩ := h.takes_from_bell nofun hu.contest hu.holds hu.noWaiters (x := b.claimAt u.elapsed)
    (fun hw => hu.ne (Claimant.bell.inj hw).symm) hlev rfl (h.bellClaim_eq hu)
  have hvz (y : Nat) : v.zone y = if y = z then ⟨some ((b.claimAt u.elapsed).holding u), g.rejoining u.elapsed, none, .quiet⟩ else u.zone y := by
    rw [hnow.only]
    exact zoneAs_zone hu.length _ fs y
  have hvb : v.bell? b.num = some b := (hnow.others b.num hu.ne.symm).trans hu.bell
  have hown := (hvz z).trans (if_pos rfl)
  obtain ⟨d2, hl2, h2⟩ := h1.takesAns ((h1.dropAns []).bell_granted (n := b.num) hvb (by rw [hnow.only]; exact hu.contest.silentLine z)
    (congrArg ZoneDyn.holder hown) rfl)
  have hvl : z < (v.setBell b.num (Bell.soundingIn z v.elapsed)).za.zones.length := by
    rw [hnow.only]
    exact lt_of_lt_of_eq hu.length (List.length_modify ..).symm
  have htz (y : Nat) := setZone_zone (v.setBell b.num (Bell.soundingIn z v.elapsed)) z y (fun d => { d with cadence := (v.pattern b.pattern).cadenceAt 0 }) hvl
  have htown := ((htz z).trans (if_pos rfl)).trans (congrArg (fun d : ZoneDyn => { d with cadence := (v.pattern b.pattern).cadenceAt 0 }) hown)
  have hvu : ZonesAndBells u v := ⟨by
    rw [hnow.only]
    rfl⟩
  have hel : v.elapsed = u.elapsed := by rw [hvu.eq]
  refine ⟨d2, _, _, hl1.trans hl2, h2, ?_, ?_, congrArg ZoneDyn.holder htown, rfl, rfl, ?_, ?_⟩
  · refine .of_zone hu.holds.onPreempt (congrArg ZoneDyn.waiters htown) ?_ fun y hy => ?_
    · exact (setBell_bell_ne (s := v) (n := b.num) (f := Bell.soundingIn z v.elapsed) (fun _ => rfl) hu.ne).trans hnow.bell
    · exact ((htz y).trans (if_neg hy)).trans ((hvz y).trans (if_neg hy))
  · exact hvu.trans ⟨rfl⟩
  · rw [htown, hnow.pattern]
    rfl
  · refine (setBell_bell (s := v) (f := Bell.soundingIn z v.elapsed) (fun _ => rfl) hvb).trans ?_
    rw [Bell.soundingIn, Bell.setZone_of_single hu.zones rfl, hel]

/-- R92: a bell at no better level waits for the zone. -/
theorem Amid.ring_waits (hlev : g.level ≤ b.level) (hd : u.elapsed < b.deadline) : ∃ d t w, Leads 2 c d ∧ Amid t [] [] d
    ∧ ZonesAndBells u t ∧ t.zone z = { u.zone z with waiters := [w] } ∧ w.who = .bell b.num ∧ w.level = b.level
    ∧ w.waitLimit = some b.deadline ∧ t.pu = (u.setBell b.num (Bell.waitingIn z)).pu ∧ ∀ y, y ≠ z → t.zone y = u.zone y := by
  obtain ⟨fs, h1⟩ := h.alone.claim_waits (x := b.claimAt u.elapsed) hu.contest hu.holds.holder hu.who (fun _ hw => hu.others hw) hlev
    (decide_eq_true hd) (lt_of_eq_of_lt (congrArg List.length hu.noWaiters) (by simp))
  rw [← h.bellClaim_eq hu] at h1
  obtain ⟨d1, hl1, h2⟩ := h.takesCall h1
  obtain ⟨d2, hl2, h3⟩ := h2.takesAns ((h2.dropAns []).bell_waiting (n := b.num) (b := b) hu.bell (.inl rfl))
  have hz (y : Nat) := zoneAs_zone (s := u) hu.length { u.zone z with waiters := insertClaim ((b.claimAt u.elapsed).arriving u) (u.zone z).waiters } fs y
  refine ⟨d2, _, (b.claimAt u.elapsed).arriving u, hl1.trans hl2, h3, ⟨rfl⟩, ?_, rfl, rfl, rfl, rfl, fun y hy => (hz y).trans (if_neg hy)⟩
  refine ((hz z).trans (if_pos rfl)).trans ?_
  rw [hu.noWaiters]
  rfl

/-- R94: a bell at no better level that may not wait is missed, and has ended. -/
theorem Amid.ring_misses (hlev : g.level ≤ b.level) (hd : b.deadline ≤ u.elapsed) : ∃ d t, Leads 2 c d ∧ Amid t [] [] d
    ∧ ZonesAndBells u t ∧ t.pu = (u.bellGone b.num).pu ∧ ∀ y, t.zone y = u.zone y := by
  obtain ⟨fs, r, h1⟩ := h.alone.claim_loses (x := b.claimAt u.elapsed) hu.contest hu.holds.holder hu.who (fun _ hw => hu.others hw) hlev
    (decide_eq_false (Nat.not_lt.2 hd))
  rw [← h.bellClaim_eq hu] at h1
  obtain ⟨d1, hl1, h2⟩ := h.takesCall h1
  obtain ⟨d2, hl2, h3⟩ := h2.takesAns ((h2.dropAns []).bell_lost (n := b.num) (b := b) hu.bell hu.zones rfl r)
  refine ⟨d2, _, hl1.trans hl2, h3, ⟨rfl⟩, rfl, fun y => ?_⟩
  refine (zoneAs_zone (s := u) hu.length _ fs y).trans ?_
  split
  · next hy => rw [hy]
  · rfl

end

end Sys2Proof.Machine
end

