-- ==== Sys2Proof/Proofs/ContestDrills.lean ====
section
/-! SUPPORT. A drill that takes a zone from a bell (R66, R128), and a bell that sounds when the one before it has finished (R70, R94). -/

namespace Sys2Proof.Machine
open Sys2Proof

/-! ### A drill -/

/-- A state differs from another in ZA, PU and DC alone. -/
structure ZonesBellsDrill (s t : State) : Prop where
  eq : t = { s with za := t.za, pu := t.pu, dc := t.dc }

theorem ZonesBellsDrill.same {s t : State} (h : ZonesBellsDrill s t) : SameBut [.za, .pu, .dc] s t := by
  rw [h.eq]
  exact ⟨fun _ => rfl, fun _ => rfl, fun _ => rfl, fun k => (k (by decide)).elim, fun k => (k (by decide)).elim, fun _ => rfl,
    fun k => (k (by decide)).elim, fun _ => rfl, fun _ => rfl, fun _ => rfl⟩

theorem ZonesAndBells.toDrill {s t : State} (h : ZonesAndBells s t) : ZonesBellsDrill s t := ⟨by rw [h.eq]⟩

theorem ZonesBellsDrill.trans {s t u : State} (h : ZonesBellsDrill s t) (k : ZonesBellsDrill t u) : ZonesBellsDrill s u := ⟨by rw [k.eq, h.eq]⟩

section
variable {u : State} {ws : List Work} {c : Ctx} {z n0 deadline : Nat} {b0 : Bell} {e : BellZone} {g : Claim} {d : ActiveDrill}

/-- R66, R128: a drill without tone takes its only zone from a bell, and has started. -/
theorem Amid.drill_takes_from_bell (h : Amid u [] (.drillClaim z :: .drillStarted :: ws) c) (hd : u.dc.active = some d) (hdz : d.zones = [])
    (hx : Contest z u) (hb : BellHolds n0 z deadline b0 e g u) (hnw : (u.zone z).waiters = []) (hlev : 1 < g.level) :
    ∃ f t k, Leads 4 c f ∧ Framed c.st f.st ∧ Amid t [] ws f ∧ ZoneTaken n0 z deadline b0 e g u t ∧ ZonesBellsDrill u t
      ∧ t.dc.active = some { d with zones := [grantedZone z u.elapsed ⟨31, 1000 * d.record.sounding⟩ d] }
      ∧ t.zoneRec = u.zoneRec ∧ (t.zone z).holder = some k ∧ k.who = .drill d.num ∧ k.level = 1 := by
  have hclaim : doWork (.drillClaim z) { c with todo := [] } = claim z (drillClaimOf d.num ⟨31, 1000 * d.record.sounding⟩) { c with todo := [] } := by
    show Machine.drillClaim z _ = _
    unfold Machine.drillClaim
    rw [show ({ c with todo := [] } : Ctx).st.dc.active = some d from (congrArg DrillControl.active h.state.dc).trans hd]
  have hl : z < u.za.zones.length := lt_of_lt_of_eq hx.range hx.counts.zones.symm
  obtain ⟨d1, v, fs, hl1, hf1, h1, hnow⟩ := h.takes_from_bell nofun hx hb hnw (x := drillClaimOf d.num ⟨31, 1000 * d.record.sounding⟩) nofun hlev rfl hclaim
  have hvz (y : Nat) : v.zone y = if y = z then
      ⟨some ((drillClaimOf d.num ⟨31, 1000 * d.record.sounding⟩).holding u), g.rejoining u.elapsed, none, .quiet⟩ else u.zone y := by
    rw [hnow.only]
    exact zoneAs_zone hl _ fs y
  have hown := (hvz z).trans (if_pos rfl)
  have hvu : ZonesAndBells u v := ⟨by
    rw [hnow.only]
    rfl⟩
  have hel : v.elapsed = u.elapsed := by rw [hvu.eq]
  have hvr : v.zoneRec = u.zoneRec := by
    rw [hnow.only]
    rfl
  obtain ⟨d2, hl2, hf2, h2⟩ := h1.passesAns ((h1.dropAns []).drill_granted (d := d) (by rw [hvu.eq]; exact hd) (by rw [hdz]; exact fun x hx => absurd hx List.not_mem_nil)
    (congrArg ZoneDyn.holder hown) rfl rfl)
  obtain ⟨d3, hl3, hf3, h3⟩ := h2.passesCall nofun h2.alone.drillStarted
  rw [hdz, hel] at h3
  have hvl : z < v.za.zones.length := by
    rw [hnow.only]
    exact lt_of_lt_of_eq hl (List.length_modify ..).symm
  have htz (y : Nat) := setZone_zone (v.drillAs { d with zones := [grantedZone z u.elapsed ⟨31, 1000 * d.record.sounding⟩ d] }) z y
    (fun x => { x with cadence := (v.pattern 31).cadenceAt 0 }) hvl
  have htown := ((htz z).trans (if_pos rfl)).trans (congrArg (fun x : ZoneDyn => { x with cadence := (v.pattern 31).cadenceAt 0 }) hown)
  refine ⟨d3, _, _, (hl1.trans hl2).trans hl3, (hf1.trans hf2).trans hf3, h3, ?_, hvu.toDrill.trans ⟨rfl⟩, rfl, hvr, congrArg ZoneDyn.holder htown, rfl, rfl⟩
  exact .of_zone hb.onPreempt (congrArg ZoneDyn.waiters htown) hnow.bell fun y hy => ((htz y).trans (if_neg hy)).trans ((hvz y).trans (if_neg hy))

end

/-! ### The end of a bell's cadence -/

/-- The bell has finished in a zone (R90). -/
def Bell.finishedIn (z : Nat) (b : Bell) : Bell := b.setZone z fun e => { e with st := .finished }

theorem Contest.setBell {z n : Nat} {s : State} {f : Bell → Bell} (h : Contest z s) : Contest z (s.setBell n f) :=
  ⟨⟨h.counts.zones, h.counts.feeds, h.counts.channels, h.counts.circuits, h.counts.lines, h.counts.inputs, h.counts.outputs⟩, h.range, h.enabled,
    h.noFire, h.alone, h.silentLine, h.bare⟩

section
variable {u : State} {c : Ctx} {z n0 deadline m : Nat} {b0 b : Bell} {e x : BellZone} {g w : Claim} (h : Amid u [] [] c) (hx : Contest z u)
  (hb : BellHolds n0 z deadline b0 e g u) (hs : e.st = .sounding) (ht : e.start + b0.length ≤ u.elapsed) (hw : (u.zone z).waiters = [w])
  (hq : w.speaking = false)
include h hx hb hs ht hw hq

/-- R70, R90, R94: a bell finishes in its only zone and has ended, and the one claim that waits for the zone is granted it. -/
theorem Amid.finishes_before : ∃ fs, Amid ((u.zoneGiven z ⟨some { w with grantEv := u.eventNo }, [], none, .quiet⟩ fs).bellGone n0)
    [.zone w.who z .granted] [] (Machine.bellFinish n0 z c) := by
  have h1 := h.upd (riFree_setBell n0 (Bell.finishedIn z))
  obtain ⟨fs, h2⟩ := h1.releases hx.setBell hb.holder hw hb.unreserved hq fun v hv => absurd hv List.not_mem_nil
  rw [hb.who] at h2
  have h3 := Amid.bellCheck_over (n := n0) h2 (setBell_bell (s := u) (f := Bell.finishedIn z) (fun _ => rfl) hb.bell)
    (congrArg Bell.zones (Bell.setZone_of_single hb.zones hb.zone fun e => { e with st := .finished })) ⟨nofun, nofun⟩
  have hgone : ((u.setBell n0 (Bell.finishedIn z)).zoneGiven z ⟨some { w with grantEv := u.eventNo }, [], none, .quiet⟩ fs).bellGone n0 =
      (u.zoneGiven z ⟨some { w with grantEv := u.eventNo }, [], none, .quiet⟩ fs).bellGone n0 :=
    bellGone_setBell n0 (Bell.finishedIn z) (fun _ => rfl) (u.zoneGiven z ⟨some { w with grantEv := u.eventNo }, [], none, .quiet⟩ fs)
  refine ⟨fs, ?_⟩
  unfold Machine.bellFinish
  rw [congrFun h.state.bell n0, hb.bell]
  simp only [Bell.zone?_of_single hb.zones hb.zone]
  rw [if_pos (by simp [hs, h.state.elapsed, ht]), ← hgone]
  exact h3

/-- R70, R90: the bell that waits sounds when the one before it has finished. -/
theorem Amid.next_sounds (hwho : w.who = .bell m) (hm : m ≠ n0) (hbm : u.bell? m = some b) (hbz : b.zones = [x]) (hxz : x.zone = z) :
    ∃ d t, Leads 1 (Machine.bellFinish n0 z c) d ∧ Amid t [] [] d ∧ ZonesAndBells u t ∧ t.bell? n0 = none
      ∧ t.zone z = ⟨some { w with grantEv := u.eventNo }, [], none, (u.pattern b.pattern).cadenceAt 0⟩ ∧ (∀ y, y ≠ z → t.zone y = u.zone y)
      ∧ t.bell? m = some { b with zones := [{ x with st := .sounding, sounded := true, start := u.elapsed }] } := by
  obtain ⟨fs, h1⟩ := h.finishes_before hx hb hs ht hw hq
  have hl : z < u.za.zones.length := lt_of_lt_of_eq hx.range hx.counts.zones.symm
  let v : State := u.zoneGiven z ⟨some { w with grantEv := u.eventNo }, [], none, .quiet⟩ fs
  have hvz (y : Nat) : (v.bellGone n0).zone y = if y = z then ⟨some { w with grantEv := u.eventNo }, [], none, .quiet⟩ else u.zone y := zoneGiven_zone hl _ fs y
  have hown := (hvz z).trans (if_pos rfl)
  have hvb : (v.bellGone n0).bell? m = some b := (bellGone_bell_ne (s := v) hm).trans hbm
  have h1' : Amid (v.bellGone n0) [.zone (.bell m) z .granted] [] (Machine.bellFinish n0 z c) := by
    rw [← hwho]
    exact h1
  obtain ⟨d, hlead, h2⟩ := h1'.takesAns ((h1'.dropAns []).bell_granted (n := m) hvb (hx.silentLine z) (congrArg ZoneDyn.holder hown) hwho)
  have hvl : z < ((v.bellGone n0).setBell m (Bell.soundingIn z u.elapsed)).za.zones.length := lt_of_lt_of_eq hl (List.length_modify ..).symm
  have htz (y : Nat) := setZone_zone ((v.bellGone n0).setBell m (Bell.soundingIn z u.elapsed)) z y
    (fun d => { d with cadence := (u.pattern b.pattern).cadenceAt 0 }) hvl
  refine ⟨d, _, hlead, h2, ⟨rfl⟩, ?_, ?_, fun y hy => ?_, ?_⟩
  · exact (setBell_bell_ne (s := v.bellGone n0) (n := m) (f := Bell.soundingIn z u.elapsed) (fun _ => rfl) hm.symm).trans (bellGone_bell n0)
  · exact ((htz z).trans (if_pos rfl)).trans (congrArg (fun d : ZoneDyn => { d with cadence := (u.pattern b.pattern).cadenceAt 0 }) hown)
  · exact ((htz y).trans (if_neg hy)).trans ((hvz y).trans (if_neg hy))
  · refine (setBell_bell (s := v.bellGone n0) (f := Bell.soundingIn z u.elapsed) (fun _ => rfl) hvb).trans ?_
    rw [Bell.soundingIn, Bell.setZone_of_single hbz hxz]

end

end Sys2Proof.Machine
end

