-- ==== Sys2Proof/Proofs/ContestEvents.lean ====
section
/-! SUPPORT. The contests of O24 as events: RING, START DRILL and the end of a bell's cadence. -/

namespace Sys2Proof.Machine
open Sys2Proof

theorem ZonesAndBells.same {s t : State} (h : ZonesAndBells s t) : SameBut [.za, .pu] s t := by
  rw [h.eq]
  exact ⟨fun _ => rfl, fun _ => rfl, fun _ => rfl, fun k => (k (by decide)).elim, fun k => (k (by decide)).elim, fun _ => rfl, fun _ => rfl,
    fun _ => rfl, fun _ => rfl, fun _ => rfl⟩

theorem ZoneTaken.of_only {n z deadline : Nat} {b : Bell} {e : BellZone} {g : Claim} {s t v : State} (h : ZoneTaken n z deadline b e g s t)
    (k : RiOnly t v) : ZoneTaken n z deadline b e g s v := by
  refine ⟨fun hd => ?_, fun hd => ?_, fun y hy => (congrFun k.zone y).trans (h.others y hy)⟩
  · rw [k.zone, k.bell]
    exact h.waits hd
  · rw [k.zone, k.bell]
    exact h.ended hd

/-! ### RING -/

/-- What a RING at this level leaves of the zone that a bell holds and of the bells. -/
structure RingContested (z n0 deadline : Nat) (b0 : Bell) (e : BellZone) (g : Claim) (n level pattern defer : Nat) (s t : State) : Prop where
  same : SameBut [.za, .pu] s t
  takes : level < g.level → ZoneTaken n0 z deadline b0 e g s t ∧ ∃ k b, (t.zone z).holder = some k ∧ k.who = .bell n ∧ k.level = level
    ∧ t.bell? n = some b ∧ b.zones = [⟨z, .sounding, true, s.elapsed⟩] ∧ (t.zone z).cadence = (s.pattern pattern).cadenceAt 0
  waits : g.level ≤ level → 0 < defer → ∃ w b, t.zone z = { s.zone z with waiters := [w] } ∧ w.who = .bell n ∧ w.level = level
    ∧ w.waitLimit = some (s.elapsed + 1000 * min defer 120) ∧ t.pu.bells = s.pu.bells ++ [b] ∧ b.num = n
    ∧ b.zones = [⟨z, .waiting, false, 0⟩] ∧ ∀ y, y ≠ z → t.zone y = s.zone y
  misses : g.level ≤ level → defer = 0 → t.pu.bells = s.pu.bells ∧ ∀ y, t.zone y = s.zone y

section
variable {s : State} {src : BellSource} {b : Bell} {z n0 deadline defer : Nat} {b0 : Bell} {e : BellZone} {g : Claim} {c : Ctx}
  (h : Amid (s.bellAdded src b) [] [.bellClaim b.num z] c) (hu : BellContest z b n0 deadline b0 e g (s.bellAdded src b))
  (hn : ∀ x, x ∈ s.pu.bells → x.num ≠ b.num) (hd : b.deadline = s.elapsed + 1000 * min defer 120)
include h hu hn hd

/-- R66, R92, R94: the new bell takes the zone, waits for it or is missed, by its level and its defer time. -/
theorem Amid.ring_contested : RingContested z n0 deadline b0 e g b.num b.level b.pattern defer s c.close := by
  have hz : (s.bellAdded src b).zone = s.zone := rfl
  by_cases hlev : b.level < g.level
  · obtain ⟨d, t, k, hl, h1, htaken, hzb, hh, hw, hkl, hcad, hb⟩ := h.ring_takes hu hlev
    have hk := h1.leaves hl (by decide)
    refine ⟨(SameBut.trans (sameBut_pu (by decide) rfl) hzb.same).of_only hk, fun _ => ⟨?_, k, _, ?_, hw, hkl, (congrFun hk.bell b.num).trans hb, rfl, ?_⟩,
      fun hge => absurd hlev (Nat.not_lt.2 hge), fun hge => absurd hlev (Nat.not_lt.2 hge)⟩
    · have := htaken.of_only hk
      exact ⟨this.waits, this.ended, this.others⟩
    · rw [hk.zone]; exact hh
    · rw [hk.zone]; exact hcad
  · have hge := Nat.not_lt.1 hlev
    by_cases hdef : 0 < defer
    · obtain ⟨d, t, w, hl, h1, hzb, htz, hw, hwl, hlim, hpu, ho⟩ := h.ring_waits hu hge (by rw [hd]; show s.elapsed < _; omega)
      have hk := h1.leaves hl (by decide)
      refine ⟨(SameBut.trans (sameBut_pu (by decide) rfl) hzb.same).of_only hk, fun hlt => absurd hlt hlev,
        fun _ _ => ⟨w, b.waitingIn z, ?_, hw, hwl, hlim.trans (congrArg some hd), ?_, rfl, ?_, fun y hy => (congrFun hk.zone y).trans (ho y hy)⟩,
        fun _ h0 => by omega⟩
      · exact (congrFun hk.zone z).trans htz
      · rw [hk.pu, hpu, bellAdded_setBell (f := Bell.waitingIn z) hn rfl]
        rfl
      · rw [Bell.waitingIn, Bell.setZone_of_single hu.zones rfl]
    · obtain ⟨d, t, hl, h1, hzb, hpu, ho⟩ := h.ring_misses hu hge (by rw [hd]; show _ ≤ s.elapsed; omega)
      have hk := h1.leaves hl (by decide)
      refine ⟨(SameBut.trans (sameBut_pu (by decide) rfl) hzb.same).of_only hk, fun hlt => absurd hlt hlev, fun _ h0 => absurd h0 hdef,
        fun _ _ => ⟨?_, fun y => (congrFun hk.zone y).trans (ho y)⟩⟩
      rw [hk.pu, hpu]
      show (s.pu.bells ++ [b]).filter (fun x => x.num != b.num) = s.pu.bells
      rw [List.filter_append, List.filter_eq_self.2 fun x hx => by simpa using hn x hx]
      simp

end

section
variable {s : State} {z n0 deadline : Nat} {b0 : Bell} {e : BellZone} {g : Claim}

/-- RING on a zone that a bell holds. -/
theorem ring_on_held {q : ReqHdr} {p : RingParams} {n : Nat} (hx : Contest z s) (hlog : LogSound s.ri) (hb : BellHolds n0 z deadline b0 e g s)
    (hr : s.reaches q = true) (hw : (s.zone z).waiters = []) (hrange : ¬ ringOutOfRange p) (hbad : ¬ ringBad p s)
    (ht : ringTarget p s = BitVec.twoPow 64 z) (hn : freeBell s.pu.bells = some n) :
    ∃ t, exec (.ring q p) s = .next t ∧ Decided q (ringOutcome p) [numWord n, numWord 1] s t
      ∧ RingContested z n0 deadline b0 e g n p.level p.pattern p.defer s t := by
  obtain ⟨c, b, hex, hdec, h1, rfl, hl, hp, hd, hz⟩ := ring_begins hr hlog hrange hbad hx.range ht hn
  have hu : BellContest z b n0 deadline b0 e g ((s.taking q).bellAdded (.ring q.tag) b) :=
    ⟨hx.ringing, hb.ringing, hw, bellAdded_bell (u := s.taking q) (freeBell_spec hn) (.ring q.tag), bell_num_ne hn hb.bell, hz⟩
  have hk := h1.ring_contested (defer := p.defer) hu (freeBell_spec hn) hd
  rw [hl, hp] at hk
  refine ⟨_, hex, hdec, SameBut.of_taking hk.same, fun hlev => ?_, hk.waits, hk.misses⟩
  obtain ⟨ht, hrest⟩ := hk.takes hlev
  exact ⟨⟨ht.waits, ht.ended, ht.others⟩, hrest⟩

/-! ### START DRILL -/

/-- START DRILL of a drill whose only zone a bell holds. -/
theorem startDrill_on_held {q : ReqHdr} {n : Nat} (hx : Contest z s) (hlog : LogSound s.ri) (hb : BellHolds n0 z deadline b0 e g s)
    (hr : s.reaches q = true) (hw : (s.zone z).waiters = []) (hlev : 1 < g.level) (h7 : n ≤ 7) (hn : drillRefusal s n = none)
    (ht : (s.dc.records.getD n DrillRec.undefined).tone = false) (hz : drillZones s (s.dc.records.getD n DrillRec.undefined) = [z]) :
    ∃ t k, exec (.startDrill q n) s = .next t ∧ SameBut [.za, .pu, .dc] s t ∧ Decided q .done [numWord n, numWord 1] s t
      ∧ ZoneTaken n0 z deadline b0 e g s t ∧ (t.zone z).holder = some k ∧ k.who = .drill n ∧ k.level = 1 ∧ t.zoneState z = .evac := by
  have hd : decideRequest (.startDrill q n) (s.deciding q) = (drillStart (.request q.tag) n (s.deciding q)).call [.startAnswer q n] :=
    decideStartDrill_taken (c := s.deciding q) h7 hn
  have h1 := ((amid_deciding q s).drillStart ht (.request q.tag)).call [.startAnswer q n]
  rw [show drillZones (s.taking q) ((s.taking q).dc.records.getD n DrillRec.undefined) = [z] from hz] at h1
  have hx1 : Contest z ((s.taking q).drillAs (newDrill (s.taking q) (.request q.tag) n)) :=
    ⟨⟨hx.counts.zones, hx.counts.feeds, hx.counts.channels, hx.counts.circuits, hx.counts.lines, hx.counts.inputs, hx.counts.outputs⟩, hx.range, hx.enabled,
      hx.noFire, hx.alone, hx.silentLine, hx.bare⟩
  have hb1 : BellHolds n0 z deadline b0 e g ((s.taking q).drillAs (newDrill (s.taking q) (.request q.tag) n)) :=
    ⟨hb.bell, hb.zones, hb.zone, hb.sounded, hb.holder, hb.who, hb.quiet, hb.onPreempt, hb.unreserved⟩
  obtain ⟨f, v, k, hl, hfr, h2, htaken, hzbd, hdc, hrec, hh, hkw, hkl⟩ := h1.drill_takes_from_bell rfl rfl hx1 hb1 hw hlev
  have hcl := close_of_closes (hl 1 _ (h2.start_answered hdc)) (by decide)
  have hex : exec (.startDrill q n) s = .next (f.st.answer q .done [numWord n, numWord 1]) := by
    rw [exec_request rfl hr, hd, hcl]
    rfl
  have hstart : Framed (s.taking q) ((drillStart (.request q.tag) n (s.deciding q)).call [.startAnswer q n]).st :=
    (drillStart_cturn (CTurn.refl (s.deciding q)) (origin := .request q.tag) (num := n)).st.toPassed.framed
  have hk := h2.state.trans (riOnly_answer f.st q .done [numWord n, numWord 1])
  have hsame : SameBut [.za, .pu, .dc] s v := SameBut.of_taking (q := q) (SameBut.trans (sameBut_dc (by decide) rfl) hzbd.same)
  have hown := (congrArg ZoneDyn.holder (congrFun hk.zone z)).trans hh
  have htk := htaken.of_only hk
  refine ⟨_, k, hex, hsame.of_only hk, decided_of_answer hr hlog (by simp) (hstart.trans hfr), ⟨htk.waits, htk.ended, htk.others⟩, hown, hkw, hkl, ?_⟩
  exact zoneState_of_drill ((congrArg ZoneRec.enabled ((congrFun hk.zoneRec z).trans (congrFun hrec z))).trans hx.enabled) hown hkw

/-! ### The end of a cadence -/

/-- The end of a bell's cadence in a zone that another bell waits for. -/
theorem bellCadenceEnd_before {w : Claim} {m : Nat} {b : Bell} {x : BellZone} (hx : Contest z s) (hb : BellHolds n0 z deadline b0 e g s)
    (hr : s.running = true) (hs : e.st = .sounding) (ht : e.start + b0.length ≤ s.elapsed) (hw : (s.zone z).waiters = [w]) (hwho : w.who = .bell m)
    (hm : m ≠ n0) (hq : w.speaking = false) (hbm : s.bell? m = some b) (hbz : b.zones = [x]) (hxz : x.zone = z) :
    ∃ t, exec (.bellCadenceEnd n0 z) s = .next t ∧ t.bell? n0 = none ∧ SameBut [.za, .pu] s t
      ∧ t.zone z = ⟨some { w with grantEv := s.eventNo + 1 }, [], none, (s.pattern b.pattern).cadenceAt 0⟩ ∧ (∀ y, y ≠ z → t.zone y = s.zone y)
      ∧ t.bell? m = some { b with zones := [{ x with st := .sounding, sounded := true, start := s.elapsed }] } := by
  have hx1 : Contest z s.started :=
    ⟨⟨hx.counts.zones, hx.counts.feeds, hx.counts.channels, hx.counts.circuits, hx.counts.lines, hx.counts.inputs, hx.counts.outputs⟩, hx.range, hx.enabled,
      hx.noFire, hx.alone, hx.silentLine, hx.bare⟩
  have hb1 : BellHolds n0 z deadline b0 e g s.started :=
    ⟨hb.bell, hb.zones, hb.zone, hb.sounded, hb.holder, hb.who, hb.quiet, hb.onPreempt, hb.unreserved⟩
  obtain ⟨d, t, hl, h1, hzb, hgone, hown, ho, hnext⟩ := (amid_begin s).next_sounds hx1 hb1 hs ht hw hq hwho hm hbm hbz hxz
  have hk := h1.leaves hl (by decide)
  refine ⟨_, congrArg Host.Outcome.next (event_of_running hr _), ?_, SameBut.of_started (hzb.same.of_only hk), (congrFun hk.zone z).trans hown,
    fun y hy => (congrFun hk.zone y).trans (ho y hy), (congrFun hk.bell m).trans hnext⟩
  exact (congrFun hk.bell n0).trans hgone

end

end Sys2Proof.Machine
end

