-- ==== Sys2Proof/Proofs/Contested.lean ====
section
/-! SUPPORT. O24: contested claims, at the Zone Arbiter and as events. -/

namespace Sys2Proof.Machine
open Sys2Proof

/-! ### Claims -/

section
variable {z : Nat} {x : Claim} {c : Ctx}

/-- A claim's zone alone has changed. -/
def Becomes (z : Nat) (s t : State) (d : ZoneDyn) : Prop := t.zone z = d ∧ ∀ y, y ≠ z → t.zone y = s.zone y

theorem becomes_of_zoneAs {s t : State} (hx : Contest z s) {d : ZoneDyn} {fs : List (Option FeedHolder)} (h : RiOnly (s.zoneAs z d fs) t) : Becomes z s t d := by
  have hz := zoneAs_zone (lt_of_lt_of_eq hx.range hx.counts.zones.symm : z < s.za.zones.length) d fs
  exact ⟨(congrFun h.zone z).trans ((hz z).trans (if_pos rfl)), fun y hy => (congrFun h.zone y).trans ((hz y).trans (if_neg hy))⟩

theorem becomes_of_same {s t : State} (h : ∀ y, t.zone y = s.zone y) : Becomes z s t (s.zone z) := ⟨h z, fun y _ => h y⟩

variable (hx : Contest z c.st) (hw : ∀ w, w ∈ (c.st.zone z).waiters → w.who ≠ x.who)
include hx hw

section
variable {g : Claim} (hg : (c.st.zone z).holder = some g) (hne : g.who ≠ x.who)
include hg hne

/-- R66, R67: a better claim takes a held zone that nobody waits for. -/
theorem claim_better (hlev : x.level < g.level) (hq : x.speaking = false) (hnw : (c.st.zone z).waiters = []) :
    Becomes z c.st (claim z x c).st ⟨some (x.holding c.st), g.rejoining c.st.elapsed, none, .quiet⟩ := by
  obtain ⟨fs, h⟩ := (amid_refl c).claim_takes hx hg hne hw hlev hq hnw
  exact becomes_of_zoneAs hx h.state

variable (hlev : g.level ≤ x.level)
include hlev

/-- R66: a claim that is no better and may not wait leaves a held zone as it is. -/
theorem claim_not_waiting (hm : x.mayWait = false) : Becomes z c.st (claim z x c).st (c.st.zone z) := by
  obtain ⟨fs, r, h⟩ := (amid_refl c).claim_loses hx hg hne hw hlev hm
  exact becomes_of_zoneAs hx h.state

variable (hm : x.mayWait = true) {us vs : List Claim}
include hm

/-- R68: a claim joins a wait list with room. -/
theorem claim_joins (hl : (c.st.zone z).waiters = us ++ vs) (hlen : us.length + vs.length < 4)
    (hb : (∀ u, u ∈ us → u.level < x.level ∨ (u.level = x.level ∧ u.arrival ≤ c.st.za.arrival)) ∧ ∀ v, v ∈ vs → x.level < v.level) :
    Becomes z c.st (claim z x c).st { c.st.zone z with waiters := us ++ x.arriving c.st :: vs } := by
  obtain ⟨fs, h⟩ := (amid_refl c).claim_waits hx hg hne hw hlev hm (by rw [hl, List.length_append]; exact hlen)
  rw [hl, arriving_between hb] at h
  exact becomes_of_zoneAs hx h.state

variable {w : Claim} (hl : (c.st.zone z).waiters = us ++ vs ++ [w]) (hlen : us.length + vs.length = 3)
include hl hlen

/-- R68: a claim no better than four that wait is turned away. -/
theorem claim_turned_away (hwl : w.level ≤ x.level) : Becomes z c.st (claim z x c).st (c.st.zone z) := by
  obtain ⟨fs, h⟩ := (amid_refl c).claim_full hx hg hne hw hl ((List.length_append ..).trans hlen) hlev hm hwl
  exact becomes_of_zoneAs hx h.state

/-- R68: a claim better than the last of four that wait takes its place in the list. -/
theorem claim_evicts (hwl : x.level < w.level)
    (hb : (∀ u, u ∈ us → u.level < x.level ∨ (u.level = x.level ∧ u.arrival ≤ c.st.za.arrival)) ∧ ∀ v, v ∈ vs → x.level < v.level)
    (hu : ∀ u, u ∈ us ++ vs → u.who ≠ w.who) (hres : (c.st.zone z).reserved = none) :
    Becomes z c.st (claim z x c).st { c.st.zone z with waiters := us ++ x.arriving c.st :: vs } := by
  obtain ⟨fs, h⟩ := (amid_refl c).claim_replaces hx hg hne hw hl ((List.length_append ..).trans hlen) hlev hm hwl
  have hout : (c.st.zone z).without w.who = { c.st.zone z with waiters := us ++ vs } := by
    have : (us ++ vs ++ [w]).filter (fun v => v.who != w.who) = us ++ vs := by
      rw [List.filter_append, List.filter_eq_self.2 fun v hv => by simpa using hu v hv]
      simp
    simp only [ZoneDyn.without, hl, this, hres]
    rfl
  rw [hout, arriving_between hb] at h
  exact becomes_of_zoneAs hx h.state

end

end

/-- Settles O24. -/
theorem contestedZonesGoByLevel : Obligations.ContestedZonesGoByLevel := by
  unfold Obligations.ContestedZonesGoByLevel
  refine ⟨fun z x c hx hh hw => ⟨fun g hg hres => ?_, fun v f hg hv hres hsp hf hne hfl harr => ?_, fun f hg hnw hres hsp hf hne => ?_⟩,
    fun z g w ws c hx hg hws hres hq hu => ?_, fun z n0 deadline b0 e g s hx hlog hb => ⟨?_, ?_, ?_⟩⟩
  · have hne := hh g hg
    refine ⟨claim_better hx hw hg hne, claim_not_waiting hx hw hg hne, fun hlev hm us vs => ⟨claim_joins hx hw hg hne hlev hm, fun w hl hlen => ⟨?_, ?_⟩⟩⟩
    · exact claim_turned_away hx hw hg hne hlev hm hl hlen
    · exact fun hwl hb hu => claim_evicts hx hw hg hne hlev hm hl hlen hwl hb hu hres
  · refine ⟨fun hlev hq => ?_, fun hlev hm => ?_, fun hlev hm => ?_⟩
    · obtain ⟨fs, h⟩ := (amid_refl c).claim_passes hg hx hw hv hres hlev hq
      exact becomes_of_zoneAs hx h.state
    · obtain ⟨t, bs, h, htz, ho⟩ := (amid_refl c).claim_queues hg hx hw hv hres hsp hf hne hfl hlev hm harr
      exact ⟨(congrFun h.state.zone z).trans htz, fun y hy => (congrFun h.state.zone y).trans (ho y hy)⟩
    · obtain ⟨t, bs, h, ho⟩ := (amid_refl c).claim_lost hg hx hw hv hres hsp hf hne hfl hlev hm
      exact becomes_of_same fun y => (congrFun h.state.zone y).trans (ho y)
  · refine ⟨fun hlev => ?_, fun hlev => ?_⟩
    · obtain ⟨t, bs, h, hfs, htz, ho⟩ := (amid_refl c).claim_reserves hg hx hw hnw hsp hf hne hlev
      exact ⟨(congrArg ZoneArbiter.feeds h.state.za).trans hfs, (congrFun h.state.zone z).trans htz, fun y hy => (congrFun h.state.zone y).trans (ho y hy)⟩
    · obtain ⟨t, bs, h, hfs, htz, ho⟩ := (amid_refl c).claim_takes_feed hx hg hnw hsp hf hne hlev
      refine ⟨(congrArg ZoneArbiter.feeds h.state.za).trans hfs, (congrFun h.state.zone z).trans htz, fun y hy => ?_⟩
      have hy' := congrFun h.state.zone y
      by_cases hl : ∃ k, HoldsIn f.who (c.st.buildingOf z) c.st y k
      · obtain ⟨k, hk⟩ := hl
        have he := hy'.trans ((ho y hy).held k hk)
        obtain ⟨h64, hbld, hkh, hkw⟩ := hk
        exact .inl ⟨k, h64, hbld, hkh, hkw, he⟩
      · exact .inr ⟨hl, hy'.trans ((ho y hy).other hl)⟩
  · obtain ⟨fs, h⟩ := (amid_refl c).releases hx hg hws hres hq hu
    have hz := zoneGiven_zone (lt_of_lt_of_eq hx.range hx.counts.zones.symm : z < c.st.za.zones.length)
      ⟨some { w with grantEv := c.st.eventNo }, ws, none, .quiet⟩ fs
    exact ⟨(congrFun h.state.zone z).trans ((hz z).trans (if_pos rfl)), fun y hy => (congrFun h.state.zone y).trans ((hz y).trans (if_neg hy))⟩
  · intro q p n hr hw hk ht hgrp hpat hsteps hlo hhi hn
    have hrange : ¬ ringOutOfRange p := by unfold ringOutOfRange; omega
    have hnz : BitVec.twoPow 64 z ≠ 0 := fun h0 => by
      have := zonesOf_twoPow hx.range
      rw [h0] at this
      exact absurd this nofun
    have hbad : ¬ ringBad p s := by
      rintro (h1 | h2 | h3)
      · omega
      · exact hsteps h2
      · exact hnz (ht.symm.trans h3)
    obtain ⟨t, hex, hdec, k⟩ := ring_on_held hx hlog hb hr hw hrange hbad ht hn
    refine ⟨t, hex, k.same, hdec, fun hlev => ?_, k.waits, k.misses⟩
    obtain ⟨htk, hrest⟩ := k.takes hlev
    exact ⟨⟨htk.waits, htk.ended, htk.others⟩, hrest⟩
  · intro q n hr hw hlev h7 hn ht hz
    obtain ⟨t, k, hex, hsame, hdec, htk, hh, hkw, hkl, hev⟩ := startDrill_on_held hx hlog hb hr hw hlev h7 hn ht hz
    exact ⟨t, k, hex, hsame, hdec, ⟨htk.waits, htk.ended, htk.others⟩, hh, hkw, hkl, hev⟩
  · intro w m b x hr hs ht hw hwho hm hq hbm hbz hxz
    exact bellCadenceEnd_before hx hb hr hs ht hw hwho hm hq hbm hbz hxz

end Sys2Proof.Machine
end
